-- ==== Sys2Proof/Word.lean ====
section
/-! DEFINITION. The word types of the C16K, the sparse table that holds its memories and register banks, and
their plainest arithmetic (R6). -/

namespace Sys2Proof

/-- A byte, the unit of every byte string of the manual (R6). -/
abbrev Byte := BitVec 8

/-- A 32-bit word: a management register, a data or address register (R15, R317). -/
abbrev Word := BitVec 32

/-- A 64-bit doubleword. -/
abbrev DWord := BitVec 64

/-- A table of keyed entries with strictly rising keys. A key that is not listed holds the default value that the
accessor names. -/
abbrev Tbl (α : Type) := List (Nat × α)

end Sys2Proof
end

