-- ==== Sys2Proof/Machine/Operands.lean ====
section
/-! DEFINITION. The operand types of the commands: what a particle strikes, what the link frames of a group carry, and
the plain data of the frame scheduler and of the command layer that a checkpoint holds. -/

namespace Sys2Proof.Machine

open Sys2Proof

/-- Where a particle strikes (R167, R180, R181, R192), with the flips it makes. -/
inductive UpsetAt where
  /-- A stored word of the configuration SRAM with its 8 check bits; `hard` when a bit is left stuck (R175). -/
  | config (bank : Bool) (frame : Fin 96) (word : Fin 64) (flips : BitVec 72) (hard : Bool)
  /-- A working copy of the scrubber's control word. -/
  | control (copy : Fin 3) (en : Bool) (region : BitVec 2) (period : BitVec 8) (src : BitVec 2)
  /-- The stored golden copy with its check bits. -/
  | golden (flips : BitVec 24)
  /-- The scrubber's triplicated sequencing registers. -/
  | sequencer
  /-- A conductor SRAM word with its 7 check bits: words 0 to 16383 instruction SRAM, the rest data SRAM. -/
  | conductor (word : Fin 49152) (flips : BitVec 39)
  /-- A Topiary microword with its 7 check bits. -/
  | topiary (part : Fin 4) (word : Fin 4096) (flips : BitVec 47)
  /-- A sample store record with its parity bit. -/
  | record (half : Bool) (i : Fin 65536)
  /-- A sample store stamp with its check bits. -/
  | stamp (half : Bool) (block : Fin 1024) (flips : BitVec 72)
  /-- One bit of a PE's local memory. -/
  | pe (row col : Fin 128) (plane : Fin 2048)
deriving DecidableEq, Repr

/-- A quadrature transition: a legal edge forward or in reverse, or both inputs at once (R46, R61). -/
inductive QeiMove where
  | forward | reverse | illegal
deriving DecidableEq, Repr

/-- Frame states with their codes in FRM_STATE (R85). -/
inductive FState where
  | opening | ingesting | closed | computing | posting | drained
deriving DecidableEq, Repr

/-- A reply slot of a frame (R91, R109, R456, R457). -/
structure Slot where
  fp : Nat                       -- frame program, 0 to 15
  prio : Nat                     -- its priority at the frame's OPENING (R92)
  started : Bool                 -- its computation has started (R106)
  outcome : Option (Nat × Nat)   -- status code and DETAIL, once final
  posted : Bool                  -- its reply is posted (R111)
  body : List Word               -- D0 to D7 at the handler's return (R454)
  restarts : Nat                 -- restarts of R270 in its computation (R456)
  throttled : Bool               -- the array clock ran below nominal during it (R455, R698)
deriving DecidableEq, Repr

/-- A frame of the scheduler (R84, R85). -/
structure Frame where
  count : BitVec 48
  st : FState
  half : Bool                    -- bit 0 of FRM_COUNT (R87)
  coasted : Bool
  reversed : Bool
  overspeed : Bool               -- shorter than ANG_FMIN (R71)
  overflow : Bool                -- a lane region overflowed (R90)
  suspect : Bool                 -- overlaps a suspect interval (R170)
  owed : Bool                    -- a drain after its latest program is owed (R85)
  slots : List Slot
deriving DecidableEq, Repr

/-- A loaded frame program (R91, R101, R385, R508, R509). -/
structure Prog where
  loaded : Bool
  enabled : Bool                 -- enabled at the last boundary that changed it (R91, R407)
  susp : Bool                    -- suspended (R367)
  prio : Nat
  sbase : Nat
  sbands : Nat
  bands : Nat
  evmax : Nat
  hentry : Nat
  eventry : Option Nat
  v : Nat
  h : Nat
  ck : Nat                       -- C_k at solo costs
  ckg : Nat                      -- C_k at group costs
  mSolo : Nat                    -- M_k, X_k (R274) and I_k (R377)
  xSolo : Nat
  mGrp : Nat
  xGrp : Nat
  iCnt : Nat
  codeAt : Nat                   -- byte offset in the partition's code area (R509)
  codeLen : Nat
  table : List (Word × Nat)      -- macro table: word and COUNT (R508)
  faulted : Bool                 -- last computation ended in a fault
deriving DecidableEq, Repr

/-- Shared-resource units (R402), and the changes of R462 that touch none. -/
inductive ResUnit where
  | angle | event (n : Nat) | pacer (k : Nat) | gclk | fabric | capture | lanes | array | topiary | partition
  | scrubber | conductor | power | free
deriving DecidableEq, Repr

/-- An order's identity: where it came from and what its replies copy (R394, R451). -/
structure Order where
  part : Nat
  mbx : Bool                     -- through the management mailbox
  opcode : Nat
  tag : Nat
  sseq : Word
  stamp : Nat
deriving DecidableEq, Repr

/-- What a pending change does when step 3 applies it (R406, R462, R724). -/
inductive ChangeKind where
  | writes (ws : List (Nat × Word))                -- register values written
  | fpSet (fp : Nat) (en : Bool) (prio : Nat)      -- FP_SET (R480)
  | fpDisable (fp : Nat)                           -- the disable of FP_ABORT (R481)
  | keeper (part off : Nat) (data : List Byte)     -- a held keeper write (R484)
  | swap                                           -- an armed fabric configuration (R141)
  | capArm (v : Word)                              -- CAPTURE_ARM (R486)
  | scrubOff                                       -- SCRUB_DISABLE (R186)
  | topSwitch (part : Nat)                         -- an armed Topiary image (R280)
  | topUnload (part : Nat)                         -- TOPIARY_UNLOAD (R490)
  | groupForm                                      -- formation (R547)
  | groupLeave                                     -- GROUP_LEAVE (R504)
deriving DecidableEq, Repr

/-- A change pending for the next boundary. -/
structure Change where
  unit : ResUnit
  mbx : Bool                     -- its master
  stamp : Nat
  kind : ChangeKind
  ord : Option Order             -- the class B command that awaits its completion
deriving DecidableEq, Repr

/-- What an output message shows (R468). -/
inductive MsgSrc where
  | input                                         -- an input message
  | area (addr : Nat)                             -- conductor memory, as it stands
  | fixed (data : List Byte)                      -- data taken at dispatch
  | flash (off : Nat)                             -- a flash region
  | capRam                                        -- the capture RAM
  | trace (part first : Nat)                      -- trace entries from a write count
deriving DecidableEq, Repr

/-- A message slot (R465). -/
structure Msg where
  ord : Order
  src : MsgSrc
  len : Nat
  got : Nat                      -- bytes received of an input message
  data : List Byte               -- received bytes, oldest first
  p0 : Nat                       -- the command's own parameters
  p1 : Nat
  done : Bool                    -- an input message that has reached MLEN
deriving DecidableEq, Repr

/-- What an accepted class E command waits for. -/
inductive Wait where
  | abort (fp : Nat)             -- FP_ABORT: disable applied and ABORTED replies posted (R481)
  | fabric                       -- FABRIC_LOAD from flash: the swap
  | fabricMsg                    -- FABRIC_LOAD by message: the swap
  | topVerify (part : Nat)       -- TOPIARY_LOAD: verification, then the switch
  | retCap                       -- RETURN_CAPTURE
  | flash                        -- FLASH_ERASE, FLASH_WRITE, IMAGE_SELECT
  | form                         -- GROUP_FORM
  | power (target : Nat)         -- POWER_STATE
  | boundary                     -- a class B change
  | message                      -- an open message
  | retest (m0 m1 : Word)        -- FAULT_CLEAR: a retest after the flash command that runs (R621)
deriving DecidableEq, Repr

/-- A command that has been accepted and awaits its final reply (R395, R462). -/
structure Open where
  ord : Order
  wait : Wait
deriving DecidableEq, Repr

/-- A submitted order (R391, R394). -/
structure Sub where
  part : Nat
  mbx : Bool
  idx : Nat                      -- SQ counter value of its entry
  stamp : Nat
  beaten : Option Nat := none    -- stamp of the power order from the I2C port that it lost to (R405)
deriving DecidableEq, Repr

/-- Mailbox states, PRT_MBX_STAT.STATE (R400). -/
inductive MbxState where
  | idle | dispatched | accepted | ready
deriving DecidableEq, Repr

/-- Partitions, rings, arbitration and the command layer (R381 to R410, R449 to R510). -/
structure Prt where
  stamp : Nat                    -- the next dispatch stamp (R394)
  subs : List Sub                -- submitted orders, in stamp order
  sqHead : Tbl Nat
  sqTail : Tbl Nat
  rqHead : Tbl Nat
  rqTail : Tbl Nat
  hold : Tbl (List (List Byte))  -- hold queues (R397)
  holdAct : Tbl Bool             -- a hold suspends the partition's programs (R398)
  skip : Tbl Nat                 -- PRT_HOLDp.SKIP
  last : Tbl (Nat × Nat)         -- SSEQ and stamp of the last dispatched entry of each ring (R470, R560)
  changes : List Change          -- pending changes, in stamp order
  opens : List Open
  msgs : Tbl Msg                 -- message slots 0 to 3
  mbx : MbxState
  mbxStamp : Nat
  mbxCmd : Tbl Byte              -- CMD region, 64 bytes
  mbxRpl : Tbl Byte              -- RPL region, 64 bytes
deriving DecidableEq, Repr

/-- The descriptor of a bound Topiary routine (R278). -/
structure Bind where
  entry : Nat
  len : Nat
  attr : Nat                     -- bit 0 format P, 1 +X, 2 gated
  uses : Nat                     -- fields used: bit 0 PD, 1 PA, 2 PB, 3 WM1
  modDef : Nat
  wmin : Nat
  wmax : Nat
  alias_ : Nat
  nwork : Nat
  k0 : Nat
  k1 : Nat
  k2 : Nat
  kc0 : Nat
  kc1 : Nat
  ka0 : Nat
  ka1 : Nat
  kt0 : Nat
  kt1 : Nat
  cross : Bool                   -- contains a PEOP with NBR not 0 and EDGE 2 or 3 (R252)
deriving DecidableEq, Repr

/-- A Topiary image, active or armed (R277 to R284). -/
structure TopImg where
  crc : Word
  words : Tbl (BitVec 40)
  binds : Tbl Bind               -- keyed by opcode 0x80 to 0xEF
  nrout : Nat
  nwords : Nat
deriving DecidableEq, Repr

/-- The control area of a checkpoint (R560): the manual lists its content and gives it no layout. -/
structure CkptCtl where
  prt : Prt                      -- ring pointers, hold queues, journal, stamps, changes, message slots
  progs : Tbl Prog               -- the program table
  frames : List Frame            -- frames with their reserved slots
deriving DecidableEq, Repr

/-- What a CKPT frame carries to the standby (R538, R560, R562). -/
inductive CkptItem where
  /-- A block of the ring windows or of the partition data pool, 128 bytes. -/
  | block (index : Fin 1792) (data : List Byte)
  /-- The control area, 64 blocks. -/
  | control (c : CkptCtl)
  /-- The end of the checkpoint: its number, its frame count, the blocks sent and whether the CRC of the slot equals
  SCRC. -/
  | commit (num : Nat) (count : BitVec 48) (nblk : Nat) (crcOk : Bool)
deriving DecidableEq, Repr

/-- Payload of an ARRAY frame (R558). -/
inductive ArrayMsg where
  /-- KIND 0: the CRC-32 of the bursts that the peer sent. -/
  | check (crc : Word)
  /-- KIND 1: a member's error report. -/
  | report
  /-- KIND 2: the leader's verdict. -/
  | verdict (restart : Bool)
deriving DecidableEq, Repr

/-- What the training sets tell of one chip (R537, R542). -/
structure ChipInfo where
  strap : BitVec 4
  pagen : Byte
  group : Byte
  members : Nat
deriving DecidableEq, Repr

/-- What the leader sends a member at formation: its verdict of admission, and the copies of R547. -/
structure LeaderCopy where
  admitted : Option (Nat × Nat)  -- the failing program and test, when admission fails (R546)
  count : BitVec 48              -- the leader's FRM_COUNT, all ones when no frame has opened (R548)
  regs : Tbl Word                -- shared-resource registers and partition configuration
  progs : Tbl Prog
  code : Tbl Byte                -- handler code, by conductor address
  top : Tbl TopImg
  cfg : Tbl DWord                -- active fabric configuration bank: 64 * frame + word
  power : Option Nat             -- a power state that the leader orders (R578)
deriving DecidableEq, Repr

/-- Addressing modes of a memory instruction (R333). -/
inductive AddrMode where
  | ind
  | postInc
  | preDec
  | disp (d16 : BitVec 16)
  | index (m : Fin 16) (sc : Fin 4)
deriving DecidableEq, Repr

/-- The link header after its TYPE byte (R419). -/
structure LinkHdr where
  seq : Byte
  part : Byte
  r3 : Byte
  addr : Word
  len : BitVec 16
  r10 : BitVec 16
deriving DecidableEq, Repr

end Sys2Proof.Machine
end

