-- ==== Sys2Proof/Syntax.lean ====
section
/-! DEFINITION. The commands of the C16K: one constructor per row of the operation table. -/

namespace Sys2Proof

open Sys2Proof.Machine

inductive Instr where
  /-- QEI_COUNT (R48). A legal quadrature edge on ANG_A or ANG_B counts ANG_POS, advances the rational scaler and may reach lock, phase 0 or the close angle. -/
  | qeiCount (d : Machine.QeiMove)
  /-- TACH_PULSE (R49). A rising TACH pulse is accepted or rejected against the estimate and advances the measured angle by one pulse step. -/
  | tachPulse
  /-- LINE_CROSSING (R50). A selected mains zero crossing from the comparator or from a lane is timed and used for lock or tracking. -/
  | lineCrossing (back : Nat)
  /-- LINE_CROSSING_TIMEOUT (R50). No selected crossing arrives for 1.25 estimated periods, which is a loss of the LINE source. -/
  | lineCrossingTimeout
  /-- Z_PULSE (R68). An ANG_Z rising edge sets phase 0 or is compared with its expected count; ANG_ZERR is written and the count is realigned. -/
  | zPulse
  /-- TIMER_LOCK (R725). One reference clock cycle after a TIMER source enters ACQUIRING, it enters LOCKED and opens its first frame at phase 0. -/
  | timerLock
  /-- EDGE_TIMEOUT (R61). No valid QEI or TACH edge arrives within EDGETO times the last interval; the clock enters COASTING or LOST. -/
  | edgeTimeout
  /-- COAST_BUDGET_SPENT (R63). The coasted angle has advanced by ANG_COAST frames without reacquisition and the clock enters LOST. -/
  | coastBudgetSpent
  /-- STALL_TIMEOUT (R65). A QEI, TACH or LINE frame has not reached its close angle 20 s after phase 0 and is abandoned with ANG_FLAGS.STALL. -/
  | stallTimeout
  /-- FRAME_BOUNDARY (R86). The angle word's phase reaches the close angle, so one frame closes and the next opens, with the scheduler's five ordered steps. -/
  | frameBoundary
  /-- IDLE_BOUNDARY (R407). While no frame runs, step 3 of the boundary is performed for a dispatched shared-resource order within 10 µs. -/
  | idleBoundary
  /-- ANGLE_EVENT_FIRE (R73). An enabled event table entry fires as the angle reaches its PHASE, strobing lanes, pulsing triggers, setting interrupt bits and marking trace. -/
  | angleEventFire
  /-- PACER_STROBE (R79). A pacer reaches its next phase OFFSET + i × SPACING and strobes its lanes and trigger line. -/
  | pacerStrobe
  /-- PROGRAM_START (R93). After the previous drain, the next program of a closed frame starts computing within the start limit. -/
  | programStart
  /-- DRAIN_END (R95). The drain after a program completes, leaving the array, queue, scratch and staging at zero. -/
  | drainEnd (found : BitVec 132)
  /-- FRAME_REPLY_POST (R111). A frame reply whose outcome is final and whose earlier slots are posted is written to its reply ring or hold queue. -/
  | frameReplyPost (p : Fin 4)
  /-- HELD_REPLY_MOVE (R397). A held reply moves into its reply ring in held order as soon as an entry is free. -/
  | heldReplyMove (p : Fin 4)
  /-- DOZE_ENTRY (R112). An order to enter DOZE takes effect once the array is DRAINED and no frame is COMPUTING. -/
  | dozeEntry
  /-- STANDBY_ENTRY (R113). Slots are shed, computation is abandoned and drained, replies are posted, and the device enters STANDBY. -/
  | standbyEntry (t : Nat) (pins : BitVec 40)
  /-- STANDBY_EXIT_COMPLETE (R693). Leaving STANDBY completes after PLL relock, a scrubber pass, a full drain and the host ports' return. -/
  | standbyExitComplete
  /-- SUPPLY_WAIT_TIMEOUT (R692). VFL or VIO_L does not enter its monitor window within 10 ms of an order to leave STANDBY, causing a reset. -/
  | supplyWaitTimeout
  /-- CELL_NOP (R125). Fabric cell operation with no effect. -/
  | cellNop (c : Fin 64) (t : Nat) (pins : BitVec 40)
  /-- CELL_MOV (R125). Fabric cell writes A to its destination. -/
  | cellMov (c : Fin 64) (t : Nat) (pins : BitVec 40)
  /-- CELL_ADD (R125). Fabric cell adds A and B with carry-in and sets CY. -/
  | cellAdd (c : Fin 64) (t : Nat) (pins : BitVec 40)
  /-- CELL_ADC (R125). Fabric cell adds with CY or the west carry and sets CY. -/
  | cellAdc (c : Fin 64) (t : Nat) (pins : BitVec 40)
  /-- CELL_SUB (R125). Fabric cell subtracts B from A and sets CY for no borrow. -/
  | cellSub (c : Fin 64) (t : Nat) (pins : BitVec 40)
  /-- CELL_SBC (R125). Fabric cell subtracts with CY or the west carry as carry-in. -/
  | cellSbc (c : Fin 64) (t : Nat) (pins : BitVec 40)
  /-- CELL_AND (R125). Fabric cell bitwise AND. -/
  | cellAnd (c : Fin 64) (t : Nat) (pins : BitVec 40)
  /-- CELL_OR (R125). Fabric cell bitwise OR. -/
  | cellOr (c : Fin 64) (t : Nat) (pins : BitVec 40)
  /-- CELL_XOR (R125). Fabric cell bitwise XOR. -/
  | cellXor (c : Fin 64) (t : Nat) (pins : BitVec 40)
  /-- CELL_SHL (R125). Fabric cell shifts A left by IMM. -/
  | cellShl (c : Fin 64) (t : Nat) (pins : BitVec 40)
  /-- CELL_SHR (R125). Fabric cell shifts A right logically by IMM. -/
  | cellShr (c : Fin 64) (t : Nat) (pins : BitVec 40)
  /-- CELL_SAR (R125). Fabric cell shifts A right arithmetically by IMM. -/
  | cellSar (c : Fin 64) (t : Nat) (pins : BitVec 40)
  /-- CELL_MULL (R125). Fabric cell writes the low 24 bits of the signed product. -/
  | cellMull (c : Fin 64) (t : Nat) (pins : BitVec 40)
  /-- CELL_MULH (R125). Fabric cell writes the high 24 bits of the signed product. -/
  | cellMulh (c : Fin 64) (t : Nat) (pins : BitVec 40)
  /-- CELL_CMPLT (R125). Fabric cell sets Q when A is less than B, signed. -/
  | cellCmplt (c : Fin 64) (t : Nat) (pins : BitVec 40)
  /-- CELL_CMPEQ (R125). Fabric cell sets Q when A equals B. -/
  | cellCmpeq (c : Fin 64) (t : Nat) (pins : BitVec 40)
  /-- CELL_CMPLTU (R125). Fabric cell sets Q when A is less than B, unsigned. -/
  | cellCmpltu (c : Fin 64) (t : Nat) (pins : BitVec 40)
  /-- CELL_SAT (R125). Fabric cell clamps A to a signed range of IMM + 1 bits. -/
  | cellSat (c : Fin 64) (t : Nat) (pins : BitVec 40)
  /-- CELL_OUTL (R156). Fabric cell offers A to a lane's holding register, holding while it is full. -/
  | cellOutl (c : Fin 64) (t : Nat) (pins : BitVec 40)
  /-- CELL_SPX (R139). Fabric cell starts a serial port transfer, holding until the port is idle. -/
  | cellSpx (c : Fin 64) (t : Nat) (pins : BitVec 40)
  /-- CELL_SPR (R139). Fabric cell takes the last completed receive word of a serial port. -/
  | cellSpr (c : Fin 64) (t : Nat) (pins : BitVec 40)
  /-- CELL_FLR (R138). Fabric cell reads a word through the flash window, holding up to 80 ns. -/
  | cellFlr (c : Fin 64) (t : Nat) (pins : BitVec 40)
  /-- CELL_BTST (R125). Fabric cell sets Q from one bit of A. -/
  | cellBtst (c : Fin 64) (t : Nat) (pins : BitVec 40)
  /-- SERIAL_TRANSFER_DONE (R139). A serial port completes a transfer, holds its receive word and becomes idle. -/
  | serialTransferDone (n : Fin 4) (rx : BitVec 24) (ack : Bool)
  /-- SWAP_HOLD_END (R143). 32 fabric PLL cycles after a swap, cells leave their preload hold and start in the reset state. -/
  | swapHoldEnd
  /-- INGEST_RECORD_WRITE (R153). The ingest port writes a record from a lane into its region of the ingesting frame's half. -/
  | ingestRecordWrite (n : Fin 16)
  /-- BANK_SUPPLY_FALL (R136). A fabric bank supply falls below 1.6 V; its outputs go to high impedance and BANKLOSS is set. -/
  | bankSupplyFall (b : Fin 2)
  /-- BANK_SUPPLY_RISE (R136). A fabric bank supply rises through 1.6 V and its outputs stay at high impedance. -/
  | bankSupplyRise (b : Fin 2)
  /-- BANK_OUTPUT_ENABLE (R136). After 100 µs above 1.6 V, a bank's configured pin settings apply. -/
  | bankOutputEnable (b : Fin 2)
  /-- FABRIC_LOAD_COMPLETE (R147). A fabric image finishes loading into the inactive bank and is verified, then armed or refused. -/
  | fabricLoadComplete
  /-- HDG_CAP_ARM (R151). A write of HDG_CAP_CTRL.ARM arms a capture, or is ignored while one is armed or full. -/
  | hdgCapArm (v : Word)
  /-- HDG_CAP_DISCARD (R151). A write of HDG_CAP_CTRL.DISCARD clears FULL. -/
  | hdgCapDiscard (v : Word)
  /-- CAPTURE_RECORD (R149). At the EDGES-th edge of CGCK after its trigger, the capture records every cell into the capture RAM. -/
  | captureRecord
  /-- CORRECTOR_UE (R169). A configuration word corrector detects an uncorrectable error and the configured unit is gated within one PLL cycle. -/
  | correctorUe (bank : Bool) (f : Fin 96) (w : Fin 64)
  /-- SCRUB_PASS_START (R178). Every PERIOD ms the scrubber starts a pass, or at the end of a late pass. -/
  | scrubPassStart
  /-- SCRUB_IDLE_REFRESH (R182). While passes are disabled, the control copies are refreshed every PERIOD ms. -/
  | scrubIdleRefresh
  /-- SCRUB_FRAME_CHECK (R177). The scrubber finishes reading a configuration frame, writes back corrected words and checks its CRC and address. -/
  | scrubFrameCheck
  /-- SCRUB_PASS_END (R177). The scrubber completes a pass and counts it. -/
  | scrubPassEnd
  /-- FLASH_REPAIR_DONE (R172). A configuration frame is rewritten from its flash slot after flash is idle, and REPAIRED is set. -/
  | flashRepairDone (f : Fin 96)
  /-- MEMORY_SWEEP (R193). The hard-wired sweep completes a pass over conductor SRAM, correcting what it finds. -/
  | memorySweep
  /-- MACRO_NOP (R252). Array macro with no effect, 1 ac. -/
  | macroNop
  /-- MACRO_SETP (R268). Array macro sets a plane pointer at END. -/
  | macroSetp
  /-- MACRO_ADDP (R268). Array macro adds an immediate to a plane pointer at END. -/
  | macroAddp
  /-- MACRO_SETRM (R268). Array macro sets the program's rounding attribute at END. -/
  | macroSetrm
  /-- MACRO_CLRF (R242). Array macro clears C and T. -/
  | macroClrf
  /-- MACRO_MALL (R197). Array macro sets M to 1 in every PE. -/
  | macroMall
  /-- MACRO_MLD (R197). Array macro loads M from a plane. -/
  | macroMld
  /-- MACRO_MAND (R197). Array macro ANDs M with a plane or its inverse. -/
  | macroMand
  /-- MACRO_MOR (R197). Array macro ORs M with a plane. -/
  | macroMor
  /-- MACRO_MNOT (R197). Array macro inverts M. -/
  | macroMnot
  /-- MACRO_MSTO (R197). Array macro stores M into a plane in every PE. -/
  | macroMsto
  /-- MACRO_MFT (R197). Array macro ANDs M with T or its inverse. -/
  | macroMft
  /-- MACRO_TLD (R242). Array macro loads T from a plane. -/
  | macroTld
  /-- MACRO_TSTO (R242). Array macro stores T into a plane. -/
  | macroTsto
  /-- MACRO_MOV (R242). Array macro copies a w-plane field. -/
  | macroMov
  /-- MACRO_LOGIC (R242). Array macro applies a two-input truth table bit by bit. -/
  | macroLogic
  /-- MACRO_SEL (R242). Array macro selects A or B by T. -/
  | macroSel
  /-- MACRO_FILL (R242). Array macro fills a field with a constant bit. -/
  | macroFill
  /-- MACRO_FILLK (R242). Array macro fills a field from an extension word. -/
  | macroFillk
  /-- MACRO_BSH (R242). Array macro shifts a field left or right. -/
  | macroBsh
  /-- MACRO_EXT (R242). Array macro zero- or sign-extends a field. -/
  | macroExt
  /-- MACRO_ADD (R290). Array macro adds two w-bit fields, setting C and T. -/
  | macroAdd
  /-- MACRO_SUB (R290). Array macro subtracts two fields. -/
  | macroSub
  /-- MACRO_ADDK (R733). Array macro adds a constant from the extension word. -/
  | macroAddk
  /-- MACRO_SUBK (R733). Array macro subtracts a constant. -/
  | macroSubk
  /-- MACRO_NEG (R290). Array macro negates a field. -/
  | macroNeg
  /-- MACRO_ADDSAT (R291). Array macro adds with saturation. -/
  | macroAddsat
  /-- MACRO_SUBSAT (R291). Array macro subtracts with saturation. -/
  | macroSubsat
  /-- MACRO_ABS (R291). Array macro takes the clamped absolute value. -/
  | macroAbs
  /-- MACRO_CMP (R240). Array macro sets T from a relation of A to B. -/
  | macroCmp
  /-- MACRO_CMPK (R733). Array macro compares a field with a constant. -/
  | macroCmpk
  /-- MACRO_MINMAX (R291). Array macro selects the minimum or maximum of two fields. -/
  | macroMinmax
  /-- MACRO_MULU (R292). Array macro forms the exact unsigned 2w-bit product. -/
  | macroMulu
  /-- MACRO_MULS (R292). Array macro forms the exact signed 2w-bit product. -/
  | macroMuls
  /-- MACRO_MULQ (R292). Array macro forms a rounded, clamped fixed-point product. -/
  | macroMulq
  /-- MACRO_DIVU (R292). Array macro divides unsigned fields giving quotient and remainder. -/
  | macroDivu
  /-- MACRO_NSHF (R242). Array macro moves a field d PEs in a direction under an edge mode. -/
  | macroNshf (bursts : List (BitVec 128))
  /-- MACRO_ANY (R211). Array macro reduces a plane by OR over the taking-part PEs. -/
  | macroAny (others : Bool)
  /-- MACRO_TALLY (R211). Array macro counts the ones of a plane. -/
  | macroTally (others : Nat)
  /-- MACRO_SUMW (R212). Array macro sums an unsigned field over the array. -/
  | macroSumw (others : List Nat)
  /-- MACRO_EXTR (R212). Array macro finds the maximum or minimum of a field and tags its holders in T. -/
  | macroExtr (part : Bool) (others : List Bool)
  /-- MACRO_LDT (R214). Array macro TURN-loads record fields into planes. -/
  | macroLdt
  /-- MACRO_STT (R215). Array macro TURN-stores a field to conductor memory. -/
  | macroStt
  /-- MACRO_LDS (R216). Array macro STRAIGHT-loads planes. -/
  | macroLds
  /-- MACRO_STS (R216). Array macro STRAIGHT-stores planes. -/
  | macroSts
  /-- MACRO_FADD32 (R293). Array macro binary32 add or subtract. -/
  | macroFadd32
  /-- MACRO_FMUL32 (R293). Array macro binary32 multiply. -/
  | macroFmul32
  /-- MACRO_FMA32 (R293). Array macro binary32 fused multiply-add. -/
  | macroFma32
  /-- MACRO_FCMP32 (R300). Array macro binary32 compare into T. -/
  | macroFcmp32
  /-- MACRO_FCVT32F (R302). Array macro converts an integer field to binary32. -/
  | macroFcvt32f
  /-- MACRO_FCVTF32 (R301). Array macro converts binary32 to a clamped integer field. -/
  | macroFcvtf32
  /-- MACRO_FADD64 (R293). Array macro binary64 add or subtract. -/
  | macroFadd64
  /-- MACRO_FMUL64 (R293). Array macro binary64 multiply. -/
  | macroFmul64
  /-- MACRO_FMA64 (R293). Array macro binary64 fused multiply-add. -/
  | macroFma64
  /-- MACRO_FCMP64 (R300). Array macro binary64 compare into T. -/
  | macroFcmp64
  /-- MACRO_FCVT64F (R302). Array macro converts an integer field to binary64. -/
  | macroFcvt64f
  /-- MACRO_FCVTF64 (R301). Array macro converts binary64 to a clamped integer field. -/
  | macroFcvtf64
  /-- MACRO_FCVT32_64 (R303). Array macro converts binary32 to binary64 exactly. -/
  | macroFcvt3264
  /-- MACRO_FCVT64_32 (R303). Array macro converts binary64 to binary32 with rounding. -/
  | macroFcvt6432
  /-- USER_OPCODE (R247). A macro of opcode 0x80 to 0xEF runs the Topiary routine bound in the issuing partition. -/
  | userOpcode
  /-- UW_NOP (R254). CTL microword with no effect. -/
  | uwNop
  /-- JMP (R254). CTL microword continues at TGT. -/
  | uwJmp
  /-- BR (R254). CTL microword branches on a data or issue-time condition. -/
  | uwBr
  /-- LOOP (R254). CTL microword sets a loop counter. -/
  | uwLoop
  /-- LEND (R254). CTL microword decrements a loop counter and branches while non-zero. -/
  | uwLend
  /-- UW_CALL (R254). CTL microword pushes the next address and continues at TGT. -/
  | uwCall
  /-- UW_RET (R254). CTL microword continues at the popped address. -/
  | uwRet
  /-- COMMIT (R252). CTL microword marks the commit point, including the group check interval where due. -/
  | uwCommit
  /-- END (R268). CTL microword ends the routine, applies pointer changes, writes QRES and retires the macro. -/
  | uwEnd
  /-- PEOP (R255). PE operation microword reads, takes a neighbour, computes and writes in every PE, optionally reducing. -/
  | uwPeop (burst : BitVec 128) (any : Bool) (tally : Nat)
  /-- MOVV (R257). VOP microword copies a V register. -/
  | uwMovv
  /-- VOP_ADDI (R257). VOP microword adds a signed immediate to a V register. -/
  | uwVopAddi
  /-- ADDL (R257). VOP microword adds a loop counter to a V register. -/
  | uwAddl
  /-- SUBL (R257). VOP microword subtracts a loop counter from a V register. -/
  | uwSubl
  /-- SETI (R257). VOP microword sets a V register to an immediate. -/
  | uwSeti
  /-- LDPP (R257). VOP microword loads a V register from a plane pointer. -/
  | uwLdpp
  /-- WAIT (R258). Gated microword starts waiting on an angle event, a lane level or the ANY line. -/
  | uwWait
  /-- WAIT_END (R258). A WAIT ends when its condition holds, its angle limit is reached or a frame boundary occurs, setting WRES. -/
  | uwWaitEnd
  /-- WAIT_TIMEOUT (R258). A WAIT's TO cycles elapse without its condition; WRES is 0 and WAITTO is set. -/
  | uwWaitTimeout
  /-- XFER (R259). ROM-only microword drives the staging register and corner-turn unit. -/
  | uwXfer (out : Bool) (p : Fin 2048) (data : BitVec 128)
  /-- SEQUENCER_FAULT (R269). A parity error in the microsequencer's working state restarts the routine before COMMIT or ends the program after it. -/
  | sequencerFault
  /-- TOPIARY_VERIFY_COMPLETE (R283). Verification of a Topiary image ends and the image is armed or the load refused. -/
  | topiaryVerifyComplete
  /-- ADD (R351). Conductor register add. -/
  | cAdd (d : Fin 16) (s : Fin 16) (t : Fin 16)
  /-- SUB (R351). Conductor register subtract. -/
  | cSub (d : Fin 16) (s : Fin 16) (t : Fin 16)
  /-- AND (R351). Conductor register AND. -/
  | cAnd (d : Fin 16) (s : Fin 16) (t : Fin 16)
  /-- OR (R351). Conductor register OR. -/
  | cOr (d : Fin 16) (s : Fin 16) (t : Fin 16)
  /-- XOR (R351). Conductor register XOR. -/
  | cXor (d : Fin 16) (s : Fin 16) (t : Fin 16)
  /-- ANDN (R351). Conductor register AND with inverted RT. -/
  | cAndn (d : Fin 16) (s : Fin 16) (t : Fin 16)
  /-- SLL (R351). Conductor shift left. -/
  | cSll (d : Fin 16) (s : Fin 16) (t : Fin 16)
  /-- SRL (R351). Conductor logical shift right. -/
  | cSrl (d : Fin 16) (s : Fin 16) (t : Fin 16)
  /-- SRA (R351). Conductor arithmetic shift right. -/
  | cSra (d : Fin 16) (s : Fin 16) (t : Fin 16)
  /-- ROR (R351). Conductor rotate right. -/
  | cRor (d : Fin 16) (s : Fin 16) (t : Fin 16)
  /-- SEQ (R340). Conductor set if equal. -/
  | cSeq (d : Fin 16) (s : Fin 16) (t : Fin 16)
  /-- SNE (R340). Conductor set if not equal. -/
  | cSne (d : Fin 16) (s : Fin 16) (t : Fin 16)
  /-- SLT (R340). Conductor set if less, signed. -/
  | cSlt (d : Fin 16) (s : Fin 16) (t : Fin 16)
  /-- SLTU (R340). Conductor set if less, unsigned. -/
  | cSltu (d : Fin 16) (s : Fin 16) (t : Fin 16)
  /-- SLE (R340). Conductor set if less or equal, signed. -/
  | cSle (d : Fin 16) (s : Fin 16) (t : Fin 16)
  /-- SLEU (R340). Conductor set if less or equal, unsigned. -/
  | cSleu (d : Fin 16) (s : Fin 16) (t : Fin 16)
  /-- MIN (R351). Conductor signed minimum. -/
  | cMin (d : Fin 16) (s : Fin 16) (t : Fin 16)
  /-- MAX (R351). Conductor signed maximum. -/
  | cMax (d : Fin 16) (s : Fin 16) (t : Fin 16)
  /-- MINU (R351). Conductor unsigned minimum. -/
  | cMinu (d : Fin 16) (s : Fin 16) (t : Fin 16)
  /-- MAXU (R351). Conductor unsigned maximum. -/
  | cMaxu (d : Fin 16) (s : Fin 16) (t : Fin 16)
  /-- MOV (R351). Conductor register move. -/
  | cMov (d : Fin 16) (s : Fin 16)
  /-- NOT (R351). Conductor bitwise NOT. -/
  | cNot (d : Fin 16) (s : Fin 16)
  /-- NEG (R351). Conductor negate. -/
  | cNeg (d : Fin 16) (s : Fin 16)
  /-- MOVNZ (R351). Conductor conditional move if RT is non-zero. -/
  | cMovnz (d : Fin 16) (s : Fin 16) (t : Fin 16)
  /-- MOVZ (R351). Conductor conditional move if RT is zero. -/
  | cMovz (d : Fin 16) (s : Fin 16) (t : Fin 16)
  /-- CLZ (R351). Conductor count leading zeros. -/
  | cClz (d : Fin 16) (s : Fin 16)
  /-- POPC (R351). Conductor population count. -/
  | cPopc (d : Fin 16) (s : Fin 16)
  /-- SEXTB (R351). Conductor sign-extend byte. -/
  | cSextb (d : Fin 16) (s : Fin 16)
  /-- SEXTH (R351). Conductor sign-extend halfword. -/
  | cSexth (d : Fin 16) (s : Fin 16)
  /-- ZEXTH (R351). Conductor zero-extend halfword. -/
  | cZexth (d : Fin 16) (s : Fin 16)
  /-- ADDI (R351). Conductor add signed immediate. -/
  | cAddi (d : Fin 16) (s : Fin 16) (imm : BitVec 16)
  /-- ANDI (R351). Conductor AND immediate. -/
  | cAndi (d : Fin 16) (s : Fin 16) (imm : BitVec 16)
  /-- ORI (R351). Conductor OR immediate. -/
  | cOri (d : Fin 16) (s : Fin 16) (imm : BitVec 16)
  /-- XORI (R351). Conductor XOR immediate. -/
  | cXori (d : Fin 16) (s : Fin 16) (imm : BitVec 16)
  /-- SLTI (R340). Conductor set if less than signed immediate. -/
  | cSlti (d : Fin 16) (s : Fin 16) (imm : BitVec 16)
  /-- SLTIU (R340). Conductor set if less than unsigned immediate. -/
  | cSltiu (d : Fin 16) (s : Fin 16) (imm : BitVec 16)
  /-- SEQI (R340). Conductor set if equal to immediate. -/
  | cSeqi (d : Fin 16) (s : Fin 16) (imm : BitVec 16)
  /-- SNEI (R340). Conductor set if not equal to immediate. -/
  | cSnei (d : Fin 16) (s : Fin 16) (imm : BitVec 16)
  /-- MOVHI (R351). Conductor loads an immediate into the high half. -/
  | cMovhi (d : Fin 16) (imm : BitVec 16)
  /-- MOVI (R337). Conductor loads the 32-bit extension word. -/
  | cMovi (d : Fin 16) (w : Word)
  /-- SHI (R351). Conductor shift or rotate by immediate. -/
  | cShi (d : Fin 16) (s : Fin 16) (kind : Fin 4) (n : Fin 32)
  /-- ADDA (R318). Conductor adds a data register to an address register. -/
  | cAdda (d : Fin 8) (s : Fin 8) (t : Fin 16)
  /-- SUBA (R318). Conductor subtracts a data register from an address register. -/
  | cSuba (d : Fin 8) (s : Fin 8) (t : Fin 16)
  /-- MOVA (R318). Conductor moves a data register to an address register. -/
  | cMova (d : Fin 8) (s : Fin 16)
  /-- MOVAD (R318). Conductor moves an address register to a data register. -/
  | cMovad (d : Fin 16) (s : Fin 8)
  /-- MOVAA (R318). Conductor moves between address registers. -/
  | cMovaa (d : Fin 8) (s : Fin 8)
  /-- LEAX (R318). Conductor forms a scaled index address. -/
  | cLeax (d : Fin 8) (s : Fin 8) (t : Fin 16) (sc : Fin 4)
  /-- ADDAI (R318). Conductor adds an immediate to an address register. -/
  | cAddai (d : Fin 8) (s : Fin 8) (imm : BitVec 16)
  /-- MUL_S (R305). Conductor signed 64-bit multiply. -/
  | cMulS (d : Fin 16) (s : Fin 16) (t : Fin 16)
  /-- MUL_U (R305). Conductor unsigned 64-bit multiply. -/
  | cMulU (d : Fin 16) (s : Fin 16) (t : Fin 16)
  /-- MULLO (R305). Conductor low 32 bits of a product. -/
  | cMullo (d : Fin 16) (s : Fin 16) (t : Fin 16)
  /-- DIV_S (R308). Conductor signed divide with remainder. -/
  | cDivS (d : Fin 16) (s : Fin 16) (t : Fin 16)
  /-- DIV_U (R308). Conductor unsigned divide with remainder. -/
  | cDivU (d : Fin 16) (s : Fin 16) (t : Fin 16)
  /-- KMAC_S (R307). Conductor signed multiply-accumulate into a 72-bit accumulator. -/
  | cKmacS (k : Fin 4) (s : Fin 16) (t : Fin 16)
  /-- KMAC_U (R307). Conductor unsigned multiply-accumulate. -/
  | cKmacU (k : Fin 4) (s : Fin 16) (t : Fin 16)
  /-- KMSB_S (R307). Conductor signed multiply-subtract from an accumulator. -/
  | cKmsbS (k : Fin 4) (s : Fin 16) (t : Fin 16)
  /-- KMSB_U (R307). Conductor unsigned multiply-subtract. -/
  | cKmsbU (k : Fin 4) (s : Fin 16) (t : Fin 16)
  /-- KCLR (R321). Conductor clears an accumulator. -/
  | cKclr (k : Fin 4)
  /-- KWR (R321). Conductor writes one part of an accumulator. -/
  | cKwr (k : Fin 4) (s : Fin 16) (part : Fin 3)
  /-- KRD (R321). Conductor reads one part of an accumulator. -/
  | cKrd (d : Fin 16) (k : Fin 4) (part : Fin 3)
  /-- KSAT (R342). Conductor reads a shifted, clamped accumulator and sets KOV on clamping. -/
  | cKsat (d : Fin 16) (k : Fin 4) (sh : Fin 41)
  /-- KSATR (R342). Conductor reads a rounded, shifted, clamped accumulator. -/
  | cKsatr (d : Fin 16) (k : Fin 4) (sh : Fin 41)
  /-- KMOV (R321). Conductor copies an accumulator. -/
  | cKmov (k : Fin 4) (j : Fin 4)
  /-- LD_B (R333). Conductor loads a sign-extended byte. -/
  | cLdB (d : Fin 16) (n : Fin 8) (m : Machine.AddrMode)
  /-- LD_BU (R333). Conductor loads a zero-extended byte. -/
  | cLdBu (d : Fin 16) (n : Fin 8) (m : Machine.AddrMode)
  /-- LD_H (R333). Conductor loads a sign-extended halfword. -/
  | cLdH (d : Fin 16) (n : Fin 8) (m : Machine.AddrMode)
  /-- LD_HU (R333). Conductor loads a zero-extended halfword. -/
  | cLdHu (d : Fin 16) (n : Fin 8) (m : Machine.AddrMode)
  /-- LD_W (R333). Conductor loads a word. -/
  | cLdW (d : Fin 16) (n : Fin 8) (m : Machine.AddrMode)
  /-- LD_D (R333). Conductor loads a doubleword into a register pair. -/
  | cLdD (d : Fin 16) (n : Fin 8) (m : Machine.AddrMode)
  /-- ST_B (R332). Conductor stores a byte. -/
  | cStB (d : Fin 16) (n : Fin 8) (m : Machine.AddrMode)
  /-- ST_H (R332). Conductor stores a halfword. -/
  | cStH (d : Fin 16) (n : Fin 8) (m : Machine.AddrMode)
  /-- ST_W (R332). Conductor stores a word, including firmware stores to management registers. -/
  | cStW (d : Fin 16) (n : Fin 8) (m : Machine.AddrMode)
  /-- ST_D (R332). Conductor stores a doubleword. -/
  | cStD (d : Fin 16) (n : Fin 8) (m : Machine.AddrMode)
  /-- LDA (R333). Conductor loads an address register. -/
  | cLda (d : Fin 8) (n : Fin 8) (m : Machine.AddrMode)
  /-- STA (R332). Conductor stores an address register. -/
  | cSta (d : Fin 8) (n : Fin 8) (m : Machine.AddrMode)
  /-- FLD_S (R320). Conductor loads a binary32 into an F register. -/
  | cFldS (d : Fin 16) (n : Fin 8) (m : Machine.AddrMode)
  /-- FLD_D (R320). Conductor loads a binary64 into an F register. -/
  | cFldD (d : Fin 16) (n : Fin 8) (m : Machine.AddrMode)
  /-- FST_S (R320). Conductor stores a binary32 from an F register. -/
  | cFstS (d : Fin 16) (n : Fin 8) (m : Machine.AddrMode)
  /-- FST_D (R320). Conductor stores a binary64 from an F register. -/
  | cFstD (d : Fin 16) (n : Fin 8) (m : Machine.AddrMode)
  /-- PLD (R335). Conductor plane-port load of QSTAT, QRES, records or stamps. -/
  | cPld (d : Fin 16) (n : Fin 8) (m : Machine.AddrMode)
  /-- PST (R233). Conductor plane-port store; to QPUSH it appends a macro word or holds while the queue is full. -/
  | cPst (d : Fin 16) (n : Fin 8) (m : Machine.AddrMode)
  /-- QPUSH_RESUME (R233). A PST held on a full queue completes when an entry frees. -/
  | cQpushResume
  /-- BZ (R340). Conductor branches if a data register is zero. -/
  | cBz (t : Fin 16) (disp : BitVec 22)
  /-- BNZ (R340). Conductor branches if a data register is non-zero. -/
  | cBnz (t : Fin 16) (disp : BitVec 22)
  /-- BRA (R343). Conductor branches always. -/
  | cBra (disp : BitVec 22)
  /-- CALL (R344). Conductor call allocating a new register window. -/
  | cCall (disp : BitVec 26)
  /-- JMPR (R343). Conductor jumps to an address register. -/
  | cJmpr (n : Fin 8)
  /-- CALLR (R344). Conductor calls through an address register. -/
  | cCallr (n : Fin 8)
  /-- RET (R345). Conductor return releasing a register window. -/
  | cRet
  /-- RPTI (R346). Conductor repeats the next instruction a counted number of times, interruptible between iterations. -/
  | cRpti (src : Option (Fin 16)) (imm : BitVec 16)
  /-- RPTN (R348). Conductor repeats the next instruction 1 to 64 times without interruption. -/
  | cRptn (nm1 : Fin 64)
  /-- CND_NOP (R351). Conductor no-operation. -/
  | cNop
  /-- SVC (R371). Conductor service call trap with an 8-bit code. -/
  | cSvc (imm : Byte)
  /-- KUPD (R372). Handler service stages a keeper update record or refuses it. -/
  | cKupd
  /-- EVTPEND (R371). Handler service returns and clears the partition's pending angle event bits. -/
  | cEvtpend
  /-- ANGLE (R371). Handler service returns ANG_WORD and FRM_COUNT latched together. -/
  | cAngle
  /-- TMARK (R371). Handler service writes a conductor trace entry carrying D0. -/
  | cTmark
  /-- EVTRET (R374). Handler service ends an event routine and resumes the handler. -/
  | cEvtret
  /-- BKPT (R371). Conductor breakpoint; in handler mode it writes a trace entry and resumes. -/
  | cBkpt (imm : Byte)
  /-- MFSR (R324). Conductor reads a special register. -/
  | cMfsr (d : Fin 16) (sr : Fin 5)
  /-- MTSR (R326). Conductor writes a special register under the mode's rules. -/
  | cMtsr (sr : Fin 5) (s : Fin 16)
  /-- RFE (R357). Conductor returns from an exception, restoring CSTAT, WP and PC. -/
  | cRfe
  /-- WAITI (R353). Firmware holds until an interrupt is pending. -/
  | cWaiti
  /-- FADD (R313). Conductor FPU add. -/
  | cFadd (p : Bool) (d : Fin 16) (a : Fin 16) (b : Fin 16)
  /-- FSUB (R313). Conductor FPU subtract. -/
  | cFsub (p : Bool) (d : Fin 16) (a : Fin 16) (b : Fin 16)
  /-- FMUL (R313). Conductor FPU multiply. -/
  | cFmul (p : Bool) (d : Fin 16) (a : Fin 16) (b : Fin 16)
  /-- FDIV (R314). Conductor FPU divide. -/
  | cFdiv (p : Bool) (d : Fin 16) (a : Fin 16) (b : Fin 16)
  /-- FSQRT (R314). Conductor FPU square root. -/
  | cFsqrt (p : Bool) (d : Fin 16) (a : Fin 16)
  /-- FNEG (R315). Conductor FPU sign inversion. -/
  | cFneg (p : Bool) (d : Fin 16) (a : Fin 16)
  /-- FABS (R315). Conductor FPU sign clear. -/
  | cFabs (p : Bool) (d : Fin 16) (a : Fin 16)
  /-- FMOV (R315). Conductor FPU register move. -/
  | cFmov (p : Bool) (d : Fin 16) (a : Fin 16)
  /-- FCVT_F (R313). Conductor converts a signed integer to float. -/
  | cFcvtF (p : Bool) (d : Fin 16) (a : Fin 16)
  /-- FCVT_FU (R313). Conductor converts an unsigned integer to float. -/
  | cFcvtFu (p : Bool) (d : Fin 16) (a : Fin 16)
  /-- FCVT_I (R301). Conductor converts float to a clamped signed integer. -/
  | cFcvtI (p : Bool) (d : Fin 16) (a : Fin 16)
  /-- FCVT_IU (R301). Conductor converts float to a clamped unsigned integer. -/
  | cFcvtIu (p : Bool) (d : Fin 16) (a : Fin 16)
  /-- FCVT_W (R303). Conductor converts between binary32 and binary64. -/
  | cFcvtW (p : Bool) (d : Fin 16) (a : Fin 16)
  /-- FMVFD (R320). Conductor copies F bits to D registers. -/
  | cFmvfd (p : Bool) (d : Fin 16) (a : Fin 16)
  /-- FMVDF (R320). Conductor copies D bits to an F register. -/
  | cFmvdf (p : Bool) (d : Fin 16) (a : Fin 16)
  /-- FMA (R313). Conductor FPU fused multiply-add. -/
  | cFma (p : Bool) (np : Bool) (nc : Bool) (d : Fin 16) (a : Fin 16) (b : Fin 16) (c : Fin 16)
  /-- FCMP (R300). Conductor FPU compare into a D register. -/
  | cFcmp (p : Bool) (rel : Fin 4) (sig : Bool) (d : Fin 16) (a : Fin 16) (b : Fin 16)
  /-- INTERRUPT_ENTRY (R359). A qualifying interrupt is taken before the next instruction issues, highest priority first. -/
  | interruptEntry (v : Fin 10)
  /-- HBUDGET_EXPIRY (R375). The handler or event routine count reaches 0 and HBUDGET is taken at the next instruction boundary. -/
  | hbudgetExpiry
  /-- FIRMWARE_RESTART_COMPLETE (R663). The conductor's code is reloaded and checked, firmware restarts and resumes the journal, or a reset follows. -/
  | firmwareRestartComplete
  /-- WATCHDOG_EXPIRY (R664). The firmware watchdog expires and the device resets with cause 8. -/
  | watchdogExpiry
  /-- SQ_TAIL_WRITE (R391). A host write of PRT_SQp_TAIL submits and stamps entries, or is ignored with SQPTR. -/
  | sqTailWrite (p : Fin 4) (v : Word)
  /-- RQ_HEAD_WRITE (R392). A host write of PRT_RQp_HEAD releases reply entries, or is ignored with RQPTR. -/
  | rqHeadWrite (p : Fin 4) (v : Word)
  /-- ANG_WORD_READ (R81). A read of ANG_WORD latches FRM_COUNT into ANG_FCL_LO and ANG_FCL_HI. -/
  | angWordRead
  /-- FRM_CNT_LO_READ (R115). A read of FRM_CNT_LO latches FRM_COUNT bits 47:32 into FRM_CNT_HI. -/
  | frmCntLoRead
  /-- SCB_SUSP_LO_READ (R195). A read of SCB_SUSP_LO latches the high suspect count into SCB_SUSP_HI. -/
  | scbSuspLoRead
  /-- MSQ_TRAPINFO_READ (R287). A read of the low word of MSQ_TRAPINFO latches its high word. -/
  | msqTrapinfoRead (p : Fin 4)
  /-- MSQ_FAULTINFO_READ (R287). A read of the low word of MSQ_FAULTINFO latches its high word. -/
  | msqFaultinfoRead (p : Fin 4)
  /-- CND_HTRAP_READ (R380). A read of the low word of CND_HTRAP latches its high word. -/
  | cndHtrapRead (p : Fin 4)
  /-- GRP_CKFRM_LO_READ (R580). A read of GRP_CKFRM_LO latches the checkpoint's high count. -/
  | grpCkfrmLoRead
  /-- TRC_TIME_LO_READ (R599). A read of TRC_TIME_LO latches the high reference count into TRC_TIME_HI. -/
  | trcTimeLoRead
  /-- EVENT_ENTRY_WRITE (R717). A write through ANG_EVT_A or ANG_EVT_B reaches the staged entry that ANG_EVT_IDX names. -/
  | eventEntryWrite (mbx : Bool) (b : Bool) (v : Word)
  /-- RING_WRITE (R430). Link packet writes whole free submission entries. -/
  | ringWrite (h : Machine.LinkHdr) (data : List Byte) (crc : Word)
  /-- RING_READ (R431). Link packet returns bytes from a ring window. -/
  | ringRead (h : Machine.LinkHdr) (crc : Word)
  /-- LINK_REG_WRITE (R433). Link REG_WRITE packet writes LNK_HCFG or LNK_HFLAGS, or is refused with DENIED. -/
  | linkRegWrite (h : Machine.LinkHdr) (data : List Byte) (crc : Word)
  /-- LINK_REG_READ (R432). Link REG_READ packet returns registers in ascending order with the partition's rights. -/
  | linkRegRead (h : Machine.LinkHdr) (crc : Word)
  /-- MSG_WRITE (R467). Link packet writes bytes of an input message or closes an output message. -/
  | msgWrite (h : Machine.LinkHdr) (data : List Byte) (crc : Word)
  /-- MSG_READ (R468). Link packet reads a span of an output message. -/
  | msgRead (h : Machine.LinkHdr) (crc : Word)
  /-- STATUS (R423). Link transaction returns the status word without consuming a sequence number. -/
  | status
  /-- LINK_RESET (R415). A transaction starting with two bytes 0xFF returns the port to 1-1-1 mode, keeping NEXT. -/
  | linkReset
  /-- BAD_TYPE_TRANSACTION (R418). A transaction with an undefined TYPE or LEN above 4,096 is ignored with BADTYPE. -/
  | badTypeTransaction
  /-- TRANSACTION_TRUNCATED (R417). HQ_CS_N rises inside the host phase; the packet is discarded with TRUNC. -/
  | transactionTruncated
  /-- WRITE_COMMIT_DONE (R427). An accepted write packet finishes committing from its receive buffer. -/
  | writeCommitDone
  /-- QUAD_MODE_SWITCH (R414). A written QUAD value takes effect at the next falling edge of HQ_CS_N. -/
  | quadModeSwitch
  /-- MAILBOX_CMD_WRITE (R443). An I2C write transfer applies bytes to the mailbox window at its STOP, or is refused. -/
  | mailboxCmdWrite (off : Fin 64) (data : List Byte) (pec : Byte)
  /-- MAILBOX_GO (R446). GO in MCTRL submits the CMD entry and stamps it, waking the conductor in STANDBY. -/
  | mailboxGo (data : List Byte) (pec : Byte)
  /-- MAILBOX_RELEASE (R446). RELEASE in MCTRL returns the mailbox to idle after a reply. -/
  | mailboxRelease (data : List Byte) (pec : Byte)
  /-- MAILBOX_PEC_SET (R445). A write of MCFG.PEC changes the PEC setting from the next START. -/
  | mailboxPecSet (v : Byte) (pec : Byte)
  /-- I2C_READ_TRANSFER (R444). An I2C read transfer returns bytes of the mailbox window. -/
  | i2cReadTransfer (ptr : Option (Byte × Byte)) (n : Nat)
  /-- I2C_SCL_TIMEOUT (R441). SCL stays low 35 ms; the transfer is abandoned with TIMEOUT. -/
  | i2cSclTimeout
  /-- IDENTIFY (R472). Command returns device, stepping, versions, image and role. -/
  | cmdIdentify
  /-- REG_READ (R473). Command reads up to eight registers into its reply body. -/
  | cmdRegRead
  /-- REG_WRITE (R474). Command writes one register and reports the write. -/
  | cmdRegWrite
  /-- NOP (R475). Command completes OK, confirming earlier orders when BARRIER is set. -/
  | cmdNop
  /-- CANCEL (R476). Command ends an open-message command or pending GROUP_FORM of its partition with ABORTED. -/
  | cmdCancel
  /-- ANGLE_SOURCE (R477). Command stages the angle source registers for one boundary. -/
  | cmdAngleSource
  /-- ANGLE_TRACK (R477). Command stages the tracking registers and ANG_FMIN for one boundary. -/
  | cmdAngleTrack
  /-- EVENT_SET (R478). Command stages one angle event table entry. -/
  | cmdEventSet
  /-- PACER_SET (R478). Command stages one pacer's configuration. -/
  | cmdPacerSet
  /-- FP_LOAD (R479). Command loads a frame program image through a message and computes its counts. -/
  | cmdFpLoad
  /-- FP_SET (R480). Command sets a program's enable and priority at a boundary, subject to admission. -/
  | cmdFpSet
  /-- FP_ABORT (R481). Command aborts a program's computation and unanswered slots and disables it. -/
  | cmdFpAbort
  /-- FP_UNLOAD (R482). Command marks a frame program not loaded. -/
  | cmdFpUnload
  /-- DATA_READ (R483). Command reads from the partition's keeper or exchange area. -/
  | cmdDataRead
  /-- DATA_WRITE (R484). Command writes the exchange area or holds a keeper write for the boundary. -/
  | cmdDataWrite
  /-- FABRIC_LOAD (R485). Command loads a fabric image from a message or flash slot into the inactive bank. -/
  | cmdFabricLoad
  /-- CAPTURE_ARM (R486). Command arms a capture at the boundary. -/
  | cmdCaptureArm
  /-- CAPTURE_READ (R487). Command presents the capture RAM as an output message. -/
  | cmdCaptureRead
  /-- SCRUB_DISABLE (R488). Keyed P0 command clears the scrubber's EN at a boundary and renews the nonce. -/
  | cmdScrubDisable
  /-- TOPIARY_LOAD (R489). Command loads a Topiary image into the partition's shadow rows. -/
  | cmdTopiaryLoad
  /-- TOPIARY_UNLOAD (R490). Command empties the partition's Topiary rows and bindings at a boundary. -/
  | cmdTopiaryUnload
  /-- TRACE_CONFIG (R491). Command writes the partition's trace control registers in order. -/
  | cmdTraceConfig
  /-- TRACE_READ (R492). Command presents the partition's newest trace entries as an output message. -/
  | cmdTraceRead
  /-- STICKY_READ (R493). Command returns the sticky registers and log state. -/
  | cmdStickyRead
  /-- FAULT_CLEAR (R494). Command clears selected sticky bits whose condition does not hold. -/
  | cmdFaultClear (fails : BitVec 32)
  /-- LOG_READ (R495). Command returns fault-log records from the newest. -/
  | cmdLogRead
  /-- RETURN_CAPTURE (R626). Command takes the state and log, stops trace and starts writing the return record. -/
  | cmdReturnCapture
  /-- RETURN_CAPTURE_COMPLETE (R626). The return record is written, sealed and verified, completing OK or FLASH_FAIL. -/
  | returnCaptureComplete (bad : Option Nat)
  /-- RETURN_READ (R496). Command presents the return record as an output message. -/
  | cmdReturnRead
  /-- FLASH_ERASE (R499). Command starts erasing sectors of a flash region. -/
  | cmdFlashErase
  /-- FLASH_WRITE (R500). Command programs and verifies message data into a flash region. -/
  | cmdFlashWrite
  /-- FLASH_READ (R501). Command reads a flash region. -/
  | cmdFlashRead
  /-- IMAGE_SELECT (R502). Command checks a firmware image and writes a selection record for the next boot. -/
  | cmdImageSelect
  /-- FLASH_OPERATION_COMPLETE (R499). A flash erase or program finishes and its command completes OK or FLASH_FAIL. -/
  | flashOperationComplete (bad : List Nat) (fails : BitVec 32)
  /-- GROUP_FORM (R503). Command trains the link ports and waits to form a group. -/
  | cmdGroupForm
  /-- GROUP_LEAVE (R504). Command dissolves the group at a boundary and readmits programs solo. -/
  | cmdGroupLeave
  /-- POWER_STATE (R505). Command orders RUN, DOZE or STANDBY. -/
  | cmdPowerState
  /-- DEVICE_RESET (R506). Command resets the device at once without a reply. -/
  | cmdDeviceReset
  /-- POWER_ON_RESET (R675). VCORE below its power-on threshold holds the device in reset. -/
  | powerOnReset
  /-- RST_N_ASSERT (R677). RST_N is driven low for at least 100 ns and resets the device. -/
  | rstNAssert
  /-- SUPPLY_MONITOR_RESET (R676). A monitored supply stays outside its window for more than 10 µs, causing a reset of cause 7. -/
  | supplyMonitorReset (sup : BitVec 7)
  /-- BOOT (R638). After reset ends, the boot ROM reads fuses, rebuilds the log, chooses and checks firmware, runs BIST, loads the fabric and raises READY. -/
  | boot (straps : BitVec 4) (refOk : Bool) (ms : Nat) (logOk : Bool) (bad : BitVec 132) (afail : Bool)
  /-- BOOT_TRIES_CLEAR (R658). READY has been high for 1 s and BOOT_TRIES is cleared. -/
  | bootTriesClear
  /-- THERMAL_SAMPLE (R700). The die temperature is sampled, raising WARN on first reaching TMP_CFG.WARN. -/
  | thermalSample (t : Int)
  /-- THERMAL_RELEASE (R701). After a thermal shutdown the die falls below 95 °C and the device boots. -/
  | thermalRelease (t : Int)
  /-- THROTTLE_STEP (R697). Every 100 µs the thermal control lowers or raises the array and conductor clocks by 10 MHz, never below FRM_GCLK. -/
  | throttleStep
  /-- LOG_RECORD_WRITE (R614). A record in the RAM ring is written to the active log bank and verified once flash is idle. -/
  | logRecordWrite (eraseOk : Bool) (sumOk : Bool) (recOk : Bool)
  /-- LOG_RATE_SECOND (R616). A code's one-second rate window ends and one record with its suppressed count is written. -/
  | logRateSecond (code : Nat)
  /-- LOG_HOUR (R617). An hour from READY ends and a LOGCAP record is written for records not written. -/
  | logHour
  /-- LINK_TRAINING_COMPLETE (R536). A link port's four lanes lock, deskew and exchange training sets, and the port is UP. -/
  | linkTrainingComplete (p : Fin 2) (infos : List Machine.ChipInfo) (copy : Option Machine.LeaderCopy)
  /-- LINK_ACK (R540). An ACK link frame acknowledges frames up to its SEQ. -/
  | linkAck (p : Fin 2) (seq : Byte)
  /-- LINK_NAK (R540). A NAK link frame makes the sender resend from the oldest unacknowledged frame. -/
  | linkNak (p : Fin 2) (seq : Byte)
  /-- LINK_ACK_TIMEOUT (R540). 2 µs pass without acknowledgement and the sender resends from the oldest unacknowledged frame. -/
  | linkAckTimeout (p : Fin 2)
  /-- LINK_RETRAIN_TIMEOUT (R541). A retraining port is not UP within 200 µs and becomes LOST. -/
  | linkRetrainTimeout (p : Fin 2)
  /-- ARRAY_FRAME (R558). An ARRAY link frame carries a burst check, an error report or the leader's continue-or-restart verdict. -/
  | arrayFrame (p : Fin 2) (seq : Byte) (m : Machine.ArrayMsg)
  /-- MACRO_FRAME (R552). A MACRO link frame delivers a macro word and its issue cycle to a member. -/
  | macroFrame (p : Fin 2) (seq : Byte) (fp : Fin 16) (words : List Word) (last : Bool)
  /-- ANGLE_FRAME (R549). An ANGLE link frame delivers the leader's angle word, rate and FRM_COUNT for reproduction. -/
  | angleFrame (p : Fin 2) (seq : Byte) (phase : Nat) (rateN : Nat) (rateD : Nat) (count : BitVec 48)
  /-- ANGLE_FRAME_LOSS (R550). No ANGLE frame arrives for 10.24 µs and a non-leader's angle clock coasts without budget. -/
  | angleFrameLoss
  /-- SYNC_PULSE (R549). A SYNC pulse makes every member take the frame boundary in the same cycle, or retires a leader that did not drive it. -/
  | syncPulse (upd : Option Machine.LeaderCopy)
  /-- HEARTBEAT_TIMER (R565). 100 µs after its previous heartbeat the leader sends a HEARTBEAT to every member. -/
  | heartbeatTimer
  /-- HEARTBEAT (R565). A HEARTBEAT link frame is received and answered or counted. -/
  | heartbeat (p : Fin 2) (seq : Byte) (pos : Fin 4) (coasted : Bool)
  /-- CKPT_BLOCK (R561). A CKPT link frame writes one 128-byte block into the standby's target slot. -/
  | ckptBlock (p : Fin 2) (seq : Byte) (item : Machine.CkptItem)
  /-- MEMBER_FAULT_FRAME (R559). A CTRL frame reports a member's fault and every member abandons the program together. -/
  | memberFaultFrame (p : Fin 2) (seq : Byte) (pos : Fin 4) (cause : Byte)
  /-- TAKEOVER_FRAME (R572). A leader receiving a takeover frame retires. -/
  | takeoverFrame (p : Fin 2) (seq : Byte) (pos : Fin 4)
  /-- QUIESCE_FRAME (R578). A CTRL quiesce frame makes members suspend heartbeat supervision before STANDBY. -/
  | quiesceFrame (p : Fin 2) (seq : Byte)
  /-- LEADER_TIMEOUT (R566). The standby hears no heartbeat or SYNC for T_to and, holding a sealed slot, takes over. -/
  | leaderTimeout
  /-- MEMBER_LOSS_TIMEOUT (R568). The leader hears no heartbeat from a non-leader for T_to and counts it lost. -/
  | memberLossTimeout (pos : Fin 4)
  /-- STANDBY_RETRAIN_TIMEOUT (R578). A member not UP within 10 ms of leaving STANDBY leaves the group. -/
  | standbyRetrainTimeout (p : Fin 2)
  /-- TRACE_QUEUE_WRITE (R592). One entry leaves the merge queue for its partition's trace buffer each trace clock cycle. -/
  | traceQueueWrite
  /-- TRACE_SEQUENCER_STEP (R595). The event sequencer evaluates its state's events, moves, reloads and decrements counters. -/
  | traceSequencerStep (p : Fin 4)
  /-- TRACE_POST_TIMEOUT (R594). N µs after the trigger, the post-trigger scheme stops its channels. -/
  | tracePostTimeout (p : Fin 4)
  /-- TRACE_REARM (R593). A write of TRC_CTLp.RUN = 1 latches the control registers and starts the enabled channels. -/
  | traceRearm (p : Fin 4) (v : Word)
  /-- TRACE_RUN_STOP (R593). A write of TRC_CTLp.RUN = 0 stops every channel of the partition. -/
  | traceRunStop (p : Fin 4) (v : Word)
  /-- TRACE_CLEAR (R598). A write of TRC_CTLp.CLEAR empties the buffer while RUN is 0. -/
  | traceClear (p : Fin 4) (v : Word)
  /-- TRACE_FORCE (R596). A write of TRC_CTLp.FORCE makes event 14 true. -/
  | traceForce (p : Fin 4) (v : Word)
  /-- TRACE_ALLOC_WRITE (R582). A write of TRC_ALLOCp changes the allocation, clearing moved blocks, or is ignored with CFGERR. -/
  | traceAllocWrite (p : Fin 4) (v : Word)
  /-- BITSTREAM_BIT_SAMPLE (R159). A bitstream lane samples its DSEL pin at the CEDGE edge of its CSEL clock and packs the bit into the record it is filling. -/
  | bitstreamBitSample (n : Fin 16) (b : Bool)
  /-- UART_RECEIVE (R140). A UART serial port receives a byte without any SPX, setting the valid bit or, while it is still set, overwriting the data and setting the overrun bit. -/
  | uartReceive (n : Fin 4) (b : Byte) (bad : Bool)
  /-- ANGLE_WORD_ADVANCE (R54). Between source edges the interpolated angle word advances at the estimated or slewing rate, reaching the clamp limit (CLAMPED) or the measured angle (SLEWING ends). -/
  | angleWordAdvance (dt : Nat)
  /-- UPSET (R167). A particle flips bits in a protected memory or in a working copy of the scrubber controls, leaving an error for a corrector, a pass or a control refresh to find. -/
  | upset (u : UpsetAt)
  /-- LINK_FRAME_ERROR (R540). A group link receiver takes a frame with a CRC or code error, an undefined TYPE or a LEN above 132, answers it with NAK and counts it in GRP_LPp_CRC. -/
  | linkFrameError (p : Fin 2)
  /-- JTAG_TCK_EDGE (R689). A TCK edge advances the IEEE 1149.1 TAP, running IDCODE, BYPASS, SAMPLE/PRELOAD or EXTEST, and a keyed factory opening blows a FACTORY_USES fuse. -/
  | jtagTckEdge (rise : Bool) (tms : Bool) (tdi : Bool) (pins : List Bool)
  /-- TRST_N_ASSERT (R689). TRST_N is driven low and resets the TAP to IDCODE. -/
  | trstNAssert
  /-- DOZE_EXIT_COMPLETE (R693). The array and conductor clocks restart and the device returns from DOZE to RUN, posting the POWER_STATE completion within 20 µs of dispatch. -/
  | dozeExitComplete
  /-- X32_CRYSTAL_START (R681). The 32.768 kHz crystal starts oscillating within 1 s and HDG_STATUS.X32OK becomes 1. -/
  | x32CrystalStart
  /-- FIRMWARE_TIMER_TICK (R353). The firmware timer expires and makes the TICK interrupt, vector 24, pending. -/
  | firmwareTimerTick
deriving DecidableEq, Repr

end Sys2Proof
end

