-- ==== Sys2Proof/Machine/Table.lean ====
section
/-! DEFINITION. Reading and writing the sparse tables that hold the C16K's memories, register banks and numbered
units, and the byte-order helpers (R6: multi-byte values are little-endian). -/

namespace Sys2Proof.Machine

open Sys2Proof

/-- The entry of key `k`, if listed. -/
def tfind {α : Type} : Tbl α → Nat → Option α
  | [], _ => none
  | (j, v) :: t, k => if j = k then some v else tfind t k

/-- The value of key `k`, the default when it is not listed. -/
def tget {α : Type} (d : α) (t : Tbl α) (k : Nat) : α := (tfind t k).getD d

/-- The table with key `k` not listed. -/
def tdel {α : Type} : Tbl α → Nat → Tbl α
  | [], _ => []
  | (j, v) :: t, k => if j = k then t else if k < j then (j, v) :: t else (j, v) :: tdel t k

/-- The table with key `k` holding `v`, keys kept in rising order. -/
def tput {α : Type} : Tbl α → Nat → α → Tbl α
  | [], k, v => [(k, v)]
  | (j, w) :: t, k, v => if j = k then (k, v) :: t else if k < j then (k, v) :: (j, w) :: t else (j, w) :: tput t k v

/-- A write in canonical form: an entry equal to the default is not listed. -/
def tset {α : Type} [DecidableEq α] (d : α) (t : Tbl α) (k : Nat) (v : α) : Tbl α :=
  if v = d then tdel t k else tput t k v

/-- The value of key `k` changed by `f`. -/
def tmod {α : Type} (d : α) (t : Tbl α) (k : Nat) (f : α → α) : Tbl α := tput t k (f (tget d t k))

/-- Every listed key is above `lo`, keys rise strictly, and no listed entry equals the default. -/
def twfFrom {α : Type} [DecidableEq α] (d : α) : Nat → Tbl α → Bool
  | _, [] => true
  | lo, (j, v) :: t => decide (lo ≤ j) && decide (v ≠ d) && twfFrom d (j + 1) t

/-- The canonical form of a memory: strictly rising keys, no entry equal to the default. -/
def twf {α : Type} [DecidableEq α] (d : α) (t : Tbl α) : Bool := twfFrom d 0 t

/-- `n` consecutive values from key `k`. -/
def tgets {α : Type} (d : α) (t : Tbl α) (k : Nat) : Nat → List α
  | 0 => []
  | n + 1 => tget d t k :: tgets d t (k + 1) n

/-- Consecutive values written from key `k`. -/
def tsets {α : Type} [DecidableEq α] (d : α) (t : Tbl α) (k : Nat) : List α → Tbl α
  | [] => t
  | v :: vs => tsets d (tset d t k v) (k + 1) vs

/-- The little-endian number that a byte string spells (R6). -/
def leNat : List Byte → Nat
  | [] => 0
  | b :: bs => b.toNat + 256 * leNat bs

/-- The `n` little-endian bytes of a number (R6). -/
def leBytes : Nat → Nat → List Byte
  | 0, _ => []
  | n + 1, v => BitVec.ofNat 8 v :: leBytes n (v / 256)

/-- Bits `lo + w - 1` down to `lo` of a number. -/
def bits (v lo w : Nat) : Nat := v / 2 ^ lo % 2 ^ w

/-- Field `lo`, `w` bits wide, of a register value. -/
def fld (v : Word) (lo w : Nat) : Nat := bits v.toNat lo w

/-- Bit `n` of a register value. -/
def bit (v : Word) (n : Nat) : Bool := v.getLsbD n

/-- A field placed at `lo` of an otherwise zero word. -/
def place (v lo : Nat) : Word := BitVec.ofNat 32 (v * 2 ^ lo)

/-- A one-bit field placed at `lo`. -/
def flag (b : Bool) (lo : Nat) : Word := if b then place 1 lo else 0

/-- The word with a field replaced. -/
def setFld (r : Word) (lo w v : Nat) : Word :=
  BitVec.ofNat 32 (r.toNat - bits r.toNat lo w * 2 ^ lo + v % 2 ^ w * 2 ^ lo)

/-- A count that saturates. -/
def satAdd (mx v n : Nat) : Nat := min mx (v + n)

/-- The ceiling of a quotient. -/
def cdiv (a b : Nat) : Nat := (a + b - 1) / b

/-- `i`-th element, with a default. -/
def nth {α : Type} (d : α) (l : List α) (i : Nat) : α := l.getD i d

/-- An integer clamped to a range. -/
def clampInt (lo hi v : Int) : Int := max lo (min hi v)

end Sys2Proof.Machine
end

