-- ==== Sys2Proof/Config.lean ====
section
/-! DEFINITION. What the manual leaves open: the free values, each an uninterpreted constant that no proof can
evaluate, and the constants that one device fixes. -/

namespace Sys2Proof

/-- The value SCB_NONCE takes at reset and after a disable (R186: random). Free value. -/
opaque Config.nonce (n : Nat) : Word

/-- How the SECDED code sees a stored configuration word with three or more flipped bits: `none` when it reports an
uncorrectable error, otherwise the flips of the data it wrongly delivers (R167, R168). Free value. -/
opaque Config.manyFlips (flips : BitVec 72) : Option (BitVec 64)

/-- How the SECDED code sees a word of another memory with three or more flipped bits: `none` when it reports an
uncorrectable error, otherwise the flips of the data it wrongly delivers (R192). Free value. -/
opaque Config.manyFlips32 (key flips : Nat) : Option Nat

/-- The WORD field of SCB_ERRADDR after a CRC error, which concerns no one word (R170, R194). Free value. -/
opaque Config.crcErrWord (n : Nat) : BitVec 6

/-- The status that completes a FABRIC_LOAD whose armed image is lost before its swap (R176). Free value. -/
opaque Config.armLostStatus (n : Nat) : Byte

/-- A word that a flash program or erase abandoned at a reset leaves behind (R634). Free value. -/
opaque Config.flashByte (n addr : Nat) : Byte

/-- A response byte of a repeated read packet that breaks a rule of its type (R424, R435). Free value. -/
opaque Config.dupByte (n i : Nat) : Byte

/-- The instant at which a capture records a wire-clocked cell: before (false) or after (true) the cell's latest
step (R150). Free value. -/
opaque Config.captureInstant (n cell : Nat) : Bool

/-- Which of two values a word takes when a transfer and the conductor touch it in one transfer (R727). Free value. -/
opaque Config.transferNew (n addr : Nat) : Bool

/-- The control store address a vendor routine reports (R731). Free value. -/
opaque Config.romAddr (n : Nat) : BitVec 12

/-- The cycle at which a vendor routine commits relative to a fault raised inside it: committed or not (R730). Free
value. -/
opaque Config.vendorCommitted (n : Nat) : Bool

/-- The upper bits that Capture-IR loads into the JTAG instruction register (R689). Free value. -/
opaque Config.irCapture (n : Nat) : BitVec 8

/-- The microcode ROM identifier of a stepping (R646). -/
def Config.romId (b1 : Bool) : Word := if b1 then 0x00010B01 else 0x00010B00

/-- The Hedgerow architecture identifier (R646). -/
def Config.hedgeId : Word := 0x00000101

/-- The Pagen version (R646). -/
def Config.pagenVersion : Nat := 2

/-- The group-protocol version (R646). -/
def Config.groupVersion : Nat := 1

/-- The device identifier, equal to the JTAG IDCODE (R667, R689). -/
def Config.deviceId : Word := 0x0C164B01

end Sys2Proof
end

