-- ==== Sys2Proof/Machine/State.lean ====
section
/-! DEFINITION. The state of the C16K: every register, memory, queue, counter, mode and pin that the manual gives
the device, as plain data, and the queue of commands that wait. Registers without a structured home live in the
register bank `regs`, keyed by their management address (R706); what a register reads is computed in Machine/Regs.lean. -/

namespace Sys2Proof.Machine

open Sys2Proof

/-- Angle clock states with their codes in ANG_STATUS.STATE (R40). -/
inductive AngState where
  | off | acquiring | locked | coasting | lost
deriving DecidableEq, Repr

/-- The angle clock unit (R24, R40 to R83): the angle word, its interpolator, the source trackers and the marks of
the open frame. Phases are in au from the phase 0 of the open frame; times are in fabric PLL cycles of 5 ns. -/
structure Ang where
  st : AngState            -- ANG_STATUS.STATE (R40)
  phase : Nat              -- phase of the angle word, 0 to 1,048,576 (R9, R53)
  wfrac : Nat              -- fraction of `phase`, in units of 1 / (4 * rateD) au
  meas : Int               -- measured, interpolated angle (R48, R49, R53)
  mfrac : Nat              -- fraction of `meas`, in the same units
  expect : Int             -- measured phase of the next expected source edge (R53)
  rateN : Nat              -- estimated rate: rateN au in rateD cycles (R49)
  rateD : Nat
  count48 : BitVec 48      -- FRM_COUNT of the newest frame to open (R11, R42)
  anyOpened : Bool         -- a frame has opened since reset (R41)
  frameOpen : Bool         -- a frame is open (R42)
  openAt : Nat             -- time of the open frame's phase 0 (R44, R71)
  pos : Word               -- ANG_POS (R46)
  lastEdge : Option Nat    -- time of the last accepted source edge (R49, R61)
  ivals : List Nat         -- accepted intervals, newest first (R49)
  lockRun : Nat            -- consecutive intervals, edges or periods toward lock (R49, R50, R66)
  lockDir : Bool           -- direction of the QEI edges of `lockRun`, true forward (R66)
  kcount : Int             -- source edges counted since phase 0 (R48)
  high : Int               -- high-water count within the frame (R69)
  qerr : Nat               -- illegal transitions of the open frame (R61)
  rejects : Nat            -- consecutive rejected TACH pulses (R49)
  coastLeft : Nat          -- coast budget left, in au (R63)
  koff : Int               -- offset of the measured angle from the scaled count, in au (R726)
  zwait : Bool             -- the next Z pulse measures the reacquisition error (R726)
  slewing : Bool           -- ANG_STATUS.SLEWING (R54)
  clamped : Bool           -- ANG_STATUS.CLAMPED (R53)
  revHold : Bool           -- ANG_STATUS.REVHOLD (R69)
  errLeft : Bool           -- a reacquisition error is still being removed (R67)
  coasted : Bool           -- the open frame contains coasting (R62)
  reversed : Bool          -- the open frame contains reverse motion (R69, R70)
  fired : Nat              -- firings of the open frame with phase below this are done (R55)
  lockAt : Nat             -- time of entry to ACQUIRING (R725)
  heldWord : Option Word   -- the angle word held in STANDBY (R80)
deriving DecidableEq, Repr

/-- The computation that the array and the conductor run now (R93, R236). -/
structure Comp where
  fp : Nat
  count : BitVec 48              -- its frame
  fault : Option Nat             -- DETAIL of a FRAME_FAULT, once raised (R457)
  fromClock : Bool               -- the array clock was below nominal at some time (R698)
  handlerDone : Bool             -- the handler has returned (R236)
deriving DecidableEq, Repr

/-- The frame scheduler (R84 to R116). -/
structure Frm where
  frames : List Frame            -- newest first
  progs : Tbl Prog
  comp : Option Comp
  drain : Option (Nat × BitVec 48)   -- program and frame of the drain in progress (R94, R95)
  drained : Bool                 -- the array is DRAINED
  drainChk : Bool                -- the next slot to start receives FRAME_FAULT (R97)
  boundaries : Nat               -- frame boundaries since reset
  kstage : Tbl (List (Nat × List Byte))   -- keeper updates staged per partition (R99, R372)
  kdone : Tbl (List (Nat × List Byte))    -- keeper updates of a slot that awaits its posting, per program (R100)
deriving DecidableEq, Repr

/-- The clocked state of one fabric cell (R120). -/
structure CellCore where
  acc : BitVec 24
  opb : BitVec 24
  out : BitVec 24
  cy : Bool
  q : Bool
  ptr : BitVec 5
  ix : BitVec 3
  slat : Bool                    -- strobe latch
  tl : BitVec 8                  -- trigger latches TL0 to TL7
  ram : Tbl (BitVec 24)
deriving DecidableEq, Repr

/-- A fabric cell: its state, its state before its latest clock edge, and that edge's cycle number. -/
structure Cell where
  cur : CellCore
  prev : CellCore
  edge : Nat                     -- number of its latest clock edge plus 1, 0 before the first
  holding : Bool                 -- held at OUTL, SPX, SPR or FLR (R121)
deriving DecidableEq, Repr

/-- A fabric serial port (R139, R140). -/
structure Serial where
  busy : Bool
  tx : BitVec 24                 -- transmit word of the transfer in progress
  rx : BitVec 24                 -- last completed receive word
  valid : Bool                   -- UART bit 8
  ferr : Bool                    -- UART bit 9
  orun : Bool                    -- UART bit 10
deriving DecidableEq, Repr

/-- Load state of the inactive bank, HDG_STATUS.LOADST (R141, R142). -/
inductive LoadState where
  | idle | loading | armed
deriving DecidableEq, Repr

/-- What the inactive bank holds, for the scrubber's checks (R176). -/
inductive BankUse where
  | empty | previous | image
deriving DecidableEq, Repr

/-- The Hedgerow fabric (R117 to R152). -/
structure Hdg where
  bank : Bool                    -- active bank: false A, true B
  load : LoadState
  loadSrc : Nat                  -- 0 message, 1 or 2 flash slot of the load
  loadImg : List Byte            -- the image being loaded
  armSrc : Nat                   -- source of the armed image
  armCrc : Word                  -- its PCRC
  inactive : BankUse
  cfg : Tbl DWord                -- both banks: 6144 * bank + 64 * frame + word
  cfgErr : Tbl (BitVec 72)       -- flipped bits of stored words (R167)
  stuck : Tbl Bool               -- a stuck bit in the word (R175)
  cells : Tbl Cell
  ports : Tbl Serial
  swapHold : Bool                -- cells held after a swap (R143)
  bankOn : Tbl Bool              -- bank supply at or above 1.6 V (R135)
  bankEn : Tbl Bool              -- bank outputs enabled (R136)
  fioHeld : BitVec 40            -- output levels held in STANDBY (STBYHOLD)
  pllOk : Bool
  x32Ok : Bool
  capArmed : Bool                -- HDG_CAP_STAT.ARMED (R151)
  capFull : Bool                 -- HDG_CAP_STAT.FULL
  capTrig : Bool                 -- the armed capture has triggered (R149)
  capDue : List Nat              -- cells still to be recorded at their own next edge (R150)
  capRam : Tbl Word              -- capture RAM, word index (R152)
deriving DecidableEq, Repr

/-- What a frame's half holds for one lane: the region and the records written (R88, R164). -/
structure LaneFill where
  base : Nat
  size : Nat
  bits : Bool                    -- bitstream mode
  fill : Nat
  ovl : Nat                      -- records copied under R161
deriving DecidableEq, Repr

/-- A bitstream lane's packer and a word lane's holding register (R156, R159 to R161). -/
structure Lane where
  hold : Option Word             -- word lane holding register
  part : List Bool               -- bits of the record being filled, first sampled first
  buf : List Word                -- filled records that wait for the ingest port
deriving DecidableEq, Repr

/-- The sample store and lanes (R153 to R166). -/
structure Smp where
  recs : Tbl Word                -- 65536 * half + record index
  recErr : Tbl Bool              -- parity errors of records (R192)
  stamps : Tbl DWord             -- 1024 * half + block
  stampErr : Tbl Nat             -- flipped bits of stamps (R192)
  lanes : Tbl Lane
  fills : Tbl LaneFill           -- 16 * half + lane
deriving DecidableEq, Repr

/-- The scrubber's control word (R181). -/
structure ScbCtl where
  en : Bool
  region : Nat
  period : Nat
  src : Nat
deriving DecidableEq, Repr

/-- A pass of the scrubber in progress (R177). -/
structure Pass where
  next : Nat                     -- next configuration frame to finish: 96 * bank + frame
  last : Nat                     -- one past the last frame of the pass
deriving DecidableEq, Repr

/-- The scrubber (R167 to R195). -/
structure Scb where
  copies : List ScbCtl           -- three working copies
  golden : ScbCtl
  goldenErr : Nat                -- flipped bits of the golden copy's stored word (R181)
  safe : Bool                    -- SCB_STATUS.SAFE (R183)
  pass : Option Pass
  late : Bool                    -- the next pass is due at the end of this one (R178)
  gated : Tbl Bool               -- unit 0 to 65 gated (R169)
  repaired : Tbl Bool            -- unit's repair takes effect at the next boundary (R173)
  repairing : List Nat           -- active configuration frames under repair from flash (R172)
  suspect : Option (BitVec 48)   -- suspect interval: count of its oldest frame (R170)
  suspAt : BitVec 48             -- the oldest suspect frame, SCB_SUSP (R171, R195)
  clean : Tbl (BitVec 48)        -- oldest frame that ingests after the last clean read of a configuration frame (R170)
  nonce : Word                   -- SCB_NONCE (R185, R186)
deriving DecidableEq, Repr

/-- Host ports (R412 to R448). -/
structure Lnk where
  next : BitVec 8                -- NEXT (R424)
  quad : Bool                    -- mode in force (R414)
  used : Nat                     -- receive buffers holding packets whose writes commit (R427)
  resp : List Byte               -- response data of the last read transaction
  stat : Word                    -- status word of the last transaction
  pecWr : Bool                   -- MCFG.PEC as written (R445)
  pecOn : Bool                   -- PEC in force
  i2cPtr : Nat × Nat             -- offset and count of the latest read pointer (R444)
  i2cOut : List Byte             -- bytes of the last read transfer
deriving DecidableEq, Repr

/-- Fault record of the log before it has a SEQ (R610). -/
structure LogRec where
  code : Nat
  frmcnt : Nat
  suppr : Nat
  uptime : Nat
  data : List Byte
deriving DecidableEq, Repr

/-- The rate window of one code (R616). -/
structure Rate where
  at_ : Nat                      -- time of the previous record, ms
  n : Nat                        -- occurrences counted since
  data : List Byte
deriving DecidableEq, Repr

/-- The fault log and the return record (R603 to R632). -/
structure Flt where
  ring : List LogRec             -- RAM ring, oldest first (R614, R620)
  own : List LogRec              -- the writer's own records, written before the ring's (R618, R619)
  rates : Tbl Rate
  hourN : Nat                    -- fault records written this hour (R617)
  hourSup : Nat                  -- not written this hour
  hourAt : Nat                   -- time at which this hour began
  notes : List Nat               -- note list, physical columns in order (R224, R613)
  ret : Tbl Nat                  -- retired sectors of bank 0 and 1, bit masks (R612)
  bankF : Tbl Bool               -- failed banks (R619)
  active : Nat                   -- active bank
  sector : Nat                   -- current sector of the active bank
  slot : Nat                     -- next slot of the current sector
  lastFail : Bool                -- the last sector tried failed (R619)
  seq : Nat                      -- last SEQ attempt (R610)
  bootNum : Nat
  capturing : List (List Byte)   -- contents of return records to be written, oldest first (R626)
deriving DecidableEq, Repr

/-- The flash operation of a host command (R498 to R502, R634). -/
inductive FlashOp where
  /-- FLASH_ERASE of `n` sectors. -/
  | erase (first n : Nat) (ord : Order)
  /-- FLASH_WRITE of `len` bytes at flash offset `off`: the span programmed last, the first word that has failed, and whether
  the message has ended. -/
  | program (off len at_ n : Nat) (bad : Option Nat) (full : Bool) (ord : Order)
  /-- IMAGE_SELECT of a slot. -/
  | select (slot : Nat) (ord : Order)
deriving DecidableEq, Repr

/-- Boot, fuses and flash (R633 to R667). -/
structure Boot where
  ready : Bool                   -- READY
  inReset : Bool                 -- held in reset
  ports : Bool                   -- host ports enabled (R638 step 3)
  cause : Nat                    -- reset cause of this boot or of the pending one (R633)
  tries : Nat                    -- BOOT_TRIES (R658)
  readyAt : Nat                  -- time READY rose
  bootAt : Nat                   -- time the boot ROM started
  running : Option Nat           -- image running: 0 A, 1 B
  lastRun : Nat                  -- slot running at the reset that last raised BOOT_TRIES (R659)
  straps : BitVec 4              -- sampled straps (R636)
  flash : Tbl Byte               -- listed bytes; an unlisted byte is erased, 0xFF
  ecnt : Tbl Nat                 -- erase counters (R665)
  op : Option FlashOp            -- the flash command that runs (R498)
  waiting : List FlashOp         -- flash commands that wait for it, in stamp order
  stepB1 : Bool                  -- stepping: false B0, true B1 (R646)
  authFuse : Bool
  keys : Tbl (List Byte)         -- key fuse digests, slots 0 and 1
  factory : Nat                  -- FACTORY_USES (R630)
deriving DecidableEq, Repr

/-- Power, clocks and temperature (R691 to R705). -/
structure Pwr where
  st : Nat                       -- 0 RUN, 1 DOZE, 2 STANDBY
  target : Nat
  pend : Bool
  exiting : Bool                 -- an order to leave STANDBY is under way (R692)
  arrClk : Nat                   -- array clock in MHz while it runs
  cndClk : Nat
  arrRun : Bool                  -- the power state lets the array clock run (R691)
  supplies : BitVec 7            -- PWR_SUPPLY
  temp : Int                     -- die temperature, units of 0.25 degrees
  peak : Int
  floor : Bool                   -- TMP_STATUS.FLOOR
  upCnd : Nat                    -- throttle steps since the conductor clock was last raised, at most 10 (R697)
  upArr : Nat                    -- the same for the array clock
  orderAt : Nat                  -- time of the order to leave STANDBY (R692)
  shutdown : Bool                -- held after a thermal shutdown (R701)
deriving DecidableEq, Repr

/-- TAP controller states (IEEE 1149.1, R689). -/
inductive Tap where
  | reset | idle | selDr | capDr | shDr | ex1Dr | pauDr | ex2Dr | updDr | selIr | capIr | shIr | ex1Ir | pauIr
  | ex2Ir | updIr
deriving DecidableEq, Repr

/-- The JTAG port (R689, R690). -/
structure Jtag where
  tap : Tap
  ir : BitVec 8                  -- instruction in force
  irSh : BitVec 8
  dr : List Bool                 -- selected data register, next bit out first
  upd : List Bool                -- boundary update register
  tck : Bool
  tdo : Bool
deriving DecidableEq, Repr

/-- The microsequencer's running Topiary routine (R250 to R272). -/
structure Routine where
  word : Word                    -- macro word
  ext : Word                     -- extension word
  bind : Bind
  upc : Nat                      -- offset of the current microword in the image
  v : Tbl Nat                    -- V0 to V7, 11 bits
  l : Tbl Nat                    -- L0 to L3, 13 bits
  stack : List Nat
  wres : Bool
  committed : Bool
  pps : Tbl Nat                  -- plane pointers at issue
  rm : Nat                       -- rounding attribute at issue
  scratch : List Nat             -- the scratch set (R264)
  shadow : Tbl (BitVec 16384)    -- C, T, M, X, Y at issue (R251)
  crossed : Bool                 -- a cross-chip step has executed (R252)
  held : Bool                    -- an array interrupt is held until END (R271)
  wait : Option (Nat × Nat)      -- a WAIT in progress: its start and the boundaries until then
deriving DecidableEq, Repr

/-- The array, its transfer registers and the microsequencer (R196 to R289). -/
structure Arr where
  planes : Tbl (BitVec 16384)    -- local memory: PE 128 * row + column is bit 128 * row + column
  c : BitVec 16384
  t : BitVec 16384
  m : BitVec 16384
  x : BitVec 16384
  y : BitVec 16384
  perr : Tbl (BitVec 16384)      -- PEs with odd parity, per plane group (R204)
  staging : BitVec 128
  any : Bool                     -- last ANY (R212)
  tally : Nat                    -- last TALLY (R212)
  redPart : Option Nat           -- partition of the last reduction
  map : List Nat                 -- mapped-out physical columns (R221)
  bistDone : Bool
  bistFail : Bool
  bandsOn : BitVec 8             -- bands powered (R226)
  pp : Tbl Nat                   -- plane pointers PP0 to PP15 (R231)
  rm : Nat                       -- rounding attribute
  queue : List Word              -- array instruction queue (R233)
  qres : Word
  retired : Nat
  allow : Nat                    -- macro allowance left to the running program (R243)
  run : Option Routine
  restarts : Nat                 -- MSQ_RSTCNT.CUR
  top : Tbl TopImg               -- active Topiary image per partition
  topArm : Tbl TopImg            -- armed image per partition
  topVer : Tbl (List Byte)       -- image under verification per partition
  topErr : Tbl Nat               -- flipped bits of Topiary words: 65536 * partition + word
  topPrev : Tbl TopImg           -- previous image, for the frames fixed to it (R280)
  topFrame : Tbl (BitVec 48)     -- newest frame fixed to the previous image (R281)
deriving DecidableEq, Repr

/-- A repeat sequence in progress (R346 to R350). -/
structure Rep where
  pc : Word                      -- address of the prefix instruction
  nested : Bool                  -- RPTN: not interruptible
  lc0 : Word                     -- LC and RIP before the prefix, for a pair that turns out undefined (R338, R350)
  rip0 : Bool
deriving DecidableEq, Repr

/-- State that an upcall saves (R373). -/
structure Upcall where
  pc : Word
  wp : Word
  lc : Word
  cstat : Word
  a : List Word
  d : List Word
  slim : Word
  depth : Nat                    -- calls of the routine not yet returned (R374)
deriving DecidableEq, Repr

/-- The current handler (R369 to R376). -/
structure Handler where
  part : Nat
  fp : Nat
  up : Option Upcall             -- an event routine runs
  ups : Nat                      -- upcalls made in this run
  delivered : List Nat           -- entries delivered
  budget : Nat                   -- CND_HBUD
  vleft : Nat                    -- event routine count left
deriving DecidableEq, Repr

/-- The registers that firmware saves when it starts a handler (R369). -/
structure CndSave where
  a : Vector Word 8
  d : Vector Word 8
  win : Vector Word 64
  k : Vector (BitVec 72) 4
  f : Vector DWord 16
  pc : Word
  lc : Word
  wp : Word
  slim : Word
  cstat : Word
deriving DecidableEq, Repr

/-- The conductor (R317 to R380). -/
structure Cnd where
  a : Vector Word 8
  d : Vector Word 8              -- D0 to D7
  win : Vector Word 64           -- D8 to D15 of windows 0 to 7
  k : Vector (BitVec 72) 4
  f : Vector DWord 16
  pc : Word
  last : Word                    -- address of the last instruction issued
  lc : Word
  wp : Word                      -- CWP 2:0, OLD 6:4, NRES 10:8
  slim : Word
  cstat : Word
  rep : Option Rep
  held : Option Word             -- a PST of this word holds on a full queue (R233)
  waiting : Bool                 -- WAITI holds
  handler : Option Handler
  running : Bool                 -- firmware runs
  indf : Bool                    -- double fault in progress (R366)
  ipend : BitVec 10              -- interrupts pending, vectors 16 to 25 (R353)
  dlv : Tbl Nat                  -- cycles until a register is delivered (R351)
  fpuBusy : Nat                  -- cycles until the FPU accepts an operation (R316)
  fw : Option CndSave            -- firmware's registers while a handler is current (R367, R369)
  mem : Tbl Byte                 -- instruction SRAM, data SRAM and ring windows, by address
  memErr : Tbl Nat               -- flipped bits per 32-bit word address (R192)
  hExec : Nat                    -- cycles the handler and its upcalls have executed (R376)
  fwUsed : Nat                   -- firmware preemption of the handler so far
  fwStep : Nat                   -- firmware preemption in the current step of 7,680 cycles
  again : Bool                   -- no dispatch has completed since the last firmware restart (R527)
deriving DecidableEq, Repr

/-- State of a link port (R536). -/
inductive PortState where
  | down | training | up | lost
deriving DecidableEq, Repr

/-- A group link port (R536 to R542). -/
structure Port where
  st : PortState
  peer : Option Nat              -- peer position
  lanes : BitVec 4               -- lanes locked
  sendSeq : Nat                  -- SEQ of the next frame sent
  expSeq : Nat                   -- SEQ expected of the peer
  unacked : List (Nat × Nat)     -- SEQ and TYPE of the frames sent and not acknowledged, oldest first
  resends : Nat                  -- times the oldest of them was sent again
  sentAt : Nat                   -- time of the last send or acknowledgement
  exhausted : Option Nat         -- time of the last retry exhaustion
  retrains : Nat
  trainAt : Nat                  -- time the port started training
deriving DecidableEq, Repr

/-- A checkpoint slot (R560 to R563). -/
structure Ckpt where
  sealed_ : Bool
  num : Nat
  count : BitVec 48
  blocks : Tbl (List Byte)       -- by block index
  ctl : Option CkptCtl
deriving DecidableEq, Repr

/-- The group unit (R530 to R580). -/
structure Grp where
  role : Nat                     -- 0 solo, 1 leader, 2 standby, 3 follower
  forming : Bool                 -- a GROUP_FORM awaits completion
  need : Nat                     -- its MEMBERS
  known : List ChipInfo          -- chips reachable through UP ports
  copy : Option LeaderCopy       -- what the leader has sent for the formation
  src : Word                     -- the leader's ANG_CTRL, for R577
  members : BitVec 4
  leadPos : Nat
  stbyPos : Option Nat
  retired : Bool
  ports : Tbl Port
  slots : Tbl Ckpt               -- checkpoint slots 0 and 1
  lastSlot : Nat                 -- slot sealed most recently
  ckNum : Nat                    -- number of the newest checkpoint taken (leader)
  ckLeft : Nat                   -- CKPT frames of it not yet acknowledged (leader)
  ckCount : BitVec 48            -- its FRM_COUNT
  ckSealed : Nat                 -- slots of the standby sealed (leader)
  heard : Tbl Nat                -- time each position was last heard
  sentAt : Nat                   -- time of the last heartbeat sent
  lastAng : Nat                  -- time of the last ANGLE frame
  shLock : Bool                  -- the shadow angle clock is LOCKED (R551)
  shRun : Nat                    -- edges toward its lock
  quiesced : Bool                -- heartbeat supervision suspended for STANDBY (R578)
  anyOd : Bool                   -- this chip pulls ANY_OD low
  anyLine : Bool                 -- another member pulls it low
  verdict : Option Bool          -- the verdict of a check interval: true continue (R558)
  rx : Tbl (List Byte)           -- bursts received on each port in the running macro (R558)
deriving DecidableEq, Repr

/-- A partition's trace unit (R581 to R598). -/
structure TrcP where
  lastTime : Nat                 -- time of the last entry, in 20 ns units (R585)
  fresh : Bool                   -- recording has started and no entry has been written since (R585)
  ctl : Tbl Word                 -- control registers as latched at the rearm, by offset (R593)
  rec_ : BitVec 4                -- channels recording
  triggered : Bool
  stopPost : Bool
  stopSeq : Bool
  seqSt : Nat
  c0 : Nat
  c1 : Nat
  post : Nat                     -- post-trigger entries left
  trigAt : Nat                   -- time of the trigger
  wptr : Nat                     -- entries written, modulo 2^32
  lost : Nat                     -- entries lost and not yet reported
  lostCh : Nat                   -- their channels
  lostSeen : Bool
  cbr : List Bool                -- pending branch outcomes, oldest first (R590)
  since : Nat                    -- CND entries since the last CSYNC (R589)
  seen : List Nat                -- lane kinds traced in the open frame: 16 * kind + lane (R588)
  events : List Nat              -- events true since the last sequencer step (R596)
deriving DecidableEq, Repr

/-- The trace unit (R581 to R601). -/
structure Trc where
  buf : Tbl DWord                -- 4,096 entries
  queue : List (Nat × DWord)     -- merge queue: partition and entry
  parts : Tbl TrcP
deriving DecidableEq, Repr

/-- The C16K and the queue of commands that wait. -/
structure State where
  now : Nat                      -- time since power-on, in fabric PLL cycles of 5 ns (the model's clock)
  free : Nat                     -- the model's own: counts the free values taken
  regs : Tbl Word                -- register values in force, by address
  staged : Tbl Word              -- RWF registers as last written, by address
  ang : Ang
  frm : Frm
  hdg : Hdg
  smp : Smp
  scb : Scb
  arr : Arr
  cnd : Cnd
  prt : Prt
  lnk : Lnk
  grp : Grp
  trc : Trc
  flt : Flt
  boot : Boot
  pwr : Pwr
  jtag : Jtag
  pending : List Instr           -- commands that wait, first in first out
deriving DecidableEq, Repr

/-- Reasons for a fault: the block has none, since every command of the table has its effect in every state. -/
inductive Fault where
  /-- Raised by no command; it closes the type. Safe. -/
  | unreached
deriving DecidableEq, Repr

/-- Reasons for a refusal. -/
inductive Refusal where
  /-- Raised by an arm of the dispatcher whose command has no meaning in the model. Safe. -/
  | notModelled (mnemonic : String)
deriving DecidableEq, Repr

/-- Copies of a value at `n` addresses from `a`, `st` bytes apart. -/
def regRun (a st : Nat) (v : Word) : Nat → Tbl Word
  | 0 => []
  | n + 1 => (a, v) :: regRun (a + st) st v n

/-- The registers of the RWF kind whose reset value is not 0, with that value (R706). -/
def resetFrame : Tbl Word :=
  [(0x0104, 0xC8), (0x0200, 0x3), (0x0220, 0x1000), (0x0224, 0x100), (0x0228, 0x1), (0x0230, 0x1388),
   (0x0234, 0x989680), (0x0238, 0x200508), (0x023C, 0x2), (0x0240, 0x1004), (0x0244, 0x2), (0x0248, 0x1F4)] ++
  regRun 0x0284 16 0x100 4 ++ [(0x0300, 0xC8), (0x041C, 0x1), (0x0420, 0x1000), (0x0520, 0x1000), (0x0720, 0x3)] ++
  regRun 0x0734 8 0x3F3F3F3F 4 ++ [(0x0800, 0x801), (0x0A10, 0xFF01)] ++ regRun 0x0A14 4 0x3F00 3 ++
  [(0x0A20, 0x0820), (0x0A30, 0x142C), (0x0A40, 0x0428), (0x0A50, 0x0820)] ++ regRun 0x0A60 4 0x122 4

/-- The reset value of every register held in the register bank that is not 0 at reset (R706). -/
def resetRegs : Tbl Word :=
  resetFrame.takeWhile (fun r => r.1 < 0x0438) ++ [(0x0438, 0xFF)] ++ resetFrame.dropWhile (fun r => r.1 < 0x0438) ++
    [(0x0B00, 0x4), (0x0C08, 0x8), (0x0D10, 0x100), (0x0E08, 0x3FFE), (0x0E0C, 0x1FF), (0x0F84, 0x5F0564)]

/-- The angle clock after reset: OFF, no frame open (R41). -/
def Ang.reset : Ang :=
  { st := .off, phase := 0, wfrac := 0, meas := 0, mfrac := 0, expect := 0, rateN := 0, rateD := 1, count48 := 0,
    anyOpened := false, frameOpen := false, openAt := 0, pos := 0, lastEdge := none, ivals := [], lockRun := 0,
    lockDir := true, kcount := 0, high := 0, qerr := 0, rejects := 0, coastLeft := 0, koff := 0, zwait := false,
    slewing := false, clamped := false, revHold := false, errLeft := false, coasted := false, reversed := false,
    fired := 0, lockAt := 0, heldWord := none }

/-- The frame scheduler after reset: no frame, no program, the array drained (R198). -/
def Frm.reset : Frm :=
  { frames := [], progs := [], comp := none, drain := none, drained := true, drainChk := false, boundaries := 0,
    kstage := [], kdone := [] }

/-- The fabric after reset: bank A holds the all-zero configuration (R639). -/
def Hdg.reset : Hdg :=
  { bank := false, load := .idle, loadSrc := 0, loadImg := [], armSrc := 0, armCrc := 0, inactive := .empty, cfg := [],
    cfgErr := [], stuck := [], cells := [], ports := [], swapHold := false, bankOn := [], bankEn := [], fioHeld := 0,
    pllOk := false, x32Ok := false, capArmed := false, capFull := false, capTrig := false, capDue := [], capRam := [] }

/-- The sample store after reset. -/
def Smp.reset : Smp := { recs := [], recErr := [], stamps := [], stampErr := [], lanes := [], fills := [] }

/-- The scrubber's control word at reset: enabled, PERIOD 8, SRC 0 (R191). -/
def ScbCtl.reset : ScbCtl := { en := true, region := 0, period := 8, src := 0 }

/-- The scrubber after reset; the nonce is a free value (R186). -/
def Scb.reset : Scb :=
  { copies := [ScbCtl.reset, ScbCtl.reset, ScbCtl.reset], golden := ScbCtl.reset, goldenErr := 0, safe := false,
    pass := none, late := false, gated := [], repaired := [], repairing := [], suspect := none, suspAt := 0,
    clean := [], nonce := Config.nonce 0 }

/-- The array after reset, as BIST leaves it: M is 1, every other register and plane 0 (R198, R286). -/
def Arr.reset : Arr :=
  { planes := [], c := 0, t := 0, m := BitVec.allOnes 16384, x := 0, y := 0, perr := [], staging := 0, any := false,
    tally := 0, redPart := none, map := [], bistDone := false, bistFail := false, bandsOn := 0xFF,
    pp := [], rm := 0, queue := [], qres := 0, retired := 0, allow := 0, run := none, restarts := 0,
    top := [], topArm := [], topVer := [], topErr := [], topPrev := [], topFrame := [] }

/-- The conductor after reset (R327). -/
def Cnd.reset : Cnd :=
  { a := Vector.replicate 8 0, d := Vector.replicate 8 0, win := Vector.replicate 64 0, k := Vector.replicate 4 0,
    f := Vector.replicate 16 0, pc := 0, last := 0, lc := 0, wp := 0x100, slim := 0, cstat := 0, rep := none, held := none,
    waiting := false, handler := none, running := false, indf := false, ipend := 0, dlv := [], fpuBusy := 0,
    fw := none, mem := [], memErr := [],
    hExec := 0, fwUsed := 0, fwStep := 0, again := false }

/-- Partitions, rings and the command layer after reset (R532). -/
def Prt.reset : Prt :=
  { stamp := 0, subs := [], sqHead := [], sqTail := [], rqHead := [], rqTail := [], hold := [], holdAct := [],
    skip := [], last := [], changes := [], opens := [], msgs := [], mbx := .idle, mbxStamp := 0, mbxCmd := [], mbxRpl := [] }

/-- The host ports after reset (R428). -/
def Lnk.reset : Lnk :=
  { next := 0, quad := false, used := 0, resp := [], stat := 0, pecWr := false, pecOn := false,
    i2cPtr := (0, 0), i2cOut := [] }

/-- The group unit after reset: solo. -/
def Grp.reset : Grp :=
  { role := 0, forming := false, need := 0, known := [], copy := none, src := 0, members := 0, leadPos := 0,
    stbyPos := none, retired := false, ports := [], slots := [], lastSlot := 0, ckNum := 0, ckLeft := 0, ckCount := 0,
    ckSealed := 0, heard := [], sentAt := 0, lastAng := 0, shLock := false, shRun := 0, quiesced := false, anyOd := false,
    anyLine := false, verdict := none, rx := [] }

/-- The trace unit after reset. -/
def Trc.reset : Trc := { buf := [], queue := [], parts := [] }

/-- The fault log as a device with empty log banks holds it (R613). -/
def Flt.reset : Flt :=
  { ring := [], own := [], rates := [], hourN := 0, hourSup := 0, hourAt := 0, notes := [], ret := [], bankF := [], active := 0, sector := 0,
    slot := 0, lastFail := false, seq := 0, bootNum := 0, capturing := [] }

/-- Flash, fuses and boot state at power-on: READY low, erased flash, no fuse programmed (R634). -/
def Boot.reset : Boot :=
  { ready := false, inReset := true, ports := false, cause := 1, tries := 0, readyAt := 0, bootAt := 0, running := none,
    lastRun := 0, straps := 0, flash := [], ecnt := [], op := none, waiting := [], stepB1 := false, authFuse := false, keys := [],
    factory := 0 }

/-- Power and clocks after reset: RUN, 200 MHz, every supply in range; the sensor at 25 degrees (R704, R705). -/
def Pwr.reset : Pwr :=
  { st := 0, target := 0, pend := false, exiting := false, arrClk := 200, cndClk := 200, arrRun := true,
    supplies := 0x7F, temp := 100, peak := 100, floor := false, upCnd := 10, upArr := 10, orderAt := 0, shutdown := false }

/-- The JTAG port after reset: Test-Logic-Reset, IDCODE selected (R689). -/
def Jtag.reset : Jtag := { tap := .reset, ir := 0x02, irSh := 0, dr := [], upd := [], tck := false, tdo := false }

/-- The machine right after a power-on reset, before boot (R633, R634, R706). -/
def State.reset : State :=
  { now := 0, free := 0, regs := resetRegs, staged := resetFrame, ang := .reset, frm := .reset, hdg := .reset,
    smp := .reset, scb := .reset, arr := .reset, cnd := .reset, prt := .reset, lnk := .reset, grp := .reset,
    trc := .reset, flt := .reset, boot := .reset, pwr := .reset, jtag := .reset, pending := [] }

end Sys2Proof.Machine
end

