-- ==== Sys2Proof/Machine/RegMap.lean ====
section
/-! DEFINITION. The register map of R706: every management register with its access code, its defined bits, its
writer and its shared-resource unit, one row per run of registers. -/

namespace Sys2Proof.Machine

open Sys2Proof

/-- Access codes (R16). -/
inductive Access where
  | ro | rw | rwf | w1c | rs
deriving DecidableEq, Repr

/-- The Writer column of R710. `part` is the register's own partition, `trace` the same with the TRACE right. -/
inductive Writer where
  | nobody | p0 | part | trace | fw | p0fw
deriving DecidableEq, Repr

/-- A run of `n` registers, `stride` bytes apart. -/
structure RegRow where
  base : Nat
  n : Nat
  stride : Nat
  acc : Access
  mask : Nat
  wr : Writer
deriving DecidableEq, Repr

/-- BOOT_, PWR_, ANG_ and FRM_ (R667, R704, R41 to R82, R114 to R116). -/
def regRowsA : List RegRow := [
  ⟨0x0000, 1, 4, .ro, 0xFFFFFFFF, .nobody⟩, ⟨0x0004, 1, 4, .ro, 0x001FFFFF, .nobody⟩,
  ⟨0x0008, 1, 4, .ro, 0x000003FF, .nobody⟩, ⟨0x000C, 1, 4, .ro, 0x0000FF7F, .nobody⟩,
  ⟨0x0010, 2, 4, .ro, 0xFFFFFFFF, .nobody⟩, ⟨0x0018, 1, 4, .ro, 0x0000FFFF, .nobody⟩,
  ⟨0x001C, 1, 4, .ro, 0x00000007, .nobody⟩, ⟨0x0020, 1, 4, .ro, 0xFFFFFF07, .nobody⟩,
  ⟨0x0024, 1, 4, .rw, 0x000000FF, .p0⟩, ⟨0x0028, 2, 4, .ro, 0xFFFFFFFF, .nobody⟩,
  ⟨0x0100, 1, 4, .ro, 0x0000001F, .nobody⟩, ⟨0x0104, 1, 4, .rwf, 0x000000FF, .p0⟩,
  ⟨0x0108, 1, 4, .ro, 0x0000FFFF, .nobody⟩, ⟨0x010C, 1, 4, .w1c, 0x00000007, .p0⟩,
  ⟨0x0110, 1, 4, .ro, 0x0000007F, .nobody⟩,
  ⟨0x0200, 1, 4, .rwf, 0x00000FFF, .p0⟩, ⟨0x0204, 1, 4, .ro, 0x0000007F, .nobody⟩,
  ⟨0x0208, 1, 4, .w1c, 0x000000FF, .p0⟩, ⟨0x020C, 2, 4, .ro, 0xFFFFFFFF, .nobody⟩,
  ⟨0x0214, 1, 4, .ro, 0x0000FFFF, .nobody⟩, ⟨0x0218, 1, 4, .ro, 0xFFFFFFFF, .nobody⟩,
  ⟨0x021C, 1, 4, .rwf, 0x0000003F, .p0⟩, ⟨0x0220, 1, 4, .rwf, 0x001FFFFF, .p0⟩,
  ⟨0x0224, 2, 4, .rwf, 0xFFFFFFFF, .p0⟩, ⟨0x022C, 1, 4, .rwf, 0x000003FF, .p0⟩,
  ⟨0x0230, 1, 4, .rwf, 0x00FFFFFF, .p0⟩, ⟨0x0234, 1, 4, .rwf, 0xFFFFFFFF, .p0⟩,
  ⟨0x0238, 1, 4, .rwf, 0x00FFFFFF, .p0⟩, ⟨0x023C, 1, 4, .rwf, 0x0000000F, .p0⟩,
  ⟨0x0240, 1, 4, .rwf, 0x0000FF1F, .p0⟩, ⟨0x0244, 1, 4, .rwf, 0x000000FF, .p0⟩,
  ⟨0x0248, 1, 4, .rwf, 0x01FFFFFF, .p0⟩, ⟨0x024C, 1, 4, .ro, 0x3FFFFFFF, .nobody⟩,
  ⟨0x0250, 2, 4, .ro, 0x0000FFFF, .nobody⟩, ⟨0x0260, 1, 4, .rw, 0x0000003F, .p0⟩,
  ⟨0x0264, 1, 4, .rwf, 0x9FFFFFFF, .p0⟩, ⟨0x0268, 1, 4, .rwf, 0x00FFFFFF, .p0⟩,
  ⟨0x0270, 2, 4, .w1c, 0xFFFFFFFF, .p0⟩, ⟨0x0280, 4, 16, .rwf, 0x800FFFFF, .p0⟩,
  ⟨0x0284, 4, 16, .rwf, 0x000FFFFF, .p0⟩, ⟨0x0288, 4, 16, .rwf, 0x000FFFFF, .p0⟩,
  ⟨0x0300, 1, 4, .rwf, 0x000000FF, .p0⟩, ⟨0x0304, 1, 4, .ro, 0x00000FFF, .nobody⟩,
  ⟨0x0308, 1, 4, .w1c, 0x0000003F, .p0⟩, ⟨0x030C, 1, 4, .ro, 0xFFFFFFFF, .nobody⟩,
  ⟨0x0310, 1, 4, .ro, 0x0000FFFF, .nobody⟩, ⟨0x0314, 2, 4, .ro, 0xFFFFFFFF, .nobody⟩,
  ⟨0x0340, 16, 4, .ro, 0x0001FFFF, .nobody⟩, ⟨0x0380, 16, 4, .ro, 0xFFFFFFFF, .nobody⟩,
  ⟨0x03C0, 16, 4, .ro, 0xFFFFFFFF, .nobody⟩]

/-- ARR_, MSQ_ and CND_. -/
def regRowsB : List RegRow := [
  ⟨0x0400, 1, 4, .ro, 0x0000FF3F, .nobody⟩, ⟨0x0404, 1, 4, .w1c, 0x0000001F, .p0⟩,
  ⟨0x0408, 1, 4, .ro, 0xFFFFFFFF, .nobody⟩, ⟨0x040C, 1, 4, .ro, 0x003F7FFF, .nobody⟩,
  ⟨0x0410, 1, 4, .ro, 0xFFFFFFFF, .nobody⟩, ⟨0x0414, 1, 4, .ro, 0x00000001, .nobody⟩,
  ⟨0x0418, 1, 4, .ro, 0x0001FFFF, .nobody⟩, ⟨0x041C, 1, 4, .rwf, 0x00000001, .p0⟩,
  ⟨0x0420, 4, 4, .rwf, 0x00001FFF, .p0⟩, ⟨0x0430, 2, 4, .ro, 0xFFFFFFFF, .nobody⟩,
  ⟨0x0438, 1, 4, .ro, 0x000000FF, .nobody⟩,
  ⟨0x0500, 1, 4, .ro, 0x007FFFFF, .nobody⟩, ⟨0x0504, 1, 4, .w1c, 0x0000007F, .p0⟩,
  ⟨0x0508, 1, 4, .ro, 0xFFFFFFFF, .nobody⟩, ⟨0x050C, 1, 4, .ro, 0x03FFFFFF, .nobody⟩,
  ⟨0x0510, 1, 4, .ro, 0xFFFFFFFF, .nobody⟩, ⟨0x0514, 1, 4, .ro, 0x00000003, .nobody⟩,
  ⟨0x0518, 1, 4, .ro, 0x0003FFFF, .nobody⟩, ⟨0x051C, 1, 4, .ro, 0xFFFFFFFF, .nobody⟩,
  ⟨0x0520, 4, 4, .rwf, 0x00001FFF, .p0⟩, ⟨0x0530, 4, 4, .ro, 0xFFFFFFFF, .nobody⟩,
  ⟨0x0540, 4, 4, .ro, 0x007FFFFF, .nobody⟩,
  ⟨0x0600, 1, 4, .rw, 0x00000001, .p0fw⟩, ⟨0x0604, 1, 4, .ro, 0x00001FFF, .nobody⟩,
  ⟨0x0608, 1, 4, .w1c, 0x0000001F, .p0⟩, ⟨0x060C, 4, 4, .ro, 0xFFFFFFFF, .fw⟩,
  ⟨0x061C, 1, 4, .ro, 0x0001FF1F, .fw⟩, ⟨0x0620, 1, 4, .ro, 0xFFFFFFFF, .fw⟩,
  ⟨0x0624, 1, 4, .ro, 0x0000003F, .fw⟩, ⟨0x0628, 2, 4, .ro, 0xFFFFFFFF, .fw⟩,
  ⟨0x0630, 1, 4, .ro, 0x000003FF, .nobody⟩, ⟨0x0634, 1, 4, .ro, 0x000003FF, .fw⟩,
  ⟨0x0638, 1, 4, .ro, 0xFFFFFFFF, .fw⟩, ⟨0x063C, 2, 4, .ro, 0xFFFFFFFF, .nobody⟩,
  ⟨0x0644, 1, 4, .ro, 0x0007FFFF, .nobody⟩, ⟨0x0648, 1, 4, .ro, 0x0000FFFF, .nobody⟩,
  ⟨0x0680, 1, 4, .ro, 0x00000007, .fw⟩, ⟨0x06A0, 8, 4, .ro, 0xFFFFFFFF, .fw⟩]

/-- HDG_, SCB_, SMP_ and PRT_. -/
def regRowsC : List RegRow := [
  ⟨0x0700, 1, 4, .ro, 0x0000007F, .nobody⟩, ⟨0x0704, 1, 4, .w1c, 0x000000FF, .p0⟩,
  ⟨0x0708, 1, 4, .ro, 0xFFFFFFFF, .nobody⟩, ⟨0x0710, 4, 4, .rwf, 0x0000FFFF, .p0⟩,
  ⟨0x0720, 1, 4, .rwf, 0x00000003, .p0⟩, ⟨0x0724, 1, 4, .rwf, 0x80000FFF, .p0⟩,
  ⟨0x0730, 4, 8, .rwf, 0x003FFFFF, .p0⟩, ⟨0x0734, 4, 8, .rwf, 0x3F3F3F3F, .p0⟩,
  ⟨0x0750, 1, 4, .rw, 0xC000FF3F, .p0⟩, ⟨0x0754, 1, 4, .ro, 0x00000003, .nobody⟩,
  ⟨0x0758, 1, 4, .w1c, 0x00FFFFFF, .p0⟩,
  ⟨0x0800, 1, 4, .rwf, 0x0000FF07, .p0⟩, ⟨0x0804, 1, 4, .ro, 0x000000FF, .nobody⟩,
  ⟨0x0808, 1, 4, .w1c, 0x000000FF, .p0⟩, ⟨0x080C, 2, 4, .ro, 0xFFFFFFFF, .nobody⟩,
  ⟨0x0814, 1, 4, .ro, 0x00007FFF, .nobody⟩, ⟨0x0818, 3, 4, .ro, 0xFFFFFFFF, .nobody⟩,
  ⟨0x0824, 1, 4, .ro, 0x0000FFFF, .nobody⟩, ⟨0x0828, 1, 4, .ro, 0xFFFFFFFF, .nobody⟩,
  ⟨0x082C, 1, 4, .ro, 0x000000FF, .nobody⟩, ⟨0x0830, 2, 4, .ro, 0xFFFFFFFF, .nobody⟩,
  ⟨0x0900, 1, 4, .w1c, 0x00000003, .p0⟩, ⟨0x0904, 1, 4, .w1c, 0x0000FFFF, .p0⟩,
  ⟨0x0940, 16, 4, .rwf, 0x007FFFFF, .p0⟩, ⟨0x0980, 16, 4, .rwf, 0x0007FFFF, .p0⟩,
  ⟨0x09C0, 16, 4, .ro, 0x0001FFFF, .nobody⟩,
  ⟨0x0A00, 1, 4, .ro, 0x000001FF, .nobody⟩, ⟨0x0A04, 1, 4, .w1c, 0x00000FF7, .p0⟩,
  ⟨0x0A08, 1, 4, .ro, 0xFFFFFFFF, .nobody⟩, ⟨0x0A10, 4, 4, .rwf, 0x0000FF01, .p0⟩,
  ⟨0x0A20, 12, 4, .rwf, 0x00007F7F, .p0⟩, ⟨0x0A50, 4, 4, .rwf, 0x00003F3F, .p0⟩,
  ⟨0x0A60, 4, 4, .rwf, 0x00000177, .p0⟩, ⟨0x0A70, 4, 4, .ro, 0x801FFFFF, .nobody⟩,
  ⟨0x0A80, 4, 16, .ro, 0x0000FFFF, .nobody⟩, ⟨0x0A84, 4, 16, .rw, 0x0000FFFF, .part⟩,
  ⟨0x0A88, 4, 16, .rw, 0x0000FFFF, .part⟩, ⟨0x0A8C, 4, 16, .ro, 0x0000FFFF, .nobody⟩,
  ⟨0x0AC0, 1, 4, .ro, 0xFFFF0003, .nobody⟩]

/-- LNK_, GRP_, TRC_, FLT_, LOG_ and TMP_. -/
def regRowsD : List RegRow := [
  ⟨0x0B00, 1, 4, .rw, 0x00000007, .p0⟩, ⟨0x0B04, 1, 4, .ro, 0x00000FFF, .nobody⟩,
  ⟨0x0B08, 1, 4, .w1c, 0x0000007F, .p0⟩, ⟨0x0B0C, 2, 4, .ro, 0xFFFFFFFF, .nobody⟩,
  ⟨0x0B20, 1, 4, .ro, 0x00000001, .nobody⟩, ⟨0x0B24, 1, 4, .ro, 0x0000000F, .nobody⟩,
  ⟨0x0B28, 1, 4, .w1c, 0x0000001F, .p0⟩,
  ⟨0x0C00, 1, 4, .ro, 0x001FFFFF, .nobody⟩, ⟨0x0C04, 1, 4, .w1c, 0x000003FF, .p0⟩,
  ⟨0x0C08, 1, 4, .rw, 0x0000000F, .p0⟩, ⟨0x0C0C, 1, 4, .ro, 0x0000FFFF, .nobody⟩,
  ⟨0x0C10, 1, 4, .ro, 0xFFFFFF07, .nobody⟩, ⟨0x0C14, 1, 4, .ro, 0xFFFFFFFF, .nobody⟩,
  ⟨0x0C18, 1, 4, .ro, 0x0000FFFF, .nobody⟩, ⟨0x0C1C, 2, 4, .ro, 0xFFFFFFFF, .nobody⟩,
  ⟨0x0C40, 2, 16, .ro, 0x00FF01FF, .nobody⟩, ⟨0x0C44, 2, 16, .ro, 0xFFFFFFFF, .nobody⟩,
  ⟨0x0C48, 2, 16, .ro, 0xFFFFFFFF, .nobody⟩,
  ⟨0x0D00, 1, 4, .ro, 0x0000000F, .nobody⟩, ⟨0x0D04, 1, 4, .w1c, 0x00000001, .p0⟩,
  ⟨0x0D10, 4, 4, .rw, 0x000001FF, .p0⟩, ⟨0x0D20, 1, 4, .ro, 0xFFFFFFFF, .nobody⟩,
  ⟨0x0D24, 1, 4, .ro, 0x00003FFF, .nobody⟩,
  ⟨0x0D40, 4, 48, .rw, 0x00003FFF, .trace⟩, ⟨0x0D44, 4, 48, .rw, 0x007FFFFF, .trace⟩,
  ⟨0x0D48, 4, 48, .rw, 0x0000001F, .trace⟩, ⟨0x0D4C, 4, 48, .rw, 0x0001FFFF, .trace⟩,
  ⟨0x0D50, 4, 48, .rw, 0x01FF7F7F, .trace⟩, ⟨0x0D54, 4, 48, .rw, 0x01FF7F7F, .trace⟩,
  ⟨0x0D58, 4, 48, .rw, 0x01FF7F7F, .trace⟩, ⟨0x0D5C, 4, 48, .rw, 0xFFFFFFFF, .trace⟩,
  ⟨0x0D60, 4, 48, .rw, 0xFFFFFFFF, .trace⟩, ⟨0x0D64, 4, 48, .ro, 0x0000007F, .nobody⟩,
  ⟨0x0D68, 4, 48, .ro, 0xFFFFFFFF, .nobody⟩, ⟨0x0D6C, 4, 48, .ro, 0xFFFFFFFF, .nobody⟩,
  ⟨0x0E00, 1, 4, .rs, 0x00003FFF, .nobody⟩, ⟨0x0E04, 1, 4, .rs, 0x000001FF, .nobody⟩,
  ⟨0x0E08, 1, 4, .rw, 0x00003FFF, .p0⟩, ⟨0x0E0C, 1, 4, .rw, 0x000001FF, .p0⟩,
  ⟨0x0E10, 1, 4, .ro, 0x8000003F, .nobody⟩, ⟨0x0E14, 1, 4, .ro, 0xFFFF010F, .nobody⟩,
  ⟨0x0F00, 1, 4, .ro, 0x03FF01FF, .nobody⟩, ⟨0x0F04, 1, 4, .ro, 0x00001FFF, .nobody⟩,
  ⟨0x0F08, 3, 4, .ro, 0xFFFFFFFF, .nobody⟩, ⟨0x0F14, 1, 4, .ro, 0x000FFFFF, .nobody⟩,
  ⟨0x0F80, 1, 4, .ro, 0x0003FFFF, .nobody⟩, ⟨0x0F84, 1, 4, .rw, 0x00FF0FFF, .p0⟩,
  ⟨0x0F88, 1, 4, .w1c, 0x00000007, .p0⟩, ⟨0x0F8C, 1, 4, .ro, 0x0000FFFF, .nobody⟩,
  ⟨0x0F90, 1, 4, .ro, 0xFFFFFFFF, .nobody⟩]

/-- The row holds address `a`. -/
def RegRow.has (r : RegRow) (a : Nat) : Bool :=
  decide (r.base ≤ a) && decide ((a - r.base) % r.stride = 0) && decide ((a - r.base) / r.stride < r.n)

/-- The register at address `a`, if one is defined (R706, R707). -/
def regRow (a : Nat) : Option RegRow :=
  (if a < 0x400 then regRowsA else if a < 0x700 then regRowsB else if a < 0xB00 then regRowsC else regRowsD).find?
    (fun r => r.has a)

/-- Which of a run of registers address `a` is: the partition, program, lane or port number. -/
def regIndex (a : Nat) : Nat :=
  match regRow a with
  | some r => (a - r.base) / r.stride
  | none => 0

/-- The key under which word A or B of angle event entry `n` is held in the register bank (R73, R717). -/
def evtKey (n : Nat) (b : Bool) : Nat := 0x10000 + 8 * n + (if b then 4 else 0)

/-- The shared-resource unit of a register address (R402, R704). -/
def regUnit (a : Nat) : ResUnit :=
  if a = 0x0200 ∨ (0x021C ≤ a ∧ a ≤ 0x0248) then .angle
  else if 0x10000 ≤ a then .event ((a - 0x10000) / 8)
  else if 0x0280 ≤ a ∧ a < 0x02C0 then .pacer ((a - 0x0280) / 16)
  else if a = 0x0300 then .gclk
  else if 0x0710 ≤ a ∧ a < 0x0750 then .fabric
  else if a = 0x0750 then .capture
  else if 0x0940 ≤ a ∧ a < 0x09C0 then .lanes
  else if a = 0x041C ∨ (0x0420 ≤ a ∧ a < 0x0430) then .array
  else if 0x0520 ≤ a ∧ a < 0x0530 then .topiary
  else if 0x0A10 ≤ a ∧ a < 0x0A70 then .partition
  else if a = 0x0800 then .scrubber
  else if a = 0x0600 then .conductor
  else if (0x0100 ≤ a ∧ a < 0x0114) ∨ a = 0x0F84 then .power
  else .free

end Sys2Proof.Machine
end

