-- ==== Sys2Proof/Machine/Ops.lean ====
section
/-! DEFINITION. The operations shared by every block: time, the register bank, the sticky faults and the queue of log
records. -/

namespace Sys2Proof.Machine

open Sys2Proof

/-- Fabric PLL cycles in a millisecond: 5 ns each (R720). -/
def msTicks : Nat := 200000

/-- Milliseconds since the boot ROM started (R610). -/
def upMs (s : State) : Nat := min 0xFFFFFFFF ((s.now - s.boot.bootAt) / msTicks)

/-- FRM_COUNT of the newest frame opened, or all ones when none has opened since reset (R453, R610). -/
def frmCount (s : State) : Nat := if s.ang.anyOpened then s.ang.count48.toNat else 0xFFFFFFFFFFFF

/-- A value in force in the register bank. -/
def rd (s : State) (a : Nat) : Word := tget 0 s.regs a

/-- The register bank with one value in force replaced. -/
def wr (s : State) (a : Nat) (v : Word) : State := { s with regs := tset 0 s.regs a v }

/-- Bits of a register set. -/
def orReg (s : State) (a : Nat) (v : Word) : State := wr s a (rd s a ||| v)

/-- Bits of a register cleared. -/
def clrReg (s : State) (a : Nat) (v : Word) : State := wr s a (rd s a &&& ~~~v)

/-- One flag bit set. -/
def setFlag (s : State) (a n : Nat) : State := orReg s a (place 1 n)

/-- A count that saturates at 0xFFFF_FFFF. -/
def satReg (s : State) (a n : Nat) : State := wr s a (BitVec.ofNat 32 (satAdd 0xFFFFFFFF (rd s a).toNat n))

/-- The value of an RWF register as last written (R16). -/
def rdStaged (s : State) (a : Nat) : Word := tget 0 s.staged a

/-- The written value of an RWF register. -/
def wrStaged (s : State) (a : Nat) (v : Word) : State := { s with staged := tset 0 s.staged a v }

/-- Both the written value and the value in force (resets, swaps). -/
def wrBoth (s : State) (a : Nat) (v : Word) : State := wrStaged (wr s a v) a v

/-- Both log banks are failed (R620). -/
def bothFailed (s : State) : Bool := tget false s.flt.bankF 0 && tget false s.flt.bankF 1

/-- A record enters the RAM ring. Outside LOG_HELD a full ring discards it and LOG_DROP counts it; in LOG_HELD the
oldest record is overwritten and its SEQ is gone (R610, R620, R622). -/
def ringPut (s : State) (r : LogRec) : State :=
  if s.flt.ring.length < 16 then { s with flt := { s.flt with ring := s.flt.ring ++ [r] } }
  else if bothFailed s then { s with flt := { s.flt with ring := s.flt.ring.drop 1 ++ [r], seq := s.flt.seq + 1 } }
  else satReg s 0x0F10 1

/-- A record with the fields of R610, its SEQ taken when it is written. -/
def mkRec (s : State) (code suppr : Nat) (data : List Byte) : LogRec :=
  { code := code, frmcnt := frmCount s, suppr := min 0xFFFF suppr, uptime := upMs s,
    data := (data ++ List.replicate 8 0).take 8 }

/-- A fault record passes the hourly limit of R617, or is counted in LOG_SUPPR. -/
def hourPut (s : State) (r : LogRec) : State :=
  if s.flt.hourN < 1024 then ringPut { s with flt := { s.flt with hourN := s.flt.hourN + 1 } } r
  else satReg { s with flt := { s.flt with hourSup := s.flt.hourSup + 1 } } 0x0F0C 1

/-- A record of `code`. Codes at or above 0x0100 are subject to the one-second window (R616) and the hourly limit
(R617); administrative records to neither. -/
def logPut (s : State) (code : Nat) (data : List Byte) : State :=
  if code < 0x100 then ringPut s (mkRec s code 0 data)
  else
    match tfind s.flt.rates code with
    | some w =>
      if upMs s < w.at_ + 1000 then
        { s with flt := { s.flt with rates := tput s.flt.rates code { w with n := w.n + 1, data := data } } }
      else
        hourPut { s with flt := { s.flt with rates := tput s.flt.rates code ⟨upMs s, 0, data⟩ } } (mkRec s code 0 data)
    | none =>
      hourPut { s with flt := { s.flt with rates := tput s.flt.rates code ⟨upMs s, 0, data⟩ } } (mkRec s code 0 data)

/-- FLT_FIRST takes the first bit set while both sticky registers are 0 (R632). -/
def noteFirst (s : State) (index : Nat) : State :=
  if rd s 0x0E00 = 0 ∧ rd s 0x0E04 = 0 then wr s 0x0E10 (place index 0 ||| place 1 31) else s

/-- The interrupt of vector v becomes pending (R353). -/
def raiseInt (s : State) (v : Nat) : State :=
  { s with cnd := { s.cnd with ipend := s.cnd.ipend ||| BitVec.ofNat 10 (2 ^ (v - 16)) } }

/-- A cause of FLT_STICKY0 bit `n` occurs: the bit is set and a record of code 0x0100 + n results (R603). -/
def sticky0 (s : State) (n : Nat) (data : List Byte) : State :=
  logPut (raiseInt (setFlag (noteFirst s n) 0x0E00 n) 22) (0x100 + n) data

/-- A cause of FLT_STICKY1 bit `n` occurs (R603). -/
def sticky1 (s : State) (n : Nat) (data : List Byte) : State :=
  logPut (raiseInt (setFlag (noteFirst s (32 + n)) 0x0E04 n) 22) (0x120 + n) data

/-- RESERVED_FIELD recorded: `at_` is a register address, opcode or header offset, `kind` 0 register, 1 command,
2 image, 3 link header (R603). -/
def reservedField (s : State) (at_ kind : Nat) : State :=
  sticky0 s 0 (leBytes 2 at_ ++ [BitVec.ofNat 8 kind])

/-- FAULT_N is driven low (R608). -/
def faultLow (s : State) : Bool :=
  !s.boot.inReset && ((rd s 0x0E00 &&& rd s 0x0E08) != 0 || (rd s 0x0E04 &&& rd s 0x0E0C) != 0)

/-- A free value is taken: the counter advances. -/
def useFree (s : State) : State := { s with free := s.free + 1 }

/-- A fold of a state transformer over a list. -/
def forEach {α : Type} (l : List α) (s : State) (f : State → α → State) : State := l.foldl f s

/-- The event as given when it can occur, otherwise the state unchanged. -/
def whenEv (c : Bool) (s : State) (t : State) : State := if c then t else s

end Sys2Proof.Machine
end

