-- ==== Sys2Proof/Machine/Trace.lean ====
section
/-! DEFINITION. Trace: entries, the merge queue, the stop schemes and the control registers (R581 to R601). -/

namespace Sys2Proof.Machine

open Sys2Proof

/-- A partition's trace unit at reset. -/
def trcZero : TrcP :=
  { lastTime := 0, fresh := false, ctl := [], rec_ := 0, triggered := false, stopPost := false, stopSeq := false,
    seqSt := 0, c0 := 0, c1 := 0, post := 0, trigAt := 0, wptr := 0, lost := 0, lostCh := 0, lostSeen := false,
    cbr := [], since := 0, seen := [], events := [] }

/-- The trace unit of partition p. -/
def trc (s : State) (p : Nat) : TrcP := tget trcZero s.trc.parts p

/-- The trace unit of partition p replaced. -/
def setTrc (s : State) (p : Nat) (x : TrcP) : State := { s with trc := { s.trc with parts := tput s.trc.parts p x } }

/-- Address of trace register `off` of partition p. -/
def trcReg (p off : Nat) : Nat := 0x0D40 + 0x30 * p + off

/-- Blocks of partition p (R581). -/
def trcBlocks (s : State) (p : Nat) : Nat := fld (rd s (0x0D10 + 4 * p)) 4 5

/-- First block of partition p. -/
def trcBase (s : State) (p : Nat) : Nat := fld (rd s (0x0D10 + 4 * p)) 0 4

/-- A control register as latched at the last rearm (R593). -/
def trcCtl (s : State) (p off : Nat) : Word := tget 0 (trc s p).ctl off

/-- Channel c of partition p records (R587). -/
def chanOn (s : State) (p c : Nat) : Bool := (trc s p).rec_.getLsbD c

/-- The reference clock count, 46 bits (R585, R599). -/
def refTime (s : State) : Nat := s.now / 4 % 2 ^ 46

/-- The common layout of an entry (R584). -/
def entryWord (typ p dt payload : Nat) : DWord :=
  BitVec.ofNat 64 (typ * 2 ^ 60 + p % 4 * 2 ^ 58 + dt % 4096 * 2 ^ 46 + payload % 2 ^ 46)

/-- One more entry of the partition after its trigger (R594). -/
def countPost (s : State) (p : Nat) : State :=
  let x := trc s p
  if x.triggered && !x.stopPost && !bit (tget 0 x.ctl 0x0C) 16 then setTrc s p { x with post := x.post - 1 } else s

/-- An entry offered to the merge queue: appended, its DT the time since the partition's previous entry (0 for TIME), or
discarded and counted when the queue is full (R584, R585, R592). -/
def queuePut (s : State) (p chan typ payload : Nat) : State :=
  let x := trc s p
  if s.trc.queue.length < 16 then
    let dt := if typ = 1 then 0 else refTime s - x.lastTime
    let s1 := { s with trc := { s.trc with queue := s.trc.queue ++ [(p, entryWord typ p dt payload)] } }
    countPost (setTrc s1 p { x with lastTime := refTime s, fresh := false }) p
  else setTrc s p { x with lost := satAdd 0xFFFF x.lost 1, lostCh := x.lostCh ||| 2 ^ chan % 16, lostSeen := true }

/-- A TIME entry, where one is due before the next entry: recording has started, or 4,096 units have passed (R585). -/
def timePut (s : State) (p : Nat) : State :=
  let x := trc s p
  if (x.fresh || decide (4096 ≤ refTime s - x.lastTime)) && decide (s.trc.queue.length < 16) then
    queuePut s p 4 1 (refTime s)
  else s

/-- The LOST entry of a partition that has lost entries, once the queue has room (R592). -/
def lostPut (s : State) (p : Nat) : State :=
  if (trc s p).lost = 0 then s
  else
    let s1 := timePut s p
    let x := trc s1 p
    if s1.trc.queue.length < 16 then
      queuePut (setTrc s1 p { x with lost := 0, lostCh := 0 }) p 4 0xF (4 + x.lost * 16 + x.lostCh * 2 ^ 20)
    else s1

/-- An entry of the type and payload given: preceded by LOST and TIME where they are due; a partition without blocks
records nothing (R581, R584, R585). `chan` is 4 for entries of no channel. -/
def putEntry (s : State) (p chan typ payload : Nat) : State :=
  if trcBlocks s p = 0 then s else queuePut (timePut (lostPut s p) p) p chan typ payload

/-- The pending branch outcomes are written (R590). -/
def flushCbr (s : State) (p : Nat) : State :=
  let x := trc s p
  if x.cbr.isEmpty || !chanOn s p 0 then s
  else
    let v := (x.cbr.zipIdx.map (fun b => if b.1 then 2 ^ b.2 else 0)).sum
    putEntry (setTrc s p { x with cbr := [], since := x.since + 1 }) p 0 4 (v + x.cbr.length * 2 ^ 40)

/-- The recording channels of `mask` stop with a reason (R586, R593 to R595, R600). -/
def stopChans (s : State) (p : Nat) (mask : BitVec 4) (reason : Nat) : State :=
  let x0 := trc s p
  let m := x0.rec_ &&& mask
  if m = 0 then s
  else
    let s1 := if m.getLsbD 0 then flushCbr s p else s
    let s2 := putEntry s1 p 4 0xF (3 + reason * 8 + m.toNat * 256)
    let x := trc s2 p
    setTrc s2 p { x with rec_ := x.rec_ &&& ~~~m }

/-- The channels that selected the sequencer, TRC_CTLp.CHSEQ. -/
def seqMask (s : State) (p : Nat) : BitVec 4 := BitVec.ofNat 4 (fld (rd s (trcReg p 0)) 5 4)

/-- The post-trigger scheme stops its channels once its count has run out (R594). -/
def settlePost (s : State) (p : Nat) : State :=
  let x := trc s p
  if x.triggered && !x.stopPost && !bit (tget 0 x.ctl 0x0C) 16 && decide (x.post = 0) then
    stopChans (setTrc s p { x with stopPost := true }) p (~~~(seqMask s p)) 0
  else s

/-- The post-trigger scheme triggers on an event: `src` 0 the TRIG register, 1 the sequencer (R594). -/
def trigger (s : State) (p code src : Nat) : State :=
  let x := trc s p
  if !bit (rd s (trcReg p 0)) 11 || x.triggered then s
  else
    let s1 := if x.rec_ = 0 then s else putEntry s p 4 0xF (2 + code * 8 + src * 256)
    let y := trc s1 p
    let s2 := setTrc s1 p { y with triggered := true, trigAt := s.now, post := fld (tget 0 y.ctl 0x0C) 0 16 }
    if fld (tget 0 y.ctl 0x0C) 0 16 = 0 then
      stopChans (setTrc s2 p { trc s2 p with stopPost := true }) p (~~~(seqMask s p)) (fld (tget 0 y.ctl 0x0C) 16 1)
    else s2

/-- The partition's trace runs: RUN is 1. -/
def trcRun (s : State) (p : Nat) : Bool := bit (rd s (trcReg p 0)) 0

/-- An event of R596 is true for partition p: the post-trigger scheme may trigger, and the sequencer sees it at its next
step (R594 to R596). -/
def traceEvent (s : State) (p code : Nat) : State :=
  if !trcRun s p then s
  else
    let x := trc s p
    let s1 := setTrc s p { x with events := x.events ++ [code] }
    if fld (trcCtl s p 8) 0 5 = code then trigger s1 p code 0 else s1

/-- An entry of a channel, written while that channel records (R587). -/
def traceChan (s : State) (p chan typ payload : Nat) : State :=
  if chanOn s p chan then settlePost (putEntry s p chan typ payload) p else s

/-- An entry of no channel, written while any channel of the partition records (R587). -/
def traceAny (s : State) (p typ payload : Nat) : State :=
  if (trc s p).rec_ = 0 then s else settlePost (putEntry s p 4 typ payload) p

/-- The FRAME entry of every partition: KIND 0 opened, 1 abandoned; `info` holds the clock state and COASTING (R586). -/
def traceFrame (s : State) (count stCode : Nat) (coast : Bool) (kind : Nat) : State :=
  (List.range 4).foldl (fun s p =>
    let s1 := traceAny s p 2 (count % 2 ^ 32 + stCode * 2 ^ 32 + (if coast then 2 ^ 35 else 0) + kind * 2 ^ 36)
    if kind = 0 then traceEvent (setTrc s1 p { trc s1 p with seen := [] }) p 1 else s1) s

/-- A LANE entry of P0: the first of its kind on its lane in the frame (R586, R588). -/
def traceLane (s : State) (lane kind ovln fill : Nat) : State :=
  let key := 16 * kind + lane
  if (trc s 0).seen.contains key then s
  else
    let s1 := setTrc s 0 { trc s 0 with seen := key :: (trc s 0).seen }
    let s2 := traceEvent s1 0 11
    if bit (trcCtl s 0 4) (4 + lane) then
      traceChan s2 0 3 0xB (lane + kind * 16 + ovln * 256 + fill * 2 ^ 13)
    else s2

/-- A RING entry: KIND 0 submitted, 1 reply posted, 2 reply held (R586, R587). -/
def traceRing (s : State) (p kind counter info replyKind fp : Nat) : State :=
  if bit (trcCtl s p 4) 22 then
    traceChan s p 3 0xE (kind + counter * 4 + info * 2 ^ 18 + replyKind * 2 ^ 26 + fp * 2 ^ 28)
  else s

/-- An HLNK entry (R586, R587). -/
def traceLink (s : State) (p seq res errc typ len : Nat) : State :=
  let s1 := if bit (trcCtl s p 4) 20 then
      traceChan s p 3 0xC (seq + res * 256 + errc * 2 ^ 11 + typ * 2 ^ 16 + len * 2 ^ 20)
    else s
  if 1 ≤ res ∧ res ≤ 4 then traceEvent s1 p 10 else s1

/-- A GLNK entry of P0 (R586, R587). -/
def traceGroup (s : State) (port kind seq ps ck : Nat) : State :=
  let s1 := if bit (trcCtl s 0 4) 21 then
      traceChan s 0 3 0xD (port + kind * 2 + seq * 32 + ps * 2 ^ 13 + ck % 2 ^ 31 * 2 ^ 15)
    else s
  if kind ≤ 2 then traceEvent s1 0 10 else s1

/-- Frame program fp is selected by the filter of its partition (R587). -/
def fpTraced (s : State) (fp : Nat) : Bool := bit (trcCtl s (fp / 4) 4) (fp % 4)

/-- A conductor entry of program fp: pending outcomes first, and a periodic CSYNC after 255 entries (R589, R590). `pc`
is the address of the next instruction. -/
def traceCnd (s : State) (fp typ payload pc : Nat) : State :=
  let p := fp / 4
  if fpTraced s fp && chanOn s p 0 then
    let s1 := traceChan (flushCbr s p) p 0 typ payload
    let n := if typ = 3 then 0 else (trc s1 p).since + 1
    if 255 ≤ n then
      traceChan (setTrc s1 p { trc s1 p with since := 0 }) p 0 3 (pc / 4 % 2 ^ 30 + 2 * 2 ^ 30 + fp * 2 ^ 32)
    else setTrc s1 p { trc s1 p with since := n }
  else s

/-- A branch outcome of program fp (R589, R590). -/
def traceBranch (s : State) (fp : Nat) (taken : Bool) : State :=
  let p := fp / 4
  if fpTraced s fp && chanOn s p 0 then
    let x := trc s p
    let s1 := setTrc s p { x with cbr := x.cbr ++ [taken] }
    if 40 ≤ x.cbr.length + 1 then settlePost (flushCbr s1 p) p else s1
  else s

/-- An event of a traced program: codes 5, 6 and 8 count only programs of FPMASK (R596). -/
def traceProgEvent (s : State) (fp code : Nat) : State := if fpTraced s fp then traceEvent s (fp / 4) code else s

/-- An array entry of program fp (R586, R587). -/
def traceArr (s : State) (fp typ payload : Nat) : State :=
  if fpTraced s fp then traceChan s (fp / 4) 1 typ payload else s

/-- An AEVT entry of its owner (R586, R587). -/
def traceAevt (s : State) (p entry : Nat) (word : Word) : State := traceChan s p 2 0xA (word.toNat + entry * 2 ^ 32)

/-- TRACE_QUEUE_WRITE (R581, R592): one entry leaves the merge queue for its partition's buffer. -/
def execTraceQueueWrite (s : State) : Host.Outcome State Fault Refusal :=
  .next (match s.trc.queue with
    | [] => s
    | (p, e) :: rest =>
      let x := trc s p
      let n := 256 * trcBlocks s p
      let s1 := { s with trc := { s.trc with queue := rest } }
      let s2 := if n = 0 then s1 else
        setTrc { s1 with trc := { s1.trc with buf := tset 0 s1.trc.buf (256 * trcBase s p + x.wptr % n) e } } p
          { x with wptr := (x.wptr + 1) % 2 ^ 32 }
      (List.range 4).foldl (fun u q => if (trc u q).lost = 0 then u else settlePost (lostPut u q) q) s2)

/-- The reload of the counters that a CACT code selects, from TRC_CNTp (R595). -/
def reload (x : TrcP) (code : Nat) : TrcP :=
  let c := tget 0 x.ctl 0x1C
  { x with c0 := if code % 2 = 1 then fld c 0 16 else x.c0, c1 := if 2 ≤ code then fld c 16 16 else x.c1 }

/-- The sequencer's register of state k, as latched. -/
def seqReg (x : TrcP) (k : Nat) : Word := tget 0 x.ctl (0x10 + 4 * k)

/-- One evaluation of the sequencer in state S0 to S2 (R595): the counters, the events of the next cycle, and the move. -/
def seqEval (x : TrcP) : TrcP × Bool × Nat :=
  let w := seqReg x x.seqSt
  let ev := 15 :: x.events
  let dec := ev.contains (fld w 20 5) && fld w 20 5 != 0
  let cd := fld w 18 2
  let d0 := dec && decide (cd % 2 = 1) && decide (0 < x.c0)
  let d1 := dec && decide (2 ≤ cd) && decide (0 < x.c1)
  let y := { x with
    c0 := if d0 then x.c0 - 1 else x.c0, c1 := if d1 then x.c1 - 1 else x.c1,
    events := (if d0 ∧ x.c0 = 1 then [12] else []) ++ (if d1 ∧ x.c1 = 1 then [13] else []) }
  if ev.contains (fld w 0 5) ∧ fld w 0 5 ≠ 0 then (y, true, fld w 5 2)
  else if ev.contains (fld w 8 5) ∧ fld w 8 5 ≠ 0 then (y, true, fld w 13 2)
  else (y, false, x.seqSt)

/-- TRACE_SEQUENCER_STEP (R594, R595): one trace clock cycle of partition p's event sequencer, and the events that are
true in every cycle or follow from a counter. -/
def execTraceSequencerStep (p : Fin 4) (s : State) : Host.Outcome State Fault Refusal :=
  .next (if !trcRun s p then s
    else
      let x := trc s p
      let code := fld (tget 0 x.ctl 8) 0 5
      let s0 := if code = 15 ∨ ((code = 12 ∨ code = 13) ∧ x.events.contains code) then trigger s p code 0 else s
      let x := trc s0 p
      if bit (rd s (trcReg p 0)) 10 ∧ x.seqSt < 3 then
        let r := seqEval x
        let entered := if r.2.1 ∧ r.2.2 < 3 then reload r.1 (fld (seqReg r.1 r.2.2) 16 2) else r.1
        let s1 := setTrc s0 p { entered with seqSt := if r.2.1 then r.2.2 else x.seqSt }
        if r.2.1 ∧ r.2.2 = 3 then
          let w := seqReg x x.seqSt
          let ca := if (15 :: x.events).contains (fld w 0 5) ∧ fld w 0 5 ≠ 0 then fld w 0 5 else fld w 8 5
          if bit (rd s (trcReg p 0)) 9 then trigger s1 p ca 1
          else stopChans (setTrc s1 p { trc s1 p with stopSeq := true }) p (seqMask s p) 2
        else s1
      else setTrc s0 p { x with events := [] })

/-- TRACE_POST_TIMEOUT (R594): N microseconds after the trigger the post-trigger channels stop. -/
def execTracePostTimeout (p : Fin 4) (s : State) : Host.Outcome State Fault Refusal :=
  let x := trc s p
  let w := tget 0 x.ctl 0x0C
  .next (if x.triggered && !x.stopPost && bit w 16 && decide (200 * fld w 0 16 ≤ s.now - x.trigAt) then
      stopChans (setTrc s p { x with stopPost := true }) p (~~~(seqMask s p)) 1
    else s)

/-- Rearm: the control registers are latched, the schemes start anew, CTRL START is written and the enabled channels
record (R593). -/
def rearm (s : State) (p : Nat) (v : Word) : State :=
  let s1 := wr s (trcReg p 0) (v &&& 0x0FFF)
  let x := trc s1 p
  let cnt := rd s1 (trcReg p 0x1C)
  let ctl := (List.range 8).foldl (fun t i => tset 0 t (4 * i + 4) (rd s1 (trcReg p (4 * i + 4)))) []
  let s2 := setTrc s1 p { x with
    ctl := ctl, triggered := false, stopPost := false, stopSeq := false, seqSt := 0, c0 := fld cnt 0 16,
    c1 := fld cnt 16 16, events := [], cbr := [], since := 0, rec_ := BitVec.ofNat 4 (fld v 1 4) }
  let s3 := putEntry s2 p 4 0xF 1
  setTrc s3 p { trc s3 p with fresh := true }

/-- The buffer of partition p emptied (R582, R598). -/
def clearBuf (s : State) (p : Nat) : State :=
  let lo := 256 * trcBase s p
  let hi := lo + 256 * trcBlocks s p
  setTrc { s with trc := { s.trc with buf := s.trc.buf.filter (fun e => e.1 < lo || hi ≤ e.1) } } p
    { trc s p with wptr := 0 }

/-- A write of TRC_CTLp (R593, R596, R598): CLEAR while RUN is 0, then a rearm or a stop, then FORCE. -/
def trcCtlWrite (s : State) (p : Nat) (v : Word) : State :=
  let s1 := if bit v 12 && !trcRun s p then clearBuf s p else s
  let s2 := if bit v 0 then
      (if trcBlocks s1 p = 0 then setFlag s1 0x0D04 0 else rearm s1 p v)
    else wr (stopChans s1 p 0xF 3) (trcReg p 0) (v &&& 0x0FFF)
  if bit v 13 then traceEvent s2 p 14 else s2

/-- Block b lies in an allocation word. -/
def blockIn (w : Word) (b : Nat) : Bool := decide (fld w 0 4 ≤ b) && decide (b < fld w 0 4 + fld w 4 5)

/-- A write of TRC_ALLOCp (R582, R597). -/
def allocWrite (s : State) (p : Nat) (v : Word) : State :=
  let w := v &&& 0x1FF
  if 16 < fld w 4 5 then reservedField s (0x0D10 + 4 * p) 0
  else
    let now := fun q => if q = p then w else rd s (0x0D10 + 4 * q)
    let ok := (List.range 4).all (fun q => decide (fld (now q) 0 4 + fld (now q) 4 5 ≤ 16)) &&
      (List.range 16).all (fun b => decide (((List.range 4).filter (fun q => blockIn (now q) b)).length ≤ 1))
    let old := rd s (0x0D10 + 4 * p)
    if !ok || (trcRun s p && decide (old ≠ w)) then setFlag s 0x0D04 0
    else
      let hit := (List.range 16).filter (fun b => blockIn old b != blockIn w b)
      let s1 := wr s (0x0D10 + 4 * p) w
      if old = w then s1
      else
        setTrc { s1 with trc := { s1.trc with buf := s1.trc.buf.filter (fun e => !hit.contains (e.1 / 256)) } } p
          { trc s1 p with wptr := 0 }

end Sys2Proof.Machine
end

