-- ==== Sys2Proof/Machine/GroupLink.lean ====
section
/-! DEFINITION. The group link ports as a chip sees them: frames sent and awaiting acknowledgement, retries and the
power of the ports (R534 to R541). -/

namespace Sys2Proof.Machine

open Sys2Proof

/-- A port at reset: DOWN. -/
def portZero : Port :=
  { st := .down, peer := none, lanes := 0, sendSeq := 0, expSeq := 0, unacked := [], resends := 0, sentAt := 0,
    exhausted := none, retrains := 0, trainAt := 0 }

/-- Link port p. -/
def gport (s : State) (p : Nat) : Port := tget portZero s.grp.ports p

/-- Link port p replaced. -/
def setGport (s : State) (p : Nat) (x : Port) : State := { s with grp := { s.grp with ports := tput s.grp.ports p x } }

/-- The chip is a member of a formed group and not its leader. -/
def member (s : State) : Bool := decide (2 ≤ s.grp.role)

/-- GRP_LPp_STAT.STATE (R536). -/
def portCode : PortState → Nat
  | .down => 0
  | .training => 1
  | .up => 2
  | .lost => 3

/-- A link frame of type `typ` sent on port p: it takes the next SEQ and awaits its acknowledgement (R538, R540). -/
def sendLink (s : State) (p typ : Nat) : State :=
  let x := gport s p
  if x.st = .up then
    setGport s p { x with sendSeq := (x.sendSeq + 1) % 256, unacked := x.unacked ++ [(x.sendSeq, typ)],
                          sentAt := if x.unacked.isEmpty then s.now else x.sentAt }
  else s

/-- A link frame sent on every port that is UP. -/
def sendAll (s : State) (typ : Nat) : State := sendLink (sendLink s 0 typ) 1 typ

/-- A port takes a new state, with its GLNK entry (R541, R586). -/
def portState (s : State) (p : Nat) (st : PortState) : State :=
  let x := gport s p
  traceGroup (setGport s p { x with
    st := st, trainAt := if st = .training then s.now else x.trainAt,
    exhausted := if st = .down then none else x.exhausted }) p 5 0
    (portCode st) 0

/-- The ports power down (R543, R546, R577). -/
def portsDown (s : State) : State := { s with grp := { s.grp with ports := [], known := [] } }

end Sys2Proof.Machine
end

