-- ==== Sys2Proof/Machine/Reply.lean ====
section
/-! DEFINITION. Rings, hold queues and the mailbox, and the posting of replies (R389 to R399, R453 to R463). -/

namespace Sys2Proof.Machine

open Sys2Proof

/-- A byte of conductor memory; unwritten bytes are zero (R635). -/
def rdMem (s : State) (a : Nat) : Byte := tget 0 s.cnd.mem a

/-- Conductor memory with one byte written. -/
def wrMem (s : State) (a : Nat) (b : Byte) : State := { s with cnd := { s.cnd with mem := tset 0 s.cnd.mem a b } }

/-- `n` bytes of conductor memory. -/
def rdBytes (s : State) (a n : Nat) : List Byte := tgets 0 s.cnd.mem a n

/-- Conductor memory with consecutive bytes written. -/
def wrBytes (s : State) (a : Nat) (bs : List Byte) : State :=
  { s with cnd := { s.cnd with mem := tsets 0 s.cnd.mem a bs } }

/-- Conductor memory with a string of bytes at `a`, correct check bits included. -/
def fillMem (s : State) (a : Nat) (bs : List Byte) : State :=
  let s1 := wrBytes s a bs
  { s1 with cnd := { s1.cnd with memErr := s1.cnd.memErr.filter (fun e : Nat × Nat =>
      decide (e.1 < a / 4) || decide ((a + bs.length + 3) / 4 ≤ e.1)) } }

/-- Depth of SQp (R410). -/
def sqDepth (s : State) (p : Nat) : Nat := 16 * 2 ^ fld (rd s (0x0A60 + 4 * p)) 0 3

/-- Depth of RQp (R410). -/
def rqDepth (s : State) (p : Nat) : Nat := 16 * 2 ^ fld (rd s (0x0A60 + 4 * p)) 4 3

/-- Address of entry `v` of SQp (R389, R390). -/
def sqAddr (s : State) (p v : Nat) : Nat := 0x20000000 + 0x8000 * p + 64 * (v % sqDepth s p)

/-- Address of entry `v` of RQp (R389, R390). -/
def rqAddr (s : State) (p v : Nat) : Nat := 0x20004000 + 0x8000 * p + 64 * (v % rqDepth s p)

/-- Entries that SQp holds (R390). -/
def sqCount (s : State) (p : Nat) : Nat := (tget 0 s.prt.sqTail p + 65536 - tget 0 s.prt.sqHead p) % 65536

/-- Entries that RQp holds (R390). -/
def rqCount (s : State) (p : Nat) : Nat := (tget 0 s.prt.rqTail p + 65536 - tget 0 s.prt.rqHead p) % 65536

/-- The hold queue of partition p (R397). -/
def holdQ (s : State) (p : Nat) : List (List Byte) := tget [] s.prt.hold p

/-- A little-endian field of an entry. -/
def entryNat (e : List Byte) (off n : Nat) : Nat := leNat ((e.drop off).take n)

/-- A reply entry written at RQp's TAIL, which advances (R390). -/
def ringPost (s : State) (p : Nat) (e : List Byte) : State :=
  let t := tget 0 s.prt.rqTail p
  let s1 := wrBytes s (rqAddr s p t) e
  let s2 := { s1 with prt := { s1.prt with rqTail := tput s1.prt.rqTail p ((t + 1) % 65536) } }
  let st := entryNat e 1 1
  let s3 := traceRing s2 p 1 ((t + 1) % 65536) st (entryNat e 0 1) (entryNat e 3 1)
  if entryNat e 0 1 = 1 ∧ st ≠ 0 then traceEvent s3 p 9 else s3

/-- A reply posted to partition p: into its ring, or behind the replies held (R397). -/
def post (s : State) (p : Nat) (e : List Byte) : State :=
  if (holdQ s p).isEmpty && decide (rqCount s p < rqDepth s p) then ringPost s p e
  else
    traceRing { s with prt := { s.prt with hold := tput s.prt.hold p (holdQ s p ++ [e]) } } p 2
      (tget 0 s.prt.rqTail p) (entryNat e 1 1) (entryNat e 0 1) (entryNat e 3 1)

/-- The reply flags that report the state at the moment of posting (R23, R455, R606). -/
def postFlags (s : State) : Nat :=
  let k1 := rd s 0x0E04
  (if bit k1 6 then 2 else 0) + (if bit k1 5 && !bit k1 6 then 4 else 0)
    + (if s.arr.map.any (fun c => decide (c < 128)) then 32 else 0) + (if bit k1 3 then 64 else 0)
    + (if rd s 0x0E00 = 0 ∧ k1 = 0 then 0 else 128)

/-- The layout of a reply entry (R453). -/
def replyBytes (kind status flags fp tag opcode stamp sseq frmcnt detail : Nat) (body : List Byte) : List Byte :=
  leBytes 1 kind ++ leBytes 1 status ++ leBytes 1 flags ++ leBytes 1 fp ++ leBytes 2 tag ++ leBytes 2 opcode
    ++ leBytes 4 stamp ++ leBytes 4 sseq ++ leBytes 8 frmcnt ++ leBytes 4 detail ++ leBytes 4 0
    ++ (body ++ List.replicate 32 0).take 32

/-- The entry of a command reply (R451, R453). -/
def cmdEntry (s : State) (o : Order) (status detail : Nat) (body : List Byte) : List Byte :=
  replyBytes 0 status (postFlags s) 0 o.tag o.opcode o.stamp o.sseq.toNat (frmCount s) detail body

/-- The mailbox presents the final reply of its command (R400). -/
def mbxReply (s : State) (e : List Byte) : State :=
  { s with prt := { s.prt with mbx := .ready, mbxRpl := tsets 0 [] 0 e } }

/-- A command's ACCEPTED is posted and the command awaits its completion (R395, R396, R462). -/
def accept (s : State) (o : Order) (w : Wait) (body : List Byte) : State :=
  let s1 := { s with prt := { s.prt with opens := s.prt.opens ++ [⟨o, w⟩] } }
  if o.mbx then { s1 with prt := { s1.prt with mbx := .accepted } }
  else post s1 o.part (cmdEntry s o 0x01 0 body)

/-- The command no longer awaits a completion and its message slot is free (R465). -/
def closeOrder (s : State) (o : Order) : State :=
  { s with prt := { s.prt with
      opens := s.prt.opens.filter (fun w => w.ord.stamp != o.stamp),
      msgs := s.prt.msgs.filter (fun m => m.2.ord.stamp != o.stamp) } }

/-- A command's final reply (R396, R463, R465). -/
def finish (s : State) (o : Order) (status detail : Nat) (body : List Byte) : State :=
  let s1 := closeOrder s o
  let e := cmdEntry s1 o status detail body
  if o.mbx then mbxReply s1 e else post s1 o.part e

/-- The completion of a change that may carry a command. -/
def finishOpt (s : State) (o : Option Order) (status detail : Nat) (body : List Byte) : State :=
  match o with
  | some o => finish s o status detail body
  | none => s

/-- The completion of the first command that waits for `w`. -/
def finishWait (s : State) (p : Wait → Bool) (status detail : Nat) (body : List Byte) : State :=
  match s.prt.opens.find? (fun w => p w.wait) with
  | some w => finish s w.ord status detail body
  | none => s

/-- Held replies move into the ring in held order while entries are free (R397). -/
def moveHeld (s : State) (p : Nat) : State :=
  match holdQ s p with
  | e :: rest =>
    if rqCount s p < rqDepth s p then
      ringPost { s with prt := { s.prt with hold := tput s.prt.hold p rest } } p e
    else s
  | [] => s

/-- Words as bytes, low byte first (R6). -/
def wordBytes (ws : List Word) : List Byte := ws.flatMap (fun w => leBytes 4 w.toNat)

end Sys2Proof.Machine
end

