-- ==== Sys2Proof/Machine/Frames.lean ====
section
/-! DEFINITION. Frames, reply slots, the end of a computation and admission (R84 to R111). -/

namespace Sys2Proof.Machine

open Sys2Proof

/-- A frame program that is not loaded. -/
def progNone : Prog :=
  { loaded := false, enabled := false, susp := false, prio := 0, sbase := 0, sbands := 0,
    bands := 0, evmax := 0, hentry := 0, eventry := none, v := 0, h := 0, ck := 0, ckg := 0, mSolo := 0, xSolo := 0,
    mGrp := 0, xGrp := 0, iCnt := 0, codeAt := 0, codeLen := 0, table := [], faulted := false }

/-- Frame program FPk. -/
def prog (s : State) (k : Nat) : Prog := tget progNone s.frm.progs k

/-- FPk replaced. -/
def setProg (s : State) (k : Nat) (p : Prog) : State := { s with frm := { s.frm with progs := tput s.frm.progs k p } }

/-- The partition that owns FPk (R385). -/
def fpPart (k : Nat) : Nat := k / 4

/-- Precedence of a frame outcome, 1 first (R109). -/
def outcomeRank (status : Nat) : Nat :=
  if status = 0x22 then 1 else if status = 0x23 then 2 else if status = 0x24 then 3 else if status = 0x21 then 4
  else if status = 0x20 then 5 else if status = 0x25 then 6 else 7

/-- A slot receives an outcome: a posted slot keeps its own, an unposted one keeps the outcome of higher
precedence (R109). -/
def Slot.answer (x : Slot) (status detail : Nat) : Slot :=
  if x.posted then x
  else
    match x.outcome with
    | none => { x with outcome := some (status, detail) }
    | some (st, _) => if outcomeRank status < outcomeRank st then { x with outcome := some (status, detail) } else x

/-- Every slot of the frame has its outcome. -/
def Frame.answered (f : Frame) : Bool := f.slots.all (fun x => x.outcome.isSome)

/-- Every slot of the frame is posted. -/
def Frame.allPosted (f : Frame) : Bool := f.slots.all (fun x => x.posted)

/-- The frame with FRM_COUNT `c` changed. -/
def modFrame (s : State) (c : BitVec 48) (g : Frame → Frame) : State :=
  { s with frm := { s.frm with frames := s.frm.frames.map (fun f => if f.count = c then g f else f) } }

/-- The frame with FRM_COUNT `c`. -/
def findFrame (s : State) (c : BitVec 48) : Option Frame := s.frm.frames.find? (fun f => f.count = c)

/-- The flag that an outcome sets in FRM_FLAGS, and the count of sheds (R108, R110). -/
def markOutcome (s : State) (status n : Nat) : State :=
  if n = 0 then s
  else if status = 0x20 then satReg (setFlag s 0x0308 0) 0x0314 n
  else if status = 0x21 then setFlag s 0x0308 1
  else if status = 0x24 then setFlag s 0x0308 5
  else s

/-- The slots of frame `c` that satisfy `p` receive an outcome (R109). -/
def answerSlots (s : State) (c : BitVec 48) (p : Slot → Bool) (status detail : Nat) : State :=
  match findFrame s c with
  | none => s
  | some f =>
    let n := (f.slots.filter (fun x => p x && decide (x.answer status detail ≠ x))).length
    markOutcome (modFrame s c (fun f => { f with slots := f.slots.map (fun x => if p x then x.answer status detail else x) }))
      status n

/-- A frame in POSTING whose replies are posted and whose drain is complete is DRAINED (R85). Frames older than the
newest two are forgotten once DRAINED. -/
def settle (s : State) : State :=
  let fs := s.frm.frames.map (fun f =>
    if f.st = .posting ∧ f.allPosted ∧ !f.owed then { f with st := .drained } else f)
  { s with frm := { s.frm with frames := fs.take 2 ++ (fs.drop 2).filter (fun f => f.st ≠ .drained) } }

/-- The frame moves to POSTING, releasing its half (R85, R89). -/
def toPosting (s : State) (c : BitVec 48) : State := settle (modFrame s c (fun f => { f with st := .posting }))

/-- The CEXIT entry of a handler or routine that ends, and event HEXIT (R589, R596). -/
def traceExit (s : State) (fp reason vec : Nat) : State :=
  traceProgEvent (traceCnd s fp 7 (s.cnd.last.toNat / 4 % 2 ^ 30 + reason * 2 ^ 30 + vec * 2 ^ 34 + fp * 2 ^ 39)
    s.cnd.pc.toNat) fp 6

/-- The conductor with firmware's own registers back (R367). -/
def restoreFw (c : Cnd) : Cnd :=
  match c.fw with
  | some x => { c with a := x.a, d := x.d, win := x.win, k := x.k, f := x.f, pc := x.pc, lc := x.lc, wp := x.wp,
                       slim := x.slim, cstat := x.cstat, fw := none, dlv := [], fpuBusy := 0 }
  | none => c

/-- The current handler is over: firmware goes on where it stood. -/
def leaveHandler (s : State) : State :=
  { s with cnd := { restoreFw s.cnd with handler := none, rep := none, held := none, waiting := false } }

/-- A handler that still runs is abandoned, with its CEXIT entry (R589). -/
def stopHandler (s : State) : State :=
  match s.cnd.handler with
  | some h => leaveHandler (traceExit s h.fp 3 0)
  | none => s

/-- The computation that runs ends, its slot receives the outcome, and the drain begins (R93, R94). A completed
program's staged keeper updates wait for its posting (R100); for any other outcome they are discarded. -/
def endComp (s : State) (status detail : Nat) (body : List Word) : State :=
  match s.frm.comp with
  | none => s
  | some k =>
    let p := fpPart k.fp
    let s0 := raiseInt s 17
    let s1 := modFrame s0 k.count (fun f => { f with slots := f.slots.map (fun x =>
      if x.fp = k.fp then { x with body := body, restarts := s.arr.restarts, throttled := k.fromClock } else x) })
    let s2 := answerSlots s1 k.count (fun x => x.fp = k.fp) status detail
    let s3 := stopHandler s2
    let done := if status = 0x00 ∨ status = 0x25 then tget [] s3.frm.kstage p else []
    let s4 := { s3 with
      frm := { s3.frm with comp := none, drain := some (k.fp, k.count), drained := false,
                           kstage := tdel s3.frm.kstage p,
                           kdone := if done.isEmpty then s3.frm.kdone else tput s3.frm.kdone (16 * k.count.toNat + k.fp) done },
      arr := { s3.arr with run := none, queue := [] } }
    match findFrame s4 k.count with
    | some f => if f.answered && !member s4 then toPosting s4 k.count else s4
    | none => s4

/-- The computing program faults with the DETAIL given; its computation ends at the fault, and in a group every member is
told (R93, R457, R559). -/
def faultComp (s : State) (detail : Nat) : State :=
  endComp (if s.frm.comp.isSome && decide (s.grp.role ≠ 0) then sendAll s 6 else s) 0x21 detail []

/-- Frame program numbers 0 to 15. -/
def fpNums : List Nat := List.range 16

/-- Array and conductor cycles of FPk under the costs that apply (R101, R105). -/
def ownCount (grouped : Bool) (p : Prog) : Nat := if grouped then p.ckg else p.ck

/-- Cycles of the drain after a program (R95). -/
def drainCount (p : Prog) : Nat := 2048 + 64 * p.sbands

/-- A program of an admission set: its number, its priority, C_k and D_k. -/
structure Load where
  fp : Nat
  prio : Nat
  own : Nat
  drain : Nat
deriving DecidableEq, Repr

/-- Insertion in the order of R92: ascending priority, then ascending FP number. -/
def insLoad (x : Load) : List Load → List Load
  | [] => [x]
  | y :: ys => if x.prio < y.prio ∨ (x.prio = y.prio ∧ x.fp < y.fp) then x :: y :: ys else y :: insLoad x ys

/-- The enabled programs as they would stand, in the order of R92. -/
def loadSet (s : State) (grouped : Bool) (on : Nat → Prog → Bool) : List Load :=
  fpNums.foldl (fun l k => let p := prog s k
    if on k p then insLoad ⟨k, p.prio, ownCount grouped p, drainCount p⟩ l else l) []

/-- The budgets B_k in the order of R92, from the load ahead. -/
def budgets : List Load → Nat → List (Nat × Nat)
  | [], _ => []
  | x :: xs, ahead => (x.fp, ahead + x.own) :: budgets xs (ahead + x.own + x.drain)

/-- The frame load T_tot. -/
def frameLoad (l : List Load) : Nat := (l.map (fun x => x.own + x.drain)).sum

/-- The two tests of R102 at a guaranteed clock of `fG` MHz and a shortest period of `tmin` µs. `none` when the set is
admitted; otherwise the first failing program and the test (R456). -/
def admitFail (l : List Load) (fG tmin : Nat) : Option (Nat × Nat) :=
  match (budgets l 0).find? (fun b => decide (tmin * fG < b.2 + 45 * fG)) with
  | some b => some (b.1, 0)
  | none =>
    if tmin * fG < frameLoad l + 5 * fG then some ((l.getLast?.map (fun x => x.fp)).getD 0, 1) else none

/-- The chip is in a formed group (R105). -/
def grouped (s : State) : Bool := s.grp.role != 0

/-- The operative guaranteed clock in MHz (R114). -/
def gclk (s : State) : Nat := fld (rd s 0x0300) 0 8

/-- The declared shortest frame period in µs (R82). -/
def fmin (s : State) : Nat := fld (rd s 0x0248) 0 25

/-- The admission set as it stands. -/
def admSet (s : State) : List Load := loadSet s (grouped s) (fun _ p => p.enabled)

/-- Admission of the whole set as it stands (R102, R103). -/
def admitNow (s : State) : Option (Nat × Nat) := admitFail (admSet s) (gclk s) (fmin s)

/-- DETAIL of NOT_ADMITTED (R456). -/
def admitDetail (r : Nat × Nat) : Nat := r.1 + 16 * r.2

/-- Whether an enable or disable of FPk awaits a boundary, FRM_PROGk.ENPEND. -/
def enPend (s : State) (k : Nat) : Bool :=
  s.prt.changes.any (fun c =>
    match c.kind with
    | .fpSet fp _ _ => fp == k
    | .fpDisable fp => fp == k
    | _ => false)

/-- FPk holds a slot that is not posted. -/
def slotOpen (s : State) (k : Nat) : Bool :=
  s.frm.frames.any (fun f => f.slots.any (fun x => x.fp == k && !x.posted))

/-- BUSY cause 2 of FP_LOAD and FP_UNLOAD (R479). -/
def fpBusy (s : State) (k : Nat) : Bool := (prog s k).enabled || enPend s k || slotOpen s k

/-- The computation or drain occupies the array. -/
def arrayBusy (s : State) : Bool := s.frm.comp.isSome || s.frm.drain.isSome

/-- A computation of a closed frame is pending. -/
def computePending (s : State) : Bool :=
  s.frm.frames.any (fun f => decide (f.st = .closed ∨ f.st = .computing) && f.slots.any (fun x => !x.started && x.outcome.isNone))

/-- Every band is in retention because the array is DRAINED and no computation is pending (R226). -/
def arrIdle (s : State) : Bool :=
  bit (rd s 0x041C) 0 && s.arr.bistDone && s.frm.drained && !arrayBusy s && !computePending s && decide (s.pwr.st ≠ 2)

/-- The array clock in MHz, 0 while it is stopped (R226, R691, R704). -/
def arrClock (s : State) : Nat := if s.pwr.arrRun && !arrIdle s then s.pwr.arrClk else 0

end Sys2Proof.Machine
end

