-- ==== Sys2Proof/Machine/Changes.lean ====
section
/-! DEFINITION. The changes that wait for a boundary: the shared-resource orders and register writes of R402 to R406
and R724, kept in stamp order. -/

namespace Sys2Proof.Machine

open Sys2Proof

/-- A change takes its place in stamp order (R406). -/
def insChange (c : Change) : List Change → List Change
  | [] => [c]
  | d :: ds => if c.stamp < d.stamp then c :: d :: ds else d :: insChange c ds

/-- A change becomes pending. -/
def addChange (s : State) (c : Change) : State := { s with prt := { s.prt with changes := insChange c s.prt.changes } }

/-- A change is the register writes pending on unit `u`, not a command's own change (R724). -/
def Change.isWrites (c : Change) (u : ResUnit) : Bool :=
  match c.kind with
  | .writes _ => c.unit == u && c.ord.isNone
  | _ => false

/-- The values that a change of register writes carries. -/
def Change.values (c : Change) : List (Nat × Word) :=
  match c.kind with
  | .writes ws => ws
  | _ => []

/-- A write of one RWF register: it joins the pending writes of its unit, which take the stamp of the latest write; the
last value written to a register stands (R403, R724). -/
def addWrite (s : State) (mbx : Bool) (stamp a : Nat) (v : Word) : State :=
  let u := regUnit a
  let old := (s.prt.changes.filter (fun c => c.isWrites u)).flatMap (fun c => c.values)
  let s1 := { s with prt := { s.prt with changes := s.prt.changes.filter (fun c => !c.isWrites u) } }
  addChange (wrStaged s1 a v)
    { unit := u, mbx := mbx, stamp := stamp, kind := .writes (old.filter (fun w => w.1 ≠ a) ++ [(a, v)]), ord := none }

/-- A change of the other master is pending on the unit (R404). -/
def conflict (s : State) (u : ResUnit) (mbx : Bool) : Bool :=
  u != .free && s.prt.changes.any (fun c => c.unit == u && c.mbx != mbx)

end Sys2Proof.Machine
end

