-- ==== Sys2Proof/Machine/Lanes.lean ====
section
/-! DEFINITION. The angle word as the device shows it, and the sample store: the ingest port, word and bitstream lanes
(R81, R87 to R90, R153 to R165). -/

namespace Sys2Proof.Machine

open Sys2Proof

/-- ANG_WORD: the frame number modulo 4,096 above a 20-bit phase that stops at 0xF_FFFF. While no frame is open it
shows the number of the next frame to open, phase 0; in STANDBY it holds (R9, R41, R42, R80). -/
def angWord (s : State) : Word :=
  match s.ang.heldWord with
  | some w => w
  | none =>
    if s.ang.frameOpen then
      BitVec.ofNat 32 (s.ang.count48.toNat % 4096 * 2 ^ 20 + min 0xFFFFF s.ang.phase)
    else BitVec.ofNat 32 ((if s.ang.anyOpened then s.ang.count48.toNat + 1 else 0) % 4096 * 2 ^ 20)

/-- A sample lane that has received nothing. -/
def laneZero : Lane := { hold := none, part := [], buf := [] }

/-- Sample lane n. -/
def lane (s : State) (n : Nat) : Lane := tget laneZero s.smp.lanes n

/-- Sample lane n replaced. -/
def setLane (s : State) (n : Nat) (x : Lane) : State := { s with smp := { s.smp with lanes := tput s.smp.lanes n x } }

/-- SMP_LANEn_CFG in force. -/
def laneCfg (s : State) (n : Nat) : Word := rd s (0x0940 + 4 * n)

/-- Lane n is enabled in word mode. -/
def laneWord (s : State) (n : Nat) : Bool := bit (laneCfg s n) 0 && !bit (laneCfg s n) 1

/-- Lane n is enabled in bitstream mode. -/
def laneBits (s : State) (n : Nat) : Bool := bit (laneCfg s n) 0 && bit (laneCfg s n) 1

/-- The frame that is INGESTING, if any. -/
def ingesting (s : State) : Option Frame := s.frm.frames.find? (fun f => f.st = .ingesting)

/-- What a half holds for a lane: the fill of its region. -/
def laneFill (s : State) (half : Bool) (n : Nat) : LaneFill :=
  tget { base := 0, size := 0, bits := false, fill := 0, ovl := 0 } s.smp.fills ((if half then 16 else 0) + n)

/-- Key of record `i` of a half. -/
def recKey (half : Bool) (i : Nat) : Nat := (if half then 65536 else 0) + i

/-- Key of the stamp of block `b` of a half. -/
def stampKey (half : Bool) (b : Nat) : Nat := (if half then 1024 else 0) + b

/-- The stamp that is written with a block's first record (R163). -/
def blockStamp (s : State) (ovln : Nat) : DWord :=
  BitVec.ofNat 64 ((angWord s).toNat + s.ang.count48.toNat % 65536 * 2 ^ 32
    + (if s.ang.st = .coasting then 2 ^ 48 else 0) + (if s.ang.revHold then 2 ^ 49 else 0)
    + ovln % 64 * 2 ^ 50 + 2 ^ 63)

/-- A record enters lane n's region in a half, with the stamp of the block it opens (R153, R163); one that finds its
region full is discarded and marks the frame (R90, R155). -/
def putRec (s : State) (half : Bool) (count : BitVec 48) (n : Nat) (r : Word) : State :=
  let f := laneFill s half n
  if 64 * f.size ≤ f.fill then
    traceLane (setFlag (setFlag (modFrame s count (fun x => { x with overflow := true })) 0x0904 n) 0x0308 3) n 1 0 f.fill
  else
    let i := 64 * f.base + f.fill
    let b := f.base + f.fill / 64
    let m := s.smp
    let st := if f.fill % 64 = 0 then
        tset 0 m.stamps (stampKey half b) (blockStamp s (if f.fill = 0 then f.ovl else 0))
      else m.stamps
    { s with smp := { m with
        recs := tset 0 m.recs (recKey half i) r, recErr := tdel m.recErr (recKey half i), stamps := st,
        stampErr := if f.fill % 64 = 0 then tdel m.stampErr (stampKey half b) else m.stampErr,
        fills := tput m.fills ((if half then 16 else 0) + n) { f with fill := f.fill + 1 } } }

/-- A record from lane n is written under the frame rule: into the ingesting frame's half, or discarded with
SMP_FLAGS.IDLEDROP when no frame is INGESTING (R153, R154). -/
def ingest (s : State) (n : Nat) (r : Word) : State :=
  match ingesting s with
  | none => traceLane (setFlag s 0x0900 1) n 2 0 0
  | some f => putRec s f.half f.count n r

/-- The record of a bitstream lane: the bits, first sampled in bit 0, and the tag of R162. -/
def bitRec (bs : List Bool) : Word :=
  BitVec.ofNat 32 ((bs.zipIdx.map (fun b => if b.1 then 2 ^ b.2 else 0)).sum + (bs.length - 1) * 2 ^ 24 + 2 ^ 31)

/-- Records written to lane n's region by the INGESTING frame, SMP_LANEn_FILL. -/
def fillOf (s : State) (n : Nat) : Nat :=
  match ingesting s with
  | none => 0
  | some f => (laneFill s f.half n).fill

/-- A record offered to a lane that does not take it is discarded (R158). -/
def outDrop (s : State) (n : Nat) : State := traceLane (setFlag s 0x0704 5) n 3 0 (fillOf s n)

/-- INGEST_RECORD_WRITE (R153, R154, R157, R158): the ingest port takes lane n's waiting record. -/
def execIngestRecordWrite (n : Fin 16) (s : State) : Host.Outcome State Fault Refusal :=
  let l := lane s n
  .next (match l.hold with
    | some r =>
      let s1 := setLane s n { l with hold := none }
      if laneWord s n then ingest s1 n r else outDrop s1 n
    | none =>
      match l.buf with
      | r :: rest =>
        let s1 := setLane s n { l with buf := rest }
        if laneBits s n then ingest s1 n r else outDrop s1 n
      | [] => s)

/-- BITSTREAM_BIT_SAMPLE (R159): the lane packs the level of its DSEL pin; a record of 24 bits is complete. -/
def execBitstreamBitSample (n : Fin 16) (b : Bool) (s : State) : Host.Outcome State Fault Refusal :=
  let l := lane s n
  .next (if laneBits s n && decide (s.pwr.st ≠ 2) then
      let p := l.part ++ [b]
      setLane s n (if p.length < 24 then { l with part := p } else { l with part := [], buf := l.buf ++ [bitRec p] })
    else s)

/-- A bitstream lane's buffered and partial records (R160). -/
def Lane.pendingBits (l : Lane) : List Word := l.buf ++ (if l.part.isEmpty then [] else [bitRec l.part])

/-- At a boundary the bitstream lane writes what it sampled before it to the closing frame's region (R160). -/
def flushLane (s : State) (half : Bool) (count : BitVec 48) (n : Nat) : State :=
  let l := lane s n
  forEach l.pendingBits (setLane s n { l with part := [], buf := [] }) (fun s r => putRec s half count n r)

/-- At a boundary every bitstream lane writes its last records to the closing frame (R160). -/
def flushLanes (s : State) (half : Bool) (count : BitVec 48) : State :=
  forEach (List.range 16) s (fun s n => if laneBits s n then flushLane s half count n else s)

/-- A half is assigned to the opening frame: fill counts zero, stamps not VALID, each lane's region as configured
(R88, R163). -/
def assignHalf (s : State) (half : Bool) : State :=
  let m := s.smp
  let lo := if half then 1024 else 0
  { s with smp := { m with
      stamps := m.stamps.foldl (fun t e =>
        if lo ≤ e.1 ∧ e.1 < lo + 1024 then tset 0 t e.1 (e.2 &&& BitVec.ofNat 64 (2 ^ 63 - 1)) else t) m.stamps,
      fills := (List.range 16).foldl (fun t n => tput t ((if half then 16 else 0) + n)
        { base := if bit (laneCfg s n) 0 then fld (laneCfg s n) 2 10 else 0,
          size := if bit (laneCfg s n) 0 then fld (laneCfg s n) 12 11 else 0,
          bits := laneBits s n, fill := 0, ovl := 0 }) m.fills } }

/-- The last `k` records of a region, oldest first. -/
def lastRecs (s : State) (half : Bool) (f : LaneFill) (k : Nat) : List Word :=
  (tgets 0 s.smp.recs (recKey half (64 * f.base + f.fill - k)) k)

/-- The overlap copy of R161 for lane n, from the closing half to the opening one. -/
def overlapLane (s : State) (half : Bool) (count : BitVec 48) (n : Nat) : State :=
  let old := laneFill s (!half) n
  let new := laneFill s half n
  let k := min (fld (rd s (0x0980 + 4 * n)) 13 6) old.fill
  if old.bits && new.bits && decide (0 < k) then
    let s1 := { s with smp := { s.smp with fills := tput s.smp.fills ((if half then 16 else 0) + n) { new with ovl := k } } }
    traceLane (forEach (lastRecs s (!half) old k) s1 (fun s r => putRec s half count n (r ||| place 1 29))) n 5 k
      (laneFill s half n).fill
  else s

/-- The overlap copies of every lane (R161). -/
def overlapLanes (s : State) (half : Bool) (count : BitVec 48) : State :=
  forEach (List.range 16) s (fun s n => overlapLane s half count n)

/-- On entry to STANDBY every record held by a lane is discarded (R154, R166). -/
def dropLanes (s : State) : State :=
  let any := (List.range 16).any (fun n => let l := lane s n; l.hold.isSome || !l.part.isEmpty || !l.buf.isEmpty)
  let s1 := { s with smp := { s.smp with lanes := [] } }
  if any then setFlag s1 0x0900 1 else s1

/-- The half that the conductor reads: that of the CLOSED or COMPUTING frame (R165). -/
def readHalf (s : State) : Option Bool :=
  (s.frm.frames.find? (fun f => f.st = .closed ∨ f.st = .computing)).map (fun f => f.half)

/-- Record `i` of a half as it is read: those beyond the fill count of every region are zero (R88). -/
def storeRec (s : State) (half : Bool) (i : Nat) : Word :=
  if (List.range 16).any (fun n => let f := laneFill s half n
      decide (64 * f.base ≤ i) && decide (i < 64 * f.base + f.fill)) then tget 0 s.smp.recs (recKey half i) else 0

end Sys2Proof.Machine
end

