-- ==== Sys2Proof/Machine/Fabric.lean ====
section
/-! DEFINITION. The Hedgerow fabric at run time: what a cell reads, its carry chain and its operations (R117 to R143),
and the serial ports (R139, R140). -/

namespace Sys2Proof.Machine

open Sys2Proof

/-- Number of ones in a word. -/
def ones {w : Nat} (x : BitVec w) : Nat := ((List.range w).filter (fun i => x.getLsbD i)).length

/-- Key of a configuration word: bank, configuration frame and word (R141). -/
def cfgKey (bank : Bool) (frame word : Nat) : Nat := (if bank then 6144 else 0) + 64 * frame + word

/-- How a stored word's flipped bits act: 0 none, 1 correctable, 2 uncorrectable, 3 delivered wrong (R167). -/
def flipClass (flips : BitVec 72) : Nat :=
  let n := ones flips
  if n ≤ 2 then n
  else match Config.manyFlips flips with
    | none => 2
    | some _ => 3

/-- A configuration word as it reaches the fabric through its corrector (R168). -/
def cfgWord (s : State) (bank : Bool) (frame word : Nat) : DWord :=
  let k := cfgKey bank frame word
  let v := tget 0 s.hdg.cfg k
  let fl := tget 0 s.hdg.cfgErr k
  if ones fl ≤ 2 then v
  else match Config.manyFlips fl with
    | none => v
    | some m => v ^^^ m

/-- Bits of a configuration word. -/
def cbits (v : DWord) (lo w : Nat) : Nat := bits v.toNat lo w

/-- Unit `u` (cell 0 to 63, FIO bank 64 or 65) is gated (R169). -/
def gated (s : State) (u : Nat) : Bool := tget false s.scb.gated u

/-- A cell at reset of the fabric (R120). -/
def coreZero : CellCore :=
  { acc := 0, opb := 0, out := 0, cy := false, q := false, ptr := 0, ix := 0, slat := false, tl := 0, ram := [] }

/-- A cell that has not run. -/
def cellZero : Cell := { cur := coreZero, prev := coreZero, edge := 0, holding := false }

/-- Cell c. -/
def cell (s : State) (c : Nat) : Cell := tget cellZero s.hdg.cells c

/-- Cell c replaced. -/
def setCell (s : State) (c : Nat) (x : Cell) : State := { s with hdg := { s.hdg with cells := tput s.hdg.cells c x } }

/-- Cell c as the other cells see it at clock edge `t`: its state before that edge. -/
def cellAt (s : State) (c t : Nat) : CellCore :=
  let x := cell s c
  if x.edge = t + 1 then x.prev else x.cur

/-- Word `w` of cell c's configuration frame in the active bank. -/
def cw (s : State) (c w : Nat) : DWord := cfgWord s s.hdg.bank c w

/-- Instruction entry `i` of cell c (R146). -/
def cellEntry (s : State) (c i : Nat) : Word :=
  BitVec.ofNat 32 (cbits (cw s c (1 + i / 2)) (if i % 2 = 0 then 0 else 32) 32)

/-- Global clock k toggles: enabled, its source available to the fabric, not in STANDBY (R132, R166). -/
def gckRuns (s : State) (k : Nat) : Bool :=
  let g := rd s (0x0710 + 4 * k)
  bit g 3 && decide (s.pwr.st ≠ 2) &&
  (match fld g 0 3 with
   | 0 => bit (rd s 0x0720) 0
   | 2 => bit (rd s 0x0720) 1 && s.hdg.x32Ok
   | 3 => s.hdg.pllOk
   | _ => true)

/-- Cell c's clock can have an edge: its global clock toggles, or it is clocked by its wire input WI3 (R133). -/
def cellClock (s : State) (c : Nat) : Bool :=
  let k := cbits (cw s c 5) 0 3
  if k = 4 then true else gckRuns s k

/-- Cell c executes entries at its clock edges: RUN, not gated, not held after a swap (R121, R143, R169). -/
def cellRuns (s : State) (c : Nat) : Bool :=
  (cw s c 5).getLsbD 3 && !gated s c && !s.hdg.swapHold && cellClock s c

/-- OUT of cell c at edge `t`; 0 while gated (R169). -/
def outAt (s : State) (c t : Nat) : BitVec 24 := if gated s c then 0 else (cellAt s c t).out

/-- A bank's supply is at or above 1.6 V (R135). -/
def bankOn (s : State) (b : Nat) : Bool := tget true s.hdg.bankOn b

/-- Descriptor of FIO pin p (R146). -/
def fioDesc (s : State) (p : Nat) : Nat :=
  let b := if p < 20 then 0 else 1
  let i := if p < 20 then p else p - 20
  cbits (cfgWord s s.hdg.bank (64 + b) (1 + i / 2)) (if i % 2 = 0 then 0 else 32) 32

/-- The input level that pin p gives the fabric, from the level at the ball (R135, R169). -/
def fioIn (s : State) (pins : BitVec 40) (p : Nat) : Bool :=
  let b := if p < 20 then 0 else 1
  pins.getLsbD p && bankOn s b && !gated s (64 + b)

/-- Wire output j of cell c at edge t (R146). -/
def wireOut (s : State) (c t j : Nat) : Bool :=
  if gated s c then false else
  let x := cellAt s c t
  match cbits (cw s c 6) (3 * j) 3 with
  | 1 => x.q
  | 2 => x.cy
  | 3 => x.out.getLsbD 0
  | 4 => x.out.getLsbD 23
  | 5 => x.slat
  | 6 => true
  | _ => false

/-- Track that wire output j of cell c drives, if any. -/
def wireDrive (s : State) (c j : Nat) : Option Nat :=
  let f := cbits (cw s c 6) (12 + 7 * j) 7
  if f < 64 then none else some (f - 64)

/-- The level of wire track k; a track with no driver reads 0 (R131). -/
def wireTrack (s : State) (t : Nat) (pins : BitVec 40) (k : Nat) : Bool :=
  (List.range 64).any (fun c => (List.range 4).any (fun j => decide (wireDrive s c j = some k) && wireOut s c t j)) ||
  (List.range 40).any (fun p => let d := fioDesc s p
    decide (bits d 14 1 = 1) && decide (bits d 8 6 = k) && fioIn s pins p)

/-- Wire input i of cell c. -/
def wireIn (s : State) (c t : Nat) (pins : BitVec 40) (i : Nat) : Bool :=
  wireTrack s t pins (cbits (cw s c 5) (29 + 6 * i) 6)

/-- Row track k of row r. -/
def rowTrack (s : State) (t r k : Nat) : BitVec 24 :=
  match (List.range 8).find? (fun j => cbits (cw s (8 * r + j) 6) 40 4 = 8 + k) with
  | some j => outAt s (8 * r + j) t
  | none => 0

/-- Column track k of column j. -/
def colTrack (s : State) (t j k : Nat) : BitVec 24 :=
  match (List.range 8).find? (fun r => cbits (cw s (8 * r + j) 6) 44 4 = 8 + k) with
  | some r => outAt s (8 * r + j) t
  | none => 0

/-- Word input i of cell c: own OUT, a neighbour's OUT, or a track. A neighbour that does not exist reads 0. -/
def wordIn (s : State) (c t i : Nat) : BitVec 24 :=
  let k := cbits (cw s c 5) (9 + 5 * i) 5
  let r := c / 8
  let j := c % 8
  if k = 0 then outAt s c t
  else if k = 1 then (if r = 0 then 0 else outAt s (c - 8) t)
  else if k = 2 then (if j = 7 then 0 else outAt s (c + 1) t)
  else if k = 3 then (if r = 7 then 0 else outAt s (c + 8) t)
  else if k = 4 then (if j = 0 then 0 else outAt s (c - 1) t)
  else if k ≤ 12 then rowTrack s t r (k - 5)
  else if k ≤ 20 then colTrack s t j (k - 13)
  else 0

/-- IMM as a source: bits 7:0 sign-extended (R123). -/
def immSrc (e : Word) : BitVec 24 := (BitVec.ofNat 8 (fld e 0 8)).signExtend 24

/-- RAM address of an entry: IMM bits 4:0, or PTR when bit 5 is 1 (R123). -/
def ramAddr (e : Word) (x : CellCore) : Nat := if bit e 5 then x.ptr.toNat else fld e 0 5

/-- Source code k of an entry (R122). -/
def cellSrc (s : State) (c t : Nat) (e : Word) (x : CellCore) (k : Nat) : BitVec 24 :=
  if k = 0 then x.acc
  else if k = 1 then x.opb
  else if k ≤ 5 then wordIn s c t (k - 2)
  else if k = 6 then tget 0 x.ram (ramAddr e x)
  else immSrc e

/-- Source A of an entry. -/
def srcA (s : State) (c t : Nat) (e : Word) (x : CellCore) : BitVec 24 := cellSrc s c t e x (fld e 24 3)

/-- Source B of an entry. -/
def srcB (s : State) (c t : Nat) (e : Word) (x : CellCore) : BitVec 24 := cellSrc s c t e x (fld e 21 3)

/-- Serial port n. -/
def port (s : State) (n : Nat) : Serial :=
  tget { busy := false, tx := 0, rx := 0, valid := false, ferr := false, orun := false } s.hdg.ports n

/-- Serial port n replaced. -/
def setPort (s : State) (n : Nat) (x : Serial) : State := { s with hdg := { s.hdg with ports := tput s.hdg.ports n x } }

/-- Mode of serial port n in force: 0 off, 1 UART, 2 SPI, 3 I2C. -/
def portMode (s : State) (n : Nat) : Nat := fld (rd s (0x0730 + 8 * n)) 0 2

/-- LEN field of serial port n. -/
def portLen (s : State) (n : Nat) : Nat := fld (rd s (0x0730 + 8 * n)) 12 5

/-- A WAIT condition (the COND codes). -/
def condTrue (s : State) (c t : Nat) (pins : BitVec 40) (x : CellCore) (k : Nat) : Bool :=
  if k = 0 then x.q
  else if k = 1 then !x.q
  else if k ≤ 5 then wireIn s c t pins (k - 2)
  else if k ≤ 9 then !wireIn s c t pins (k - 6)
  else if k ≤ 13 then !(port s (k - 10)).busy
  else if k ≤ 21 then x.tl.getLsbD (k - 14)
  else x.slat

/-- The entry that cell c is at, as of edge t. -/
def entryAt (s : State) (c t : Nat) : Word := cellEntry s c (cellAt s c t).ix.toNat

/-- The entry's WAIT, if any, is satisfied (R121). -/
def notWaiting (s : State) (c t : Nat) (pins : BitVec 40) : Bool :=
  let e := entryAt s c t
  if fld e 16 2 = 3 then condTrue s c t pins (cellAt s c t) (fld e 8 5) else true

/-- Sum of two 24-bit words and a carry: result and carry-out (R125). -/
def add24 (a b : BitVec 24) (cin : Bool) : BitVec 24 × Bool :=
  let r := a.toNat + b.toNat + cin.toNat
  (BitVec.ofNat 24 r, decide (2 ^ 24 ≤ r))

/-- The carry-in that an arithmetic operation takes when CW is 0 (R125). -/
def ownCin (op : Nat) (x : CellCore) : Bool := if op = 2 then false else if op = 4 then true else x.cy

/-- The carry-out of cell c's entry at edge t, given the west neighbour's: that of its ADD, ADC, SUB or SBC, 0 when it
executes anything else, waits or holds (R129). -/
def carryOf (s : State) (c t : Nat) (pins : BitVec 40) (west : Bool) : Bool :=
  let x := cellAt s c t
  let e := entryAt s c t
  let op := fld e 27 5
  if cellRuns s c && decide (2 ≤ op) && decide (op ≤ 5) && notWaiting s c t pins then
    let b := srcB s c t e x
    (add24 (srcA s c t e x) (if op ≤ 3 then b else ~~~b) (if bit e 18 then west else ownCin op x)).2
  else false

/-- The carry-out of the cell at column j of row r at edge t, the chain followed westward within the row (R129). -/
def carryAt (s : State) (t : Nat) (pins : BitVec 40) (r : Nat) : Nat → Bool
  | 0 => carryOf s (8 * r) t pins false
  | j + 1 => carryOf s (8 * r + (j + 1)) t pins (carryAt s t pins r j)

/-- The carry-in of cell c's entry at edge t. -/
def cellCin (s : State) (c t : Nat) (pins : BitVec 40) (op : Nat) (e : Word) (x : CellCore) : Bool :=
  if bit e 18 then (if c % 8 = 0 then false else carryAt s t pins (c / 8) (c % 8 - 1)) else ownCin op x

/-- PTR after an entry that accesses RAM with bit 6 of IMM at 1 (R123). -/
def stepPtr (e : Word) (x : CellCore) (usesRam : Bool) : CellCore :=
  if usesRam && bit e 6 then { x with ptr := x.ptr + 1 } else x

/-- A result written to the entry's destination (R122). -/
def putDst (e : Word) (x : CellCore) (v : BitVec 24) : CellCore :=
  match fld e 19 2 with
  | 0 => { x with acc := v }
  | 1 => { x with opb := v }
  | 2 => { x with out := v }
  | _ => { x with ram := tset 0 x.ram (ramAddr e x) v }

/-- The entry reads RAM with the sources that its operation uses, or writes it. -/
def usesRam (e : Word) (nsrc : Nat) (hasDst : Bool) : Bool :=
  (decide (1 ≤ nsrc) && decide (fld e 24 3 = 6)) || (decide (2 ≤ nsrc) && decide (fld e 21 3 = 6))
    || (hasDst && decide (fld e 19 2 = 3))

/-- IX after the entry (the SEQ codes), and the latch that a completed WAIT clears (R126). -/
def nextIx (e : Word) (x : CellCore) : CellCore :=
  match fld e 16 2 with
  | 1 => { x with ix := BitVec.ofNat 3 (fld e 13 3) }
  | 2 => { x with ix := if x.q then BitVec.ofNat 3 (fld e 13 3) else x.ix + 1 }
  | 3 =>
    let k := fld e 8 5
    let y := if 14 ≤ k ∧ k ≤ 21 then { x with tl := x.tl &&& ~~~(BitVec.ofNat 8 (2 ^ (k - 14))) }
             else if k = 22 then { x with slat := false } else x
    { y with ix := x.ix + 1 }
  | _ => { x with ix := x.ix + 1 }

/-- Cell c's state after its clock edge t. -/
def cellStep (s : State) (c t : Nat) (x : CellCore) : State :=
  let o := cell s c
  setCell s c { cur := x, prev := o.cur, edge := t + 1, holding := false }

/-- The four flag words and the RAM of cell c in the capture RAM's layout (R152). -/
def capWords (x : Cell) (cap : CellCore) (domain : Nat) : List Word :=
  [cap.acc.setWidth 32, cap.opb.setWidth 32, cap.out.setWidth 32,
   BitVec.ofNat 32 (cap.ix.toNat + (if cap.cy then 8 else 0) + (if cap.q then 16 else 0) + cap.ptr.toNat * 32
     + (if cap.slat then 1024 else 0) + cap.tl.toNat * 2048 + domain * 2 ^ 19 + (if x.holding then 2 ^ 21 else 0))]
  ++ (List.range 32).map (fun i => (tget 0 cap.ram i).setWidth 32)

/-- Cell c recorded into the capture RAM (R152). -/
def capCell (s : State) (c : Nat) (cap : CellCore) (domain : Nat) : State :=
  { s with hdg := { s.hdg with capRam := tsets 0 s.hdg.capRam (4 + 36 * c) (capWords (cell s c) cap domain) } }

/-- A cell on another clock is recorded at its own first edge after the capture edge (R150). -/
def capEdge (s : State) (c : Nat) : State :=
  if s.hdg.capDue.contains c then
    capCell { s with hdg := { s.hdg with capDue := s.hdg.capDue.filter (fun d => d ≠ c) } } c (cell s c).cur 1
  else s

/-- Cell c is at an entry of operation `op` at edge t, with RUN and not yet stepped at this edge. -/
def cellAtEdge (s : State) (c t op : Nat) : Bool :=
  cellRuns s c && decide ((cell s c).edge ≠ t + 1) && decide (fld (entryAt s c t) 27 5 = op)

/-- Cell c is at an entry of operation `op` at edge t and executes it: its WAIT is satisfied (R121). -/
def cellReady (s : State) (c t : Nat) (pins : BitVec 40) (op : Nat) : Bool :=
  cellAtEdge s c t op && notWaiting s c t pins

/-- An edge of cell c's clock at an entry of operation `op`: the entry's effect when it executes, nothing when it
waits (R121). -/
def onEdge (s : State) (c t : Nat) (pins : BitVec 40) (op : Nat) (k : State) : State :=
  if cellAtEdge s c t op then capEdge (if notWaiting s c t pins then k else s) c else s

/-- An operation that writes a result of its sources to DST (R125). -/
def cellResult (s : State) (c : Fin 64) (t : Nat) (pins : BitVec 40) (op nsrc : Nat)
    (f : Word → CellCore → BitVec 24 → BitVec 24 → BitVec 24) : State :=
  onEdge s c t pins op (
    let x := (cell s c).cur
    let e := entryAt s c t
    let v := f e x (srcA s c t e x) (srcB s c t e x)
    cellStep s c t (nextIx e (stepPtr e (putDst e x v) (usesRam e nsrc true))))

/-- ADD, ADC, SUB and SBC: the sum to DST and the carry-out to CY (R125, R129). -/
def cellArith (s : State) (c : Fin 64) (t : Nat) (pins : BitVec 40) (op : Nat) : State :=
  onEdge s c t pins op (
    let x := (cell s c).cur
    let e := entryAt s c t
    let b := srcB s c t e x
    let r := add24 (srcA s c t e x) (if op ≤ 3 then b else ~~~b) (cellCin s c t pins op e x)
    cellStep s c t (nextIx e (stepPtr e { putDst e x r.1 with cy := r.2 } (usesRam e 2 true))))

/-- The compare and bit-test operations: Q, and no result (R125). -/
def cellTest (s : State) (c : Fin 64) (t : Nat) (pins : BitVec 40) (op nsrc : Nat)
    (f : Word → BitVec 24 → BitVec 24 → Bool) : State :=
  onEdge s c t pins op (
    let x := (cell s c).cur
    let e := entryAt s c t
    cellStep s c t (nextIx e (stepPtr e { x with q := f e (srcA s c t e x) (srcB s c t e x) } (usesRam e nsrc false))))

/-- CELL_NOP (R125). -/
def execCellNop (c : Fin 64) (t : Nat) (pins : BitVec 40) (s : State) : Host.Outcome State Fault Refusal :=
  .next (onEdge s c t pins 0 (cellStep s c t (nextIx (entryAt s c t) (cell s c).cur)))

/-- CELL_MOV (R125). -/
def execCellMov (c : Fin 64) (t : Nat) (pins : BitVec 40) (s : State) : Host.Outcome State Fault Refusal :=
  .next (cellResult s c t pins 1 1 (fun _ _ a _ => a))

/-- CELL_ADD (R125). -/
def execCellAdd (c : Fin 64) (t : Nat) (pins : BitVec 40) (s : State) : Host.Outcome State Fault Refusal :=
  .next (cellArith s c t pins 2)

/-- CELL_ADC (R125). -/
def execCellAdc (c : Fin 64) (t : Nat) (pins : BitVec 40) (s : State) : Host.Outcome State Fault Refusal :=
  .next (cellArith s c t pins 3)

/-- CELL_SUB (R125). -/
def execCellSub (c : Fin 64) (t : Nat) (pins : BitVec 40) (s : State) : Host.Outcome State Fault Refusal :=
  .next (cellArith s c t pins 4)

/-- CELL_SBC (R125). -/
def execCellSbc (c : Fin 64) (t : Nat) (pins : BitVec 40) (s : State) : Host.Outcome State Fault Refusal :=
  .next (cellArith s c t pins 5)

/-- CELL_AND (R125). -/
def execCellAnd (c : Fin 64) (t : Nat) (pins : BitVec 40) (s : State) : Host.Outcome State Fault Refusal :=
  .next (cellResult s c t pins 6 2 (fun _ _ a b => a &&& b))

/-- CELL_OR (R125). -/
def execCellOr (c : Fin 64) (t : Nat) (pins : BitVec 40) (s : State) : Host.Outcome State Fault Refusal :=
  .next (cellResult s c t pins 7 2 (fun _ _ a b => a ||| b))

/-- CELL_XOR (R125). -/
def execCellXor (c : Fin 64) (t : Nat) (pins : BitVec 40) (s : State) : Host.Outcome State Fault Refusal :=
  .next (cellResult s c t pins 8 2 (fun _ _ a b => a ^^^ b))

/-- CELL_SHL (R125). -/
def execCellShl (c : Fin 64) (t : Nat) (pins : BitVec 40) (s : State) : Host.Outcome State Fault Refusal :=
  .next (cellResult s c t pins 9 1 (fun e _ a _ => a <<< fld e 0 5))

/-- CELL_SHR (R125). -/
def execCellShr (c : Fin 64) (t : Nat) (pins : BitVec 40) (s : State) : Host.Outcome State Fault Refusal :=
  .next (cellResult s c t pins 10 1 (fun e _ a _ => a >>> fld e 0 5))

/-- CELL_SAR (R125). -/
def execCellSar (c : Fin 64) (t : Nat) (pins : BitVec 40) (s : State) : Host.Outcome State Fault Refusal :=
  .next (cellResult s c t pins 11 1 (fun e _ a _ => a.sshiftRight (fld e 0 5)))

/-- CELL_MULL: bits 23:0 of the signed product (R125). -/
def execCellMull (c : Fin 64) (t : Nat) (pins : BitVec 40) (s : State) : Host.Outcome State Fault Refusal :=
  .next (cellResult s c t pins 12 2 (fun _ _ a b => BitVec.ofInt 24 (a.toInt * b.toInt)))

/-- CELL_MULH: bits 47:24 of the signed product (R125). -/
def execCellMulh (c : Fin 64) (t : Nat) (pins : BitVec 40) (s : State) : Host.Outcome State Fault Refusal :=
  .next (cellResult s c t pins 13 2 (fun _ _ a b => BitVec.ofInt 24 ((a.toInt * b.toInt) / 2 ^ 24)))

/-- CELL_CMPLT (R125). -/
def execCellCmplt (c : Fin 64) (t : Nat) (pins : BitVec 40) (s : State) : Host.Outcome State Fault Refusal :=
  .next (cellTest s c t pins 14 2 (fun _ a b => a.slt b))

/-- CELL_CMPEQ (R125). -/
def execCellCmpeq (c : Fin 64) (t : Nat) (pins : BitVec 40) (s : State) : Host.Outcome State Fault Refusal :=
  .next (cellTest s c t pins 15 2 (fun _ a b => a == b))

/-- CELL_CMPLTU (R125). -/
def execCellCmpltu (c : Fin 64) (t : Nat) (pins : BitVec 40) (s : State) : Host.Outcome State Fault Refusal :=
  .next (cellTest s c t pins 16 2 (fun _ a b => a.ult b))

/-- A clamped to the signed range of n + 1 bits (R125). -/
def sat24 (a : BitVec 24) (n : Nat) : BitVec 24 :=
  if 23 ≤ n then a else BitVec.ofInt 24 (clampInt (-(2 ^ n : Nat)) ((2 ^ n : Nat) - 1) a.toInt)

/-- CELL_SAT (R125). -/
def execCellSat (c : Fin 64) (t : Nat) (pins : BitVec 40) (s : State) : Host.Outcome State Fault Refusal :=
  .next (cellResult s c t pins 17 1 (fun e _ a _ => sat24 a (fld e 0 5)))

/-- CELL_BTST: a bit number above 23 gives 0 (R125). -/
def execCellBtst (c : Fin 64) (t : Nat) (pins : BitVec 40) (s : State) : Host.Outcome State Fault Refusal :=
  .next (cellTest s c t pins 22 1 (fun e a _ => a.getLsbD (fld e 0 5)))

/-- A word lane's record: sample in bits 23:0, lane in 27:24, user tag in 30:28 (R162). -/
def wordRec (v : BitVec 24) (n tag : Nat) : Word := BitVec.ofNat 32 (v.toNat + n * 2 ^ 24 + tag * 2 ^ 28)

/-- The cell holds at its entry (R121). -/
def holdCell (s : State) (c : Nat) : State := setCell s c { cell s c with holding := true }

/-- CELL_OUTL (R156, R158, R166): offers A to a lane's holding register; the cell holds while it is full. -/
def execCellOutl (c : Fin 64) (t : Nat) (pins : BitVec 40) (s : State) : Host.Outcome State Fault Refusal :=
  .next (onEdge s c t pins 18 (
      let x := (cell s c).cur
      let e := entryAt s c t
      let n := fld e 0 4
      let done := fun s' => cellStep s' c t (nextIx e x)
      if s.pwr.st = 2 then done (traceLane (setFlag s 0x0900 1) n 2 0 0)
      else if !laneWord s n then done (outDrop s n)
      else if (lane s n).hold.isSome then holdCell s c
      else done (setLane s n { lane s n with hold := some (wordRec (srcA s c t e x) n (fld e 4 3)) })))

/-- CELL_SPX (R139): starts a transfer, holding while the port is busy. An I2C word with bits 23:22 at 11 transfers
nothing and sets CFGERR. -/
def execCellSpx (c : Fin 64) (t : Nat) (pins : BitVec 40) (s : State) : Host.Outcome State Fault Refusal :=
  .next (onEdge s c t pins 19 (
      let x := (cell s c).cur
      let e := entryAt s c t
      let n := fld e 0 2
      let a := srcA s c t e x
      if (port s n).busy then holdCell s c
      else
        let s1 := cellStep s c t (nextIx e (stepPtr e x (usesRam e 1 false)))
        if portMode s n = 0 then s1
        else if portMode s n = 3 ∧ a.getLsbD 23 ∧ a.getLsbD 22 then setFlag s1 0x0704 4
        else setPort s1 n { port s1 n with busy := true, tx := a }))

/-- The receive word that SPR returns (R139). -/
def sprWord (s : State) (n : Nat) : BitVec 24 :=
  let p := port s n
  if portMode s n = 1 then
    BitVec.ofNat 24 (p.rx.toNat % 256 + (if p.valid then 256 else 0) + (if p.ferr then 512 else 0)
      + (if p.orun then 1024 else 0))
  else p.rx

/-- CELL_SPR (R139): the last completed receive word; reading a UART clears bits 8 and 10. -/
def execCellSpr (c : Fin 64) (t : Nat) (pins : BitVec 40) (s : State) : Host.Outcome State Fault Refusal :=
  .next (onEdge s c t pins 20 (
      let x := (cell s c).cur
      let e := entryAt s c t
      let n := fld e 0 2
      let s1 := cellStep s c t (nextIx e (stepPtr e (putDst e x (sprWord s n)) (usesRam e 0 true)))
      if portMode s n = 1 then setPort s1 n { port s1 n with valid := false, orun := false } else s1))

/-- A flash byte; an unlisted byte is erased (R641). -/
def flashByte (s : State) (a : Nat) : Byte := tget 0xFF s.boot.flash a

/-- `n` flash bytes. -/
def flashBytes (s : State) (a n : Nat) : List Byte := tgets 0xFF s.boot.flash a n

/-- A flash operation is programming or erasing the sector of byte `a` (R138). -/
def flashBusyAt (s : State) (a : Nat) : Bool :=
  match s.boot.op with
  | some (.erase f n _) => decide (f ≤ a / 4096) && decide (a / 4096 < f + n)
  | some (.program _ _ at_ n _ _ _) =>
    decide (n ≠ 0) && decide (at_ / 4096 ≤ a / 4096) && decide (a / 4096 ≤ (at_ + n - 1) / 4096)
  | _ => false

/-- The flash window word at an index, and whether the read fails (R138). -/
def flashWin (s : State) (i : Nat) : BitVec 24 × Bool :=
  let w := rd s 0x0724
  let size := 4096 * (fld w 8 4 + 1)
  let a := 4096 * fld w 0 8 + 4 * i
  if !bit w 31 || decide (size ≤ 4 * i) || flashBusyAt s a then (0, true)
  else (BitVec.ofNat 24 (leNat (flashBytes s a 4)), false)

/-- CELL_FLR (R138): bits 23:0 of the flash window word at index A[13:0]. -/
def execCellFlr (c : Fin 64) (t : Nat) (pins : BitVec 40) (s : State) : Host.Outcome State Fault Refusal :=
  .next (onEdge s c t pins 21 (
      let x := (cell s c).cur
      let e := entryAt s c t
      let r := flashWin s ((srcA s c t e x).toNat % 16384)
      let s1 := cellStep s c t (nextIx e (stepPtr e (putDst e x r.1) (usesRam e 1 true)))
      if r.2 then setFlag s1 0x0704 6 else s1))

/-- SERIAL_TRANSFER_DONE (R139): a busy port holds its receive word, in the format of its mode, and becomes idle.
`ack` is the acknowledge of an I2C transfer. -/
def execSerialTransferDone (n : Fin 4) (rx : BitVec 24) (ack : Bool) (s : State) :
    Host.Outcome State Fault Refusal :=
  .next (if (port s n).busy then
      let p := port s n
      let w : BitVec 24 :=
        if portMode s n = 2 then BitVec.ofNat 24 (rx.toNat % 2 ^ (portLen s n + 1))
        else if portMode s n = 3 then BitVec.ofNat 24 (rx.toNat % 256 + (if ack then 256 else 0))
        else p.rx
      setPort s n { p with busy := false, rx := w }
    else s)

/-- UART_RECEIVE (R139, R140): a byte arrives without any SPX; while bit 8 is still set it overwrites the data and
sets bit 10. `bad` is a framing or parity error. -/
def execUartReceive (n : Fin 4) (b : Byte) (bad : Bool) (s : State) : Host.Outcome State Fault Refusal :=
  .next (if portMode s n = 1 ∧ s.pwr.st ≠ 2 then
      let p := port s n
      setPort s n { p with rx := BitVec.ofNat 24 (b.toNat % 2 ^ (portLen s n + 1)), valid := true, ferr := bad,
                           orun := p.orun || p.valid }
    else s)

/-- SWAP_HOLD_END (R143): 32 fabric PLL cycles after a swap the cells leave their hold. -/
def execSwapHoldEnd (s : State) : Host.Outcome State Fault Refusal :=
  .next { s with hdg := { s.hdg with swapHold := false } }

/-- BANK_SUPPLY_FALL (R135, R136): the bank's outputs go to high impedance at once; in RUN or DOZE, BANKLOSS is set. -/
def execBankSupplyFall (b : Fin 2) (s : State) : Host.Outcome State Fault Refusal :=
  let s1 := { s with
    hdg := { s.hdg with bankOn := tput s.hdg.bankOn b false, bankEn := tput s.hdg.bankEn b false },
    pwr := { s.pwr with supplies := s.pwr.supplies &&& ~~~(BitVec.ofNat 7 (2 ^ (4 + b.val))) } }
  .next (if s.pwr.st = 2 then s1 else setFlag s1 0x0704 (2 + b.val))

/-- BANK_SUPPLY_RISE (R136): the supply rises through 1.6 V; the outputs stay at high impedance. -/
def execBankSupplyRise (b : Fin 2) (s : State) : Host.Outcome State Fault Refusal :=
  .next { s with
    hdg := { s.hdg with bankOn := tput s.hdg.bankOn b true, bankEn := tput s.hdg.bankEn b false },
    pwr := { s.pwr with supplies := s.pwr.supplies ||| BitVec.ofNat 7 (2 ^ (4 + b.val)) } }

/-- BANK_OUTPUT_ENABLE (R136): after 100 µs above 1.6 V the configured pin settings apply. -/
def execBankOutputEnable (b : Fin 2) (s : State) : Host.Outcome State Fault Refusal :=
  .next (if bankOn s b then { s with hdg := { s.hdg with bankEn := tput s.hdg.bankEn b true } } else s)

/-- What an FIO output does. -/
inductive Drive where
  | hiZ | low | high
deriving DecidableEq, Repr

/-- The drive of FIO pin p at edge t (R136, R166, R169): direction, output enable and level from its descriptor. -/
def fioOut (s : State) (t : Nat) (pins : BitVec 40) (p : Nat) : Drive :=
  let b := if p < 20 then 0 else 1
  let d := fioDesc s p
  let lvl := wireTrack s t pins (bits d 15 6)
  let en := bits d 27 1 = 0 ∨ wireTrack s t pins (bits d 21 6)
  if !tget false s.hdg.bankEn b || gated s (64 + b) || s.boot.inReset then .hiZ
  else if s.pwr.st = 2 then (if bits d 7 1 = 1 ∧ bits d 0 2 ≠ 0 then (if s.hdg.fioHeld.getLsbD p then .high else .low) else .hiZ)
  else if en then
    match bits d 0 2 with
    | 1 => if lvl then .high else .low
    | 2 => if lvl then .hiZ else .low
    | _ => .hiZ
  else .hiZ

end Sys2Proof.Machine
end

