-- ==== Sys2Proof/Machine/Images.lean ====
section
/-! DEFINITION. The checks common to every image: compatibility tuple, payload digests and signature (R646 to R652),
and the verification and swap of a fabric configuration (R124, R130, R131, R141 to R148). -/

namespace Sys2Proof.Machine

open Sys2Proof

/-- Image kinds of R648. -/
inductive ImageKind where
  | firmware | fabric | topiary | program
deriving DecidableEq, Repr

/-- STEPMASK bit of the device's stepping (R646). -/
def stepBit (s : State) : Nat := if s.boot.stepB1 then 5 else 4

/-- A tuple element matches, 0 being accepted where the kind allows it. -/
def elemOk (zero : Bool) (v dev : Nat) : Bool := decide (v = dev) || (zero && decide (v = 0))

/-- The tuple of an image (at offset 8 of its header) against the device: the number of the first element that
fails, 0 when it matches (R647, R648). -/
def tupleFail (s : State) (k : ImageKind) (im : List Byte) : Nat :=
  if bits (entryNat im 8 4) (stepBit s) 1 = 0 then 1
  else if !elemOk (k == .fabric) (entryNat im 12 4) (Config.romId s.boot.stepB1).toNat then 2
  else if !elemOk (k == .topiary || k == .program) (entryNat im 16 4) Config.hedgeId.toNat then 3
  else if !elemOk (k != .firmware) (entryNat im 20 1) Config.pagenVersion then 4
  else if !elemOk (k != .firmware) (entryNat im 21 1) Config.groupVersion then 5
  else 0

/-- The signature of an image is valid: `blk` is its signature block (R649, R650). -/
def signatureOk (s : State) (im blk : List Byte) : Bool :=
  decide (blk.take 4 = [0x53, 0x49, 0x47, 0x31]) && decide (entryNat blk 4 2 = 1) &&
  (match tfind s.boot.keys (entryNat blk 6 1) with
   | none => false
   | some dg => decide (sha256 ((blk.drop 32).take 64) = dg)) &&
  ecdsaOk (beNat ((blk.drop 32).take 32)) (beNat ((blk.drop 64).take 32)) (beNat ((blk.drop 96).take 32))
    (beNat ((blk.drop 128).take 32)) (beNat (sha256 (im.take 96)))

/-- With the authentication fuse set, an image must be signed and its signature valid (R651). -/
def authOk (s : State) (im : List Byte) (signed : Bool) (plen : Nat) : Bool :=
  !s.boot.authFuse || (signed && signatureOk s im (im.drop (96 + plen)))

/-- Length of an image with a payload of `plen` bytes (R145, R644). -/
def imageLen (signed : Bool) (plen : Nat) : Nat := 96 + plen + (if signed then 160 else 0)

/-- Header check of every image: MAGIC, VER 1, HSIZE 96, HCRC (R147, R510, R652). -/
def headerOk (im magic : List Byte) : Bool :=
  decide (im.take 4 = magic) && decide (entryNat im 4 2 = 1) && decide (entryNat im 6 2 = 96) &&
  decide (entryNat im 0x5C 4 = (crc32 (im.take 0x5C)).toNat) && decide (96 ≤ im.length)

/-- PCRC of an image's payload, held at offset `off` of its header. -/
def pcrcOk (im : List Byte) (off plen : Nat) : Bool :=
  decide (entryNat im off 4 = (crc32 ((im.drop 96).take plen)).toNat)

/-- DIGEST of an image's payload. -/
def digestOk (im : List Byte) (plen : Nat) : Bool :=
  decide ((im.drop 0x28).take 32 = sha256 ((im.drop 96).take plen))

/-- Word `w` of configuration frame `i` of a payload. -/
def plWord (pl : List Byte) (i w : Nat) : Nat := entryNat pl (512 * i + 8 * w) 8

/-- MAGIC of a fabric image (R145). -/
def fabricMagic : List Byte := [0x48, 0x44, 0x47, 0x43]

/-- The CRC of a configuration frame is correct (R146). -/
def frameCrcOk (pl : List Byte) (i : Nat) : Bool :=
  decide (entryNat pl (512 * i + 504) 4 = (crc32 ((pl.drop (512 * i)).take 504)).toNat)

/-- Sources and destination that operation `op` uses: A, B, DST, IMM as a parameter (R125). -/
def opUses (op : Nat) : Bool × Bool × Bool × Bool :=
  if op = 0 then (false, false, false, false)
  else if op = 1 then (true, false, true, false)
  else if op ≤ 8 ∨ op = 12 ∨ op = 13 then (true, true, true, false)
  else if op ≤ 11 ∨ op = 17 then (true, false, true, true)
  else if op ≤ 16 then (true, true, false, false)
  else if op = 18 ∨ op = 19 ∨ op = 22 then (true, false, false, true)
  else if op = 20 then (false, false, true, true)
  else (true, false, true, false)

/-- An instruction entry is valid (R124). -/
def entryOk (e : Word) : Bool :=
  let op := fld e 27 5
  let u := opUses op
  let sa := fld e 24 3
  let sb := fld e 21 3
  let dst := fld e 19 2
  let sq := fld e 16 2
  let immA := u.1 && decide (sa = 7)
  let immB := u.2.1 && decide (sb = 7)
  let ram := (u.1 && decide (sa = 6)) || (u.2.1 && decide (sb = 6)) || (u.2.2.1 && decide (dst = 3))
  let usesImm := immA || immB || ram || u.2.2.2
  decide (op ≤ 0x16) &&
  (u.1 || decide (sa = 0)) && (u.2.1 || decide (sb = 0)) && (u.2.2.1 || decide (dst = 0)) &&
  (decide (sq = 1) || decide (sq = 2) || decide (fld e 13 3 = 0)) &&
  (decide (sq = 3) || decide (fld e 8 5 = 0)) && (usesImm || decide (fld e 0 8 = 0)) &&
  !((immA || immB) && ram) && (!(ram && !u.2.2.2) || !bit e 7) &&
  (!bit e 18 || (decide (2 ≤ op) && decide (op ≤ 5))) &&
  (decide (sq ≠ 3) || decide (fld e 8 5 ≤ 0x16))

/-- Word `w` of the cell (or other) frame at address `a`: from the payload, 0 when absent (R146). -/
def imgWord (pl : List Byte) (n a w : Nat) : DWord :=
  match (List.range n).find? (fun i => bits (plWord pl i 0) 0 8 = a) with
  | some i => BitVec.ofNat 64 (plWord pl i w)
  | none => 0

/-- Instruction entry of a cell in an image. -/
def imgEntry (pl : List Byte) (n c i : Nat) : Word :=
  BitVec.ofNat 32 (cbits (imgWord pl n c (1 + i / 2)) (if i % 2 = 0 then 0 else 32) 32)

/-- Cell c of an image has an entry with CW = 1. -/
def imgCw (pl : List Byte) (n c : Nat) : Bool := (List.range 8).any (fun i => bit (imgEntry pl n c i) 18)

/-- Hard-block register addresses in the order of the image's words 1 to 7 (R146). -/
def hardRegs : List Nat :=
  [0x0710, 0x0714, 0x0718, 0x071C, 0x0720, 0x0724, 0x0730, 0x0734, 0x0738, 0x073C, 0x0740, 0x0744, 0x0748, 0x074C]

/-- LEN of a serial port control value is a defined value for its mode (R119). -/
def lenOk (v : Word) : Bool :=
  let l := fld v 12 5
  if fld v 0 2 = 2 then decide (l ≤ 23) else if fld v 0 2 = 1 then decide (4 ≤ l) && decide (l ≤ 7) else true

/-- A pin number field: 0 to 39, or 63 for none. -/
def pinOk (f : Nat) : Bool := decide (f ≤ 39) || decide (f = 63)

/-- A pins value carries no reserved code. -/
def pinsOk (v : Word) : Bool := (List.range 4).all (fun i => pinOk (fld v (8 * i) 6))

/-- Half-word h of frame i of a payload carries no reserved bit, code or address, and addresses ascend (R124, R136,
R146). -/
def fabHalfOk (pl : List Byte) (i h : Nat) : Bool :=
  let a := plWord pl i 0
  let w := h / 2
  let hi := decide (h % 2 = 1)
  let v := BitVec.ofNat 32 (plWord pl i w / (if hi then 2 ^ 32 else 1))
  if w = 0 then
    if hi then v == 0 else decide (fld v 0 8 ≤ 66) && decide (v.toNat < 256) && (decide (i = 0) || decide (plWord pl (i - 1) 0 < a))
  else if w = 63 then !hi || v == 0
  else if a < 64 then
    if w ≤ 4 then entryOk v
    else if w = 5 then
      if hi then decide (fld v 21 11 = 0)
      else decide (fld v 0 3 ≤ 4) && (List.range 4).all (fun k => decide (fld v (9 + 5 * k) 5 ≤ 20))
    else if w = 6 then
      if hi then decide (fld v 16 16 = 0) else (List.range 4).all (fun j => decide (fld v (3 * j) 3 ≠ 7))
    else if w ≤ 22 then decide (fld v 24 8 = 0)
    else v == 0
  else if a < 66 then
    if w ≤ 10 then decide (fld v 0 2 ≠ 3) && decide (fld v 2 2 ≠ 3) && decide (fld v 28 4 = 0) else v == 0
  else if w ≤ 7 then
    let k := h - 2
    let m := ((regRow (nth 0 hardRegs k)).map (fun r => r.mask)).getD 0
    (v &&& ~~~(BitVec.ofNat 32 m) == 0) && (if 6 ≤ k then (if k % 2 = 0 then lenOk v else pinsOk v) else true)
  else v == 0

/-- Word drivers of a track: the number of cells of an image that drive it. -/
def rowDrivers (pl : List Byte) (n r k : Nat) : Nat :=
  ((List.range 8).filter (fun j => cbits (imgWord pl n (8 * r + j) 6) 40 4 = 8 + k)).length

/-- Column track drivers. -/
def colDrivers (pl : List Byte) (n j k : Nat) : Nat :=
  ((List.range 8).filter (fun r => cbits (imgWord pl n (8 * r + j) 6) 44 4 = 8 + k)).length

/-- Wire track drivers: cell wire outputs and FIO inputs. -/
def wireDrivers (pl : List Byte) (n k : Nat) : Nat :=
  ((List.range 256).filter (fun i => cbits (imgWord pl n (i / 4) 6) (12 + 7 * (i % 4)) 7 = 64 + k)).length +
  ((List.range 40).filter (fun p =>
    let b := if p < 20 then 0 else 1
    let i := if p < 20 then p else p - 20
    cbits (imgWord pl n (64 + b) (1 + i / 2)) (14 - 6 + (if i % 2 = 0 then 0 else 32)) 7 = 64 + k)).length

/-- R130 and R131: carry chains and track drivers. -/
def routesOk (pl : List Byte) (n : Nat) : Bool :=
  (List.range 64).all (fun c =>
    !imgCw pl n c ||
      (decide (c % 8 ≠ 0) && decide (cbits (imgWord pl n c 5) 0 3 = cbits (imgWord pl n (c - 1) 5) 0 3) &&
       !(decide (3 ≤ c % 8) && imgCw pl n (c - 1) && imgCw pl n (c - 2)))) &&
  (List.range 64).all (fun i => decide (rowDrivers pl n (i / 8) (i % 8) ≤ 1) &&
    decide (colDrivers pl n (i / 8) (i % 8) ≤ 1)) &&
  (List.range 64).all (fun k => decide (wireDrivers pl n k ≤ 1))

/-- DETAIL of RESERVED_FIELD for byte `off` of an image; `inv` when the value is invalid and not reserved (R456). -/
def imgDetail (off : Nat) (inv : Bool) : Nat :=
  off % 65536 + off / 65536 % 16 * 2 ^ 18 + 2 ^ 17 + (if inv then 2 ^ 16 else 0)

/-- Verification of a fabric image: status and DETAIL of the first check that fails, `none` when it passes (R147). -/
def fabricFail (s : State) (im : List Byte) (slotLen : Option Nat) : Option (Nat × Nat) :=
  let plen := entryNat im 0x18 4
  let n := entryNat im 0x1C 2
  let flags := entryNat im 0x1E 2
  let signed := decide (flags % 2 = 1)
  let pl := (im.drop 96).take plen
  let lenOk := match slotLen with
    | none => decide (im.length = imageLen signed plen)
    | some l => decide (imageLen signed plen ≤ l)
  if !headerOk im fabricMagic then some (0x32, 1)
  else if tupleFail s .fabric im ≠ 0 then some (0x31, tupleFail s .fabric im)
  else if !(decide (plen = 512 * n) && decide (1 ≤ n) && decide (n ≤ 67) && lenOk) then some (0x12, 0x10004)
  else if !(pcrcOk im 0x20 plen && (List.range n).all (fun i => frameCrcOk pl i)) then some (0x32, 2)
  else if !digestOk im plen then some (0x32, 3)
  else if !authOk s im signed plen then some (0x32, 4)
  else if entryNat im 0x16 2 ≠ 0 then some (0x11, imgDetail 0x16 false)
  else if 2 ≤ flags then some (0x11, imgDetail 0x1E false)
  else if entryNat im 0x24 4 ≠ 0 then some (0x11, imgDetail 0x24 false)
  else if entryNat im 0x48 20 ≠ 0 then some (0x11, imgDetail 0x48 false)
  else
    match (List.range (128 * n)).find? (fun k => !fabHalfOk pl (k / 128) (k % 128)) with
    | some k => some (0x11, imgDetail (96 + 4 * k) false)
    | none => if routesOk pl n then none else some (0x11, imgDetail 96 true)

/-- A configuration frame of zero content: its address and a correct CRC (R146). -/
def zeroFrame (a w : Nat) : DWord :=
  if w = 0 then BitVec.ofNat 64 a
  else if w = 63 then (crc32 (leBytes 8 a ++ List.replicate 496 0)).setWidth 64
  else 0

/-- The content that a load gives word `w` of configuration frame `a` (R146). -/
def loadWord (pl : List Byte) (n a w : Nat) : DWord :=
  match (List.range n).find? (fun i => bits (plWord pl i 0) 0 8 = a) with
  | some i => BitVec.ofNat 64 (plWord pl i w)
  | none => zeroFrame a w

/-- A whole bank written with an image's frames, absent addresses as zero content; the words' errors are gone. -/
def writeBank (s : State) (bank : Bool) (pl : List Byte) (n : Nat) : State :=
  let ks := (List.range 6144).map (fun i => ((if bank then 6144 else 0) + i, loadWord pl n (i / 64) (i % 64)))
  { s with hdg := { s.hdg with
      cfg := ks.foldl (fun t kv => tset 0 t kv.1 kv.2) s.hdg.cfg,
      cfgErr := s.hdg.cfgErr.filter (fun e => decide (e.1 / 6144 ≠ (if bank then 1 else 0))),
      stuck := s.hdg.stuck } }

/-- Cell c reset under R120 with the preload of bank `bank`. -/
def cellPreload (s : State) (bank : Bool) (c : Nat) : Cell :=
  let ram := (List.range 32).foldl (fun (t : Tbl (BitVec 24)) i =>
    tset 0 t i (BitVec.ofNat 24 (cbits (cfgWord s bank c (7 + i / 2)) (if i % 2 = 0 then 0 else 32) 24))) []
  { cellZero with cur := { coreZero with ram := ram }, prev := { coreZero with ram := ram } }

/-- The hard-block registers take the values of a bank's frame 66 (R144). -/
def hardLoad (s : State) (bank : Bool) : State :=
  forEach (List.range 14) s (fun s i =>
    wrBoth s (nth 0 hardRegs i)
      (BitVec.ofNat 32 (cbits (cfgWord s bank 66 (1 + i / 2)) (if i % 2 = 0 then 0 else 32) 32)))

/-- Every cell reset with the preload of bank `bank`. -/
def preloadCells (s : State) (bank : Bool) : Tbl Cell :=
  (List.range 64).foldl (fun (t : Tbl Cell) c => tput t c (cellPreload s bank c)) []

/-- The swap of an armed configuration (R120, R141, R143, R144, R170, R174, R187): the inactive bank becomes active,
every cell is reset with its preload and held, ports are reset, gates are released, and SRC names the slot. -/
def swapFabric (s : State) : State :=
  let nb := !s.hdg.bank
  let s1 := hardLoad s nb
  let src := if s.hdg.armSrc = 0 then 0 else s.hdg.armSrc
  let s2 := { s1 with
    hdg := { s1.hdg with bank := nb, load := .idle, inactive := .previous, cells := preloadCells s1 nb, ports := [],
                         swapHold := true },
    scb := { s1.scb with gated := [], repaired := [], repairing := [], suspect := none,
                         golden := { s1.scb.golden with src := src },
                         copies := s1.scb.copies.map (fun c => { c with src := src }) } }
  setFlag (wr s2 0x0708 s.hdg.armCrc) 0x0704 7

end Sys2Proof.Machine
end

