-- ==== Sys2Proof/Machine/Capture.lean ====
section
/-! DEFINITION. CAPTURE and the completion of a fabric load (R141, R142, R147 to R152). -/

namespace Sys2Proof.Machine

open Sys2Proof

/-- A capture is armed with the settings of HDG_CAP_CTRL; with TRIG 0 it triggers at once (R149). -/
def capArm (s : State) : State :=
  { s with hdg := { s.hdg with capArmed := true, capTrig := !bit (rd s 0x0750) 0 } }

/-- DISCARD clears FULL (R151). -/
def capDiscard (s : State) : State := { s with hdg := { s.hdg with capFull := false, capDue := [] } }

/-- A write of HDG_CAP_CTRL: DISCARD clears FULL; the settings are taken; ARM arms unless a capture is armed or full
(R151). -/
def capWrite (s : State) (v : Word) : State :=
  let s1 := if bit v 30 then capDiscard s else s
  if bit v 31 && (s1.hdg.capArmed || s1.hdg.capFull) then s1
  else
    let s2 := wr s1 0x0750 (v &&& 0xFF3F)
    if bit v 31 then capArm s2 else s2

/-- The DOMAIN of cell c's record (R150, R152). -/
def capDomain (s : State) (c : Nat) : Nat :=
  let w := cw s c 5
  let k := cbits w 0 3
  if !w.getLsbD 3 then 3 else if k = 4 then 2 else if k = fld (rd s 0x0750) 4 2 then 0 else 1

/-- Cell c as a capture finds it; a wire-clocked cell at an instant that the device does not specify (R150). -/
def capView (s : State) (c : Nat) : CellCore :=
  if capDomain s c = 2 then
    (if Config.captureInstant s.free c then (cell s c).cur else (cell s c).prev)
  else (cell s c).cur

/-- CAPTURE_RECORD (R149, R150, R152): an armed and triggered capture records the header and every cell. -/
def execCaptureRecord (s : State) : Host.Outcome State Fault Refusal :=
  .next (if s.hdg.capArmed && s.hdg.capTrig then
      let v := rd s 0x0750
      let hd := [angWord s, BitVec.ofNat 32 s.ang.count48.toNat,
        BitVec.ofNat 32 (fld v 4 2 + fld v 8 8 * 256 + fld v 0 1 * 65536), 0]
      let s1 := forEach (List.range 64) { s with hdg := { s.hdg with capRam := tsets 0 s.hdg.capRam 0 hd } }
        (fun t c => capCell t c (capView s c) (capDomain s c))
      useFree { s1 with hdg := { s1.hdg with
        capArmed := false, capTrig := false, capFull := true,
        capDue := (List.range 64).filter (fun c => capDomain s c = 1) } }
    else s)

/-- A pulse on fabric trigger line k: the latches, the overrun flags and an armed capture (R126, R128, R149). -/
def triggerLine (s : State) (k : Nat) : State :=
  let again := (List.range 64).any (fun c => (cell s c).cur.tl.getLsbD k)
  let cells := (List.range 64).foldl (fun t c =>
    tmod cellZero t c (fun x => { x with cur := { x.cur with tl := x.cur.tl ||| BitVec.ofNat 8 (2 ^ k) } })) s.hdg.cells
  let s1 := { s with hdg := { s.hdg with
    cells := cells,
    capTrig := s.hdg.capTrig || (s.hdg.capArmed && bit (rd s 0x0750) 0 && decide (fld (rd s 0x0750) 1 3 = k)) } }
  if again then setFlag (setFlag s1 0x0758 (16 + k)) 0x0704 1 else s1

/-- A strobe of lane n: the strobe latches of the cells that select it, and the overrun flags (R126, R128). -/
def strobeLane (s : State) (n : Nat) : State :=
  let sel := (List.range 64).filter (fun c => (cw s c 5).getLsbD 8 && decide (cbits (cw s c 5) 4 4 = n))
  let again := sel.any (fun c => (cell s c).cur.slat)
  let cells := sel.foldl (fun t c => tmod cellZero t c (fun x => { x with cur := { x.cur with slat := true } })) s.hdg.cells
  let s1 := { s with hdg := { s.hdg with cells := cells } }
  if again then traceLane (setFlag (setFlag s1 0x0758 n) 0x0704 0) n 4 0 (fillOf s1 n) else s1

/-- The strobes and the trigger that a fired event or pacer gives: STROBE mask, FTRIG and FTLINE (R73, R79). -/
def strobes (s : State) (w : Word) : State :=
  let s1 := forEach (List.range 16) s (fun s n => if bit w n then strobeLane s n else s)
  if bit w 16 then triggerLine s1 (fld w 17 3) else s1

/-- The command that waits for the swap of the fabric load, if any. -/
def fabricOrder (s : State) : Option Order :=
  (s.prt.opens.find? (fun o => o.wait = .fabric ∨ o.wait = .fabricMsg)).map (fun o => o.ord)

/-- FABRIC_LOAD_COMPLETE (R141, R147, R148): the loaded image is verified; it is armed, and its swap waits for the next
boundary, or it is refused and the inactive bank is marked empty. -/
def execFabricLoadComplete (s : State) : Host.Outcome State Fault Refusal :=
  .next (if s.hdg.load = .loading ∧ s.hdg.loadImg ≠ [] then
      let im := s.hdg.loadImg
      let slot := s.hdg.loadSrc
      match fabricFail s im (if slot = 0 then none else some 65536) with
      | some (st, d) =>
        let s1 := { s with hdg := { s.hdg with load := .idle, loadImg := [], inactive := .empty } }
        let s2 := if st = 0x11 then reservedField s1 (d % 65536) 2 else s1
        finishOpt s2 (fabricOrder s) st d []
      | none =>
        let plen := entryNat im 0x18 4
        let s1 := writeBank s (!s.hdg.bank) ((im.drop 96).take plen) (entryNat im 0x1C 2)
        let s2 := { s1 with hdg := { s1.hdg with
          load := .armed, loadImg := [], armSrc := slot,
          armCrc := BitVec.ofNat 32 (entryNat im 0x20 4), inactive := .image } }
        match fabricOrder s with
        | some o => addChange s2 { unit := .fabric, mbx := o.mbx, stamp := o.stamp, kind := .swap, ord := some o }
        | none => s2
    else s)

end Sys2Proof.Machine
end

