-- ==== Sys2Proof/Machine/Scrub.lean ====
section
/-! DEFINITION. The scrubber and the handling of upsets (R167 to R195). -/

namespace Sys2Proof.Machine

open Sys2Proof

/-- Number of ones in a mask of at most 128 bits. -/
def onesNat (n : Nat) : Nat := ((List.range 128).filter (fun i => n.testBit i)).length

/-- A working-copy or stored word of another memory with the flips given reads as correctable (at most one flip or a
miscorrection): the flips it delivers, or `none` when it is uncorrectable (R192). -/
def secded (key flips : Nat) : Option Nat :=
  let n := onesNat flips
  if n ≤ 1 then some 0 else if n = 2 then none else Config.manyFlips32 key flips

/-- The frame that ingests now, or the next to open (R170). -/
def curCount (s : State) : BitVec 48 :=
  if s.ang.frameOpen || !s.ang.anyOpened then s.ang.count48 else s.ang.count48 + 1

/-- The unposted slots of one suspect frame receive FRAME_FAULT 11; its computation ends there (R171). -/
def suspectFrame (s : State) (c : BitVec 48) : State :=
  let s1 := modFrame s c (fun f => { f with suspect := true })
  let s2 := match s1.frm.comp with
    | some k => if k.count = c then faultComp s1 11 else s1
    | none => s1
  let s3 := answerSlots s2 c (fun _ => true) 0x21 11
  match findFrame s3 c with
  | some f => if f.answered && (f.st = .closed ∨ f.st = .computing) then toPosting s3 c else s3
  | none => s3

/-- Every frame from count `c` on is suspect; SCB_SUSP takes the oldest unless CFG_UE still stands, and CFG_UE is set
(R170, R171, R195). -/
def markSuspect (s : State) (c : BitVec 48) : State :=
  let hold := bit (rd s 0x0E00) 7
  let s1 := { s with scb := { s.scb with
    suspect := some (match s.scb.suspect with
      | some d => if d.toNat ≤ c.toNat then d else c
      | none => c),
    suspAt := if hold then s.scb.suspAt else c } }
  let s2 := forEach ((s1.frm.frames.filter (fun f => c.toNat ≤ f.count.toNat)).map (fun f => f.count)) s1 suspectFrame
  sticky0 s2 7 (leBytes 4 (rd s2 0x0814).toNat ++ leBytes 4 s2.scb.suspAt.toNat)

/-- SCB_ERRADDR (R194): word, configuration frame, bank and kind. -/
def errAddr (s : State) (bank : Bool) (f w kind : Nat) : State :=
  wr s 0x0814 (BitVec.ofNat 32 (w % 64 + f * 64 + (if bank then 8192 else 0) + kind * 16384))

/-- Operative value of a control field: the value held by at least two working copies (R181). -/
def vote {α : Type} [DecidableEq α] (f : ScbCtl → α) (l : List ScbCtl) : Option α :=
  match l with
  | [x, y, z] => if f x = f y then some (f x) else if f x = f z then some (f x) else if f y = f z then some (f y) else none
  | _ => none

/-- Operative EN; with no majority the safe value. -/
def opEn (s : State) : Bool := (vote (fun c => c.en) s.scb.copies).getD true

/-- Passes run unless the operative EN and the golden EN are both 0 (R184). In SAFE mode boot has not started the scrubber
(R638). -/
def passesRun (s : State) : Bool := (opEn s || s.scb.golden.en) && s.boot.running.isSome && decide (s.pwr.st ≠ 2)

/-- Operative SRC. -/
def opSrc (s : State) : Nat := (vote (fun c => c.src) s.scb.copies).getD 0

/-- Offset of the flash slot that SRC names. -/
def slotOff (src : Nat) : Nat := if src = 1 then 0x80000 else 0x90000

/-- The image in a fabric slot. -/
def slotImage (s : State) (src : Nat) : List Byte := flashBytes s (slotOff src) 65536

/-- The 64 words that a repair of configuration frame `f` from flash writes, when it is possible (R172). -/
def repairWords (s : State) (f : Nat) : Option (List DWord) :=
  let src := opSrc s
  if src = 0 then none
  else
    let im := slotImage s src
    let pl := (im.drop 96).take (entryNat im 0x18 4)
    let n := entryNat im 0x1C 2
    if entryNat im 0x20 4 ≠ (rd s 0x0708).toNat then none
    else
      match (List.range n).find? (fun i => bits (plWord pl i 0) 0 8 = f) with
      | some i => if frameCrcOk pl i then some ((List.range 64).map (fun w => BitVec.ofNat 64 (plWord pl i w))) else none
      | none => some ((List.range 64).map (fun w => zeroFrame f w))

/-- A repair of configuration frame `f` of the active bank is ordered, or is not possible (R172, R174, R189). -/
def orderRepair (s : State) (f : Nat) : State :=
  if !passesRun s then s
  else if (repairWords s f).isSome then
    { s with scb := { s.scb with repairing := if s.scb.repairing.contains f then s.scb.repairing else s.scb.repairing ++ [f] } }
  else setFlag s 0x0808 3

/-- The armed image is lost: the bank is marked empty and no swap occurs (R176). Its command completes with a status
that the manual does not state. -/
def armLost (s : State) : State :=
  let s1 := { s with
    hdg := { s.hdg with load := .idle, inactive := .empty },
    prt := { s.prt with changes := s.prt.changes.filter (fun c => c.kind ≠ .swap) } }
  let st := (Config.armLostStatus s.free).toNat
  useFree (finishOpt (setFlag s1 0x0808 4) (fabricOrder s) st 0 [])

/-- The unit of an active configuration frame with an uncorrectable or CRC error is gated, the frames from `c` on are
suspect, and a repair is ordered (R169 to R174). -/
def gateUnit (s : State) (f : Nat) (c : BitVec 48) : State :=
  let s1 := if f ≤ 65 ∧ !gated s f then
      markSuspect { s with scb := { s.scb with gated := tput s.scb.gated f true, repaired := tdel s.scb.repaired f } } c
    else s
  orderRepair s1 f

/-- The error of one word or frame is handled by the role of its bank (R169, R176). -/
def configError (s : State) (bank : Bool) (f : Nat) (c : BitVec 48) : State :=
  if bank = s.hdg.bank then gateUnit s f c
  else if s.hdg.load = .armed then armLost s
  else s

/-- CORRECTOR_UE (R169, R176, R189): a corrector detects an uncorrectable error in a word of a configuration frame. -/
def execCorrectorUe (bank : Bool) (f : Fin 96) (w : Fin 64) (s : State) : Host.Outcome State Fault Refusal :=
  .next (if flipClass (tget 0 s.hdg.cfgErr (cfgKey bank f w)) = 2 ∧ (bank ≠ s.hdg.bank ∨ f.val ≤ 65) then
      configError (errAddr (setFlag s 0x0808 1) bank f w 0) bank f (curCount s)
    else s)

/-- The values that a refresh leaves (R182, R183): the golden copy, with the affected fields at their safe values. -/
def refreshed (s : State) : ScbCtl :=
  let g := s.scb.golden
  let l := s.scb.copies
  let ue := (secded 0x10000000 s.scb.goldenErr).isNone
  { en := if ue ∨ (vote (fun c => c.en) l).isNone then true else g.en,
    region := if ue ∨ (vote (fun c => c.region) l).isNone then 0 else g.region,
    period := if ue ∨ (vote (fun c => c.period) l).isNone then 8 else g.period,
    src := if ue ∨ (vote (fun c => c.src) l).isNone then 0 else g.src }

/-- A working copy differs from the operative value in some field (R182). -/
def differs (l : List ScbCtl) (c : ScbCtl) : Bool :=
  decide (vote (fun c => c.en) l ≠ some c.en) || decide (vote (fun c => c.region) l ≠ some c.region)
    || decide (vote (fun c => c.period) l ≠ some c.period) || decide (vote (fun c => c.src) l ≠ some c.src)

/-- The control refresh (R182, R183): working copies rewritten from the golden copy, disagreement recorded, safe values
forced where there is no majority or the golden copy is uncorrectable. -/
def refresh (s : State) : State :=
  let l := s.scb.copies
  let dis := l.zipIdx.foldl (fun n c => if differs l c.1 then n + 2 ^ c.2 else n) 0
  let nom := (if (vote (fun c => c.en) l).isNone then 8 else 0) + (if (vote (fun c => c.region) l).isNone then 16 else 0)
    + (if (vote (fun c => c.period) l).isNone then 32 else 0) + (if (vote (fun c => c.src) l).isNone then 64 else 0)
  let ue := (secded 0x10000000 s.scb.goldenErr).isNone
  let g := refreshed s
  let s1 := { s with scb := { s.scb with
    golden := g, goldenErr := 0, copies := [g, g, g],
    safe := s.scb.safe || decide (nom ≠ 0) || ue } }
  let v := BitVec.ofNat 32 (dis + nom + (if ue then 128 else 0))
  let s2 := if dis ≠ 0 ∨ ue then wr s1 0x082C v else s1
  let s3 := if dis ≠ 0 then sticky0 s2 8 (leBytes 4 (rd s2 0x082C).toNat) else s2
  if nom ≠ 0 ∨ ue then sticky0 s3 9 (leBytes 4 (rd s3 0x082C).toNat) else s3

/-- First and last frames of a pass: both banks, or the active bank only. -/
def passRange (s : State) : Pass :=
  if s.scb.golden.region = 1 then
    (if s.hdg.bank then { next := 96, last := 192 } else { next := 0, last := 96 })
  else { next := 0, last := 192 }

/-- SCRUB_PASS_START (R178, R182, R184): a pass becomes due; it starts with a control refresh, or waits for the running
pass to end. -/
def execScrubPassStart (s : State) : Host.Outcome State Fault Refusal :=
  .next (if !passesRun s then s
    else if s.scb.pass.isSome then setFlag { s with scb := { s.scb with late := true } } 0x0808 6
    else
      let s1 := refresh s
      { s1 with scb := { s1.scb with pass := some (passRange s1), late := false } })

/-- SCRUB_IDLE_REFRESH (R182): while passes are disabled the controls are refreshed. -/
def execScrubIdleRefresh (s : State) : Host.Outcome State Fault Refusal :=
  .next (if passesRun s ∨ s.pwr.st = 2 then s else refresh s)

/-- One word read by a pass (R167, R175): a correctable error is written back; a stuck bit leaves it in service; a
miscorrected word is written back as delivered; an uncorrectable one is reported. -/
def scrubWord (s : State) (bank : Bool) (f : Nat) (w : Nat) : State :=
  let k := cfgKey bank f w
  let fl := tget 0 s.hdg.cfgErr k
  if fl = 0 then s
  else if flipClass fl = 2 then errAddr (setFlag s 0x0808 1) bank f w 0
  else
    let s1 := satReg (setFlag s 0x0808 0) 0x0810 1
    if ones fl = 1 ∧ tget false s.hdg.stuck k then setFlag s1 0x0808 5
    else { s1 with hdg := { s1.hdg with cfg := tset 0 s1.hdg.cfg k (cfgWord s bank f w), cfgErr := tdel s1.hdg.cfgErr k } }

/-- Some word of the frame is uncorrectable. -/
def frameUe (s : State) (bank : Bool) (f : Nat) : Bool :=
  (List.range 64).any (fun w => flipClass (tget 0 s.hdg.cfgErr (cfgKey bank f w)) = 2)

/-- The frame's CRC of words 0 to 62 and its address are right, as delivered (R177). -/
def frameGood (s : State) (bank : Bool) (f : Nat) : Bool :=
  decide (cbits (cfgWord s bank f 0) 0 8 = f) &&
  decide (cbits (cfgWord s bank f 63) 0 32 =
    (crc32 ((List.range 63).flatMap (fun w => leBytes 8 (cfgWord s bank f w).toNat))).toNat)

/-- A bank holds an active or an armed image. -/
def bankImage (s : State) (bank : Bool) : Bool := bank == s.hdg.bank || s.hdg.load == .armed

/-- One configuration frame checked by a pass (R170, R175 to R177, R179). -/
def scrubFrame (s : State) (bank : Bool) (f : Nat) : State :=
  if bank ≠ s.hdg.bank ∧ s.hdg.load = .loading then s
  else
    let s1 := forEach (List.range 64) s (fun s w => scrubWord s bank f w)
    if frameUe s1 bank f then configError s1 bank f (curCount s1)
    else if bankImage s1 bank && !frameGood s1 bank f then
      let n := (Config.crcErrWord s1.free).toNat
      let s2 := useFree (errAddr (setFlag s1 0x0808 2) bank f n 1)
      configError s2 bank f (tget 0 s1.scb.clean ((if bank then 96 else 0) + f))
    else { s1 with scb := { s1.scb with clean := tput s1.scb.clean ((if bank then 96 else 0) + f) (curCount s1) } }

/-- SCRUB_FRAME_CHECK (R177): the running pass finishes its next configuration frame. -/
def execScrubFrameCheck (s : State) : Host.Outcome State Fault Refusal :=
  .next (match s.scb.pass with
    | some p =>
      if p.next < p.last ∧ s.pwr.st ≠ 2 then
        scrubFrame { s with scb := { s.scb with pass := some { p with next := p.next + 1 } } }
          (decide (96 ≤ p.next)) (p.next % 96)
      else s
    | none => s)

/-- SCRUB_PASS_END (R177): a pass that has checked its last frame is counted. -/
def execScrubPassEnd (s : State) : Host.Outcome State Fault Refusal :=
  .next (match s.scb.pass with
    | some p =>
      if p.last ≤ p.next then wr { s with scb := { s.scb with pass := none } } 0x080C (rd s 0x080C + 1) else s
    | none => s)

/-- FLASH_REPAIR_DONE (R172, R173): a configuration frame is rewritten from its flash slot once flash is idle; its unit
is released at the next boundary. -/
def execFlashRepairDone (f : Fin 96) (s : State) : Host.Outcome State Fault Refusal :=
  .next (if s.scb.repairing.contains f.val ∧ s.boot.op.isNone then
      let s1 := { s with scb := { s.scb with repairing := s.scb.repairing.filter (fun g => g ≠ f.val) } }
      match repairWords s f with
      | some ws =>
        let ks := (List.range 64).map (fun w => cfgKey s.hdg.bank f w)
        let s2 := { s1 with
          hdg := { s1.hdg with cfg := (List.zip ks ws).foldl (fun t kv => tset 0 t kv.1 kv.2) s1.hdg.cfg,
                               cfgErr := ks.foldl tdel s1.hdg.cfgErr },
          scb := { s1.scb with repaired := if f.val ≤ 65 then tput s1.scb.repaired f.val true else s1.scb.repaired } }
        setFlag s2 0x0808 7
      | none => orderRepair s1 f
    else s)

/-- One conductor SRAM word swept: an error that the code corrects is removed and counted (R192, R193). -/
def sweepWord (s : State) (e : Nat × Nat) : State :=
  match secded e.1 e.2 with
  | none => s
  | some m =>
    let a := 4 * e.1
    let s1 := { s with cnd := { s.cnd with memErr := tdel s.cnd.memErr e.1 } }
    let s2 := if m = 0 then s1 else wrBytes s1 a (leBytes 4 (leNat (rdBytes s1 a 4) ^^^ m))
    wr s2 0x0830 (setFld (rd s2 0x0830) 0 16 (satAdd 0xFFFF (fld (rd s2 0x0830) 0 16) 1))

/-- MEMORY_SWEEP (R193): the sweep completes a pass over conductor SRAM. -/
def execMemorySweep (s : State) : Host.Outcome State Fault Refusal :=
  let s1 := forEach s.cnd.memErr s sweepWord
  .next (wr s1 0x0834 (rd s1 0x0834 + 1))

/-- The boundary's effect of the repairs made before it: each unit is released, a cell reset with its preload; with no
unit left gated the suspect interval ends (R170, R173). -/
def releaseRepaired (s : State) : State :=
  let us := s.scb.repaired.map (fun e => e.1)
  let s1 := forEach us s (fun s u =>
    let s' := { s with scb := { s.scb with gated := tdel s.scb.gated u } }
    if u < 64 then setCell s' u (cellPreload s' s'.hdg.bank u) else s')
  let s2 := { s1 with scb := { s1.scb with repaired := [] } }
  if s2.scb.gated.isEmpty then { s2 with scb := { s2.scb with suspect := none } } else s2

/-- What an upset strikes (R167, R180, R181, R192). -/
def upset (s : State) (u : UpsetAt) : State :=
  match u with
  | .config bank f w flips hard =>
    let k := cfgKey bank f w
    { s with hdg := { s.hdg with cfgErr := tset 0 s.hdg.cfgErr k (tget 0 s.hdg.cfgErr k ^^^ flips),
                                 stuck := if hard then tput s.hdg.stuck k true else s.hdg.stuck } }
  | .control i en region period src =>
    { s with scb := { s.scb with copies := s.scb.copies.zipIdx.map (fun c =>
        if c.2 = i.val then
          { en := c.1.en ^^ en, region := c.1.region ^^^ region.toNat, period := c.1.period ^^^ period.toNat,
            src := c.1.src ^^^ src.toNat }
        else c.1) } }
  | .golden flips => { s with scb := { s.scb with goldenErr := s.scb.goldenErr ^^^ flips.toNat } }
  | .sequencer => s
  | .conductor word flips =>
    let k := if word.val < 16384 then word.val else 0x04000000 + (word.val - 16384)
    { s with cnd := { s.cnd with memErr := tset 0 s.cnd.memErr k (tget 0 s.cnd.memErr k ^^^ flips.toNat) } }
  | .topiary part word flips =>
    let k := 65536 * part.val + word.val
    { s with arr := { s.arr with topErr := tset 0 s.arr.topErr k (tget 0 s.arr.topErr k ^^^ flips.toNat) } }
  | .record half i => { s with smp := { s.smp with
      recErr := tset false s.smp.recErr (recKey half i) (!tget false s.smp.recErr (recKey half i)) } }
  | .stamp half b flips => { s with smp := { s.smp with
      stampErr := tset 0 s.smp.stampErr (stampKey half b) (tget 0 s.smp.stampErr (stampKey half b) ^^^ flips.toNat) } }
  | .pe row col plane =>
    let i := 128 * row.val + col.val
    let b := BitVec.ofNat 16384 (2 ^ i)
    { s with arr := { s.arr with planes := tset 0 s.arr.planes plane.val (tget 0 s.arr.planes plane.val ^^^ b),
                                 perr := tset 0 s.arr.perr (plane.val / 32) (tget 0 s.arr.perr (plane.val / 32) ^^^ b) } }

/-- UPSET (R167, R180, R181, R192): a particle flips bits; the error waits for a corrector, a pass, a refresh or a
read to find it. -/
def execUpset (u : UpsetAt) (s : State) : Host.Outcome State Fault Refusal := .next (upset s u)

end Sys2Proof.Machine
end

