-- ==== Sys2Proof/Machine/AngleCore.lean ====
section
/-! DEFINITION. The angle clock's arithmetic: source configuration, measured phase, estimate, the advance of the angle
word, due firings, and the acquisition, loss and coasting of a source (R40 to R79, R722 to R726). -/

namespace Sys2Proof.Machine

open Sys2Proof

/-- Phase of the close angle, in au (R9, R56). -/
def closeAngle : Nat := 1048576

/-- Frequency of one au in an interval: half a millisecond in fabric PLL cycles (R44). -/
def minFrame : Nat := 100000

/-- ANG_CTRL in force. -/
def angCtrl (s : State) : Word := rd s 0x0200

/-- ANG_CTRL.SRC in force: 0 QEI, 1 TACH, 2 LINE, 3 TIMER, 4 GROUP. -/
def angSrc (s : State) : Nat := fld (angCtrl s) 0 3

/-- ANG_CTRL.EN in force. -/
def angEn (s : State) : Bool := bit (angCtrl s) 3

/-- ANG_CTRL.ZALIGN in force, for the sources that use ANG_Z. -/
def zAlign (s : State) : Bool := bit (angCtrl s) 5 && decide (angSrc s ≤ 1)

/-- Source edges per revolution: counts, pulses, or one crossing. -/
def perRev (s : State) : Nat :=
  match angSrc s with
  | 0 => fld (rd s 0x0220) 0 21
  | 1 => fld (rd s 0x022C) 0 10 + 1
  | _ => 1

/-- Source edges per frame: CPF for QEI, pulses for TACH, cycles for LINE. -/
def perFrame (s : State) : Nat := max 1 (perRev s * (fld (rd s 0x021C) 0 6 + 1))

/-- The clock interpolates between source edges; QEI with CPF below 16 does not (R55, R723). -/
def interpolates (s : State) : Bool := angSrc s != 0 || decide (16 ≤ perFrame s)

/-- Measured phase at the k-th source edge after phase 0: for a valid QEI configuration floor(k × N / D) (R47, R48). -/
def markPhase (s : State) (k : Int) : Int := k * (closeAngle : Nat) / (perFrame s : Nat)

/-- The angle clock with its state replaced. -/
def setAng (s : State) (a : Ang) : State := { s with ang := a }

/-- Estimate of R49 with the newest interval first: the mean of the last 2^BW accepted intervals, as a sum and a count. -/
def meanIvals (s : State) (l : List Nat) : Nat × Nat :=
  let w := l.take (2 ^ fld (rd s 0x0238) 6 2)
  (w.sum, w.length)

/-- A fraction expressed in the units of another rate denominator. -/
def rescale (v oldD newD : Nat) : Nat := v * newD / max 1 oldD

/-- The estimator takes a new accepted interval: the rate in au per cycle, one source edge per mean interval (R49). -/
def pushIval (s : State) (iv : Nat) : State :=
  let a := s.ang
  let l := (iv :: a.ivals).take 8
  let m := meanIvals s l
  let d := max 1 (perFrame s * m.1)
  setAng s { a with
    ivals := l, rateN := closeAngle * m.2, rateD := d,
    wfrac := rescale a.wfrac a.rateD d, mfrac := rescale a.mfrac a.rateD d }

/-- Units of a fraction of an au. -/
def Ang.unit (a : Ang) : Nat := 4 * a.rateD

/-- Position of the angle word in units of a fraction. -/
def Ang.wPos (a : Ang) : Int := (a.phase * a.unit + a.wfrac : Nat)

/-- Position of the measured angle in units of a fraction. -/
def Ang.mPos (a : Ang) : Int := a.meas * (a.unit : Nat) + (a.mfrac : Nat)

/-- The angle word at a position. -/
def Ang.setW (a : Ang) (p : Int) : Ang :=
  { a with phase := (p / (a.unit : Nat)).toNat, wfrac := (p % (a.unit : Nat)).toNat }

/-- The measured angle at a position. -/
def Ang.setM (a : Ang) (p : Int) : Ang :=
  { a with meas := p / (a.unit : Nat), mfrac := (p % (a.unit : Nat)).toNat }

/-- Limit that the angle word never passes: the measured phase of the next expected edge, and the close angle (R53). -/
def Ang.limit (a : Ang) : Int := min a.expect (closeAngle : Nat)

/-- The source runs without edges to wait for: TIMER, GROUP, or coasting (R52, R62, R549). -/
def freeRuns (s : State) : Bool := s.ang.st == .coasting || decide (3 ≤ angSrc s)

/-- ANG_STATUS.CLAMPED and SLEWING as the positions give them (R53, R54). -/
def angFlags (s : State) : State :=
  let a := s.ang
  let track := a.frameOpen && a.st == .locked && decide (angSrc s < 3)
  let err := a.errLeft && (a.zwait || decide (a.wPos ≠ a.mPos))
  setAng s { a with clamped := track && decide (a.limit * (a.unit : Nat) ≤ a.wPos) && decide (a.expect ≤ (closeAngle : Nat)),
                    slewing := track && decide (a.wPos < a.mPos), errLeft := err }

/-- The newest frame carries the COASTING mark (R62, R67). -/
def markCoasted (s : State) : State :=
  if s.ang.frameOpen then
    modFrame (setAng s { s.ang with coasted := true }) s.ang.count48 (fun f => { f with coasted := true })
  else s

/-- The newest frame carries the reverse-motion mark, and REVSEEN is set (R69, R70). -/
def markReversed (s : State) : State :=
  setFlag (modFrame (setAng s { s.ang with reversed := true }) s.ang.count48 (fun f => { f with reversed := true }))
    0x0208 3

/-- Entry to ACQUIRING (R40, R58, R66, R80). -/
def acquire (s : State) : State :=
  setAng s { s.ang with
    st := .acquiring, phase := 0, wfrac := 0, meas := 0, mfrac := 0, expect := 0, frameOpen := false, lastEdge := none,
    ivals := [], lockRun := 0, kcount := 0, high := 0, koff := 0, rejects := 0, coastLeft := 0, zwait := false,
    slewing := false, clamped := false, revHold := false, errLeft := false, fired := 0, lockAt := s.now,
    heldWord := none }

/-- ANG_STATUS.STATE (R40). -/
def angCode : AngState → Nat
  | .off => 0
  | .acquiring => 1
  | .locked => 2
  | .coasting => 3
  | .lost => 4

/-- The open frame is abandoned without a boundary: its slots receive an outcome and its half is released (R64, R85,
R89, R113). -/
def abandonFrame (s : State) (status detail : Nat) : State :=
  match ingesting s with
  | none => s
  | some f => traceFrame (toPosting (answerSlots s f.count (fun _ => true) status detail) f.count)
      f.count.toNat (angCode s.ang.st) f.coasted 1

/-- Entry to LOST with the DETAIL of ANGLE_LOST, and at once to ACQUIRING (R64, R66). -/
def enterLost (s : State) (detail : Nat) : State :=
  let s1 := if s.ang.frameOpen then abandonFrame s 0x23 detail else s
  acquire (setFlag s1 0x0208 1)

/-- Loss of the source detected in LOCKED: the clock coasts from its current angle at the last rate, or enters LOST
when no frame is open or ANG_COAST is 0 (R62, R63). -/
def loseSource (s : State) : State :=
  let budget := fld (rd s 0x023C) 0 4 * closeAngle
  if !s.ang.frameOpen then enterLost s 5
  else if budget = 0 then enterLost s 5
  else
    let a := s.ang
    setFlag (markCoasted (setAng s { a with
      st := .coasting, meas := a.phase, mfrac := a.wfrac, coastLeft := budget, slewing := false, clamped := false,
      revHold := false })) 0x0208 2

/-- Word A of event entry n in force. -/
def evtA (s : State) (n : Nat) : Word := rd s (evtKey n false)

/-- Word B of event entry n in force. -/
def evtB (s : State) (n : Nat) : Word := rd s (evtKey n true)

/-- Entry n is enabled and fires in frames of count `c` (R73). -/
def evtOn (s : State) (c : Nat) (n : Nat) : Bool :=
  let w := evtA s n
  bit w 31 && decide (c % 2 ^ fld w 26 3 = fld w 20 6)

/-- The first phase of pacer k at or after `x`, below the close angle (R79). -/
def pacerNext (s : State) (k x : Nat) : Option Nat :=
  let c := rd s (0x0280 + 16 * k)
  let sp := fld (rd s (0x0284 + 16 * k)) 0 20
  let off := fld c 0 20
  if bit c 31 && decide (16 ≤ sp) then
    let p := if x ≤ off then off else off + cdiv (x - off) sp * sp
    if p < closeAngle then some p else none
  else none

/-- Pacer k strobes at phase p. -/
def pacerAt (s : State) (k p : Nat) : Bool := pacerNext s k p == some p

/-- Entries that fire at phase p in the open frame. -/
def eventsAt (s : State) (p : Nat) : List Nat :=
  (List.range 64).filter (fun n => evtOn s s.ang.count48.toNat n && decide (fld (evtA s n) 0 20 = p))

/-- The lesser of a phase and an optional one. -/
def minOpt : Option Nat → Option Nat → Option Nat
  | none, b => b
  | some a, none => some a
  | some a, some b => some (min a b)

/-- The first phase at or after `x` at which an entry or a pacer fires in the open frame (R55, R73, R79). -/
def nextFiring (s : State) (x : Nat) : Option Nat :=
  let e := (List.range 64).foldl (fun r n =>
    let p := fld (evtA s n) 0 20
    if evtOn s s.ang.count48.toNat n && decide (x ≤ p) then minOpt r (some p) else r) none
  (List.range 4).foldl (fun r k => minOpt r (pacerNext s k x)) e

/-- The firing that is due: the first one not yet done whose phase the angle word has reached. -/
def dueFiring (s : State) : Option Nat :=
  if s.ang.frameOpen && decide (s.pwr.st ≠ 2) then
    match nextFiring s s.ang.fired with
    | some p => if p ≤ s.ang.phase then some p else none
    | none => none
  else none

/-- The close angle stands ready: the last edge of the frame has arrived, or the clock runs free (R56). -/
def closeReady (s : State) : Bool := freeRuns s || decide ((closeAngle : Nat) < s.ang.expect)

/-- The frame boundary is due: the word has reached the close angle, nothing remains to fire (R56). -/
def boundaryDue (s : State) : Bool :=
  s.ang.frameOpen && decide (s.ang.phase = closeAngle) && closeReady s && (dueFiring s).isNone && decide (s.pwr.st ≠ 2)

/-- Time passes. -/
def addTime (s : State) (dt : Nat) : State := { s with now := s.now + dt }

/-- Ceiling of a quotient of integers, 0 for a negative dividend. -/
def cdivInt (a : Int) (b : Nat) : Nat := cdiv a.toNat (max 1 b)

/-- The next phase at which an advancing word stops: an unfired firing above it or the close angle. -/
def stopPhase (s : State) : Nat :=
  match nextFiring s (max s.ang.fired (s.ang.phase + 1)) with
  | some p => min p closeAngle
  | none => closeAngle

/-- The word advances freely for `dt` cycles at the estimated rate, to the stop phase at most (R52, R62, R63). -/
def advanceFree (s : State) (dt : Nat) : State :=
  let a := s.ang
  let stop := if a.st = .coasting then min (stopPhase s) (a.phase + a.coastLeft) else stopPhase s
  let p : Int := (stop * a.unit : Nat)
  let need := cdivInt (p - a.wPos) (4 * a.rateN)
  let d := min dt need
  let w := min p (a.wPos + (4 * a.rateN * d : Nat))
  let b := (a.setW w).setM w
  addTime (setAng s { b with coastLeft := a.coastLeft - (b.phase - a.phase) }) d

/-- The word follows the measured angle for `dt` cycles: at 1.25 times the rate while it lies behind, never past the
next expected edge, never backwards (R53, R54). -/
def advanceTrack (s : State) (dt : Nat) : State :=
  let a := s.ang
  let u := a.unit
  let stop := stopPhase s
  let ready := decide (stop < closeAngle) || closeReady s
  let p : Int := (stop * u : Nat)
  let reach := decide (p ≤ a.limit * (u : Nat))
  let need := max (cdivInt (p - a.wPos) (5 * a.rateN)) (cdivInt (p - a.mPos) (4 * a.rateN))
  let d := if ready && reach && decide (a.wPos < p) then min dt need else dt
  let m := max a.mPos (min (a.mPos + (4 * a.rateN * d : Nat)) (a.expect * (u : Nat)))
  let w := max a.wPos (min (min (a.wPos + (5 * a.rateN * d : Nat)) m) (min p (a.limit * (u : Nat))))
  addTime (setAng s ((a.setW w).setM m)) d

/-- A word that does not interpolate moves through the due phases of a count, one in each cycle, then to the measured
phase (R55, R723). -/
def advanceCount (s : State) (dt : Nat) : State :=
  let a := s.ang
  let top := min a.meas (closeAngle : Nat)
  if top ≤ (a.phase : Int) then addTime s dt
  else if dt = 0 then s
  else
    let p := min (stopPhase s) top.toNat
    addTime (setAng s { a with phase := p, wfrac := 0 }) 1

/-- The advance of time and of the angle word by at most `dt` cycles: the word stops where a firing or the boundary is
due, and neither passes it until that has taken place (R54 to R56, R723). -/
def advance (s : State) (dt : Nat) : State :=
  if !s.ang.frameOpen || s.ang.revHold || decide (s.pwr.st = 2) then addTime s dt
  else if (dueFiring s).isSome || boundaryDue s then s
  else if s.ang.st = .coasting ∧ s.ang.coastLeft = 0 then s
  else if freeRuns s then advanceFree s dt
  else if interpolates s then angFlags (advanceTrack s dt)
  else angFlags (advanceCount s dt)

/-- ANGLE_WORD_ADVANCE (R53, R54, R723): time passes and the angle word advances. -/
def execAngleWordAdvance (dt : Nat) (s : State) : Host.Outcome State Fault Refusal := .next (advance s dt)

/-- The measured angle takes the phase of edge count k, and the next edge is expected one count on (R48, R53). -/
def measureAt (s : State) (k : Int) : State :=
  let a := s.ang
  setAng s { a with kcount := k, high := k, meas := markPhase s k + a.koff, mfrac := 0, expect := markPhase s (k + 1) + a.koff }

/-- Validity of a source configuration under R47, R51 and R52, on the registers as they stand in `s`. -/
def sourceValid (s : State) : Bool :=
  match angSrc s with
  | 0 =>
    let cpf := fld (rd s 0x0220) 0 21 * (fld (rd s 0x021C) 0 6 + 1)
    let n := (rd s 0x0224).toNat
    let d := (rd s 0x0228).toNat
    decide (4 ≤ cpf) && decide (cpf ≤ closeAngle) && decide (1 ≤ n) && decide (1 ≤ d) && decide (n * cpf = closeAngle * d)
  | 2 =>
    !bit (angCtrl s) 6 ||
      (let l := fld (angCtrl s) 7 4
       (List.range 64).all (fun n => !(bit (evtA s n) 31 && bit (evtB s n) l)) &&
       (List.range 4).all (fun k => !(bit (rd s (0x0280 + 16 * k)) 31 && bit (rd s (0x0288 + 16 * k)) l)))
  | 3 => let p := (rd s 0x0234).toNat
         decide (25000 ≤ p) && decide (p ≤ 1000000000)
  | _ => true

/-- Pacer k is valid: enabled only with a SPACING of at least 16 (R79). -/
def pacerValid (s : State) (k : Nat) : Bool :=
  !bit (rd s (0x0280 + 16 * k)) 31 || decide (16 ≤ fld (rd s (0x0284 + 16 * k)) 0 20)

end Sys2Proof.Machine
end

