-- ==== Sys2Proof/Machine/Float.lean ====
section
/-! DEFINITION. IEEE 754-2019 arithmetic as R293 to R303, R313 and R314 fix it: one exact result, rounded once. -/

namespace Sys2Proof.Machine

open Sys2Proof

/-- An interchange format: exponent and fraction bits. -/
structure Fmt where
  eb : Nat
  mb : Nat
deriving DecidableEq, Repr

/-- binary32. -/
def b32 : Fmt := ⟨8, 23⟩

/-- binary64. -/
def b64 : Fmt := ⟨11, 52⟩

/-- A delivered value and the exceptions signalled: bit 0 invalid operation, 1 division by zero, 2 overflow,
3 underflow, 4 inexact (R246, R310). -/
structure FRes where
  val : Nat
  ex : Nat
deriving DecidableEq, Repr

/-- Width of a format. -/
def Fmt.width (f : Fmt) : Nat := 1 + f.eb + f.mb

/-- Exponent of the least normal number. -/
def Fmt.emin (f : Fmt) : Int := 2 - (2 ^ (f.eb - 1) : Nat)

/-- Exponent of the least subnormal number. -/
def Fmt.eq (f : Fmt) : Int := f.emin - (f.mb : Nat)

/-- Sign of a value. -/
def Fmt.sgn (f : Fmt) (v : Nat) : Bool := v.testBit (f.eb + f.mb)

/-- Exponent field. -/
def Fmt.expo (f : Fmt) (v : Nat) : Nat := bits v f.mb f.eb

/-- Fraction field. -/
def Fmt.frac (f : Fmt) (v : Nat) : Nat := v % 2 ^ f.mb

/-- The value is a NaN. -/
def Fmt.isNan (f : Fmt) (v : Nat) : Bool := decide (f.expo v = 2 ^ f.eb - 1) && decide (f.frac v ≠ 0)

/-- The value is a signaling NaN. -/
def Fmt.isSnan (f : Fmt) (v : Nat) : Bool := f.isNan v && !v.testBit (f.mb - 1)

/-- The value is an infinity. -/
def Fmt.isInf (f : Fmt) (v : Nat) : Bool := decide (f.expo v = 2 ^ f.eb - 1) && decide (f.frac v = 0)

/-- The value is a zero. -/
def Fmt.isZero (f : Fmt) (v : Nat) : Bool := decide (f.expo v = 0) && decide (f.frac v = 0)

/-- A NaN with its quiet bit set (R296). -/
def Fmt.quiet (f : Fmt) (v : Nat) : Nat := v ||| 2 ^ (f.mb - 1)

/-- The default NaN (R296). -/
def Fmt.dnan (f : Fmt) : Nat := (2 ^ f.eb - 1) * 2 ^ f.mb + 2 ^ (f.mb - 1)

/-- An infinity. -/
def Fmt.inf (f : Fmt) (s : Bool) : Nat := (if s then 2 ^ (f.eb + f.mb) else 0) + (2 ^ f.eb - 1) * 2 ^ f.mb

/-- A zero. -/
def Fmt.zero (f : Fmt) (s : Bool) : Nat := if s then 2 ^ (f.eb + f.mb) else 0

/-- Significand of a finite value. -/
def Fmt.man (f : Fmt) (v : Nat) : Nat := if f.expo v = 0 then f.frac v else f.frac v + 2 ^ f.mb

/-- Exponent of the significand's unit. -/
def Fmt.ex (f : Fmt) (v : Nat) : Int := f.eq + ((f.expo v - 1 : Nat) : Int)

/-- A value with its sign reversed; a NaN keeps its sign (R296). -/
def Fmt.neg (f : Fmt) (v : Nat) : Nat := if f.isNan v then v else v ^^^ 2 ^ (f.eb + f.mb)

/-- `m` / 2^`k` rounded to an integer under attribute `rm` (codes of SETRM). -/
def roundShift (rm : Nat) (s : Bool) (m k : Nat) : Nat :=
  let q := m / 2 ^ k
  let r := m % 2 ^ k
  let h := 2 ^ (k - 1)
  let up := match rm with
    | 0 => decide (h < r) || (decide (r = h) && decide (k ≠ 0) && decide (q % 2 = 1))
    | 1 => decide (h ≤ r) && decide (r ≠ 0)
    | 2 => !s && decide (r ≠ 0)
    | 3 => s && decide (r ≠ 0)
    | _ => false
  if up then q + 1 else q

/-- The result of an overflow (R295). -/
def Fmt.over (f : Fmt) (rm : Nat) (s : Bool) : Nat :=
  let big := if rm ≤ 1 then true else if rm = 2 then !s else if rm = 3 then s else false
  if big then f.inf s else f.inf s - 1

/-- The number (−1)^s × m × 2^e rounded once to the format (R293 to R295, R298, R299). -/
def Fmt.round (f : Fmt) (rm : Nat) (s : Bool) (m : Nat) (e : Int) : FRes :=
  if m = 0 then ⟨f.zero s, 0⟩
  else
    let p := f.mb + 1
    let n := Nat.log2 m + 1
    let q := max (e + (n : Nat) - (p : Nat)) f.eq
    let k := (q - e).toNat
    let mm := if q ≤ e then m * 2 ^ (e - q).toNat else roundShift rm s m k
    let nx := decide (e < q) && decide (m % 2 ^ k ≠ 0)
    let v := (q - f.eq).toNat * 2 ^ f.mb + mm
    let top : Int := if n ≤ p then e + (n : Nat) - 1
      else e + (n : Nat) - 1 + (if roundShift rm s m (n - p) = 2 ^ p then 1 else 0)
    let uf := nx && decide (top < f.emin)
    if (2 ^ f.eb - 1) * 2 ^ f.mb ≤ v then ⟨f.over rm s, 20⟩
    else ⟨f.zero s + v, (if uf then 8 else 0) + (if nx then 16 else 0)⟩

/-- The first NaN among the operands, quieted, or the default NaN (R296). -/
def Fmt.nanOf (f : Fmt) (l : List Nat) : Nat :=
  match l.find? (fun v => f.isNan v) with
  | some v => f.quiet v
  | none => f.dnan

/-- Result of an operation on a NaN operand or of an invalid one. -/
def Fmt.nanRes (f : Fmt) (l : List Nat) (inv : Bool) : FRes :=
  ⟨f.nanOf l, if inv || l.any (fun v => f.isSnan v) then 1 else 0⟩

/-- The exact sum of two signed numbers, rounded once; an exact zero sum of opposite signs is +0, or −0 under
roundTowardNegative (R298). -/
def Fmt.sum (f : Fmt) (rm : Nat) (s1 : Bool) (m1 : Nat) (e1 : Int) (s2 : Bool) (m2 : Nat) (e2 : Int) : FRes :=
  let e := min e1 e2
  let a : Int := (m1 * 2 ^ (e1 - e).toNat : Nat)
  let b : Int := (m2 * 2 ^ (e2 - e).toNat : Nat)
  let t := (if s1 then -a else a) + (if s2 then -b else b)
  if t = 0 then ⟨f.zero (if s1 = s2 then s1 else decide (rm = 3)), 0⟩
  else f.round rm (decide (t < 0)) t.natAbs e

/-- Addition (R293). -/
def Fmt.add (f : Fmt) (rm a b : Nat) : FRes :=
  if f.isNan a || f.isNan b then f.nanRes [a, b] false
  else if f.isInf a then (if f.isInf b && f.sgn a != f.sgn b then f.nanRes [] true else ⟨a, 0⟩)
  else if f.isInf b then ⟨b, 0⟩
  else f.sum rm (f.sgn a) (f.man a) (f.ex a) (f.sgn b) (f.man b) (f.ex b)

/-- Subtraction (R293, R296). -/
def Fmt.sub (f : Fmt) (rm a b : Nat) : FRes := f.add rm a (f.neg b)

/-- Multiplication (R293). -/
def Fmt.mul (f : Fmt) (rm a b : Nat) : FRes :=
  let s := f.sgn a != f.sgn b
  if f.isNan a || f.isNan b then f.nanRes [a, b] false
  else if (f.isInf a && f.isZero b) || (f.isZero a && f.isInf b) then f.nanRes [] true
  else if f.isInf a || f.isInf b then ⟨f.inf s, 0⟩
  else f.round rm s (f.man a * f.man b) (f.ex a + f.ex b)

/-- Fused multiply-add, (±A × B) ± C rounded once (R293, R296 to R298). -/
def Fmt.fma (f : Fmt) (rm : Nat) (negP negC : Bool) (a b c0 : Nat) : FRes :=
  let c := if negC then f.neg c0 else c0
  let s := (f.sgn a != f.sgn b) != negP
  let bad := (f.isInf a && f.isZero b) || (f.isZero a && f.isInf b)
  if f.isNan a || f.isNan b || f.isNan c then f.nanRes [a, b, c] bad
  else if bad then f.nanRes [] true
  else if f.isInf a || f.isInf b then
    (if f.isInf c && f.sgn c != s then f.nanRes [] true else ⟨f.inf s, 0⟩)
  else if f.isInf c then ⟨c, 0⟩
  else f.sum rm s (f.man a * f.man b) (f.ex a + f.ex b) (f.sgn c) (f.man c) (f.ex c)

/-- Division (R314). -/
def Fmt.div (f : Fmt) (rm a b : Nat) : FRes :=
  let s := f.sgn a != f.sgn b
  if f.isNan a || f.isNan b then f.nanRes [a, b] false
  else if (f.isInf a && f.isInf b) || (f.isZero a && f.isZero b) then f.nanRes [] true
  else if f.isInf a then ⟨f.inf s, 0⟩
  else if f.isInf b then ⟨f.zero s, 0⟩
  else if f.isZero b then ⟨f.inf s, 2⟩
  else
    let k := 2 * f.mb + 4
    let n := f.man a * 2 ^ k
    let q := n / f.man b
    let st := if n % f.man b = 0 then 0 else 1
    f.round rm s (2 * q + st) (f.ex a - f.ex b - (k : Nat) - 1)

/-- Integer square root by bits, from bit `n - 1` down. -/
def isqrtBits (v : Nat) : Nat → Nat → Nat
  | 0, r => r
  | n + 1, r => let t := r + 2 ^ n
    isqrtBits v n (if t * t ≤ v then t else r)

/-- Square root (R314). -/
def Fmt.sqrt (f : Fmt) (rm a : Nat) : FRes :=
  if f.isNan a then f.nanRes [a] false
  else if f.isZero a then ⟨a, 0⟩
  else if f.sgn a then f.nanRes [] true
  else if f.isInf a then ⟨a, 0⟩
  else
    let k := 2 * f.mb + 6 + (if (f.ex a) % 2 = 0 then 0 else 1)
    let v := f.man a * 2 ^ k
    let r := isqrtBits v (2 * f.mb + 4) 0
    let st := if r * r = v then 0 else 1
    f.round rm false (2 * r + st) ((f.ex a - (k : Nat)) / 2 - 1)

/-- The value of a number that is not a NaN, ordered as an integer; both zeros give 0. -/
def Fmt.ord (f : Fmt) (v : Nat) : Int :=
  let m : Int := (v % 2 ^ (f.eb + f.mb) : Nat)
  if f.sgn v then -m else m

/-- A comparison: 0 EQ, 1 LT, 2 LE, 3 UNORD; quiet or signaling (R300). -/
def Fmt.cmp (f : Fmt) (kind : Nat) (signaling : Bool) (a b : Nat) : Bool × Nat :=
  let un := f.isNan a || f.isNan b
  let inv := f.isSnan a || f.isSnan b || (signaling && un)
  let r := match kind with
    | 0 => !un && decide (f.ord a = f.ord b)
    | 1 => !un && decide (f.ord a < f.ord b)
    | 2 => !un && decide (f.ord a ≤ f.ord b)
    | _ => un
  (r, if inv then 1 else 0)

/-- Conversion to a w-bit integer, clamped: the field, T, and the exceptions (R301). -/
def Fmt.toInt (f : Fmt) (rm w : Nat) (signed : Bool) (a : Nat) : Nat × Bool × Nat :=
  let lo : Int := if signed then -(2 ^ (w - 1) : Nat) else 0
  let hi : Int := if signed then (2 ^ (w - 1) : Nat) - 1 else (2 ^ w : Nat) - 1
  let put (i : Int) : Nat := (i % (2 ^ w : Nat)).toNat
  if f.isNan a then (0, true, 1)
  else if f.isInf a then (put (if f.sgn a then lo else hi), true, 1)
  else
    let e := f.ex a
    let k := (-e).toNat
    let m := if 0 ≤ e then f.man a * 2 ^ e.toNat else roundShift rm (f.sgn a) (f.man a) k
    let nx := decide (e < 0) && decide (f.man a % 2 ^ k ≠ 0)
    let i : Int := if f.sgn a then -(m : Int) else m
    if i < lo then (put lo, true, 1) else if hi < i then (put hi, true, 1) else (put i, false, if nx then 16 else 0)

/-- Conversion of a w-bit integer (R302). -/
def Fmt.ofInt (f : Fmt) (rm w : Nat) (signed : Bool) (v : Nat) : FRes :=
  let ng := signed && v.testBit (w - 1)
  f.round rm ng (if ng then 2 ^ w - v else v) 0

/-- Conversion between formats (R303). -/
def Fmt.conv (f g : Fmt) (rm a : Nat) : FRes :=
  if f.isNan a then
    let pay := if g.mb ≤ f.mb then f.frac a / 2 ^ (f.mb - g.mb) else f.frac a * 2 ^ (g.mb - f.mb)
    ⟨g.quiet (g.inf (f.sgn a) + pay), if f.isSnan a then 1 else 0⟩
  else if f.isInf a then ⟨g.inf (f.sgn a), 0⟩
  else g.round rm (f.sgn a) (f.man a) (f.ex a)

end Sys2Proof.Machine
end

