-- ==== Sys2Proof/Machine/ArrayCore.lean ====
section
/-! DEFINITION. The PE array: planes, activity, neighbours, reductions, parity, the column map and note list, and the
records of a faulting microsequencer (R196 to R224, R237, R287). -/

namespace Sys2Proof.Machine

open Sys2Proof

/-- One bit of every PE: the PE at row r and column c is bit 128 * r + c. -/
abbrev Plane := BitVec 16384

/-- The plane whose bit at each PE is given. -/
def mkPlane (f : Nat → Bool) : Plane := (BitVec.ofBoolListLE ((List.range 16384).map f)).setWidth 16384

/-- Local memory plane `p`, numbers taken modulo 2,048 (R231, R255). -/
def plane (s : State) (p : Nat) : Plane := tget 0 s.arr.planes (p % 2048)

/-- Column 0 of every row. -/
def colZero : Plane := BitVec.ofNat 16384 ((2 ^ 16384 - 1) / (2 ^ 128 - 1))

/-- The PEs of the row bands of a mask: band b holds rows 16b to 16b + 15. -/
def bandPlane (bands : Nat) : Plane :=
  BitVec.ofNat 16384 (((List.range 8).map (fun b => if bands.testBit b then (2 ^ 2048 - 1) * 2 ^ (2048 * b) else 0)).sum)

/-- PEs of powered row bands (R226, R227). -/
def powered (s : State) : Plane := bandPlane s.arr.bandsOn.toNat

/-- PEs that write: M is 1 and the band is powered (R197, R227). -/
def active (s : State) : Plane := s.arr.m &&& powered s

/-- Where `mask` is 1 the new value, elsewhere the old one. -/
def maskIn (mask old new : Plane) : Plane := (old &&& ~~~mask) ||| (new &&& mask)

/-- Plane `p` written in the PEs of `mask`, with new parity of its plane group (R204). -/
def setPlane (s : State) (p : Nat) (mask v : Plane) : State :=
  let k := p % 2048
  { s with arr := { s.arr with
      planes := tset 0 s.arr.planes k (maskIn mask (tget 0 s.arr.planes k) v),
      perr := tset 0 s.arr.perr (k / 32) (tget 0 s.arr.perr (k / 32) &&& ~~~mask) } }

/-- The w-bit field at plane p of one PE: bit i lies in plane p + i (R231). -/
def peField (s : State) (p w pe : Nat) : Nat :=
  ((List.range w).map (fun i => if (plane s (p + i)).getLsbD pe then 2 ^ i else 0)).sum

/-- The w-bit field at plane p written in the PEs of `mask`. -/
def setField (s : State) (p w : Nat) (mask : Plane) (f : Nat → Nat) : State :=
  forEach (List.range w) s (fun s i => setPlane s (p + i) mask (mkPlane (fun pe => (f pe).testBit i)))

/-- Position of the chip in the mesh: STRAP3 and STRAP2 (R534). -/
def ownPos (s : State) : Nat := s.boot.straps.toNat / 4

/-- An axis has a linked chip in the group: 1 the east-west axis, 2 the north-south axis (R209, R534). -/
def axisLinked (s : State) (axis : Nat) : Bool :=
  grouped s && s.grp.members.getLsbD (ownPos s ^^^ axis)

/-- The edge toward neighbour `d` (1 north, 2 east, 3 south, 4 west) faces the linked chip of its axis (R534). -/
def edgeFaces (s : State) (d : Nat) : Bool :=
  match d with
  | 1 => decide (2 ≤ ownPos s)
  | 3 => decide (ownPos s < 2)
  | 2 => decide (ownPos s % 2 = 0)
  | _ => decide (ownPos s % 2 = 1)

/-- Row r of a plane. -/
def rowOf (x : Plane) (r : Nat) : BitVec 128 := x.extractLsb' (128 * r) 128

/-- Column c of a plane, bit r the PE of row r. -/
def colOf (x : Plane) (c : Nat) : BitVec 128 :=
  BitVec.ofNat 128 (((List.range 128).map (fun r => if x.getLsbD (128 * r + c) then 2 ^ r else 0)).sum)

/-- The plane that holds a column vector in column c and 0 elsewhere. -/
def colPlane (v : BitVec 128) (c : Nat) : Plane :=
  BitVec.ofNat 16384 (((List.range 128).map (fun r => if v.getLsbD r then 2 ^ (128 * r + c) else 0)).sum)

/-- The X that the PEs of an edge take from outside the chip (R207, R209): the edge mode, the opposite edge of the same
chip, and the column that the linked chip sends. -/
def edgeIn (s : State) (d edge : Nat) (opp burst : BitVec 128) : BitVec 128 :=
  let axis := if d % 2 = 0 then 1 else 2
  match edge with
  | 0 => 0
  | 1 => opp
  | 2 => if axisLinked s axis && edgeFaces s d then burst else 0
  | _ => if axisLinked s axis then burst else opp

/-- Every PE's neighbour's X: `d` 1 north, 2 east, 3 south, 4 west; unpowered neighbours present 0 (R196, R207, R210). -/
def nbrX (s : State) (x0 : Plane) (d edge : Nat) (burst : BitVec 128) : Plane :=
  let x := x0 &&& powered s
  match d with
  | 1 => (x <<< 128) ||| (edgeIn s 1 edge (rowOf x 127) burst).setWidth 16384
  | 3 => (x >>> 128) ||| ((edgeIn s 3 edge (rowOf x 0) burst).setWidth 16384 <<< 16256)
  | 2 => ((x >>> 1) &&& ~~~(colZero <<< 127)) ||| colPlane (edgeIn s 2 edge (colOf x 0) burst) 127
  | _ => ((x <<< 1) &&& ~~~colZero) ||| colPlane (edgeIn s 4 edge (colOf x 127) burst) 0

/-- A step in direction `d` takes a burst from the linked chip (R207, R209, R557). -/
def takesBurst (s : State) (d edge : Nat) : Bool :=
  let axis := if d % 2 = 0 then 1 else 2
  axisLinked s axis && (decide (edge = 3) || (decide (edge = 2) && edgeFaces s d))

/-- Bursts received on the port of a step's axis, for the check of the macro (R557, R558). -/
def burstRx (s : State) (d edge : Nat) (bursts : List (BitVec 128)) : State :=
  if takesBurst s d edge then
    let p := if d % 2 = 0 then 0 else 1
    { s with grp := { s.grp with rx := tput s.grp.rx p (tget [] s.grp.rx p ++
      bursts.flatMap (fun b => leBytes 16 b.toNat)) } }
  else s

/-- The number of ones of a plane. -/
def planeOnes (x : Plane) : Nat := ((List.range 16384).filter (fun i => x.getLsbD i)).length

/-- The OR of a bit over the PEs that take part (R211); `others` is what the other members of a group give. -/
def anyOf (s : State) (x : Plane) (grp others : Bool) : Bool :=
  decide (x &&& active s ≠ 0) || (grp && grouped s && others)

/-- The count of ones of a bit over the PEs that take part (R211). -/
def tallyOf (s : State) (x : Plane) (grp : Bool) (others : Nat) : Nat :=
  planeOnes (x &&& active s) + (if grp && grouped s then others else 0)

/-- ARR_ANY takes the result of a reduction of FPk (R212); on a member of a group its chip part pulls ANY_OD low until the
next group-scope ANY (R556). -/
def recAny (s : State) (fp : Nat) (r grp chip : Bool) : State :=
  { s with arr := { s.arr with any := r, redPart := some (fpPart fp) },
           grp := if grp && grouped s then { s.grp with anyOd := chip } else s.grp }

/-- ARR_TALLY takes the result of a reduction of FPk. -/
def recTally (s : State) (fp n : Nat) : State :=
  { s with arr := { s.arr with tally := n, redPart := some (fpPart fp) } }

/-- Physical column of logical column `l`: the (l + 1)-th that is not mapped out (R221). -/
def physCol (s : State) (l : Nat) : Nat := ((List.range 132).filter (fun c => !s.arr.map.contains c)).getD l l

/-- The column vector of a plane's ones, lowest logical column first. -/
def onesCols (x : Plane) : List Nat :=
  (List.range 128).filter (fun c => x &&& (colZero <<< c) ≠ 0)

/-- A physical column enters the note list with its NOTE record, unless it is on it or the list is full (R224, R611). -/
def noteCol (s : State) (phys log grp kind : Nat) : State :=
  if s.flt.notes.contains phys then s
  else if 8 ≤ s.flt.notes.length then setFlag s 0x0404 3
  else
    let s1 := logPut { s with flt := { s.flt with notes := s.flt.notes ++ [phys] } } 3
      (leBytes 1 phys ++ leBytes 1 log ++ leBytes 1 grp ++ leBytes 1 kind)
    if bothFailed s1 then setFlag s1 0x0404 4 else s1

/-- Key of the high word of a 64-bit record register, whose own address holds the latched copy (R287, R380). -/
def hiKey (a : Nat) : Nat := 0x20000 + a

/-- A 64-bit record register takes a value: the low word at once, the high word for the next latch. -/
def wr64 (s : State) (a v : Nat) : State :=
  wr (wr s a (BitVec.ofNat 32 v)) (hiKey a) (BitVec.ofNat 32 (v / 2 ^ 32))

/-- A 64-bit record register's value. -/
def rd64 (s : State) (a : Nat) : Nat := (rd s a).toNat + (rd s (hiKey a)).toNat * 2 ^ 32

/-- MSQ_FAULTINFO (R265, R271, R272, R285). -/
def faultInfo (s : State) (kind fp pl uaddr : Nat) : State :=
  wr64 s 0x0510 (kind + fpPart fp * 16 + fp * 64 + pl % 2048 * 1024 + uaddr % 8192 * 2 ^ 21)

/-- The first plane of a list whose group has odd parity in some powered PE (R204, R227). -/
def parityHit (s : State) (ps : List Nat) : Option Nat :=
  ps.find? (fun p => tget 0 s.arr.perr (p % 2048 / 32) &&& powered s ≠ 0)

/-- A PE parity error of plane `p` (R204 to R206, R224): recorded by its lowest physical column, noted, and the slot
faults. -/
def parityFault (s : State) (fp p : Nat) : State :=
  let g := p % 2048 / 32
  let l := ((onesCols (tget 0 s.arr.perr g &&& powered s)).head?).getD 0
  let c := physCol s l
  let v := BitVec.ofNat 32 (c + l * 256 + g * 65536)
  let s1 := satReg (setFlag (wr s 0x040C v) 0x0404 0) 0x0410 1
  let s2 := sticky0 s1 4 (leBytes 4 v.toNat ++ leBytes 1 fp)
  faultComp (noteCol s2 c l g 0) 4

/-- Plane `p` lies in the plane range of partition q (R199, R201). -/
def inRange (s : State) (q p : Nat) : Bool :=
  let r := rd s (0x0420 + 4 * q)
  decide (fld r 0 6 ≤ p % 2048 / 32) && decide (p % 2048 / 32 < fld r 0 6 + fld r 6 7)

/-- A plane range fault (R201, R728). -/
def rangeFault (s : State) : State := faultComp (setFlag s 0x0404 1) 2

/-- Base and size in bytes of the keeper area of partition q, or of its exchange or stack area (R386). -/
def dataArea (s : State) (reg q : Nat) : Nat × Nat :=
  let v := rd s (reg + 4 * q)
  (0x10000000 + 1024 * fld v 0 7, 1024 * fld v 8 7)

/-- The keeper area of partition q. -/
def keepArea (s : State) (q : Nat) : Nat × Nat := dataArea s 0x0A20 q

/-- The exchange area of partition q. -/
def xchArea (s : State) (q : Nat) : Nat × Nat := dataArea s 0x0A30 q

/-- The stack area of partition q. -/
def stkArea (s : State) (q : Nat) : Nat × Nat := dataArea s 0x0A40 q

/-- The code area of partition q. -/
def codeArea (s : State) (q : Nat) : Nat × Nat :=
  let v := rd s (0x0A50 + 4 * q)
  (1024 * fld v 0 6, 1024 * fld v 8 6)

/-- A span lies wholly in an area. -/
def inArea (x : Nat × Nat) (a n : Nat) : Bool := decide (x.1 ≤ a) && decide (a + n ≤ x.1 + x.2)

/-- A word of conductor memory. -/
def rdWord (s : State) (a : Nat) : Word := BitVec.ofNat 32 (leNat (rdBytes s a 4))

/-- A whole word of conductor memory written: its stored errors are gone. -/
def wrWord (s : State) (a : Nat) (v : Word) : State :=
  let s1 := wrBytes s a (leBytes 4 v.toNat)
  { s1 with cnd := { s1.cnd with memErr := tdel s1.cnd.memErr (a / 4) } }

end Sys2Proof.Machine
end

