-- ==== Sys2Proof/Machine/GroupCore.lean ====
section
/-! DEFINITION. The group unit: formation, checkpoints and heartbeats at a boundary, loss of a member and dissolution
(R534, R541 to R548, R561 to R577). -/

namespace Sys2Proof.Machine

open Sys2Proof

/-- Two positions of the mesh are joined by a link (R534). -/
def linkedPos (a b : Nat) : Bool := decide (a ^^^ b = 1) || decide (a ^^^ b = 2)

/-- Position of the peer of port p (R534). -/
def peerPos (s : State) (p : Nat) : Nat := ownPos s ^^^ (if p = 0 then 1 else 2)

/-- The port toward position `pos`: the direct one, or a port that is UP and relays (R549, R565). -/
def portTo (s : State) (pos : Nat) : Nat :=
  if ownPos s ^^^ pos = 1 then 0 else if ownPos s ^^^ pos = 2 then 1 else if (gport s 0).st = .up then 0 else 1

/-- The member positions. -/
def memberList (m : BitVec 4) : List Nat := (List.range 4).filter (fun i => m.getLsbD i)

/-- The standby that a leader elects: the lowest member linked directly to it, over a port that is not LOST (R545). -/
def electStandby (s : State) (m : BitVec 4) (lead : Nat) : Option Nat :=
  (memberList m).find? (fun i => linkedPos i lead && decide ((gport s (portTo s i)).st ≠ .lost))

/-- GRP_LPp_STAT (R536, R541). -/
def lpStat (s : State) (p : Nat) : Word :=
  let x := gport s p
  place (portCode x.st) 0 ||| place ((x.peer.getD 0)) 2 ||| flag x.peer.isSome 4 ||| place x.lanes.toNat 5 |||
    place (min 255 x.retrains) 16

/-- The leader takes a checkpoint and starts sending it to the standby (R561). -/
def sendCkpt (s : State) : State :=
  match s.grp.stbyPos with
  | some p =>
    sendLink { s with grp := { s.grp with ckNum := s.grp.ckNum + 1, ckLeft := s.grp.ckLeft + 1, ckCount := s.ang.count48 } }
      (portTo s p) 5
  | none => s

/-- Full checkpoints into both slots of a standby that holds none (R547, R570). -/
def fullCkpts (s : State) : State :=
  sendCkpt (sendCkpt { s with grp := { s.grp with ckSealed := 0, ckLeft := 0 } })

/-- A heartbeat to every member (R565). -/
def sendHeartbeat (s : State) : State := sendAll { s with grp := { s.grp with sentAt := s.now } } 4

/-- What the leader does for its group at a boundary: a checkpoint when none is in flight, otherwise CKLATE (R561,
R564). -/
def groupCheckpoint (s : State) : State :=
  if s.grp.role = 1 ∧ s.grp.stbyPos.isSome ∧ !s.grp.retired then
    if s.grp.ckLeft = 0 then sendCkpt s else setFlag s 0x0C04 5
  else s

/-- The heartbeat of a frame boundary (R565). -/
def groupBeat (s : State) : State := if s.grp.role = 1 ∧ !s.grp.retired then sendHeartbeat s else s

/-- The angle clock of a chip that has become solo takes the configuration on its own inputs and acquires; a leader's open
frame is kept (R575, R577). -/
def soloClock (s : State) (lead : Bool) : State :=
  if lead && s.ang.frameOpen then s
  else
    let s1 := if lead then s else wrBoth s 0x0200 s.grp.src
    let s2 := if s1.ang.frameOpen then abandonFrame s1 0x20 1 else s1
    if angEn s2 then acquire s2 else { s2 with ang := { s2.ang with st := .off, frameOpen := false } }

/-- The chip becomes solo: its ports power down and its clock acquires (R577). -/
def becomeSolo (s : State) : State :=
  let lead := decide (s.grp.role = 1)
  let s1 := if lead then s else endComp s 0x20 1 []
  let s2 := soloClock s1 lead
  portsDown { s2 with grp := { s2.grp with
    role := 0, members := 0, stbyPos := none, copy := none, forming := false, ckLeft := 0, ckSealed := 0, slots := [],
    shLock := false, shRun := 0, quiesced := false, anyOd := false, anyLine := false, verdict := none } }

/-- A non-leader leaves the leader's group (R573 to R575). -/
def memberLeave (s : State) (pos : Nat) : State :=
  if s.grp.role ≠ 1 ∨ !s.grp.members.getLsbD pos ∨ pos = ownPos s then s
  else
    let s1 := faultComp (setFlag s 0x0C04 3) 13
    let m := s1.grp.members &&& ~~~(BitVec.ofNat 4 (2 ^ pos))
    let s2 := { s1 with grp := { s1.grp with members := m } }
    if (memberList m).length ≤ 1 then becomeSolo s2
    else if s1.grp.stbyPos = some pos then
      fullCkpts { s2 with grp := { s2.grp with stbyPos := electStandby s2 m (ownPos s2) } }
    else s2

/-- A path of ports that are not LOST leads to position `pos`, directly or through another member (R568). -/
def reachable (s : State) (pos : Nat) : Bool :=
  let ok := fun p => decide ((gport s p).st ≠ .lost) && s.grp.members.getLsbD (peerPos s p)
  ([0, 1] : List Nat).any (fun p => ok p && (decide (peerPos s p = pos) || linkedPos (peerPos s p) pos))

/-- A port is LOST: the flags, and the member that leaves for it (R541, R568, R573). -/
def portLost (s : State) (p : Nat) : State :=
  let s1 := setFlag (portState s p .lost) 0x0C04 2
  let s2 := sticky1 s1 0 (leBytes 4 (lpStat s1 p).toNat ++ leBytes 1 p)
  let q := peerPos s2 p
  if s2.grp.role = 1 then
    forEach ((memberList s2.grp.members).filter (fun m => decide (m = q) || !reachable s2 m)) s2 memberLeave
  else if s2.grp.role = 0 then s2
  else if q = s2.grp.leadPos ∨ q < ownPos s2 then becomeSolo (setFlag s2 0x0C04 3)
  else { s2 with grp := { s2.grp with members := s2.grp.members &&& ~~~(BitVec.ofNat 4 (2 ^ q)) } }

/-- This chip as the training sets show it. -/
def ownInfo (s : State) : ChipInfo :=
  { strap := s.boot.straps, pagen := BitVec.ofNat 8 Config.pagenVersion, group := BitVec.ofNat 8 Config.groupVersion,
    members := s.grp.need }

/-- Position of a chip. -/
def ChipInfo.pos (c : ChipInfo) : Nat := c.strap.toNat / 4

/-- GROUP_FORM completes without a group (R543, R546). -/
def formRefused (s : State) (status detail : Nat) : State :=
  portsDown (finishWait { s with grp := { s.grp with forming := false, copy := none, ckLeft := 0, ckSealed := 0 } } (fun w => w == .form) status
    detail [])

/-- The pending change that forms the group at the next boundary, at the stamp of the GROUP_FORM (R547). -/
def orderForm (s : State) : State :=
  match s.prt.opens.find? (fun w => w.wait == .form && !s.prt.changes.any (fun c => c.kind == .groupForm)) with
  | some w => addChange s { unit := .free, mbx := w.ord.mbx, stamp := w.ord.stamp, kind := .groupForm, ord := none }
  | none => s

/-- Two of a list of positions are equal. -/
def dupPos : List Nat → Bool
  | [] => false
  | x :: xs => xs.contains x || dupPos xs

/-- A set of positions is not connected (R534). -/
def splitSet (l : List Nat) : Bool := l.all (fun p => p == 0 || p == 3) || l.all (fun p => p == 1 || p == 2)

/-- What a forming chip finds in the training information it holds (R543 to R547). -/
def tryForm (s : State) : State :=
  if !s.grp.forming || decide (s.grp.role ≠ 0) then s
  else
    let me := ownInfo s
    let cs := me :: s.grp.known
    let ps := cs.map (fun c => c.pos)
    match s.grp.known.find? (fun c => c.pagen != me.pagen || c.group != me.group) with
    | some c =>
      let s1 := sticky1 (setFlag s 0x0C04 1) 1 (leBytes 1 c.strap.toNat ++ [c.pagen, c.group])
      formRefused s1 0x31 (if c.pagen != me.pagen then 4 else 5)
    | none =>
      let bad := cs.any (fun c => c.members != me.members) || dupPos ps || (decide (2 ≤ cs.length) && splitSet ps)
      let s1 := if bad then setFlag s 0x0C04 0 else s
      if bad ∨ cs.length ≠ s.grp.need then s1
      else
        let lead := ps.foldl min (ownPos s)
        let m : BitVec 4 := BitVec.ofNat 4 ((ps.map (fun p => 2 ^ p)).sum)
        let s2 := { s1 with grp := { s1.grp with leadPos := lead, members := m, stbyPos := none } }
        if lead = ownPos s ∧ s1.grp.ckLeft + s1.grp.ckSealed ≠ 0 then s1
        else if lead = ownPos s then
          match admitFail (loadSet s2 true (fun _ p => p.enabled)) (gclk s2) (fmin s2) with
          | some r => formRefused s2 0x18 (admitDetail r)
          | none => fullCkpts { s2 with grp := { s2.grp with stbyPos := electStandby s2 m lead } }
        else
          match s2.grp.copy with
          | none => s2
          | some c =>
            match c.admitted with
            | some r => formRefused s2 0x18 (admitDetail r)
            | none => orderForm s2

/-- Copies of the leader's state taken up by a member: shared-resource registers, programs, code, Topiary images and the
active configuration (R547, R554, R578). -/
def applyCopy (s : State) (c : LeaderCopy) : State :=
  let s1 := forEach c.regs s (fun s r =>
    if r.1 = 0x0200 then
      wrBoth { s with grp := { s.grp with src := r.2 } } 0x0200 (setFld r.2 0 3 4)
    else wrBoth s r.1 r.2)
  let s2 := forEach c.progs s1 (fun s r => if slotOpen s r.1 then s else setProg s r.1 { r.2 with enabled := false })
  let own := fpNums.filter (fun k => slotOpen s1 k)
  let inOwn := fun a : Nat => own.any (fun k => let p := prog s1 k
    let b := (codeArea s1 (fpPart k)).1 + p.codeAt
    decide (b ≤ a) && decide (a < b + p.codeLen))
  let s3 := forEach c.code s2 (fun s r => if inOwn r.1 then s else wrMem s r.1 r.2)
  let s4 := { s3 with arr := { s3.arr with top := c.top.foldl (fun (t : Tbl TopImg) (r : Nat × TopImg) => tput t r.1 r.2) s3.arr.top } }
  let k := if s4.hdg.bank then 6144 else 0
  let s5 := { s4 with hdg := { s4.hdg with cfg := c.cfg.foldl (fun (t : Tbl DWord) (r : Nat × DWord) => tset 0 t (k + r.1) r.2) s4.hdg.cfg } }
  match c.power with
  | some t => { s5 with pwr := { s5.pwr with
      target := t, pend := decide (t ≠ s5.pwr.st), exiting := decide (s5.pwr.st = 2 ∧ t ≠ 2), orderAt := s5.now } }
  | none => s5

/-- GROUP_FORM of a non-leader completes after its last frame reply (R503, R548). -/
def formDone (s : State) : State :=
  if member s && s.grp.forming && fpNums.all (fun k => !slotOpen s k) then
    finishWait { s with grp := { s.grp with forming := false } } (fun w => w == .form) 0 0
      [BitVec.ofNat 8 s.grp.role, BitVec.ofNat 8 s.grp.need]
  else s

/-- The formation boundary: the members take up the group's state (R547, R548). A non-leader's clock takes the GROUP
source. -/
def formGroup (s : State) : State :=
  let hs : Tbl Nat := (List.range 5).map (fun i => (i, s.now))
  let g := { s.grp with heard := hs, sentAt := s.now, lastAng := s.now, copy := none, verdict := none }
  if s.grp.leadPos = ownPos s then
    finishWait { s with grp := { g with role := 1, forming := false } } (fun w => w == .form) 0 0
      [1, BitVec.ofNat 8 s.grp.need]
  else
    match s.grp.copy with
    | none => s
    | some c =>
      let sb := electStandby s s.grp.members s.grp.leadPos
      let s1 := { s with grp := { g with role := if sb = some (ownPos s) then 2 else 3, stbyPos := sb } }
      let s2 := forEach fpNums s1 (fun t k => setProg t k { prog t k with enabled := false })
      let s3 := applyCopy s2 c
      let none_ := decide (c.count = BitVec.allOnes 48)
      formDone { s3 with ang := { s3.ang with count48 := if none_ then 0 else c.count, anyOpened := !none_ } }

/-- GROUP_LEAVE at a boundary (R504, R576). -/
def groupDissolve (s : State) : State :=
  if s.grp.role = 1 then
    let s1 := becomeSolo s
    if angEn s1 && !s1.ang.frameOpen then acquire s1 else s1
  else s

end Sys2Proof.Machine
end

