-- ==== Sys2Proof/Machine/Posting.lean ====
section
/-! DEFINITION. The posting of frame replies and of held replies (R22, R23, R100, R111, R397, R453 to R457, R518). -/

namespace Sys2Proof.Machine

open Sys2Proof

/-- Keeper records written to a partition's keeper area in staging order (R100, R372). -/
def applyKeeper (s : State) (p : Nat) (rs : List (Nat × List Byte)) : State :=
  forEach rs s (fun s r => wrBytes s ((keepArea s p).1 + r.1) r.2)

/-- Key of a slot's keeper updates that await its posting. -/
def keeperKey (c : BitVec 48) (fp : Nat) : Nat := 16 * c.toNat + fp

/-- The keeper updates of one completed slot are applied (R100). -/
def settleKeeper (s : State) (key p : Nat) : State :=
  let s1 := applyKeeper s p (tget [] s.frm.kdone key)
  { s1 with frm := { s1.frm with kdone := tdel s1.frm.kdone key } }

/-- Every keeper update of partition p staged so far is applied (R100, R484). -/
def settleKeepers (s : State) (p : Nat) : State :=
  forEach (s.frm.kdone.filter (fun e => fpPart (e.1 % 16) = p)) s (fun s e => settleKeeper s e.1 p)

/-- The first slot of partition p that is not posted, in FRM_COUNT order and within a frame in the order of R92 (R111). -/
def nextSlot (s : State) (p : Nat) : Option (Frame × Slot) :=
  s.frm.frames.reverse.findSome? (fun f => (f.slots.find? (fun x => fpPart x.fp == p && !x.posted)).map (fun x => (f, x)))

/-- The flags of a frame reply (R23, R455). -/
def frameFlags (s : State) (f : Frame) (x : Slot) : Nat :=
  postFlags s + (if f.coasted then 1 else 0) + (if x.throttled then 8 else 0) + (if f.reversed then 16 else 0)

/-- The entry of a frame reply (R453, R454, R456). -/
def frameEntry (s : State) (f : Frame) (x : Slot) (status detail : Nat) : List Byte :=
  let done := decide (status = 0x00) || decide (status = 0x25)
  replyBytes 1 status (frameFlags s f x) x.fp 0 0 0 0 f.count.toNat
    (if status = 0x00 then min 3 x.restarts else detail) (if done then wordBytes x.body else [])

/-- FP_ABORT completes once its disable is applied and its ABORTED replies are posted (R481). -/
def abortDone (s : State) : State :=
  forEach (s.prt.opens.filter (fun w => match w.wait with
    | .abort fp =>
      !s.prt.changes.any (fun c => c.ord == some w.ord) &&
      !s.frm.frames.any (fun f => f.slots.any (fun x => x.fp == fp && !x.posted && (x.outcome.map (fun o => o.1)) == some 0x24))
    | _ => false)) s (fun s w => finish s w.ord 0 0 [])

/-- The slot's reply is posted: keeper updates first, then the entry (R100, R111, R526). -/
def postSlot (s : State) (f : Frame) (x : Slot) (status detail : Nat) : State :=
  let p := fpPart x.fp
  let key := keeperKey f.count x.fp
  let s1 := if status = 0x00 ∨ status = 0x25 then settleKeeper s key p
    else { s with frm := { s.frm with kdone := tdel s.frm.kdone key } }
  let s2 := post s1 p (frameEntry s1 f x status detail)
  let s3 := modFrame s2 f.count (fun f => { f with slots := f.slots.map (fun y =>
    if y.fp = x.fp then { y with posted := true } else y) })
  formDone (abortDone (settle s3))

/-- The next reply of partition p is posted when its outcome is final: its frame neither opens nor ingests (R111, R518).
A retired leader posts nothing (R572). -/
def postNext (s : State) (p : Nat) : Option State :=
  match nextSlot s p with
  | some (f, x) =>
    match x.outcome with
    | some (st, d) =>
      if f.st = .opening ∨ f.st = .ingesting ∨ s.grp.retired then none else some (postSlot s f x st d)
    | none => none
  | none => none

/-- Every reply that is ready is posted, at most `n` in each ring (R519). -/
def postReady (s : State) : Nat → State
  | 0 => s
  | n + 1 => postReady (forEach (List.range 4) s (fun s p => (postNext s p).getD s)) n

/-- FRAME_REPLY_POST (R111, R453 to R457): the next frame reply of partition p is posted. -/
def execFrameReplyPost (p : Fin 4) (s : State) : Host.Outcome State Fault Refusal := .next ((postNext s p).getD s)

/-- HELD_REPLY_MOVE (R397): the oldest held reply of partition p moves into its ring while an entry is free. -/
def execHeldReplyMove (p : Fin 4) (s : State) : Host.Outcome State Fault Refusal := .next (moveHeld s p)

end Sys2Proof.Machine
end

