-- ==== Sys2Proof/Machine/PowerCore.lean ====
section
/-! DEFINITION. The clocks of the array and of the conductor (R695 to R699). -/

namespace Sys2Proof.Machine

open Sys2Proof

/-- The target clock in MHz: the larger of PWR_CLKREQ and the operative FRM_GCLK (R695). -/
def targetClk (s : State) : Nat := max (fld (rd s 0x0104) 0 8) (gclk s)

/-- The array clock below 200 MHz during a computation is noted (R698, R704). -/
def noteClock (s : State) : State :=
  match s.frm.comp with
  | some k =>
    if s.pwr.arrClk < 200 then setFlag { s with frm := { s.frm with comp := some { k with fromClock := true } } } 0x010C 1
    else s
  | none => s

/-- A clock under a new target: it follows unless it is throttled, and is never below the floor (R695, R696). -/
def follow (old new floor c : Nat) : Nat := if old ≤ c then new else max floor (min c new)

/-- The clocks after PWR_CLKREQ or FRM_GCLK has changed; `old` is the target before. -/
def retarget (s : State) (old : Nat) : State :=
  noteClock { s with pwr := { s.pwr with
    arrClk := follow old (targetClk s) (gclk s) s.pwr.arrClk,
    cndClk := if s.pwr.st = 0 then follow old (targetClk s) (gclk s) s.pwr.cndClk else s.pwr.cndClk } }

end Sys2Proof.Machine
end

