-- ==== Sys2Proof/Machine/Flags.lean ====
section
/-! DEFINITION. The results and the flags C and T of the array's integer operations on w-bit fields (R290 to R292,
R733), each on one PE. -/

namespace Sys2Proof.Machine

open Sys2Proof

/-- A w-bit field as a two's-complement number. -/
def sInt (w v : Nat) : Int := if v.testBit (w - 1) then (v : Int) - (2 ^ w : Nat) else v

/-- The low w bits of an integer. -/
def lowBits (w : Nat) (i : Int) : Nat := (i % (2 ^ w : Nat)).toNat

/-- The range of a signed w-bit field. -/
def sFits (w : Nat) (i : Int) : Bool := decide (-(2 ^ (w - 1) : Nat) ≤ i) && decide (i < (2 ^ (w - 1) : Nat))

/-- A result field with the flags C and T. -/
structure Alu where
  d : Nat
  c : Bool
  t : Bool
deriving DecidableEq, Repr

/-- A + B: carry out and signed overflow (R290). -/
def aluAdd (w a b : Nat) : Alu :=
  ⟨(a + b) % 2 ^ w, decide (2 ^ w ≤ a + b), !sFits w (sInt w a + sInt w b)⟩

/-- A − B as A + not B + 1: C is 1 when no borrow occurs (R290). -/
def aluSub (w a b : Nat) : Alu :=
  ⟨(a + 2 ^ w - b) % 2 ^ w, decide (b ≤ a), !sFits w (sInt w a - sInt w b)⟩

/-- An exact result clamped to the field's range; T where it was clamped (R291). -/
def aluClamp (w : Nat) (signed : Bool) (i : Int) : Alu :=
  let lo : Int := if signed then -(2 ^ (w - 1) : Nat) else 0
  let hi : Int := if signed then (2 ^ (w - 1) : Nat) - 1 else (2 ^ w : Nat) - 1
  ⟨lowBits w (clampInt lo hi i), false, decide (i < lo) || decide (hi < i)⟩

/-- A field's value as the signed or unsigned forms take it. -/
def valOf (signed : Bool) (w v : Nat) : Int := if signed then sInt w v else v

/-- ADDSAT and SUBSAT (R291). -/
def aluSat (w : Nat) (sub signed : Bool) (a b : Nat) : Alu :=
  aluClamp w signed (if sub then valOf signed w a - valOf signed w b else valOf signed w a + valOf signed w b)

/-- ABS (R291). -/
def aluAbs (w a : Nat) : Alu := aluClamp w true (sInt w a).natAbs

/-- The relation of CMP and CMPK: 0 EQ, 1 LT signed, 2 LT unsigned; `inv` inverts. -/
def relOf (w kind : Nat) (inv : Bool) (a b : Nat) : Bool :=
  (match kind with
   | 0 => decide (a = b)
   | 1 => decide (sInt w a < sInt w b)
   | _ => decide (a < b)) != inv

/-- MINMAX: T is 1 where B is chosen; A is chosen where they are equal. -/
def aluMinMax (w : Nat) (mx signed : Bool) (a b : Nat) : Alu :=
  let x := valOf signed w a
  let y := valOf signed w b
  let t := if mx then decide (x < y) else decide (y < x)
  ⟨if t then b else a, false, t⟩

/-- MULQ: the rounded, clamped product of two signed fractions. -/
def aluMulq (w a b : Nat) : Alu := aluClamp w true ((sInt w a * sInt w b + (2 ^ (w - 2) : Nat)) / (2 ^ (w - 1) : Nat))

/-- DIVU: quotient, remainder and T (R292). -/
def aluDiv (w a b : Nat) : Nat × Nat × Bool := if b = 0 then (2 ^ w - 1, a, true) else (a / b, a % b, false)

/-- BSH: 0 left, 1 right logical, 2 right arithmetic. -/
def aluShift (w kind sh a : Nat) : Nat :=
  match kind with
  | 0 => a * 2 ^ sh % 2 ^ w
  | 1 => a / 2 ^ sh
  | _ => lowBits w (sInt w a / (2 ^ sh : Nat))

/-- LOGIC: bit i of the result is entry 2a + b of the table. -/
def aluLogic (w tt a b : Nat) : Nat :=
  ((List.range w).map (fun i =>
    if tt.testBit (2 * (if a.testBit i then 1 else 0) + (if b.testBit i then 1 else 0)) then 2 ^ i else 0)).sum

/-- K of ADDK, SUBK and CMPK (R733). -/
def kField (w : Nat) (x : Word) : Nat :=
  if w ≤ 32 then x.toNat % 2 ^ w else lowBits w x.toInt

end Sys2Proof.Machine
end

