-- ==== Sys2Proof/Machine/MacroCheck.lean ====
section
/-! DEFINITION. Macro words: their fields, the tables of R230 to R248, the checks at issue (R235, R237 to R243, R728) and
the retirement of a macro (R234, R242, R268). -/

namespace Sys2Proof.Machine

open Sys2Proof

/-- OPC of a macro word (R230). -/
def mOp (w : Word) : Nat := fld w 24 8

/-- PD of a macro word. -/
def mPD (w : Word) : Nat := fld w 20 4

/-- PA of a macro word. -/
def mPA (w : Word) : Nat := fld w 16 4

/-- PB of a macro word. -/
def mPB (w : Word) : Nat := fld w 12 4

/-- Width w = WM1 + 1. -/
def mW (w : Word) : Nat := fld w 6 6 + 1

/-- MOD of a macro word. -/
def mMod (w : Word) : Nat := fld w 0 6

/-- IMM12 of a format P word. -/
def mImm (w : Word) : Nat := fld w 0 12

/-- What the table of an opcode says of a macro word. -/
structure MacroInfo where
  ok : Bool                      -- no unused field, reserved bit or reserved value (R239)
  wok : Bool                     -- the widths lie in range
  srcs : List (Nat × Nat × Bool) -- source pointers, widths, and whether the destination may alias them
  dsts : List (Nat × Nat)        -- destination pointers and widths
  work : Nat                     -- work planes at PP14
  exc : Bool                     -- the five exception planes at PP15
  ext : Bool                     -- +X
  cyc : Nat                      -- formula count (R244)
deriving DecidableEq, Repr

/-- Fields that an opcode does not use are 0, and MOD bits outside `mask` are 0 (R239). -/
def onlyUses (w : Word) (pd pa pb wm : Bool) (mask : Nat) : Bool :=
  (pd || decide (mPD w = 0)) && (pa || decide (mPA w = 0)) && (pb || decide (mPB w = 0)) && (wm || decide (fld w 6 6 = 0))
    && decide (mMod w &&& (63 - mask) = 0)

/-- A width in a range. -/
def wIn (lo hi w : Nat) : Bool := decide (lo ≤ w) && decide (w ≤ hi)

/-- A row of the tables with no extension word and no exception planes. -/
def miPlain (ok wok : Bool) (srcs : List (Nat × Nat × Bool)) (dsts : List (Nat × Nat)) (work cyc : Nat) :
    Option MacroInfo :=
  some { ok := ok, wok := wok, srcs := srcs, dsts := dsts, work := work, exc := false, ext := false, cyc := cyc }

/-- A floating-point row. -/
def miFp (ok wok : Bool) (srcs : List (Nat × Nat × Bool)) (dsts : List (Nat × Nat)) (work cyc : Nat) :
    Option MacroInfo :=
  some { ok := ok, wok := wok, srcs := srcs, dsts := dsts, work := work, exc := true, ext := false, cyc := cyc }

/-- A row marked +X. -/
def miExt (ok wok : Bool) (srcs : List (Nat × Nat × Bool)) (dsts : List (Nat × Nat)) (cyc : Nat) : Option MacroInfo :=
  some { ok := ok, wok := wok, srcs := srcs, dsts := dsts, work := 0, exc := false, ext := true, cyc := cyc }

/-- Cost of an ANY at the scope given, on a member of a group or not (R244). -/
def kA (g grpScope : Bool) : Nat := if g && grpScope then 16 else 4

/-- Cost of a TALLY. -/
def kT (g grpScope : Bool) : Nat := if g && grpScope then 24 else 12

/-- Control and mask opcodes. -/
def infoCtl (w : Word) : Option MacroInfo :=
  let a : List (Nat × Nat × Bool) := [(mPA w, 1, false)]
  match mOp w with
  | 0x00 => miPlain (onlyUses w false false false false 0) true [] [] 0 1
  | 0x01 => miPlain (decide (mPA w = 0) && decide (mPB w = 0) && decide (mImm w < 2048)) true [] [] 0 1
  | 0x02 => miPlain (decide (mPB w = 0)) true [] [] 0 1
  | 0x03 => miPlain (onlyUses w false false false false 7 && decide (mMod w ≤ 4)) true [] [] 0 1
  | 0x04 => miPlain (onlyUses w false false false false 0) true [] [] 0 2
  | 0x10 => miPlain (onlyUses w false false false false 0) true [] [] 0 2
  | 0x11 => miPlain (onlyUses w false true false false 0) true a [] 0 2
  | 0x12 => miPlain (onlyUses w false true false false 1) true a [] 0 2
  | 0x13 => miPlain (onlyUses w false true false false 0) true a [] 0 2
  | 0x14 => miPlain (onlyUses w false false false false 0) true [] [] 0 2
  | 0x15 => miPlain (onlyUses w true false false false 0) true [] [(mPD w, 1)] 0 2
  | 0x16 => miPlain (onlyUses w false false false false 1) true [] [] 0 2
  | 0x17 => miPlain (onlyUses w false true false false 0) true a [] 0 2
  | 0x18 => miPlain (onlyUses w true false false false 0) true [] [(mPD w, 1)] 0 2
  | _ => none

/-- Bitwise and field opcodes, and NSHF. -/
def infoField (g : Bool) (w : Word) : Option MacroInfo :=
  let n := mW w
  let d := [(mPD w, n)]
  let a : List (Nat × Nat × Bool) := [(mPA w, n, true)]
  let ab : List (Nat × Nat × Bool) := [(mPA w, n, true), (mPB w, n, true)]
  match mOp w with
  | 0x20 => miPlain (onlyUses w true true false true 0) true a d 0 (n + 1)
  | 0x21 => miPlain (onlyUses w true true true true 15) true ab d 0 (n + 2)
  | 0x22 => miPlain (onlyUses w true true true true 0) true ab d 0 (n + 2)
  | 0x23 => miPlain (onlyUses w true false false true 1) true [] d 0 (n + 1)
  | 0x24 => miExt (onlyUses w true false false true 0) (wIn 1 32 n) [] d (n + 1)
  | 0x25 => miPlain (onlyUses w true true true true 63 && decide (mPB w ≤ 2)) true a d 0 (n + 1)
  | 0x26 => miPlain (onlyUses w true true true true 63 && decide (mPB w ≤ 1)) (decide (n + mMod w ≤ 64)) a
      [(mPD w, n + mMod w)] 0 (n + mMod w + 1)
  | 0x40 =>
    let x := g && decide (2 ≤ fld w 2 2)
    miPlain (onlyUses w true true true true 15) true a d 0
      (n * (mPB w + 1) * (if x then 24 else 1) + (if x then 256 else 0) + 1)
  | _ => none

/-- Integer opcodes. -/
def infoInt (w : Word) : Option MacroInfo :=
  let n := mW w
  let d := [(mPD w, n)]
  let a : List (Nat × Nat × Bool) := [(mPA w, n, true)]
  let ab : List (Nat × Nat × Bool) := [(mPA w, n, true), (mPB w, n, true)]
  let xy : List (Nat × Nat × Bool) := [(mPA w, n, false), (mPB w, n, false)]
  match mOp w with
  | 0x30 => miPlain (onlyUses w true true true true 0) true ab d 0 (n + 2)
  | 0x31 => miPlain (onlyUses w true true true true 0) true ab d 0 (n + 2)
  | 0x32 => miExt (onlyUses w true true false true 0) true a d (n + 2)
  | 0x33 => miExt (onlyUses w true true false true 0) true a d (n + 2)
  | 0x34 => miPlain (onlyUses w true true false true 0) true a d 0 (n + 2)
  | 0x35 => miPlain (onlyUses w true true true true 1) true ab d 0 (2 * n + 3)
  | 0x36 => miPlain (onlyUses w true true true true 1) true ab d 0 (2 * n + 3)
  | 0x37 => miPlain (onlyUses w true true false true 0) true a d 0 (2 * n + 3)
  | 0x38 => miPlain (onlyUses w false true true true 7 && decide (mMod w % 4 ≠ 3)) true xy [] 0 (n + 2)
  | 0x39 => miExt (onlyUses w false true false true 7 && decide (mMod w % 4 ≠ 3)) true [(mPA w, n, false)] [] (n + 2)
  | 0x3A => miPlain (onlyUses w true true true true 3) true ab d 0 (2 * n + 3)
  | 0x3B => miPlain (onlyUses w true true true true 0) (wIn 1 32 n) xy [(mPD w, 2 * n)] 0 (n * (n + 2))
  | 0x3C => miPlain (onlyUses w true true true true 0) (wIn 1 32 n) xy [(mPD w, 2 * n)] 0 (n * (n + 2))
  | 0x3D => miPlain (onlyUses w true true true true 0) (wIn 2 32 n) xy d (2 * n) (n * (n + 2) + n + 3)
  | 0x3E => miPlain (onlyUses w true true true true 15) (wIn 1 32 n) xy [(mPD w, n), (mMod w % 16, n)] (n + 1)
      (n * (2 * n + 2) + 2)
  | _ => none

/-- Reduction and transfer opcodes. -/
def infoRed (g : Bool) (w : Word) : Option MacroInfo :=
  let n := mW w
  let m := mMod w
  match mOp w with
  | 0x50 => miPlain (onlyUses w false true false false 1) true [(mPA w, 1, false)] [] 0 (2 + kA g (m.testBit 0))
  | 0x51 => miPlain (onlyUses w false true false false 1) true [(mPA w, 1, false)] [] 0 (2 + kT g (m.testBit 0))
  | 0x52 => miPlain (onlyUses w false true false true 1) (wIn 1 16 n) [(mPA w, n, false)] []
      0 (n * (kT g (m.testBit 0) + 1) + 2)
  | 0x53 => miPlain (onlyUses w false true false true 7) (wIn 1 32 n) [(mPA w, n, false)] []
      0 (n * (kA g (m.testBit 2) + 3) + 2)
  | 0x60 => miExt (onlyUses w true false false true 31) (wIn 1 32 n && decide (m + n ≤ 32)) [] [(mPD w, n)] (128 * n)
  | 0x61 => miExt (onlyUses w false true false true 1) (wIn 1 32 n) [(mPA w, n, false)] [] (128 * n)
  | 0x62 => miExt (onlyUses w true false false true 0) true [] [(mPD w, n)] (128 * n)
  | 0x63 => miExt (onlyUses w false true false true 0) true [(mPA w, n, false)] [] (128 * n)
  | _ => none

/-- Floating-point opcodes. -/
def infoFp (w : Word) : Option MacroInfo :=
  let n := mW w
  let c := mMod w % 16
  let two (k : Nat) (al : Bool) : List (Nat × Nat × Bool) := [(mPA w, k, al), (mPB w, k, al)]
  let one (k : Nat) : List (Nat × Nat × Bool) := [(mPA w, k, false)]
  match mOp w with
  | 0x70 => miFp (onlyUses w true true true false 1) true (two 32 true) [(mPD w, 32)] 64 820
  | 0x71 => miFp (onlyUses w true true true false 0) true (two 32 true) [(mPD w, 32)] 96 1260
  | 0x72 => miFp (onlyUses w true true true false 63) true (two 32 true ++ [(c, 32, true)]) [(mPD w, 32)] 128 1920
  | 0x73 => miFp (onlyUses w false true true false 7) true (two 32 false) [] 8 72
  | 0x74 => miFp (onlyUses w true true false true 1) true (one n) [(mPD w, 32)] 8 (20 * n + 32)
  | 0x75 => miFp (onlyUses w true true false true 1) true (one 32) [(mPD w, n)] 8 (20 * n + 48)
  | 0x76 => miFp (onlyUses w true true true false 1) true (two 64 true) [(mPD w, 64)] 128 2780
  | 0x77 => miFp (onlyUses w true true true false 0) true (two 64 true) [(mPD w, 64)] 192 4360
  | 0x78 => miFp (onlyUses w true true true false 63) true (two 64 true ++ [(c, 64, true)]) [(mPD w, 64)] 256 6880
  | 0x79 => miFp (onlyUses w false true true false 7) true (two 64 false) [] 8 136
  | 0x7A => miFp (onlyUses w true true false true 1) true (one n) [(mPD w, 64)] 16 (40 * n + 64)
  | 0x7B => miFp (onlyUses w true true false true 1) true (one 64) [(mPD w, n)] 16 (40 * n + 96)
  | 0x7C => miFp (onlyUses w true true false false 0) true (one 32) [(mPD w, 64)] 16 100
  | 0x7D => miFp (onlyUses w true true false false 0) true (one 64) [(mPD w, 32)] 32 180
  | _ => none

/-- The row of a vendor opcode, `none` when it is unassigned. -/
def vendorInfo (g : Bool) (w : Word) : Option MacroInfo :=
  let o := mOp w
  if o < 0x20 then infoCtl w
  else if o < 0x30 ∨ o = 0x40 then infoField g w
  else if o < 0x40 then infoInt w
  else if o < 0x70 then infoRed g w
  else infoFp w

/-- Formula count of a user routine at a width (R248, R278). -/
def userCycles (g : Bool) (b : Bind) (w : Nat) : Nat :=
  b.k0 + b.k1 * w + b.k2 * w * w + (b.kc0 + b.kc1 * w) * (if g then 24 else 1)
    + (b.ka0 + b.ka1 * w) * (if g then 16 else 4) + (b.kt0 + b.kt1 * w) * (if g then 24 else 12)
    + (if g && b.cross then 256 else 0)

/-- The width that a user macro names: 0 in format P (R278). -/
def userW (b : Bind) (w : Word) : Nat := if b.attr.testBit 0 then 0 else mW w

/-- What a routine's descriptor says of a user macro (R248). -/
def userInfo (g : Bool) (b : Bind) (w : Word) : MacroInfo :=
  let n := userW b w
  let u := b.uses
  let fmtP := b.attr.testBit 0
  { ok := if fmtP then (u.testBit 0 || decide (mPD w = 0)) && (u.testBit 1 || decide (mPA w = 0)) && decide (mPB w = 0)
      else onlyUses w (u.testBit 0) (u.testBit 1) (u.testBit 2) (u.testBit 3) (b.modDef % 64),
    wok := fmtP || wIn b.wmin b.wmax n,
    srcs := (if u.testBit 1 then [(mPA w, n, b.alias_.testBit 0)] else []) ++
      (if u.testBit 2 then [(mPB w, n, b.alias_.testBit 1)] else []),
    dsts := if u.testBit 0 then [(mPD w, n)] else [],
    work := b.nwork, exc := false, ext := b.attr.testBit 1, cyc := userCycles g b n }

/-- The image through which the programs of the frame with count `c` resolve user opcodes in partition p (R280). -/
def frameImg (s : State) (p : Nat) (c : BitVec 48) : Option TopImg :=
  match tfind s.arr.topFrame p with
  | some f => if c.toNat ≤ f.toNat then tfind s.arr.topPrev p else tfind s.arr.top p
  | none => tfind s.arr.top p

/-- The row of a macro word for a program of partition p under an image (R237, rows 1 to 3); otherwise the reason. -/
def wordInfo (g : Bool) (img : Option TopImg) (w : Word) : Except Nat MacroInfo :=
  let o := mOp w
  if 0xF0 ≤ o then .error 1
  else if o < 0x80 then
    match vendorInfo g w with
    | some i => .ok i
    | none => .error 2
  else
    match img.bind (fun t => tfind t.binds o) with
    | some b => .ok (userInfo g b w)
    | none => .error 3

/-- Value of plane pointer PPi (R231). -/
def pp (s : State) (i : Nat) : Nat := tget 0 s.arr.pp i

/-- Two fields share a plane (R240). -/
def shares (p1 w1 p2 w2 : Nat) : Bool :=
  decide (0 < w1) && decide (0 < w2) &&
    (decide ((p2 + 2048 - p1) % 2048 < w1) || decide ((p1 + 2048 - p2) % 2048 < w2))

/-- The operand fields as first planes and widths, destinations first. -/
def macroFields (s : State) (i : MacroInfo) : List (Nat × Nat) :=
  i.dsts.map (fun d => (pp s d.1, d.2)) ++ i.srcs.map (fun x => (pp s x.1, x.2.1))

/-- The fields overlap in a way that R240 forbids. -/
def overlapBad (s : State) (i : MacroInfo) : Bool :=
  let fs := macroFields s i
  let wk := pp s 14
  let ex := pp s 15
  i.dsts.any (fun d => i.srcs.any (fun x =>
    shares (pp s d.1) d.2 (pp s x.1) x.2.1 && !(x.2.2 && decide (pp s d.1 = pp s x.1)))) ||
  (match i.dsts with
   | [d, e] => shares (pp s d.1) d.2 (pp s e.1) e.2
   | _ => false) ||
  fs.any (fun f => shares f.1 f.2 wk i.work || (i.exc && shares f.1 f.2 ex 5)) ||
  (i.exc && shares wk i.work ex 5)

/-- The planes of fields given by first plane and width. -/
def planesOf (l : List (Nat × Nat)) : List Nat :=
  l.flatMap (fun f : Nat × Nat => (List.range f.2).map (fun k => (f.1 + k) % 2048))

/-- The exception planes of a macro, as a field. -/
def excField (s : State) (i : MacroInfo) : List (Nat × Nat) := if i.exc then [(pp s 15, 5)] else []

/-- Every plane that a macro's fields, work planes and exception planes reach. -/
def macroPlanes (s : State) (i : MacroInfo) : List Nat :=
  planesOf (macroFields s i ++ [(pp s 14, i.work)] ++ excField s i)

/-- The planes that a macro reads: sources, exception planes and work planes. -/
def macroReads (s : State) (i : MacroInfo) : List Nat :=
  planesOf (i.srcs.map (fun x => (pp s x.1, x.2.1)) ++ excField s i ++ [(pp s 14, i.work)])

/-- The extension word of a transfer obeys R241. -/
def xferOk (s : State) (q : Nat) (w x : Word) : Bool :=
  let a := x.toNat
  let o := mOp w
  let n := if o ≤ 0x61 then 65536 else 2048 * mW w
  decide (a % 4 = 0) &&
  (if o = 0x60 ∨ o = 0x62 then
    inArea (0x70000000, 0x40000) a n || inArea (0x70040000, 0x40000) a n || inArea (keepArea s q) a n ||
      inArea (xchArea s q) a n
   else inArea (xchArea s q) a n)

/-- The macro at the head of the queue, with what its issue gives: a trap reason, or the row of its opcode and its
extension word; `none` while it waits for its extension word (R235, R237). -/
def issue (s : State) (k : Comp) (w : Word) (rest : List Word) : Option (Except Nat (MacroInfo × Word)) :=
  match wordInfo (grouped s) (frameImg s (fpPart k.fp) k.count) w with
  | .error r => some (.error r)
  | .ok i =>
    if !i.ok then some (.error 4)
    else if !i.wok then some (.error 5)
    else if overlapBad s i then some (.error 6)
    else if i.ext && rest.isEmpty then (if k.handlerDone then some (.error 8) else none)
    else
      let x := if i.ext then rest.headD 0 else 0
      if decide (0x60 ≤ mOp w) && decide (mOp w ≤ 0x63) && !xferOk s (fpPart k.fp) w x then some (.error 7)
      else if s.arr.allow < i.cyc then some (.error 9)
      else some (.ok (i, x))

/-- A trap at issue (R237, R238). -/
def macroTrap (s : State) (fp : Nat) (w : Word) (reason : Nat) : State :=
  let v := w.toNat + reason * 2 ^ 32 + fpPart fp * 2 ^ 36 + fp * 2 ^ 38 + s.arr.retired % 65536 * 2 ^ 42
  let s1 := setFlag (wr64 s 0x0508 v) 0x0504 6
  let s2 := sticky0 s1 1 (leBytes 8 v)
  let s3 := traceEvent (traceArr s2 fp 8 (w.toNat + fp * 2 ^ 32 + reason * 2 ^ 36)) (fpPart fp) 4
  faultComp s3 1

/-- The words D0 to D7 that the handler left for the reply (R454). -/
def slotBody (s : State) (k : Comp) : List Word :=
  match findFrame s k.count with
  | some f => ((f.slots.find? (fun x => x.fp = k.fp)).map (fun x => x.body)).getD []
  | none => []

/-- The computation ends when the handler has returned and every queued macro has retired (R109, R236). -/
def compEnd (s : State) : State :=
  match s.frm.comp with
  | some k =>
    if k.handlerDone && s.arr.queue.isEmpty && s.arr.run.isNone then
      let rev := (findFrame s k.count).map (fun f => f.reversed) |>.getD false
      endComp s (if rev then 0x25 else 0) 0 (slotBody s k)
    else s
  | none => s

/-- A macro of `n` queue words retires (R234); the computation may end. -/
def retire (s : State) (n : Nat) : State :=
  compEnd { s with arr := { s.arr with
    queue := s.arr.queue.drop n, retired := (s.arr.retired + 1) % 65536, run := none } }

/-- Event 3 when a macro with OPC = CMP issues (R596), and its AMAC entry (R586). -/
def traceMacro (s : State) (fp : Nat) (w : Word) : State :=
  let p := fpPart fp
  let s1 := if fld (trcCtl s p 0x20) 0 8 = mOp w then traceEvent s p 3 else s
  traceArr s1 fp 8 (w.toNat + fp * 2 ^ 32)

/-- X and Y cleared in the PEs of `mask` at END (R242). -/
def clearXY (s : State) (mask : Plane) : State :=
  { s with arr := { s.arr with x := s.arr.x &&& ~~~mask, y := s.arr.y &&& ~~~mask } }

/-- A vendor macro of opcode `op` at the head of the queue runs from issue to END: `body` gives its own effect on the
planes, flags and results from its word and extension word (R234, R237 to R244, R728, R729). -/
def vendorMacro (op : Nat) (s : State) (body : State → Nat → Word → Word → State) : State :=
  match s.frm.comp, s.arr.run, s.arr.queue with
  | some k, none, w :: rest =>
    if mOp w ≠ op then s
    else
      match issue s k w rest with
      | none => s
      | some (.error r) => macroTrap s k.fp w r
      | some (.ok (i, x)) =>
        let s1 := traceMacro { s with arr := { s.arr with allow := s.arr.allow - i.cyc } } k.fp w
        if (macroPlanes s i).any (fun p => !inRange s (fpPart k.fp) p) then rangeFault s1
        else
          match parityHit s1 (macroReads s i) with
          | some p => parityFault s1 k.fp p
          | none =>
            let s2 := body s1 k.fp w x
            let s3 := forEach (List.range i.work) s2 (fun t j => setPlane t (pp s 14 + j) (active s2) 0)
            let s4 := if i.cyc = 1 then s3 else clearXY s3 (active s3)
            if s4.frm.comp.isNone then s4 else retire s4 (if i.ext then 2 else 1)
  | _, _, _ => s

end Sys2Proof.Machine
end

