-- ==== Sys2Proof/Machine/Restart.lean ====
section
/-! DEFINITION. Restarts of a macro: the restart limit, the verdict of the check interval and sequencer faults (R252, R267
to R272, R558, R730, R731). -/

namespace Sys2Proof.Machine

open Sys2Proof

/-- Control store address of offset `upc` of partition p's image (R249, R279). -/
def topAddr (s : State) (p upc : Nat) : Nat := 0x1000 + 64 * fld (rd s (0x0520 + 4 * p)) 0 6 + upc

/-- V registers that a routine starts with (R250). -/
def startV (b : Bind) (w : Word) (pps : Tbl Nat) : Tbl Nat :=
  let g := fun i => tget 0 pps i
  let fmtP := b.attr.testBit 0
  [(0, g (mPD w)), (1, g (mPA w)), (2, if fmtP then mImm w % 2048 else g (mPB w)), (3, g 14), (4, g 15),
   (5, if fmtP then 0 else g (mMod w % 16))]

/-- The working state of a routine at its first microword (R250, R270). -/
def Routine.reload (r : Routine) : Routine :=
  { r with upc := r.bind.entry, v := startV r.bind r.word r.pps, l := [], stack := [], wres := false, committed := false,
           crossed := false, held := false, wait := none }

/-- C, T, M, X and Y restored from the shadow bits (R251, R270). -/
def unshadow (s : State) (sh : Tbl (BitVec 16384)) : State :=
  { s with arr := { s.arr with c := tget 0 sh 0, t := tget 0 sh 1, m := tget 0 sh 2, x := tget 0 sh 3, y := tget 0 sh 4 } }

/-- A restartable event of FPk: `cause` 1 array interrupt, 2 sequencer fault. The routine starts again, or, at the third
event, the program's computation ends (R270, R272). -/
def restartEvent (s : State) (fp cause uaddr : Nat) : State :=
  if 2 ≤ s.arr.restarts then faultComp (setFlag (faultInfo s 4 fp 0 uaddr) 0x0504 2) 6
  else
    let n := s.arr.restarts + 1
    let s1 := wr s 0x0518 (BitVec.ofNat 32 (satAdd 0xFFFF (fld (rd s 0x0518) 0 16) 1))
    let s2 := { s1 with arr := { s1.arr with restarts := n, run := s1.arr.run.map (fun r => r.reload) } }
    let s3 := match s.arr.run with
      | some r => unshadow s2 r.shadow
      | none => s2
    traceArr { s3 with grp := { s3.grp with rx := [] } } fp 9 (uaddr + cause * 2 ^ 13 + n * 2 ^ 15 + fp * 2 ^ 17)

/-- An array interrupt: GRP_RSTREQ counts it and the routine restarts (R269, R558). -/
def arrayInterrupt (s : State) (fp uaddr : Nat) : State := restartEvent (satReg s 0x0C20 1) fp 1 uaddr

/-- The verdict at the last cycle of a check interval; the leader's own stands at continue until an error is reported
(R558). -/
def verdict (s : State) : Option Bool :=
  if s.grp.role = 1 then some (s.grp.verdict != some false) else s.grp.verdict

/-- The check interval of a macro that has made a cross-chip step: it continues with `k`, restarts, or, with no correct
verdict, the program is abandoned (R252, R558, R559). -/
def checkInterval (s : State) (fp uaddr : Nat) (k : State → State) : State :=
  let s1 := { s with grp := { s.grp with verdict := none, rx := [] } }
  match verdict s with
  | some true => k s1
  | some false => arrayInterrupt s1 fp uaddr
  | none => faultComp s1 13

/-- The vendor macro that stands at the head of the queue and passes its issue checks, with its row. -/
def headMacro (s : State) : Option (Comp × Word × MacroInfo) :=
  match s.frm.comp, s.arr.run, s.arr.queue with
  | some k, none, w :: rest =>
    match issue s k w rest with
    | some (.ok (i, _)) => if mOp w < 0x80 then some (k, w, i) else none
    | _ => none
  | _, _, _ => none

/-- A vendor macro has a COMMIT: it takes more than 2 ac and writes an aliased destination or an exception plane
(R730). -/
def vendorCommits (s : State) (i : MacroInfo) : Bool :=
  decide (2 < i.cyc) && (i.exc ||
    i.dsts.any (fun d => i.srcs.any (fun x => shares (pp s d.1) d.2 (pp s x.1) x.2.1)))

/-- A sequencer fault of a routine that has, or has not, committed (R269 to R272). -/
def seqFault (s : State) (fp uaddr : Nat) (committed : Bool) : State :=
  let kind := if committed then 3 else if 2 ≤ s.arr.restarts then 4 else 2
  let s1 := faultInfo (setFlag s 0x0504 1) kind fp 0 uaddr
  let s2 := sticky0 s1 3 (leBytes 8 (rd64 s1 0x0510))
  if committed then faultComp s2 5 else restartEvent s2 fp 2 uaddr

/-- SEQUENCER_FAULT (R269 to R272, R730, R731): a parity error in the working state of the routine that runs. -/
def execSequencerFault (s : State) : Host.Outcome State Fault Refusal :=
  .next (match s.frm.comp, s.arr.run with
    | some k, some r => seqFault s k.fp (topAddr s (fpPart k.fp) r.upc) r.committed
    | _, _ =>
      match headMacro s with
      | some (k, _, i) =>
        useFree (seqFault s k.fp (Config.romAddr s.free).toNat (vendorCommits s i && Config.vendorCommitted s.free))
      | none => s)

end Sys2Proof.Machine
end

