-- ==== Sys2Proof/Machine/Microcode.lean ====
section
/-! DEFINITION. User macros and the microwords of Topiary routines (R247 to R268, R285). -/

namespace Sys2Proof.Machine

open Sys2Proof

/-- The running routine replaced. -/
def setRun (s : State) (r : Routine) : State := { s with arr := { s.arr with run := some r } }

/-- The planes of a user macro's scratch set: its work planes and each destination that shares no plane with a source
(R264). -/
def scratchSet (s : State) (i : MacroInfo) : List Nat :=
  planesOf ([(pp s 14, i.work)] ++ (i.dsts.map (fun d => (pp s d.1, d.2))).filter (fun d =>
    !i.srcs.any (fun x => shares d.1 d.2 (pp s x.1) x.2.1)))

/-- A user macro issues: the working state, the shadow bits and the scratch set of its routine (R250, R251, R264). -/
def startRoutine (s : State) (b : Bind) (i : MacroInfo) (w x : Word) : State :=
  setRun { s with grp := { s.grp with rx := [] } } (Routine.reload {
    word := w, ext := x, bind := b, upc := 0, v := [], l := [], stack := [], wres := false, committed := false,
    pps := s.arr.pp, rm := s.arr.rm, scratch := scratchSet s i,
    shadow := [(0, s.arr.c), (1, s.arr.t), (2, s.arr.m), (3, s.arr.x), (4, s.arr.y)],
    crossed := false, held := false, wait := none })

/-- USER_OPCODE (R237 to R243, R247 to R251): the word at the head of the queue is not a vendor opcode; the routine bound
to it starts, or the macro traps. -/
def execUserOpcode (s : State) : Host.Outcome State Fault Refusal :=
  .next (match s.frm.comp, s.arr.run, s.arr.queue with
    | some k, none, w :: rest =>
      if decide (mOp w < 0x80) && (vendorInfo (grouped s) w).isSome then s
      else
        match issue s k w rest, (frameImg s (fpPart k.fp) k.count).bind (fun t => tfind t.binds (mOp w)) with
        | some (.error r), _ => macroTrap s k.fp w r
        | some (.ok (i, x)), some b =>
          startRoutine (traceMacro { s with arr := { s.arr with allow := s.arr.allow - i.cyc } } k.fp w) b i w x
        | _, _ => s
    | _, _, _ => s)

/-- A field of a microword. -/
def mwf (w : BitVec 40) (lo n : Nat) : Nat := bits w.toNat lo n

/-- Class of a microword (R253). -/
def mwClass (w : BitVec 40) : Nat := mwf w 37 3

/-- CTLOP of a CTL microword, VOPC of a VOP microword. -/
def mwOp (w : BitVec 40) : Nat := mwf w 33 4

/-- The frame's programs of partition p run from the image before the last switch (R280). -/
def usesPrev (s : State) (p : Nat) (c : BitVec 48) : Bool :=
  match tfind s.arr.topFrame p with
  | some f => decide (c.toNat ≤ f.toNat)
  | none => false

/-- Key of a Topiary word's stored errors: word `upc` of partition p's active image, or of its previous one. -/
def topKey (prev : Bool) (p upc : Nat) : Nat := (if prev then 262144 else 0) + 65536 * p + upc

/-- The image of partition p that the frame uses, changed. -/
def modImg (s : State) (prev : Bool) (p : Nat) (f : TopImg → TopImg) : State :=
  if prev then
    match tfind s.arr.topPrev p with
    | some t => { s with arr := { s.arr with topPrev := tput s.arr.topPrev p (f t) } }
    | none => s
  else
    match tfind s.arr.top p with
    | some t => { s with arr := { s.arr with top := tput s.arr.top p (f t) } }
    | none => s

/-- An uncorrectable Topiary word is fetched: the opcode of its routine is unbound and the slot faults (R192, R285). -/
def topUe (s : State) (k : Comp) (r : Routine) : State :=
  let p := fpPart k.fp
  let ua := topAddr s p r.upc
  let s1 := modImg s (usesPrev s p k.count) p (fun t => { t with binds := tdel t.binds (mOp r.word) })
  let s2 := faultInfo (setFlag s1 0x0504 3) 5 k.fp 0 ua
  faultComp (sticky0 s2 6 (leBytes 4 ua ++ [2])) 12

/-- A corrected Topiary word is written back and counted (R192). -/
def topCorrect (s : State) (prev : Bool) (p upc m : Nat) : State :=
  let s1 := { s with arr := { s.arr with topErr := tdel s.arr.topErr (topKey prev p upc) } }
  let s2 := wr s1 0x0830 (setFld (rd s1 0x0830) 16 16 (satAdd 0xFFFF (fld (rd s1 0x0830) 16 16) 1))
  modImg s2 prev p (fun t => { t with words := tset 0 t.words upc (tget 0 t.words upc ^^^ BitVec.ofNat 40 m) })

/-- The microword at the running routine's address is fetched and, when `want` accepts it, executed (R252, R285). A
routine held in a WAIT fetches nothing. -/
def microStep (s : State) (want : BitVec 40 → Bool) (body : State → Comp → Routine → BitVec 40 → State) : State :=
  match s.frm.comp, s.arr.run with
  | some k, some r =>
    let p := fpPart k.fp
    let prev := usesPrev s p k.count
    let e := tget 0 s.arr.topErr (topKey prev p r.upc)
    match frameImg s p k.count, secded (topKey prev p r.upc) e with
    | none, _ => s
    | some _, none => if r.wait.isSome then s else topUe s k r
    | some t, some m =>
      let w := tget 0 t.words r.upc ^^^ BitVec.ofNat 40 m
      if r.wait.isSome || !want w then s
      else body (if e = 0 then s else topCorrect s prev p r.upc m) k r w
  | _, _ => s

/-- The routine continues at an offset. -/
def goTo (s : State) (r : Routine) (a : Nat) : State := setRun s { r with upc := a % 4096 }

/-- A CTL microword of operation `op`. -/
def ctlStep (op : Nat) (s : State) (body : State → Comp → Routine → BitVec 40 → State) : State :=
  microStep s (fun w => mwClass w == 0 && mwOp w == op) body

/-- Target of a CTL microword. -/
def mwTgt (w : BitVec 40) : Nat := mwf w 0 12

/-- A condition of BR (R254). -/
def brCond (s : State) (r : Routine) (c : Nat) : Bool :=
  if c = 0 then s.arr.any
  else if c = 1 then !s.arr.any
  else if c = 2 then decide (s.arr.tally = 0)
  else if c = 3 then decide (s.arr.tally ≠ 0)
  else if c = 4 then r.wres
  else if c = 5 then !r.wres
  else if c ≤ 0x0A then decide (r.rm = c - 6)
  else if c = 0x0B then grouped s
  else (mMod r.word).testBit (c - 0x0C)

/-- Width of the running macro. -/
def Routine.w (r : Routine) : Nat := userW r.bind r.word

/-- UW_NOP (R254). -/
def execUwNop (s : State) : Host.Outcome State Fault Refusal :=
  .next (ctlStep 0 s (fun s _ r _ => goTo s r (r.upc + 1)))

/-- JMP (R254). -/
def execUwJmp (s : State) : Host.Outcome State Fault Refusal :=
  .next (ctlStep 1 s (fun s _ r w => goTo s r (mwTgt w)))

/-- BR (R254, R263). -/
def execUwBr (s : State) : Host.Outcome State Fault Refusal :=
  .next (ctlStep 2 s (fun s _ r w => goTo s r (if brCond s r (mwf w 28 5) then mwTgt w else r.upc + 1)))

/-- The value that a LOOP gives its counter (R254). -/
def loopVal (width : Nat) (w : BitVec 40) : Nat := lowBits 13 (((mwf w 23 3 * width : Nat) : Int) + sInt 13 (mwf w 0 13))

/-- LOOP (R254). -/
def execUwLoop (s : State) : Host.Outcome State Fault Refusal :=
  .next (ctlStep 3 s (fun s _ r w => goTo s { r with l := tput r.l (mwf w 26 2) (loopVal r.w w) } (r.upc + 1)))

/-- LEND (R254). -/
def execUwLend (s : State) : Host.Outcome State Fault Refusal :=
  .next (ctlStep 4 s (fun s _ r w =>
    let n := (tget 0 r.l (mwf w 26 2) + 8191) % 8192
    goTo s { r with l := tput r.l (mwf w 26 2) n } (if n ≠ 0 then mwTgt w else r.upc + 1)))

/-- UW_CALL (R254). -/
def execUwCall (s : State) : Host.Outcome State Fault Refusal :=
  .next (ctlStep 5 s (fun s _ r w => goTo s { r with stack := (r.upc + 1) % 4096 :: r.stack } (mwTgt w)))

/-- UW_RET (R254). -/
def execUwRet (s : State) : Host.Outcome State Fault Refusal :=
  .next (ctlStep 6 s (fun s _ r _ => goTo s { r with stack := r.stack.drop 1 } (r.stack.headD 0)))

/-- A cross-chip step has been executed on a member of a group, so a check interval is due (R252). -/
def checkDue (s : State) (r : Routine) : Bool := grouped s && r.crossed

/-- COMMIT (R252, R254, R558): the commit point, after the check interval where one is due. -/
def execUwCommit (s : State) : Host.Outcome State Fault Refusal :=
  .next (ctlStep 7 s (fun s k r _ =>
    let go := fun s => goTo s { r with committed := true } (r.upc + 1)
    if checkDue s r then checkInterval s k.fp (topAddr s (fpPart k.fp) r.upc) go else go s))

/-- END (R252, R268, R271): the macro retires; an array interrupt held since COMMIT is taken before the next macro. -/
def execUwEnd (s : State) : Host.Outcome State Fault Refusal :=
  .next (ctlStep 8 s (fun s k r _ =>
    let go := fun s : State =>
      let s1 := retire s (if r.bind.attr.testBit 1 then 2 else 1)
      if r.held && s1.frm.comp.isSome then arrayInterrupt s1 k.fp (topAddr s (fpPart k.fp) r.upc) else s1
    if checkDue s r && !r.committed then checkInterval s k.fp (topAddr s (fpPart k.fp) r.upc) go else go s))

/-- Value of V register `i`. -/
def vreg (r : Routine) (i : Nat) : Nat := tget 0 r.v i

/-- The plane that a V register and its mode address (R255). -/
def vAddr (r : Routine) (i mode : Nat) : Nat :=
  if mode = 3 then (vreg r i + tget 0 r.l 0) % 2048 else vreg r i % 2048

/-- Post-modification of a V register. -/
def vPost (r : Routine) (i mode : Nat) : Routine :=
  if mode = 1 then { r with v := tput r.v i ((vreg r i + 1) % 2048) }
  else if mode = 2 then { r with v := tput r.v i ((vreg r i + 2047) % 2048) }
  else r

/-- The PEOP uses the bit that it reads (R256). -/
def readUsed (w : BitVec 40) : Bool :=
  decide (mwf w 26 1 = 0) || (decide (mwf w 3 2 ≠ 0) && decide (mwf w 1 2 = 3))

/-- A value chosen by a 2-bit destination code: 0 unchanged. -/
def pick4 (c : Nat) (old a b d : Plane) : Plane := if c = 0 then old else if c = 1 then a else if c = 2 then b else d

/-- The planes that a PEOP computes with: operands, sum, carry and logic, at the start of the cycle (R255). -/
structure PeIn where
  rd : Plane
  a : Plane
  sum : Plane
  carry : Plane
  logic : Plane

/-- The values of a PEOP for the bit read. -/
def peIn (s : State) (w : BitVec 40) (r : Plane) : PeIn :=
  let a := if mwf w 26 1 = 1 then s.arr.x else r
  let b := if mwf w 25 1 = 1 then s.arr.t else s.arr.y
  let c := s.arr.c
  let tt := fun n : Nat => if (mwf w 21 4).testBit n then BitVec.allOnes 16384 else (0 : Plane)
  { rd := r, a := a, sum := a ^^^ b ^^^ c, carry := (a &&& b) ||| (a &&& c) ||| (b &&& c),
    logic := (a &&& b &&& tt 3) ||| (a &&& ~~~b &&& tt 2) ||| (~~~a &&& b &&& tt 1) ||| (~~~a &&& ~~~b &&& tt 0) }

/-- Flags and latches written by a PEOP: C, T, X and Y in active PEs, M in every powered PE (R197, R255). -/
def peFlags (s : State) (w : BitVec 40) (v : PeIn) (y : Plane) : State :=
  let on := active s
  let a := s.arr
  { s with arr := { a with
      c := maskIn on a.c (pick4 (mwf w 12 2) a.c v.carry v.logic 0),
      t := maskIn on a.t (pick4 (mwf w 10 2) a.t v.sum v.logic v.carry),
      x := maskIn on a.x (pick4 (mwf w 8 2) a.x v.a v.sum v.logic),
      y := maskIn on a.y y,
      m := maskIn (powered s) a.m (pick4 (mwf w 6 2) a.m v.logic (BitVec.allOnes 16384) a.m) } }

/-- The reduction that a PEOP requests, on the values at the start of the cycle (R211, R212, R255). -/
def peReduce (s t : State) (fp : Nat) (w : BitVec 40) (r : Plane) (any : Bool) (tally : Nat) : State :=
  let src := match mwf w 1 2 with
    | 0 => s.arr.x
    | 1 => s.arr.c
    | 2 => s.arr.t
    | _ => r
  let g := decide (mwf w 0 1 = 1)
  match mwf w 3 2 with
  | 1 => recAny t fp (anyOf s src g any) g (decide (src &&& active s ≠ 0))
  | 2 => recTally t fp (tallyOf s src g tally)
  | _ => t

/-- A write outside the scratch set before COMMIT (R265). -/
def scratchViolation (s : State) (fp p ua : Nat) : State :=
  let s1 := faultInfo (setFlag s 0x0504 0) 1 fp p ua
  faultComp (sticky0 s1 2 (leBytes 8 (rd64 s1 0x0510))) 3

/-- The effects of a PEOP (R196, R197, R201, R204, R255, R256, R265). -/
def peStep (burst : BitVec 128) (any : Bool) (tally : Nat) (s : State) (k : Comp) (r : Routine) (w : BitVec 40) : State :=
  let q := fpPart k.fp
  let ua := topAddr s q r.upc
  let used := readUsed w
  let ra := vAddr r (mwf w 34 3) (mwf w 32 2)
  let wa := vAddr r (mwf w 29 3) (mwf w 27 2)
  let mem := mwf w 14 2
  let bad := (used && !inRange s q ra) || (decide (mem ≠ 0) && !inRange s q wa)
  let rbit : Plane := if used && !bad then plane s ra &&& powered s else 0
  let v := peIn s w rbit
  let nbr := mwf w 18 3
  let y := if nbr ≠ 0 then nbrX s s.arr.x nbr (mwf w 16 2) burst else if mwf w 5 1 = 1 then v.a else s.arr.y
  let scr := decide (mem ≠ 0) && !bad && !r.committed && !r.scratch.contains wa
  let s1 := if mem ≠ 0 ∧ !bad ∧ !scr then
      setPlane s wa (active s) (if mem = 1 then v.sum else if mem = 2 then v.carry else v.logic)
    else s
  let s2 := peReduce s (peFlags (if nbr ≠ 0 then burstRx s1 nbr (mwf w 16 2) [burst] else s1) w v y) k.fp w rbit any tally
  let r1 := vPost (vPost r (mwf w 34 3) (mwf w 32 2)) (mwf w 29 3) (mwf w 27 2)
  let s3 := goTo s2 { r1 with crossed := r1.crossed || (decide (nbr ≠ 0) && decide (2 ≤ mwf w 16 2)) } (r.upc + 1)
  let s4 := if bad then rangeFault s3 else s3
  let s5 := match (if used && !bad then parityHit s [ra] else none) with
    | some p => parityFault { s4 with arr := { s4.arr with perr := s.arr.perr } } k.fp p
    | none => s4
  if scr then scratchViolation s5 k.fp wa ua else s5

/-- PEOP (R255): `burst` is the column that the linked chip sends, `any` and `tally` what the other members of a group
give a group-scope reduction. -/
def execUwPeop (burst : BitVec 128) (any : Bool) (tally : Nat) (s : State) : Host.Outcome State Fault Refusal :=
  .next (microStep s (fun w => mwClass w == 1) (peStep burst any tally))

/-- A VOP microword of operation `op` sets VD (R257). -/
def vopStep (op : Nat) (s : State) (f : Routine → BitVec 40 → Int) : State :=
  microStep s (fun w => mwClass w == 2 && mwOp w == op) (fun s _ r w =>
    goTo s { r with v := tput r.v (mwf w 30 3) (lowBits 11 (f r w)) } (r.upc + 1))

/-- VS of a VOP microword. -/
def mwVS (r : Routine) (w : BitVec 40) : Int := (vreg r (mwf w 27 3) : Nat)

/-- L[LSEL] of a VOP microword. -/
def mwL (r : Routine) (w : BitVec 40) : Int := (tget 0 r.l (mwf w 25 2) : Nat)

/-- MOVV (R257). -/
def execUwMovv (s : State) : Host.Outcome State Fault Refusal := .next (vopStep 0 s (fun r w => mwVS r w))

/-- VOP_ADDI (R257). -/
def execUwVopAddi (s : State) : Host.Outcome State Fault Refusal :=
  .next (vopStep 1 s (fun r w => mwVS r w + sInt 12 (mwf w 0 12)))

/-- ADDL (R257). -/
def execUwAddl (s : State) : Host.Outcome State Fault Refusal := .next (vopStep 2 s (fun r w => mwVS r w + mwL r w))

/-- SUBL (R257). -/
def execUwSubl (s : State) : Host.Outcome State Fault Refusal := .next (vopStep 3 s (fun r w => mwVS r w - mwL r w))

/-- SETI (R257). -/
def execUwSeti (s : State) : Host.Outcome State Fault Refusal :=
  .next (vopStep 4 s (fun _ w => ((mwf w 0 11 : Nat) : Int)))

/-- LDPP (R257): the pointer's value at issue. -/
def execUwLdpp (s : State) : Host.Outcome State Fault Refusal :=
  .next (vopStep 5 s (fun r w => ((tget 0 r.pps (mwf w 0 4) : Nat) : Int)))

/-- WAIT (R258): the wait begins. -/
def execUwWait (s : State) : Host.Outcome State Fault Refusal :=
  .next (microStep s (fun w => mwClass w == 3) (fun s _ r _ => setRun s { r with wait := some (s.now, s.frm.boundaries) }))

/-- The condition of a WAIT holds (R258). -/
def waitCond (s : State) (w : BitVec 40) : Bool :=
  let sel := mwf w 29 6
  match mwf w 35 2 with
  | 0 => s.ang.frameOpen && evtOn s s.ang.count48.toNat sel && decide (fld (evtA s sel) 0 20 < s.ang.fired)
  | 1 => let n := sel % 16
         decide (tget 0 ((s.arr.run.map (fun r => r.l)).getD []) 2 ≤ fillOf s n) && (ingesting s).isSome
  | _ => (s.grp.anyOd || s.grp.anyLine) == decide (mwf w 28 1 = 1)

/-- The angle limit of a WAIT is reached, or a frame boundary has occurred since it began (R258). -/
def waitLimit (s : State) (w : BitVec 40) (bnd : Nat) : Bool :=
  (decide (mwf w 8 20 ≠ 0) && s.ang.frameOpen && decide (mwf w 8 20 ≤ s.ang.phase)) || decide (s.frm.boundaries ≠ bnd)

/-- TO of a WAIT, in array cycles (R258). -/
def waitTo (w : BitVec 40) : Nat := (mwf w 0 5 + 1) * 2 ^ (2 * mwf w 5 3 + 4)

/-- The WAIT microword in progress, with its start and the boundaries before it. -/
def waiting (s : State) : Option (Routine × BitVec 40 × Nat × Nat) :=
  match s.frm.comp, s.arr.run with
  | some k, some r =>
    match r.wait, frameImg s (fpPart k.fp) k.count with
    | some (t, b), some img => some (r, tget 0 img.words r.upc, t, b)
    | _, _ => none
  | _, _ => none

/-- A WAIT ends: WRES is 1 if its condition holds, otherwise WAITTO is set (R258). -/
def endWait (s : State) (r : Routine) (ok : Bool) : State :=
  let s1 := goTo s { r with wres := ok, wait := none } (r.upc + 1)
  if ok then s1 else setFlag s1 0x0504 5

/-- WAIT_END (R258, R263): the condition holds, the angle limit is reached or a boundary has occurred. -/
def execUwWaitEnd (s : State) : Host.Outcome State Fault Refusal :=
  .next (match waiting s with
    | some (r, w, _, b) => if waitCond s w || waitLimit s w b then endWait s r (waitCond s w) else s
    | none => s)

/-- WAIT_TIMEOUT (R258): TO array cycles have elapsed without the condition. -/
def execUwWaitTimeout (s : State) : Host.Outcome State Fault Refusal :=
  .next (match waiting s with
    | some (r, w, t, _) =>
      if decide (200 * waitTo w ≤ (s.now - t) * s.pwr.arrClk) && !waitCond s w then endWait s r false else s
    | none => s)

end Sys2Proof.Machine
end

