-- ==== Sys2Proof/Machine/Cost.lean ====
section
/-! DEFINITION. The counts of a frame program and admission with new routines (R101, R103, R244, R274, R282, R377,
R509). -/

namespace Sys2Proof.Machine

open Sys2Proof

/-- The macro part M_k and the largest formula count of a macro table, `none` when a word has no row (R274, R509). -/
def macroPart (g : Bool) (img : Option TopImg) : List (Word × Nat) → Option (Nat × Nat)
  | [] => some (0, 0)
  | (w, n) :: ts =>
    match wordInfo g img w, macroPart g img ts with
    | .ok i, some (m, f) => some (m + n * i.cyc, max i.cyc f)
    | _, _ => none

/-- The interrupt allowance I_k (R377). -/
def intAllow (evmax v h : Nat) : Nat :=
  let u := evmax * (160 + v)
  u + 512 * cdiv (h + u) 7680

/-- C_k from its parts (R274, R509). -/
def countOf (mf : Nat × Nat) (h i : Nat) : Nat := mf.1 + 2 * (mf.2 + 4) + h + i

/-- A program priced with an image of its partition, `none` when the image no longer binds an opcode it uses. -/
def reprice (img : Option TopImg) (p : Prog) : Option Prog :=
  match macroPart false img p.table, macroPart true img p.table with
  | some a, some b =>
    some { p with mSolo := a.1, xSolo := 2 * (a.2 + 4), mGrp := b.1, xGrp := 2 * (b.2 + 4),
                  ck := countOf a p.h p.iCnt, ckg := countOf b p.h p.iCnt }
  | _, _ => none

/-- Every program of partition q that the image still serves is priced with it. -/
def repriceAll (s : State) (q : Nat) (img : Option TopImg) : State :=
  forEach fpNums s (fun t k =>
    if fpPart k = q && (prog t k).loaded then
      match reprice img (prog t k) with
      | some p => setProg t k p
      | none => t
    else t)

/-- The first enabled program of partition q that an image leaves without a binding (R282, R490). -/
def unboundFp (s : State) (q : Nat) (img : Option TopImg) : Option Nat :=
  fpNums.find? (fun k => fpPart k == q && (prog s k).enabled && (reprice img (prog s k)).isNone)

/-- DETAIL of NOT_ADMITTED when partition q's programs run with an image, `none` when the set is admitted (R282). -/
def topAdmit (s : State) (q : Nat) (img : Option TopImg) : Option Nat :=
  match unboundFp s q img with
  | some k => some (k + 4 * 16)
  | none => (admitNow (repriceAll s q img)).map admitDetail

end Sys2Proof.Machine
end

