-- ==== Sys2Proof/Machine/TopiaryCheck.lean ====
section
/-! DEFINITION. Topiary images: their layout, their verification and the binding of their routines (R252 to R262, R267,
R277 to R286). -/

namespace Sys2Proof.Machine

open Sys2Proof

/-- MAGIC of a Topiary image (R277). -/
def topMagic : List Byte := [0x54, 0x50, 0x52, 0x59]

/-- NROUT of an image. -/
def topNrout (im : List Byte) : Nat := entryNat im 0x1C 2

/-- NWORDS of an image. -/
def topNwords (im : List Byte) : Nat := entryNat im 0x1E 2

/-- Offset of descriptor i in the image. -/
def descOff (i : Nat) : Nat := 96 + 40 * i

/-- Offset of microword i in the image. -/
def mwOff (im : List Byte) (i : Nat) : Nat := 96 + 40 * topNrout im + 8 * i

/-- Microword i of the image. -/
def imgMw (im : List Byte) (i : Nat) : BitVec 40 := BitVec.ofNat 40 (entryNat im (mwOff im i) 8)

/-- The descriptor at offset `o`; `cross` when the routine contains a PEOP with NBR not 0 and EDGE 2 or 3 (R278). -/
def readBind (im : List Byte) (o : Nat) : Bind :=
  let e := entryNat im
  { entry := e o 2, len := e (o + 2) 2, attr := e (o + 5) 1, uses := e (o + 6) 1, modDef := e (o + 7) 1,
    wmin := e (o + 8) 1, wmax := e (o + 9) 1, alias_ := e (o + 10) 1, nwork := e (o + 12) 2, k0 := e (o + 16) 4,
    k1 := e (o + 20) 4, k2 := e (o + 24) 2, kc0 := e (o + 26) 2, kc1 := e (o + 28) 2, ka0 := e (o + 30) 2,
    ka1 := e (o + 32) 2, kt0 := e (o + 34) 2, kt1 := e (o + 36) 2,
    cross := (List.range (e (o + 2) 2)).any (fun j => let w := imgMw im (e o 2 + j)
      decide (mwClass w = 1) && decide (mwf w 18 3 ≠ 0) && decide (2 ≤ mwf w 16 2)) }

/-- The image that a load brings into force (R279, R280). -/
def readTop (im : List Byte) : TopImg :=
  { crc := BitVec.ofNat 32 (entryNat im 0x24 4), nrout := topNrout im, nwords := topNwords im,
    words := (List.range (topNwords im)).foldl (fun t i => tset 0 t i (imgMw im i)) [],
    binds := (List.range (topNrout im)).foldl (fun t i =>
      tput t (entryNat im (descOff i + 4) 1) (readBind im (descOff i))) [] }

/-- A CTL microword is a defined encoding (R253, R254). -/
def ctlDefined (w : BitVec 40) : Bool :=
  let o := mwOp w
  let z := fun lo n => decide (mwf w lo n = 0)
  decide (o ≤ 8) && z 13 10 &&
  (decide (o = 2) || z 28 5) && (decide (o = 3) || decide (o = 4) || z 26 2) && (decide (o = 3) || z 23 3) &&
  (decide (1 ≤ o ∧ o ≤ 5) || z 0 13) && (decide (o ≠ 2) || decide (mwf w 28 5 ≤ 0x11)) &&
  (decide (o ≠ 3) || decide (mwf w 23 3 ≤ 2))

/-- A PEOP is a defined encoding (R253, R256). -/
def peopDefined (w : BitVec 40) : Bool :=
  let z := fun lo n => decide (mwf w lo n = 0)
  let pm := fun lo => decide (mwf w lo 2 = 1 ∨ mwf w lo 2 = 2)
  decide (mwf w 18 3 ≤ 4) && decide (mwf w 6 2 ≠ 3) && decide (mwf w 3 2 ≠ 3) &&
  (z 5 1 || z 18 3) && (z 16 2 || !z 18 3) && (z 0 1 || !z 3 2) && (z 3 2 || z 18 3) && (!z 3 2 || z 1 2) &&
  (readUsed w || (z 34 3 && z 32 2)) && (!z 14 2 || (z 29 3 && z 27 2)) &&
  !(decide (mwf w 34 3 = mwf w 29 3) && pm 32 && pm 27)

/-- A VOP microword is a defined encoding (R253, R257). -/
def vopDefined (w : BitVec 40) : Bool :=
  let o := mwOp w
  let z := fun lo n => decide (mwf w lo n = 0)
  decide (o ≤ 5) && z 12 13 && (decide (o ≤ 3) || z 27 3) && (decide (o = 2) || decide (o = 3) || z 25 2) &&
  (decide (o = 1) || decide (o = 4) || decide (o = 5) || z 0 12) && (decide (o ≠ 4) || z 11 1) &&
  (decide (o ≠ 5) || z 4 8)

/-- A WAIT is a defined encoding (R253, R258). -/
def waitDefined (w : BitVec 40) : Bool :=
  let k := mwf w 35 2
  decide (k ≤ 2) && (decide (k = 2) || decide (mwf w 28 1 = 0)) && (decide (k ≠ 1) || decide (mwf w 33 2 = 0)) &&
  (decide (k ≠ 2) || decide (mwf w 29 6 = 0))

/-- A microword of a Topiary image is a defined encoding (R253, R256, R259). -/
def mwDefined (w : BitVec 40) : Bool :=
  match mwClass w with
  | 0 => ctlDefined w
  | 1 => peopDefined w
  | 2 => vopDefined w
  | 3 => waitDefined w
  | _ => false

/-- A BR on a data condition (R254). -/
def dataBr (w : BitVec 40) : Bool := decide (mwClass w = 0) && decide (mwOp w = 2) && decide (mwf w 28 5 ≤ 5)

/-- A microword with a target: JMP, BR, LEND and CALL. -/
def hasTgt (w : BitVec 40) : Bool :=
  decide (mwClass w = 0) && (decide (mwOp w = 1) || decide (mwOp w = 2) || decide (mwOp w = 4) || decide (mwOp w = 5))

/-- LSRC 1 or 2, or a COND on a MOD bit: not in a format P routine (R283). -/
def usesWMod (w : BitVec 40) : Bool :=
  decide (mwClass w = 0) &&
  ((decide (mwOp w = 3) && decide (mwf w 23 3 ≠ 0)) || (decide (mwOp w = 2) && decide (0x0C ≤ mwf w 28 5)))

/-- The first offending field of descriptor i: its offset in the image, and whether it is invalid and not reserved (R278,
R283 row 6). -/
def descBad (im : List Byte) (i : Nat) : Option (Nat × Bool) :=
  let o := descOff i
  let b := readBind im o
  let nw := topNwords im
  let opc := entryNat im (o + 4) 1
  let p := b.attr.testBit 0
  let dup := (List.range i).any (fun j => entryNat im (descOff j + 4) 1 == opc)
  let cs : List (Bool × Nat × Bool) := [
    (nw ≤ b.entry, 0, true), (nw < b.entry + b.len, 2, true), (opc < 0x80 || 0xF0 ≤ opc || dup, 4, true),
    (8 ≤ b.attr, 5, false), (16 ≤ b.uses, 6, false), (p && 4 ≤ b.uses, 6, true), (64 ≤ b.modDef, 7, false),
    (p && b.modDef ≠ 0, 7, true), (b.wmin < 1 || 64 < b.wmin, 8, true), (b.wmax < b.wmin || 64 < b.wmax, 9, true),
    (4 ≤ b.alias_, 10, false), (entryNat im (o + 11) 1 ≠ 0, 11, false), (256 < b.nwork, 12, true),
    (entryNat im (o + 14) 2 ≠ 0, 14, false), (entryNat im (o + 38) 2 ≠ 0, 38, false)]
  (cs.find? (fun c : Bool × Nat × Bool => c.1)).map (fun c : Bool × Nat × Bool => (o + c.2.1, c.2.2))

/-- The descriptors of the routines that contain microword j. -/
def bindsOf (im : List Byte) (j : Nat) : List Bind :=
  ((List.range (topNrout im)).map (fun i => readBind im (descOff i))).filter (fun b =>
    decide (b.entry ≤ j) && decide (j < b.entry + b.len))

/-- Whether microword j offends, and whether it is invalid and not an undefined encoding (R283 row 6). -/
def mwBad (im : List Byte) (j : Nat) : Option Bool :=
  let w := imgMw im j
  let bs := bindsOf im j
  if entryNat im (mwOff im j) 8 ≥ 2 ^ 40 ∨ !mwDefined w then some false
  else if hasTgt w ∧ topNwords im ≤ mwf w 0 13 then some true
  else if (bs.any (fun b => !b.attr.testBit 2)) ∧ (mwClass w = 3 ∨ dataBr w) then some true
  else if (bs.any (fun b => b.attr.testBit 0)) ∧ usesWMod w then some true
  else none

/-- The first offending field of an image's descriptors and microwords. -/
def topBad (im : List Byte) : Option (Nat × Bool) :=
  match (List.range (topNrout im)).findSome? (descBad im) with
  | some r => some r
  | none => (List.range (topNwords im)).findSome? (fun j => (mwBad im j).map (fun v => (mwOff im j, v)))

/-- The values with which one set of paths of a routine is checked: w, MOD, rounding attribute and group membership
(R283 row 7). -/
structure Issue where
  w : Nat
  m : Nat
  rm : Nat
  g : Bool

/-- A point of a path: offset, counters that a LOOP has set, call stack of return and target, cycles, cycles since
COMMIT, and whether a cross-chip step has been made. -/
structure At where
  pc : Nat
  l : Tbl Nat
  stack : List (Nat × Nat)
  n : Nat
  since : Option Nat
  crossed : Bool

/-- Cycles of a microword that is not CTL or WAIT (R252). -/
def mwCycles (g : Bool) (w : BitVec 40) : Nat :=
  if mwClass w = 1 then
    (if mwf w 18 3 ≠ 0 ∧ 2 ≤ mwf w 16 2 ∧ g then 24 else 1) +
    (if mwf w 3 2 = 1 then kA g (decide (mwf w 0 1 = 1)) else if mwf w 3 2 = 2 then kT g (decide (mwf w 0 1 = 1)) else 0)
  else 1

/-- A microword that R267 forbids after COMMIT. -/
def notAfterCommit (w : BitVec 40) : Bool :=
  decide (mwClass w = 3) || (decide (mwClass w = 0) && decide (mwOp w = 7)) ||
  (decide (mwClass w = 1) && ((decide (mwf w 18 3 ≠ 0) && decide (2 ≤ mwf w 16 2)) ||
    (decide (mwf w 3 2 ≠ 0) && decide (mwf w 0 1 = 1))))

/-- The issue-time condition of a BR, `none` for a data condition. -/
def issueCond (v : Issue) (c : Nat) : Option Bool :=
  if c ≤ 5 then none
  else if c ≤ 0x0A then some (decide (v.rm = c - 6))
  else if c = 0x0B then some v.g
  else some (v.m.testBit (c - 0x0C))

/-- `c` more cycles on a path. -/
def At.spend (a : At) (c : Nat) : At := { a with n := a.n + c, since := a.since.map (fun k => k + c) }

/-- The worse of two results: 3 a path or routine rule, 2 a count mismatch, 0 none. -/
def worse (a b : Nat) : Nat := max a b

/-- Every path from a point (R260 to R262, R267): 0 when each obeys the rules and the counts, 2 when a count differs from
the formula, 3 when a rule is broken. `f` is the formula, `gated` the discipline. -/
def walk (im : List Byte) (b : Bind) (v : Issue) (f : Nat) (gated : Bool) : Nat → At → Nat
  | 0, _ => 3
  | fuel + 1, a =>
    let w := imgMw im a.pc
    let op := mwOp w
    let go := fun (x : At) (pc : Nat) => walk im b v f gated fuel { x with pc := pc }
    let chk := if v.g && a.crossed then 256 else 0
    if topNwords im ≤ a.pc ∨ f < a.n ∨ (a.since.any (fun k => decide (256 < k))) ∨ (a.since.isSome ∧ notAfterCommit w) then 3
    else
      match mwClass w with
      | 0 =>
        let x := a.spend 1
        let li := mwf w 26 2
        match op with
        | 0 => go x (a.pc + 1)
        | 1 => go x (mwTgt w)
        | 2 =>
          match issueCond v (mwf w 28 5) with
          | some true => go x (mwTgt w)
          | some false => go x (a.pc + 1)
          | none => if gated then worse (go x (mwTgt w)) (go x (a.pc + 1)) else 3
        | 3 =>
          let n := ((mwf w 23 3 * v.w : Nat) : Int) + sInt 13 (mwf w 0 13)
          if 1 ≤ n ∧ n ≤ 8191 then go { x with l := tput a.l li n.toNat } (a.pc + 1) else 3
        | 4 =>
          match tfind a.l li with
          | none => 3
          | some n =>
            if n = 0 then 3
            else go { x with l := tput a.l li (n - 1) } (if n = 1 then a.pc + 1 else mwTgt w)
        | 5 =>
          if 4 ≤ a.stack.length ∨ mwTgt w = b.entry ∨ a.stack.any (fun e : Nat × Nat => e.2 == mwTgt w) then 3
          else go { x with stack := (a.pc + 1, mwTgt w) :: a.stack } (mwTgt w)
        | 6 =>
          match a.stack with
          | [] => 3
          | e :: es => go { x with stack := es } e.1
        | 7 => go { a.spend (1 + chk) with since := some 0 } (a.pc + 1)
        | _ =>
          let n := a.n + 1 + (if a.since.isNone then chk else 0)
          if f < n ∨ (a.since.any (fun k => decide (256 < k + 1))) then 3
          else if gated ∨ n = f then 0
          else 2
      | 1 => go { a.spend (mwCycles v.g w) with
                  crossed := a.crossed || (decide (mwf w 18 3 ≠ 0) && decide (2 ≤ mwf w 16 2)) } (a.pc + 1)
      | 3 => if gated then go (a.spend (waitTo w)) (a.pc + 1) else 3
      | _ => go (a.spend 1) (a.pc + 1)

/-- The widths, MOD values, rounding attributes and memberships with which a routine is checked (R283 row 7). -/
def issues (b : Bind) : List Issue :=
  let ws := if b.attr.testBit 0 then [0] else (List.range (b.wmax + 1)).filter (fun w => decide (b.wmin ≤ w))
  ws.flatMap (fun w => ((List.range 64).filter (fun m => m &&& (63 - b.modDef % 64) = 0)).flatMap (fun m =>
    (List.range 5).flatMap (fun r => [⟨w, m, r, false⟩, ⟨w, m, r, true⟩])))

/-- The worst result over a routine's paths. -/
def routineTest (im : List Byte) (b : Bind) : Nat :=
  (issues b).foldl (fun r v =>
    let f := userCycles v.g b v.w
    worse r (walk im b v f (b.attr.testBit 2) (f + 1) ⟨b.entry, [], [], 0, none, false⟩)) 0

/-- Verification of a Topiary image for partition q: status and DETAIL of the first check that fails (R283). -/
def topFail (s : State) (q : Nat) (im : List Byte) : Option (Nat × Nat) :=
  let plen := entryNat im 0x18 4
  let nr := topNrout im
  let nw := topNwords im
  let flags := entryNat im 0x20 2
  let signed := decide (flags % 2 = 1)
  let paths := ((List.range nr).map (fun i => routineTest im (readBind im (descOff i)))).foldl worse 0
  if !headerOk im topMagic then some (0x32, 1)
  else if tupleFail s .topiary im ≠ 0 then some (0x31, tupleFail s .topiary im)
  else if !(decide (1 ≤ nr) && decide (nr ≤ 112) && decide (1 ≤ nw) && decide (nw ≤ 4096) &&
      decide (plen = 40 * nr + 8 * nw) && decide (im.length = imageLen signed plen)) then
    some (0x12, 0x10004)
  else if !pcrcOk im 0x24 plen then some (0x32, 2)
  else if !digestOk im plen then some (0x32, 3)
  else if !authOk s im signed plen then some (0x32, 4)
  else if 64 * fld (rd s (0x0520 + 4 * q)) 6 7 < nw then some (0x14, 0xFD)
  else if entryNat im 0x16 2 ≠ 0 then some (0x11, imgDetail 0x16 false)
  else if 2 ≤ flags then some (0x11, imgDetail 0x20 false)
  else if entryNat im 0x22 2 ≠ 0 then some (0x11, imgDetail 0x22 false)
  else if entryNat im 0x48 20 ≠ 0 then some (0x11, imgDetail 0x48 false)
  else
    match topBad im with
    | some r => some (0x11, imgDetail r.1 r.2)
    | none =>
      if paths ≠ 0 then some (0x18, 16 * paths)
      else (topAdmit s q (some (readTop im))).map (fun d => (0x18, d))

/-- The load of partition q's rows that awaits its verification: the command and its image. -/
def topLoads (s : State) : List (Order × Nat) :=
  s.prt.opens.filterMap (fun o => match o.wait with
    | .topVerify q => if (tfind s.arr.topVer q).isSome then some (o.ord, q) else none
    | _ => none)

/-- TOPIARY_VERIFY_COMPLETE (R280, R282 to R284, R489): the oldest load under verification is armed for the next boundary
or refused. -/
def execTopiaryVerifyComplete (s : State) : Host.Outcome State Fault Refusal :=
  .next (match topLoads s with
    | [] => s
    | (o, q) :: _ =>
      let im := tget [] s.arr.topVer q
      let s1 := { s with arr := { s.arr with topVer := tdel s.arr.topVer q } }
      match topFail s q im with
      | some (st, d) =>
        finish (if st = 0x11 then reservedField s1 ((d % 65536 + d / 2 ^ 18 % 16 * 65536) % 65536) 2 else s1) o st d []
      | none =>
        addChange { s1 with arr := { s1.arr with topArm := tput s1.arr.topArm q (readTop im) } }
          { unit := .free, mbx := o.mbx, stamp := o.stamp, kind := .topSwitch q, ord := some o })

/-- The armed image of partition q is switched in: the frame that closes keeps the previous image (R280 to R282). -/
def topSwitch (s : State) (q : Nat) (img : TopImg) (closing : Option (BitVec 48)) : State :=
  let a := s.arr
  let inPart := fun e : Nat × Nat => e.1 / 65536 == q
  let wasPrev := fun e : Nat × Nat => e.1 / 65536 == q + 4
  let errs := a.topErr.filter (fun e => !inPart e && !wasPrev e)
  let moved := (a.topErr.filter inPart).map (fun e => (e.1 + 262144, e.2))
  repriceAll { s with arr := { a with
      top := tput a.top q img, topArm := tdel a.topArm q,
      topErr := moved.foldl (fun t e => tput t e.1 e.2) errs,
      topPrev := match tfind a.top q with
        | some t => tput a.topPrev q t
        | none => tdel a.topPrev q,
      topFrame := match closing with
        | some c => tput a.topFrame q c
        | none => tdel a.topFrame q } } q (some img)

/-- TOPIARY_UNLOAD takes effect: rows and binding table are emptied; the closing frame keeps the image (R280, R490). -/
def topUnload (s : State) (q : Nat) (closing : Option (BitVec 48)) : State :=
  let a := s.arr
  { s with arr := { a with
      top := tdel a.top q,
      topErr := a.topErr.filter (fun e => e.1 / 65536 != q),
      topPrev := match tfind a.top q with
        | some t => tput a.topPrev q t
        | none => a.topPrev,
      topFrame := match closing with
        | some c => tput a.topFrame q c
        | none => tdel a.topFrame q } }

/-- A frame fixed to partition q's previous image has not reached DRAINED (R281). -/
def topHeld (s : State) (q : Nat) : Bool :=
  match tfind s.arr.topFrame q with
  | some c => s.frm.frames.any (fun f => decide (f.count.toNat ≤ c.toNat) && decide (f.st ≠ .drained))
  | none => false

end Sys2Proof.Machine
end

