-- ==== Sys2Proof/Machine/Validate.lean ====
section
/-! DEFINITION. The register writes of one change taken into force at a boundary: the validity and admission rules of each
shared-resource unit, and what a refusal leaves (R57, R104, R132, R137, R140, R164, R187, R200, R276, R381, R386, R393,
R696, R724). -/

namespace Sys2Proof.Machine

open Sys2Proof

/-- What the application of a change answers to the command that carries it: OK, an invalid configuration, or refusal by
admission with its DETAIL (R460, R477). -/
inductive Verdict where
  | ok
  | invalid
  | notAdmitted (detail : Nat)
deriving DecidableEq, Repr

/-- Register values come into force. -/
def wrAll (s : State) (ws : List (Nat × Word)) : State := forEach ws s (fun s w => wr s w.1 w.2)

/-- The registers of a set keep the values that they have in `old`. -/
def keepRegs (old s : State) (as : List Nat) : State := forEach as s (fun s a => wr s a (rd old a))

/-- The source configuration registers, those of ANGLE_SOURCE (R57, R477). -/
def sourceRegs : List Nat := [0x0200, 0x021C, 0x0220, 0x0224, 0x0228, 0x022C, 0x0230, 0x0234]

/-- A change of the angle configuration: the source configuration is valid or stays as it was (R47, R51, R52, R57);
ANG_FMIN is admitted or stays (R103, R104). -/
def applyAngle (s : State) (ws : List (Nat × Word)) (cmd : Bool) : State × Verdict :=
  let t := wrAll s ws
  let bad := !sourceValid t
  let t1 := if bad then setFlag (keepRegs s t sourceRegs) 0x0208 5 else t
  if rd t1 0x0248 ≠ rd s 0x0248 then
    match admitNow t1 with
    | some r =>
      if cmd then (s, .notAdmitted (admitDetail r))
      else (setFlag (wr t1 0x0248 (rd s 0x0248)) 0x0308 2, .notAdmitted (admitDetail r))
    | none => (t1, if bad then .invalid else .ok)
  else (t1, if bad then .invalid else .ok)

/-- A change of an event entry or of pacer k: refused when it leaves the source configuration or the pacer invalid (R51,
R57, R79). -/
def applyMark (s : State) (ws : List (Nat × Word)) (k : Option Nat) : State × Verdict :=
  let t := wrAll s ws
  if sourceValid t && (match k with
      | some k => pacerValid t k
      | none => true) then (t, .ok)
  else (setFlag s 0x0208 5, .invalid)

/-- Frequency of global clock k in hertz, `none` when its source is a pin (R132). -/
def gckRate (s : State) (k : Nat) : Option Nat :=
  let g := rd s (0x0710 + 4 * k)
  let f := fld g 0 3
  let d := fld g 4 12 + 1
  if f = 0 then some (48000000 / d) else if f = 1 then some (50000000 / d) else if f = 2 then some (32768 / d)
  else if f = 3 then some (200000000 / d) else none

/-- Global clock k gives at most 100 MHz, and its pin's bank has its supply (R132). -/
def gckOk (s : State) (k : Nat) : Bool :=
  let g := rd s (0x0710 + 4 * k)
  !bit g 3 ||
    (match gckRate s k with
     | some r => decide (r ≤ 100000000)
     | none => bankOn s (if fld g 0 3 ≤ 5 then 0 else 1))

/-- The flash window lies within the fabric configuration area or the calibration constants (R137, R641). -/
def fwinOk (s : State) : Bool :=
  let v := rd s 0x0724
  let lo := fld v 0 8
  let hi := lo + fld v 8 4 + 1
  !bit v 31 || (decide (128 ≤ lo) && decide (hi ≤ 160)) || (decide (176 ≤ lo) && decide (hi ≤ 192))

/-- Serial port n is within its rate limit (R140). -/
def spOk (s : State) (n : Nat) : Bool :=
  let v := rd s (0x0730 + 8 * n)
  let d := fld v 4 8 + 1
  match gckRate s (fld v 2 2) with
  | none => true
  | some r =>
    if fld v 0 2 = 0 then true
    else if fld v 0 2 = 1 then decide (r ≤ 6250000 * 8 * d)
    else if fld v 0 2 = 2 then decide (r ≤ 50000000 * 2 * d)
    else decide (r ≤ 1000000 * 2 * d)

/-- A change of the fabric's hard-block registers: each that breaks its rule stays as it was (R132, R137, R140). -/
def applyFabric (s : State) (ws : List (Nat × Word)) : State × Verdict :=
  let t := wrAll s ws
  let bad :=
    ((List.range 4).filter (fun k => !gckOk t k)).map (fun k => 0x0710 + 4 * k) ++
    (if fwinOk t then [] else [0x0724]) ++ ((List.range 4).filter (fun n => !spOk t n)).map (fun n => 0x0730 + 8 * n)
  if bad.isEmpty then (t, .ok) else (setFlag (keepRegs s t bad) 0x0704 4, .invalid)

/-- No two of a list of spans of non-zero length overlap. -/
def disjoint : List (Nat × Nat) → Bool
  | [] => true
  | (b, n) :: xs => xs.all (fun y => decide (n = 0) || decide (y.2 = 0) || decide (b + n ≤ y.1) || decide (y.1 + y.2 ≤ b))
    && disjoint xs

/-- The lanes' regions lie in the store and do not overlap (R164). -/
def lanesOk (s : State) : Bool :=
  let on := ((List.range 16).filter (fun n => bit (laneCfg s n) 0)).map (fun n => (fld (laneCfg s n) 2 10, fld (laneCfg s n) 12 11))
  on.all (fun r => decide (r.1 + r.2 ≤ 1024)) && disjoint on

/-- A change of the lanes: refused for all lanes at once (R164). -/
def applyLanes (s : State) (ws : List (Nat × Word)) : State × Verdict :=
  let t := wrAll s ws
  if lanesOk t then (t, .ok) else (setFlag s 0x0900 0, .invalid)

/-- The four plane ranges or Topiary allocations from register `a`. -/
def ranges (s : State) (a : Nat) : List (Nat × Nat) :=
  (List.range 4).map (fun p => (fld (rd s (a + 4 * p)) 0 6, fld (rd s (a + 4 * p)) 6 7))

/-- The plane ranges are valid (R200). -/
def prangeOk (s : State) : Bool :=
  let rs := ranges s 0x0420
  rs.all (fun r => decide (r.1 + r.2 ≤ 64)) && disjoint rs &&
  fpNums.all (fun k => let p := prog s k
    let r := nth (0, 0) rs (fpPart k)
    !p.enabled || decide (p.sbands = 0) || (decide (r.1 ≤ p.sbase) && decide (p.sbase + p.sbands ≤ r.1 + r.2)))

/-- The Topiary allocations are valid after `old` (R276). -/
def tallocOk (old s : State) : Bool :=
  let rs := ranges s 0x0520
  rs.all (fun r => decide (r.1 + r.2 ≤ 64)) && disjoint rs &&
  (List.range 4).all (fun p => (tfind s.arr.top p).isNone || nth (0, 0) rs p == nth (0, 0) (ranges old 0x0520) p)

/-- Addresses of four registers from `a`. -/
def four (a : Nat) : List Nat := (List.range 4).map (fun p => a + 4 * p)

/-- A change of the array unit (R200). -/
def applyArray (s : State) (ws : List (Nat × Word)) : State × Verdict :=
  let t := wrAll s ws
  if prangeOk t then (t, .ok) else (setFlag (keepRegs s t (four 0x0420)) 0x0404 2, .invalid)

/-- A change of the Topiary allocation (R276). -/
def applyTopiary (s : State) (ws : List (Nat × Word)) : State × Verdict :=
  let t := wrAll s ws
  if tallocOk s t then (t, .ok) else (setFlag (keepRegs s t (four 0x0520)) 0x0504 4, .invalid)

/-- Partition p holds a loaded frame program. -/
def holdsProg (s : State) (p : Nat) : Bool := fpNums.any (fun k => fpPart k == p && (prog s k).loaded)

/-- Partition p holds something that a disable would strand (R381). -/
def partBusy (s : State) (p : Nat) : Bool :=
  holdsProg s p || (tfind s.arr.top p).isSome || decide (sqCount s p ≠ 0) || decide (rqCount s p ≠ 0) ||
    !(holdQ s p).isEmpty

/-- A disable of a partition that is not empty is refused (R381). -/
def applyPart (old s : State) (p : Nat) : State :=
  let a := 0x0A10 + 4 * p
  if bit (rd old a) 0 && !bit (rd s a) 0 && partBusy s p then setFlag (orReg s a 1) 0x0A04 0 else s

/-- The area registers of partition p. -/
def areaRegs (p : Nat) : List Nat := [0x0A20 + 4 * p, 0x0A30 + 4 * p, 0x0A40 + 4 * p, 0x0A50 + 4 * p]

/-- The areas of the partitions after `old` are valid (R386). -/
def areasOk (old s : State) : Bool :=
  let data := (List.range 4).flatMap (fun p => [0x0A20, 0x0A30, 0x0A40].map (fun r =>
    (fld (rd s (r + 4 * p)) 0 7, fld (rd s (r + 4 * p)) 8 7)))
  let code := (List.range 4).map (fun p => (fld (rd s (0x0A50 + 4 * p)) 0 6, fld (rd s (0x0A50 + 4 * p)) 8 6))
  data.all (fun r => decide (r.2 = 0) || (decide (32 ≤ r.1) && decide (r.1 + r.2 ≤ 128))) && disjoint data &&
  code.all (fun r => decide (r.2 = 0) || (decide (32 ≤ r.1) && decide (r.1 + r.2 ≤ 64))) && disjoint code &&
  (List.range 4).all (fun p => !holdsProg s p ||
    (decide (1 ≤ (stkArea s p).2) && (areaRegs p).all (fun a => rd s a == rd old a)))

/-- A change of a ring's depth takes effect only on an empty ring, whose counters it clears (R393). -/
def applyDepth (old s : State) (p : Nat) : State :=
  let a := 0x0A60 + 4 * p
  let o := rd old a
  let s1 :=
    if fld (rd s a) 0 3 = fld o 0 3 then s
    else if sqCount s p = 0 then { s with prt := { s.prt with sqHead := tput s.prt.sqHead p 0, sqTail := tput s.prt.sqTail p 0 } }
    else setFlag (wr s a (setFld (rd s a) 0 3 (fld o 0 3))) 0x0A04 0
  if fld (rd s1 a) 4 3 = fld o 4 3 then s1
  else if rqCount s1 p = 0 ∧ (holdQ s1 p).isEmpty then
    { s1 with prt := { s1.prt with rqHead := tput s1.prt.rqHead p 0, rqTail := tput s1.prt.rqTail p 0 } }
  else setFlag (wr s1 a (setFld (rd s1 a) 4 3 (fld o 4 3))) 0x0A04 0

/-- A change of the partition configuration (R381, R386, R393). -/
def applyPartition (s : State) (ws : List (Nat × Word)) : State × Verdict :=
  let t := forEach [1, 2, 3] (wrAll s ws) (fun t p => applyPart s t p)
  let t1 := if areasOk s t then t else setFlag (keepRegs s t ((List.range 4).flatMap areaRegs)) 0x0A04 0
  (forEach (List.range 4) t1 (fun t p => applyDepth s t p), .ok)

/-- A change of SCB_CTRL (R187): REGION, PERIOD and EN reach the golden copy and the working copies together; EN = 0 leaves
EN unchanged. -/
def applyScrub (s : State) (ws : List (Nat × Word)) : State × Verdict :=
  let t := wrAll s (ws.map (fun w => (w.1, if bit w.2 0 then w.2 else w.2 ||| (rd s 0x0800 &&& 1))))
  let v := rd t 0x0800
  let g : ScbCtl := { en := bit v 0, region := fld v 1 2, period := fld v 8 8, src := t.scb.golden.src }
  ({ t with scb := { t.scb with
      golden := g, goldenErr := 0,
      copies := t.scb.copies.map (fun c => { g with src := c.src }) } }, .ok)

/-- A change of the guaranteed clock (R104, R695). -/
def applyGclk (s : State) (ws : List (Nat × Word)) : State × Verdict :=
  let t := wrAll s ws
  match admitNow t with
  | some r => (setFlag s 0x0308 2, .notAdmitted (admitDetail r))
  | none => (retarget t (targetClk s), .ok)

/-- A change of PWR_CLKREQ (R696). -/
def applyPower (s : State) (ws : List (Nat × Word)) : State × Verdict :=
  let t := wrAll s ws
  if fld (rd t 0x0104) 0 8 < gclk s then (setFlag s 0x010C 0, .invalid) else (retarget t (targetClk s), .ok)

/-- The values of one change come into force under the rules of its unit (R402, R406, R724). `cmd` says that a command
carries them. -/
def applyWrites (s : State) (u : ResUnit) (ws : List (Nat × Word)) (cmd : Bool) : State × Verdict :=
  match u with
  | .angle => applyAngle s ws cmd
  | .event _ => applyMark s ws none
  | .pacer k => applyMark s ws (some k)
  | .gclk => applyGclk s ws
  | .fabric => applyFabric s ws
  | .lanes => applyLanes s ws
  | .array => applyArray s ws
  | .topiary => applyTopiary s ws
  | .partition => applyPartition s ws
  | .scrubber => applyScrub s ws
  | .power => applyPower s ws
  | .capture => (wrAll s ws, .ok)
  | .conductor => (wrAll s ws, .ok)
  | .free => (wrAll s ws, .ok)

end Sys2Proof.Machine
end

