-- ==== Sys2Proof/Machine/Boundary.lean ====
section
/-! DEFINITION. Frame boundaries and idle boundaries: the five steps of the scheduler (R24, R56 to R65, R84 to R108, R398,
R406, R407, R519, R561). -/

namespace Sys2Proof.Machine

open Sys2Proof

/-- The completion of the command of a change of register writes (R456, R477, R478). The offending field of a combination
is the first parameter, at offset 16. -/
def finishVerdict (s : State) (o : Option Order) (v : Verdict) : State :=
  match v with
  | .ok => finishOpt s o 0x00 0 []
  | .invalid => finishOpt s o 0x11 (16 + 65536) []
  | .notAdmitted d => finishOpt s o 0x18 d []

/-- FP_SET takes effect: enable and priority together, subject to admission of the whole set (R103, R104, R480). -/
def applyFpSet (s : State) (fp : Nat) (en : Bool) (prio : Nat) (o : Option Order) : State :=
  let p := prog s fp
  let t := setProg s fp { p with enabled := en, prio := prio, susp := if en then false else p.susp }
  match admitNow t with
  | some r => finishOpt s o 0x18 (admitDetail r) []
  | none => finishOpt t o 0x00 0 []

/-- A held keeper write takes effect after every keeper update staged before it; a span that no longer lies in the area is
refused (R388, R484). -/
def applyKeeperWrite (s : State) (p off : Nat) (data : List Byte) (o : Option Order) : State :=
  let s1 := settleKeepers s p
  let a := keepArea s1 p
  if off + data.length ≤ a.2 then finishOpt (fillMem s1 (a.1 + off) data) o 0x00 0 []
  else finishOpt s1 o 0x11 (24 + 65536) []

/-- SCRUB_DISABLE takes effect: EN = 0 in the golden copy and the working copies, and a new nonce (R186). -/
def applyScrubOff (s : State) (o : Option Order) : State :=
  let s1 := wrBoth s 0x0800 (rd s 0x0800 &&& ~~~1)
  let s2 := { s1 with scb := { s1.scb with
    golden := { s1.scb.golden with en := false }, goldenErr := 0,
    copies := s1.scb.copies.map (fun c => { c with en := false }), nonce := Config.nonce (s1.free + 1) } }
  finishOpt (useFree s2) o 0x00 0 []

/-- CAPTURE_ARM takes effect: refused when a capture is armed or full by then (R151, R486). -/
def applyCapArm (s : State) (v : Word) (o : Option Order) : State :=
  if s.hdg.capArmed || s.hdg.capFull then finishOpt s o 0x16 4 []
  else finishOpt (capWrite s (v ||| place 1 31)) o 0x00 0 []

/-- TOPIARY_UNLOAD takes effect (R490). -/
def applyTopUnload (s : State) (q : Nat) (closing : Option (BitVec 48)) (o : Option Order) : State :=
  match unboundFp s q none with
  | some k => finishOpt s o 0x18 (k + 4 * 16) []
  | none => finishOpt (topUnload s q closing) o 0x00 0 []

/-- One change of step 3, checked on the state that the changes before it left (R406). -/
def applyChange (closing : Option (BitVec 48)) (s : State) (c : Change) : State :=
  match c.kind with
  | .writes ws =>
    let r := applyWrites s c.unit ws c.ord.isSome
    finishVerdict r.1 c.ord r.2
  | .fpSet fp en prio => applyFpSet s fp en prio c.ord
  | .fpDisable fp => abortDone (setProg s fp { prog s fp with enabled := false })
  | .keeper p off data => applyKeeperWrite s p off data c.ord
  | .swap => finishOpt (swapFabric s) c.ord 0x00 0 []
  | .capArm v => applyCapArm s v c.ord
  | .scrubOff => applyScrubOff s c.ord
  | .topSwitch q =>
    match tfind s.arr.topArm q with
    | some img => finishOpt (topSwitch s q img closing) c.ord 0x00 0 []
    | none => s
  | .topUnload q => applyTopUnload s q closing c.ord
  | .groupForm => formGroup s
  | .groupLeave => finishOpt (groupDissolve s) c.ord 0x00 0 []

/-- What R58 compares: the fields whose change starts a new acquisition. A GROUP source has no others. -/
def sourceKey (s : State) : List Nat :=
  if angSrc s = 4 then [4] else
  [fld (angCtrl s) 0 3, fld (angCtrl s) 5 7, (rd s 0x021C).toNat, (rd s 0x0220).toNat, (rd s 0x0224).toNat,
   (rd s 0x0228).toNat, (rd s 0x022C).toNat, (rd s 0x0230).toNat, (rd s 0x0234).toNat]

/-- The angle clock becomes OFF and holds its word (R40, R60). -/
def clockOff (s : State) : State :=
  let s1 := setAng s { s.ang with
    st := .off, frameOpen := false, phase := 0, wfrac := 0, revHold := false, slewing := false, clamped := false,
    errLeft := false, zwait := false, heldWord := none }
  setAng s1 { s1.ang with heldWord := some (angWord s1) }

/-- The angle clock under the configuration that the changes left: OFF, acquiring anew, or undisturbed (R40, R58 to
R60). -/
def settleClock (old s : State) : State :=
  if !angEn s then (if s.ang.st = .off then s else clockOff s)
  else if !angEn old || decide (sourceKey old ≠ sourceKey s) then acquire { s with ang := { s.ang with frameOpen := false } }
  else s

/-- A member takes up what the leader has sent it for this boundary (R554, R578). -/
def takeCopy (s : State) : State :=
  match s.grp.copy with
  | some c => if member s then applyCopy { s with grp := { s.grp with copy := none } } c else s
  | none => s

/-- Step 3 of R86: the repairs made before the boundary take effect, then every pending change in stamp order. -/
def applyChanges (s : State) (closing : Option (BitVec 48)) : State :=
  let cs := s.prt.changes
  let s1 := releaseRepaired { s with prt := { s.prt with changes := [] } }
  settleClock s (abortDone (takeCopy (forEach cs s1 (applyChange closing))))

/-- Step 1 of R86: the frame that closed at the previous boundary and has not reached POSTING is shed slot by slot, and its
replies are posted (R32, R106, R519). -/
def shedOvertaken (s : State) : State :=
  match s.frm.frames.find? (fun f => f.st = .closed ∨ f.st = .computing) with
  | none => s
  | some f =>
    let s1 := match s.frm.comp with
      | some k => if k.count = f.count then endComp s 0x20 1 [] else s
      | none => s
    let s2 := answerSlots s1 f.count (fun x => x.outcome.isNone) 0x20 1
    postReady (toPosting s2 f.count) 8

/-- The period and the illegal transitions of the closing frame (R71). -/
def measureFrame (s : State) (f : Frame) : State :=
  let t := s.now - s.ang.openAt
  let s1 := wr (wr s 0x024C (BitVec.ofNat 32 (min (2 ^ 30 - 1) (t / 4)))) 0x0250 (BitVec.ofNat 32 (min 0xFFFF s.ang.qerr))
  if t < 200 * fmin s then
    modFrame (setFlag s1 0x0208 0) f.count (fun f => { f with overspeed := true })
  else s1

/-- Step 2 of R86: the frame closes; it is answered at once when it is not to be computed (R70, R85, R90, R112, R171). -/
def closeFrame (s : State) (f : Frame) : State :=
  let c := f.count
  let s1 := modFrame s c (fun f => { f with st := .closed })
  let all : Slot → Bool := fun _ => true
  let s2 :=
    if f.overflow then answerSlots s1 c all 0x21 9
    else if f.suspect then answerSlots s1 c all 0x21 11
    else if f.reversed ∧ !bit (angCtrl s) 4 then answerSlots s1 c all 0x20 2
    else if s.pwr.st = 1 then answerSlots s1 c all 0x20 3
    else s1
  match findFrame s2 c with
  | some g =>
    if member s2 then s2
    else if g.slots.isEmpty then modFrame s2 c (fun f => { f with st := .drained })
    else if g.answered then toPosting s2 c
    else s2
  | none => s2

/-- Insertion of a slot in the order of R92. -/
def insSlot (x : Slot) : List Slot → List Slot
  | [] => [x]
  | y :: ys => if x.prio < y.prio ∨ (x.prio = y.prio ∧ x.fp < y.fp) then x :: y :: ys else y :: insSlot x ys

/-- A hold suspends partition p's programs (R398). -/
def onHold (s : State) (p : Nat) : Bool := !(holdQ s p).isEmpty

/-- The slots of a frame that opens: every enabled program that neither a double fault nor a hold suspends; none on a
group member that is not the leader, and none on a retired leader (R91, R398, R554, R572). -/
def newSlots (s : State) : List Slot :=
  if member s || s.grp.retired then []
  else
    fpNums.foldl (fun l k =>
      let p := prog s k
      if p.enabled && !p.susp && !onHold s (fpPart k) then
        insSlot { fp := k, prio := p.prio, started := false, outcome := none, posted := false, body := [], restarts := 0,
                  throttled := false } l
      else l) []

/-- Holds at a boundary: a hold begins with the frame that opens, counts the frames without slots, and lifts at the first
boundary with an empty hold queue (R398). -/
def boundaryHold (s : State) (opens : Bool) (p : Nat) : State :=
  if onHold s p then
    if opens then
      setFlag { s with prt := { s.prt with holdAct := tput s.prt.holdAct p true,
                                           skip := tput s.prt.skip p (satAdd 0xFFFF (tget 0 s.prt.skip p) 1) } } 0x0A04 2
    else s
  else { s with prt := { s.prt with holdAct := tdel s.prt.holdAct p } }

/-- Holds of every partition at a boundary. -/
def boundaryHolds (s : State) (opens : Bool) : State := forEach (List.range 4) s (fun s p => boundaryHold s opens p)

/-- FRM_COUNT of the next frame to open (R41, R42). -/
def nextCount (s : State) : BitVec 48 := if s.ang.anyOpened then s.ang.count48 + 1 else s.ang.count48

/-- Steps 4 and 5 of R86: a frame opens at phase 0, is assigned its half and its slots, and ingests (R42, R84 to R91,
R163). `closed` says that a frame closed at this boundary. -/
def openFrame (s0 : State) (closed : Bool) : State :=
  let slots := newSlots s0
  let s := boundaryHolds s0 true
  let c := nextCount s
  let half := c.getLsbD 0
  let a := s.ang
  let n : Int := closeAngle
  let coast := decide (a.st = .coasting) || a.errLeft
  let f : Frame := { count := c, st := .ingesting, half := half, coasted := coast, reversed := false, overspeed := false,
                     overflow := false, suspect := s.scb.suspect.isSome, owed := false, slots := slots }
  let s1 := setAng s { a with
    count48 := c, anyOpened := true, frameOpen := true, openAt := s.now, phase := 0, wfrac := 0,
    meas := if closed then a.meas - n else a.meas, expect := if closed then a.expect - n else a.expect,
    kcount := if closed then a.kcount - perFrame s else a.kcount,
    high := if closed then a.high - perFrame s else a.high,
    qerr := 0, coasted := coast, reversed := false, fired := 0, heldWord := none }
  let s2 := assignHalf (settle { s1 with frm := { s1.frm with frames := f :: s1.frm.frames } }) half
  let s3 := if closed then overlapLanes s2 half c else s2
  traceFrame s3 c.toNat (angCode a.st) coast 0

/-- What the group does once the steps of a boundary are complete (R561, R565). -/
def boundaryGroup (s : State) : State := groupCheckpoint (groupBeat s)

/-- A frame boundary. The open frame, if any, closes; pending changes take effect; a frame opens in LOCKED or COASTING
(R24, R42, R58, R63, R86). -/
def boundary (s : State) : State :=
  let s0 := raiseInt { s with frm := { s.frm with boundaries := s.frm.boundaries + 1 } } 17
  let closing := (ingesting s0).map (fun f => f.count)
  let s1 := match ingesting s0 with
    | some f => flushLanes s0 f.half f.count
    | none => s0
  let s2 := shedOvertaken s1
  let s3 := match ingesting s2 with
    | some f => closeFrame (measureFrame s2 f) f
    | none => s2
  let s4 := postReady (applyChanges s3 closing) 8
  let live := decide (s4.ang.st = .locked) || decide (s4.ang.st = .coasting)
  let spent := decide (s4.ang.st = .coasting) && decide (s4.ang.coastLeft = 0)
  if !live || decide (s4.pwr.st = 2) then boundaryGroup (boundaryHolds s4 false)
  else if spent then boundaryGroup (enterLost (boundaryHolds (setAng s4 { s4.ang with frameOpen := false }) false) 1)
  else boundaryGroup (openFrame s4 closing.isSome)

/-- The overrate rule concerns sources with edges, and not a follower (R65). -/
def overrate (s : State) : Bool := decide (angSrc s ≤ 2) && decide (s.now - s.ang.openAt < minFrame)

/-- FRAME_BOUNDARY (R24, R56, R65, R86): the angle word has reached the close angle. A frame of less than 0.5 ms is
abandoned instead. A group member other than the leader takes its boundaries from the leader. -/
def execFrameBoundary (s : State) : Host.Outcome State Fault Refusal :=
  .next (if boundaryDue s && !member s then
      if overrate s then enterLost (setFlag s 0x0208 7) 3 else boundary s
    else s)

/-- IDLE_BOUNDARY (R407, R520): with no frame open, closed or computing and the clock OFF, ACQUIRING or LOST, the pending
changes take effect. -/
def execIdleBoundary (s : State) : Host.Outcome State Fault Refusal :=
  let quiet := (decide (s.ang.st = .off) || decide (s.ang.st = .acquiring) || decide (s.ang.st = .lost)) &&
    !s.frm.frames.any (fun f => f.st = .closed ∨ f.st = .computing ∨ f.st = .ingesting)
  .next (if quiet && !s.prt.changes.isEmpty && decide (s.pwr.st ≠ 2) then
      groupCheckpoint (boundaryHolds (applyChanges s none) false)
    else s)

end Sys2Proof.Machine
end

