-- ==== Sys2Proof/Machine/Angle.lean ====
section
/-! DEFINITION. The angle clock's sources, its losses, and the firing of events and pacers (R40 to R80, R551, R722 to R726). -/

namespace Sys2Proof.Machine

open Sys2Proof

/-- The clock is LOCKED. -/
def locked (s : State) : Bool := decide (s.ang.st = .locked)

/-- Time since the last accepted edge. -/
def sinceEdge (s : State) : Option Nat := s.ang.lastEdge.map (fun t => s.now - t)

/-- The first frame after lock opens with the present edge at phase 0 (R24, R48). -/
def firstFrame (s : State) : State :=
  let s1 := setAng s { s.ang with
    kcount := 0, high := 0, koff := 0, phase := 0, wfrac := 0, meas := 0, mfrac := 0, expect := markPhase s 1 }
  boundary s1

/-- Entry to LOCKED. -/
def lock (s : State) : State := setAng s { s.ang with st := .locked, rejects := 0 }

/-- The word at the present angle is taken as the angle of the edge that reacquires: the count below it and the offset from
that count (R726). -/
def takeAtWord (s : State) : State :=
  let k : Int := ((s.ang.phase * perFrame s / closeAngle : Nat) : Int)
  let o := (s.ang.phase : Int) - markPhase s k
  setAng s { s.ang with kcount := k, high := k, koff := o, meas := s.ang.phase, mfrac := 0, expect := markPhase s (k + 1) + o }

/-- Return to LOCKED from COASTING (R67). -/
def relock (s : State) : State :=
  setAng s { s.ang with st := .locked, lastEdge := some s.now, rejects := 0, coastLeft := 0, revHold := false }

/-- Reacquisition at the coasted angle; with ZALIGN the next Z pulse measures the error (R726). -/
def reacquireHere (s : State) : State :=
  let s1 := takeAtWord (relock s)
  if zAlign s then setAng s1 { s1.ang with zwait := true, errLeft := true } else s1

/-- Reacquisition at the nearest expected position, the later on a tie (R67, R726). -/
def reacquireNear (s : State) : State :=
  let pf := perFrame s
  let k : Int := (((2 * s.ang.phase * pf + closeAngle) / (2 * closeAngle) : Nat) : Int)
  let err := markPhase s k - (s.ang.phase : Int)
  if err.natAbs ≤ 131072 then
    let s1 := relock s
    angFlags (setAng s1 { s1.ang with
      kcount := k, high := k, koff := 0, meas := markPhase s k, mfrac := 0, expect := markPhase s (k + 1),
      errLeft := decide (err ≠ 0) })
  else enterLost s 4

/-- An accepted edge with its interval enters the estimate (R49). -/
def acceptEdge (s : State) : State :=
  let s1 := match sinceEdge s with
    | some iv => pushIval s iv
    | none => s
  setAng s1 { s1.ang with lastEdge := some s.now }

/-- QEI lock: 4 consecutive valid edges in one direction at a rate of at least 0.5 ms a frame (R66). -/
def qeiRun (s : State) (fwd : Bool) : State :=
  let same := decide (s.ang.lockRun ≠ 0) && s.ang.lockDir == fwd
  let s1 := if same then acceptEdge s else setAng s { s.ang with lastEdge := some s.now, ivals := [] }
  setAng s1 { s1.ang with lockRun := if same then s.ang.lockRun + 1 else 1, lockDir := fwd }

/-- The criterion of R66 is met. -/
def qeiMet (s : State) : Bool :=
  let m := meanIvals s s.ang.ivals
  decide (4 ≤ s.ang.lockRun) && decide (minFrame * m.2 ≤ perFrame s * m.1)

/-- A count of the locked QEI source in an open frame: the high-water count carries the measured angle; a fall of more than
ANG_REVTH below it holds the word (R48, R69, R70). -/
def qeiCount (s : State) (fwd : Bool) : State :=
  let k := s.ang.kcount + (if fwd then 1 else -1)
  let h := s.ang.high
  let s1 := if fwd == s.ang.lockDir then acceptEdge s else setAng s { s.ang with lastEdge := some s.now }
  let a := { s1.ang with kcount := k, lockDir := fwd }
  if h < k then
    angFlags (setAng s1 { a with high := k, revHold := false, meas := markPhase s k + a.koff, mfrac := 0,
                                 expect := markPhase s (k + 1) + a.koff })
  else if h = k then angFlags (setAng s1 { a with revHold := false })
  else if ((fld (rd s 0x0244) 0 8 : Nat) : Int) < h - k then markReversed (setAng s1 { a with revHold := true })
  else setAng s1 a

/-- A legal edge of the selected QEI source. -/
def qeiEdge (s : State) (fwd : Bool) : State :=
  match s.ang.st with
  | .acquiring =>
    let s1 := qeiRun s fwd
    if qeiMet s1 then lock s1 else s1
  | .locked =>
    if s.ang.frameOpen then qeiCount s fwd
    else
      let s1 := qeiRun s fwd
      if fwd && !zAlign s then firstFrame s1 else s1
  | .coasting => reacquireHere (setAng s { s.ang with lockDir := fwd })
  | _ => s

/-- An illegal transition of the selected QEI source (R61). -/
def qeiIllegal (s : State) : State :=
  let s1 := setAng s { s.ang with
    qerr := if s.ang.frameOpen then s.ang.qerr + 1 else s.ang.qerr,
    lockRun := if s.ang.st = .acquiring then 0 else s.ang.lockRun }
  if locked s1 && decide (fld (rd s 0x0240) 8 8 < s1.ang.qerr) then loseSource s1 else s1

/-- The source that the standby's shadow clock follows (R551). -/
def shadowSrc (s : State) : Nat := fld s.grp.src 0 3

/-- One accepted edge of the standby's shadow clock, with the count of edges or intervals that its criterion needs
(R551). -/
def shadowEdge (s : State) (ok : Bool) (need : Nat) : State :=
  let n := if ok then s.grp.shRun + 1 else 1
  let s1 := setAng s { s.ang with
    lastEdge := some s.now, ivals := ((sinceEdge s).toList ++ s.ang.ivals).take 8 }
  { s1 with grp := { s1.grp with shRun := n, shLock := s.grp.shLock || decide (need ≤ n) } }

/-- The chip is the standby of a group whose leader runs source `src` (R551). -/
def shadows (s : State) (src : Nat) : Bool := decide (s.grp.role = 2) && decide (shadowSrc s = src)

/-- QEI_COUNT (R46, R48, R61, R66, R69): a quadrature transition. ANG_POS counts legal edges in every state but OFF. -/
def execQeiCount (d : QeiMove) (s : State) : Host.Outcome State Fault Refusal :=
  let on := decide (s.ang.st ≠ .off)
  let run := decide (angSrc s = 0) && decide (s.pwr.st ≠ 2)
  .next (if !on then s
    else
      match d with
      | .illegal => if run then qeiIllegal s else s
      | _ =>
        let fwd := d == .forward
        let s1 := setAng s { s.ang with pos := if fwd then s.ang.pos + 1 else s.ang.pos - 1 }
        if run then qeiEdge s1 fwd
        else if shadows s1 0 && decide (s.pwr.st ≠ 2) then
          let s2 := shadowEdge s1 (s.ang.lockDir == fwd && decide (s.grp.shRun ≠ 0)) 4
          setAng s2 { s2.ang with lockDir := fwd }
        else s1)

/-- An interval agrees with the interval before it within LOCKTOL (R49). -/
def intervalOk (s : State) (iv prev : Nat) : Bool :=
  decide ((max iv prev - min iv prev) * 256 ≤ fld (rd s 0x0238) 8 8 * prev)

/-- An interval agrees with the estimate within TRKTOL (R49). -/
def trackOk (s : State) (iv : Nat) : Bool :=
  let m := meanIvals s s.ang.ivals
  decide ((max (iv * m.2) m.1 - min (iv * m.2) m.1) * 256 ≤ fld (rd s 0x0238) 16 8 * m.1)

/-- A pulse of the locked TACH source is accepted or rejected; two rejections in succession are a loss (R49). -/
def tachTrack (s : State) (k : State → State) : State :=
  match sinceEdge s with
  | some iv =>
    if trackOk s iv then
      let s1 := acceptEdge s
      k (setAng s1 { s1.ang with rejects := 0 })
    else if 1 ≤ s.ang.rejects then loseSource s
    else setAng s { s.ang with rejects := 1 }
  | none => k (acceptEdge s)

/-- A pulse toward TACH lock: the run of consistent intervals (R49). -/
def tachRun (s : State) : State :=
  match sinceEdge s with
  | none => setAng s { s.ang with lastEdge := some s.now }
  | some iv =>
    let ok := match s.ang.ivals.head? with
      | some prev => intervalOk s iv prev
      | none => false
    let s1 := acceptEdge s
    setAng s1 { s1.ang with lockRun := if ok then s.ang.lockRun + 1 else 1 }

/-- A pulse of the selected TACH source. -/
def tachEdge (s : State) : State :=
  match s.ang.st with
  | .acquiring =>
    let s1 := tachRun s
    if fld (rd s 0x0238) 0 6 ≤ s1.ang.lockRun then
      if zAlign s then lock s1 else firstFrame (lock s1)
    else s1
  | .locked =>
    tachTrack s (fun t => if t.ang.frameOpen then
      angFlags (measureAt t (t.ang.kcount + 1)) else t)
  | .coasting => if zAlign s then reacquireHere s else reacquireNear s
  | _ => s

/-- TACH_PULSE (R49, R66, R67, R80): a rising edge on ANG_TACH. In STANDBY it counts in ANG_POS. -/
def execTachPulse (s : State) : Host.Outcome State Fault Refusal :=
  .next (if s.ang.st = .off then s
    else if angSrc s = 1 then
      (if s.pwr.st = 2 then setAng s { s.ang with pos := s.ang.pos + 1 } else tachEdge s)
    else if shadows s 1 && decide (s.pwr.st ≠ 2) then
      shadowEdge s (match sinceEdge s, s.ang.ivals.head? with
        | some iv, some prev => intervalOk s iv prev
        | _, _ => false) (fld (rd s 0x0238) 0 6)
    else s)

/-- A mains period is within 10 % of nominal (R50); the nominal period is 2 * 10^10 / NOM cycles. -/
def periodOk (s : State) (iv : Nat) : Bool :=
  let nom := fld (rd s 0x0230) 0 16
  decide (9 * 2000000000 ≤ iv * nom) && decide (iv * nom ≤ 11 * 2000000000)

/-- A selected crossing; `ok` says that the period it ends is in range (R50). -/
def lineEdge (s : State) (ok : Bool) : State :=
  match s.ang.st with
  | .acquiring =>
    let s1 := if ok then acceptEdge s else setAng s { s.ang with lastEdge := some s.now, ivals := [] }
    let s2 := setAng s1 { s1.ang with lockRun := if ok then s.ang.lockRun + 1 else 0 }
    if 16 ≤ s2.ang.lockRun then lock s2 else s2
  | .locked =>
    if !ok then loseSource s
    else
      let s1 := acceptEdge s
      if s.ang.frameOpen then angFlags (measureAt s1 (s1.ang.kcount + 1)) else firstFrame s1
  | .coasting => reacquireNear s
  | _ => s

/-- LINE_CROSSING (R50, R67): a selected zero crossing; it lies `back` cycles ago where it was interpolated between two
lane samples. -/
def execLineCrossing (back : Nat) (s : State) : Host.Outcome State Fault Refusal :=
  let s0 := setAng s { s.ang with lastEdge := s.ang.lastEdge.map (fun x => x + back) }
  let fin := fun t : State => setAng t { t.ang with lastEdge := t.ang.lastEdge.map (fun x => x - back) }
  let ok := match sinceEdge s0 with
    | some iv => periodOk s iv
    | none => false
  .next (if s.ang.st = .off ∨ s.pwr.st = 2 then s
    else if angSrc s = 2 then fin (lineEdge s0 ok)
    else if shadows s 2 then fin (shadowEdge s0 ok 16)
    else s)

/-- LINE_CROSSING_TIMEOUT (R50): no selected crossing for 1.25 estimated periods. -/
def execLineCrossingTimeout (s : State) : Host.Outcome State Fault Refusal :=
  let m := meanIvals s s.ang.ivals
  let late := match sinceEdge s with
    | some iv => decide (5 * m.1 ≤ 4 * m.2 * iv) && decide (m.2 ≠ 0)
    | none => false
  .next (if !late ∨ s.pwr.st = 2 then s
    else if angSrc s = 2 ∧ locked s then loseSource s
    else if shadows s 2 then { s with grp := { s.grp with shLock := false, shRun := 0 } }
    else s)

/-- EDGE_TIMEOUT (R61): no valid edge for EDGETO times the last interval. -/
def execEdgeTimeout (s : State) : Host.Outcome State Fault Refusal :=
  let late := match sinceEdge s, s.ang.ivals.head? with
    | some iv, some l => decide (fld (rd s 0x0240) 0 5 * l ≤ iv)
    | _, _ => false
  .next (if !late ∨ s.pwr.st = 2 then s
    else if angSrc s ≤ 1 ∧ locked s then loseSource s
    else if shadows s 0 ∨ shadows s 1 then { s with grp := { s.grp with shLock := false, shRun := 0 } }
    else s)

/-- COAST_BUDGET_SPENT (R63, R64): the coast budget ends before the close angle. -/
def execCoastBudgetSpent (s : State) : Host.Outcome State Fault Refusal :=
  .next (if s.ang.st = .coasting ∧ s.ang.coastLeft = 0 ∧ !boundaryDue s ∧ s.pwr.st ≠ 2 ∧ !member s then enterLost s 1
    else s)

/-- STALL_TIMEOUT (R65): 20 s after phase 0 the close angle has not been reached. -/
def execStallTimeout (s : State) : Host.Outcome State Fault Refusal :=
  .next (if s.ang.frameOpen ∧ angSrc s ≤ 2 ∧ 4000000000 ≤ s.now - s.ang.openAt ∧ s.pwr.st ≠ 2 then
      enterLost (setFlag s 0x0208 6) 2
    else s)

/-- TIMER_LOCK (R52, R725): one reference clock cycle after entry to ACQUIRING the TIMER source locks and opens its first
frame. -/
def execTimerLock (s : State) : Host.Outcome State Fault Refusal :=
  .next (if angSrc s = 3 ∧ s.ang.st = .acquiring ∧ 4 ≤ s.now - s.ang.lockAt ∧ s.pwr.st ≠ 2 then
      let s1 := lock s
      firstFrame (setAng s1 { s1.ang with rateN := closeAngle, rateD := max 1 (4 * (rd s 0x0234).toNat) })
    else s)

/-- The count at which a Z pulse is expected: the multiple of the counts of a revolution nearest to the count (R68). -/
def zExpected (s : State) : Int :=
  let r : Int := (perRev s : Nat)
  (2 * s.ang.kcount + r) / (2 * r) * r

/-- A Z pulse in an open frame: the difference is reported, the count realigned, and an error that awaits it measured
(R67, R68, R726). -/
def zCompare (s : State) : State :=
  let k := zExpected s
  let d := k - s.ang.kcount
  let h := s.ang.high + d
  let s1 := wr s 0x0254 (BitVec.ofNat 32 ((clampInt (-32767) 32767 d) % 65536).toNat)
  let s2 := if d = 0 then s1 else setFlag s1 0x0208 4
  let err := markPhase s h - s.ang.meas
  if s.ang.zwait && decide (131072 < err.natAbs) then enterLost s2 4
  else
    angFlags (setAng s2 { s2.ang with
      kcount := k, high := h, koff := 0, zwait := false, meas := markPhase s h, mfrac := 0, expect := markPhase s (h + 1) })

/-- Z_PULSE (R66, R68): a rising edge on ANG_Z, with ZALIGN at 1. -/
def execZPulse (s : State) : Host.Outcome State Fault Refusal :=
  .next (if zAlign s && locked s && decide (s.pwr.st ≠ 2) then
      (if s.ang.frameOpen then zCompare s else firstFrame s)
    else s)

/-- One entry that fires: its interrupt bit and its marker (R73, R74, R586). -/
def fireEntry (s : State) (n : Nat) : State :=
  let b := evtB s n
  let o := fld b 21 2
  let s1 := if bit b 20 then setFlag s (0x0270 + 4 * (n / 32)) (n % 32) else s
  let s2 := if fld (trcCtl s1 o 0x20) 0 6 = n then traceEvent s1 o 2 else s1
  if bit b 23 then traceAevt s2 o n (angWord s2) else s2

/-- Everything that fires at phase p acts together: entries in ascending order, and one strobe to each lane and each
trigger line that any of them names (R55, R73 to R75, R79). -/
def fireAt (s : State) (p : Nat) : State :=
  let es := eventsAt s p
  let ws := es.map (evtB s) ++ ((List.range 4).filter (fun k => pacerAt s k p)).map (fun k => rd s (0x0288 + 16 * k))
  let s0 := setAng s { s.ang with fired := p + 1 }
  let s1 := forEach es s0 fireEntry
  let s2 := forEach (List.range 16) s1 (fun s n => if ws.any (fun w => bit w n) then strobeLane s n else s)
  forEach (List.range 8) s2 (fun s l => if ws.any (fun w => bit w 16 && decide (fld w 17 3 = l)) then triggerLine s l else s)

/-- The firings that are due next take place. -/
def fireDue (s : State) : State :=
  match dueFiring s with
  | some p => fireAt s p
  | none => s

/-- ANGLE_EVENT_FIRE (R73): the entries, and the pacers that strobe in the same cycle, fire at the phase that the word has
reached, when an entry is among them. -/
def execAngleEventFire (s : State) : Host.Outcome State Fault Refusal :=
  .next (match dueFiring s with
    | some p => if (eventsAt s p).isEmpty then s else fireAt s p
    | none => s)

/-- PACER_STROBE (R79): the pacers that strobe at the phase that the word has reached, and the entries of the same cycle,
fire, when a pacer is among them. -/
def execPacerStrobe (s : State) : Host.Outcome State Fault Refusal :=
  .next (match dueFiring s with
    | some p => if (List.range 4).any (fun k => pacerAt s k p) then fireAt s p else s
    | none => s)

end Sys2Proof.Machine
end

