-- ==== Sys2Proof/Machine/Program.lean ====
section
/-! DEFINITION. The start of a frame program and of its handler, and the drain (R34, R85, R92 to R97, R226 to R231, R243,
R369, R375). -/

namespace Sys2Proof.Machine

open Sys2Proof

/-- Registers as firmware saves them. -/
def saveFw (c : Cnd) : CndSave :=
  { a := c.a, d := c.d, win := c.win, k := c.k, f := c.f, pc := c.pc, lc := c.lc, wp := c.wp, slim := c.slim,
    cstat := c.cstat }

/-- Base address of a half's records (R369). -/
def halfBase (half : Bool) : Nat := if half then 0x70040000 else 0x70000000

/-- D2 of a handler that starts (R369). -/
def startD2 (f : Frame) (fp : Nat) : Word :=
  BitVec.ofNat 32 (fp + fpPart fp * 16) ||| flag f.coasted 8 ||| flag f.reversed 9 ||| flag f.overspeed 10

/-- A start address within partition p's code area of FPk's image. -/
def codeAddr (s : State) (fp off : Nat) : Nat := (codeArea s (fpPart fp)).1 + (prog s fp).codeAt + off

/-- Firmware saves its registers and starts FPk's handler for frame `f` (R369, R375, R589). -/
def startHandler (s : State) (f : Frame) (fp : Nat) : State :=
  let q := fpPart fp
  let c := s.cnd
  let stk := stkArea s q
  let pc := codeAddr s fp (prog s fp).hentry
  let w := BitVec.ofNat 32
  let a : Vector Word 8 :=
    (((Vector.replicate 8 (0 : Word)).set 0 (w (keepArea s q).1)).set 1 (w (xchArea s q).1)).set 2 (w (halfBase f.half))
  let d : Vector Word 8 :=
    (((Vector.replicate 8 (0 : Word)).set 0 (w f.count.toNat)).set 1 (w (f.count.toNat / 2 ^ 32))).set 2 (startD2 f fp)
  let s1 := wr { s with cnd := { c with
    fw := some (saveFw c), a := a.set 7 (w (stk.1 + stk.2)), d := d,
    win := Vector.ofFn (fun i : Fin 64 => if i.val < 56 then 0 else c.win[i]), k := Vector.replicate 4 0,
    f := Vector.replicate 16 0, pc := w pc, lc := 0, wp := 0x100, slim := w stk.1 &&& ~~~3,
    cstat := place 1 16 ||| place 1 17, rep := none, held := none, waiting := false, dlv := [], fpuBusy := 0, hExec := 0, fwUsed := 0, fwStep := 0,
    handler := some { part := q, fp := fp, up := none, ups := 0, delivered := [], budget := (prog s fp).h, vleft := 0 } } }
    0x0638 (w stk.1)
  traceCnd (traceProgEvent s1 fp 5) fp 3 (pc / 4 % 2 ^ 30 + fp * 2 ^ 32) pc

/-- The macro allowance of FPk under the costs that apply (R243, R274). -/
def allowOf (s : State) (p : Prog) : Nat := if grouped s then p.mGrp else p.mSolo

/-- The array as a program finds it: pointers, rounding, QRES and RETIRED at 0, its row bands powered, the macro allowance
loaded (R226, R227, R231, R234, R243). -/
def loadProgram (s : State) (fp : Nat) : State :=
  let p := prog s fp
  { s with arr := { s.arr with
    pp := [], rm := 0, queue := [], qres := 0, retired := 0, allow := allowOf s p, run := none, restarts := 0,
    bandsOn := BitVec.ofNat 8 p.bands } }

/-- The frame that is computed next: the oldest that is CLOSED or COMPUTING, with the first of its slots that is neither
started nor answered (R34, R85, R92). -/
def nextStart (s : State) : Option (Frame × Slot) :=
  match s.frm.frames.reverse.find? (fun f => f.st = .closed ∨ f.st = .computing) with
  | some f => (f.slots.find? (fun x => !x.started && x.outcome.isNone)).map (fun x => (f, x))
  | none => none

/-- The computation of FPk for frame `f` begins; after a failed drain check it ends at once with FRAME_FAULT 10
(R93, R97). -/
def startProgram (s : State) (f : Frame) (fp : Nat) : State :=
  let s1 := modFrame s f.count (fun g => { g with
    st := .computing, owed := true, slots := g.slots.map (fun y => if y.fp = fp then { y with started := true } else y) })
  let s2 := noteClock { s1 with frm := { s1.frm with
    comp := some { fp := fp, count := f.count, fault := none, fromClock := false, handlerDone := false },
    drained := false, drainChk := false, kstage := tdel s1.frm.kstage (fpPart fp) } }
  let s3 := loadProgram s2 fp
  if s.frm.drainChk then faultComp s3 10 else startHandler s3 f fp

/-- PROGRAM_START (R34, R85, R92, R93, R369): the array is DRAINED, the device is in RUN, and the next program of the closed
frame starts. -/
def execProgramStart (s : State) : Host.Outcome State Fault Refusal :=
  .next (if s.frm.drained && !arrayBusy s && decide (s.pwr.st = 0) && s.cnd.running && !s.grp.retired then
      match nextStart s with
      | some (f, x) => startProgram s f x.fp
      | none => s
    else s)

/-- What a drain leaves: every plane 0 with correct parity, M at 1, C, T, X and Y at 0, and the queue, the staging register,
QRES and the last reductions empty (R94, R198, R212, R234). -/
def drainArray (s : State) : State :=
  { s with arr := { s.arr with
    planes := [], c := 0, t := 0, m := BitVec.allOnes 16384, x := 0, y := 0, perr := [], staging := 0, any := false,
    tally := 0, redPart := none, queue := [], qres := 0, run := none, bandsOn := 0xFF } }

/-- Logical column of a physical column. -/
def logCol (s : State) (phys : Nat) : Nat := ((List.range phys).filter (fun c => !s.arr.map.contains c)).length

/-- The read-back found ones in the columns of `found`: the lowest is recorded, each is noted, and the next slot to start
faults (R97, R224). -/
def drainCheck (s : State) (found : BitVec 132) : State :=
  let cols := (List.range 132).filter (fun c => found.getLsbD c && !s.arr.map.contains c)
  match cols with
  | [] => s
  | c :: _ =>
    let s1 := wr (setFlag { s with frm := { s.frm with drainChk := true } } 0x0308 4) 0x0438 (place c 0)
    forEach cols s1 (fun s c => noteCol s c (logCol s c) 0xFF 1)

/-- The drain is over: the frame that owed it may be DRAINED (R85, R93). -/
def endDrain (s : State) (c : BitVec 48) : State :=
  settle (modFrame { s with frm := { s.frm with drain := none, drained := true } } c (fun f => { f with owed := false }))

/-- DRAIN_END (R94 to R97): the drain after a program completes. `found` gives the physical columns in which the read-back
of its scratch bands finds a 1. -/
def execDrainEnd (found : BitVec 132) (s : State) : Host.Outcome State Fault Refusal :=
  .next (match s.frm.drain with
    | some (fp, c) =>
      let s1 := drainArray s
      endDrain (if (prog s fp).sbands = 0 then s1 else drainCheck s1 found) c
    | none => s)

end Sys2Proof.Machine
end

