-- ==== Sys2Proof/Machine/LogCore.lean ====
section
/-! DEFINITION. The fault log in flash: its records, what LOG_READ reaches and the persistent state (R609 to R615, R618,
R620, R623 to R625). -/

namespace Sys2Proof.Machine

open Sys2Proof

/-- Flash offset of slot i, 0 to 2047, of log bank b (R609, R641). -/
def logOff (b i : Nat) : Nat := 0xC0000 + 0x10000 * b + 32 * i

/-- The 32 bytes of a slot. -/
def logSlot (s : State) (b i : Nat) : List Byte := flashBytes s (logOff b i) 32

/-- The slot is erased (R609). -/
def slotErased (bs : List Byte) : Bool := bs.all (fun x => x == 0xFF)

/-- The slot holds a record: its CRC is correct (R609, R610). -/
def slotValid (bs : List Byte) : Bool := decide (entryNat bs 28 4 = (crc32 (bs.take 28)).toNat) && !slotErased bs

/-- Numbers without their immediate repeats. -/
def squeeze : List Nat → List Nat
  | [] => []
  | [x] => [x]
  | x :: y :: t => if x = y then squeeze (y :: t) else x :: squeeze (y :: t)

/-- Slots of bank b in which a flash byte has been programmed. -/
def usedSlots (s : State) (b : Nat) : List Nat :=
  squeeze (s.boot.flash.filterMap (fun e =>
    if logOff b 0 ≤ e.1 ∧ e.1 < logOff b 2048 then some ((e.1 - logOff b 0) / 32) else none))

/-- A log record as read: SEQ, bank, slot and its 32 bytes; bank 2 stands for the RAM ring. -/
structure LogAt where
  seq : Nat
  bank : Nat
  slot : Nat
  bytes : List Byte
deriving DecidableEq, Repr

/-- The valid records of bank b. -/
def bankRecs (s : State) (b : Nat) : List LogAt :=
  (usedSlots s b).filterMap (fun i =>
    let bs := logSlot s b i
    if slotValid bs then some ⟨entryNat bs 0 4, b, i, bs⟩ else none)

/-- A record with its CRC (R610). -/
def sealRec (bs : List Byte) : List Byte := bs ++ leBytes 4 (crc32 bs).toNat

/-- The bytes of a record under its SEQ (R610). -/
def recBytes (s : State) (seq : Nat) (r : LogRec) : List Byte :=
  sealRec (leBytes 4 seq ++ leBytes 2 s.flt.bootNum ++ leBytes 2 r.code ++ leBytes 6 r.frmcnt ++ leBytes 2 r.suppr ++
    leBytes 4 r.uptime ++ (r.data ++ List.replicate 8 0).take 8)

/-- The bytes of a SUMMARY (R612). -/
def summaryBytes (s : State) (seq : Nat) : List Byte :=
  sealRec (leBytes 4 seq ++ leBytes 2 s.flt.bootNum ++ leBytes 2 0x000F ++
    ((s.flt.notes.map (fun c => BitVec.ofNat 8 c)) ++ List.replicate 8 0xFF).take 8 ++
    leBytes 2 (tget 0 s.flt.ret 0) ++ leBytes 2 (tget 0 s.flt.ret 1) ++
    leBytes 1 ((if tget false s.flt.bankF 0 then 1 else 0) + (if tget false s.flt.bankF 1 then 2 else 0)) ++
    leBytes 7 0)

/-- The records that wait to be written, with the SEQ that each will take. -/
def ringRecs (s : State) : List LogAt :=
  ((s.flt.own ++ s.flt.ring).zipIdx).map (fun r => ⟨s.flt.seq + 1 + r.2, 2, r.2, recBytes s (s.flt.seq + 1 + r.2) r.1⟩)

/-- Insertion in descending SEQ. -/
def insRec (x : LogAt) : List LogAt → List LogAt
  | [] => [x]
  | y :: ys => if y.seq < x.seq then x :: y :: ys else y :: insRec x ys

/-- Every record that LOG_READ reaches, in descending SEQ (R624). -/
def logRecs (s : State) : List LogAt :=
  (bankRecs s 0 ++ bankRecs s 1 ++ ringRecs s).foldl (fun l x => insRec x l) []

/-- LOG_SEQ: the SEQ of the newest valid record (R632). -/
def logSeq (s : State) : Nat := ((logRecs s).head?.map (fun x => x.seq)).getD 0

/-- Usable sectors of bank b. -/
def usable (s : State) (b : Nat) : Nat :=
  ((List.range 16).filter (fun i => !(tget 0 s.flt.ret b).testBit i)).length

/-- LOG_STATE (R632). -/
def logState (s : State) : Word :=
  place s.flt.active 0 ||| flag (tget false s.flt.bankF 0) 1 ||| flag (tget false s.flt.bankF 1) 2 |||
    flag (bothFailed s) 3 ||| place s.flt.ring.length 4 ||| place (usable s 0) 16 ||| place (usable s 1) 21

/-- CODE of a record. -/
def LogAt.code (x : LogAt) : Nat := entryNat x.bytes 6 2

/-- The boot history: the 16 newest BOOT records (R625). -/
def bootHistory (s : State) : List (List Byte) :=
  (((logRecs s).filter (fun x => x.code = 1)).take 16).map (fun x => x.bytes)

/-- Bytes of flash programmed. -/
def flashPut (s : State) (a : Nat) (bs : List Byte) : State :=
  { s with boot := { s.boot with flash := tsets 0xFF s.boot.flash a bs } }

/-- The erase counter of a sector rises before its erase starts (R665). -/
def countErase (s : State) (sec : Nat) : State :=
  { s with boot := { s.boot with ecnt := tput s.boot.ecnt sec (tget 0 s.boot.ecnt sec + 1) } }

/-- The bytes of an erased sector read 0xFF. -/
def clearSector (s : State) (sec : Nat) : State :=
  { s with boot := { s.boot with flash := s.boot.flash.filter (fun e => decide (e.1 / 4096 ≠ sec)) } }

/-- A sector erased: its erase counter has risen, and its bytes read 0xFF (R665). -/
def flashErase (s : State) (sec : Nat) : State := clearSector (countErase s sec) sec

/-- Flash bytes whose content the device leaves open: after an abandoned program or erase, or one that failed its verify
(R618, R634). -/
def flashOpen (s : State) (a n : Nat) : State :=
  useFree (flashPut s a ((List.range n).map (fun i => Config.flashByte s.free (a + i))))

/-- The persistent state that the flash holds: what a record changes of it (R613). -/
def replayRec (f : Flt) (x : LogAt) : Flt :=
  let d := fun i n => entryNat x.bytes (20 + i) n
  if x.code = 0x000F then
    { f with notes := ((List.range 8).map (fun i => entryNat x.bytes (8 + i) 1)).filter (fun c => c ≠ 0xFF),
             ret := [(0, entryNat x.bytes 16 2), (1, entryNat x.bytes 18 2)],
             bankF := [(0, (entryNat x.bytes 20 1).testBit 0), (1, (entryNat x.bytes 20 1).testBit 1)] }
  else if x.code = 3 then
    if f.notes.contains (d 0 1) ∨ 8 ≤ f.notes.length then f else { f with notes := f.notes ++ [d 0 1] }
  else if x.code = 4 then { f with notes := f.notes.filter (fun c => c ≠ d 0 1) }
  else if x.code = 5 then
    { f with ret := tput f.ret (d 0 1) (tget 0 f.ret (d 0 1) ||| 2 ^ d 1 1) }
  else if x.code = 0x125 then { f with bankF := tput f.bankF (d 0 1) true }
  else f

/-- The persistent log state that boot rebuilds from the banks: the newest SUMMARY and every later record (R613, R623). -/
def replay (s : State) (f : Flt) : Flt :=
  let rs := logRecs s
  match rs.find? (fun x => x.code = 0x000F) with
  | none => { f with notes := [], ret := [], bankF := [] }
  | some m => (rs.takeWhile (fun x => m.seq ≤ x.seq)).reverse.foldl replayRec { f with notes := [], ret := [], bankF := [] }

end Sys2Proof.Machine
end

