-- ==== Sys2Proof/Machine/FlashCore.lean ====
section
/-! DEFINITION. The flash: its regions, the host commands that run on it one at a time, firmware images and selection records
(R497 to R502, R641 to R645, R652 to R655, R665). -/

namespace Sys2Proof.Machine

open Sys2Proof

/-- Flash offset and size of regions 0 to 8 (R497, R641). -/
def regions : List (Nat × Nat) :=
  [(0x0, 0x40000), (0x40000, 0x40000), (0x80000, 0x10000), (0x90000, 0x10000), (0xA0000, 0x10000), (0xB0000, 0x10000),
   (0xE0000, 0x4000), (0xC0000, 0x10000), (0xD0000, 0x10000)]

/-- Offset and size of region r. -/
def region (r : Nat) : Nat × Nat := nth (0, 0) regions r

/-- Offset of a flash byte within its region; boot control counts from its own start. -/
def regionOff (a : Nat) : Nat :=
  a - ((regions.find? (fun r : Nat × Nat => decide (r.1 ≤ a) && decide (a < r.1 + r.2))).map (fun r : Nat × Nat => r.1)).getD 0xE4000

/-- The order of a flash operation. -/
def FlashOp.ord : FlashOp → Order
  | .erase _ _ o => o
  | .program _ _ _ _ _ _ o => o
  | .select _ o => o

/-- The span of flash that an erase or a write touches (R657). -/
def FlashOp.span : FlashOp → Nat × Nat
  | .erase f n _ => (4096 * f, 4096 * n)
  | .program off len _ _ _ _ _ => (off, len)
  | .select _ _ => (0, 0)

/-- A flash command that runs or waits touches region r. -/
def flashPending (s : State) (r : Nat) : Bool :=
  (s.boot.op.toList ++ s.boot.waiting).any (fun o => decide (o.span.2 ≠ 0) &&
    decide (o.span.1 < (region r).1 + (region r).2) && decide ((region r).1 < o.span.1 + o.span.2))

/-- BUSY cause 6: region r holds the running firmware image, or a load from it is in progress or armed (R498, R661). -/
def regionBusy (s : State) (r : Nat) : Bool :=
  decide (s.boot.running = some r) ||
  (decide (r = 2 ∨ r = 3) &&
    ((s.hdg.load == .loading && decide (s.hdg.loadSrc = r - 1)) || (s.hdg.load == .armed && decide (s.hdg.armSrc = r - 1)))) ||
  (decide (r = 4) && s.prt.opens.any (fun w => match w.wait with
    | .topVerify _ => !s.prt.msgs.any (fun m => m.2.ord.stamp == w.ord.stamp)
    | _ => false))

/-- A flash command starts; an erase raises the counters of its sectors (R665). -/
def flashStart (s : State) (op : FlashOp) : State :=
  let s1 := { s with boot := { s.boot with op := some op } }
  match op with
  | .erase f n _ => forEach (List.range n) s1 (fun s i => countErase s (f + i))
  | _ => s1

/-- The next flash command starts when none runs and no return record is being written (R498). -/
def flashNext (s : State) : State :=
  if s.boot.op.isSome || !s.flt.capturing.isEmpty then s
  else
    match s.boot.waiting with
    | [] => s
    | o :: rest => flashStart { s with boot := { s.boot with waiting := rest } } o

/-- A flash command takes its place in stamp order. -/
def insFlash (x : FlashOp) : List FlashOp → List FlashOp
  | [] => [x]
  | y :: ys => if x.ord.stamp < y.ord.stamp then x :: y :: ys else y :: insFlash x ys

/-- A flash command joins those that wait, and starts when the flash is free (R498). -/
def flashQueue (s : State) (op : FlashOp) : State :=
  flashNext { s with boot := { s.boot with waiting := insFlash op s.boot.waiting } }

/-- A cancelled flash command leaves the flash (R476). -/
def flashDrop (s : State) (o : Order) : State :=
  let s1 := match s.boot.op with
    | some op => if op.ord.stamp = o.stamp then { s with boot := { s.boot with op := none } } else s
    | none => s
  flashNext { s1 with boot := { s1.boot with waiting := s1.boot.waiting.filter (fun op => op.ord.stamp != o.stamp) } }

/-- The lower of two failing words. -/
def worst (a b : Option Nat) : Option Nat :=
  match a, b with
  | some x, some y => some (min x y)
  | some x, none => some x
  | none, y => y

/-- Four bytes programmed at `a`: over unerased flash the word does not verify, and its content is open (R500). -/
def programWord (r : State × Option Nat) (w : Nat × List Byte) : State × Option Nat :=
  if slotErased (flashBytes r.1 w.1 4) then (flashPut r.1 w.1 w.2, r.2)
  else (flashOpen r.1 w.1 4, worst r.2 (some w.1))

/-- Data of a FLASH_WRITE programmed as they arrive, `got` bytes having come before (R500). -/
def programData (s : State) (got : Nat) (data : List Byte) : State :=
  match s.boot.op with
  | some (.program off len _ _ bad _ o) =>
    let ws := (List.range (data.length / 4)).map (fun i => (off + got + 4 * i, (data.drop (4 * i)).take 4))
    let r := ws.foldl programWord (s, bad)
    { r.1 with boot := { r.1.boot with
      op := some (.program off len (off + got) data.length r.2 (decide (len ≤ got + data.length)) o) } }
  | _ => s

/-- MAGIC of a firmware image (R644). -/
def fwMagic : List Byte := [0x46, 0x57, 0x49, 0x4D]

/-- Header of the firmware image in a slot. -/
def fwHeader (s : State) (slot : Nat) : List Byte := flashBytes s (region slot).1 96

/-- Bytes of a header field. -/
def zeroField (h : List Byte) (off n : Nat) : Bool := decide (entryNat h off n = 0)

/-- Check 3 of R652: the lengths and offsets of a firmware header (R644, R645). -/
def fwFieldsOk (h : List Byte) : Bool :=
  let plen := entryNat h 0x18 4
  let code := entryNat h 0x4C 4
  let data := entryNat h 0x50 4
  let signed := decide (entryNat h 0x1C 2 % 2 = 1)
  decide (code % 4 = 0) && decide (4 ≤ code) && decide (code ≤ 32768) && decide (data % 4 = 0) && decide (data ≤ 32768) &&
  decide (plen = code + data) && decide (entryNat h 0x48 4 < code) && decide (entryNat h 0x48 4 % 4 = 0) &&
  decide (entryNat h 0x54 4 < code) && decide (entryNat h 0x54 4 % 512 = 0) && decide (entryNat h 0x1C 2 < 2) &&
  zeroField h 0x16 2 && zeroField h 0x1E 2 && decide (imageLen signed plen ≤ 0x40000)

/-- A slot's header is usable: checks 1 and 3 of R652 (R655). -/
def fwUsable (s : State) (slot : Nat) : Bool := headerOk (fwHeader s slot) fwMagic && fwFieldsOk (fwHeader s slot)

/-- The check of the firmware image in a slot: status and DETAIL of the first check that fails (R652). -/
def fwCheck (s : State) (slot : Nat) : Option (Nat × Nat) :=
  let h := fwHeader s slot
  let plen := entryNat h 0x18 4
  let signed := decide (entryNat h 0x1C 2 % 2 = 1)
  if !headerOk h fwMagic then some (0x32, 1)
  else if tupleFail s .firmware h ≠ 0 then some (0x31, tupleFail s .firmware h)
  else if !fwFieldsOk h then some (0x32, 1)
  else
    let im := flashBytes s (region slot).1 (imageLen signed plen)
    if !pcrcOk im 0x20 plen then some (0x32, 2)
    else if entryNat h 0x58 4 ≠ (crc32 ((im.drop 96).take (entryNat h 0x4C 4))).toNat then some (0x32, 2)
    else if !digestOk im plen then some (0x32, 3)
    else if !authOk s im signed plen then some (0x32, 4)
    else none

/-- MAGIC of a selection record (R653). -/
def selMagic : List Byte := [0x42, 0x53, 0x45, 0x4C]

/-- Selection record i, 0 to 255, of the two boot control sectors. -/
def selRec (s : State) (i : Nat) : List Byte := flashBytes s (0xE4000 + 32 * i) 32

/-- A selection record is valid (R653). -/
def selValid (b : List Byte) : Bool :=
  decide (b.take 4 = selMagic) && decide (entryNat b 8 1 < 2) && zeroField b 9 3 && zeroField b 20 8 &&
    decide (entryNat b 28 4 = (crc32 (b.take 28)).toNat)

/-- Slots of boot control in which a byte has been programmed. -/
def usedSel (s : State) : List Nat :=
  squeeze (s.boot.flash.filterMap (fun e =>
    if 0xE4000 ≤ e.1 ∧ e.1 < 0xE6000 then some ((e.1 - 0xE4000) / 32) else none))

/-- The newest selection record: its slot and its bytes (R653). -/
def newestSel (s : State) : Option (Nat × List Byte) :=
  ((usedSel s).map (fun i => (i, selRec s i))).foldl (fun (m : Option (Nat × List Byte)) (x : Nat × List Byte) =>
    if !selValid x.2 then m
    else
      match m with
      | some y => if entryNat y.2 4 4 < entryNat x.2 4 4 then some x else m
      | none => some x) none

/-- Where the next selection record goes, and whether its sector is erased first (R654). With no record yet it goes into the
first boot control sector. -/
def selTarget (s : State) : Nat × Bool :=
  let sec := ((newestSel s).map (fun x => x.1 / 128)).getD 0
  match (List.range 128).find? (fun i => slotErased (selRec s (128 * sec + i))) with
  | some i => (0xE4000 + 32 * (128 * sec + i), false)
  | none => (0xE4000 + 4096 * (1 - sec), true)

/-- The selection record for the image in a slot (R653). -/
def selBytes (s : State) (slot : Nat) : List Byte :=
  let h := fwHeader s slot
  let n := ((newestSel s).map (fun x => entryNat x.2 4 4 + 1)).getD 1
  sealRec (selMagic ++ leBytes 4 n ++ leBytes 4 slot ++ (h.drop 0x24).take 4 ++ (h.drop 0x20).take 4 ++ leBytes 8 0)

end Sys2Proof.Machine
end

