-- ==== Sys2Proof/Machine/Regs.lean ====
section
/-! DEFINITION. What a read of each management register returns, to whom, and what it latches (R16, R81, R115, R116, R194,
R195, R212, R287, R288, R380, R409, R436, R448, R579, R580, R583, R599, R632, R667, R704, R706 to R717). -/

namespace Sys2Proof.Machine

open Sys2Proof

/-- The device is in SAFE mode (R661). -/
def safeMode (s : State) : Bool := bit (rd s 0x0008) 2

/-- Partition p is enabled (R381). -/
def partOn (s : State) (p : Nat) : Bool := decide (p = 0) || bit (rd s (0x0A10 + 4 * p)) 0

/-- Partition p holds the right of bit b (R383). -/
def hasRight (s : State) (p b : Nat) : Bool := decide (p = 0) || bit (rd s (0x0A10 + 4 * p)) (8 + b)

/-- A write to register `a` awaits its boundary. -/
def writePending (s : State) (a : Nat) : Bool :=
  s.prt.changes.any (fun c => match c.kind with
    | .writes ws => ws.any (fun w => w.1 = a)
    | _ => false)

/-- BOOT_ registers (R667). -/
def bootVal (s : State) (a : Nat) : Word :=
  if a = 0x00 then Config.deviceId
  else if a = 0x04 then
    place 0x42 0 ||| place (if s.boot.stepB1 then 0x31 else 0x30) 8 ||| place (stepBit s) 16
  else if a = 0x08 then rd s a ||| flag s.boot.authFuse 8 ||| flag (s.boot.ecnt.any (fun e => 100000 ≤ e.2)) 9
  else if a = 0x14 then Config.hedgeId
  else if a = 0x1C then
    flag s.boot.authFuse 0 ||| flag (tfind s.boot.keys 0).isSome 1 ||| flag (tfind s.boot.keys 1).isSome 2
  else if a = 0x28 then BitVec.ofNat 32 (tget 0 s.boot.ecnt (fld (rd s 0x24) 0 8))
  else rd s a

/-- PWR_ registers (R704). -/
def pwrVal (s : State) (a : Nat) : Word :=
  if a = 0x0100 then place s.pwr.st 0 ||| place s.pwr.target 2 ||| flag s.pwr.pend 4
  else if a = 0x0104 then rdStaged s a
  else if a = 0x0108 then place (arrClock s) 0 ||| place s.pwr.cndClk 8
  else if a = 0x0110 then place s.pwr.supplies.toNat 0
  else rd s a

/-- Written values of the angle units await a frame boundary, ANG_STATUS.CFGPEND. -/
def cfgPend (s : State) : Bool :=
  s.prt.changes.any (fun c => match c.unit with
    | .angle => true
    | .event _ => true
    | .pacer _ => true
    | _ => false)

/-- ANG_ registers. -/
def angVal (s : State) (a : Nat) : Word :=
  if a = 0x0204 then
    place (angCode s.ang.st) 0 ||| flag s.ang.revHold 3 ||| flag s.ang.clamped 4 ||| flag s.ang.slewing 5 |||
      flag (cfgPend s) 6
  else if a = 0x020C then angWord s
  else if a = 0x0218 then s.ang.pos
  else if a = 0x0264 then rdStaged s (evtKey (fld (rd s 0x0260) 0 6) false)
  else if a = 0x0268 then rdStaged s (evtKey (fld (rd s 0x0260) 0 6) true)
  else rd s a

/-- Frame state codes in FRM_STATE (R85). -/
def fstateCode : FState → Nat
  | .opening => 1
  | .ingesting => 2
  | .closed => 3
  | .computing => 4
  | .posting => 5
  | .drained => 6

/-- FRM_PROGk (R114). -/
def progVal (s : State) (k : Nat) : Word :=
  let p := prog s k
  place (k / 4) 0 ||| place p.prio 2 ||| flag p.loaded 6 ||| flag p.enabled 7 ||| flag (enPend s k) 8 ||| flag p.susp 9 |||
    place (if p.loaded then p.sbands else 0) 10

/-- FRM_ registers. -/
def frmVal (s : State) (a : Nat) : Word :=
  if a = 0x0304 then
    let c := fun i => ((s.frm.frames[i]?).map (fun f => fstateCode f.st)).getD 0
    place (c 0) 0 ||| place (c 1) 3 ||| flag (((s.frm.frames.head?).map (fun f => f.half)).getD false) 6 |||
      flag s.frm.comp.isSome 7 ||| place ((s.frm.comp.map (fun k => k.fp)).getD 0) 8
  else if a = 0x030C then BitVec.ofNat 32 s.ang.count48.toNat
  else if a = 0x0318 then BitVec.ofNat 32 (frameLoad (admSet s))
  else if 0x0340 ≤ a ∧ a < 0x0380 then progVal s ((a - 0x0340) / 4)
  else if 0x0380 ≤ a ∧ a < 0x03C0 then
    let p := prog s ((a - 0x0380) / 4)
    if p.loaded then BitVec.ofNat 32 (ownCount (grouped s) p) else 0
  else if 0x03C0 ≤ a then
    BitVec.ofNat 32 ((((budgets (admSet s) 0).find? (fun b => b.1 = (a - 0x03C0) / 4)).map (fun b => b.2)).getD 0)
  else if a = 0x0300 then rdStaged s a
  else rd s a

/-- Four bytes of a list as a word, 0xFF where it ends. -/
def bytes4 (l : List Nat) : Word := BitVec.ofNat 32 (leNat (((l.map (fun c => BitVec.ofNat 8 c)) ++ List.replicate 4 0xFF).take 4))

/-- ARR_ registers. -/
def arrVal (s : State) (a : Nat) : Word :=
  if a = 0x0400 then
    flag s.arr.bistDone 0 ||| flag s.arr.bistFail 1 ||| place s.arr.map.length 2 ||| flag (arrIdle s) 5 |||
      place (if arrIdle s ∨ s.pwr.st ≠ 0 ∨ !s.arr.bistDone then 0 else s.arr.bandsOn.toNat) 8
  else if a = 0x0408 then bytes4 s.arr.map
  else if a = 0x0414 then flag s.arr.any 0
  else if a = 0x0418 then place s.arr.tally 0
  else if a = 0x041C ∨ (0x0420 ≤ a ∧ a < 0x0430) then rdStaged s a
  else if a = 0x0430 then bytes4 (s.flt.notes.take 4)
  else if a = 0x0434 then bytes4 (s.flt.notes.drop 4)
  else rd s a

/-- MSQ_STATUS (R731). -/
def msqStatus (s : State) : Word :=
  let fp := (s.frm.comp.map (fun k => k.fp)).getD 0
  match s.arr.run with
  | some r =>
    flag true 0 ||| flag r.wait.isSome 1 ||| flag r.committed 2 ||| flag (r.bind.attr.testBit 2) 3 |||
      place (0x1000 + 64 * fld (rd s (0x0520 + 4 * fpPart fp)) 0 6 + r.upc) 4 ||| place (fpPart fp) 17 ||| place fp 19
  | none => place (fpPart fp) 17 ||| place fp 19

/-- MSQ_ registers (R289). -/
def msqVal (s : State) (a : Nat) : Word :=
  let p := a % 16 / 4
  if a = 0x0500 then msqStatus s
  else if a = 0x0518 then rd s a ||| place s.arr.restarts 16
  else if a = 0x051C then Config.romId s.boot.stepB1
  else if 0x0520 ≤ a ∧ a < 0x0530 then rdStaged s a
  else if 0x0530 ≤ a ∧ a < 0x0540 then ((tfind s.arr.top p).map (fun i => i.crc)).getD 0
  else if 0x0540 ≤ a then
    flag (tfind s.arr.top p).isSome 0 ||| flag (tfind s.arr.topArm p).isSome 1 ||| flag (topHeld s p) 2 |||
      place (((tfind s.arr.top p).map (fun i => i.nrout)).getD 0) 3 |||
      place (((tfind s.arr.top p).map (fun i => i.nwords)).getD 0) 10
  else rd s a

/-- Current window (R322). -/
def cwp (s : State) : Nat := fld s.cnd.wp 0 3

/-- CSTAT.HM: handler mode. -/
def hm (s : State) : Bool := bit s.cnd.cstat 16

/-- ANGLE_EVENT is pending for the current handler (R373): the lowest entry with its bit set that belongs to the handler's
partition and has not been delivered in this run. -/
def angEvent (s : State) : Option Nat :=
  match s.cnd.handler with
  | none => none
  | some h =>
    let p := prog s h.fp
    if h.up.isSome ∨ p.eventry.isNone ∨ p.evmax ≤ h.ups then none
    else (List.range 64).find? (fun n =>
      bit (rd s (if n < 32 then 0x0270 else 0x0274)) (n % 32) && decide (fld (evtB s n) 21 2 = h.part) &&
        !h.delivered.contains n)

/-- CND_IPEND (R380). -/
def ipend (s : State) : Word := (s.cnd.ipend.setWidth 32 &&& 0x1FF) ||| flag (angEvent s).isSome 9

/-- CND_ registers (R379, R380). -/
def cndVal (s : State) (a : Nat) : Word :=
  if a = 0x0604 then
    flag (hm s) 0 ||| place (cwp s) 1 ||| flag s.cnd.handler.isSome 4 |||
      flag ((s.cnd.handler.map (fun h => h.up.isSome)).getD false) 5 ||| flag s.cnd.indf 6 |||
      place ((s.cnd.handler.map (fun h => h.part)).getD 0) 7 ||| place ((s.cnd.handler.map (fun h => h.fp)).getD 0) 9
  else if a = 0x0630 then ipend s
  else if a = 0x063C then BitVec.ofNat 32 ((s.cnd.handler.map (fun h => h.budget)).getD 0)
  else if 0x06A0 ≤ a then s.cnd.win.toList.getD (8 * fld (rd s 0x0680) 0 3 + (a - 0x06A0) / 4) 0
  else rd s a

/-- HDG_ registers. -/
def hdgVal (s : State) (a : Nat) : Word :=
  if a = 0x0700 then
    flag s.hdg.bank 0 ||| place (match s.hdg.load with | .idle => 0 | .loading => 1 | .armed => 2) 1 |||
      flag (!bankOn s 0) 3 ||| flag (!bankOn s 1) 4 ||| flag s.hdg.x32Ok 5 ||| flag s.hdg.pllOk 6
  else if 0x0710 ≤ a ∧ a < 0x0750 then rdStaged s a
  else if a = 0x0754 then flag s.hdg.capArmed 0 ||| flag s.hdg.capFull 1
  else rd s a

/-- SCB_CTRL as read (R194): the value written while it awaits its boundary, else the operative value. -/
def scbCtrl (s : State) : Word :=
  let w := rdStaged s 0x0800
  let region := (vote (fun c => c.region) s.scb.copies).getD s.scb.golden.region
  let period := (vote (fun c => c.period) s.scb.copies).getD s.scb.golden.period
  if writePending s 0x0800 then flag (bit w 0 || opEn s) 0 ||| (w &&& 0xFF06)
  else flag (opEn s) 0 ||| place region 1 ||| place period 8

/-- SCB_ registers (R194, R195). -/
def scbVal (s : State) (a : Nat) : Word :=
  let g := fun lo => BitVec.ofNat 32 (((List.range 32).map (fun i => if gated s (lo + i) then 2 ^ i else 0)).sum)
  if a = 0x0800 then scbCtrl s
  else if a = 0x0804 then
    flag (passesRun s) 0 ||| flag s.scb.pass.isSome 1 ||| flag (gated s 64) 2 ||| flag (gated s 65) 3 |||
      flag s.scb.safe 4 ||| place (opSrc s) 5 |||
      flag (s.prt.changes.any (fun c => match c.kind with | .scrubOff => true | _ => false)) 7
  else if a = 0x0818 then g 0
  else if a = 0x081C then g 32
  else if a = 0x0820 then BitVec.ofNat 32 s.scb.suspAt.toNat
  else if a = 0x0828 then s.scb.nonce
  else rd s a

/-- SMP_ registers. -/
def smpVal (s : State) (a : Nat) : Word :=
  if 0x0940 ≤ a ∧ a < 0x09C0 then rdStaged s a
  else if 0x09C0 ≤ a then place (fillOf s ((a - 0x09C0) / 4)) 0
  else rd s a

/-- PRT_MBX_STAT.STATE (R400). -/
def mbxCode : MbxState → Nat
  | .idle => 0
  | .dispatched => 1
  | .accepted => 2
  | .ready => 3

/-- PRT_ registers (R409, R410). -/
def prtVal (s : State) (a : Nat) : Word :=
  let four_ := List.range 4
  if a = 0x0A00 then
    BitVec.ofNat 32 ((four_.map (fun p => (if tget false s.prt.holdAct p then 2 ^ p else 0) +
      (if partOn s p then 2 ^ (4 + p) else 0))).sum) |||
      flag (s.prt.mbx == .dispatched || s.prt.mbx == .accepted) 8
  else if a = 0x0A08 then BitVec.ofNat 32 s.prt.stamp
  else if a = 0x0A10 then 0xFF01
  else if 0x0A10 ≤ a ∧ a < 0x0A70 then rdStaged s a
  else if 0x0A70 ≤ a ∧ a < 0x0A80 then
    let p := (a - 0x0A70) / 4
    place (tget 0 s.prt.skip p) 0 ||| place (holdQ s p).length 16 ||| flag (tget false s.prt.holdAct p) 31
  else if 0x0A80 ≤ a ∧ a < 0x0AC0 then
    let p := (a - 0x0A80) / 16
    let t := match a % 16 / 4 with
      | 0 => s.prt.sqHead
      | 1 => s.prt.sqTail
      | 2 => s.prt.rqHead
      | _ => s.prt.rqTail
    place (tget 0 t p) 0
  else if a = 0x0AC0 then place (mbxCode s.prt.mbx) 0 ||| place (s.prt.mbxStamp % 65536) 16
  else rd s a

/-- LNK_ registers (R448). -/
def lnkVal (s : State) (a : Nat) : Word :=
  if a = 0x0B04 then
    place s.lnk.next.toNat 0 ||| flag s.lnk.quad 8 ||| place s.lnk.used 9 ||| flag (decide (s.lnk.used ≠ 0)) 11
  else if a = 0x0B20 then flag s.lnk.pecWr 0
  else if a = 0x0B24 then place (s.boot.straps.toNat % 4) 0 ||| flag s.lnk.pecOn 2
  else rd s a

/-- A checkpoint slot that holds nothing. -/
def ckptZero : Ckpt := { sealed_ := false, num := 0, count := 0, blocks := [], ctl := none }

/-- Checkpoint slot i. -/
def ckptSlot (s : State) (i : Nat) : Ckpt := tget ckptZero s.grp.slots i

/-- GRP_ registers (R579, R580). -/
def grpVal (s : State) (a : Nat) : Word :=
  let last := ckptSlot s s.grp.lastSlot
  let on := decide (s.grp.role ≠ 0)
  if a = 0x0C00 then
    place s.grp.role 0 ||| flag s.grp.forming 2 |||
      flag (decide (s.grp.ckSealed ≠ 0) || (ckptSlot s 0).sealed_ || (ckptSlot s 1).sealed_) 3 |||
      place (ownPos s) 8 ||| place s.boot.straps.toNat 10 |||
      (if on then place s.grp.members.toNat 4 ||| place s.grp.leadPos 14 ||| place (s.grp.stbyPos.getD 0) 16 |||
        flag s.grp.stbyPos.isSome 18 else 0) ||| flag s.grp.shLock 19 ||| flag s.grp.retired 20
  else if a = 0x0C0C then place Config.groupVersion 0 ||| place Config.pagenVersion 8
  else if a = 0x0C10 then
    flag (ckptSlot s 0).sealed_ 0 ||| flag (ckptSlot s 1).sealed_ 1 ||| place s.grp.lastSlot 2 |||
      place (last.num % 2 ^ 24) 8
  else if a = 0x0C14 then BitVec.ofNat 32 last.count.toNat
  else if a = 0x0C40 then lpStat s 0
  else if a = 0x0C50 then lpStat s 1
  else rd s a

/-- TRC_ registers (R581 to R599). -/
def trcVal (s : State) (a : Nat) : Word :=
  if a = 0x0D00 then
    BitVec.ofNat 32 (((List.range 4).map (fun p => if (trc s p).rec_ = 0 then 0 else 2 ^ p)).sum)
  else if a = 0x0D20 then BitVec.ofNat 32 (refTime s)
  else if 0x0D40 ≤ a then
    let x := trc s ((a - 0x0D40) / 48)
    let o := (a - 0x0D40) % 48
    if o = 0x24 then
      flag (decide (x.rec_ ≠ 0)) 0 ||| flag x.triggered 1 ||| flag x.stopPost 2 ||| flag x.stopSeq 3 ||| place x.seqSt 4 |||
        flag x.lostSeen 6
    else if o = 0x28 then BitVec.ofNat 32 x.wptr
    else if o = 0x2C then place x.c0 0 ||| place x.c1 16
    else rd s a
  else rd s a

/-- LOG_ and TMP_ registers (R632, R704). -/
def logVal (s : State) (a : Nat) : Word :=
  if a = 0x0F00 then logState s
  else if a = 0x0F04 then place (logRecs s).length 0
  else if a = 0x0F08 then BitVec.ofNat 32 (logSeq s)
  else if a = 0x0F14 then place (s.flt.bootNum % 65536) 0 ||| place (fld (rd s 0x000C) 0 4) 16
  else if a = 0x0F80 then
    place (s.pwr.temp % 65536).toNat 0 |||
      flag ((s.pwr.arrRun && decide (s.pwr.arrClk < targetClk s)) ||
        (decide (s.pwr.st = 0) && decide (s.pwr.cndClk < targetClk s))) 16 ||| flag s.pwr.floor 17
  else if a = 0x0F8C then place (s.pwr.peak % 65536).toNat 0
  else rd s a

/-- The current value of the register at address `a`, whoever reads it; 0 at a reserved address (R16, R706 to R708). -/
def regVal (s : State) (a : Nat) : Word :=
  if (regRow a).isNone then 0
  else if a < 0x0100 then bootVal s a
  else if a < 0x0200 then pwrVal s a
  else if a < 0x0280 then
    (if a = 0x0200 ∨ (0x021C ≤ a ∧ a ≤ 0x0248) then rdStaged s a else angVal s a)
  else if a < 0x0300 then rdStaged s a
  else if a < 0x0400 then frmVal s a
  else if a < 0x0500 then arrVal s a
  else if a < 0x0600 then msqVal s a
  else if a < 0x0700 then cndVal s a
  else if a < 0x0800 then hdgVal s a
  else if a < 0x0900 then scbVal s a
  else if a < 0x0A00 then smpVal s a
  else if a < 0x0B00 then prtVal s a
  else if a < 0x0C00 then lnkVal s a
  else if a < 0x0D00 then grpVal s a
  else if a < 0x0E00 then trcVal s a
  else if a < 0x0F00 then rd s a
  else logVal s a

/-- Partition that a record in MSQ_TRAPINFO, MSQ_FAULTINFO or CND_HTRAP describes. -/
def describedPart (s : State) (a : Nat) : Nat :=
  if a = 0x0508 ∨ a = 0x050C then bits (rd64 s 0x0508) 36 2
  else if a = 0x0510 ∨ a = 0x0514 then bits (rd64 s 0x0510) 4 2
  else bits (rd64 s 0x0640) 45 2

/-- A read of register `a` by partition p returns 0 because the register is not its own (R712). -/
def hidden (s : State) (p a : Nat) : Bool :=
  if 0x0340 ≤ a ∧ a < 0x0400 then decide (p ≠ 0) && decide (p ≠ a % 64 / 16)
  else if a = 0x0414 ∨ a = 0x0418 then s.arr.redPart != some p
  else if (0x0508 ≤ a ∧ a < 0x0518) ∨ a = 0x0640 ∨ a = 0x0644 then decide (p ≠ 0) && decide (p ≠ describedPart s a)
  else if 0x0530 ≤ a ∧ a < 0x0550 then decide (p ≠ 0) && decide (p ≠ a % 16 / 4)
  else if 0x0A10 ≤ a ∧ a < 0x0A80 then decide (p ≠ 0) && decide (p ≠ a % 16 / 4)
  else if 0x0A80 ≤ a ∧ a < 0x0AC0 then decide (p ≠ 0) && decide (p ≠ (a - 0x0A80) / 16)
  else if 0x0D40 ≤ a ∧ a < 0x0E00 then decide (p ≠ 0) && decide (p ≠ (a - 0x0D40) / 48)
  else if 0x0E00 ≤ a ∧ a < 0x0F18 then !hasRight s p 5
  else false

/-- The copy that a read of the first register of a pair makes (R81, R115, R195, R287, R380, R580, R599, R716). -/
def latch (s : State) (a : Nat) : State :=
  if a = 0x020C then
    wr (wr s 0x0210 (BitVec.ofNat 32 s.ang.count48.toNat)) 0x0214 (BitVec.ofNat 32 (s.ang.count48.toNat / 2 ^ 32))
  else if a = 0x030C then wr s 0x0310 (BitVec.ofNat 32 (s.ang.count48.toNat / 2 ^ 32))
  else if a = 0x0820 then wr s 0x0824 (BitVec.ofNat 32 (s.scb.suspAt.toNat / 2 ^ 32))
  else if a = 0x0508 ∨ a = 0x0510 ∨ a = 0x0640 then wr s (a + 4) (rd s (hiKey a))
  else if a = 0x0C14 then wr s 0x0C18 (BitVec.ofNat 32 ((ckptSlot s s.grp.lastSlot).count.toNat / 2 ^ 32))
  else if a = 0x0D20 then wr s 0x0D24 (BitVec.ofNat 32 (refTime s / 2 ^ 32))
  else s

/-- A read of register `a` by partition p: the value it gets and what the read latches. A read that returns 0 for want of
access latches nothing (R708, R712, R716). -/
def regRead (s : State) (p a : Nat) : State × Word := if hidden s p a then (s, 0) else (latch s a, regVal s a)

/-- `n` registers from `a`, read in ascending order (R432). -/
def regReads (p : Nat) : Nat → Nat → State → State × List Word
  | 0, _, s => (s, [])
  | n + 1, a, s =>
    let r := regRead s p a
    let t := regReads p n (a + 4) r.1
    (t.1, r.2 :: t.2)

/-- ANG_WORD_READ (R81). -/
def execAngWordRead (s : State) : Host.Outcome State Fault Refusal := .next (latch s 0x020C)

/-- FRM_CNT_LO_READ (R115). -/
def execFrmCntLoRead (s : State) : Host.Outcome State Fault Refusal := .next (latch s 0x030C)

/-- SCB_SUSP_LO_READ (R195). -/
def execScbSuspLoRead (s : State) : Host.Outcome State Fault Refusal := .next (latch s 0x0820)

/-- MSQ_TRAPINFO_READ (R287, R288): a read of the low word by partition p. -/
def execMsqTrapinfoRead (p : Fin 4) (s : State) : Host.Outcome State Fault Refusal := .next (regRead s p 0x0508).1

/-- MSQ_FAULTINFO_READ (R287, R288): a read of the low word by partition p. -/
def execMsqFaultinfoRead (p : Fin 4) (s : State) : Host.Outcome State Fault Refusal := .next (regRead s p 0x0510).1

/-- CND_HTRAP_READ (R380): a read of the low word by partition p. -/
def execCndHtrapRead (p : Fin 4) (s : State) : Host.Outcome State Fault Refusal := .next (regRead s p 0x0640).1

/-- GRP_CKFRM_LO_READ (R580). -/
def execGrpCkfrmLoRead (s : State) : Host.Outcome State Fault Refusal := .next (latch s 0x0C14)

/-- TRC_TIME_LO_READ (R599). -/
def execTrcTimeLoRead (s : State) : Host.Outcome State Fault Refusal := .next (latch s 0x0D20)

end Sys2Proof.Machine
end

