-- ==== Sys2Proof/Machine/RegOps.lean ====
section
/-! DEFINITION. Writes of management registers: reserved bits and values, the access codes, the ring pointers, and the event
entry window (R16 to R19, R43, R77, R82, R114, R119, R188, R200, R289, R386, R390 to R394, R410, R579, R597, R705 to R709,
R717, R721, R722). -/

namespace Sys2Proof.Machine

open Sys2Proof

/-- A field check of a register: lowest bit, width and the values it defines. -/
structure FieldRule where
  lo : Nat
  w : Nat
  min : Nat
  max : Nat
deriving DecidableEq, Repr

/-- The serial port's LEN field under the mode of the same value (R119). -/
def lenRule (v : Word) : List FieldRule :=
  if fld v 0 2 = 2 then [⟨12, 5, 0, 23⟩] else if fld v 0 2 = 1 then [⟨12, 5, 4, 7⟩] else []

/-- The fields with reserved enumeration values in the register at `a` (`v` is the value written). -/
def fieldRules (a : Nat) (v : Word) : List FieldRule :=
  if a = 0x0104 then [⟨0, 8, 50, 200⟩]
  else if a = 0x0200 then [⟨0, 3, 0, 4⟩]
  else if a = 0x0230 then [⟨0, 16, 1000, 50000⟩]
  else if a = 0x0238 then [⟨0, 6, 4, 32⟩]
  else if a = 0x0240 then [⟨0, 5, 2, 16⟩]
  else if a = 0x0248 then [⟨0, 25, 500, 20000000⟩]
  else if a = 0x0264 then [⟨26, 3, 0, 6⟩]
  else if a = 0x0300 then [⟨0, 8, 50, 200⟩]
  else if (0x0420 ≤ a ∧ a < 0x0430) ∨ (0x0520 ≤ a ∧ a < 0x0530) then [⟨6, 7, 0, 64⟩]
  else if 0x0730 ≤ a ∧ a < 0x0750 then (if a % 8 = 0 then lenRule v else [])
  else if a = 0x0800 then [⟨1, 2, 0, 1⟩, ⟨8, 8, 1, 255⟩]
  else if 0x0940 ≤ a ∧ a < 0x0980 then [⟨12, 11, 0, 1024⟩]
  else if 0x0980 ≤ a ∧ a < 0x09C0 then [⟨0, 6, 0, 39⟩, ⟨6, 6, 0, 43⟩]
  else if 0x0A20 ≤ a ∧ a < 0x0A30 then [⟨0, 7, 32, 127⟩, ⟨8, 7, 0, 32⟩]
  else if 0x0A30 ≤ a ∧ a < 0x0A50 then [⟨0, 7, 32, 127⟩, ⟨8, 7, 0, 96⟩]
  else if 0x0A50 ≤ a ∧ a < 0x0A60 then [⟨0, 6, 32, 63⟩, ⟨8, 6, 0, 32⟩]
  else if 0x0A60 ≤ a ∧ a < 0x0A70 then [⟨0, 3, 0, 4⟩, ⟨4, 3, 0, 4⟩]
  else if a = 0x0C08 then [⟨0, 4, 1, 15⟩]
  else if 0x0D40 ≤ a ∧ a < 0x0E00 then
    let o := (a - 0x0D40) % 48
    if o = 8 then [⟨0, 5, 0, 15⟩]
    else if o = 0x10 ∨ o = 0x14 ∨ o = 0x18 then [⟨0, 5, 0, 15⟩, ⟨8, 5, 0, 15⟩, ⟨20, 5, 0, 15⟩]
    else []
  else if a = 0x0F84 then [⟨0, 8, 70, 105⟩, ⟨8, 4, 1, 15⟩, ⟨16, 8, 60, 105⟩]
  else []

/-- The value holds a defined value of the field. -/
def FieldRule.ok (r : FieldRule) (v : Word) : Bool := decide (r.min ≤ fld v r.lo r.w) && decide (fld v r.lo r.w ≤ r.max)

/-- The pin fields of HDG_SPn_PINS that hold a reserved number. -/
def badPins (a : Nat) (v : Word) : List FieldRule :=
  if 0x0730 ≤ a ∧ a < 0x0750 ∧ a % 8 = 4 then
    (([0, 8, 16, 24] : List Nat).filter (fun i => !pinOk (fld v i 6))).map (fun i => ⟨i, 6, 0, 63⟩)
  else []

/-- MODM of an event entry has a bit at or above MODK (R77). -/
def badModm (a : Nat) (v : Word) (modk : Nat) : List FieldRule :=
  if a = 0x0264 ∧ 2 ^ modk ≤ fld v 20 6 then [⟨20, 6, 0, 63⟩] else []

/-- The fields of a written value that keep what they held, in `old`. -/
def keepFields (a : Nat) (old v : Word) : List FieldRule :=
  let k := if fld v 26 3 = 7 then fld old 26 3 else fld v 26 3
  (fieldRules a v).filter (fun r => !r.ok v) ++ badPins a v ++ badModm a v k

/-- The value that a write leaves: reserved bits ignored, fields written with a reserved value kept (R17, R43). -/
def written (a mask : Nat) (old v : Word) : Word :=
  let w := v &&& BitVec.ofNat 32 mask
  (keepFields a old w).foldl (fun x r => setFld x r.lo r.w (fld old r.lo r.w)) w

/-- The defined bits of the register at `a`: in P1 to P3, LANEMASK and GLNK of TRC_FILT are reserved (R597). -/
def regMask (r : RegRow) (a : Nat) : Nat :=
  if r.base = 0x0D44 ∧ a ≠ 0x0D44 then 0x0050000F else r.mask

/-- Bits of the value are reserved. -/
def reservedBits (r : RegRow) (a : Nat) (v : Word) : Bool := v &&& ~~~(BitVec.ofNat 32 (regMask r a)) != 0

/-- A write of `v` at `a` sets RESERVED_FIELD: a 1 in a reserved bit, a reserved enumeration value, or a non-zero write of a
reserved address (R18, R19, R709). -/
def writeReserved (s : State) (a : Nat) (v : Word) : Bool :=
  match regRow a with
  | none => v != 0
  | some r => reservedBits r a v ||
      ((r.acc == .rw || r.acc == .rwf) && !(keepFields a (regVal s a) (v &&& BitVec.ofNat 32 (regMask r a))).isEmpty)

/-- A host write of PRT_SQp_TAIL (R391, R394): the entries between the old and the new TAIL are submitted and stamped. -/
def sqTailWrite (s : State) (p v : Nat) : State :=
  let t := tget 0 s.prt.sqTail p
  let n := (v % 65536 + 65536 - t) % 65536
  if partOn s p && decide (1 ≤ n) && decide (n ≤ sqDepth s p - sqCount s p) then
    let subs := (List.range n).map (fun i =>
      ({ part := p, mbx := false, idx := (t + i) % 65536, stamp := (s.prt.stamp + i) % 2 ^ 32 } : Sub))
    let s1 := { s with prt := { s.prt with
      subs := s.prt.subs ++ subs, stamp := (s.prt.stamp + n) % 2 ^ 32, sqTail := tput s.prt.sqTail p (v % 65536) } }
    raiseInt (traceRing s1 p 0 (v % 65536) (n - 1) 0 0) 20
  else setFlag s 0x0A04 (4 + p)

/-- A host write of PRT_RQp_HEAD (R392). -/
def rqHeadWrite (s : State) (p v : Nat) : State :=
  let n := (v % 65536 + 65536 - tget 0 s.prt.rqHead p) % 65536
  if n ≤ rqCount s p then { s with prt := { s.prt with rqHead := tput s.prt.rqHead p (v % 65536) } }
  else setFlag s 0x0A04 (8 + p)

/-- The effect at once of a write of the RW register at `a` (R16, R151, R379, R391, R392, R579, R582, R593, R721). -/
def rwWrite (s : State) (a : Nat) (v : Word) : State :=
  if a = 0x0750 then capWrite s v
  else if 0x0A80 ≤ a ∧ a < 0x0AC0 then
    (if a % 16 = 4 then sqTailWrite s ((a - 0x0A80) / 16) v.toNat else rqHeadWrite s ((a - 0x0A80) / 16) v.toNat)
  else if a = 0x0C08 then (if s.grp.role ≠ 0 then setFlag s 0x0C04 9 else wr s a v)
  else if 0x0D10 ≤ a ∧ a < 0x0D20 then allocWrite s ((a - 0x0D10) / 4) v
  else if 0x0D40 ≤ a ∧ a < 0x0E00 ∧ (a - 0x0D40) % 48 = 0 then trcCtlWrite s ((a - 0x0D40) / 48) v
  else wr s a v

/-- The key that an RWF write is held under: the window of the event table reaches the entry that ANG_EVT_IDX names (R717). -/
def rwfKey (s : State) (a : Nat) : Nat :=
  if a = 0x0264 then evtKey (fld (rd s 0x0260) 0 6) false
  else if a = 0x0268 then evtKey (fld (rd s 0x0260) 0 6) true
  else a

/-- An RWF write: it waits for its boundary. Writes of SCB_CTRL end the forced state's report (R183); those of P0's own
enable and rights are ignored (R410). -/
def rwfWrite (s : State) (mbx : Bool) (stamp a : Nat) (v : Word) : State :=
  if a = 0x0A10 then s
  else
    let s1 := if a = 0x0800 then { s with scb := { s.scb with safe := false } } else s
    addWrite s1 mbx stamp (rwfKey s a) v

/-- A write of the register at `a`, its writer being entitled (R16 to R19, R709). `mbx` and `stamp` are those of its order. -/
def regWrite (s : State) (mbx : Bool) (stamp a : Nat) (v : Word) : State :=
  let s0 := if writeReserved s a v then reservedField s a 0 else s
  match regRow a with
  | none => s0
  | some r =>
    let w := written a (regMask r a) (regVal s a) v
    match r.acc with
    | .ro => s0
    | .rs => s0
    | .w1c => clrReg s0 a w
    | .rw => rwWrite s0 a w
    | .rwf => rwfWrite s0 mbx stamp a w

/-- The shared-resource unit of a write at `a` (R402, R717). -/
def writeUnit (s : State) (a : Nat) : ResUnit := regUnit (rwfKey s a)

/-- SQ_TAIL_WRITE (R391, R394). -/
def execSqTailWrite (p : Fin 4) (v : Word) (s : State) : Host.Outcome State Fault Refusal := .next (sqTailWrite s p v.toNat)

/-- RQ_HEAD_WRITE (R392). -/
def execRqHeadWrite (p : Fin 4) (v : Word) (s : State) : Host.Outcome State Fault Refusal := .next (rqHeadWrite s p v.toNat)

/-- EVENT_ENTRY_WRITE (R76, R77, R717): a write of ANG_EVT_A, or ANG_EVT_B, at the next dispatch stamp. -/
def execEventEntryWrite (mbx b : Bool) (v : Word) (s : State) : Host.Outcome State Fault Refusal :=
  .next (regWrite s mbx s.prt.stamp (if b then 0x0268 else 0x0264) v)

/-- TRACE_REARM (R593): a write of TRC_CTLp with RUN at 1. -/
def execTraceRearm (p : Fin 4) (v : Word) (s : State) : Host.Outcome State Fault Refusal :=
  .next (regWrite s false s.prt.stamp (trcReg p 0) (v ||| 1))

/-- TRACE_RUN_STOP (R593): a write of TRC_CTLp with RUN at 0. -/
def execTraceRunStop (p : Fin 4) (v : Word) (s : State) : Host.Outcome State Fault Refusal :=
  .next (regWrite s false s.prt.stamp (trcReg p 0) (v &&& ~~~1))

/-- TRACE_CLEAR (R598): a write of TRC_CTLp with CLEAR at 1. -/
def execTraceClear (p : Fin 4) (v : Word) (s : State) : Host.Outcome State Fault Refusal :=
  .next (regWrite s false s.prt.stamp (trcReg p 0) (v ||| place 1 12))

/-- TRACE_FORCE (R596): a write of TRC_CTLp with FORCE at 1. -/
def execTraceForce (p : Fin 4) (v : Word) (s : State) : Host.Outcome State Fault Refusal :=
  .next (regWrite s false s.prt.stamp (trcReg p 0) (v ||| place 1 13))

/-- TRACE_ALLOC_WRITE (R582). -/
def execTraceAllocWrite (p : Fin 4) (v : Word) (s : State) : Host.Outcome State Fault Refusal :=
  .next (regWrite s false s.prt.stamp (0x0D10 + 4 * p) v)

/-- HDG_CAP_ARM (R151): a write of HDG_CAP_CTRL with ARM at 1. -/
def execHdgCapArm (v : Word) (s : State) : Host.Outcome State Fault Refusal :=
  .next (regWrite s false s.prt.stamp 0x0750 (v ||| place 1 31))

/-- HDG_CAP_DISCARD (R151): a write of HDG_CAP_CTRL with DISCARD at 1 and ARM at 0. -/
def execHdgCapDiscard (v : Word) (s : State) : Host.Outcome State Fault Refusal :=
  .next (regWrite s false s.prt.stamp 0x0750 ((v ||| place 1 30) &&& ~~~(place 1 31)))

end Sys2Proof.Machine
end

