-- ==== Sys2Proof/Machine/Reset.lean ====
section
/-! DEFINITION. The start of a reset: what it ends, what it resets and what it leaves (R532, R633 to R636, R658). -/

namespace Sys2Proof.Machine

open Sys2Proof

/-- READY has been high for 1 s. -/
def readySecond (s : State) : Bool := s.boot.ready && decide (200000000 ≤ s.now - s.boot.readyAt)

/-- BOOT_TRIES after a reset of the cause given (R658). -/
def triesAfter (s : State) (cause : Nat) : Nat :=
  let t := if readySecond s then 0 else s.boot.tries
  if cause = 1 ∨ cause = 7 then 0
  else if (cause = 5 ∨ cause = 8) ∧ !readySecond s then min 4 (t + 1)
  else t

/-- The slot that was running at the reset that last raised BOOT_TRIES (R659). -/
def lastRunAfter (s : State) (cause : Nat) : Nat :=
  if (cause = 5 ∨ cause = 8) ∧ !readySecond s then s.boot.running.getD s.boot.lastRun else s.boot.lastRun

/-- The words that an abandoned flash operation leaves indeterminate (R634). -/
def abandonFlash (s : State) : State :=
  let s1 := match s.boot.op with
    | some (.erase first n _) => flashOpen s (4096 * first) (4096 * n)
    | some (.program _ _ at_ n _ _ _) => if n = 0 then s else flashOpen s at_ n
    | some (.select _ _) => if (selTarget s).2 then flashOpen s ((selTarget s).1 / 4096 * 4096) 4096 else flashOpen s (selTarget s).1 32
    | none => s
  if s1.flt.capturing.isEmpty then s1 else flashOpen s1 0xE0000 16384

/-- A reset of the cause given starts: READY falls, every register and memory takes its reset value, and what is kept across
resets stays: flash, fuses, BOOT_TRIES, the strap sample, TMP_SHUT, the supplies, the temperature, stuck configuration bits, the
crystal and the JTAG port (R532, R633 to R636, R658, R689, R701). -/
def resetEntry (s0 : State) (cause : Nat) : State :=
  let s := abandonFlash s0
  let z := State.reset
  useFree { z with
    now := s.now, free := s.free, regs := tset 0 z.regs 0x0F90 (rd s 0x0F90), jtag := s.jtag, pending := s.pending,
    hdg := { z.hdg with stuck := s.hdg.stuck, bankOn := s.hdg.bankOn, bankEn := s.hdg.bankEn, x32Ok := s.hdg.x32Ok },
    scb := { z.scb with nonce := Config.nonce s.free },
    grp := { z.grp with anyLine := s.grp.anyLine },
    boot := { z.boot with
      cause := cause, tries := triesAfter s cause, lastRun := lastRunAfter s cause, bootAt := s.now,
      straps := s.boot.straps, flash := s.boot.flash, ecnt := s.boot.ecnt, stepB1 := s.boot.stepB1,
      authFuse := s.boot.authFuse, keys := s.boot.keys, factory := s.boot.factory },
    pwr := { z.pwr with supplies := s.pwr.supplies, temp := s.pwr.temp, peak := s.pwr.temp, shutdown := s.pwr.shutdown } }

end Sys2Proof.Machine
end

