-- ==== Sys2Proof/Machine/Macros.lean ====
section
/-! DEFINITION. The vendor array macros: control, mask, field, integer, neighbour and reduction opcodes (R196 to R212,
R230 to R248, R290 to R292). -/

namespace Sys2Proof.Machine

open Sys2Proof

/-- C written in the active PEs. -/
def setC (s : State) (f : Nat → Bool) : State :=
  { s with arr := { s.arr with c := maskIn (active s) s.arr.c (mkPlane f) } }

/-- T written in the active PEs. -/
def setT (s : State) (f : Nat → Bool) : State :=
  { s with arr := { s.arr with t := maskIn (active s) s.arr.t (mkPlane f) } }

/-- M written in every powered PE (R197). -/
def setM (s : State) (v : Plane) : State := { s with arr := { s.arr with m := maskIn (powered s) s.arr.m v } }

/-- Source A of a macro in one PE. -/
def fldA (s : State) (w : Word) (pe : Nat) : Nat := peField s (pp s (mPA w)) (mW w) pe

/-- Source B of a macro in one PE. -/
def fldB (s : State) (w : Word) (pe : Nat) : Nat := peField s (pp s (mPB w)) (mW w) pe

/-- Destination D written in the active PEs. -/
def putD (s : State) (w : Word) (n : Nat) (f : Nat → Nat) : State := setField s (pp s (mPD w)) n (active s) f

/-- D, C and T from an operation on each PE. -/
def putAlu (s : State) (w : Word) (f : Nat → Alu) : State :=
  setT (setC (putD s w (mW w) (fun pe => (f pe).d)) (fun pe => (f pe).c)) (fun pe => (f pe).t)

/-- NOP. -/
def execMacroNop (s : State) : Host.Outcome State Fault Refusal := .next (vendorMacro 0x00 s (fun s _ _ _ => s))

/-- A plane pointer set. -/
def setPP (s : State) (i v : Nat) : State := { s with arr := { s.arr with pp := tset 0 s.arr.pp i v } }

/-- SETP. -/
def execMacroSetp (s : State) : Host.Outcome State Fault Refusal :=
  .next (vendorMacro 0x01 s (fun s _ w _ => setPP s (mPD w) (mImm w % 2048)))

/-- ADDP. -/
def execMacroAddp (s : State) : Host.Outcome State Fault Refusal :=
  .next (vendorMacro 0x02 s (fun s _ w _ =>
    setPP s (mPD w) (lowBits 11 ((pp s (mPA w) : Int) + sInt 12 (mImm w)))))

/-- SETRM. -/
def execMacroSetrm (s : State) : Host.Outcome State Fault Refusal :=
  .next (vendorMacro 0x03 s (fun s _ w _ => { s with arr := { s.arr with rm := mMod w % 8 } }))

/-- CLRF. -/
def execMacroClrf (s : State) : Host.Outcome State Fault Refusal :=
  .next (vendorMacro 0x04 s (fun s _ _ _ => setT (setC s (fun _ => false)) (fun _ => false)))

/-- MALL. -/
def execMacroMall (s : State) : Host.Outcome State Fault Refusal :=
  .next (vendorMacro 0x10 s (fun s _ _ _ => setM s (BitVec.allOnes 16384)))

/-- MLD. -/
def execMacroMld (s : State) : Host.Outcome State Fault Refusal :=
  .next (vendorMacro 0x11 s (fun s _ w _ => setM s (plane s (pp s (mPA w)))))

/-- MAND. -/
def execMacroMand (s : State) : Host.Outcome State Fault Refusal :=
  .next (vendorMacro 0x12 s (fun s _ w _ =>
    let v := plane s (pp s (mPA w))
    setM s (s.arr.m &&& (if (mMod w).testBit 0 then ~~~v else v))))

/-- MOR. -/
def execMacroMor (s : State) : Host.Outcome State Fault Refusal :=
  .next (vendorMacro 0x13 s (fun s _ w _ => setM s (s.arr.m ||| plane s (pp s (mPA w)))))

/-- MNOT. -/
def execMacroMnot (s : State) : Host.Outcome State Fault Refusal :=
  .next (vendorMacro 0x14 s (fun s _ _ _ => setM s (~~~s.arr.m)))

/-- MSTO: every PE records M. -/
def execMacroMsto (s : State) : Host.Outcome State Fault Refusal :=
  .next (vendorMacro 0x15 s (fun s _ w _ => setPlane s (pp s (mPD w)) (powered s) s.arr.m))

/-- MFT. -/
def execMacroMft (s : State) : Host.Outcome State Fault Refusal :=
  .next (vendorMacro 0x16 s (fun s _ w _ =>
    setM s (s.arr.m &&& (if (mMod w).testBit 0 then ~~~s.arr.t else s.arr.t))))

/-- TLD. -/
def execMacroTld (s : State) : Host.Outcome State Fault Refusal :=
  .next (vendorMacro 0x17 s (fun s _ w _ =>
    { s with arr := { s.arr with t := maskIn (active s) s.arr.t (plane s (pp s (mPA w))) } }))

/-- TSTO. -/
def execMacroTsto (s : State) : Host.Outcome State Fault Refusal :=
  .next (vendorMacro 0x18 s (fun s _ w _ => setPlane s (pp s (mPD w)) (active s) s.arr.t))

/-- MOV. -/
def execMacroMov (s : State) : Host.Outcome State Fault Refusal :=
  .next (vendorMacro 0x20 s (fun s _ w _ => putD s w (mW w) (fldA s w)))

/-- LOGIC. -/
def execMacroLogic (s : State) : Host.Outcome State Fault Refusal :=
  .next (vendorMacro 0x21 s (fun s _ w _ =>
    putD s w (mW w) (fun pe => aluLogic (mW w) (mMod w) (fldA s w pe) (fldB s w pe))))

/-- SEL. -/
def execMacroSel (s : State) : Host.Outcome State Fault Refusal :=
  .next (vendorMacro 0x22 s (fun s _ w _ =>
    putD s w (mW w) (fun pe => if s.arr.t.getLsbD pe then fldA s w pe else fldB s w pe)))

/-- FILL. -/
def execMacroFill (s : State) : Host.Outcome State Fault Refusal :=
  .next (vendorMacro 0x23 s (fun s _ w _ =>
    putD s w (mW w) (fun _ => if (mMod w).testBit 0 then 2 ^ mW w - 1 else 0)))

/-- FILLK. -/
def execMacroFillk (s : State) : Host.Outcome State Fault Refusal :=
  .next (vendorMacro 0x24 s (fun s _ w x => putD s w (mW w) (fun _ => x.toNat % 2 ^ mW w)))

/-- BSH. -/
def execMacroBsh (s : State) : Host.Outcome State Fault Refusal :=
  .next (vendorMacro 0x25 s (fun s _ w _ =>
    putD s w (mW w) (fun pe => aluShift (mW w) (mPB w) (mMod w) (fldA s w pe))))

/-- EXT. -/
def execMacroExt (s : State) : Host.Outcome State Fault Refusal :=
  .next (vendorMacro 0x26 s (fun s _ w _ =>
    putD s w (mW w + mMod w) (fun pe =>
      if mPB w = 1 then lowBits (mW w + mMod w) (sInt (mW w) (fldA s w pe)) else fldA s w pe)))

/-- ADD (R290). -/
def execMacroAdd (s : State) : Host.Outcome State Fault Refusal :=
  .next (vendorMacro 0x30 s (fun s _ w _ => putAlu s w (fun pe => aluAdd (mW w) (fldA s w pe) (fldB s w pe))))

/-- SUB (R290). -/
def execMacroSub (s : State) : Host.Outcome State Fault Refusal :=
  .next (vendorMacro 0x31 s (fun s _ w _ => putAlu s w (fun pe => aluSub (mW w) (fldA s w pe) (fldB s w pe))))

/-- ADDK (R290, R733). -/
def execMacroAddk (s : State) : Host.Outcome State Fault Refusal :=
  .next (vendorMacro 0x32 s (fun s _ w x => putAlu s w (fun pe => aluAdd (mW w) (fldA s w pe) (kField (mW w) x))))

/-- SUBK (R290, R733). -/
def execMacroSubk (s : State) : Host.Outcome State Fault Refusal :=
  .next (vendorMacro 0x33 s (fun s _ w x => putAlu s w (fun pe => aluSub (mW w) (fldA s w pe) (kField (mW w) x))))

/-- NEG (R290). -/
def execMacroNeg (s : State) : Host.Outcome State Fault Refusal :=
  .next (vendorMacro 0x34 s (fun s _ w _ => putAlu s w (fun pe => aluSub (mW w) 0 (fldA s w pe))))

/-- ADDSAT (R291). -/
def execMacroAddsat (s : State) : Host.Outcome State Fault Refusal :=
  .next (vendorMacro 0x35 s (fun s _ w _ => putAlu s w (fun pe =>
    aluSat (mW w) false (!(mMod w).testBit 0) (fldA s w pe) (fldB s w pe))))

/-- SUBSAT (R291). -/
def execMacroSubsat (s : State) : Host.Outcome State Fault Refusal :=
  .next (vendorMacro 0x36 s (fun s _ w _ => putAlu s w (fun pe =>
    aluSat (mW w) true (!(mMod w).testBit 0) (fldA s w pe) (fldB s w pe))))

/-- ABS (R291). -/
def execMacroAbs (s : State) : Host.Outcome State Fault Refusal :=
  .next (vendorMacro 0x37 s (fun s _ w _ => putAlu s w (fun pe => aluAbs (mW w) (fldA s w pe))))

/-- C cleared and T set to a relation in the active PEs. -/
def putRel (s : State) (f : Nat → Bool) : State := setT (setC s (fun _ => false)) f

/-- CMP. -/
def execMacroCmp (s : State) : Host.Outcome State Fault Refusal :=
  .next (vendorMacro 0x38 s (fun s _ w _ => putRel s (fun pe =>
    relOf (mW w) (mMod w % 4) ((mMod w).testBit 2) (fldA s w pe) (fldB s w pe))))

/-- CMPK (R733). -/
def execMacroCmpk (s : State) : Host.Outcome State Fault Refusal :=
  .next (vendorMacro 0x39 s (fun s _ w x => putRel s (fun pe =>
    relOf (mW w) (mMod w % 4) ((mMod w).testBit 2) (fldA s w pe) (kField (mW w) x))))

/-- MINMAX. -/
def execMacroMinmax (s : State) : Host.Outcome State Fault Refusal :=
  .next (vendorMacro 0x3A s (fun s _ w _ => putAlu s w (fun pe =>
    aluMinMax (mW w) ((mMod w).testBit 0) ((mMod w).testBit 1) (fldA s w pe) (fldB s w pe))))

/-- MULU (R292). -/
def execMacroMulu (s : State) : Host.Outcome State Fault Refusal :=
  .next (vendorMacro 0x3B s (fun s _ w _ =>
    setC (putD s w (2 * mW w) (fun pe => fldA s w pe * fldB s w pe)) (fun _ => false)))

/-- MULS (R292). -/
def execMacroMuls (s : State) : Host.Outcome State Fault Refusal :=
  .next (vendorMacro 0x3C s (fun s _ w _ =>
    setC (putD s w (2 * mW w) (fun pe =>
      lowBits (2 * mW w) (sInt (mW w) (fldA s w pe) * sInt (mW w) (fldB s w pe)))) (fun _ => false)))

/-- MULQ. -/
def execMacroMulq (s : State) : Host.Outcome State Fault Refusal :=
  .next (vendorMacro 0x3D s (fun s _ w _ => putAlu s w (fun pe => aluMulq (mW w) (fldA s w pe) (fldB s w pe))))

/-- DIVU (R292): the remainder goes to the field at PP[MOD 3:0]. -/
def execMacroDivu (s : State) : Host.Outcome State Fault Refusal :=
  .next (vendorMacro 0x3E s (fun s _ w _ =>
    let f := fun pe => aluDiv (mW w) (fldA s w pe) (fldB s w pe)
    let s1 := putD s w (mW w) (fun pe => (f pe).1)
    let s2 := setField s1 (pp s (mMod w % 16)) (mW w) (active s) (fun pe => (f pe).2.1)
    putRel s2 (fun pe => (f pe).2.2)))

/-- The neighbour whose X each PE takes when a value moves in direction 0 north, 1 east, 2 south, 3 west. -/
def shiftFrom (dir : Nat) : Nat :=
  match dir with
  | 0 => 3
  | 1 => 4
  | 2 => 1
  | _ => 2

/-- A plane moved by d PEs, one step at a time; step j of plane i takes burst i × d + j (R207, R557). -/
def shiftPlane (s : State) (dir edge : Nat) (bursts : List (BitVec 128)) (k : Nat) : Nat → Plane → Plane
  | 0, x => x
  | n + 1, x => shiftPlane s dir edge bursts (k + 1) n (nbrX s x (shiftFrom dir) edge (bursts.getD k 0))

/-- The body of NSHF: values pass through PEs whose M is 0; the destination is written where M is 1; X and Y end 0
everywhere (R242). -/
def nshf (bursts : List (BitVec 128)) (s : State) : State :=
  vendorMacro 0x40 s (fun s _ w _ =>
    let d := mPB w + 1
    let s1 := forEach (List.range (mW w)) s (fun t i =>
      setPlane t (pp s (mPD w) + i) (active s)
        (shiftPlane s (fld w 0 2) (fld w 2 2) bursts (i * d) d (plane s (pp s (mPA w) + i))))
    clearXY (burstRx s1 (shiftFrom (fld w 0 2)) (fld w 2 2) (bursts.take (mW w * d))) (powered s1))

/-- NSHF (R242, R252, R557, R558): on a member of a group, a shift in edge mode 2 or 3 awaits the verdict of its check
interval. -/
def execMacroNshf (bursts : List (BitVec 128)) (s : State) : Host.Outcome State Fault Refusal :=
  .next (match headMacro s with
    | some (k, w, i) =>
      if mOp w = 0x40 ∧ grouped s ∧ 2 ≤ fld w 2 2 ∧
          (macroPlanes s i).all (fun p => inRange s (fpPart k.fp) p) ∧ (parityHit s (macroReads s i)).isNone then
        useFree (checkInterval s k.fp (Config.romAddr s.free).toNat (nshf bursts))
      else nshf bursts s
    | none => nshf bursts s)

/-- QRES written by a reduction macro (R234). -/
def setQres (s : State) (v : Nat) : State := { s with arr := { s.arr with qres := BitVec.ofNat 32 v } }

/-- ANY (R211, R212). -/
def execMacroAny (others : Bool) (s : State) : Host.Outcome State Fault Refusal :=
  .next (vendorMacro 0x50 s (fun s fp w _ =>
    let g := (mMod w).testBit 0
    let x := plane s (pp s (mPA w))
    let r := anyOf s x g others
    setQres (recAny (setT s (fun _ => r)) fp r g (decide (x &&& active s ≠ 0))) (if r then 1 else 0)))

/-- TALLY (R211, R212). -/
def execMacroTally (others : Nat) (s : State) : Host.Outcome State Fault Refusal :=
  .next (vendorMacro 0x51 s (fun s fp w _ =>
    let n := tallyOf s (plane s (pp s (mPA w))) ((mMod w).testBit 0) others
    setQres (recTally s fp n) n))

/-- SUMW: its planes are tallied from the lowest to the highest (R212). -/
def execMacroSumw (others : List Nat) (s : State) : Host.Outcome State Fault Refusal :=
  .next (vendorMacro 0x52 s (fun s fp w _ =>
    let n := fun i => tallyOf s (plane s (pp s (mPA w) + i)) ((mMod w).testBit 0) (others.getD i 0)
    setQres (recTally s fp (n (mW w - 1))) ((List.range (mW w)).map (fun i => n i * 2 ^ i)).sum))

/-- One step of EXTR's elimination on plane i: the candidates that stay, the value so far, and the last ANY. `pick` says
which bit of the plane the ANY looks for. -/
def extrStep (s : State) (w : Word) (grp : Bool) (others : List Bool) (r : Plane × Nat × Bool × Bool) (i : Nat) :
    Plane × Nat × Bool × Bool :=
  let mx := !(mMod w).testBit 0
  let sg := (mMod w).testBit 1 && decide (i + 1 = mW w)
  let pl := plane s (pp s (mPA w) + i)
  let key := if mx != sg then pl else ~~~pl
  let hit := r.1 &&& key
  let chip := decide (hit ≠ 0)
  let a := chip || (grp && grouped s && others.getD (mW w - 1 - i) false)
  let one := if mx != sg then a else !a
  (if a then hit else r.1 &&& ~~~key, r.2.1 + (if one then 2 ^ i else 0), a, chip)

/-- EXTR: elimination from the top plane down (R211, R212, the line of R292). -/
def execMacroExtr (part : Bool) (others : List Bool) (s : State) : Host.Outcome State Fault Refusal :=
  .next (vendorMacro 0x53 s (fun s fp w _ =>
    let g := (mMod w).testBit 2
    let n := mW w
    let r := (List.range n).reverse.foldl (extrStep s w g others) (active s, 0, false, false)
    let s1 := recAny s fp r.2.2.1 g r.2.2.2
    if active s = 0 ∧ !(g && grouped s && part) then setQres (recAny s fp false g false) 0
    else
      let v := if (mMod w).testBit 1 then lowBits 32 (sInt n r.2.1) else r.2.1
      setQres (setT s1 (fun pe => decide (peField s (pp s (mPA w)) n pe = r.2.1))) v))

end Sys2Proof.Machine
end

