-- ==== Sys2Proof/Machine/Transfers.lean ====
section
/-! DEFINITION. The transfer macros and the staging register (R213 to R218, R241), and the floating-point macros (R246,
R293 to R303). -/

namespace Sys2Proof.Machine

open Sys2Proof

/-- A word that a transfer reads: a sample record of the half of the closed or computing frame, zero in the other half
and beyond a region's fill, or a word of conductor data SRAM (R88, R165, R217). -/
def xferWord (s : State) (a : Nat) : Word :=
  if 0x70000000 ≤ a then
    let half := decide (0x70040000 ≤ a)
    if readHalf s = some half then storeRec s half (a % 0x40000 / 4) else 0
  else rdWord s a

/-- The record at address `a` is held: in the half read and below a region's fill. -/
def recHeld (s : State) (a : Nat) : Bool :=
  let half := decide (0x70040000 ≤ a)
  let i := a % 0x40000 / 4
  (readHalf s == some half) && (List.range 16).any (fun n => let f := laneFill s half n
    decide (64 * f.base ≤ i) && decide (i < 64 * f.base + f.fill))

/-- A word that a transfer reads is in error: a record with odd parity, or an uncorrectable word (R192). -/
def xferBad (s : State) (a : Nat) : Bool :=
  if 0x70000000 ≤ a then recHeld s a && tget false s.smp.recErr (recKey (decide (0x70040000 ≤ a)) (a % 0x40000 / 4))
  else (secded (a / 4) (tget 0 s.cnd.memErr (a / 4))).isNone

/-- The slot faults for a word in error that its program read (R192): SMP_PARITY or MEM_UE, with the address. -/
def xferFault (s : State) (fp a : Nat) : State :=
  let s1 := if 0x70000000 ≤ a then sticky0 s 5 (leBytes 4 a ++ leBytes 1 fp)
    else sticky0 s 6 (leBytes 4 a ++ leBytes 1 1)
  faultComp s1 12

/-- The words of a load's span in the order of fetching: column groups from the last to the first (R214). -/
def fetchOrder (n per : Nat) : List Nat :=
  (List.range (n / per)).reverse.flatMap (fun g => (List.range per).map (fun r => per * g + r))

/-- A load: the planes take their bits in every PE of a powered band, whatever M (R217). `src` names the word and the bit
that PE (r, c) of plane j takes. -/
def loadPlanes (s : State) (fp pd n a words per : Nat) (src : Nat → Nat → Nat → Nat × Nat) : State :=
  match (fetchOrder words per).find? (fun i => xferBad s (a + 4 * i)) with
  | some i => xferFault s fp (a + 4 * i)
  | none =>
    let s1 := forEach (List.range n) s (fun t j => setPlane t (pd + j) (powered s) (mkPlane (fun pe =>
      let x := src j (pe / 128) (pe % 128)
      (xferWord s (a + 4 * x.1)).getLsbD x.2)))
    { s1 with arr := { s1.arr with staging := colOf (plane s1 (pd + n - 1)) 0 } }

/-- LDT: bit LO + j of record s + 128 × g + r goes to plane p + j of the PE at row r, column g (R214). -/
def execMacroLdt (s : State) : Host.Outcome State Fault Refusal :=
  .next (vendorMacro 0x60 s (fun s fp w x =>
    loadPlanes s fp (pp s (mPD w)) (mW w) x.toNat 16384 128 (fun j r c => (128 * c + r, mMod w % 32 + j))))

/-- LDS: bit (r, c) of plane k is bit r mod 32 of word 512 × k + 4 × c + floor(r / 32) of the block (R216). -/
def execMacroLds (s : State) : Host.Outcome State Fault Refusal :=
  .next (vendorMacro 0x62 s (fun s fp w x =>
    loadPlanes s fp (pp s (mPD w)) (mW w) x.toNat (512 * mW w) 4
      (fun j r c => (512 * j + 4 * c + r / 32, r % 32))))

/-- A bit of a plane as a store reads it: 0 in rows of unpowered bands (R227). -/
def storeBit (s : State) (p pe : Nat) : Bool := (plane s p &&& powered s).getLsbD pe

/-- STT: the field of the PE at row r, column g goes to the word at a + 4 × (128 × g + r), zero- or sign-extended
(R215). -/
def execMacroStt (s : State) : Host.Outcome State Fault Refusal :=
  .next (vendorMacro 0x61 s (fun s _ w x =>
    let p := pp s (mPA w)
    let n := mW w
    forEach (List.range 16384) s (fun t i =>
      let pe := 128 * (i % 128) + i / 128
      let v := ((List.range n).map (fun j => if storeBit s (p + j) pe then 2 ^ j else 0)).sum
      wrWord t (x.toNat + 4 * i) (BitVec.ofNat 32 (if (mMod w).testBit 0 then lowBits 32 (sInt n v) else v)))))

/-- STS (R216). -/
def execMacroSts (s : State) : Host.Outcome State Fault Refusal :=
  .next (vendorMacro 0x63 s (fun s _ w x =>
    let p := pp s (mPA w)
    forEach (List.range (512 * mW w)) s (fun t i =>
      let c := i % 512 / 4
      let v := ((List.range 32).map (fun b =>
        if storeBit s (p + i / 512) (128 * (32 * (i % 4) + b) + c) then 2 ^ b else 0)).sum
      wrWord t (x.toNat + 4 * i) (BitVec.ofNat 32 v))))

/-- XFER (R213, R259): a ROM microword moves one column while a transfer macro runs. Into the array, the plane shifts east
and column 0 takes the staging register, which the corner-turn unit has filled; out of it, the staging register takes
column 0 and the plane's columns shift west. -/
def execUwXfer (out : Bool) (p : Fin 2048) (data : BitVec 128) (s : State) : Host.Outcome State Fault Refusal :=
  let go := s.frm.comp.isSome && s.arr.run.isNone &&
    (match s.arr.queue with
     | w :: _ => decide (0x60 ≤ mOp w) && decide (mOp w ≤ 0x63) && (decide (mOp w % 2 = 1) == out)
     | [] => false)
  .next (if !go then s
    else
      let x := plane s p
      if out then { s with arr := { s.arr with staging := colOf (x &&& powered s) 0 } }
      else
        setPlane { s with arr := { s.arr with staging := data } } p (powered s)
          (((x <<< 1) &&& ~~~colZero) ||| colPlane data 0))

/-- The five exception planes at PP15 take the OR of what each active PE signals (R246, R299). -/
def orExc (s : State) (f : Nat → Nat) : State :=
  forEach (List.range 5) s (fun t i =>
    setPlane t (pp s 15 + i) (active s) (plane s (pp s 15 + i) ||| mkPlane (fun pe => (f pe).testBit i)))

/-- A floating-point result written to D, with its exceptions; C is 0 (R246). -/
def putFp (s : State) (w : Word) (n : Nat) (f : Nat → FRes) : State :=
  setC (orExc (putD s w n (fun pe => (f pe).val)) (fun pe => (f pe).ex)) (fun _ => false)

/-- Source A of a floating-point macro. -/
def fpA (s : State) (f : Fmt) (w : Word) (pe : Nat) : Nat := peField s (pp s (mPA w)) f.width pe

/-- Source B of a floating-point macro. -/
def fpB (s : State) (f : Fmt) (w : Word) (pe : Nat) : Nat := peField s (pp s (mPB w)) f.width pe

/-- FADD32 and FADD64 (R293). -/
def fpAdd (f : Fmt) (s : State) (w : Word) : State :=
  putFp s w f.width (fun pe =>
    if (mMod w).testBit 0 then f.sub s.arr.rm (fpA s f w pe) (fpB s f w pe)
    else f.add s.arr.rm (fpA s f w pe) (fpB s f w pe))

/-- FMUL32 and FMUL64 (R293). -/
def fpMul (f : Fmt) (s : State) (w : Word) : State :=
  putFp s w f.width (fun pe => f.mul s.arr.rm (fpA s f w pe) (fpB s f w pe))

/-- FMA32 and FMA64: C at PP[MOD 3:0], MOD4 negates the product and MOD5 negates C (R293). -/
def fpFma (f : Fmt) (s : State) (w : Word) : State :=
  putFp s w f.width (fun pe => f.fma s.arr.rm ((mMod w).testBit 4) ((mMod w).testBit 5) (fpA s f w pe) (fpB s f w pe)
    (peField s (pp s (mMod w % 16)) f.width pe))

/-- FCMP32 and FCMP64 (R300). -/
def fpCmp (f : Fmt) (s : State) (w : Word) : State :=
  let r := fun pe => f.cmp (mMod w % 4) ((mMod w).testBit 2) (fpA s f w pe) (fpB s f w pe)
  putRel (orExc s (fun pe => (r pe).2)) (fun pe => (r pe).1)

/-- FCVT32F and FCVT64F (R302). -/
def fpFromInt (f : Fmt) (s : State) (w : Word) : State :=
  putFp s w f.width (fun pe => f.ofInt s.arr.rm (mW w) (!(mMod w).testBit 0) (fldA s w pe))

/-- FCVTF32 and FCVTF64 (R301): T is 1 where invalid. -/
def fpToInt (f : Fmt) (s : State) (w : Word) : State :=
  let r := fun pe => f.toInt s.arr.rm (mW w) (!(mMod w).testBit 0) (fpA s f w pe)
  putRel (orExc (putD s w (mW w) (fun pe => (r pe).1)) (fun pe => (r pe).2.2)) (fun pe => (r pe).2.1)

/-- FCVT32_64 and FCVT64_32 (R303). -/
def fpConv (f g : Fmt) (s : State) (w : Word) : State :=
  putFp s w g.width (fun pe => f.conv g s.arr.rm (fpA s f w pe))

/-- FADD32. -/
def execMacroFadd32 (s : State) : Host.Outcome State Fault Refusal := .next (vendorMacro 0x70 s (fun s _ w _ => fpAdd b32 s w))

/-- FMUL32. -/
def execMacroFmul32 (s : State) : Host.Outcome State Fault Refusal := .next (vendorMacro 0x71 s (fun s _ w _ => fpMul b32 s w))

/-- FMA32. -/
def execMacroFma32 (s : State) : Host.Outcome State Fault Refusal := .next (vendorMacro 0x72 s (fun s _ w _ => fpFma b32 s w))

/-- FCMP32. -/
def execMacroFcmp32 (s : State) : Host.Outcome State Fault Refusal := .next (vendorMacro 0x73 s (fun s _ w _ => fpCmp b32 s w))

/-- FCVT32F. -/
def execMacroFcvt32f (s : State) : Host.Outcome State Fault Refusal :=
  .next (vendorMacro 0x74 s (fun s _ w _ => fpFromInt b32 s w))

/-- FCVTF32. -/
def execMacroFcvtf32 (s : State) : Host.Outcome State Fault Refusal :=
  .next (vendorMacro 0x75 s (fun s _ w _ => fpToInt b32 s w))

/-- FADD64. -/
def execMacroFadd64 (s : State) : Host.Outcome State Fault Refusal := .next (vendorMacro 0x76 s (fun s _ w _ => fpAdd b64 s w))

/-- FMUL64. -/
def execMacroFmul64 (s : State) : Host.Outcome State Fault Refusal := .next (vendorMacro 0x77 s (fun s _ w _ => fpMul b64 s w))

/-- FMA64. -/
def execMacroFma64 (s : State) : Host.Outcome State Fault Refusal := .next (vendorMacro 0x78 s (fun s _ w _ => fpFma b64 s w))

/-- FCMP64. -/
def execMacroFcmp64 (s : State) : Host.Outcome State Fault Refusal := .next (vendorMacro 0x79 s (fun s _ w _ => fpCmp b64 s w))

/-- FCVT64F. -/
def execMacroFcvt64f (s : State) : Host.Outcome State Fault Refusal :=
  .next (vendorMacro 0x7A s (fun s _ w _ => fpFromInt b64 s w))

/-- FCVTF64. -/
def execMacroFcvtf64 (s : State) : Host.Outcome State Fault Refusal :=
  .next (vendorMacro 0x7B s (fun s _ w _ => fpToInt b64 s w))

/-- FCVT32_64. -/
def execMacroFcvt3264 (s : State) : Host.Outcome State Fault Refusal :=
  .next (vendorMacro 0x7C s (fun s _ w _ => fpConv b32 b64 s w))

/-- FCVT64_32. -/
def execMacroFcvt6432 (s : State) : Host.Outcome State Fault Refusal :=
  .next (vendorMacro 0x7D s (fun s _ w _ => fpConv b64 b32 s w))

end Sys2Proof.Machine
end

