-- ==== Sys2Proof/Machine/CndCore.lean ====
section
/-! DEFINITION. The conductor: its registers and windows, time and delivery, traps, double faults, window services and what
they do to a handler (R317 to R327, R351 to R370, R375, R376, R732). -/

namespace Sys2Proof.Machine

open Sys2Proof

/-- The conductor's part of the state changed. -/
def modCnd (s : State) (f : Cnd → Cnd) : State := { s with cnd := f s.cnd }

/-- Register A of number `i`. -/
def aReg (s : State) (i : Nat) : Word := s.cnd.a.toList.getD i 0

/-- Register A of number `i` written. -/
def setA (s : State) (i : Nat) (v : Word) : State := modCnd s (fun c => { c with a := c.a.setIfInBounds i v })

/-- Place of Di, 8 to 15, of the current window in the physical windows (R322). -/
def winIx (s : State) (i : Nat) : Nat := 8 * cwp s + (i - 8)

/-- Register D of number `i`: global below 8, otherwise of the current window. -/
def dReg (s : State) (i : Nat) : Word :=
  if i < 8 then s.cnd.d.toList.getD i 0 else s.cnd.win.toList.getD (winIx s i) 0

/-- Register D of number `i` written. -/
def setD (s : State) (i : Nat) (v : Word) : State :=
  if i < 8 then modCnd s (fun c => { c with d := c.d.setIfInBounds i v })
  else modCnd s (fun c => { c with win := c.win.setIfInBounds (winIx s i) v })

/-- The pair Dd, Dd + 1 as 64 bits (R319). -/
def dPair (s : State) (i : Nat) : Nat := (dReg s i).toNat + (dReg s (i + 1)).toNat * 2 ^ 32

/-- The pair Dd, Dd + 1 written. -/
def setDPair (s : State) (i v : Nat) : State := setD (setD s i (BitVec.ofNat 32 v)) (i + 1) (BitVec.ofNat 32 (v / 2 ^ 32))

/-- Accumulator Kk. -/
def kReg (s : State) (i : Nat) : BitVec 72 := s.cnd.k.toList.getD i 0

/-- Accumulator Kk written. -/
def setK (s : State) (i : Nat) (v : BitVec 72) : State := modCnd s (fun c => { c with k := c.k.setIfInBounds i v })

/-- Register F of number `i`. -/
def fReg (s : State) (i : Nat) : DWord := s.cnd.f.toList.getD i 0

/-- Register F of number `i` written. -/
def setF (s : State) (i : Nat) (v : DWord) : State := modCnd s (fun c => { c with f := c.f.setIfInBounds i v })

/-- Delivery key of register D. -/
def dKey (s : State) (i : Nat) : Nat := if i < 8 then i else 8 + winIx s i

/-- Delivery key of register A. -/
def aKey (i : Nat) : Nat := 100 + i

/-- Delivery key of accumulator K. -/
def kKey (i : Nat) : Nat := 110 + i

/-- Delivery key of register F. -/
def fKey (i : Nat) : Nat := 120 + i

/-- A field of CSTAT or WP replaced. -/
def setCstat (s : State) (v : Word) : State := modCnd s (fun c => { c with cstat := v })

/-- One bit of CSTAT set. -/
def orCstat (s : State) (v : Word) : State := modCnd s (fun c => { c with cstat := c.cstat ||| v })

/-- CSTAT.RIP. -/
def rip (s : State) : Bool := bit s.cnd.cstat 6

/-- The handler that the conductor executes: handler mode with a handler current. -/
def inHandler (s : State) : Option Handler := if hm s then s.cnd.handler else none

/-- An instruction can issue: firmware runs, the device is not in STANDBY, no PST holds and no WAITI waits (R233, R350,
R378). -/
def cndReady (s : State) : Bool :=
  s.cnd.running && decide (s.pwr.st ≠ 2) && s.cnd.held.isNone && !(s.cnd.waiting && decide (ipend s = 0))

/-- The handler count, or the event routine's count, has run out (R375). -/
def budgetOut (s : State) : Bool :=
  match inHandler s with
  | some h => if h.up.isSome then decide (h.vleft = 0) else decide (h.budget = 0)
  | none => false

/-- Pending deliveries after `n` cycles. -/
def age (t : Tbl Nat) (n : Nat) : Tbl Nat :=
  (t.filter (fun e : Nat × Nat => decide (n < e.2))).map (fun e : Nat × Nat => (e.1, e.2 - n))

/-- `n` conductor cycles pass: deliveries come nearer, and the cycles count against the handler, its event routine or the
firmware's allowance (R351, R375, R376). -/
def spend (s : State) (n : Nat) : State :=
  let s1 := modCnd s (fun c => { c with dlv := age c.dlv n, fpuBusy := c.fpuBusy - n })
  match s.cnd.handler with
  | none => s1
  | some h =>
    if hm s then
      let h' := if h.up.isSome then { h with vleft := h.vleft - n } else { h with budget := h.budget - n }
      modCnd s1 (fun c => { c with
        handler := some h', hExec := c.hExec + n,
        fwStep := if c.hExec / 7680 = (c.hExec + n) / 7680 then c.fwStep else 0 })
    else
      let s2 := modCnd s1 (fun c => { c with fwUsed := c.fwUsed + n, fwStep := c.fwStep + n })
      wr s2 0x0648 (BitVec.ofNat 32 (min 65535 (max (rd s2 0x0648).toNat s2.cnd.fwStep)))

/-- Results that become usable `lat` cycles after the issue, `cc` of which have passed (R351). -/
def deliver (s : State) (cc : Nat) (l : List (Nat × Nat)) : State :=
  modCnd s (fun c => { c with dlv := l.foldl (fun t e =>
    let n := max (tget 0 t e.1) (e.2 - cc)
    if n = 0 then t else tput t e.1 n) c.dlv })

/-- Cycles that an instruction waits for the registers it reads (R351). -/
def waitFor (s : State) (reads : List Nat) : Nat := reads.foldl (fun m k => max m (tget 0 s.cnd.dlv k)) 0

/-- The next instruction, `n` bytes on; within a repeat sequence, its next iteration (R346, R349). -/
def goNext (s : State) (n : Nat) : State :=
  modCnd s (fun c =>
    match c.rep with
    | none => { c with pc := c.pc + BitVec.ofNat 32 n }
    | some _ =>
      if c.lc - 1 = 0 then { c with lc := 0, rep := none, pc := c.pc + BitVec.ofNat 32 n } else { c with lc := c.lc - 1 })

/-- Where a trap or an interrupt resumes inside a repeat sequence: the prefix, with RIP at 1 (R347, R349). -/
def unwind (s : State) : State :=
  match s.cnd.rep with
  | none => s
  | some r => modCnd s (fun c => { c with pc := r.pc, rep := none, cstat := c.cstat ||| place 1 6 })

/-- The vector address of vector `v` (R354). -/
def vecAddr (s : State) (v : Nat) : Word := rd s 0x060C + BitVec.ofNat 32 (16 * v)

/-- The entry actions that concern the mode, the window and the PC (R356). -/
def enterMode (s : State) (v : Nat) : State :=
  let p := vecAddr s v
  modCnd s (fun c => { c with
    cstat := c.cstat &&& ~~~(place 1 6 ||| place 1 16 ||| place 1 17), wp := c.wp ||| 7, pc := p, rep := none, held := none,
    waiting := false })

/-- The registers that describe an entry: vector, code and faulting address (R356, R380). PC holds the resume address. -/
def saveEntry (s : State) (v code : Nat) (addr : Word) : State :=
  let cause := place v 0 ||| place code 8 ||| flag (hm s) 16
  wr (wr (wr (wr (wr s 0x0610 s.cnd.pc) 0x0614 s.cnd.cstat) 0x0618 s.cnd.wp) 0x061C cause) 0x0620 addr

/-- Entry to a vector in firmware mode and window 7, 4 cycles (R356, R357). -/
def enterVec (s : State) (v code : Nat) (addr : Word) : State := spend (enterMode (saveEntry s v code addr) v) 4

/-- A firmware double fault (R368, R525, R527): FW_FAULT, and the conductor stops for its restart; the program that is
computed is abandoned. When no dispatch has completed since the last restart, the device resets. -/
def fwFault (s : State) : State :=
  let s1 := sticky0 s 11 (leBytes 4 (rd s 0x061C).toNat ++ leBytes 4 (rd s 0x0610).toNat)
  if s.cnd.again then resetEntry s1 5
  else
    let s2 := if s1.frm.comp.isSome then endComp s1 0x21 14 [] else stopHandler s1
    modCnd s2 (fun c => { c with running := false, again := true, rep := none, held := none, waiting := false })

/-- The slots of FPk that have not started receive SHED 5, as one whose program is suspended (R108, R367). -/
def shedSuspended (s : State) (fp : Nat) : State :=
  forEach (s.frm.frames.map (fun f => f.count)) s (fun s c =>
    answerSlots s c (fun x => x.fp == fp && !x.started && x.outcome.isNone) 0x20 5)

/-- A handler's double fault (R367): the handler is abandoned, its slot faults and its program is suspended. -/
def handlerDouble (s : State) (h : Handler) : State :=
  let s1 := sticky0 (setFlag s 0x0608 1) 10 (leBytes 4 (rd s 0x0624).toNat ++ leBytes 1 h.fp)
  let s2 := setProg s1 h.fp { prog s1 h.fp with susp := true }
  let s3 := leaveHandler (traceExit s2 h.fp 2 1)
  modCnd (shedSuspended (faultComp s3 8) h.fp) (fun c => { c with indf := false })

/-- A double fault (R363, R366 to R368): `v` is the vector of the second trap. -/
def doubleFault (s : State) (v : Nat) (spill : Bool) : State :=
  let first := s.cnd.indf
  let s1 := wr s 0x0624 (place v 0 ||| flag spill 5)
  let s2 := setA (enterMode (modCnd s1 (fun c => { c with slim := rd s1 0x062C &&& ~~~3, indf := true })) 1) 7 (rd s1 0x0628)
  if first then fwFault s2
  else
    match (if bit (rd s2 0x0614) 16 then s2.cnd.handler else none) with
    | some h => handlerDouble s2 h
    | none => fwFault s2

/-- A trap of the current handler or its event routine ends it (R370): its entry is recorded, its slot faults. -/
def handlerTrap (s : State) (h : Handler) (v code : Nat) (addr : Word) : State :=
  let s1 := saveEntry s v code addr
  let s2 := wr64 (setFlag s1 0x0608 0) 0x0640
    (s.cnd.pc.toNat + v * 2 ^ 32 + code * 2 ^ 37 + h.part * 2 ^ 45 + h.fp * 2 ^ 47)
  let s3 := if v = 2 then
      sticky0 s2 6 (leBytes 4 addr.toNat ++ leBytes 1 (if addr.toNat < 0x10000 then 0 else 1))
    else if v = 10 then setFlag s2 0x0608 2
    else s2
  faultComp (leaveHandler (traceExit s3 h.fp 1 v)) (if v = 2 then 12 else 7)

/-- A trap is taken with PC at its resume address (R356, R358, R366, R368, R370). -/
def trapAt (s : State) (v code : Nat) (addr : Word) : State :=
  if s.cnd.indf ∨ cwp s = 7 then doubleFault s v false
  else
    match inHandler s with
    | some h => handlerTrap s h v code addr
    | none => enterVec s v code addr

/-- A trap raised by the instruction at PC (R349, R353). -/
def trap (s : State) (v code : Nat) (addr : Word) : State := trapAt (unwind s) v code addr

/-- A repeat prefix before an instruction that may not be repeated: an undefined encoding of the prefix (R338, R350). -/
def badPair (s : State) : State :=
  match s.cnd.rep with
  | none => s
  | some r =>
    trapAt (modCnd s (fun c => { c with
      pc := r.pc, rep := none, lc := r.lc0, cstat := (c.cstat &&& ~~~(place 1 6)) ||| flag r.rip0 6 })) 3 0 0

/-- A memory access of an instruction. -/
structure Acc where
  base : Nat
  ea : Word
  size : Nat
  store : Bool
  plane : Bool
deriving DecidableEq, Repr

/-- Handler code of partition q reaches a span of conductor memory (R387). -/
def handlerArea (s : State) (q a n : Nat) (store : Bool) : Bool :=
  inArea (xchArea s q) a n || inArea (stkArea s q) a n || (!store && inArea (keepArea s q) a n)

/-- The span lies in an area that R328 opens to loads and stores of its size. -/
def mapArea (a n : Nat) : Bool :=
  decide (a + n ≤ 0x10000) || inArea (0x10000000, 0x20000) a n || inArea (0x20000000, 0x20000) a n ||
    (inArea (0x40000000, 0x10000) a n && decide (n = 4))

/-- Areas open to firmware mode only: instruction SRAM and the management registers. -/
def fwArea (a : Nat) : Bool := decide (a < 0x10000) || (decide (0x40000000 ≤ a) && decide (a < 0x40010000))

/-- The conductor may append a macro word: the handler of the program that is COMPUTING runs (R233). -/
def mayPush (s : State) : Bool :=
  match inHandler s, s.frm.comp with
  | some h, some k => decide (h.fp = k.fp) && decide (k.fault = none)
  | _, _ => false

/-- CODE of an access trap of a plane-port access (R233, R329, R335). -/
def planeCode (s : State) (a : Acc) : Option Nat :=
  let n := a.ea.toNat
  let q := decide (0x60000000 ≤ n) && decide (n < 0x6000000C)
  let r := decide (0x70000000 ≤ n) && decide (n < 0x70084000)
  if (!q && !r) || (a.store && decide (n / 4 ≠ 0x18000000)) then some 0
  else if a.store && !mayPush s then some 1
  else if n % 4 ≠ 0 then some 2
  else none

/-- CODE of an access trap of a data access: 0 area, 1 mode, 2 alignment (R328 to R331, R380, R387). -/
def accCode (s : State) (a : Acc) : Option Nat :=
  let n := a.ea.toNat
  if a.plane then planeCode s a
  else
    let bad := if n % a.size ≠ 0 then some 2 else none
    if hm s then
      if mapArea n a.size && fwArea n then some 1
      else if (match s.cnd.handler with | some h => handlerArea s h.part n a.size a.store | none => false) then bad
      else some 0
    else if mapArea n a.size then bad else some 0

/-- The code that the running mode may execute holds the word at `a` (R330, R387). -/
def codeOk (s : State) (a : Nat) : Bool :=
  decide (a % 4 = 0) && decide (a < 0x10000) &&
    (if hm s then (match s.cnd.handler with | some h => inArea (codeArea s h.part) a 4 | none => false) else true)

/-- The words of a span of conductor SRAM that hold errors. -/
def errWords (s : State) (a n : Nat) : List (Nat × Nat) :=
  s.cnd.memErr.filter (fun e : Nat × Nat => decide (a / 4 ≤ e.1) && decide (e.1 ≤ (a + n - 1) / 4))

/-- A word of the span is uncorrectable (R192). -/
def spanBad (s : State) (a n : Nat) : Bool := (errWords s a n).any (fun e => (secded e.1 e.2).isNone)

/-- Correctable words of the span are corrected and counted (R192). -/
def spanFix (s : State) (a n : Nat) : State := forEach (errWords s a n) s sweepWord

/-- The first trap that the fetch of an instruction of `size` bytes meets (R330, R355). -/
def fetchTrap (s : State) (size : Nat) : Option (Nat × Nat × Word) :=
  let a := s.cnd.pc.toNat
  if a < 0x10000 ∧ spanBad s a size then some (2, 0, s.cnd.pc)
  else if !codeOk s a then some (4, 3, s.cnd.pc)
  else if size = 8 ∧ !codeOk s (a + 4) then some (4, 3, s.cnd.pc + 4)
  else none

/-- SLIM's limit as an address (R336). -/
def slimAddr (s : State) : Nat := (s.cnd.slim &&& ~~~3).toNat

/-- The first trap that a data access meets: STACK_LIMIT, ACCESS, MEM_ERROR (R336, R355). -/
def dataTrap (s : State) (a : Acc) : Option (Nat × Nat × Word) :=
  if a.base = 7 ∧ a.ea.toNat < slimAddr s then some (5, 0, a.ea)
  else
    match accCode s a with
    | some c => some (4, c, a.ea)
    | none => if (!a.store || decide (a.size < 4)) && !a.plane && spanBad s a.ea.toNat a.size then some (2, 0, a.ea) else none

/-- What an instruction needs and takes. -/
structure COp where
  /-- An undefined encoding, or an instruction that the mode does not allow. -/
  illegal : Bool
  /-- It may be repeated (R350). -/
  rept : Bool
  size : Nat
  /-- Delivery keys of the registers it reads. -/
  reads : List Nat
  /-- FPU occupancy of an FPU instruction. -/
  fpu : Option Nat
  cc : Nat
  /-- Registers delivered later than the end of its occupancy, with the latency. -/
  dlv : List (Nat × Nat)
  acc : Option Acc
deriving DecidableEq, Repr

/-- An instruction of one cycle that may be repeated and reads the registers given. -/
def op1 (reads : List Nat) : COp :=
  { illegal := false, rept := true, size := 4, reads := reads, fpu := none, cc := 1, dlv := [], acc := none }

/-- The instruction as a control or system instruction, which may not be repeated. -/
def COp.once (o : COp) : COp := { o with rept := false }

/-- Event 8 when a handler issues the instruction at CMP (R596). -/
def tracePc (s : State) : State :=
  match inHandler s with
  | some h => if (trcCtl s h.part 0x20) = s.cnd.pc then traceProgEvent s h.fp 8 else s
  | none => s

/-- An instruction that has issued without a trap: its effect, its cycles and its deliveries (R339, R351). -/
def perform (o : COp) (body : State → State) (s : State) : State :=
  let s2 := match o.acc with
    | some a => if a.plane then s else spanFix s a.ea.toNat a.size
    | none => s
  let s3 := body s2
  if s3.boot.inReset ∨ s3.cnd.handler.isNone ∧ s.cnd.handler.isSome then s3
  else
    let s4 := deliver (spend s3 o.cc) o.cc o.dlv
    match o.fpu with
    | some n => modCnd s4 (fun c => { c with fpuBusy := n - 1 })
    | none => s4

/-- The checks in their order (R355), then the instruction. `pre` gives what happens instead of it for a condition that comes
before the data access, `post` for one that comes after it. -/
def issueOp (o : COp) (pre post : State → Option State) (body : State → State) (s0 : State) : State :=
  match fetchTrap s0 o.size with
  | some (v, c, e) => trap s0 v c e
  | none =>
    let s := spanFix (tracePc (modCnd s0 (fun c => { c with last := c.pc }))) s0.cnd.pc.toNat o.size
    if s.cnd.rep.isSome && !o.rept then badPair s
    else if o.illegal then trap s 3 0 0
    else
      match pre s with
      | some t => t
      | none =>
        match o.acc.bind (dataTrap s) with
        | some (v, c, e) => trap s v c e
        | none => (post s).getD (perform o body s)

/-- One instruction or iteration: it waits for its operands, HBUDGET comes first when the count has run out, and it issues
(R351, R355, R375). Nothing happens while the conductor cannot issue. -/
def cndIssue (o : COp) (pre post : State → Option State) (body : State → State) (s : State) : State :=
  if !cndReady s then s
  else
    let s0 := modCnd s (fun c => { c with waiting := false })
    if budgetOut s0 then trap s0 10 0 0
    else
      let w := max (waitFor s0 o.reads) (if o.fpu.isSome then s0.cnd.fpuBusy else 0)
      let s1 := spend s0 w
      if budgetOut s1 then trap s1 10 0 0 else issueOp o pre post body s1

/-- An instruction with no condition of its own. -/
def cndRun (o : COp) (body : State → State) (s : State) : State := cndIssue o (fun _ => none) (fun _ => none) body s

/-- An instruction that writes registers and goes on. -/
def cndStep (o : COp) (f : State → State) (s : State) : Host.Outcome State Fault Refusal :=
  .next (cndRun o (fun t => goNext (f t) o.size) s)

end Sys2Proof.Machine
end

