-- ==== Sys2Proof/Machine/CndAlu.lean ====
section
/-! DEFINITION. The conductor's integer instructions: the register and immediate ALU, the address registers, multiply and
divide, and the accumulators (R305 to R309, R317 to R321, R340 to R342). -/

namespace Sys2Proof.Machine

open Sys2Proof

/-- RD := f(RS, RT), one cycle. -/
def alu3 (d s t : Nat) (f : Word → Word → Word) (st : State) : Host.Outcome State Fault Refusal :=
  cndStep (op1 [dKey st s, dKey st t]) (fun x => setD x d (f (dReg x s) (dReg x t))) st

/-- RD := f(RS), one cycle. -/
def alu2 (d s : Nat) (f : Word → Word) (st : State) : Host.Outcome State Fault Refusal :=
  cndStep (op1 [dKey st s]) (fun x => setD x d (f (dReg x s))) st

/-- 1 when the relation holds, else 0 (R340). -/
def truth (b : Bool) : Word := if b then 1 else 0

/-- A shift or rotation: 0 SLL, 1 SRL, 2 SRA, 3 ROR. -/
def shiftBy (kind n : Nat) (v : Word) : Word :=
  match kind with
  | 0 => v <<< n
  | 1 => v >>> n
  | 2 => v.sshiftRight n
  | _ => v.rotateRight n

/-- Leading zeros, 0 to 32. -/
def leadZeros (v : Word) : Nat := ((List.range 32).reverse.takeWhile (fun i => !v.getLsbD i)).length

/-- Number of ones. -/
def onesOf (v : Word) : Nat := ((List.range 32).filter (fun i => v.getLsbD i)).length

/-- ADD: RS + RT. -/
def execCAdd (d s t : Fin 16) (st : State) : Host.Outcome State Fault Refusal :=
  alu3 d s t (fun a b => a + b) st

/-- SUB: RS − RT. -/
def execCSub (d s t : Fin 16) (st : State) : Host.Outcome State Fault Refusal :=
  alu3 d s t (fun a b => a - b) st

/-- AND: RS and RT. -/
def execCAnd (d s t : Fin 16) (st : State) : Host.Outcome State Fault Refusal :=
  alu3 d s t (fun a b => a &&& b) st

/-- OR: RS or RT. -/
def execCOr (d s t : Fin 16) (st : State) : Host.Outcome State Fault Refusal :=
  alu3 d s t (fun a b => a ||| b) st

/-- XOR: RS xor RT. -/
def execCXor (d s t : Fin 16) (st : State) : Host.Outcome State Fault Refusal :=
  alu3 d s t (fun a b => a ^^^ b) st

/-- ANDN: RS and not RT. -/
def execCAndn (d s t : Fin 16) (st : State) : Host.Outcome State Fault Refusal :=
  alu3 d s t (fun a b => a &&& ~~~b) st

/-- SLL: RS shifted left by RT bits 4:0. -/
def execCSll (d s t : Fin 16) (st : State) : Host.Outcome State Fault Refusal :=
  alu3 d s t (fun a b => shiftBy 0 (fld b 0 5) a) st

/-- SRL: RS shifted right, logical. -/
def execCSrl (d s t : Fin 16) (st : State) : Host.Outcome State Fault Refusal :=
  alu3 d s t (fun a b => shiftBy 1 (fld b 0 5) a) st

/-- SRA: RS shifted right, arithmetic. -/
def execCSra (d s t : Fin 16) (st : State) : Host.Outcome State Fault Refusal :=
  alu3 d s t (fun a b => shiftBy 2 (fld b 0 5) a) st

/-- ROR: RS rotated right. -/
def execCRor (d s t : Fin 16) (st : State) : Host.Outcome State Fault Refusal :=
  alu3 d s t (fun a b => shiftBy 3 (fld b 0 5) a) st

/-- SEQ: 1 if RS = RT. -/
def execCSeq (d s t : Fin 16) (st : State) : Host.Outcome State Fault Refusal :=
  alu3 d s t (fun a b => truth (decide (a = b))) st

/-- SNE: 1 if RS ≠ RT. -/
def execCSne (d s t : Fin 16) (st : State) : Host.Outcome State Fault Refusal :=
  alu3 d s t (fun a b => truth (decide (a ≠ b))) st

/-- SLT: 1 if RS < RT, signed. -/
def execCSlt (d s t : Fin 16) (st : State) : Host.Outcome State Fault Refusal :=
  alu3 d s t (fun a b => truth (a.slt b)) st

/-- SLTU: 1 if RS < RT, unsigned. -/
def execCSltu (d s t : Fin 16) (st : State) : Host.Outcome State Fault Refusal :=
  alu3 d s t (fun a b => truth (a.ult b)) st

/-- SLE: 1 if RS ≤ RT, signed. -/
def execCSle (d s t : Fin 16) (st : State) : Host.Outcome State Fault Refusal :=
  alu3 d s t (fun a b => truth (a.sle b)) st

/-- SLEU: 1 if RS ≤ RT, unsigned. -/
def execCSleu (d s t : Fin 16) (st : State) : Host.Outcome State Fault Refusal :=
  alu3 d s t (fun a b => truth (a.ule b)) st

/-- MIN: signed minimum. -/
def execCMin (d s t : Fin 16) (st : State) : Host.Outcome State Fault Refusal :=
  alu3 d s t (fun a b => if a.sle b then a else b) st

/-- MAX: signed maximum. -/
def execCMax (d s t : Fin 16) (st : State) : Host.Outcome State Fault Refusal :=
  alu3 d s t (fun a b => if a.sle b then b else a) st

/-- MINU: unsigned minimum. -/
def execCMinu (d s t : Fin 16) (st : State) : Host.Outcome State Fault Refusal :=
  alu3 d s t (fun a b => if a.ule b then a else b) st

/-- MAXU: unsigned maximum. -/
def execCMaxu (d s t : Fin 16) (st : State) : Host.Outcome State Fault Refusal :=
  alu3 d s t (fun a b => if a.ule b then b else a) st

/-- MOV: RS. -/
def execCMov (d s : Fin 16) (st : State) : Host.Outcome State Fault Refusal := alu2 d s (fun a => a) st

/-- NOT: not RS. -/
def execCNot (d s : Fin 16) (st : State) : Host.Outcome State Fault Refusal := alu2 d s (fun a => ~~~a) st

/-- NEG: 0 − RS. -/
def execCNeg (d s : Fin 16) (st : State) : Host.Outcome State Fault Refusal := alu2 d s (fun a => 0 - a) st

/-- CLZ: leading zeros of RS. -/
def execCClz (d s : Fin 16) (st : State) : Host.Outcome State Fault Refusal := alu2 d s (fun a => BitVec.ofNat 32 (leadZeros a)) st

/-- POPC: ones in RS. -/
def execCPopc (d s : Fin 16) (st : State) : Host.Outcome State Fault Refusal := alu2 d s (fun a => BitVec.ofNat 32 (onesOf a)) st

/-- SEXTB: RS bits 7:0 sign-extended. -/
def execCSextb (d s : Fin 16) (st : State) : Host.Outcome State Fault Refusal := alu2 d s (fun a => (a.setWidth 8).signExtend 32) st

/-- SEXTH: RS bits 15:0 sign-extended. -/
def execCSexth (d s : Fin 16) (st : State) : Host.Outcome State Fault Refusal := alu2 d s (fun a => (a.setWidth 16).signExtend 32) st

/-- ZEXTH: RS bits 15:0 zero-extended. -/
def execCZexth (d s : Fin 16) (st : State) : Host.Outcome State Fault Refusal := alu2 d s (fun a => (a.setWidth 16).setWidth 32) st

/-- MOVNZ: RS if RT ≠ 0, else RD unchanged. -/
def execCMovnz (d s t : Fin 16) (st : State) : Host.Outcome State Fault Refusal :=
  cndStep (op1 [dKey st s, dKey st t]) (fun x => if dReg x t ≠ 0 then setD x d (dReg x s) else x) st

/-- MOVZ: RS if RT = 0, else RD unchanged. -/
def execCMovz (d s t : Fin 16) (st : State) : Host.Outcome State Fault Refusal :=
  cndStep (op1 [dKey st s, dKey st t]) (fun x => if dReg x t = 0 then setD x d (dReg x s) else x) st

/-- ADDI: RS + IMM16 sign-extended. -/
def execCAddi (d s : Fin 16) (imm : BitVec 16) (st : State) : Host.Outcome State Fault Refusal :=
  alu2 d s (fun a => a + imm.signExtend 32) st

/-- ANDI: RS and IMM16 zero-extended. -/
def execCAndi (d s : Fin 16) (imm : BitVec 16) (st : State) : Host.Outcome State Fault Refusal :=
  alu2 d s (fun a => a &&& imm.setWidth 32) st

/-- ORI: RS or IMM16 zero-extended. -/
def execCOri (d s : Fin 16) (imm : BitVec 16) (st : State) : Host.Outcome State Fault Refusal :=
  alu2 d s (fun a => a ||| imm.setWidth 32) st

/-- XORI: RS xor IMM16 zero-extended. -/
def execCXori (d s : Fin 16) (imm : BitVec 16) (st : State) : Host.Outcome State Fault Refusal :=
  alu2 d s (fun a => a ^^^ imm.setWidth 32) st

/-- SLTI: 1 if RS < IMM16 sign-extended, signed. -/
def execCSlti (d s : Fin 16) (imm : BitVec 16) (st : State) : Host.Outcome State Fault Refusal :=
  alu2 d s (fun a => truth (a.slt (imm.signExtend 32))) st

/-- SLTIU: 1 if RS < IMM16 zero-extended, unsigned. -/
def execCSltiu (d s : Fin 16) (imm : BitVec 16) (st : State) : Host.Outcome State Fault Refusal :=
  alu2 d s (fun a => truth (a.ult (imm.setWidth 32))) st

/-- SEQI: 1 if RS = IMM16 sign-extended. -/
def execCSeqi (d s : Fin 16) (imm : BitVec 16) (st : State) : Host.Outcome State Fault Refusal :=
  alu2 d s (fun a => truth (decide (a = imm.signExtend 32))) st

/-- SNEI: 1 if RS ≠ IMM16 sign-extended. -/
def execCSnei (d s : Fin 16) (imm : BitVec 16) (st : State) : Host.Outcome State Fault Refusal :=
  alu2 d s (fun a => truth (decide (a ≠ imm.signExtend 32))) st

/-- MOVHI: IMM16 × 65,536. -/
def execCMovhi (d : Fin 16) (imm : BitVec 16) (st : State) : Host.Outcome State Fault Refusal :=
  cndStep (op1 []) (fun x => setD x d (imm.setWidth 32 <<< 16)) st

/-- MOVI: the extension word; 2 cycles, 8 bytes (R337); it may not be repeated (R350). -/
def execCMovi (d : Fin 16) (w : Word) (st : State) : Host.Outcome State Fault Refusal :=
  cndStep ({ op1 [] with size := 8, cc := 2 }).once (fun x => setD x d w) st

/-- SHI: RS shifted by a constant; KIND 0 SLL, 1 SRL, 2 SRA, 3 ROR. -/
def execCShi (d s : Fin 16) (kind : Fin 4) (n : Fin 32) (st : State) : Host.Outcome State Fault Refusal :=
  alu2 d s (fun a => shiftBy kind n a) st

/-- ADDA: Ad := As + Dt (R318). -/
def execCAdda (d s : Fin 8) (t : Fin 16) (st : State) : Host.Outcome State Fault Refusal :=
  cndStep (op1 [aKey s, dKey st t]) (fun x => setA x d (aReg x s + dReg x t)) st

/-- SUBA: Ad := As − Dt (R318). -/
def execCSuba (d s : Fin 8) (t : Fin 16) (st : State) : Host.Outcome State Fault Refusal :=
  cndStep (op1 [aKey s, dKey st t]) (fun x => setA x d (aReg x s - dReg x t)) st

/-- MOVA: Ad := Ds. -/
def execCMova (d : Fin 8) (s : Fin 16) (st : State) : Host.Outcome State Fault Refusal :=
  cndStep (op1 [dKey st s]) (fun x => setA x d (dReg x s)) st

/-- MOVAD: Dd := As. -/
def execCMovad (d : Fin 16) (s : Fin 8) (st : State) : Host.Outcome State Fault Refusal :=
  cndStep (op1 [aKey s]) (fun x => setD x d (aReg x s)) st

/-- MOVAA: Ad := As. -/
def execCMovaa (d s : Fin 8) (st : State) : Host.Outcome State Fault Refusal :=
  cndStep (op1 [aKey s]) (fun x => setA x d (aReg x s)) st

/-- LEAX: Ad := As + Dt × scale, Dt signed (R333). -/
def execCLeax (d s : Fin 8) (t : Fin 16) (sc : Fin 4) (st : State) : Host.Outcome State Fault Refusal :=
  cndStep (op1 [aKey s, dKey st t]) (fun x => setA x d (aReg x s + (dReg x t <<< sc.val))) st

/-- ADDAI: Ad := As + IMM16 sign-extended. -/
def execCAddai (d s : Fin 8) (imm : BitVec 16) (st : State) : Host.Outcome State Fault Refusal :=
  cndStep (op1 [aKey s]) (fun x => setA x d (aReg x s + imm.signExtend 32)) st

/-- Cycles of a multiply by the multiplier operand (R305, R306): always 5 in a handler and under FIXT. -/
def mulCc (s : State) (signed : Bool) (t : Word) : Nat :=
  if hm s ∨ bit (rd s 0x0600) 0 then 5
  else
    let fits := fun n : Nat =>
      if signed then decide (-(2 ^ (n - 1) : Nat) ≤ t.toInt) && decide (t.toInt < (2 ^ (n - 1) : Nat)) else decide (t.toNat < 2 ^ n)
    if fits 8 then 2 else if fits 16 then 3 else if fits 24 then 4 else 5

/-- The exact product of two registers, as an integer (R307). -/
def product (signed : Bool) (a b : Word) : Int := if signed then a.toInt * b.toInt else (a.toNat * b.toNat : Nat)

/-- A multiply or divide that writes a pair: `d` must be even (R319, R338). -/
def pairOp (d s t cc : Nat) (f : Word → Word → Nat) (st : State) : Host.Outcome State Fault Refusal :=
  cndStep { op1 [dKey st s, dKey st t] with illegal := d % 2 == 1, cc := cc }
    (fun x => setDPair x d (f (dReg x s) (dReg x t))) st

/-- MUL.S: the signed 64-bit product (R305 to R307). -/
def execCMulS (d s t : Fin 16) (st : State) : Host.Outcome State Fault Refusal :=
  pairOp d s t (mulCc st true (dReg st t)) (fun a b => lowBits 64 (product true a b)) st

/-- MUL.U: the unsigned 64-bit product. -/
def execCMulU (d s t : Fin 16) (st : State) : Host.Outcome State Fault Refusal :=
  pairOp d s t (mulCc st false (dReg st t)) (fun a b => lowBits 64 (product false a b)) st

/-- MULLO: bits 31:0 of the product; any destination. -/
def execCMullo (d s t : Fin 16) (st : State) : Host.Outcome State Fault Refusal :=
  cndStep { op1 [dKey st s, dKey st t] with cc := mulCc st true (dReg st t) }
    (fun x => setD x d (dReg x s * dReg x t)) st

/-- Quotient and remainder of a divide, as a pair (R308, R309). -/
def quotRem (signed : Bool) (a b : Word) : Nat :=
  if b = 0 then 0xFFFFFFFF + a.toNat * 2 ^ 32
  else if signed then lowBits 32 (a.toInt.tdiv b.toInt) + lowBits 32 (a.toInt.tmod b.toInt) * 2 ^ 32
  else a.toNat / b.toNat + a.toNat % b.toNat * 2 ^ 32

/-- A divide: 17 cycles; a zero divisor sets CSTAT.IDZ (R308, R309). -/
def divOp (signed : Bool) (d s t : Nat) (st : State) : Host.Outcome State Fault Refusal :=
  cndStep { op1 [dKey st s, dKey st t] with illegal := d % 2 == 1, cc := 17 }
    (fun x =>
      let y := setDPair x d (quotRem signed (dReg x s) (dReg x t))
      if dReg x t = 0 then orCstat y (place 1 5) else y) st

/-- DIV.S. -/
def execCDivS (d s t : Fin 16) (st : State) : Host.Outcome State Fault Refusal := divOp true d s t st

/-- DIV.U. -/
def execCDivU (d s t : Fin 16) (st : State) : Host.Outcome State Fault Refusal := divOp false d s t st

/-- Kk := Kk ± Ds × Dt, modulo 2^72 (R305 to R307). -/
def macOp (signed sub : Bool) (k s t : Nat) (st : State) : Host.Outcome State Fault Refusal :=
  cndStep { op1 [kKey k, dKey st s, dKey st t] with cc := mulCc st signed (dReg st t) }
    (fun x =>
      let p := BitVec.ofInt 72 (product signed (dReg x s) (dReg x t))
      setK x k (if sub then kReg x k - p else kReg x k + p)) st

/-- KMAC.S. -/
def execCKmacS (k : Fin 4) (s t : Fin 16) (st : State) : Host.Outcome State Fault Refusal := macOp true false k s t st

/-- KMAC.U. -/
def execCKmacU (k : Fin 4) (s t : Fin 16) (st : State) : Host.Outcome State Fault Refusal := macOp false false k s t st

/-- KMSB.S. -/
def execCKmsbS (k : Fin 4) (s t : Fin 16) (st : State) : Host.Outcome State Fault Refusal := macOp true true k s t st

/-- KMSB.U. -/
def execCKmsbU (k : Fin 4) (s t : Fin 16) (st : State) : Host.Outcome State Fault Refusal := macOp false true k s t st

/-- KCLR: Kk := 0. -/
def execCKclr (k : Fin 4) (st : State) : Host.Outcome State Fault Refusal := cndStep (op1 []) (fun x => setK x k 0) st

/-- KWR: one part of Kk := Ds; part 2 is bits 71:64. -/
def execCKwr (k : Fin 4) (s : Fin 16) (part : Fin 3) (st : State) : Host.Outcome State Fault Refusal :=
  cndStep (op1 [kKey k, dKey st s]) (fun x =>
    let w := if part.val = 2 then 8 else 32
    let lo := 32 * part.val
    let v := (kReg x k).toNat
    setK x k (BitVec.ofNat 72 (v - bits v lo w * 2 ^ lo + fld (dReg x s) 0 w * 2 ^ lo))) st

/-- KRD: Dd := one part of Kk; part 2 sign-extended. -/
def execCKrd (d : Fin 16) (k : Fin 4) (part : Fin 3) (st : State) : Host.Outcome State Fault Refusal :=
  cndStep (op1 [kKey k]) (fun x => setD x d (((kReg x k).sshiftRight (32 * part.val)).setWidth 32)) st

/-- Kk, rounded when `rnd`, shifted and clamped to 32 bits; KOV when it clamps (R342). 2 cycles. -/
def satOp (rnd : Bool) (d k sh : Nat) (st : State) : Host.Outcome State Fault Refusal :=
  cndStep { op1 [kKey k] with cc := 2 } (fun x =>
    let v := (kReg x k).toInt + (if rnd ∧ sh ≠ 0 then (2 ^ (sh - 1) : Nat) else 0)
    let q := v / (2 ^ sh : Nat)
    let y := setD x d (BitVec.ofNat 32 (lowBits 32 (clampInt (-(2 ^ 31 : Nat)) ((2 ^ 31 : Nat) - 1) q)))
    if sFits 32 q then y else orCstat y (place 1 7)) st

/-- KSAT. -/
def execCKsat (d : Fin 16) (k : Fin 4) (sh : Fin 41) (st : State) : Host.Outcome State Fault Refusal := satOp false d k sh st

/-- KSATR. -/
def execCKsatr (d : Fin 16) (k : Fin 4) (sh : Fin 41) (st : State) : Host.Outcome State Fault Refusal := satOp true d k sh st

/-- KMOV: Kk := Kj. -/
def execCKmov (k j : Fin 4) (st : State) : Host.Outcome State Fault Refusal :=
  cndStep (op1 [kKey j]) (fun x => setK x k (kReg x j)) st

end Sys2Proof.Machine
end

