-- ==== Sys2Proof/Machine/CndMem.lean ====
section
/-! DEFINITION. The conductor's loads and stores, among them the plane-port channel and the management registers (R165, R192,
R233, R328 to R336, R379). -/

namespace Sys2Proof.Machine

open Sys2Proof

/-- Effective address of a memory instruction on An (R333). -/
def effAddr (s : State) (n : Nat) (m : AddrMode) (size : Nat) : Word :=
  match m with
  | .ind => aReg s n
  | .postInc => aReg s n
  | .preDec => aReg s n - BitVec.ofNat 32 size
  | .disp d => aReg s n + d.signExtend 32
  | .index i sc => aReg s n + (dReg s i <<< sc.val)

/-- The change that the mode makes to An (R333). -/
def stepBase (s : State) (n : Nat) (m : AddrMode) (size : Nat) : State :=
  match m with
  | .postInc => setA s n (aReg s n + BitVec.ofNat 32 size)
  | .preDec => setA s n (aReg s n - BitVec.ofNat 32 size)
  | _ => s

/-- Delivery keys of the registers that form the address. -/
def addrKeys (s : State) (n : Nat) (m : AddrMode) : List Nat :=
  match m with
  | .index i _ => [aKey n, dKey s i]
  | _ => [aKey n]

/-- The mode is (An)+ or −(An). -/
def AddrMode.steps : AddrMode → Bool
  | .postInc => true
  | .preDec => true
  | _ => false

/-- The mode is (An) or d16(An), the plane-port modes (R335). -/
def AddrMode.plane : AddrMode → Bool
  | .ind => true
  | .disp _ => true
  | _ => false

/-- The address is that of a management register. -/
def isMgmt (ea : Word) : Bool := decide (ea.toNat / 65536 = 0x4000)

/-- The access of a load or store. -/
def accOf (s : State) (n : Nat) (m : AddrMode) (size : Nat) (store : Bool) : Acc :=
  { base := n, ea := effAddr s n m size, size := size, store := store, plane := false }

/-- A load of `size` bytes: its value, and the state after a register read's own effect (R16, R332). -/
def loadVal (s : State) (ea : Word) (size : Nat) : State × Nat :=
  if isMgmt ea then (latch s (ea.toNat % 65536), (regVal s (ea.toNat % 65536)).toNat)
  else (s, leNat (rdBytes s ea.toNat size))

/-- A CND_ register that firmware writes (R379). -/
def fwWritable (a : Nat) : Bool :=
  decide (a = 0x060C) || (decide (0x0610 ≤ a) && decide (a ≤ 0x062C)) || decide (a = 0x0634) || decide (a = 0x0638) ||
    decide (a = 0x0680)

/-- Defined bits of a CND_ register that firmware writes (R354, R380). -/
def fwMask (a : Nat) : Word :=
  if a = 0x060C then ~~~0x1FF else if a = 0x061C then 0x1FF1F else if a = 0x0624 then 0x3F else if a = 0x0634 then 0x3FF
  else if a = 0x0680 then 7 else 0xFFFFFFFF

/-- A store of firmware to a management register (R16 to R18, R332, R379, R714). -/
def fwRegWrite (s : State) (a : Nat) (v : Word) : State :=
  if fwWritable a then wr (if v &&& ~~~fwMask a = 0 then s else reservedField s a 0) a (v &&& fwMask a)
  else if 0x06A0 ≤ a ∧ a < 0x06C0 then
    modCnd s (fun c => { c with win := c.win.setIfInBounds (8 * fld (rd s 0x0680) 0 3 + (a - 0x06A0) / 4) v })
  else regWrite s false s.prt.stamp a v

/-- A store of the low `size` bytes of `v`. A store of whole words leaves them with correct check bits (R192). -/
def storeVal (s : State) (ea : Word) (size v : Nat) : State :=
  if isMgmt ea then fwRegWrite s (ea.toNat % 65536) (BitVec.ofNat 32 v)
  else if size = 8 then wrWord (wrWord s ea.toNat (BitVec.ofNat 32 v)) (ea.toNat + 4) (BitVec.ofNat 32 (v / 2 ^ 32))
  else if size = 4 then wrWord s ea.toNat (BitVec.ofNat 32 v)
  else wrBytes s ea.toNat (leBytes size v)

/-- Occupancy and latency of a load: 4 and 4 from the management registers (the load table). -/
def loadTime (ea : Word) (size : Nat) : Nat × Nat := if isMgmt ea then (4, 4) else if size = 8 then (2, 3) else (1, 2)

/-- Occupancy of a store. -/
def storeTime (ea : Word) (size : Nat) : Nat := if isMgmt ea ∨ size = 8 then 2 else 1

/-- A load through An: `keys` are the delivery keys of its destination, `put` writes it. -/
def loadOp (illegal : Bool) (n : Nat) (m : AddrMode) (size : Nat) (keys : List Nat) (put : State → Nat → State) (st : State) :
    Host.Outcome State Fault Refusal :=
  let ea := effAddr st n m size
  let t := loadTime ea size
  cndStep { op1 (addrKeys st n m) with
      illegal := illegal, cc := t.1, dlv := keys.map (fun k => (k, t.2)), acc := some (accOf st n m size false) }
    (fun x =>
      let r := loadVal x ea size
      put (stepBase r.1 n m size) r.2) st

/-- A store through An: `keys` are the delivery keys of its data, `val` its value. -/
def storeOp (illegal : Bool) (n : Nat) (m : AddrMode) (size : Nat) (keys : List Nat) (val : State → Nat) (st : State) :
    Host.Outcome State Fault Refusal :=
  let ea := effAddr st n m size
  cndStep { op1 (keys ++ addrKeys st n m) with
      illegal := illegal, cc := storeTime ea size, acc := some (accOf st n m size true) }
    (fun x => stepBase (storeVal x ea size (val x)) n m size) st

/-- A load of Dd, extended from `size` bytes. -/
def ldData (signed : Bool) (size d n : Nat) (m : AddrMode) (st : State) : Host.Outcome State Fault Refusal :=
  loadOp false n m size [dKey st d]
    (fun x v => setD x d (BitVec.ofNat 32 (if signed then lowBits 32 (sInt (8 * size) v) else v))) st

/-- A store of the low `size` bytes of Dd. -/
def stData (size d n : Nat) (m : AddrMode) (st : State) : Host.Outcome State Fault Refusal :=
  storeOp false n m size [dKey st d] (fun x => (dReg x d).toNat) st

/-- LD.B: Dd := byte sign-extended. -/
def execCLdB (d : Fin 16) (n : Fin 8) (m : AddrMode) (st : State) : Host.Outcome State Fault Refusal := ldData true 1 d n m st

/-- LD.BU: Dd := byte zero-extended. -/
def execCLdBu (d : Fin 16) (n : Fin 8) (m : AddrMode) (st : State) : Host.Outcome State Fault Refusal := ldData false 1 d n m st

/-- LD.H: Dd := halfword sign-extended. -/
def execCLdH (d : Fin 16) (n : Fin 8) (m : AddrMode) (st : State) : Host.Outcome State Fault Refusal := ldData true 2 d n m st

/-- LD.HU: Dd := halfword zero-extended. -/
def execCLdHu (d : Fin 16) (n : Fin 8) (m : AddrMode) (st : State) : Host.Outcome State Fault Refusal := ldData false 2 d n m st

/-- LD.W: Dd := word. -/
def execCLdW (d : Fin 16) (n : Fin 8) (m : AddrMode) (st : State) : Host.Outcome State Fault Refusal := ldData false 4 d n m st

/-- LD.D: Dd, Dd + 1 := doubleword; d is even (R319). -/
def execCLdD (d : Fin 16) (n : Fin 8) (m : AddrMode) (st : State) : Host.Outcome State Fault Refusal :=
  loadOp (d.val % 2 == 1) n m 8 [dKey st d, dKey st (d + 1)] (fun x v => setDPair x d v) st

/-- ST.B: byte := Ds bits 7:0. -/
def execCStB (d : Fin 16) (n : Fin 8) (m : AddrMode) (st : State) : Host.Outcome State Fault Refusal := stData 1 d n m st

/-- ST.H: halfword := Ds bits 15:0. -/
def execCStH (d : Fin 16) (n : Fin 8) (m : AddrMode) (st : State) : Host.Outcome State Fault Refusal := stData 2 d n m st

/-- ST.W: word := Ds. -/
def execCStW (d : Fin 16) (n : Fin 8) (m : AddrMode) (st : State) : Host.Outcome State Fault Refusal := stData 4 d n m st

/-- ST.D: doubleword := Ds, Ds + 1; s is even (R319). -/
def execCStD (d : Fin 16) (n : Fin 8) (m : AddrMode) (st : State) : Host.Outcome State Fault Refusal :=
  storeOp (d.val % 2 == 1) n m 8 [dKey st d, dKey st (d + 1)] (fun x => dPair x d) st

/-- LDA: Ad := word; undefined when Ad is the base of a stepping mode (R334). -/
def execCLda (d n : Fin 8) (m : AddrMode) (st : State) : Host.Outcome State Fault Refusal :=
  loadOp (decide (d = n) && m.steps) n m 4 [aKey d] (fun x v => setA x d (BitVec.ofNat 32 v)) st

/-- STA: word := As; undefined when As is the base of a stepping mode (R334). -/
def execCSta (d n : Fin 8) (m : AddrMode) (st : State) : Host.Outcome State Fault Refusal :=
  storeOp (decide (d = n) && m.steps) n m 4 [aKey d] (fun x => (aReg x d).toNat) st

/-- FLD.S: Fd := binary32, bits 63:32 at 0 (R320). -/
def execCFldS (d : Fin 16) (n : Fin 8) (m : AddrMode) (st : State) : Host.Outcome State Fault Refusal :=
  loadOp false n m 4 [fKey d] (fun x v => setF x d (BitVec.ofNat 64 v)) st

/-- FLD.D: Fd := binary64. -/
def execCFldD (d : Fin 16) (n : Fin 8) (m : AddrMode) (st : State) : Host.Outcome State Fault Refusal :=
  loadOp false n m 8 [fKey d] (fun x v => setF x d (BitVec.ofNat 64 v)) st

/-- FST.S: word := Fs bits 31:0. -/
def execCFstS (d : Fin 16) (n : Fin 8) (m : AddrMode) (st : State) : Host.Outcome State Fault Refusal :=
  storeOp false n m 4 [fKey d] (fun x => (fReg x d).toNat % 2 ^ 32) st

/-- FST.D: doubleword := Fs. -/
def execCFstD (d : Fin 16) (n : Fin 8) (m : AddrMode) (st : State) : Host.Outcome State Fault Refusal :=
  storeOp false n m 8 [fKey d] (fun x => (fReg x d).toNat) st

/-- The low or high word of stamp `b` of a half (R163, R165). -/
def stampWord (s : State) (half : Bool) (b : Nat) (hi : Bool) : Word :=
  let v := tget (0 : DWord) s.smp.stamps (stampKey half b)
  BitVec.ofNat 32 (if hi then v.toNat / 2 ^ 32 else v.toNat)

/-- What a plane-port load reads (R165, R233, R328, R335). -/
def planeWord (s : State) (a : Nat) : Word :=
  if a < 0x60000004 then 0
  else if a < 0x60000008 then place (256 - s.arr.queue.length) 0 ||| place s.arr.retired 16
  else if a < 0x6000000C then s.arr.qres
  else if a < 0x70080000 then xferWord s a
  else
    let half := decide (0x70082000 ≤ a)
    if readHalf s = some half then stampWord s half (a % 0x2000 / 8) (decide (a % 8 = 4)) else 0

/-- The word that a plane-port load reads is in error beyond correction (R192). -/
def planeBad (s : State) (a : Nat) : Bool :=
  if a < 0x70000000 then false
  else if a < 0x70080000 then xferBad s a
  else
    let half := decide (0x70082000 ≤ a)
    let k := stampKey half (a % 0x2000 / 8)
    (readHalf s == some half) && (secded k (tget 0 s.smp.stampErr k)).isNone

/-- A correctable error of the stamp that is read is removed (R192). -/
def stampFix (s : State) (a : Nat) : State :=
  if a < 0x70080000 then s
  else
    let half := decide (0x70082000 ≤ a)
    let k := stampKey half (a % 0x2000 / 8)
    match secded k (tget 0 s.smp.stampErr k) with
    | some m => if readHalf s = some half then
        { s with smp := { s.smp with
            stampErr := tdel s.smp.stampErr k,
            stamps := tset 0 s.smp.stamps k (tget (0 : DWord) s.smp.stamps k ^^^ BitVec.ofNat 64 m) } }
      else s
    | none => s

/-- A plane-port load of a word in error: SMP_PARITY, and the reading program's slot faults (R192). -/
def planeFault (s : State) (a : Nat) : State :=
  match inHandler s with
  | some h => faultComp (leaveHandler (traceExit (sticky0 s 5 (leBytes 4 a ++ leBytes 1 h.fp)) h.fp 3 0)) 12
  | none => sticky0 s 5 (leBytes 4 a ++ leBytes 1 0xFF)

/-- PLD: Dd := word over the plane-port channel (R335). -/
def execCPld (d : Fin 16) (n : Fin 8) (m : AddrMode) (st : State) : Host.Outcome State Fault Refusal :=
  let ea := effAddr st n m 4
  .next (cndRun { (op1 (addrKeys st n m)).once with
      illegal := !m.plane, dlv := [(dKey st d, 3)], acc := some { accOf st n m 4 false with plane := true } }
    (fun x =>
      if planeBad x ea.toNat then
        (let y := planeFault x ea.toNat
         if (inHandler x).isSome then y else goNext (setD y d (planeWord x ea.toNat)) 4)
      else
        let y := stampFix x ea.toNat
        goNext (setD y d (planeWord y ea.toNat)) 4) st)

/-- A macro word enters the array instruction queue (R233). -/
def pushWord (s : State) (w : Word) : State := { s with arr := { s.arr with queue := s.arr.queue ++ [w] } }

/-- PST: a word stored over the plane-port channel; QPUSH appends it, or holds the conductor while the queue is full
(R233). -/
def execCPst (d : Fin 16) (n : Fin 8) (m : AddrMode) (st : State) : Host.Outcome State Fault Refusal :=
  .next (cndRun { (op1 (dKey st d :: addrKeys st n m)).once with
      illegal := !m.plane, acc := some { accOf st n m 4 true with plane := true } }
    (fun x =>
      if 256 ≤ x.arr.queue.length then modCnd x (fun c => { c with held := some (dReg x d) })
      else goNext (pushWord x (dReg x d)) 4) st)

/-- QPUSH_RESUME (R233): an entry has freed, and the store that holds the conductor completes. -/
def execCQpushResume (st : State) : Host.Outcome State Fault Refusal :=
  .next (match st.cnd.held with
    | some w =>
      if st.arr.queue.length < 256 then
        goNext (pushWord (modCnd st (fun c => { c with held := none })) w) 4
      else st
    | none => st)

end Sys2Proof.Machine
end

