-- ==== Sys2Proof/Machine/CndCtl.lean ====
section
/-! DEFINITION. The conductor's control transfers, the window services and the repeat prefixes (R322, R323, R336, R343 to R350,
R363 to R365, R374, R589, R590, R732). -/

namespace Sys2Proof.Machine

open Sys2Proof

/-- WP.OLD. -/
def wpOld (s : State) : Nat := fld s.cnd.wp 4 3

/-- WP.NRES. -/
def wpNres (s : State) : Nat := fld s.cnd.wp 8 3

/-- WP of the fields given. -/
def wpOf (cwp old nres : Nat) : Word := place cwp 0 ||| place old 4 ||| place nres 8

/-- The eight words of physical window `w`. -/
def winWords (s : State) (w : Nat) : List Word := (List.range 8).map (fun i => s.cnd.win.toList.getD (8 * w + i) 0)

/-- Physical window `w` takes eight words. -/
def setWin (s : State) (w : Nat) (f : Nat → Word) : State :=
  modCnd s (fun c => { c with win := (List.range 8).foldl (fun v i => v.setIfInBounds (8 * w + i) (f i)) c.win })

/-- The oldest window is spilled at the stack limit, when the stack leaves room for it (R363). -/
def spill (s : State) : Option State :=
  let l := slimAddr s
  if (aReg s 7 - 4).toNat < l + 32 then none
  else
    let s1 := ((winWords s (wpOld s)).zipIdx).foldl (fun t e => wrWord t (l + 4 * e.2) e.1) s
    some (modCnd s1 (fun c => { c with
      slim := BitVec.ofNat 32 (l + 32), wp := wpOf (cwp s) ((wpOld s + 1) % 7) (wpNres s - 1) }))

/-- Window `w` loaded from a spill record at `a`. -/
def loadWin (s : State) (w a : Nat) : State :=
  let s1 := spanFix s a 32
  setWin s1 w (fun i => rdWord s1 (a + 4 * i))

/-- The window below the current one is refilled (R364). -/
def refill (s : State) : State :=
  let l := slimAddr s - 32
  let w := (cwp s + 6) % 7
  modCnd (loadWin s w l) (fun c => { c with slim := BitVec.ofNat 32 l, wp := wpOf (cwp s) w 2 })

/-- The window overflow trap: in a handler the service runs at once, 64 cycles, and the call executes again (R344, R363,
R365). -/
def winOvf (s : State) : State :=
  match inHandler s with
  | none => trap s 6 0 0
  | some _ =>
    match spill s with
    | some t => spend t 64
    | none => doubleFault (saveEntry s 6 0 0) 6 true

/-- A call finds no window free (R344). -/
def callTrap (s : State) : Option State := if wpNres s = 7 then some (winOvf s) else none

/-- The handler has returned: its D0 to D7 become the reply's body, and firmware goes on (R364, R454, R589). -/
def handlerReturn (s : State) (h : Handler) : State :=
  match s.frm.comp with
  | none => leaveHandler (traceExit s h.fp 0 0)
  | some k =>
    let body := s.cnd.d.toList
    let s1 := modFrame s k.count (fun f => { f with
      slots := f.slots.map (fun x => if x.fp = k.fp then { x with body := body } else x) })
    let s2 := leaveHandler (traceExit s1 h.fp 0 0)
    compEnd { s2 with frm := { s2.frm with comp := some { k with handlerDone := true } } }

/-- The window underflow trap: in a handler a spilled window is refilled, 64 cycles, or the handler has returned
(R345, R364, R365, R732). -/
def winUnf (s : State) : State :=
  match inHandler s with
  | none => trap s 7 0 0
  | some h =>
    if (rd s 0x0638).toNat < slimAddr s then
      (if spanBad s (slimAddr s - 32) 32 then handlerTrap s h 2 0 (BitVec.ofNat 32 (slimAddr s - 32))
       else spend (refill s) 64)
    else handlerReturn (spend s 3) h

/-- An event routine runs. -/
def inRoutine (s : State) : Option Upcall := (inHandler s).bind (fun h => h.up)

/-- Calls of the running event routine not yet returned. -/
def setDepth (s : State) (f : Nat → Nat) : State :=
  modCnd s (fun c => { c with handler := c.handler.map (fun h => { h with up := h.up.map (fun u => { u with depth := f u.depth }) }) })

/-- A RET with no window below: underflow, or the outermost level of an event routine, which is an undefined service
(R345, R374). -/
def retTrap (s : State) : Option State :=
  match inRoutine s with
  | some u =>
    if u.depth = 0 then
      (match s.cnd.handler with
       | some h => some (handlerTrap s h 8 0 0)
       | none => none)
    else if wpNres s = 1 then some (winUnf s) else none
  | none => if wpNres s = 1 then some (winUnf s) else none

/-- Execution continues at `a`. -/
def jump (s : State) (a : Word) : State := modCnd s (fun c => { c with pc := a })

/-- The CIND entry of a handler's indirect transfer: KIND 0 JMPR, 1 CALLR, 2 RET (R586, R589). -/
def traceInd (s : State) (kind : Nat) (a : Word) : State :=
  match inHandler s with
  | some h => traceCnd s h.fp 5 (a.toNat / 4 % 2 ^ 30 + kind * 2 ^ 30) a.toNat
  | none => s

/-- A target that is not a multiple of 4 takes the access trap (R343). -/
def targetTrap (s : State) (a : Word) : Option State := if a.toNat % 4 ≠ 0 then some (trap s 4 2 a) else none

/-- The call of R344, steps 2 to 5. -/
def callTo (s : State) (a : Word) : State :=
  let sp := aReg s 7 - 4
  let s1 := setA (wrWord s sp.toNat (s.cnd.pc + 4)) 7 sp
  let w := (cwp s + 1) % 7
  jump (setDepth (setWin (modCnd s1 (fun c => { c with wp := wpOf w (wpOld s) (wpNres s + 1) })) w (fun _ => 0)) (· + 1)) a

/-- The push of a call as an access (R336, R344). -/
def callAcc (s : State) : Acc := { base := 7, ea := aReg s 7 - 4, size := 4, store := true, plane := false }

/-- A control instruction of `cc` cycles. -/
def opCtl (reads : List Nat) (cc : Nat) : COp := { (op1 reads).once with cc := cc }

/-- Target of a branch with a displacement of 22 bits (R343). -/
def branchTo (s : State) (disp : BitVec 22) : Word := s.cnd.pc + 4 + (disp.signExtend 32 <<< 2)

/-- A conditional branch: 1 cycle, or 2 when taken; a handler's outcome is traced (R340, R343, R589). -/
def branchOp (t : Nat) (disp : BitVec 22) (taken : Word → Bool) (st : State) : Host.Outcome State Fault Refusal :=
  let go := taken (dReg st t)
  .next (cndRun (opCtl [dKey st t] (if go then 2 else 1)) (fun x =>
    let y := jump x (if go then branchTo x disp else x.cnd.pc + 4)
    match inHandler x with
    | some h => traceBranch y h.fp go
    | none => y) st)

/-- BZ: taken when Dt = 0. -/
def execCBz (t : Fin 16) (disp : BitVec 22) (st : State) : Host.Outcome State Fault Refusal :=
  branchOp t disp (fun v => decide (v = 0)) st

/-- BNZ: taken when Dt ≠ 0. -/
def execCBnz (t : Fin 16) (disp : BitVec 22) (st : State) : Host.Outcome State Fault Refusal :=
  branchOp t disp (fun v => decide (v ≠ 0)) st

/-- BRA. -/
def execCBra (disp : BitVec 22) (st : State) : Host.Outcome State Fault Refusal :=
  .next (cndRun (opCtl [] 2) (fun x => jump x (branchTo x disp)) st)

/-- CALL (R344). -/
def execCCall (disp : BitVec 26) (st : State) : Host.Outcome State Fault Refusal :=
  .next (cndIssue { opCtl [aKey 7] 2 with acc := some (callAcc st) } callTrap (fun _ => none)
    (fun x => callTo x (x.cnd.pc + 4 + (disp.signExtend 32 <<< 2))) st)

/-- JMPR: PC := An (R343). -/
def execCJmpr (n : Fin 8) (st : State) : Host.Outcome State Fault Refusal :=
  .next (cndIssue (opCtl [aKey n] 2) (fun x => targetTrap x (aReg x n)) (fun _ => none)
    (fun x => traceInd (jump x (aReg x n)) 0 (aReg x n)) st)

/-- CALLR: a call to An; its target is checked before the push (R343, R344, R355). -/
def execCCallr (n : Fin 8) (st : State) : Host.Outcome State Fault Refusal :=
  .next (cndIssue { opCtl [aKey n, aKey 7] 2 with acc := some (callAcc st) }
    (fun x => (callTrap x).or (targetTrap x (aReg x n))) (fun _ => none)
    (fun x => traceInd (callTo x (aReg x n)) 1 (aReg x n)) st)

/-- RET (R345): the underflow trap, the load of the return address, its alignment, then the return. -/
def execCRet (st : State) : Host.Outcome State Fault Refusal :=
  .next (cndIssue
    { opCtl [aKey 7] 3 with acc := some { base := 7, ea := aReg st 7, size := 4, store := false, plane := false } }
    retTrap (fun x => targetTrap x (rdWord (spanFix x (aReg x 7).toNat 4) (aReg x 7).toNat))
    (fun x =>
      let a := rdWord x (aReg x 7).toNat
      let y := setA x 7 (aReg x 7 + 4)
      let z := modCnd y (fun c => { c with wp := wpOf ((cwp x + 6) % 7) (wpOld x) (wpNres x - 1) })
      traceInd (jump (setDepth z (fun d => d - 1)) a) 2 a) st)

/-- A repeat prefix: LC takes the count, or keeps it under RIP, and the sequence begins (R346 to R350). -/
def prefixOp (nested : Bool) (reads : List Nat) (n : State → Word) (st : State) : Host.Outcome State Fault Refusal :=
  .next (cndRun (opCtl (if rip st then [] else reads) 1) (fun x =>
    let lc := if rip x then x.cnd.lc else n x
    let r : Rep := { pc := x.cnd.pc, nested := nested, lc0 := x.cnd.lc, rip0 := rip x }
    modCnd x (fun c => { c with
      lc := lc, cstat := c.cstat &&& ~~~(place 1 6),
      rep := if lc = 0 then none else some r, pc := if lc = 0 then c.pc + 8 else c.pc + 4 })) st)

/-- RPTI: count from a D register or from IMM16 (R346, R347). -/
def execCRpti (src : Option (Fin 16)) (imm : BitVec 16) (st : State) : Host.Outcome State Fault Refusal :=
  match src with
  | some d => prefixOp false [dKey st d] (fun x => dReg x d) st
  | none => prefixOp false [] (fun _ => imm.setWidth 32) st

/-- RPTN: 1 to 64 iterations with no interrupt among them (R348). -/
def execCRptn (nm1 : Fin 64) (st : State) : Host.Outcome State Fault Refusal :=
  prefixOp true [] (fun _ => BitVec.ofNat 32 (nm1.val + 1)) st

end Sys2Proof.Machine
end

