-- ==== Sys2Proof/Machine/CndFp.lean ====
section
/-! DEFINITION. The conductor's floating-point instructions (R293 to R303, R310 to R316, R320). -/

namespace Sys2Proof.Machine

open Sys2Proof

/-- The format that P selects. -/
def fmtOf (p : Bool) : Fmt := if p then b64 else b32

/-- CSTAT.FRM, the rounding attribute (R310, R313). -/
def frmOf (s : State) : Nat := fld s.cnd.cstat 8 3

/-- An F register as an operation of format P reads it: binary32 reads only bits 31:0 (R320). -/
def fVal (s : State) (p : Bool) (i : Nat) : Nat := if p then (fReg s i).toNat else (fReg s i).toNat % 2 ^ 32

/-- A result with its exceptions ORed into FEX (R310, R320). -/
def putF (s : State) (d : Nat) (r : FRes) : State := orCstat (setF s d (BitVec.ofNat 64 r.val)) (place (r.ex % 32) 0)

/-- An FPU instruction: 1 cycle of the conductor, its latency and its occupancy of the FPU (R315, R351). -/
def opF (reads : List Nat) (dst lat occ : Nat) : COp := { op1 reads with fpu := some occ, dlv := [(dst, lat)] }

/-- An operation on two F registers. -/
def fop2 (d a b lat occ : Nat) (p : Bool) (f : Nat → Nat → Nat → FRes) (st : State) : Host.Outcome State Fault Refusal :=
  cndStep (opF [fKey a, fKey b] (fKey d) lat occ) (fun x => putF x d (f (frmOf x) (fVal x p a) (fVal x p b))) st

/-- FADD (R313, R315). -/
def execCFadd (p : Bool) (d a b : Fin 16) (st : State) : Host.Outcome State Fault Refusal := fop2 d a b 3 1 p (fmtOf p).add st

/-- FSUB. -/
def execCFsub (p : Bool) (d a b : Fin 16) (st : State) : Host.Outcome State Fault Refusal := fop2 d a b 3 1 p (fmtOf p).sub st

/-- FMUL. -/
def execCFmul (p : Bool) (d a b : Fin 16) (st : State) : Host.Outcome State Fault Refusal :=
  fop2 d a b (if p then 4 else 3) 1 p (fmtOf p).mul st

/-- FDIV (R314, R315). -/
def execCFdiv (p : Bool) (d a b : Fin 16) (st : State) : Host.Outcome State Fault Refusal :=
  fop2 d a b (if p then 20 else 12) (if p then 19 else 11) p (fmtOf p).div st

/-- FSQRT (R314, R315). -/
def execCFsqrt (p : Bool) (d a : Fin 16) (st : State) : Host.Outcome State Fault Refusal :=
  cndStep (opF [fKey a] (fKey d) (if p then 22 else 12) (if p then 21 else 11))
    (fun x => putF x d ((fmtOf p).sqrt (frmOf x) (fVal x p a))) st

/-- A move that changes only the sign, or nothing, and signals nothing (R315). -/
def fmove (p : Bool) (d a : Nat) (f : Nat → Nat) (st : State) : Host.Outcome State Fault Refusal :=
  cndStep (opF [fKey a] (fKey d) 1 1) (fun x => setF x d (BitVec.ofNat 64 (f (fVal x p a)))) st

/-- FNEG: the sign inverted. -/
def execCFneg (p : Bool) (d a : Fin 16) (st : State) : Host.Outcome State Fault Refusal :=
  fmove p d a (fun v => v ^^^ (fmtOf p).zero true) st

/-- FABS: the sign cleared. -/
def execCFabs (p : Bool) (d a : Fin 16) (st : State) : Host.Outcome State Fault Refusal :=
  fmove p d a (fun v => v % (fmtOf p).zero true) st

/-- FMOV. -/
def execCFmov (p : Bool) (d a : Fin 16) (st : State) : Host.Outcome State Fault Refusal := fmove p d a (fun v => v) st

/-- A conversion of Ds to format P (R302). -/
def fromInt (signed p : Bool) (d s : Nat) (st : State) : Host.Outcome State Fault Refusal :=
  cndStep (opF [dKey st s] (fKey d) 2 1)
    (fun x => putF x d ((fmtOf p).ofInt (frmOf x) 32 signed (dReg x s).toNat)) st

/-- FCVT.F: signed Ds. -/
def execCFcvtF (p : Bool) (d a : Fin 16) (st : State) : Host.Outcome State Fault Refusal := fromInt true p d a st

/-- FCVT.FU: unsigned Ds. -/
def execCFcvtFu (p : Bool) (d a : Fin 16) (st : State) : Host.Outcome State Fault Refusal := fromInt false p d a st

/-- A conversion of Fa to a 32-bit integer, rounded by FRM and clamped (R301, R313). -/
def toInt32 (signed p : Bool) (d a : Nat) (st : State) : Host.Outcome State Fault Refusal :=
  cndStep (opF [fKey a] (dKey st d) 2 1) (fun x =>
    let r := (fmtOf p).toInt (frmOf x) 32 signed (fVal x p a)
    orCstat (setD x d (BitVec.ofNat 32 r.1)) (place (r.2.2 % 32) 0)) st

/-- FCVT.I. -/
def execCFcvtI (p : Bool) (d a : Fin 16) (st : State) : Host.Outcome State Fault Refusal := toInt32 true p d a st

/-- FCVT.IU. -/
def execCFcvtIu (p : Bool) (d a : Fin 16) (st : State) : Host.Outcome State Fault Refusal := toInt32 false p d a st

/-- FCVT.W: Fa converted to format P from the other format (R303). -/
def execCFcvtW (p : Bool) (d a : Fin 16) (st : State) : Host.Outcome State Fault Refusal :=
  cndStep (opF [fKey a] (fKey d) 2 1)
    (fun x => putF x d ((fmtOf (!p)).conv (fmtOf p) (frmOf x) (fVal x (!p) a))) st

/-- FMVFD: the bits of Fa to Dd, or to Dd, Dd + 1, whose d is even (R319). -/
def execCFmvfd (p : Bool) (d a : Fin 16) (st : State) : Host.Outcome State Fault Refusal :=
  cndStep { opF [fKey a] (dKey st d) 1 1 with
      illegal := p && d.val % 2 == 1, dlv := [(dKey st d, 1), (dKey st (if p then d + 1 else d), 1)] }
    (fun x => if p then setDPair x d (fReg x a).toNat else setD x d (BitVec.ofNat 32 (fReg x a).toNat)) st

/-- FMVDF: the bits of Ds, or of Ds, Ds + 1, to Fd (R319). -/
def execCFmvdf (p : Bool) (d a : Fin 16) (st : State) : Host.Outcome State Fault Refusal :=
  cndStep { opF (if p then [dKey st a, dKey st (a + 1)] else [dKey st a]) (fKey d) 1 1 with
      illegal := p && a.val % 2 == 1 }
    (fun x => setF x d (BitVec.ofNat 64 (if p then dPair x a else (dReg x a).toNat))) st

/-- FMA: Fd := (±Fa × Fb) ± Fc, rounded once (R313, R315). -/
def execCFma (p np nc : Bool) (d a b c : Fin 16) (st : State) : Host.Outcome State Fault Refusal :=
  cndStep (opF [fKey a, fKey b, fKey c] (fKey d) (if p then 5 else 4) 1)
    (fun x => putF x d ((fmtOf p).fma (frmOf x) np nc (fVal x p a) (fVal x p b) (fVal x p c))) st

/-- FCMP: Dd := 1 when the relation holds, else 0 (R300, R313, R340). -/
def execCFcmp (p : Bool) (rel : Fin 4) (sig : Bool) (d a b : Fin 16) (st : State) : Host.Outcome State Fault Refusal :=
  cndStep (opF [fKey a, fKey b] (dKey st d) 2 1) (fun x =>
    let r := (fmtOf p).cmp rel sig (fVal x p a) (fVal x p b)
    orCstat (setD x d (truth r.1)) (place (r.2 % 32) 0)) st

end Sys2Proof.Machine
end

