-- ==== Sys2Proof/Machine/CndSys.lean ====
section
/-! DEFINITION. The conductor's system instructions, the services of SVC, interrupts and event upcalls, RFE, the handler budget
and firmware restarts (R324 to R327, R353 to R362, R368, R371 to R378, R524 to R527, R663, R664, R732). -/

namespace Sys2Proof.Machine

open Sys2Proof

/-- NOP. -/
def execCNop (st : State) : Host.Outcome State Fault Refusal := .next (cndRun (opCtl [] 1) (fun x => goNext x 4) st)

/-- A special register as MFSR reads it (R324). -/
def specReg (s : State) (sr : Nat) : Word :=
  match sr with
  | 0 => s.cnd.pc
  | 1 => s.cnd.lc
  | 2 => s.cnd.wp
  | 3 => s.cnd.slim
  | _ => s.cnd.cstat

/-- MFSR: Dd := special register (R324). -/
def execCMfsr (d : Fin 16) (sr : Fin 5) (st : State) : Host.Outcome State Fault Refusal :=
  .next (cndRun (opCtl [] 1) (fun x => goNext (setD x d (specReg x sr)) 4) st)

/-- A 1 in a reserved bit of a special register, or a reserved FRM (R311, R326). -/
def srReserved (sr : Nat) (v : Word) : Bool :=
  match sr with
  | 2 => v &&& ~~~0x777 != 0
  | 3 => v &&& 3 != 0
  | 4 => v &&& 0xFFFCF800 != 0 || decide (5 ≤ fld v 8 3)
  | _ => false

/-- CSTAT after an MTSR (R311, R326). -/
def cstatWrite (s : State) (v : Word) : Word :=
  let mask : Word := if hm s then 0x00BF else 0x200BF
  let w := (s.cnd.cstat &&& ~~~mask) ||| (v &&& mask)
  if 5 ≤ fld v 8 3 then w else setFld w 8 3 (fld v 8 3)

/-- The effect of an MTSR (R324, R326). -/
def srWrite (s : State) (sr : Nat) (v : Word) : State :=
  let s1 := if srReserved sr v then reservedField s sr 0 else s
  match sr with
  | 1 => modCnd s1 (fun c => { c with lc := v })
  | 2 => modCnd s1 (fun c => { c with wp := v &&& 0x777 })
  | 3 => modCnd s1 (fun c => { c with slim := v &&& ~~~3 })
  | 4 => setCstat s1 (cstatWrite s v)
  | _ => s1

/-- MTSR: PC is not written; WP and SLIM only in firmware mode (R324 to R326). -/
def execCMtsr (sr : Fin 5) (s : Fin 16) (st : State) : Host.Outcome State Fault Refusal :=
  .next (cndRun { opCtl [dKey st s] 1 with
      illegal := decide (sr.val = 0) || (hm st && (decide (sr.val = 2) || decide (sr.val = 3))) }
    (fun x => goNext (srWrite x sr (dReg x s)) 4) st)

/-- CSYNC KIND 3 where a handler resumes (R589). -/
def traceResume (s : State) : State :=
  match inHandler s with
  | some h => traceCnd s h.fp 3 (s.cnd.pc.toNat / 4 % 2 ^ 30 + 3 * 2 ^ 30 + h.fp * 2 ^ 32) s.cnd.pc.toNat
  | none => s

/-- Return from exception: CSTAT, WP and PC as saved, all fields, and INDF cleared (R357, R368). -/
def rfe (s : State) : State :=
  traceResume (modCnd s (fun c => { c with
    cstat := rd s 0x0614, wp := rd s 0x0618, pc := rd s 0x0610, indf := false, rep := none }))

/-- RFE: firmware mode only, 4 cycles. -/
def execCRfe (st : State) : Host.Outcome State Fault Refusal :=
  .next (cndRun { opCtl [] 0 with illegal := hm st } (fun x => rfe (spend x 4)) st)

/-- WAITI: firmware mode only; the conductor holds until an interrupt is pending. -/
def execCWaiti (st : State) : Host.Outcome State Fault Refusal :=
  .next (cndRun { opCtl [] 1 with illegal := hm st } (fun x => modCnd (goNext x 4) (fun c => { c with waiting := true })) st)

/-- A byte of the span can be read by the handler's code (R372, R387). -/
def readable (s : State) (q a n : Nat) : Bool := (List.range n).all (fun i => handlerArea s q (a + i) 1 false)

/-- Bytes that the keeper records staged so far occupy (R372). -/
def stagedSize (l : List (Nat × List Byte)) : Nat := (l.map (fun r => 8 + r.2.length)).sum

/-- KUPD refuses (R372). -/
def kupdRefused (s : State) (q : Nat) : Bool :=
  let off := (dReg s 0).toNat
  let n := (dReg s 1).toNat
  decide (n % 4 ≠ 0) || decide (n < 4) || decide (2048 < n) || decide (off % 4 ≠ 0) ||
    decide ((keepArea s q).2 < off + n) || !readable s q (aReg s 0).toNat n ||
    decide (4096 < stagedSize (tget [] s.frm.kstage q) + 8 + n)

/-- Cycles of KUPD (R371). -/
def kupdCc (n : Nat) : Nat := 24 + (if n % 4 ≠ 0 ∨ 2048 < n then 2048 else n) / 2

/-- KUPD: a record is staged in the keeper update buffer, or refused; an uncorrectable source word ends the handler
(R99, R371, R372, R732). -/
def kupd (s : State) (h : Handler) : State :=
  let n := (dReg s 1).toNat
  let a := (aReg s 0).toNat
  let done := fun t => goNext (spend t (kupdCc n)) 4
  if kupdRefused s h.part then done (setD (setFlag s 0x0608 3) 0 0)
  else if spanBad s a n then handlerTrap s h 2 0 (aReg s 0)
  else
    let s1 := spanFix s a n
    let r := ((dReg s 0).toNat, rdBytes s1 a n)
    done (setD { s1 with frm := { s1.frm with
      kstage := tput s1.frm.kstage h.part (tget [] s1.frm.kstage h.part ++ [r]) } } 0 1)

/-- Entries 32k to 32k + 31 that belong to partition p, as a mask. -/
def ownEvents (s : State) (p k : Nat) : Word :=
  BitVec.ofNat 32 (((List.range 32).map (fun i => if fld (evtB s (32 * k + i)) 21 2 = p then 2 ^ i else 0)).sum)

/-- EVTPEND: the pending bits of the masked entries of the partition, which it clears (R371). -/
def evtpend (s : State) (h : Handler) : State :=
  let m := fun k => dReg s k &&& ownEvents s h.part k
  let v := fun k => rd s (0x0270 + 4 * k) &&& m k
  goNext (spend (setD (setD (clrReg (clrReg s 0x0270 (m 0)) 0x0274 (m 1)) 0 (v 0)) 1 (v 1)) 24) 4

/-- ANGLE: the angle word and FRM_COUNT, latched together (R81, R371). -/
def svcAngle (s : State) : State :=
  let s1 := latch s 0x020C
  goNext (spend (setD (setD (setD s1 0 (angWord s1)) 1 (rd s1 0x0210)) 2 (rd s1 0x0214)) 24) 4

/-- TMARK: a trace entry carrying D0, and event 7 when it equals CMP (R371, R586, R596). -/
def tmark (s : State) (h : Handler) : State :=
  let v := dReg s 0
  let s1 := if trcCtl s h.part 0x20 = v then traceEvent s h.part 7 else s
  traceCnd (goNext (spend s1 24) 4) h.fp 6 v.toNat (s.cnd.pc.toNat + 4)

/-- The windows that were spilled while the event routine ran, oldest first, put back (R374). -/
def restoreWins (s : State) (u : Upcall) : State :=
  let l0 := (u.slim &&& ~~~3).toNat
  let n := min (fld u.wp 8 3) ((slimAddr s - l0) / 32)
  forEach (List.range n) s (fun t i => loadWin t ((fld u.wp 4 3 + i) % 7) (l0 + 32 * i))

/-- EVTRET ends the event routine and resumes the handler (R371, R374, R589). -/
def evtret (s : State) (h : Handler) (u : Upcall) : State :=
  let l0 := (u.slim &&& ~~~3).toNat
  if spanBad s l0 (32 * min (fld u.wp 8 3) ((slimAddr s - l0) / 32)) then handlerTrap s h 2 0 (u.slim &&& ~~~3)
  else
    let s1 := traceCnd s h.fp 7 (s.cnd.last.toNat / 4 % 2 ^ 30 + 4 * 2 ^ 30 + h.fp * 2 ^ 39) s.cnd.pc.toNat
    let s2 := restoreWins s1 u
    traceResume (modCnd s2 (fun c => { c with
      pc := u.pc, wp := u.wp, slim := u.slim, lc := u.lc, cstat := u.cstat,
      a := (u.a.zipIdx).foldl (fun v e => v.setIfInBounds e.2 e.1) c.a,
      d := (u.d.zipIdx).foldl (fun v e => v.setIfInBounds e.2 e.1) c.d,
      handler := some { h with up := none } }))

/-- SVC in handler mode: the services, or an undefined code (R370, R371). -/
def service (s : State) (h : Handler) (code : Nat) : State :=
  match code with
  | 1 => kupd s h
  | 2 => evtpend s h
  | 3 => svcAngle s
  | 4 => tmark s h
  | 5 =>
    match h.up with
    | some u => evtret s h u
    | none => handlerTrap (goNext s 4) h 8 5 0
  | n => handlerTrap (goNext s 4) h 8 n 0

/-- SVC #code: a service call trap, resumed at the next instruction (R353, R371). -/
def svcOp (code : Nat) (st : State) : Host.Outcome State Fault Refusal :=
  .next (cndIssue (opCtl [] 1) (fun _ => none)
    (fun x => some (match inHandler x with
      | some h => service x h code
      | none => trap (goNext (spend x 1) 4) 8 code 0))
    (fun x => x) st)

/-- SVC. -/
def execCSvc (imm : Byte) (st : State) : Host.Outcome State Fault Refusal := svcOp imm.toNat st

/-- KUPD: SVC 1 (R371, R372). -/
def execCKupd (st : State) : Host.Outcome State Fault Refusal := svcOp 1 st

/-- EVTPEND: SVC 2. -/
def execCEvtpend (st : State) : Host.Outcome State Fault Refusal := svcOp 2 st

/-- ANGLE: SVC 3. -/
def execCAngle (st : State) : Host.Outcome State Fault Refusal := svcOp 3 st

/-- TMARK: SVC 4. -/
def execCTmark (st : State) : Host.Outcome State Fault Refusal := svcOp 4 st

/-- EVTRET: SVC 5. -/
def execCEvtret (st : State) : Host.Outcome State Fault Refusal := svcOp 5 st

/-- BKPT #code: in handler mode a trace entry, 12 cycles; in firmware mode the breakpoint trap (R353, R371, R589). -/
def execCBkpt (imm : Byte) (st : State) : Host.Outcome State Fault Refusal :=
  .next (cndIssue (opCtl [] 1) (fun _ => none)
    (fun x => some (match inHandler x with
      | some h => traceCnd (goNext (spend x 12) 4) h.fp 6 (imm.toNat + 2 ^ 32) (x.cnd.pc.toNat + 4)
      | none => trap (goNext (spend x 1) 4) 9 imm.toNat 0))
    (fun x => x) st)

/-- Priority of the interrupt of vector 16 + i (R353). -/
def intPrio (i : Nat) : Nat := ([7, 6, 6, 5, 4, 4, 3, 2, 2, 1] : List Nat).getD i 0

/-- Firmware's allowance while the handler is current (R376): spent, so that vectors 16 to 24 wait. -/
def fwCapped (s : State) : Bool :=
  (inHandler s).isSome && decide (512 * (1 + s.cnd.hExec / 7680) ≤ s.cnd.fwUsed)

/-- The interrupt of vector 16 + i qualifies (R348, R358, R359). -/
def qualifies (s : State) (i : Nat) : Bool :=
  s.cnd.running && decide (s.pwr.st ≠ 2) && bit s.cnd.cstat 17 && decide (cwp s ≠ 7) && bit (rd s 0x0634) i &&
    bit (ipend s) i && (decide (i < 9) || hm s) && (match s.cnd.rep with | some r => !r.nested | none => true)

/-- The interrupt that is taken: of those that qualify and do not wait under R376 the highest priority, at equal priority the
lower vector (R359). -/
def intPick (s : State) : Option Nat :=
  (List.range 10).foldl (fun b i =>
    if !qualifies s i || (decide (i < 9) && fwCapped s) then b
    else
      match b with
      | some j => if intPrio j < intPrio i then some i else b
      | none => some i) none

/-- The event upcall (R373, R375, R589): the bit of the entry is cleared, the state saved, a window allocated, and the event
routine entered. -/
def upcall (s0 : State) (h : Handler) (e : Nat) (entry : Nat) : State :=
  let s := unwind (modCnd s0 (fun c => { c with held := none, waiting := false }))
  let s1 := clrReg s (if e < 32 then 0x0270 else 0x0274) (place 1 (e % 32))
  let u : Upcall := { pc := s.cnd.pc, wp := s.cnd.wp, lc := s.cnd.lc, cstat := s.cnd.cstat, a := s.cnd.a.toList,
                      d := s.cnd.d.toList, slim := s.cnd.slim, depth := 0 }
  let full := wpNres s = 7
  match (if full then spill s1 else some s1) with
  | none => doubleFault (saveEntry s1 6 0 0) 6 true
  | some s2 =>
    let w := (cwp s2 + 1) % 7
    let v := (prog s h.fp).v
    let pc := BitVec.ofNat 32 (codeAddr s h.fp entry)
    let s3 := setWin (modCnd s2 (fun c => { c with
      wp := wpOf w (wpOld s2) (wpNres s2 + 1), cstat := c.cstat &&& ~~~(place 1 6), pc := pc, dlv := [],
      handler := some { h with up := some u, ups := h.ups + 1, delivered := h.delivered ++ [e], vleft := v } })) w
      (fun i => if i = 0 then BitVec.ofNat 32 e else 0)
    let s4 := modCnd s3 (fun c => { c with hExec := c.hExec + (if full then 160 else 96) })
    traceCnd s4 h.fp 3 (pc.toNat / 4 % 2 ^ 30 + 2 ^ 30 + h.fp * 2 ^ 32 + e * 2 ^ 36) pc.toNat

/-- An interrupt is taken between instructions (R347, R356, R359, R360, R376): of vectors 16 to 24 its pending bit is cleared
and firmware is entered. -/
def takeInt (s : State) (i : Nat) : State :=
  let s1 := modCnd (unwind s) (fun c => { c with ipend := c.ipend &&& ~~~(BitVec.ofNat 10 (2 ^ i)), held := none })
  enterVec s1 (16 + i) 0 0

/-- INTERRUPT_ENTRY (R353, R359, R373, R376): the interrupt of vector 16 + v is entered when it is the one to be taken. One
that the firmware allowance holds back waits with FWCAP set. -/
def execInterruptEntry (v : Fin 10) (st : State) : Host.Outcome State Fault Refusal :=
  .next (if intPick st = some v.val then
      (if v.val = 9 then
        (match st.cnd.handler, angEvent st with
         | some h, some e =>
           match (prog st h.fp).eventry with
           | some entry => upcall st h e entry
           | none => st
         | _, _ => st)
       else takeInt st v.val)
    else if qualifies st v.val && decide (v.val < 9) && fwCapped st then setFlag st 0x0608 4
    else st)

/-- HBUDGET_EXPIRY (R370, R375): the count has run out and the trap is taken at the instruction boundary. -/
def execHbudgetExpiry (st : State) : Host.Outcome State Fault Refusal :=
  .next (if st.cnd.running && decide (st.pwr.st ≠ 2) && budgetOut st then trap st 10 0 0 else st)

/-- Offset of the flash region of firmware image A or B (R641). -/
def fwOff (slot : Nat) : Nat := 0x40000 * slot

/-- The CND_ registers and the conductor's registers at their reset values, its memories kept (R327, R663). -/
def resetConductor (s : State) : State :=
  let regs := s.regs.filter (fun e : Nat × Word => !((decide (0x0600 ≤ e.1) && decide (e.1 < 0x0700)) || decide (e.1 = hiKey 0x0640)))
  { s with regs := regs, cnd := { Cnd.reset with mem := s.cnd.mem, memErr := s.cnd.memErr, again := s.cnd.again } }

/-- The image's code is in instruction SRAM; CND_VBASE takes VBOFF and PC takes ENTRY (R327, R645). -/
def startFirmware (s : State) (hdr : List Byte) : State :=
  modCnd (wr s 0x060C (BitVec.ofNat 32 (entryNat hdr 0x54 4))) (fun c => { c with
    pc := BitVec.ofNat 32 (entryNat hdr 0x48 4), wp := 0x100, running := true })

/-- FIRMWARE_RESTART_COMPLETE (R524 to R527, R663): the code section is reloaded and checked, and the firmware starts again;
a code section that fails its check resets the device. -/
def execFirmwareRestartComplete (st : State) : Host.Outcome State Fault Refusal :=
  .next (match st.boot.running with
    | some slot =>
      if st.cnd.running || st.boot.inReset then st
      else
        let hdr := flashBytes st (fwOff slot) 96
        let code := flashBytes st (fwOff slot + 96) (entryNat hdr 0x4C 4)
        if (crc32 code).toNat ≠ entryNat hdr 0x58 4 then resetEntry st 5
        else
          let s1 := fillMem (resetConductor st) 0 ((code ++ List.replicate 0x8000 0).take 0x8000)
          let c := rd s1 0x000C
          startFirmware (wr s1 0x000C (setFld c 8 8 (satAdd 255 (fld c 8 8) 1))) hdr
    | none => st)

/-- WATCHDOG_EXPIRY (R664): the device resets with cause 8. The watchdog runs once the firmware has started, in SAFE mode too,
and is stopped in STANDBY. -/
def execWatchdogExpiry (st : State) : Host.Outcome State Fault Refusal :=
  .next (if (st.boot.running.isSome || safeMode st) && !st.boot.inReset && decide (st.pwr.st ≠ 2) then resetEntry st 8 else st)

/-- FIRMWARE_TIMER_TICK (R353): the firmware timer's interrupt becomes pending. -/
def execFirmwareTimerTick (st : State) : Host.Outcome State Fault Refusal :=
  .next (if st.cnd.running then raiseInt st 24 else st)

end Sys2Proof.Machine
end

