-- ==== Sys2Proof/Machine/LogOps.lean ====
section
/-! DEFINITION. The writing of the fault log: records, sector and bank failures, the retest and the rate limits (R603, R604,
R614 to R622). -/

namespace Sys2Proof.Machine

open Sys2Proof

/-- The fault log changed. -/
def modFlt (s : State) (f : Flt → Flt) : State := { s with flt := f s.flt }

/-- The next sector of bank b after sector i that is not retired (R615). -/
def nextSector (s : State) (b i : Nat) : Nat :=
  ((List.range 16).map (fun k => (i + 1 + k) % 16)).find? (fun j => !(tget 0 s.flt.ret b).testBit j) |>.getD i

/-- The sector that holds the newest record of bank b; 15 stands before sector 0 when there is none (R619, R623). -/
def newestSector (s : State) (b : Nat) : Nat :=
  ((bankRecs s b).foldl (fun (m : Option LogAt) x => match m with
    | some y => if y.seq < x.seq then some x else m
    | none => some x) none).elim 15 (fun x => x.slot / 128)

/-- The writer enters bank b: its next record goes to the sector after that of the bank's newest record (R619). -/
def enterBank (s : State) (b : Nat) : State :=
  modFlt s (fun f => { f with active := b, sector := newestSector s b, slot := 128, lastFail := false })

/-- Records of the writer's own, ahead of those of the RAM ring. -/
def ownPut (s : State) (code : Nat) (data : List Byte) : State :=
  modFlt s (fun f => { f with own := f.own ++ [mkRec s code 0 data] })

/-- Bank b fails, in sector j by `kind`, 0 erase or 1 write verify (R619): LOG_DEGRADED, and the other bank is entered. -/
def bankFail (s : State) (b j kind : Nat) : State :=
  let s1 := ownPut (raiseInt (setFlag (noteFirst s 37) 0x0E04 5) 22) 0x125 (leBytes 1 b ++ leBytes 1 j ++ leBytes 1 kind)
  let s2 := modFlt s1 (fun f => { f with bankF := tput f.bankF b true })
  if tget false s2.flt.bankF (1 - b) then
    let all := s2.flt.own ++ s2.flt.ring
    let n := all.length - 16
    sticky1 (modFlt s2 (fun f => { f with ring := all.drop n, own := [], seq := f.seq + n })) 6 []
  else enterBank s2 (1 - b)

/-- Sector j of bank b fails: it is retired, and a second failure in succession, or fewer than 4 usable sectors, fail the bank
(R618, R619). -/
def sectorFail (s : State) (b j kind : Nat) : State :=
  let s1 := modFlt (ownPut s 5 (leBytes 1 b ++ leBytes 1 j ++ leBytes 1 kind)) (fun f => { f with
    ret := tput f.ret b (tget 0 f.ret b ||| 2 ^ j), sector := j, slot := 128 })
  if s.flt.lastFail ∨ usable s1 b < 4 then bankFail s1 b j kind else modFlt s1 (fun f => { f with lastFail := true })

/-- A write attempt at slot i of bank b: it takes the next SEQ; one that fails its verify leaves the slot open (R610). -/
def logAttempt (s : State) (b i : Nat) (bytes : Nat → List Byte) (ok : Bool) : State :=
  let n := s.flt.seq + 1
  let s1 := modFlt s (fun f => { f with seq := n })
  if ok then flashPut s1 (logOff b i) (bytes n) else flashOpen s1 (logOff b i) 32

/-- The next sector is entered: its erase, and its SUMMARY in slot 0 (R615). -/
def newSector (s : State) (eraseOk sumOk : Bool) : State :=
  let b := s.flt.active
  let j := nextSector s b s.flt.sector
  let s1 := countErase s (192 + 16 * b + j)
  if !eraseOk then sectorFail (flashOpen s1 (logOff b (128 * j)) 4096) b j 0
  else
    let s2 := logAttempt (clearSector s1 (192 + 16 * b + j)) b (128 * j) (summaryBytes s1) sumOk
    if sumOk then modFlt s2 (fun f => { f with sector := j, slot := 1 }) else sectorFail s2 b j 1

/-- The head of the records that wait has been written. -/
def popRecord (f : Flt) : Flt := if f.own.isEmpty then { f with ring := f.ring.drop 1 } else { f with own := f.own.drop 1 }

/-- The first record that waits is written into the current sector, or a new sector is tried first (R614, R615, R618). -/
def logWrite (s : State) (eraseOk sumOk recOk : Bool) : State :=
  match s.flt.own ++ s.flt.ring with
  | [] => s
  | r :: _ =>
    if bothFailed s then s
    else
      let s1 := if 128 ≤ s.flt.slot then newSector s eraseOk sumOk else s
      if 128 ≤ s1.flt.slot then s1
      else
        let b := s1.flt.active
        let i := s1.flt.slot
        let s2 := logAttempt s1 b (128 * s1.flt.sector + i) (fun n => recBytes s1 n r) recOk
        if recOk then modFlt s2 (fun f => { popRecord f with slot := i + 1, lastFail := false })
        else sectorFail s2 b s1.flt.sector 1

/-- LOG_RECORD_WRITE (R610, R612, R614, R615, R618 to R620): the writer writes the next record, or fails to. The operands say
whether the erase, the SUMMARY and the record verify. It waits while a host flash command runs, and in STANDBY. -/
def execLogRecordWrite (eraseOk sumOk recOk : Bool) (s : State) : Host.Outcome State Fault Refusal :=
  .next (if s.boot.ready && s.boot.op.isNone && s.flt.capturing.isEmpty && decide (s.pwr.st ≠ 2) then
      logWrite s eraseOk sumOk recOk
    else s)

/-- LOG_RATE_SECOND (R616): the second after a record of `code` has ended with occurrences counted: one record reports them. -/
def execLogRateSecond (code : Nat) (s : State) : Host.Outcome State Fault Refusal :=
  .next (match tfind s.flt.rates code with
    | some w =>
      if w.n ≠ 0 ∧ w.at_ + 1000 ≤ upMs s then
        hourPut (modFlt s (fun f => { f with rates := tput f.rates code ⟨upMs s, 0, w.data⟩ })) (mkRec s code w.n w.data)
      else s
    | none => s)

/-- LOG_HOUR (R617): an hour counted from READY has ended; what was not written in it is recorded. -/
def execLogHour (s : State) : Host.Outcome State Fault Refusal :=
  let hour := 3600000 * msTicks
  .next (if s.boot.ready && decide (s.flt.hourAt + hour ≤ s.now) then
      let s1 := modFlt s (fun f => { f with hourN := 0, hourSup := 0, hourAt := f.hourAt + hour })
      if s.flt.hourSup = 0 then s1 else logPut s1 7 (leBytes 4 (min 0xFFFFFFFF s.flt.hourSup))
    else s)

/-- One failed bank retested: every sector not retired is erased; those that fail are retired (R621). -/
def retestBank (fails : BitVec 32) (s : State) (b : Nat) : State :=
  if !tget false s.flt.bankF b then s
  else
    let js := (List.range 16).filter (fun j => !(tget 0 s.flt.ret b).testBit j)
    let s1 := forEach js s (fun s j =>
      let t := countErase s (192 + 16 * b + j)
      if fails.getLsbD (16 * b + j) then
        modFlt (ownPut (flashOpen t (logOff b (128 * j)) 4096) 5 (leBytes 1 b ++ leBytes 1 j ++ leBytes 1 0)) (fun f => { f with
          ret := tput f.ret b (tget 0 f.ret b ||| 2 ^ j) })
      else clearSector t (192 + 16 * b + j))
    if 4 ≤ usable s1 b then modFlt s1 (fun f => { f with bankF := tput f.bankF b false }) else s1

/-- The retest of the failed banks (R621). When it restores a bank and none was active, the lower-numbered restored bank
becomes active and its first usable sector receives a SUMMARY. -/
def logRetest (s : State) (fails : BitVec 32) : State :=
  let s1 := retestBank fails (retestBank fails s 0) 1
  if !bothFailed s then s1
  else if bothFailed s1 then modFlt s1 (fun f => { f with own := s.flt.own })
  else
    let b := if tget false s1.flt.bankF 0 then 1 else 0
    let j := nextSector s1 b 15
    let s2 := logAttempt s1 b (128 * j) (summaryBytes s1) true
    modFlt s2 (fun f => { f with active := b, sector := j, slot := 1, lastFail := false })

/-- The bits of FLT_STICKY0 that stay set (R603, R604). -/
def keep0 (s : State) : Word := flag s.scb.safe 9 ||| flag s.arr.bistFail 12

/-- The bits of FLT_STICKY1 that stay set (R603, R604). -/
def keep1 (s : State) : Word :=
  flag s.grp.retired 4 ||| flag (tget false s.flt.bankF 0 || tget false s.flt.bankF 1) 5 ||| flag (bothFailed s) 6 |||
    flag (bit (rd s 0x0008) 2) 8

/-- The sticky bits that the masks select are cleared; a CLEAR record names those that were (R604, R632). -/
def faultClear (s : State) (m0 m1 : Word) : State :=
  let c0 := rd s 0x0E00 &&& m0 &&& ~~~(keep0 s)
  let c1 := rd s 0x0E04 &&& m1 &&& ~~~(keep1 s)
  let s1 := clrReg (clrReg s 0x0E00 c0) 0x0E04 c1
  let s2 := if rd s1 0x0E00 = 0 ∧ rd s1 0x0E04 = 0 then wr s1 0x0E10 0 else s1
  if c0 = 0 ∧ c1 = 0 then s2 else logPut s2 2 (leBytes 4 c0.toNat ++ leBytes 4 c1.toNat)

/-- FAULT_CLEAR takes effect and is answered (R494, R604). -/
def faultClearEnd (s : State) (o : Order) (m0 m1 : Word) : State :=
  let s1 := faultClear s m0 m1
  finish s1 o 0 0 (leBytes 4 (rd s1 0x0E00).toNat ++ leBytes 4 (rd s1 0x0E04).toNat)

/-- The masks call for a retest (R604). -/
def wantsRetest (s : State) (m1 : Word) : Bool :=
  (bit m1 5 || bit m1 6) && (tget false s.flt.bankF 0 || tget false s.flt.bankF 1)

end Sys2Proof.Machine
end

