-- ==== Sys2Proof/Machine/Boot.lean ====
section
/-! DEFINITION. Reset sources and the boot sequence (R146, R191, R219 to R225, R327, R532, R611, R613, R623, R633 to R640, R653 to
R662, R667, R676, R677). -/

namespace Sys2Proof.Machine

open Sys2Proof

/-- POWER_ON_RESET (R633, R658, R675, R702): VCORE was below its threshold. TMP_SHUT and a thermal hold are gone, the TAP is
reset and the crystal has to start again. -/
def execPowerOnReset (s : State) : Host.Outcome State Fault Refusal :=
  let t := wr (resetEntry s 1) 0x0F90 0
  .next { t with
    jtag := Jtag.reset, hdg := { t.hdg with x32Ok := false }, pwr := { t.pwr with shutdown := false, peak := t.pwr.temp } }

/-- RST_N_ASSERT (R633, R634, R677): RST_N is driven low. -/
def execRstNAssert (s : State) : Host.Outcome State Fault Refusal := .next (resetEntry s 2)

/-- A supply that the monitor watches in this state is outside its window (R676). -/
def supplyLost (s : State) (sup : BitVec 7) : Bool :=
  !sup.getLsbD 0 || !sup.getLsbD 1 || !sup.getLsbD 3 ||
  (decide (s.pwr.st ≠ 2) && (!sup.getLsbD 2 ||
    (!sup.getLsbD 6 && ([0, 1] : List Nat).any (fun p => decide ((gport s p).st ≠ .down)))))

/-- SUPPLY_MONITOR_RESET (R633, R676, R704): for more than 10 µs the supplies have stood in or out of their windows as `sup`
says, in the bit order of PWR_SUPPLY; a monitored supply outside its window resets the device. The bank supplies are not
monitored and have commands of their own. -/
def execSupplyMonitorReset (sup : BitVec 7) (s : State) : Host.Outcome State Fault Refusal :=
  let v := (sup &&& 0x4F) ||| (s.pwr.supplies &&& 0x30)
  let s1 := { s with pwr := { s.pwr with supplies := v } }
  .next (if supplyLost s1 v then resetEntry s1 7 else s1)

/-- DATA of the newest LOG_DEGRADED record of bank b. -/
def degradedData (s : State) (b : Nat) : List Byte :=
  (((logRecs s).find? (fun x => decide (x.code = 0x125) && decide (entryNat x.bytes 20 1 = b))).map
    (fun x => (x.bytes.drop 20).take 3)).getD (leBytes 1 b)

/-- The flags of the banks that the persistent state marks failed (R620, R623). -/
def bootDegraded (s : State) (old : State) : State :=
  let s1 := forEach [0, 1] s (fun s b => if tget false s.flt.bankF b then sticky1 s 5 (degradedData old b) else s)
  if bothFailed s1 then sticky1 s1 6 [] else s1

/-- Step 4 (R613, R623): the persistent log state is rebuilt, and the writer stands behind the newest record. -/
def bootLog (s : State) : State :=
  let f := replay s s.flt
  let s1 := match (logRecs s).head? with
    | some x =>
      let base := { f with seq := x.seq, bootNum := (entryNat x.bytes 4 2 + 1) % 65536 }
      if tget false f.bankF x.bank then enterBank { s with flt := base } (1 - x.bank)
      else
        let sec := x.slot / 128
        let slot := ((List.range 128).find? (fun i => slotErased (logSlot s x.bank (128 * sec + i)))).getD 128
        { s with flt := { base with active := x.bank, sector := sec, slot := slot } }
    | none => { s with flt := { f with seq := 0, bootNum := 1, active := 0, sector := 15, slot := 128 } }
  bootDegraded s1 s

/-- PCRC of the firmware image in a slot. -/
def fwPcrc (s : State) (slot : Nat) : Nat := entryNat (fwHeader s slot) 0x20 4

/-- FWVER of the firmware image in a slot. -/
def fwVer (s : State) (slot : Nat) : Nat := entryNat (fwHeader s slot) 0x24 4

/-- The slot that the newest selection record names, when it applies (R655). -/
def selChoice (s : State) : Option Nat :=
  match newestSel s with
  | some (_, b) =>
    let slot := entryNat b 8 1
    if fwUsable s slot && decide (fwPcrc s slot = entryNat b 16 4) then some slot else none
  | none => none

/-- The first choice, before R659 skips any slot (R655). -/
def firstChoice (s : State) : Option Nat :=
  match selChoice s with
  | some slot => some slot
  | none =>
    match fwUsable s 0, fwUsable s 1 with
    | true, true => some (if fwVer s 0 < fwVer s 1 then 1 else 0)
    | true, false => some 0
    | false, true => some 1
    | false, false => none

/-- The slot that is skipped (R659). -/
def skipped (s : State) : Option Nat := if s.boot.tries = 2 ∨ s.boot.tries = 3 then some s.boot.lastRun else none

/-- The outcome of steps 5 to 7: the image to start, BOOT_CHK with status and DETAIL of each slot, and DATA of BOOT_FALLBACK. -/
structure Pick where
  run : Option Nat
  chk : Tbl (Nat × Nat)
  fall : Option (List Byte)
deriving DecidableEq, Repr

/-- The second choice is checked after the first, of slot `a`, has failed with `st` and `d`, or was skipped (R655, R656). -/
def pickSecond (s : State) (a st d why : Nat) : Pick :=
  let b := 1 - a
  let chk : Tbl (Nat × Nat) := if why = 0 then [(a, (st, d))] else []
  if fwUsable s b && decide (skipped s ≠ some b) then
    match fwCheck s b with
    | none => { run := some b, chk := tput chk b (0, 0), fall := some (leBytes 1 a ++ leBytes 1 st ++ leBytes 1 d ++ leBytes 1 why) }
    | some e => { run := none, chk := tput chk b e, fall := none }
  else { run := none, chk := chk, fall := none }

/-- Steps 5 to 7 of R638 (R655, R656, R659). -/
def bootPick (s : State) : Pick :=
  match firstChoice s with
  | none => { run := none, chk := [], fall := none }
  | some a =>
    if skipped s = some a then pickSecond s a 0xFF 0xFF 1
    else
      match fwCheck s a with
      | none => { run := some a, chk := [(a, (0, 0))], fall := none }
      | some (st, d) => pickSecond s a st d 0

/-- The reason for SAFE mode, 0 for none (R660). -/
def safeWhy (s : State) (refOk : Bool) (k : Pick) : Nat :=
  if !refOk then 2 else if s.boot.tries = 4 then 3 else if k.run.isNone then 1 else 0

/-- Status and DETAIL of a slot as BOOT_CHK gives them (R660, R667). -/
def chkBytes (k : Pick) (slot : Nat) : List Byte :=
  let c : Nat × Nat := tget (0xFF, 0xFF) k.chk slot
  leBytes 1 c.1 ++ leBytes 1 c.2

/-- BOOT_SELECT (R667). -/
def bootSelect (s : State) : Word :=
  match newestSel s with
  | some (_, b) => place 1 0 ||| place (entryNat b 8 1) 1 ||| flag (selChoice s).isSome 2 ||| place (entryNat b 4 4 % 2 ^ 24) 8
  | none => 0

/-- Registers that steps 5 to 8 set, and the records of BOOT_FALLBACK and SAFE_ENTERED (R656, R660, R667). -/
def bootChoose (s : State) (why : Nat) (k : Pick) : State :=
  let run := if why = 0 then k.run else none
  let fall := if why = 0 then k.fall else none
  let st := place (run.getD 3) 0 ||| flag (decide (why ≠ 0)) 2 ||| place why 3 ||| flag fall.isSome 6
  let s1 := wr (wr (wr s 0x0008 st) 0x0020 (bootSelect s)) 0x002C (BitVec.ofNat 32 (leNat (chkBytes k 0 ++ chkBytes k 1)))
  let s2 := { s1 with boot := { s1.boot with running := run } }
  let s3 := match fall with
    | some d => sticky1 s2 7 d
    | none => s2
  if why = 0 then s3 else sticky1 s3 8 (leBytes 1 why ++ chkBytes k 0 ++ chkBytes k 1)

/-- Step 8 (R645): code and data of the image in a slot are copied into SRAM; BOOT_FWVER takes its FWVER. -/
def bootCopy (s : State) (slot : Nat) : State :=
  let h := fwHeader s slot
  let code := entryNat h 0x4C 4
  let at_ := (region slot).1 + 96
  fillMem (fillMem (wr s 0x0010 (BitVec.ofNat 32 (fwVer s slot))) 0 (flashBytes s at_ code)) 0x10000000
    (flashBytes s (at_ + code) (entryNat h 0x50 4))

/-- The columns mapped out: those that failed, then noted ones while spares remain; after an array failure only failed
columns, the lowest four (R220, R221). -/
def columnMap (fails notes : List Nat) (af : Bool) : List Nat :=
  if af then fails.take 4 else (fails ++ notes.filter (fun c => !fails.contains c)).take 4

/-- Step 9 (R219 to R225): BIST finds the physical columns of `bad` failing, and with `afail` a failure that no column
confines. -/
def bootBist (s : State) (bad : BitVec 132) (afail : Bool) : State :=
  let fails := (List.range 132).filter (fun c => bad.getLsbD c)
  let af := afail || decide (4 < fails.length)
  let m := columnMap fails s.flt.notes af
  let s1 := { s with arr := { s.arr with map := m, bistDone := true, bistFail := af } }
  if af then sticky0 s1 12 (leBytes 4 (arrVal s1 0x0408).toNat ++ leBytes 1 (arrVal s1 0x0400).toNat)
  else
    let s2 := modFlt s1 (fun f => { f with notes := f.notes.filter (fun c => !m.contains c) })
    forEach (s.flt.notes.filter (fun c => m.contains c)) s2 (fun s c => logPut s 4 (leBytes 1 c))

/-- Step 11 (R146, R191, R639): fabric slot 0 or the all-zero configuration goes into bank A, SRC names slot 0 and the first
pass of the scrubber starts. The banks whose supply is on drive their pins (R136). -/
def bootFabric (s : State) : State :=
  let im := flashBytes s 0x80000 65536
  let s1 := match fabricFail s im (some 65536) with
    | none =>
      let t := hardLoad (writeBank s false ((im.drop 96).take (entryNat im 0x18 4)) (entryNat im 0x1C 2)) false
      wr { t with hdg := { t.hdg with cells := preloadCells t false } } 0x0708 (BitVec.ofNat 32 (entryNat im 0x20 4))
    | some _ => orReg (writeBank s false [] 0) 0x0008 (place 1 7)
  { s1 with scb := { s1.scb with
      golden := { s1.scb.golden with src := 1 }, copies := s1.scb.copies.map (fun c => { c with src := 1 }),
      pass := some (passRange s1) } }

/-- Steps 8 and 10 to 12, or the all-zero configuration of SAFE mode, in which slot 0 is not loaded (R638, R661, R667). -/
def bootStart (s : State) : State :=
  match s.boot.running with
  | some slot => startFirmware (bootFabric (bootCopy s slot)) (fwHeader s slot)
  | none => orReg (writeBank s false [] 0) 0x0008 (place 1 7)

/-- The return record region holds a seal with the correct MAGIC, RCRC and CCRC (R627, R628). -/
def sealOk (s : State) : Bool :=
  let m := flashBytes s 0xE3FE0 32
  decide (m.take 4 = [0x53, 0x45, 0x41, 0x4C]) && decide (entryNat m 28 4 = (crc32 (m.take 28)).toNat) &&
    decide (entryNat m 8 4 = (crc32 (flashBytes s 0xE0000 0x3FE0)).toNat)

/-- FLT_FACTORY (R628, R630, R632). -/
def factoryWord (s : State) : Word :=
  place s.boot.factory 0 ||| (if sealOk s then place 1 8 ||| place (entryNat (flashBytes s 0xE3FE4 4) 0 2) 16 else 0)

/-- FACTORY_USES that the newest BOOT record gives (R630). -/
def lastUses (s : State) : Nat := (((bootHistory s).head?).map (fun b => entryNat b 25 1)).getD 0

/-- The records of step 13: THERMAL, BOOT and FACTORY (R611, R630, R638, R702). -/
def bootRecords (s : State) (uses : Nat) : State :=
  let s1 := if s.boot.cause = 6 then sticky0 s 13 (leBytes 4 (rd s 0x0F90).toNat) else s
  let img := s.boot.running.getD 0xFF
  let s2 := logPut s1 1 (leBytes 1 s.boot.cause ++ leBytes 1 img ++ leBytes 2 (bootVal s 0x0004).toNat ++
    leBytes 1 s.arr.map.length ++ leBytes 1 s.boot.factory)
  if uses < s.boot.factory then logPut s2 8 (leBytes 1 s.boot.factory) else s2

/-- The records of boot are written before READY; with `logOk` false the first write fails its verify (R618 to R620, R623). -/
def bootFlush (s : State) (logOk : Bool) : State :=
  forEach (List.range 24) (if logOk then s else logWrite s true true false) (fun s _ => logWrite s true true true)

/-- The boot sequence (R638). `straps` are the levels at the rising edge of RST_N, `refOk` says that the reference clock is
detected, `ms` is the time that boot takes. -/
def bootRun (s0 : State) (straps : BitVec 4) (refOk : Bool) (ms : Nat) (logOk : Bool) (bad : BitVec 132) (afail : Bool) : State :=
  let c := s0.boot.cause
  let s1 := { s0 with
    now := s0.now + ms * msTicks,
    boot := { s0.boot with inReset := false, ports := true, bootAt := s0.now,
                           straps := if c = 1 ∨ c = 2 then straps else s0.boot.straps },
    hdg := { s0.hdg with pllOk := refOk, bankEn := [(0, bankOn s0 0), (1, bankOn s0 1)] } }
  let s2 := bootLog (wr s1 0x000C (place c 0 ||| place s0.boot.tries 4))
  let k := bootPick s2
  let s3 := bootStart (bootBist (bootChoose s2 (safeWhy s2 refOk k) k) bad afail)
  let s4 := wr (wr s3 0x0018 (BitVec.ofNat 32 (min 0xFFFF ms))) 0x0E14 (factoryWord s3)
  let s5 := bootFlush (bootRecords s4 (lastUses s1)) logOk
  { s5 with boot := { s5.boot with ready := true, readyAt := s5.now }, flt := { s5.flt with hourAt := s5.now } }

/-- BOOT (R635 to R640, R652 to R662): the device leaves reset and boots. A thermal shutdown holds it in reset (R701). -/
def execBoot (straps : BitVec 4) (refOk : Bool) (ms : Nat) (logOk : Bool) (bad : BitVec 132) (afail : Bool) (s : State) :
    Host.Outcome State Fault Refusal :=
  .next (if s.boot.inReset && !s.pwr.shutdown then bootRun s straps refOk ms logOk bad afail else s)

/-- BOOT_TRIES_CLEAR (R658): READY has been high for 1 s. -/
def execBootTriesClear (s : State) : Host.Outcome State Fault Refusal :=
  .next (if readySecond s then { s with boot := { s.boot with tries := 0 } } else s)

end Sys2Proof.Machine
end

