-- ==== Sys2Proof/Machine/PagenCore.lean ====
section
/-! DEFINITION. The dispatch of Pagen commands: which order is dispatched next, the checks of R458 that every card shares,
and the message slots (R395, R400, R401, R405, R408, R449 to R465, R526, R527, R555). -/

namespace Sys2Proof.Machine

open Sys2Proof

/-- A command at its dispatch: its order, its 64-byte entry, and the I2C power order that it lost to (R405). -/
structure Cmd where
  ord : Order
  e : List Byte
  beaten : Option Nat
deriving DecidableEq, Repr

/-- Byte `off` of a command's parameters (R449). -/
def Cmd.u8 (c : Cmd) (off : Nat) : Nat := entryNat c.e (16 + off) 1

/-- 16-bit parameter at `off`. -/
def Cmd.u16 (c : Cmd) (off : Nat) : Nat := entryNat c.e (16 + off) 2

/-- 32-bit parameter at `off`. -/
def Cmd.u32 (c : Cmd) (off : Nat) : Nat := entryNat c.e (16 + off) 4

/-- 32-bit parameter at `off` as a register value. -/
def Cmd.word (c : Cmd) (off : Nat) : Word := BitVec.ofNat 32 (c.u32 off)

/-- PLEN of the entry. -/
def Cmd.plen (c : Cmd) : Nat := entryNat c.e 4 2

/-- MLEN of the entry. -/
def Cmd.mlen (c : Cmd) : Nat := entryNat c.e 8 4

/-- A message that a command takes or gives (R450, R465). -/
inductive MsgUse where
  | none
  | input (min max : Nat)
  | output
deriving DecidableEq, Repr

/-- A command card (R471): its opcode, the rights it needs, where it is allowed, and its own checks and effect. -/
structure Card where
  op : Nat
  right : Option Nat := none                   -- rights bit of R383
  p0 : Bool := false                           -- P0 only
  ring : Bool := false                         -- only through a ring
  safe : Bool := false                         -- allowed in SAFE mode
  stby : Bool := false                         -- accepted by the mailbox in STANDBY
  memb : Bool := false                         -- accepted by the mailbox of a non-leader (R555)
  plen : Cmd → Nat := fun _ => 0               -- PLEN that the card gives
  msg : Cmd → MsgUse := fun _ => .none
  fp : Bool := false                           -- the first parameter names a frame program
  deny : State → Cmd → Option Nat := fun _ _ => none           -- DETAIL of NO_RIGHT under R711
  bad : State → Cmd → List (Nat × Bool) := fun _ _ => []       -- offending fields: entry offset, invalid and not reserved
  units : State → Cmd → List ResUnit := fun _ _ => []          -- shared-resource units
  busy : State → Cmd → Option Nat := fun _ _ => none           -- cause of BUSY
  other : State → Cmd → Option (Nat × Nat) := fun _ _ => none  -- the card's other checks: status and DETAIL
  run : State → Cmd → State

/-- Defined opcodes (R471). -/
def opcodes : List Nat :=
  [0x0000, 0x0001, 0x0002, 0x0003, 0x0004, 0x0100, 0x0101, 0x0102, 0x0103, 0x0200, 0x0201, 0x0202, 0x0203, 0x0300, 0x0301,
   0x0400, 0x0401, 0x0402, 0x0403, 0x0500, 0x0501, 0x0600, 0x0601, 0x0700, 0x0701, 0x0702, 0x0703, 0x0704, 0x0800, 0x0801,
   0x0802, 0x0803, 0x0900, 0x0901, 0x0A00, 0x0A01]

/-- The entry of a submitted order: its ring entry, or the CMD region (R389, R400). -/
def subBytes (s : State) (x : Sub) : List Byte :=
  if x.mbx then tgets 0 s.prt.mbxCmd 0 64 else rdBytes s (sqAddr s x.part x.idx) 64

/-- OPCODE of a submitted order. -/
def subOp (s : State) (x : Sub) : Nat := entryNat (subBytes s x) 0 2

/-- A power or reset order (R405). -/
def powerOp (op : Nat) : Bool := decide (op = 0x0A00) || decide (op = 0x0A01)

/-- Stamp `a` was issued before stamp `b`; the wrap of the counter never makes two outstanding stamps ambiguous. -/
def stampBefore (a b : Nat) : Bool := decide (a ≠ b) && decide ((b + 2 ^ 32 - a) % 2 ^ 32 < 2 ^ 31)

/-- Every order stamped before `t` has received its final reply (R452). -/
def noneBefore (s : State) (t : Nat) : Bool :=
  s.prt.subs.all (fun x => !stampBefore x.stamp t) && s.prt.opens.all (fun w => !stampBefore w.ord.stamp t)

/-- The order is dispatchable (R395, R401, R447, R452, R572). A FLASH_READ waits until no flash command runs or waits (R498). -/
def dispatchable (s : State) (x : Sub) : Bool :=
  ((decide (s.pwr.st ≠ 2) && !s.grp.retired) || x.mbx) &&
  (decide (subOp s x ≠ 0x0802) || (s.boot.op.isNone && s.boot.waiting.isEmpty)) &&
  (!(entryNat (subBytes s x) 6 1).testBit 0 || noneBefore s x.stamp) &&
  (x.mbx || ((holdQ s x.part).isEmpty && decide (rqCount s x.part + 2 ≤ rqDepth s x.part) &&
    decide ((s.prt.opens.filter (fun w => w.ord.part = x.part)).length < 4)))

/-- The order is the first of its ring, or the mailbox's (R395). -/
def firstOf (s : State) (x : Sub) : Bool :=
  s.prt.subs.find? (fun y => y.mbx == x.mbx && y.part == x.part) == some x

/-- The order that firmware dispatches next: power and reset orders from the I2C port first, then in stamp order
(R395, R405). -/
def nextOrder (s : State) : Option Sub :=
  match s.prt.subs.find? (fun x => x.mbx && powerOp (subOp s x) && dispatchable s x) with
  | some x => some x
  | none => s.prt.subs.find? (fun x => firstOf s x && dispatchable s x)

/-- Firmware, or in SAFE mode the boot ROM, dispatches orders (R395, R661). -/
def dispatches (s : State) : Bool := s.boot.ready && (s.cnd.running || safeMode s)

/-- The command of a submitted order. -/
def cmdOf (s : State) (x : Sub) : Cmd :=
  let e := subBytes s x
  { ord := { part := x.part, mbx := x.mbx, opcode := entryNat e 0 2, tag := entryNat e 2 2,
             sseq := BitVec.ofNat 32 (entryNat e 12 4), stamp := x.stamp },
    e := e, beaten := x.beaten }

/-- The order is taken from its ring: HEAD passes its entry, and the journal has its SSEQ and stamp (R390, R470, R526). -/
def takeSub (s : State) (x : Sub) : State :=
  let s1 := { s with
    prt := { s.prt with subs := s.prt.subs.filter (fun y => y != x) }, cnd := { s.cnd with again := false } }
  if x.mbx then s1
  else { s1 with prt := { s1.prt with
    sqHead := tput s1.prt.sqHead x.part ((x.idx + 1) % 65536),
    last := tput s1.prt.last x.part (entryNat (subBytes s x) 12 4, x.stamp) } }

/-- A refusal at dispatch. -/
def refuse (s : State) (c : Cmd) (status detail : Nat) : State := finish s c.ord status detail []

/-- RESERVED_FIELD for the first offending field: recorded when the field is reserved and not merely invalid (R456,
R460). -/
def refuseField (s : State) (c : Cmd) (b : Nat × Bool) : State :=
  refuse (if b.2 then s else reservedField s c.ord.opcode 1) c 0x11 (b.1 + (if b.2 then 65536 else 0))

/-- Reserved bits and byte of the header (R449). -/
def badHeader (c : Cmd) : List (Nat × Bool) :=
  (if 2 ≤ entryNat c.e 6 1 then [(6, false)] else []) ++ (if entryNat c.e 7 1 ≠ 0 then [(7, false)] else [])

/-- MLEN is right for the use of a message (R450). -/
def mlenOk (u : MsgUse) (m : Nat) : Bool :=
  match u with
  | .input lo hi => decide (m % 4 = 0) && decide (lo ≤ m) && decide (m ≤ hi)
  | _ => decide (m = 0)

/-- DETAIL of BAD_LENGTH, `none` when the lengths are right (R400, R450, R456). -/
def badLength (k : Card) (c : Cmd) : Option Nat :=
  let mok := mlenOk (k.msg c) c.mlen
  let viaMbx := c.ord.mbx && k.msg c != .none
  if c.plen = k.plen c ∧ c.plen % 4 = 0 ∧ mok ∧ !viaMbx then none
  else some (k.plen c % 65536 + (if mok then 0 else 65536) + (if viaMbx then 131072 else 0))

/-- The partition does not hold the right that the card needs: DETAIL of NO_RIGHT (R383, R384, R456, R711). -/
def noRight (s : State) (k : Card) (c : Cmd) : Option Nat :=
  if k.p0 ∧ c.ord.part ≠ 0 then some 0xFF
  else
    match k.right with
    | some b => if hasRight s c.ord.part b then k.deny s c else some b
    | none => k.deny s c

/-- Commands that the mailbox of a retired leader accepts (R572). -/
def retiredOps : List Nat := [0x0000, 0x0001, 0x0700, 0x0702, 0x0A01]

/-- NOT_LEADER: a shared-resource order on a chip of a group that is not its leader, a mailbox command that a non-leader or a
retired leader does not accept (R408, R555, R572, R715). -/
def notLeader (s : State) (k : Card) (c : Cmd) : Bool :=
  (s.grp.retired && !retiredOps.contains c.ord.opcode) ||
  (member s && ((c.ord.mbx && !k.memb) || ((k.units s c).any (fun u => u != .free) && !(c.ord.mbx && k.memb))))

/-- The stamp of the earlier order of the other master on one of the units (R404, R405): a change that waits for a boundary,
or for a power order through a ring the incomplete power order from the I2C port. -/
def conflictWith (s : State) (k : Card) (c : Cmd) : Option Nat :=
  if c.ord.mbx && powerOp c.ord.opcode then none
  else if c.beaten.isSome then c.beaten
  else
    match s.prt.changes.find? (fun d => d.unit != .free && d.mbx != c.ord.mbx && (k.units s c).contains d.unit) with
    | some d => some d.stamp
    | none =>
      if c.ord.opcode = 0x0A00 then
        (s.prt.opens.find? (fun w => w.ord.mbx && decide (w.ord.opcode = 0x0A00))).map (fun w => w.ord.stamp)
      else none

/-- A free message slot (R465). -/
def freeSlot (s : State) : Option Nat := (List.range 4).find? (fun i => (tfind s.prt.msgs i).isNone)

/-- The cause of BUSY: the card's own, or no free slot for a class M command (R456, R465). -/
def busyCause (s : State) (k : Card) (c : Cmd) : Option Nat :=
  match k.busy s c with
  | some x => some x
  | none => if k.msg c != .none && (freeSlot s).isNone then some 3 else none

/-- The checks of R458 in their order, for a defined opcode; the first that fails decides. A command that passes has its
effect. -/
def runCard (k : Card) (s : State) (c : Cmd) : State :=
  if safeMode s ∧ !k.safe then refuse s c 0x40 0
  else if c.ord.mbx ∧ s.pwr.st = 2 ∧ !k.stby then refuse s c 0x16 5
  else
    match badHeader c, badLength k c with
    | b :: _, _ => refuseField s c b
    | [], some d => refuse s c 0x12 d
    | [], none =>
      if k.ring ∧ c.ord.mbx then refuse s c 0x13 0
      else if k.fp ∧ c.u8 0 < 16 ∧ fpPart (c.u8 0) ≠ c.ord.part then refuse s c 0x13 (c.u8 0)
      else
        match noRight s k c, k.bad s c with
        | some d, _ => refuse s c 0x14 d
        | none, b :: _ => refuseField s c b
        | none, [] =>
          if notLeader s k c then refuse s c 0x17 0
          else
            match busyCause s k c, conflictWith s k c, k.other s c with
            | some d, _, _ => refuse s c 0x16 d
            | none, some d, _ => refuse (setFlag s 0x0A04 1) c 0x15 d
            | none, none, some (st, d) => refuse s c st d
            | none, none, none => k.run s c

/-- The dispatch of the next order when it is a command of this card; an order with an undefined opcode is answered by
whichever command is dispatched (R395, R459). -/
def dispatch (k : Card) (s : State) : State :=
  if dispatches s then
    match nextOrder s with
    | none => s
    | some x =>
      let c := cmdOf s x
      if c.ord.opcode = k.op then runCard k (takeSub s x) c
      else if opcodes.contains c.ord.opcode then s
      else refuse (takeSub s x) c 0x10 0
  else s

/-- A class M command opens its message: ACCEPTED names the slot and the length (R465). -/
def openMsg (s : State) (c : Cmd) (src : MsgSrc) (len p0 p1 : Nat) (w : Wait) : State :=
  match freeSlot s with
  | none => s
  | some i =>
    let s1 := accept s c.ord w (leBytes 4 i ++ leBytes 4 len)
    let m : Msg := { ord := c.ord, src := src, len := len, got := 0, data := [], p0 := p0, p1 := p1, done := false }
    { s1 with prt := { s1.prt with msgs := tput s1.prt.msgs i m } }

/-- OK at dispatch with a body (class D). -/
def okNow (s : State) (c : Cmd) (body : List Byte) : State := finish s c.ord 0x00 0 body

/-- A class B command: ACCEPTED, and its change waits for the boundary (R462). -/
def stageB (s : State) (c : Cmd) (u : ResUnit) (k : ChangeKind) : State :=
  addChange (accept s c.ord .boundary []) { unit := u, mbx := c.ord.mbx, stamp := c.ord.stamp, kind := k, ord := some c.ord }

/-- Reserved parameter bytes from `off` that are not 0. -/
def resv (c : Cmd) (off n : Nat) : List (Nat × Bool) :=
  ((List.range n).filter (fun i => c.u8 (off + i) ≠ 0)).map (fun i => (16 + off + i, false))

/-- An offending field when the condition holds. -/
def badIf (b : Bool) (off : Nat) (invalid : Bool) : List (Nat × Bool) := if b then [(off, invalid)] else []

end Sys2Proof.Machine
end

