-- ==== Sys2Proof/Machine/CmdAngle.lean ====
section
/-! DEFINITION. Pagen commands of the angle clock and of the frame programs: ANGLE_SOURCE, ANGLE_TRACK, EVENT_SET, PACER_SET,
FP_LOAD, FP_SET, FP_ABORT and FP_UNLOAD (R51, R57, R77, R79, R91, R104, R108 to R110, R477 to R482). -/

namespace Sys2Proof.Machine

open Sys2Proof

/-- A class B command that writes registers: the values are staged, and its change carries them to the boundary (R477). -/
def stageWrites (s : State) (c : Cmd) (u : ResUnit) (ws : List (Nat × Word)) : State :=
  stageB (forEach ws s (fun s w => wrStaged s w.1 w.2)) c u (.writes ws)

/-- The parameters of the registers given, 4 bytes each from parameter `off`. -/
def paramWrites (c : Cmd) (off : Nat) (as : List Nat) : List (Nat × Word) :=
  as.zipIdx.map (fun e : Nat × Nat => (e.1, c.word (off + 4 * e.2)))

/-- The parameters that carry a reserved bit or value of their register (R460). -/
def badWrites (s : State) (c : Cmd) (off : Nat) (as : List Nat) : List (Nat × Bool) :=
  as.zipIdx.flatMap (fun e : Nat × Nat =>
    badIf (writeReserved s e.1 (c.word (off + 4 * e.2))) (16 + off + 4 * e.2) false)

/-- ANGLE_SOURCE (R477). -/
def cardAngleSource : Card :=
  { op := 0x0100, p0 := true, plen := fun _ => 32, units := fun _ _ => [.angle],
    bad := fun s c => badWrites s c 0 sourceRegs,
    run := fun s c => stageWrites s c .angle (paramWrites c 0 sourceRegs) }

/-- ANGLE_SOURCE. -/
def execCmdAngleSource (s : State) : Host.Outcome State Fault Refusal := .next (dispatch cardAngleSource s)

/-- The registers of ANGLE_TRACK: ANG_PLL, ANG_COAST, ANG_LOSS, ANG_REVTH and ANG_FMIN (R477). -/
def trackRegs : List Nat := [0x0238, 0x023C, 0x0240, 0x0244, 0x0248]

/-- ANGLE_TRACK (R477). -/
def cardAngleTrack : Card :=
  { op := 0x0101, p0 := true, plen := fun _ => 20, units := fun _ _ => [.angle],
    bad := fun s c => badWrites s c 0 trackRegs,
    run := fun s c => stageWrites s c .angle (paramWrites c 0 trackRegs) }

/-- ANGLE_TRACK. -/
def execCmdAngleTrack (s : State) : Host.Outcome State Fault Refusal := .next (dispatch cardAngleTrack s)

/-- EVENT_SET (R77, R478): the index travels in the command, and the entry window is not used. -/
def cardEventSet : Card :=
  { op := 0x0102, p0 := true, plen := fun _ => 12, units := fun _ c => [.event (c.u8 0)],
    bad := fun s c => badIf (decide (64 ≤ c.u8 0)) 16 false ++ resv c 1 3 ++ badWrites s c 4 [0x0264, 0x0268],
    run := fun s c =>
      stageWrites s c (.event (c.u8 0)) (paramWrites c 4 [evtKey (c.u8 0) false, evtKey (c.u8 0) true]) }

/-- EVENT_SET. -/
def execCmdEventSet (s : State) : Host.Outcome State Fault Refusal := .next (dispatch cardEventSet s)

/-- Registers of pacer k. -/
def pacerRegs (k : Nat) : List Nat := [0x0280 + 16 * k, 0x0284 + 16 * k, 0x0288 + 16 * k]

/-- PACER_SET (R79, R478). -/
def cardPacerSet : Card :=
  { op := 0x0103, p0 := true, plen := fun _ => 16, units := fun _ c => [.pacer (c.u8 0)],
    bad := fun s c => badIf (decide (4 ≤ c.u8 0)) 16 false ++ resv c 1 3 ++
      (if c.u8 0 < 4 then badWrites s c 4 (pacerRegs (c.u8 0)) else []),
    run := fun s c => stageWrites s c (.pacer (c.u8 0)) (paramWrites c 4 (pacerRegs (c.u8 0))) }

/-- PACER_SET. -/
def execCmdPacerSet (s : State) : Host.Outcome State Fault Refusal := .next (dispatch cardPacerSet s)

/-- An FP parameter that names no frame program. -/
def badFp (c : Cmd) : List (Nat × Bool) := badIf (decide (16 ≤ c.u8 0)) 16 false

/-- BUSY of FP_LOAD and FP_UNLOAD (R479, R482). -/
def fpCause (s : State) (c : Cmd) : Option Nat := if fpBusy s (c.u8 0) then some 2 else none

/-- FP_LOAD (R479, R507, R510): the image comes as a message. -/
def cardFpLoad : Card :=
  { op := 0x0200, right := some 0, plen := fun _ => 4, msg := fun _ => .input 160 0x100000, fp := true,
    bad := fun _ c => badFp c ++ resv c 1 3, busy := fpCause,
    run := fun s c => openMsg s c .input c.mlen (c.u8 0) 0 .message }

/-- FP_LOAD. -/
def execCmdFpLoad (s : State) : Host.Outcome State Fault Refusal := .next (dispatch cardFpLoad s)

/-- FP_SET (R91, R480). -/
def cardFpSet : Card :=
  { op := 0x0201, right := some 0, plen := fun _ => 4, fp := true,
    bad := fun _ c => badFp c ++ badIf (decide (2 ≤ c.u8 1)) 17 false ++ badIf (decide (16 ≤ c.u8 2)) 18 false ++ resv c 3 1,
    other := fun s c =>
      if s.arr.bistFail then some (0x18, c.u8 0 + 16 * 5)
      else if !(prog s (c.u8 0)).loaded then some (0x18, c.u8 0 + 16 * 6)
      else none,
    run := fun s c => stageB s c .free (.fpSet (c.u8 0) (decide (c.u8 1 = 1)) (c.u8 2)) }

/-- FP_SET. -/
def execCmdFpSet (s : State) : Host.Outcome State Fault Refusal := .next (dispatch cardFpSet s)

/-- Frames that are closed or computing, and whose slots are all answered while none of them computes, go to POSTING (R85). -/
def closeAnswered (s : State) : State :=
  if member s then s
  else
    forEach (s.frm.frames.filter (fun f =>
      (decide (f.st = .closed) || decide (f.st = .computing)) && !f.slots.isEmpty && f.answered &&
        ((s.frm.comp.map (fun k => k.count)) != some f.count))) s (fun s f => toPosting s f.count)

/-- The abort of a program at once: the slot that computes and every slot not posted receive ABORTED (R109, R110). -/
def abortProg (s : State) (fp : Nat) : State :=
  let s1 := if (s.frm.comp.map (fun k => k.fp)) = some fp then endComp s 0x24 0 [] else s
  closeAnswered (forEach (s1.frm.frames.map (fun f => f.count)) s1 (fun s n =>
    answerSlots s n (fun x => x.fp == fp) 0x24 0))

/-- FP_ABORT (R110, R481). -/
def cardFpAbort : Card :=
  { op := 0x0202, right := some 0, plen := fun _ => 4, fp := true, bad := fun _ c => badFp c ++ resv c 1 3,
    run := fun s c =>
      addChange (abortProg (accept s c.ord (.abort (c.u8 0)) []) (c.u8 0))
        { unit := .free, mbx := c.ord.mbx, stamp := c.ord.stamp, kind := .fpDisable (c.u8 0), ord := some c.ord } }

/-- FP_ABORT. -/
def execCmdFpAbort (s : State) : Host.Outcome State Fault Refusal := .next (dispatch cardFpAbort s)

/-- FP_UNLOAD (R482). -/
def cardFpUnload : Card :=
  { op := 0x0203, right := some 0, plen := fun _ => 4, fp := true, bad := fun _ c => badFp c ++ resv c 1 3,
    busy := fpCause,
    run := fun s c => okNow (setProg s (c.u8 0) { prog s (c.u8 0) with loaded := false }) c [] }

/-- FP_UNLOAD. -/
def execCmdFpUnload (s : State) : Host.Outcome State Fault Refusal := .next (dispatch cardFpUnload s)

end Sys2Proof.Machine
end

