-- ==== Sys2Proof/Machine/CmdBasic.lean ====
section
/-! DEFINITION. Pagen commands of identification and registers: IDENTIFY, REG_READ, REG_WRITE, NOP and CANCEL (R472 to
R476, R711, R713). -/

namespace Sys2Proof.Machine

open Sys2Proof

/-- The body of IDENTIFY (R472). -/
def identBody (s : State) : List Byte :=
  let image := match s.boot.running with
    | some i => i
    | none => 0xFF
  let parts := ((List.range 4).map (fun p => if partOn s p then 2 ^ p else 0)).sum
  let chips := if s.grp.role = 0 then 1 else (memberList s.grp.members).length
  leBytes 4 Config.deviceId.toNat ++ [0x42, if s.boot.stepB1 then 0x31 else 0x30] ++ leBytes 1 Config.pagenVersion ++
    leBytes 1 Config.groupVersion ++ leBytes 4 (Config.romId s.boot.stepB1).toNat ++ leBytes 4 Config.hedgeId.toNat ++
    leBytes 4 (rd s 0x0010).toNat ++ leBytes 1 image ++ leBytes 1 s.grp.role ++ leBytes 1 chips ++
    leBytes 1 s.boot.factory ++ leBytes 1 parts

/-- IDENTIFY (R472). -/
def cardIdentify : Card :=
  { op := 0x0000, safe := true, stby := true, memb := true, run := fun s c => okNow s c (identBody s) }

/-- IDENTIFY. -/
def execCmdIdentify (s : State) : Host.Outcome State Fault Refusal := .next (dispatch cardIdentify s)

/-- REG_READ (R473, R713). -/
def cardRegRead : Card :=
  { op := 0x0001, right := some 4, safe := true, stby := true, memb := true, plen := fun _ => 4,
    bad := fun _ c =>
      badIf (decide (c.u16 0 % 4 ≠ 0) || decide (0xFFFC < c.u16 0 + 4 * (c.u8 2 - 1))) 16 true ++
        badIf (decide (c.u8 2 = 0) || decide (8 < c.u8 2)) 18 false ++ resv c 3 1,
    run := fun s c =>
      let r := regReads c.ord.part (c.u8 2) (c.u16 0) s
      okNow r.1 c (wordBytes r.2) }

/-- REG_READ. -/
def execCmdRegRead (s : State) : Host.Outcome State Fault Refusal := .next (dispatch cardRegRead s)

/-- Partition to which a register of the Writer column `p` belongs. -/
def regPart (a : Nat) : Nat := if a < 0x0D00 then (a - 0x0A80) / 16 else (a - 0x0D40) / 48

/-- The partition may not write the register: DETAIL of NO_RIGHT (R711). -/
def writeDeny (s : State) (part a : Nat) : Option Nat :=
  match regRow a with
  | none => none
  | some r =>
    match r.wr with
    | .nobody => none
    | .fw => none
    | .p0 => if part = 0 then none else some 0xFF
    | .p0fw => if part = 0 then none else some 0xFF
    | .part => if regPart a = part then none else some 0xFB
    | .trace => if regPart a ≠ part then some 0xFB else if hasRight s part 3 then none else some 3

/-- REG_WRITE (R461, R474, R709, R711, R713, R715). -/
def cardRegWrite : Card :=
  { op := 0x0002, plen := fun _ => 8,
    deny := fun s c => if c.u16 0 % 4 = 0 then writeDeny s c.ord.part (c.u16 0) else none,
    bad := fun _ c => badIf (decide (c.u16 0 % 4 ≠ 0)) 16 true ++ resv c 2 2,
    units := fun s c => [writeUnit s (c.u16 0)],
    run := fun s c => okNow (regWrite s c.ord.mbx c.ord.stamp (c.u16 0) (c.word 4)) c [] }

/-- REG_WRITE. -/
def execCmdRegWrite (s : State) : Host.Outcome State Fault Refusal := .next (dispatch cardRegWrite s)

/-- NOP (R475). -/
def cardNop : Card := { op := 0x0003, safe := true, memb := true, run := fun s c => okNow s c [] }

/-- NOP. -/
def execCmdNop (s : State) : Host.Outcome State Fault Refusal := .next (dispatch cardNop s)

/-- A command that CANCEL can end: it holds an open message that has not reached its end, or is a GROUP_FORM that awaits its
completion (R476). -/
def cancellable (s : State) (w : Open) : Bool :=
  w.wait == .form || s.prt.msgs.any (fun m => m.2.ord.stamp == w.ord.stamp && !m.2.done)

/-- The first command of the partition with the TAG given that CANCEL can end, in stamp order. -/
def cancelTarget (s : State) (part tag : Nat) : Option Open :=
  (s.prt.opens.filter (fun w => decide (w.ord.part = part) && decide (w.ord.tag = tag) && cancellable s w)).foldl
    (fun (m : Option Open) w => match m with
      | some x => if stampBefore w.ord.stamp x.ord.stamp then some w else m
      | none => some w) none

/-- GROUP_FORM ends without a group when none is formed yet (R503). -/
def cancelForm (s : State) (o : Order) : State :=
  if s.grp.role ≠ 0 then finish { s with grp := { s.grp with forming := false } } o 0x24 0 []
  else
    formRefused { s with prt := { s.prt with changes := s.prt.changes.filter (fun c => match c.kind with
      | .groupForm => false
      | _ => true) } } 0x24 0

/-- CANCEL ends a command (R476): what it had begun is undone. -/
def cancelOpen (s : State) (w : Open) : State :=
  match w.wait with
  | .form => cancelForm s w.ord
  | .fabricMsg => finish { s with hdg := { s.hdg with load := .idle, loadImg := [], inactive := .empty } } w.ord 0x24 0 []
  | .flash => finish (flashDrop s w.ord) w.ord 0x24 0 []
  | _ => finish s w.ord 0x24 0 []

/-- CANCEL (R476). -/
def cardCancel : Card :=
  { op := 0x0004, ring := true, safe := true, plen := fun _ => 4, bad := fun _ c => resv c 2 2,
    run := fun s c =>
      match cancelTarget s c.ord.part (c.u16 0) with
      | some w => okNow (cancelOpen s w) c (leBytes 4 1)
      | none => okNow s c (leBytes 4 0) }

/-- CANCEL. -/
def execCmdCancel (s : State) : Host.Outcome State Fault Refusal := .next (dispatch cardCancel s)

end Sys2Proof.Machine
end

