-- ==== Sys2Proof/Machine/CmdData.lean ====
section
/-! DEFINITION. Pagen commands of data movement, of the fabric and of Topiary: DATA_READ, DATA_WRITE, FABRIC_LOAD, CAPTURE_ARM,
CAPTURE_READ, SCRUB_DISABLE, TOPIARY_LOAD and TOPIARY_UNLOAD (R141, R142, R148 to R152, R185, R186, R280 to R283, R388, R483 to
R490, R643). -/

namespace Sys2Proof.Machine

open Sys2Proof

/-- The area that AREA names: its address and size (R388, R483). -/
def dataSpan (s : State) (c : Cmd) : Nat × Nat := if c.u8 0 = 0 then keepArea s c.ord.part else xchArea s c.ord.part

/-- Offending fields of the parameters common to DATA_READ and DATA_WRITE (R483, R484). -/
def badSpan (s : State) (c : Cmd) (max : Nat) : List (Nat × Bool) :=
  badIf (decide (2 ≤ c.u8 0)) 16 false ++ resv c 1 3 ++ badIf (decide (c.u32 4 % 4 ≠ 0)) 20 true ++
    badIf (decide (c.u32 8 % 4 ≠ 0) || decide (c.u32 8 = 0) || decide (max < c.u32 8) ||
      decide ((dataSpan s c).2 < c.u32 4 + c.u32 8)) 24 true

/-- DATA_READ (R483): the body, or an output message that shows the area as it stands. -/
def cardDataRead : Card :=
  { op := 0x0300, right := some 2, plen := fun _ => 12, msg := fun c => if c.u32 8 ≤ 32 then .none else .output,
    bad := fun s c => badSpan s c 0x100000,
    run := fun s c =>
      let a := (dataSpan s c).1 + c.u32 4
      if c.u32 8 ≤ 32 then okNow s c (rdBytes s a (c.u32 8)) else openMsg s c (.area a) (c.u32 8) 0 0 .message }

/-- DATA_READ. -/
def execCmdDataRead (s : State) : Host.Outcome State Fault Refusal := .next (dispatch cardDataRead s)

/-- The data come inline. -/
def inlineData (c : Cmd) : Bool := decide (c.mlen = 0) && decide (c.u32 8 ≤ 36)

/-- DATA_WRITE (R484): exchange bytes are stored at once; a keeper write waits for the boundary. -/
def cardDataWrite : Card :=
  { op := 0x0301, right := some 2, plen := fun c => if inlineData c then 12 + c.u32 8 else 12,
    msg := fun c => if inlineData c then .none else .input (c.u32 8) (c.u32 8),
    bad := fun s c => badSpan s c (if c.u8 0 = 0 then 4096 else 0x100000),
    run := fun s c =>
      if !inlineData c then openMsg s c .input c.mlen (c.u8 0) (c.u32 4) .message
      else
        let d := (c.e.drop 28).take (c.u32 8)
        if c.u8 0 = 0 then stageB s c .free (.keeper c.ord.part (c.u32 4) d)
        else okNow (fillMem s ((dataSpan s c).1 + c.u32 4) d) c [] }

/-- DATA_WRITE. -/
def execCmdDataWrite (s : State) : Host.Outcome State Fault Refusal := .next (dispatch cardDataWrite s)

/-- FABRIC_LOAD (R141, R142, R485): the load begins; its image is verified when it is complete. -/
def cardFabricLoad : Card :=
  { op := 0x0400, p0 := true, plen := fun _ => 4, units := fun _ _ => [.fabric],
    msg := fun c => if c.u8 0 = 0 then .input 608 34560 else .none,
    bad := fun _ c => badIf (decide (3 ≤ c.u8 0)) 16 false ++ resv c 1 3,
    busy := fun s c =>
      if s.hdg.load ≠ .idle then some 1 else if c.u8 0 ≠ 0 ∧ flashPending s (c.u8 0 + 1) then some 6 else none,
    run := fun s c =>
      let src := c.u8 0
      let im := if src = 0 then [] else flashBytes s (region (src + 1)).1 (region (src + 1)).2
      let s1 := { s with hdg := { s.hdg with load := .loading, loadSrc := src, loadImg := im } }
      if src = 0 then openMsg s1 c .input c.mlen 0 0 .fabricMsg else accept s1 c.ord .fabric [] }

/-- FABRIC_LOAD. -/
def execCmdFabricLoad (s : State) : Host.Outcome State Fault Refusal := .next (dispatch cardFabricLoad s)

/-- CAPTURE_ARM (R151, R486). -/
def cardCaptureArm : Card :=
  { op := 0x0401, p0 := true, plen := fun _ => 4, units := fun _ _ => [.capture],
    bad := fun _ c => badIf (c.word 0 &&& ~~~(0xFF3F : Word) != 0) 16 false,
    busy := fun s _ => if s.hdg.capArmed || s.hdg.capFull then some 4 else none,
    run := fun s c => stageB s c .capture (.capArm (c.word 0)) }

/-- CAPTURE_ARM. -/
def execCmdCaptureArm (s : State) : Host.Outcome State Fault Refusal := .next (dispatch cardCaptureArm s)

/-- CAPTURE_READ (R152, R487). -/
def cardCaptureRead : Card :=
  { op := 0x0402, p0 := true, plen := fun _ => 4, units := fun _ _ => [.capture], msg := fun _ => .output,
    bad := fun _ c => badIf (decide (2 ≤ c.u32 0)) 16 false,
    run := fun s c => openMsg s c .capRam 9232 (c.u8 0) 0 .message }

/-- CAPTURE_READ. -/
def execCmdCaptureRead (s : State) : Host.Outcome State Fault Refusal := .next (dispatch cardCaptureRead s)

/-- SCRUB_DISABLE (R185, R186, R488). -/
def cardScrubDisable : Card :=
  { op := 0x0403, p0 := true, plen := fun _ => 4, units := fun _ _ => [.scrubber],
    other := fun s c => if c.word 0 = ~~~s.scb.nonce then none else some (0x14, 0xFE),
    run := fun s c => stageB s c .scrubber .scrubOff }

/-- SCRUB_DISABLE. -/
def execCmdScrubDisable (s : State) : Host.Outcome State Fault Refusal := .next (dispatch cardScrubDisable s)

/-- Length of the Topiary image at flash offset `a`, signature block included. -/
def topLenAt (s : State) (a : Nat) : Nat :=
  imageLen (decide (leNat (flashBytes s (a + 0x20) 2) % 2 = 1)) (leNat (flashBytes s (a + 0x18) 4))

/-- Offset of image n of the Topiary area, `none` at or beyond the end of the chain (R643). -/
def topImage (s : State) : Nat → Nat → Option Nat
  | n, o =>
    if 0x10000 ≤ o ∨ flashBytes s (0xA0000 + o) 4 ≠ topMagic then none
    else
      match n with
      | 0 => some o
      | k + 1 => topImage s k (4096 * cdiv (o + topLenAt s (0xA0000 + o)) 4096)

/-- BUSY of the Topiary commands: a load in progress or armed, or a frame that still uses the previous image (R281). -/
def topCause (s : State) (c : Cmd) : Option Nat :=
  let q := c.ord.part
  if (tfind s.arr.topArm q).isSome || topHeld s q || s.prt.opens.any (fun w => w.wait == .topVerify q) then some 1 else none

/-- TOPIARY_LOAD (R280 to R283, R489, R643). -/
def cardTopiaryLoad : Card :=
  { op := 0x0500, right := some 1, plen := fun _ => 4, msg := fun c => if c.u8 0 = 0 then .input 144 37504 else .none,
    bad := fun s c => badIf (decide (2 ≤ c.u8 0)) 16 false ++
      badIf (decide (c.u8 0 = 1) && (decide (16 ≤ c.u8 1) || (topImage s (c.u8 1) 0).isNone)) 17 true ++ resv c 2 2,
    busy := topCause,
    run := fun s c =>
      let q := c.ord.part
      if c.u8 0 = 0 then openMsg s c .input c.mlen q 0 (.topVerify q)
      else
        let o := (topImage s (c.u8 1) 0).getD 0
        let im := flashBytes s (0xA0000 + o) (min (0x10000 - o) (topLenAt s (0xA0000 + o)))
        accept { s with arr := { s.arr with topVer := tput s.arr.topVer q im } } c.ord (.topVerify q) [] }

/-- TOPIARY_LOAD. -/
def execCmdTopiaryLoad (s : State) : Host.Outcome State Fault Refusal := .next (dispatch cardTopiaryLoad s)

/-- TOPIARY_UNLOAD (R281, R490). -/
def cardTopiaryUnload : Card :=
  { op := 0x0501, right := some 1, busy := topCause, run := fun s c => stageB s c .free (.topUnload c.ord.part) }

/-- TOPIARY_UNLOAD. -/
def execCmdTopiaryUnload (s : State) : Host.Outcome State Fault Refusal := .next (dispatch cardTopiaryUnload s)

end Sys2Proof.Machine
end

