-- ==== Sys2Proof/Machine/CmdFlash.lean ====
section
/-! DEFINITION. Pagen commands of flash and boot: FLASH_ERASE, FLASH_WRITE, FLASH_READ, IMAGE_SELECT and the end of their
operations (R497 to R502, R621, R634, R642, R652 to R657, R665). -/

namespace Sys2Proof.Machine

open Sys2Proof

/-- REGION names a region that no command erases or writes: DETAIL of NO_RIGHT (R497). -/
def readOnly (c : Cmd) : Option (Nat × Nat) := if 6 ≤ c.u8 0 then some (0x14, 0xFC) else none

/-- BUSY of an erase or a write (R498). -/
def flashCause (s : State) (c : Cmd) : Option Nat := if regionBusy s (c.u8 0) then some 6 else none

/-- FLASH_ERASE (R499). -/
def cardFlashErase : Card :=
  { op := 0x0800, right := some 7, safe := true, plen := fun _ => 8,
    bad := fun _ c =>
      badIf (decide (9 ≤ c.u8 0)) 16 false ++ resv c 1 1 ++
        badIf (decide (c.u8 0 < 9) && decide ((region (c.u8 0)).2 / 4096 < c.u16 2 + c.u16 4)) 18 true ++
        badIf (decide (c.u16 4 = 0)) 20 false ++ resv c 6 2,
    busy := flashCause, other := fun _ c => readOnly c,
    run := fun s c =>
      flashQueue (accept s c.ord .flash []) (.erase ((region (c.u8 0)).1 / 4096 + c.u16 2) (c.u16 4) c.ord) }

/-- FLASH_ERASE. -/
def execCmdFlashErase (s : State) : Host.Outcome State Fault Refusal := .next (dispatch cardFlashErase s)

/-- FLASH_WRITE (R500). -/
def cardFlashWrite : Card :=
  { op := 0x0801, right := some 7, safe := true, plen := fun _ => 8, msg := fun _ => .input 4 0x100000,
    bad := fun _ c =>
      badIf (decide (9 ≤ c.u8 0)) 16 false ++ resv c 1 3 ++
        badIf (decide (c.u32 4 % 4 ≠ 0) || (decide (c.u8 0 < 9) && decide ((region (c.u8 0)).2 < c.u32 4 + c.mlen))) 20 true,
    busy := flashCause, other := fun _ c => readOnly c,
    run := fun s c =>
      flashQueue (openMsg s c .input c.mlen 0 0 .flash)
        (.program ((region (c.u8 0)).1 + c.u32 4) c.mlen 0 0 none false c.ord) }

/-- FLASH_WRITE. -/
def execCmdFlashWrite (s : State) : Host.Outcome State Fault Refusal := .next (dispatch cardFlashWrite s)

/-- FLASH_READ (R501, R657). -/
def cardFlashRead : Card :=
  { op := 0x0802, right := some 7, safe := true, plen := fun _ => 12,
    msg := fun c => if c.u32 8 ≤ 32 then .none else .output,
    bad := fun _ c =>
      badIf (decide (9 ≤ c.u8 0)) 16 false ++ resv c 1 3 ++ badIf (decide (c.u32 4 % 4 ≠ 0)) 20 true ++
        badIf (decide (c.u32 8 % 4 ≠ 0) || decide (c.u32 8 = 0) ||
          (decide (c.u8 0 < 9) && decide ((region (c.u8 0)).2 < c.u32 4 + c.u32 8))) 24 true,
    run := fun s c =>
      let a := (region (c.u8 0)).1 + c.u32 4
      if c.u32 8 ≤ 32 then okNow s c (flashBytes s a (c.u32 8))
      else openMsg s c (.flash a) (c.u32 8) 0 0 .message }

/-- FLASH_READ. -/
def execCmdFlashRead (s : State) : Host.Outcome State Fault Refusal := .next (dispatch cardFlashRead s)

/-- IMAGE_SELECT (R502, R657). -/
def cardImageSelect : Card :=
  { op := 0x0803, right := some 7, safe := true, plen := fun _ => 4,
    bad := fun _ c => badIf (decide (2 ≤ c.u8 0)) 16 false ++ resv c 1 3,
    run := fun s c => flashQueue (accept s c.ord .flash []) (.select (c.u8 0) c.ord) }

/-- IMAGE_SELECT. -/
def execCmdImageSelect (s : State) : Host.Outcome State Fault Refusal := .next (dispatch cardImageSelect s)

/-- Lowest of a list. -/
def lowest (l : List Nat) : Option Nat := l.foldl (fun m a => worst m (some a)) none

/-- The completion of a flash command that failed at flash offset `a`, or at none (R456). -/
def flashEnd (s : State) (o : Order) (a : Option Nat) : State :=
  match a with
  | some a => finish s o 0x30 (regionOff a) []
  | none => finish s o 0x00 0 []

/-- The sectors of an erase end erased, or open where the erase failed (R499). -/
def eraseEnd (s : State) (first n : Nat) (o : Order) (bad : List Nat) : State :=
  let s1 := forEach (List.range n) s (fun s i =>
    if bad.contains i then flashOpen s (4096 * (first + i)) 4096 else clearSector s (first + i))
  flashEnd s1 o ((lowest (bad.filter (fun i => i < n))).map (fun i => 4096 * (first + i)))

/-- The words of a write end programmed, or open where they did not verify (R500). -/
def programEnd (s : State) (off len : Nat) (first : Option Nat) (o : Order) (bad : List Nat) : State :=
  let ws := (bad.filter (fun i => 4 * i < len)).map (fun i => off + 4 * i)
  let s1 := forEach ws s (fun s a => flashOpen s a 4)
  flashEnd s1 o (worst first (lowest ws))

/-- IMAGE_SELECT ends (R652, R654): the image is checked, and the record written and read back. -/
def selectEnd (s : State) (slot : Nat) (o : Order) (bad : List Nat) : State :=
  match fwCheck s slot with
  | some (st, d) => finish s o st d []
  | none =>
    let t := selTarget s
    let b := selBytes s slot
    let s1 := if t.2 then flashErase s (t.1 / 4096) else s
    if bad.isEmpty then flashEnd (flashPut s1 t.1 b) o none else flashEnd (flashOpen s1 t.1 32) o (some t.1)

/-- The FAULT_CLEAR commands that wait for the flash make their retest (R621). -/
def runRetests (s : State) (fails : BitVec 32) : State :=
  forEach (s.prt.opens.filter (fun w => match w.wait with
    | .retest _ _ => true
    | _ => false)) s (fun s w =>
    match w.wait with
    | .retest m0 m1 => faultClearEnd (logRetest s fails) w.ord m0 m1
    | _ => s)

/-- What follows the end of a flash command: its interrupt, a retest that waits, the next command (R353, R498, R621). -/
def flashAfter (s : State) (fails : BitVec 32) : State := flashNext (runRetests (raiseInt s 23) fails)

/-- FLASH_OPERATION_COMPLETE (R498 to R502, R621, R654): the flash command that runs ends. `bad` lists the sectors of an
erase, the words of a write, or the word of a selection record, that do not verify; `fails` the log sectors that fail a
retest, bit 16 * bank + sector. -/
def execFlashOperationComplete (bad : List Nat) (fails : BitVec 32) (s : State) : Host.Outcome State Fault Refusal :=
  let done := { s with boot := { s.boot with op := none } }
  .next (match s.boot.op with
    | some (.erase first n o) => flashAfter (eraseEnd done first n o bad) fails
    | some (.program off len _ _ first full o) => if full then flashAfter (programEnd done off len first o bad) fails else s
    | some (.select slot o) => flashAfter (selectEnd done slot o bad) fails
    | none => s)

end Sys2Proof.Machine
end

