-- ==== Sys2Proof/Machine/CmdLog.lean ====
section
/-! DEFINITION. Pagen commands of trace, faults and log: TRACE_CONFIG, TRACE_READ, STICKY_READ, FAULT_CLEAR, LOG_READ,
RETURN_CAPTURE, RETURN_READ (R491 to R496, R593, R601, R604, R621, R624 to R629). -/

namespace Sys2Proof.Machine

open Sys2Proof

/-- Registers that TRACE_CONFIG writes. -/
def traceRegs (c : Cmd) : List Nat := (List.range (c.u8 2)).map (fun i => c.u16 0 + 4 * i)

/-- A trace control register of partition p. -/
def ownTrace (p a : Nat) : Bool := decide (trcReg p 0 ≤ a) && decide (a ≤ trcReg p 0x20)

/-- TRACE_CONFIG (R491). -/
def cardTraceConfig : Card :=
  { op := 0x0600, right := some 3, plen := fun c => 4 + 4 * c.u8 2,
    bad := fun s c =>
      badIf (decide (c.u16 0 % 4 ≠ 0) || decide (c.u16 0 < 0x0D00) || decide (0x0DFF < c.u16 0)) 16 true ++
        badIf (decide (c.u8 2 = 0) || decide (9 < c.u8 2)) 18 false ++ resv c 3 1 ++
        (traceRegs c).zipIdx.flatMap (fun e : Nat × Nat =>
          badIf (ownTrace c.ord.part e.1 && writeReserved s e.1 (c.word (4 + 4 * e.2))) (20 + 4 * e.2) false),
    other := fun _ c => if (traceRegs c).all (ownTrace c.ord.part) then none else some (0x14, 0xFB),
    run := fun s c =>
      okNow (forEach (traceRegs c).zipIdx s (fun s e => regWrite s c.ord.mbx c.ord.stamp e.1 (c.word (4 + 4 * e.2)))) c [] }

/-- TRACE_CONFIG. -/
def execCmdTraceConfig (s : State) : Host.Outcome State Fault Refusal := .next (dispatch cardTraceConfig s)

/-- Entries that partition p's buffer holds. -/
def traceHeld (s : State) (p : Nat) : Nat := min (trc s p).wptr (256 * trcBlocks s p)

/-- Entry number `k` of partition p's buffer, 0 when it has been overwritten (R492, R581). -/
def traceEntry (s : State) (p k : Nat) : DWord :=
  let n := 256 * trcBlocks s p
  let w := (trc s p).wptr
  if n = 0 ∨ w ≤ k ∨ n < w - k then 0 else tget 0 s.trc.buf (256 * trcBase s p + k % n)

/-- Entries from number `k` as bytes. -/
def traceBytes (s : State) (p k n : Nat) : List Byte :=
  (List.range n).flatMap (fun i => leBytes 8 (traceEntry s p (k + i)).toNat)

/-- TRACE_READ (R492): the newest entries held, oldest first. -/
def cardTraceRead : Card :=
  { op := 0x0601, right := some 3, plen := fun _ => 4, msg := fun _ => .output,
    bad := fun _ c => badIf (decide (c.u16 0 = 0) || decide (4096 < c.u16 0)) 16 false ++ resv c 2 2,
    run := fun s c =>
      let p := c.ord.part
      let n := min (c.u16 0) (traceHeld s p)
      openMsg s c (.trace p ((trc s p).wptr - n)) (8 * n) 0 0 .message }

/-- TRACE_READ. -/
def execCmdTraceRead (s : State) : Host.Outcome State Fault Refusal := .next (dispatch cardTraceRead s)

/-- The body of STICKY_READ (R493). -/
def stickyBody (s : State) : List Byte :=
  leBytes 4 (rd s 0x0E00).toNat ++ leBytes 4 (rd s 0x0E04).toNat ++ leBytes 4 (logState s).toNat ++
    leBytes 4 (logRecs s).length ++ leBytes 1 s.boot.factory ++ leBytes 1 (fld (rd s 0x0E14) 8 1)

/-- STICKY_READ (R493). -/
def cardStickyRead : Card :=
  { op := 0x0700, right := some 5, safe := true, stby := true, memb := true, run := fun s c => okNow s c (stickyBody s) }

/-- STICKY_READ. -/
def execCmdStickyRead (s : State) : Host.Outcome State Fault Refusal := .next (dispatch cardStickyRead s)

/-- FAULT_CLEAR (R494, R604, R621). A retest runs first when the masks call for one; while a host flash command runs, the
command waits for it. `fails` gives the log sectors that fail the retest, bit 16 * bank + sector. -/
def cardFaultClear (fails : BitVec 32) : Card :=
  { op := 0x0701, right := some 6, safe := true, memb := true, plen := fun _ => 8,
    bad := fun _ c => badIf (c.word 0 &&& ~~~(0x3FFF : Word) != 0) 16 false ++ badIf (c.word 4 &&& ~~~(0x1FF : Word) != 0) 20 false,
    run := fun s c =>
      if !wantsRetest s (c.word 4) then faultClearEnd s c.ord (c.word 0) (c.word 4)
      else if s.boot.op.isSome then
        { s with prt := { s.prt with opens := s.prt.opens ++ [⟨c.ord, .retest (c.word 0) (c.word 4)⟩] } }
      else faultClearEnd (logRetest s fails) c.ord (c.word 0) (c.word 4) }

/-- FAULT_CLEAR. -/
def execCmdFaultClear (fails : BitVec 32) (s : State) : Host.Outcome State Fault Refusal :=
  .next (dispatch (cardFaultClear fails) s)

/-- The records at `n` positions of LOG_READ from position `i`; 0xFF where there is none (R495, R624). -/
def logBytes (s : State) (i n : Nat) : List Byte :=
  let l := ((logRecs s).drop i).take n
  l.flatMap (fun x => x.bytes) ++ List.replicate (32 * (n - l.length)) 0xFF

/-- LOG_READ (R495). -/
def cardLogRead : Card :=
  { op := 0x0702, right := some 5, safe := true, stby := true, memb := true, plen := fun _ => 4,
    msg := fun c => if c.u16 2 ≤ 1 then .none else .output,
    bad := fun _ c => badIf (decide (c.u16 2 = 0) || decide (2048 < c.u16 2)) 18 false,
    run := fun s c =>
      let d := logBytes s (c.u16 0) (c.u16 2)
      if c.u16 2 = 1 then okNow s c d else openMsg s c (.fixed d) d.length 0 0 .message }

/-- LOG_READ. -/
def execCmdLogRead (s : State) : Host.Outcome State Fault Refusal := .next (dispatch cardLogRead s)

/-- RETNUM of the newest RETURN record, 0 when there is none (R629). -/
def lastRetnum (s : State) : Nat := (((logRecs s).find? (fun x => x.code = 6)).map (fun x => entryNat x.bytes 20 4)).getD 0

/-- A 64-bit record of two registers as its two words. -/
def rawPair (s : State) (a : Nat) : List Word := [BitVec.ofNat 32 (rd64 s a), BitVec.ofNat 32 (rd64 s a / 2 ^ 32)]

/-- A list of bytes filled up to `n` with `b`. -/
def padTo (n : Nat) (b : Byte) (l : List Byte) : List Byte := (l ++ List.replicate n b).take n

/-- The trace head of partition p: its newest 384 or fewer entries, oldest first (R627). -/
def traceHead (s : State) (p : Nat) : List Byte :=
  let n := min 384 (traceHeld s p)
  padTo 3072 0 (traceBytes s p ((trc s p).wptr - n) n)

/-- The registers and log records of a return record, taken at dispatch (R626, R627). -/
def returnHead (s : State) : List Byte :=
  let v := fun a => regVal s a
  padTo 64 0 ([0x52, 0x54, 0x52, 0x4E] ++ leBytes 2 1 ++ leBytes 2 64 ++ leBytes 4 Config.deviceId.toNat ++
      [0x42, if s.boot.stepB1 then 0x31 else 0x30] ++ leBytes 1 s.boot.factory ++ leBytes 1 0 ++
      leBytes 4 (lastRetnum s + 1) ++ leBytes 2 s.flt.bootNum ++ leBytes 2 0 ++ leBytes 8 (frmCount s) ++ leBytes 4 (upMs s)) ++
    wordBytes [v 0x0E00, v 0x0E04, v 0x0E10, v 0x0F00, v 0x0F04, v 0x0F08, v 0x0F0C, v 0x0F10, v 0x0400, v 0x0408, v 0x0430,
      v 0x0434, v 0x040C, v 0x0410, v 0x0814, v 0x082C] ++
    wordBytes ([v 0x0810, v 0x0830, v 0x0820, BitVec.ofNat 32 (s.scb.suspAt.toNat / 2 ^ 32)] ++ rawPair s 0x0508 ++
      rawPair s 0x0510 ++ [v 0x0518] ++ rawPair s 0x0640 ++ [v 0x0624, v 0x0C00, v 0x0C04, v 0x0208, v 0x0308]) ++
    padTo 64 0 ((List.range 4).flatMap (fun p => leBytes 4 (min 384 (traceHeld s p)) ++ leBytes 4 (trc s p).wptr)) ++
    padTo 512 0xFF (bootHistory s).flatten ++ logBytes s 0 64

/-- A return record sealed (R627): digest and seal follow the content. -/
def sealReturn (retnum : Nat) (content : List Byte) : List Byte :=
  let d := content ++ sha256 content
  let mark := [0x53, 0x45, 0x41, 0x4C] ++ leBytes 4 retnum ++ leBytes 4 (crc32 d).toNat ++ List.replicate 16 0
  d ++ sealRec mark

/-- RETURN_CAPTURE (R496, R601, R626): the content is taken, trace stops and its entries are copied; the record is then
written. -/
def cardReturnCapture : Card :=
  { op := 0x0703, p0 := true, safe := true, memb := true,
    run := fun s c =>
      let head := returnHead s
      let n := lastRetnum s + 1
      let s1 := forEach (List.range 4) (accept s c.ord .retCap []) (fun s p => stopChans s p 0xF 5)
      let body := head ++ (List.range 4).flatMap (traceHead s1) ++ List.replicate 1216 0xFF
      { s1 with flt := { s1.flt with capturing := s1.flt.capturing ++ [sealReturn n body] } } }

/-- RETURN_CAPTURE. -/
def execCmdReturnCapture (s : State) : Host.Outcome State Fault Refusal := .next (dispatch cardReturnCapture s)

/-- The region that holds the return record is erased and written (R626). -/
def writeReturn (s : State) (content : List Byte) : State :=
  flashPut (forEach [224, 225, 226, 227] s flashErase) 0xE0000 content

/-- RETURN_CAPTURE_COMPLETE (R626, R628, R629): the return record is written, sealed and verified, or its writing fails at
the word `bad`. It waits while a host flash command runs. -/
def execReturnCaptureComplete (bad : Option Nat) (s : State) : Host.Outcome State Fault Refusal :=
  .next (match s.flt.capturing with
    | [] => s
    | r :: rest =>
      if s.boot.op.isSome then s
      else
        let s1 := { s with flt := { s.flt with capturing := rest } }
        let n := entryNat r 0x3FE4 4
        let uses := place s.boot.factory 0
        match bad with
        | none =>
          let s2 := wr (writeReturn s1 r) 0x0E14 (uses ||| place 1 8 ||| place (n % 65536) 16)
          flashNext (finishWait (raiseInt (logPut s2 6 (leBytes 4 n)) 23) (fun w => w == .retCap) 0 0 [])
        | some w =>
          let s2 := wr (flashOpen (forEach [224, 225, 226, 227] s1 countErase) 0xE0000 16384) 0x0E14 uses
          flashNext (finishWait (raiseInt s2 23) (fun w => w == .retCap) 0x30 (4 * w % 16384) []))

/-- RETURN_READ (R496). -/
def cardReturnRead : Card :=
  { op := 0x0704, right := some 5, safe := true, msg := fun _ => .output,
    run := fun s c => openMsg s c (.flash 0xE0000) 16384 0 0 .message }

/-- RETURN_READ. -/
def execCmdReturnRead (s : State) : Host.Outcome State Fault Refusal := .next (dispatch cardReturnRead s)

end Sys2Proof.Machine
end

