-- ==== Sys2Proof/Machine/Power.lean ====
section
/-! DEFINITION. The power states: DOZE and STANDBY, their entry and their exit (R80, R112, R113, R166, R190, R229, R378, R505,
R578, R600, R691 to R693). -/

namespace Sys2Proof.Machine

open Sys2Proof

/-- An order to enter state `t` is pending. -/
def orderedTo (s : State) (t : Nat) : Bool := s.pwr.pend && decide (s.pwr.target = t)

/-- The state is entered and the order completes (R505). -/
def enterPower (s : State) (t : Nat) : State :=
  { s with pwr := { s.pwr with st := t, pend := false, exiting := false } }

/-- The POWER_STATE command that ordered state `t` completes. -/
def powerDone (s : State) (t : Nat) : State := finishWait s (fun w => w == .power t) 0 0 []

/-- The order to enter state `t` takes effect (R112, R113, R353, R692). -/
def orderPower (s : State) (t : Nat) : State :=
  raiseInt { s with pwr := { s.pwr with target := t, pend := true, exiting := decide (s.pwr.st = 2), orderAt := s.now } } 16

/-- The next incomplete power order starts, once none runs; one whose state is the current one completes (R403, R505). -/
def powerNext : Nat → State → State
  | 0, s => s
  | n + 1, s =>
    if s.pwr.pend ∨ s.pwr.st = 2 then s
    else
      match s.prt.opens.findSome? (fun w => match w.wait with
        | .power t => some (w.ord, t)
        | _ => none) with
      | some (o, t) => if t = s.pwr.st then powerNext n (finish s o 0 0 []) else orderPower s t
      | none => s

/-- No frame is COMPUTING. -/
def noneComputing (s : State) : Bool := s.frm.frames.all (fun f => f.st ≠ .computing)

/-- DOZE_ENTRY (R112, R229, R378, R691): the array is DRAINED and no frame is COMPUTING. -/
def execDozeEntry (s : State) : Host.Outcome State Fault Refusal :=
  .next (if orderedTo s 1 && decide (s.pwr.st = 0) && s.frm.drained && !arrayBusy s && noneComputing s then
      let s1 := enterPower s 1
      powerNext 4 (powerDone { s1 with pwr := { s1.pwr with cndClk := 25, arrRun := false } } 1)
    else s)

/-- DOZE_EXIT_COMPLETE (R693): the array and conductor clocks run again and the device is in RUN. -/
def execDozeExitComplete (s : State) : Host.Outcome State Fault Refusal :=
  .next (if orderedTo s 0 && decide (s.pwr.st = 1) then
      let s1 := enterPower s 0
      powerNext 4 (powerDone { s1 with pwr := { s1.pwr with cndClk := targetClk s, arrRun := true } } 0)
    else s)

/-- Every unanswered slot of the frames up to the ingesting one receives SHED 4, and the computation is abandoned and
drained (R113). -/
def shedAll (s : State) : State :=
  let s1 := endComp s 0x20 4 []
  let s2 := if (ingesting s1).isSome then abandonFrame s1 0x20 4 else s1
  let open_ := (s2.frm.frames.filter (fun f => f.st = .closed ∨ f.st = .computing)).map (fun f => f.count)
  let s3 := forEach open_ s2 (fun s c => toPosting (answerSlots s c (fun x => x.outcome.isNone) 0x20 4) c)
  match s3.frm.drain with
  | some (_, c) => endDrain (drainArray s3) c
  | none => s3

/-- Output levels of the FIO pins at entry, for the pins with STBYHOLD (R166). -/
def heldLevels (s : State) (t : Nat) (pins : BitVec 40) : BitVec 40 :=
  BitVec.ofNat 40 (((List.range 40).map (fun p => if fioOut s t pins p = .high then 2 ^ p else 0)).sum)

/-- The ports of a group retrain after STANDBY, or power down at its entry (R578). -/
def groupPorts (s : State) (st : PortState) : State :=
  if grouped s then forEach [0, 1] s (fun s p => if s.grp.members.getLsbD (peerPos s p) then portState s p st else s) else s

/-- STANDBY_ENTRY (R80, R113, R154, R166, R190, R378, R505, R578, R600): slots are shed, computation is abandoned and
drained, replies are posted, then the device enters STANDBY. `t` and `pins` give the edge and the pin levels at which FIO
outputs are held. -/
def execStandbyEntry (t : Nat) (pins : BitVec 40) (s : State) : Host.Outcome State Fault Refusal :=
  .next (if orderedTo s 2 && decide (s.pwr.st ≠ 2) then
      let w := angWord s
      let s1 := postReady (shedAll s) 16
      let s2 := if s.grp.role = 1 then sendAll s1 6 else s1
      let s3 := powerDone (forEach (List.range 4) (dropLanes s2) (fun s p => stopChans s p 0xF 4)) 2
      let s4 := groupPorts { s3 with grp := { s3.grp with quiesced := s3.grp.quiesced || grouped s3 } } .down
      let s5 := { s4 with
        hdg := { s4.hdg with fioHeld := heldLevels s4 t pins, ports := [] },
        ang := { s4.ang with frameOpen := false, heldWord := some w },
        scb := { s4.scb with pass := none, late := false },
        pwr := { s4.pwr with arrRun := false, cndClk := 0 } }
      enterPower s5 2
    else s)

/-- The scrubber's pass over both banks on leaving STANDBY (R190). -/
def fullPass (s : State) : State :=
  if passesRun s then
    let s1 := forEach (List.range 192) (refresh s) (fun s i => scrubFrame s (decide (96 ≤ i)) (i % 96))
    wr s1 0x080C (rd s1 0x080C + 1)
  else s

/-- Supplies that a return from STANDBY waits for: VFL, and VIO_L of a group member (R692). -/
def wakeSupplies (s : State) : Bool := s.pwr.supplies.getLsbD 2 && (!grouped s || s.pwr.supplies.getLsbD 6)

/-- STANDBY_EXIT_COMPLETE (R80, R166, R190, R229, R578, R691, R693): the memories that were lost are cleared, one pass of
the scrubber is run, the array is drained, the clock acquires, and the order completes. -/
def execStandbyExitComplete (s : State) : Host.Outcome State Fault Refusal :=
  .next (if s.pwr.st = 2 ∧ s.pwr.exiting ∧ wakeSupplies s ∧ s.pwr.target ≠ 2 then
      let t := s.pwr.target
      let s1 := fullPass (enterPower s t)
      let s2 := { drainArray s1 with
        smp := Smp.reset, frm := { s1.frm with drain := none, drained := true },
        pwr := { s1.pwr with arrRun := decide (t = 0), cndClk := if t = 0 then targetClk s else 25 } }
      let s3 := if angEn s2 then acquire s2 else s2
      let s4 := groupPorts s3 .training
      let s5 := if s4.grp.role = 1 then fullCkpts { s4 with grp := { s4.grp with
        quiesced := false, heard := (List.range 5).map (fun i => (i, s4.now)) } } else s4
      powerNext 4 (powerDone s5 t)
    else s)

end Sys2Proof.Machine
end

