-- ==== Sys2Proof/Machine/CmdPower.lean ====
section
/-! DEFINITION. Pagen commands of the group and of power: GROUP_FORM, GROUP_LEAVE, POWER_STATE and DEVICE_RESET, and the wait
for the supplies (R404, R405, R503 to R506, R542, R633, R692). -/

namespace Sys2Proof.Machine

open Sys2Proof

/-- GROUP_FORM (R503, R542): the ports train. -/
def cardGroupForm : Card :=
  { op := 0x0900, p0 := true, plen := fun _ => 4,
    bad := fun _ c => badIf (decide (c.u8 0 < 2) || decide (4 < c.u8 0)) 16 false ++ resv c 1 3,
    busy := fun s _ => if s.grp.role ≠ 0 ∨ s.grp.forming then some 7 else none,
    run := fun s c =>
      let s1 := accept s c.ord .form []
      portState (portState { s1 with grp := { s1.grp with forming := true, need := c.u8 0, known := [], copy := none } } 0
        .training) 1 .training }

/-- GROUP_FORM. -/
def execCmdGroupForm (s : State) : Host.Outcome State Fault Refusal := .next (dispatch cardGroupForm s)

/-- GROUP_LEAVE (R504, R576). -/
def cardGroupLeave : Card := { op := 0x0901, p0 := true, run := fun s c => stageB s c .free .groupLeave }

/-- GROUP_LEAVE. -/
def execCmdGroupLeave (s : State) : Host.Outcome State Fault Refusal := .next (dispatch cardGroupLeave s)

/-- A mailbox power order completes every incomplete power order of the rings with CONFLICT, and those that wait in a ring will
receive it; the transition that one of them had begun is dropped (R405). -/
def beatPower (s : State) (stamp : Nat) : State :=
  let lost := s.prt.opens.filter (fun w => decide (w.ord.opcode = 0x0A00) && !w.ord.mbx)
  let waits := fun x : Sub => !x.mbx && decide (subOp s x = 0x0A00)
  let subs := s.prt.subs.map (fun x => if waits x then { x with beaten := some stamp } else x)
  let s1 := { s with prt := { s.prt with subs := subs },
                     pwr := { s.pwr with pend := false, target := s.pwr.st, exiting := false } }
  if lost.isEmpty && !s.prt.subs.any waits then s1
  else forEach lost (setFlag s1 0x0A04 1) (fun s w => finish s w.ord 0x15 stamp [])

/-- POWER_STATE (R405, R505): an order of a ring waits for those before it; an order of the mailbox takes effect at once. -/
def cardPowerState : Card :=
  { op := 0x0A00, p0 := true, stby := true, plen := fun _ => 4, units := fun _ _ => [.power],
    bad := fun _ c => badIf (decide (3 ≤ c.u8 0)) 16 false ++ resv c 1 3,
    run := fun s c =>
      let s1 := if c.ord.mbx then beatPower s c.ord.stamp else s
      if c.u8 0 = s1.pwr.st then okNow s1 c []
      else
        let s2 := accept s1 c.ord (.power (c.u8 0)) []
        if c.ord.mbx ∨ !s2.pwr.pend then orderPower s2 (c.u8 0) else s2 }

/-- POWER_STATE. -/
def execCmdPowerState (s : State) : Host.Outcome State Fault Refusal := .next (dispatch cardPowerState s)

/-- DEVICE_RESET (R405, R506, R633). -/
def cardDeviceReset : Card :=
  { op := 0x0A01, p0 := true, safe := true, stby := true, memb := true, units := fun _ _ => [.power],
    run := fun s c => resetEntry s (if c.ord.mbx then 4 else 3) }

/-- DEVICE_RESET. -/
def execCmdDeviceReset (s : State) : Host.Outcome State Fault Refusal := .next (dispatch cardDeviceReset s)

/-- SUPPLY_WAIT_TIMEOUT (R692): a supply that the return from STANDBY needs is not in its window after 10 ms. -/
def execSupplyWaitTimeout (s : State) : Host.Outcome State Fault Refusal :=
  .next (if s.pwr.st = 2 ∧ s.pwr.exiting ∧ !wakeSupplies s ∧ s.pwr.orderAt + 10 * msTicks ≤ s.now then resetEntry s 7 else s)

end Sys2Proof.Machine
end

