-- ==== Sys2Proof/Machine/CndDecode.lean ====
section
/-! DEFINITION. The conductor's encodings and the count of a handler's code: what FP_LOAD checks of a frame program's code
(R306, R315, R337, R338, R350 to R352, R363 to R365, R371, R374, R509). -/

namespace Sys2Proof.Machine

open Sys2Proof

/-- How an instruction continues. -/
inductive CKind where
  | plain
  | movi
  | bcond (disp : Int)
  | bra (disp : Int)
  | call (disp : Int)
  | jmpr
  | callr
  | ret
  | rpti (n : Nat)
  | rptiReg
  | rptn (n : Nat)
  | svc (code : Nat)
  | bkpt
  | illegal                        -- defined, but not allowed in handler mode
deriving DecidableEq, Repr

/-- An instruction as the count of a path needs it. Registers are D 0 to 15, A 100 to 107, K 110 to 113, F 120 to 135. -/
structure CIns where
  kind : CKind
  cc : Nat                         -- occupancy
  reads : List Nat
  dlv : List (Nat × Nat)           -- registers with their latency
  fpu : Option Nat                 -- FPU occupancy
  rept : Bool                      -- may be repeated
  kf : Bool                        -- names a K or F register
deriving DecidableEq, Repr

/-- A plain instruction of `cc` cycles. -/
def insP (cc : Nat) (reads : List Nat) : CIns :=
  { kind := .plain, cc := cc, reads := reads, dlv := [], fpu := none, rept := true, kf := false }

/-- A control instruction. -/
def insK (k : CKind) (cc : Nat) (reads : List Nat) : CIns := { insP cc reads with kind := k, rept := false }

/-- An FPU instruction. -/
def insF (reads : List Nat) (dst lat occ : Nat) : CIns :=
  { insP 1 reads with dlv := [(dst, lat)], fpu := some occ, kf := true }

/-- The instruction when its encoding is defined. -/
def insIf (b : Bool) (i : CIns) : Option CIns := if b then some i else none

/-- A two's-complement field. -/
def sxt (w v : Nat) : Int := if v < 2 ^ (w - 1) then v else (v : Int) - 2 ^ w

/-- Register ALU, OP 0x01. -/
def decAlu (w : Word) : Option CIns :=
  let fn := fld w 8 6
  let one := decide (fn = 0x14) || decide (fn = 0x15) || decide (fn = 0x16) || (decide (0x19 ≤ fn) && decide (fn ≤ 0x1D))
  insIf (decide (fn ≤ 0x1D) && decide (fld w 0 8 = 0) && (!one || decide (fld w 14 4 = 0)))
    (insP 1 (if one then [fld w 18 4] else [fld w 18 4, fld w 14 4]))

/-- Immediate ALU, OP 0x02 to 0x0C. -/
def decImm (op : Nat) (w : Word) : Option CIns :=
  let rs := fld w 18 4
  let k := fld w 16 2
  if op ≤ 9 then insIf (decide (k = 0)) (insP 1 [rs])
  else if op = 0x0A then insIf (decide (k = 0) && decide (rs = 0)) (insP 1 [])
  else if op = 0x0B then insIf (decide (fld w 0 22 = 0)) (insK .movi 2 [])
  else insIf (decide (fld w 5 11 = 0)) (insP 1 [rs])

/-- Address-register group, OP 0x0D, format A. -/
def decAddr (w : Word) : Option CIns :=
  let rd := fld w 22 4
  let rs := fld w 18 4
  let rt := fld w 14 4
  let fn := fld w 10 4
  let sc := decide (fld w 8 2 = 0)
  if fld w 0 8 ≠ 0 then none
  else if fn ≤ 1 then insIf (sc && decide (rd < 8) && decide (rs < 8)) (insP 1 [100 + rs, rt])
  else if fn = 2 then insIf (sc && decide (rd < 8) && decide (rt = 0)) (insP 1 [rs])
  else if fn = 3 then insIf (sc && decide (rs < 8) && decide (rt = 0)) (insP 1 [100 + rs])
  else if fn = 4 then insIf (sc && decide (rd < 8) && decide (rs < 8) && decide (rt = 0)) (insP 1 [100 + rs])
  else if fn = 5 then insIf (decide (rd < 8) && decide (rs < 8)) (insP 1 [100 + rs, rt])
  else none

/-- Multiply and divide, OP 0x0E; a multiply in a handler takes 5 cycles (R306). -/
def decMul (w : Word) : Option CIns :=
  let fn := fld w 8 6
  insIf (decide (fn ≤ 4) && decide (fld w 0 8 = 0) && (decide (fn = 2) || decide (fld w 22 1 = 0)))
    (insP (if fn ≤ 2 then 5 else 17) [fld w 18 4, fld w 14 4])

/-- Accumulator group, OP 0x0F, format K. -/
def decAcc (w : Word) : Option CIns :=
  let rd := fld w 22 4
  let rs := fld w 18 4
  let k := 110 + fld w 16 2
  let fn := fld w 10 6
  let imm := fld w 0 10
  let i := fun cc (r : List Nat) => ({ insP cc r with kf := true } : CIns)
  if fn ≤ 3 then insIf (decide (imm = 0)) (i 5 [rd, rs, k])
  else if fn = 4 then insIf (decide (rd = 0) && decide (rs = 0) && decide (imm = 0)) (i 1 [])
  else if fn = 5 then insIf (decide (rs = 0) && decide (imm ≤ 2)) (i 1 [rd, k])
  else if fn = 6 then insIf (decide (rs = 0) && decide (imm ≤ 2)) (i 1 [k])
  else if fn ≤ 8 then insIf (decide (rs = 0) && decide (imm ≤ 40)) (i 2 [k])
  else if fn = 9 then insIf (decide (rd = 0) && decide (rs = 0) && decide (imm ≤ 3)) (i 1 [110 + imm])
  else none

/-- The register that a memory instruction names: D, A or F. -/
def memReg (op rd : Nat) : Nat := if op = 0x1A ∨ op = 0x1B then 100 + rd else if 0x1C ≤ op ∧ op ≤ 0x1F then 120 + rd else rd

/-- Loads and stores, OP 0x10 to 0x21, format M. -/
def decMem (op : Nat) (w : Word) : Option CIns :=
  let rd := fld w 22 4
  let an := fld w 19 3
  let mode := fld w 16 3
  let pair := decide (op = 0x15) || decide (op = 0x19)
  let wide := pair || decide (op = 0x1D) || decide (op = 0x1F)
  let plane := decide (op = 0x20) || decide (op = 0x21)
  let addr := decide (op = 0x1A) || decide (op = 0x1B)
  let store := (decide (0x16 ≤ op) && decide (op ≤ 0x19)) || decide (op = 0x1B) || decide (op = 0x1E) || decide (op = 0x1F) ||
    decide (op = 0x21)
  let ok := (decide (mode = 3) || (decide (mode ≤ 2) && decide (fld w 0 16 = 0)) || (decide (mode = 4) && decide (fld w 0 10 = 0))) &&
    (!plane || decide (mode = 0) || decide (mode = 3)) && (!pair || decide (rd % 2 = 0)) && (!addr || decide (rd < 8)) &&
    !(addr && decide (rd = an) && (decide (mode = 1) || decide (mode = 2)))
  let reg := memReg op rd
  let regs := if pair then [reg, reg + 1] else [reg]
  let lat := if op = 0x20 then 3 else if wide then 3 else 2
  let reads := (100 + an) :: (if mode = 4 then [fld w 12 4] else []) ++ (if store then regs else [])
  insIf ok { insP (if wide then 2 else 1) reads with
    dlv := if store then [] else regs.map (fun r => (r, lat)), rept := !plane,
    kf := decide (0x1C ≤ op) && decide (op ≤ 0x1F) }

/-- Control transfers and repeat prefixes, OP 0x22 to 0x28. -/
def decCtl (op : Nat) (w : Word) : Option CIns :=
  let rd := fld w 22 4
  if op ≤ 0x23 then some (insK (.bcond (4 * sxt 22 (fld w 0 22))) 1 [rd])
  else if op = 0x24 then insIf (decide (rd = 0)) (insK (.bra (4 * sxt 22 (fld w 0 22))) 2 [])
  else if op = 0x25 then some (insK (.call (4 * sxt 26 (fld w 0 26))) 2 [107])
  else if op = 0x26 then
    let fn := fld w 8 6
    let rs := fld w 18 4
    let z := decide (rd = 0) && decide (fld w 14 4 = 0) && decide (fld w 0 8 = 0) && decide (rs < 8)
    if fn = 0 then insIf z (insK .jmpr 2 [100 + rs])
    else if fn = 1 then insIf z (insK .callr 2 [100 + rs, 107])
    else if fn = 2 then insIf (z && decide (rs = 0)) (insK .ret 3 [107])
    else none
  else if op = 0x27 then
    if fld w 16 5 ≠ 0 then none
    else if bit w 21 then insIf (decide (fld w 0 16 = 0)) (insK .rptiReg 1 [rd])
    else insIf (decide (rd = 0)) (insK (.rpti (fld w 0 16)) 1 [])
  else insIf (decide (fld w 6 20 = 0)) (insK (.rptn (fld w 0 6 + 1)) 1 [])

/-- System instructions, OP 0x29. -/
def decSys (w : Word) : Option CIns :=
  let rd := fld w 22 4
  let sr := fld w 18 4
  let imm := fld w 0 8
  let fn := fld w 8 6
  let z := decide (rd = 0) && decide (sr = 0)
  if fld w 14 4 ≠ 0 then none
  else if fn = 0 then insIf (z && decide (imm = 0)) (insK .plain 1 [])
  else if fn = 1 then insIf z (insK (.svc imm) 0 [])
  else if fn = 2 then insIf z (insK .bkpt 0 [])
  else if fn = 3 then insIf (decide (imm = 0) && decide (sr ≤ 4)) (insK .plain 1 [])
  else if fn = 4 then
    insIf (decide (imm = 0) && decide (1 ≤ sr) && decide (sr ≤ 4)) (insK (if sr = 2 ∨ sr = 3 then .illegal else .plain) 1 [rd])
  else if fn ≤ 6 then insIf (z && decide (imm = 0)) (insK .illegal 0 [])
  else none

/-- FPU operations, OP 0x2A to 0x2C (R315). -/
def decFpu (op : Nat) (w : Word) : Option CIns :=
  let rd := fld w 22 4
  let fa := 120 + fld w 18 4
  let fb := 120 + fld w 14 4
  let p := bit w 7
  let fd := 120 + rd
  let ds := fld w 18 4
  if fld w 0 7 ≠ 0 then none
  else if op = 0x2B then some (insF [fa, fb, 120 + fld w 10 4] fd (if p then 5 else 4) 1)
  else if op = 0x2C then insIf (decide (fld w 8 3 = 0)) (insF [fa, fb] rd 2 1)
  else
    let fn := fld w 8 6
    let one := decide (fld w 14 4 = 0)
    if fn ≤ 1 then some (insF [fa, fb] fd 3 1)
    else if fn = 2 then some (insF [fa, fb] fd (if p then 4 else 3) 1)
    else if fn = 3 then some (insF [fa, fb] fd (if p then 20 else 12) (if p then 19 else 11))
    else if fn = 4 then insIf one (insF [fa] fd (if p then 22 else 12) (if p then 21 else 11))
    else if fn ≤ 7 then insIf one (insF [fa] fd 1 1)
    else if fn ≤ 9 then insIf one (insF [ds] fd 2 1)
    else if fn ≤ 11 then insIf one (insF [fa] rd 2 1)
    else if fn = 12 then insIf one (insF [fa] fd 2 1)
    else if fn = 13 then
      insIf (one && (!p || decide (rd % 2 = 0)))
        { insF [fa] rd 1 1 with dlv := if p then [(rd, 1), (rd + 1, 1)] else [(rd, 1)] }
    else if fn = 14 then
      insIf (one && (!p || decide (ds % 2 = 0))) (insF (if p then [ds, ds + 1] else [ds]) fd 1 1)
    else none

/-- An instruction word, `none` for an undefined encoding (R337, R338). -/
def decodeCnd (w : Word) : Option CIns :=
  let op := fld w 26 6
  if op = 0x01 then decAlu w
  else if 0x02 ≤ op ∧ op ≤ 0x0C then decImm op w
  else if op = 0x0D then decAddr w
  else if op = 0x0E then decMul w
  else if op = 0x0F then decAcc w
  else if 0x10 ≤ op ∧ op ≤ 0x21 then decMem op w
  else if 0x22 ≤ op ∧ op ≤ 0x28 then decCtl op w
  else if op = 0x29 then decSys w
  else if 0x2A ≤ op ∧ op ≤ 0x2C then decFpu op w
  else if op = 0x2D then
    insIf (decide (fld w 22 4 < 8) && decide (fld w 18 4 < 8) && decide (fld w 16 2 = 0)) (insP 1 [100 + fld w 18 4])
  else none

/-- The code word at byte offset `a`. -/
def codeWord (code : List Word) (a : Nat) : Option Word := if a % 4 = 0 then code[a / 4]? else none

/-- The instruction at byte offset `a`. -/
def insAt (code : List Word) (a : Nat) : Option CIns := (codeWord code a).bind decodeCnd

/-- A repeat prefix. -/
def CIns.isRpt (i : CIns) : Bool :=
  match i.kind with
  | .rpti _ => true
  | .rptiReg => true
  | .rptn _ => true
  | _ => false

/-- Byte offset of the first undefined encoding of the code, read in order from its start (R338, R350, R510). -/
def badCode (code : List Word) : Nat → Nat → Option Nat
  | 0, _ => none
  | n + 1, a =>
    match codeWord code a with
    | none => none
    | some w =>
      match decodeCnd w with
      | none => some a
      | some i =>
        if i.kind = .movi then badCode code n (a + 8)
        else if i.isRpt then
          (match codeWord code (a + 4) with
           | none => none
           | some v =>
             match decodeCnd v with
             | some j => if j.rept then badCode code n (a + 4) else some a
             | none => some a)
        else badCode code n (a + 4)

/-- The offsets that may follow the instruction at `a`, calls and their returns among them. -/
def succs (code : List Word) (a : Nat) : List Nat :=
  match insAt code a with
  | none => []
  | some i =>
    let t := fun d : Int => ((a : Int) + 4 + d).toNat
    match i.kind with
    | .plain => [a + 4]
    | .movi => [a + 8]
    | .bcond d => [a + 4, t d]
    | .bra d => [t d]
    | .call d => [a + 4, t d]
    | .rpti _ => [a + 4]
    | .rptn _ => [a + 4]
    | .svc c => if 1 ≤ c ∧ c ≤ 4 then [a + 4] else []
    | .bkpt => [a + 4]
    | _ => []

/-- The offsets reached from a work list. -/
def reach (code : List Word) : Nat → List Nat → List Nat → List Nat
  | 0, _, seen => seen
  | _, [], seen => seen
  | n + 1, a :: as, seen =>
    if seen.contains a ∨ (insAt code a).isNone then reach code n as seen else reach code n (succs code a ++ as) (a :: seen)

/-- The offsets reached from `a`. -/
def reachFrom (code : List Word) (a : Nat) : List Nat := reach code (4 * code.length + 4) [a] []

/-- The count of the paths from `a` is not fixed by the code: a backward branch, a JMPR, a CALLR, a call cycle or an RPTI that
takes its count from a register (R509). -/
def openCount (code : List Word) (a : Nat) : Bool :=
  (reachFrom code a).any (fun p =>
    match ((insAt code p).map (fun i : CIns => i.kind) : Option CKind) with
    | some (.bcond d) => decide (d < 0)
    | some (.bra d) => decide (d < 0)
    | some .jmpr => true
    | some .callr => true
    | some .rptiReg => true
    | some (.call d) => (reachFrom code ((p : Int) + 4 + d).toNat).contains p
    | _ => false)

/-- The time of a path: cycles so far, deliveries, the FPU, the current window, resident windows and the return addresses. -/
structure PathAt where
  pc : Nat
  n : Nat
  dlv : Tbl Nat
  fpuAt : Nat
  win : Nat
  nres : Nat
  stack : List Nat

/-- A register's place among the physical windows. -/
def PathAt.key (x : PathAt) (r : Nat) : Nat := if 8 ≤ r ∧ r < 16 then 8 + 8 * x.win + (r - 8) else r

/-- The cycle at which an instruction issues (R351). -/
def PathAt.issue (x : PathAt) (i : CIns) : Nat :=
  max (i.reads.foldl (fun m r => max m (tget 0 x.dlv (1000 * (if r < 16 then 0 else 1) + x.key r)) ) x.n)
    (if i.fpu.isSome then x.fpuAt else 0)

/-- An instruction issues and takes `cc` cycles. -/
def PathAt.take (x : PathAt) (i : CIns) (cc : Nat) : PathAt :=
  let t := x.issue i
  { x with
    n := t + cc,
    dlv := i.dlv.foldl (fun d e =>
      let k := 1000 * (if e.1 < 16 then 0 else 1) + x.key e.1
      tput d k (max (tget 0 d k) (t + e.2))) x.dlv,
    fpuAt := match i.fpu with
      | some o => t + o
      | none => x.fpuAt }

/-- `k` iterations of a repeated instruction. -/
def PathAt.repeat_ (i : CIns) : Nat → PathAt → PathAt
  | 0, x => x
  | k + 1, x => PathAt.repeat_ i k (x.take i i.cc)

/-- Cycles of an SVC service: KUPD at its largest count (R371, R509). -/
def svcCycles (c : Nat) : Nat := if c = 1 then 24 + 1024 else 24

/-- The largest count of the paths from a point, those longer than `lim` cut there (R352, R363 to R365, R509). -/
def longest (code : List Word) (lim : Nat) : Nat → PathAt → Nat
  | 0, x => x.n
  | fuel + 1, x =>
    if lim < x.n then x.n
    else
      match insAt code x.pc with
      | none => x.n
      | some i =>
        let t := fun d : Int => ((x.pc : Int) + 4 + d).toNat
        let go := fun (cc pc : Nat) => longest code lim fuel { x.take i cc with pc := pc }
        match i.kind with
        | .plain => go i.cc (x.pc + 4)
        | .movi => go i.cc (x.pc + 8)
        | .bcond d => max (go 1 (x.pc + 4)) (go 2 (t d))
        | .bra d => go 2 (t d)
        | .call d =>
          let y := x.take i 2
          let spill := decide (x.nres = 7)
          longest code lim fuel { y with
            n := y.n + (if spill then 64 else 0), pc := t d, win := (x.win + 1) % 7,
            nres := if spill then 7 else x.nres + 1, stack := (x.pc + 4) :: x.stack }
        | .ret =>
          match x.stack with
          | [] => (x.take i 3).n
          | r :: rs =>
            let y := x.take i 3
            let fill := decide (x.nres = 1)
            longest code lim fuel { y with
              n := y.n + (if fill then 64 else 0), pc := r, win := (x.win + 6) % 7,
              nres := if fill then 1 else x.nres - 1, stack := rs }
        | .rpti k =>
          let y := x.take i 1
          (match insAt code (x.pc + 4) with
           | some j => longest code lim fuel { PathAt.repeat_ j k y with pc := x.pc + 8 }
           | none => y.n)
        | .rptn k =>
          let y := x.take i 1
          (match insAt code (x.pc + 4) with
           | some j => longest code lim fuel { PathAt.repeat_ j k y with pc := x.pc + 8 }
           | none => y.n)
        | .svc c => if 1 ≤ c ∧ c ≤ 4 then go (svcCycles c) (x.pc + 4) else (x.take i 1).n
        | .bkpt => go 12 (x.pc + 4)
        | _ => x.n

/-- The derived count of the code from `entry` equals the declared one, where the code fixes it (R509). `nres` is the number
of resident windows at the entry. -/
def countFits (code : List Word) (entry nres declared : Nat) : Bool :=
  openCount code entry ||
    decide (longest code declared (declared + 2) ⟨entry, 0, [], 0, 0, nres, []⟩ = declared)

/-- The code reached from `entry` names a K or F register (R374). -/
def namesKF (code : List Word) (entry : Nat) : Bool :=
  (reachFrom code entry).any (fun a => ((insAt code a).map (fun i => i.kf)).getD false)

end Sys2Proof.Machine
end

