-- ==== Sys2Proof/Machine/GroupPorts.lean ====
section
/-! DEFINITION. Events of the group link ports: training, acknowledgements, resends, retry exhaustion and timeouts (R536 to
R545, R563, R573, R578). -/

namespace Sys2Proof.Machine

open Sys2Proof

/-- Training information that is new to the chip (R542). -/
def learn (s : State) (infos : List ChipInfo) : State :=
  forEach infos s (fun s c =>
    if c.strap = s.boot.straps ∨ s.grp.known.any (fun k => k.strap == c.strap) then s
    else { s with grp := { s.grp with known := s.grp.known ++ [c] } })

/-- The four lanes of port p are locked and deskewed, and its peer is the first of the chips it tells of (R536, R537). -/
def portUp (s : State) (p : Nat) (infos : List ChipInfo) : State :=
  let x := gport s p
  portState (setGport s p { x with
    lanes := 0xF, resends := 0, sentAt := s.now,
    peer := match infos.head? with
      | some c => some c.pos
      | none => x.peer }) p .up

/-- LINK_TRAINING_COMPLETE (R536, R542 to R547): a port that trains is UP. `infos` are the chips that the training sets tell of,
the peer first; `copy` is what the leader has sent by then. On a port that is UP it is training information relayed later. -/
def execLinkTrainingComplete (p : Fin 2) (infos : List ChipInfo) (copy : Option LeaderCopy) (s : State) :
    Host.Outcome State Fault Refusal :=
  let x := gport s p
  .next (if x.st = .training ∨ (x.st = .up ∧ s.grp.forming) then
      let s1 := if x.st = .training then portUp s p infos else s
      if s1.grp.forming then
        let s2 := learn s1 infos
        tryForm { s2 with grp := { s2.grp with copy := match copy with
          | some c => some c
          | none => s2.grp.copy } }
      else s1
    else s)

/-- A checkpoint that the standby has acknowledged whole is sealed there; when both slots are, the group can form (R547, R561,
R564). -/
def ckptAcked (s : State) (n : Nat) : State :=
  if n = 0 then s
  else
    let g := { s.grp with ckLeft := s.grp.ckLeft - n, ckSealed := min 2 (s.grp.ckSealed + n) }
    let s1 := { s with grp := g }
    if s1.grp.role = 0 ∧ s1.grp.forming ∧ g.ckSealed = 2 then orderForm s1 else s1

/-- The frames up to the SEQ given are acknowledged (R540). -/
def ackTo (s : State) (p : Nat) (seq : Nat) : State :=
  let x := gport s p
  if x.unacked.any (fun u => u.1 = seq) then
    let n := ((x.unacked.takeWhile (fun u => u.1 ≠ seq)).length) + 1
    let s1 := setGport s p { x with unacked := x.unacked.drop n, resends := 0, sentAt := s.now }
    ckptAcked s1 (((x.unacked.take n).filter (fun u => u.2 = 5)).length)
  else s

/-- Retry exhaustion (R541): the port retrains once, or is LOST at a second exhaustion within 1 s. -/
def exhaust (s : State) (p : Nat) : State :=
  let a := 0x0C48 + 16 * p
  let r := rd s a
  let s1 := traceGroup (wr s a (setFld r 16 16 (satAdd 0xFFFF (fld r 16 16) 1))) p 4 0 0 0
  let x := gport s1 p
  let again := match x.exhausted with
    | some t => decide (s.now - t ≤ 200000000)
    | none => false
  if again then portLost s1 p
  else portState (setGport s1 p { x with exhausted := some s.now, resends := 0, retrains := x.retrains + 1 }) p .training

/-- Every unacknowledged frame of port p is sent again, from the oldest (R540, R541). -/
def resendAll (s : State) (p : Nat) : State :=
  let x := gport s p
  if x.unacked.isEmpty then s
  else
    let a := 0x0C48 + 16 * p
    let r := rd s a
    let s1 := wr s a (setFld r 0 16 (satAdd 0xFFFF (fld r 0 16) x.unacked.length))
    let s2 := forEach x.unacked s1 (fun s u => traceGroup s p 3 u.1 0 0)
    let s3 := setGport s2 p { x with resends := x.resends + 1, sentAt := s.now }
    if fld (rd s 0x0C08) 0 4 < x.resends + 1 then exhaust s3 p else s3

/-- LINK_ACK (R540): the peer acknowledges the frames up to `seq`. -/
def execLinkAck (p : Fin 2) (seq : Byte) (s : State) : Host.Outcome State Fault Refusal :=
  .next (if (gport s p).st = .up then ackTo s p seq.toNat else s)

/-- LINK_NAK (R538, R540, R541): the peer has found an error; `seq` is the last SEQ that it acknowledges. -/
def execLinkNak (p : Fin 2) (seq : Byte) (s : State) : Host.Outcome State Fault Refusal :=
  .next (if (gport s p).st = .up then resendAll (ackTo (traceGroup s p 2 seq.toNat 0 0) p seq.toNat) p else s)

/-- LINK_ACK_TIMEOUT (R540, R541): 2 µs have passed without an acknowledgement. -/
def execLinkAckTimeout (p : Fin 2) (s : State) : Host.Outcome State Fault Refusal :=
  .next (if (gport s p).st = .up ∧ 400 ≤ s.now - (gport s p).sentAt then resendAll s p else s)

/-- LINK_RETRAIN_TIMEOUT (R541): a port that retrains after an exhaustion is not UP within 200 µs. -/
def execLinkRetrainTimeout (p : Fin 2) (s : State) : Host.Outcome State Fault Refusal :=
  let x := gport s p
  .next (if x.st = .training ∧ x.exhausted.isSome ∧ 40000 ≤ s.now - x.trainAt then portLost s p else s)

/-- LINK_FRAME_ERROR (R538, R540, R579): a frame with an error is counted and answered with NAK. -/
def execLinkFrameError (p : Fin 2) (s : State) : Host.Outcome State Fault Refusal :=
  .next (if (gport s p).st = .up then
      traceGroup (satReg s (0x0C44 + 16 * p) 1) p 1 (((gport s p).expSeq + 255) % 256) 0 0
    else s)

/-- STANDBY_RETRAIN_TIMEOUT (R573, R578): a member's port is not UP within 10 ms of the return from STANDBY. -/
def execStandbyRetrainTimeout (p : Fin 2) (s : State) : Host.Outcome State Fault Refusal :=
  let x := gport s p
  .next (if grouped s && decide (x.st = .training) && decide (s.pwr.st ≠ 2) && decide (2000000 ≤ s.now - x.trainAt) then
      portLost s p
    else s)

end Sys2Proof.Machine
end

