-- ==== Sys2Proof/Machine/GroupFrames.lean ====
section
/-! DEFINITION. The frames of the group links, SYNC and heartbeats, as the leader and the members take them (R538, R549 to
R565, R572, R578). -/

namespace Sys2Proof.Machine

open Sys2Proof

/-- A frame received on port p: with the SEQ that is expected it is accepted, otherwise it is discarded (R540). -/
def receive (s : State) (p : Nat) (seq : Byte) (k : State → State) : State :=
  let x := gport s p
  if x.st = .up ∧ x.expSeq = seq.toNat then k (setGport s p { x with expSeq := (x.expSeq + 1) % 256 }) else s

/-- What an ARRAY frame does (R558). -/
def arrayMsg (s : State) (p : Nat) (m : ArrayMsg) : State :=
  let leader := decide (s.grp.role = 1)
  match m with
  | .check crc =>
    if crc = crc32 (tget [] s.grp.rx p) then s
    else if leader then { s with grp := { s.grp with verdict := some false } }
    else sendLink s (portTo s s.grp.leadPos) 1
  | .report => if leader then { s with grp := { s.grp with verdict := some false } } else s
  | .verdict r => if member s then { s with grp := { s.grp with verdict := some (!r) } } else s

/-- ARRAY_FRAME (R558): a check, an error report or a verdict. -/
def execArrayFrame (p : Fin 2) (seq : Byte) (m : ArrayMsg) (s : State) : Host.Outcome State Fault Refusal :=
  .next (receive s p seq (fun s => arrayMsg s p m))

/-- A member begins the computation of FPk with the first macro words that the leader sends for it (R552). -/
def memberStart (s : State) (fp : Nat) : State :=
  if s.frm.comp.isSome ∨ !s.frm.drained then s
  else
    match s.frm.frames.reverse.find? (fun f => f.st = .closed ∨ f.st = .computing) with
    | none => s
    | some f =>
      let s1 := modFrame s f.count (fun g => { g with st := .computing, owed := true })
      let s2 := { s1 with frm := { s1.frm with
        comp := some { fp := fp, count := f.count, fault := none, fromClock := false, handlerDone := false },
        drained := false, drainChk := false } }
      let s3 := loadProgram (noteClock s2) fp
      if s.frm.drainChk then faultComp s3 10 else s3

/-- The words that the leader sends enter the member's array instruction queue; `last` says that its handler has returned
(R552). -/
def macroWords (s : State) (fp : Nat) (words : List Word) (last : Bool) : State :=
  let s1 := memberStart s fp
  match s1.frm.comp with
  | some k =>
    if k.fp = fp then
      compEnd { s1 with
        frm := { s1.frm with comp := some { k with handlerDone := k.handlerDone || last } },
        arr := { s1.arr with queue := s1.arr.queue ++ words } }
    else s1
  | none => s1

/-- MACRO_FRAME (R552): macro words of FPk reach a member before they issue. -/
def execMacroFrame (p : Fin 2) (seq : Byte) (fp : Fin 16) (words : List Word) (last : Bool) (s : State) :
    Host.Outcome State Fault Refusal :=
  .next (receive s p seq (fun s => if member s then macroWords s fp words last else s))

/-- The leader's angle word, rate and FRM_COUNT are taken up (R548, R549). -/
def takeAngle (s : State) (phase rateN rateD : Nat) (count : BitVec 48) : State :=
  let d := max 1 rateD
  let a := s.ang
  let a1 := { a with rateN := rateN, rateD := d, mfrac := rescale a.mfrac a.rateD d,
                     st := if a.st = AngState.acquiring then AngState.locked else a.st }
  let a2 := if a.frameOpen then
      (if count = a.count48 ∧ a.phase < phase then { a1 with phase := min phase closeAngle, wfrac := 0 }
       else { a1 with wfrac := rescale a.wfrac a.rateD d })
    else { a1 with wfrac := 0, count48 := if count = BitVec.allOnes 48 then a.count48 else count,
                   anyOpened := a.anyOpened || decide (count ≠ BitVec.allOnes 48) }
  { s with ang := a2, grp := { s.grp with lastAng := s.now } }

/-- ANGLE_FRAME (R549): the leader's angle reaches a member. -/
def execAngleFrame (p : Fin 2) (seq : Byte) (phase rateN rateD : Nat) (count : BitVec 48) (s : State) :
    Host.Outcome State Fault Refusal :=
  .next (receive s p seq (fun s => if member s && decide (angSrc s = 4) then takeAngle s phase rateN rateD count else s))

/-- A coast budget that no frame exhausts (R550). -/
def groupBudget : Nat := 2 ^ 64

/-- ANGLE_FRAME_LOSS (R550): no ANGLE frame for 10.24 µs: a non-leader's clock coasts without budget. -/
def execAngleFrameLoss (s : State) : Host.Outcome State Fault Refusal :=
  .next (if member s && decide (angSrc s = 4) && locked s && decide (s.pwr.st ≠ 2) && decide (2048 ≤ s.now - s.grp.lastAng) then
      setFlag (markCoasted (setAng s { s.ang with st := .coasting, coastLeft := groupBudget })) 0x0208 2
    else s)

/-- A leader retires (R572): it computes nothing, posts nothing and drives no SYNC until reset. -/
def retireLeader (s : State) : State :=
  if s.grp.role ≠ 1 ∨ s.grp.retired then s
  else
    let s1 := endComp { s with grp := { s.grp with retired := true } } 0x20 1 []
    sticky1 (setFlag s1 0x0C04 8) 4 (leBytes 4 (grpVal s1 0x0C00).toNat)

/-- Every firing that is left in the open frame takes place, at most `n`. -/
def fireRest : Nat → State → State
  | 0, s => s
  | n + 1, s =>
    match dueFiring s with
    | some p => fireRest n (fireAt s p)
    | none => s

/-- A member takes the boundary that SYNC gives (R549, R550, R554). -/
def syncBoundary (s : State) : State :=
  let a := s.ang
  let s1 := if a.frameOpen then
      fireRest 70000 (setAng s { a with phase := max a.phase closeAngle, wfrac := 0 })
    else s
  boundary (if s1.ang.st = .coasting then setAng s1 { s1.ang with st := .locked, coastLeft := 0 } else s1)

/-- SYNC_PULSE (R549, R550, R554, R572, R578): a member takes the boundary with what the leader has sent for it; a leader that
did not drive the pulse retires. A member in STANDBY takes only a power order from it. -/
def execSyncPulse (upd : Option LeaderCopy) (s : State) : Host.Outcome State Fault Refusal :=
  .next (if s.grp.role = 1 then retireLeader s
    else if member s then
      let s1 := { s with grp := { s.grp with heard := tput s.grp.heard 4 s.now } }
      if s.pwr.st = 2 then
        (match upd.bind (fun c => c.power) with
         | some t => if t = 2 then s1 else orderPower s1 t
         | none => s1)
      else syncBoundary { s1 with grp := { s1.grp with copy := upd } }
    else s)

/-- HEARTBEAT_TIMER (R565): 100 µs after its previous heartbeat the leader sends one. -/
def execHeartbeatTimer (s : State) : Host.Outcome State Fault Refusal :=
  .next (if s.grp.role = 1 ∧ !s.grp.retired ∧ !s.grp.quiesced ∧ 20000 ≤ s.now - s.grp.sentAt then sendHeartbeat s else s)

/-- A heartbeat of the chip at position `pos` (R550, R565): the leader notes it and whether the member coasted; a member
answers the leader's. -/
def heartbeatFrom (s : State) (pos : Nat) (coasted : Bool) : State :=
  let s1 := { s with grp := { s.grp with heard := tput s.grp.heard pos s.now } }
  if s.grp.role = 1 then (if coasted then markCoasted s1 else s1)
  else if member s && decide (pos = s.grp.leadPos) then
    sendLink { s1 with grp := { s1.grp with quiesced := false } } (portTo s1 pos) 4
  else s1

/-- HEARTBEAT (R565). -/
def execHeartbeat (p : Fin 2) (seq : Byte) (pos : Fin 4) (coasted : Bool) (s : State) : Host.Outcome State Fault Refusal :=
  .next (receive s p seq (fun s => heartbeatFrom s pos coasted))

/-- The slot that the next checkpoint is written into (R561). -/
def ckptTarget (s : State) : Nat :=
  if (ckptSlot s 0).sealed_ ∨ (ckptSlot s 1).sealed_ then 1 - s.grp.lastSlot else 0

/-- A checkpoint slot replaced. -/
def setSlot (s : State) (i : Nat) (x : Ckpt) : State := { s with grp := { s.grp with slots := tput s.grp.slots i x } }

/-- One part of a checkpoint is stored in the target slot (R560 to R563). Before the commit record the slot is not sealed. -/
def ckptItem (s : State) (item : CkptItem) : State :=
  let t := ckptTarget s
  let x := ckptSlot s t
  match item with
  | .block i d => setSlot s t { x with sealed_ := false, blocks := tput x.blocks i d }
  | .control c => setSlot s t { x with sealed_ := false, ctl := some c }
  | .commit num count _ ok =>
    if ok && x.ctl.isSome then
      let s1 := setSlot s t { x with sealed_ := true, num := num, count := count }
      traceGroup { s1 with grp := { s1.grp with lastSlot := t } } 0 6 0 0 num
    else setFlag (setSlot s t { x with sealed_ := false }) 0x0C04 6

/-- CKPT_BLOCK (R560 to R563): a part of a checkpoint reaches the standby. -/
def execCkptBlock (p : Fin 2) (seq : Byte) (item : CkptItem) (s : State) : Host.Outcome State Fault Refusal :=
  .next (receive s p seq (fun s => if s.grp.role = 2 ∨ (s.grp.role = 0 ∧ s.grp.forming) then ckptItem s item else s))

/-- A fault on the member at `pos`, with its FRAME_FAULT cause: the program is abandoned everywhere (R559). -/
def memberFault (s : State) (pos cause : Nat) : State :=
  if s.frm.comp.isNone then s
  else if s.grp.role = 1 then sticky1 (setFlag (faultComp s 13) 0x0C04 7) 2 (leBytes 1 pos ++ leBytes 1 cause)
  else if member s then endComp s 0x21 13 []
  else s

/-- MEMBER_FAULT_FRAME (R559): a CTRL frame reports a fault. -/
def execMemberFaultFrame (p : Fin 2) (seq : Byte) (pos : Fin 4) (cause : Byte) (s : State) : Host.Outcome State Fault Refusal :=
  .next (receive s p seq (fun s => memberFault s pos cause.toNat))

/-- A takeover by the chip at `pos` (R545, R569, R572): the old leader retires; the others follow the new one. -/
def takenOver (s : State) (pos : Nat) : State :=
  if s.grp.role = 1 then retireLeader s
  else if member s then
    let m := s.grp.members &&& ~~~(BitVec.ofNat 4 (2 ^ s.grp.leadPos))
    let s1 := { s with grp := { s.grp with members := m, leadPos := pos, heard := tput s.grp.heard pos s.now } }
    let sb := electStandby s1 m pos
    { s1 with grp := { s1.grp with
      stbyPos := sb, role := if sb = some (ownPos s) then 2 else 3,
      slots := if sb = some (ownPos s) then [] else s1.grp.slots } }
  else s

/-- TAKEOVER_FRAME (R569, R572). -/
def execTakeoverFrame (p : Fin 2) (seq : Byte) (pos : Fin 4) (s : State) : Host.Outcome State Fault Refusal :=
  .next (receive s p seq (fun s => takenOver s pos))

/-- QUIESCE_FRAME (R578): heartbeat supervision is suspended, the ports power down and the member enters STANDBY. -/
def execQuiesceFrame (p : Fin 2) (seq : Byte) (s : State) : Host.Outcome State Fault Refusal :=
  .next (receive s p seq (fun s => if member s then
      orderPower (portState (portState { s with grp := { s.grp with quiesced := true } } 0 .down) 1 .down) 2
    else s))

end Sys2Proof.Machine
end

