-- ==== Sys2Proof/Machine/Jtag.lean ====
section
/-! DEFINITION. The JTAG port: the TAP controller, its instruction register and its data registers (IEEE 1149.1, R675, R689,
R690). -/

namespace Sys2Proof.Machine

open Sys2Proof

/-- The TAP controller's next state at a rising edge of TCK (IEEE 1149.1). -/
def tapNext (t : Tap) (tms : Bool) : Tap :=
  match t, tms with
  | .reset, true => .reset
  | .reset, false => .idle
  | .idle, true => .selDr
  | .idle, false => .idle
  | .selDr, true => .selIr
  | .selDr, false => .capDr
  | .capDr, true => .ex1Dr
  | .capDr, false => .shDr
  | .shDr, true => .ex1Dr
  | .shDr, false => .shDr
  | .ex1Dr, true => .updDr
  | .ex1Dr, false => .pauDr
  | .pauDr, true => .ex2Dr
  | .pauDr, false => .pauDr
  | .ex2Dr, true => .updDr
  | .ex2Dr, false => .shDr
  | .updDr, true => .selDr
  | .updDr, false => .idle
  | .selIr, true => .reset
  | .selIr, false => .capIr
  | .capIr, true => .ex1Ir
  | .capIr, false => .shIr
  | .shIr, true => .ex1Ir
  | .shIr, false => .shIr
  | .ex1Ir, true => .updIr
  | .ex1Ir, false => .pauIr
  | .pauIr, true => .ex2Ir
  | .pauIr, false => .pauIr
  | .ex2Ir, true => .updIr
  | .ex2Ir, false => .shIr
  | .updIr, true => .selDr
  | .updIr, false => .idle

/-- EXTEST and SAMPLE/PRELOAD select the boundary register (R689). -/
def Jtag.boundary (j : Jtag) : Bool := j.ir == 0x00 || j.ir == 0x01

/-- The data register that Capture-DR loads, next bit out first: the pins, the device identifier, or the bypass bit (R689,
R690). -/
def Jtag.capture (j : Jtag) (pins : List Bool) : List Bool :=
  if j.boundary then pins
  else if j.ir == 0x02 then (List.range 32).map (fun i => Config.deviceId.getLsbD i)
  else [false]

/-- What Capture-IR loads: the two low bits are 01 (IEEE 1149.1); the manual states no others. -/
def captureIr (n : Nat) : BitVec 8 := (Config.irCapture n &&& 0xFC) ||| 0x01

/-- The action of the present state at a rising edge of TCK. -/
def Jtag.act (j : Jtag) (n : Nat) (tdi : Bool) (pins : List Bool) : Jtag :=
  match j.tap with
  | .capDr => { j with dr := j.capture pins }
  | .shDr => { j with dr := j.dr.drop 1 ++ [tdi] }
  | .capIr => { j with irSh := captureIr n }
  | .shIr => { j with irSh := (j.irSh >>> 1) ||| (if tdi then 0x80 else 0) }
  | _ => j

/-- A rising edge of TCK: the state's action, then the next state; Test-Logic-Reset selects IDCODE (R689). -/
def Jtag.rise (j : Jtag) (n : Nat) (tms tdi : Bool) (pins : List Bool) : Jtag :=
  let k := j.act n tdi pins
  let t := tapNext j.tap tms
  { k with tap := t, tck := true, ir := if t = .reset then 0x02 else k.ir }

/-- A falling edge of TCK: the update of a register, and TDO. -/
def Jtag.fall (j : Jtag) : Jtag :=
  let k := { j with tck := false }
  match j.tap with
  | .updDr => if j.boundary then { k with upd := j.dr } else k
  | .updIr => { k with ir := j.irSh }
  | .shDr => { k with tdo := (j.dr.head?).getD false }
  | .shIr => { k with tdo := j.irSh.getLsbD 0 }
  | _ => k

/-- JTAG_TCK_EDGE (R689, R690): an edge of TCK, with the levels of TMS and TDI and of the pins of the boundary register. -/
def execJtagTckEdge (rise tms tdi : Bool) (pins : List Bool) (s : State) : Host.Outcome State Fault Refusal :=
  .next (if rise = s.jtag.tck then s
    else if rise then
      let s1 := { s with jtag := s.jtag.rise s.free tms tdi pins }
      if s.jtag.tap = .capIr then { s1 with free := s.free + 1 } else s1
    else { s with jtag := s.jtag.fall })

/-- TRST_N_ASSERT (R689): TRST_N low resets the TAP to IDCODE. -/
def execTrstNAssert (s : State) : Host.Outcome State Fault Refusal :=
  .next { s with jtag := { s.jtag with tap := .reset, ir := 0x02 } }

end Sys2Proof.Machine
end

