-- ==== Sys2Proof/Machine/ProgImage.lean ====
section
/-! DEFINITION. Frame program images: their checks, the place of their code and their counts (R101, R220, R227, R274, R377,
R479, R507 to R510). -/

namespace Sys2Proof.Machine

open Sys2Proof

/-- MAGIC of a frame program image (R507). -/
def fpMagic : List Byte := [0x46, 0x50, 0x52, 0x47]

/-- A field of the 64-byte descriptor (R508). -/
def desc (im : List Byte) (off n : Nat) : Nat := entryNat im (96 + off) n

/-- CLEN: code bytes. -/
def fpClen (im : List Byte) : Nat := desc im 0 4

/-- NMAC: macro table entries. -/
def fpNmac (im : List Byte) : Nat := desc im 4 2

/-- `n` 32-bit words of a byte string. -/
def wordsOf : Nat → List Byte → List Word
  | 0, _ => []
  | n + 1, b => BitVec.ofNat 32 (leNat (b.take 4)) :: wordsOf n (b.drop 4)

/-- The handler code of an image as words. -/
def fpCode (im : List Byte) : List Word := wordsOf (fpClen im / 4) ((im.drop 160).take (fpClen im))

/-- The macro table of an image: words and COUNTs. -/
def fpTable (im : List Byte) : List (Word × Nat) :=
  (List.range (fpNmac im)).map (fun j =>
    let o := 160 + fpClen im + 8 * j
    (BitVec.ofNat 32 (entryNat im o 4), entryNat im (o + 4) 4))

/-- EVENTRY, `none` without an event routine. -/
def fpEventry (im : List Byte) : Option Nat := if desc im 16 4 = 0xFFFFFFFF then none else some (desc im 16 4)

/-- The code spans of the partition's other loaded programs (R509). -/
def otherCode (s : State) (fp : Nat) : List (Nat × Nat) :=
  (fpNums.filter (fun k => decide (fpPart k = fpPart fp) && decide (k ≠ fp) && (prog s k).loaded)).map (fun k =>
    ((prog s k).codeAt, (prog s k).codeLen))

/-- The span at `a` of `n` bytes lies in an area of `size` bytes, clear of the spans given. -/
def spanFree (size : Nat) (used : List (Nat × Nat)) (n a : Nat) : Bool :=
  decide (a + n ≤ size) && used.all (fun u : Nat × Nat => decide (a + n ≤ u.1) || decide (u.1 + u.2 ≤ a))

/-- Lowest of a list of places. -/
def minPlace (l : List Nat) : Option Nat := l.foldl (fun m a => match m with | some b => some (min a b) | none => some a) none

/-- The lowest offset at which the code lies clear of the partition's other programs (R509). -/
def codePlace (s : State) (fp clen : Nat) : Option Nat :=
  let used := otherCode s fp
  minPlace ((0 :: used.map (fun u : Nat × Nat => u.1 + u.2)).filter (fun a => spanFree (codeArea s (fpPart fp)).2 used clen a))

/-- An offset names an instruction of the code. -/
def entryIn (im : List Byte) (a : Nat) : Bool := decide (a % 4 = 0) && decide (a < fpClen im)

/-- Offending header fields. -/
def fpBadHeader (im : List Byte) : List (Nat × Bool) :=
  badIf (decide (entryNat im 0x16 2 ≠ 0)) 0x16 false ++ badIf (decide (2 ≤ entryNat im 0x1C 2)) 0x1C false ++
    badIf (decide (entryNat im 0x1E 2 ≠ 0)) 0x1E false ++ badIf (decide (entryNat im 0x24 4 ≠ 0)) 0x24 false ++
    badIf (decide (entryNat im 0x48 20 ≠ 0)) 0x48 false

/-- Offending descriptor fields (R508, R510). -/
def fpBadDesc (s : State) (fp : Nat) (im : List Byte) : List (Nat × Bool) :=
  let sb := desc im 6 1
  let n := desc im 7 1
  let r := nth (0, 0) (ranges s 0x0420) (fpPart fp)
  let rout := (fpEventry im).isSome
  badIf (decide (64 < sb + n) || (decide (n ≠ 0) && !(decide (r.1 ≤ sb) && decide (sb + n ≤ r.1 + r.2)))) 102 true ++
    badIf (decide (desc im 8 1 = 0)) 104 true ++
    badIf (decide (64 < desc im 9 1) || (!rout && decide (desc im 9 1 ≠ 0))) 105 true ++
    badIf (decide (desc im 10 2 ≠ 0)) 106 false ++ badIf (!entryIn im (desc im 12 4)) 108 true ++
    badIf (match fpEventry im with
      | some a => !entryIn im a
      | none => false) 112 true ++
    badIf (!rout && decide (desc im 20 4 ≠ 0)) 116 true ++ badIf (decide (desc im 36 28 ≠ 0)) 132 false

/-- The first undefined encoding of the code. -/
def fpBadCode (im : List Byte) : List (Nat × Bool) :=
  match badCode (fpCode im) (fpClen im) 0 with
  | some a => [(160 + a, false)]
  | none => []

/-- A table word fails the issue checks of reasons 1 to 5: reserved, or invalid for UNBOUND and WIDTH (R237, R510). -/
def tableBad (img : Option TopImg) (w : Word) : Option Bool :=
  match wordInfo false img w with
  | .error 3 => some true
  | .error _ => some false
  | .ok i => if !i.ok then some false else if !i.wok then some true else none

/-- Offending entries of the macro table. -/
def fpBadTable (s : State) (fp : Nat) (im : List Byte) : List (Nat × Bool) :=
  ((fpTable im).zipIdx).flatMap (fun e : (Word × Nat) × Nat =>
    let o := 160 + fpClen im + 8 * e.2
    (match tableBad (tfind s.arr.top (fpPart fp)) e.1.1 with
     | some v => [(o, v)]
     | none => []) ++ badIf (decide (e.1.2 = 0)) (o + 4) true)

/-- The program that an image describes, its code at `at_` (R101, R274, R377, R509). -/
def fpProg (s : State) (fp : Nat) (im : List Byte) (at_ : Nat) : Option Prog :=
  let img := tfind s.arr.top (fpPart fp)
  let h := desc im 24 4
  let v := desc im 20 4
  reprice img { progNone with
    loaded := true, prio := (prog s fp).prio, sbase := desc im 6 1, sbands := desc im 7 1, bands := desc im 8 1,
    evmax := desc im 9 1, hentry := desc im 12 4, eventry := fpEventry im, v := v, h := h,
    iCnt := intAllow (desc im 9 1) v h, codeAt := at_, codeLen := fpClen im, table := fpTable im }

/-- Row 7 of R510: the test that fails. -/
def fpAdmit (s : State) (im : List Byte) (p : Prog) : Option Nat :=
  let code := fpCode im
  let hBad := !countFits code (desc im 12 4) 1 (desc im 24 4)
  let vBad : Bool := match fpEventry im with
    | some a => !countFits code a 7 (desc im 20 4)
    | none => false
  let kf : Bool := match fpEventry im with
    | some a => namesKF code a
    | none => false
  if hBad ∨ vBad ∨ p.ck ≠ desc im 28 4 ∨ p.ckg ≠ desc im 32 4 then some 2
  else if kf then some 7
  else if s.arr.bistFail then some 5
  else none

/-- The check of a frame program image: the program, or the status and DETAIL of the first row that fails (R510). -/
def fpCheck (s : State) (fp : Nat) (im : List Byte) : Except (Nat × Nat) Prog :=
  let plen := entryNat im 0x18 4
  let signed := decide (entryNat im 0x1C 2 % 2 = 1)
  let c := fpClen im
  let n := fpNmac im
  if !headerOk im fpMagic then .error (0x32, 1)
  else if tupleFail s .program im ≠ 0 then .error (0x31, tupleFail s .program im)
  else if !(decide (c % 4 = 0) && decide (4 ≤ c) && decide (1 ≤ n) && decide (n ≤ 1024) && decide (plen = 64 + c + 8 * n) &&
      decide (im.length = imageLen signed plen)) then .error (0x12, 0x10004)
  else if !pcrcOk im 0x20 plen then .error (0x32, 2)
  else if !digestOk im plen then .error (0x32, 3)
  else if !authOk s im signed plen then .error (0x32, 4)
  else
    match codePlace s fp c with
    | none => .error (0x14, 0xFD)
    | some at_ =>
      match fpBadHeader im ++ fpBadDesc s fp im ++ fpBadCode im ++ fpBadTable s fp im with
      | b :: _ => .error (0x11, imgDetail b.1 b.2)
      | [] =>
        match fpProg s fp im at_ with
        | none => .error (0x18, fp + 16 * 3)
        | some p =>
          match fpAdmit s im p with
          | some t => .error (0x18, fp + 16 * t)
          | none => .ok p

/-- The completion body of FP_LOAD (R479). -/
def fpBody (p : Prog) : List Byte :=
  [p.ck, p.ckg, p.mSolo, p.xSolo, p.h, p.iCnt, p.mGrp, p.xGrp].flatMap (fun v => leBytes 4 v)

/-- The image of an FP_LOAD has arrived (R479, R510): FPk is loaded and disabled, or the load is refused. -/
def fpLoadEnd (s : State) (o : Order) (fp : Nat) (im : List Byte) : State :=
  if fpBusy s fp then finish s o 0x16 2 []
  else
    match fpCheck s fp im with
    | .error (st, d) =>
      finish (if st = 0x11 ∧ d / 65536 % 2 = 0 then reservedField s ((d % 65536 + d / 2 ^ 18 % 16 * 65536) % 65536) 2 else s)
        o st d []
    | .ok p =>
      let s1 := fillMem (setProg s fp p) ((codeArea s (fpPart fp)).1 + p.codeAt) ((im.drop 160).take p.codeLen)
      finish s1 o 0x00 0 (fpBody p)

end Sys2Proof.Machine
end

