-- ==== Sys2Proof/Machine/Messages.lean ====
section
/-! DEFINITION. The message layer: the packets of an open message and what its end does (R434, R465 to R469, R479, R484, R485,
R489, R500). -/

namespace Sys2Proof.Machine

open Sys2Proof

/-- The message that a packet addresses: slot MID of partition PART (R466). -/
def msgOf (s : State) (a : Word) : Option (Nat × Msg) :=
  match tfind s.prt.msgs (fld a 24 2) with
  | some m => if m.ord.part = fld a 28 2 then some (fld a 24 2, m) else none
  | none => none

/-- OFFSET of a message packet. -/
def msgOffset (a : Word) : Nat := fld a 0 21

/-- The code of R469 that an MSG_WRITE of `len` bytes breaks, 0 for none. A LEN of 0 on an output message closes it. -/
def msgWriteErr (m : Msg) (off len : Nat) : Nat :=
  if m.src = .input then
    (if off ≠ m.got then 9 else if m.len < off + len then 11 else if len % 4 ≠ 0 ∨ len < 4 then 12 else 0)
  else if len ≠ 0 then 10
  else if off ≠ m.len then 11
  else 0

/-- The code of R469 that an MSG_READ breaks, 0 for none. -/
def msgReadErr (m : Msg) (off len : Nat) : Nat :=
  if m.src = .input then 10 else if m.len < off + len then 11 else if off % 4 ≠ 0 ∨ len % 4 ≠ 0 ∨ len < 4 then 12 else 0

/-- The message cannot take bytes now: its flash command does not run yet (R434, R467, R498). -/
def msgBusy (s : State) (m : Msg) : Bool :=
  decide (m.ord.opcode = 0x0801) && !(match s.boot.op with
    | some op => op.ord.stamp == m.ord.stamp
    | none => false)

/-- An input message has ended with `data` (R467): what its command does with it. -/
def msgEnd (s : State) (m : Msg) (data : List Byte) : State :=
  let o := m.ord
  if o.opcode = 0x0200 then fpLoadEnd s o m.p0 data
  else if o.opcode = 0x0301 then
    (if m.p0 = 0 then
      addChange s { unit := .free, mbx := o.mbx, stamp := o.stamp, kind := .keeper o.part m.p1 data, ord := some o }
    else finish s o 0 0 [])
  else if o.opcode = 0x0400 then { s with hdg := { s.hdg with loadImg := data } }
  else if o.opcode = 0x0500 then { s with arr := { s.arr with topVer := tput s.arr.topVer m.p0 data } }
  else s

/-- What bytes do as they arrive: exchange data are stored, flash data are programmed (R484, R500). -/
def msgBytes (s : State) (m : Msg) (data : List Byte) : State :=
  if m.ord.opcode = 0x0301 ∧ m.p0 ≠ 0 then fillMem s ((xchArea s m.ord.part).1 + m.p1 + m.got) data
  else if m.ord.opcode = 0x0801 then programData s m.got data
  else s

/-- An input packet is taken (R467). -/
def msgTake (s : State) (i : Nat) (m : Msg) (data : List Byte) : State :=
  let all := m.data ++ data
  let got := m.got + data.length
  let m1 := { m with got := got, data := all, done := decide (m.len ≤ got) }
  let s1 := msgBytes { s with prt := { s.prt with msgs := tput s.prt.msgs i m1 } } m data
  if m1.done then msgEnd s1 m1 all else s1

/-- An output message is closed: its command posts OK (R468, R487). -/
def msgClose (s : State) (m : Msg) : State :=
  finish (if m.ord.opcode = 0x0402 ∧ m.p0 % 2 = 1 then capDiscard s else s) m.ord 0 0 []

/-- Bytes `off` to `off + n - 1` of an output message, as they stand (R468, R483, R492). -/
def msgData (s : State) (m : Msg) (off n : Nat) : List Byte :=
  match m.src with
  | .input => []
  | .area a => rdBytes s (a + off) n
  | .fixed d => (d.drop off).take n
  | .flash a => flashBytes s (a + off) n
  | .capRam => wordBytes (tgets 0 s.hdg.capRam (off / 4) (n / 4))
  | .trace p first => ((traceBytes s p (first + off / 8) (n / 8 + 2)).drop (off % 8)).take n

end Sys2Proof.Machine
end

