-- ==== Sys2Proof/Machine/LinkPort.lean ====
section
/-! DEFINITION. The Quad SPI port: the packets of the link layer, their acceptance, their effect and the status word (R412 to
R438, R555, R572, R640). -/

namespace Sys2Proof.Machine

open Sys2Proof

/-- One byte through the CRC-8 of polynomial 0x07 (R445). -/
def crc8Step (c b : Byte) : Byte :=
  (List.range 8).foldl (fun (x : Byte) _ => if x.getLsbD 7 then (x <<< 1) ^^^ 0x07 else x <<< 1) (c ^^^ b)

/-- The CRC-8 of a byte string (R445). -/
def crc8 (bs : List Byte) : Byte := bs.foldl crc8Step 0

/-- The condition that asserts IRQ_N, whatever LNK_HCFG.IRQEN (R422, R436). -/
def irqCond (s : State) : Bool :=
  (List.range 4).any (fun p => bit (rd s (0x0A60 + 4 * p)) 8 && decide (rqCount s p ≠ 0))

/-- IRQ_N is asserted (R436, R437). -/
def irqLow (s : State) : Bool :=
  s.boot.ports && !s.boot.inReset && decide (s.pwr.st ≠ 2) && bit (rd s 0x0B00) 2 && irqCond s

/-- The status word for the result given (R422, R423, R445). -/
def statusWord (s : State) (res errc : Nat) : Word :=
  let rq := ((List.range 4).map (fun p => if rqCount s p = 0 then 0 else 2 ^ (17 + p))).sum
  let sticky := decide (rd s 0x0E00 ≠ 0) || decide (rd s 0x0E04 ≠ 0)
  let w := BitVec.ofNat 32 (s.lnk.next.toNat + res * 2 ^ 8 + errc * 2 ^ 11 + rq) ||| flag (irqCond s) 16 |||
    flag s.boot.ready 21 ||| flag (safeMode s) 22 ||| flag sticky 23
  w ||| place (crc8 (leBytes 3 w.toNat)).toNat 24

/-- The port answers transactions (R438). -/
def portOn (s : State) : Bool := s.boot.ports && !s.boot.inReset && decide (s.pwr.st ≠ 2)

/-- The bytes of a header with its TYPE (R419). -/
def hdrBytes (typ : Nat) (h : LinkHdr) : List Byte :=
  [BitVec.ofNat 8 typ, h.seq, h.part, h.r3] ++ leBytes 4 h.addr.toNat ++ leBytes 2 h.len.toNat ++ leBytes 2 h.r10.toNat

/-- The partition to which a packet's HLNK entry goes (R587). -/
def linkPart (typ : Nat) (h : LinkHdr) (crcOk : Bool) : Nat :=
  let a := h.addr.toNat
  if !crcOk then 0
  else if typ ≤ 2 then (if 0x20000000 ≤ a ∧ a < 0x20020000 then (a - 0x20000000) / 0x8000 else 0)
  else if typ ≤ 4 then h.part.toNat % 4
  else fld h.addr 28 2

/-- The end of a transaction: the flags and counts of its result, the HLNK entry, the status word and the response
(R422 to R426, R435, R448, R587). -/
def linkEnd (s : State) (typ : Nat) (h : LinkHdr) (q res errc : Nat) (resp : List Byte) : State :=
  let s1 := if res = 1 then setFlag s 0x0B08 0 else if res = 2 then setFlag s 0x0B08 1 else if res = 3 then setFlag s 0x0B08 2
    else if res = 4 then setFlag s 0x0B08 4 else s
  let n := rd s1 0x0B10
  let s2 := if res = 1 then wr s1 0x0B10 (setFld n 0 16 (satAdd 0xFFFF (fld n 0 16) 1))
    else if res = 2 ∨ res = 3 then wr s1 0x0B10 (setFld n 16 16 (satAdd 0xFFFF (fld n 16 16) 1))
    else s1
  let s3 := traceLink s2 q h.seq.toNat res errc typ h.len.toNat
  let w := statusWord s3 res errc
  let out := if resp.isEmpty then [] else resp ++ leBytes 4 (crc32 (leBytes 4 w.toNat ++ resp)).toNat
  { s3 with lnk := { s3.lnk with stat := w, resp := out } }

/-- What the execution of a packet gives: a new state and response bytes, an error code with the offending header offset, or
a buffer that is not ready. -/
inductive PktRes where
  | done (s : State) (resp : List Byte)
  | err (code at_ : Nat)
  | busy

/-- Offset of the first reserved header field that is not 0 (R419, R426, R430, R431, R466). -/
def hdrReserved (typ : Nat) (h : LinkHdr) : Option Nat :=
  if 4 ≤ h.part.toNat ∨ (typ ≤ 2 ∧ h.part ≠ 0) then some 2
  else if h.r3 ≠ 0 then some 3
  else if 5 ≤ typ ∧ h.addr &&& 0xCCE00000 ≠ 0 then some 4
  else if h.r10 ≠ 0 then some 10
  else none

/-- RING_WRITE (R430). -/
def ringWriteDo (s : State) (h : LinkHdr) (data : List Byte) : PktRes :=
  let a := h.addr.toNat
  let n := h.len.toNat
  let p := (a - 0x20000000) / 0x8000
  let i := (a - 0x20000000) % 0x8000 / 64
  let d := sqDepth s p
  let owned := (List.range (sqCount s p)).map (fun k => (tget 0 s.prt.sqHead p + k) % d)
  if a % 64 ≠ 0 ∨ n % 64 ≠ 0 ∨ n < 64 then .err 2 4
  else if a < 0x20000000 ∨ 0x20020000 ≤ a ∨ d < i + n / 64 then .err 3 4
  else if (List.range (n / 64)).any (fun k => owned.contains (i + k)) then .err 4 4
  else .done (fillMem s a data) []

/-- RING_READ (R431). -/
def ringReadDo (s : State) (h : LinkHdr) : PktRes :=
  let a := h.addr.toNat
  let n := h.len.toNat
  if a % 4 ≠ 0 ∨ n % 4 ≠ 0 ∨ n < 4 then .err 2 4
  else if a < 0x20000000 ∨ 0x20020000 ≤ a ∨ 0x4000 < a % 0x4000 + n then .err 3 4
  else .done s (rdBytes s a n)

/-- REG_WRITE of the link (R433, R555): the ring pointers of PART, and the controls of the port itself. -/
def regWriteDo (s : State) (h : LinkHdr) (data : List Byte) : PktRes :=
  let a := h.addr.toNat
  let p := h.part.toNat
  if a % 4 ≠ 0 ∨ h.len.toNat ≠ 4 then .err 2 4
  else if a = 0x0A88 + 16 * p ∨ (!member s && (decide (a = 0x0A84 + 16 * p) || (decide (p = 0) && (decide (a = 0x0B00) || decide (a = 0x0B08))))) then
    .done (regWrite s false s.prt.stamp a (BitVec.ofNat 32 (leNat data))) []
  else .err 5 4

/-- REG_READ of the link (R432, R713). -/
def regReadDo (s : State) (h : LinkHdr) : PktRes :=
  let a := h.addr.toNat
  let n := h.len.toNat
  if !hasRight s h.part.toNat 4 then .err 6 2
  else if a % 4 ≠ 0 ∨ n % 4 ≠ 0 ∨ n < 4 ∨ 256 < n then .err 2 4
  else if 0x10000 < a + n then .err 3 4
  else
    let r := regReads h.part.toNat (n / 4) a s
    .done r.1 (wordBytes r.2)

/-- MSG_WRITE (R434, R466 to R469). -/
def msgWriteDo (s : State) (h : LinkHdr) (data : List Byte) : PktRes :=
  match msgOf s h.addr with
  | none => .err 8 4
  | some (i, m) =>
    let e := msgWriteErr m (msgOffset h.addr) h.len.toNat
    if e ≠ 0 then .err e 4
    else if msgBusy s m then .busy
    else if m.src = .input then .done (msgTake s i m data) []
    else .done (msgClose s m) []

/-- MSG_READ (R434, R466 to R469). -/
def msgReadDo (s : State) (h : LinkHdr) : PktRes :=
  match msgOf s h.addr with
  | none => .err 8 4
  | some (_, m) =>
    let e := msgReadErr m (msgOffset h.addr) h.len.toNat
    if e ≠ 0 then .err e 4 else .done s (msgData s m (msgOffset h.addr) h.len.toNat)

/-- What an accepted packet does. A group member that does not lead, and a retired leader, deny the packets that they do not
execute (R555, R572). -/
def packetDo (s : State) (typ : Nat) (h : LinkHdr) (data : List Byte) : PktRes :=
  match hdrReserved typ h with
  | some o => .err 1 o
  | none =>
    if s.grp.retired ∧ typ ≠ 2 ∧ typ ≠ 4 then .err 5 0
    else if member s ∧ (typ = 1 ∨ typ = 5) then .err 5 0
    else
      match typ with
      | 1 => ringWriteDo s h data
      | 2 => ringReadDo s h
      | 3 => regWriteDo s h data
      | 4 => regReadDo s h
      | 5 => msgWriteDo s h data
      | _ => msgReadDo s h

/-- A packet is accepted: it consumes its sequence number (R424). -/
def consume (s : State) : State :=
  wr { s with lnk := { s.lnk with next := s.lnk.next + 1 } } 0x0B0C (rd s 0x0B0C + 1)

/-- A packet whose SEQ is expected (R424 to R427). -/
def acceptPacket (s : State) (typ : Nat) (h : LinkHdr) (q : Nat) (read : Bool) (data : List Byte) : State :=
  if s.lnk.used = 2 ∨ (read ∧ s.lnk.used ≠ 0) then linkEnd s typ h q 3 0 []
  else
    match packetDo s typ h data with
    | .busy => linkEnd s typ h q 3 0 []
    | .err code o => linkEnd (consume (if code = 1 then reservedField s o 3 else s)) typ h q 4 code []
    | .done t resp =>
      let t1 := consume t
      linkEnd (if read then t1 else { t1 with lnk := { t1.lnk with used := t1.lnk.used + 1 } }) typ h q 0 0 resp

/-- A packet that was accepted before: a write is not executed again, a read is (R424, R435). The response of a repeated read
that breaks a rule of its type is open. -/
def repeatPacket (s : State) (typ : Nat) (h : LinkHdr) (q : Nat) (read : Bool) : State :=
  if !read then linkEnd s typ h q 6 0 []
  else
    match packetDo s typ h [] with
    | .done t resp => linkEnd t typ h q 6 0 resp
    | _ => linkEnd (useFree s) typ h q 6 0 ((List.range h.len.toNat).map (fun i => Config.dupByte s.free i))

/-- A packet with its CRC as received (R417, R419 to R426, R438, R640). `data` are the bytes between header and CRC. -/
def linkPacket (s : State) (typ : Nat) (h : LinkHdr) (read : Bool) (data : List Byte) (crc : Word) : State :=
  let n := if read then 0 else h.len.toNat
  if !portOn s then s
  else if 4096 < h.len.toNat then setFlag s 0x0B08 6
  else if data.length < n then setFlag s 0x0B08 3
  else
    let body := data.take n
    let got := (data.drop n ++ leBytes 4 crc.toNat).take 4
    let ok := decide (got = leBytes 4 (crc32 (hdrBytes typ h ++ body)).toNat)
    let q := linkPart typ h ok
    if !s.boot.ready then linkEnd s typ h q 3 0 []
    else if !ok then linkEnd s typ h q 1 0 []
    else if h.seq = s.lnk.next then acceptPacket s typ h q read body
    else if 1 ≤ (s.lnk.next - h.seq).toNat ∧ (s.lnk.next - h.seq).toNat ≤ 8 then repeatPacket s typ h q read
    else linkEnd s typ h q 2 0 []

/-- RING_WRITE (R430). -/
def execRingWrite (h : LinkHdr) (data : List Byte) (crc : Word) (s : State) : Host.Outcome State Fault Refusal :=
  .next (linkPacket s 1 h false data crc)

/-- RING_READ (R431). -/
def execRingRead (h : LinkHdr) (crc : Word) (s : State) : Host.Outcome State Fault Refusal := .next (linkPacket s 2 h true [] crc)

/-- The link's REG_WRITE (R433). -/
def execLinkRegWrite (h : LinkHdr) (data : List Byte) (crc : Word) (s : State) : Host.Outcome State Fault Refusal :=
  .next (linkPacket s 3 h false data crc)

/-- The link's REG_READ (R432). -/
def execLinkRegRead (h : LinkHdr) (crc : Word) (s : State) : Host.Outcome State Fault Refusal :=
  .next (linkPacket s 4 h true [] crc)

/-- MSG_WRITE (R434, R467). -/
def execMsgWrite (h : LinkHdr) (data : List Byte) (crc : Word) (s : State) : Host.Outcome State Fault Refusal :=
  .next (linkPacket s 5 h false data crc)

/-- MSG_READ (R434, R468). -/
def execMsgRead (h : LinkHdr) (crc : Word) (s : State) : Host.Outcome State Fault Refusal := .next (linkPacket s 6 h true [] crc)

/-- The header of a transaction without one. -/
def noHdr : LinkHdr := { seq := 0, part := 0, r3 := 0, addr := 0, len := 0, r10 := 0 }

/-- STATUS (R418, R423, R587). -/
def execStatus (s : State) : Host.Outcome State Fault Refusal :=
  .next (if portOn s then linkEnd s 0x0F noHdr 0 5 0 [] else s)

/-- LINK_RESET (R415): QUAD is 0, LRESET is set, NEXT is kept. -/
def execLinkReset (s : State) : Host.Outcome State Fault Refusal :=
  .next (if portOn s then
      let s1 := clrReg s 0x0B00 1
      setFlag { s1 with lnk := { s1.lnk with quad := false } } 0x0B08 5
    else s)

/-- BAD_TYPE_TRANSACTION (R418, R421). -/
def execBadTypeTransaction (s : State) : Host.Outcome State Fault Refusal :=
  .next (if portOn s then setFlag s 0x0B08 6 else s)

/-- TRANSACTION_TRUNCATED (R417). -/
def execTransactionTruncated (s : State) : Host.Outcome State Fault Refusal :=
  .next (if portOn s then setFlag s 0x0B08 3 else s)

/-- WRITE_COMMIT_DONE (R427): the oldest receive buffer is free again. -/
def execWriteCommitDone (s : State) : Host.Outcome State Fault Refusal :=
  .next { s with lnk := { s.lnk with used := s.lnk.used - 1 } }

/-- QUAD_MODE_SWITCH (R414): HQ_CS_N falls, and the mode written is in force. -/
def execQuadModeSwitch (s : State) : Host.Outcome State Fault Refusal :=
  .next (if portOn s then { s with lnk := { s.lnk with quad := bit (rd s 0x0B00) 0 } } else s)

end Sys2Proof.Machine
end

