-- ==== Sys2Proof/Machine/Mailbox.lean ====
section
/-! DEFINITION. The I2C management port and its mailbox window (R400, R439 to R447, R523, R640). -/

namespace Sys2Proof.Machine

open Sys2Proof

/-- The port acknowledges its address (R439). -/
def i2cOn (s : State) : Bool := s.boot.ports && !s.boot.inReset

/-- The address byte of a transfer; `r` for a read (R439). -/
def i2cAddr (s : State) (r : Nat) : Byte := BitVec.ofNat 8 (2 * (0x38 + s.boot.straps.toNat % 4) + r)

/-- A START: the PEC setting written takes effect (R445). -/
def i2cStart (s : State) : State := { s with lnk := { s.lnk with pecOn := s.lnk.pecWr } }

/-- The region of the window that offset `off` lies in: its first offset and its size (R442). -/
def winRegion (off : Nat) : Option (Nat × Nat) :=
  [(0x00, 64), (0x40, 4), (0x44, 4), (0x48, 4), (0x4C, 1), (0x80, 64)].find? (fun r : Nat × Nat =>
    decide (r.1 ≤ off) && decide (off < r.1 + r.2))

/-- A span of the window stays in the region in which it starts. -/
def winSpan (off n : Nat) : Bool :=
  match winRegion off with
  | some r => decide (off + n ≤ r.1 + r.2)
  | none => false

/-- MCTRL written: GO and RELEASE (R446, R523, R640). Both are judged on the state before the write. -/
def mctrlWrite (s : State) (v : Word) : State :=
  let s0 := if v &&& 0xFFFFFFFC ≠ 0 then reservedField s 0x40 0 else s
  let go := bit v 0 && s.prt.mbx == .idle && s.boot.ready
  let rel := bit v 1 && s.prt.mbx == .ready
  let n := s.prt.stamp
  let s1 := if (bit v 0 && !go) || (bit v 1 && !rel) then setFlag s0 0x0B28 2 else s0
  let s2 := if rel then { s1 with prt := { s1.prt with mbx := .idle } } else s1
  if go then
    raiseInt { s2 with prt := { s2.prt with
      mbx := .dispatched, mbxStamp := n, stamp := (n + 1) % 2 ^ 32,
      subs := s2.prt.subs ++ [({ part := 0, mbx := true, idx := 0, stamp := n } : Sub)] } } 21
  else s2

/-- MCFG written: the PEC setting from the next START (R445). -/
def mcfgWrite (s : State) (v : Word) : State :=
  let s1 := if v &&& 0xFFFFFFFE ≠ 0 then reservedField s 0x4C 0 else s
  { s1 with lnk := { s1.lnk with pecWr := bit v 0 } }

/-- A write transfer, applied at its STOP as a whole or not at all (R443). -/
def i2cWrite (s0 : State) (off : Nat) (data : List Byte) (pec : Byte) : State :=
  let s := i2cStart s0
  if !i2cOn s0 then s0
  else if s.lnk.pecOn ∧ pec ≠ crc8 ([i2cAddr s 0, BitVec.ofNat 8 off] ++ data) then setFlag s 0x0B28 0
  else if data.isEmpty ∨ 64 < data.length ∨ !winSpan off data.length then setFlag s 0x0B28 1
  else if off < 0x40 then
    (if s.prt.mbx = .idle then { s with prt := { s.prt with mbxCmd := tsets 0 s.prt.mbxCmd off data } }
    else setFlag s 0x0B28 2)
  else if off < 0x44 then mctrlWrite s (BitVec.ofNat 32 (leNat data * 2 ^ (8 * (off - 0x40))))
  else if off = 0x4C then mcfgWrite s (BitVec.ofNat 32 (leNat data))
  else setFlag s 0x0B28 1

/-- MAILBOX_CMD_WRITE (R443): a write transfer that starts in the CMD region. -/
def execMailboxCmdWrite (off : Fin 64) (data : List Byte) (pec : Byte) (s : State) : Host.Outcome State Fault Refusal :=
  .next (i2cWrite s off data pec)

/-- MAILBOX_GO (R443, R446): a write transfer to MCTRL. -/
def execMailboxGo (data : List Byte) (pec : Byte) (s : State) : Host.Outcome State Fault Refusal :=
  .next (i2cWrite s 0x40 data pec)

/-- MAILBOX_RELEASE (R443, R446): a write transfer to MCTRL. -/
def execMailboxRelease (data : List Byte) (pec : Byte) (s : State) : Host.Outcome State Fault Refusal :=
  .next (i2cWrite s 0x40 data pec)

/-- MAILBOX_PEC_SET (R443, R445): a write transfer to MCFG. -/
def execMailboxPecSet (v pec : Byte) (s : State) : Host.Outcome State Fault Refusal := .next (i2cWrite s 0x4C [v] pec)

/-- MSTAT (R442). -/
def mstat (s : State) : Word :=
  let sticky := decide (rd s 0x0E00 ≠ 0) || decide (rd s 0x0E04 ≠ 0)
  place (mbxCode s.prt.mbx) 0 ||| flag s.lnk.pecOn 2 ||| flag s.boot.ready 3 ||| flag (safeMode s) 4 |||
    flag (decide (s.pwr.st = 2)) 5 ||| flag sticky 6 ||| place (s.prt.mbxStamp % 65536) 16

/-- The byte of the window at an offset of a readable region (R442). -/
def winByte (s : State) (off : Nat) : Byte :=
  let byte := fun (w : Word) (i : Nat) => BitVec.ofNat 8 (w.toNat / 2 ^ (8 * i))
  if off < 0x40 then tget 0 s.prt.mbxCmd off
  else if off < 0x44 then 0
  else if off < 0x48 then byte (mstat s) (off - 0x44)
  else if off < 0x4C then byte Config.deviceId (off - 0x48)
  else if off = 0x4C then (if s.lnk.pecWr then 1 else 0)
  else tget 0 s.prt.mbxRpl (off - 0x80)

/-- I2C_READ_TRANSFER (R444, R445): `n` bytes are read, under a new pointer of offset and count or under the most recent
one. -/
def execI2cReadTransfer (ptr : Option (Byte × Byte)) (n : Nat) (s : State) : Host.Outcome State Fault Refusal :=
  .next (if !i2cOn s then s
    else
      let s0 := i2cStart s
      let s1 := match ptr with
        | some p => { s0 with lnk := { s0.lnk with i2cPtr := (p.1.toNat, p.2.toNat) } }
        | none => s0
      let off := s1.lnk.i2cPtr.1
      let cnt := s1.lnk.i2cPtr.2
      let head := match ptr with
        | some p => [i2cAddr s 0, p.1, p.2, i2cAddr s 1]
        | none => [i2cAddr s 1]
      if cnt = 0 ∨ 64 < cnt ∨ !winSpan off cnt then
        setFlag { s1 with lnk := { s1.lnk with i2cOut := List.replicate n 0xFF } } 0x0B28 4
      else
        let d := (List.range cnt).map (fun i => winByte s1 (off + i))
        let out := d ++ (if s1.lnk.pecOn then [crc8 (head ++ d)] else [])
        { s1 with lnk := { s1.lnk with i2cOut := (out ++ List.replicate n 0xFF).take n } })

/-- I2C_SCL_TIMEOUT (R441): the transfer is abandoned. -/
def execI2cSclTimeout (s : State) : Host.Outcome State Fault Refusal :=
  .next (if i2cOn s then setFlag s 0x0B28 3 else s)

end Sys2Proof.Machine
end

