-- ==== Sys2Proof/Machine/Takeover.lean ====
section
/-! DEFINITION. Failure detection in a group and the takeover (R528, R529, R566 to R575). -/

namespace Sys2Proof.Machine

open Sys2Proof

/-- T_to in cycles: the longer of 1 ms and twice ANG_FPER, which counts 20 ns (R566, R568). -/
def takeoverTime (s : State) : Nat := max msTicks (8 * (rd s 0x024C).toNat)

/-- Time of the last sign of the leader: its heartbeat or SYNC (R566). -/
def leaderHeard (s : State) : Nat := max (tget 0 s.grp.heard s.grp.leadPos) (tget 0 s.grp.heard 4)

/-- Conductor address of block i of a checkpoint (R560). -/
def blockAddr (i : Nat) : Nat := if i < 1024 then 0x20000000 + 128 * i else 0x10008000 + 128 * (i - 1024)

/-- Orders of the old leader's mailbox are not this chip's: their changes go on without a completion, and nothing else of them
stays. This chip keeps its own mailbox. -/
def ownMailbox (mine old : Prt) : Prt :=
  { old with
    mbx := mine.mbx, mbxStamp := mine.mbxStamp, mbxCmd := mine.mbxCmd, mbxRpl := mine.mbxRpl,
    subs := old.subs.filter (fun x => !x.mbx), opens := old.opens.filter (fun w => !w.ord.mbx),
    msgs := old.msgs.filter (fun m => !m.2.ord.mbx),
    changes := old.changes.map (fun c => if c.mbx then { c with ord := none } else c) }

/-- Rings, data pool, journal and program table are restored from a sealed slot (R528, R569 step 2). -/
def restoreCkpt (s : State) (x : Ckpt) (c : CkptCtl) : State :=
  let s1 := forEach x.blocks s (fun s b => wrBytes s (blockAddr b.1) b.2)
  { s1 with prt := ownMailbox s1.prt c.prt, frm := { s1.frm with progs := c.progs, kstage := [], kdone := [] } }

/-- FAILOVER_NOTICE (R453, R470). -/
def noticeEntry (s : State) (p : Nat) : List Byte :=
  let l : Nat × Nat := tget (0, 0) s.prt.last p
  replyBytes 2 0 (postFlags s) 0 0 0x0001 0 0 (frmCount s) 0
    (leBytes 2 (tget 0 s.prt.sqHead p) ++ leBytes 2 0 ++ leBytes 4 l.1 ++ leBytes 4 l.2)

/-- Frames from the oldest, with the slots of partition p that no reply has answered. -/
def lostSlots (fs : List Frame) (p : Nat) : List (Frame × Slot) :=
  fs.flatMap (fun f => (f.slots.filter (fun x => fpPart x.fp == p && !x.posted)).map (fun x => (f, x)))

/-- The frames of which the takeover loses the slots: those of the checkpoint, and those that opened after it and before the
first frame that is computed here, as the restored program table and holds would have reserved them (R529). -/
def lostFrames (s : State) (x : Ckpt) (c : CkptCtl) (first : BitVec 48) : List Frame :=
  let n := first.toNat - x.count.toNat - 1
  c.frames.reverse ++ (List.range n).map (fun i =>
    { count := x.count + BitVec.ofNat 48 (i + 1), st := .posting, half := false, coasted := false, reversed := false,
      overspeed := false, overflow := false, suspect := false, owed := false, slots := newSlots s })

/-- The notice, then LOST_FAILOVER, in each enabled partition's ring (R470, R529). -/
def postLost (s : State) (fs : List Frame) : State :=
  forEach ((List.range 4).filter (fun p => partOn s p)) s (fun s p =>
    forEach (lostSlots fs p) (post s p (noticeEntry s p)) (fun s r =>
      post s p (frameEntry s { r.1 with coasted := false, reversed := false } { r.2 with throttled := false } 0x22 0)))

/-- Commands of class M and E that were open end with ABORTED, DETAIL 2 (R569 step 5). -/
def abortOpens (s : State) : State :=
  forEach (s.prt.opens.filter (fun w => w.wait ≠ .boundary)) s (fun s w => finish s w.ord 0x24 2 [])

/-- The frame that is open, or the next to open, is the first computed here: it takes the slots of the restored table (R569
step 3). -/
def firstCount (s : State) : BitVec 48 := if s.ang.frameOpen then s.ang.count48 else nextCount s

/-- The clock of the new leader: its shadow clock at the group's angle, or coasting when the shadow is not LOCKED (R551,
R569). -/
def shadowClock (s : State) : State :=
  let s1 := wrBoth s 0x0200 s.grp.src
  if s.grp.shLock then takeAtWord (setAng s1 { s1.ang with st := .locked, coastLeft := 0, rejects := 0 }) else loseSource s1

/-- The takeover from slot `x` with its control area (R569, R570, R575). -/
def takeover (s : State) (x : Ckpt) (c : CkptCtl) : State :=
  let me := ownPos s
  let old := s.grp.leadPos
  let m := s.grp.members &&& ~~~(BitVec.ofNat 4 (2 ^ old))
  let s1 := shadowClock (sendAll (endComp (traceGroup s 0 7 0 0 0) 0x20 1 []) 6)
  let s2 := restoreCkpt s1 x c
  let hs : Tbl Nat := (List.range 5).map (fun i => (i, s.now))
  let s3 := { s2 with grp := { s2.grp with
    role := 1, leadPos := me, members := m, stbyPos := none, slots := [], heard := hs, sentAt := s.now, ckLeft := 0,
    ckSealed := 0, ckNum := x.num, shLock := false, shRun := 0, verdict := none } }
  let first := firstCount s3
  let s4 := sticky1 (setFlag (wr s3 0x0C1C (BitVec.ofNat 32 first.toNat)) 0x0C04 4) 3
    (leBytes 4 (first.toNat % 2 ^ 32) ++ leBytes 4 x.num)
  let s5 := abortOpens (postLost s4 (lostFrames s4 x c first))
  let s6 := if s5.ang.frameOpen then modFrame s5 first (fun f => { f with slots := newSlots s5 }) else s5
  if (memberList m).length ≤ 1 then becomeSolo s6
  else fullCkpts (sendHeartbeat { s6 with grp := { s6.grp with stbyPos := electStandby s6 m me } })

/-- The newest sealed slot with its control area (R569). -/
def bestSlot (s : State) : Option (Ckpt × CkptCtl) :=
  let a := ckptSlot s s.grp.lastSlot
  match a.sealed_, a.ctl with
  | true, some c => some (a, c)
  | _, _ =>
    let b := ckptSlot s (1 - s.grp.lastSlot)
    match b.sealed_, b.ctl with
    | true, some c => some (b, c)
    | _, _ => none

/-- LEADER_TIMEOUT (R566, R567, R569): nothing of the leader for T_to: a standby with a sealed slot takes over, one without
leaves. A follower that hears of no new leader for as long again leaves too. -/
def execLeaderTimeout (s : State) : Host.Outcome State Fault Refusal :=
  let since := s.now - leaderHeard s
  .next (if s.grp.quiesced ∨ s.pwr.st = 2 then s
    else if s.grp.role = 2 ∧ takeoverTime s ≤ since then
      (match bestSlot s with
       | some (x, c) => takeover s x c
       | none => becomeSolo s)
    else if s.grp.role = 3 ∧ 2 * takeoverTime s ≤ since then becomeSolo s
    else s)

/-- MEMBER_LOSS_TIMEOUT (R568, R573): the leader has heard nothing of a non-leader for T_to. -/
def execMemberLossTimeout (pos : Fin 4) (s : State) : Host.Outcome State Fault Refusal :=
  .next (if s.grp.role = 1 ∧ !s.grp.quiesced ∧ !s.grp.retired ∧ takeoverTime s ≤ s.now - tget 0 s.grp.heard pos then
      memberLeave (traceGroup s (portTo s pos) 8 0 0 0) pos
    else s)

end Sys2Proof.Machine
end

