-- ==== Sys2Proof/Machine/Thermal.lean ====
section
/-! DEFINITION. The die temperature: its samples, the shutdown, the throttle, and the 32 kHz crystal (R681, R695 to R702, R704,
R705). -/

namespace Sys2Proof.Machine

open Sys2Proof

/-- TMP_CFG.THROT, in units of 0.25 °C. -/
def throtAt (s : State) : Int := 4 * (fld (rd s 0x0F84) 0 8 : Nat)

/-- TMP_CFG.HYST, in units of 0.25 °C. -/
def hystOf (s : State) : Int := 4 * (fld (rd s 0x0F84) 8 4 : Nat)

/-- TMP_CFG.WARN, in units of 0.25 °C. -/
def warnAt (s : State) : Int := 4 * (fld (rd s 0x0F84) 16 8 : Nat)

/-- A thermal shutdown (R701): TMP_SHUT is recorded and the device is held in reset. -/
def thermalShutdown (s : State) (t : Int) : State :=
  let n := satAdd 255 (fld (rd s 0x0F90) 24 8) 1
  let v := BitVec.ofNat 32 (t % 65536).toNat ||| place (arrClock s) 16 ||| place n 24
  let s1 := resetEntry (wr s 0x0F90 v) 6
  { s1 with pwr := { s1.pwr with temp := t, peak := t, shutdown := true } }

/-- THERMAL_SAMPLE (R700, R701): the die temperature is sampled, in units of 0.25 °C. -/
def execThermalSample (t : Int) (s : State) : Host.Outcome State Fault Refusal :=
  .next (if s.boot.inReset then s
    else if 440 ≤ t then thermalShutdown s t
    else
      let s1 := { s with pwr := { s.pwr with temp := t, peak := max s.pwr.peak t } }
      if s.pwr.temp < warnAt s ∧ warnAt s ≤ t then raiseInt (setFlag s1 0x0F88 0) 16 else s1)

/-- THERMAL_RELEASE (R701): a device held after a thermal shutdown may boot once the die is below 95 °C. -/
def execThermalRelease (t : Int) (s : State) : Host.Outcome State Fault Refusal :=
  .next (if s.pwr.shutdown then { s with pwr := { s.pwr with temp := t, peak := t, shutdown := decide (380 ≤ t) } } else s)

/-- The clocks lowered at or above THROT: the array clock first, and the conductor clock with the array clock at the floor and
3 °C more (R697). -/
def throttleDown (s : State) : State :=
  let g := gclk s
  if g < s.pwr.arrClk then
    setFlag { s with pwr := { s.pwr with arrClk := max g (s.pwr.arrClk - 10) } } 0x0F88 1
  else if throtAt s + 12 ≤ s.pwr.temp ∧ g < s.pwr.cndClk then
    setFlag { s with pwr := { s.pwr with cndClk := max g (s.pwr.cndClk - 10) } } 0x0F88 1
  else s

/-- The clocks raised below THROT - HYST, the conductor clock first, each at most once in a millisecond (R697). -/
def throttleUp (s : State) : State :=
  let t := targetClk s
  if s.pwr.cndClk < t then
    (if s.pwr.upCnd < 10 then s else { s with pwr := { s.pwr with cndClk := min t (s.pwr.cndClk + 10), upCnd := 0 } })
  else if s.pwr.arrClk < t ∧ 10 ≤ s.pwr.upArr then
    { s with pwr := { s.pwr with arrClk := min t (s.pwr.arrClk + 10), upArr := 0 } }
  else s

/-- TMP_STATUS.FLOOR: a clock is held at the floor with the temperature at or above THROT (R698). -/
def throttleFloor (s : State) : State :=
  let held := decide (throtAt s ≤ s.pwr.temp) && (decide (s.pwr.arrClk ≤ gclk s) || decide (s.pwr.cndClk ≤ gclk s))
  let s1 := { s with pwr := { s.pwr with floor := held } }
  if held then setFlag (setFlag s1 0x0F88 2) 0x010C 2 else s1

/-- THROTTLE_STEP (R697, R698): every 100 µs in RUN the thermal control compares the temperature with THROT. -/
def execThrottleStep (s : State) : Host.Outcome State Fault Refusal :=
  .next (if s.boot.inReset ∨ s.pwr.st ≠ 0 then s
    else
      let s1 := { s with pwr := { s.pwr with upCnd := min 10 (s.pwr.upCnd + 1), upArr := min 10 (s.pwr.upArr + 1) } }
      let s2 := if throtAt s ≤ s.pwr.temp then throttleDown s1
        else if s.pwr.temp < throtAt s - hystOf s then throttleUp s1
        else s1
      noteClock (throttleFloor s2))

/-- X32_CRYSTAL_START (R681): the crystal has started, and HDG_STATUS.X32OK reads 1. -/
def execX32CrystalStart (s : State) : Host.Outcome State Fault Refusal :=
  .next { s with hdg := { s.hdg with x32Ok := true } }

end Sys2Proof.Machine
end

