-- ==== Sys2Proof/Machine/Dispatch.lean ====
section
/-! DEFINITION. The meaning of every command, one arm per constructor of Instr. -/

namespace Sys2Proof.Machine

open Sys2Proof

def exec (i : Instr) (s : State) : Host.Outcome State Fault Refusal :=
  match i with
  | .qeiCount d => Sys2Proof.Machine.execQeiCount d s
  | .tachPulse => Sys2Proof.Machine.execTachPulse s
  | .lineCrossing back => Sys2Proof.Machine.execLineCrossing back s
  | .lineCrossingTimeout => Sys2Proof.Machine.execLineCrossingTimeout s
  | .zPulse => Sys2Proof.Machine.execZPulse s
  | .timerLock => Sys2Proof.Machine.execTimerLock s
  | .edgeTimeout => Sys2Proof.Machine.execEdgeTimeout s
  | .coastBudgetSpent => Sys2Proof.Machine.execCoastBudgetSpent s
  | .stallTimeout => Sys2Proof.Machine.execStallTimeout s
  | .frameBoundary => Sys2Proof.Machine.execFrameBoundary s
  | .idleBoundary => Sys2Proof.Machine.execIdleBoundary s
  | .angleEventFire => Sys2Proof.Machine.execAngleEventFire s
  | .pacerStrobe => Sys2Proof.Machine.execPacerStrobe s
  | .programStart => Sys2Proof.Machine.execProgramStart s
  | .drainEnd found => Sys2Proof.Machine.execDrainEnd found s
  | .frameReplyPost p => Sys2Proof.Machine.execFrameReplyPost p s
  | .heldReplyMove p => Sys2Proof.Machine.execHeldReplyMove p s
  | .dozeEntry => Sys2Proof.Machine.execDozeEntry s
  | .standbyEntry t pins => Sys2Proof.Machine.execStandbyEntry t pins s
  | .standbyExitComplete => Sys2Proof.Machine.execStandbyExitComplete s
  | .supplyWaitTimeout => Sys2Proof.Machine.execSupplyWaitTimeout s
  | .cellNop c t pins => Sys2Proof.Machine.execCellNop c t pins s
  | .cellMov c t pins => Sys2Proof.Machine.execCellMov c t pins s
  | .cellAdd c t pins => Sys2Proof.Machine.execCellAdd c t pins s
  | .cellAdc c t pins => Sys2Proof.Machine.execCellAdc c t pins s
  | .cellSub c t pins => Sys2Proof.Machine.execCellSub c t pins s
  | .cellSbc c t pins => Sys2Proof.Machine.execCellSbc c t pins s
  | .cellAnd c t pins => Sys2Proof.Machine.execCellAnd c t pins s
  | .cellOr c t pins => Sys2Proof.Machine.execCellOr c t pins s
  | .cellXor c t pins => Sys2Proof.Machine.execCellXor c t pins s
  | .cellShl c t pins => Sys2Proof.Machine.execCellShl c t pins s
  | .cellShr c t pins => Sys2Proof.Machine.execCellShr c t pins s
  | .cellSar c t pins => Sys2Proof.Machine.execCellSar c t pins s
  | .cellMull c t pins => Sys2Proof.Machine.execCellMull c t pins s
  | .cellMulh c t pins => Sys2Proof.Machine.execCellMulh c t pins s
  | .cellCmplt c t pins => Sys2Proof.Machine.execCellCmplt c t pins s
  | .cellCmpeq c t pins => Sys2Proof.Machine.execCellCmpeq c t pins s
  | .cellCmpltu c t pins => Sys2Proof.Machine.execCellCmpltu c t pins s
  | .cellSat c t pins => Sys2Proof.Machine.execCellSat c t pins s
  | .cellOutl c t pins => Sys2Proof.Machine.execCellOutl c t pins s
  | .cellSpx c t pins => Sys2Proof.Machine.execCellSpx c t pins s
  | .cellSpr c t pins => Sys2Proof.Machine.execCellSpr c t pins s
  | .cellFlr c t pins => Sys2Proof.Machine.execCellFlr c t pins s
  | .cellBtst c t pins => Sys2Proof.Machine.execCellBtst c t pins s
  | .serialTransferDone n rx ack => Sys2Proof.Machine.execSerialTransferDone n rx ack s
  | .swapHoldEnd => Sys2Proof.Machine.execSwapHoldEnd s
  | .ingestRecordWrite n => Sys2Proof.Machine.execIngestRecordWrite n s
  | .bankSupplyFall b => Sys2Proof.Machine.execBankSupplyFall b s
  | .bankSupplyRise b => Sys2Proof.Machine.execBankSupplyRise b s
  | .bankOutputEnable b => Sys2Proof.Machine.execBankOutputEnable b s
  | .fabricLoadComplete => Sys2Proof.Machine.execFabricLoadComplete s
  | .hdgCapArm v => Sys2Proof.Machine.execHdgCapArm v s
  | .hdgCapDiscard v => Sys2Proof.Machine.execHdgCapDiscard v s
  | .captureRecord => Sys2Proof.Machine.execCaptureRecord s
  | .correctorUe bank f w => Sys2Proof.Machine.execCorrectorUe bank f w s
  | .scrubPassStart => Sys2Proof.Machine.execScrubPassStart s
  | .scrubIdleRefresh => Sys2Proof.Machine.execScrubIdleRefresh s
  | .scrubFrameCheck => Sys2Proof.Machine.execScrubFrameCheck s
  | .scrubPassEnd => Sys2Proof.Machine.execScrubPassEnd s
  | .flashRepairDone f => Sys2Proof.Machine.execFlashRepairDone f s
  | .memorySweep => Sys2Proof.Machine.execMemorySweep s
  | .macroNop => Sys2Proof.Machine.execMacroNop s
  | .macroSetp => Sys2Proof.Machine.execMacroSetp s
  | .macroAddp => Sys2Proof.Machine.execMacroAddp s
  | .macroSetrm => Sys2Proof.Machine.execMacroSetrm s
  | .macroClrf => Sys2Proof.Machine.execMacroClrf s
  | .macroMall => Sys2Proof.Machine.execMacroMall s
  | .macroMld => Sys2Proof.Machine.execMacroMld s
  | .macroMand => Sys2Proof.Machine.execMacroMand s
  | .macroMor => Sys2Proof.Machine.execMacroMor s
  | .macroMnot => Sys2Proof.Machine.execMacroMnot s
  | .macroMsto => Sys2Proof.Machine.execMacroMsto s
  | .macroMft => Sys2Proof.Machine.execMacroMft s
  | .macroTld => Sys2Proof.Machine.execMacroTld s
  | .macroTsto => Sys2Proof.Machine.execMacroTsto s
  | .macroMov => Sys2Proof.Machine.execMacroMov s
  | .macroLogic => Sys2Proof.Machine.execMacroLogic s
  | .macroSel => Sys2Proof.Machine.execMacroSel s
  | .macroFill => Sys2Proof.Machine.execMacroFill s
  | .macroFillk => Sys2Proof.Machine.execMacroFillk s
  | .macroBsh => Sys2Proof.Machine.execMacroBsh s
  | .macroExt => Sys2Proof.Machine.execMacroExt s
  | .macroAdd => Sys2Proof.Machine.execMacroAdd s
  | .macroSub => Sys2Proof.Machine.execMacroSub s
  | .macroAddk => Sys2Proof.Machine.execMacroAddk s
  | .macroSubk => Sys2Proof.Machine.execMacroSubk s
  | .macroNeg => Sys2Proof.Machine.execMacroNeg s
  | .macroAddsat => Sys2Proof.Machine.execMacroAddsat s
  | .macroSubsat => Sys2Proof.Machine.execMacroSubsat s
  | .macroAbs => Sys2Proof.Machine.execMacroAbs s
  | .macroCmp => Sys2Proof.Machine.execMacroCmp s
  | .macroCmpk => Sys2Proof.Machine.execMacroCmpk s
  | .macroMinmax => Sys2Proof.Machine.execMacroMinmax s
  | .macroMulu => Sys2Proof.Machine.execMacroMulu s
  | .macroMuls => Sys2Proof.Machine.execMacroMuls s
  | .macroMulq => Sys2Proof.Machine.execMacroMulq s
  | .macroDivu => Sys2Proof.Machine.execMacroDivu s
  | .macroNshf bursts => Sys2Proof.Machine.execMacroNshf bursts s
  | .macroAny others => Sys2Proof.Machine.execMacroAny others s
  | .macroTally others => Sys2Proof.Machine.execMacroTally others s
  | .macroSumw others => Sys2Proof.Machine.execMacroSumw others s
  | .macroExtr part others => Sys2Proof.Machine.execMacroExtr part others s
  | .macroLdt => Sys2Proof.Machine.execMacroLdt s
  | .macroStt => Sys2Proof.Machine.execMacroStt s
  | .macroLds => Sys2Proof.Machine.execMacroLds s
  | .macroSts => Sys2Proof.Machine.execMacroSts s
  | .macroFadd32 => Sys2Proof.Machine.execMacroFadd32 s
  | .macroFmul32 => Sys2Proof.Machine.execMacroFmul32 s
  | .macroFma32 => Sys2Proof.Machine.execMacroFma32 s
  | .macroFcmp32 => Sys2Proof.Machine.execMacroFcmp32 s
  | .macroFcvt32f => Sys2Proof.Machine.execMacroFcvt32f s
  | .macroFcvtf32 => Sys2Proof.Machine.execMacroFcvtf32 s
  | .macroFadd64 => Sys2Proof.Machine.execMacroFadd64 s
  | .macroFmul64 => Sys2Proof.Machine.execMacroFmul64 s
  | .macroFma64 => Sys2Proof.Machine.execMacroFma64 s
  | .macroFcmp64 => Sys2Proof.Machine.execMacroFcmp64 s
  | .macroFcvt64f => Sys2Proof.Machine.execMacroFcvt64f s
  | .macroFcvtf64 => Sys2Proof.Machine.execMacroFcvtf64 s
  | .macroFcvt3264 => Sys2Proof.Machine.execMacroFcvt3264 s
  | .macroFcvt6432 => Sys2Proof.Machine.execMacroFcvt6432 s
  | .userOpcode => Sys2Proof.Machine.execUserOpcode s
  | .uwNop => Sys2Proof.Machine.execUwNop s
  | .uwJmp => Sys2Proof.Machine.execUwJmp s
  | .uwBr => Sys2Proof.Machine.execUwBr s
  | .uwLoop => Sys2Proof.Machine.execUwLoop s
  | .uwLend => Sys2Proof.Machine.execUwLend s
  | .uwCall => Sys2Proof.Machine.execUwCall s
  | .uwRet => Sys2Proof.Machine.execUwRet s
  | .uwCommit => Sys2Proof.Machine.execUwCommit s
  | .uwEnd => Sys2Proof.Machine.execUwEnd s
  | .uwPeop burst any tally => Sys2Proof.Machine.execUwPeop burst any tally s
  | .uwMovv => Sys2Proof.Machine.execUwMovv s
  | .uwVopAddi => Sys2Proof.Machine.execUwVopAddi s
  | .uwAddl => Sys2Proof.Machine.execUwAddl s
  | .uwSubl => Sys2Proof.Machine.execUwSubl s
  | .uwSeti => Sys2Proof.Machine.execUwSeti s
  | .uwLdpp => Sys2Proof.Machine.execUwLdpp s
  | .uwWait => Sys2Proof.Machine.execUwWait s
  | .uwWaitEnd => Sys2Proof.Machine.execUwWaitEnd s
  | .uwWaitTimeout => Sys2Proof.Machine.execUwWaitTimeout s
  | .uwXfer out p data => Sys2Proof.Machine.execUwXfer out p data s
  | .sequencerFault => Sys2Proof.Machine.execSequencerFault s
  | .topiaryVerifyComplete => Sys2Proof.Machine.execTopiaryVerifyComplete s
  | .cAdd d rs t => Sys2Proof.Machine.execCAdd d rs t s
  | .cSub d rs t => Sys2Proof.Machine.execCSub d rs t s
  | .cAnd d rs t => Sys2Proof.Machine.execCAnd d rs t s
  | .cOr d rs t => Sys2Proof.Machine.execCOr d rs t s
  | .cXor d rs t => Sys2Proof.Machine.execCXor d rs t s
  | .cAndn d rs t => Sys2Proof.Machine.execCAndn d rs t s
  | .cSll d rs t => Sys2Proof.Machine.execCSll d rs t s
  | .cSrl d rs t => Sys2Proof.Machine.execCSrl d rs t s
  | .cSra d rs t => Sys2Proof.Machine.execCSra d rs t s
  | .cRor d rs t => Sys2Proof.Machine.execCRor d rs t s
  | .cSeq d rs t => Sys2Proof.Machine.execCSeq d rs t s
  | .cSne d rs t => Sys2Proof.Machine.execCSne d rs t s
  | .cSlt d rs t => Sys2Proof.Machine.execCSlt d rs t s
  | .cSltu d rs t => Sys2Proof.Machine.execCSltu d rs t s
  | .cSle d rs t => Sys2Proof.Machine.execCSle d rs t s
  | .cSleu d rs t => Sys2Proof.Machine.execCSleu d rs t s
  | .cMin d rs t => Sys2Proof.Machine.execCMin d rs t s
  | .cMax d rs t => Sys2Proof.Machine.execCMax d rs t s
  | .cMinu d rs t => Sys2Proof.Machine.execCMinu d rs t s
  | .cMaxu d rs t => Sys2Proof.Machine.execCMaxu d rs t s
  | .cMov d rs => Sys2Proof.Machine.execCMov d rs s
  | .cNot d rs => Sys2Proof.Machine.execCNot d rs s
  | .cNeg d rs => Sys2Proof.Machine.execCNeg d rs s
  | .cMovnz d rs t => Sys2Proof.Machine.execCMovnz d rs t s
  | .cMovz d rs t => Sys2Proof.Machine.execCMovz d rs t s
  | .cClz d rs => Sys2Proof.Machine.execCClz d rs s
  | .cPopc d rs => Sys2Proof.Machine.execCPopc d rs s
  | .cSextb d rs => Sys2Proof.Machine.execCSextb d rs s
  | .cSexth d rs => Sys2Proof.Machine.execCSexth d rs s
  | .cZexth d rs => Sys2Proof.Machine.execCZexth d rs s
  | .cAddi d rs imm => Sys2Proof.Machine.execCAddi d rs imm s
  | .cAndi d rs imm => Sys2Proof.Machine.execCAndi d rs imm s
  | .cOri d rs imm => Sys2Proof.Machine.execCOri d rs imm s
  | .cXori d rs imm => Sys2Proof.Machine.execCXori d rs imm s
  | .cSlti d rs imm => Sys2Proof.Machine.execCSlti d rs imm s
  | .cSltiu d rs imm => Sys2Proof.Machine.execCSltiu d rs imm s
  | .cSeqi d rs imm => Sys2Proof.Machine.execCSeqi d rs imm s
  | .cSnei d rs imm => Sys2Proof.Machine.execCSnei d rs imm s
  | .cMovhi d imm => Sys2Proof.Machine.execCMovhi d imm s
  | .cMovi d w => Sys2Proof.Machine.execCMovi d w s
  | .cShi d rs kind n => Sys2Proof.Machine.execCShi d rs kind n s
  | .cAdda d rs t => Sys2Proof.Machine.execCAdda d rs t s
  | .cSuba d rs t => Sys2Proof.Machine.execCSuba d rs t s
  | .cMova d rs => Sys2Proof.Machine.execCMova d rs s
  | .cMovad d rs => Sys2Proof.Machine.execCMovad d rs s
  | .cMovaa d rs => Sys2Proof.Machine.execCMovaa d rs s
  | .cLeax d rs t sc => Sys2Proof.Machine.execCLeax d rs t sc s
  | .cAddai d rs imm => Sys2Proof.Machine.execCAddai d rs imm s
  | .cMulS d rs t => Sys2Proof.Machine.execCMulS d rs t s
  | .cMulU d rs t => Sys2Proof.Machine.execCMulU d rs t s
  | .cMullo d rs t => Sys2Proof.Machine.execCMullo d rs t s
  | .cDivS d rs t => Sys2Proof.Machine.execCDivS d rs t s
  | .cDivU d rs t => Sys2Proof.Machine.execCDivU d rs t s
  | .cKmacS k rs t => Sys2Proof.Machine.execCKmacS k rs t s
  | .cKmacU k rs t => Sys2Proof.Machine.execCKmacU k rs t s
  | .cKmsbS k rs t => Sys2Proof.Machine.execCKmsbS k rs t s
  | .cKmsbU k rs t => Sys2Proof.Machine.execCKmsbU k rs t s
  | .cKclr k => Sys2Proof.Machine.execCKclr k s
  | .cKwr k rs part => Sys2Proof.Machine.execCKwr k rs part s
  | .cKrd d k part => Sys2Proof.Machine.execCKrd d k part s
  | .cKsat d k sh => Sys2Proof.Machine.execCKsat d k sh s
  | .cKsatr d k sh => Sys2Proof.Machine.execCKsatr d k sh s
  | .cKmov k j => Sys2Proof.Machine.execCKmov k j s
  | .cLdB d n m => Sys2Proof.Machine.execCLdB d n m s
  | .cLdBu d n m => Sys2Proof.Machine.execCLdBu d n m s
  | .cLdH d n m => Sys2Proof.Machine.execCLdH d n m s
  | .cLdHu d n m => Sys2Proof.Machine.execCLdHu d n m s
  | .cLdW d n m => Sys2Proof.Machine.execCLdW d n m s
  | .cLdD d n m => Sys2Proof.Machine.execCLdD d n m s
  | .cStB d n m => Sys2Proof.Machine.execCStB d n m s
  | .cStH d n m => Sys2Proof.Machine.execCStH d n m s
  | .cStW d n m => Sys2Proof.Machine.execCStW d n m s
  | .cStD d n m => Sys2Proof.Machine.execCStD d n m s
  | .cLda d n m => Sys2Proof.Machine.execCLda d n m s
  | .cSta d n m => Sys2Proof.Machine.execCSta d n m s
  | .cFldS d n m => Sys2Proof.Machine.execCFldS d n m s
  | .cFldD d n m => Sys2Proof.Machine.execCFldD d n m s
  | .cFstS d n m => Sys2Proof.Machine.execCFstS d n m s
  | .cFstD d n m => Sys2Proof.Machine.execCFstD d n m s
  | .cPld d n m => Sys2Proof.Machine.execCPld d n m s
  | .cPst d n m => Sys2Proof.Machine.execCPst d n m s
  | .cQpushResume => Sys2Proof.Machine.execCQpushResume s
  | .cBz t disp => Sys2Proof.Machine.execCBz t disp s
  | .cBnz t disp => Sys2Proof.Machine.execCBnz t disp s
  | .cBra disp => Sys2Proof.Machine.execCBra disp s
  | .cCall disp => Sys2Proof.Machine.execCCall disp s
  | .cJmpr n => Sys2Proof.Machine.execCJmpr n s
  | .cCallr n => Sys2Proof.Machine.execCCallr n s
  | .cRet => Sys2Proof.Machine.execCRet s
  | .cRpti src imm => Sys2Proof.Machine.execCRpti src imm s
  | .cRptn nm1 => Sys2Proof.Machine.execCRptn nm1 s
  | .cNop => Sys2Proof.Machine.execCNop s
  | .cSvc imm => Sys2Proof.Machine.execCSvc imm s
  | .cKupd => Sys2Proof.Machine.execCKupd s
  | .cEvtpend => Sys2Proof.Machine.execCEvtpend s
  | .cAngle => Sys2Proof.Machine.execCAngle s
  | .cTmark => Sys2Proof.Machine.execCTmark s
  | .cEvtret => Sys2Proof.Machine.execCEvtret s
  | .cBkpt imm => Sys2Proof.Machine.execCBkpt imm s
  | .cMfsr d sr => Sys2Proof.Machine.execCMfsr d sr s
  | .cMtsr sr rs => Sys2Proof.Machine.execCMtsr sr rs s
  | .cRfe => Sys2Proof.Machine.execCRfe s
  | .cWaiti => Sys2Proof.Machine.execCWaiti s
  | .cFadd p d a b => Sys2Proof.Machine.execCFadd p d a b s
  | .cFsub p d a b => Sys2Proof.Machine.execCFsub p d a b s
  | .cFmul p d a b => Sys2Proof.Machine.execCFmul p d a b s
  | .cFdiv p d a b => Sys2Proof.Machine.execCFdiv p d a b s
  | .cFsqrt p d a => Sys2Proof.Machine.execCFsqrt p d a s
  | .cFneg p d a => Sys2Proof.Machine.execCFneg p d a s
  | .cFabs p d a => Sys2Proof.Machine.execCFabs p d a s
  | .cFmov p d a => Sys2Proof.Machine.execCFmov p d a s
  | .cFcvtF p d a => Sys2Proof.Machine.execCFcvtF p d a s
  | .cFcvtFu p d a => Sys2Proof.Machine.execCFcvtFu p d a s
  | .cFcvtI p d a => Sys2Proof.Machine.execCFcvtI p d a s
  | .cFcvtIu p d a => Sys2Proof.Machine.execCFcvtIu p d a s
  | .cFcvtW p d a => Sys2Proof.Machine.execCFcvtW p d a s
  | .cFmvfd p d a => Sys2Proof.Machine.execCFmvfd p d a s
  | .cFmvdf p d a => Sys2Proof.Machine.execCFmvdf p d a s
  | .cFma p np nc d a b c => Sys2Proof.Machine.execCFma p np nc d a b c s
  | .cFcmp p rel sig d a b => Sys2Proof.Machine.execCFcmp p rel sig d a b s
  | .interruptEntry v => Sys2Proof.Machine.execInterruptEntry v s
  | .hbudgetExpiry => Sys2Proof.Machine.execHbudgetExpiry s
  | .firmwareRestartComplete => Sys2Proof.Machine.execFirmwareRestartComplete s
  | .watchdogExpiry => Sys2Proof.Machine.execWatchdogExpiry s
  | .sqTailWrite p v => Sys2Proof.Machine.execSqTailWrite p v s
  | .rqHeadWrite p v => Sys2Proof.Machine.execRqHeadWrite p v s
  | .angWordRead => Sys2Proof.Machine.execAngWordRead s
  | .frmCntLoRead => Sys2Proof.Machine.execFrmCntLoRead s
  | .scbSuspLoRead => Sys2Proof.Machine.execScbSuspLoRead s
  | .msqTrapinfoRead p => Sys2Proof.Machine.execMsqTrapinfoRead p s
  | .msqFaultinfoRead p => Sys2Proof.Machine.execMsqFaultinfoRead p s
  | .cndHtrapRead p => Sys2Proof.Machine.execCndHtrapRead p s
  | .grpCkfrmLoRead => Sys2Proof.Machine.execGrpCkfrmLoRead s
  | .trcTimeLoRead => Sys2Proof.Machine.execTrcTimeLoRead s
  | .eventEntryWrite mbx b v => Sys2Proof.Machine.execEventEntryWrite mbx b v s
  | .ringWrite h data crc => Sys2Proof.Machine.execRingWrite h data crc s
  | .ringRead h crc => Sys2Proof.Machine.execRingRead h crc s
  | .linkRegWrite h data crc => Sys2Proof.Machine.execLinkRegWrite h data crc s
  | .linkRegRead h crc => Sys2Proof.Machine.execLinkRegRead h crc s
  | .msgWrite h data crc => Sys2Proof.Machine.execMsgWrite h data crc s
  | .msgRead h crc => Sys2Proof.Machine.execMsgRead h crc s
  | .status => Sys2Proof.Machine.execStatus s
  | .linkReset => Sys2Proof.Machine.execLinkReset s
  | .badTypeTransaction => Sys2Proof.Machine.execBadTypeTransaction s
  | .transactionTruncated => Sys2Proof.Machine.execTransactionTruncated s
  | .writeCommitDone => Sys2Proof.Machine.execWriteCommitDone s
  | .quadModeSwitch => Sys2Proof.Machine.execQuadModeSwitch s
  | .mailboxCmdWrite off data pec => Sys2Proof.Machine.execMailboxCmdWrite off data pec s
  | .mailboxGo data pec => Sys2Proof.Machine.execMailboxGo data pec s
  | .mailboxRelease data pec => Sys2Proof.Machine.execMailboxRelease data pec s
  | .mailboxPecSet v pec => Sys2Proof.Machine.execMailboxPecSet v pec s
  | .i2cReadTransfer ptr n => Sys2Proof.Machine.execI2cReadTransfer ptr n s
  | .i2cSclTimeout => Sys2Proof.Machine.execI2cSclTimeout s
  | .cmdIdentify => Sys2Proof.Machine.execCmdIdentify s
  | .cmdRegRead => Sys2Proof.Machine.execCmdRegRead s
  | .cmdRegWrite => Sys2Proof.Machine.execCmdRegWrite s
  | .cmdNop => Sys2Proof.Machine.execCmdNop s
  | .cmdCancel => Sys2Proof.Machine.execCmdCancel s
  | .cmdAngleSource => Sys2Proof.Machine.execCmdAngleSource s
  | .cmdAngleTrack => Sys2Proof.Machine.execCmdAngleTrack s
  | .cmdEventSet => Sys2Proof.Machine.execCmdEventSet s
  | .cmdPacerSet => Sys2Proof.Machine.execCmdPacerSet s
  | .cmdFpLoad => Sys2Proof.Machine.execCmdFpLoad s
  | .cmdFpSet => Sys2Proof.Machine.execCmdFpSet s
  | .cmdFpAbort => Sys2Proof.Machine.execCmdFpAbort s
  | .cmdFpUnload => Sys2Proof.Machine.execCmdFpUnload s
  | .cmdDataRead => Sys2Proof.Machine.execCmdDataRead s
  | .cmdDataWrite => Sys2Proof.Machine.execCmdDataWrite s
  | .cmdFabricLoad => Sys2Proof.Machine.execCmdFabricLoad s
  | .cmdCaptureArm => Sys2Proof.Machine.execCmdCaptureArm s
  | .cmdCaptureRead => Sys2Proof.Machine.execCmdCaptureRead s
  | .cmdScrubDisable => Sys2Proof.Machine.execCmdScrubDisable s
  | .cmdTopiaryLoad => Sys2Proof.Machine.execCmdTopiaryLoad s
  | .cmdTopiaryUnload => Sys2Proof.Machine.execCmdTopiaryUnload s
  | .cmdTraceConfig => Sys2Proof.Machine.execCmdTraceConfig s
  | .cmdTraceRead => Sys2Proof.Machine.execCmdTraceRead s
  | .cmdStickyRead => Sys2Proof.Machine.execCmdStickyRead s
  | .cmdFaultClear fails => Sys2Proof.Machine.execCmdFaultClear fails s
  | .cmdLogRead => Sys2Proof.Machine.execCmdLogRead s
  | .cmdReturnCapture => Sys2Proof.Machine.execCmdReturnCapture s
  | .returnCaptureComplete bad => Sys2Proof.Machine.execReturnCaptureComplete bad s
  | .cmdReturnRead => Sys2Proof.Machine.execCmdReturnRead s
  | .cmdFlashErase => Sys2Proof.Machine.execCmdFlashErase s
  | .cmdFlashWrite => Sys2Proof.Machine.execCmdFlashWrite s
  | .cmdFlashRead => Sys2Proof.Machine.execCmdFlashRead s
  | .cmdImageSelect => Sys2Proof.Machine.execCmdImageSelect s
  | .flashOperationComplete bad fails => Sys2Proof.Machine.execFlashOperationComplete bad fails s
  | .cmdGroupForm => Sys2Proof.Machine.execCmdGroupForm s
  | .cmdGroupLeave => Sys2Proof.Machine.execCmdGroupLeave s
  | .cmdPowerState => Sys2Proof.Machine.execCmdPowerState s
  | .cmdDeviceReset => Sys2Proof.Machine.execCmdDeviceReset s
  | .powerOnReset => Sys2Proof.Machine.execPowerOnReset s
  | .rstNAssert => Sys2Proof.Machine.execRstNAssert s
  | .supplyMonitorReset sup => Sys2Proof.Machine.execSupplyMonitorReset sup s
  | .boot straps refOk ms logOk bad afail => Sys2Proof.Machine.execBoot straps refOk ms logOk bad afail s
  | .bootTriesClear => Sys2Proof.Machine.execBootTriesClear s
  | .thermalSample t => Sys2Proof.Machine.execThermalSample t s
  | .thermalRelease t => Sys2Proof.Machine.execThermalRelease t s
  | .throttleStep => Sys2Proof.Machine.execThrottleStep s
  | .logRecordWrite eraseOk sumOk recOk => Sys2Proof.Machine.execLogRecordWrite eraseOk sumOk recOk s
  | .logRateSecond code => Sys2Proof.Machine.execLogRateSecond code s
  | .logHour => Sys2Proof.Machine.execLogHour s
  | .linkTrainingComplete p infos copy => Sys2Proof.Machine.execLinkTrainingComplete p infos copy s
  | .linkAck p seq => Sys2Proof.Machine.execLinkAck p seq s
  | .linkNak p seq => Sys2Proof.Machine.execLinkNak p seq s
  | .linkAckTimeout p => Sys2Proof.Machine.execLinkAckTimeout p s
  | .linkRetrainTimeout p => Sys2Proof.Machine.execLinkRetrainTimeout p s
  | .arrayFrame p seq m => Sys2Proof.Machine.execArrayFrame p seq m s
  | .macroFrame p seq fp words last => Sys2Proof.Machine.execMacroFrame p seq fp words last s
  | .angleFrame p seq phase rateN rateD count => Sys2Proof.Machine.execAngleFrame p seq phase rateN rateD count s
  | .angleFrameLoss => Sys2Proof.Machine.execAngleFrameLoss s
  | .syncPulse upd => Sys2Proof.Machine.execSyncPulse upd s
  | .heartbeatTimer => Sys2Proof.Machine.execHeartbeatTimer s
  | .heartbeat p seq pos coasted => Sys2Proof.Machine.execHeartbeat p seq pos coasted s
  | .ckptBlock p seq item => Sys2Proof.Machine.execCkptBlock p seq item s
  | .memberFaultFrame p seq pos cause => Sys2Proof.Machine.execMemberFaultFrame p seq pos cause s
  | .takeoverFrame p seq pos => Sys2Proof.Machine.execTakeoverFrame p seq pos s
  | .quiesceFrame p seq => Sys2Proof.Machine.execQuiesceFrame p seq s
  | .leaderTimeout => Sys2Proof.Machine.execLeaderTimeout s
  | .memberLossTimeout pos => Sys2Proof.Machine.execMemberLossTimeout pos s
  | .standbyRetrainTimeout p => Sys2Proof.Machine.execStandbyRetrainTimeout p s
  | .traceQueueWrite => Sys2Proof.Machine.execTraceQueueWrite s
  | .traceSequencerStep p => Sys2Proof.Machine.execTraceSequencerStep p s
  | .tracePostTimeout p => Sys2Proof.Machine.execTracePostTimeout p s
  | .traceRearm p v => Sys2Proof.Machine.execTraceRearm p v s
  | .traceRunStop p v => Sys2Proof.Machine.execTraceRunStop p v s
  | .traceClear p v => Sys2Proof.Machine.execTraceClear p v s
  | .traceForce p v => Sys2Proof.Machine.execTraceForce p v s
  | .traceAllocWrite p v => Sys2Proof.Machine.execTraceAllocWrite p v s
  | .bitstreamBitSample n b => Sys2Proof.Machine.execBitstreamBitSample n b s
  | .uartReceive n b bad => Sys2Proof.Machine.execUartReceive n b bad s
  | .angleWordAdvance dt => Sys2Proof.Machine.execAngleWordAdvance dt s
  | .upset u => Sys2Proof.Machine.execUpset u s
  | .linkFrameError p => Sys2Proof.Machine.execLinkFrameError p s
  | .jtagTckEdge rise tms tdi pins => Sys2Proof.Machine.execJtagTckEdge rise tms tdi pins s
  | .trstNAssert => Sys2Proof.Machine.execTrstNAssert s
  | .dozeExitComplete => Sys2Proof.Machine.execDozeExitComplete s
  | .x32CrystalStart => Sys2Proof.Machine.execX32CrystalStart s
  | .firmwareTimerTick => Sys2Proof.Machine.execFirmwareTimerTick s

end Sys2Proof.Machine
end

