-- ==== Sys2Proof/Safety.lean ====
section
/-! DEFINITION. The terms in which the statements speak: the canonical form of the memories, what no command may change, and
when a conductor instruction issues without a trap. -/

namespace Sys2Proof.Machine

open Sys2Proof

/-- The canonical form of a memory whose unlisted bytes read `blank`: addresses strictly rising, no entry equal to it. -/
def Memory.wf (blank : Byte) (m : Tbl Byte) : Bool := twf blank m

/-- What holds in every state that the commands reach: the register bank and the memories are in canonical form (the sample
store, the configuration memory, the capture RAM, the array's planes and plane pointers, conductor memory, flash, the trace
buffer, the mailbox), and the queues whose depth the manual gives do not exceed it (R592, R614). -/
structure Sound (s : State) : Prop where
  regs : twf 0 s.regs = true
  staged : twf 0 s.staged = true
  recs : twf 0 s.smp.recs = true
  stamps : twf 0 s.smp.stamps = true
  cfg : twf 0 s.hdg.cfg = true
  capRam : twf 0 s.hdg.capRam = true
  planes : twf 0 s.arr.planes = true
  pp : twf 0 s.arr.pp = true
  mem : Memory.wf 0 s.cnd.mem = true
  flash : Memory.wf 0xFF s.boot.flash = true
  buf : twf 0 s.trc.buf = true
  mbxCmd : Memory.wf 0 s.prt.mbxCmd = true
  mbxRpl : Memory.wf 0 s.prt.mbxRpl = true
  ring : s.flt.ring.length ≤ 16
  queue : s.trc.queue.length ≤ 16

/-- What no command changes: the stepping, the authentication fuse, the key digests and FACTORY_USES (R630, R651). -/
def fuses (s : State) : Bool × Bool × Tbl (List Byte) × Nat :=
  (s.boot.stepB1, s.boot.authFuse, s.boot.keys, s.boot.factory)

/-- The instruction has waited for the registers it reads and for the FPU (R351). -/
def waited (o : COp) (s : State) : State :=
  let s0 := modCnd s (fun c => { c with waiting := false })
  spend s0 (max (waitFor s0 o.reads) (if o.fpu.isSome then s0.cnd.fpuBusy else 0))

/-- The instruction is fetched: its issue is traced, and correctable errors of its words are removed (R192, R596). -/
def fetched (o : COp) (s : State) : State :=
  let s1 := waited o s
  spanFix (tracePc (modCnd s1 (fun c => { c with last := c.pc }))) s1.cnd.pc.toNat o.size

/-- The state on which the instruction acts: correctable errors of its data are removed as well (R192). -/
def issueAt (o : COp) (s : State) : State :=
  match o.acc with
  | some a => if a.plane then fetched o s else spanFix (fetched o s) a.ea.toNat a.size
  | none => fetched o s

/-- The instruction issues and takes no trap of R353 that every instruction can take: the conductor issues instructions, the
handler's count has not run out, the fetch meets no trap, the encoding is defined in this mode and place, and its data access
meets no trap (R233, R350, R355, R375, R378). -/
def runsClean (o : COp) (s : State) : Bool :=
  cndReady s && !budgetOut s && !budgetOut (waited o s) && (fetchTrap (waited o s) o.size).isNone &&
    (s.cnd.rep.isNone || o.rept) && !o.illegal && (o.acc.bind (dataTrap (fetched o s))).isNone

/-- The conductor with what time, waiting, late results and error correction move taken out. -/
def still (c : Cnd) : Cnd :=
  { c with
    last := 0, waiting := false, dlv := [], fpuBusy := 0, hExec := 0, fwUsed := 0, fwStep := 0, mem := [], memErr := [],
    handler := c.handler.map (fun h => { h with budget := 0, vleft := 0 }) }

/-- `t` is `u` once an instruction is done with it: the programming registers, the special registers, the modes and the memory
are those of `u`, and so are all register-bank registers but the preemption maximum (0x0648) and the count of corrections
(0x0830), and so is every other block; beside those two only counts of cycles, the record of late results, the trace and
corrected errors may differ. -/
structure CndDone (u t : State) : Prop where
  cnd : still t.cnd = still u.cnd
  mem : u.cnd.memErr = [] → t.cnd.mem = u.cnd.mem ∧ t.cnd.memErr = []
  regs : ∀ r, r ≠ 0x0648 → r ≠ 0x0830 → rd t r = rd u r
  others : { t with regs := u.regs, cnd := u.cnd, trc := u.trc } = u

/-- The conductor instruction `i` on `s` has its effect: a next state, which is `u` once the instruction is done with it. -/
def finishes (i : Instr) (s u : State) : Prop := ∃ t, exec i s = .next t ∧ CndDone u t

/-- The firmware issues an instruction of `size` bytes and meets no trap before its decoding: it runs outside a trap and outside
a repeat sequence, and the fetch meets no trap (R233, R350, R355, R378). -/
def fwIssues (s : State) (size : Nat) : Bool :=
  cndReady s && !hm s && !s.cnd.indf && decide (cwp s ≠ 7) && s.cnd.rep.isNone && (fetchTrap s size).isNone

/-- A vector is entered from `u`, whose PC is the address of resumption: the registers that R356 writes, the mode and the window,
and nothing else, but for counts of cycles, corrected errors and the trace. -/
structure Entered (u t : State) (v code : Nat) (addr : Word) : Prop where
  epc : rd t 0x0610 = u.cnd.pc
  estat : rd t 0x0614 = u.cnd.cstat
  ewp : rd t 0x0618 = u.cnd.wp
  ecause : rd t 0x061C = BitVec.ofNat 32 (v + 256 * code + if hm u then 65536 else 0)
  eaddr : rd t 0x0620 = addr
  cstat : t.cnd.cstat = u.cnd.cstat &&& 0xFFFCFFBF
  wp : t.cnd.wp = u.cnd.wp ||| 7
  pc : t.cnd.pc = rd u 0x060C + BitVec.ofNat 32 (16 * v)
  a : t.cnd.a = u.cnd.a
  d : t.cnd.d = u.cnd.d
  win : t.cnd.win = u.cnd.win
  k : t.cnd.k = u.cnd.k
  f : t.cnd.f = u.cnd.f
  lc : t.cnd.lc = u.cnd.lc
  slim : t.cnd.slim = u.cnd.slim
  ipend : t.cnd.ipend = u.cnd.ipend
  handler : t.cnd.handler = u.cnd.handler
  mem : u.cnd.memErr = [] → t.cnd.mem = u.cnd.mem
  regs : ∀ r, r ∉ ([0x0610, 0x0614, 0x0618, 0x061C, 0x0620, 0x0648, 0x0830] : List Nat) → rd t r = rd u r
  others : { t with regs := u.regs, cnd := u.cnd, trc := u.trc } = u

/-- A handler issues an instruction that reads no register and meets no trap before its decoding, outside a trap and outside a
repeat sequence, with count left. -/
def handlerIssues (s : State) : Bool :=
  cndReady s && (inHandler s).isSome && !budgetOut s && !s.cnd.indf && decide (cwp s ≠ 7) && s.cnd.rep.isNone &&
    (fetchTrap s 4).isNone

/-- The slots of the computation `k` have no outcome yet. -/
def unanswered (s : State) (k : Comp) : Prop :=
  ∀ f ∈ s.frm.frames, f.count = k.count → ∀ x ∈ f.slots, x.fp = k.fp → x.outcome = none ∧ x.posted = false

/-- The computation `k` has ended with the outcome given: its slot has it, its handler is gone, its macros are gone, and the drain
begins (R93, R94, R109). -/
structure CompEnded (k : Comp) (status detail : Nat) (t : State) : Prop where
  slot : ∀ f ∈ t.frm.frames, f.count = k.count → ∀ x ∈ f.slots, x.fp = k.fp → x.outcome = some (status, detail)
  comp : t.frm.comp = none
  drain : t.frm.drain = some (k.fp, k.count)
  drained : t.frm.drained = false
  handler : t.cnd.handler = none
  queue : t.arr.queue = []
  run : t.arr.run = none

/-- The macro word `w`, with extension word `x` and table row `i`, stands at the head of the queue of the computing program `k`,
whose handler still runs, and meets no trap, range fault or parity error (R237, R728, R729). -/
def macroIssues (s : State) (k : Comp) (w x : Word) (i : MacroInfo) : Prop :=
  s.frm.comp = some k ∧ k.handlerDone = false ∧ s.arr.run = none ∧
    (∃ rest, s.arr.queue = w :: rest ∧ issue s k w rest = some (.ok (i, x))) ∧
    (∀ p ∈ macroPlanes s i, inRange s (fpPart k.fp) p = true) ∧ parityHit s (macroReads s i) = none ∧
    twf 0 s.arr.planes = true

/-- The macro of row `i` issued on `s` has retired in `t` (R234, R242, R243): `u` is `s` with the macro's own effect. Beyond it,
the macro has left the queue, its count is taken from the allowance, its work planes are 0 in the active PEs, and X and Y are 0
there when it executed PE microwords. -/
structure MacroDone (s u t : State) (i : MacroInfo) : Prop where
  queue : t.arr.queue = s.arr.queue.drop (if i.ext then 2 else 1)
  retired : t.arr.retired = (s.arr.retired + 1) % 65536
  allow : t.arr.allow = s.arr.allow - i.cyc
  x : t.arr.x = if i.cyc = 1 then u.arr.x else u.arr.x &&& ~~~active u
  y : t.arr.y = if i.cyc = 1 then u.arr.y else u.arr.y &&& ~~~active u
  work : ∀ j < i.work, plane t (pp s 14 + j) = plane u (pp s 14 + j) &&& ~~~active u
  planes : ∀ p, (∀ j < i.work, (pp s 14 + j) % 2048 ≠ p % 2048) → plane t p = plane u p
  array : { t.arr with
    queue := u.arr.queue, retired := u.arr.retired, allow := u.arr.allow, x := u.arr.x, y := u.arr.y,
    planes := u.arr.planes, perr := u.arr.perr } = u.arr
  others : { t with arr := u.arr, trc := u.trc } = u

/-- The macro command `c` of opcode `op` runs on `s` to its retirement, with `u` its own effect. -/
def macroRuns (s : State) (w : Word) (i : MacroInfo) (op : Nat) (c : Instr) (u : State) : Prop :=
  mOp w = op → ∃ t, exec c s = .next t ∧ MacroDone s u t i

/-- The routine `r` of the computing program `k` is about to execute the microword `w`: it holds in no WAIT, and the word fetched
from its frame's image has no error (R252, R280, R285). -/
def fetches (s : State) (k : Comp) (r : Routine) (w : BitVec 40) : Prop :=
  s.frm.comp = some k ∧ s.arr.run = some r ∧ r.wait = none ∧ s.arr.topErr = [] ∧
    ∃ t, frameImg s (fpPart k.fp) k.count = some t ∧ tget 0 t.words r.upc = w

/-- A loss of the source detected in `u` left the clock coasting in `t` (R62, R63): from the angle reached, at the last rate, with the
full budget, the open frame marked. -/
structure Coasts (u t : State) : Prop where
  st : t.ang.st = .coasting
  left : t.ang.coastLeft = fld (rd u 0x023C) 0 4 * 1048576
  phase : t.ang.phase = u.ang.phase
  meas : t.ang.meas = u.ang.phase
  rate : (t.ang.rateN, t.ang.rateD) = (u.ang.rateN, u.ang.rateD)
  frameOpen : t.ang.frameOpen = true
  coasted : t.ang.coasted = true
  count : t.ang.count48 = u.ang.count48
  pos : t.ang.pos = u.ang.pos
  flags : rd t 0x0208 = rd u 0x0208 ||| 4
  frames : t.frm = { u.frm with frames := u.frm.frames.map (fun f =>
    if f.count = u.ang.count48 then { f with coasted := true } else f) }
  regs : ∀ r, r ≠ 0x0208 → rd t r = rd u r
  others : { t with ang := u.ang, frm := u.frm, regs := u.regs } = u

/-- The slots of the frame that ingests have no outcome. -/
def ingestBlank (s : State) : Prop :=
  ∀ f, ingesting s = some f → ∀ g ∈ s.frm.frames, g.count = f.count → ∀ x ∈ g.slots, x.outcome = none ∧ x.posted = false

/-- The clock of `u` entered LOST and then ACQUIRING in `t` (R64, R66): the open frame is abandoned, and each of its slots carries
ANGLE_LOST with the DETAIL `d`. -/
structure LostSource (u t : State) (d : Nat) : Prop where
  st : t.ang.st = .acquiring
  frameOpen : t.ang.frameOpen = false
  count : t.ang.count48 = u.ang.count48
  pos : t.ang.pos = u.ang.pos
  flags : rd t 0x0208 = rd u 0x0208 ||| 2
  slots : u.ang.frameOpen = true → ∀ f, ingesting u = some f → ∀ g ∈ t.frm.frames, g.count = f.count →
    (g.st = .posting ∨ g.st = .drained) ∧ ∀ x ∈ g.slots, x.outcome = some (0x23, d)
  regs : ∀ r, r ≠ 0x0208 → rd t r = rd u r
  others : { t with ang := u.ang, frm := u.frm, regs := u.regs, trc := u.trc } = u

/-- Nothing but the frames themselves acts at a boundary of `s`: a solo device in RUN or DOZE with its clock enabled, no change or
command pending, no repair to release, no record held by a lane, and every older frame past its computation. -/
def quietBoundary (s : State) : Prop :=
  s.grp.role = 0 ∧ s.grp.retired = false ∧ s.pwr.st < 2 ∧ angEn s = true ∧ s.prt.changes = [] ∧ s.prt.opens = [] ∧
    s.scb.repaired = [] ∧ s.smp.lanes = [] ∧
    ∀ g ∈ s.frm.frames, g.st = .ingesting ∨ g.st = .posting ∨ g.st = .drained

/-- A frame opened in `t` at the boundary taken in `s` (R42, R86, R91, R92): the next number, phase 0, its half, and one slot for every
program that is enabled and not suspended, in the order of R92. -/
structure FrameOpens (s t : State) (g : Frame) : Prop where
  count : t.ang.count48 = nextCount s
  phase : t.ang.phase = 0
  frameOpen : t.ang.frameOpen = true
  st : t.ang.st = .locked
  openAt : t.ang.openAt = s.now
  own : g.count = nextCount s
  ingests : g.st = .ingesting
  half : g.half = (nextCount s).getLsbD 0
  slots : ∀ k, (∃ x ∈ g.slots, x.fp = k) ↔
    k < 16 ∧ (prog s k).enabled = true ∧ (prog s k).susp = false ∧ holdQ t (fpPart k) = []
  order : g.slots.Pairwise (fun x y => x.prio < y.prio ∨ x.prio = y.prio ∧ x.fp < y.fp)
  blank : ∀ x ∈ g.slots, x.prio = (prog s x.fp).prio ∧ x.outcome = none ∧ x.posted = false ∧ x.started = false
  interrupt : t.cnd.ipend.getLsbD 1 = true

/-- A reply to the order `o` can be posted at once: it goes to the mailbox, or its ring has an entry free and nothing held. -/
def canPost (s : State) (o : Order) : Prop :=
  o.mbx = true ∨ holdQ s o.part = [] ∧ rqCount s o.part < rqDepth s o.part

/-- The 64 bytes of a command reply (R451, R453): KIND 0, the status, the order's TAG, OPCODE, stamp and SSEQ, the DETAIL and the
body. -/
def entryIs (e : List Byte) (o : Order) (status detail : Nat) (body : List Byte) : Prop :=
  e.length = 64 ∧ entryNat e 0 1 = 0 ∧ entryNat e 1 1 = status ∧ entryNat e 4 2 = o.tag % 65536 ∧ entryNat e 6 2 = o.opcode % 65536 ∧
    entryNat e 8 4 = o.stamp % 2 ^ 32 ∧ entryNat e 12 4 = o.sseq.toNat ∧ entryNat e 24 4 = detail % 2 ^ 32 ∧
    e.drop 32 = (body ++ List.replicate 32 0).take 32

/-- The order `o` of `s` has been answered in `t` (R390, R396, R400): through the mailbox, ACCEPTED only in its state and a final reply in
the RPL region; through a ring by an entry at the TAIL of its reply ring, which has advanced by one. -/
def Replied (s t : State) (o : Order) (status detail : Nat) (body : List Byte) : Prop :=
  (o.mbx = true → status = 1 → t.prt.mbx = .accepted) ∧
    (o.mbx = true → status ≠ 1 → t.prt.mbx = .ready ∧ entryIs (tgets 0 t.prt.mbxRpl 0 64) o status detail body) ∧
    (o.mbx = false → tget 0 t.prt.rqTail o.part = (tget 0 s.prt.rqTail o.part + 1) % 65536 ∧
      entryIs (rdBytes t (rqAddr s o.part (tget 0 s.prt.rqTail o.part)) 64) o status detail body)

/-- The order that the submission `x` of `s` carries (R449). -/
def orderAt (s : State) (x : Sub) : Order := (cmdOf s x).ord

/-- A parameter of the submission `x`: `n` bytes at offset `off` of its parameters (R449). -/
def param (s : State) (x : Sub) (off n : Nat) : Nat := entryNat (subBytes s x) (16 + off) n

/-- `x` is the order that is dispatched next, and no outstanding order has its stamp (R394, R395). -/
def isNext (s : State) (x : Sub) : Prop :=
  dispatches s = true ∧ nextOrder s = some x ∧ (∀ w ∈ s.prt.opens, w.ord.stamp ≠ x.stamp) ∧
    (∀ m ∈ s.prt.msgs, m.2.ord.stamp ≠ x.stamp) ∧ Memory.wf 0 s.cnd.mem = true ∧ twf 0 s.regs = true

/-- The header of the order `x`: its opcode, PLEN and MLEN, and nothing reserved (R449, R450). -/
def header (s : State) (x : Sub) (op plen mlen : Nat) : Prop :=
  entryNat (subBytes s x) 0 2 = op ∧ entryNat (subBytes s x) 4 2 = plen ∧ entryNat (subBytes s x) 6 1 < 2 ∧
    entryNat (subBytes s x) 7 1 = 0 ∧ entryNat (subBytes s x) 8 4 = mlen

/-- The order `x`, of the opcode and lengths given, is dispatched next on a solo device in RUN or DOZE that is not in SAFE mode, with no
change pending and beaten by no order of the other master (R395, R405, R458). -/
def Takes (s : State) (x : Sub) (op plen mlen : Nat) : Prop :=
  isNext s x ∧ header s x op plen mlen ∧ safeMode s = false ∧ s.pwr.st ≠ 2 ∧ s.grp.role = 0 ∧ s.grp.retired = false ∧
    s.prt.changes = [] ∧ x.beaten = none

/-- The order `o` has been answered with one reply and `t` is otherwise `u` (R390, R395, R396, R400): beside the mailbox's state and
reply, or the entry of the reply ring and its TAIL, and the trace, nothing differs. -/
structure Performed (u t : State) (o : Order) (status detail : Nat) (body : List Byte) : Prop where
  replied : Replied u t o status detail body
  prt : { t.prt with rqTail := u.prt.rqTail, mbx := u.prt.mbx, mbxRpl := u.prt.mbxRpl } = u.prt
  mem : ∀ m, o.mbx = true ∨ m < rqAddr u o.part (tget 0 u.prt.rqTail o.part) ∨
    rqAddr u o.part (tget 0 u.prt.rqTail o.part) + 64 ≤ m → rdMem t m = rdMem u m
  cnd : { t.cnd with mem := u.cnd.mem } = u.cnd
  others : { t with prt := u.prt, cnd := u.cnd, trc := u.trc } = u

/-- The command `i` on `s` has the effect that makes `u`, and posts the reply given. -/
def performs (i : Instr) (s u : State) (o : Order) (status detail : Nat) (body : List Byte) : Prop :=
  ∃ t, exec i s = .next t ∧ Performed u t o status detail body

/-- The command `i` on `s` is answered ACCEPTED, waits as `w` says, and has made `u` otherwise (R395, R396). -/
def accepts (i : Instr) (s u : State) (o : Order) (w : Wait) (body : List Byte) : Prop :=
  performs i s { u with prt := { u.prt with opens := u.prt.opens ++ [⟨o, w⟩] } } o 1 0 body

/-- A class B command's change is the one pending change of `u` (R462). -/
def withChange (u : State) (o : Order) (unit : ResUnit) (k : ChangeKind) : State :=
  { u with prt := { u.prt with changes := [{ unit := unit, mbx := o.mbx, stamp := o.stamp, kind := k, ord := some o }] } }

/-- A class M command's message stands open in the first free slot of `u` (R465). -/
def withMsg (u : State) (o : Order) (slot : Nat) (src : MsgSrc) (len p0 p1 : Nat) : State :=
  { u with prt := { u.prt with
    msgs := tput u.prt.msgs slot { ord := o, src := src, len := len, got := 0, data := [], p0 := p0, p1 := p1, done := false } } }

/-- A link transaction ended in `t` with the result `res` and the error code `errc`, `u` being the device with the packet's effect
(R422, R423, R425, R435, R445): the status word says so with NEXT, READY, SAFE and its own check, the flag and the count of the
result are set, and beside the trace nothing else changes. -/
structure LinkAnswer (u t : State) (res errc : Nat) : Prop where
  next : fld t.lnk.stat 0 8 = u.lnk.next.toNat
  result : fld t.lnk.stat 8 3 = res
  code : fld t.lnk.stat 11 5 = errc
  rqne : ∀ p < 4, bit t.lnk.stat (17 + p) = decide (rqCount u p ≠ 0)
  ready : bit t.lnk.stat 21 = u.boot.ready
  safe : bit t.lnk.stat 22 = safeMode u
  chk : BitVec.ofNat 8 (fld t.lnk.stat 24 8) = crc8 (leBytes 3 t.lnk.stat.toNat)
  flags : rd t 0x0B08 = rd u 0x0B08 |||
    (if res = 1 then 0x01 else if res = 2 then 0x02 else if res = 3 then 0x04 else if res = 4 then 0x10 else 0)
  crcErrors : fld (rd t 0x0B10) 0 16 = min 0xFFFF (fld (rd u 0x0B10) 0 16 + if res = 1 then 1 else 0)
  naks : fld (rd t 0x0B10) 16 16 = min 0xFFFF (fld (rd u 0x0B10) 16 16 + if res = 2 ∨ res = 3 then 1 else 0)
  regs : ∀ r, r ≠ 0x0B08 → r ≠ 0x0B10 → rd t r = rd u r
  others : { t with regs := u.regs, trc := u.trc, lnk := { t.lnk with stat := u.lnk.stat, resp := u.lnk.resp } } = u

/-- The response of a transaction: `d` and the CRC-32 over the status word and `d` (R435). -/
def responds (t : State) (d : List Byte) : Prop :=
  t.lnk.resp = d ++ leBytes 4 (crc32 (leBytes 4 t.lnk.stat.toNat ++ d)).toNat

/-- A packet of TYPE `typ` whose phases are complete arrives at a port that answers, with its CRC right (R419 to R421, R438). -/
def arrives (s : State) (typ : Nat) (h : LinkHdr) (read : Bool) (data : List Byte) (crc : Word) : Prop :=
  portOn s = true ∧ s.boot.ready = true ∧ h.len.toNat ≤ 4096 ∧ data.length = (if read then 0 else h.len.toNat) ∧
    crc = crc32 (hdrBytes typ h ++ data)

/-- No reserved header field of the packet is set (R419, R426, R430, R466). -/
def cleanHdr (typ : Nat) (h : LinkHdr) : Prop :=
  h.part.toNat < 4 ∧ (typ ≤ 2 → h.part = 0) ∧ h.r3 = 0 ∧ (5 ≤ typ → h.addr &&& 0xCCE00000 = 0) ∧ h.r10 = 0

/-- The packet is accepted by a solo device, and breaks no rule of reserved fields (R424 to R427). -/
def accepted (s : State) (typ : Nat) (h : LinkHdr) (read : Bool) (data : List Byte) (crc : Word) : Prop :=
  arrives s typ h read data crc ∧ h.seq = s.lnk.next ∧ s.lnk.used < 2 ∧ (read = true → s.lnk.used = 0) ∧ cleanHdr typ h ∧
    s.grp.role = 0 ∧ s.grp.retired = false

/-- `u` with one packet consumed (R424, R427): NEXT and the count of accepted packets advance, and a write that executes takes a
receive buffer. -/
def tookPacket (u : State) (buffer : Bool) : State :=
  wr { u with lnk := { u.lnk with next := u.lnk.next + 1, used := u.lnk.used + if buffer then 1 else 0 } } 0x0B0C (rd u 0x0B0C + 1)

/-- A reset of the cause given has started in `t` (R532, R633 to R635, R658): READY is low, the block waits for its boot, every register but
TMP_SHUT, every ring and message, conductor memory, the array, the fabric's cells and the sample store have their reset values;
fuses, erase counters, straps, supplies and JTAG stay, and so does flash when no operation ran. -/
structure ResetDone (s t : State) (cause : Nat) : Prop where
  held : t.boot.inReset = true ∧ t.boot.ready = false ∧ t.boot.ports = false ∧ t.boot.running = none
  reason : t.boot.cause = cause
  tries : t.boot.tries =
    (let steady := s.boot.ready = true ∧ 200000000 ≤ s.now - s.boot.readyAt
     let n := if steady then 0 else s.boot.tries
     if cause = 1 ∨ cause = 7 then 0 else if cause = 5 ∨ cause = 8 then (if steady then n else min 4 (n + 1)) else n)
  regs : ∀ r, r ≠ 0x0F90 → rd t r = rd State.reset r
  shut : rd t 0x0F90 = rd s 0x0F90
  staged : t.staged = State.reset.staged
  ang : t.ang = Ang.reset
  frm : t.frm = Frm.reset
  smp : t.smp = Smp.reset
  arr : t.arr = Arr.reset
  cnd : t.cnd = Cnd.reset
  prt : t.prt = Prt.reset
  lnk : t.lnk = Lnk.reset
  trc : t.trc = Trc.reset
  flt : t.flt = Flt.reset
  cells : t.hdg.cells = [] ∧ t.hdg.cfg = [] ∧ t.hdg.bank = false
  flash : s.boot.op = none → s.flt.capturing = [] → t.boot.flash = s.boot.flash
  kept : t.boot.ecnt = s.boot.ecnt ∧ t.boot.straps = s.boot.straps ∧ fuses t = fuses s ∧ t.jtag = s.jtag ∧ t.pending = s.pending
  power : t.pwr.st = 0 ∧ t.pwr.pend = false ∧ t.pwr.supplies = s.pwr.supplies ∧ t.pwr.shutdown = s.pwr.shutdown ∧ t.now = s.now

/-- A change of partition p's trace alone: the queue gains entries of p at its end, and the trace RAM, the latched registers and the
other partitions' units stay. -/
structure TraceOf (p : Nat) (s t : State) : Prop where
  frame : t = { s with trc := t.trc }
  buf : t.trc.buf = s.trc.buf
  queue : ∃ es, t.trc.queue = s.trc.queue ++ es ∧ ∀ e ∈ es, e.1 = p
  others q : q ≠ p → trc t q = trc s q
  unit : let x := trc s p
    let y := trc t p
    y.ctl = x.ctl ∧ y.wptr = x.wptr ∧ y.seen = x.seen

/-- The last entry of the queue is one of partition p with this type and payload, where the partition has blocks and the queue had
room for it and for the entries that precede it. -/
def Wrote (p typ payload : Nat) (s t : State) : Prop :=
  trcBlocks s p ≠ 0 → s.trc.queue.length ≤ 10 → ∃ dt, t.trc.queue.getLast? = some (p, entryWord typ p dt payload)

/-- The channels of `m` stop with this reason (R586, R593). -/
def Stops (p : Nat) (m : BitVec 4) (reason : Nat) (s t : State) : Prop :=
  let off := (trc s p).rec_ &&& m
  (trc t p).rec_ = (trc s p).rec_ &&& ~~~m ∧ (off ≠ 0 → Wrote p 0xF (3 + 8 * reason + 256 * off.toNat) s t)

/-- The post-trigger scheme of p triggers on event `code`, `src` 0 the TRIG register and 1 the sequencer, where it is enabled and has
not triggered; otherwise nothing happens (R594). -/
def Triggered (p code src : Nat) (s t : State) : Prop :=
  let x := trc s p
  let y := trc t p
  let n := fld (tget 0 x.ctl 0x0C) 0 16
  if bit (rd s (trcReg p 0)) 11 = true ∧ x.triggered = false then
    TraceOf p s t ∧ y.triggered = true ∧ y.trigAt = s.now ∧ y.post = n ∧ y.seqSt = x.seqSt ∧ y.c0 = x.c0 ∧ y.c1 = x.c1 ∧
      y.events = x.events ∧ y.stopSeq = x.stopSeq ∧
      (n ≠ 0 → y.rec_ = x.rec_ ∧ y.stopPost = x.stopPost ∧ (x.rec_ ≠ 0 → Wrote p 0xF (2 + 8 * code + 256 * src) s t)) ∧
      (n = 0 → y.stopPost = true ∧ Stops p (~~~(seqMask s p)) (fld (tget 0 x.ctl 0x0C) 16 1) s t)
  else t = s

end Sys2Proof.Machine
end

