-- ==== Sys2Proof/Certificates/Slice0/Obligations.lean ====
section
/-! DEFINITION. The statements for the provers. -/

open Sys2Proof Sys2Proof.Machine

/-- One step executes the command at the front of the queue on the state with the queue's rest. -/
def Obligations.StepRunsTheFrontCommand : Prop :=
  ∀ (s : State) (c : Instr) (cs : List Instr), step { s with pending := c :: cs } = exec c { s with pending := cs }

/-- The integer instructions of two source registers write their result and nothing else, in every mode (R317, R318, R340). The integer
instructions of one source register (R317, R340): leading zeros are the `n` of 32 for which the value has exactly 32 − n significant
bits. The integer instructions of a register and a constant: an arithmetic or signed-compare constant is extended by its sign, a logical
or unsigned one by zeros; MOVHI and MOVI load a constant (R317, R337, R340). Branches and jumps (R340, R343): the target is the address
of the following instruction plus 4 × DISP; a conditional branch that is not taken goes on; a jump to a register goes to its value,
which is a multiple of 4. -/
def Obligations.ConductorIntegersAndBranches : Prop :=
  (∀ (s : State) (d a b : Fin 16), runsClean (op1 [dKey s a, dKey s b]) s = true →
     let x := dReg s a
     let y := dReg s b
     let n := y.toNat % 32
     let truth := fun (p : Bool) => if p then (1 : Word) else 0
     let done := fun (i : Instr) (v : Word) => finishes i s (goNext (setD s d v) 4)
     done (.cAdd d a b) (x + y) ∧ done (.cSub d a b) (x - y) ∧ done (.cAnd d a b) (x &&& y) ∧ done (.cOr d a b) (x ||| y) ∧
     done (.cXor d a b) (x ^^^ y) ∧ done (.cAndn d a b) (x &&& ~~~y) ∧ done (.cSll d a b) (x <<< n) ∧
     done (.cSrl d a b) (x >>> n) ∧ done (.cSra d a b) (x.sshiftRight n) ∧ done (.cRor d a b) (x.rotateRight n) ∧
     done (.cSeq d a b) (truth (x == y)) ∧ done (.cSne d a b) (truth (x != y)) ∧
     done (.cSlt d a b) (truth (decide (x.toInt < y.toInt))) ∧ done (.cSltu d a b) (truth (decide (x.toNat < y.toNat))) ∧
     done (.cSle d a b) (truth (decide (x.toInt ≤ y.toInt))) ∧ done (.cSleu d a b) (truth (decide (x.toNat ≤ y.toNat))) ∧
     done (.cMin d a b) (if x.toInt ≤ y.toInt then x else y) ∧ done (.cMax d a b) (if x.toInt ≤ y.toInt then y else x) ∧
     done (.cMinu d a b) (if x.toNat ≤ y.toNat then x else y) ∧ done (.cMaxu d a b) (if x.toNat ≤ y.toNat then y else x) ∧
     (finishes (.cMovnz d a b) s (goNext (if y = 0 then s else setD s d x) 4)) ∧
     (finishes (.cMovz d a b) s (goNext (if y = 0 then setD s d x else s) 4))) ∧
  (∀ (s : State) (d a : Fin 16), runsClean (op1 [dKey s a]) s = true →
     let x := dReg s a
     let done := fun (i : Instr) (v : Word) => finishes i s (goNext (setD s d v) 4)
     done (.cMov d a) x ∧ done (.cNot d a) (~~~x) ∧ done (.cNeg d a) (-x) ∧ done (.cSextb d a) ((x.setWidth 8).signExtend 32) ∧
     done (.cSexth d a) ((x.setWidth 16).signExtend 32) ∧ done (.cZexth d a) (x &&& 0xFFFF) ∧
     done (.cPopc d a) (BitVec.ofNat 32 ((List.finRange 32).countP (fun i => x.getLsbD i))) ∧
     ∀ n ≤ 32, x.toNat < 2 ^ (32 - n) → (n < 32 → 2 ^ (31 - n) ≤ x.toNat) → done (.cClz d a) (BitVec.ofNat 32 n)) ∧
  (∀ (s : State) (d a : Fin 16) (k : BitVec 16) (w : Word) (n : Fin 32),
     let x := dReg s a
     let sx := k.signExtend 32
     let zx := k.setWidth 32
     let truth := fun (p : Bool) => if p then (1 : Word) else 0
     let done := fun (i : Instr) (v : Word) => finishes i s (goNext (setD s d v) 4)
     (runsClean (op1 [dKey s a]) s = true →
       done (.cAddi d a k) (x + sx) ∧ done (.cAndi d a k) (x &&& zx) ∧ done (.cOri d a k) (x ||| zx) ∧
       done (.cXori d a k) (x ^^^ zx) ∧ done (.cSlti d a k) (truth (decide (x.toInt < sx.toInt))) ∧
       done (.cSltiu d a k) (truth (decide (x.toNat < k.toNat))) ∧ done (.cSeqi d a k) (truth (x == sx)) ∧
       done (.cSnei d a k) (truth (x != sx)) ∧ done (.cShi d a 0 n) (x <<< n.val) ∧ done (.cShi d a 1 n) (x >>> n.val) ∧
       done (.cShi d a 2 n) (x.sshiftRight n) ∧ done (.cShi d a 3 n) (x.rotateRight n)) ∧
     (runsClean (op1 []) s = true → done (.cMovhi d k) (k ++ (0 : BitVec 16))) ∧
     (runsClean ({ op1 [] with size := 8 }).once s = true → finishes (.cMovi d w) s (goNext (setD s d w) 8))) ∧
  (∀ (s : State) (t : Fin 16) (n : Fin 8) (disp : BitVec 22),
     let goes := fun (i : Instr) (a : Word) => finishes i s { s with cnd := { s.cnd with pc := a } }
     let target := s.cnd.pc + 4 + 4 * disp.signExtend 32
     (runsClean (opCtl [dKey s t] 1) s = true →
       goes (.cBz t disp) (if dReg s t = 0 then target else s.cnd.pc + 4) ∧
       goes (.cBnz t disp) (if dReg s t = 0 then s.cnd.pc + 4 else target)) ∧
     (runsClean (opCtl [] 2) s = true → goes (.cBra disp) target) ∧
     (runsClean (opCtl [aKey n] 2) s = true → (aReg s n).toNat % 4 = 0 → goes (.cJmpr n) (aReg s n)))

/-- Address arithmetic is performed modulo 2^32 (R318); LEAX scales a signed register by 1, 2, 4 or 8 (R333). Multiply and divide (R307 to
R309, R319): the exact 64-bit product in an even pair, the low word of it, and quotient and remainder in an even pair; the quotient is
rounded toward zero and the remainder has the dividend's sign; a zero divisor gives 0xFFFF_FFFF, the dividend, and CSTAT.IDZ. The
accumulators (R307, R321, R342): a multiply-accumulate adds or subtracts the extended product modulo 2^72 and signals nothing; KWR and
KRD move a part; KSAT and KSATR deliver the shifted value clamped to 32 bits, KSATR after adding half of the last place, and set KOV
when they clamp. -/
def Obligations.ConductorAddressesProductsAndAccumulators : Prop :=
  (∀ (s : State) (d a : Fin 8) (e b : Fin 16) (sc : Fin 4) (k : BitVec 16),
     let x := aReg s a
     let y := dReg s b
     let doneA := fun (i : Instr) (v : Word) => finishes i s (goNext (setA s d v) 4)
     (runsClean (op1 [aKey a, dKey s b]) s = true →
       doneA (.cAdda d a b) (x + y) ∧ doneA (.cSuba d a b) (x - y) ∧
       doneA (.cLeax d a b sc) (x + y * BitVec.ofNat 32 (2 ^ sc.val))) ∧
     (runsClean (op1 [aKey a]) s = true →
       doneA (.cAddai d a k) (x + k.signExtend 32) ∧ doneA (.cMovaa d a) x ∧
       finishes (.cMovad e a) s (goNext (setD s e x) 4)) ∧
     (runsClean (op1 [dKey s b]) s = true → doneA (.cMova d b) y)) ∧
  (∀ (s : State) (d a b : Fin 16),
     let x := dReg s a
     let y := dReg s b
     let reads := [dKey s a, dKey s b]
     let pair := fun (lo hi : Word) => setD (setD s d lo) (d + 1) hi
     let wide := fun (v : BitVec 64) => pair (v.setWidth 32) ((v >>> 32).setWidth 32)
     (runsClean { op1 reads with illegal := d.val % 2 == 1 } s = true →
       finishes (.cMulS d a b) s (goNext (wide (x.signExtend 64 * y.signExtend 64)) 4) ∧
       finishes (.cMulU d a b) s (goNext (wide (x.setWidth 64 * y.setWidth 64)) 4) ∧
       (y ≠ 0 →
         finishes (.cDivS d a b) s (goNext (pair (x.sdiv y) (x.srem y)) 4) ∧
         finishes (.cDivU d a b) s (goNext (pair (x / y) (x % y)) 4)) ∧
       (y = 0 →
         finishes (.cDivS d a b) s (goNext (orCstat (pair 0xFFFFFFFF x) 0x20) 4) ∧
         finishes (.cDivU d a b) s (goNext (orCstat (pair 0xFFFFFFFF x) 0x20) 4))) ∧
     (runsClean (op1 reads) s = true → finishes (.cMullo d a b) s (goNext (setD s d (x * y)) 4))) ∧
  (∀ (s : State) (k j : Fin 4) (a b d : Fin 16) (sh : Fin 41),
     let x := dReg s a
     let y := dReg s b
     let done := fun (i : Instr) (v : BitVec 72) => finishes i s (goNext (setK s k v) 4)
     let sat := fun (v : Int) =>
       let q := v / (2 ^ sh.val : Nat)
       if q < -2147483648 then orCstat (setD s d 0x80000000) 0x80
       else if 2147483647 < q then orCstat (setD s d 0x7FFFFFFF) 0x80
       else setD s d (BitVec.ofInt 32 q)
     (runsClean (op1 [kKey k, dKey s a, dKey s b]) s = true →
       done (.cKmacS k a b) (kReg s k + x.signExtend 72 * y.signExtend 72) ∧
       done (.cKmacU k a b) (kReg s k + x.setWidth 72 * y.setWidth 72) ∧
       done (.cKmsbS k a b) (kReg s k - x.signExtend 72 * y.signExtend 72) ∧
       done (.cKmsbU k a b) (kReg s k - x.setWidth 72 * y.setWidth 72)) ∧
     (runsClean (op1 []) s = true → done (.cKclr k) 0) ∧
     (runsClean (op1 [kKey k, dKey s a]) s = true →
       done (.cKwr k a 0) ((kReg s k &&& ~~~(0xFFFFFFFF : BitVec 72)) ||| x.setWidth 72) ∧
       done (.cKwr k a 1) ((kReg s k &&& ~~~(0xFFFFFFFF00000000 : BitVec 72)) ||| (x.setWidth 72 <<< 32)) ∧
       done (.cKwr k a 2) ((kReg s k &&& (0xFFFFFFFFFFFFFFFF : BitVec 72)) ||| (x.setWidth 72 <<< 64))) ∧
     (runsClean (op1 [kKey k]) s = true →
       finishes (.cKrd d k 0) s (goNext (setD s d ((kReg s k).setWidth 32)) 4) ∧
       finishes (.cKrd d k 1) s (goNext (setD s d (((kReg s k) >>> 32).setWidth 32)) 4) ∧
       finishes (.cKrd d k 2) s (goNext (setD s d ((((kReg s k) >>> 64).setWidth 8).signExtend 32)) 4)) ∧
     (runsClean (op1 [kKey k]) s = true →
       finishes (.cKsat d k sh) s (goNext (sat (kReg s k).toInt) 4) ∧
       finishes (.cKsatr d k sh) s (goNext (sat ((kReg s k).toInt + if sh.val = 0 then 0 else 2 ^ (sh.val - 1))) 4)) ∧
     (runsClean (op1 [kKey j]) s = true → done (.cKmov k j) (kReg s j)))

/-- The loads (R320, R329, R333): the little-endian value at the effective address, extended by its sign or by zeros, the base stepped by
the size in the two stepping modes; a word load of a management register reads it, with the effect that reading it has. The plane-port
channel (R165, R233, R335): PLD of QPUSH reads 0, of QSTAT the free entries and the retired count, of QRES the result, and of a sample
record or stamp its word; PST to QPUSH appends its word, or holds the conductor while the queue is full, and the held store completes
when an entry has freed. -/
def Obligations.ConductorLoadsAndPlanePort : Prop :=
  (∀ (s : State) (d : Fin 16) (e n : Fin 8) (m : AddrMode),
     let op := fun (bad : Bool) (size : Nat) =>
       { op1 (addrKeys s n m) with illegal := bad, acc := some (accOf s n m size false) }
     let clean := fun (bad : Bool) (size : Nat) =>
       runsClean (op bad size) s = true ∧ isMgmt (effAddr s n m size) = false ∧ s.cnd.memErr = []
     let val := fun (size : Nat) => leNat (rdBytes s (effAddr s n m size).toNat size)
     let puts := fun (i : Instr) (size : Nat) (v : Word) => finishes i s (goNext (setD (stepBase s n m size) d v) 4)
     let putsF := fun (i : Instr) (size : Nat) => finishes i s (goNext (setF (stepBase s n m size) d (BitVec.ofNat 64 (val size))) 4)
     (clean false 1 → puts (.cLdB d n m) 1 ((BitVec.ofNat 8 (val 1)).signExtend 32) ∧ puts (.cLdBu d n m) 1 (BitVec.ofNat 32 (val 1))) ∧
     (clean false 2 → puts (.cLdH d n m) 2 ((BitVec.ofNat 16 (val 2)).signExtend 32) ∧ puts (.cLdHu d n m) 2 (BitVec.ofNat 32 (val 2))) ∧
     (clean false 4 → puts (.cLdW d n m) 4 (BitVec.ofNat 32 (val 4)) ∧ putsF (.cFldS d n m) 4) ∧
     (clean (d.val % 2 == 1) 8 →
       finishes (.cLdD d n m) s (goNext (setD (setD (stepBase s n m 8) d (BitVec.ofNat 32 (val 8))) (d + 1)
         (BitVec.ofNat 32 (val 8 / 2 ^ 32))) 4)) ∧
     (clean false 8 → putsF (.cFldD d n m) 8) ∧
     (clean (decide (e = n) && m.steps) 4 →
       finishes (.cLda e n m) s (goNext (setA (stepBase s n m 4) e (BitVec.ofNat 32 (val 4))) 4)) ∧
     (runsClean (op false 4) s = true → isMgmt (effAddr s n m 4) = true →
       let w := issueAt (op false 4) s
       let a := (effAddr s n m 4).toNat % 65536
       finishes (.cLdW d n m) s (goNext (setD (stepBase (latch w a) n m 4) d (regVal w a)) 4))) ∧
  (∀ (s : State) (d : Fin 16) (n : Fin 8) (m : AddrMode), twf 0 s.smp.stamps = true →
     let acc := fun (st : Bool) => some { accOf s n m 4 st with plane := true }
     let ea := (effAddr s n m 4).toNat
     (runsClean { (op1 (addrKeys s n m)).once with illegal := !m.plane, acc := acc false } s = true →
       let reads := fun (v : Word) => finishes (.cPld d n m) s (goNext (setD s d v) 4)
       (ea = 0x60000000 → reads 0) ∧
       (ea = 0x60000004 → reads (BitVec.ofNat 32 (256 - s.arr.queue.length + 65536 * s.arr.retired))) ∧
       (ea = 0x60000008 → reads s.arr.qres) ∧
       (0x70000000 ≤ ea → ea < 0x70080000 → xferBad s ea = false → reads (xferWord s ea)) ∧
       (0x70080000 ≤ ea → s.smp.stampErr = [] →
         let half := decide (0x70082000 ≤ ea)
         reads (if readHalf s = some half then stampWord s half (ea % 0x2000 / 8) (decide (ea % 8 = 4)) else 0))) ∧
     (runsClean { (op1 (dKey s d :: addrKeys s n m)).once with illegal := !m.plane, acc := acc true } s = true →
       (s.arr.queue.length < 256 →
         finishes (.cPst d n m) s (goNext { s with arr := { s.arr with queue := s.arr.queue ++ [dReg s d] } } 4)) ∧
       (256 ≤ s.arr.queue.length →
         finishes (.cPst d n m) s { s with cnd := { s.cnd with held := some (dReg s d) } })) ∧
     ∀ w, s.cnd.held = some w → s.arr.queue.length < 256 →
       exec .cQpushResume s = .next (goNext { s with
         cnd := { s.cnd with held := none }, arr := { s.arr with queue := s.arr.queue ++ [w] } } 4))

/-- The stores (R329, R332, R333): the bytes of the value at the effective address, lowest first, no other byte of memory changed, the base
stepped by the size in the two stepping modes. A word store of the firmware to a CND_ register that it writes takes effect, in the
register's defined bits, before the next instruction; every other register keeps its value, and a 1 in a reserved bit sets
RESERVED_FIELD (R17, R18, R332, R379). -/
def Obligations.ConductorStores : Prop :=
  (∀ (s : State) (d : Fin 16) (e n : Fin 8) (m : AddrMode), Memory.wf 0 s.cnd.mem = true → s.cnd.memErr = [] →
     let stores := fun (i : Instr) (bad : Bool) (size v : Nat) (keys : List Nat) =>
       let ea := effAddr s n m size
       runsClean { op1 (keys ++ addrKeys s n m) with illegal := bad, acc := some (accOf s n m size true) } s = true →
       isMgmt ea = false →
       ∃ t, exec i s = .next t ∧
         (∀ k < size, tget 0 t.cnd.mem (ea.toNat + k) = BitVec.ofNat 8 (v / 256 ^ k)) ∧
         (∀ a, a < ea.toNat ∨ ea.toNat + size ≤ a → tget 0 t.cnd.mem a = tget 0 s.cnd.mem a) ∧
         CndDone (goNext (stepBase { s with cnd := { s.cnd with mem := t.cnd.mem } } n m size) 4) t
     let x := (dReg s d).toNat
     let f := (fReg s d).toNat
     stores (.cStB d n m) false 1 x [dKey s d] ∧ stores (.cStH d n m) false 2 x [dKey s d] ∧
     stores (.cStW d n m) false 4 x [dKey s d] ∧
     stores (.cStD d n m) (d.val % 2 == 1) 8 (x + 2 ^ 32 * (dReg s (d + 1)).toNat) [dKey s d, dKey s (d + 1)] ∧
     stores (.cSta e n m) (decide (e = n) && m.steps) 4 (aReg s e).toNat [aKey e] ∧
     stores (.cFstS d n m) false 4 f [fKey d] ∧ stores (.cFstD d n m) false 8 f [fKey d]) ∧
  (∀ (s : State) (d : Fin 16) (e n : Fin 8) (m : AddrMode), twf 0 s.regs = true →
     let ea := effAddr s n m 4
     let a := ea.toNat % 65536
     isMgmt ea = true → fwWritable a = true →
     let writes := fun (i : Instr) (bad : Bool) (v : Word) (keys : List Nat) =>
       runsClean { op1 (keys ++ addrKeys s n m) with illegal := bad, acc := some (accOf s n m 4 true) } s = true →
       (v &&& ~~~fwMask a = 0 → ∃ t, exec i s = .next t ∧ rd t a = v ∧
         (∀ r, r ≠ a → r ≠ 0x0648 → r ≠ 0x0830 → rd t r = rd s r) ∧
         CndDone (goNext (stepBase { s with regs := t.regs } n m 4) 4) t) ∧
       (v &&& ~~~fwMask a ≠ 0 → ∃ t, exec i s = .next t ∧ rd t a = v &&& fwMask a ∧ bit (rd t 0x0E00) 0 = true ∧
         (∀ r, r ∉ [a, 0x0648, 0x0830, 0x0E00, 0x0E10, 0x0F0C, 0x0F10] → rd t r = rd s r) ∧ t.cnd.d = s.cnd.d ∧
         (s.cnd.rep = none → t.cnd.pc = s.cnd.pc + 4))
     writes (.cStW d n m) false (dReg s d) [dKey s d] ∧
     writes (.cSta e n m) (decide (e = n) && m.steps) (aReg s e) [aKey e])

/-- CALL and CALLR (R344): the address of the following instruction is stored through −(A7), the next window modulo 7 becomes current with
its eight registers 0, one more window is resident, and execution continues at the target. RET (R345) undoes it: it loads the return
address through (A7)+ and goes back to the window before. A repeat prefix sets LC to its count, or keeps LC when RIP is 1, and clears
RIP; a count of 0 skips the repeated instruction (R346). Each iteration of the sequence takes 1 from LC, and after the last one
execution continues at the following instruction. -/
def Obligations.ConductorCallsAndRepeats : Prop :=
  (∀ (s : State) (disp : BitVec 26) (n : Fin 8), Memory.wf 0 s.cnd.mem = true → s.cnd.memErr = [] →
     let sp := aReg s 7
     let calls := fun (i : Instr) (target : Word) =>
       ∃ t, exec i s = .next t ∧ t.cnd.pc = target ∧ aReg t 7 = sp - 4 ∧ (∀ j < 7, aReg t j = aReg s j) ∧
         rdWord t (sp - 4).toNat = s.cnd.pc + 4 ∧
         (∀ a, a < (sp - 4).toNat ∨ (sp - 4).toNat + 4 ≤ a → tget 0 t.cnd.mem a = tget 0 s.cnd.mem a) ∧
         cwp t = (cwp s + 1) % 7 ∧ wpOld t = wpOld s ∧ wpNres t = wpNres s + 1 ∧
         (∀ j, 8 ≤ j → j < 16 → dReg t j = 0) ∧
         (∀ j < 64, j / 8 ≠ cwp t → t.cnd.win.toList.getD j 0 = s.cnd.win.toList.getD j 0) ∧
         t.cnd.d = s.cnd.d ∧ t.cnd.k = s.cnd.k ∧ t.cnd.f = s.cnd.f ∧ t.cnd.lc = s.cnd.lc ∧ t.cnd.slim = s.cnd.slim ∧
         t.cnd.cstat = s.cnd.cstat ∧ (∀ r, r ≠ 0x0648 → r ≠ 0x0830 → rd t r = rd s r) ∧
         { t with regs := s.regs, cnd := s.cnd, trc := s.trc } = s
     let ret := { opCtl [aKey 7] 3 with acc := some { base := 7, ea := sp, size := 4, store := false, plane := false } }
     (wpNres s < 7 → runsClean { opCtl [aKey 7] 2 with acc := some (callAcc s) } s = true →
       calls (.cCall disp) (s.cnd.pc + 4 + 4 * disp.signExtend 32)) ∧
     (wpNres s < 7 → runsClean { opCtl [aKey n, aKey 7] 2 with acc := some (callAcc s) } s = true →
       (aReg s n).toNat % 4 = 0 → calls (.cCallr n) (aReg s n)) ∧
     (runsClean ret s = true → 1 < wpNres s → (∀ u, inRoutine s = some u → 0 < u.depth) →
       (rdWord s sp.toNat).toNat % 4 = 0 →
       ∃ t, exec .cRet s = .next t ∧ t.cnd.pc = rdWord s sp.toNat ∧ aReg t 7 = sp + 4 ∧ (∀ j < 7, aReg t j = aReg s j) ∧
         cwp t = (cwp s + 6) % 7 ∧ wpOld t = wpOld s ∧ wpNres t = wpNres s - 1 ∧ t.cnd.win = s.cnd.win ∧
         t.cnd.d = s.cnd.d ∧ t.cnd.k = s.cnd.k ∧ t.cnd.f = s.cnd.f ∧ t.cnd.lc = s.cnd.lc ∧ t.cnd.slim = s.cnd.slim ∧
         t.cnd.cstat = s.cnd.cstat ∧ t.cnd.mem = s.cnd.mem ∧ (∀ r, r ≠ 0x0648 → r ≠ 0x0830 → rd t r = rd s r) ∧
         { t with regs := s.regs, cnd := s.cnd, trc := s.trc } = s)) ∧
  (∀ (s : State) (d : Fin 16) (imm : BitVec 16) (nm1 : Fin 64),
     let begins := fun (i : Instr) (nested : Bool) (n : Word) =>
       let lc := if rip s then s.cnd.lc else n
       let c := { s.cnd with lc := lc, cstat := s.cnd.cstat &&& ~~~(0x40 : Word) }
       finishes i s { s with cnd :=
         if lc = 0 then { c with rep := none, pc := s.cnd.pc + 8 }
         else { c with
           rep := some { pc := s.cnd.pc, nested := nested, lc0 := s.cnd.lc, rip0 := rip s }, pc := s.cnd.pc + 4 } }
     (runsClean (opCtl (if rip s then [] else [dKey s d]) 1) s = true → begins (.cRpti (some d) imm) false (dReg s d)) ∧
     (runsClean (opCtl [] 1) s = true →
       begins (.cRpti none imm) false (imm.setWidth 32) ∧ begins (.cRptn nm1) true (BitVec.ofNat 32 (nm1.val + 1))) ∧
     ∀ r, s.cnd.rep = some r →
       (s.cnd.lc = 1 → goNext s 4 = { s with cnd := { s.cnd with lc := 0, rep := none, pc := s.cnd.pc + 4 } }) ∧
       (s.cnd.lc ≠ 1 → goNext s 4 = { s with cnd := { s.cnd with lc := s.cnd.lc - 1 } }))

/-- NOP goes on; MFSR reads a special register, PC as its own address; MTSR writes LC in every mode, WP and SLIM in firmware mode, and the
fields of CSTAT that the mode allows (R324 to R326); WAITI holds the conductor; RFE restores CSTAT, WP and PC, all fields included, and
ends a double fault (R357, R368). Traps of the firmware enter their vector with the registers of R356: SVC and BKPT resume at the next
instruction; an undefined pair, a misaligned access, a word below the stack limit, a misaligned jump, and a call or return with no
window resume at the instruction itself (R319, R329, R336, R343 to R345, R353, R356). -/
def Obligations.ConductorSystemAndTraps : Prop :=
  (∀ (s : State) (d : Fin 16),
     let done := fun (i : Instr) (u : State) => finishes i s (goNext u 4)
     let x := dReg s d
     (runsClean (opCtl [] 1) s = true →
       done .cNop s ∧ done (.cMfsr d 0) (setD s d s.cnd.pc) ∧ done (.cMfsr d 1) (setD s d s.cnd.lc) ∧
       done (.cMfsr d 2) (setD s d s.cnd.wp) ∧ done (.cMfsr d 3) (setD s d s.cnd.slim) ∧
       done (.cMfsr d 4) (setD s d s.cnd.cstat)) ∧
     (runsClean (opCtl [dKey s d] 1) s = true →
       done (.cMtsr 1 d) { s with cnd := { s.cnd with lc := x } } ∧
       (hm s = false → x &&& 0xFFFFF888 = 0 → done (.cMtsr 2 d) { s with cnd := { s.cnd with wp := x } }) ∧
       (hm s = false → x &&& 3 = 0 → done (.cMtsr 3 d) { s with cnd := { s.cnd with slim := x } }) ∧
       (x &&& 0xFFFCF800 = 0 → fld x 8 3 < 5 →
         let rw : Word := if hm s then 0x7BF else 0x207BF
         done (.cMtsr 4 d) { s with cnd := { s.cnd with cstat := (s.cnd.cstat &&& ~~~rw) ||| (x &&& rw) } })) ∧
     (runsClean (opCtl [] 1) s = true → hm s = false →
       (∃ t, exec .cWaiti s = .next t ∧ t.cnd.waiting = true ∧ CndDone (goNext s 4) t) ∧
       finishes .cRfe s { s with cnd := { s.cnd with
         cstat := rd s 0x0614, wp := rd s 0x0618, pc := rd s 0x0610, indf := false, rep := none } })) ∧
  (∀ (s : State) (imm : Byte) (d : Fin 16) (n : Fin 8) (m : AddrMode) (disp : BitVec 26), twf 0 s.regs = true →
     fwIssues s 4 = true →
     let trapsAt := fun (i : Instr) (pc : Word) (v code : Nat) (addr : Word) =>
       ∃ t, exec i s = .next t ∧ Entered { s with cnd := { s.cnd with pc := pc } } t v code addr
     let here := s.cnd.pc
     let ea := effAddr s n m 4
     trapsAt (.cSvc imm) (here + 4) 8 imm.toNat 0 ∧ trapsAt (.cBkpt imm) (here + 4) 9 imm.toNat 0 ∧
     (d.val % 2 = 1 → trapsAt (.cLdD d n m) here 3 0 0 ∧ trapsAt (.cMulS d d d) here 3 0 0) ∧
     trapsAt (.cMtsr 0 d) here 3 0 0 ∧
     (ea.toNat + 4 ≤ 0x10000 → ea.toNat % 4 ≠ 0 → n ≠ 7 → trapsAt (.cLdW d n m) here 4 2 ea) ∧
     (n = 7 → ea.toNat < (s.cnd.slim &&& ~~~3).toNat → trapsAt (.cLdW d n m) here 5 0 ea) ∧
     ((aReg s n).toNat % 4 ≠ 0 → trapsAt (.cJmpr n) here 4 2 (aReg s n)) ∧
     (wpNres s = 7 → trapsAt (.cCall disp) here 6 0 0) ∧
     (wpNres s = 1 → trapsAt .cRet here 7 0 0))

/-- The floating-point instructions (R293, R300 to R303, R310, R320): the result of the operation in the rounding attribute of CSTAT, bits
63:32 of a binary32 result 0, and its exceptions ORed into FEX; FNEG, FABS and FMOV change only the sign; FMVFD and FMVDF move the bits;
the conversions to integers and FCMP write a data register. -/
def Obligations.ConductorFloatingPoint : Prop :=
  ∀ (s : State) (p np nc sig : Bool) (rel : Fin 4) (d a b c : Fin 16),
    let x := fVal s p a
    let y := fVal s p b
    let z := fVal s p c
    let f := fmtOf p
    let r := frmOf s
    let sign := if p then (2 ^ 63 : Nat) else 2 ^ 31
    let fex := fun (u : State) (e : Nat) => orCstat u (BitVec.ofNat 32 (e % 32))
    let gives := fun (i : Instr) (v : FRes) => finishes i s (goNext (fex (setF s d (BitVec.ofNat 64 v.val)) v.ex) 4)
    let moves := fun (i : Instr) (v : Nat) => finishes i s (goNext (setF s d (BitVec.ofNat 64 v)) 4)
    let ints := fun (i : Instr) (v : Nat × Bool × Nat) =>
      finishes i s (goNext (fex (setD s d (BitVec.ofNat 32 v.1)) v.2.2) 4)
    let op := fun (reads : List Nat) => opF reads 0 1 1
    (runsClean (op [fKey a, fKey b]) s = true →
      gives (.cFadd p d a b) (f.add r x y) ∧ gives (.cFsub p d a b) (f.sub r x y) ∧ gives (.cFmul p d a b) (f.mul r x y) ∧
      gives (.cFdiv p d a b) (f.div r x y) ∧
      finishes (.cFcmp p rel sig d a b) s (goNext (fex (setD s d (if (f.cmp rel sig x y).1 then 1 else 0)) (f.cmp rel sig x y).2) 4)) ∧
    (runsClean (op [fKey a]) s = true →
      gives (.cFsqrt p d a) (f.sqrt r x) ∧ gives (.cFcvtW p d a) ((fmtOf (!p)).conv f r (fVal s (!p) a)) ∧
      moves (.cFneg p d a) (if sign ≤ x then x - sign else x + sign) ∧
      moves (.cFabs p d a) (if sign ≤ x then x - sign else x) ∧ moves (.cFmov p d a) x ∧
      ints (.cFcvtI p d a) (f.toInt r 32 true x) ∧ ints (.cFcvtIu p d a) (f.toInt r 32 false x)) ∧
    (runsClean (op [dKey s a]) s = true →
      gives (.cFcvtF p d a) (f.ofInt r 32 true (dReg s a).toNat) ∧ gives (.cFcvtFu p d a) (f.ofInt r 32 false (dReg s a).toNat)) ∧
    (runsClean (op [fKey a, fKey b, fKey c]) s = true → gives (.cFma p np nc d a b c) (f.fma r np nc x y z)) ∧
    (runsClean { op [fKey a] with illegal := p && d.val % 2 == 1 } s = true →
      let lo := setD s d ((fReg s a).setWidth 32)
      finishes (.cFmvfd p d a) s (goNext (if p then setD lo (d + 1) ((fReg s a >>> 32).setWidth 32) else lo) 4)) ∧
    (runsClean { op (if p then [dKey s a, dKey s (a + 1)] else [dKey s a]) with illegal := p && a.val % 2 == 1 } s = true →
      moves (.cFmvdf p d a) ((dReg s a).toNat + if p then 2 ^ 32 * (dReg s (a + 1)).toNat else 0))

/-- The services of SVC in handler mode (R371, R372): KUPD stages a record behind those of the partition and answers 1, or answers 0 and
stages nothing; EVTPEND answers and clears the partition's pending bits; ANGLE answers the angle word and FRM_COUNT; TMARK and BKPT only
trace; EVTRET restores what the upcall saved (R374). -/
def Obligations.HandlerServices : Prop :=
  ∀ (s : State) (h : Handler) (imm : Byte), inHandler s = some h → runsClean (opCtl [] 1) s = true →
    s.cnd.memErr = [] → twf 0 s.regs = true →
    let off := (dReg s 0).toNat
    let n := (dReg s 1).toNat
    let old := tget [] s.frm.kstage h.part
    (kupdRefused s h.part = false →
      ∃ t, exec .cKupd s = .next t ∧ tget [] t.frm.kstage h.part = old ++ [(off, rdBytes s (aReg s 0).toNat n)] ∧
        (∀ q, q ≠ h.part → tget [] t.frm.kstage q = tget [] s.frm.kstage q) ∧
        { t with frm := { t.frm with kstage := s.frm.kstage } } = { t with frm := s.frm } ∧
        CndDone (goNext (setD { s with frm := t.frm } 0 1) 4) t) ∧
    (n % 4 ≠ 0 ∨ n < 4 ∨ 2048 < n ∨ off % 4 ≠ 0 ∨ (keepArea s h.part).2 < off + n →
      ∃ t, exec .cKupd s = .next t ∧ rd t 0x0608 = rd s 0x0608 ||| 8 ∧ t.frm = s.frm ∧
        (∀ r, r ≠ 0x0608 → r ≠ 0x0648 → r ≠ 0x0830 → rd t r = rd s r) ∧
        CndDone (goNext (setD { s with regs := t.regs } 0 0) 4) t) ∧
    (let m := fun k => dReg s k &&& ownEvents s h.part k
     ∃ t, exec .cEvtpend s = .next t ∧
       rd t 0x0270 = rd s 0x0270 &&& ~~~(m 0) ∧ rd t 0x0274 = rd s 0x0274 &&& ~~~(m 1) ∧
       (∀ r, r ≠ 0x0270 → r ≠ 0x0274 → r ≠ 0x0648 → r ≠ 0x0830 → rd t r = rd s r) ∧
       CndDone (goNext (setD (setD { s with regs := t.regs } 0 (rd s 0x0270 &&& m 0)) 1 (rd s 0x0274 &&& m 1)) 4) t) ∧
    (∃ t, exec .cAngle s = .next t ∧
       (∀ r, r ≠ 0x0210 → r ≠ 0x0214 → r ≠ 0x0648 → r ≠ 0x0830 → rd t r = rd s r) ∧
       CndDone (goNext (setD (setD (setD { s with regs := t.regs } 0 (angWord s)) 1 (BitVec.ofNat 32 s.ang.count48.toNat)) 2
         (BitVec.ofNat 32 (s.ang.count48.toNat / 2 ^ 32))) 4) t) ∧
    finishes .cTmark s (goNext s 4) ∧ finishes (.cBkpt imm) s (goNext s 4) ∧
    ∀ u, h.up = some u →
      let r := restoreWins s u
      ∃ t, exec .cEvtret s = .next t ∧
        CndDone { r with cnd := { r.cnd with
          pc := u.pc, wp := u.wp, slim := u.slim, lc := u.lc, cstat := u.cstat,
          a := (u.a.zipIdx).foldl (fun v e => v.setIfInBounds e.2 e.1) s.cnd.a,
          d := (u.d.zipIdx).foldl (fun v e => v.setIfInBounds e.2 e.1) s.cnd.d,
          handler := some { h with up := none } } } t

/-- A trap of a handler ends it (R325, R370, R371): an SVC code that R371 does not define, an instruction that only firmware may execute,
and an HBUDGET expiry are recorded in CND_HTRAP and CND_FLAGS, the slot receives FRAME_FAULT with DETAIL 7, and firmware goes on with
the registers it had. A trap while the trap window is current is a double fault (R358, R366, R368): the firmware's sets FW_FAULT and
stops the conductor for its restart, or, when no dispatch has completed since the last restart, resets the device (R527). -/
def Obligations.HandlerTrapsAndDoubleFaults : Prop :=
  (∀ (s : State) (h : Handler) (k : Comp) (w : CndSave) (imm : Byte), twf 0 s.regs = true →
     inHandler s = some h → s.frm.comp = some k → k.fp = h.fp → unanswered s k → s.cnd.fw = some w → s.cnd.memErr = [] →
     let ends := fun (i : Instr) (pc : Word) (v code : Nat) =>
       ∃ t, exec i s = .next t ∧ CompEnded k 0x21 7 t ∧
         rd64 t 0x0640 = (pc.toNat + v * 2 ^ 32 + code * 2 ^ 37 + h.part * 2 ^ 45 + h.fp * 2 ^ 47) % 2 ^ 64 ∧
         bit (rd t 0x0608) 0 = true ∧ t.cnd.pc = w.pc ∧ t.cnd.a = w.a ∧ t.cnd.d = w.d ∧ t.cnd.cstat = w.cstat ∧
         t.cnd.mem = s.cnd.mem ∧
         ∀ r, r ∉ ([0x0308, 0x0608, 0x0610, 0x0614, 0x0618, 0x061C, 0x0620, 0x0640, hiKey 0x0640] : List Nat) →
           rd t r = rd s r
     (handlerIssues s = true →
       (imm.toNat = 0 ∨ 5 < imm.toNat → ends (.cSvc imm) (s.cnd.pc + 4) 8 imm.toNat) ∧
       ends .cRfe s.cnd.pc 3 0 ∧ ends .cWaiti s.cnd.pc 3 0) ∧
     (s.cnd.running = true → s.pwr.st ≠ 2 → budgetOut s = true → s.cnd.rep = none → s.cnd.indf = false → cwp s ≠ 7 →
       ends .hbudgetExpiry s.cnd.pc 10 0)) ∧
  (∀ (s : State) (imm : Byte), cndReady s = true → hm s = false → cwp s = 7 → s.cnd.rep = none → fetchTrap s 4 = none →
     twf 0 s.regs = true → bit (rd s 0x0614) 16 = false → s.cnd.indf = false →
     (s.cnd.again = false → ∃ t, exec (.cSvc imm) s = .next t ∧ t.cnd.running = false ∧ t.cnd.again = true ∧
       bit (rd t 0x0E00) 11 = true ∧ rd t 0x0624 = 8 ∧ rd t 0x0610 = rd s 0x0610 ∧ rd t 0x061C = rd s 0x061C) ∧
     (s.cnd.again = true → ∃ t, exec (.cSvc imm) s = .next t ∧ t.boot.inReset = true ∧ t.boot.cause = 5))

/-- An interrupt that qualifies and has the highest priority enters its vector, between instructions, with its pending bit cleared (R353,
R356, R359, R376). The event upcall (R373): the bit of the lowest due entry is cleared, the handler's state is saved, and the event
routine runs in the next window with D8 the entry number and the rest of the window 0. -/
def Obligations.InterruptsAndUpcalls : Prop :=
  (∀ (s : State) (v : Fin 10), twf 0 s.regs = true → v.val < 9 → intPick s = some v.val → s.cnd.rep = none →
     ∃ t, exec (.interruptEntry v) s = .next t ∧
       Entered { s with cnd := { s.cnd with ipend := s.cnd.ipend &&& ~~~(BitVec.ofNat 10 (2 ^ v.val)) } } t (16 + v.val) 0 0) ∧
  (∀ (s : State) (h : Handler) (e entry : Nat), twf 0 s.regs = true → intPick s = some 9 → s.cnd.handler = some h →
     angEvent s = some e → (prog s h.fp).eventry = some entry → wpNres s < 7 → s.cnd.rep = none →
     ∃ t u h', exec (.interruptEntry 9) s = .next t ∧ t.cnd.handler = some h' ∧ h'.up = some u ∧ h'.fp = h.fp ∧
       h'.ups = h.ups + 1 ∧ h'.delivered = h.delivered ++ [e] ∧ h'.vleft = (prog s h.fp).v ∧
       u.pc = s.cnd.pc ∧ u.wp = s.cnd.wp ∧ u.lc = s.cnd.lc ∧ u.cstat = s.cnd.cstat ∧ u.slim = s.cnd.slim ∧
       u.a = s.cnd.a.toList ∧ u.d = s.cnd.d.toList ∧
       t.cnd.pc = BitVec.ofNat 32 (codeAddr s h.fp entry) ∧ cwp t = (cwp s + 1) % 7 ∧ wpNres t = wpNres s + 1 ∧
       dReg t 8 = BitVec.ofNat 32 e ∧ (∀ j, 8 < j → j < 16 → dReg t j = 0) ∧
       bit (rd t (if e < 32 then 0x0270 else 0x0274)) (e % 32) = false ∧
       t.cnd.a = s.cnd.a ∧ t.cnd.d = s.cnd.d ∧ t.cnd.k = s.cnd.k ∧ t.cnd.f = s.cnd.f ∧ t.cnd.mem = s.cnd.mem ∧
       ∀ r, r ≠ 0x0270 → r ≠ 0x0274 → rd t r = rd s r)

/-- The firmware's restart, its watchdog and its timer (R327, R353, R524, R663, R664): the restart reloads the code section of the running
image, clears the conductor's registers, and starts at ENTRY with the restart count raised and the memory above the code section kept;
an expired watchdog resets the device with cause 8; a tick makes vector 24 pending. -/
def Obligations.FirmwareRestartWatchdogAndTick : Prop :=
  ∀ (s : State),
    (∀ slot, s.boot.running = some slot → s.cnd.running = false → s.boot.inReset = false → twf 0 s.regs = true →
      Memory.wf 0 s.cnd.mem = true →
      let hdr := flashBytes s (fwOff slot) 96
      let code := flashBytes s (fwOff slot + 96) (entryNat hdr 0x4C 4)
      (crc32 code).toNat = entryNat hdr 0x58 4 →
      ∃ t, exec .firmwareRestartComplete s = .next t ∧ t.cnd.running = true ∧
        t.cnd.pc = BitVec.ofNat 32 (entryNat hdr 0x48 4) ∧ rd t 0x060C = BitVec.ofNat 32 (entryNat hdr 0x54 4) ∧
        t.cnd.a = Vector.replicate 8 0 ∧ t.cnd.d = Vector.replicate 8 0 ∧ t.cnd.win = Vector.replicate 64 0 ∧
        t.cnd.k = Vector.replicate 4 0 ∧ t.cnd.f = Vector.replicate 16 0 ∧ t.cnd.lc = 0 ∧ t.cnd.slim = 0 ∧
        t.cnd.wp = 0x100 ∧ t.cnd.cstat = 0 ∧ t.cnd.again = s.cnd.again ∧
        fld (rd t 0x000C) 8 8 = min 255 (fld (rd s 0x000C) 8 8 + 1) ∧
        (∀ i < 0x8000, tget 0 t.cnd.mem i = code.getD i 0) ∧
        (∀ i, 0x8000 ≤ i → tget 0 t.cnd.mem i = tget 0 s.cnd.mem i) ∧
        (∀ r, r ≠ 0x000C → r < 0x0600 ∨ 0x0700 ≤ r → r ≠ hiKey 0x0640 → rd t r = rd s r) ∧
        { t with regs := s.regs, cnd := s.cnd } = s) ∧
    (s.boot.running.isSome = true → s.boot.inReset = false → s.pwr.st ≠ 2 →
      ∃ t, exec .watchdogExpiry s = .next t ∧ t.boot.inReset = true ∧ t.boot.cause = 8 ∧ t.boot.running = none ∧
        t.boot.ready = false ∧ t.frm.frames = [] ∧ t.cnd.mem = [] ∧ t.pending = s.pending) ∧
    (s.cnd.running = true →
      exec .firmwareTimerTick s = .next { s with cnd := { s.cnd with ipend := s.cnd.ipend ||| 0x100 } })

/-- A field written is read back in the PEs that write, bit i in plane p + i modulo 2,048; the other PEs and the other planes keep their
bits (R197, R231). The control and mask macros (R231, R242): the pointer, the rounding attribute, C, T or M takes its value; M in every
powered PE, C and T and planes only in the active ones, MSTO in every powered PE. The field macros (R231, R242): every active PE writes
its destination field with the move, the bitwise function, the choice by T, the constant, the shift or the extension of its sources. -/
def Obligations.MacroFieldsAndControl : Prop :=
  (∀ (s : State) (p n : Nat) (mask : Plane) (f : Nat → Nat), n ≤ 2048 → twf 0 s.arr.planes = true →
     let t := setField s p n mask f
     (∀ pe < 16384, peField t p n pe = if mask.getLsbD pe then f pe % 2 ^ n else peField s p n pe) ∧
     (∀ q, (∀ j < n, (p + j) % 2048 ≠ q % 2048) → plane t q = plane s q) ∧ twf 0 t.arr.planes = true ∧
     { t.arr with planes := s.arr.planes, perr := s.arr.perr } = s.arr ∧ { t with arr := s.arr } = s) ∧
  (∀ (s : State) (k : Comp) (w x : Word) (i : MacroInfo), macroIssues s k w x i →
     let runs := macroRuns s w i
     let pl := plane s (pp s (mPA w))
     let arr := fun (a : Arr) => { s with arr := a }
     let m := fun (v : Plane) => arr { s.arr with m := maskIn (powered s) s.arr.m v }
     let inv := (mMod w).testBit 0
     runs 0x00 .macroNop s ∧
     runs 0x01 .macroSetp (arr { s.arr with pp := tset 0 s.arr.pp (mPD w) (mImm w % 2048) }) ∧
     runs 0x02 .macroAddp (arr { s.arr with
       pp := tset 0 s.arr.pp (mPD w) ((pp s (mPA w) + mImm w) % 2048) }) ∧
     runs 0x03 .macroSetrm (arr { s.arr with rm := mMod w % 8 }) ∧
     runs 0x04 .macroClrf (arr { s.arr with c := s.arr.c &&& ~~~active s, t := s.arr.t &&& ~~~active s }) ∧
     runs 0x10 .macroMall (m (BitVec.allOnes 16384)) ∧ runs 0x11 .macroMld (m pl) ∧
     runs 0x12 .macroMand (m (s.arr.m &&& if inv then ~~~pl else pl)) ∧ runs 0x13 .macroMor (m (s.arr.m ||| pl)) ∧
     runs 0x14 .macroMnot (m (~~~s.arr.m)) ∧ runs 0x15 .macroMsto (setPlane s (pp s (mPD w)) (powered s) s.arr.m) ∧
     runs 0x16 .macroMft (m (s.arr.m &&& if inv then ~~~s.arr.t else s.arr.t)) ∧
     runs 0x17 .macroTld (arr { s.arr with t := maskIn (active s) s.arr.t pl }) ∧
     runs 0x18 .macroTsto (setPlane s (pp s (mPD w)) (active s) s.arr.t)) ∧
  (∀ (s : State) (k : Comp) (w x : Word) (i : MacroInfo), macroIssues s k w x i →
     let n := mW w
     let m := mMod w
     let a := fun pe => peField s (pp s (mPA w)) n pe
     let b := fun pe => peField s (pp s (mPB w)) n pe
     let writes := fun (op : Nat) (c : Instr) (len : Nat) (f : Nat → Nat) =>
       macroRuns s w i op c (setField s (pp s (mPD w)) len (active s) f)
     writes 0x20 .macroMov n a ∧
     writes 0x21 .macroLogic n (fun pe => ((List.range n).map (fun j =>
       if m.testBit ((if (a pe).testBit j then 2 else 0) + if (b pe).testBit j then 1 else 0) then 2 ^ j else 0)).sum) ∧
     writes 0x22 .macroSel n (fun pe => if s.arr.t.getLsbD pe then a pe else b pe) ∧
     writes 0x23 .macroFill n (fun _ => if m.testBit 0 then 2 ^ n - 1 else 0) ∧
     writes 0x24 .macroFillk n (fun _ => x.toNat % 2 ^ n) ∧
     (mPB w = 0 → writes 0x25 .macroBsh n (fun pe => a pe * 2 ^ m % 2 ^ n)) ∧
     (mPB w = 1 → writes 0x25 .macroBsh n (fun pe => a pe / 2 ^ m)) ∧
     (mPB w = 2 → writes 0x25 .macroBsh n (fun pe => lowBits n (sInt n (a pe) / (2 ^ m : Nat)))) ∧
     (mPB w = 0 → writes 0x26 .macroExt (n + m) a) ∧
     (mPB w = 1 → writes 0x26 .macroExt (n + m) (fun pe => lowBits (n + m) (sInt n (a pe)))))

/-- The integer macros (R290 to R292, R733): every active PE writes its destination field, C and T as the exact result of the operation
gives them. -/
def Obligations.MacroIntegers : Prop :=
  ∀ (s : State) (k : Comp) (w x : Word) (i : MacroInfo), macroIssues s k w x i →
    let n := mW w
    let m := mMod w
    let a := fun pe => peField s (pp s (mPA w)) n pe
    let b := fun pe => peField s (pp s (mPB w)) n pe
    let sa := fun pe => sInt n (a pe)
    let sb := fun pe => sInt n (b pe)
    let kv := if n ≤ 32 then x.toNat % 2 ^ n else lowBits n x.toInt
    let lo : Int := -(2 ^ (n - 1) : Nat)
    let hi : Int := (2 ^ (n - 1) : Nat) - 1
    let ovf := fun (v : Int) => decide (v < lo) || decide (hi < v)
    let flags := fun (u : State) (c t : Nat → Bool) => setT (setC u c) t
    let writes := fun (op : Nat) (c : Instr) (d : Nat → Nat) (fc ft : Nat → Bool) =>
      macroRuns s w i op c (flags (setField s (pp s (mPD w)) n (active s) d) fc ft)
    let clamped := fun (op : Nat) (c : Instr) (signed : Bool) (v : Nat → Int) =>
      let l := if signed then lo else 0
      let h := if signed then hi else (2 ^ n : Nat) - 1
      writes op c (fun pe => lowBits n (max l (min h (v pe)))) (fun _ => false) (fun pe => decide (v pe < l) || decide (h < v pe))
    let rel := fun (p : Nat → Nat → Bool) (c : Nat → Nat) => fun pe => p (a pe) (c pe) != m.testBit 2
    let kinds := fun (op : Nat) (c : Instr) (y : Nat → Nat) =>
      (m % 4 = 0 → macroRuns s w i op c (flags s (fun _ => false) (rel (fun p q => decide (p = q)) y))) ∧
      (m % 4 = 1 → macroRuns s w i op c (flags s (fun _ => false) (rel (fun p q => decide (sInt n p < sInt n q)) y))) ∧
      (m % 4 = 2 → macroRuns s w i op c (flags s (fun _ => false) (rel (fun p q => decide (p < q)) y)))
    writes 0x30 .macroAdd (fun pe => (a pe + b pe) % 2 ^ n) (fun pe => decide (2 ^ n ≤ a pe + b pe)) (fun pe => ovf (sa pe + sb pe)) ∧
    writes 0x31 .macroSub (fun pe => (a pe + 2 ^ n - b pe) % 2 ^ n) (fun pe => decide (b pe ≤ a pe)) (fun pe => ovf (sa pe - sb pe)) ∧
    writes 0x32 .macroAddk (fun pe => (a pe + kv) % 2 ^ n) (fun pe => decide (2 ^ n ≤ a pe + kv)) (fun pe => ovf (sa pe + sInt n kv)) ∧
    writes 0x33 .macroSubk (fun pe => (a pe + 2 ^ n - kv) % 2 ^ n) (fun pe => decide (kv ≤ a pe)) (fun pe => ovf (sa pe - sInt n kv)) ∧
    writes 0x34 .macroNeg (fun pe => (2 ^ n - a pe) % 2 ^ n) (fun pe => decide (a pe = 0)) (fun pe => ovf (-sa pe)) ∧
    clamped 0x35 .macroAddsat (!m.testBit 0) (fun pe => if m.testBit 0 then (a pe : Int) + b pe else sa pe + sb pe) ∧
    clamped 0x36 .macroSubsat (!m.testBit 0) (fun pe => if m.testBit 0 then (a pe : Int) - b pe else sa pe - sb pe) ∧
    clamped 0x37 .macroAbs true (fun pe => (sa pe).natAbs) ∧
    kinds 0x38 .macroCmp b ∧ kinds 0x39 .macroCmpk (fun _ => kv) ∧
    (let lt := fun pe => if m.testBit 1 then decide (sa pe < sb pe) else decide (a pe < b pe)
     let gt := fun pe => if m.testBit 1 then decide (sb pe < sa pe) else decide (b pe < a pe)
     let t := fun pe => if m.testBit 0 then lt pe else gt pe
     writes 0x3A .macroMinmax (fun pe => if t pe then b pe else a pe) (fun _ => false) t) ∧
    (let wide := fun (op : Nat) (c : Instr) (d : Nat → Nat) =>
       macroRuns s w i op c (setC (setField s (pp s (mPD w)) (2 * n) (active s) d) (fun _ => false))
     wide 0x3B .macroMulu (fun pe => a pe * b pe) ∧ wide 0x3C .macroMuls (fun pe => lowBits (2 * n) (sa pe * sb pe))) ∧
    clamped 0x3D .macroMulq true (fun pe => (sa pe * sb pe + (2 ^ (n - 2) : Nat)) / (2 ^ (n - 1) : Nat)) ∧
    (let q := setField s (pp s (mPD w)) n (active s) (fun pe => if b pe = 0 then 2 ^ n - 1 else a pe / b pe)
     let r := setField q (pp s (m % 16)) n (active s) (fun pe => if b pe = 0 then a pe else a pe % b pe)
     macroRuns s w i 0x3E .macroDivu (flags r (fun _ => false) (fun pe => decide (b pe = 0))))

/-- The floating-point macros (R246, R293, R300 to R303): every active PE writes the result of the operation under the program's rounding
attribute, ORs its exceptions into the five exception planes, and clears C; a compare sets T to the relation, and a conversion to an
integer sets T where it is invalid. -/
def Obligations.MacroFloatingPoint : Prop :=
  ∀ (s : State) (k : Comp) (w x : Word) (i : MacroInfo), macroIssues s k w x i →
    let n := mW w
    let m := mMod w
    let rm := s.arr.rm
    let exc := fun (u : State) (f : Nat → Nat) => (List.range 5).foldl (fun t j => setPlane t (pp s 15 + j) (active s)
      (plane u (pp s 15 + j) ||| mkPlane (fun pe => (f pe).testBit j))) u
    let noC := fun (u : State) => { u with arr := { u.arr with c := u.arr.c &&& ~~~active s } }
    let gives := fun (op : Nat) (c : Instr) (len : Nat) (f : Nat → FRes) => macroRuns s w i op c
      (noC (exc (setField s (pp s (mPD w)) len (active s) (fun pe => (f pe).val)) (fun pe => (f pe).ex)))
    let a := fun (f : Fmt) (pe : Nat) => peField s (pp s (mPA w)) f.width pe
    let b := fun (f : Fmt) (pe : Nat) => peField s (pp s (mPB w)) f.width pe
    let c := fun (f : Fmt) (pe : Nat) => peField s (pp s (m % 16)) f.width pe
    let int := fun pe => peField s (pp s (mPA w)) n pe
    let add := fun (f : Fmt) pe => if m.testBit 0 then f.sub rm (a f pe) (b f pe) else f.add rm (a f pe) (b f pe)
    let fma := fun (f : Fmt) pe => f.fma rm (m.testBit 4) (m.testBit 5) (a f pe) (b f pe) (c f pe)
    let cmp := fun (op : Nat) (i' : Instr) (f : Fmt) =>
      let r := fun pe => f.cmp (m % 4) (m.testBit 2) (a f pe) (b f pe)
      macroRuns s w i op i' (setT (noC (exc s (fun pe => (r pe).2))) (fun pe => (r pe).1))
    let toI := fun (op : Nat) (i' : Instr) (f : Fmt) =>
      let r := fun pe => f.toInt rm n (!m.testBit 0) (a f pe)
      macroRuns s w i op i' (setT (noC (exc (setField s (pp s (mPD w)) n (active s) (fun pe => (r pe).1)) (fun pe => (r pe).2.2)))
        (fun pe => (r pe).2.1))
    gives 0x70 .macroFadd32 32 (add b32) ∧ gives 0x76 .macroFadd64 64 (add b64) ∧
    gives 0x71 .macroFmul32 32 (fun pe => b32.mul rm (a b32 pe) (b b32 pe)) ∧
    gives 0x77 .macroFmul64 64 (fun pe => b64.mul rm (a b64 pe) (b b64 pe)) ∧
    gives 0x72 .macroFma32 32 (fma b32) ∧ gives 0x78 .macroFma64 64 (fma b64) ∧
    cmp 0x73 .macroFcmp32 b32 ∧ cmp 0x79 .macroFcmp64 b64 ∧
    gives 0x74 .macroFcvt32f 32 (fun pe => b32.ofInt rm n (!m.testBit 0) (int pe)) ∧
    gives 0x7A .macroFcvt64f 64 (fun pe => b64.ofInt rm n (!m.testBit 0) (int pe)) ∧
    toI 0x75 .macroFcvtf32 b32 ∧ toI 0x7B .macroFcvtf64 b64 ∧
    gives 0x7C .macroFcvt3264 64 (fun pe => b32.conv b64 rm (a b32 pe)) ∧
    gives 0x7D .macroFcvt6432 32 (fun pe => b64.conv b32 rm (a b64 pe))

/-- The transfer macros (R213 to R217): a turn load takes bit LO + j of record 128 g + r into plane j of the PE at row r and column g, a
plane load bit r mod 32 of word 512 k + 4 c + r / 32, in every PE of a powered band whatever M; the stores write the same words back, a
turn store its field extended by zeros or by its sign, and no other word of memory. XFER moves one column of a plane through the staging
register while a transfer macro runs (R213, R259). -/
def Obligations.MacroTransfers : Prop :=
  (∀ (s : State) (k : Comp) (w x : Word) (i : MacroInfo), macroIssues s k w x i → s.cnd.memErr = [] → s.smp.recErr = [] →
     Memory.wf 0 s.cnd.mem = true →
     let n := mW w
     let base := x.toNat
     let word := fun j => xferWord s (base + 4 * j)
     let staged := fun (u : State) => { u with arr := { u.arr with staging := colOf (plane u (pp s (mPD w) + n - 1)) 0 } }
     let loads := fun (op : Nat) (c : Instr) (src : Nat → Nat → Bool) => macroRuns s w i op c
       (staged ((List.range n).foldl (fun t j => setPlane t (pp s (mPD w) + j) (powered s) (mkPlane (src j))) s))
     let bitAt := fun p pe => (plane s (pp s (mPA w) + p) &&& powered s).getLsbD pe
     let stores := fun (op : Nat) (c : Instr) (words : Nat) (v : Nat → Word) =>
       mOp w = op → ∃ t, exec c s = .next t ∧ (∀ j < words, rdWord t (base + 4 * j) = v j) ∧
         (∀ a, a < base ∨ base + 4 * words ≤ a → tget 0 t.cnd.mem a = tget 0 s.cnd.mem a) ∧
         MacroDone s { s with cnd := { s.cnd with mem := t.cnd.mem } } t i
     let field := fun pe => ((List.range n).map (fun j => if bitAt j pe then 2 ^ j else 0)).sum
     loads 0x60 .macroLdt (fun j pe => (word (128 * (pe % 128) + pe / 128)).getLsbD (mMod w % 32 + j)) ∧
     loads 0x62 .macroLds (fun j pe => (word (512 * j + 4 * (pe % 128) + pe / 128 / 32)).getLsbD (pe / 128 % 32)) ∧
     stores 0x61 .macroStt 16384 (fun j =>
       let v := field (128 * (j % 128) + j / 128)
       BitVec.ofNat 32 (if (mMod w).testBit 0 then lowBits 32 (sInt n v) else v)) ∧
     stores 0x63 .macroSts (512 * n) (fun j => BitVec.ofNat 32 ((List.range 32).map (fun r =>
       if bitAt (j / 512) (128 * (32 * (j % 4) + r) + j % 512 / 4) then 2 ^ r else 0)).sum)) ∧
  (∀ (s : State) (p : Fin 2048) (data : BitVec 128) (w : Word) (rest : List Word), s.frm.comp.isSome = true → s.arr.run = none →
     s.arr.queue = w :: rest →
     (mOp w = 0x61 ∨ mOp w = 0x63 → exec (.uwXfer true p data) s = .next { s with arr := { s.arr with
       staging := colOf (plane s p &&& powered s) 0 } }) ∧
     (mOp w = 0x60 ∨ mOp w = 0x62 → ∃ t, exec (.uwXfer false p data) s = .next t ∧ t.arr.staging = data ∧
       t.arr.planes = tset 0 s.arr.planes p (maskIn (powered s) (plane s p)
         (((plane s p <<< 1) &&& ~~~colZero) ||| colPlane data 0)) ∧
       { t.arr with planes := s.arr.planes, perr := s.arr.perr, staging := s.arr.staging } = s.arr ∧
       { t with arr := s.arr } = s))

/-- The reductions (R211, R212, R234): ANY is the OR and TALLY the count of ones over the active PEs, with what the group's other members
give for a group-scope reduction on a member; SUMW weighs the counts of its planes; the result goes to QRES, and ARR_ANY or ARR_TALLY
takes the last reduction. NSHF on a chip that is in no group moves each plane by d PEs, one step at a time, and X and Y end 0 in every
powered PE (R207, R242). An unsigned EXTR at chip scope finds the largest field value among the active PEs: QRES takes it, and T marks,
among the active PEs, those that hold it (R212, R234, the line of R292); with no active PE QRES is 0. -/
def Obligations.MacroReductions : Prop :=
  (∀ (s : State) (k : Comp) (w x : Word) (i : MacroInfo), macroIssues s k w x i →
     let pl := fun j => plane s (pp s (mPA w) + j) &&& active s
     let ones := fun (v : Plane) => ((List.range 16384).filter (fun pe => v.getLsbD pe)).length
     let grp := grouped s && (mMod w).testBit 0
     let part := some (k.fp / 4)
     let arr := fun (a : Arr) => { s with arr := a }
     let qres := fun (v : Nat) => BitVec.ofNat 32 v
     (∀ others,
       let chip := decide (pl 0 ≠ 0)
       let r := chip || (grp && others)
       macroRuns s w i 0x50 (.macroAny others) { s with
         arr := { s.arr with
           t := maskIn (active s) s.arr.t (if r then BitVec.allOnes 16384 else 0), any := r, redPart := part,
           qres := if r then 1 else 0 },
         grp := if grp then { s.grp with anyOd := chip } else s.grp }) ∧
     (∀ others,
       let v := ones (pl 0) + if grp then others else 0
       macroRuns s w i 0x51 (.macroTally others) (arr { s.arr with tally := v, redPart := part, qres := qres v })) ∧
     (∀ others : List Nat,
       let v := fun j => ones (pl j) + if grp then others.getD j 0 else 0
       macroRuns s w i 0x52 (.macroSumw others) (arr { s.arr with
         tally := v (mW w - 1), redPart := part, qres := qres ((List.range (mW w)).map (fun j => v j * 2 ^ j)).sum })) ∧
     (∀ bursts, grouped s = false → mOp w = 0x40 →
       let dir := fld w 0 2
       let step := fun (v : Plane) =>
         nbrX s v (if dir = 0 then 3 else if dir = 1 then 4 else if dir = 2 then 1 else 2) (fld w 2 2) 0
       ∃ t, exec (.macroNshf bursts) s = .next t ∧ t.arr.retired = (s.arr.retired + 1) % 65536 ∧
         (∀ j < mW w, plane t (pp s (mPD w) + j) = maskIn (active s) (plane s (pp s (mPD w) + j))
           (Nat.iterate step (mPB w + 1) (plane s (pp s (mPA w) + j)))) ∧
         (∀ q, (∀ j < mW w, (pp s (mPD w) + j) % 2048 ≠ q % 2048) → plane t q = plane s q) ∧
         t.arr.x = s.arr.x &&& ~~~powered s ∧ t.arr.y = s.arr.y &&& ~~~powered s ∧ t.arr.m = s.arr.m ∧ t.arr.c = s.arr.c ∧
         t.arr.t = s.arr.t ∧ t.cnd = s.cnd ∧ t.frm = s.frm ∧ t.regs = s.regs)) ∧
  (∀ (s : State) (k : Comp) (w x : Word) (i : MacroInfo) (p : Bool) (others : List Bool), macroIssues s k w x i →
     mOp w = 0x53 → mMod w = 0 →
     let f := fun pe => peField s (pp s (mPA w)) (mW w) pe
     ∃ t, exec (.macroExtr p others) s = .next t ∧ t.arr.retired = (s.arr.retired + 1) % 65536 ∧
       t.arr.planes = s.arr.planes ∧ t.arr.m = s.arr.m ∧ t.arr.c = s.arr.c ∧ t.cnd = s.cnd ∧ t.frm = s.frm ∧ t.regs = s.regs ∧
       (active s = 0 → t.arr.qres = 0 ∧ t.arr.t = s.arr.t) ∧
       ∀ v, (∃ pe < 16384, (active s).getLsbD pe = true ∧ f pe = v) →
         (∀ pe < 16384, (active s).getLsbD pe = true → f pe ≤ v) →
         t.arr.qres = BitVec.ofNat 32 v ∧
         ∀ pe < 16384, t.arr.t.getLsbD pe = if (active s).getLsbD pe then decide (f pe = v) else s.arr.t.getLsbD pe)

/-- A macro that meets a row of R237 is not executed: the trap is recorded with the word and the reason in MSQ_TRAPINFO, the sticky fault
ILLEGAL_ARRAY_OP and MSQ_FLAGS.TRAP are set, and the slot receives FRAME_FAULT 1 (R238); one that would reach a plane outside the
partition's range ends the program with DETAIL 2 (R728), and one whose sources have a parity error with DETAIL 4 (R204). -/
def Obligations.MacroTraps : Prop :=
  ∀ (s : State) (k : Comp) (w : Word) (rest : List Word) (op : Nat) (c : Instr),
    (op, c) ∈ ([(0x20, .macroMov), (0x30, .macroAdd), (0x3B, .macroMulu), (0x70, .macroFadd32)] : List (Nat × Instr)) →
    mOp w = op → s.frm.comp = some k → unanswered s k → s.arr.run = none → s.arr.queue = w :: rest → twf 0 s.regs = true →
    (∀ r, issue s k w rest = some (.error r) →
      ∃ t, exec c s = .next t ∧ CompEnded k 0x21 1 t ∧ bit (rd t 0x0504) 6 = true ∧ bit (rd t 0x0E00) 1 = true ∧
        rd64 t 0x0508 = (w.toNat + r * 2 ^ 32 + k.fp / 4 * 2 ^ 36 + k.fp * 2 ^ 38 + s.arr.retired % 65536 * 2 ^ 42) % 2 ^ 64 ∧
        t.arr.planes = s.arr.planes) ∧
    (∀ i x p, issue s k w rest = some (.ok (i, x)) → p ∈ macroPlanes s i → inRange s (k.fp / 4) p = false →
      ∃ t, exec c s = .next t ∧ CompEnded k 0x21 2 t ∧ bit (rd t 0x0404) 1 = true ∧ t.arr.planes = s.arr.planes) ∧
    (∀ i x p, issue s k w rest = some (.ok (i, x)) → (∀ p ∈ macroPlanes s i, inRange s (k.fp / 4) p = true) →
      parityHit s (macroReads s i) = some p →
      ∃ t, exec c s = .next t ∧ CompEnded k 0x21 4 t ∧ bit (rd t 0x0404) 0 = true ∧ bit (rd t 0x0E00) 4 = true)

/-- The CTL microwords (R254): each sets the next address as its operation says and changes nothing but the routine's own loop counters,
call stack and commit mark; END retires the macro. The VOP microwords set VD modulo 2,048 and change no PE state (R257). -/
def Obligations.MicrocodeControl : Prop :=
  (∀ (s : State) (k : Comp) (r : Routine) (w : BitVec 40), fetches s k r w → mwClass w = 0 →
     let next := (r.upc + 1) % 4096
     let tgt := mwf w 0 12
     let sel := mwf w 26 2
     let gives := fun (op : Nat) (c : Instr) (r' : Routine) =>
       mwOp w = op → exec c s = .next { s with arr := { s.arr with run := some r' } }
     let jumps := fun (op : Nat) (c : Instr) (a : Nat) => gives op c { r with upc := a }
     let cond := mwf w 28 5
     let br := fun (p : Bool) => jumps 2 .uwBr (if p then tgt else next)
     jumps 0 .uwNop next ∧ jumps 1 .uwJmp tgt ∧
     (cond = 0 → br s.arr.any) ∧ (cond = 1 → br (!s.arr.any)) ∧ (cond = 2 → br (decide (s.arr.tally = 0))) ∧
     (cond = 3 → br (decide (s.arr.tally ≠ 0))) ∧ (cond = 4 → br r.wres) ∧ (cond = 5 → br (!r.wres)) ∧
     (6 ≤ cond → cond ≤ 0x0A → br (decide (r.rm = cond - 6))) ∧ (cond = 0x0B → br (grouped s)) ∧
     (0x0C ≤ cond → cond ≤ 0x11 → br ((mMod r.word).testBit (cond - 0x0C))) ∧
     gives 3 .uwLoop { r with
       upc := next, l := tput r.l sel (lowBits 13 ((mwf w 23 3 * userW r.bind r.word : Nat) + sInt 13 (mwf w 0 13))) } ∧
     (let n := (tget 0 r.l sel + 8191) % 8192
      gives 4 .uwLend { r with l := tput r.l sel n, upc := if n = 0 then next else tgt }) ∧
     gives 5 .uwCall { r with stack := next :: r.stack, upc := tgt } ∧
     (∀ a rest, r.stack = a :: rest → gives 6 .uwRet { r with stack := rest, upc := a % 4096 }) ∧
     (grouped s = false ∨ r.crossed = false →
       gives 7 .uwCommit { r with committed := true, upc := next } ∧
       (r.held = false → k.handlerDone = false → mwOp w = 8 →
         exec .uwEnd s = .next { s with arr := { s.arr with
           run := none, queue := s.arr.queue.drop (if r.bind.attr.testBit 1 then 2 else 1),
           retired := (s.arr.retired + 1) % 65536 } }))) ∧
  (∀ (s : State) (k : Comp) (r : Routine) (w : BitVec 40), fetches s k r w → mwClass w = 2 →
     let vs := tget 0 r.v (mwf w 27 3)
     let l := tget 0 r.l (mwf w 25 2)
     let sets := fun (op : Nat) (c : Instr) (v : Nat) =>
       mwOp w = op → exec c s = .next { s with arr := { s.arr with
         run := some { r with v := tput r.v (mwf w 30 3) v, upc := (r.upc + 1) % 4096 } } }
     sets 0 .uwMovv (vs % 2048) ∧ sets 1 .uwVopAddi ((vs + mwf w 0 12) % 2048) ∧ sets 2 .uwAddl ((vs + l) % 2048) ∧
     (l ≤ 8192 → sets 3 .uwSubl ((vs + 8192 - l) % 2048)) ∧ sets 4 .uwSeti (mwf w 0 11) ∧
     sets 5 .uwLdpp (tget 0 r.pps (mwf w 0 4) % 2048))

/-- A PEOP acts on every active PE at once, with all values taken at the start of the cycle: sum is a xor b xor C, carry the majority of a,
b and C, logic the table's entry 2a + b; C, T, X and Y are written where M is 1, M in every powered PE, and the plane at WV where M is 1
(R197, R255). -/
def Obligations.MicrocodePeop : Prop :=
  ∀ (s : State) (k : Comp) (r : Routine) (w : BitVec 40) (burst : BitVec 128) (any : Bool) (tally : Nat),
    fetches s k r w → mwClass w = 1 → grouped s = false →
    let ra := vAddr r (mwf w 34 3) (mwf w 32 2)
    let wa := vAddr r (mwf w 29 3) (mwf w 27 2)
    let used := readUsed w
    let mem := mwf w 14 2
    (used = true → inRange s (fpPart k.fp) ra = true ∧ parityHit s [ra] = none) →
    (mem ≠ 0 → inRange s (fpPart k.fp) wa = true ∧ (r.committed = true ∨ wa ∈ r.scratch)) →
    let on := active s
    let rbit : Plane := if used then plane s ra &&& powered s else 0
    let a := if mwf w 26 1 = 1 then s.arr.x else rbit
    let b := if mwf w 25 1 = 1 then s.arr.t else s.arr.y
    let c := s.arr.c
    let sum := a ^^^ b ^^^ c
    let carry := (a &&& b) ||| (a &&& c) ||| (b &&& c)
    let entry := fun (n : Nat) => if (mwf w 21 4).testBit n then BitVec.allOnes 16384 else (0 : Plane)
    let logic := (a &&& b &&& entry 3) ||| (a &&& ~~~b &&& entry 2) ||| (~~~a &&& b &&& entry 1) ||| (~~~a &&& ~~~b &&& entry 0)
    let pick := fun (code : Nat) (old p q u : Plane) => if code = 0 then old else if code = 1 then p else if code = 2 then q else u
    let red := match mwf w 1 2 with | 0 => s.arr.x | 1 => c | 2 => s.arr.t | _ => rbit
    ∃ t r', exec (.uwPeop burst any tally) s = .next t ∧ t.arr.run = some r' ∧ r'.upc = (r.upc + 1) % 4096 ∧
      t.arr.c = maskIn on c (pick (mwf w 12 2) c carry logic 0) ∧
      t.arr.t = maskIn on s.arr.t (pick (mwf w 10 2) s.arr.t sum logic carry) ∧
      t.arr.x = maskIn on s.arr.x (pick (mwf w 8 2) s.arr.x a sum logic) ∧
      t.arr.y = maskIn on s.arr.y (if mwf w 18 3 ≠ 0 then nbrX s s.arr.x (mwf w 18 3) (mwf w 16 2) burst
        else if mwf w 5 1 = 1 then a else s.arr.y) ∧
      t.arr.m = maskIn (powered s) s.arr.m (pick (mwf w 6 2) s.arr.m logic (BitVec.allOnes 16384) s.arr.m) ∧
      t.arr.planes = (if mem = 0 then s.arr.planes else
        tset 0 s.arr.planes (wa % 2048) (maskIn on (plane s wa) (if mem = 1 then sum else if mem = 2 then carry else logic))) ∧
      t.arr.any = (if mwf w 3 2 = 1 then decide (red &&& on ≠ 0) else s.arr.any) ∧
      t.arr.tally = (if mwf w 3 2 = 2 then planeOnes (red &&& on) else s.arr.tally) ∧
      t.arr.qres = s.arr.qres ∧ t.arr.queue = s.arr.queue ∧ t.cnd = s.cnd ∧ t.frm = s.frm ∧ t.regs = s.regs ∧
      { t with arr := s.arr } = s

/-- A user macro issues (R243, R250, R251): its routine starts at its entry with V0 to V7, the loop counters, the stack and WRES as R250
loads them, the shadow bits copy C, T, M, X and Y, and the formula count is taken from the allowance. WAIT, its end and its timeout
(R258): the wait notes its start; it ends with WRES 1 when its condition holds and with WRES 0 and MSQ_FLAGS.WAITTO when its time, its
angle limit or a boundary ends it first. -/
def Obligations.UserMacrosAndWaits : Prop :=
  (∀ (s : State) (k : Comp) (w x : Word) (rest : List Word) (i : MacroInfo) (img : TopImg) (b : Bind),
     s.frm.comp = some k → s.arr.run = none → s.arr.queue = w :: rest → 0x80 ≤ mOp w → issue s k w rest = some (.ok (i, x)) →
     frameImg s (fpPart k.fp) k.count = some img → tfind img.binds (mOp w) = some b →
     ∃ t r, exec .userOpcode s = .next t ∧ t.arr.run = some r ∧ r.word = w ∧ r.ext = x ∧ r.bind = b ∧ r.upc = b.entry ∧
       tget 0 r.v 0 = pp s (mPD w) ∧ tget 0 r.v 1 = pp s (mPA w) ∧
       tget 0 r.v 2 = (if b.attr.testBit 0 then mImm w % 2048 else pp s (mPB w)) ∧
       tget 0 r.v 3 = pp s 14 ∧ tget 0 r.v 4 = pp s 15 ∧
       tget 0 r.v 5 = (if b.attr.testBit 0 then 0 else pp s (mMod w % 16)) ∧ tget 0 r.v 6 = 0 ∧ tget 0 r.v 7 = 0 ∧
       r.l = [] ∧ r.stack = [] ∧ r.wres = false ∧ r.committed = false ∧ r.rm = s.arr.rm ∧ r.pps = s.arr.pp ∧
       tget 0 r.shadow 0 = s.arr.c ∧ tget 0 r.shadow 1 = s.arr.t ∧ tget 0 r.shadow 2 = s.arr.m ∧
       tget 0 r.shadow 3 = s.arr.x ∧ tget 0 r.shadow 4 = s.arr.y ∧ t.arr.allow = s.arr.allow - i.cyc ∧
       { t.arr with run := s.arr.run, allow := s.arr.allow } = s.arr ∧
       { t with arr := s.arr, trc := s.trc, grp := s.grp } = s) ∧
  (∀ (s : State) (k : Comp) (r : Routine) (w : BitVec 40) (img : TopImg), twf 0 s.regs = true →
     (fetches s k r w → mwClass w = 3 → exec .uwWait s = .next { s with arr := { s.arr with
       run := some { r with wait := some (s.now, s.frm.boundaries) } } }) ∧
     ∀ t0 bnd, s.frm.comp = some k → s.arr.run = some r → r.wait = some (t0, bnd) →
       frameImg s (fpPart k.fp) k.count = some img → tget 0 img.words r.upc = w →
       let ends := fun (ok : Bool) => { r with wres := ok, wait := none, upc := (r.upc + 1) % 4096 }
       (waitCond s w = true →
         exec .uwWaitEnd s = .next { s with arr := { s.arr with run := some (ends true) } }) ∧
       (waitCond s w = false →
         (waitLimit s w bnd = true → ∃ t, exec .uwWaitEnd s = .next t ∧ t.arr.run = some (ends false) ∧
           bit (rd t 0x0504) 5 = true ∧ (∀ q, q ≠ 0x0504 → rd t q = rd s q) ∧
           { t with arr := s.arr, regs := s.regs } = s) ∧
         (200 * ((mwf w 0 5 + 1) * 2 ^ (2 * mwf w 5 3 + 4)) ≤ (s.now - t0) * s.pwr.arrClk →
           ∃ t, exec .uwWaitTimeout s = .next t ∧ t.arr.run = some (ends false) ∧ bit (rd t 0x0504) 5 = true ∧
             (∀ q, q ≠ 0x0504 → rd t q = rd s q) ∧ { t with arr := s.arr, regs := s.regs } = s)) ∧
       (waitCond s w = false → waitLimit s w bnd = false → exec .uwWaitEnd s = .next s))

/-- A sequencer fault before COMMIT restarts the routine at its first microword with C, T, M, X and Y as at issue, the macro still at the
head of the queue; the third event, or a fault after COMMIT, ends the program (R269 to R272). What a microword may not do ends the
program (R201, R265, R285): a plane outside the partition's range DETAIL 2, a write outside the scratch set before COMMIT DETAIL 3 with
nothing written, and a word of the image beyond correction DETAIL 12, whose opcode is unbound. -/
def Obligations.SequencerAndMicrocodeFaults : Prop :=
  (∀ (s : State) (k : Comp) (r : Routine), s.frm.comp = some k → s.arr.run = some r → unanswered s k → twf 0 s.regs = true →
     (r.committed = false → s.arr.restarts < 2 → ∃ t r', exec .sequencerFault s = .next t ∧ t.arr.run = some r' ∧
       r'.upc = r.bind.entry ∧ r'.l = [] ∧ r'.stack = [] ∧ r'.wres = false ∧ r'.word = r.word ∧
       t.arr.c = tget 0 r.shadow 0 ∧ t.arr.t = tget 0 r.shadow 1 ∧ t.arr.m = tget 0 r.shadow 2 ∧
       t.arr.x = tget 0 r.shadow 3 ∧ t.arr.y = tget 0 r.shadow 4 ∧ t.arr.queue = s.arr.queue ∧ t.arr.planes = s.arr.planes ∧
       t.arr.restarts = s.arr.restarts + 1 ∧ bit (rd t 0x0504) 1 = true ∧ bit (rd t 0x0E00) 3 = true ∧ t.frm = s.frm) ∧
     (r.committed = false → 2 ≤ s.arr.restarts → ∃ t, exec .sequencerFault s = .next t ∧ CompEnded k 0x21 6 t ∧
       bit (rd t 0x0504) 2 = true ∧ bit (rd t 0x0E00) 3 = true) ∧
     (r.committed = true → ∃ t, exec .sequencerFault s = .next t ∧ CompEnded k 0x21 5 t ∧ bit (rd t 0x0504) 1 = true)) ∧
  (∀ (s : State) (k : Comp) (r : Routine) (w : BitVec 40) (burst : BitVec 128) (any : Bool) (tally : Nat),
     unanswered s k → twf 0 s.regs = true →
     let wa := vAddr r (mwf w 29 3) (mwf w 27 2)
     let mem := mwf w 14 2
     (fetches s k r w → mwClass w = 1 → mem ≠ 0 → inRange s (fpPart k.fp) wa = false →
       ∃ t, exec (.uwPeop burst any tally) s = .next t ∧ CompEnded k 0x21 2 t ∧ bit (rd t 0x0404) 1 = true ∧
         t.arr.planes = s.arr.planes) ∧
     (fetches s k r w → mwClass w = 1 → readUsed w = false → mem ≠ 0 → inRange s (fpPart k.fp) wa = true →
       r.committed = false → wa ∉ r.scratch →
       ∃ t, exec (.uwPeop burst any tally) s = .next t ∧ CompEnded k 0x21 3 t ∧ bit (rd t 0x0504) 0 = true ∧
         bit (rd t 0x0E00) 2 = true ∧ t.arr.planes = s.arr.planes) ∧
     (∀ img, s.frm.comp = some k → s.arr.run = some r → r.wait = none → s.arr.topFrame = [] →
       tfind s.arr.top (fpPart k.fp) = some img → onesNat (tget 0 s.arr.topErr (65536 * fpPart k.fp + r.upc)) = 2 →
       ∃ t img', exec .uwNop s = .next t ∧ CompEnded k 0x21 12 t ∧ bit (rd t 0x0504) 3 = true ∧ bit (rd t 0x0E00) 6 = true ∧
         tfind t.arr.top (fpPart k.fp) = some img' ∧ img'.binds = tdel img.binds (mOp r.word)))

/-- The counts of the locked QEI source (R46, R48, R66, R69, R70, R726): a count of the open frame moves ANG_POS, and a new high count k
gives the measured angle floor(k × 1,048,576 / CPF); a fall of more than ANG_REVTH below the high-water count holds the word and marks
the frame; the fourth consecutive edge of one direction locks at a rate of at most 2,000 frames a second; a reacquiring edge is taken at
the coasted angle; in every state but OFF ANG_POS counts. ANG_Z (R68): in an open frame a Z pulse reports the signed difference of the
count from the nearest multiple of the counts of a revolution, sets ZSLIP when it is not zero, and realigns the count; the angle word
does not move. That the expected count is the nearest multiple is the model's reading (log entry 5). -/
def Obligations.QeiAndZPulse : Prop :=
  (∀ (s : State) (fwd : Bool), twf 0 s.regs = true →
     let mv : QeiMove := if fwd then .forward else .reverse
     let k := s.ang.kcount + (if fwd then 1 else -1)
     let pos := if fwd then s.ang.pos + 1 else s.ang.pos - 1
     let h := s.ang.high
     let mark := fun (j : Int) => j * 1048576 / (perFrame s : Nat) + s.ang.koff
     (s.ang.st = .locked → s.ang.frameOpen = true → angSrc s = 0 → s.pwr.st ≠ 2 →
       ∃ t, exec (.qeiCount mv) s = .next t ∧ t.ang.st = .locked ∧ t.ang.pos = pos ∧ t.ang.kcount = k ∧
         t.ang.phase = s.ang.phase ∧ t.ang.count48 = s.ang.count48 ∧
         (h < k → t.ang.high = k ∧ t.ang.meas = mark k ∧ t.ang.expect = mark (k + 1) ∧ t.ang.revHold = false) ∧
         (k ≤ h → t.ang.high = h ∧ t.ang.meas = s.ang.meas ∧ t.ang.expect = s.ang.expect) ∧
         (k = h → t.ang.revHold = false) ∧
         ((fld (rd s 0x0244) 0 8 : Nat) < h - k → t.ang.revHold = true ∧ t.ang.reversed = true ∧
           rd t 0x0208 = rd s 0x0208 ||| 8 ∧ ∀ f ∈ t.frm.frames, f.count = s.ang.count48 → f.reversed = true) ∧
         (h - k ≤ (fld (rd s 0x0244) 0 8 : Nat) → t.frm = s.frm ∧ t.regs = s.regs ∧ (k < h → t.ang.revHold = s.ang.revHold)) ∧
         (∀ r, r ≠ 0x0208 → rd t r = rd s r) ∧ { t with ang := s.ang, regs := s.regs, frm := s.frm } = s) ∧
     (∀ t0, s.ang.st = .acquiring → angSrc s = 0 → s.pwr.st ≠ 2 → s.ang.lockDir = fwd → s.ang.lockRun = 3 →
       s.ang.lastEdge = some t0 →
       (let m := meanIvals s (((s.now - t0) :: s.ang.ivals).take 8)
        ∃ t, exec (.qeiCount mv) s = .next t ∧ t.ang.pos = pos ∧ t.ang.frameOpen = s.ang.frameOpen ∧
         t.ang.st = (if 100000 * m.2 ≤ perFrame s * m.1 then .locked else .acquiring) ∧ { t with ang := s.ang } = s)) ∧
     (s.ang.st = .coasting → angSrc s = 0 → s.pwr.st ≠ 2 → zAlign s = false →
       ∃ t, exec (.qeiCount mv) s = .next t ∧ t.ang.st = .locked ∧ t.ang.pos = pos ∧ t.ang.phase = s.ang.phase ∧
         t.ang.meas = s.ang.phase ∧ { t with ang := s.ang } = s) ∧
     (s.ang.st ≠ .off → angSrc s ≠ 0 ∨ s.pwr.st = 2 → s.grp.role ≠ 2 →
       exec (.qeiCount mv) s = .next { s with ang := { s.ang with pos := pos } }) ∧
     (s.ang.st = .off → exec (.qeiCount mv) s = .next s ∧ exec (.qeiCount .illegal) s = .next s)) ∧
  (∀ (s : State) (n : Int), twf 0 s.regs = true → zAlign s = true → s.ang.st = .locked → s.pwr.st ≠ 2 →
     let k := n * (perRev s : Nat)
     let d := k - s.ang.kcount
     (s.ang.frameOpen = true → s.ang.zwait = false → -(perRev s : Nat) < 2 * d → 2 * d < (perRev s : Nat) →
       -32767 ≤ d → d ≤ 32767 →
       ∃ t, exec .zPulse s = .next t ∧ ((rd t 0x0254).setWidth 16).toInt = d ∧ rd t 0x0254 &&& 0xFFFF0000 = 0 ∧
         rd t 0x0208 = (if d = 0 then rd s 0x0208 else rd s 0x0208 ||| 0x10) ∧ t.ang.kcount = k ∧ t.ang.high = s.ang.high + d ∧
         t.ang.meas = (s.ang.high + d) * 1048576 / (perFrame s : Nat) ∧ t.ang.phase = s.ang.phase ∧
         t.ang.count48 = s.ang.count48 ∧ t.ang.st = .locked ∧
         (∀ r, r ≠ 0x0254 → r ≠ 0x0208 → rd t r = rd s r) ∧ { t with ang := s.ang, regs := s.regs } = s) ∧
     (zAlign s = false → exec .zPulse s = .next s))

/-- TACH pulses and mains crossings (R49, R50, R66, R67, R726): a consistent interval lengthens the run toward lock; an accepted edge of the
locked source advances the measured angle by one position; a rejected pulse is ignored, the second in succession being a loss; a
reacquiring edge is taken at the nearest expected position when that lies within an eighth of a frame of the coasted angle. The losses
of a source (R49, R50, R61 to R66): no edge for EDGETO intervals, no crossing for 1.25 periods, more illegal transitions than QERRMAX, a
mains period out of range, or the second rejected pulse: the clock coasts, or with ANG_COAST at 0 enters LOST; a spent budget and the
stall rule enter LOST with their own DETAIL. -/
def Obligations.PulsesCrossingsAndLosses : Prop :=
  (∀ (s : State) (t0 : Nat), twf 0 s.regs = true → s.ang.lastEdge = some t0 → s.pwr.st ≠ 2 →
     let iv := s.now - t0
     let pll := rd s 0x0238
     let m := meanIvals s s.ang.ivals
     let pf := perFrame s
     let k := s.ang.kcount + 1
     let close := fun (t : State) => { t with ang := s.ang } = s
     let tracks := fun (i : Instr) => ∃ t, exec i s = .next t ∧ t.ang.st = .locked ∧ t.ang.kcount = k ∧
       t.ang.meas = k * 1048576 / (pf : Nat) + s.ang.koff ∧ t.ang.expect = (k + 1) * 1048576 / (pf : Nat) + s.ang.koff ∧
       t.ang.phase = s.ang.phase ∧ close t
     let inTrk := 256 * ((iv * m.2 : Nat) - (m.1 : Int)).natAbs ≤ fld pll 16 8 * m.1
     let near := ((2 * s.ang.phase * pf + 1048576) / (2 * 1048576) : Nat) * 1048576 / (pf : Nat)
     let reacquires := fun (i : Instr) =>
       (((near : Nat) - (s.ang.phase : Int)).natAbs ≤ 131072 → ∃ t, exec i s = .next t ∧ t.ang.st = .locked ∧
         t.ang.meas = (near : Nat) ∧ t.ang.phase = s.ang.phase ∧ close t) ∧
       (131072 < ((near : Nat) - (s.ang.phase : Int)).natAbs → ingestBlank s → ∃ t, exec i s = .next t ∧ LostSource s t 4)
     let nom := fld (rd s 0x0230) 0 16
     let inRange := 9 * 2000000000 ≤ iv * nom ∧ iv * nom ≤ 11 * 2000000000
     (angSrc s = 1 →
       (∀ prev rest, s.ang.st = .acquiring → s.ang.ivals = prev :: rest →
         let run := if 256 * ((iv : Nat) - (prev : Int)).natAbs ≤ fld pll 8 8 * prev then s.ang.lockRun + 1 else 1
         (run < fld pll 0 6 → ∃ t, exec .tachPulse s = .next t ∧ t.ang.st = .acquiring ∧ t.ang.lockRun = run ∧
           t.ang.lastEdge = some s.now ∧ close t) ∧
         (fld pll 0 6 ≤ run → zAlign s = true → ∃ t, exec .tachPulse s = .next t ∧ t.ang.st = .locked ∧
           t.ang.frameOpen = s.ang.frameOpen ∧ close t)) ∧
       (s.ang.st = .locked → s.ang.frameOpen = true →
         (inTrk → tracks .tachPulse) ∧
         (¬inTrk → s.ang.rejects = 0 → exec .tachPulse s = .next { s with ang := { s.ang with rejects := 1 } })) ∧
       (s.ang.st = .coasting → zAlign s = false → reacquires .tachPulse)) ∧
     (angSrc s = 2 →
       (s.ang.st = .acquiring → ∃ t, exec (.lineCrossing 0) s = .next t ∧ t.ang.frameOpen = s.ang.frameOpen ∧
         (inRange → t.ang.lockRun = s.ang.lockRun + 1 ∧ (t.ang.st = .locked ↔ 15 ≤ s.ang.lockRun)) ∧
         (¬inRange → t.ang.lockRun = 0 ∧ t.ang.st = .acquiring) ∧ close t) ∧
       (s.ang.st = .locked → s.ang.frameOpen = true → inRange → tracks (.lineCrossing 0)) ∧
       (s.ang.st = .coasting → reacquires (.lineCrossing 0)))) ∧
  (∀ (s : State), twf 0 s.regs = true → ingestBlank s → s.ang.frameOpen = true → s.pwr.st ≠ 2 →
     let coast := fld (rd s 0x023C) 0 4
     let loses := fun (i : Instr) (u : State) =>
       (coast ≠ 0 → ∃ t, exec i s = .next t ∧ Coasts u t) ∧ (coast = 0 → ∃ t, exec i s = .next t ∧ LostSource u t 5)
     let m := meanIvals s s.ang.ivals
     (∀ t0, s.ang.lastEdge = some t0 → s.ang.st = .locked →
       let iv := s.now - t0
       (angSrc s ≤ 1 → ∀ l rest, s.ang.ivals = l :: rest → fld (rd s 0x0240) 0 5 * l ≤ iv → loses .edgeTimeout s) ∧
       (angSrc s = 2 → m.2 ≠ 0 → 5 * m.1 ≤ 4 * m.2 * iv → loses .lineCrossingTimeout s) ∧
       (angSrc s = 2 → (let nom := fld (rd s 0x0230) 0 16
         iv * nom < 9 * 2000000000 ∨ 11 * 2000000000 < iv * nom) → loses (.lineCrossing 0) s) ∧
       (angSrc s = 1 → 1 ≤ s.ang.rejects → fld (rd s 0x0238) 16 8 * m.1 < 256 * ((iv * m.2 : Nat) - (m.1 : Int)).natAbs →
         loses .tachPulse s)) ∧
     (s.ang.st = .locked → angSrc s = 0 →
       let u := { s with ang := { s.ang with qerr := s.ang.qerr + 1 } }
       (s.ang.qerr < fld (rd s 0x0240) 8 8 → exec (.qeiCount .illegal) s = .next u) ∧
       (fld (rd s 0x0240) 8 8 ≤ s.ang.qerr → loses (.qeiCount .illegal) u)) ∧
     (s.ang.st = .coasting → s.ang.coastLeft = 0 → boundaryDue s = false → s.grp.role < 2 →
       ∃ t, exec .coastBudgetSpent s = .next t ∧ LostSource s t 1) ∧
     (angSrc s ≤ 2 → 4000000000 ≤ s.now - s.ang.openAt → ∃ t, exec .stallTimeout s = .next t ∧ LostSource (setFlag s 0x0208 6) t 2) ∧
     (3 ≤ angSrc s ∨ s.now - s.ang.openAt < 4000000000 → exec .stallTimeout s = .next s))

/-- The angle word (R52 to R54, R723): as time passes it never decreases, never passes the close angle, and while it follows a source never
passes the measured phase of the next expected edge; it moves alone; and a clock that runs free moves it at its rate. Events and pacers
(R55, R73 to R76, R79): at a due phase every enabled entry of that phase and residue and every pacer that strobes there act together,
once: the interrupt bits, the strobe latches of the cells that select a strobed lane, the trigger latches; nothing fires when nothing is
due. -/
def Obligations.AngleWordAndEvents : Prop :=
  (∀ (s : State) (dt : Nat),
     (s.ang.phase ≤ 1048576 → s.ang.wfrac < 4 * s.ang.rateD → ∃ t, exec (.angleWordAdvance dt) s = .next t ∧
       s.ang.phase ≤ t.ang.phase ∧ t.ang.phase ≤ 1048576 ∧ s.now ≤ t.now ∧ t.now ≤ s.now + dt ∧
       t.ang.count48 = s.ang.count48 ∧ t.ang.st = s.ang.st ∧
       (3 ≤ angSrc s ∨ s.ang.st = .coasting ∨ interpolates s = false ∨ (t.ang.phase : Int) ≤ max (s.ang.phase : Int) s.ang.expect) ∧
       { t with now := s.now, ang := s.ang } = s) ∧
     (angSrc s = 3 → s.ang.st = .locked → s.ang.frameOpen = true → s.ang.revHold = false → s.pwr.st ≠ 2 →
       dueFiring s = none → boundaryDue s = false → nextFiring s (max s.ang.fired (s.ang.phase + 1)) = none →
       0 < s.ang.rateN → 0 < s.ang.rateD →
       s.ang.phase * (4 * s.ang.rateD) + s.ang.wfrac + 4 * s.ang.rateN * dt ≤ 1048576 * (4 * s.ang.rateD) →
       ∃ t, exec (.angleWordAdvance dt) s = .next t ∧ t.now = s.now + dt ∧ t.ang.rateD = s.ang.rateD ∧
         t.ang.phase * (4 * s.ang.rateD) + t.ang.wfrac = s.ang.phase * (4 * s.ang.rateD) + s.ang.wfrac + 4 * s.ang.rateN * dt ∧
         { t with now := s.now, ang := s.ang } = s) ∧
     (s.ang.frameOpen = false → exec (.angleWordAdvance dt) s = .next { s with now := s.now + dt })) ∧
  (∀ (s : State) (i : Instr), twf 0 s.regs = true → i = .angleEventFire ∨ i = .pacerStrobe →
     (∀ p, dueFiring s = some p →
       (i = .angleEventFire → ∃ n < 64, evtOn s s.ang.count48.toNat n = true ∧ fld (evtA s n) 0 20 = p) →
       (i = .pacerStrobe → ∃ k < 4, pacerAt s k p = true) →
       let acts := fun (w : Word) =>
         (∃ n < 64, evtOn s s.ang.count48.toNat n = true ∧ fld (evtA s n) 0 20 = p ∧ w = evtB s n) ∨
           (∃ k < 4, pacerAt s k p = true ∧ w = rd s (0x0288 + 16 * k))
       ∃ t, exec i s = .next t ∧ t.ang = { s.ang with fired := p + 1 } ∧ s.ang.fired ≤ p ∧ p ≤ s.ang.phase ∧
         (∀ n < 64, evtOn s s.ang.count48.toNat n = true → fld (evtA s n) 0 20 = p → bit (evtB s n) 20 = true →
           bit (rd t (0x0270 + 4 * (n / 32))) (n % 32) = true) ∧
         (∀ w, acts w → ∀ c < 64, (∀ n < 16, bit w n = true → (cw s c 5).getLsbD 8 = true → cbits (cw s c 5) 4 4 = n →
             (cell t c).cur.slat = true) ∧
           (bit w 16 = true → (cell t c).cur.tl.getLsbD (fld w 17 3) = true)) ∧
         (∀ r, r ≠ 0x0270 → r ≠ 0x0274 → r ≠ 0x0704 → r ≠ 0x0758 → rd t r = rd s r) ∧
         { t with ang := s.ang, regs := s.regs, hdg := s.hdg, trc := s.trc } = s) ∧
     (dueFiring s = none → exec i s = .next s))

/-- Frame boundaries (R24, R42, R56, R65, R70, R71, R84 to R92, R106, R112): the open frame closes with its period measured, an outcome
where it is not to be computed, and the next one opens with the next number; a frame that closed before and is still not computed is
shed; a frame of less than 0.5 ms is abandoned instead; the sources open their first frame after lock. Idle boundaries (R40, R407): with
the clock OFF and no frame, a pending write that sets ANG_CTRL.EN takes effect and the clock acquires; with nothing pending an idle
boundary does nothing. -/
def Obligations.FrameAndIdleBoundaries : Prop :=
  (∀ (s : State), twf 0 s.regs = true →
     (∀ (f : Frame) (rest : List Frame), boundaryDue s = true → 3 ≤ angSrc s ∨ 100000 ≤ s.now - s.ang.openAt →
       s.ang.st = .locked → quietBoundary s → s.ang.anyOpened = true → s.frm.frames = f :: rest → f.st = .ingesting →
       f.count = s.ang.count48 → (∀ g ∈ rest, g.st ≠ .ingesting ∧ g.count ≠ f.count) →
       (∀ x ∈ f.slots, x.outcome = none ∧ x.posted = false) →
       let o : Option (Nat × Nat) :=
         if f.overflow then some (0x21, 9) else if f.suspect then some (0x21, 11)
         else if f.reversed ∧ bit (rd s 0x0200) 4 = false then some (0x20, 2) else if s.pwr.st = 1 then some (0x20, 3) else none
       let period := s.now - s.ang.openAt
       ∃ t g h tail, exec .frameBoundary s = .next t ∧ t.frm.frames = g :: h :: tail ∧ FrameOpens s t g ∧
         t.ang.meas = s.ang.meas - 1048576 ∧ t.ang.expect = s.ang.expect - 1048576 ∧ t.ang.pos = s.ang.pos ∧
         h.count = f.count ∧ (∀ x ∈ h.slots, x.outcome = o) ∧ h.slots.map (fun x => x.fp) = f.slots.map (fun x => x.fp) ∧
         (o = none → f.slots ≠ [] → h.st = .closed) ∧ (o ≠ none ∨ f.slots = [] → h.st = .posting ∨ h.st = .drained) ∧
         (h.overspeed = true ↔ f.overspeed = true ∨ period < 200 * fld (rd s 0x0248) 0 25) ∧
         rd t 0x024C = BitVec.ofNat 32 (min (2 ^ 30 - 1) (period / 4)) ∧ rd t 0x0250 = BitVec.ofNat 32 (min 0xFFFF s.ang.qerr) ∧
         ∀ r, r ∉ ([0x0208, 0x024C, 0x0250, 0x0308, 0x0314, 0x0904, 0x0A04] : List Nat) → rd t r = rd s r) ∧
     (∀ (f f1 : Frame), boundaryDue s = true → 3 ≤ angSrc s ∨ 100000 ≤ s.now - s.ang.openAt → s.ang.st = .locked →
       s.grp.role = 0 → s.grp.retired = false → s.pwr.st = 0 → s.prt.changes = [] → s.prt.opens = [] → s.frm.comp = none →
       s.smp.lanes = [] → s.frm.frames = [f, f1] → f.st = .ingesting → f1.st = .closed → f.count ≠ f1.count →
       f1.count ≠ nextCount s → (∀ x ∈ f1.slots, x.outcome = none ∧ x.posted = false) →
       ∃ t, exec .frameBoundary s = .next t ∧
         ∀ h ∈ t.frm.frames, h.count = f1.count → ∀ x ∈ h.slots, x.outcome = some (0x20, 1)) ∧
     (boundaryDue s = true → angSrc s ≤ 2 → s.now - s.ang.openAt < 100000 → s.grp.role < 2 → ingestBlank s →
       ∃ t, exec .frameBoundary s = .next t ∧ LostSource (setFlag s 0x0208 7) t 3) ∧
     (boundaryDue s = false → exec .frameBoundary s = .next s) ∧
     (quietBoundary s → ingesting s = none →
       let opens := fun (i : Instr) => ∃ t g tail, exec i s = .next t ∧ t.frm.frames = g :: tail ∧ FrameOpens s t g
       (angSrc s = 3 → s.ang.st = .acquiring → 4 ≤ s.now - s.ang.lockAt → opens .timerLock) ∧
       (s.ang.st = .locked → s.ang.frameOpen = false →
         (zAlign s = true → opens .zPulse) ∧ (zAlign s = false → angSrc s = 0 → opens (.qeiCount .forward)) ∧
         (∀ t0, angSrc s = 2 → s.ang.lastEdge = some t0 → (let n := (s.now - t0) * fld (rd s 0x0230) 0 16
           9 * 2000000000 ≤ n ∧ n ≤ 11 * 2000000000) → opens (.lineCrossing 0)))) ∧
     (angSrc s ≠ 3 ∨ s.now - s.ang.lockAt < 4 → exec .timerLock s = .next s)) ∧
  (∀ (s : State) (mbx : Bool) (stamp : Nat) (v : Word), twf 0 s.regs = true →
     (s.ang.st = .off → s.pwr.st ≠ 2 → s.grp.role = 0 → angEn s = false → bit v 3 = true → s.prt.opens = [] → s.scb.repaired = [] →
       (∀ g ∈ s.frm.frames, g.st = .posting ∨ g.st = .drained) → sourceValid (wr s 0x0200 v) = true →
       s.prt.changes = [{ unit := .angle, mbx := mbx, stamp := stamp, kind := .writes [(0x0200, v)], ord := none }] →
       ∃ t, exec .idleBoundary s = .next t ∧ rd t 0x0200 = v ∧ t.ang.st = .acquiring ∧ t.ang.lockAt = s.now ∧
         t.ang.frameOpen = false ∧ t.ang.pos = s.ang.pos ∧ t.ang.count48 = s.ang.count48 ∧ t.prt.changes = [] ∧
         t.frm.frames = s.frm.frames ∧ ∀ r, r ≠ 0x0200 → rd t r = rd s r) ∧
     (s.prt.changes = [] → exec .idleBoundary s = .next s))

/-- The start of a program and the drain after it (R92 to R97, R198, R226 to R231, R234, R243, R369): the handler starts with the registers
of R369 while firmware's are saved, the array as the program finds it; the drain clears it and records the columns whose scratch bands
read back a one. Frame replies (R111, R397, R453 to R455): the first unposted slot of the partition, once its outcome is final, is
answered with an entry of RQp that carries the outcome; a held reply moves into the ring when an entry is free; otherwise nothing
happens. -/
def Obligations.ProgramRunsAndReplies : Prop :=
  (∀ (s : State), twf 0 s.regs = true →
     (∀ (f : Frame) (x : Slot), nextStart s = some (f, x) → s.frm.drained = true → arrayBusy s = false → s.pwr.st = 0 →
       s.cnd.running = true → s.grp.retired = false → s.frm.drainChk = false →
       let q := fpPart x.fp
       let w := BitVec.ofNat 32
       let stk := stkArea s q
       ∃ t k h, exec .programStart s = .next t ∧ t.frm.comp = some k ∧ k.fp = x.fp ∧ k.count = f.count ∧ k.handlerDone = false ∧
         t.frm.drained = false ∧ t.cnd.handler = some h ∧ h.fp = x.fp ∧ h.part = q ∧ h.budget = (prog s x.fp).h ∧ h.up = none ∧
         t.cnd.pc = w (codeAddr s x.fp (prog s x.fp).hentry) ∧ aReg t 0 = w (keepArea s q).1 ∧ aReg t 1 = w (xchArea s q).1 ∧
         aReg t 2 = (if f.half then 0x70040000 else 0x70000000) ∧ aReg t 7 = w (stk.1 + stk.2) ∧
         (∀ i, i ∈ [3, 4, 5, 6] → aReg t i = 0) ∧ dReg t 0 = w f.count.toNat ∧ dReg t 1 = w (f.count.toNat / 2 ^ 32) ∧
         dReg t 2 = w (x.fp + 16 * q) ||| flag f.coasted 8 ||| flag f.reversed 9 ||| flag f.overspeed 10 ∧
         (∀ i, 3 ≤ i → i < 16 → dReg t i = 0) ∧ (∀ i < 4, kReg t i = 0) ∧ (∀ i < 16, fReg t i = 0) ∧ t.cnd.lc = 0 ∧
         t.cnd.fw = some (saveFw s.cnd) ∧ rd t 0x0638 = w stk.1 ∧
         (∀ g ∈ t.frm.frames, g.count = f.count → g.st = .computing ∧ ∀ y ∈ g.slots, y.fp = x.fp → y.started = true) ∧
         t.arr.pp = [] ∧ t.arr.rm = 0 ∧ t.arr.queue = [] ∧ t.arr.qres = 0 ∧ t.arr.retired = 0 ∧
         t.arr.allow = allowOf s (prog s x.fp) ∧ t.arr.bandsOn = BitVec.ofNat 8 (prog s x.fp).bands ∧
         t.arr.planes = s.arr.planes ∧ t.cnd.mem = s.cnd.mem ∧
         (∀ r, r ≠ 0x0638 → r ≠ 0x010C → rd t r = rd s r) ∧
         { t with frm := s.frm, cnd := s.cnd, arr := s.arr, regs := s.regs, trc := s.trc } = s) ∧
     (nextStart s = none ∨ s.frm.drained = false ∨ s.pwr.st ≠ 0 → exec .programStart s = .next s) ∧
     (∀ (fp : Nat) (c : BitVec 48) (found : BitVec 132), s.frm.drain = some (fp, c) →
       ∃ t, exec (.drainEnd found) s = .next t ∧ t.frm.drain = none ∧ t.frm.drained = true ∧ t.arr.planes = [] ∧ t.arr.c = 0 ∧
         t.arr.t = 0 ∧ t.arr.x = 0 ∧ t.arr.y = 0 ∧ t.arr.m = BitVec.allOnes 16384 ∧ t.arr.queue = [] ∧ t.arr.qres = 0 ∧
         t.arr.staging = 0 ∧ t.arr.bandsOn = 0xFF ∧ t.arr.map = s.arr.map ∧ t.arr.top = s.arr.top ∧
         ((prog s fp).sbands = 0 ∨ found = 0 →
           t.frm.drainChk = s.frm.drainChk ∧ { t with frm := s.frm, arr := s.arr } = s) ∧
         (∀ col < 132, (prog s fp).sbands ≠ 0 → found.getLsbD col = true → (∀ j < col, found.getLsbD j = false) →
           s.arr.map = [] → t.frm.drainChk = true ∧ rd t 0x0438 = BitVec.ofNat 32 col ∧ bit (rd t 0x0308) 4 = true ∧
           (s.flt.notes.length < 8 → col ∈ t.flt.notes))) ∧
     (s.frm.drain = none → ∀ found, exec (.drainEnd found) s = .next s)) ∧
  (∀ (s : State) (p : Fin 4),
     let tail := tget 0 s.prt.rqTail p
     let a := rqAddr s p tail
     let room := decide (rqCount s p < rqDepth s p)
     (∀ (f : Frame) (x : Slot) (st d : Nat), nextSlot s p = some (f, x) → x.outcome = some (st, d) → f.st ≠ .opening →
       f.st ≠ .ingesting → s.grp.retired = false → holdQ s p = [] → room = true → s.prt.opens = [] → s.grp.role = 0 →
       tget [] s.frm.kdone (keeperKey f.count x.fp) = [] → Memory.wf 0 s.cnd.mem = true → st < 256 → d < 2 ^ 32 → x.fp < 16 →
       ∃ t, exec (.frameReplyPost p) s = .next t ∧ tget 0 t.prt.rqTail p = (tail + 1) % 65536 ∧
         rdMem t a = 1 ∧ rdMem t (a + 1) = BitVec.ofNat 8 st ∧ rdMem t (a + 3) = BitVec.ofNat 8 x.fp ∧
         (rdMem t (a + 2)).getLsbD 0 = f.coasted ∧ (rdMem t (a + 2)).getLsbD 4 = f.reversed ∧
         leNat (rdBytes t (a + 16) 8) = f.count.toNat ∧
         leNat (rdBytes t (a + 24) 4) = (if st = 0 then min 3 x.restarts else d) ∧
         (∀ m, m < a ∨ a + 64 ≤ m → rdMem t m = rdMem s m) ∧
         (∀ g ∈ t.frm.frames, g.count = f.count → ∀ y ∈ g.slots, y.fp = x.fp → y.posted = true) ∧
         t.regs = s.regs ∧ { t with frm := s.frm, prt := s.prt, cnd := s.cnd, trc := s.trc } = s) ∧
     ((∀ f x, nextSlot s p = some (f, x) → x.outcome = none ∨ f.st = .ingesting) → exec (.frameReplyPost p) s = .next s) ∧
     (∀ (e : List Byte) (rest : List (List Byte)), holdQ s p = e :: rest →
       (room = true → e.length = 64 → Memory.wf 0 s.cnd.mem = true →
         ∃ t, exec (.heldReplyMove p) s = .next t ∧ holdQ t p = rest ∧ tget 0 t.prt.rqTail p = (tail + 1) % 65536 ∧
           rdBytes t a 64 = e ∧ (∀ m, m < a ∨ a + 64 ≤ m → rdMem t m = rdMem s m) ∧ t.regs = s.regs ∧ t.frm = s.frm ∧
           { t with prt := s.prt, cnd := s.cnd, trc := s.trc } = s) ∧
       (room = false → exec (.heldReplyMove p) s = .next s)) ∧
     (holdQ s p = [] → exec (.heldReplyMove p) s = .next s))

/-- The power states (R80, R112, R113, R166, R190, R229, R505, R691 to R693): DOZE is entered once the array is drained, with the conductor
at 25 MHz and the array clock stopped, and left with both running; STANDBY is entered with the angle word held, the clocks stopped, the
scrubber's pass and the lanes' records gone; it is left with the array and the sample store cleared and the clock acquiring; supplies
that stay out of range for 10 ms reset the device with cause 7. -/
def Obligations.PowerStates : Prop :=
  ∀ (s : State), twf 0 s.regs = true → s.pwr.pend = true →
    (s.pwr.target = 1 → s.pwr.st = 0 → s.frm.drained = true → arrayBusy s = false →
      (∀ f ∈ s.frm.frames, f.st ≠ .computing) → s.prt.opens = [] →
      exec .dozeEntry s = .next { s with pwr := { s.pwr with st := 1, pend := false, exiting := false, cndClk := 25, arrRun := false } }) ∧
    (s.pwr.target = 1 → s.pwr.st = 0 → s.frm.drained = false → exec .dozeEntry s = .next s) ∧
    (s.pwr.target = 0 → s.pwr.st = 1 → s.prt.opens = [] →
      exec .dozeExitComplete s = .next { s with pwr := { s.pwr with
        st := 0, pend := false, exiting := false, cndClk := max (fld (rd s 0x0104) 0 8) (fld (rd s 0x0300) 0 8), arrRun := true } }) ∧
    (∀ (t0 : Nat) (pins : BitVec 40), s.pwr.target = 2 → s.pwr.st ≠ 2 → s.grp.role = 0 → s.prt.opens = [] → s.frm.comp = none →
      ∃ t, exec (.standbyEntry t0 pins) s = .next t ∧ t.pwr.st = 2 ∧ t.pwr.pend = false ∧ t.pwr.arrRun = false ∧ t.pwr.cndClk = 0 ∧
        angWord t = angWord s ∧ t.ang.frameOpen = false ∧ t.ang.pos = s.ang.pos ∧ t.ang.count48 = s.ang.count48 ∧
        t.scb.pass = none ∧ t.smp.lanes = [] ∧ t.hdg.cells = s.hdg.cells ∧ t.cnd.a = s.cnd.a ∧ t.cnd.d = s.cnd.d ∧
        t.cnd.running = s.cnd.running ∧ t.boot = s.boot ∧
        (∀ f ∈ s.frm.frames, f.st = .closed → ingesting s = none →
          (∀ g ∈ s.frm.frames, g.count = f.count → ∀ x ∈ g.slots, x.outcome = none ∧ x.posted = false) → ∀ g ∈ t.frm.frames, g.count = f.count → ∀ x ∈ g.slots, x.outcome = some (0x20, 4))) ∧
    (s.pwr.st = 2 → s.pwr.exiting = true → s.grp.role = 0 → s.prt.opens = [] → passesRun { s with pwr := { s.pwr with st := s.pwr.target } } = false →
      (s.pwr.supplies.getLsbD 2 = true → s.pwr.target < 2 → angEn s = true →
        ∃ t, exec .standbyExitComplete s = .next t ∧ t.pwr.st = s.pwr.target ∧ t.pwr.pend = false ∧
          t.pwr.arrRun = decide (s.pwr.target = 0) ∧ t.arr.planes = [] ∧ t.arr.m = BitVec.allOnes 16384 ∧ t.smp = Smp.reset ∧
          t.ang.st = .acquiring ∧ t.ang.pos = s.ang.pos ∧ t.ang.count48 = s.ang.count48 ∧ t.regs = s.regs ∧ t.cnd = s.cnd) ∧
      (s.pwr.supplies.getLsbD 2 = false →
        exec .standbyExitComplete s = .next s ∧
        (s.pwr.orderAt + 2000000 ≤ s.now → ∃ t, exec .supplyWaitTimeout s = .next t ∧ t.boot.inReset = true ∧ t.boot.cause = 7 ∧
          t.boot.ready = false) ∧
        (s.now < s.pwr.orderAt + 2000000 → exec .supplyWaitTimeout s = .next s)))

/-- Fabric cells (R121 to R123, R125, R126, R129): a cell that executes its entry writes the operation's result to DST, or Q, or CY, steps
PTR and IX as the entry says, clears the latch on which its WAIT completed, and nothing else happens; a cell whose entry waits does
nothing. -/
def Obligations.FabricCells : Prop :=
  ∀ (s : State) (c : Fin 64) (t : Nat) (pins : BitVec 40), s.hdg.capDue.contains c.val = false → twf 0 (cell s c).cur.ram = true →
    let x := (cell s c).cur
    let e := entryAt s c t
    let dst := fld e 19 2
    let sq := fld e 16 2
    let k := fld e 8 5
    let n := fld e 0 5
    let addr := if bit e 5 then x.ptr.toNat else n
    let src : Nat → BitVec 24 := fun j =>
      if j = 0 then x.acc else if j = 1 then x.opb else if j ≤ 5 then wordIn s c t (j - 2) else if j = 6 then tget 0 x.ram addr
      else (e.setWidth 8).signExtend 24
    let a := src (fld e 24 3)
    let b := src (fld e 21 3)
    let west := if c.val % 8 = 0 then false else carryAt s t pins (c.val / 8) (c.val % 8 - 1)
    let lands := fun (y : CellCore) (v : BitVec 24) =>
      y.acc = (if dst = 0 then v else x.acc) ∧ y.opb = (if dst = 1 then v else x.opb) ∧ y.out = (if dst = 2 then v else x.out) ∧
        ∀ r, tget 0 y.ram r = if dst = 3 ∧ r = addr then v else tget 0 x.ram r
    let keeps := fun (y : CellCore) => y.acc = x.acc ∧ y.opb = x.opb ∧ y.out = x.out ∧ y.ram = x.ram
    let goes := fun (y : CellCore) (ram : Prop) =>
      y.ix = (if sq = 1 ∨ sq = 2 ∧ y.q = true then BitVec.ofNat 3 (fld e 13 3) else x.ix + 1) ∧
      (ram → y.ptr = if bit e 6 then x.ptr + 1 else x.ptr) ∧ (¬ram → y.ptr = x.ptr) ∧
      y.slat = (x.slat && !(decide (sq = 3) && decide (k = 22))) ∧
      ∀ j < 8, y.tl.getLsbD j = (x.tl.getLsbD j && !(decide (sq = 3) && decide (k = 14 + j)))
    let does := fun (op : Nat) (i : Instr) (p : CellCore → Prop) =>
      (cellReady s c t pins op = true → ∃ u, exec i s = .next u ∧ p (cell u c).cur ∧ (cell u c).prev = x ∧
        (cell u c).edge = t + 1 ∧ (∀ d, d ≠ c.val → cell u d = cell s d) ∧
        { u with hdg := { u.hdg with cells := s.hdg.cells } } = s) ∧
      (cellReady s c t pins op = false → exec i s = .next s)
    let r1 := fld e 24 3 = 6 ∨ dst = 3
    let r2 := fld e 24 3 = 6 ∨ fld e 21 3 = 6 ∨ dst = 3
    let gives := fun (op : Nat) (i : Instr) (ram : Prop) (v : BitVec 24) =>
      does op i (fun y => lands y v ∧ y.q = x.q ∧ y.cy = x.cy ∧ goes y ram)
    let sums := fun (op : Nat) (i : Instr) (v : BitVec 24) (cin : Bool) =>
      (let r := a.toNat + v.toNat + (if bit e 18 then west else cin).toNat
       does op i (fun y => lands y (BitVec.ofNat 24 r) ∧ y.q = x.q ∧ y.cy = decide (2 ^ 24 ≤ r) ∧ goes y r2))
    let tests := fun (op : Nat) (i : Instr) (ram : Prop) (q : Bool) =>
      does op i (fun y => keeps y ∧ y.q = q ∧ y.cy = x.cy ∧ goes y ram)
    does 0 (.cellNop c t pins) (fun y => keeps y ∧ y.q = x.q ∧ y.cy = x.cy ∧ goes y False) ∧
    gives 1 (.cellMov c t pins) r1 a ∧ sums 2 (.cellAdd c t pins) b false ∧ sums 3 (.cellAdc c t pins) b x.cy ∧
    sums 4 (.cellSub c t pins) (~~~b) true ∧ sums 5 (.cellSbc c t pins) (~~~b) x.cy ∧
    gives 6 (.cellAnd c t pins) r2 (a &&& b) ∧ gives 7 (.cellOr c t pins) r2 (a ||| b) ∧
    gives 8 (.cellXor c t pins) r2 (a ^^^ b) ∧ gives 9 (.cellShl c t pins) r1 (if 23 < n then 0 else a <<< n) ∧
    gives 10 (.cellShr c t pins) r1 (if 23 < n then 0 else a >>> n) ∧
    gives 11 (.cellSar c t pins) r1 (if 23 < n then (if a.msb then BitVec.allOnes 24 else 0) else a.sshiftRight n) ∧
    gives 12 (.cellMull c t pins) r2 ((a.signExtend 48 * b.signExtend 48).setWidth 24) ∧
    gives 13 (.cellMulh c t pins) r2 (((a.signExtend 48 * b.signExtend 48) >>> 24).setWidth 24) ∧
    gives 17 (.cellSat c t pins) r1 (if 23 ≤ n then a else if a.toInt < -(2 ^ n : Nat) then BitVec.ofInt 24 (-(2 ^ n : Nat))
      else if (2 ^ n : Nat) ≤ a.toInt then BitVec.ofInt 24 ((2 ^ n : Nat) - 1) else a) ∧
    tests 14 (.cellCmplt c t pins) (fld e 24 3 = 6 ∨ fld e 21 3 = 6) (decide (a.toInt < b.toInt)) ∧
    tests 15 (.cellCmpeq c t pins) (fld e 24 3 = 6 ∨ fld e 21 3 = 6) (decide (a = b)) ∧
    tests 16 (.cellCmpltu c t pins) (fld e 24 3 = 6 ∨ fld e 21 3 = 6) (decide (a.toNat < b.toNat)) ∧
    tests 22 (.cellBtst c t pins) (fld e 24 3 = 6) (decide (n ≤ 23) && a.getLsbD n)

/-- The cells' devices (R138, R139, R156, R158, R166): OUTL fills the lane's holding register, holds the cell while it is full, and discards
for a lane that is not in word mode; SPX starts a transfer of an idle port and holds on a busy one; SPR reads the last word and clears a
UART's VALID and OVERRUN; FLR reads the flash window, 0 with FWERR outside it; a port's own events fill its word. Records of the lanes
(R90, R153 to R163): the ingest port writes a lane's waiting record behind those of its region in the ingesting frame's half, with a
VALID stamp at the first of a block; a full region marks the frame; without an ingesting frame the record is discarded; a bitstream lane
packs 24 bits to a record, the first in bit 0. -/
def Obligations.LanesPortsAndRecords : Prop :=
  (∀ (s : State) (c : Fin 64) (t : Nat) (pins : BitVec 40), twf 0 s.regs = true → s.hdg.capDue.contains c.val = false →
     let x := (cell s c).cur
     let e := entryAt s c t
     let a := srcA s c t e x
     let ready := fun op => cellReady s c t pins op = true
     let held := fun (i : Instr) => exec i s = .next (setCell s c { cell s c with holding := true })
     let p := fld e 0 2
     let n := fld e 0 4
     let io := port s p
     let mode := fld (rd s (0x0730 + 8 * p)) 0 2
     (ready 18 → s.pwr.st ≠ 2 →
       (laneWord s n = true → (lane s n).hold = none → ∃ u, exec (.cellOutl c t pins) s = .next u ∧
         (lane u n).hold = some (BitVec.ofNat 32 (a.toNat + n * 2 ^ 24 + fld e 4 3 * 2 ^ 28)) ∧
         (∀ m, m ≠ n → lane u m = lane s m) ∧ (cell u c).cur = nextIx e x ∧ u.regs = s.regs ∧
         { u with hdg := { u.hdg with cells := s.hdg.cells }, smp := { u.smp with lanes := s.smp.lanes } } = s) ∧
       (laneWord s n = true → (lane s n).hold.isSome = true → held (.cellOutl c t pins)) ∧
       (laneWord s n = false → ∃ u, exec (.cellOutl c t pins) s = .next u ∧ rd u 0x0704 = rd s 0x0704 ||| 0x20 ∧
         (cell u c).cur = nextIx e x ∧ u.smp = s.smp ∧ (∀ r, r ≠ 0x0704 → rd u r = rd s r))) ∧
     (ready 19 →
       (io.busy = true → held (.cellSpx c t pins)) ∧
       (io.busy = false → ∃ u, exec (.cellSpx c t pins) s = .next u ∧ (cell u c).cur = nextIx e (stepPtr e x (usesRam e 1 false)) ∧
         (mode = 0 → u.hdg.ports = s.hdg.ports ∧ u.regs = s.regs) ∧
         (mode = 3 → a.getLsbD 23 = true → a.getLsbD 22 = true → u.hdg.ports = s.hdg.ports ∧ rd u 0x0704 = rd s 0x0704 ||| 0x10) ∧
         (mode ≠ 0 → mode ≠ 3 ∨ a.getLsbD 23 = false ∨ a.getLsbD 22 = false →
           port u p = { io with busy := true, tx := a } ∧ (∀ m, m ≠ p → port u m = port s m) ∧ u.regs = s.regs))) ∧
     (ready 20 → ∃ u, exec (.cellSpr c t pins) s = .next u ∧
       (∀ v, (mode ≠ 1 → v = io.rx) →
         (mode = 1 → v = BitVec.ofNat 24 (io.rx.toNat % 256 + io.valid.toNat * 256 + io.ferr.toNat * 512 + io.orun.toNat * 1024)) →
         (cell u c).cur = nextIx e (stepPtr e (putDst e x v) (usesRam e 0 true))) ∧
       port u p = (if mode = 1 then { io with valid := false, orun := false } else io) ∧ u.regs = s.regs) ∧
     (ready 21 →
       let w := rd s 0x0724
       let i := a.toNat % 16384
       let at_ := 4096 * fld w 0 8 + 4 * i
       let inside := bit w 31 = true ∧ 4 * i < 4096 * (fld w 8 4 + 1) ∧ s.boot.op = none
       ∃ u, exec (.cellFlr c t pins) s = .next u ∧
         (inside → (cell u c).cur = nextIx e (stepPtr e (putDst e x (BitVec.ofNat 24 (leNat (flashBytes s at_ 4)))) (usesRam e 1 true)) ∧
           u.regs = s.regs) ∧
         (bit w 31 = false ∨ 4096 * (fld w 8 4 + 1) ≤ 4 * i →
           (cell u c).cur = nextIx e (stepPtr e (putDst e x 0) (usesRam e 1 true)) ∧ rd u 0x0704 = rd s 0x0704 ||| 0x40)) ∧
     (∀ (m : Fin 4) (rx : BitVec 24) (ack : Bool),
       let q := port s m
       let md := fld (rd s (0x0730 + 8 * m.val)) 0 2
       let len := fld (rd s (0x0730 + 8 * m.val)) 12 5
       (q.busy = true → ∃ u, exec (.serialTransferDone m rx ack) s = .next u ∧ (port u m).busy = false ∧
         (md = 2 → (port u m).rx.toNat = rx.toNat % 2 ^ (len + 1)) ∧
         (md = 3 → (port u m).rx.toNat = rx.toNat % 256 + 256 * ack.toNat) ∧
         (∀ j, j ≠ m.val → port u j = port s j) ∧ { u with hdg := { u.hdg with ports := s.hdg.ports } } = s) ∧
       (q.busy = false → exec (.serialTransferDone m rx ack) s = .next s) ∧
       ∀ (b : Byte) (bad : Bool),
         (md = 1 → s.pwr.st ≠ 2 → ∃ u, exec (.uartReceive m b bad) s = .next u ∧ (port u m).rx.toNat = b.toNat % 2 ^ (len + 1) ∧
           (port u m).valid = true ∧ (port u m).ferr = bad ∧ (port u m).orun = (q.orun || q.valid) ∧ (port u m).busy = q.busy ∧
           (∀ j, j ≠ m.val → port u j = port s j) ∧ { u with hdg := { u.hdg with ports := s.hdg.ports } } = s) ∧
         (md ≠ 1 → exec (.uartReceive m b bad) s = .next s))) ∧
  (∀ (s : State) (n : Fin 16) (f : Frame) (r : Word) (b : Bool), twf 0 s.regs = true → twf 0 s.smp.recs = true → twf 0 s.smp.stamps = true →
     let l := lane s n
     let g := laneFill s f.half n
     let key := (if f.half then 65536 else 0) + 64 * g.base + g.fill
     let blk := (if f.half then 1024 else 0) + g.base + g.fill / 64
     let waits := (l.hold = some r ∧ laneWord s n = true) ∨ (l.hold = none ∧ laneBits s n = true ∧ ∃ rest, l.buf = r :: rest)
     (waits → ingesting s = some f → g.fill < 64 * g.size →
       ∃ t, exec (.ingestRecordWrite n) s = .next t ∧ tget 0 t.smp.recs key = r ∧ (∀ j, j ≠ key → tget 0 t.smp.recs j = tget 0 s.smp.recs j) ∧
         (laneFill t f.half n).fill = g.fill + 1 ∧ (lane t n).hold = none ∧
         (∀ m, m ≠ n.val → lane t m = lane s m ∧ (m < 16 → laneFill t f.half m = laneFill s f.half m)) ∧
         (g.fill % 64 = 0 → let st := tget 0 t.smp.stamps blk
           st.getLsbD 63 = true ∧ st.setWidth 32 = angWord s ∧ bits st.toNat 32 16 = s.ang.count48.toNat % 65536 ∧
           st.getLsbD 48 = decide (s.ang.st = .coasting) ∧ st.getLsbD 49 = s.ang.revHold) ∧
         (∀ j, j ≠ blk ∨ g.fill % 64 ≠ 0 → tget 0 t.smp.stamps j = tget 0 s.smp.stamps j) ∧
         { t with smp := s.smp } = s) ∧
     (waits → ingesting s = some f → 64 * g.size ≤ g.fill →
       ∃ t, exec (.ingestRecordWrite n) s = .next t ∧ t.smp.recs = s.smp.recs ∧ bit (rd t 0x0904) n = true ∧ bit (rd t 0x0308) 3 = true ∧
         (∀ h ∈ t.frm.frames, h.count = f.count → h.overflow = true) ∧ (lane t n).hold = none) ∧
     (waits → ingesting s = none →
       ∃ t, exec (.ingestRecordWrite n) s = .next t ∧ t.smp.recs = s.smp.recs ∧ rd t 0x0900 = rd s 0x0900 ||| 2 ∧ (lane t n).hold = none ∧
         t.frm = s.frm) ∧
     (l.hold = some r → laneWord s n = false → ∃ t, exec (.ingestRecordWrite n) s = .next t ∧ t.smp.recs = s.smp.recs ∧
       rd t 0x0704 = rd s 0x0704 ||| 0x20 ∧ (lane t n).hold = none) ∧
     (l.hold = none → l.buf = [] → exec (.ingestRecordWrite n) s = .next s) ∧
     (laneBits s n = true → s.pwr.st ≠ 2 → ∃ t, exec (.bitstreamBitSample n b) s = .next t ∧
       (l.part.length < 23 → lane t n = { l with part := l.part ++ [b] }) ∧
       (l.part.length = 23 → (lane t n).part = [] ∧ ∃ w, (lane t n).buf = l.buf ++ [w] ∧ w.getLsbD 23 = b ∧
         (∀ j < 23, w.getLsbD j = l.part.getD j false) ∧ bits w.toNat 24 8 = 23 + 128) ∧
       (∀ m, m ≠ n.val → lane t m = lane s m) ∧ { t with smp := { t.smp with lanes := s.smp.lanes } } = s) ∧
     (laneBits s n = false → exec (.bitstreamBitSample n b) s = .next s))

/-- The verification of a fabric load and of a Topiary load (R141, R147, R148, R280 to R284): an image that fails leaves what is in force as
it is, and its command is answered with the status and DETAIL of the first check that fails; an image that passes is armed, and its
change waits for the boundary. -/
def Obligations.ImageLoadsAreVerified : Prop :=
  ∀ (s : State), twf 0 s.regs = true → twf 0 s.hdg.cfg = true → Memory.wf 0 s.cnd.mem = true →
    (s.hdg.load = .loading → s.hdg.loadImg ≠ [] →
      let im := s.hdg.loadImg
      let len := if s.hdg.loadSrc = 0 then none else some 65536
      (∀ st d, fabricFail s im len = some (st, d) → ∃ t, exec .fabricLoadComplete s = .next t ∧ t.hdg.load = .idle ∧
        t.hdg.inactive = .empty ∧ t.hdg.bank = s.hdg.bank ∧ t.hdg.cfg = s.hdg.cfg ∧ t.hdg.cells = s.hdg.cells ∧
        t.prt.changes = s.prt.changes ∧ (st = 0x11 → bit (rd t 0x0E00) 0 = true) ∧ (st ≠ 0x11 → t.regs = s.regs) ∧
        ∀ o, fabricOrder s = some o → canPost s o → Replied s t o (st % 256) d []) ∧
      (fabricFail s im len = none → ∃ t, exec .fabricLoadComplete s = .next t ∧ t.hdg.load = .armed ∧ t.hdg.inactive = .image ∧
        t.hdg.armSrc = s.hdg.loadSrc ∧ t.hdg.armCrc = BitVec.ofNat 32 (entryNat im 0x20 4) ∧ t.hdg.bank = s.hdg.bank ∧
        t.hdg.cells = s.hdg.cells ∧
        (∀ a < 96, ∀ w < 64,
          tget 0 t.hdg.cfg (cfgKey (!s.hdg.bank) a w) = loadWord ((im.drop 96).take (entryNat im 0x18 4)) (entryNat im 0x1C 2) a w ∧
          tget 0 t.hdg.cfg (cfgKey s.hdg.bank a w) = tget 0 s.hdg.cfg (cfgKey s.hdg.bank a w)) ∧
        (∀ o, fabricOrder s = some o → ∃ c ∈ t.prt.changes, c.kind = .swap ∧ c.stamp = o.stamp ∧ c.ord = some o) ∧
        { t with hdg := s.hdg, prt := s.prt } = s)) ∧
    (s.hdg.load ≠ .loading → exec .fabricLoadComplete s = .next s) ∧
    (∀ (o : Order) (q : Nat) (rest : List (Order × Nat)), topLoads s = (o, q) :: rest →
      let im := tget [] s.arr.topVer q
      (∀ st d, topFail s q im = some (st, d) → ∃ t, exec .topiaryVerifyComplete s = .next t ∧ t.arr.top = s.arr.top ∧
        t.arr.topArm = s.arr.topArm ∧ t.arr.topVer = tdel s.arr.topVer q ∧ (st = 0x11 → bit (rd t 0x0E00) 0 = true) ∧
        (st ≠ 0x11 → t.regs = s.regs) ∧ (canPost s o → Replied s t o (st % 256) d [])) ∧
      (topFail s q im = none → ∃ t, exec .topiaryVerifyComplete s = .next t ∧ t.arr.top = s.arr.top ∧
        tfind t.arr.topArm q = some (readTop im) ∧
        (∃ c ∈ t.prt.changes, c.kind = .topSwitch q ∧ c.stamp = o.stamp ∧ c.ord = some o) ∧
        { t with arr := s.arr, prt := s.prt } = s)) ∧
    (topLoads s = [] → exec .topiaryVerifyComplete s = .next s)

/-- Capture, the bank supplies, the hold after a swap and the crystal (R135, R136, R143, R149 to R152, R681): an arm takes the settings
unless a capture is armed or full; a triggered capture records the header and every cell in the layout of R152; a falling supply puts
its bank's outputs at high impedance and its inputs at 0 at once. -/
def Obligations.CaptureAndBankSupplies : Prop :=
  ∀ (s : State), twf 0 s.regs = true → twf 0 s.hdg.capRam = true →
    (∀ v : Word, v &&& 0xFFFF00C0 = 0 →
      (s.hdg.capArmed = false → s.hdg.capFull = false → ∃ t, exec (.hdgCapArm v) s = .next t ∧ t.hdg.capArmed = true ∧
        rd t 0x0750 = v ∧ t.hdg.capTrig = !bit v 0 ∧ (∀ r, r ≠ 0x0750 → rd t r = rd s r) ∧
        { t with regs := s.regs, hdg := { t.hdg with capArmed := s.hdg.capArmed, capTrig := s.hdg.capTrig } } = s) ∧
      (s.hdg.capArmed = true ∨ s.hdg.capFull = true → exec (.hdgCapArm v) s = .next s) ∧
      ∃ t, exec (.hdgCapDiscard v) s = .next t ∧ t.hdg.capFull = false ∧ t.hdg.capArmed = s.hdg.capArmed ∧ rd t 0x0750 = v ∧
        (∀ r, r ≠ 0x0750 → rd t r = rd s r) ∧
        { t with regs := s.regs, hdg := { t.hdg with capFull := s.hdg.capFull, capDue := s.hdg.capDue } } = s) ∧
    (s.hdg.capArmed = true → s.hdg.capTrig = true → ∃ t, exec .captureRecord s = .next t ∧ t.hdg.capArmed = false ∧
      t.hdg.capFull = true ∧ tget 0 t.hdg.capRam 0 = angWord s ∧
      tget 0 t.hdg.capRam 1 = BitVec.ofNat 32 s.ang.count48.toNat ∧
      tget 0 t.hdg.capRam 2 = rd s 0x0750 >>> 4 &&& 3 ||| rd s 0x0750 &&& 0xFF00 ||| (rd s 0x0750 &&& 1) <<< 16 ∧
      tget 0 t.hdg.capRam 3 = 0 ∧
      (∀ c < 64, capDomain s c ≠ 2 →
        let x := (cell s c).cur
        let at_ := 4 + 36 * c
        let w := tget 0 t.hdg.capRam (at_ + 3)
        tget 0 t.hdg.capRam at_ = x.acc.setWidth 32 ∧ tget 0 t.hdg.capRam (at_ + 1) = x.opb.setWidth 32 ∧
        tget 0 t.hdg.capRam (at_ + 2) = x.out.setWidth 32 ∧ fld w 0 3 = x.ix.toNat ∧ bit w 3 = x.cy ∧ bit w 4 = x.q ∧
        fld w 5 5 = x.ptr.toNat ∧ bit w 10 = x.slat ∧ fld w 11 8 = x.tl.toNat ∧ fld w 19 2 = capDomain s c ∧
        bit w 21 = (cell s c).holding ∧ ∀ i < 32, tget 0 t.hdg.capRam (at_ + 4 + i) = (tget 0 x.ram i).setWidth 32) ∧
      t.hdg.cells = s.hdg.cells ∧ { t with hdg := s.hdg, free := s.free } = s) ∧
    (s.hdg.capArmed = false ∨ s.hdg.capTrig = false → exec .captureRecord s = .next s) ∧
    (∀ b : Fin 2,
      (∃ t, exec (.bankSupplyFall b) s = .next t ∧ bankOn t b = false ∧ t.pwr.supplies.getLsbD (4 + b.val) = false ∧
        (∀ e pins p, p < 40 → p / 20 = b.val → fioOut t e pins p = .hiZ ∧ fioIn t pins p = false) ∧
        (s.pwr.st = 2 → t.regs = s.regs) ∧ (s.pwr.st ≠ 2 → rd t 0x0704 = rd s 0x0704 ||| BitVec.ofNat 32 (2 ^ (2 + b.val))) ∧
        (∀ r, r ≠ 0x0704 → rd t r = rd s r) ∧
        { t with regs := s.regs, hdg := { t.hdg with bankOn := s.hdg.bankOn, bankEn := s.hdg.bankEn },
                 pwr := { t.pwr with supplies := s.pwr.supplies } } = s) ∧
      (∃ t, exec (.bankSupplyRise b) s = .next t ∧ bankOn t b = true ∧ t.pwr.supplies.getLsbD (4 + b.val) = true ∧
        (∀ e pins p, p < 40 → p / 20 = b.val → fioOut t e pins p = .hiZ) ∧
        { t with hdg := { t.hdg with bankOn := s.hdg.bankOn, bankEn := s.hdg.bankEn },
                 pwr := { t.pwr with supplies := s.pwr.supplies } } = s) ∧
      (bankOn s b = true → ∃ t, exec (.bankOutputEnable b) s = .next t ∧ tget false t.hdg.bankEn b = true ∧
        { t with hdg := { t.hdg with bankEn := s.hdg.bankEn } } = s) ∧
      (bankOn s b = false → exec (.bankOutputEnable b) s = .next s)) ∧
    exec .swapHoldEnd s = .next { s with hdg := { s.hdg with swapHold := false } } ∧
    exec .x32CrystalStart s = .next { s with hdg := { s.hdg with x32Ok := true } }

/-- The scrubber's passes and controls (R175, R177, R178, R181 to R184, R192, R193): a pass starts with the refresh of the controls; one
that is due while another runs waits and sets PASSLATE; a disagreeing working copy is rewritten and recorded; a checked frame's single-
bit error is corrected and counted; a finished pass is counted, and so is a sweep of conductor SRAM. -/
def Obligations.ScrubberPassesAndControls : Prop :=
  ∀ (s : State), twf 0 s.regs = true →
    let g := s.scb.golden
    let bump := fun (t : State) (a : Nat) => rd t a = rd s a + 1 ∧ (∀ r, r ≠ a → rd t r = rd s r)
    (passesRun s = true →
      (s.scb.pass.isSome = true → ∃ t, exec .scrubPassStart s = .next t ∧ t.scb = { s.scb with late := true } ∧
        rd t 0x0808 = rd s 0x0808 ||| 0x40 ∧ (∀ r, r ≠ 0x0808 → rd t r = rd s r) ∧ { t with scb := s.scb, regs := s.regs } = s) ∧
      (s.scb.pass = none → s.scb.goldenErr = 0 →
        (s.scb.copies = [g, g, g] → ∃ p, exec .scrubPassStart s = .next { s with scb := { s.scb with pass := some p, late := false } } ∧
          (g.region ≠ 1 → p = { next := 0, last := 192 }) ∧
          (g.region = 1 → p = if s.hdg.bank then { next := 96, last := 192 } else { next := 0, last := 96 })) ∧
        (∀ x, x ≠ g → s.scb.copies = [x, g, g] → ∃ t, exec .scrubPassStart s = .next t ∧ t.scb.copies = [g, g, g] ∧
          t.scb.golden = g ∧ t.scb.safe = s.scb.safe ∧ t.scb.pass.isSome = true ∧ rd t 0x082C = 1 ∧
          bit (rd t 0x0E00) 8 = true))) ∧
    (passesRun s = false → exec .scrubPassStart s = .next s ∧
      (s.pwr.st ≠ 2 → s.scb.copies = [g, g, g] → s.scb.goldenErr = 0 → exec .scrubIdleRefresh s = .next s) ∧
      (s.pwr.st ≠ 2 → ∀ x y z, s.scb.copies = [x, y, z] → x.en = y.en → x.en = z.en → x.region = y.region → x.region = z.region →
        x.src = y.src → x.src = z.src → x.period ≠ y.period → x.period ≠ z.period → y.period ≠ z.period → s.scb.goldenErr = 0 →
        ∃ t, exec .scrubIdleRefresh s = .next t ∧ t.scb.golden = { g with period := 8 } ∧
          t.scb.copies = [{ g with period := 8 }, { g with period := 8 }, { g with period := 8 }] ∧ t.scb.safe = true ∧
          bit (rd t 0x0E00) 9 = true ∧ bit (rd t 0x082C) 5 = true)) ∧
    (∀ (p : Pass) (w0 : Fin 64), s.scb.pass = some p → p.next < p.last → s.pwr.st ≠ 2 → p.next < 192 →
      let bank := decide (96 ≤ p.next)
      let f := p.next % 96
      let k := cfgKey bank f w0.val
      (bank = s.hdg.bank ∨ s.hdg.load ≠ .loading) → (bankImage s bank = true → frameGood s bank f = true) →
      (∀ w < 64, w ≠ w0.val → tget 0 s.hdg.cfgErr (cfgKey bank f w) = 0) → twf 0 s.hdg.cfgErr = true →
      (tget 0 s.hdg.cfgErr k = 0 → ∃ t, exec .scrubFrameCheck s = .next t ∧ t.scb.pass = some { p with next := p.next + 1 } ∧
        { t with scb := s.scb } = s) ∧
      (ones (tget 0 s.hdg.cfgErr k) = 1 → tget false s.hdg.stuck k = false → twf 0 s.hdg.cfg = true →
        ∃ t, exec .scrubFrameCheck s = .next t ∧ tget 0 t.hdg.cfgErr k = 0 ∧
        (∀ j, tget 0 t.hdg.cfg j = tget 0 s.hdg.cfg j) ∧ rd t 0x0808 = rd s 0x0808 ||| 1 ∧
        rd t 0x0810 = (if rd s 0x0810 = 0xFFFFFFFF then 0xFFFFFFFF else rd s 0x0810 + 1) ∧
        t.scb.pass = some { p with next := p.next + 1 } ∧ (∀ r, r ≠ 0x0808 → r ≠ 0x0810 → rd t r = rd s r))) ∧
    (∀ p : Pass, s.scb.pass = some p → p.last ≤ p.next → ∃ t, exec .scrubPassEnd s = .next t ∧ t.scb.pass = none ∧ bump t 0x080C ∧
      { t with scb := { t.scb with pass := s.scb.pass }, regs := s.regs } = s) ∧
    (s.scb.pass = none → exec .scrubPassEnd s = .next s ∧ exec .scrubFrameCheck s = .next s) ∧
    (s.cnd.memErr = [] → ∃ t, exec .memorySweep s = .next t ∧ bump t 0x0834 ∧ { t with regs := s.regs } = s) ∧
    (∀ k n, n < 32 → s.cnd.memErr = [(k, 2 ^ n)] → fld (rd s 0x0830) 0 16 < 65535 →
      ∃ t, exec .memorySweep s = .next t ∧ t.cnd.memErr = [] ∧ t.cnd.mem = s.cnd.mem ∧ rd t 0x0834 = rd s 0x0834 + 1 ∧
        rd t 0x0830 = rd s 0x0830 + 1)

/-- Upsets, gating and repair (R167 to R174, R180, R192): an upset changes only the stored bits it strikes, and one flipped bit of a
configuration word changes nothing that the fabric sees; an uncorrectable word of the active bank gates its unit, is recorded, makes the
open frame suspect and its slots FRAME_FAULT 11; a repair rewrites the frame from its flash slot. -/
def Obligations.UpsetsGateAndRepair : Prop :=
  ∀ (s : State), twf 0 s.regs = true → twf 0 s.hdg.cfgErr = true →
    (∀ u, ∃ t, exec (.upset u) s = .next t ∧
      { t with hdg := { t.hdg with cfgErr := s.hdg.cfgErr, stuck := s.hdg.stuck },
               scb := { t.scb with copies := s.scb.copies, goldenErr := s.scb.goldenErr },
               cnd := { t.cnd with memErr := s.cnd.memErr },
               arr := { t.arr with topErr := s.arr.topErr, planes := s.arr.planes, perr := s.arr.perr },
               smp := { t.smp with recErr := s.smp.recErr, stampErr := s.smp.stampErr } } = s) ∧
    (∀ bank f w (flips : BitVec 72) hard, ∃ t, exec (.upset (.config bank f w flips hard)) s = .next t ∧
      tget 0 t.hdg.cfgErr (cfgKey bank f.val w.val) = tget 0 s.hdg.cfgErr (cfgKey bank f.val w.val) ^^^ flips ∧
      t.hdg.cfg = s.hdg.cfg ∧
      (tget 0 s.hdg.cfgErr (cfgKey bank f.val w.val) = 0 → ones flips = 1 → cfgWord t bank f.val w.val = cfgWord s bank f.val w.val)) ∧
    (∀ (f : Fin 96) (w : Fin 64) (fr : Frame) (rest : List Frame),
      flipClass (tget 0 s.hdg.cfgErr (cfgKey s.hdg.bank f.val w.val)) = 2 → f.val ≤ 65 → gated s f.val = false →
      bit (rd s 0x0E00) 7 = false → s.ang.frameOpen = true → s.frm.comp = none → s.frm.frames = fr :: rest →
      fr.st = .ingesting → fr.count = s.ang.count48 → (∀ g ∈ rest, g.count.toNat < fr.count.toNat) →
      (∀ y ∈ fr.slots, y.outcome = none ∧ y.posted = false) →
      ∃ t, exec (.correctorUe s.hdg.bank f w) s = .next t ∧ gated t f.val = true ∧ bit (rd t 0x0808) 1 = true ∧
        rd t 0x0814 = BitVec.ofNat 32 (w.val + 64 * f.val + if s.hdg.bank then 8192 else 0) ∧ t.scb.suspAt = s.ang.count48 ∧
        t.scb.suspect.isSome = true ∧ bit (rd t 0x0E00) 7 = true ∧
        (∀ g ∈ t.frm.frames, g.count = fr.count → g.suspect = true ∧ ∀ y ∈ g.slots, y.outcome = some (0x21, 11)) ∧
        (repairWords s f.val = none → passesRun s = true → bit (rd t 0x0808) 3 = true) ∧
        ((repairWords s f.val).isSome = true → passesRun s = true → f.val ∈ t.scb.repairing)) ∧
    (∀ bank f w, flipClass (tget 0 s.hdg.cfgErr (cfgKey bank f.val w.val)) ≠ 2 → exec (.correctorUe bank f w) s = .next s) ∧
    (∀ (f : Fin 96) (ws : List DWord), s.scb.repairing.contains f.val = true → s.boot.op = none → repairWords s f.val = some ws →
      ws.length = 64 → twf 0 s.hdg.cfg = true → ∃ t, exec (.flashRepairDone f) s = .next t ∧ rd t 0x0808 = rd s 0x0808 ||| 0x80 ∧
        (∀ i < 64, tget 0 t.hdg.cfg (cfgKey s.hdg.bank f.val i) = ws.getD i 0 ∧ tget 0 t.hdg.cfgErr (cfgKey s.hdg.bank f.val i) = 0) ∧
        f.val ∉ t.scb.repairing ∧ (f.val ≤ 65 → tget false t.scb.repaired f.val = true) ∧ gated t f.val = gated s f.val ∧
        (∀ r, r ≠ 0x0808 → rd t r = rd s r)) ∧
    (∀ f : Fin 96, s.scb.repairing.contains f.val = false → exec (.flashRepairDone f) s = .next s)

/-- The registers of a pair (R81, R115, R195, R287, R288, R380, R580, R599): a read of the first copies the high part into the second, and
changes nothing else; a partition that may not see a record latches nothing. The ring pointers and the event window (R16, R76, R77,
R391, R392, R394, R717): a TAIL write submits its entries, each with the next stamp; a HEAD write frees entries; one that passes the
ring is refused with a flag; a write of an event entry is held for the next boundary under its stamp, and a MODK of 7 keeps the field
and sets RESERVED_FIELD. -/
def Obligations.RegisterPairsAndRingPointers : Prop :=
  (∀ (s : State) (p : Fin 4), twf 0 s.regs = true →
     let latches := fun (i : Instr) (a : Nat) (v : Word) => ∃ t, exec i s = .next t ∧ rd t a = v ∧ (∀ r, r ≠ a → rd t r = rd s r) ∧
       { t with regs := s.regs } = s
     let hi := fun (v : Nat) => BitVec.ofNat 32 (v / 2 ^ 32)
     let part := fun (i : Instr) (a lo : Nat) (v : Nat) =>
       (p.val = 0 ∨ p.val = bits v lo 2 → latches i (a + 4) (hi v)) ∧
       (p.val ≠ 0 → p.val ≠ bits v lo 2 → exec i s = .next s)
     (∃ t, exec .angWordRead s = .next t ∧ rd t 0x0210 = BitVec.ofNat 32 s.ang.count48.toNat ∧ rd t 0x0214 = hi s.ang.count48.toNat ∧
       (∀ r, r ≠ 0x0210 → r ≠ 0x0214 → rd t r = rd s r) ∧ { t with regs := s.regs } = s) ∧
     latches .frmCntLoRead 0x0310 (hi s.ang.count48.toNat) ∧ latches .scbSuspLoRead 0x0824 (hi s.scb.suspAt.toNat) ∧
     latches .grpCkfrmLoRead 0x0C18 (hi (ckptSlot s s.grp.lastSlot).count.toNat) ∧
     latches .trcTimeLoRead 0x0D24 (hi (s.now / 4 % 2 ^ 46)) ∧
     part (.msqTrapinfoRead p) 0x0508 36 (rd64 s 0x0508) ∧ part (.msqFaultinfoRead p) 0x0510 4 (rd64 s 0x0510) ∧
     part (.cndHtrapRead p) 0x0640 45 (rd64 s 0x0640)) ∧
  (∀ (s : State) (p : Fin 4) (v : Word), twf 0 s.regs = true → twf 0 s.staged = true →
     let tail := tget 0 s.prt.sqTail p
     let n := (v.toNat % 65536 + 65536 - tail) % 65536
     (partOn s p = true → 1 ≤ n → n + sqCount s p ≤ sqDepth s p →
       ∃ t, exec (.sqTailWrite p v) s = .next t ∧ tget 0 t.prt.sqTail p = v.toNat % 65536 ∧ t.prt.stamp = (s.prt.stamp + n) % 2 ^ 32 ∧
         (∃ l, t.prt.subs = s.prt.subs ++ l ∧ l.length = n ∧ ∀ i, ∀ x, l[i]? = some x →
           x.part = p.val ∧ x.mbx = false ∧ x.idx = (tail + i) % 65536 ∧ x.stamp = (s.prt.stamp + i) % 2 ^ 32) ∧
         t.cnd.ipend.getLsbD 4 = true ∧ t.regs = s.regs ∧ { t with prt := s.prt, cnd := s.cnd, trc := s.trc } = s) ∧
     (partOn s p = false ∨ n = 0 ∨ sqDepth s p < n + sqCount s p →
       exec (.sqTailWrite p v) s = .next (setFlag s 0x0A04 (4 + p.val))) ∧
     (let m := (v.toNat % 65536 + 65536 - tget 0 s.prt.rqHead p) % 65536
      (m ≤ rqCount s p → ∃ t, exec (.rqHeadWrite p v) s = .next t ∧ tget 0 t.prt.rqHead p = v.toNat % 65536 ∧
        { t with prt := { t.prt with rqHead := s.prt.rqHead } } = s) ∧
      (rqCount s p < m → exec (.rqHeadWrite p v) s = .next (setFlag s 0x0A04 (8 + p.val)))) ∧
     (∀ mbx : Bool, s.prt.changes = [] →
       let k := fld (rd s 0x0260) 0 6
       let held := fun (t : State) (a : Nat) (w : Word) =>
         rdStaged t a = w ∧ (∀ r, r ≠ a → rdStaged t r = rdStaged s r) ∧
         t.prt.changes = [{ unit := .event k, mbx := mbx, stamp := s.prt.stamp, kind := .writes [(a, w)], ord := none }]
       (v &&& 0x60000000 = 0 → fld v 26 3 < 7 → fld v 20 6 < 2 ^ fld v 26 3 → ∃ t, exec (.eventEntryWrite mbx false v) s = .next t ∧
         held t (0x10000 + 8 * k) v ∧ t.regs = s.regs ∧ { t with staged := s.staged, prt := s.prt } = s) ∧
       (v &&& 0xFF000000 = 0 → ∃ t, exec (.eventEntryWrite mbx true v) s = .next t ∧ held t (0x10000 + 8 * k + 4) v ∧
         t.regs = s.regs ∧ { t with staged := s.staged, prt := s.prt } = s) ∧
       (v &&& 0x60000000 = 0 → fld v 26 3 = 7 → ∃ t, exec (.eventEntryWrite mbx false v) s = .next t ∧ bit (rd t 0x0E00) 0 = true ∧
         fld (rdStaged t (0x10000 + 8 * k)) 26 3 = fld (rdStaged s (0x10000 + 8 * k)) 26 3 ∧
         fld (rdStaged t (0x10000 + 8 * k)) 0 20 = fld v 0 20)))

/-- Every packet that the link does not accept leaves NEXT and its target as they are (R417, R418, R421, R424, R425, R438): a port that is
off ignores it, a malformed or truncated one sets its flag, and the others are answered with NAK_CRC, NAK_BUSY, NAK_SEQ, DUP or ERR.
Transactions without a packet, the release of a receive buffer and the change of mode (R414, R415, R417, R418, R423, R427): a link reset
clears QUAD and keeps NEXT. -/
def Obligations.LinkPacketsAreJudged : Prop :=
  (∀ (s : State) (h : LinkHdr) (data : List Byte) (crc : Word), twf 0 s.regs = true →
     ∀ (typ : Nat) (read : Bool) (i : Instr),
       (typ, read, i) ∈ [(1, false, .ringWrite h data crc), (2, true, .ringRead h crc), (3, false, .linkRegWrite h data crc),
         (4, true, .linkRegRead h crc), (5, false, .msgWrite h data crc), (6, true, .msgRead h crc)] →
       let body := if read then [] else data
       let d := (s.lnk.next - h.seq).toNat
       let answers := fun (u : State) (res errc : Nat) => ∃ t, exec i s = .next t ∧ LinkAnswer u t res errc ∧ t.lnk.resp = []
       (portOn s = false → exec i s = .next s) ∧
       (portOn s = true → 4096 < h.len.toNat → ∃ t, exec i s = .next t ∧ rd t 0x0B08 = rd s 0x0B08 ||| 0x40 ∧
         (∀ r, r ≠ 0x0B08 → rd t r = rd s r) ∧ { t with regs := s.regs } = s) ∧
       (portOn s = true → h.len.toNat ≤ 4096 → read = false → data.length < h.len.toNat → ∃ t, exec i s = .next t ∧
         rd t 0x0B08 = rd s 0x0B08 ||| 8 ∧ (∀ r, r ≠ 0x0B08 → rd t r = rd s r) ∧ { t with regs := s.regs } = s) ∧
       (portOn s = true → s.boot.ready = false → h.len.toNat ≤ 4096 → (read = false → data.length = h.len.toNat) → answers s 3 0) ∧
       (portOn s = true → s.boot.ready = true → h.len.toNat ≤ 4096 → (read = false → data.length = h.len.toNat) →
         crc ≠ crc32 (hdrBytes typ h ++ body) → answers s 1 0) ∧
       (arrives s typ h read body crc →
         (d = 0 → s.lnk.used = 2 ∨ read = true ∧ s.lnk.used ≠ 0 → answers s 3 0) ∧
         (1 ≤ d → d ≤ 8 → read = false → answers s 6 0) ∧
         (8 < d → answers s 2 0) ∧
         (d = 0 → s.lnk.used < 2 → (read = true → s.lnk.used = 0) → ¬cleanHdr typ h →
           ∃ o, o ∈ [2, 3, 4, 10] ∧ answers (tookPacket (reservedField s o 3) false) 4 1))) ∧
  (∀ (s : State), twf 0 s.regs = true →
     (portOn s = true →
       (∃ t, exec .status s = .next t ∧ LinkAnswer s t 5 0 ∧ t.lnk.next = s.lnk.next ∧ t.lnk.resp = []) ∧
       (∃ t, exec .linkReset s = .next t ∧ t.lnk = { s.lnk with quad := false } ∧ rd t 0x0B00 = rd s 0x0B00 &&& ~~~1 ∧
         rd t 0x0B08 = rd s 0x0B08 ||| 0x20 ∧ (∀ r, r ≠ 0x0B00 → r ≠ 0x0B08 → rd t r = rd s r) ∧
         { t with lnk := s.lnk, regs := s.regs } = s) ∧
       (∃ t, exec .badTypeTransaction s = .next t ∧ rd t 0x0B08 = rd s 0x0B08 ||| 0x40 ∧ (∀ r, r ≠ 0x0B08 → rd t r = rd s r) ∧
         { t with regs := s.regs } = s) ∧
       (∃ t, exec .transactionTruncated s = .next t ∧ rd t 0x0B08 = rd s 0x0B08 ||| 8 ∧ (∀ r, r ≠ 0x0B08 → rd t r = rd s r) ∧
         { t with regs := s.regs } = s) ∧
       exec .quadModeSwitch s = .next { s with lnk := { s.lnk with quad := bit (rd s 0x0B00) 0 } }) ∧
     (portOn s = false → ∀ i ∈ ([.status, .linkReset, .badTypeTransaction, .transactionTruncated, .quadModeSwitch] : List Instr),
       exec i s = .next s) ∧
     exec .writeCommitDone s = .next { s with lnk := { s.lnk with used := s.lnk.used - 1 } })

/-- The effect of accepted packets (R430 to R435, R466 to R469): submission entries written, ring bytes and registers read, pointers and the
port's own flags written, message bytes taken and read, each with its errors; a read that was accepted before is executed again. -/
def Obligations.AcceptedPacketsTakeEffect : Prop :=
  ∀ (s : State) (h : LinkHdr) (data : List Byte) (crc : Word), twf 0 s.regs = true → Memory.wf 0 s.cnd.mem = true →
    let a := h.addr.toNat
    let n := h.len.toNat
    let p := (a - 0x20000000) / 0x8000
    let e := (a - 0x20000000) % 0x8000 / 64
    let inRing := 0x20000000 ≤ a ∧ a < 0x20020000
    let errs := fun (i : Instr) (code : Nat) => ∃ t, exec i s = .next t ∧ LinkAnswer (tookPacket s false) t 4 code ∧ t.lnk.resp = []
    let off := fld h.addr 0 21
    let owned := fun k => ∃ j < sqCount s p, (tget 0 s.prt.sqHead p + j) % sqDepth s p = e + k
    (accepted s 1 h false data crc →
      (a % 64 ≠ 0 ∨ n % 64 ≠ 0 ∨ n = 0 → errs (.ringWrite h data crc) 2) ∧
      (a % 64 = 0 → n % 64 = 0 → n ≠ 0 → ¬inRing ∨ sqDepth s p < e + n / 64 → errs (.ringWrite h data crc) 3) ∧
      (a % 64 = 0 → n % 64 = 0 → n ≠ 0 → inRing → e + n / 64 ≤ sqDepth s p →
        ((∃ k < n / 64, owned k) → errs (.ringWrite h data crc) 4) ∧
        ((∀ k < n / 64, ¬owned k) → ∃ t, exec (.ringWrite h data crc) s = .next t ∧ rdBytes t a n = data ∧
          (∀ m, m < a ∨ a + n ≤ m → rdMem t m = rdMem s m) ∧ t.cnd.ipend = s.cnd.ipend ∧ t.prt = s.prt ∧
          LinkAnswer (tookPacket (fillMem s a data) true) t 0 0))) ∧
    (accepted s 2 h true [] crc →
      (a % 4 ≠ 0 ∨ n % 4 ≠ 0 ∨ n = 0 → errs (.ringRead h crc) 2) ∧
      (a % 4 = 0 → n % 4 = 0 → n ≠ 0 → ¬inRing ∨ 0x4000 < a % 0x4000 + n → errs (.ringRead h crc) 3) ∧
      (a % 4 = 0 → n % 4 = 0 → n ≠ 0 → inRing → a % 0x4000 + n ≤ 0x4000 → ∃ t, exec (.ringRead h crc) s = .next t ∧
        LinkAnswer (tookPacket s false) t 0 0 ∧ responds t (rdBytes s a n))) ∧
    (arrives s 2 h true [] crc → cleanHdr 2 h → 1 ≤ (s.lnk.next - h.seq).toNat → (s.lnk.next - h.seq).toNat ≤ 8 → a % 4 = 0 →
      n % 4 = 0 → n ≠ 0 → inRing → a % 0x4000 + n ≤ 0x4000 → ∃ t, exec (.ringRead h crc) s = .next t ∧ LinkAnswer s t 6 0 ∧
        responds t (rdBytes s a n)) ∧
    (accepted s 3 h false data crc →
      let v := BitVec.ofNat 32 (leNat data)
      let own := a = 0x0A84 + 16 * h.part.toNat ∨ a = 0x0A88 + 16 * h.part.toNat
      let mine := h.part = 0 ∧ (a = 0x0B00 ∨ a = 0x0B08)
      (a % 4 ≠ 0 ∨ n ≠ 4 → errs (.linkRegWrite h data crc) 2) ∧
      (a % 4 = 0 → n = 4 → ¬own → ¬mine → errs (.linkRegWrite h data crc) 5) ∧
      (n = 4 → own ∨ mine → ∃ t, exec (.linkRegWrite h data crc) s = .next t ∧
        LinkAnswer (tookPacket (regWrite s false s.prt.stamp a v) true) t 0 0) ∧
      (n = 4 → h.part = 0 → a = 0x0B08 → v &&& 0xFFFFFF80 = 0 → ∃ t, exec (.linkRegWrite h data crc) s = .next t ∧
        rd t 0x0B08 = rd s 0x0B08 &&& ~~~v) ∧
      (n = 4 → h.part = 0 → a = 0x0B00 → v &&& 0xFFFFFFF8 = 0 → ∃ t, exec (.linkRegWrite h data crc) s = .next t ∧
        rd t 0x0B00 = v ∧ t.lnk.quad = s.lnk.quad)) ∧
    (accepted s 4 h true [] crc →
      let q := h.part.toNat
      (hasRight s q 4 = false → errs (.linkRegRead h crc) 6) ∧
      (hasRight s q 4 = true → a % 4 ≠ 0 ∨ n % 4 ≠ 0 ∨ n = 0 ∨ 256 < n → errs (.linkRegRead h crc) 2) ∧
      (hasRight s q 4 = true → a % 4 = 0 → n % 4 = 0 → n ≠ 0 → n ≤ 256 →
        (0x10000 < a + n → errs (.linkRegRead h crc) 3) ∧
        (a + n ≤ 0x10000 → ∃ t, exec (.linkRegRead h crc) s = .next t ∧
          LinkAnswer (tookPacket (regReads q (n / 4) a s).1 false) t 0 0 ∧ responds t (wordBytes (regReads q (n / 4) a s).2)))) ∧
    (accepted s 5 h false data crc →
      (msgOf s h.addr = none → errs (.msgWrite h data crc) 8) ∧
      (∀ i m, msgOf s h.addr = some (i, m) →
        (m.src = .input →
          (off ≠ m.got → errs (.msgWrite h data crc) 9) ∧
          (off = m.got → m.len < off + n → errs (.msgWrite h data crc) 11) ∧
          (off = m.got → off + n ≤ m.len → n % 4 ≠ 0 ∨ n = 0 → errs (.msgWrite h data crc) 12) ∧
          (off = m.got → off + n < m.len → n % 4 = 0 → n ≠ 0 → m.ord.opcode ≠ 0x0801 → m.ord.opcode ≠ 0x0301 →
            ∃ t, exec (.msgWrite h data crc) s = .next t ∧
              LinkAnswer (tookPacket { s with prt := { s.prt with
                msgs := tput s.prt.msgs i { m with got := m.got + n, data := m.data ++ data, done := false } } } true) t 0 0)) ∧
        (m.src ≠ .input →
          (n ≠ 0 → errs (.msgWrite h data crc) 10) ∧
          (n = 0 → off ≠ m.len → errs (.msgWrite h data crc) 11) ∧
          (n = 0 → off = m.len → m.ord.opcode ≠ 0x0801 → m.ord.opcode ≠ 0x0402 → canPost s m.ord →
            ∃ t, exec (.msgWrite h data crc) s = .next t ∧ Replied s t m.ord 0 0 [] ∧ (∀ x ∈ t.prt.msgs, x.2.ord.stamp ≠ m.ord.stamp) ∧
              t.lnk.next = s.lnk.next + 1 ∧ fld t.lnk.stat 8 3 = 0)))) ∧
    (accepted s 6 h true [] crc →
      (msgOf s h.addr = none → errs (.msgRead h crc) 8) ∧
      (∀ i m, msgOf s h.addr = some (i, m) →
        (m.src = .input → errs (.msgRead h crc) 10) ∧
        (m.src ≠ .input → m.len < off + n → errs (.msgRead h crc) 11) ∧
        (m.src ≠ .input → off + n ≤ m.len → off % 4 ≠ 0 ∨ n % 4 ≠ 0 ∨ n = 0 → errs (.msgRead h crc) 12) ∧
        (m.src ≠ .input → off + n ≤ m.len → off % 4 = 0 → n % 4 = 0 → n ≠ 0 → msgData s m off n ≠ [] → ∃ t, exec (.msgRead h crc) s = .next t ∧
          LinkAnswer (tookPacket s false) t 0 0 ∧ responds t (msgData s m off n) ∧
          (∀ b, m.src = .area b → msgData s m off n = rdBytes s (b + off) n))))

/-- The I2C management port (R439 to R446, R640): a write transfer is applied as a whole or not at all, GO submits the mailbox's command
with the next stamp, RELEASE frees the mailbox, a new PEC setting is in force from the next START, a read returns the bytes of its
region. -/
def Obligations.MailboxTransfers : Prop :=
  ∀ (s : State), twf 0 s.regs = true →
    let on := s.boot.ports && !s.boot.inReset
    let dev := 2 * (0x38 + s.boot.straps.toNat % 4)
    let started := { s with lnk := { s.lnk with pecOn := s.lnk.pecWr } }
    let pecGood := fun (off : Nat) (data : List Byte) (pec : Byte) =>
      s.lnk.pecWr = true → pec = crc8 (BitVec.ofNat 8 dev :: BitVec.ofNat 8 off :: data)
    let flags := fun (i : Instr) (v : Word) => ∃ t, exec i s = .next t ∧ rd t 0x0B28 = rd s 0x0B28 ||| v ∧
      (∀ r, r ≠ 0x0B28 → rd t r = rd s r) ∧ { t with regs := s.regs } = started
    let mctrl : List (List Byte → Byte → Instr) := [.mailboxGo, .mailboxRelease]
    (on = false → ∀ off data pec v n ptr, exec (.mailboxCmdWrite off data pec) s = .next s ∧ exec (.mailboxGo data pec) s = .next s ∧
      exec (.mailboxRelease data pec) s = .next s ∧ exec (.mailboxPecSet v pec) s = .next s ∧
      exec (.i2cReadTransfer ptr n) s = .next s ∧ exec .i2cSclTimeout s = .next s) ∧
    (on = true →
      (∀ (off : Fin 64) (data : List Byte) (pec : Byte), data ≠ [] → off.val + data.length ≤ 64 →
        (pecGood off.val data pec → s.prt.mbx = .idle → exec (.mailboxCmdWrite off data pec) s =
          .next { started with prt := { s.prt with mbxCmd := tsets 0 s.prt.mbxCmd off.val data } }) ∧
        (pecGood off.val data pec → s.prt.mbx ≠ .idle → flags (.mailboxCmdWrite off data pec) 4) ∧
        (¬pecGood off.val data pec → flags (.mailboxCmdWrite off data pec) 1)) ∧
      (∀ (off : Fin 64) (data : List Byte) (pec : Byte), pecGood off.val data pec → 64 < off.val + data.length →
        flags (.mailboxCmdWrite off data pec) 2) ∧
      (∀ i ∈ mctrl, ∀ (data : List Byte) (pec : Byte),
        (pecGood 0x40 data pec → data = [] ∨ 4 < data.length → flags (i data pec) 2) ∧ (¬pecGood 0x40 data pec → flags (i data pec) 1) ∧
        (pecGood 0x40 data pec → data.length ≤ 4 →
          (leNat data = 1 → s.prt.mbx = .idle → s.boot.ready = true → ∃ t, exec (i data pec) s = .next t ∧ t.prt = { s.prt with
              mbx := .dispatched, mbxStamp := s.prt.stamp, stamp := (s.prt.stamp + 1) % 2 ^ 32,
              subs := s.prt.subs ++ [{ part := 0, mbx := true, idx := 0, stamp := s.prt.stamp }] } ∧
            t.cnd = { s.cnd with ipend := s.cnd.ipend ||| 0x20 } ∧ { t with prt := s.prt, cnd := s.cnd } = started) ∧
          (leNat data = 1 → s.prt.mbx ≠ .idle ∨ s.boot.ready = false → flags (i data pec) 4) ∧
          (leNat data = 2 → s.prt.mbx = .ready → exec (i data pec) s = .next { started with prt := { s.prt with mbx := .idle } }) ∧
          (leNat data = 2 → s.prt.mbx ≠ .ready → flags (i data pec) 4))) ∧
      (∀ v pec : Byte, v.toNat < 2 → pecGood 0x4C [v] pec →
        exec (.mailboxPecSet v pec) s = .next { started with lnk := { started.lnk with pecWr := v.getLsbD 0 } }) ∧
      (∀ v pec : Byte, 2 ≤ v.toNat → pecGood 0x4C [v] pec → ∃ t, exec (.mailboxPecSet v pec) s = .next t ∧
        t.lnk = { started.lnk with pecWr := v.getLsbD 0 } ∧ bit (rd t 0x0E00) 0 = true) ∧
      (∀ v pec : Byte, ¬pecGood 0x4C [v] pec → flags (.mailboxPecSet v pec) 1) ∧
      (∀ (off cnt : Byte) (n : Nat), cnt ≠ 0 → cnt.toNat < n →
        let region := fun (lo size : Nat) => lo ≤ off.toNat ∧ off.toNat + cnt.toNat ≤ lo + size
        let gives := fun (d : List Byte) => ∃ t, exec (.i2cReadTransfer (some (off, cnt)) n) s = .next t ∧
          t.lnk.i2cOut = (d ++ (if s.lnk.pecWr then
            [crc8 ([BitVec.ofNat 8 dev, off, cnt, BitVec.ofNat 8 (dev + 1)] ++ d)] else []) ++ List.replicate n 0xFF).take n ∧
          t.lnk.i2cPtr = (off.toNat, cnt.toNat) ∧
          { t with lnk := { t.lnk with i2cOut := s.lnk.i2cOut, i2cPtr := s.lnk.i2cPtr } } = started
        (region 0 64 → gives (tgets 0 s.prt.mbxCmd off.toNat cnt.toNat)) ∧
        (region 0x80 64 → gives (tgets 0 s.prt.mbxRpl (off.toNat - 0x80) cnt.toNat)) ∧
        (region 0x48 4 → gives (((leBytes 4 0x0C164B01).drop (off.toNat - 0x48)).take cnt.toNat)) ∧
        (region 0x40 4 → gives (List.replicate cnt.toNat 0)) ∧
        (off = 0x4C → cnt = 1 → gives [if s.lnk.pecWr then 1 else 0]) ∧
        (off = 0x44 → cnt = 4 → ∃ w : Word, gives (leBytes 4 w.toNat) ∧ fld w 0 2 = mbxCode s.prt.mbx ∧ bit w 2 = s.lnk.pecWr ∧
          bit w 3 = s.boot.ready ∧ bit w 4 = safeMode s ∧ bit w 5 = decide (s.pwr.st = 2) ∧ fld w 16 16 = s.prt.mbxStamp % 65536)) ∧
      (∀ (off cnt : Byte) (n : Nat), cnt = 0 ∨ 64 < cnt.toNat ∨ 0xC0 < off.toNat + cnt.toNat →
        ∃ t, exec (.i2cReadTransfer (some (off, cnt)) n) s = .next t ∧ t.lnk.i2cOut = List.replicate n 0xFF ∧
          rd t 0x0B28 = rd s 0x0B28 ||| 0x10 ∧ ∀ r, r ≠ 0x0B28 → rd t r = rd s r) ∧
      (∃ t, exec .i2cSclTimeout s = .next t ∧ rd t 0x0B28 = rd s 0x0B28 ||| 8 ∧ (∀ r, r ≠ 0x0B28 → rd t r = rd s r) ∧
        { t with regs := s.regs } = s))

/-- The checks that every command shares, in their order (R383, R385, R390, R395, R401, R405, R449, R450, R456 to R460, R526): the order
dispatched leaves its ring; an undefined opcode, SAFE mode, STANDBY, a reserved header field, a wrong length, a right that its partition
lacks and an order beaten by the mailbox's are answered, each with its status and DETAIL, and have no other effect. -/
def Obligations.CommandsShareTheirChecks : Prop :=
  ∀ (s : State) (fails : BitVec 32),
    let cards : List (Nat × Instr) :=
      [(0x0000, .cmdIdentify), (0x0001, .cmdRegRead), (0x0002, .cmdRegWrite), (0x0003, .cmdNop), (0x0004, .cmdCancel),
       (0x0100, .cmdAngleSource), (0x0101, .cmdAngleTrack), (0x0102, .cmdEventSet), (0x0103, .cmdPacerSet), (0x0200, .cmdFpLoad),
       (0x0201, .cmdFpSet), (0x0202, .cmdFpAbort), (0x0203, .cmdFpUnload), (0x0300, .cmdDataRead), (0x0301, .cmdDataWrite),
       (0x0400, .cmdFabricLoad), (0x0401, .cmdCaptureArm), (0x0402, .cmdCaptureRead), (0x0403, .cmdScrubDisable),
       (0x0500, .cmdTopiaryLoad), (0x0501, .cmdTopiaryUnload), (0x0600, .cmdTraceConfig), (0x0601, .cmdTraceRead),
       (0x0700, .cmdStickyRead), (0x0701, .cmdFaultClear fails), (0x0702, .cmdLogRead), (0x0703, .cmdReturnCapture),
       (0x0704, .cmdReturnRead), (0x0800, .cmdFlashErase), (0x0801, .cmdFlashWrite), (0x0802, .cmdFlashRead),
       (0x0803, .cmdImageSelect), (0x0900, .cmdGroupForm), (0x0901, .cmdGroupLeave), (0x0A00, .cmdPowerState),
       (0x0A01, .cmdDeviceReset)]
    -- commands without an input message and with one PLEN: opcode, PLEN, the right needed, whether for P0 alone
    let fixed : List (Nat × Nat × Nat × Bool) :=
      [(0x0001, 4, 4, false), (0x0501, 0, 1, false), (0x0601, 4, 3, false), (0x0700, 0, 5, false), (0x0701, 8, 6, false),
       (0x0702, 4, 5, false), (0x0704, 0, 5, false), (0x0800, 8, 7, false), (0x0803, 4, 7, false), (0x0100, 32, 0xFF, true),
       (0x0101, 20, 0xFF, true), (0x0102, 12, 0xFF, true), (0x0103, 16, 0xFF, true), (0x0401, 4, 0xFF, true), (0x0402, 4, 0xFF, true),
       (0x0403, 4, 0xFF, true), (0x0703, 0, 0xFF, true), (0x0900, 4, 0xFF, true), (0x0901, 0, 0xFF, true), (0x0A00, 4, 0xFF, true),
       (0x0A01, 0, 0xFF, true)]
    (∀ c ∈ cards, dispatches s = false ∨ nextOrder s = none → exec c.2 s = .next s) ∧
    ∀ x, isNext s x →
      let o := orderAt s x
      let s0 := takeSub s x
      let e := entryNat (subBytes s x)
      let op := e 0 2
      (s0.prt.subs = s.prt.subs.filter (fun y => y != x) ∧ (x.mbx = true → s0.prt.sqHead = s.prt.sqHead ∧ s0.prt.last = s.prt.last) ∧
        (x.mbx = false → tget 0 s0.prt.sqHead x.part = (x.idx + 1) % 65536 ∧ tfind s0.prt.last x.part = some (e 12 4, x.stamp)) ∧
        { s0 with prt := { s0.prt with subs := s.prt.subs, sqHead := s.prt.sqHead, last := s.prt.last },
                  cnd := { s0.cnd with again := s.cnd.again } } = s) ∧
      (∀ c ∈ cards,
        (op ∉ cards.map (fun c => c.1) → performs c.2 s s0 o 0x10 0 []) ∧
        (op ∈ cards.map (fun c => c.1) → op ≠ c.1 → exec c.2 s = .next s) ∧
        (op = c.1 →
          (safeMode s = true → op ∉ [0, 1, 3, 4, 0x700, 0x701, 0x702, 0x703, 0x704, 0x800, 0x801, 0x802, 0x803, 0xA01] →
            performs c.2 s s0 o 0x40 0 []) ∧
          (safeMode s = false → s.pwr.st = 2 → x.mbx = true → op ∉ [0, 1, 0x700, 0x702, 0xA00, 0xA01] →
            performs c.2 s s0 o 0x16 5 []) ∧
          (safeMode s = false → s.pwr.st ≠ 2 →
            (2 ≤ e 6 1 → performs c.2 s (reservedField s0 op 1) o 0x11 6 []) ∧
            (e 6 1 < 2 → e 7 1 ≠ 0 → performs c.2 s (reservedField s0 op 1) o 0x11 7 []) ∧
            (e 6 1 < 2 → e 7 1 = 0 → x.mbx = false → ∀ r ∈ fixed, r.1 = op →
              (e 4 2 ≠ r.2.1 ∨ e 8 4 ≠ 0 →
                performs c.2 s s0 o 0x12 (r.2.1 + if e 8 4 = 0 then 0 else 65536) []) ∧
              (e 4 2 = r.2.1 → e 8 4 = 0 → (if r.2.2.2 then x.part ≠ 0 else hasRight s x.part r.2.2.1 = false) →
                performs c.2 s s0 o 0x14 r.2.2.1 []))))) ∧
      (∀ d, op = 0x0A00 → e 6 1 < 2 → e 7 1 = 0 → e 4 2 = 4 → e 8 4 = 0 → safeMode s = false → s.pwr.st ≠ 2 → s.grp.role = 0 →
        s.grp.retired = false → x.mbx = false → x.part = 0 → e 16 1 < 3 → e 17 3 = 0 → x.beaten = some d →
        performs .cmdPowerState s (setFlag s0 0x0A04 1) o 0x15 d []) ∧
      (op = 0x0A01 → e 6 1 < 2 → e 7 1 = 0 → e 4 2 = 0 → e 8 4 = 0 → s.pwr.st ≠ 2 → s.grp.retired = false → x.mbx = false →
        x.part = 0 → member s = true → performs .cmdDeviceReset s s0 o 0x17 0 [])

/-- Identification and registers (R16 to R18, R460, R461, R472 to R476, R711, R713): IDENTIFY reports the device, REG_READ the registers of
a span in ascending order with the partition's rights, REG_WRITE writes by the access code of the register, NOP does nothing, CANCEL
ends the command that it names. The commands of the angle clock (R77, R79, R462, R477, R478): ANGLE_SOURCE, ANGLE_TRACK, EVENT_SET and
PACER_SET are answered ACCEPTED, and their values wait for the boundary as one change of their unit; a reserved value is refused. -/
def Obligations.RegisterAndAngleCommands : Prop :=
  (∀ (s : State) (x : Sub),
     let o := orderAt s x
     let s0 := takeSub s x
     let p := param s x
     let a := p 0 2
     let v := BitVec.ofNat 32 (p 4 4)
     (Takes s x 0x0000 0 0 → ∃ body, performs .cmdIdentify s s0 o 0 0 body ∧ entryNat body 0 4 = 0x0C164B01 ∧ entryNat body 4 1 = 0x42 ∧
       entryNat body 5 1 = (if s.boot.stepB1 then 0x31 else 0x30) ∧ body.length = 25 ∧ entryNat body 20 1 = s.boot.running.getD 0xFF % 256 ∧
       entryNat body 21 1 = 0 ∧ entryNat body 22 1 = 1 ∧ entryNat body 23 1 = s.boot.factory % 256 ∧
       ∀ q < 4, (entryNat body 24 1).testBit q = partOn s q) ∧
     (Takes s x 0x0001 4 0 → hasRight s x.part 4 = true →
       (a % 4 = 0 → 1 ≤ p 2 1 → p 2 1 ≤ 8 → a + 4 * p 2 1 ≤ 0x10000 → p 3 1 = 0 →
         let r := regReads x.part (p 2 1) a s0
         performs .cmdRegRead s r.1 o 0 0 (wordBytes r.2)) ∧
       (a % 4 ≠ 0 ∨ 0x10000 < a + 4 * p 2 1 ∧ 1 ≤ p 2 1 → performs .cmdRegRead s s0 o 0x11 (16 + 65536) []) ∧
       (a % 4 = 0 → p 2 1 = 0 ∨ 8 < p 2 1 ∧ a + 4 * p 2 1 ≤ 0x10000 →
         performs .cmdRegRead s (reservedField s0 1 1) o 0x11 18 [])) ∧
     (Takes s x 0x0002 8 0 → a % 4 = 0 →
       let done := fun (u : State) => performs .cmdRegWrite s u o 0 0 []
       (p 2 2 = 0 → writeDeny s x.part a = none → done (regWrite s0 x.mbx x.stamp a v)) ∧
       (∀ d, writeDeny s x.part a = some d → performs .cmdRegWrite s s0 o 0x14 d []) ∧
       (∀ r, p 2 2 = 0 → regRow a = some r → writeReserved s a v = false →
         (r.acc = .ro → done s0) ∧
         (r.acc = .w1c → x.part = 0 → r.wr = .p0 → done (clrReg s0 a v)) ∧
         (r.acc = .rwf → x.part = 0 → r.wr = .p0 → a ∉ ([0x0264, 0x0268, 0x0800, 0x0A10] : List Nat) →
           done (wrStaged { s0 with prt := { s0.prt with changes :=
             [{ unit := regUnit a, mbx := x.mbx, stamp := x.stamp, kind := .writes [(a, v)], ord := none }] } } a v))) ∧
       (regRow a = none → p 2 2 = 0 → (v = 0 → done s0) ∧ (v ≠ 0 → done (reservedField s0 a 0)))) ∧
     (Takes s x 0x0003 0 0 → performs .cmdNop s s0 o 0 0 []) ∧
     (Takes s x 0x0004 4 0 → x.mbx = false → p 2 2 = 0 →
       ((∀ w ∈ s.prt.opens, w.ord.part = x.part → w.ord.tag = a → cancellable s w = false) →
         performs .cmdCancel s s0 o 0 0 [0, 0, 0, 0]) ∧
       (∀ w ∈ s.prt.opens, w.ord.part = x.part → w.ord.tag = a → cancellable s w = true → w.wait = .message → w.ord.mbx = false →
         (∀ y ∈ s.prt.opens, y.ord.part = x.part → y.ord.tag = a → y = w) →
         ∃ u t, exec .cmdCancel s = .next t ∧ Performed u t o 0 0 [1, 0, 0, 0] ∧ Performed { s0 with prt := { s0.prt with
             opens := s0.prt.opens.filter (fun y => y.ord.stamp != w.ord.stamp),
             msgs := s0.prt.msgs.filter (fun m => m.2.ord.stamp != w.ord.stamp) } } u w.ord 0x24 0 []))) ∧
  (∀ (s : State) (x : Sub),
     let o := orderAt s x
     let s0 := takeSub s x
     let p := param s x
     let val := fun off => BitVec.ofNat 32 (p off 4)
     let stages := fun (i : Instr) (unit : ResUnit) (ws : List (Nat × Word)) =>
       let u := withChange s0 o unit (.writes ws)
       accepts i s { u with staged := ws.foldl (fun t w => tset 0 t w.1 w.2) s.staged } o .boundary []
     let clean := fun (off : Nat) (as : List Nat) => ∀ i < as.length, writeReserved s (as.getD i 0) (val (off + 4 * i)) = false
     let source := [0x0200, 0x021C, 0x0220, 0x0224, 0x0228, 0x022C, 0x0230, 0x0234]
     let track := [0x0238, 0x023C, 0x0240, 0x0244, 0x0248]
     let k := p 0 1
     (Takes s x 0x0100 32 0 → x.part = 0 →
       (clean 0 source → stages .cmdAngleSource .angle [(0x0200, val 0), (0x021C, val 4), (0x0220, val 8), (0x0224, val 12), (0x0228, val 16),
         (0x022C, val 20), (0x0230, val 24), (0x0234, val 28)]) ∧
       (∀ i < 8, (∀ j < i, writeReserved s (source.getD j 0) (val (4 * j)) = false) → writeReserved s (source.getD i 0) (val (4 * i)) = true →
         performs .cmdAngleSource s (reservedField s0 0x0100 1) o 0x11 (16 + 4 * i) [])) ∧
     (Takes s x 0x0101 20 0 → x.part = 0 →
       (clean 0 track → stages .cmdAngleTrack .angle [(0x0238, val 0), (0x023C, val 4), (0x0240, val 8), (0x0244, val 12), (0x0248, val 16)]) ∧
       (∀ i < 5, (∀ j < i, writeReserved s (track.getD j 0) (val (4 * j)) = false) → writeReserved s (track.getD i 0) (val (4 * i)) = true →
         performs .cmdAngleTrack s (reservedField s0 0x0101 1) o 0x11 (16 + 4 * i) [])) ∧
     (Takes s x 0x0102 12 0 → x.part = 0 →
       (k < 64 → p 1 3 = 0 → clean 4 [0x0264, 0x0268] →
         stages .cmdEventSet (.event k) [(evtKey k false, val 4), (evtKey k true, val 8)]) ∧
       (64 ≤ k → performs .cmdEventSet s (reservedField s0 0x0102 1) o 0x11 16 [])) ∧
     (Takes s x 0x0103 16 0 → x.part = 0 →
       (k < 4 → p 1 3 = 0 → clean 4 [0x0280 + 16 * k, 0x0284 + 16 * k, 0x0288 + 16 * k] →
         stages .cmdPacerSet (.pacer k) [(0x0280 + 16 * k, val 4), (0x0284 + 16 * k, val 8), (0x0288 + 16 * k, val 12)]) ∧
       (4 ≤ k → performs .cmdPacerSet s (reservedField s0 0x0103 1) o 0x11 16 [])))

/-- The commands of the frame programs (R91, R109, R110, R385, R465, R479 to R482, R510): FP_LOAD opens its message, and its last packet
loads the program or answers with the first check that fails; FP_SET waits for the boundary; FP_ABORT answers every open slot with
ABORTED; FP_UNLOAD unloads a program that is not busy. -/
def Obligations.FrameProgramCommands : Prop :=
  ∀ (s : State) (x : Sub),
    let o := orderAt s x
    let s0 := takeSub s x
    let p := param s x
    let k := p 0 1
    let rows : List (Nat × Instr) := [(0x0200, .cmdFpLoad), (0x0201, .cmdFpSet), (0x0202, .cmdFpAbort), (0x0203, .cmdFpUnload)]
    let mine := k < 16 ∧ k / 4 = x.part ∧ hasRight s x.part 0 = true
    (∀ r ∈ rows, ∀ mlen, Takes s x r.1 4 mlen → (if r.1 = 0x0200 then mlen % 4 = 0 ∧ 160 ≤ mlen ∧ mlen ≤ 0x100000 else mlen = 0) →
      x.mbx = false →
      (k < 16 → k / 4 ≠ x.part → performs r.2 s s0 o 0x13 k []) ∧
      (k < 16 → k / 4 = x.part → hasRight s x.part 0 = false → performs r.2 s s0 o 0x14 0 []) ∧
      (16 ≤ k → hasRight s x.part 0 = true → performs r.2 s (reservedField s0 r.1 1) o 0x11 16 []) ∧
      (mine → fpBusy s k = true → p 1 3 = 0 → r.1 = 0x0200 ∨ r.1 = 0x0203 → performs r.2 s s0 o 0x16 2 [])) ∧
    (∀ mlen slot, Takes s x 0x0200 4 mlen → mlen % 4 = 0 → 160 ≤ mlen → mlen ≤ 0x100000 → x.mbx = false → mine → p 1 3 = 0 →
      fpBusy s k = false → freeSlot s = some slot →
      accepts .cmdFpLoad s (withMsg s0 o slot .input mlen k 0) o .message (leBytes 4 slot ++ leBytes 4 mlen)) ∧
    (Takes s x 0x0201 4 0 → mine → p 1 1 < 2 → p 2 1 < 16 → p 3 1 = 0 →
      ((prog s k).loaded = true → s.arr.bistFail = false →
        accepts .cmdFpSet s (withChange s0 o .free (.fpSet k (decide (p 1 1 = 1)) (p 2 1))) o .boundary []) ∧
      ((prog s k).loaded = false → s.arr.bistFail = false → performs .cmdFpSet s s0 o 0x18 (k + 96) []) ∧
      (s.arr.bistFail = true → performs .cmdFpSet s s0 o 0x18 (k + 80) [])) ∧
    (Takes s x 0x0202 4 0 → mine → p 1 3 = 0 → (∀ c, s.frm.comp = some c → c.fp ≠ k) →
      ∃ t, exec .cmdFpAbort s = .next t ∧ Replied s0 t o 1 0 [] ∧ t.prt.opens = s.prt.opens ++ [⟨o, .abort k⟩] ∧
        t.prt.changes = [{ unit := .free, mbx := x.mbx, stamp := x.stamp, kind := .fpDisable k, ord := some o }] ∧
        (∀ f ∈ s.frm.frames, (∀ g ∈ s.frm.frames, g.count = f.count → g = f) → ∀ y ∈ f.slots, y.fp = k → y.posted = false →
          y.outcome = none → ∃ h ∈ t.frm.frames, h.count = f.count ∧ bit (rd t 0x0308) 5 = true ∧
            ∃ z ∈ h.slots, z.fp = k ∧ z.outcome = some (0x24, 0)) ∧
        t.frm.progs = s.frm.progs ∧ (∀ r, r ≠ 0x0308 → rd t r = rd s r) ∧ t.arr = s.arr) ∧
    (∀ c, Takes s x 0x0202 4 0 → mine → p 1 3 = 0 → s.frm.comp = some c → c.fp = k → unanswered s c →
      ∃ t, exec .cmdFpAbort s = .next t ∧ Replied s0 t o 1 0 [] ∧ CompEnded c 0x24 0 t) ∧
    (Takes s x 0x0203 4 0 → mine → p 1 3 = 0 → fpBusy s k = false →
      performs .cmdFpUnload s (setProg s0 k { prog s k with loaded := false }) o 0 0 []) ∧
    (∀ (h : LinkHdr) (data : List Byte) (crc : Word) (i : Nat) (m : Msg), accepted s 5 h false data crc → msgOf s h.addr = some (i, m) →
      m.src = .input → m.ord.opcode = 0x0200 → m.p0 < 16 → fld h.addr 0 21 = m.got → m.got + h.len.toNat = m.len →
      h.len.toNat % 4 = 0 → h.len ≠ 0 → canPost s m.ord → fpBusy s m.p0 = false → Memory.wf 0 s.cnd.mem = true →
      m.ord.mbx = false →
      let im := m.data ++ data
      ∃ t, exec (.msgWrite h data crc) s = .next t ∧ fld t.lnk.stat 8 3 = 0 ∧
        (∀ st d, fpCheck s m.p0 im = .error (st, d) → Replied s t m.ord (st % 256) d [] ∧ t.frm.progs = s.frm.progs) ∧
        (∀ q, fpCheck s m.p0 im = .ok q → Replied s t m.ord 0 0 (([q.ck, q.ckg, q.mSolo, q.xSolo, q.h, q.iCnt, q.mGrp, q.xGrp]).flatMap
          (fun n => leBytes 4 n)) ∧ prog t m.p0 = q ∧ ∀ j, j ≠ m.p0 → prog t j = prog s j))

/-- The data commands (R388, R465, R467, R483, R484): DATA_READ gives the bytes of the area in the body or as a message; DATA_WRITE stores
exchange bytes as they arrive and holds a keeper write for the boundary; a span outside the area is refused. -/
def Obligations.DataCommands : Prop :=
  ∀ (s : State) (x : Sub),
    let o := orderAt s x
    let s0 := takeSub s x
    let p := param s x
    let q := x.part
    let area := if p 0 1 = 0 then keepArea s q else xchArea s q
    let off := p 4 4
    let len := p 8 4
    let spanOk := p 0 1 < 2 ∧ p 1 3 = 0 ∧ off % 4 = 0 ∧ len % 4 = 0 ∧ 0 < len ∧ off + len ≤ area.2
    let bytes := ((subBytes s x).drop 28).take len
    (hasRight s q 2 = true →
      (Takes s x 0x0300 12 0 →
        (spanOk → len ≤ 32 → performs .cmdDataRead s s0 o 0 0 (rdBytes s (area.1 + off) len)) ∧
        (∀ slot, spanOk → 32 < len → len ≤ 0x100000 → x.mbx = false → freeSlot s = some slot →
          accepts .cmdDataRead s (withMsg s0 o slot (.area (area.1 + off)) len 0 0) o .message (leBytes 4 slot ++ leBytes 4 len)) ∧
        (x.mbx = false →
          (2 ≤ p 0 1 → performs .cmdDataRead s (reservedField s0 0x0300 1) o 0x11 16 []) ∧
          (p 0 1 < 2 → p 1 3 = 0 → off % 4 ≠ 0 → performs .cmdDataRead s s0 o 0x11 (20 + 65536) []) ∧
          (p 0 1 < 2 → p 1 3 = 0 → off % 4 = 0 → len % 4 ≠ 0 ∨ len = 0 ∨ area.2 < off + len →
            performs .cmdDataRead s s0 o 0x11 (24 + 65536) []))) ∧
      (Takes s x 0x0301 (12 + len) 0 → len ≤ 36 → spanOk →
        (p 0 1 = 0 → accepts .cmdDataWrite s (withChange s0 o .free (.keeper q off bytes)) o .boundary []) ∧
        (p 0 1 = 1 → performs .cmdDataWrite s (fillMem s0 (area.1 + off) bytes) o 0 0 [])) ∧
      (∀ slot, Takes s x 0x0301 12 len → 36 < len → len ≤ (if p 0 1 = 0 then 4096 else 0x100000) → spanOk → x.mbx = false →
        freeSlot s = some slot →
        accepts .cmdDataWrite s (withMsg s0 o slot .input len (p 0 1) off) o .message (leBytes 4 slot ++ leBytes 4 len))) ∧
    (∀ (h : LinkHdr) (data : List Byte) (crc : Word) (i : Nat) (m : Msg), accepted s 5 h false data crc → msgOf s h.addr = some (i, m) →
      m.src = .input → m.ord.opcode = 0x0301 → fld h.addr 0 21 = m.got → h.len.toNat % 4 = 0 → h.len ≠ 0 →
      Memory.wf 0 s.cnd.mem = true →
      let at_ := (xchArea s m.ord.part).1 + m.p1 + m.got
      (m.p0 = 1 → m.got + h.len.toNat < m.len → ∃ t, exec (.msgWrite h data crc) s = .next t ∧ rdBytes t at_ h.len.toNat = data ∧
        (∀ b, b < at_ ∨ at_ + h.len.toNat ≤ b → rdMem t b = rdMem s b) ∧ t.prt.opens = s.prt.opens) ∧
      (m.p0 = 0 → m.got + h.len.toNat = m.len → s.prt.changes = [] → ∃ t, exec (.msgWrite h data crc) s = .next t ∧
        t.prt.changes = [{ unit := .free, mbx := m.ord.mbx, stamp := m.ord.stamp,
                           kind := .keeper m.ord.part m.p1 (m.data ++ data), ord := some m.ord }] ∧
        ∀ b, rdMem t b = rdMem s b))

/-- The loads, the capture and the scrubber's key (R141, R142, R151, R152, R185, R186, R280, R281, R465, R485 to R490): a load begins from
its message or from flash, unless one is in progress; an arm and a disable wait for the boundary; a wrong key is refused. -/
def Obligations.LoadAndCaptureCommands : Prop :=
  ∀ (s : State) (x : Sub),
    let o := orderAt s x
    let s0 := takeSub s x
    let p := param s x
    let q := x.part
    let v := BitVec.ofNat 32 (p 0 4)
    let src := p 0 1
    let flashPart := fun (a n : Nat) => (List.range n).map (fun i => tget 0xFF s.boot.flash (a + i))
    let topFree := tfind s.arr.topArm q = none ∧ topHeld s q = false ∧ ∀ w ∈ s.prt.opens, w.wait ≠ .topVerify q
    (∀ mlen slot, Takes s x 0x0400 4 mlen → q = 0 → src = 0 → p 1 3 = 0 → mlen % 4 = 0 → 608 ≤ mlen → mlen ≤ 34560 → x.mbx = false →
      s.hdg.load = .idle → freeSlot s = some slot →
      accepts .cmdFabricLoad s (withMsg { s0 with hdg := { s.hdg with load := .loading, loadSrc := 0, loadImg := [] } } o slot .input
        mlen 0 0) o .fabricMsg (leBytes 4 slot ++ leBytes 4 mlen)) ∧
    (Takes s x 0x0400 4 0 → q = 0 → src = 1 ∨ src = 2 → p 1 3 = 0 →
      (s.hdg.load = .idle → flashPending s (src + 1) = false →
        accepts .cmdFabricLoad s { s0 with hdg := { s.hdg with
          load := .loading, loadSrc := src, loadImg := flashPart (0x70000 + 0x10000 * src) 0x10000 } } o .fabric []) ∧
      (s.hdg.load = .idle → flashPending s (src + 1) = true → performs .cmdFabricLoad s s0 o 0x16 6 []) ∧
      (s.hdg.load ≠ .idle → performs .cmdFabricLoad s s0 o 0x16 1 [])) ∧
    (Takes s x 0x0401 4 0 → q = 0 → v &&& 0xFFFF00C0 = 0 →
      (s.hdg.capArmed = false → s.hdg.capFull = false →
        accepts .cmdCaptureArm s (withChange s0 o .capture (.capArm v)) o .boundary []) ∧
      (s.hdg.capArmed = true ∨ s.hdg.capFull = true → performs .cmdCaptureArm s s0 o 0x16 4 [])) ∧
    (∀ slot, Takes s x 0x0402 4 0 → q = 0 → p 0 4 < 2 → x.mbx = false → freeSlot s = some slot →
      accepts .cmdCaptureRead s (withMsg s0 o slot .capRam 9232 (p 0 4) 0) o .message (leBytes 4 slot ++ leBytes 4 9232)) ∧
    (Takes s x 0x0402 4 0 → q = 0 → p 0 4 < 2 → x.mbx = false → freeSlot s = none → performs .cmdCaptureRead s s0 o 0x16 3 []) ∧
    (Takes s x 0x0403 4 0 → q = 0 →
      (v = ~~~s.scb.nonce → accepts .cmdScrubDisable s (withChange s0 o .scrubber .scrubOff) o .boundary []) ∧
      (v ≠ ~~~s.scb.nonce → performs .cmdScrubDisable s s0 o 0x14 0xFE [])) ∧
    (hasRight s q 1 = true →
      (∀ mlen slot, Takes s x 0x0500 4 mlen → src = 0 → p 2 2 = 0 → mlen % 4 = 0 → 144 ≤ mlen → mlen ≤ 37504 → x.mbx = false → topFree →
        freeSlot s = some slot →
        accepts .cmdTopiaryLoad s (withMsg s0 o slot .input mlen q 0) o (.topVerify q) (leBytes 4 slot ++ leBytes 4 mlen)) ∧
      (Takes s x 0x0500 4 0 → src = 1 → p 2 2 = 0 → p 1 1 < 16 →
        (∀ a, topImage s (p 1 1) 0 = some a → topFree → ∃ n,
          accepts .cmdTopiaryLoad s { s0 with arr := { s.arr with topVer := tput s.arr.topVer q (flashPart (0xA0000 + a) n) } } o
            (.topVerify q) []) ∧
        (topImage s (p 1 1) 0 = none → performs .cmdTopiaryLoad s s0 o 0x11 (17 + 65536) [])) ∧
      (Takes s x 0x0501 0 0 →
        (topFree → accepts .cmdTopiaryUnload s (withChange s0 o .free (.topUnload q)) o .boundary []) ∧
        (¬topFree → performs .cmdTopiaryUnload s s0 o 0x16 1 [])))

/-- The commands of trace, faults and log (R465, R491 to R496, R601, R603, R604, R624 to R629): trace control registers are written in
order, entries and records are read, the sticky bits selected are cleared unless their condition holds, and a return record is taken at
dispatch with trace stopped, then written, sealed and verified. -/
def Obligations.TraceAndFaultCommands : Prop :=
  ∀ (s : State) (x : Sub) (fails : BitVec 32),
    let o := orderAt s x
    let s0 := takeSub s x
    let p := param s x
    let q := x.part
    let val := fun off => BitVec.ofNat 32 (p off 4)
    let m0 := val 0
    let m1 := val 4
    (∀ n, Takes s x 0x0600 (4 + 4 * n) 0 → hasRight s q 3 = true → p 2 1 = n → 1 ≤ n → n ≤ 9 → p 3 1 = 0 → p 0 2 % 4 = 0 →
      q < 4 →
      let a := p 0 2
      (trcReg q 0 ≤ a → a + 4 * n ≤ trcReg q 0 + 0x24 → (∀ i < n, writeReserved s (a + 4 * i) (val (4 + 4 * i)) = false) →
        performs .cmdTraceConfig s ((List.range n).foldl (fun t i => regWrite t x.mbx x.stamp (a + 4 * i) (val (4 + 4 * i))) s0)
          o 0 0 []) ∧
      (0x0D00 ≤ a → a < trcReg q 0 → n = 1 → performs .cmdTraceConfig s s0 o 0x14 0xFB [])) ∧
    (∀ slot, Takes s x 0x0601 4 0 → hasRight s q 3 = true → 1 ≤ p 0 2 → p 0 2 ≤ 4096 → p 2 2 = 0 → x.mbx = false → freeSlot s = some slot →
      let n := min (p 0 2) (min (trc s q).wptr (256 * trcBlocks s q))
      accepts .cmdTraceRead s (withMsg s0 o slot (.trace q ((trc s q).wptr - n)) (8 * n) 0 0) o .message
        (leBytes 4 slot ++ leBytes 4 (8 * n))) ∧
    (Takes s x 0x0700 0 0 → hasRight s q 5 = true → ∃ body, performs .cmdStickyRead s s0 o 0 0 body ∧ body.length = 18 ∧
      entryNat body 0 4 = (rd s 0x0E00).toNat ∧ entryNat body 4 4 = (rd s 0x0E04).toNat ∧ entryNat body 8 4 = (logState s).toNat ∧
      entryNat body 12 4 = (logRecs s).length % 2 ^ 32 ∧ entryNat body 16 1 = s.boot.factory % 256 ∧
      (entryNat body 17 1).testBit 0 = bit (rd s 0x0E14) 8) ∧
    (Takes s x 0x0701 8 0 → hasRight s q 6 = true →
      let failed := tget false s.flt.bankF 0 = true ∨ tget false s.flt.bankF 1 = true
      (m0 &&& 0xFFFFC000 = 0 → m1 &&& 0xFFFFFE00 = 0 → bit m1 5 = false ∧ bit m1 6 = false ∨ ¬failed →
        let c0 := rd s 0x0E00 &&& m0 &&& ~~~(flag s.scb.safe 9 ||| flag s.arr.bistFail 12)
        let c1 := rd s 0x0E04 &&& m1 &&&
          ~~~(flag s.grp.retired 4 ||| flag (decide failed) 5 ||| flag (bothFailed s) 6 ||| flag (bit (rd s 0x0008) 2) 8)
        ∃ u t, exec (.cmdFaultClear fails) s = .next t ∧ rd u 0x0E00 = rd s 0x0E00 &&& ~~~c0 ∧ rd u 0x0E04 = rd s 0x0E04 &&& ~~~c1 ∧
          (rd u 0x0E00 = 0 → rd u 0x0E04 = 0 → rd u 0x0E10 = 0) ∧
          (c0 = 0 → c1 = 0 → u.flt = s.flt) ∧
          (c0 ≠ 0 ∨ c1 ≠ 0 → s.flt.ring.length < 16 → ∃ r, u.flt.ring = s.flt.ring ++ [r] ∧ r.code = 2 ∧
            r.data = leBytes 4 c0.toNat ++ leBytes 4 c1.toNat) ∧
          (∀ r, r ∉ ([0x0E00, 0x0E04, 0x0E10, 0x0F10] : List Nat) → rd u r = rd s r) ∧
          { u with regs := s.regs, flt := s.flt } = s0 ∧
          Performed u t o 0 0 (leBytes 4 (rd u 0x0E00).toNat ++ leBytes 4 (rd u 0x0E04).toNat)) ∧
      (m0 &&& 0xFFFFC000 = 0 → m1 &&& 0xFFFFFE00 = 0 → bit m1 5 = true ∨ bit m1 6 = true → failed →
        (s.boot.op.isSome = true → exec (.cmdFaultClear fails) s =
          .next { s0 with prt := { s0.prt with opens := s0.prt.opens ++ [⟨o, .retest m0 m1⟩] } }) ∧
        (s.boot.op = none → ∃ t, exec (.cmdFaultClear fails) s = .next t ∧
          (∀ b, b < 2 → tget false s.flt.bankF b = false → tget false t.flt.bankF b = false ∧ tget 0 t.flt.ret b = tget 0 s.flt.ret b) ∧
          (∀ b, b < 2 → tget false s.flt.bankF b = true →
            (∀ j < 16, (tget 0 t.flt.ret b).testBit j = ((tget 0 s.flt.ret b).testBit j || fails.getLsbD (16 * b + j))) ∧
            (tget false t.flt.bankF b = true ↔ usable t b < 4)))) ∧
      (m0 &&& 0xFFFFC000 ≠ 0 → performs (.cmdFaultClear fails) s (reservedField s0 0x0701 1) o 0x11 16 []) ∧
      (m0 &&& 0xFFFFC000 = 0 → m1 &&& 0xFFFFFE00 ≠ 0 → performs (.cmdFaultClear fails) s (reservedField s0 0x0701 1) o 0x11 20 [])) ∧
    (Takes s x 0x0702 4 0 → hasRight s q 5 = true →
      let rec_ := fun i => match (logRecs s)[p 0 2 + i]? with
        | some r => r.bytes
        | none => List.replicate 32 0xFF
      (p 2 2 = 1 → performs .cmdLogRead s s0 o 0 0 (rec_ 0)) ∧
      (∀ n slot, p 2 2 = n → 2 ≤ n → n ≤ 2048 → x.mbx = false → freeSlot s = some slot → (∀ r ∈ logRecs s, r.bytes.length = 32) →
        accepts .cmdLogRead s (withMsg s0 o slot (.fixed ((List.range n).flatMap rec_)) (32 * n) 0 0) o .message
          (leBytes 4 slot ++ leBytes 4 (32 * n)))) ∧
    (Takes s x 0x0703 0 0 → q = 0 → (∀ r ∈ logRecs s, r.bytes.length = 32) → ∃ t r, exec .cmdReturnCapture s = .next t ∧ Replied s0 t o 1 0 [] ∧
      t.prt.opens = s.prt.opens ++ [⟨o, .retCap⟩] ∧ t.flt = { s.flt with capturing := s.flt.capturing ++ [r] } ∧ t.regs = s.regs ∧
      t.frm = s.frm ∧ (∀ k < 4, (trc t k).rec_ = 0) ∧ r.length = 16384 ∧ r.take 4 = [0x52, 0x54, 0x52, 0x4E] ∧
      entryNat r 4 2 = 1 ∧ entryNat r 6 2 = 64 ∧ entryNat r 8 4 = 0x0C164B01 ∧ entryNat r 14 1 = s.boot.factory % 256 ∧
      entryNat r 16 4 = (lastRetnum s + 1) % 2 ^ 32 ∧ entryNat r 20 2 = s.flt.bootNum % 65536 ∧ entryNat r 24 8 = frmCount s % 2 ^ 64 ∧
      entryNat r 0x40 4 = (rd s 0x0E00).toNat ∧ entryNat r 0x44 4 = (rd s 0x0E04).toNat ∧ entryNat r 0x48 4 = (rd s 0x0E10).toNat ∧
      (r.drop 0x3FC0).take 32 = sha256 (r.take 0x3FC0) ∧ (r.drop 0x3FE0).take 4 = [0x53, 0x45, 0x41, 0x4C] ∧
      entryNat r 0x3FE4 4 = (lastRetnum s + 1) % 2 ^ 32 ∧ entryNat r 0x3FE8 4 = (crc32 (r.take 0x3FE0)).toNat) ∧
    (∀ r rest, s.flt.capturing = r :: rest → s.boot.op = none → s.boot.waiting = [] → r.length = 16384 → twf 0xFF s.boot.flash = true →
      twf 0 s.regs = true → s.boot.factory < 256 → (∀ y ∈ s.prt.opens, y.wait = .retCap → canPost s y.ord) →
      let n := entryNat r 0x3FE4 4
      let answers := fun (t : State) (st d : Nat) => ∀ y, s.prt.opens.find? (fun w => w.wait == .retCap) = some y →
        Memory.wf 0 s.cnd.mem = true → Replied s t y.ord st d []
      (∃ t, exec (.returnCaptureComplete none) s = .next t ∧ flashBytes t 0xE0000 16384 = r ∧ t.flt.capturing = rest ∧
        (∀ a, a < 0xE0000 ∨ 0xE4000 ≤ a → tget 0xFF t.boot.flash a = tget 0xFF s.boot.flash a) ∧
        rd t 0x0E14 = BitVec.ofNat 32 (s.boot.factory + 256 + 65536 * (n % 65536)) ∧ answers t 0 0) ∧
      (∀ w < 4096, ∃ t, exec (.returnCaptureComplete (some w)) s = .next t ∧ t.flt.capturing = rest ∧
        (∀ a, a < 0xE0000 ∨ 0xE4000 ≤ a → tget 0xFF t.boot.flash a = tget 0xFF s.boot.flash a) ∧
        rd t 0x0E14 = BitVec.ofNat 32 s.boot.factory ∧ answers t 0x30 (4 * w))) ∧
    (s.flt.capturing = [] ∨ s.boot.op.isSome = true → ∀ bad, exec (.returnCaptureComplete bad) s = .next s) ∧
    (∀ slot, Takes s x 0x0704 0 0 → hasRight s q 5 = true → x.mbx = false → freeSlot s = some slot →
      accepts .cmdReturnRead s (withMsg s0 o slot (.flash 0xE0000) 16384 0 0) o .message (leBytes 4 slot ++ leBytes 4 16384))

/-- The flash commands (R465, R497 to R502, R652 to R654, R657, R665): one runs at a time in stamp order, a protected region and one in use
are refused, and the end of each leaves its sectors erased, its bytes programmed, or its selection recorded. -/
def Obligations.FlashCommands : Prop :=
  ∀ (s : State) (x : Sub),
    let o := orderAt s x
    let s0 := takeSub s x
    let p := param s x
    let r := p 0 1
    let place_ : Nat × Nat := ([(0x0, 0x40000), (0x40000, 0x40000), (0x80000, 0x10000), (0x90000, 0x10000), (0xA0000, 0x10000),
      (0xB0000, 0x10000), (0xE0000, 0x4000), (0xC0000, 0x10000), (0xD0000, 0x10000)] : List (Nat × Nat)).getD r (0, 0)
    let idle := s.boot.op = none ∧ s.boot.waiting = [] ∧ s.flt.capturing = []
    let raise := fun (sec : Nat → Prop) (t : State) => ∀ k, (sec k → tget 0 t.boot.ecnt k = tget 0 s.boot.ecnt k + 1) ∧
      (¬sec k → tget 0 t.boot.ecnt k = tget 0 s.boot.ecnt k)
    (hasRight s x.part 7 = true →
      (∀ first n, Takes s x 0x0800 8 0 → p 2 2 = first → p 4 2 = n → p 1 1 = 0 → p 6 2 = 0 → r < 9 → n ≠ 0 →
        first + n ≤ place_.2 / 4096 →
        let op := FlashOp.erase (place_.1 / 4096 + first) n o
        (r < 6 → regionBusy s r = false → idle → ∃ u t, exec .cmdFlashErase s = .next t ∧
          Performed u t o 1 0 [] ∧ u.prt = { s0.prt with opens := s0.prt.opens ++ [⟨o, .flash⟩] } ∧ u.boot.op = some op ∧
          raise (fun k => place_.1 / 4096 + first ≤ k ∧ k < place_.1 / 4096 + first + n) u ∧
          { u with prt := s0.prt, boot := { u.boot with op := s.boot.op, ecnt := s.boot.ecnt } } = s0) ∧
        (r < 6 → regionBusy s r = false → s.boot.op.isSome = true → s.boot.waiting = [] →
          accepts .cmdFlashErase s { s0 with boot := { s0.boot with waiting := [op] } } o .flash []) ∧
        (r < 6 → regionBusy s r = true → performs .cmdFlashErase s s0 o 0x16 6 []) ∧
        (6 ≤ r → regionBusy s r = false → performs .cmdFlashErase s s0 o 0x14 0xFC [])) ∧
      (∀ mlen slot, Takes s x 0x0801 8 mlen → mlen % 4 = 0 → 4 ≤ mlen → mlen ≤ 0x100000 → x.mbx = false → p 1 3 = 0 → r < 6 →
        p 4 4 % 4 = 0 → p 4 4 + mlen ≤ place_.2 → regionBusy s r = false → idle → freeSlot s = some slot →
        accepts .cmdFlashWrite s (withMsg { s0 with boot := { s0.boot with
            op := some (.program (place_.1 + p 4 4) mlen 0 0 none false o) } } o slot .input mlen 0 0)
          o .flash (leBytes 4 slot ++ leBytes 4 mlen)) ∧
      (Takes s x 0x0802 12 0 → r < 9 → p 1 3 = 0 → p 4 4 % 4 = 0 → p 8 4 % 4 = 0 → 0 < p 8 4 → p 4 4 + p 8 4 ≤ place_.2 →
        (p 8 4 ≤ 32 → performs .cmdFlashRead s s0 o 0 0 (flashBytes s (place_.1 + p 4 4) (p 8 4))) ∧
        (∀ slot, 32 < p 8 4 → x.mbx = false → freeSlot s = some slot →
          accepts .cmdFlashRead s (withMsg s0 o slot (.flash (place_.1 + p 4 4)) (p 8 4) 0 0) o .message
            (leBytes 4 slot ++ leBytes 4 (p 8 4)))) ∧
      (Takes s x 0x0803 4 0 → r < 2 → p 1 3 = 0 → idle →
        accepts .cmdImageSelect s { s0 with boot := { s0.boot with op := some (.select r o) } } o .flash []) ∧
      (Takes s x 0x0803 4 0 → 2 ≤ r → performs .cmdImageSelect s (reservedField s0 0x0803 1) o 0x11 16 [])) ∧
    (∀ (bad : List Nat) (fails : BitVec 32), s.boot.waiting = [] → s.flt.capturing = [] → twf 0xFF s.boot.flash = true →
      (∀ w ∈ s.prt.opens, ∀ a b, w.wait ≠ .retest a b) → Memory.wf 0 s.cnd.mem = true →
      let byte := fun (t : State) a => tget 0xFF t.boot.flash a
      (∀ first n ord, s.boot.op = some (.erase first n ord) → canPost s ord →
        ∃ t, exec (.flashOperationComplete bad fails) s = .next t ∧ t.boot.op = none ∧ t.cnd.ipend.getLsbD 7 = true ∧
          (∀ a, a / 4096 < first ∨ first + n ≤ a / 4096 → byte t a = byte s a) ∧
          (∀ a, first ≤ a / 4096 → a / 4096 < first + n → a / 4096 - first ∉ bad → byte t a = 0xFF) ∧
          (bad = [] → Replied s t ord 0 0 []) ∧
          (∀ i < n, i ∈ bad → (∀ j ∈ bad, i ≤ j) → Replied s t ord 0x30 (regionOff (4096 * (first + i))) []) ∧ t.regs = s.regs) ∧
      (∀ off len a n worst full ord, s.boot.op = some (.program off len a n worst full ord) →
        (full = false → exec (.flashOperationComplete bad fails) s = .next s) ∧
        (full = true → canPost s ord → ∃ t, exec (.flashOperationComplete bad fails) s = .next t ∧ t.boot.op = none ∧
          (bad = [] → worst = none → t.boot.flash = s.boot.flash ∧ Replied s t ord 0 0 []) ∧
          (∀ w, bad = [] → worst = some w → Replied s t ord 0x30 (regionOff w) []) ∧
          (∀ b, (∀ i ∈ bad, 4 * i < len → b < off + 4 * i ∨ off + 4 * i + 4 ≤ b) → byte t b = byte s b) ∧ t.regs = s.regs)) ∧
      (∀ slot ord, s.boot.op = some (.select slot ord) → canPost s ord →
        ∃ t, exec (.flashOperationComplete bad fails) s = .next t ∧ t.boot.op = none ∧
          (∀ st d, fwCheck s slot = some (st, d) → Replied s t ord (st % 256) d [] ∧ t.boot.flash = s.boot.flash) ∧
          (fwCheck s slot = none → bad = [] → slot < 2 → (newestSel s = none ∨ ∃ i b, newestSel s = some (i, b) ∧ entryNat b 4 4 < 2 ^ 32 - 1) →
            Replied s t ord 0 0 [] ∧ ∃ b, flashBytes t (selTarget s).1 32 = b ∧ b.take 4 = [0x42, 0x53, 0x45, 0x4C] ∧
              entryNat b 8 1 = slot ∧ entryNat b 28 4 = (crc32 (b.take 28)).toNat ∧
              entryNat b 4 4 = ((newestSel s).map (fun e => entryNat e.2 4 4 + 1)).getD 1) ∧
          (fwCheck s slot = none → bad ≠ [] → Replied s t ord 0x30 (regionOff (selTarget s).1) []) ∧ t.regs = s.regs)) ∧
    (s.boot.op = none → ∀ bad fails, exec (.flashOperationComplete bad fails) s = .next s) ∧
    (∀ (h : LinkHdr) (data : List Byte) (crc : Word) (i : Nat) (m : Msg) off len a n worst full,
      accepted s 5 h false data crc → msgOf s h.addr = some (i, m) → m.src = .input → m.ord.opcode = 0x0801 →
      fld h.addr 0 21 = m.got → m.got + h.len.toNat ≤ m.len → h.len.toNat % 4 = 0 → h.len ≠ 0 → twf 0xFF s.boot.flash = true →
      (s.boot.op = some (.program off len a n worst full m.ord) → (∀ k < h.len.toNat, tget 0xFF s.boot.flash (off + m.got + k) = 0xFF) →
        ∃ t, exec (.msgWrite h data crc) s = .next t ∧ fld t.lnk.stat 8 3 = 0 ∧ flashBytes t (off + m.got) h.len.toNat = data ∧
          (∀ b, b < off + m.got ∨ off + m.got + h.len.toNat ≤ b → tget 0xFF t.boot.flash b = tget 0xFF s.boot.flash b) ∧
          t.boot.op = some (.program off len (off + m.got) h.len.toNat worst (decide (len ≤ m.got + h.len.toNat)) m.ord)) ∧
      (s.boot.op = none → ∃ t, exec (.msgWrite h data crc) s = .next t ∧ LinkAnswer s t 3 0))

/-- Power orders and resets (R405, R505, R506, R532, R633 to R635, R658, R676, R692): an order for the current state completes at once, any
other is accepted and started unless one runs; a mailbox order goes first and completes the rings' orders with CONFLICT; each reset
source leaves its cause and the reset state. -/
def Obligations.PowerOrdersAndResets : Prop :=
  ∀ (s : State), twf 0 s.regs = true →
    (∀ x : Sub,
      let o := orderAt s x
      let s0 := takeSub s x
      let tgt := param s x 0 1
      let starts := { s.pwr with target := tgt, pend := true, exiting := decide (s.pwr.st = 2), orderAt := s.now }
      let begun := fun (u : State) => { u with pwr := starts, cnd := { u.cnd with ipend := u.cnd.ipend ||| 1 } }
      (Takes s x 0x0A00 4 0 → x.part = 0 → x.mbx = false → tgt < 3 → param s x 1 3 = 0 →
        ((∀ w ∈ s.prt.opens, w.ord.opcode = 0x0A00 → w.ord.mbx = false) →
          (tgt = s.pwr.st → performs .cmdPowerState s s0 o 0 0 []) ∧
          (tgt ≠ s.pwr.st → s.pwr.pend = false → accepts .cmdPowerState s (begun s0) o (.power tgt) []) ∧
          (tgt ≠ s.pwr.st → s.pwr.pend = true → accepts .cmdPowerState s s0 o (.power tgt) [])) ∧
        (∀ w rest, s.prt.opens = w :: rest → w.ord.mbx = true → w.ord.opcode = 0x0A00 →
          performs .cmdPowerState s (setFlag s0 0x0A04 1) o 0x15 w.ord.stamp [])) ∧
      (isNext s x → header s x 0x0A00 4 0 → safeMode s = false → s.grp.role = 0 → s.grp.retired = false → x.part = 0 → x.mbx = true →
        tgt < 3 → param s x 1 3 = 0 → (∀ y ∈ s.prt.subs, y.mbx = true) →
        ((∀ w ∈ s.prt.opens, w.ord.opcode = 0x0A00 → w.ord.mbx = true) → tgt ≠ s.pwr.st →
          accepts .cmdPowerState s (begun s0) o (.power tgt) []) ∧
        (∀ w, s.prt.opens = [w] → w.ord.opcode = 0x0A00 → w.ord.mbx = false → canPost s w.ord → tgt ≠ s.pwr.st →
          ∃ t, exec .cmdPowerState s = .next t ∧ Replied s t w.ord 0x15 x.stamp [] ∧ t.prt.mbx = .accepted ∧
            t.prt.opens = [⟨o, .power tgt⟩] ∧ t.pwr = starts ∧ rd t 0x0A04 = rd s 0x0A04 ||| 2 ∧
            ∀ r, r ≠ 0x0A04 → rd t r = rd s r)) ∧
      (isNext s x → header s x 0x0A01 0 0 → s.grp.role = 0 → s.grp.retired = false → x.part = 0 → x.beaten = none → s.prt.changes = [] →
        ∃ t, exec .cmdDeviceReset s = .next t ∧ ResetDone s t (if x.mbx then 4 else 3))) ∧
    (∃ t, exec .rstNAssert s = .next t ∧ ResetDone s t 2) ∧
    (∃ t, exec .powerOnReset s = .next t ∧ t.boot.inReset = true ∧ t.boot.ready = false ∧ t.boot.cause = 1 ∧ t.boot.tries = 0 ∧
      t.regs = State.reset.regs ∧ t.cnd = Cnd.reset ∧ t.prt = Prt.reset ∧ t.jtag = Jtag.reset ∧ t.pwr.shutdown = false ∧
      t.hdg.x32Ok = false ∧ fuses t = fuses s ∧ t.pending = s.pending ∧
      (s.boot.op = none → s.flt.capturing = [] → t.boot.flash = s.boot.flash)) ∧
    (∀ sup : BitVec 7,
      let v := (sup &&& 0x4F) ||| (s.pwr.supplies &&& 0x30)
      let watched := sup.getLsbD 0 = true ∧ sup.getLsbD 1 = true ∧ sup.getLsbD 3 = true ∧
        (s.pwr.st ≠ 2 → sup.getLsbD 2 = true ∧ (sup.getLsbD 6 = true ∨ (gport s 0).st = .down ∧ (gport s 1).st = .down))
      (watched → exec (.supplyMonitorReset sup) s = .next { s with pwr := { s.pwr with supplies := v } }) ∧
      (¬watched → ∃ t, exec (.supplyMonitorReset sup) s = .next t ∧ t.pwr.supplies = v ∧
        ResetDone { s with pwr := { s.pwr with supplies := v } } t 7)) ∧
    (s.boot.ready = true → 200000000 ≤ s.now - s.boot.readyAt →
      exec .bootTriesClear s = .next { s with boot := { s.boot with tries := 0 } }) ∧
    (s.boot.ready = false ∨ s.now - s.boot.readyAt < 200000000 → exec .bootTriesClear s = .next s)

/-- Boot (R219 to R221, R327, R635 to R639, R645, R652 to R661, R667): the device leaves reset with the straps of a power-on or pin reset,
the image selected or of the highest version in SRAM and running, the other one when that fails, SAFE mode when neither passes, when no
reference clock is found, or at four tries; the failing columns are mapped out; READY rises. -/
def Obligations.BootStartsAnImage : Prop :=
  ∀ (s : State) (straps : BitVec 4) (refOk : Bool) (ms : Nat) (logOk : Bool) (bad : BitVec 132) (afail : Bool),
    let i := Instr.boot straps refOk ms logOk bad afail
    (s.boot.inReset = false ∨ s.pwr.shutdown = true → exec i s = .next s) ∧
    (s.boot.inReset = true → s.pwr.shutdown = false → twf 0 s.regs = true → Memory.wf 0 s.cnd.mem = true → s.boot.cause < 16 →
      s.boot.tries ≤ 4 → ∃ t, exec i s = .next t ∧
        t.boot.ready = true ∧ t.boot.inReset = false ∧ t.boot.ports = true ∧ t.now = s.now + 200000 * ms ∧ t.boot.readyAt = t.now ∧
        t.boot.straps = (if s.boot.cause = 1 ∨ s.boot.cause = 2 then straps else s.boot.straps) ∧
        t.boot.tries = s.boot.tries ∧ fuses t = fuses s ∧ rd t 0x000C = BitVec.ofNat 32 (s.boot.cause + 16 * s.boot.tries) ∧
        rd t 0x0018 = BitVec.ofNat 32 (min 0xFFFF ms) ∧ (s.boot.cause = 6 → bit (rd t 0x0E00) 13 = true) ∧ t.hdg.pllOk = refOk ∧
        (let fails := (List.range 132).filter (fun c => bad.getLsbD c)
         t.arr.bistDone = true ∧ (t.arr.bistFail = true ↔ afail = true ∨ 4 < fails.length) ∧ t.arr.map.length ≤ 4 ∧
           t.arr.map.take fails.length = fails.take 4 ∧ (t.arr.bistFail = true → bit (rd t 0x0E00) 12 = true)) ∧
        (let safe := fun (why : Nat) => t.boot.running = none ∧ fld (rd t 0x0008) 0 5 = 7 + 8 * why ∧ bit (rd t 0x0E04) 8 = true ∧
            t.cnd.mem = s.cnd.mem ∧ t.cnd.running = s.cnd.running
         let starts := fun (slot : Nat) =>
            let h := flashBytes s (0x40000 * slot) 96
            t.boot.running = some slot ∧ fld (rd t 0x0008) 0 5 = slot ∧ t.cnd.running = true ∧
              t.cnd.pc = BitVec.ofNat 32 (entryNat h 0x48 4) ∧ rd t 0x060C = BitVec.ofNat 32 (entryNat h 0x54 4) ∧
              rd t 0x0010 = BitVec.ofNat 32 (entryNat h 0x24 4) ∧
              rdBytes t 0 (entryNat h 0x4C 4) = flashBytes s (0x40000 * slot + 96) (entryNat h 0x4C 4) ∧
              rdBytes t 0x10000000 (entryNat h 0x50 4) = flashBytes s (0x40000 * slot + 96 + entryNat h 0x4C 4) (entryNat h 0x50 4) ∧
              (flashBytes s 0x80000 4 = [0xFF, 0xFF, 0xFF, 0xFF] → bit (rd t 0x0008) 7 = true)
         let first := match newestSel s with
           | some (_, b) =>
             if fwUsable s (entryNat b 8 1) = true ∧ entryNat (fwHeader s (entryNat b 8 1)) 0x20 4 = entryNat b 16 4 then
               some (entryNat b 8 1)
             else none
           | none => none
         let newer := if entryNat (fwHeader s 0) 0x24 4 < entryNat (fwHeader s 1) 0x24 4 then 1 else 0
         (refOk = false → safe 2) ∧ (refOk = true → s.boot.tries = 4 → safe 3) ∧
         (refOk = true → s.boot.tries < 2 →
           (∀ a, first = some a ∨ first = none ∧ fwUsable s 0 = true ∧ fwUsable s 1 = true ∧ a = newer →
             (fwCheck s a = none → starts a ∧ bit (rd t 0x0008) 6 = false) ∧
             (fwCheck s a ≠ none → fwUsable s (1 - a) = true → fwCheck s (1 - a) = none →
               starts (1 - a) ∧ bit (rd t 0x0008) 6 = true ∧ bit (rd t 0x0E04) 7 = true) ∧
             (fwCheck s a ≠ none → fwUsable s (1 - a) = false ∨ fwCheck s (1 - a) ≠ none → safe 1)) ∧
           (fwUsable s 0 = false → fwUsable s 1 = false → safe 1))))

/-- The die temperature (R695 to R702): a sample at 110 °C or more resets the device and is recorded; WARN is set when the temperature first
reaches its limit; the throttle lowers the array clock and then the conductor clock towards the floor, and raises the conductor clock
and then the array clock, each at most once in a millisecond. -/
def Obligations.TemperatureAndThrottle : Prop :=
  ∀ (s : State), twf 0 s.regs = true →
    let cfg := rd s 0x0F84
    let throt : Int := 4 * (fld cfg 0 8 : Nat)
    let hyst : Int := 4 * (fld cfg 8 4 : Nat)
    let warn : Int := 4 * (fld cfg 16 8 : Nat)
    let g := fld (rd s 0x0300) 0 8
    let goal := max (fld (rd s 0x0104) 0 8) g
    let flags := fun (t : State) (v w : Word) => rd t 0x0F88 = rd s 0x0F88 ||| v ∧ rd t 0x010C = rd s 0x010C ||| w ∧
      (∀ r, r ≠ 0x0F88 → r ≠ 0x010C → rd t r = rd s r)
    (∀ c : Int, -160 ≤ c → c ≤ 500 →
      (s.boot.inReset = false → 440 ≤ c → s.pwr.arrClk < 256 → ∃ t, exec (.thermalSample c) s = .next t ∧ t.pwr.shutdown = true ∧ t.pwr.temp = c ∧
        fld (rd t 0x0F90) 0 16 = c.toNat ∧ fld (rd t 0x0F90) 24 8 = min 255 (fld (rd s 0x0F90) 24 8 + 1) ∧
        (∀ v, ResetDone (wr s 0x0F90 v) { t with regs := tset 0 t.regs 0x0F90 v, pwr := { t.pwr with shutdown := s.pwr.shutdown } } 6)) ∧
      (s.boot.inReset = false → c < 440 → ∃ t, exec (.thermalSample c) s = .next t ∧
        t.pwr = { s.pwr with temp := c, peak := max s.pwr.peak c } ∧
        (s.pwr.temp < warn → warn ≤ c → flags t 1 0 ∧ t.cnd = { s.cnd with ipend := s.cnd.ipend ||| 1 }) ∧
        (warn ≤ s.pwr.temp ∨ c < warn → t.regs = s.regs ∧ t.cnd = s.cnd) ∧
        { t with pwr := s.pwr, regs := s.regs, cnd := s.cnd } = s) ∧
      (s.boot.inReset = true → exec (.thermalSample c) s = .next s) ∧
      (s.pwr.shutdown = true → exec (.thermalRelease c) s =
        .next { s with pwr := { s.pwr with temp := c, peak := c, shutdown := decide (380 ≤ c) } }) ∧
      (s.pwr.shutdown = false → exec (.thermalRelease c) s = .next s)) ∧
    (s.boot.inReset = true ∨ s.pwr.st ≠ 0 → exec .throttleStep s = .next s) ∧
    (s.boot.inReset = false → s.pwr.st = 0 → s.frm.comp = none → g ≤ s.pwr.arrClk → g ≤ s.pwr.cndClk → ∃ t, exec .throttleStep s = .next t ∧
      (let atFloor := t.pwr.arrClk = g ∨ t.pwr.cndClk = g
       (throt ≤ s.pwr.temp →
         (g < s.pwr.arrClk → t.pwr.arrClk = max g (s.pwr.arrClk - 10) ∧ t.pwr.cndClk = s.pwr.cndClk ∧ bit (rd t 0x0F88) 1 = true) ∧
         (s.pwr.arrClk = g → throt + 12 ≤ s.pwr.temp → g < s.pwr.cndClk →
           t.pwr.arrClk = g ∧ t.pwr.cndClk = max g (s.pwr.cndClk - 10) ∧ bit (rd t 0x0F88) 1 = true) ∧
         (s.pwr.arrClk = g → s.pwr.temp < throt + 12 ∨ s.pwr.cndClk = g → t.pwr.arrClk = g ∧ t.pwr.cndClk = s.pwr.cndClk) ∧
         (t.pwr.floor = true ↔ atFloor) ∧ (atFloor → bit (rd t 0x0F88) 2 = true ∧ bit (rd t 0x010C) 2 = true)) ∧
       (s.pwr.temp < throt → t.pwr.floor = false ∧ flags t 0 0) ∧
       (throt - hyst ≤ s.pwr.temp → s.pwr.temp < throt → t.pwr.arrClk = s.pwr.arrClk ∧ t.pwr.cndClk = s.pwr.cndClk) ∧
       (s.pwr.temp < throt - hyst →
         (s.pwr.cndClk < goal → t.pwr.arrClk = s.pwr.arrClk ∧
           (9 ≤ s.pwr.upCnd → t.pwr.cndClk = min goal (s.pwr.cndClk + 10) ∧ t.pwr.upCnd = 0) ∧
           (s.pwr.upCnd < 9 → t.pwr.cndClk = s.pwr.cndClk ∧ t.pwr.upCnd = s.pwr.upCnd + 1)) ∧
         (goal ≤ s.pwr.cndClk → t.pwr.cndClk = s.pwr.cndClk ∧
           (s.pwr.arrClk < goal → 9 ≤ s.pwr.upArr → t.pwr.arrClk = min goal (s.pwr.arrClk + 10) ∧ t.pwr.upArr = 0) ∧
           (goal ≤ s.pwr.arrClk ∨ s.pwr.upArr < 9 → t.pwr.arrClk = s.pwr.arrClk)))) ∧
      { t with pwr := s.pwr, regs := s.regs } = s)

/-- The fault log (R610, R614 to R620): the oldest record that waits is written with the next SEQ into the next slot, or after the erase and
the SUMMARY of the next usable sector; a sector that fails is retired, and a second one in succession fails the bank; a second, and an
hour, report what was not written. -/
def Obligations.FaultLogIsWritten : Prop :=
  ∀ (s : State) (eraseOk sumOk recOk : Bool),
    let i := Instr.logRecordWrite eraseOk sumOk recOk
    let b := s.flt.active
    let j := s.flt.sector
    let at_ := 0xC0000 + 0x10000 * b + 4096 * j + 32 * s.flt.slot
    let writes := s.boot.ready = true ∧ s.boot.op = none ∧ s.flt.capturing = [] ∧ s.pwr.st ≠ 2
    let byte := fun (t : State) a => tget 0xFF t.boot.flash a
    (¬writes ∨ s.flt.own = [] ∧ s.flt.ring = [] ∨ bothFailed s = true → exec i s = .next s) ∧
    (∀ r rest, writes → s.flt.own = [] → s.flt.ring = r :: rest → bothFailed s = false → twf 0xFF s.boot.flash = true →
      r.data.length = 8 → s.flt.seq + 1 < 2 ^ 32 - 1 → twf 0 s.regs = true →
      (s.flt.slot < 128 → recOk = true → ∃ t, exec i s = .next t ∧
        flashBytes t at_ 28 = leBytes 4 (s.flt.seq + 1) ++ leBytes 2 s.flt.bootNum ++ leBytes 2 r.code ++ leBytes 6 r.frmcnt ++
          leBytes 2 r.suppr ++ leBytes 4 r.uptime ++ r.data ∧
        flashBytes t (at_ + 28) 4 = leBytes 4 (crc32 (flashBytes t at_ 28)).toNat ∧
        (∀ a, a < at_ ∨ at_ + 32 ≤ a → byte t a = byte s a) ∧
        t.flt = { s.flt with ring := rest, seq := s.flt.seq + 1, slot := s.flt.slot + 1, lastFail := false } ∧
        { t with boot := { t.boot with flash := s.boot.flash }, flt := s.flt } = s) ∧
      (s.flt.slot < 128 → recOk = false → b < 2 → tget false s.flt.bankF (1 - b) = false → ∃ t, exec i s = .next t ∧
        t.flt.seq = s.flt.seq + 1 ∧ (tget 0 t.flt.ret b).testBit j = true ∧ t.flt.ring = s.flt.ring ∧
        (∃ q, t.flt.own.head? = some q ∧ q.code = 5 ∧ q.data.take 3 = leBytes 1 b ++ leBytes 1 j ++ [1]) ∧
        (∀ a, a < at_ ∨ at_ + 32 ≤ a → byte t a = byte s a) ∧
        (s.flt.lastFail = false → 4 ≤ usable t b → t.flt.active = b ∧ t.flt.slot = 128 ∧ t.flt.lastFail = true ∧
          t.flt.bankF = s.flt.bankF ∧ t.regs = s.regs) ∧
        (s.flt.lastFail = true ∨ usable t b < 4 → tget false t.flt.bankF b = true ∧ t.flt.active = 1 - b ∧ bit (rd t 0x0E04) 5 = true ∧
          ∃ q p, t.flt.own = [q, p] ∧ p.code = 0x125 ∧ p.data.take 3 = leBytes 1 b ++ leBytes 1 j ++ [1])) ∧
      (∀ k, 128 ≤ s.flt.slot → k = nextSector s b j → eraseOk = true → sumOk = true → recOk = true → b < 2 → k < 16 →
        let o := 0xC0000 + 0x10000 * b + 4096 * k
        ∃ t, exec i s = .next t ∧ flashBytes t o 4 = leBytes 4 (s.flt.seq + 1) ∧ flashBytes t (o + 6) 2 = [0x0F, 0] ∧
          flashBytes t (o + 32) 4 = leBytes 4 (s.flt.seq + 2) ∧ flashBytes t (o + 32 + 6) 2 = leBytes 2 r.code ∧
          flashBytes t (o + 52) 8 = r.data ∧ (∀ a, o + 64 ≤ a → a < o + 4096 → byte t a = 0xFF) ∧
          (∀ a, a < o ∨ o + 4096 ≤ a → byte t a = byte s a) ∧
          tget 0 t.boot.ecnt (192 + 16 * b + k) = tget 0 s.boot.ecnt (192 + 16 * b + k) + 1 ∧
          t.flt = { s.flt with ring := rest, seq := s.flt.seq + 2, sector := k, slot := 2, lastFail := false })) ∧
    (∀ (code : Nat) (w : Rate), tfind s.flt.rates code = some w →
      (w.n ≠ 0 → w.at_ + 1000 ≤ upMs s → s.flt.hourN < 1024 → s.flt.ring.length < 16 → w.data.length = 8 →
        exec (.logRateSecond code) s = .next { s with flt := { s.flt with
          rates := tput s.flt.rates code { w with at_ := upMs s, n := 0 }, hourN := s.flt.hourN + 1,
          ring := s.flt.ring ++ [{ code := code, frmcnt := frmCount s, suppr := min 0xFFFF w.n, uptime := upMs s, data := w.data }] } }) ∧
      (w.n = 0 ∨ upMs s < w.at_ + 1000 → exec (.logRateSecond code) s = .next s)) ∧
    (∀ code, tfind s.flt.rates code = none → exec (.logRateSecond code) s = .next s) ∧
    (let hour := 3600000 * 200000
     (s.boot.ready = true → s.flt.hourAt + hour ≤ s.now →
       (s.flt.hourSup = 0 → exec .logHour s = .next { s with flt := { s.flt with hourN := 0, hourAt := s.flt.hourAt + hour } }) ∧
       (s.flt.hourSup ≠ 0 → s.flt.ring.length < 16 → exec .logHour s = .next { s with flt := { s.flt with
         hourN := 0, hourSup := 0, hourAt := s.flt.hourAt + hour,
         ring := s.flt.ring ++ [{ code := 7, frmcnt := frmCount s, suppr := 0, uptime := upMs s,
                                  data := leBytes 4 (min 0xFFFFFFFF s.flt.hourSup) ++ [0, 0, 0, 0] }] } })) ∧
     (s.boot.ready = false ∨ s.now < s.flt.hourAt + hour → exec .logHour s = .next s))

/-- The formation of a group (R503, R504, R536, R541 to R547): GROUP_FORM trains both ports; a port that trains is UP with its four lanes; a
peer of another version ends the formation; of the chips that agree the lowest strap leads and checkpoints its standby, and the others
take up its copy at the boundary; GROUP_LEAVE waits for the boundary. -/
def Obligations.GroupFormation : Prop :=
  ∀ (s : State), twf 0 s.regs = true →
    (∀ x : Sub,
      let o := orderAt s x
      let s0 := takeSub s x
      let m := param s x 0 1
      (Takes s x 0x0900 4 0 → x.part = 0 → param s x 1 3 = 0 →
        (2 ≤ m → m ≤ 4 → s.grp.forming = false → ∃ t, exec .cmdGroupForm s = .next t ∧ Replied s0 t o 1 0 [] ∧
          t.prt.opens = s.prt.opens ++ [⟨o, .form⟩] ∧ (∀ p < 2, (gport t p).st = .training ∧ (gport t p).trainAt = s.now) ∧
          t.grp = { s.grp with forming := true, need := m, known := [], copy := none, ports := t.grp.ports } ∧
          { t with prt := s0.prt, grp := s.grp, cnd := s0.cnd, trc := s.trc } = s0) ∧
        (2 ≤ m → m ≤ 4 → s.grp.forming = true → performs .cmdGroupForm s s0 o 0x16 7 []) ∧
        (m < 2 ∨ 4 < m → performs .cmdGroupForm s (reservedField s0 0x0900 1) o 0x11 16 [])) ∧
      (Takes s x 0x0901 0 0 → x.part = 0 → accepts .cmdGroupLeave s (withChange s0 o .free .groupLeave) o .boundary [])) ∧
    (∀ (p : Fin 2) (c : ChipInfo) (infos : List ChipInfo) (copy : Option LeaderCopy),
      let i := Instr.linkTrainingComplete p (c :: infos) copy
      let q := (1 - p.val)
      ((gport s p).st = .down ∨ (gport s p).st = .lost ∨ (gport s p).st = .up ∧ s.grp.forming = false → exec i s = .next s) ∧
      ((gport s p).st = .training → s.grp.forming = false → ∃ t, exec i s = .next t ∧ (gport t p).st = .up ∧
        (gport t p).lanes = 0xF ∧ (gport t p).peer = some (c.strap.toNat / 4) ∧ gport t q = gport s q ∧
        { t with grp := { t.grp with ports := s.grp.ports }, trc := s.trc } = s) ∧
      ((gport s p).st = .training → s.grp.forming = true → s.grp.role = 0 → s.grp.known = [] → infos = [] → c.strap ≠ s.boot.straps →
        let own := s.boot.straps.toNat / 4
        let peer := c.strap.toNat / 4
        let same := c.pagen = BitVec.ofNat 8 Config.pagenVersion ∧ c.group = BitVec.ofNat 8 Config.groupVersion
        (¬same → ∃ t, exec i s = .next t ∧ t.grp.role = 0 ∧ t.grp.forming = false ∧ t.grp.ports = [] ∧ bit (rd t 0x0C04) 1 = true ∧
          bit (rd t 0x0E04) 1 = true ∧ ∀ w, s.prt.opens = [w] → w.wait = .form → canPost s w.ord → Memory.wf 0 s.cnd.mem = true →
            Replied s t w.ord 0x31 (if c.pagen = BitVec.ofNat 8 Config.pagenVersion then 5 else 4) []) ∧
        (same → c.members ≠ s.grp.need ∨ peer = own ∨ linkedPos own peer = false → ∃ t, exec i s = .next t ∧ t.grp.forming = true ∧
          (gport t p).st = .up ∧ rd t 0x0C04 = rd s 0x0C04 ||| 1 ∧ (∀ r, r ≠ 0x0C04 → rd t r = rd s r) ∧ t.prt = s.prt) ∧
        (same → c.members = 2 → s.grp.need = 2 → linkedPos own peer = true → own < peer → p.val = (if own ^^^ peer = 1 then 0 else 1) →
          s.grp.ckLeft + s.grp.ckSealed = 0 →
          let u := { s with grp := { s.grp with
            members := BitVec.ofNat 4 (2 ^ own + 2 ^ peer), leadPos := own, stbyPos := none, known := [c] } }
          admitFail (loadSet u true (fun _ q => q.enabled)) (gclk s) (fmin s) = none → ∃ t, exec i s = .next t ∧ t.grp.leadPos = own ∧
            t.grp.members = BitVec.ofNat 4 (2 ^ own + 2 ^ peer) ∧ t.grp.stbyPos = some peer ∧ t.grp.role = 0 ∧ t.grp.ckLeft = 2 ∧
            (gport t p).unacked.map (fun v => v.2) = (gport s p).unacked.map (fun v => v.2) ++ [5, 5] ∧ t.regs = s.regs) ∧
        (∀ k w, same → c.members = 2 → s.grp.need = 2 → linkedPos own peer = true → peer < own → copy = some k → k.admitted = none →
          s.prt.opens = [w] → w.wait = .form → s.prt.changes = [] → ∃ t, exec i s = .next t ∧ t.grp.leadPos = peer ∧
            t.grp.copy = some k ∧ t.prt.changes = [{ unit := .free, mbx := w.ord.mbx, stamp := w.ord.stamp, kind := .groupForm, ord := none }] ∧
            t.regs = s.regs)))

/-- The link ports of a group (R538 to R541, R573, R578): an acknowledgement releases the frames up to its SEQ; a NAK and a missing
acknowledgement send the rest again, and more often than LRETRY the port retrains once, then is LOST; a frame with an error is counted;
a frame that is not expected is discarded. -/
def Obligations.GroupLinks : Prop :=
  ∀ (s : State) (p : Fin 2) (seq : Byte), twf 0 s.regs = true →
    let x := gport s p
    let q := 1 - p.val
    let cnt := 0x0C48 + 16 * p.val
    let sameButPort := fun (t : State) => gport t q = gport s q ∧ { t with
      grp := { t.grp with ports := s.grp.ports }, regs := s.regs,
      trc := s.trc } = s
    let again := fun (i : Instr) =>
      let n := x.unacked.length
      x.unacked ≠ [] →
      (x.resends + 1 ≤ fld (rd s 0x0C08) 0 4 → ∃ t, exec i s = .next t ∧
        gport t p = { x with resends := x.resends + 1, sentAt := s.now } ∧ sameButPort t ∧
        fld (rd t cnt) 0 16 = min 0xFFFF (fld (rd s cnt) 0 16 + n) ∧ fld (rd t cnt) 16 16 = fld (rd s cnt) 16 16 ∧
        ∀ r, r ≠ cnt → rd t r = rd s r) ∧
      (fld (rd s 0x0C08) 0 4 < x.resends + 1 → x.exhausted = none → ∃ t, exec i s = .next t ∧ (gport t p).st = .training ∧
        (gport t p).unacked = x.unacked ∧ (gport t p).exhausted = some s.now ∧ (gport t p).trainAt = s.now ∧ sameButPort t ∧
        fld (rd t cnt) 0 16 = min 0xFFFF (fld (rd s cnt) 0 16 + n) ∧
        fld (rd t cnt) 16 16 = min 0xFFFF (fld (rd s cnt) 16 16 + 1) ∧ ∀ r, r ≠ cnt → rd t r = rd s r) ∧
      (∀ t0, fld (rd s 0x0C08) 0 4 < x.resends + 1 → x.exhausted = some t0 → s.now - t0 ≤ 200000000 → s.grp.role = 0 →
        ∃ t, exec i s = .next t ∧ (gport t p).st = .lost ∧ bit (rd t 0x0C04) 2 = true ∧ bit (rd t 0x0E04) 0 = true)
    (x.st ≠ .up → ∀ i ∈ ([.linkAck p seq, .linkNak p seq, .linkAckTimeout p, .linkFrameError p] : List Instr), exec i s = .next s) ∧
    (x.st = .up →
      (∀ pre typ rest, x.unacked = pre ++ (seq.toNat, typ) :: rest → (∀ u ∈ pre, u.1 ≠ seq.toNat) →
        s.grp.role ≠ 0 ∨ s.grp.forming = false → ∃ t, exec (.linkAck p seq) s = .next t ∧
          gport t p = { x with unacked := rest, resends := 0, sentAt := s.now } ∧ gport t q = gport s q ∧
          t.grp.ckLeft = s.grp.ckLeft - ((pre ++ [(seq.toNat, typ)]).filter (fun u => u.2 = 5)).length ∧
          { t with grp := { t.grp with ports := s.grp.ports, ckLeft := s.grp.ckLeft, ckSealed := s.grp.ckSealed } } = s) ∧
      ((∀ u ∈ x.unacked, u.1 ≠ seq.toNat) → exec (.linkAck p seq) s = .next s ∧ again (.linkNak p seq)) ∧
      (400 ≤ s.now - x.sentAt → again (.linkAckTimeout p)) ∧
      (s.now - x.sentAt < 400 → exec (.linkAckTimeout p) s = .next s) ∧
      (∃ t, exec (.linkFrameError p) s = .next t ∧ rd t (0x0C44 + 16 * p.val) =
          BitVec.ofNat 32 (min 0xFFFFFFFF ((rd s (0x0C44 + 16 * p.val)).toNat + 1)) ∧
        (∀ r, r ≠ 0x0C44 + 16 * p.val → rd t r = rd s r) ∧ { t with regs := s.regs, trc := s.trc } = s)) ∧
    (let late := x.st = .training ∧ x.exhausted ≠ none ∧ 40000 ≤ s.now - x.trainAt
     (¬late → exec (.linkRetrainTimeout p) s = .next s) ∧
     (late → s.grp.role = 0 → ∃ t, exec (.linkRetrainTimeout p) s = .next t ∧ (gport t p).st = .lost ∧ bit (rd t 0x0C04) 2 = true ∧
       bit (rd t 0x0E04) 0 = true ∧ gport t q = gport s q)) ∧
    (let late := grouped s = true ∧ x.st = .training ∧ s.pwr.st ≠ 2 ∧ 2000000 ≤ s.now - x.trainAt
     (¬late → exec (.standbyRetrainTimeout p) s = .next s) ∧
     (late → s.grp.role = 1 → s.frm.comp = none → s.grp.members = BitVec.ofNat 4 (2 ^ ownPos s + 2 ^ peerPos s p) →
       ∃ t, exec (.standbyRetrainTimeout p) s = .next t ∧ t.grp.role = 0 ∧ t.grp.members = 0 ∧ bit (rd t 0x0C04) 3 = true ∧
         bit (rd t 0x0E04) 0 = true ∧ t.ang.count48 = s.ang.count48)) ∧
    (x.st ≠ .up ∨ x.expSeq ≠ seq.toNat → ∀ fp words last ph n d c pos co it cause m,
      ∀ i ∈ ([.arrayFrame p seq m, .macroFrame p seq fp words last, .angleFrame p seq ph n d c, .heartbeat p seq pos co,
        .ckptBlock p seq it, .memberFaultFrame p seq pos cause, .takeoverFrame p seq pos, .quiesceFrame p seq] : List Instr),
        exec i s = .next s)

/-- The frames that a formed group exchanges (R549 to R552, R554, R558 to R565, R572, R578): the member's clock, queue and programs follow
the leader's; faults, verdicts, heartbeats and checkpoints are taken up; a leader that another one displaces retires. -/
def Obligations.GroupFrames : Prop :=
  ∀ (s : State) (p : Fin 2) (seq : Byte), twf 0 s.regs = true → (gport s p).st = .up → (gport s p).expSeq = seq.toNat →
    let u := setGport s p { gport s p with expSeq := (seq.toNat + 1) % 256 }
    let isMember := 2 ≤ s.grp.role
    (∀ crc : Word,
      let mine := crc32 (tget [] s.grp.rx p)
      (crc = mine → exec (.arrayFrame p seq (.check crc)) s = .next u) ∧
      (crc ≠ mine → s.grp.role = 1 →
        exec (.arrayFrame p seq (.check crc)) s = .next { u with grp := { u.grp with verdict := some false } })) ∧
    (s.grp.role = 1 → exec (.arrayFrame p seq .report) s = .next { u with grp := { u.grp with verdict := some false } }) ∧
    (∀ r, isMember → exec (.arrayFrame p seq (.verdict r)) s = .next { u with grp := { u.grp with verdict := some (!r) } }) ∧
    (∀ (fp : Fin 16) (words : List Word),
      (∀ k, isMember → s.frm.comp = some k → k.fp = fp.val → k.handlerDone = false →
        exec (.macroFrame p seq fp words false) s = .next { u with arr := { u.arr with queue := s.arr.queue ++ words } }) ∧
      (∀ f rest, isMember → s.frm.comp = none → s.frm.drained = true → s.frm.drainChk = false → s.frm.frames = [f] ++ rest →
        f.st = .closed → (∀ g ∈ rest, g.st = .posting ∨ g.st = .drained ∧ g.count ≠ f.count) → s.pwr.arrClk = 200 →
        ∃ t, exec (.macroFrame p seq fp words false) s = .next t ∧
          t.frm.comp = some { fp := fp.val, count := f.count, fault := none, fromClock := false, handlerDone := false } ∧
          t.frm.drained = false ∧ t.arr.queue = words ∧ t.arr.allow = (prog s fp.val).mGrp ∧ t.arr.pp = [] ∧
          t.arr.planes = s.arr.planes ∧ t.cnd = s.cnd ∧ t.regs = s.regs) ∧
      (¬isMember → ∀ last, exec (.macroFrame p seq fp words last) s = .next u)) ∧
    (∀ (phase n d : Nat) (c : BitVec 48), isMember → angSrc s = 4 → 0 < d → phase ≤ 1048576 →
      ∃ t, exec (.angleFrame p seq phase n d c) s = .next t ∧ (t.ang.rateN, t.ang.rateD) = (n, d) ∧ t.grp.lastAng = s.now ∧
        (s.ang.st ≠ .acquiring → t.ang.st = s.ang.st) ∧ (s.ang.st = .acquiring → t.ang.st = .locked) ∧
        (s.ang.frameOpen = true → c = s.ang.count48 → s.ang.phase < phase → t.ang.phase = min phase closeAngle) ∧
        (s.ang.frameOpen = true → c ≠ s.ang.count48 ∨ phase ≤ s.ang.phase → t.ang.phase = s.ang.phase) ∧
        t.ang.pos = s.ang.pos ∧ t.ang.frameOpen = s.ang.frameOpen ∧ { t with ang := s.ang, grp := { t.grp with lastAng := s.grp.lastAng } } = u) ∧
    (∀ (pos : Fin 4),
      (s.grp.role = 1 → exec (.heartbeat p seq pos false) s =
        .next { u with grp := { u.grp with heard := tput u.grp.heard pos s.now } }) ∧
      (isMember → pos.val = s.grp.leadPos → pos.val = ownPos s ^^^ (if p = 0 then 1 else 2) → ∀ co, ∃ t,
        exec (.heartbeat p seq pos co) s = .next t ∧ tget 0 t.grp.heard pos = s.now ∧ t.grp.quiesced = false ∧
        (gport t p).unacked = (gport s p).unacked ++ [((gport s p).sendSeq, 4)] ∧ { t with grp := s.grp } = s)) ∧
    (∀ (item : CkptItem), s.grp.role = 2 →
      let i := ckptTarget s
      let x := ckptSlot s i
      ∃ t, exec (.ckptBlock p seq item) s = .next t ∧ ckptSlot t (1 - i) = ckptSlot s (1 - i) ∧ t.cnd = s.cnd ∧ t.prt = s.prt ∧
        (∀ b d, item = .block b d → ckptSlot t i = { x with sealed_ := false, blocks := tput x.blocks b d } ∧ t.regs = s.regs) ∧
        (∀ c, item = .control c → ckptSlot t i = { x with sealed_ := false, ctl := some c } ∧ t.regs = s.regs) ∧
        (∀ num c n, item = .commit num c n true → x.ctl.isSome = true →
          ckptSlot t i = { x with sealed_ := true, num := num, count := c } ∧ t.grp.lastSlot = i ∧ t.regs = s.regs) ∧
        (∀ num c n, item = .commit num c n false → (ckptSlot t i).sealed_ = false ∧ rd t 0x0C04 = rd s 0x0C04 ||| 0x40)) ∧
    (∀ (pos : Fin 4) (cause : Byte),
      (∀ k, s.grp.role = 1 → s.frm.comp = some k → unanswered s k → ∃ t, exec (.memberFaultFrame p seq pos cause) s = .next t ∧
        CompEnded k 0x21 13 t ∧ bit (rd t 0x0C04) 7 = true ∧ bit (rd t 0x0E04) 2 = true) ∧
      (∀ k, isMember → s.frm.comp = some k → unanswered s k → ∃ t, exec (.memberFaultFrame p seq pos cause) s = .next t ∧
        CompEnded k 0x21 13 t ∧ rd t 0x0C04 = rd s 0x0C04) ∧
      (s.frm.comp = none → exec (.memberFaultFrame p seq pos cause) s = .next u)) ∧
    (∀ pos : Fin 4,
      (s.grp.role = 1 → s.grp.retired = false → ∃ t, exec (.takeoverFrame p seq pos) s = .next t ∧ t.grp.retired = true ∧
        t.grp.role = 1 ∧ t.frm.comp = none ∧ bit (rd t 0x0C04) 8 = true ∧ bit (rd t 0x0E04) 4 = true) ∧
      (isMember → ∃ t, exec (.takeoverFrame p seq pos) s = .next t ∧ t.grp.leadPos = pos.val ∧
        t.grp.members = s.grp.members &&& ~~~(BitVec.ofNat 4 (2 ^ s.grp.leadPos)) ∧ tget 0 t.grp.heard pos = s.now ∧
        (t.grp.role = 2 ↔ t.grp.stbyPos = some (ownPos s)) ∧ (t.grp.role = 2 ∨ t.grp.role = 3) ∧ { t with grp := s.grp } = s)) ∧
    (isMember → ∃ t, exec (.quiesceFrame p seq) s = .next t ∧ t.grp.quiesced = true ∧ (∀ q < 2, (gport t q).st = .down) ∧
      t.pwr.target = 2 ∧ t.pwr.pend = true ∧ t.pwr.st = s.pwr.st ∧ t.regs = s.regs ∧ t.prt = s.prt) ∧
    (¬isMember → exec (.quiesceFrame p seq) s = .next u)

/-- Boundaries, heartbeats and failures in a group (R550, R554, R565 to R575): SYNC gives a member its boundary and retires a leader that
did not drive it; the leader's heartbeat is due after 100 µs; a standby that hears nothing for T_to takes over from its newest sealed
slot; a chip that is left, or leaves, is solo with the group's count. -/
def Obligations.GroupSupervision : Prop :=
  ∀ (s : State), twf 0 s.regs = true →
    let isMember := 2 ≤ s.grp.role
    let dueAt := max 200000 (8 * (rd s 0x024C).toNat)
    let silent := s.now - max (tget 0 s.grp.heard s.grp.leadPos) (tget 0 s.grp.heard 4)
    let solo := fun (t : State) => t.grp.role = 0 ∧ t.grp.members = 0 ∧ t.grp.ports = [] ∧ t.ang.count48 = s.ang.count48 ∧
      rd t 0x0200 = s.grp.src ∧ (bit s.grp.src 3 = true → s.pwr.st ≠ 2 → t.ang.st = .acquiring)
    (s.grp.role = 0 → ∀ upd, exec (.syncPulse upd) s = .next s) ∧
    (s.grp.role = 1 → s.grp.retired = false → ∀ upd, ∃ t, exec (.syncPulse upd) s = .next t ∧ t.grp.retired = true ∧
      t.frm.comp = none ∧ bit (rd t 0x0C04) 8 = true ∧ bit (rd t 0x0E04) 4 = true) ∧
    (isMember → s.pwr.st = 2 →
      exec (.syncPulse none) s = .next { s with grp := { s.grp with heard := tput s.grp.heard 4 s.now } }) ∧
    (∀ f rest, isMember → s.pwr.st = 0 → s.ang.frameOpen = true → s.ang.anyOpened = true → s.ang.st = .locked → angSrc s = 4 → angEn s = true →
      s.prt.changes = [] → s.prt.opens = [] → s.scb.repaired = [] → s.smp.lanes = [] → s.grp.forming = false → s.pwr.pend = false →
      s.frm.frames = f :: rest → f.st = .ingesting → f.count = s.ang.count48 → (∀ g ∈ rest, g.st = .drained) →
      ∃ t, exec (.syncPulse none) s = .next t ∧ t.ang.count48 = s.ang.count48 + 1 ∧ t.ang.phase = 0 ∧ t.ang.frameOpen = true ∧
        t.ang.st = .locked ∧ tget 0 t.grp.heard 4 = s.now) ∧
    (s.grp.role = 1 → s.grp.retired = false → s.grp.quiesced = false →
      (20000 ≤ s.now - s.grp.sentAt → ∃ t, exec .heartbeatTimer s = .next t ∧ t.grp.sentAt = s.now ∧
        (∀ p < 2, (gport s p).st = .up → (gport t p).unacked = (gport s p).unacked ++ [((gport s p).sendSeq, 4)]) ∧
        (∀ p < 2, (gport s p).st ≠ .up → gport t p = gport s p) ∧ { t with grp := s.grp } = s) ∧
      (s.now - s.grp.sentAt < 20000 → exec .heartbeatTimer s = .next s)) ∧
    (s.grp.role ≠ 1 → exec .heartbeatTimer s = .next s) ∧
    (let late := isMember ∧ angSrc s = 4 ∧ s.pwr.st ≠ 2 ∧ 2048 ≤ s.now - s.grp.lastAng
     (late → s.ang.st = .locked → ∃ t, exec .angleFrameLoss s = .next t ∧ t.ang.st = .coasting ∧ t.ang.phase = s.ang.phase ∧
       (t.ang.rateN, t.ang.rateD) = (s.ang.rateN, s.ang.rateD) ∧ t.ang.count48 = s.ang.count48 ∧ t.ang.coasted = true ∧
       rd t 0x0208 = rd s 0x0208 ||| 4 ∧ (∀ r, r ≠ 0x0208 → rd t r = rd s r) ∧ t.grp = s.grp ∧ t.prt = s.prt) ∧
     (¬late → exec .angleFrameLoss s = .next s)) ∧
    (s.grp.quiesced = true ∨ s.pwr.st = 2 ∨ s.grp.role < 2 ∨ silent < dueAt → exec .leaderTimeout s = .next s) ∧
    (s.grp.quiesced = false → s.pwr.st ≠ 2 → s.frm.comp = none →
      (s.grp.role = 2 → dueAt ≤ silent → bestSlot s = none → s.ang.frameOpen = false →
        ∃ t, exec .leaderTimeout s = .next t ∧ solo t) ∧
      (∀ x c, s.grp.role = 2 → dueAt ≤ silent → bestSlot s = some (x, c) →
        let m := s.grp.members &&& ~~~(BitVec.ofNat 4 (2 ^ s.grp.leadPos))
        2 ≤ (memberList m).length → c.prt.opens = [] → c.frames = [] → s.ang.frameOpen = true → s.grp.shLock = true →
        x.count + 1 = s.ang.count48 → ∃ t, exec .leaderTimeout s = .next t ∧ t.grp.role = 1 ∧ t.grp.leadPos = ownPos s ∧
          t.grp.members = m ∧ t.ang.st = .locked ∧ t.ang.count48 = s.ang.count48 ∧ t.frm.progs = c.progs ∧ t.prt.stamp = c.prt.stamp ∧
          t.prt.sqHead = c.prt.sqHead ∧ t.prt.sqTail = c.prt.sqTail ∧ t.prt.mbx = s.prt.mbx ∧
          (let n := tget 0 c.prt.rqTail 0
           tget [] c.prt.hold 0 = [] → (n + 65536 - tget 0 c.prt.rqHead 0) % 65536 < rqDepth s 0 → Memory.wf 0 s.cnd.mem = true →
             tget 0 t.prt.rqTail 0 = (n + 1) % 65536 ∧ rdMem t (rqAddr s 0 n) = 2) ∧
          bit (rd t 0x0C04) 4 = true ∧ bit (rd t 0x0E04) 3 = true ∧ rd t 0x0C1C = BitVec.ofNat 32 s.ang.count48.toNat ∧
          (∀ b d, tfind x.blocks b = some d → d.length = 128 → (∀ b' d', (b', d') ∈ x.blocks → b' ≠ b → d'.length = 128 ∧ b' < 1792) →
            1024 ≤ b → b < 1792 → x.blocks.Pairwise (fun y z => y.1 < z.1) → Memory.wf 0 s.cnd.mem = true →
            rdBytes t (0x10008000 + 128 * (b - 1024)) 128 = d)) ∧
      (s.grp.role = 3 → 2 * dueAt ≤ silent → s.ang.frameOpen = false → ∃ t, exec .leaderTimeout s = .next t ∧ solo t)) ∧
    (∀ pos : Fin 4,
      let due := s.grp.role = 1 ∧ s.grp.quiesced = false ∧ s.grp.retired = false ∧ dueAt ≤ s.now - tget 0 s.grp.heard pos
      let m := s.grp.members &&& ~~~(BitVec.ofNat 4 (2 ^ pos.val))
      (¬due → exec (.memberLossTimeout pos) s = .next s) ∧
      (due → s.grp.members.getLsbD pos = true → pos.val ≠ ownPos s → s.frm.comp = none → ∃ t, exec (.memberLossTimeout pos) s = .next t ∧
        bit (rd t 0x0C04) 3 = true ∧ t.ang.count48 = s.ang.count48 ∧
        ((memberList m).length ≤ 1 → t.grp.role = 0 ∧ t.grp.ports = []) ∧
        (2 ≤ (memberList m).length → t.grp.role = 1 ∧ t.grp.members = m)) ∧
      (∀ k, due → s.grp.members.getLsbD pos = true → pos.val ≠ ownPos s → s.frm.comp = some k → unanswered s k →
        ∃ t, exec (.memberLossTimeout pos) s = .next t ∧ CompEnded k 0x21 13 t))

/-- Trace entries leave the merge queue in order (R581, R584, R585, R592): the front entry is written at its partition's next place of its
own circular buffer, no other place and no other partition's unit is touched, and a partition's lost entries are reported, TIME first
where it is due, once there is room. The two stop schemes (R593 to R596): while RUN is 0 the sequencer does nothing; in S0 to S2 it
counts and moves by the events of the cycle, EVA before EVB, reloads on entry, and in S3 stops its channels or triggers the post-trigger
scheme; the event ALWAYS triggers in any cycle; a count in microseconds stops the post-trigger channels when it has run out. -/
def Obligations.TraceQueueAndStopSchemes : Prop :=
  (∀ (s : State), twf 0 s.trc.buf = true → s.trc.queue.length ≤ 16 →
     (s.trc.queue = [] → exec .traceQueueWrite s = .next s) ∧
     ∀ p e rest, s.trc.queue = (p, e) :: rest →
       let x := trc s p
       let n := 256 * trcBlocks s p
       ∃ t, exec .traceQueueWrite s = .next t ∧ t = { s with trc := t.trc } ∧
         (n = 0 → t.trc.buf = s.trc.buf) ∧
         (n ≠ 0 → tget 0 t.trc.buf (256 * trcBase s p + x.wptr % n) = e ∧ (trc t p).wptr = (x.wptr + 1) % 2 ^ 32 ∧
           ∀ a, a ≠ 256 * trcBase s p + x.wptr % n → tget 0 t.trc.buf a = tget 0 s.trc.buf a) ∧
         ((∀ q < 4, (trc s q).lost = 0) → t.trc.queue = rest ∧ (∀ q, q ≠ p → trc t q = trc s q) ∧
           trc t p = if n = 0 then x else { x with wptr := (x.wptr + 1) % 2 ^ 32 }) ∧
         (p < 4 → x.lost ≠ 0 → x.triggered = false → (∀ q < 4, q ≠ p → (trc s q).lost = 0) → rest.length < 15 →
           let late := x.fresh = true ∨ 4096 ≤ refTime s - x.lastTime
           let lostE := fun (dt : Nat) => entryWord 0xF p dt (4 + x.lost * 16 + x.lostCh * 2 ^ 20)
           (late → t.trc.queue = rest ++ [(p, entryWord 1 p 0 (refTime s)), (p, lostE 0)]) ∧
           (¬late → t.trc.queue = rest ++ [(p, lostE (refTime s - x.lastTime))]) ∧
           (trc t p).lost = 0 ∧ (trc t p).lostCh = 0 ∧ (trc t p).lastTime = refTime s ∧ (trc t p).fresh = false)) ∧
  (∀ (s : State) (p : Fin 4),
     let x := trc s p
     let ctl := rd s (trcReg p 0)
     let code := fld (tget 0 x.ctl 8) 0 5
     let w := tget 0 x.ctl (0x10 + 4 * x.seqSt)
     let cnt := tget 0 x.ctl 0x1C
     let ev := fun (c : Nat) => c ≠ 0 ∧ (c = 15 ∨ c ∈ x.events)
     let post := tget 0 x.ctl 0x0C
     let i := Instr.traceSequencerStep p
     let d0 := ev (fld w 20 5) ∧ fld w 18 2 % 2 = 1
     let d1 := ev (fld w 20 5) ∧ 2 ≤ fld w 18 2
     -- the counters and the events of the next cycle
     let counted := fun (t : State) (ca : Nat) =>
       (trc t p).c0 = (if ca % 2 = 1 then fld cnt 0 16 else if ev (fld w 20 5) ∧ fld w 18 2 % 2 = 1 then x.c0 - 1 else x.c0) ∧
       (trc t p).c1 = (if 2 ≤ ca then fld cnt 16 16 else if ev (fld w 20 5) ∧ 2 ≤ fld w 18 2 then x.c1 - 1 else x.c1) ∧
       (∀ c, c ∈ (trc t p).events ↔ c = 12 ∧ d0 ∧ x.c0 = 1 ∨ c = 13 ∧ d1 ∧ x.c1 = 1)
     let goes := fun (n : Nat) =>
       ev (fld w 0 5) ∧ n = fld w 5 2 ∨ ¬ev (fld w 0 5) ∧ ev (fld w 8 5) ∧ n = fld w 13 2
     (bit ctl 0 = false → exec i s = .next s) ∧
     (bit ctl 0 = true → ¬(code = 15 ∨ (code = 12 ∨ code = 13) ∧ code ∈ x.events) →
       (bit ctl 10 = false ∨ 3 ≤ x.seqSt → exec i s = .next (setTrc s p { x with events := [] })) ∧
       (bit ctl 10 = true → x.seqSt < 3 →
         (¬ev (fld w 0 5) → ¬ev (fld w 8 5) → ∃ t, exec i s = .next t ∧ TraceOf p s t ∧ t.trc.queue = s.trc.queue ∧ counted t 0 ∧
           trc t p = { x with c0 := (trc t p).c0, c1 := (trc t p).c1, events := (trc t p).events }) ∧
         (∀ n < 3, goes n → ∃ t, exec i s = .next t ∧ TraceOf p s t ∧ t.trc.queue = s.trc.queue ∧
           counted t (fld (tget 0 x.ctl (0x10 + 4 * n)) 16 2) ∧ trc t p =
             { x with c0 := (trc t p).c0, c1 := (trc t p).c1, events := (trc t p).events, seqSt := n }) ∧
         (goes 3 → ∃ t, exec i s = .next t ∧ TraceOf p s t ∧ counted t 0 ∧ (trc t p).seqSt = 3 ∧
           (bit ctl 9 = false → (trc t p).stopSeq = true ∧ Stops p (seqMask s p) 2 s t) ∧
           (bit ctl 9 = true → ∃ u, u = setTrc s p { x with seqSt := 3, c0 := (trc t p).c0, c1 := (trc t p).c1, events := (trc t p).events } ∧
             Triggered p (if ev (fld w 0 5) then fld w 0 5 else fld w 8 5) 1 u t)))) ∧
     (bit ctl 0 = true → code = 15 ∨ (code = 12 ∨ code = 13) ∧ code ∈ x.events → bit ctl 10 = false →
       ∃ u t, exec i s = .next t ∧ Triggered p code 0 s u ∧ t = setTrc u p { trc u p with events := [] }) ∧
     (x.triggered = true → x.stopPost = false → bit post 16 = true → 200 * fld post 0 16 ≤ s.now - x.trigAt →
       ∃ t, exec (.tracePostTimeout p) s = .next t ∧ TraceOf p s t ∧ (trc t p).stopPost = true ∧ (trc t p).triggered = true ∧
         Stops p (~~~(seqMask s p)) 1 s t) ∧
     (x.triggered = false ∨ x.stopPost = true ∨ bit post 16 = false ∨ s.now - x.trigAt < 200 * fld post 0 16 →
       exec (.tracePostTimeout p) s = .next s))

/-- Writes of the trace control registers (R17, R18, R582, R593, R596 to R598): RUN at 1 latches the control registers and starts the
enabled channels, or sets CFGERR where the partition has no blocks; RUN at 0 stops them; CLEAR empties the buffer while RUN is 0; FORCE
raises event 14; an allocation is taken only where the set stays valid, and clears the blocks that it moves. -/
def Obligations.TraceControlWrites : Prop :=
  ∀ (s : State) (p : Fin 4) (v : Word), twf 0 s.regs = true → twf 0 s.trc.buf = true →
    let r := trcReg p 0
    let x := trc s p
    let run := bit (rd s r) 0
    let lo := 256 * trcBase s p
    let hi := lo + 256 * trcBlocks s p
    -- the state after the reserved bits of the value
    let u := fun (v : Word) => if v &&& ~~~0x3FFF = 0 then s else reservedField s r 0
    -- the buffer after CLEAR
    let cleared := fun (v : Word) (t : State) =>
      (∀ a, lo ≤ a → a < hi → bit v 12 = true → run = false → tget 0 t.trc.buf a = 0) ∧
      (∀ a, a < lo ∨ hi ≤ a ∨ bit v 12 = false ∨ run = true → tget 0 t.trc.buf a = tget 0 s.trc.buf a) ∧
      (trc t p).wptr = if bit v 12 = true ∧ run = false then 0 else x.wptr
    let rearmed := fun (v : Word) (t : State) =>
      t = { u v with regs := t.regs, trc := t.trc } ∧ rd t r = v &&& 0x0FFF ∧ (∀ a, a ≠ r → rd t a = rd (u v) a) ∧ cleared v t ∧
        (∀ i < 8, tget 0 (trc t p).ctl (4 * i + 4) = rd s (trcReg p (4 * i + 4))) ∧ (trc t p).triggered = false ∧
        (trc t p).stopPost = false ∧ (trc t p).stopSeq = false ∧ (trc t p).seqSt = 0 ∧
        (trc t p).c0 = fld (rd s (trcReg p 0x1C)) 0 16 ∧ (trc t p).c1 = fld (rd s (trcReg p 0x1C)) 16 16 ∧
        (trc t p).rec_ = BitVec.ofNat 4 (fld v 1 4) ∧ (trc t p).fresh = true ∧ Wrote p 0xF 1 s t ∧
        (∀ q, q ≠ p.val → trc t q = trc s q) ∧
        ∃ es, t.trc.queue = s.trc.queue ++ es ∧ ∀ e ∈ es, e.1 = p.val
    let refused := fun (v : Word) (t : State) => ∃ c, cleared v c ∧ c = { u v with trc := c.trc } ∧ t = setFlag c 0x0D04 0
    let stopped := fun (v : Word) (t : State) =>
      t = { u v with regs := t.regs, trc := t.trc } ∧ rd t r = v &&& 0x0FFF ∧ (∀ a, a ≠ r → rd t a = rd (u v) a) ∧ cleared v t ∧
        (trc t p).rec_ = 0 ∧ (x.rec_ ≠ 0 → Wrote p 0xF (27 + 256 * x.rec_.toNat) s t) ∧ (∀ q, q ≠ p.val → trc t q = trc s q) ∧
        ∃ es, t.trc.queue = s.trc.queue ++ es ∧ ∀ e ∈ es, e.1 = p.val
    -- a write with RUN at 1 or 0
    let wrote := fun (v : Word) (t : State) =>
      if bit v 0 = true then (if trcBlocks s p = 0 then refused v t else rearmed v t) else stopped v t
    let forced := fun (t0 t : State) =>
      if bit (rd t0 r) 0 = false then t = t0
      else
        let t1 := setTrc t0 p { trc t0 p with events := (trc t0 p).events ++ [14] }
        if fld (tget 0 (trc t0 p).ctl 8) 0 5 = 14 then Triggered p 14 0 t1 t else t = t1
    let does := fun (i : Instr) (v : Word) =>
      (bit v 13 = false → ∃ t, exec i s = .next t ∧ wrote v t) ∧
      (bit v 13 = true → ∃ t0 t, exec i s = .next t ∧ wrote v t0 ∧ forced t0 t)
    does (.traceRearm p v) (v ||| 1) ∧ does (.traceRunStop p v) (v &&& ~~~1) ∧ does (.traceClear p v) (v ||| 0x1000) ∧
      does (.traceForce p v) (v ||| 0x2000) ∧
    (let a := 0x0D10 + 4 * p.val
     let w := v &&& 0x1FF
     let i := Instr.traceAllocWrite p v
     let s1 := if v &&& ~~~0x1FF = 0 then s else reservedField s a 0
     let now := fun (q : Nat) => if q = p.val then w else rd s (0x0D10 + 4 * q)
     let base := fun (q : Nat) => fld (now q) 0 4
     let top := fun (q : Nat) => fld (now q) 0 4 + fld (now q) 4 5
     let valid := (∀ q < 4, top q ≤ 16) ∧ ∀ q q', q < 4 → q' < 4 → q ≠ q' → base q < top q → base q' < top q' →
        top q ≤ base q' ∨ top q' ≤ base q
     (16 < fld w 4 5 → exec i s = .next (reservedField s1 a 0)) ∧
     (fld w 4 5 ≤ 16 → ¬valid ∨ run = true ∧ rd s a ≠ w → exec i s = .next (setFlag s1 0x0D04 0)) ∧
     (fld w 4 5 ≤ 16 → valid → rd s a = w → exec i s = .next s1) ∧
     (fld w 4 5 ≤ 16 → valid → run = false → rd s a ≠ w → ∃ t, exec i s = .next t ∧ t = { s1 with regs := t.regs, trc := t.trc } ∧
       rd t a = w ∧ (∀ q, q ≠ a → rd t q = rd s1 q) ∧ trc t p = { x with wptr := 0 } ∧ (∀ q, q ≠ p.val → trc t q = trc s q) ∧
       t.trc.queue = s.trc.queue ∧
       ∀ k, tget 0 t.trc.buf k =
         (let b := k / 256
          let old := decide (lo ≤ k) && decide (k < hi)
          let new := decide (base p ≤ b) && decide (b < top p)
          if b < 16 ∧ old ≠ new then 0 else tget 0 s.trc.buf k)))

/-- The JTAG port (R689, R690, IEEE 1149.1): TRST_N low, or five cycles with TMS at 1, resets the TAP to IDCODE; Capture-DR loads the pins,
the identifier 0x0C164B01 or the bypass bit; a shift moves one bit from TDI towards TDO; Update-IR takes the instruction; a repeated
edge does nothing, and no edge changes anything but the port. The TAP's states are taken from IEEE 1149.1, the captured upper bits of
the instruction register are a free value. -/
def Obligations.JtagPort : Prop :=
  ∀ (s : State) (tms tdi : Bool) (pins : List Bool),
    let j := s.jtag
    let up := fun (s : State) (tms : Bool) => exec (.jtagTckEdge true tms tdi pins) s
    let down := fun (s : State) => exec (.jtagTckEdge false tms tdi pins) s
    let jt := fun (s : State) (j : Jtag) => { s with jtag := j }
    let ident : BitVec 32 := 0x0C164B01
    (exec .trstNAssert s = .next (jt s { j with tap := .reset, ir := 0x02 })) ∧
    (j.tck = true → up s tms = .next s) ∧ (j.tck = false → down s = .next s) ∧
    (j.tck = false →
      (j.tap = .capDr → ∃ t, up s tms = .next t ∧ 
        t = jt s { j with tck := true, tap := if tms then .ex1Dr else .shDr, dr := t.jtag.dr } ∧
        (j.ir = 0x00 ∨ j.ir = 0x01 → t.jtag.dr = pins) ∧
        (j.ir = 0x02 → t.jtag.dr.length = 32 ∧ ∀ i < 32, t.jtag.dr[i]? = some (ident.getLsbD i)) ∧
        (j.ir ≠ 0x00 → j.ir ≠ 0x01 → j.ir ≠ 0x02 → t.jtag.dr = [false])) ∧
      (j.tap = .shDr → up s tms = .next (jt s { j with
        tck := true, tap := if tms then .ex1Dr else .shDr, dr := j.dr.drop 1 ++ [tdi] })) ∧
      (j.tap = .shIr → up s tms = .next (jt s { j with
        tck := true, tap := if tms then .ex1Ir else .shIr, irSh := (j.irSh >>> 1) ||| (if tdi then 0x80 else 0) })) ∧
      (j.tap = .capIr → ∃ t, up s tms = .next t ∧ t.jtag.irSh &&& 3 = 1 ∧ t = { s with
        free := s.free + 1, jtag := { j with tck := true, tap := if tms then .ex1Ir else .shIr, irSh := t.jtag.irSh } }) ∧
      -- the other states of the TAP, and where TMS at 1 and at 0 leads
      (∀ row ∈ ([(.reset, .reset, .idle), (.idle, .selDr, .idle), (.selDr, .selIr, .capDr), (.ex1Dr, .updDr, .pauDr),
          (.pauDr, .ex2Dr, .pauDr), (.ex2Dr, .updDr, .shDr), (.updDr, .selDr, .idle), (.selIr, .reset, .capIr),
          (.ex1Ir, .updIr, .pauIr), (.pauIr, .ex2Ir, .pauIr), (.ex2Ir, .updIr, .shIr), (.updIr, .selDr, .idle)] :
            List (Tap × Tap × Tap)), j.tap = row.1 →
        let n := if tms then row.2.1 else row.2.2
        up s tms = .next (jt s { j with tck := true, tap := n, ir := if n = .reset then 0x02 else j.ir }))) ∧
    (j.tck = true →
      (j.tap = .updIr → down s = .next (jt s { j with tck := false, ir := j.irSh })) ∧
      (j.tap = .updDr → down s = .next (jt s { j with
        tck := false, upd := if j.ir = 0x00 ∨ j.ir = 0x01 then j.dr else j.upd })) ∧
      (j.tap = .shDr → down s = .next (jt s { j with tck := false, tdo := j.dr.head?.getD false })) ∧
      (j.tap = .shIr → down s = .next (jt s { j with tck := false, tdo := j.irSh.getLsbD 0 })) ∧
      (j.tap ∉ [.updIr, .updDr, .shDr, .shIr] → down s = .next (jt s { j with tck := false }))) ∧
    -- five cycles with TMS at 1, from any state of the TAP
    (j.tck = false → ∃ a a' b b' c c' d d' e, up s true = .next a ∧ down a = .next a' ∧ up a' true = .next b ∧ down b = .next b' ∧
      up b' true = .next c ∧ down c = .next c' ∧ up c' true = .next d ∧ down d = .next d' ∧ up d' true = .next e ∧
      e.jtag.tap = .reset ∧ e.jtag.ir = 0x02)

/-- An invariant that every step keeps: the register bank and every memory stay in canonical form, and the log ring and the trace merge
queue never hold more than their 16 entries (R592, R614). -/
def Obligations.EveryStepKeepsSound : Prop :=
  ∀ (s t : State), Sound s → step s = .next t → Sound t

/-- Every command completes: a step takes exactly the front command off the queue and never faults or refuses, whatever the state, and no
command reaches the stepping, the authentication fuse, the key digests or FACTORY_USES (R630, R651). -/
def Obligations.EveryStepTakesOneCommand : Prop :=
  ∀ (s : State),
    (s.pending = [] → step s = .next s) ∧
    (∀ c cs, s.pending = c :: cs → ∃ t, step s = .next t ∧ t.pending = cs ∧ fuses t = fuses s)

/-- The state after reset meets the invariant of every step. -/
def Obligations.ResetIsSound : Prop := Sound State.reset
end

