-- ==== Sys2Proof/Laws/Table.lean ====
section
/-! SUPPORT. The sparse tables: what a read gives after a write, and that every operation keeps the canonical form. -/

namespace Sys2Proof.Machine

open Sys2Proof

variable {α : Type}

theorem tfind_tput (t : Tbl α) (k j : Nat) (v : α) : tfind (tput t k v) j = if k = j then some v else tfind t j := by
  induction t with
  | nil => simp [tput, tfind]
  | cons e t ih =>
    obtain ⟨i, w⟩ := e
    simp only [tput]
    split
    · subst_vars
      by_cases h : i = j <;> simp [tfind, h]
    · split
      · by_cases h : k = j <;> simp [tfind, h]
      · by_cases h : i = j
        · simp only [tfind, h, if_true]
          split
          · omega
          · rfl
        · simp [tfind, h, ih]

/-- A key reads what was put there, and every other key reads as before. -/
theorem tget_tput (d : α) (t : Tbl α) (k j : Nat) (v : α) : tget d (tput t k v) j = if k = j then v else tget d t j := by
  simp only [tget, tfind_tput]
  split <;> rfl

theorem tfind_tdel_ne (t : Tbl α) {k j : Nat} (h : k ≠ j) : tfind (tdel t k) j = tfind t j := by
  induction t with
  | nil => rfl
  | cons e t ih =>
    obtain ⟨i, w⟩ := e
    simp only [tdel]
    split
    · subst_vars
      simp [tfind, h]
    · split
      · rfl
      · simp [tfind, ih]

/-- Deleting a key leaves every other key. -/
theorem tget_tdel_ne (d : α) (t : Tbl α) {k j : Nat} (h : k ≠ j) : tget d (tdel t k) j = tget d t j := by
  simp only [tget, tfind_tdel_ne t h]

variable [DecidableEq α]

/-- A canonical write leaves every other key. -/
theorem tget_tset_ne (d : α) (t : Tbl α) {k j : Nat} (v : α) (h : k ≠ j) : tget d (tset d t k v) j = tget d t j := by
  unfold tset
  split
  · exact tget_tdel_ne d t h
  · simp [tget_tput, h]

@[simp] theorem twf_nil (d : α) : twf d [] = true := rfl

theorem twfFrom_mono (d : α) {lo lo' : Nat} {t : Tbl α} (h : lo' ≤ lo) (w : twfFrom d lo t = true) :
    twfFrom d lo' t = true := by
  cases t with
  | nil => rfl
  | cons e t =>
    simp only [twfFrom, Bool.and_eq_true, decide_eq_true_eq] at w ⊢
    exact ⟨⟨h.trans w.1.1, w.1.2⟩, w.2⟩

theorem tfind_none_of_lt (d : α) {t : Tbl α} {lo k : Nat} (w : twfFrom d lo t = true) (h : k < lo) : tfind t k = none := by
  induction t generalizing lo with
  | nil => rfl
  | cons e t ih =>
    simp only [twfFrom, Bool.and_eq_true, decide_eq_true_eq] at w
    simp only [tfind]
    rw [if_neg (by omega)]
    exact ih w.2 (by omega)

/-- A deleted key reads the default in a canonical table. -/
theorem tget_tdel_self (d : α) {t : Tbl α} {lo k : Nat} (w : twfFrom d lo t = true) : tget d (tdel t k) k = d := by
  suffices h : tfind (tdel t k) k = none by simp [tget, h]
  induction t generalizing lo with
  | nil => rfl
  | cons e t ih =>
    obtain ⟨i, x⟩ := e
    simp only [twfFrom, Bool.and_eq_true, decide_eq_true_eq] at w
    simp only [tdel]
    split
    · subst_vars
      exact tfind_none_of_lt d w.2 (Nat.lt_succ_self _)
    · split
      · simp only [tfind]
        rw [if_neg (by assumption)]
        exact tfind_none_of_lt d w.2 (by omega)
      · simp only [tfind]
        rw [if_neg (by assumption)]
        exact ih w.2

/-- A key of a canonical table reads what was written there. -/
theorem tget_tset_self (d : α) {t : Tbl α} {k : Nat} (v : α) (w : twf d t = true) : tget d (tset d t k v) k = v := by
  unfold tset
  split
  · rename_i h
    rw [tget_tdel_self d w, h]
  · simp [tget_tput]

theorem twfFrom_tput (d : α) {t : Tbl α} {lo k : Nat} {v : α} (w : twfFrom d lo t = true) (hk : lo ≤ k) (hv : v ≠ d) :
    twfFrom d lo (tput t k v) = true := by
  induction t generalizing lo with
  | nil => simp [tput, twfFrom, hk, hv]
  | cons e t ih =>
    obtain ⟨i, x⟩ := e
    simp only [twfFrom, Bool.and_eq_true, decide_eq_true_eq] at w
    simp only [tput]
    split
    · subst_vars
      simp only [twfFrom, Bool.and_eq_true, decide_eq_true_eq]
      exact ⟨⟨hk, hv⟩, w.2⟩
    · split
      · simp only [twfFrom, Bool.and_eq_true, decide_eq_true_eq]
        exact ⟨⟨hk, hv⟩, ⟨by omega, w.1.2⟩, w.2⟩
      · simp only [twfFrom, Bool.and_eq_true, decide_eq_true_eq]
        exact ⟨w.1, ih w.2 (by omega)⟩

theorem twfFrom_tdel (d : α) {t : Tbl α} {lo : Nat} (k : Nat) (w : twfFrom d lo t = true) :
    twfFrom d lo (tdel t k) = true := by
  induction t generalizing lo with
  | nil => rfl
  | cons e t ih =>
    obtain ⟨i, x⟩ := e
    simp only [twfFrom, Bool.and_eq_true, decide_eq_true_eq] at w
    simp only [tdel]
    split
    · exact twfFrom_mono d (by omega) w.2
    · split
      · simp only [twfFrom, Bool.and_eq_true, decide_eq_true_eq]
        exact w
      · simp only [twfFrom, Bool.and_eq_true, decide_eq_true_eq]
        exact ⟨w.1, ih w.2⟩

/-- A canonical write keeps the canonical form. -/
theorem twf_tset (d : α) {t : Tbl α} (k : Nat) (v : α) (w : twf d t = true) : twf d (tset d t k v) = true := by
  unfold tset
  split
  · exact twfFrom_tdel d k w
  · exact twfFrom_tput d w (Nat.zero_le k) (by assumption)

/-- Deleting a key keeps the canonical form. -/
theorem twf_tdel (d : α) {t : Tbl α} (k : Nat) (w : twf d t = true) : twf d (tdel t k) = true := twfFrom_tdel d k w

/-- Writing consecutive keys keeps the canonical form. -/
theorem twf_tsets (d : α) {t : Tbl α} (k : Nat) (vs : List α) (w : twf d t = true) : twf d (tsets d t k vs) = true := by
  induction vs generalizing t k with
  | nil => exact w
  | cons v vs ih => exact ih (k + 1) (twf_tset d k v w)

/-- Writing consecutive keys leaves every key outside them. -/
theorem tget_tsets_out (d : α) (t : Tbl α) (k : Nat) (vs : List α) {j : Nat} (h : j < k ∨ k + vs.length ≤ j) :
    tget d (tsets d t k vs) j = tget d t j := by
  induction vs generalizing t k with
  | nil => rfl
  | cons v vs ih =>
    simp only [List.length_cons] at h
    simp only [tsets]
    rw [ih (tset d t k v) (k + 1) (by omega), tget_tset_ne d t v (by omega)]

theorem twfFrom_filter (d : α) {t : Tbl α} {lo : Nat} (p : Nat × α → Bool) (w : twfFrom d lo t = true) :
    twfFrom d lo (t.filter p) = true := by
  induction t generalizing lo with
  | nil => rfl
  | cons e t ih =>
    simp only [twfFrom, Bool.and_eq_true, decide_eq_true_eq] at w
    simp only [List.filter_cons]
    split
    · simp only [twfFrom, Bool.and_eq_true, decide_eq_true_eq]
      exact ⟨w.1, ih w.2⟩
    · exact twfFrom_mono d (by omega) (ih w.2)

/-- Deleting entries keeps the canonical form. -/
theorem twf_filter (d : α) {t : Tbl α} (p : Nat × α → Bool) (w : twf d t = true) : twf d (t.filter p) = true :=
  twfFrom_filter d p w

/-- A fold whose every step keeps the canonical form keeps it. -/
theorem twf_foldl {β : Type} (d : α) {f : Tbl α → β → Tbl α} (l : List β) {t : Tbl α} (w : twf d t = true)
    (k : ∀ t b, twf d t = true → twf d (f t b) = true) : twf d (l.foldl f t) = true := by
  induction l generalizing t with
  | nil => exact w
  | cons b l ih => exact ih (k t b w)

/-- A list of canonical writes keeps the canonical form. -/
theorem twf_foldl_tset {β : Type} (d : α) (key : β → Nat) (val : Tbl α → β → α) (l : List β) {t : Tbl α}
    (w : twf d t = true) : twf d (l.foldl (fun t b => tset d t (key b) (val t b)) t) = true :=
  twf_foldl d l w (fun _ _ w => twf_tset d _ _ w)

end Sys2Proof.Machine
end

