-- ==== Sys2Proof/Laws/Conductor.lean ====
section
/-! SUPPORT. What the shared operations of the conductor do: time, delivery, tracing and error correction leave the programming
registers alone, and an instruction that runs clean has its effect on the state given. -/

namespace Sys2Proof.Machine

open Sys2Proof

-- one proof at a time: the whole package is checked as one text
set_option Elab.async false

theorem CndDone.refl (u : State) : CndDone u u := ⟨rfl, fun h => ⟨rfl, h⟩, fun _ _ _ => rfl, rfl⟩

theorem CndDone.trans {u v t : State} (h : CndDone u v) (g : CndDone v t) : CndDone u t where
  cnd := g.cnd.trans h.cnd
  mem := fun e => ⟨(g.mem (h.mem e).2).1.trans (h.mem e).1, (g.mem (h.mem e).2).2⟩
  regs := fun r a b => (g.regs r a b).trans (h.regs r a b)
  others := by
    have hg := g.others
    have hh := h.others
    rw [← hg] at hh
    exact hh

section fields

variable {u t : State} (h : CndDone u t)

include h

theorem CndDone.a : t.cnd.a = u.cnd.a :=
  (congrArg Cnd.a h.cnd : (still t.cnd).a = (still u.cnd).a)
theorem CndDone.d : t.cnd.d = u.cnd.d :=
  (congrArg Cnd.d h.cnd : (still t.cnd).d = (still u.cnd).d)
theorem CndDone.win : t.cnd.win = u.cnd.win :=
  (congrArg Cnd.win h.cnd : (still t.cnd).win = (still u.cnd).win)
theorem CndDone.k : t.cnd.k = u.cnd.k :=
  (congrArg Cnd.k h.cnd : (still t.cnd).k = (still u.cnd).k)
theorem CndDone.f : t.cnd.f = u.cnd.f :=
  (congrArg Cnd.f h.cnd : (still t.cnd).f = (still u.cnd).f)
theorem CndDone.pc : t.cnd.pc = u.cnd.pc :=
  (congrArg Cnd.pc h.cnd : (still t.cnd).pc = (still u.cnd).pc)
theorem CndDone.lc : t.cnd.lc = u.cnd.lc :=
  (congrArg Cnd.lc h.cnd : (still t.cnd).lc = (still u.cnd).lc)
theorem CndDone.wp : t.cnd.wp = u.cnd.wp :=
  (congrArg Cnd.wp h.cnd : (still t.cnd).wp = (still u.cnd).wp)
theorem CndDone.slim : t.cnd.slim = u.cnd.slim :=
  (congrArg Cnd.slim h.cnd : (still t.cnd).slim = (still u.cnd).slim)
theorem CndDone.cstat : t.cnd.cstat = u.cnd.cstat :=
  (congrArg Cnd.cstat h.cnd : (still t.cnd).cstat = (still u.cnd).cstat)
theorem CndDone.rep : t.cnd.rep = u.cnd.rep :=
  (congrArg Cnd.rep h.cnd : (still t.cnd).rep = (still u.cnd).rep)

theorem CndDone.aReg (i : Nat) : aReg t i = aReg u i := by rw [Machine.aReg, Machine.aReg, h.a]

theorem CndDone.winIx (i : Nat) : winIx t i = winIx u i := by rw [Machine.winIx, Machine.winIx, cwp, cwp, h.wp]

theorem CndDone.dReg (i : Nat) : dReg t i = dReg u i := by
  rw [Machine.dReg, Machine.dReg, h.d, h.win, h.winIx]

theorem CndDone.kReg (i : Nat) : kReg t i = kReg u i := by rw [Machine.kReg, Machine.kReg, h.k]

theorem CndDone.fReg (i : Nat) : fReg t i = fReg u i := by rw [Machine.fReg, Machine.fReg, h.f]

end fields

/-- The same change of the conductor's programming state on both sides. -/
theorem CndDone.modCnd {u t : State} (h : CndDone u t) {f g : Cnd → Cnd}
    (e : ∀ c d, still c = still d → still (g d) = still (f c))
    (m : ∀ c, (f c).mem = c.mem ∧ (f c).memErr = c.memErr ∧ (g c).mem = c.mem ∧ (g c).memErr = c.memErr) :
    CndDone (modCnd u f) (modCnd t g) where
  cnd := e u.cnd t.cnd h.cnd.symm
  mem := by
    obtain ⟨m1, m2, -, -⟩ := m u.cnd
    obtain ⟨-, -, m3, m4⟩ := m t.cnd
    intro z
    have := h.mem (m2.symm.trans z)
    exact ⟨m3.trans (this.1.trans m1.symm), m4.trans this.2⟩
  regs := h.regs
  others := by
    have o := h.others
    exact congrArg (fun x : State => { x with cnd := f u.cnd }) o

theorem CndDone.setA {u t : State} (h : CndDone u t) (i : Nat) (v : Word) : CndDone (setA u i v) (setA t i v) :=
  h.modCnd (fun c d e => by
    have := congrArg (fun x : Cnd => { x with a := x.a.setIfInBounds i v }) e
    exact this.symm) (fun _ => ⟨rfl, rfl, rfl, rfl⟩)

theorem CndDone.setD {u t : State} (h : CndDone u t) (i : Nat) (v : Word) : CndDone (setD u i v) (setD t i v) := by
  unfold Machine.setD
  split
  · exact h.modCnd (fun c d e => by
      have := congrArg (fun x : Cnd => { x with d := x.d.setIfInBounds i v }) e
      exact this.symm) (fun _ => ⟨rfl, rfl, rfl, rfl⟩)
  · rw [h.winIx]
    exact h.modCnd (fun c d e => by
      have := congrArg (fun x : Cnd => { x with win := x.win.setIfInBounds (Machine.winIx u i) v }) e
      exact this.symm) (fun _ => ⟨rfl, rfl, rfl, rfl⟩)

theorem CndDone.setDPair {u t : State} (h : CndDone u t) (i v : Nat) : CndDone (setDPair u i v) (setDPair t i v) :=
  (h.setD i _).setD (i + 1) _

theorem CndDone.setK {u t : State} (h : CndDone u t) (i : Nat) (v : BitVec 72) : CndDone (setK u i v) (setK t i v) :=
  h.modCnd (fun c d e => by
    have := congrArg (fun x : Cnd => { x with k := x.k.setIfInBounds i v }) e
    exact this.symm) (fun _ => ⟨rfl, rfl, rfl, rfl⟩)

theorem CndDone.setF {u t : State} (h : CndDone u t) (i : Nat) (v : DWord) : CndDone (setF u i v) (setF t i v) :=
  h.modCnd (fun c d e => by
    have := congrArg (fun x : Cnd => { x with f := x.f.setIfInBounds i v }) e
    exact this.symm) (fun _ => ⟨rfl, rfl, rfl, rfl⟩)

theorem CndDone.orCstat {u t : State} (h : CndDone u t) (v : Word) : CndDone (orCstat u v) (orCstat t v) :=
  h.modCnd (fun c d e => by
    have := congrArg (fun x : Cnd => { x with cstat := x.cstat ||| v }) e
    exact this.symm) (fun _ => ⟨rfl, rfl, rfl, rfl⟩)

theorem CndDone.goNext {u t : State} (h : CndDone u t) (n : Nat) : CndDone (goNext u n) (goNext t n) :=
  h.modCnd (fun c d e => by
    have r : c.rep = d.rep := (congrArg Cnd.rep e : (still c).rep = (still d).rep)
    have l : c.lc = d.lc := (congrArg Cnd.lc e : (still c).lc = (still d).lc)
    rw [← r, ← l]
    cases c.rep with
    | none =>
      have := congrArg (fun x : Cnd => { x with pc := x.pc + BitVec.ofNat 32 n, lc := c.lc, rep := none }) e
      exact this.symm
    | some y =>
      dsimp only
      split
      · have := congrArg (fun x : Cnd => { x with lc := 0, rep := none, pc := x.pc + BitVec.ofNat 32 n }) e
        exact this.symm
      · have := congrArg (fun x : Cnd => { x with lc := c.lc - 1, rep := some y }) e
        exact this.symm)
    (fun c => by
      cases c.rep with
      | none => exact ⟨rfl, rfl, rfl, rfl⟩
      | some x =>
        dsimp only
        split <;> exact ⟨rfl, rfl, rfl, rfl⟩)

/-- A change of the trace only. -/
def OnlyTrace (s t : State) : Prop := { t with trc := s.trc } = s

theorem OnlyTrace.refl (s : State) : OnlyTrace s s := rfl

theorem OnlyTrace.trans {s t u : State} (h : OnlyTrace s t) (g : OnlyTrace t u) : OnlyTrace s u := by
  have : { u with trc := s.trc } = { t with trc := s.trc } := congrArg (fun x : State => { x with trc := s.trc }) g
  exact this.trans h

theorem OnlyTrace.ite {s t u : State} {c : Prop} [Decidable c] (h : OnlyTrace s t) (g : OnlyTrace s u) :
    OnlyTrace s (if c then t else u) := by split <;> assumption

theorem OnlyTrace.done {s t : State} (h : OnlyTrace s t) : CndDone s t where
  cnd := by rw [← h]
  mem e := by rw [← h] at e ⊢; exact ⟨rfl, e⟩
  regs r _ _ := by rw [← h]; rfl
  others := by
    have := congrArg (fun x : State => { x with regs := s.regs, cnd := s.cnd, trc := s.trc }) h
    exact this

theorem setTrc_only {s t : State} (h : OnlyTrace s t) (p : Nat) (x : TrcP) : OnlyTrace s (setTrc t p x) := h

theorem countPost_only (s : State) (p : Nat) : OnlyTrace s (countPost s p) := by
  unfold countPost; dsimp only; split <;> rfl

theorem queuePut_only (s : State) (p c ty v : Nat) : OnlyTrace s (queuePut s p c ty v) := by
  unfold queuePut
  dsimp only
  split
  · exact OnlyTrace.trans (by rfl) (countPost_only _ p)
  · rfl

theorem timePut_only (s : State) (p : Nat) : OnlyTrace s (timePut s p) := by
  unfold timePut
  dsimp only
  exact (queuePut_only s p 4 1 _).ite (OnlyTrace.refl s)

theorem lostPut_only (s : State) (p : Nat) : OnlyTrace s (lostPut s p) := by
  unfold lostPut
  dsimp only
  refine (OnlyTrace.refl s).ite (OnlyTrace.ite ?_ (timePut_only s p))
  exact (setTrc_only (timePut_only s p) p _).trans (queuePut_only _ p 4 0xF _)

theorem putEntry_only (s : State) (p c ty v : Nat) : OnlyTrace s (putEntry s p c ty v) := by
  unfold putEntry
  exact (OnlyTrace.refl s).ite ((lostPut_only s p).trans ((timePut_only _ p).trans (queuePut_only _ p c ty v)))

theorem flushCbr_only (s : State) (p : Nat) : OnlyTrace s (flushCbr s p) := by
  unfold flushCbr
  dsimp only
  split
  · rfl
  · exact (setTrc_only (OnlyTrace.refl _) p _).trans (putEntry_only _ _ _ _ _)

theorem stopChans_only (s : State) (p : Nat) (m : BitVec 4) (r : Nat) : OnlyTrace s (stopChans s p m r) := by
  unfold stopChans
  dsimp only
  split
  · rfl
  · refine OnlyTrace.trans ?_ (setTrc_only (putEntry_only _ _ _ _ _) p _)
    split
    · exact flushCbr_only s p
    · rfl

theorem settlePost_only (s : State) (p : Nat) : OnlyTrace s (settlePost s p) := by
  unfold settlePost
  dsimp only
  split
  · exact (setTrc_only (OnlyTrace.refl s) p _).trans (stopChans_only _ _ _ _)
  · rfl

theorem trigger_only (s : State) (p c r : Nat) : OnlyTrace s (trigger s p c r) := by
  unfold trigger
  dsimp only
  split
  · rfl
  · refine OnlyTrace.trans (t := if (trc s p).rec_ = 0 then s else putEntry s p 4 0xF (2 + c * 8 + r * 256)) ?_ ?_
    · split
      · rfl
      · exact putEntry_only _ _ _ _ _
    · generalize (if (trc s p).rec_ = 0 then s else putEntry s p 4 0xF (2 + c * 8 + r * 256)) = x
      exact OnlyTrace.ite ((setTrc_only (setTrc_only (OnlyTrace.refl x) p _) p _).trans (stopChans_only _ _ _ _))
        (setTrc_only (OnlyTrace.refl x) p _)

theorem traceEvent_only (s : State) (p c : Nat) : OnlyTrace s (traceEvent s p c) := by
  unfold traceEvent
  dsimp only
  split
  · rfl
  · split
    · exact (setTrc_only (OnlyTrace.refl s) p _).trans (trigger_only _ _ _ _)
    · exact setTrc_only (OnlyTrace.refl s) p _

theorem traceChan_only (s : State) (p c ty v : Nat) : OnlyTrace s (traceChan s p c ty v) := by
  unfold traceChan
  split
  · exact (putEntry_only _ _ _ _ _).trans (settlePost_only _ _)
  · rfl

theorem traceCnd_only (s : State) (fp ty v pc : Nat) : OnlyTrace s (traceCnd s fp ty v pc) := by
  unfold traceCnd
  dsimp only
  split
  · refine OnlyTrace.trans ((flushCbr_only s (fp / 4)).trans (traceChan_only _ (fp / 4) 0 ty v)) ?_
    generalize traceChan (flushCbr s (fp / 4)) (fp / 4) 0 ty v = x
    exact OnlyTrace.ite ((setTrc_only (OnlyTrace.refl x) _ _).trans (traceChan_only _ _ _ _ _))
      (setTrc_only (OnlyTrace.refl x) _ _)
  · rfl

theorem traceBranch_only (s : State) (fp : Nat) (b : Bool) : OnlyTrace s (traceBranch s fp b) := by
  unfold traceBranch
  dsimp only
  split
  · split
    · exact (setTrc_only (OnlyTrace.refl s) _ _).trans ((flushCbr_only _ _).trans (settlePost_only _ _))
    · exact setTrc_only (OnlyTrace.refl s) _ _
  · rfl

theorem traceProgEvent_only (s : State) (fp c : Nat) : OnlyTrace s (traceProgEvent s fp c) :=
  OnlyTrace.ite (traceEvent_only s _ c) (OnlyTrace.refl s)

theorem tracePc_only (s : State) : OnlyTrace s (tracePc s) := by
  unfold tracePc
  split
  · exact OnlyTrace.ite (traceProgEvent_only s _ 8) (OnlyTrace.refl s)
  · rfl

theorem traceInd_only (s : State) (k : Nat) (a : Word) : OnlyTrace s (traceInd s k a) := by
  unfold traceInd
  split
  · exact traceCnd_only _ _ _ _ _
  · rfl

/-- A register of the bank written that time and correction may write. -/
theorem wr_done {u t : State} (h : CndDone u t) (r : Nat) (v : Word) (e : r = 0x0648 ∨ r = 0x0830) : CndDone u (wr t r v) where
  cnd := h.cnd
  mem := h.mem
  regs q h1 h2 := by
    refine Eq.trans (tget_tset_ne 0 t.regs v ?_) (h.regs q h1 h2)
    rcases e with e | e <;> subst e <;> exact Ne.symm ‹_›
  others := h.others

/-- A change of the conductor that `still` takes out and that leaves memory alone. -/
theorem modCnd_done {u t : State} (h : CndDone u t) {f : Cnd → Cnd} (e : ∀ c, still (f c) = still c)
    (m : ∀ c, (f c).mem = c.mem ∧ (f c).memErr = c.memErr) : CndDone u (modCnd t f) where
  cnd := (e t.cnd).trans h.cnd
  mem z := ⟨(m t.cnd).1.trans (h.mem z).1, (m t.cnd).2.trans (h.mem z).2⟩
  regs := h.regs
  others := h.others

theorem spend_done (s : State) (n : Nat) : CndDone s (spend s n) := by
  have b : CndDone s (modCnd s (fun c => { c with dlv := age c.dlv n, fpuBusy := c.fpuBusy - n })) :=
    modCnd_done (CndDone.refl s) (fun _ => rfl) (fun _ => ⟨rfl, rfl⟩)
  unfold spend
  split
  · exact b
  · rename_i h e
    dsimp only
    split
    · refine ⟨?_, b.mem, b.regs, b.others⟩
      simp only [modCnd, still, e, Option.map_some]
      split <;> rfl
    · refine wr_done ?_ _ _ (.inl rfl)
      exact modCnd_done b (fun _ => rfl) (fun _ => ⟨rfl, rfl⟩)

theorem deliver_done (s : State) (cc : Nat) (l : List (Nat × Nat)) : CndDone s (deliver s cc l) :=
  modCnd_done (CndDone.refl s) (fun _ => rfl) (fun _ => ⟨rfl, rfl⟩)

theorem mem_nil_done {u t : State} (c : still t.cnd = still u.cnd) (m : u.cnd.memErr ≠ [])
    (r : ∀ r, r ≠ 0x0648 → r ≠ 0x0830 → rd t r = rd u r)
    (o : { t with regs := u.regs, cnd := u.cnd, trc := u.trc } = u) : CndDone u t :=
  ⟨c, fun e => absurd e m, r, o⟩

theorem forEach_nil {α : Type} (s : State) (f : State → α → State) : forEach [] s f = s := rfl

theorem spanFix_nil (s : State) (a n : Nat) (h : s.cnd.memErr = []) : spanFix s a n = s := by
  simp only [spanFix, errWords, h, List.filter_nil, forEach_nil]

theorem sweepWord_regs (s : State) (e : Nat × Nat) : still (sweepWord s e).cnd = still s.cnd ∧
    (∀ r, r ≠ 0x0648 → r ≠ 0x0830 → rd (sweepWord s e) r = rd s r) ∧
    { sweepWord s e with regs := s.regs, cnd := s.cnd, trc := s.trc } = s := by
  unfold sweepWord
  split
  · exact ⟨rfl, fun _ _ _ => rfl, rfl⟩
  · dsimp only
    split
    · exact ⟨rfl, fun r _ h => tget_tset_ne 0 _ _ (Ne.symm h), rfl⟩
    · exact ⟨rfl, fun r _ h => tget_tset_ne 0 _ _ (Ne.symm h), rfl⟩

theorem sweepAll_regs (l : List (Nat × Nat)) (s : State) : still (forEach l s sweepWord).cnd = still s.cnd ∧
    (∀ r, r ≠ 0x0648 → r ≠ 0x0830 → rd (forEach l s sweepWord) r = rd s r) ∧
    { forEach l s sweepWord with regs := s.regs, cnd := s.cnd, trc := s.trc } = s := by
  induction l generalizing s with
  | nil => exact ⟨rfl, fun _ _ _ => rfl, rfl⟩
  | cons e l ih =>
    obtain ⟨a, b, c⟩ := ih (sweepWord s e)
    obtain ⟨a1, b1, c1⟩ := sweepWord_regs s e
    refine ⟨a.trans a1, fun r h1 h2 => (b r h1 h2).trans (b1 r h1 h2), ?_⟩
    have := congrArg (fun x : State => { x with regs := s.regs, cnd := s.cnd, trc := s.trc }) c
    exact this.trans c1

theorem spanFix_done (s : State) (a n : Nat) : CndDone s (spanFix s a n) := by
  by_cases h : s.cnd.memErr = []
  · rw [spanFix_nil s a n h]
    exact CndDone.refl s
  · obtain ⟨x, y, z⟩ := sweepAll_regs (errWords s a n) s
    exact ⟨x, fun e => absurd e h, y, z⟩

theorem waited_done (o : COp) (s : State) : CndDone s (waited o s) := by
  unfold waited
  exact (modCnd_done (f := fun c => { c with waiting := false }) (CndDone.refl s) (fun _ => rfl)
    (fun _ => ⟨rfl, rfl⟩)).trans (spend_done _ _)

theorem fetched_done (o : COp) (s : State) : CndDone s (fetched o s) := by
  unfold fetched
  refine (waited_done o s).trans ?_
  generalize waited o s = x
  exact ((modCnd_done (f := fun c => { c with last := c.pc }) (CndDone.refl x) (fun _ => rfl)
    (fun _ => ⟨rfl, rfl⟩)).trans (tracePc_only _).done).trans (spanFix_done _ _ _)

theorem issueAt_done (o : COp) (s : State) : CndDone s (issueAt o s) := by
  unfold issueAt
  split
  · split
    · exact fetched_done o s
    · exact (fetched_done o s).trans (spanFix_done _ _ _)
  · exact fetched_done o s

/-- The state on which the body of an instruction acts. -/
def atData (o : COp) (s : State) : State :=
  match o.acc with
  | some a => if a.plane then s else spanFix s a.ea.toNat a.size
  | none => s

/-- The cycles and deliveries of an instruction after its effect. -/
theorem perform_done (o : COp) (body : State → State) (s : State) :
    CndDone (body (atData o s)) (perform o body s) := by
  change CndDone (body (atData o s))
    (if (body (atData o s)).boot.inReset ∨ (body (atData o s)).cnd.handler.isNone ∧ s.cnd.handler.isSome
      then body (atData o s)
      else match o.fpu with
        | some n => Machine.modCnd (deliver (spend (body (atData o s)) o.cc) o.cc o.dlv) (fun c => { c with fpuBusy := n - 1 })
        | none => deliver (spend (body (atData o s)) o.cc) o.cc o.dlv)
  generalize body (atData o s) = x
  have h := (spend_done x o.cc).trans (deliver_done _ o.cc o.dlv)
  split
  · exact CndDone.refl _
  · split
    · rename_i n _
      exact h.trans (modCnd_done (f := fun c => { c with fpuBusy := n - 1 }) (CndDone.refl _) (fun _ => rfl)
        (fun _ => ⟨rfl, rfl⟩))
    · exact h

/-- An instruction that runs clean and has no condition of its own left does what its body does where it issues. -/
theorem cndIssue_clean {o : COp} {s : State} (h : runsClean o s = true) (pre post : State → Option State)
    (body : State → State) (hp : pre (fetched o s) = none) (hq : post (fetched o s) = none) :
    CndDone (body (issueAt o s)) (cndIssue o pre post body s) := by
  simp only [runsClean, Bool.and_eq_true, Bool.not_eq_true', Option.isNone_iff_eq_none] at h
  obtain ⟨⟨⟨⟨⟨⟨h1, h2⟩, h3⟩, h4⟩, h5⟩, h6⟩, h7⟩ := h
  have b1 : budgetOut (Machine.modCnd s (fun c => { c with waiting := false })) = false := h2
  have hr : ((fetched o s).cnd.rep.isSome && !o.rept) = false := by
    rw [(fetched_done o s).rep]
    cases hs : s.cnd.rep <;> simp_all
  have e : cndIssue o pre post body s = perform o body (fetched o s) := by
    unfold cndIssue
    rw [h1]
    simp only [Bool.not_true, Bool.false_eq_true, if_false, b1]
    have b2 : budgetOut (spend (Machine.modCnd s (fun c => { c with waiting := false }))
        (max (waitFor (Machine.modCnd s (fun c => { c with waiting := false })) o.reads)
          (if o.fpu.isSome then (Machine.modCnd s (fun c => { c with waiting := false })).cnd.fpuBusy else 0))) = false := h3
    simp only [b2, Bool.false_eq_true, if_false]
    unfold issueOp
    have f : fetchTrap (spend (Machine.modCnd s (fun c => { c with waiting := false }))
        (max (waitFor (Machine.modCnd s (fun c => { c with waiting := false })) o.reads)
          (if o.fpu.isSome then (Machine.modCnd s (fun c => { c with waiting := false })).cnd.fpuBusy else 0))) o.size
        = none := h4
    simp only [f]
    change (if ((fetched o s).cnd.rep.isSome && !o.rept) = true then _ else _) = _
    simp only [hr, h6, Bool.false_eq_true, if_false]
    change (match pre (fetched o s) with | some t => t | none => match o.acc.bind (dataTrap (fetched o s)) with
      | some (v, c, e) => trap (fetched o s) v c e
      | none => (post (fetched o s)).getD (perform o body (fetched o s))) = _
    rw [hp, h7, hq]
    rfl
  rw [e]
  have := perform_done o body (fetched o s)
  exact this

theorem cndRun_clean {o : COp} {s : State} (h : runsClean o s = true) (body : State → State) :
    CndDone (body (issueAt o s)) (cndRun o body s) := cndIssue_clean h _ _ body rfl rfl

/-- An instruction that writes registers and goes on: its effect and the next instruction. -/
theorem cndStep_clean {o : COp} {s : State} (h : runsClean o s = true) (f : State → State) :
    ∃ t, cndStep o f s = .next t ∧ CndDone (goNext (f (issueAt o s)) o.size) t :=
  ⟨_, rfl, cndRun_clean h (fun t => Machine.goNext (f t) o.size)⟩

/-- The same, said of the state before the instruction: `f` acts alike on states that are alike. -/
theorem cndStep_clean_at {o : COp} {s : State} (h : runsClean o s = true) {f g : State → State}
    (k : ∀ x, CndDone s x → CndDone (g s) (f x)) :
    ∃ t, cndStep o f s = .next t ∧ CndDone (goNext (g s) o.size) t := by
  obtain ⟨t, e, d⟩ := cndStep_clean h f
  exact ⟨t, e, ((k _ (issueAt_done o s)).goNext o.size).trans d⟩

end Sys2Proof.Machine
end

