-- ==== Sys2Proof/Laws/Keeps.lean ====
section
/-! SUPPORT. What every operation of the block keeps: the queue of waiting commands, the fuses, and the canonical form of the
memories. One relation states it, so that one lemma per operation says it once. -/

namespace Sys2Proof.Machine

open Sys2Proof

-- one proof at a time: the whole package is checked as one text
set_option Elab.async false

/-- From `s` to `t` the queue and the fuses are unchanged, and soundness is kept. -/
structure Keeps (s t : State) : Prop where
  pending : t.pending = s.pending
  fuses : fuses t = fuses s
  sound : Sound s → Sound t

theorem Keeps.refl (s : State) : Keeps s s := ⟨rfl, rfl, id⟩

theorem Keeps.trans {s t u : State} (h : Keeps s t) (g : Keeps t u) : Keeps s u :=
  ⟨g.pending.trans h.pending, g.fuses.trans h.fuses, fun w => g.sound (h.sound w)⟩

/-- A state that keeps the queue and the fuses of `u` and whose memories are sound whenever those of `u` are. -/
theorem Keeps.upd {s u : State} {now free : Nat} {regs staged : Tbl Word} {ang : Ang} {frm : Frm} {hdg : Hdg} {smp : Smp}
    {scb : Scb} {arr : Arr} {cnd : Cnd} {prt : Prt} {lnk : Lnk} {grp : Grp} {trc : Trc} {flt : Flt} {boot : Boot} {pwr : Pwr}
    {jtag : Jtag} (h : Keeps s u)
    (fz : boot.stepB1 = u.boot.stepB1 ∧ boot.authFuse = u.boot.authFuse ∧ boot.keys = u.boot.keys ∧
      boot.factory = u.boot.factory)
    (m1 : Sound u → twf 0 regs = true) (m2 : Sound u → twf 0 staged = true) (m3 : Sound u → twf 0 smp.recs = true)
    (m4 : Sound u → twf 0 smp.stamps = true) (m5 : Sound u → twf 0 hdg.cfg = true)
    (m6 : Sound u → twf 0 hdg.capRam = true) (m7 : Sound u → twf 0 arr.planes = true) (m8 : Sound u → twf 0 arr.pp = true)
    (m9 : Sound u → Memory.wf 0 cnd.mem = true) (m10 : Sound u → Memory.wf 0xFF boot.flash = true)
    (m11 : Sound u → twf 0 trc.buf = true) (m12 : Sound u → Memory.wf 0 prt.mbxCmd = true)
    (m13 : Sound u → Memory.wf 0 prt.mbxRpl = true) (m14 : Sound u → flt.ring.length ≤ 16)
    (m15 : Sound u → trc.queue.length ≤ 16) :
    Keeps s ⟨now, free, regs, staged, ang, frm, hdg, smp, scb, arr, cnd, prt, lnk, grp, trc, flt, boot, pwr, jtag,
      u.pending⟩ where
  pending := h.pending
  fuses := by
    have g := h.fuses
    obtain ⟨a, b, c, d⟩ := fz
    simp only [Sys2Proof.Machine.fuses] at g ⊢
    rw [a, b, c, d]
    exact g
  sound w :=
    have w := h.sound w
    ⟨m1 w, m2 w, m3 w, m4 w, m5 w, m6 w, m7 w, m8 w, m9 w, m10 w, m11 w, m12 w, m13 w, m14 w, m15 w⟩

/-- A state that differs from `u` in nothing that `Keeps` looks at. -/
theorem Keeps.same {s u : State} {now free : Nat} {ang : Ang} {frm : Frm} {hdg : Hdg} {smp : Smp}
    {scb : Scb} {arr : Arr} {cnd : Cnd} {prt : Prt} {lnk : Lnk} {grp : Grp} {trc : Trc} {flt : Flt} {boot : Boot} {pwr : Pwr}
    {jtag : Jtag} (h : Keeps s u)
    (e : (boot.stepB1 = u.boot.stepB1 ∧ boot.authFuse = u.boot.authFuse ∧ boot.keys = u.boot.keys ∧
        boot.factory = u.boot.factory) ∧ smp.recs = u.smp.recs ∧ smp.stamps = u.smp.stamps ∧ hdg.cfg = u.hdg.cfg ∧
      hdg.capRam = u.hdg.capRam ∧ arr.planes = u.arr.planes ∧ arr.pp = u.arr.pp ∧ cnd.mem = u.cnd.mem ∧
      boot.flash = u.boot.flash ∧ trc.buf = u.trc.buf ∧ prt.mbxCmd = u.prt.mbxCmd ∧ prt.mbxRpl = u.prt.mbxRpl ∧
      flt.ring = u.flt.ring ∧ trc.queue = u.trc.queue := by and_intros <;> rfl) :
    Keeps s ⟨now, free, u.regs, u.staged, ang, frm, hdg, smp, scb, arr, cnd, prt, lnk, grp, trc, flt, boot, pwr, jtag,
      u.pending⟩ := by
  obtain ⟨fz, r3, r4, r5, r6, r7, r8, r9, r10, r11, r12, r13, r14, r15⟩ := e
  exact Keeps.upd h fz Sound.regs Sound.staged (fun w => r3 ▸ w.recs) (fun w => r4 ▸ w.stamps)
    (fun w => r5 ▸ w.cfg) (fun w => r6 ▸ w.capRam) (fun w => r7 ▸ w.planes) (fun w => r8 ▸ w.pp) (fun w => r9 ▸ w.mem)
    (fun w => r10 ▸ w.flash) (fun w => r11 ▸ w.buf) (fun w => r12 ▸ w.mbxCmd) (fun w => r13 ▸ w.mbxRpl)
    (fun w => r14 ▸ w.ring) (fun w => r15 ▸ w.queue)

theorem Keeps.ite {s t u : State} {c : Prop} [Decidable c] (h : Keeps s t) (g : Keeps s u) : Keeps s (if c then t else u) := by
  split
  · exact h
  · exact g

theorem getD_keeps {s0 s : State} {o : Option State} (h : Keeps s0 s) (k : ∀ t, o = some t → Keeps s0 t) :
    Keeps s0 (o.getD s) := by
  cases o with
  | none => exact h
  | some t => exact k t rfl

/-- The outcome is a next state that keeps what `s` holds. -/
def OutKeeps (s : State) (o : Host.Outcome State Fault Refusal) : Prop := ∃ t, o = .next t ∧ Keeps s t

theorem OutKeeps.next {s t : State} (h : Keeps s t) : OutKeeps s (.next t) := ⟨t, rfl, h⟩

theorem Keeps.fst_of_eq {α : Type} {s t : State} {p : State × α} {v : α} (e : p = (t, v)) (h : Keeps s p.1) : Keeps s t := by
  rw [e] at h
  exact h

theorem foldl_keeps {α : Type} {s0 s : State} {l : List α} {f : State → α → State} (h : Keeps s0 s)
    (k : ∀ t a, Keeps s0 t → Keeps s0 (f t a)) : Keeps s0 (l.foldl f s) := by
  induction l generalizing s with
  | nil => exact h
  | cons a l ih => exact ih (k s a h)

theorem foldl_fst_keeps {α β : Type} {s0 : State} {s : State × β} {l : List α} {f : State × β → α → State × β}
    (h : Keeps s0 s.1) (k : ∀ t a, Keeps s0 t.1 → Keeps s0 (f t a).1) : Keeps s0 (l.foldl f s).1 := by
  induction l generalizing s with
  | nil => exact h
  | cons a l ih => exact ih (k s a h)

theorem forEach_keeps {α : Type} {s0 s : State} {l : List α} {f : State → α → State} (h : Keeps s0 s)
    (k : ∀ t a, Keeps s0 t → Keeps s0 (f t a)) : Keeps s0 (forEach l s f) := foldl_keeps h k

theorem whenEv_keeps {s0 s t : State} {c : Bool} (h : Keeps s0 s) (g : Keeps s0 t) : Keeps s0 (whenEv c s t) := by
  unfold whenEv
  split
  · exact g
  · exact h

end Sys2Proof.Machine
end

