-- ==== Sys2Proof/Laws/KeepsBase.lean ====
section
/-! SUPPORT. One lemma per operation of the shared operations, trace, replies, frames and lanes: it keeps what Laws/Keeps.lean names. -/

namespace Sys2Proof.Machine

open Sys2Proof

-- one proof at a time: the whole package is checked as one text
set_option Elab.async false

theorem wr_keeps {base : State} {s : State} {a : Nat} {v : Word} (hb : Keeps base s) : Keeps base (wr s a v) := by
  unfold wr
  exact Keeps.upd hb ⟨rfl, rfl, rfl, rfl⟩ (fun w => twf_tset _ _ _ w.regs) Sound.staged Sound.recs Sound.stamps
    Sound.cfg Sound.capRam Sound.planes Sound.pp Sound.mem Sound.flash Sound.buf Sound.mbxCmd Sound.mbxRpl Sound.ring
    Sound.queue

theorem orReg_keeps {base : State} {s : State} {a : Nat} {v : Word}
    (hb : Keeps base s) : Keeps base (orReg s a v) := by
  unfold orReg
  exact wr_keeps hb

theorem clrReg_keeps {base : State} {s : State} {a : Nat} {v : Word}
    (hb : Keeps base s) : Keeps base (clrReg s a v) := by
  unfold clrReg
  exact wr_keeps hb

theorem setFlag_keeps {base : State} {s : State} {a n : Nat} (hb : Keeps base s) : Keeps base (setFlag s a n) := by
  unfold setFlag
  exact orReg_keeps hb

theorem satReg_keeps {base : State} {s : State} {a n : Nat} (hb : Keeps base s) : Keeps base (satReg s a n) := by
  unfold satReg
  exact wr_keeps hb

theorem wrStaged_keeps {base : State} {s : State} {a : Nat} {v : Word}
    (hb : Keeps base s) : Keeps base (wrStaged s a v) := by
  unfold wrStaged
  exact Keeps.upd hb ⟨rfl, rfl, rfl, rfl⟩ Sound.regs (fun w => twf_tset _ _ _ w.staged) Sound.recs Sound.stamps
    Sound.cfg Sound.capRam Sound.planes Sound.pp Sound.mem Sound.flash Sound.buf Sound.mbxCmd Sound.mbxRpl Sound.ring
    Sound.queue

theorem wrBoth_keeps {base : State} {s : State} {a : Nat} {v : Word}
    (hb : Keeps base s) : Keeps base (wrBoth s a v) := by
  unfold wrBoth
  exact wrStaged_keeps (wr_keeps hb)

theorem ringPut_keeps {s0 : State} {s : State} {r : LogRec} (h : Keeps s0 s) : Keeps s0 (ringPut s r) := by
  unfold ringPut
  split
  · refine Keeps.upd h ⟨rfl, rfl, rfl, rfl⟩ Sound.regs Sound.staged Sound.recs Sound.stamps Sound.cfg Sound.capRam
      Sound.planes Sound.pp Sound.mem Sound.flash Sound.buf Sound.mbxCmd Sound.mbxRpl (fun w => ?_) Sound.queue
    simp only [List.length_append, List.length_singleton]
    omega
  · split
    · refine Keeps.upd h ⟨rfl, rfl, rfl, rfl⟩ Sound.regs Sound.staged Sound.recs Sound.stamps Sound.cfg Sound.capRam
        Sound.planes Sound.pp Sound.mem Sound.flash Sound.buf Sound.mbxCmd Sound.mbxRpl (fun w => ?_) Sound.queue
      have g := w.ring
      simp only [List.length_append, List.length_singleton, List.length_drop]
      omega
    · exact satReg_keeps h

theorem hourPut_keeps {base : State} {s : State} {r : LogRec} (hb : Keeps base s) : Keeps base (hourPut s r) := by
  unfold hourPut
  exact Keeps.ite (ringPut_keeps (Keeps.same hb)) (satReg_keeps (Keeps.same hb))

theorem logPut_keeps {base : State} {s : State} {code : Nat} {data : List Byte}
    (hb : Keeps base s) : Keeps base (logPut s code data) := by
  unfold logPut
  refine Keeps.ite (ringPut_keeps hb) ?_
  split
  · exact Keeps.ite (Keeps.same hb) (hourPut_keeps (Keeps.same hb))
  · exact hourPut_keeps (Keeps.same hb)

theorem noteFirst_keeps {base : State} {s : State} {index : Nat}
    (hb : Keeps base s) : Keeps base (noteFirst s index) := by
  unfold noteFirst
  exact Keeps.ite (wr_keeps hb) hb

theorem raiseInt_keeps {base : State} {s : State} {v : Nat} (hb : Keeps base s) : Keeps base (raiseInt s v) := by
  unfold raiseInt
  exact Keeps.same hb

theorem sticky0_keeps {base : State} {s : State} {n : Nat} {data : List Byte}
    (hb : Keeps base s) : Keeps base (sticky0 s n data) := by
  unfold sticky0
  exact logPut_keeps (raiseInt_keeps (setFlag_keeps (noteFirst_keeps hb)))

theorem sticky1_keeps {base : State} {s : State} {n : Nat} {data : List Byte}
    (hb : Keeps base s) : Keeps base (sticky1 s n data) := by
  unfold sticky1
  exact logPut_keeps (raiseInt_keeps (setFlag_keeps (noteFirst_keeps hb)))

theorem reservedField_keeps {base : State} {s : State} {at_ kind : Nat}
    (hb : Keeps base s) : Keeps base (reservedField s at_ kind) := by
  unfold reservedField
  exact sticky0_keeps hb

theorem useFree_keeps {base : State} {s : State} (hb : Keeps base s) : Keeps base (useFree s) := by
  unfold useFree
  exact Keeps.same hb

theorem setTrc_keeps {base : State} {s : State} {p : Nat} {x : TrcP}
    (hb : Keeps base s) : Keeps base (setTrc s p x) := by
  unfold setTrc
  exact Keeps.same hb

theorem countPost_keeps {base : State} {s : State} {p : Nat} (hb : Keeps base s) : Keeps base (countPost s p) := by
  unfold countPost
  extract_lets 
  exact Keeps.ite (setTrc_keeps hb) hb

theorem queuePut_keeps {s0 : State} {s : State} {p chan typ payload : Nat} (h : Keeps s0 s) :
    Keeps s0 (queuePut s p chan typ payload) := by
  unfold queuePut
  dsimp only
  split
  · refine countPost_keeps (setTrc_keeps (Keeps.upd h ⟨rfl, rfl, rfl, rfl⟩ Sound.regs Sound.staged Sound.recs Sound.stamps
      Sound.cfg Sound.capRam Sound.planes Sound.pp Sound.mem Sound.flash Sound.buf Sound.mbxCmd Sound.mbxRpl Sound.ring
      (fun _ => ?_)))
    simp only [List.length_append, List.length_singleton]
    omega
  · exact setTrc_keeps h

theorem timePut_keeps {base : State} {s : State} {p : Nat} (hb : Keeps base s) : Keeps base (timePut s p) := by
  unfold timePut
  extract_lets
  exact Keeps.ite (queuePut_keeps hb) hb

theorem lostPut_keeps {base : State} {s : State} {p : Nat} (hb : Keeps base s) : Keeps base (lostPut s p) := by
  unfold lostPut
  refine Keeps.ite hb ?_
  extract_lets s1
  exact Keeps.ite (queuePut_keeps (setTrc_keeps (timePut_keeps hb))) (timePut_keeps hb)

theorem putEntry_keeps {base : State} {s : State} {p chan typ payload : Nat}
    (hb : Keeps base s) : Keeps base (putEntry s p chan typ payload) := by
  unfold putEntry
  exact Keeps.ite hb (queuePut_keeps (timePut_keeps (lostPut_keeps hb)))

theorem flushCbr_keeps {base : State} {s : State} {p : Nat} (hb : Keeps base s) : Keeps base (flushCbr s p) := by
  unfold flushCbr
  extract_lets 
  exact Keeps.ite hb (putEntry_keeps (setTrc_keeps hb))

theorem stopChans_keeps {base : State} {s : State} {p : Nat} {mask : BitVec 4} {reason : Nat}
    (hb : Keeps base s) : Keeps base (stopChans s p mask reason) := by
  unfold stopChans
  extract_lets _ _ s1 s2
  have g_s1 : Keeps base s1 := Keeps.ite (flushCbr_keeps hb) hb
  have g_s2 : Keeps base s2 := putEntry_keeps g_s1
  exact Keeps.ite hb (setTrc_keeps g_s2)

theorem settlePost_keeps {base : State} {s : State} {p : Nat} (hb : Keeps base s) : Keeps base (settlePost s p) := by
  unfold settlePost
  extract_lets 
  exact Keeps.ite (stopChans_keeps (setTrc_keeps hb)) hb

theorem trigger_keeps {base : State} {s : State} {p code src : Nat}
    (hb : Keeps base s) : Keeps base (trigger s p code src) := by
  unfold trigger
  extract_lets _ s1 _ s2
  have g_s1 : Keeps base s1 := Keeps.ite hb (putEntry_keeps hb)
  have g_s2 : Keeps base s2 := setTrc_keeps g_s1
  exact Keeps.ite hb (Keeps.ite (stopChans_keeps (setTrc_keeps g_s2)) g_s2)

theorem traceEvent_keeps {base : State} {s : State} {p code : Nat}
    (hb : Keeps base s) : Keeps base (traceEvent s p code) := by
  unfold traceEvent
  refine Keeps.ite hb ?_
  extract_lets _ s1
  have g_s1 : Keeps base s1 := setTrc_keeps hb
  exact Keeps.ite (trigger_keeps g_s1) g_s1

theorem traceChan_keeps {base : State} {s : State} {p chan typ payload : Nat}
    (hb : Keeps base s) : Keeps base (traceChan s p chan typ payload) := by
  unfold traceChan
  exact Keeps.ite (settlePost_keeps (putEntry_keeps hb)) hb

theorem traceAny_keeps {base : State} {s : State} {p typ payload : Nat}
    (hb : Keeps base s) : Keeps base (traceAny s p typ payload) := by
  unfold traceAny
  exact Keeps.ite hb (settlePost_keeps (putEntry_keeps hb))

theorem traceFrame_keeps {base : State} {s : State} {count stCode : Nat} {coast : Bool} {kind : Nat}
    (hb : Keeps base s) : Keeps base (traceFrame s count stCode coast kind) := by
  unfold traceFrame
  refine foldl_keeps hb ?_
  intro _ _ q
  extract_lets s1
  have g_s1 : Keeps base s1 := traceAny_keeps q
  exact Keeps.ite (traceEvent_keeps (setTrc_keeps g_s1)) g_s1

theorem traceLane_keeps {base : State} {s : State} {lane kind ovln fill : Nat}
    (hb : Keeps base s) : Keeps base (traceLane s lane kind ovln fill) := by
  unfold traceLane
  extract_lets _ _ s1 s2
  have g_s1 : Keeps base s1 := setTrc_keeps hb
  have g_s2 : Keeps base s2 := traceEvent_keeps g_s1
  exact Keeps.ite hb (Keeps.ite (traceChan_keeps g_s2) g_s2)

theorem traceRing_keeps {base : State} {s : State} {p kind counter info replyKind fp : Nat}
    (hb : Keeps base s) : Keeps base (traceRing s p kind counter info replyKind fp) := by
  unfold traceRing
  exact Keeps.ite (traceChan_keeps hb) hb

theorem traceLink_keeps {base : State} {s : State} {p seq res errc typ len : Nat}
    (hb : Keeps base s) : Keeps base (traceLink s p seq res errc typ len) := by
  unfold traceLink
  extract_lets s1
  have g_s1 : Keeps base s1 := Keeps.ite (traceChan_keeps hb) hb
  exact Keeps.ite (traceEvent_keeps g_s1) g_s1

theorem traceGroup_keeps {base : State} {s : State} {port kind seq ps ck : Nat}
    (hb : Keeps base s) : Keeps base (traceGroup s port kind seq ps ck) := by
  unfold traceGroup
  extract_lets s1
  have g_s1 : Keeps base s1 := Keeps.ite (traceChan_keeps hb) hb
  exact Keeps.ite (traceEvent_keeps g_s1) g_s1

theorem traceCnd_keeps {base : State} {s : State} {fp typ payload pc : Nat}
    (hb : Keeps base s) : Keeps base (traceCnd s fp typ payload pc) := by
  unfold traceCnd
  extract_lets _ s1
  have g_s1 : Keeps base s1 := traceChan_keeps (flushCbr_keeps hb)
  exact Keeps.ite (Keeps.ite (traceChan_keeps (setTrc_keeps g_s1)) (setTrc_keeps g_s1)) hb

theorem traceBranch_keeps {base : State} {s : State} {fp : Nat} {taken : Bool}
    (hb : Keeps base s) : Keeps base (traceBranch s fp taken) := by
  unfold traceBranch
  extract_lets _ _ s1
  have g_s1 : Keeps base s1 := setTrc_keeps hb
  exact Keeps.ite (Keeps.ite (settlePost_keeps (flushCbr_keeps g_s1)) g_s1) hb

theorem traceProgEvent_keeps {base : State} {s : State} {fp code : Nat}
    (hb : Keeps base s) : Keeps base (traceProgEvent s fp code) := by
  unfold traceProgEvent
  exact Keeps.ite (traceEvent_keeps hb) hb

theorem traceArr_keeps {base : State} {s : State} {fp typ payload : Nat}
    (hb : Keeps base s) : Keeps base (traceArr s fp typ payload) := by
  unfold traceArr
  exact Keeps.ite (traceChan_keeps hb) hb

theorem traceAevt_keeps {base : State} {s : State} {p entry : Nat} {word : Word}
    (hb : Keeps base s) : Keeps base (traceAevt s p entry word) := by
  unfold traceAevt
  exact traceChan_keeps hb

theorem execTraceQueueWrite_keeps (s : State) : OutKeeps s (execTraceQueueWrite s) := by
  have h := Keeps.refl s
  unfold execTraceQueueWrite
  apply OutKeeps.next
  split
  · exact h
  · rename_i p e rest hq
    have len (w : Sound s) : rest.length ≤ 16 := by
      have := w.queue
      rw [hq, List.length_cons] at this
      omega
    refine foldl_keeps ?_ (fun u q gu => Keeps.ite gu (settlePost_keeps (lostPut_keeps gu)))
    have g : Keeps s { s with trc := { s.trc with queue := rest } } :=
      Keeps.upd h ⟨rfl, rfl, rfl, rfl⟩ Sound.regs Sound.staged Sound.recs Sound.stamps Sound.cfg Sound.capRam Sound.planes
        Sound.pp Sound.mem Sound.flash Sound.buf Sound.mbxCmd Sound.mbxRpl Sound.ring len
    split
    · exact g
    · exact setTrc_keeps (Keeps.upd g ⟨rfl, rfl, rfl, rfl⟩ Sound.regs Sound.staged Sound.recs Sound.stamps Sound.cfg
        Sound.capRam Sound.planes Sound.pp Sound.mem Sound.flash (fun w => twf_tset _ _ _ w.buf) Sound.mbxCmd Sound.mbxRpl
        Sound.ring Sound.queue)

theorem execTraceSequencerStep_keeps (p : Fin 4) (s : State) : OutKeeps s (execTraceSequencerStep p s) := by
  have hb := Keeps.refl s
  unfold execTraceSequencerStep
  refine OutKeeps.next ?_
  refine Keeps.ite hb ?_
  extract_lets _ _ s0 _ _ _ s1
  have g_s0 : Keeps s s0 := Keeps.ite (trigger_keeps hb) hb
  have g_s1 : Keeps s s1 := setTrc_keeps g_s0
  exact Keeps.ite (Keeps.ite (Keeps.ite (trigger_keeps g_s1) (stopChans_keeps (setTrc_keeps g_s1))) g_s1)
    (setTrc_keeps g_s0)

theorem execTracePostTimeout_keeps (p : Fin 4) (s : State) : OutKeeps s (execTracePostTimeout p s) := by
  have hb := Keeps.refl s
  unfold execTracePostTimeout
  exact OutKeeps.next (Keeps.ite (stopChans_keeps (setTrc_keeps hb)) hb)

theorem rearm_keeps {base : State} {s : State} {p : Nat} {v : Word}
    (hb : Keeps base s) : Keeps base (rearm s p v) := by
  unfold rearm
  extract_lets s1 _ _ _ s2 s3
  have g_s1 : Keeps base s1 := wr_keeps hb
  have g_s2 : Keeps base s2 := setTrc_keeps g_s1
  have g_s3 : Keeps base s3 := putEntry_keeps g_s2
  exact setTrc_keeps g_s3

theorem clearBuf_keeps {base : State} {s : State} {p : Nat} (hb : Keeps base s) : Keeps base (clearBuf s p) := by
  unfold clearBuf
  repeat' first
    | with_reducible assumption
    | with_reducible apply setTrc_keeps
    | split
    | intro _ _ _ _ _
    | intro _ _ _ _
    | intro _ _ _
    | intro _ _
    | with_reducible refine Keeps.fst_of_eq (by assumption) ?_
    | with_reducible refine Keeps.same ?_ ⟨⟨rfl, rfl, rfl, rfl⟩, rfl, rfl, rfl, rfl, rfl, rfl, rfl, rfl, rfl, rfl,
      rfl, rfl, rfl⟩
    | with_reducible refine Keeps.upd ?_ ⟨rfl, rfl, rfl, rfl⟩ ?_ ?_ ?_ ?_ ?_ ?_ ?_ ?_ ?_ ?_ ?_ ?_ ?_ ?_ ?_
    | with_reducible exact Sound.regs
    | with_reducible exact Sound.staged
    | with_reducible exact Sound.recs
    | with_reducible exact Sound.stamps
    | with_reducible exact Sound.cfg
    | with_reducible exact Sound.capRam
    | with_reducible exact Sound.planes
    | with_reducible exact Sound.pp
    | with_reducible exact Sound.mem
    | with_reducible exact Sound.flash
    | with_reducible exact Sound.buf
    | with_reducible exact Sound.mbxCmd
    | with_reducible exact Sound.mbxRpl
    | with_reducible exact Sound.ring
    | with_reducible exact Sound.queue
    | exact fun w => twf_filter _ _ (Sound.buf w)
    | dsimp only

theorem trcCtlWrite_keeps {base : State} {s : State} {p : Nat} {v : Word}
    (hb : Keeps base s) : Keeps base (trcCtlWrite s p v) := by
  unfold trcCtlWrite
  extract_lets s1 s2
  have g_s1 : Keeps base s1 := Keeps.ite (clearBuf_keeps hb) hb
  have g_s2 : Keeps base s2 := Keeps.ite (Keeps.ite (setFlag_keeps g_s1) (rearm_keeps g_s1)) (wr_keeps
    (stopChans_keeps g_s1))
  exact Keeps.ite (traceEvent_keeps g_s2) g_s2

theorem allocWrite_keeps {base : State} {s : State} {p : Nat} {v : Word}
    (hb : Keeps base s) : Keeps base (allocWrite s p v) := by
  unfold allocWrite
  repeat' first
    | with_reducible assumption
    | with_reducible apply Keeps.ite
    | with_reducible apply reservedField_keeps
    | with_reducible apply setFlag_keeps
    | with_reducible apply wr_keeps
    | with_reducible apply setTrc_keeps
    | split
    | intro _ _ _ _ _
    | intro _ _ _ _
    | intro _ _ _
    | intro _ _
    | with_reducible refine Keeps.fst_of_eq (by assumption) ?_
    | with_reducible refine Keeps.same ?_ ⟨⟨rfl, rfl, rfl, rfl⟩, rfl, rfl, rfl, rfl, rfl, rfl, rfl, rfl, rfl, rfl,
      rfl, rfl, rfl⟩
    | with_reducible refine Keeps.upd ?_ ⟨rfl, rfl, rfl, rfl⟩ ?_ ?_ ?_ ?_ ?_ ?_ ?_ ?_ ?_ ?_ ?_ ?_ ?_ ?_ ?_
    | with_reducible exact Sound.regs
    | with_reducible exact Sound.staged
    | with_reducible exact Sound.recs
    | with_reducible exact Sound.stamps
    | with_reducible exact Sound.cfg
    | with_reducible exact Sound.capRam
    | with_reducible exact Sound.planes
    | with_reducible exact Sound.pp
    | with_reducible exact Sound.mem
    | with_reducible exact Sound.flash
    | with_reducible exact Sound.buf
    | with_reducible exact Sound.mbxCmd
    | with_reducible exact Sound.mbxRpl
    | with_reducible exact Sound.ring
    | with_reducible exact Sound.queue
    | exact fun w => twf_filter _ _ (Sound.buf w)
    | dsimp only

theorem setGport_keeps {base : State} {s : State} {p : Nat} {x : Port}
    (hb : Keeps base s) : Keeps base (setGport s p x) := by
  unfold setGport
  exact Keeps.same hb

theorem sendLink_keeps {base : State} {s : State} {p typ : Nat}
    (hb : Keeps base s) : Keeps base (sendLink s p typ) := by
  unfold sendLink
  extract_lets 
  exact Keeps.ite (setGport_keeps hb) hb

theorem sendAll_keeps {base : State} {s : State} {typ : Nat} (hb : Keeps base s) : Keeps base (sendAll s typ) := by
  unfold sendAll
  exact sendLink_keeps (sendLink_keeps hb)

theorem portState_keeps {base : State} {s : State} {p : Nat} {st : PortState}
    (hb : Keeps base s) : Keeps base (portState s p st) := by
  unfold portState
  extract_lets 
  exact traceGroup_keeps (setGport_keeps hb)

theorem portsDown_keeps {base : State} {s : State} (hb : Keeps base s) : Keeps base (portsDown s) := by
  unfold portsDown
  exact Keeps.same hb

theorem wrMem_keeps {base : State} {s : State} {a : Nat} {b : Byte}
    (hb : Keeps base s) : Keeps base (wrMem s a b) := by
  unfold wrMem
  repeat' first
    | with_reducible assumption
    | split
    | with_reducible refine Keeps.same ?_ ⟨⟨rfl, rfl, rfl, rfl⟩, rfl, rfl, rfl, rfl, rfl, rfl, rfl, rfl, rfl, rfl,
      rfl, rfl, rfl⟩
    | with_reducible refine Keeps.upd ?_ ⟨rfl, rfl, rfl, rfl⟩ ?_ ?_ ?_ ?_ ?_ ?_ ?_ ?_ ?_ ?_ ?_ ?_ ?_ ?_ ?_
    | with_reducible exact Sound.regs
    | with_reducible exact Sound.staged
    | with_reducible exact Sound.recs
    | with_reducible exact Sound.stamps
    | with_reducible exact Sound.cfg
    | with_reducible exact Sound.capRam
    | with_reducible exact Sound.planes
    | with_reducible exact Sound.pp
    | with_reducible exact Sound.mem
    | with_reducible exact Sound.flash
    | with_reducible exact Sound.buf
    | with_reducible exact Sound.mbxCmd
    | with_reducible exact Sound.mbxRpl
    | with_reducible exact Sound.ring
    | with_reducible exact Sound.queue
    | exact fun w => twf_tset _ _ _ (Sound.mem w)
    | dsimp only

theorem wrBytes_keeps {base : State} {s : State} {a : Nat} {bs : List Byte}
    (hb : Keeps base s) : Keeps base (wrBytes s a bs) := by
  unfold wrBytes
  repeat' first
    | with_reducible assumption
    | split
    | with_reducible refine Keeps.same ?_ ⟨⟨rfl, rfl, rfl, rfl⟩, rfl, rfl, rfl, rfl, rfl, rfl, rfl, rfl, rfl, rfl,
      rfl, rfl, rfl⟩
    | with_reducible refine Keeps.upd ?_ ⟨rfl, rfl, rfl, rfl⟩ ?_ ?_ ?_ ?_ ?_ ?_ ?_ ?_ ?_ ?_ ?_ ?_ ?_ ?_ ?_
    | with_reducible exact Sound.regs
    | with_reducible exact Sound.staged
    | with_reducible exact Sound.recs
    | with_reducible exact Sound.stamps
    | with_reducible exact Sound.cfg
    | with_reducible exact Sound.capRam
    | with_reducible exact Sound.planes
    | with_reducible exact Sound.pp
    | with_reducible exact Sound.mem
    | with_reducible exact Sound.flash
    | with_reducible exact Sound.buf
    | with_reducible exact Sound.mbxCmd
    | with_reducible exact Sound.mbxRpl
    | with_reducible exact Sound.ring
    | with_reducible exact Sound.queue
    | exact fun _ => twf_tsets _ _ _ rfl
    | exact fun w => twf_tsets _ _ _ (Sound.mem w)
    | dsimp only

theorem fillMem_keeps {base : State} {s : State} {a : Nat} {bs : List Byte}
    (hb : Keeps base s) : Keeps base (fillMem s a bs) := by
  unfold fillMem
  extract_lets s1
  have g_s1 : Keeps base s1 := wrBytes_keeps hb
  exact Keeps.same g_s1

theorem ringPost_keeps {base : State} {s : State} {p : Nat} {e : List Byte}
    (hb : Keeps base s) : Keeps base (ringPost s p e) := by
  unfold ringPost
  extract_lets _ s1 _ s2 _ s3
  have g_s1 : Keeps base s1 := wrBytes_keeps hb
  have g_s2 : Keeps base s2 := Keeps.same g_s1
  have g_s3 : Keeps base s3 := traceRing_keeps g_s2
  exact Keeps.ite (traceEvent_keeps g_s3) g_s3

theorem post_keeps {base : State} {s : State} {p : Nat} {e : List Byte}
    (hb : Keeps base s) : Keeps base (post s p e) := by
  unfold post
  exact Keeps.ite (ringPost_keeps hb) (traceRing_keeps (Keeps.same hb))

theorem mbxReply_keeps {base : State} {s : State} {e : List Byte}
    (hb : Keeps base s) : Keeps base (mbxReply s e) := by
  unfold mbxReply
  repeat' first
    | with_reducible assumption
    | split
    | with_reducible refine Keeps.same ?_ ⟨⟨rfl, rfl, rfl, rfl⟩, rfl, rfl, rfl, rfl, rfl, rfl, rfl, rfl, rfl, rfl,
      rfl, rfl, rfl⟩
    | with_reducible refine Keeps.upd ?_ ⟨rfl, rfl, rfl, rfl⟩ ?_ ?_ ?_ ?_ ?_ ?_ ?_ ?_ ?_ ?_ ?_ ?_ ?_ ?_ ?_
    | with_reducible exact Sound.regs
    | with_reducible exact Sound.staged
    | with_reducible exact Sound.recs
    | with_reducible exact Sound.stamps
    | with_reducible exact Sound.cfg
    | with_reducible exact Sound.capRam
    | with_reducible exact Sound.planes
    | with_reducible exact Sound.pp
    | with_reducible exact Sound.mem
    | with_reducible exact Sound.flash
    | with_reducible exact Sound.buf
    | with_reducible exact Sound.mbxCmd
    | with_reducible exact Sound.mbxRpl
    | with_reducible exact Sound.ring
    | with_reducible exact Sound.queue
    | with_reducible exact fun _ => twf_nil _
    | exact fun _ => twf_tsets _ _ _ rfl
    | exact fun w => twf_tsets _ _ _ (Sound.mbxRpl w)
    | dsimp only

theorem accept_keeps {base : State} {s : State} {o : Order} {w : Wait} {body : List Byte}
    (hb : Keeps base s) : Keeps base (accept s o w body) := by
  unfold accept
  extract_lets _ s1
  have g_s1 : Keeps base s1 := Keeps.same hb
  exact Keeps.ite (Keeps.same g_s1) (post_keeps g_s1)

theorem closeOrder_keeps {base : State} {s : State} {o : Order}
    (hb : Keeps base s) : Keeps base (closeOrder s o) := by
  unfold closeOrder
  exact Keeps.same hb

theorem finish_keeps {base : State} {s : State} {o : Order} {status detail : Nat} {body : List Byte}
    (hb : Keeps base s) : Keeps base (finish s o status detail body) := by
  unfold finish
  extract_lets s1
  have g_s1 : Keeps base s1 := closeOrder_keeps hb
  exact Keeps.ite (mbxReply_keeps g_s1) (post_keeps g_s1)

theorem finishOpt_keeps {base : State} {s : State} {o : Option Order} {status detail : Nat} {body : List Byte}
    (hb : Keeps base s) : Keeps base (finishOpt s o status detail body) := by
  unfold finishOpt
  split
  · exact finish_keeps hb
  · exact hb

theorem finishWait_keeps {base : State} {s : State} {p : Wait → Bool} {status detail : Nat} {body : List Byte}
    (hb : Keeps base s) : Keeps base (finishWait s p status detail body) := by
  unfold finishWait
  split
  · exact finish_keeps hb
  · exact hb

theorem moveHeld_keeps {base : State} {s : State} {p : Nat} (hb : Keeps base s) : Keeps base (moveHeld s p) := by
  unfold moveHeld
  split
  · exact Keeps.ite (ringPost_keeps (Keeps.same hb)) hb
  · exact hb

theorem setProg_keeps {base : State} {s : State} {k : Nat} {p : Prog}
    (hb : Keeps base s) : Keeps base (setProg s k p) := by
  unfold setProg
  exact Keeps.same hb

theorem modFrame_keeps {base : State} {s : State} {c : BitVec 48} {g : Frame → Frame}
    (hb : Keeps base s) : Keeps base (modFrame s c g) := by
  unfold modFrame
  exact Keeps.same hb

theorem markOutcome_keeps {base : State} {s : State} {status n : Nat}
    (hb : Keeps base s) : Keeps base (markOutcome s status n) := by
  unfold markOutcome
  exact Keeps.ite hb (Keeps.ite (satReg_keeps (setFlag_keeps hb)) (Keeps.ite (setFlag_keeps hb) (Keeps.ite
    (setFlag_keeps hb) hb)))

theorem answerSlots_keeps {base : State} {s : State} {c : BitVec 48} {p : Slot → Bool} {status detail : Nat}
    (hb : Keeps base s) : Keeps base (answerSlots s c p status detail) := by
  unfold answerSlots
  split
  · exact hb
  · extract_lets 
    exact markOutcome_keeps (modFrame_keeps hb)

theorem settle_keeps {base : State} {s : State} (hb : Keeps base s) : Keeps base (settle s) := by
  unfold settle
  extract_lets 
  exact Keeps.same hb

theorem toPosting_keeps {base : State} {s : State} {c : BitVec 48}
    (hb : Keeps base s) : Keeps base (toPosting s c) := by
  unfold toPosting
  exact settle_keeps (modFrame_keeps hb)

theorem traceExit_keeps {base : State} {s : State} {fp reason vec : Nat}
    (hb : Keeps base s) : Keeps base (traceExit s fp reason vec) := by
  unfold traceExit
  exact traceProgEvent_keeps (traceCnd_keeps hb)

theorem restoreFw_mem (c : Cnd) : (restoreFw c).mem = c.mem := by
  unfold restoreFw
  split <;> rfl

theorem leaveHandler_keeps {s0 : State} {s : State} (h : Keeps s0 s) : Keeps s0 (leaveHandler s) :=
  Keeps.same h ⟨⟨rfl, rfl, rfl, rfl⟩, rfl, rfl, rfl, rfl, rfl, rfl, restoreFw_mem s.cnd, rfl, rfl, rfl, rfl, rfl, rfl⟩

theorem stopHandler_keeps {base : State} {s : State} (hb : Keeps base s) : Keeps base (stopHandler s) := by
  unfold stopHandler
  split
  · exact leaveHandler_keeps (traceExit_keeps hb)
  · exact hb

theorem endComp_keeps {base : State} {s : State} {status detail : Nat} {body : List Word}
    (hb : Keeps base s) : Keeps base (endComp s status detail body) := by
  unfold endComp
  split
  · exact hb
  · extract_lets _ s0 s1 s2 s3 _ _ _ s4
    have g_s0 : Keeps base s0 := raiseInt_keeps hb
    have g_s1 : Keeps base s1 := modFrame_keeps g_s0
    have g_s2 : Keeps base s2 := answerSlots_keeps g_s1
    have g_s3 : Keeps base s3 := stopHandler_keeps g_s2
    have g_s4 : Keeps base s4 := Keeps.same g_s3
    split
    · exact Keeps.ite (toPosting_keeps g_s4) g_s4
    · exact g_s4

theorem faultComp_keeps {base : State} {s : State} {detail : Nat}
    (hb : Keeps base s) : Keeps base (faultComp s detail) := by
  unfold faultComp
  exact endComp_keeps (Keeps.ite (sendAll_keeps hb) hb)

theorem addChange_keeps {base : State} {s : State} {c : Change} (hb : Keeps base s) : Keeps base (addChange s c) := by
  unfold addChange
  exact Keeps.same hb

theorem addWrite_keeps {base : State} {s : State} {mbx : Bool} {stamp a : Nat} {v : Word}
    (hb : Keeps base s) : Keeps base (addWrite s mbx stamp a v) := by
  unfold addWrite
  extract_lets _ _ _ s1
  have g_s1 : Keeps base s1 := Keeps.same hb
  exact addChange_keeps (wrStaged_keeps g_s1)

theorem setLane_keeps {base : State} {s : State} {n : Nat} {x : Lane}
    (hb : Keeps base s) : Keeps base (setLane s n x) := by
  unfold setLane
  exact Keeps.same hb

theorem putRec_keeps {s0 : State} {s : State} {half : Bool} {count : BitVec 48} {n : Nat} {r : Word} (h : Keeps s0 s) :
    Keeps s0 (putRec s half count n r) := by
  unfold putRec
  dsimp only
  split
  · exact traceLane_keeps (setFlag_keeps (setFlag_keeps (modFrame_keeps h)))
  · refine Keeps.upd h ⟨rfl, rfl, rfl, rfl⟩ Sound.regs Sound.staged (fun w => twf_tset _ _ _ w.recs) (fun w => ?_) Sound.cfg
      Sound.capRam Sound.planes Sound.pp Sound.mem Sound.flash Sound.buf Sound.mbxCmd Sound.mbxRpl Sound.ring Sound.queue
    dsimp only
    split
    · exact twf_tset _ _ _ w.stamps
    · exact w.stamps

theorem ingest_keeps {base : State} {s : State} {n : Nat} {r : Word}
    (hb : Keeps base s) : Keeps base (ingest s n r) := by
  unfold ingest
  split
  · exact traceLane_keeps (setFlag_keeps hb)
  · exact putRec_keeps hb

theorem outDrop_keeps {base : State} {s : State} {n : Nat} (hb : Keeps base s) : Keeps base (outDrop s n) := by
  unfold outDrop
  exact traceLane_keeps (setFlag_keeps hb)

theorem execIngestRecordWrite_keeps (n : Fin 16) (s : State) : OutKeeps s (execIngestRecordWrite n s) := by
  have hb := Keeps.refl s
  unfold execIngestRecordWrite
  refine OutKeeps.next ?_
  split
  · extract_lets s1
    have g_s1 : Keeps s s1 := setLane_keeps hb
    exact Keeps.ite (ingest_keeps g_s1) (outDrop_keeps g_s1)
  · split
    · extract_lets s1
      have g_s1 : Keeps s s1 := setLane_keeps hb
      exact Keeps.ite (ingest_keeps g_s1) (outDrop_keeps g_s1)
    · exact hb

theorem execBitstreamBitSample_keeps (n : Fin 16) (b : Bool)
    (s : State) : OutKeeps s (execBitstreamBitSample n b s) := by
  have hb := Keeps.refl s
  unfold execBitstreamBitSample
  refine OutKeeps.next ?_
  refine Keeps.ite ?_ hb
  extract_lets 
  exact setLane_keeps hb

theorem flushLane_keeps {base : State} {s : State} {half : Bool} {count : BitVec 48} {n : Nat}
    (hb : Keeps base s) : Keeps base (flushLane s half count n) := by
  unfold flushLane
  extract_lets 
  exact forEach_keeps (setLane_keeps hb) (fun _ _ q => putRec_keeps q)

theorem flushLanes_keeps {base : State} {s : State} {half : Bool} {count : BitVec 48}
    (hb : Keeps base s) : Keeps base (flushLanes s half count) := by
  unfold flushLanes
  exact forEach_keeps hb (fun _ _ q => Keeps.ite (flushLane_keeps q) q)

theorem assignHalf_keeps {s0 : State} {s : State} {half : Bool} (h : Keeps s0 s) : Keeps s0 (assignHalf s half) := by
  unfold assignHalf
  refine Keeps.upd h ⟨rfl, rfl, rfl, rfl⟩ Sound.regs Sound.staged Sound.recs (fun w => ?_) Sound.cfg Sound.capRam Sound.planes
    Sound.pp Sound.mem Sound.flash Sound.buf Sound.mbxCmd Sound.mbxRpl Sound.ring Sound.queue
  refine twf_foldl _ _ w.stamps (fun t b g => ?_)
  split <;> split <;> first | exact twf_tset _ _ _ g | exact g

theorem overlapLane_keeps {base : State} {s : State} {half : Bool} {count : BitVec 48} {n : Nat}
    (hb : Keeps base s) : Keeps base (overlapLane s half count n) := by
  unfold overlapLane
  extract_lets _ _ _ _ s1
  have g_s1 : Keeps base s1 := Keeps.same hb
  exact Keeps.ite (traceLane_keeps (forEach_keeps g_s1 (fun _ _ q => putRec_keeps q))) hb

theorem overlapLanes_keeps {base : State} {s : State} {half : Bool} {count : BitVec 48}
    (hb : Keeps base s) : Keeps base (overlapLanes s half count) := by
  unfold overlapLanes
  exact forEach_keeps hb (fun _ _ q => overlapLane_keeps q)

theorem dropLanes_keeps {base : State} {s : State} (hb : Keeps base s) : Keeps base (dropLanes s) := by
  unfold dropLanes
  extract_lets _ _ s1
  have g_s1 : Keeps base s1 := Keeps.same hb
  exact Keeps.ite (setFlag_keeps g_s1) g_s1

end Sys2Proof.Machine
end

