-- ==== Sys2Proof/Laws/KeepsFabric.lean ====
section
/-! SUPPORT. One lemma per operation of the fabric, its images, captures and the scrubber: it keeps what Laws/Keeps.lean names. -/

namespace Sys2Proof.Machine

open Sys2Proof

-- one proof at a time: the whole package is checked as one text
set_option Elab.async false

theorem setCell_keeps {base : State} {s : State} {c : Nat} {x : Cell}
    (hb : Keeps base s) : Keeps base (setCell s c x) := by
  unfold setCell
  exact Keeps.same hb

theorem setPort_keeps {base : State} {s : State} {n : Nat} {x : Serial}
    (hb : Keeps base s) : Keeps base (setPort s n x) := by
  unfold setPort
  exact Keeps.same hb

theorem cellStep_keeps {base : State} {s : State} {c t : Nat} {x : CellCore}
    (hb : Keeps base s) : Keeps base (cellStep s c t x) := by
  unfold cellStep
  extract_lets 
  exact setCell_keeps hb

theorem capCell_keeps {base : State} {s : State} {c : Nat} {cap : CellCore} {domain : Nat}
    (hb : Keeps base s) : Keeps base (capCell s c cap domain) := by
  unfold capCell
  repeat' first
    | with_reducible assumption
    | split
    | with_reducible refine Keeps.fst_of_eq (by assumption) ?_
    | with_reducible refine Keeps.same ?_ ⟨⟨rfl, rfl, rfl, rfl⟩, rfl, rfl, rfl, rfl, rfl, rfl, rfl, rfl, rfl, rfl,
      rfl, rfl, rfl⟩
    | with_reducible refine Keeps.upd ?_ ⟨rfl, rfl, rfl, rfl⟩ ?_ ?_ ?_ ?_ ?_ ?_ ?_ ?_ ?_ ?_ ?_ ?_ ?_ ?_ ?_
    | with_reducible exact Sound.regs
    | with_reducible exact Sound.staged
    | with_reducible exact Sound.recs
    | with_reducible exact Sound.stamps
    | with_reducible exact Sound.cfg
    | with_reducible exact Sound.capRam
    | with_reducible exact Sound.planes
    | with_reducible exact Sound.pp
    | with_reducible exact Sound.mem
    | with_reducible exact Sound.flash
    | with_reducible exact Sound.buf
    | with_reducible exact Sound.mbxCmd
    | with_reducible exact Sound.mbxRpl
    | with_reducible exact Sound.ring
    | with_reducible exact Sound.queue
    | exact fun _ => twf_tsets _ _ _ rfl
    | exact fun w => twf_tsets _ _ _ (Sound.capRam w)
    | dsimp only

theorem capEdge_keeps {base : State} {s : State} {c : Nat} (hb : Keeps base s) : Keeps base (capEdge s c) := by
  unfold capEdge
  exact Keeps.ite (capCell_keeps (Keeps.same hb)) hb

theorem onEdge_keeps {base : State} {s : State} {c t : Nat} {pins : BitVec 40} {op : Nat} {k : State}
    (hb : Keeps base s) (hb1 : Keeps base k) : Keeps base (onEdge s c t pins op k) := by
  unfold onEdge
  exact Keeps.ite (capEdge_keeps (Keeps.ite hb1 hb)) hb

theorem cellResult_keeps {base : State} {s : State} {c : Fin 64} {t : Nat} {pins : BitVec 40} {op nsrc : Nat}
    {f : Word → CellCore → BitVec 24 → BitVec 24 → BitVec 24}
    (hb : Keeps base s) : Keeps base (cellResult s c t pins op nsrc f) := by
  unfold cellResult
  refine onEdge_keeps hb ?_
  extract_lets 
  exact cellStep_keeps hb

theorem cellArith_keeps {base : State} {s : State} {c : Fin 64} {t : Nat} {pins : BitVec 40} {op : Nat}
    (hb : Keeps base s) : Keeps base (cellArith s c t pins op) := by
  unfold cellArith
  refine onEdge_keeps hb ?_
  extract_lets 
  exact cellStep_keeps hb

theorem cellTest_keeps {base : State} {s : State} {c : Fin 64} {t : Nat} {pins : BitVec 40} {op nsrc : Nat}
    {f : Word → BitVec 24 → BitVec 24 → Bool} (hb : Keeps base s) : Keeps base (cellTest s c t pins op nsrc f) := by
  unfold cellTest
  refine onEdge_keeps hb ?_
  extract_lets 
  exact cellStep_keeps hb

theorem execCellNop_keeps (c : Fin 64) (t : Nat) (pins : BitVec 40)
    (s : State) : OutKeeps s (execCellNop c t pins s) := by
  have hb := Keeps.refl s
  unfold execCellNop
  exact OutKeeps.next (onEdge_keeps hb (cellStep_keeps hb))

theorem execCellMov_keeps (c : Fin 64) (t : Nat) (pins : BitVec 40)
    (s : State) : OutKeeps s (execCellMov c t pins s) := by
  have hb := Keeps.refl s
  unfold execCellMov
  exact OutKeeps.next (cellResult_keeps hb)

theorem execCellAdd_keeps (c : Fin 64) (t : Nat) (pins : BitVec 40)
    (s : State) : OutKeeps s (execCellAdd c t pins s) := by
  have hb := Keeps.refl s
  unfold execCellAdd
  exact OutKeeps.next (cellArith_keeps hb)

theorem execCellAdc_keeps (c : Fin 64) (t : Nat) (pins : BitVec 40)
    (s : State) : OutKeeps s (execCellAdc c t pins s) := by
  have hb := Keeps.refl s
  unfold execCellAdc
  exact OutKeeps.next (cellArith_keeps hb)

theorem execCellSub_keeps (c : Fin 64) (t : Nat) (pins : BitVec 40)
    (s : State) : OutKeeps s (execCellSub c t pins s) := by
  have hb := Keeps.refl s
  unfold execCellSub
  exact OutKeeps.next (cellArith_keeps hb)

theorem execCellSbc_keeps (c : Fin 64) (t : Nat) (pins : BitVec 40)
    (s : State) : OutKeeps s (execCellSbc c t pins s) := by
  have hb := Keeps.refl s
  unfold execCellSbc
  exact OutKeeps.next (cellArith_keeps hb)

theorem execCellAnd_keeps (c : Fin 64) (t : Nat) (pins : BitVec 40)
    (s : State) : OutKeeps s (execCellAnd c t pins s) := by
  have hb := Keeps.refl s
  unfold execCellAnd
  exact OutKeeps.next (cellResult_keeps hb)

theorem execCellOr_keeps (c : Fin 64) (t : Nat) (pins : BitVec 40)
    (s : State) : OutKeeps s (execCellOr c t pins s) := by
  have hb := Keeps.refl s
  unfold execCellOr
  exact OutKeeps.next (cellResult_keeps hb)

theorem execCellXor_keeps (c : Fin 64) (t : Nat) (pins : BitVec 40)
    (s : State) : OutKeeps s (execCellXor c t pins s) := by
  have hb := Keeps.refl s
  unfold execCellXor
  exact OutKeeps.next (cellResult_keeps hb)

theorem execCellShl_keeps (c : Fin 64) (t : Nat) (pins : BitVec 40)
    (s : State) : OutKeeps s (execCellShl c t pins s) := by
  have hb := Keeps.refl s
  unfold execCellShl
  exact OutKeeps.next (cellResult_keeps hb)

theorem execCellShr_keeps (c : Fin 64) (t : Nat) (pins : BitVec 40)
    (s : State) : OutKeeps s (execCellShr c t pins s) := by
  have hb := Keeps.refl s
  unfold execCellShr
  exact OutKeeps.next (cellResult_keeps hb)

theorem execCellSar_keeps (c : Fin 64) (t : Nat) (pins : BitVec 40)
    (s : State) : OutKeeps s (execCellSar c t pins s) := by
  have hb := Keeps.refl s
  unfold execCellSar
  exact OutKeeps.next (cellResult_keeps hb)

theorem execCellMull_keeps (c : Fin 64) (t : Nat) (pins : BitVec 40)
    (s : State) : OutKeeps s (execCellMull c t pins s) := by
  have hb := Keeps.refl s
  unfold execCellMull
  exact OutKeeps.next (cellResult_keeps hb)

theorem execCellMulh_keeps (c : Fin 64) (t : Nat) (pins : BitVec 40)
    (s : State) : OutKeeps s (execCellMulh c t pins s) := by
  have hb := Keeps.refl s
  unfold execCellMulh
  exact OutKeeps.next (cellResult_keeps hb)

theorem execCellCmplt_keeps (c : Fin 64) (t : Nat) (pins : BitVec 40)
    (s : State) : OutKeeps s (execCellCmplt c t pins s) := by
  have hb := Keeps.refl s
  unfold execCellCmplt
  exact OutKeeps.next (cellTest_keeps hb)

theorem execCellCmpeq_keeps (c : Fin 64) (t : Nat) (pins : BitVec 40)
    (s : State) : OutKeeps s (execCellCmpeq c t pins s) := by
  have hb := Keeps.refl s
  unfold execCellCmpeq
  exact OutKeeps.next (cellTest_keeps hb)

theorem execCellCmpltu_keeps (c : Fin 64) (t : Nat) (pins : BitVec 40)
    (s : State) : OutKeeps s (execCellCmpltu c t pins s) := by
  have hb := Keeps.refl s
  unfold execCellCmpltu
  exact OutKeeps.next (cellTest_keeps hb)

theorem execCellSat_keeps (c : Fin 64) (t : Nat) (pins : BitVec 40)
    (s : State) : OutKeeps s (execCellSat c t pins s) := by
  have hb := Keeps.refl s
  unfold execCellSat
  exact OutKeeps.next (cellResult_keeps hb)

theorem execCellBtst_keeps (c : Fin 64) (t : Nat) (pins : BitVec 40)
    (s : State) : OutKeeps s (execCellBtst c t pins s) := by
  have hb := Keeps.refl s
  unfold execCellBtst
  exact OutKeeps.next (cellTest_keeps hb)

theorem holdCell_keeps {base : State} {s : State} {c : Nat} (hb : Keeps base s) : Keeps base (holdCell s c) := by
  unfold holdCell
  exact setCell_keeps hb

theorem execCellOutl_keeps (c : Fin 64) (t : Nat) (pins : BitVec 40)
    (s : State) : OutKeeps s (execCellOutl c t pins s) := by
  have hb := Keeps.refl s
  unfold execCellOutl
  exact OutKeeps.next (onEdge_keeps hb (Keeps.ite (cellStep_keeps (traceLane_keeps (setFlag_keeps hb))) (Keeps.ite
    (cellStep_keeps (outDrop_keeps hb)) (Keeps.ite (holdCell_keeps hb) (cellStep_keeps (setLane_keeps hb))))))

theorem execCellSpx_keeps (c : Fin 64) (t : Nat) (pins : BitVec 40)
    (s : State) : OutKeeps s (execCellSpx c t pins s) := by
  have hb := Keeps.refl s
  unfold execCellSpx
  refine OutKeeps.next ?_
  refine onEdge_keeps hb ?_
  extract_lets _ _ _ _ s1
  have g_s1 : Keeps s s1 := cellStep_keeps hb
  exact Keeps.ite (holdCell_keeps hb) (Keeps.ite g_s1 (Keeps.ite (setFlag_keeps g_s1) (setPort_keeps g_s1)))

theorem execCellSpr_keeps (c : Fin 64) (t : Nat) (pins : BitVec 40)
    (s : State) : OutKeeps s (execCellSpr c t pins s) := by
  have hb := Keeps.refl s
  unfold execCellSpr
  refine OutKeeps.next ?_
  refine onEdge_keeps hb ?_
  extract_lets _ _ _ s1
  have g_s1 : Keeps s s1 := cellStep_keeps hb
  exact Keeps.ite (setPort_keeps g_s1) g_s1

theorem execCellFlr_keeps (c : Fin 64) (t : Nat) (pins : BitVec 40)
    (s : State) : OutKeeps s (execCellFlr c t pins s) := by
  have hb := Keeps.refl s
  unfold execCellFlr
  refine OutKeeps.next ?_
  refine onEdge_keeps hb ?_
  extract_lets _ _ _ s1
  have g_s1 : Keeps s s1 := cellStep_keeps hb
  exact Keeps.ite (setFlag_keeps g_s1) g_s1

theorem execSerialTransferDone_keeps (n : Fin 4) (rx : BitVec 24) (ack : Bool)
    (s : State) : OutKeeps s (execSerialTransferDone n rx ack s) := by
  have hb := Keeps.refl s
  unfold execSerialTransferDone
  refine OutKeeps.next ?_
  refine Keeps.ite ?_ hb
  extract_lets 
  exact setPort_keeps hb

theorem execUartReceive_keeps (n : Fin 4) (b : Byte) (bad : Bool)
    (s : State) : OutKeeps s (execUartReceive n b bad s) := by
  have hb := Keeps.refl s
  unfold execUartReceive
  refine OutKeeps.next ?_
  refine Keeps.ite ?_ hb
  extract_lets 
  exact setPort_keeps hb

theorem execSwapHoldEnd_keeps (s : State) : OutKeeps s (execSwapHoldEnd s) := by
  have hb := Keeps.refl s
  unfold execSwapHoldEnd
  exact OutKeeps.next (Keeps.same hb)

theorem execBankSupplyFall_keeps (b : Fin 2) (s : State) : OutKeeps s (execBankSupplyFall b s) := by
  have hb := Keeps.refl s
  unfold execBankSupplyFall
  exact OutKeeps.next (Keeps.ite (Keeps.same hb) (setFlag_keeps (Keeps.same hb)))

theorem execBankSupplyRise_keeps (b : Fin 2) (s : State) : OutKeeps s (execBankSupplyRise b s) := by
  have hb := Keeps.refl s
  unfold execBankSupplyRise
  exact OutKeeps.next (Keeps.same hb)

theorem execBankOutputEnable_keeps (b : Fin 2) (s : State) : OutKeeps s (execBankOutputEnable b s) := by
  have hb := Keeps.refl s
  unfold execBankOutputEnable
  exact OutKeeps.next (Keeps.ite (Keeps.same hb) hb)

theorem writeBank_keeps {s0 : State} {s : State} {bank : Bool} {pl : List Byte} {n : Nat} (h : Keeps s0 s) :
    Keeps s0 (writeBank s bank pl n) := by
  unfold writeBank
  dsimp only
  generalize List.map _ _ = ks
  exact Keeps.upd h ⟨rfl, rfl, rfl, rfl⟩ Sound.regs Sound.staged Sound.recs Sound.stamps
    (fun w => twf_foldl _ _ w.cfg (fun _ _ g => twf_tset _ _ _ g)) Sound.capRam Sound.planes Sound.pp Sound.mem Sound.flash
    Sound.buf Sound.mbxCmd Sound.mbxRpl Sound.ring Sound.queue

theorem hardLoad_keeps {base : State} {s : State} {bank : Bool}
    (hb : Keeps base s) : Keeps base (hardLoad s bank) := by
  unfold hardLoad
  exact forEach_keeps hb (fun _ _ q => wrBoth_keeps q)

theorem swapFabric_keeps {s0 : State} {s : State} (h : Keeps s0 s) : Keeps s0 (swapFabric s) := by
  unfold swapFabric
  exact setFlag_keeps (wr_keeps (Keeps.same (hardLoad_keeps h)
    ⟨⟨rfl, rfl, rfl, rfl⟩, rfl, rfl, rfl, rfl, rfl, rfl, rfl, rfl, rfl, rfl, rfl, rfl, rfl⟩))

theorem capArm_keeps {base : State} {s : State} (hb : Keeps base s) : Keeps base (capArm s) := by
  unfold capArm
  exact Keeps.same hb

theorem capDiscard_keeps {base : State} {s : State} (hb : Keeps base s) : Keeps base (capDiscard s) := by
  unfold capDiscard
  exact Keeps.same hb

theorem capWrite_keeps {base : State} {s : State} {v : Word} (hb : Keeps base s) : Keeps base (capWrite s v) := by
  unfold capWrite
  extract_lets s1 s2
  have g_s1 : Keeps base s1 := Keeps.ite (capDiscard_keeps hb) hb
  have g_s2 : Keeps base s2 := wr_keeps g_s1
  exact Keeps.ite g_s1 (Keeps.ite (capArm_keeps g_s2) g_s2)

theorem execCaptureRecord_keeps (s : State) : OutKeeps s (execCaptureRecord s) := by
  have hb := Keeps.refl s
  unfold execCaptureRecord
  repeat' first
    | with_reducible assumption
    | with_reducible apply Keeps.ite
    | with_reducible apply forEach_keeps
    | with_reducible apply capCell_keeps
    | with_reducible apply useFree_keeps
    | apply OutKeeps.next
    | split
    | intro _ _ _ _ _
    | intro _ _ _ _
    | intro _ _ _
    | intro _ _
    | with_reducible refine Keeps.fst_of_eq (by assumption) ?_
    | with_reducible refine Keeps.same ?_ ⟨⟨rfl, rfl, rfl, rfl⟩, rfl, rfl, rfl, rfl, rfl, rfl, rfl, rfl, rfl, rfl,
      rfl, rfl, rfl⟩
    | with_reducible refine Keeps.upd ?_ ⟨rfl, rfl, rfl, rfl⟩ ?_ ?_ ?_ ?_ ?_ ?_ ?_ ?_ ?_ ?_ ?_ ?_ ?_ ?_ ?_
    | with_reducible exact Sound.regs
    | with_reducible exact Sound.staged
    | with_reducible exact Sound.recs
    | with_reducible exact Sound.stamps
    | with_reducible exact Sound.cfg
    | with_reducible exact Sound.capRam
    | with_reducible exact Sound.planes
    | with_reducible exact Sound.pp
    | with_reducible exact Sound.mem
    | with_reducible exact Sound.flash
    | with_reducible exact Sound.buf
    | with_reducible exact Sound.mbxCmd
    | with_reducible exact Sound.mbxRpl
    | with_reducible exact Sound.ring
    | with_reducible exact Sound.queue
    | exact fun _ => twf_tsets _ _ _ rfl
    | exact fun w => twf_tsets _ _ _ (Sound.capRam w)
    | exact fun w => twf_filter _ _ (Sound.capRam w)
    | dsimp only

theorem triggerLine_keeps {base : State} {s : State} {k : Nat}
    (hb : Keeps base s) : Keeps base (triggerLine s k) := by
  unfold triggerLine
  extract_lets _ _ _ s1
  have g_s1 : Keeps base s1 := Keeps.same hb
  exact Keeps.ite (setFlag_keeps (setFlag_keeps g_s1)) g_s1

theorem strobeLane_keeps {base : State} {s : State} {n : Nat} (hb : Keeps base s) : Keeps base (strobeLane s n) := by
  unfold strobeLane
  extract_lets _ _ _ _ s1
  have g_s1 : Keeps base s1 := Keeps.same hb
  exact Keeps.ite (traceLane_keeps (setFlag_keeps (setFlag_keeps g_s1))) g_s1

theorem strobes_keeps {base : State} {s : State} {w : Word} (hb : Keeps base s) : Keeps base (strobes s w) := by
  unfold strobes
  extract_lets s1
  have g_s1 : Keeps base s1 := forEach_keeps hb (fun _ _ q => Keeps.ite (strobeLane_keeps q) q)
  exact Keeps.ite (triggerLine_keeps g_s1) g_s1

theorem execFabricLoadComplete_keeps (s : State) : OutKeeps s (execFabricLoadComplete s) := by
  have hb := Keeps.refl s
  unfold execFabricLoadComplete
  repeat' first
    | with_reducible assumption
    | with_reducible apply Keeps.ite
    | with_reducible apply reservedField_keeps
    | with_reducible apply finishOpt_keeps
    | with_reducible apply writeBank_keeps
    | with_reducible apply addChange_keeps
    | apply OutKeeps.next
    | split
    | with_reducible refine Keeps.fst_of_eq (by assumption) ?_
    | with_reducible refine Keeps.same ?_ ⟨⟨rfl, rfl, rfl, rfl⟩, rfl, rfl, rfl, rfl, rfl, rfl, rfl, rfl, rfl, rfl,
      rfl, rfl, rfl⟩
    | dsimp only

theorem suspectFrame_keeps {base : State} {s : State} {c : BitVec 48}
    (hb : Keeps base s) : Keeps base (suspectFrame s c) := by
  unfold suspectFrame
  extract_lets s1 s2 s3
  have g_s1 : Keeps base s1 := modFrame_keeps hb
  have g_s2 : Keeps base s2 := by
    unfold s2
    split
    · exact Keeps.ite (faultComp_keeps g_s1) g_s1
    · exact g_s1
  have g_s3 : Keeps base s3 := answerSlots_keeps g_s2
  split
  · exact Keeps.ite (toPosting_keeps g_s3) g_s3
  · exact g_s3

theorem markSuspect_keeps {base : State} {s : State} {c : BitVec 48}
    (hb : Keeps base s) : Keeps base (markSuspect s c) := by
  unfold markSuspect
  extract_lets _ _ s1 s2
  have g_s1 : Keeps base s1 := Keeps.same hb
  have g_s2 : Keeps base s2 := forEach_keeps g_s1 (fun _ _ q => suspectFrame_keeps q)
  exact sticky0_keeps g_s2

theorem errAddr_keeps {base : State} {s : State} {bank : Bool} {f w kind : Nat}
    (hb : Keeps base s) : Keeps base (errAddr s bank f w kind) := by
  unfold errAddr
  exact wr_keeps hb

theorem orderRepair_keeps {base : State} {s : State} {f : Nat}
    (hb : Keeps base s) : Keeps base (orderRepair s f) := by
  unfold orderRepair
  exact Keeps.ite hb (Keeps.ite (Keeps.same hb) (setFlag_keeps hb))

theorem armLost_keeps {base : State} {s : State} (hb : Keeps base s) : Keeps base (armLost s) := by
  unfold armLost
  extract_lets _ _ s1
  have g_s1 : Keeps base s1 := Keeps.same hb
  exact useFree_keeps (finishOpt_keeps (setFlag_keeps g_s1))

theorem gateUnit_keeps {base : State} {s : State} {f : Nat} {c : BitVec 48}
    (hb : Keeps base s) : Keeps base (gateUnit s f c) := by
  unfold gateUnit
  extract_lets _ s1
  have g_s1 : Keeps base s1 := Keeps.ite (markSuspect_keeps (Keeps.same hb)) hb
  exact orderRepair_keeps g_s1

theorem configError_keeps {base : State} {s : State} {bank : Bool} {f : Nat} {c : BitVec 48}
    (hb : Keeps base s) : Keeps base (configError s bank f c) := by
  unfold configError
  exact Keeps.ite (gateUnit_keeps hb) (Keeps.ite (armLost_keeps hb) hb)

theorem execCorrectorUe_keeps (bank : Bool) (f : Fin 96) (w : Fin 64)
    (s : State) : OutKeeps s (execCorrectorUe bank f w s) := by
  have hb := Keeps.refl s
  unfold execCorrectorUe
  exact OutKeeps.next (Keeps.ite (configError_keeps (errAddr_keeps (setFlag_keeps hb))) hb)

theorem refresh_keeps {base : State} {s : State} (hb : Keeps base s) : Keeps base (refresh s) := by
  unfold refresh
  extract_lets _ _ _ _ _ _ s1 _ s2 s3
  have g_s1 : Keeps base s1 := Keeps.same hb
  have g_s2 : Keeps base s2 := Keeps.ite (wr_keeps g_s1) g_s1
  have g_s3 : Keeps base s3 := Keeps.ite (sticky0_keeps g_s2) g_s2
  exact Keeps.ite (sticky0_keeps g_s3) g_s3

theorem execScrubPassStart_keeps (s : State) : OutKeeps s (execScrubPassStart s) := by
  have hb := Keeps.refl s
  unfold execScrubPassStart
  refine OutKeeps.next ?_
  refine Keeps.ite hb ?_
  refine Keeps.ite (setFlag_keeps (Keeps.same hb)) ?_
  extract_lets s1
  have g_s1 : Keeps s s1 := refresh_keeps hb
  exact Keeps.same g_s1

theorem execScrubIdleRefresh_keeps (s : State) : OutKeeps s (execScrubIdleRefresh s) := by
  have hb := Keeps.refl s
  unfold execScrubIdleRefresh
  exact OutKeeps.next (Keeps.ite hb (refresh_keeps hb))

theorem scrubWord_keeps {base : State} {s : State} {bank : Bool} {f : Nat} {w : Nat}
    (hb : Keeps base s) : Keeps base (scrubWord s bank f w) := by
  unfold scrubWord
  extract_lets _ _ s1
  have g_s1 : Keeps base s1 := satReg_keeps (setFlag_keeps hb)
  exact Keeps.ite hb (Keeps.ite (errAddr_keeps (setFlag_keeps hb)) (Keeps.ite (setFlag_keeps g_s1) (Keeps.upd g_s1
    ⟨rfl, rfl, rfl, rfl⟩ Sound.regs Sound.staged Sound.recs Sound.stamps (fun w => twf_tset _ _ _ w.cfg) Sound.capRam
    Sound.planes Sound.pp Sound.mem Sound.flash Sound.buf Sound.mbxCmd Sound.mbxRpl Sound.ring Sound.queue)))

theorem scrubFrame_keeps {base : State} {s : State} {bank : Bool} {f : Nat}
    (hb : Keeps base s) : Keeps base (scrubFrame s bank f) := by
  unfold scrubFrame
  refine Keeps.ite hb ?_
  extract_lets s1 _ s2
  have g_s1 : Keeps base s1 := forEach_keeps hb (fun _ _ q => scrubWord_keeps q)
  have g_s2 : Keeps base s2 := useFree_keeps (errAddr_keeps (setFlag_keeps g_s1))
  exact Keeps.ite (configError_keeps g_s1) (Keeps.ite (configError_keeps g_s2) (Keeps.same g_s1))

theorem execScrubFrameCheck_keeps (s : State) : OutKeeps s (execScrubFrameCheck s) := by
  have hb := Keeps.refl s
  unfold execScrubFrameCheck
  refine OutKeeps.next ?_
  split
  · exact Keeps.ite (scrubFrame_keeps (Keeps.same hb)) hb
  · exact hb

theorem execScrubPassEnd_keeps (s : State) : OutKeeps s (execScrubPassEnd s) := by
  have hb := Keeps.refl s
  unfold execScrubPassEnd
  refine OutKeeps.next ?_
  split
  · exact Keeps.ite (wr_keeps (Keeps.same hb)) hb
  · exact hb

theorem execFlashRepairDone_keeps (f : Fin 96) (s : State) : OutKeeps s (execFlashRepairDone f s) := by
  have hb := Keeps.refl s
  unfold execFlashRepairDone
  repeat' first
    | with_reducible assumption
    | with_reducible apply Keeps.ite
    | with_reducible apply setFlag_keeps
    | with_reducible apply orderRepair_keeps
    | apply OutKeeps.next
    | with_reducible apply foldl_keeps
    | with_reducible apply foldl_fst_keeps
    | split
    | intro _ _ _ _ _
    | intro _ _ _ _
    | intro _ _ _
    | intro _ _
    | with_reducible refine Keeps.fst_of_eq (by assumption) ?_
    | with_reducible refine Keeps.same ?_ ⟨⟨rfl, rfl, rfl, rfl⟩, rfl, rfl, rfl, rfl, rfl, rfl, rfl, rfl, rfl, rfl,
      rfl, rfl, rfl⟩
    | with_reducible refine Keeps.upd ?_ ⟨rfl, rfl, rfl, rfl⟩ ?_ ?_ ?_ ?_ ?_ ?_ ?_ ?_ ?_ ?_ ?_ ?_ ?_ ?_ ?_
    | with_reducible exact Sound.regs
    | with_reducible exact Sound.staged
    | with_reducible exact Sound.recs
    | with_reducible exact Sound.stamps
    | with_reducible exact Sound.cfg
    | with_reducible exact Sound.capRam
    | with_reducible exact Sound.planes
    | with_reducible exact Sound.pp
    | with_reducible exact Sound.mem
    | with_reducible exact Sound.flash
    | with_reducible exact Sound.buf
    | with_reducible exact Sound.mbxCmd
    | with_reducible exact Sound.mbxRpl
    | with_reducible exact Sound.ring
    | with_reducible exact Sound.queue
    | exact fun w => twf_tset _ _ _ (Sound.cfg w)
    | exact fun w => twf_filter _ _ (Sound.cfg w)
    | exact fun w => twf_foldl_tset _ _ _ _ (Sound.cfg w)
    | dsimp only

theorem sweepWord_keeps {base : State} {s : State} {e : Nat × Nat}
    (hb : Keeps base s) : Keeps base (sweepWord s e) := by
  unfold sweepWord
  split
  · exact hb
  · extract_lets _ _ s1 s2
    have g_s1 : Keeps base s1 := Keeps.same hb
    have g_s2 : Keeps base s2 := Keeps.ite g_s1 (wrBytes_keeps g_s1)
    exact wr_keeps g_s2

theorem execMemorySweep_keeps (s : State) : OutKeeps s (execMemorySweep s) := by
  have hb := Keeps.refl s
  unfold execMemorySweep
  exact OutKeeps.next (wr_keeps (forEach_keeps hb (fun _ _ q => sweepWord_keeps q)))

theorem releaseRepaired_keeps {base : State} {s : State} (hb : Keeps base s) : Keeps base (releaseRepaired s) := by
  unfold releaseRepaired
  extract_lets _ s1 _ s2
  have g_s1 : Keeps base s1 := by
    unfold s1
    refine forEach_keeps hb ?_
    intro _ _ q
    extract_lets _ s'
    have g_s' : Keeps base s' := Keeps.same q
    exact Keeps.ite (setCell_keeps g_s') g_s'
  have g_s2 : Keeps base s2 := Keeps.same g_s1
  exact Keeps.ite (Keeps.same g_s2) g_s2

theorem upset_keeps {base : State} {s : State} {u : UpsetAt} (hb : Keeps base s) : Keeps base (upset s u) := by
  unfold upset
  repeat' first
    | with_reducible assumption
    | with_reducible apply Keeps.ite
    | split
    | intro _ _ _ _ _
    | intro _ _ _ _
    | intro _ _ _
    | intro _ _
    | with_reducible refine Keeps.fst_of_eq (by assumption) ?_
    | with_reducible refine Keeps.same ?_ ⟨⟨rfl, rfl, rfl, rfl⟩, rfl, rfl, rfl, rfl, rfl, rfl, rfl, rfl, rfl, rfl,
      rfl, rfl, rfl⟩
    | with_reducible refine Keeps.upd ?_ ⟨rfl, rfl, rfl, rfl⟩ ?_ ?_ ?_ ?_ ?_ ?_ ?_ ?_ ?_ ?_ ?_ ?_ ?_ ?_ ?_
    | with_reducible exact Sound.regs
    | with_reducible exact Sound.staged
    | with_reducible exact Sound.recs
    | with_reducible exact Sound.stamps
    | with_reducible exact Sound.cfg
    | with_reducible exact Sound.capRam
    | with_reducible exact Sound.planes
    | with_reducible exact Sound.pp
    | with_reducible exact Sound.mem
    | with_reducible exact Sound.flash
    | with_reducible exact Sound.buf
    | with_reducible exact Sound.mbxCmd
    | with_reducible exact Sound.mbxRpl
    | with_reducible exact Sound.ring
    | with_reducible exact Sound.queue
    | exact fun w => twf_tset _ _ _ (Sound.planes w)
    | dsimp only

theorem execUpset_keeps (u : UpsetAt) (s : State) : OutKeeps s (execUpset u s) := by
  have hb := Keeps.refl s
  unfold execUpset
  exact OutKeeps.next (upset_keeps hb)

end Sys2Proof.Machine
end

