-- ==== Sys2Proof/Laws/KeepsArray.lean ====
section
/-! SUPPORT. One lemma per operation of the angle clock, the array, the group and reply posting: it keeps what Laws/Keeps.lean names. -/

namespace Sys2Proof.Machine

open Sys2Proof

-- one proof at a time: the whole package is checked as one text
set_option Elab.async false

theorem setAng_keeps {base : State} {s : State} {a : Ang} (hb : Keeps base s) : Keeps base (setAng s a) := by
  unfold setAng
  exact Keeps.same hb

theorem pushIval_keeps {base : State} {s : State} {iv : Nat} (hb : Keeps base s) : Keeps base (pushIval s iv) := by
  unfold pushIval
  extract_lets 
  exact setAng_keeps hb

theorem angFlags_keeps {base : State} {s : State} (hb : Keeps base s) : Keeps base (angFlags s) := by
  unfold angFlags
  extract_lets 
  exact setAng_keeps hb

theorem markCoasted_keeps {base : State} {s : State} (hb : Keeps base s) : Keeps base (markCoasted s) := by
  unfold markCoasted
  exact Keeps.ite (modFrame_keeps (setAng_keeps hb)) hb

theorem markReversed_keeps {base : State} {s : State} (hb : Keeps base s) : Keeps base (markReversed s) := by
  unfold markReversed
  exact setFlag_keeps (modFrame_keeps (setAng_keeps hb))

theorem acquire_keeps {base : State} {s : State} (hb : Keeps base s) : Keeps base (acquire s) := by
  unfold acquire
  exact setAng_keeps hb

theorem abandonFrame_keeps {base : State} {s : State} {status detail : Nat}
    (hb : Keeps base s) : Keeps base (abandonFrame s status detail) := by
  unfold abandonFrame
  split
  · exact hb
  · exact traceFrame_keeps (toPosting_keeps (answerSlots_keeps hb))

theorem enterLost_keeps {base : State} {s : State} {detail : Nat}
    (hb : Keeps base s) : Keeps base (enterLost s detail) := by
  unfold enterLost
  extract_lets s1
  have g_s1 : Keeps base s1 := Keeps.ite (abandonFrame_keeps hb) hb
  exact acquire_keeps (setFlag_keeps g_s1)

theorem loseSource_keeps {base : State} {s : State} (hb : Keeps base s) : Keeps base (loseSource s) := by
  unfold loseSource
  extract_lets 
  exact Keeps.ite (enterLost_keeps hb) (Keeps.ite (enterLost_keeps hb) (setFlag_keeps (markCoasted_keeps
    (setAng_keeps hb))))

theorem addTime_keeps {base : State} {s : State} {dt : Nat} (hb : Keeps base s) : Keeps base (addTime s dt) := by
  unfold addTime
  exact Keeps.same hb

theorem advanceFree_keeps {base : State} {s : State} {dt : Nat}
    (hb : Keeps base s) : Keeps base (advanceFree s dt) := by
  unfold advanceFree
  extract_lets 
  exact addTime_keeps (setAng_keeps hb)

theorem advanceTrack_keeps {base : State} {s : State} {dt : Nat}
    (hb : Keeps base s) : Keeps base (advanceTrack s dt) := by
  unfold advanceTrack
  extract_lets 
  exact addTime_keeps (setAng_keeps hb)

theorem advanceCount_keeps {base : State} {s : State} {dt : Nat}
    (hb : Keeps base s) : Keeps base (advanceCount s dt) := by
  unfold advanceCount
  extract_lets 
  exact Keeps.ite (addTime_keeps hb) (Keeps.ite hb (addTime_keeps (setAng_keeps hb)))

theorem advance_keeps {base : State} {s : State} {dt : Nat} (hb : Keeps base s) : Keeps base (advance s dt) := by
  unfold advance
  exact Keeps.ite (addTime_keeps hb) (Keeps.ite hb (Keeps.ite hb (Keeps.ite (advanceFree_keeps hb) (Keeps.ite
    (angFlags_keeps (advanceTrack_keeps hb)) (angFlags_keeps (advanceCount_keeps hb))))))

theorem execAngleWordAdvance_keeps (dt : Nat) (s : State) : OutKeeps s (execAngleWordAdvance dt s) := by
  have hb := Keeps.refl s
  unfold execAngleWordAdvance
  exact OutKeeps.next (advance_keeps hb)

theorem measureAt_keeps {base : State} {s : State} {k : Int} (hb : Keeps base s) : Keeps base (measureAt s k) := by
  unfold measureAt
  extract_lets 
  exact setAng_keeps hb

theorem setPlane_keeps {base : State} {s : State} {p : Nat} {mask v : Plane}
    (hb : Keeps base s) : Keeps base (setPlane s p mask v) := by
  unfold setPlane
  repeat' first
    | with_reducible assumption
    | split
    | with_reducible refine Keeps.fst_of_eq (by assumption) ?_
    | with_reducible refine Keeps.same ?_ ⟨⟨rfl, rfl, rfl, rfl⟩, rfl, rfl, rfl, rfl, rfl, rfl, rfl, rfl, rfl, rfl,
      rfl, rfl, rfl⟩
    | with_reducible refine Keeps.upd ?_ ⟨rfl, rfl, rfl, rfl⟩ ?_ ?_ ?_ ?_ ?_ ?_ ?_ ?_ ?_ ?_ ?_ ?_ ?_ ?_ ?_
    | with_reducible exact Sound.regs
    | with_reducible exact Sound.staged
    | with_reducible exact Sound.recs
    | with_reducible exact Sound.stamps
    | with_reducible exact Sound.cfg
    | with_reducible exact Sound.capRam
    | with_reducible exact Sound.planes
    | with_reducible exact Sound.pp
    | with_reducible exact Sound.mem
    | with_reducible exact Sound.flash
    | with_reducible exact Sound.buf
    | with_reducible exact Sound.mbxCmd
    | with_reducible exact Sound.mbxRpl
    | with_reducible exact Sound.ring
    | with_reducible exact Sound.queue
    | exact fun w => twf_tset _ _ _ (Sound.planes w)
    | dsimp only

theorem setField_keeps {base : State} {s : State} {p w : Nat} {mask : Plane} {f : Nat → Nat}
    (hb : Keeps base s) : Keeps base (setField s p w mask f) := by
  unfold setField
  exact forEach_keeps hb (fun _ _ q => setPlane_keeps q)

theorem burstRx_keeps {base : State} {s : State} {d edge : Nat} {bursts : List (BitVec 128)}
    (hb : Keeps base s) : Keeps base (burstRx s d edge bursts) := by
  unfold burstRx
  refine Keeps.ite ?_ hb
  extract_lets 
  exact Keeps.same hb

theorem recAny_keeps {base : State} {s : State} {fp : Nat} {r grp chip : Bool}
    (hb : Keeps base s) : Keeps base (recAny s fp r grp chip) := by
  unfold recAny
  exact Keeps.same hb

theorem recTally_keeps {base : State} {s : State} {fp n : Nat}
    (hb : Keeps base s) : Keeps base (recTally s fp n) := by
  unfold recTally
  exact Keeps.same hb

theorem noteCol_keeps {base : State} {s : State} {phys log grp kind : Nat}
    (hb : Keeps base s) : Keeps base (noteCol s phys log grp kind) := by
  unfold noteCol
  refine Keeps.ite hb ?_
  refine Keeps.ite (setFlag_keeps hb) ?_
  extract_lets _ s1
  have g_s1 : Keeps base s1 := logPut_keeps (Keeps.same hb)
  exact Keeps.ite (setFlag_keeps g_s1) g_s1

theorem wr64_keeps {base : State} {s : State} {a v : Nat} (hb : Keeps base s) : Keeps base (wr64 s a v) := by
  unfold wr64
  exact wr_keeps (wr_keeps hb)

theorem faultInfo_keeps {base : State} {s : State} {kind fp pl uaddr : Nat}
    (hb : Keeps base s) : Keeps base (faultInfo s kind fp pl uaddr) := by
  unfold faultInfo
  exact wr64_keeps hb

theorem parityFault_keeps {base : State} {s : State} {fp p : Nat}
    (hb : Keeps base s) : Keeps base (parityFault s fp p) := by
  unfold parityFault
  extract_lets _ _ _ _ s1 s2
  have g_s1 : Keeps base s1 := satReg_keeps (setFlag_keeps (wr_keeps hb))
  have g_s2 : Keeps base s2 := sticky0_keeps g_s1
  exact faultComp_keeps (noteCol_keeps g_s2)

theorem rangeFault_keeps {base : State} {s : State} (hb : Keeps base s) : Keeps base (rangeFault s) := by
  unfold rangeFault
  exact faultComp_keeps (setFlag_keeps hb)

theorem wrWord_keeps {base : State} {s : State} {a : Nat} {v : Word}
    (hb : Keeps base s) : Keeps base (wrWord s a v) := by
  unfold wrWord
  extract_lets s1
  have g_s1 : Keeps base s1 := wrBytes_keeps hb
  exact Keeps.same g_s1

theorem sendCkpt_keeps {base : State} {s : State} (hb : Keeps base s) : Keeps base (sendCkpt s) := by
  unfold sendCkpt
  split
  · exact sendLink_keeps (Keeps.same hb)
  · exact hb

theorem fullCkpts_keeps {base : State} {s : State} (hb : Keeps base s) : Keeps base (fullCkpts s) := by
  unfold fullCkpts
  exact sendCkpt_keeps (sendCkpt_keeps (Keeps.same hb))

theorem sendHeartbeat_keeps {base : State} {s : State} (hb : Keeps base s) : Keeps base (sendHeartbeat s) := by
  unfold sendHeartbeat
  exact sendAll_keeps (Keeps.same hb)

theorem groupCheckpoint_keeps {base : State} {s : State} (hb : Keeps base s) : Keeps base (groupCheckpoint s) := by
  unfold groupCheckpoint
  exact Keeps.ite (Keeps.ite (sendCkpt_keeps hb) (setFlag_keeps hb)) hb

theorem groupBeat_keeps {base : State} {s : State} (hb : Keeps base s) : Keeps base (groupBeat s) := by
  unfold groupBeat
  exact Keeps.ite (sendHeartbeat_keeps hb) hb

theorem soloClock_keeps {base : State} {s : State} {lead : Bool}
    (hb : Keeps base s) : Keeps base (soloClock s lead) := by
  unfold soloClock
  refine Keeps.ite hb ?_
  extract_lets s1 s2
  have g_s1 : Keeps base s1 := Keeps.ite hb (wrBoth_keeps hb)
  have g_s2 : Keeps base s2 := Keeps.ite (abandonFrame_keeps g_s1) g_s1
  exact Keeps.ite (acquire_keeps g_s2) (Keeps.same g_s2)

theorem becomeSolo_keeps {base : State} {s : State} (hb : Keeps base s) : Keeps base (becomeSolo s) := by
  unfold becomeSolo
  extract_lets _ s1 s2
  have g_s1 : Keeps base s1 := Keeps.ite hb (endComp_keeps hb)
  have g_s2 : Keeps base s2 := soloClock_keeps g_s1
  exact portsDown_keeps (Keeps.same g_s2)

theorem memberLeave_keeps {base : State} {s : State} {pos : Nat}
    (hb : Keeps base s) : Keeps base (memberLeave s pos) := by
  unfold memberLeave
  refine Keeps.ite hb ?_
  extract_lets s1 _ _ s2
  have g_s1 : Keeps base s1 := faultComp_keeps (setFlag_keeps hb)
  have g_s2 : Keeps base s2 := Keeps.same g_s1
  exact Keeps.ite (becomeSolo_keeps g_s2) (Keeps.ite (fullCkpts_keeps (Keeps.same g_s2)) g_s2)

theorem portLost_keeps {base : State} {s : State} {p : Nat} (hb : Keeps base s) : Keeps base (portLost s p) := by
  unfold portLost
  extract_lets s1 s2
  have g_s1 : Keeps base s1 := setFlag_keeps (portState_keeps hb)
  have g_s2 : Keeps base s2 := sticky1_keeps g_s1
  exact Keeps.ite (forEach_keeps g_s2 (fun _ _ q1 => memberLeave_keeps q1)) (Keeps.ite g_s2 (Keeps.ite
    (becomeSolo_keeps (setFlag_keeps g_s2)) (Keeps.same g_s2)))

theorem formRefused_keeps {base : State} {s : State} {status detail : Nat}
    (hb : Keeps base s) : Keeps base (formRefused s status detail) := by
  unfold formRefused
  exact portsDown_keeps (finishWait_keeps (Keeps.same hb))

theorem orderForm_keeps {base : State} {s : State} (hb : Keeps base s) : Keeps base (orderForm s) := by
  unfold orderForm
  split
  · exact addChange_keeps hb
  · exact hb

theorem tryForm_keeps {base : State} {s : State} (hb : Keeps base s) : Keeps base (tryForm s) := by
  unfold tryForm
  refine Keeps.ite hb ?_
  extract_lets _ _ _ _ s1 _ _ _ s2
  have g_s1 : Keeps base s1 := Keeps.ite (setFlag_keeps hb) hb
  have g_s2 : Keeps base s2 := Keeps.same g_s1
  split
  · extract_lets s1X1
    have g_s1X1 : Keeps base s1X1 := sticky1_keeps (setFlag_keeps hb)
    exact formRefused_keeps g_s1X1
  · refine Keeps.ite g_s1 ?_
    refine Keeps.ite g_s1 ?_
    refine Keeps.ite ?_ ?_
    · split
      · exact formRefused_keeps g_s2
      · exact fullCkpts_keeps (Keeps.same g_s2)
    · split
      · exact g_s2
      · split
        · exact formRefused_keeps g_s2
        · exact orderForm_keeps g_s2

theorem applyCopy_keeps {base : State} {s : State} {c : LeaderCopy}
    (hb : Keeps base s) : Keeps base (applyCopy s c) := by
  unfold applyCopy
  repeat' first
    | with_reducible assumption
    | with_reducible apply Keeps.ite
    | with_reducible apply forEach_keeps
    | with_reducible apply wrBoth_keeps
    | with_reducible apply setProg_keeps
    | with_reducible apply wrMem_keeps
    | with_reducible apply foldl_keeps
    | with_reducible apply foldl_fst_keeps
    | split
    | intro _ _ _ _ _
    | intro _ _ _ _
    | intro _ _ _
    | intro _ _
    | with_reducible refine Keeps.fst_of_eq (by assumption) ?_
    | with_reducible refine Keeps.same ?_ ⟨⟨rfl, rfl, rfl, rfl⟩, rfl, rfl, rfl, rfl, rfl, rfl, rfl, rfl, rfl, rfl,
      rfl, rfl, rfl⟩
    | with_reducible refine Keeps.upd ?_ ⟨rfl, rfl, rfl, rfl⟩ ?_ ?_ ?_ ?_ ?_ ?_ ?_ ?_ ?_ ?_ ?_ ?_ ?_ ?_ ?_
    | with_reducible exact Sound.regs
    | with_reducible exact Sound.staged
    | with_reducible exact Sound.recs
    | with_reducible exact Sound.stamps
    | with_reducible exact Sound.cfg
    | with_reducible exact Sound.capRam
    | with_reducible exact Sound.planes
    | with_reducible exact Sound.pp
    | with_reducible exact Sound.mem
    | with_reducible exact Sound.flash
    | with_reducible exact Sound.buf
    | with_reducible exact Sound.mbxCmd
    | with_reducible exact Sound.mbxRpl
    | with_reducible exact Sound.ring
    | with_reducible exact Sound.queue
    | exact fun w => twf_tset _ _ _ (Sound.cfg w)
    | exact fun w => twf_filter _ _ (Sound.cfg w)
    | exact fun w => twf_foldl_tset _ _ _ _ (Sound.cfg w)
    | dsimp only

theorem formDone_keeps {base : State} {s : State} (hb : Keeps base s) : Keeps base (formDone s) := by
  unfold formDone
  exact Keeps.ite (finishWait_keeps (Keeps.same hb)) hb

theorem formGroup_keeps {base : State} {s : State} (hb : Keeps base s) : Keeps base (formGroup s) := by
  unfold formGroup
  extract_lets _ _ _ _ s1 s2
  have g_s1 : Keeps base s1 := Keeps.same hb
  have g_s2 : Keeps base s2 := forEach_keeps g_s1 (fun _ _ q => setProg_keeps q)
  refine Keeps.ite (finishWait_keeps (Keeps.same hb)) ?_
  split
  · exact hb
  · extract_lets s3
    have g_s3 : Keeps base s3 := applyCopy_keeps g_s2
    exact formDone_keeps (Keeps.same g_s3)

theorem groupDissolve_keeps {base : State} {s : State} (hb : Keeps base s) : Keeps base (groupDissolve s) := by
  unfold groupDissolve
  refine Keeps.ite ?_ hb
  extract_lets s1
  have g_s1 : Keeps base s1 := becomeSolo_keeps hb
  exact Keeps.ite (acquire_keeps g_s1) g_s1

theorem applyKeeper_keeps {base : State} {s : State} {p : Nat} {rs : List (Nat × List Byte)}
    (hb : Keeps base s) : Keeps base (applyKeeper s p rs) := by
  unfold applyKeeper
  exact forEach_keeps hb (fun _ _ q => wrBytes_keeps q)

theorem settleKeeper_keeps {base : State} {s : State} {key p : Nat}
    (hb : Keeps base s) : Keeps base (settleKeeper s key p) := by
  unfold settleKeeper
  extract_lets s1
  have g_s1 : Keeps base s1 := applyKeeper_keeps hb
  exact Keeps.same g_s1

theorem settleKeepers_keeps {base : State} {s : State} {p : Nat}
    (hb : Keeps base s) : Keeps base (settleKeepers s p) := by
  unfold settleKeepers
  exact forEach_keeps hb (fun _ _ q => settleKeeper_keeps q)

theorem abortDone_keeps {base : State} {s : State} (hb : Keeps base s) : Keeps base (abortDone s) := by
  unfold abortDone
  exact forEach_keeps hb (fun _ _ q => finish_keeps q)

theorem postSlot_keeps {base : State} {s : State} {f : Frame} {x : Slot} {status detail : Nat}
    (hb : Keeps base s) : Keeps base (postSlot s f x status detail) := by
  unfold postSlot
  extract_lets _ _ _ s1 s2 s3
  have g_s1 : Keeps base s1 := Keeps.ite (settleKeeper_keeps hb) (Keeps.same hb)
  have g_s2 : Keeps base s2 := post_keeps g_s1
  have g_s3 : Keeps base s3 := modFrame_keeps g_s2
  exact formDone_keeps (abortDone_keeps (settle_keeps g_s3))

theorem postNext_keeps {s0 t : State} {s : State} {p : Nat} (h : Keeps s0 s) (e : postNext s p = some t) : Keeps s0 t := by
  unfold postNext at e
  repeat' first
    | contradiction
    | split at e
  all_goals
    cases e
    exact postSlot_keeps h

theorem postReady_keeps {s0 : State} {s : State} {n : Nat} (h : Keeps s0 s) : Keeps s0 (postReady s n) := by
  induction n generalizing s with
  | zero => exact h
  | succ n ih => exact ih (forEach_keeps h (fun _ _ g => getD_keeps g (fun _ e => postNext_keeps g e)))

theorem execFrameReplyPost_keeps (p : Fin 4) (s : State) : OutKeeps s (execFrameReplyPost p s) :=
  OutKeeps.next (getD_keeps (Keeps.refl s) (fun _ e => postNext_keeps (Keeps.refl s) e))

theorem execHeldReplyMove_keeps (p : Fin 4) (s : State) : OutKeeps s (execHeldReplyMove p s) := by
  have hb := Keeps.refl s
  unfold execHeldReplyMove
  exact OutKeeps.next (moveHeld_keeps hb)

theorem noteClock_keeps {base : State} {s : State} (hb : Keeps base s) : Keeps base (noteClock s) := by
  unfold noteClock
  split
  · exact Keeps.ite (setFlag_keeps (Keeps.same hb)) hb
  · exact hb

theorem retarget_keeps {base : State} {s : State} {old : Nat} (hb : Keeps base s) : Keeps base (retarget s old) := by
  unfold retarget
  exact noteClock_keeps (Keeps.same hb)

theorem macroTrap_keeps {base : State} {s : State} {fp : Nat} {w : Word} {reason : Nat}
    (hb : Keeps base s) : Keeps base (macroTrap s fp w reason) := by
  unfold macroTrap
  extract_lets _ s1 s2 s3
  have g_s1 : Keeps base s1 := setFlag_keeps (wr64_keeps hb)
  have g_s2 : Keeps base s2 := sticky0_keeps g_s1
  have g_s3 : Keeps base s3 := traceEvent_keeps (traceArr_keeps g_s2)
  exact faultComp_keeps g_s3

theorem compEnd_keeps {base : State} {s : State} (hb : Keeps base s) : Keeps base (compEnd s) := by
  unfold compEnd
  split
  · refine Keeps.ite ?_ hb
    extract_lets 
    exact endComp_keeps hb
  · exact hb

theorem retire_keeps {base : State} {s : State} {n : Nat} (hb : Keeps base s) : Keeps base (retire s n) := by
  unfold retire
  exact compEnd_keeps (Keeps.same hb)

theorem traceMacro_keeps {base : State} {s : State} {fp : Nat} {w : Word}
    (hb : Keeps base s) : Keeps base (traceMacro s fp w) := by
  unfold traceMacro
  extract_lets _ s1
  have g_s1 : Keeps base s1 := Keeps.ite (traceEvent_keeps hb) hb
  exact traceArr_keeps g_s1

theorem clearXY_keeps {base : State} {s : State} {mask : Plane}
    (hb : Keeps base s) : Keeps base (clearXY s mask) := by
  unfold clearXY
  exact Keeps.same hb

theorem vendorMacro_keeps {s0 : State} {op : Nat} {s : State} {body : State → Nat → Word → Word → State} (h : Keeps s0 s)
    (hb : ∀ t fp w x, Keeps s0 t → Keeps s0 (body t fp w x)) : Keeps s0 (vendorMacro op s body) := by
  unfold vendorMacro
  split
  · rename_i k w rest _ _ _
    refine Keeps.ite h ?_
    split
    · exact h
    · exact macroTrap_keeps h
    · rename_i i x _
      dsimp only
      have g : Keeps s0 (traceMacro { s with arr := { s.arr with allow := s.arr.allow - i.cyc } } k.fp w) :=
        traceMacro_keeps (Keeps.same h ⟨⟨rfl, rfl, rfl, rfl⟩, rfl, rfl, rfl, rfl, rfl, rfl, rfl, rfl, rfl, rfl, rfl, rfl, rfl⟩)
      generalize traceMacro _ _ _ = s1 at g ⊢
      refine Keeps.ite (rangeFault_keeps g) ?_
      split
      · exact parityFault_keeps g
      · have g2 := hb s1 k.fp w x g
        generalize body s1 k.fp w x = s2 at g2 ⊢
        have g3 : Keeps s0 (forEach (List.range i.work) s2 (fun t j => setPlane t (pp s 14 + j) (active s2) 0)) :=
          forEach_keeps g2 (fun _ _ q => setPlane_keeps q)
        generalize forEach _ _ _ = s3 at g3 ⊢
        have g4 : Keeps s0 (if i.cyc = 1 then s3 else clearXY s3 (active s3)) := Keeps.ite g3 (clearXY_keeps g3)
        generalize (if i.cyc = 1 then s3 else clearXY s3 (active s3)) = s4 at g4 ⊢
        exact Keeps.ite g4 (retire_keeps g4)
  · exact h

theorem unshadow_keeps {base : State} {s : State} {sh : Tbl (BitVec 16384)}
    (hb : Keeps base s) : Keeps base (unshadow s sh) := by
  unfold unshadow
  exact Keeps.same hb

theorem restartEvent_keeps {base : State} {s : State} {fp cause uaddr : Nat}
    (hb : Keeps base s) : Keeps base (restartEvent s fp cause uaddr) := by
  unfold restartEvent
  refine Keeps.ite (faultComp_keeps (setFlag_keeps (faultInfo_keeps hb))) ?_
  extract_lets _ s1 _ s2 s3
  have g_s1 : Keeps base s1 := wr_keeps hb
  have g_s2 : Keeps base s2 := Keeps.same g_s1
  have g_s3 : Keeps base s3 := by
    unfold s3
    split
    · exact unshadow_keeps g_s2
    · exact g_s2
  exact traceArr_keeps (Keeps.same g_s3)

theorem arrayInterrupt_keeps {base : State} {s : State} {fp uaddr : Nat}
    (hb : Keeps base s) : Keeps base (arrayInterrupt s fp uaddr) := by
  unfold arrayInterrupt
  exact restartEvent_keeps (satReg_keeps hb)

theorem checkInterval_keeps {s0 : State} {s : State} {fp : Nat} {uaddr : Nat} {k : State → State} (h : Keeps s0 s)
    (hk : ∀ t, Keeps s0 t → Keeps s0 (k t)) : Keeps s0 (checkInterval s fp uaddr k) := by
  unfold checkInterval
  have g : Keeps s0 { s with grp := { s.grp with verdict := none, rx := [] } } :=
    Keeps.same h ⟨⟨rfl, rfl, rfl, rfl⟩, rfl, rfl, rfl, rfl, rfl, rfl, rfl, rfl, rfl, rfl, rfl, rfl, rfl⟩
  dsimp only at g ⊢
  split
  · exact hk _ g
  · exact arrayInterrupt_keeps g
  · exact faultComp_keeps g

theorem seqFault_keeps {base : State} {s : State} {fp uaddr : Nat} {committed : Bool}
    (hb : Keeps base s) : Keeps base (seqFault s fp uaddr committed) := by
  unfold seqFault
  extract_lets _ s1 s2
  have g_s1 : Keeps base s1 := faultInfo_keeps (setFlag_keeps hb)
  have g_s2 : Keeps base s2 := sticky0_keeps g_s1
  exact Keeps.ite (faultComp_keeps g_s2) (restartEvent_keeps g_s2)

theorem execSequencerFault_keeps (s : State) : OutKeeps s (execSequencerFault s) := by
  have hb := Keeps.refl s
  unfold execSequencerFault
  refine OutKeeps.next ?_
  split
  · exact seqFault_keeps hb
  · split
    · exact useFree_keeps (seqFault_keeps hb)
    · exact hb

theorem setRun_keeps {base : State} {s : State} {r : Routine} (hb : Keeps base s) : Keeps base (setRun s r) := by
  unfold setRun
  exact Keeps.same hb

theorem startRoutine_keeps {base : State} {s : State} {b : Bind} {i : MacroInfo} {w x : Word}
    (hb : Keeps base s) : Keeps base (startRoutine s b i w x) := by
  unfold startRoutine
  exact setRun_keeps (Keeps.same hb)

theorem execUserOpcode_keeps (s : State) : OutKeeps s (execUserOpcode s) := by
  have hb := Keeps.refl s
  unfold execUserOpcode
  refine OutKeeps.next ?_
  split
  · refine Keeps.ite hb ?_
    split
    · exact macroTrap_keeps hb
    · exact startRoutine_keeps (traceMacro_keeps (Keeps.same hb))
    · exact hb
  · exact hb

theorem modImg_keeps {base : State} {s : State} {prev : Bool} {p : Nat} {f : TopImg → TopImg}
    (hb : Keeps base s) : Keeps base (modImg s prev p f) := by
  unfold modImg
  refine Keeps.ite ?_ ?_
  · split
    · exact Keeps.same hb
    · exact hb
  · split
    · exact Keeps.same hb
    · exact hb

theorem topUe_keeps {base : State} {s : State} {k : Comp} {r : Routine}
    (hb : Keeps base s) : Keeps base (topUe s k r) := by
  unfold topUe
  extract_lets _ _ s1 s2
  have g_s1 : Keeps base s1 := modImg_keeps hb
  have g_s2 : Keeps base s2 := faultInfo_keeps (setFlag_keeps g_s1)
  exact faultComp_keeps (sticky0_keeps g_s2)

theorem topCorrect_keeps {base : State} {s : State} {prev : Bool} {p upc m : Nat}
    (hb : Keeps base s) : Keeps base (topCorrect s prev p upc m) := by
  unfold topCorrect
  extract_lets _ s1 s2
  have g_s1 : Keeps base s1 := Keeps.same hb
  have g_s2 : Keeps base s2 := wr_keeps g_s1
  exact modImg_keeps g_s2

theorem microStep_keeps {s0 : State} {s : State} {want : BitVec 40 → Bool}
    {body : State → Comp → Routine → BitVec 40 → State} (h : Keeps s0 s)
    (hb : ∀ t k r w, Keeps s0 t → Keeps s0 (body t k r w)) : Keeps s0 (microStep s want body) := by
  unfold microStep
  split
  · dsimp only
    split
    · exact h
    · exact Keeps.ite h (topUe_keeps h)
    · exact Keeps.ite h (hb _ _ _ _ (Keeps.ite h (topCorrect_keeps h)))
  · exact h

theorem goTo_keeps {base : State} {s : State} {r : Routine} {a : Nat}
    (hb : Keeps base s) : Keeps base (goTo s r a) := by
  unfold goTo
  exact setRun_keeps hb

theorem ctlStep_keeps {s0 : State} {op : Nat} {s : State} {body : State → Comp → Routine → BitVec 40 → State} (h : Keeps s0 s)
    (hb : ∀ t k r w, Keeps s0 t → Keeps s0 (body t k r w)) : Keeps s0 (ctlStep op s body) := microStep_keeps h hb

theorem execUwNop_keeps (s : State) : OutKeeps s (execUwNop s) := by
  have hb := Keeps.refl s
  unfold execUwNop
  exact OutKeeps.next (ctlStep_keeps hb (fun _ _ _ _ q => goTo_keeps q))

theorem execUwJmp_keeps (s : State) : OutKeeps s (execUwJmp s) := by
  have hb := Keeps.refl s
  unfold execUwJmp
  exact OutKeeps.next (ctlStep_keeps hb (fun _ _ _ _ q => goTo_keeps q))

theorem execUwBr_keeps (s : State) : OutKeeps s (execUwBr s) := by
  have hb := Keeps.refl s
  unfold execUwBr
  exact OutKeeps.next (ctlStep_keeps hb (fun _ _ _ _ q => goTo_keeps q))

theorem execUwLoop_keeps (s : State) : OutKeeps s (execUwLoop s) := by
  have hb := Keeps.refl s
  unfold execUwLoop
  exact OutKeeps.next (ctlStep_keeps hb (fun _ _ _ _ q => goTo_keeps q))

theorem execUwLend_keeps (s : State) : OutKeeps s (execUwLend s) := by
  have hb := Keeps.refl s
  unfold execUwLend
  refine OutKeeps.next ?_
  refine ctlStep_keeps hb ?_
  intro _ _ _ _ q
  extract_lets 
  exact goTo_keeps q

theorem execUwCall_keeps (s : State) : OutKeeps s (execUwCall s) := by
  have hb := Keeps.refl s
  unfold execUwCall
  exact OutKeeps.next (ctlStep_keeps hb (fun _ _ _ _ q => goTo_keeps q))

theorem execUwRet_keeps (s : State) : OutKeeps s (execUwRet s) := by
  have hb := Keeps.refl s
  unfold execUwRet
  exact OutKeeps.next (ctlStep_keeps hb (fun _ _ _ _ q => goTo_keeps q))

theorem execUwCommit_keeps (s : State) : OutKeeps s (execUwCommit s) := by
  have hb := Keeps.refl s
  unfold execUwCommit
  exact OutKeeps.next (ctlStep_keeps hb (fun _ _ _ _ q => Keeps.ite (checkInterval_keeps q (fun _ q1 => goTo_keeps
    q1)) (goTo_keeps q)))

theorem execUwEnd_keeps (s : State) : OutKeeps s (execUwEnd s) := by
  have hb := Keeps.refl s
  unfold execUwEnd
  refine OutKeeps.next ?_
  refine ctlStep_keeps hb ?_
  intro _ _ _ _ q
  refine Keeps.ite ?_ (Keeps.ite (arrayInterrupt_keeps (retire_keeps q)) (retire_keeps q))
  refine checkInterval_keeps q ?_
  intro _ q1
  extract_lets s1
  have g_s1 : Keeps s s1 := retire_keeps q1
  exact Keeps.ite (arrayInterrupt_keeps g_s1) g_s1

theorem peFlags_keeps {base : State} {s : State} {w : BitVec 40} {v : PeIn} {y : Plane}
    (hb : Keeps base s) : Keeps base (peFlags s w v y) := by
  unfold peFlags
  extract_lets 
  exact Keeps.same hb

theorem peReduce_keeps {base : State} {s t : State} {fp : Nat} {w : BitVec 40} {r : Plane} {any : Bool} {tally : Nat}
    (hb : Keeps base s) (hb1 : Keeps base t) : Keeps base (peReduce s t fp w r any tally) := by
  unfold peReduce
  extract_lets 
  split
  · exact recAny_keeps hb1
  · exact recTally_keeps hb1
  · exact hb1

theorem scratchViolation_keeps {base : State} {s : State} {fp p ua : Nat}
    (hb : Keeps base s) : Keeps base (scratchViolation s fp p ua) := by
  unfold scratchViolation
  extract_lets s1
  have g_s1 : Keeps base s1 := faultInfo_keeps (setFlag_keeps hb)
  exact faultComp_keeps (sticky0_keeps g_s1)

theorem peStep_keeps {base : State} {burst : BitVec 128} {any : Bool} {tally : Nat} {s : State} {k : Comp}
    {r : Routine} {w : BitVec 40} (hb : Keeps base s) : Keeps base (peStep burst any tally s k r w) := by
  unfold peStep
  repeat' first
    | with_reducible assumption
    | with_reducible apply Keeps.ite
    | with_reducible apply setPlane_keeps
    | with_reducible apply peReduce_keeps
    | with_reducible apply peFlags_keeps
    | with_reducible apply burstRx_keeps
    | with_reducible apply goTo_keeps
    | with_reducible apply rangeFault_keeps
    | with_reducible apply parityFault_keeps
    | with_reducible apply scratchViolation_keeps
    | split
    | with_reducible refine Keeps.fst_of_eq (by assumption) ?_
    | with_reducible refine Keeps.same ?_ ⟨⟨rfl, rfl, rfl, rfl⟩, rfl, rfl, rfl, rfl, rfl, rfl, rfl, rfl, rfl, rfl,
      rfl, rfl, rfl⟩
    | with_reducible refine Keeps.upd ?_ ⟨rfl, rfl, rfl, rfl⟩ ?_ ?_ ?_ ?_ ?_ ?_ ?_ ?_ ?_ ?_ ?_ ?_ ?_ ?_ ?_
    | with_reducible exact Sound.regs
    | with_reducible exact Sound.staged
    | with_reducible exact Sound.recs
    | with_reducible exact Sound.stamps
    | with_reducible exact Sound.cfg
    | with_reducible exact Sound.capRam
    | with_reducible exact Sound.planes
    | with_reducible exact Sound.pp
    | with_reducible exact Sound.mem
    | with_reducible exact Sound.flash
    | with_reducible exact Sound.buf
    | with_reducible exact Sound.mbxCmd
    | with_reducible exact Sound.mbxRpl
    | with_reducible exact Sound.ring
    | with_reducible exact Sound.queue
    | dsimp only

theorem execUwPeop_keeps (burst : BitVec 128) (any : Bool) (tally : Nat)
    (s : State) : OutKeeps s (execUwPeop burst any tally s) := by
  have hb := Keeps.refl s
  unfold execUwPeop
  exact OutKeeps.next (microStep_keeps hb (fun _ _ _ _ q => peStep_keeps q))

theorem vopStep_keeps {base : State} {op : Nat} {s : State} {f : Routine → BitVec 40 → Int}
    (hb : Keeps base s) : Keeps base (vopStep op s f) := by
  unfold vopStep
  exact microStep_keeps hb (fun _ _ _ _ q => goTo_keeps q)

theorem execUwMovv_keeps (s : State) : OutKeeps s (execUwMovv s) := by
  have hb := Keeps.refl s
  unfold execUwMovv
  exact OutKeeps.next (vopStep_keeps hb)

theorem execUwVopAddi_keeps (s : State) : OutKeeps s (execUwVopAddi s) := by
  have hb := Keeps.refl s
  unfold execUwVopAddi
  exact OutKeeps.next (vopStep_keeps hb)

theorem execUwAddl_keeps (s : State) : OutKeeps s (execUwAddl s) := by
  have hb := Keeps.refl s
  unfold execUwAddl
  exact OutKeeps.next (vopStep_keeps hb)

theorem execUwSubl_keeps (s : State) : OutKeeps s (execUwSubl s) := by
  have hb := Keeps.refl s
  unfold execUwSubl
  exact OutKeeps.next (vopStep_keeps hb)

theorem execUwSeti_keeps (s : State) : OutKeeps s (execUwSeti s) := by
  have hb := Keeps.refl s
  unfold execUwSeti
  exact OutKeeps.next (vopStep_keeps hb)

theorem execUwLdpp_keeps (s : State) : OutKeeps s (execUwLdpp s) := by
  have hb := Keeps.refl s
  unfold execUwLdpp
  exact OutKeeps.next (vopStep_keeps hb)

theorem execUwWait_keeps (s : State) : OutKeeps s (execUwWait s) := by
  have hb := Keeps.refl s
  unfold execUwWait
  exact OutKeeps.next (microStep_keeps hb (fun _ _ _ _ q => setRun_keeps q))

theorem endWait_keeps {base : State} {s : State} {r : Routine} {ok : Bool}
    (hb : Keeps base s) : Keeps base (endWait s r ok) := by
  unfold endWait
  extract_lets s1
  have g_s1 : Keeps base s1 := goTo_keeps hb
  exact Keeps.ite g_s1 (setFlag_keeps g_s1)

theorem execUwWaitEnd_keeps (s : State) : OutKeeps s (execUwWaitEnd s) := by
  have hb := Keeps.refl s
  unfold execUwWaitEnd
  refine OutKeeps.next ?_
  split
  · exact Keeps.ite (endWait_keeps hb) hb
  · exact hb

theorem execUwWaitTimeout_keeps (s : State) : OutKeeps s (execUwWaitTimeout s) := by
  have hb := Keeps.refl s
  unfold execUwWaitTimeout
  refine OutKeeps.next ?_
  split
  · exact Keeps.ite (endWait_keeps hb) hb
  · exact hb

theorem repriceAll_keeps {base : State} {s : State} {q : Nat} {img : Option TopImg}
    (hb : Keeps base s) : Keeps base (repriceAll s q img) := by
  unfold repriceAll
  refine forEach_keeps hb ?_
  intro _ _ q1
  refine Keeps.ite ?_ q1
  split
  · exact setProg_keeps q1
  · exact q1

theorem execTopiaryVerifyComplete_keeps (s : State) : OutKeeps s (execTopiaryVerifyComplete s) := by
  have hb := Keeps.refl s
  unfold execTopiaryVerifyComplete
  refine OutKeeps.next ?_
  split
  · exact hb
  · extract_lets _ _ s1
    have g_s1 : Keeps s s1 := Keeps.same hb
    split
    · exact finish_keeps (Keeps.ite (reservedField_keeps g_s1) g_s1)
    · exact addChange_keeps (Keeps.same g_s1)

theorem topSwitch_keeps {base : State} {s : State} {q : Nat} {img : TopImg} {closing : Option (BitVec 48)}
    (hb : Keeps base s) : Keeps base (topSwitch s q img closing) := by
  unfold topSwitch
  extract_lets 
  exact repriceAll_keeps (Keeps.same hb)

theorem topUnload_keeps {base : State} {s : State} {q : Nat} {closing : Option (BitVec 48)}
    (hb : Keeps base s) : Keeps base (topUnload s q closing) := by
  unfold topUnload
  extract_lets 
  exact Keeps.same hb

theorem wrAll_keeps {base : State} {s : State} {ws : List (Nat × Word)}
    (hb : Keeps base s) : Keeps base (wrAll s ws) := by
  unfold wrAll
  exact forEach_keeps hb (fun _ _ q => wr_keeps q)

theorem keepRegs_keeps {base : State} {old s : State} {as : List Nat} (hb : Keeps base old)
    (hb1 : Keeps base s) : Keeps base (keepRegs old s as) := by
  unfold keepRegs
  exact forEach_keeps hb1 (fun _ _ q => wr_keeps q)

theorem applyAngle_keeps {base : State} {s : State} {ws : List (Nat × Word)} {cmd : Bool}
    (hb : Keeps base s) : Keeps base (applyAngle s ws cmd).1 := by
  unfold applyAngle
  repeat' first
    | with_reducible assumption
    | with_reducible apply Keeps.ite
    | with_reducible apply wrAll_keeps
    | with_reducible apply setFlag_keeps
    | with_reducible apply keepRegs_keeps
    | with_reducible apply wr_keeps
    | split
    | with_reducible refine Keeps.fst_of_eq (by assumption) ?_
    | dsimp only

theorem applyMark_keeps {base : State} {s : State} {ws : List (Nat × Word)} {k : Option Nat}
    (hb : Keeps base s) : Keeps base (applyMark s ws k).1 := by
  unfold applyMark
  repeat' first
    | with_reducible assumption
    | with_reducible apply Keeps.ite
    | with_reducible apply wrAll_keeps
    | with_reducible apply setFlag_keeps
    | split
    | with_reducible refine Keeps.fst_of_eq (by assumption) ?_
    | dsimp only

theorem applyFabric_keeps {base : State} {s : State} {ws : List (Nat × Word)}
    (hb : Keeps base s) : Keeps base (applyFabric s ws).1 := by
  unfold applyFabric
  repeat' first
    | with_reducible assumption
    | with_reducible apply Keeps.ite
    | with_reducible apply wrAll_keeps
    | with_reducible apply setFlag_keeps
    | with_reducible apply keepRegs_keeps
    | split
    | intro _ _ _ _ _
    | intro _ _ _ _
    | intro _ _ _
    | intro _ _
    | with_reducible refine Keeps.fst_of_eq (by assumption) ?_
    | dsimp only

theorem applyLanes_keeps {base : State} {s : State} {ws : List (Nat × Word)}
    (hb : Keeps base s) : Keeps base (applyLanes s ws).1 := by
  unfold applyLanes
  repeat' first
    | with_reducible assumption
    | with_reducible apply Keeps.ite
    | with_reducible apply wrAll_keeps
    | with_reducible apply setFlag_keeps
    | split
    | with_reducible refine Keeps.fst_of_eq (by assumption) ?_
    | dsimp only

theorem applyArray_keeps {base : State} {s : State} {ws : List (Nat × Word)}
    (hb : Keeps base s) : Keeps base (applyArray s ws).1 := by
  unfold applyArray
  repeat' first
    | with_reducible assumption
    | with_reducible apply Keeps.ite
    | with_reducible apply wrAll_keeps
    | with_reducible apply setFlag_keeps
    | with_reducible apply keepRegs_keeps
    | split
    | with_reducible refine Keeps.fst_of_eq (by assumption) ?_
    | dsimp only

theorem applyTopiary_keeps {base : State} {s : State} {ws : List (Nat × Word)}
    (hb : Keeps base s) : Keeps base (applyTopiary s ws).1 := by
  unfold applyTopiary
  repeat' first
    | with_reducible assumption
    | with_reducible apply Keeps.ite
    | with_reducible apply wrAll_keeps
    | with_reducible apply setFlag_keeps
    | with_reducible apply keepRegs_keeps
    | split
    | with_reducible refine Keeps.fst_of_eq (by assumption) ?_
    | dsimp only

theorem applyPart_keeps {base : State} {old s : State} {p : Nat} (hb : Keeps base old)
    (hb1 : Keeps base s) : Keeps base (applyPart old s p) := by
  unfold applyPart
  extract_lets 
  exact Keeps.ite (setFlag_keeps (orReg_keeps hb1)) hb1

theorem applyDepth_keeps {base : State} {old s : State} {p : Nat} (hb : Keeps base old)
    (hb1 : Keeps base s) : Keeps base (applyDepth old s p) := by
  unfold applyDepth
  extract_lets _ _ _ s1
  have g_s1 : Keeps base s1 := Keeps.ite hb1 (Keeps.ite (Keeps.same hb1) (setFlag_keeps (wr_keeps hb1)))
  exact Keeps.ite g_s1 (Keeps.ite (Keeps.same g_s1) (setFlag_keeps (wr_keeps g_s1)))

theorem applyPartition_keeps {base : State} {s : State} {ws : List (Nat × Word)}
    (hb : Keeps base s) : Keeps base (applyPartition s ws).1 := by
  unfold applyPartition
  repeat' first
    | with_reducible assumption
    | with_reducible apply Keeps.ite
    | with_reducible apply forEach_keeps
    | with_reducible apply wrAll_keeps
    | with_reducible apply applyPart_keeps
    | with_reducible apply setFlag_keeps
    | with_reducible apply keepRegs_keeps
    | with_reducible apply applyDepth_keeps
    | split
    | intro _ _ _ _ _
    | intro _ _ _ _
    | intro _ _ _
    | intro _ _
    | with_reducible refine Keeps.fst_of_eq (by assumption) ?_
    | dsimp only

theorem applyScrub_keeps {base : State} {s : State} {ws : List (Nat × Word)}
    (hb : Keeps base s) : Keeps base (applyScrub s ws).1 := by
  unfold applyScrub
  repeat' first
    | with_reducible assumption
    | with_reducible apply Keeps.ite
    | with_reducible apply wrAll_keeps
    | split
    | intro _ _ _ _ _
    | intro _ _ _ _
    | intro _ _ _
    | intro _ _
    | with_reducible refine Keeps.fst_of_eq (by assumption) ?_
    | with_reducible refine Keeps.same ?_ ⟨⟨rfl, rfl, rfl, rfl⟩, rfl, rfl, rfl, rfl, rfl, rfl, rfl, rfl, rfl, rfl,
      rfl, rfl, rfl⟩
    | dsimp only

theorem applyGclk_keeps {base : State} {s : State} {ws : List (Nat × Word)}
    (hb : Keeps base s) : Keeps base (applyGclk s ws).1 := by
  unfold applyGclk
  repeat' first
    | with_reducible assumption
    | with_reducible apply wrAll_keeps
    | with_reducible apply setFlag_keeps
    | with_reducible apply retarget_keeps
    | split
    | with_reducible refine Keeps.fst_of_eq (by assumption) ?_
    | dsimp only

theorem applyPower_keeps {base : State} {s : State} {ws : List (Nat × Word)}
    (hb : Keeps base s) : Keeps base (applyPower s ws).1 := by
  unfold applyPower
  repeat' first
    | with_reducible assumption
    | with_reducible apply Keeps.ite
    | with_reducible apply wrAll_keeps
    | with_reducible apply setFlag_keeps
    | with_reducible apply retarget_keeps
    | split
    | with_reducible refine Keeps.fst_of_eq (by assumption) ?_
    | dsimp only

theorem applyWrites_keeps {base : State} {s : State} {u : ResUnit} {ws : List (Nat × Word)} {cmd : Bool}
    (hb : Keeps base s) : Keeps base (applyWrites s u ws cmd).1 := by
  unfold applyWrites
  repeat' first
    | with_reducible assumption
    | with_reducible apply applyAngle_keeps
    | with_reducible apply applyMark_keeps
    | with_reducible apply applyGclk_keeps
    | with_reducible apply applyFabric_keeps
    | with_reducible apply applyLanes_keeps
    | with_reducible apply applyArray_keeps
    | with_reducible apply applyTopiary_keeps
    | with_reducible apply applyPartition_keeps
    | with_reducible apply applyScrub_keeps
    | with_reducible apply applyPower_keeps
    | with_reducible apply wrAll_keeps
    | split
    | with_reducible refine Keeps.fst_of_eq (by assumption) ?_
    | dsimp only

end Sys2Proof.Machine
end

