-- ==== Sys2Proof/Laws/KeepsFrame.lean ====
section
/-! SUPPORT. One lemma per operation of the frame boundary, the sources, program starts, flash, registers and resets: it keeps what Laws/Keeps.lean names. -/

namespace Sys2Proof.Machine

open Sys2Proof

-- one proof at a time: the whole package is checked as one text
set_option Elab.async false

theorem finishVerdict_keeps {base : State} {s : State} {o : Option Order} {v : Verdict}
    (hb : Keeps base s) : Keeps base (finishVerdict s o v) := by
  unfold finishVerdict
  split
  · exact finishOpt_keeps hb
  · exact finishOpt_keeps hb
  · exact finishOpt_keeps hb

theorem applyFpSet_keeps {base : State} {s : State} {fp : Nat} {en : Bool} {prio : Nat} {o : Option Order}
    (hb : Keeps base s) : Keeps base (applyFpSet s fp en prio o) := by
  unfold applyFpSet
  extract_lets _ t
  have g_t : Keeps base t := setProg_keeps hb
  split
  · exact finishOpt_keeps hb
  · exact finishOpt_keeps g_t

theorem applyKeeperWrite_keeps {base : State} {s : State} {p off : Nat} {data : List Byte} {o : Option Order}
    (hb : Keeps base s) : Keeps base (applyKeeperWrite s p off data o) := by
  unfold applyKeeperWrite
  extract_lets s1
  have g_s1 : Keeps base s1 := settleKeepers_keeps hb
  exact Keeps.ite (finishOpt_keeps (fillMem_keeps g_s1)) (finishOpt_keeps g_s1)

theorem applyScrubOff_keeps {base : State} {s : State} {o : Option Order}
    (hb : Keeps base s) : Keeps base (applyScrubOff s o) := by
  unfold applyScrubOff
  extract_lets s1 _ _ s2
  have g_s1 : Keeps base s1 := wrBoth_keeps hb
  have g_s2 : Keeps base s2 := Keeps.same g_s1
  exact finishOpt_keeps (useFree_keeps g_s2)

theorem applyCapArm_keeps {base : State} {s : State} {v : Word} {o : Option Order}
    (hb : Keeps base s) : Keeps base (applyCapArm s v o) := by
  unfold applyCapArm
  exact Keeps.ite (finishOpt_keeps hb) (finishOpt_keeps (capWrite_keeps hb))

theorem applyTopUnload_keeps {base : State} {s : State} {q : Nat} {closing : Option (BitVec 48)} {o : Option Order}
    (hb : Keeps base s) : Keeps base (applyTopUnload s q closing o) := by
  unfold applyTopUnload
  split
  · exact finishOpt_keeps hb
  · exact finishOpt_keeps (topUnload_keeps hb)

theorem applyChange_keeps {base : State} {closing : Option (BitVec 48)} {s : State} {c : Change}
    (hb : Keeps base s) : Keeps base (applyChange closing s c) := by
  unfold applyChange
  split
  · exact finishVerdict_keeps (applyWrites_keeps hb)
  · exact applyFpSet_keeps hb
  · exact abortDone_keeps (setProg_keeps hb)
  · exact applyKeeperWrite_keeps hb
  · exact finishOpt_keeps (swapFabric_keeps hb)
  · exact applyCapArm_keeps hb
  · exact applyScrubOff_keeps hb
  · split
    · exact finishOpt_keeps (topSwitch_keeps hb)
    · exact hb
  · exact applyTopUnload_keeps hb
  · exact formGroup_keeps hb
  · exact finishOpt_keeps (groupDissolve_keeps hb)

theorem clockOff_keeps {base : State} {s : State} (hb : Keeps base s) : Keeps base (clockOff s) := by
  unfold clockOff
  extract_lets _ s1
  have g_s1 : Keeps base s1 := setAng_keeps hb
  exact setAng_keeps g_s1

theorem settleClock_keeps {base : State} {old s : State} (hb : Keeps base old)
    (hb1 : Keeps base s) : Keeps base (settleClock old s) := by
  unfold settleClock
  exact Keeps.ite (Keeps.ite hb1 (clockOff_keeps hb1)) (Keeps.ite (acquire_keeps (Keeps.same hb1)) hb1)

theorem takeCopy_keeps {base : State} {s : State} (hb : Keeps base s) : Keeps base (takeCopy s) := by
  unfold takeCopy
  split
  · exact Keeps.ite (applyCopy_keeps (Keeps.same hb)) hb
  · exact hb

theorem applyChanges_keeps {base : State} {s : State} {closing : Option (BitVec 48)}
    (hb : Keeps base s) : Keeps base (applyChanges s closing) := by
  unfold applyChanges
  extract_lets _ _ s1
  have g_s1 : Keeps base s1 := releaseRepaired_keeps (Keeps.same hb)
  exact settleClock_keeps hb (abortDone_keeps (takeCopy_keeps (forEach_keeps g_s1 (fun _ _ q => applyChange_keeps
    q))))

theorem shedOvertaken_keeps {base : State} {s : State} (hb : Keeps base s) : Keeps base (shedOvertaken s) := by
  unfold shedOvertaken
  split
  · exact hb
  · extract_lets s1 s2
    have g_s1 : Keeps base s1 := by
      unfold s1
      split
      · exact Keeps.ite (endComp_keeps hb) hb
      · exact hb
    have g_s2 : Keeps base s2 := answerSlots_keeps g_s1
    exact postReady_keeps (toPosting_keeps g_s2)

theorem measureFrame_keeps {base : State} {s : State} {f : Frame}
    (hb : Keeps base s) : Keeps base (measureFrame s f) := by
  unfold measureFrame
  extract_lets _ s1
  have g_s1 : Keeps base s1 := wr_keeps (wr_keeps hb)
  exact Keeps.ite (modFrame_keeps (setFlag_keeps g_s1)) g_s1

theorem closeFrame_keeps {base : State} {s : State} {f : Frame}
    (hb : Keeps base s) : Keeps base (closeFrame s f) := by
  unfold closeFrame
  extract_lets _ s1 _ s2
  have g_s1 : Keeps base s1 := modFrame_keeps hb
  have g_s2 : Keeps base s2 := Keeps.ite (answerSlots_keeps g_s1) (Keeps.ite (answerSlots_keeps g_s1) (Keeps.ite
    (answerSlots_keeps g_s1) (Keeps.ite (answerSlots_keeps g_s1) g_s1)))
  split
  · exact Keeps.ite g_s2 (Keeps.ite (modFrame_keeps g_s2) (Keeps.ite (toPosting_keeps g_s2) g_s2))
  · exact g_s2

theorem boundaryHold_keeps {base : State} {s : State} {opens : Bool} {p : Nat}
    (hb : Keeps base s) : Keeps base (boundaryHold s opens p) := by
  unfold boundaryHold
  exact Keeps.ite (Keeps.ite (setFlag_keeps (Keeps.same hb)) hb) (Keeps.same hb)

theorem boundaryHolds_keeps {base : State} {s : State} {opens : Bool}
    (hb : Keeps base s) : Keeps base (boundaryHolds s opens) := by
  unfold boundaryHolds
  exact forEach_keeps hb (fun _ _ q => boundaryHold_keeps q)

theorem openFrame_keeps {base : State} {s0 : State} {closed : Bool}
    (hb : Keeps base s0) : Keeps base (openFrame s0 closed) := by
  unfold openFrame
  extract_lets _ s _ _ _ _ _ _ s1 _ s2 s3
  have g_s : Keeps base s := boundaryHolds_keeps hb
  have g_s1 : Keeps base s1 := setAng_keeps g_s
  have g_s2 : Keeps base s2 := assignHalf_keeps (settle_keeps (Keeps.same g_s1))
  have g_s3 : Keeps base s3 := Keeps.ite (overlapLanes_keeps g_s2) g_s2
  exact traceFrame_keeps g_s3

theorem boundaryGroup_keeps {base : State} {s : State} (hb : Keeps base s) : Keeps base (boundaryGroup s) := by
  unfold boundaryGroup
  exact groupCheckpoint_keeps (groupBeat_keeps hb)

theorem boundary_keeps {s0 : State} {s : State} (h : Keeps s0 s) : Keeps s0 (boundary s) := by
  unfold boundary
  extract_lets _ a cl s1 s2 s3 s4 live spent
  have ga : Keeps s0 a :=
    raiseInt_keeps (Keeps.same h ⟨⟨rfl, rfl, rfl, rfl⟩, rfl, rfl, rfl, rfl, rfl, rfl, rfl, rfl, rfl, rfl, rfl, rfl, rfl⟩)
  have g1 : Keeps s0 s1 := by
    unfold s1
    split
    · exact flushLanes_keeps ga
    · exact ga
  have g2 : Keeps s0 s2 := shedOvertaken_keeps g1
  have g3 : Keeps s0 s3 := by
    unfold s3
    split
    · exact closeFrame_keeps (measureFrame_keeps g2)
    · exact g2
  have g4 : Keeps s0 s4 := postReady_keeps (applyChanges_keeps g3)
  clear_value s4
  repeat' with_reducible first
    | exact g4
    | apply Keeps.ite
    | apply boundaryGroup_keeps
    | apply enterLost_keeps
    | apply boundaryHolds_keeps
    | apply setAng_keeps
    | apply openFrame_keeps

theorem execFrameBoundary_keeps (s : State) : OutKeeps s (execFrameBoundary s) := by
  have hb := Keeps.refl s
  unfold execFrameBoundary
  exact OutKeeps.next (Keeps.ite (Keeps.ite (enterLost_keeps (setFlag_keeps hb)) (boundary_keeps hb)) hb)

theorem execIdleBoundary_keeps (s : State) : OutKeeps s (execIdleBoundary s) := by
  have hb := Keeps.refl s
  unfold execIdleBoundary
  exact OutKeeps.next (Keeps.ite (groupCheckpoint_keeps (boundaryHolds_keeps (applyChanges_keeps hb))) hb)

theorem firstFrame_keeps {base : State} {s : State} (hb : Keeps base s) : Keeps base (firstFrame s) := by
  unfold firstFrame
  extract_lets _ s1
  have g_s1 : Keeps base s1 := setAng_keeps hb
  exact boundary_keeps g_s1

theorem lock_keeps {base : State} {s : State} (hb : Keeps base s) : Keeps base (lock s) := by
  unfold lock
  exact setAng_keeps hb

theorem takeAtWord_keeps {base : State} {s : State} (hb : Keeps base s) : Keeps base (takeAtWord s) := by
  unfold takeAtWord
  extract_lets 
  exact setAng_keeps hb

theorem relock_keeps {base : State} {s : State} (hb : Keeps base s) : Keeps base (relock s) := by
  unfold relock
  exact setAng_keeps hb

theorem reacquireHere_keeps {base : State} {s : State} (hb : Keeps base s) : Keeps base (reacquireHere s) := by
  unfold reacquireHere
  extract_lets s1
  have g_s1 : Keeps base s1 := takeAtWord_keeps (relock_keeps hb)
  exact Keeps.ite (setAng_keeps g_s1) g_s1

theorem reacquireNear_keeps {base : State} {s : State} (hb : Keeps base s) : Keeps base (reacquireNear s) := by
  unfold reacquireNear
  extract_lets _ _ _ s1
  have g_s1 : Keeps base s1 := relock_keeps hb
  exact Keeps.ite (angFlags_keeps (setAng_keeps g_s1)) (enterLost_keeps hb)

theorem acceptEdge_keeps {base : State} {s : State} (hb : Keeps base s) : Keeps base (acceptEdge s) := by
  unfold acceptEdge
  repeat' first
    | with_reducible assumption
    | with_reducible apply pushIval_keeps
    | with_reducible apply setAng_keeps
    | split
    | with_reducible refine Keeps.same ?_ ⟨⟨rfl, rfl, rfl, rfl⟩, rfl, rfl, rfl, rfl, rfl, rfl, rfl, rfl, rfl, rfl,
      rfl, rfl, rfl⟩
    | dsimp only

theorem qeiRun_keeps {base : State} {s : State} {fwd : Bool} (hb : Keeps base s) : Keeps base (qeiRun s fwd) := by
  unfold qeiRun
  extract_lets _ _ s1
  have g_s1 : Keeps base s1 := Keeps.ite (acceptEdge_keeps hb) (setAng_keeps hb)
  exact setAng_keeps g_s1

theorem qeiCount_keeps {base : State} {s : State} {fwd : Bool} (hb : Keeps base s) : Keeps base (qeiCount s fwd) := by
  unfold qeiCount
  extract_lets _ _ _ s1
  have g_s1 : Keeps base s1 := Keeps.ite (acceptEdge_keeps hb) (setAng_keeps hb)
  exact Keeps.ite (angFlags_keeps (setAng_keeps g_s1)) (Keeps.ite (angFlags_keeps (setAng_keeps g_s1)) (Keeps.ite
    (markReversed_keeps (setAng_keeps g_s1)) (setAng_keeps g_s1)))

theorem qeiEdge_keeps {base : State} {s : State} {fwd : Bool} (hb : Keeps base s) : Keeps base (qeiEdge s fwd) := by
  unfold qeiEdge
  split
  · extract_lets s1
    have g_s1 : Keeps base s1 := qeiRun_keeps hb
    exact Keeps.ite (lock_keeps g_s1) g_s1
  · refine Keeps.ite (qeiCount_keeps hb) ?_
    extract_lets s1
    have g_s1 : Keeps base s1 := qeiRun_keeps hb
    exact Keeps.ite (firstFrame_keeps g_s1) g_s1
  · exact reacquireHere_keeps (setAng_keeps hb)
  · exact hb

theorem qeiIllegal_keeps {base : State} {s : State} (hb : Keeps base s) : Keeps base (qeiIllegal s) := by
  unfold qeiIllegal
  extract_lets _ s1
  have g_s1 : Keeps base s1 := setAng_keeps hb
  exact Keeps.ite (loseSource_keeps g_s1) g_s1

theorem shadowEdge_keeps {base : State} {s : State} {ok : Bool} {need : Nat}
    (hb : Keeps base s) : Keeps base (shadowEdge s ok need) := by
  unfold shadowEdge
  extract_lets _ _ s1
  have g_s1 : Keeps base s1 := setAng_keeps hb
  exact Keeps.same g_s1

theorem execQeiCount_keeps (d : QeiMove) (s : State) : OutKeeps s (execQeiCount d s) := by
  have hb := Keeps.refl s
  unfold execQeiCount
  refine OutKeeps.next ?_
  refine Keeps.ite hb ?_
  split
  · exact Keeps.ite (qeiIllegal_keeps hb) hb
  · extract_lets _ _ s1 s2
    have g_s1 : Keeps s s1 := setAng_keeps hb
    have g_s2 : Keeps s s2 := shadowEdge_keeps g_s1
    exact Keeps.ite (qeiEdge_keeps g_s1) (Keeps.ite (setAng_keeps g_s2) g_s1)

theorem tachTrack_keeps {s0 : State} {s : State} {k : State → State} (h : Keeps s0 s) (hk : ∀ t, Keeps s0 t → Keeps s0 (k t)) :
    Keeps s0 (tachTrack s k) := by
  unfold tachTrack
  split
  · exact Keeps.ite (hk _ (setAng_keeps (acceptEdge_keeps h))) (Keeps.ite (loseSource_keeps h) (setAng_keeps h))
  · exact hk _ (acceptEdge_keeps h)

theorem tachRun_keeps {base : State} {s : State} (hb : Keeps base s) : Keeps base (tachRun s) := by
  unfold tachRun
  split
  · exact setAng_keeps hb
  · extract_lets _ s1
    have g_s1 : Keeps base s1 := acceptEdge_keeps hb
    exact setAng_keeps g_s1

theorem tachEdge_keeps {base : State} {s : State} (hb : Keeps base s) : Keeps base (tachEdge s) := by
  unfold tachEdge
  split
  · extract_lets s1
    have g_s1 : Keeps base s1 := tachRun_keeps hb
    exact Keeps.ite (Keeps.ite (lock_keeps g_s1) (firstFrame_keeps (lock_keeps g_s1))) g_s1
  · exact tachTrack_keeps hb (fun _ q => Keeps.ite (angFlags_keeps (measureAt_keeps q)) q)
  · exact Keeps.ite (reacquireHere_keeps hb) (reacquireNear_keeps hb)
  · exact hb

theorem execTachPulse_keeps (s : State) : OutKeeps s (execTachPulse s) := by
  have hb := Keeps.refl s
  unfold execTachPulse
  exact OutKeeps.next (Keeps.ite hb (Keeps.ite (Keeps.ite (setAng_keeps hb) (tachEdge_keeps hb)) (Keeps.ite
    (shadowEdge_keeps hb) hb)))

theorem lineEdge_keeps {base : State} {s : State} {ok : Bool} (hb : Keeps base s) : Keeps base (lineEdge s ok) := by
  unfold lineEdge
  split
  · extract_lets _ s1 _ s2
    have g_s1 : Keeps base s1 := Keeps.ite (acceptEdge_keeps hb) (setAng_keeps hb)
    have g_s2 : Keeps base s2 := setAng_keeps g_s1
    exact Keeps.ite (lock_keeps g_s2) g_s2
  · refine Keeps.ite (loseSource_keeps hb) ?_
    extract_lets s1
    have g_s1 : Keeps base s1 := acceptEdge_keeps hb
    exact Keeps.ite (angFlags_keeps (measureAt_keeps g_s1)) (firstFrame_keeps g_s1)
  · exact reacquireNear_keeps hb
  · exact hb

theorem execLineCrossing_keeps (back : Nat) (s : State) : OutKeeps s (execLineCrossing back s) := by
  have hb := Keeps.refl s
  unfold execLineCrossing
  exact OutKeeps.next (Keeps.ite hb (Keeps.ite (setAng_keeps (lineEdge_keeps (setAng_keeps hb))) (Keeps.ite
    (setAng_keeps (shadowEdge_keeps (setAng_keeps hb))) hb)))

theorem execLineCrossingTimeout_keeps (s : State) : OutKeeps s (execLineCrossingTimeout s) := by
  have hb := Keeps.refl s
  unfold execLineCrossingTimeout
  exact OutKeeps.next (Keeps.ite hb (Keeps.ite (loseSource_keeps hb) (Keeps.ite (Keeps.same hb) hb)))

theorem execEdgeTimeout_keeps (s : State) : OutKeeps s (execEdgeTimeout s) := by
  have hb := Keeps.refl s
  unfold execEdgeTimeout
  exact OutKeeps.next (Keeps.ite hb (Keeps.ite (loseSource_keeps hb) (Keeps.ite (Keeps.same hb) hb)))

theorem execCoastBudgetSpent_keeps (s : State) : OutKeeps s (execCoastBudgetSpent s) := by
  have hb := Keeps.refl s
  unfold execCoastBudgetSpent
  exact OutKeeps.next (Keeps.ite (enterLost_keeps hb) hb)

theorem execStallTimeout_keeps (s : State) : OutKeeps s (execStallTimeout s) := by
  have hb := Keeps.refl s
  unfold execStallTimeout
  exact OutKeeps.next (Keeps.ite (enterLost_keeps (setFlag_keeps hb)) hb)

theorem execTimerLock_keeps (s : State) : OutKeeps s (execTimerLock s) := by
  have hb := Keeps.refl s
  unfold execTimerLock
  refine OutKeeps.next ?_
  refine Keeps.ite ?_ hb
  extract_lets s1
  have g_s1 : Keeps s s1 := lock_keeps hb
  exact firstFrame_keeps (setAng_keeps g_s1)

theorem zCompare_keeps {base : State} {s : State} (hb : Keeps base s) : Keeps base (zCompare s) := by
  unfold zCompare
  extract_lets _ _ _ s1 s2
  have g_s1 : Keeps base s1 := wr_keeps hb
  have g_s2 : Keeps base s2 := Keeps.ite g_s1 (setFlag_keeps g_s1)
  exact Keeps.ite (enterLost_keeps g_s2) (angFlags_keeps (setAng_keeps g_s2))

theorem execZPulse_keeps (s : State) : OutKeeps s (execZPulse s) := by
  have hb := Keeps.refl s
  unfold execZPulse
  exact OutKeeps.next (Keeps.ite (Keeps.ite (zCompare_keeps hb) (firstFrame_keeps hb)) hb)

theorem fireEntry_keeps {base : State} {s : State} {n : Nat} (hb : Keeps base s) : Keeps base (fireEntry s n) := by
  unfold fireEntry
  extract_lets _ _ s1 s2
  have g_s1 : Keeps base s1 := Keeps.ite (setFlag_keeps hb) hb
  have g_s2 : Keeps base s2 := Keeps.ite (traceEvent_keeps g_s1) g_s1
  exact Keeps.ite (traceAevt_keeps g_s2) g_s2

theorem fireAt_keeps {base : State} {s : State} {p : Nat} (hb : Keeps base s) : Keeps base (fireAt s p) := by
  unfold fireAt
  extract_lets _ _ _ s0 s1 s2
  have g_s0 : Keeps base s0 := setAng_keeps hb
  have g_s1 : Keeps base s1 := forEach_keeps g_s0 (fun _ _ q => fireEntry_keeps q)
  have g_s2 : Keeps base s2 := forEach_keeps g_s1 (fun _ _ q => Keeps.ite (strobeLane_keeps q) q)
  exact forEach_keeps g_s2 (fun _ _ q => Keeps.ite (triggerLine_keeps q) q)

theorem fireDue_keeps {base : State} {s : State} (hb : Keeps base s) : Keeps base (fireDue s) := by
  unfold fireDue
  split
  · exact fireAt_keeps hb
  · exact hb

theorem execAngleEventFire_keeps (s : State) : OutKeeps s (execAngleEventFire s) := by
  have hb := Keeps.refl s
  unfold execAngleEventFire
  refine OutKeeps.next ?_
  split
  · exact Keeps.ite hb (fireAt_keeps hb)
  · exact hb

theorem execPacerStrobe_keeps (s : State) : OutKeeps s (execPacerStrobe s) := by
  have hb := Keeps.refl s
  unfold execPacerStrobe
  refine OutKeeps.next ?_
  split
  · exact Keeps.ite (fireAt_keeps hb) hb
  · exact hb

theorem startHandler_keeps {base : State} {s : State} {f : Frame} {fp : Nat}
    (hb : Keeps base s) : Keeps base (startHandler s f fp) := by
  unfold startHandler
  extract_lets _ _ _ _ _ _ _ s1
  have g_s1 : Keeps base s1 := wr_keeps (Keeps.same hb)
  exact traceCnd_keeps (traceProgEvent_keeps g_s1)

theorem loadProgram_keeps {base : State} {s : State} {fp : Nat}
    (hb : Keeps base s) : Keeps base (loadProgram s fp) := by
  unfold loadProgram
  extract_lets 
  exact Keeps.upd hb ⟨rfl, rfl, rfl, rfl⟩ Sound.regs Sound.staged Sound.recs Sound.stamps Sound.cfg Sound.capRam
    Sound.planes (fun _ => twf_nil _) Sound.mem Sound.flash Sound.buf Sound.mbxCmd Sound.mbxRpl Sound.ring Sound.queue

theorem startProgram_keeps {base : State} {s : State} {f : Frame} {fp : Nat}
    (hb : Keeps base s) : Keeps base (startProgram s f fp) := by
  unfold startProgram
  extract_lets s1 _ s2 s3
  have g_s1 : Keeps base s1 := modFrame_keeps hb
  have g_s2 : Keeps base s2 := noteClock_keeps (Keeps.same g_s1)
  have g_s3 : Keeps base s3 := loadProgram_keeps g_s2
  exact Keeps.ite (faultComp_keeps g_s3) (startHandler_keeps g_s3)

theorem execProgramStart_keeps (s : State) : OutKeeps s (execProgramStart s) := by
  have hb := Keeps.refl s
  unfold execProgramStart
  refine OutKeeps.next ?_
  refine Keeps.ite ?_ hb
  split
  · exact startProgram_keeps hb
  · exact hb

theorem drainArray_keeps {base : State} {s : State} (hb : Keeps base s) : Keeps base (drainArray s) := by
  unfold drainArray
  exact Keeps.upd hb ⟨rfl, rfl, rfl, rfl⟩ Sound.regs Sound.staged Sound.recs Sound.stamps Sound.cfg Sound.capRam (fun
    _ => twf_nil _) Sound.pp Sound.mem Sound.flash Sound.buf Sound.mbxCmd Sound.mbxRpl Sound.ring Sound.queue

theorem drainCheck_keeps {base : State} {s : State} {found : BitVec 132}
    (hb : Keeps base s) : Keeps base (drainCheck s found) := by
  unfold drainCheck
  dsimp only
  split
  · exact hb
  · exact forEach_keeps (wr_keeps (setFlag_keeps (Keeps.same hb))) (fun _ _ q => noteCol_keeps q)

theorem endDrain_keeps {base : State} {s : State} {c : BitVec 48}
    (hb : Keeps base s) : Keeps base (endDrain s c) := by
  unfold endDrain
  exact settle_keeps (modFrame_keeps (Keeps.same hb))

theorem execDrainEnd_keeps (found : BitVec 132) (s : State) : OutKeeps s (execDrainEnd found s) := by
  have hb := Keeps.refl s
  unfold execDrainEnd
  refine OutKeeps.next ?_
  split
  · extract_lets s1
    have g_s1 : Keeps s s1 := drainArray_keeps hb
    exact endDrain_keeps (Keeps.ite g_s1 (drainCheck_keeps g_s1))
  · exact hb

theorem flashPut_keeps {base : State} {s : State} {a : Nat} {bs : List Byte}
    (hb : Keeps base s) : Keeps base (flashPut s a bs) := by
  unfold flashPut
  repeat' first
    | with_reducible assumption
    | split
    | with_reducible refine Keeps.same ?_ ⟨⟨rfl, rfl, rfl, rfl⟩, rfl, rfl, rfl, rfl, rfl, rfl, rfl, rfl, rfl, rfl,
      rfl, rfl, rfl⟩
    | with_reducible refine Keeps.upd ?_ ⟨rfl, rfl, rfl, rfl⟩ ?_ ?_ ?_ ?_ ?_ ?_ ?_ ?_ ?_ ?_ ?_ ?_ ?_ ?_ ?_
    | with_reducible exact Sound.regs
    | with_reducible exact Sound.staged
    | with_reducible exact Sound.recs
    | with_reducible exact Sound.stamps
    | with_reducible exact Sound.cfg
    | with_reducible exact Sound.capRam
    | with_reducible exact Sound.planes
    | with_reducible exact Sound.pp
    | with_reducible exact Sound.mem
    | with_reducible exact Sound.flash
    | with_reducible exact Sound.buf
    | with_reducible exact Sound.mbxCmd
    | with_reducible exact Sound.mbxRpl
    | with_reducible exact Sound.ring
    | with_reducible exact Sound.queue
    | exact fun _ => twf_tsets _ _ _ rfl
    | exact fun w => twf_tsets _ _ _ (Sound.flash w)
    | dsimp only

theorem countErase_keeps {base : State} {s : State} {sec : Nat}
    (hb : Keeps base s) : Keeps base (countErase s sec) := by
  unfold countErase
  exact Keeps.same hb

theorem clearSector_keeps {base : State} {s : State} {sec : Nat}
    (hb : Keeps base s) : Keeps base (clearSector s sec) := by
  unfold clearSector
  repeat' first
    | with_reducible assumption
    | split
    | intro _ _ _ _ _
    | intro _ _ _ _
    | intro _ _ _
    | intro _ _
    | with_reducible refine Keeps.fst_of_eq (by assumption) ?_
    | with_reducible refine Keeps.same ?_ ⟨⟨rfl, rfl, rfl, rfl⟩, rfl, rfl, rfl, rfl, rfl, rfl, rfl, rfl, rfl, rfl,
      rfl, rfl, rfl⟩
    | with_reducible refine Keeps.upd ?_ ⟨rfl, rfl, rfl, rfl⟩ ?_ ?_ ?_ ?_ ?_ ?_ ?_ ?_ ?_ ?_ ?_ ?_ ?_ ?_ ?_
    | with_reducible exact Sound.regs
    | with_reducible exact Sound.staged
    | with_reducible exact Sound.recs
    | with_reducible exact Sound.stamps
    | with_reducible exact Sound.cfg
    | with_reducible exact Sound.capRam
    | with_reducible exact Sound.planes
    | with_reducible exact Sound.pp
    | with_reducible exact Sound.mem
    | with_reducible exact Sound.flash
    | with_reducible exact Sound.buf
    | with_reducible exact Sound.mbxCmd
    | with_reducible exact Sound.mbxRpl
    | with_reducible exact Sound.ring
    | with_reducible exact Sound.queue
    | exact fun w => twf_filter _ _ (Sound.flash w)
    | dsimp only

theorem flashErase_keeps {base : State} {s : State} {sec : Nat}
    (hb : Keeps base s) : Keeps base (flashErase s sec) := by
  unfold flashErase
  exact clearSector_keeps (countErase_keeps hb)

theorem flashOpen_keeps {base : State} {s : State} {a n : Nat}
    (hb : Keeps base s) : Keeps base (flashOpen s a n) := by
  unfold flashOpen
  exact useFree_keeps (flashPut_keeps hb)

theorem flashStart_keeps {base : State} {s : State} {op : FlashOp}
    (hb : Keeps base s) : Keeps base (flashStart s op) := by
  unfold flashStart
  extract_lets _ s1
  have g_s1 : Keeps base s1 := Keeps.same hb
  split
  · exact forEach_keeps g_s1 (fun _ _ q => countErase_keeps q)
  · exact g_s1

theorem flashNext_keeps {base : State} {s : State} (hb : Keeps base s) : Keeps base (flashNext s) := by
  unfold flashNext
  refine Keeps.ite hb ?_
  split
  · exact hb
  · exact flashStart_keeps (Keeps.same hb)

theorem flashQueue_keeps {base : State} {s : State} {op : FlashOp}
    (hb : Keeps base s) : Keeps base (flashQueue s op) := by
  unfold flashQueue
  exact flashNext_keeps (Keeps.same hb)

theorem flashDrop_keeps {base : State} {s : State} {o : Order} (hb : Keeps base s) : Keeps base (flashDrop s o) := by
  unfold flashDrop
  extract_lets _ s1
  have g_s1 : Keeps base s1 := by
    unfold s1
    split
    · exact Keeps.ite (Keeps.same hb) hb
    · exact hb
  exact flashNext_keeps (Keeps.same g_s1)

theorem programWord_keeps {s0 : State} {r : State × Option Nat} {w : Nat × List Byte} (h : Keeps s0 r.1) :
    Keeps s0 (programWord r w).1 := by
  unfold programWord
  split
  · exact flashPut_keeps h
  · exact flashOpen_keeps h

theorem programData_keeps {s0 : State} {s : State} {got : Nat} {data : List Byte} (h : Keeps s0 s) :
    Keeps s0 (programData s got data) := by
  unfold programData
  split
  · rename_i off len _ _ bad _ o _
    have g : Keeps s0 (List.foldl programWord (s, bad) ((List.range (data.length / 4)).map
        (fun i => (off + got + 4 * i, (data.drop (4 * i)).take 4)))).1 :=
      foldl_fst_keeps h (fun _ _ q => programWord_keeps q)
    exact Keeps.same g ⟨⟨rfl, rfl, rfl, rfl⟩, rfl, rfl, rfl, rfl, rfl, rfl, rfl, rfl, rfl, rfl, rfl, rfl, rfl⟩
  · exact h

theorem latch_keeps {base : State} {s : State} {a : Nat} (hb : Keeps base s) : Keeps base (latch s a) := by
  unfold latch
  exact Keeps.ite (wr_keeps (wr_keeps hb)) (Keeps.ite (wr_keeps hb) (Keeps.ite (wr_keeps hb) (Keeps.ite (wr_keeps hb)
    (Keeps.ite (wr_keeps hb) (Keeps.ite (wr_keeps hb) hb)))))

theorem regRead_keeps {base : State} {s : State} {p a : Nat} (hb : Keeps base s) : Keeps base (regRead s p a).1 := by
  unfold regRead
  repeat' first
    | with_reducible assumption
    | with_reducible apply Keeps.ite
    | with_reducible apply latch_keeps
    | split
    | with_reducible refine Keeps.fst_of_eq (by assumption) ?_
    | dsimp only

theorem regReads_keeps {zz : State} {p n a : Nat} {s : State} (hz : Keeps zz s) : Keeps zz (regReads p n a s).1 := by
  induction n generalizing a s with
  | zero => exact hz
  | succ n ih => exact ih (regRead_keeps hz)

theorem execAngWordRead_keeps (s : State) : OutKeeps s (execAngWordRead s) := by
  have hb := Keeps.refl s
  unfold execAngWordRead
  exact OutKeeps.next (latch_keeps hb)

theorem execFrmCntLoRead_keeps (s : State) : OutKeeps s (execFrmCntLoRead s) := by
  have hb := Keeps.refl s
  unfold execFrmCntLoRead
  exact OutKeeps.next (latch_keeps hb)

theorem execScbSuspLoRead_keeps (s : State) : OutKeeps s (execScbSuspLoRead s) := by
  have hb := Keeps.refl s
  unfold execScbSuspLoRead
  exact OutKeeps.next (latch_keeps hb)

theorem execMsqTrapinfoRead_keeps (p : Fin 4) (s : State) : OutKeeps s (execMsqTrapinfoRead p s) := by
  have hb := Keeps.refl s
  unfold execMsqTrapinfoRead
  exact OutKeeps.next (regRead_keeps hb)

theorem execMsqFaultinfoRead_keeps (p : Fin 4) (s : State) : OutKeeps s (execMsqFaultinfoRead p s) := by
  have hb := Keeps.refl s
  unfold execMsqFaultinfoRead
  exact OutKeeps.next (regRead_keeps hb)

theorem execCndHtrapRead_keeps (p : Fin 4) (s : State) : OutKeeps s (execCndHtrapRead p s) := by
  have hb := Keeps.refl s
  unfold execCndHtrapRead
  exact OutKeeps.next (regRead_keeps hb)

theorem execGrpCkfrmLoRead_keeps (s : State) : OutKeeps s (execGrpCkfrmLoRead s) := by
  have hb := Keeps.refl s
  unfold execGrpCkfrmLoRead
  exact OutKeeps.next (latch_keeps hb)

theorem execTrcTimeLoRead_keeps (s : State) : OutKeeps s (execTrcTimeLoRead s) := by
  have hb := Keeps.refl s
  unfold execTrcTimeLoRead
  exact OutKeeps.next (latch_keeps hb)

theorem sqTailWrite_keeps {base : State} {s : State} {p v : Nat}
    (hb : Keeps base s) : Keeps base (sqTailWrite s p v) := by
  unfold sqTailWrite
  extract_lets _ _ _ _ s1
  have g_s1 : Keeps base s1 := Keeps.same hb
  exact Keeps.ite (raiseInt_keeps (traceRing_keeps g_s1)) (setFlag_keeps hb)

theorem rqHeadWrite_keeps {base : State} {s : State} {p v : Nat}
    (hb : Keeps base s) : Keeps base (rqHeadWrite s p v) := by
  unfold rqHeadWrite
  extract_lets 
  exact Keeps.ite (Keeps.same hb) (setFlag_keeps hb)

theorem rwWrite_keeps {base : State} {s : State} {a : Nat} {v : Word}
    (hb : Keeps base s) : Keeps base (rwWrite s a v) := by
  unfold rwWrite
  exact Keeps.ite (capWrite_keeps hb) (Keeps.ite (Keeps.ite (sqTailWrite_keeps hb) (rqHeadWrite_keeps hb)) (Keeps.ite
    (Keeps.ite (setFlag_keeps hb) (wr_keeps hb)) (Keeps.ite (allocWrite_keeps hb) (Keeps.ite (trcCtlWrite_keeps hb)
    (wr_keeps hb)))))

theorem rwfWrite_keeps {base : State} {s : State} {mbx : Bool} {stamp a : Nat} {v : Word}
    (hb : Keeps base s) : Keeps base (rwfWrite s mbx stamp a v) := by
  unfold rwfWrite
  refine Keeps.ite hb ?_
  extract_lets _ s1
  have g_s1 : Keeps base s1 := Keeps.ite (Keeps.same hb) hb
  exact addWrite_keeps g_s1

theorem regWrite_keeps {base : State} {s : State} {mbx : Bool} {stamp a : Nat} {v : Word}
    (hb : Keeps base s) : Keeps base (regWrite s mbx stamp a v) := by
  unfold regWrite
  extract_lets s0
  have g_s0 : Keeps base s0 := Keeps.ite (reservedField_keeps hb) hb
  split
  · exact g_s0
  · extract_lets 
    split
    · exact g_s0
    · exact g_s0
    · exact clrReg_keeps g_s0
    · exact rwWrite_keeps g_s0
    · exact rwfWrite_keeps g_s0

theorem execSqTailWrite_keeps (p : Fin 4) (v : Word) (s : State) : OutKeeps s (execSqTailWrite p v s) := by
  have hb := Keeps.refl s
  unfold execSqTailWrite
  exact OutKeeps.next (sqTailWrite_keeps hb)

theorem execRqHeadWrite_keeps (p : Fin 4) (v : Word) (s : State) : OutKeeps s (execRqHeadWrite p v s) := by
  have hb := Keeps.refl s
  unfold execRqHeadWrite
  exact OutKeeps.next (rqHeadWrite_keeps hb)

theorem execEventEntryWrite_keeps (mbx b : Bool) (v : Word)
    (s : State) : OutKeeps s (execEventEntryWrite mbx b v s) := by
  have hb := Keeps.refl s
  unfold execEventEntryWrite
  exact OutKeeps.next (regWrite_keeps hb)

theorem execTraceRearm_keeps (p : Fin 4) (v : Word) (s : State) : OutKeeps s (execTraceRearm p v s) := by
  have hb := Keeps.refl s
  unfold execTraceRearm
  exact OutKeeps.next (regWrite_keeps hb)

theorem execTraceRunStop_keeps (p : Fin 4) (v : Word) (s : State) : OutKeeps s (execTraceRunStop p v s) := by
  have hb := Keeps.refl s
  unfold execTraceRunStop
  exact OutKeeps.next (regWrite_keeps hb)

theorem execTraceClear_keeps (p : Fin 4) (v : Word) (s : State) : OutKeeps s (execTraceClear p v s) := by
  have hb := Keeps.refl s
  unfold execTraceClear
  exact OutKeeps.next (regWrite_keeps hb)

theorem execTraceForce_keeps (p : Fin 4) (v : Word) (s : State) : OutKeeps s (execTraceForce p v s) := by
  have hb := Keeps.refl s
  unfold execTraceForce
  exact OutKeeps.next (regWrite_keeps hb)

theorem execTraceAllocWrite_keeps (p : Fin 4) (v : Word) (s : State) : OutKeeps s (execTraceAllocWrite p v s) := by
  have hb := Keeps.refl s
  unfold execTraceAllocWrite
  exact OutKeeps.next (regWrite_keeps hb)

theorem execHdgCapArm_keeps (v : Word) (s : State) : OutKeeps s (execHdgCapArm v s) := by
  have hb := Keeps.refl s
  unfold execHdgCapArm
  exact OutKeeps.next (regWrite_keeps hb)

theorem execHdgCapDiscard_keeps (v : Word) (s : State) : OutKeeps s (execHdgCapDiscard v s) := by
  have hb := Keeps.refl s
  unfold execHdgCapDiscard
  exact OutKeeps.next (regWrite_keeps hb)

theorem abandonFlash_keeps {base : State} {s : State} (hb : Keeps base s) : Keeps base (abandonFlash s) := by
  unfold abandonFlash
  extract_lets s1
  have g_s1 : Keeps base s1 := by
    unfold s1
    split
    · exact flashOpen_keeps hb
    · exact Keeps.ite hb (flashOpen_keeps hb)
    · exact Keeps.ite (flashOpen_keeps hb) (flashOpen_keeps hb)
    · exact hb
  exact Keeps.ite g_s1 (flashOpen_keeps g_s1)

theorem resetRegs_wf : twf 0 resetRegs = true := by decide

theorem resetFrame_wf : twf 0 resetFrame = true := by decide

theorem resetEntry_keeps {z0 : State} {s0 : State} {cause : Nat} (h : Keeps z0 s0) : Keeps z0 (resetEntry s0 cause) := by
  unfold resetEntry
  have g := abandonFlash_keeps h
  generalize abandonFlash s0 = s at g
  apply useFree_keeps
  exact Keeps.upd g ⟨rfl, rfl, rfl, rfl⟩ (fun _ => twf_tset _ _ _ resetRegs_wf) (fun _ => resetFrame_wf) (fun _ => rfl)
    (fun _ => rfl) (fun _ => rfl) (fun _ => rfl) (fun _ => rfl) (fun _ => rfl) (fun _ => rfl) Sound.flash (fun _ => rfl)
    (fun _ => rfl) (fun _ => rfl) (fun _ => Nat.zero_le _) (fun _ => Nat.zero_le _)

end Sys2Proof.Machine
end

