-- ==== Sys2Proof/Laws/KeepsMacros.lean ====
section
/-! SUPPORT. One lemma per operation of the array macros: it keeps what Laws/Keeps.lean names. -/

namespace Sys2Proof.Machine

open Sys2Proof

-- one proof at a time: the whole package is checked as one text
set_option Elab.async false

theorem setC_keeps {base : State} {s : State} {f : Nat → Bool} (hb : Keeps base s) : Keeps base (setC s f) := by
  unfold setC
  exact Keeps.same hb

theorem setT_keeps {base : State} {s : State} {f : Nat → Bool} (hb : Keeps base s) : Keeps base (setT s f) := by
  unfold setT
  exact Keeps.same hb

theorem setM_keeps {base : State} {s : State} {v : Plane} (hb : Keeps base s) : Keeps base (setM s v) := by
  unfold setM
  exact Keeps.same hb

theorem putD_keeps {base : State} {s : State} {w : Word} {n : Nat} {f : Nat → Nat}
    (hb : Keeps base s) : Keeps base (putD s w n f) := by
  unfold putD
  exact setField_keeps hb

theorem putAlu_keeps {base : State} {s : State} {w : Word} {f : Nat → Alu}
    (hb : Keeps base s) : Keeps base (putAlu s w f) := by
  unfold putAlu
  exact setT_keeps (setC_keeps (putD_keeps hb))

theorem execMacroNop_keeps (s : State) : OutKeeps s (execMacroNop s) := by
  have hb := Keeps.refl s
  unfold execMacroNop
  exact OutKeeps.next (vendorMacro_keeps hb (fun _ _ _ _ q => q))

theorem setPP_keeps {base : State} {s : State} {i v : Nat} (hb : Keeps base s) : Keeps base (setPP s i v) := by
  unfold setPP
  exact Keeps.upd hb ⟨rfl, rfl, rfl, rfl⟩ Sound.regs Sound.staged Sound.recs Sound.stamps Sound.cfg Sound.capRam
    Sound.planes (fun w => twf_tset _ _ _ w.pp) Sound.mem Sound.flash Sound.buf Sound.mbxCmd Sound.mbxRpl Sound.ring
    Sound.queue

theorem execMacroSetp_keeps (s : State) : OutKeeps s (execMacroSetp s) := by
  have hb := Keeps.refl s
  unfold execMacroSetp
  exact OutKeeps.next (vendorMacro_keeps hb (fun _ _ _ _ q => setPP_keeps q))

theorem execMacroAddp_keeps (s : State) : OutKeeps s (execMacroAddp s) := by
  have hb := Keeps.refl s
  unfold execMacroAddp
  exact OutKeeps.next (vendorMacro_keeps hb (fun _ _ _ _ q => setPP_keeps q))

theorem execMacroSetrm_keeps (s : State) : OutKeeps s (execMacroSetrm s) := by
  have hb := Keeps.refl s
  unfold execMacroSetrm
  exact OutKeeps.next (vendorMacro_keeps hb (fun _ _ _ _ q => Keeps.same q))

theorem execMacroClrf_keeps (s : State) : OutKeeps s (execMacroClrf s) := by
  have hb := Keeps.refl s
  unfold execMacroClrf
  exact OutKeeps.next (vendorMacro_keeps hb (fun _ _ _ _ q => setT_keeps (setC_keeps q)))

theorem execMacroMall_keeps (s : State) : OutKeeps s (execMacroMall s) := by
  have hb := Keeps.refl s
  unfold execMacroMall
  exact OutKeeps.next (vendorMacro_keeps hb (fun _ _ _ _ q => setM_keeps q))

theorem execMacroMld_keeps (s : State) : OutKeeps s (execMacroMld s) := by
  have hb := Keeps.refl s
  unfold execMacroMld
  exact OutKeeps.next (vendorMacro_keeps hb (fun _ _ _ _ q => setM_keeps q))

theorem execMacroMand_keeps (s : State) : OutKeeps s (execMacroMand s) := by
  have hb := Keeps.refl s
  unfold execMacroMand
  refine OutKeeps.next ?_
  refine vendorMacro_keeps hb ?_
  intro _ _ _ _ q
  extract_lets 
  exact setM_keeps q

theorem execMacroMor_keeps (s : State) : OutKeeps s (execMacroMor s) := by
  have hb := Keeps.refl s
  unfold execMacroMor
  exact OutKeeps.next (vendorMacro_keeps hb (fun _ _ _ _ q => setM_keeps q))

theorem execMacroMnot_keeps (s : State) : OutKeeps s (execMacroMnot s) := by
  have hb := Keeps.refl s
  unfold execMacroMnot
  exact OutKeeps.next (vendorMacro_keeps hb (fun _ _ _ _ q => setM_keeps q))

theorem execMacroMsto_keeps (s : State) : OutKeeps s (execMacroMsto s) := by
  have hb := Keeps.refl s
  unfold execMacroMsto
  exact OutKeeps.next (vendorMacro_keeps hb (fun _ _ _ _ q => setPlane_keeps q))

theorem execMacroMft_keeps (s : State) : OutKeeps s (execMacroMft s) := by
  have hb := Keeps.refl s
  unfold execMacroMft
  exact OutKeeps.next (vendorMacro_keeps hb (fun _ _ _ _ q => setM_keeps q))

theorem execMacroTld_keeps (s : State) : OutKeeps s (execMacroTld s) := by
  have hb := Keeps.refl s
  unfold execMacroTld
  exact OutKeeps.next (vendorMacro_keeps hb (fun _ _ _ _ q => Keeps.same q))

theorem execMacroTsto_keeps (s : State) : OutKeeps s (execMacroTsto s) := by
  have hb := Keeps.refl s
  unfold execMacroTsto
  exact OutKeeps.next (vendorMacro_keeps hb (fun _ _ _ _ q => setPlane_keeps q))

theorem execMacroMov_keeps (s : State) : OutKeeps s (execMacroMov s) := by
  have hb := Keeps.refl s
  unfold execMacroMov
  exact OutKeeps.next (vendorMacro_keeps hb (fun _ _ _ _ q => putD_keeps q))

theorem execMacroLogic_keeps (s : State) : OutKeeps s (execMacroLogic s) := by
  have hb := Keeps.refl s
  unfold execMacroLogic
  exact OutKeeps.next (vendorMacro_keeps hb (fun _ _ _ _ q => putD_keeps q))

theorem execMacroSel_keeps (s : State) : OutKeeps s (execMacroSel s) := by
  have hb := Keeps.refl s
  unfold execMacroSel
  exact OutKeeps.next (vendorMacro_keeps hb (fun _ _ _ _ q => putD_keeps q))

theorem execMacroFill_keeps (s : State) : OutKeeps s (execMacroFill s) := by
  have hb := Keeps.refl s
  unfold execMacroFill
  exact OutKeeps.next (vendorMacro_keeps hb (fun _ _ _ _ q => putD_keeps q))

theorem execMacroFillk_keeps (s : State) : OutKeeps s (execMacroFillk s) := by
  have hb := Keeps.refl s
  unfold execMacroFillk
  exact OutKeeps.next (vendorMacro_keeps hb (fun _ _ _ _ q => putD_keeps q))

theorem execMacroBsh_keeps (s : State) : OutKeeps s (execMacroBsh s) := by
  have hb := Keeps.refl s
  unfold execMacroBsh
  exact OutKeeps.next (vendorMacro_keeps hb (fun _ _ _ _ q => putD_keeps q))

theorem execMacroExt_keeps (s : State) : OutKeeps s (execMacroExt s) := by
  have hb := Keeps.refl s
  unfold execMacroExt
  exact OutKeeps.next (vendorMacro_keeps hb (fun _ _ _ _ q => putD_keeps q))

theorem execMacroAdd_keeps (s : State) : OutKeeps s (execMacroAdd s) := by
  have hb := Keeps.refl s
  unfold execMacroAdd
  exact OutKeeps.next (vendorMacro_keeps hb (fun _ _ _ _ q => putAlu_keeps q))

theorem execMacroSub_keeps (s : State) : OutKeeps s (execMacroSub s) := by
  have hb := Keeps.refl s
  unfold execMacroSub
  exact OutKeeps.next (vendorMacro_keeps hb (fun _ _ _ _ q => putAlu_keeps q))

theorem execMacroAddk_keeps (s : State) : OutKeeps s (execMacroAddk s) := by
  have hb := Keeps.refl s
  unfold execMacroAddk
  exact OutKeeps.next (vendorMacro_keeps hb (fun _ _ _ _ q => putAlu_keeps q))

theorem execMacroSubk_keeps (s : State) : OutKeeps s (execMacroSubk s) := by
  have hb := Keeps.refl s
  unfold execMacroSubk
  exact OutKeeps.next (vendorMacro_keeps hb (fun _ _ _ _ q => putAlu_keeps q))

theorem execMacroNeg_keeps (s : State) : OutKeeps s (execMacroNeg s) := by
  have hb := Keeps.refl s
  unfold execMacroNeg
  exact OutKeeps.next (vendorMacro_keeps hb (fun _ _ _ _ q => putAlu_keeps q))

theorem execMacroAddsat_keeps (s : State) : OutKeeps s (execMacroAddsat s) := by
  have hb := Keeps.refl s
  unfold execMacroAddsat
  exact OutKeeps.next (vendorMacro_keeps hb (fun _ _ _ _ q => putAlu_keeps q))

theorem execMacroSubsat_keeps (s : State) : OutKeeps s (execMacroSubsat s) := by
  have hb := Keeps.refl s
  unfold execMacroSubsat
  exact OutKeeps.next (vendorMacro_keeps hb (fun _ _ _ _ q => putAlu_keeps q))

theorem execMacroAbs_keeps (s : State) : OutKeeps s (execMacroAbs s) := by
  have hb := Keeps.refl s
  unfold execMacroAbs
  exact OutKeeps.next (vendorMacro_keeps hb (fun _ _ _ _ q => putAlu_keeps q))

theorem putRel_keeps {base : State} {s : State} {f : Nat → Bool} (hb : Keeps base s) : Keeps base (putRel s f) := by
  unfold putRel
  exact setT_keeps (setC_keeps hb)

theorem execMacroCmp_keeps (s : State) : OutKeeps s (execMacroCmp s) := by
  have hb := Keeps.refl s
  unfold execMacroCmp
  exact OutKeeps.next (vendorMacro_keeps hb (fun _ _ _ _ q => putRel_keeps q))

theorem execMacroCmpk_keeps (s : State) : OutKeeps s (execMacroCmpk s) := by
  have hb := Keeps.refl s
  unfold execMacroCmpk
  exact OutKeeps.next (vendorMacro_keeps hb (fun _ _ _ _ q => putRel_keeps q))

theorem execMacroMinmax_keeps (s : State) : OutKeeps s (execMacroMinmax s) := by
  have hb := Keeps.refl s
  unfold execMacroMinmax
  exact OutKeeps.next (vendorMacro_keeps hb (fun _ _ _ _ q => putAlu_keeps q))

theorem execMacroMulu_keeps (s : State) : OutKeeps s (execMacroMulu s) := by
  have hb := Keeps.refl s
  unfold execMacroMulu
  exact OutKeeps.next (vendorMacro_keeps hb (fun _ _ _ _ q => setC_keeps (putD_keeps q)))

theorem execMacroMuls_keeps (s : State) : OutKeeps s (execMacroMuls s) := by
  have hb := Keeps.refl s
  unfold execMacroMuls
  exact OutKeeps.next (vendorMacro_keeps hb (fun _ _ _ _ q => setC_keeps (putD_keeps q)))

theorem execMacroMulq_keeps (s : State) : OutKeeps s (execMacroMulq s) := by
  have hb := Keeps.refl s
  unfold execMacroMulq
  exact OutKeeps.next (vendorMacro_keeps hb (fun _ _ _ _ q => putAlu_keeps q))

theorem execMacroDivu_keeps (s : State) : OutKeeps s (execMacroDivu s) := by
  have hb := Keeps.refl s
  unfold execMacroDivu
  refine OutKeeps.next ?_
  refine vendorMacro_keeps hb ?_
  intro _ _ _ _ q
  extract_lets _ s1 s2
  have g_s1 : Keeps s s1 := putD_keeps q
  have g_s2 : Keeps s s2 := setField_keeps g_s1
  exact putRel_keeps g_s2

theorem nshf_keeps {base : State} {bursts : List (BitVec 128)} {s : State}
    (hb : Keeps base s) : Keeps base (nshf bursts s) := by
  unfold nshf
  refine vendorMacro_keeps hb ?_
  intro _ _ _ _ q
  extract_lets _ s1
  have g_s1 : Keeps base s1 := forEach_keeps q (fun _ _ q1 => setPlane_keeps q1)
  exact clearXY_keeps (burstRx_keeps g_s1)

theorem execMacroNshf_keeps (bursts : List (BitVec 128)) (s : State) : OutKeeps s (execMacroNshf bursts s) := by
  have hb := Keeps.refl s
  unfold execMacroNshf
  refine OutKeeps.next ?_
  split
  · exact Keeps.ite (useFree_keeps (checkInterval_keeps hb (fun _ q => nshf_keeps q))) (nshf_keeps hb)
  · exact nshf_keeps hb

theorem setQres_keeps {base : State} {s : State} {v : Nat} (hb : Keeps base s) : Keeps base (setQres s v) := by
  unfold setQres
  exact Keeps.same hb

theorem execMacroAny_keeps (others : Bool) (s : State) : OutKeeps s (execMacroAny others s) := by
  have hb := Keeps.refl s
  unfold execMacroAny
  refine OutKeeps.next ?_
  refine vendorMacro_keeps hb ?_
  intro _ _ _ _ q
  extract_lets 
  exact setQres_keeps (recAny_keeps (setT_keeps q))

theorem execMacroTally_keeps (others : Nat) (s : State) : OutKeeps s (execMacroTally others s) := by
  have hb := Keeps.refl s
  unfold execMacroTally
  refine OutKeeps.next ?_
  refine vendorMacro_keeps hb ?_
  intro _ _ _ _ q
  extract_lets 
  exact setQres_keeps (recTally_keeps q)

theorem execMacroSumw_keeps (others : List Nat) (s : State) : OutKeeps s (execMacroSumw others s) := by
  have hb := Keeps.refl s
  unfold execMacroSumw
  refine OutKeeps.next ?_
  refine vendorMacro_keeps hb ?_
  intro _ _ _ _ q
  extract_lets 
  exact setQres_keeps (recTally_keeps q)

theorem execMacroExtr_keeps (part : Bool) (others : List Bool)
    (s : State) : OutKeeps s (execMacroExtr part others s) := by
  have hb := Keeps.refl s
  unfold execMacroExtr
  refine OutKeeps.next ?_
  refine vendorMacro_keeps hb ?_
  intro _ _ _ _ q
  extract_lets _ _ _ s1
  have g_s1 : Keeps s s1 := recAny_keeps q
  exact Keeps.ite (setQres_keeps (recAny_keeps q)) (setQres_keeps (setT_keeps g_s1))

theorem xferFault_keeps {base : State} {s : State} {fp a : Nat}
    (hb : Keeps base s) : Keeps base (xferFault s fp a) := by
  unfold xferFault
  extract_lets s1
  have g_s1 : Keeps base s1 := Keeps.ite (sticky0_keeps hb) (sticky0_keeps hb)
  exact faultComp_keeps g_s1

theorem loadPlanes_keeps {base : State} {s : State} {fp pd n a words per : Nat} {src : Nat → Nat → Nat → Nat × Nat}
    (hb : Keeps base s) : Keeps base (loadPlanes s fp pd n a words per src) := by
  unfold loadPlanes
  split
  · exact xferFault_keeps hb
  · extract_lets s1
    have g_s1 : Keeps base s1 := forEach_keeps hb (fun _ _ q => setPlane_keeps q)
    exact Keeps.same g_s1

theorem execMacroLdt_keeps (s : State) : OutKeeps s (execMacroLdt s) := by
  have hb := Keeps.refl s
  unfold execMacroLdt
  exact OutKeeps.next (vendorMacro_keeps hb (fun _ _ _ _ q => loadPlanes_keeps q))

theorem execMacroLds_keeps (s : State) : OutKeeps s (execMacroLds s) := by
  have hb := Keeps.refl s
  unfold execMacroLds
  exact OutKeeps.next (vendorMacro_keeps hb (fun _ _ _ _ q => loadPlanes_keeps q))

theorem execMacroStt_keeps (s : State) : OutKeeps s (execMacroStt s) := by
  have hb := Keeps.refl s
  unfold execMacroStt
  refine OutKeeps.next ?_
  refine vendorMacro_keeps hb ?_
  intro _ _ _ _ q
  extract_lets 
  refine forEach_keeps q ?_
  intro _ _ q1
  extract_lets 
  exact wrWord_keeps q1

theorem execMacroSts_keeps (s : State) : OutKeeps s (execMacroSts s) := by
  have hb := Keeps.refl s
  unfold execMacroSts
  refine OutKeeps.next ?_
  refine vendorMacro_keeps hb ?_
  intro _ _ _ _ q
  extract_lets 
  refine forEach_keeps q ?_
  intro _ _ q1
  extract_lets 
  exact wrWord_keeps q1

theorem execUwXfer_keeps (out : Bool) (p : Fin 2048) (data : BitVec 128)
    (s : State) : OutKeeps s (execUwXfer out p data s) := by
  have hb := Keeps.refl s
  unfold execUwXfer
  refine OutKeeps.next ?_
  refine Keeps.ite hb ?_
  extract_lets 
  exact Keeps.ite (Keeps.same hb) (setPlane_keeps (Keeps.same hb))

theorem orExc_keeps {base : State} {s : State} {f : Nat → Nat} (hb : Keeps base s) : Keeps base (orExc s f) := by
  unfold orExc
  exact forEach_keeps hb (fun _ _ q => setPlane_keeps q)

theorem putFp_keeps {base : State} {s : State} {w : Word} {n : Nat} {f : Nat → FRes}
    (hb : Keeps base s) : Keeps base (putFp s w n f) := by
  unfold putFp
  exact setC_keeps (orExc_keeps (putD_keeps hb))

theorem fpAdd_keeps {base : State} {f : Fmt} {s : State} {w : Word}
    (hb : Keeps base s) : Keeps base (fpAdd f s w) := by
  unfold fpAdd
  exact putFp_keeps hb

theorem fpMul_keeps {base : State} {f : Fmt} {s : State} {w : Word}
    (hb : Keeps base s) : Keeps base (fpMul f s w) := by
  unfold fpMul
  exact putFp_keeps hb

theorem fpFma_keeps {base : State} {f : Fmt} {s : State} {w : Word}
    (hb : Keeps base s) : Keeps base (fpFma f s w) := by
  unfold fpFma
  exact putFp_keeps hb

theorem fpCmp_keeps {base : State} {f : Fmt} {s : State} {w : Word}
    (hb : Keeps base s) : Keeps base (fpCmp f s w) := by
  unfold fpCmp
  extract_lets 
  exact putRel_keeps (orExc_keeps hb)

theorem fpFromInt_keeps {base : State} {f : Fmt} {s : State} {w : Word}
    (hb : Keeps base s) : Keeps base (fpFromInt f s w) := by
  unfold fpFromInt
  exact putFp_keeps hb

theorem fpToInt_keeps {base : State} {f : Fmt} {s : State} {w : Word}
    (hb : Keeps base s) : Keeps base (fpToInt f s w) := by
  unfold fpToInt
  extract_lets 
  exact putRel_keeps (orExc_keeps (putD_keeps hb))

theorem fpConv_keeps {base : State} {f g : Fmt} {s : State} {w : Word}
    (hb : Keeps base s) : Keeps base (fpConv f g s w) := by
  unfold fpConv
  exact putFp_keeps hb

theorem execMacroFadd32_keeps (s : State) : OutKeeps s (execMacroFadd32 s) := by
  have hb := Keeps.refl s
  unfold execMacroFadd32
  exact OutKeeps.next (vendorMacro_keeps hb (fun _ _ _ _ q => fpAdd_keeps q))

theorem execMacroFmul32_keeps (s : State) : OutKeeps s (execMacroFmul32 s) := by
  have hb := Keeps.refl s
  unfold execMacroFmul32
  exact OutKeeps.next (vendorMacro_keeps hb (fun _ _ _ _ q => fpMul_keeps q))

theorem execMacroFma32_keeps (s : State) : OutKeeps s (execMacroFma32 s) := by
  have hb := Keeps.refl s
  unfold execMacroFma32
  exact OutKeeps.next (vendorMacro_keeps hb (fun _ _ _ _ q => fpFma_keeps q))

theorem execMacroFcmp32_keeps (s : State) : OutKeeps s (execMacroFcmp32 s) := by
  have hb := Keeps.refl s
  unfold execMacroFcmp32
  exact OutKeeps.next (vendorMacro_keeps hb (fun _ _ _ _ q => fpCmp_keeps q))

theorem execMacroFcvt32f_keeps (s : State) : OutKeeps s (execMacroFcvt32f s) := by
  have hb := Keeps.refl s
  unfold execMacroFcvt32f
  exact OutKeeps.next (vendorMacro_keeps hb (fun _ _ _ _ q => fpFromInt_keeps q))

theorem execMacroFcvtf32_keeps (s : State) : OutKeeps s (execMacroFcvtf32 s) := by
  have hb := Keeps.refl s
  unfold execMacroFcvtf32
  exact OutKeeps.next (vendorMacro_keeps hb (fun _ _ _ _ q => fpToInt_keeps q))

theorem execMacroFadd64_keeps (s : State) : OutKeeps s (execMacroFadd64 s) := by
  have hb := Keeps.refl s
  unfold execMacroFadd64
  exact OutKeeps.next (vendorMacro_keeps hb (fun _ _ _ _ q => fpAdd_keeps q))

theorem execMacroFmul64_keeps (s : State) : OutKeeps s (execMacroFmul64 s) := by
  have hb := Keeps.refl s
  unfold execMacroFmul64
  exact OutKeeps.next (vendorMacro_keeps hb (fun _ _ _ _ q => fpMul_keeps q))

theorem execMacroFma64_keeps (s : State) : OutKeeps s (execMacroFma64 s) := by
  have hb := Keeps.refl s
  unfold execMacroFma64
  exact OutKeeps.next (vendorMacro_keeps hb (fun _ _ _ _ q => fpFma_keeps q))

theorem execMacroFcmp64_keeps (s : State) : OutKeeps s (execMacroFcmp64 s) := by
  have hb := Keeps.refl s
  unfold execMacroFcmp64
  exact OutKeeps.next (vendorMacro_keeps hb (fun _ _ _ _ q => fpCmp_keeps q))

theorem execMacroFcvt64f_keeps (s : State) : OutKeeps s (execMacroFcvt64f s) := by
  have hb := Keeps.refl s
  unfold execMacroFcvt64f
  exact OutKeeps.next (vendorMacro_keeps hb (fun _ _ _ _ q => fpFromInt_keeps q))

theorem execMacroFcvtf64_keeps (s : State) : OutKeeps s (execMacroFcvtf64 s) := by
  have hb := Keeps.refl s
  unfold execMacroFcvtf64
  exact OutKeeps.next (vendorMacro_keeps hb (fun _ _ _ _ q => fpToInt_keeps q))

theorem execMacroFcvt3264_keeps (s : State) : OutKeeps s (execMacroFcvt3264 s) := by
  have hb := Keeps.refl s
  unfold execMacroFcvt3264
  exact OutKeeps.next (vendorMacro_keeps hb (fun _ _ _ _ q => fpConv_keeps q))

theorem execMacroFcvt6432_keeps (s : State) : OutKeeps s (execMacroFcvt6432 s) := by
  have hb := Keeps.refl s
  unfold execMacroFcvt6432
  exact OutKeeps.next (vendorMacro_keeps hb (fun _ _ _ _ q => fpConv_keeps q))

end Sys2Proof.Machine
end

