-- ==== Sys2Proof/Laws/KeepsConductor.lean ====
section
/-! SUPPORT. One lemma per operation of the conductor: it keeps what Laws/Keeps.lean names. -/

namespace Sys2Proof.Machine

open Sys2Proof

-- one proof at a time: the whole package is checked as one text
set_option Elab.async false

theorem modCnd_keeps {s0 : State} {s : State} {f : Cnd → Cnd} (h : Keeps s0 s) (hf : (f s.cnd).mem = s.cnd.mem) :
    Keeps s0 (modCnd s f) :=
  Keeps.same h ⟨⟨rfl, rfl, rfl, rfl⟩, rfl, rfl, rfl, rfl, rfl, rfl, hf, rfl, rfl, rfl, rfl, rfl, rfl⟩

theorem setA_keeps {base : State} {s : State} {i : Nat} {v : Word} (hb : Keeps base s) : Keeps base (setA s i v) := by
  unfold setA
  exact modCnd_keeps hb rfl

theorem setD_keeps {base : State} {s : State} {i : Nat} {v : Word} (hb : Keeps base s) : Keeps base (setD s i v) := by
  unfold setD
  exact Keeps.ite (modCnd_keeps hb rfl) (modCnd_keeps hb rfl)

theorem setDPair_keeps {base : State} {s : State} {i v : Nat} (hb : Keeps base s) : Keeps base (setDPair s i v) := by
  unfold setDPair
  exact setD_keeps (setD_keeps hb)

theorem setK_keeps {base : State} {s : State} {i : Nat} {v : BitVec 72}
    (hb : Keeps base s) : Keeps base (setK s i v) := by
  unfold setK
  exact modCnd_keeps hb rfl

theorem setF_keeps {base : State} {s : State} {i : Nat} {v : DWord}
    (hb : Keeps base s) : Keeps base (setF s i v) := by
  unfold setF
  exact modCnd_keeps hb rfl

theorem setCstat_keeps {base : State} {s : State} {v : Word} (hb : Keeps base s) : Keeps base (setCstat s v) := by
  unfold setCstat
  exact modCnd_keeps hb rfl

theorem orCstat_keeps {base : State} {s : State} {v : Word} (hb : Keeps base s) : Keeps base (orCstat s v) := by
  unfold orCstat
  exact modCnd_keeps hb rfl

theorem spend_keeps {base : State} {s : State} {n : Nat} (hb : Keeps base s) : Keeps base (spend s n) := by
  unfold spend
  extract_lets s1 s2
  have g_s1 : Keeps base s1 := modCnd_keeps hb rfl
  have g_s2 : Keeps base s2 := modCnd_keeps g_s1 rfl
  split
  · exact g_s1
  · refine Keeps.ite ?_ (wr_keeps g_s2)
    extract_lets 
    exact modCnd_keeps g_s1 rfl

theorem deliver_keeps {base : State} {s : State} {cc : Nat} {l : List (Nat × Nat)}
    (hb : Keeps base s) : Keeps base (deliver s cc l) := by
  unfold deliver
  exact modCnd_keeps hb rfl

theorem goNext_keeps {base : State} {s : State} {n : Nat} (hb : Keeps base s) : Keeps base (goNext s n) := by
  unfold goNext
  repeat' first
    | with_reducible assumption
    | with_reducible apply Keeps.ite
    | with_reducible apply modCnd_keeps
    | with_reducible rfl
    | split
    | intro _ _ _ _ _
    | intro _ _ _ _
    | intro _ _ _
    | intro _ _
    | with_reducible refine Keeps.fst_of_eq (by assumption) ?_
    | with_reducible refine Keeps.same ?_ ⟨⟨rfl, rfl, rfl, rfl⟩, rfl, rfl, rfl, rfl, rfl, rfl, rfl, rfl, rfl, rfl,
      rfl, rfl, rfl⟩
    | dsimp only

theorem unwind_keeps {base : State} {s : State} (hb : Keeps base s) : Keeps base (unwind s) := by
  unfold unwind
  split
  · exact hb
  · exact modCnd_keeps hb rfl

theorem enterMode_keeps {base : State} {s : State} {v : Nat} (hb : Keeps base s) : Keeps base (enterMode s v) := by
  unfold enterMode
  extract_lets 
  exact modCnd_keeps hb rfl

theorem saveEntry_keeps {base : State} {s : State} {v code : Nat} {addr : Word}
    (hb : Keeps base s) : Keeps base (saveEntry s v code addr) := by
  unfold saveEntry
  extract_lets 
  exact wr_keeps (wr_keeps (wr_keeps (wr_keeps (wr_keeps hb))))

theorem enterVec_keeps {base : State} {s : State} {v code : Nat} {addr : Word}
    (hb : Keeps base s) : Keeps base (enterVec s v code addr) := by
  unfold enterVec
  exact spend_keeps (enterMode_keeps (saveEntry_keeps hb))

theorem fwFault_keeps {base : State} {s : State} (hb : Keeps base s) : Keeps base (fwFault s) := by
  unfold fwFault
  extract_lets s1 s2
  have g_s1 : Keeps base s1 := sticky0_keeps hb
  have g_s2 : Keeps base s2 := Keeps.ite (endComp_keeps g_s1) (stopHandler_keeps g_s1)
  exact Keeps.ite (resetEntry_keeps g_s1) (modCnd_keeps g_s2 rfl)

theorem shedSuspended_keeps {base : State} {s : State} {fp : Nat}
    (hb : Keeps base s) : Keeps base (shedSuspended s fp) := by
  unfold shedSuspended
  exact forEach_keeps hb (fun _ _ q => answerSlots_keeps q)

theorem handlerDouble_keeps {base : State} {s : State} {h : Handler}
    (hb : Keeps base s) : Keeps base (handlerDouble s h) := by
  unfold handlerDouble
  extract_lets s1 _ s2 s3
  have g_s1 : Keeps base s1 := sticky0_keeps (setFlag_keeps hb)
  have g_s2 : Keeps base s2 := setProg_keeps g_s1
  have g_s3 : Keeps base s3 := leaveHandler_keeps (traceExit_keeps g_s2)
  exact modCnd_keeps (shedSuspended_keeps (faultComp_keeps g_s3)) rfl

theorem doubleFault_keeps {base : State} {s : State} {v : Nat} {spill : Bool}
    (hb : Keeps base s) : Keeps base (doubleFault s v spill) := by
  unfold doubleFault
  extract_lets _ s1 s2
  have g_s1 : Keeps base s1 := wr_keeps hb
  have g_s2 : Keeps base s2 := setA_keeps (enterMode_keeps (modCnd_keeps g_s1 rfl))
  refine Keeps.ite (fwFault_keeps g_s2) ?_
  split
  · exact handlerDouble_keeps g_s2
  · exact fwFault_keeps g_s2

theorem handlerTrap_keeps {base : State} {s : State} {h : Handler} {v code : Nat} {addr : Word}
    (hb : Keeps base s) : Keeps base (handlerTrap s h v code addr) := by
  unfold handlerTrap
  extract_lets s1 s2 s3
  have g_s1 : Keeps base s1 := saveEntry_keeps hb
  have g_s2 : Keeps base s2 := wr64_keeps (setFlag_keeps g_s1)
  have g_s3 : Keeps base s3 := Keeps.ite (sticky0_keeps g_s2) (Keeps.ite (setFlag_keeps g_s2) g_s2)
  exact faultComp_keeps (leaveHandler_keeps (traceExit_keeps g_s3))

theorem trapAt_keeps {base : State} {s : State} {v code : Nat} {addr : Word}
    (hb : Keeps base s) : Keeps base (trapAt s v code addr) := by
  unfold trapAt
  refine Keeps.ite (doubleFault_keeps hb) ?_
  split
  · exact handlerTrap_keeps hb
  · exact enterVec_keeps hb

theorem trap_keeps {base : State} {s : State} {v code : Nat} {addr : Word}
    (hb : Keeps base s) : Keeps base (trap s v code addr) := by
  unfold trap
  exact trapAt_keeps (unwind_keeps hb)

theorem badPair_keeps {base : State} {s : State} (hb : Keeps base s) : Keeps base (badPair s) := by
  unfold badPair
  split
  · exact hb
  · exact trapAt_keeps (modCnd_keeps hb rfl)

theorem spanFix_keeps {base : State} {s : State} {a n : Nat} (hb : Keeps base s) : Keeps base (spanFix s a n) := by
  unfold spanFix
  exact forEach_keeps hb (fun _ _ q => sweepWord_keeps q)

theorem tracePc_keeps {base : State} {s : State} (hb : Keeps base s) : Keeps base (tracePc s) := by
  unfold tracePc
  split
  · exact Keeps.ite (traceProgEvent_keeps hb) hb
  · exact hb

theorem perform_keeps {s0 : State} {o : COp} {body : State → State} {s : State} (h : Keeps s0 s)
    (hb : ∀ t, Keeps s0 t → Keeps s0 (body t)) : Keeps s0 (perform o body s) := by
  unfold perform
  extract_lets s2 s3 s4
  have g2 : Keeps s0 s2 := by
    unfold s2
    split
    · exact Keeps.ite h (spanFix_keeps h)
    · exact h
  have g3 : Keeps s0 s3 := hb s2 g2
  have g4 : Keeps s0 s4 := deliver_keeps (spend_keeps g3)
  refine Keeps.ite g3 ?_
  split
  · exact modCnd_keeps g4 rfl
  · exact g4

theorem issueOp_keeps {z : State} {o : COp} {pre post : State → Option State} {body : State → State} {s0 : State}
    (h : Keeps z s0) (hp : ∀ t u, Keeps z t → pre t = some u → Keeps z u) (hq : ∀ t u, Keeps z t → post t = some u → Keeps z u)
    (hb : ∀ t, Keeps z t → Keeps z (body t)) : Keeps z (issueOp o pre post body s0) := by
  unfold issueOp
  split
  · exact trap_keeps h
  · extract_lets s
    have g : Keeps z s := spanFix_keeps (tracePc_keeps (modCnd_keeps h rfl))
    clear_value s
    refine Keeps.ite (badPair_keeps g) (Keeps.ite (trap_keeps g) ?_)
    split
    · exact hp _ _ g (by assumption)
    · split
      · exact trap_keeps g
      · exact getD_keeps (perform_keeps g hb) (fun u e => hq s u g e)

theorem cndIssue_keeps {z : State} {o : COp} {pre post : State → Option State} {body : State → State} {s : State}
    (h : Keeps z s) (hp : ∀ t u, Keeps z t → pre t = some u → Keeps z u) (hq : ∀ t u, Keeps z t → post t = some u → Keeps z u)
    (hb : ∀ t, Keeps z t → Keeps z (body t)) : Keeps z (cndIssue o pre post body s) := by
  unfold cndIssue
  extract_lets s0 w s1
  have g0 : Keeps z s0 := modCnd_keeps h rfl
  have g1 : Keeps z s1 := spend_keeps g0
  exact Keeps.ite h (Keeps.ite (trap_keeps g0) (Keeps.ite (trap_keeps g1) (issueOp_keeps g1 hp hq hb)))

theorem cndRun_keeps {z : State} {o : COp} {body : State → State} {s : State} (h : Keeps z s)
    (hb : ∀ t, Keeps z t → Keeps z (body t)) : Keeps z (cndRun o body s) :=
  cndIssue_keeps h (fun _ _ _ e => by cases e) (fun _ _ _ e => by cases e) hb

theorem cndStep_keeps {z : State} {o : COp} {f : State → State} {s : State} (h : Keeps z s)
    (hb : ∀ t, Keeps z t → Keeps z (f t)) : OutKeeps z (cndStep o f s) :=
  OutKeeps.next (cndRun_keeps h (fun t g => goNext_keeps (hb t g)))

theorem alu3_keeps {d s t : Nat} {f : Word → Word → Word} {st : State} : OutKeeps st (alu3 d s t f st) := by
  have hb := Keeps.refl st
  unfold alu3
  exact cndStep_keeps hb (fun _ q => setD_keeps q)

theorem alu2_keeps {d s : Nat} {f : Word → Word} {st : State} : OutKeeps st (alu2 d s f st) := by
  have hb := Keeps.refl st
  unfold alu2
  exact cndStep_keeps hb (fun _ q => setD_keeps q)

theorem execCAdd_keeps (d s t : Fin 16) (st : State) : OutKeeps st (execCAdd d s t st) := by
  have hb := Keeps.refl st
  unfold execCAdd
  exact alu3_keeps

theorem execCSub_keeps (d s t : Fin 16) (st : State) : OutKeeps st (execCSub d s t st) := by
  have hb := Keeps.refl st
  unfold execCSub
  exact alu3_keeps

theorem execCAnd_keeps (d s t : Fin 16) (st : State) : OutKeeps st (execCAnd d s t st) := by
  have hb := Keeps.refl st
  unfold execCAnd
  exact alu3_keeps

theorem execCOr_keeps (d s t : Fin 16) (st : State) : OutKeeps st (execCOr d s t st) := by
  have hb := Keeps.refl st
  unfold execCOr
  exact alu3_keeps

theorem execCXor_keeps (d s t : Fin 16) (st : State) : OutKeeps st (execCXor d s t st) := by
  have hb := Keeps.refl st
  unfold execCXor
  exact alu3_keeps

theorem execCAndn_keeps (d s t : Fin 16) (st : State) : OutKeeps st (execCAndn d s t st) := by
  have hb := Keeps.refl st
  unfold execCAndn
  exact alu3_keeps

theorem execCSll_keeps (d s t : Fin 16) (st : State) : OutKeeps st (execCSll d s t st) := by
  have hb := Keeps.refl st
  unfold execCSll
  exact alu3_keeps

theorem execCSrl_keeps (d s t : Fin 16) (st : State) : OutKeeps st (execCSrl d s t st) := by
  have hb := Keeps.refl st
  unfold execCSrl
  exact alu3_keeps

theorem execCSra_keeps (d s t : Fin 16) (st : State) : OutKeeps st (execCSra d s t st) := by
  have hb := Keeps.refl st
  unfold execCSra
  exact alu3_keeps

theorem execCRor_keeps (d s t : Fin 16) (st : State) : OutKeeps st (execCRor d s t st) := by
  have hb := Keeps.refl st
  unfold execCRor
  exact alu3_keeps

theorem execCSeq_keeps (d s t : Fin 16) (st : State) : OutKeeps st (execCSeq d s t st) := by
  have hb := Keeps.refl st
  unfold execCSeq
  exact alu3_keeps

theorem execCSne_keeps (d s t : Fin 16) (st : State) : OutKeeps st (execCSne d s t st) := by
  have hb := Keeps.refl st
  unfold execCSne
  exact alu3_keeps

theorem execCSlt_keeps (d s t : Fin 16) (st : State) : OutKeeps st (execCSlt d s t st) := by
  have hb := Keeps.refl st
  unfold execCSlt
  exact alu3_keeps

theorem execCSltu_keeps (d s t : Fin 16) (st : State) : OutKeeps st (execCSltu d s t st) := by
  have hb := Keeps.refl st
  unfold execCSltu
  exact alu3_keeps

theorem execCSle_keeps (d s t : Fin 16) (st : State) : OutKeeps st (execCSle d s t st) := by
  have hb := Keeps.refl st
  unfold execCSle
  exact alu3_keeps

theorem execCSleu_keeps (d s t : Fin 16) (st : State) : OutKeeps st (execCSleu d s t st) := by
  have hb := Keeps.refl st
  unfold execCSleu
  exact alu3_keeps

theorem execCMin_keeps (d s t : Fin 16) (st : State) : OutKeeps st (execCMin d s t st) := by
  have hb := Keeps.refl st
  unfold execCMin
  exact alu3_keeps

theorem execCMax_keeps (d s t : Fin 16) (st : State) : OutKeeps st (execCMax d s t st) := by
  have hb := Keeps.refl st
  unfold execCMax
  exact alu3_keeps

theorem execCMinu_keeps (d s t : Fin 16) (st : State) : OutKeeps st (execCMinu d s t st) := by
  have hb := Keeps.refl st
  unfold execCMinu
  exact alu3_keeps

theorem execCMaxu_keeps (d s t : Fin 16) (st : State) : OutKeeps st (execCMaxu d s t st) := by
  have hb := Keeps.refl st
  unfold execCMaxu
  exact alu3_keeps

theorem execCMov_keeps (d s : Fin 16) (st : State) : OutKeeps st (execCMov d s st) := by
  have hb := Keeps.refl st
  unfold execCMov
  exact alu2_keeps

theorem execCNot_keeps (d s : Fin 16) (st : State) : OutKeeps st (execCNot d s st) := by
  have hb := Keeps.refl st
  unfold execCNot
  exact alu2_keeps

theorem execCNeg_keeps (d s : Fin 16) (st : State) : OutKeeps st (execCNeg d s st) := by
  have hb := Keeps.refl st
  unfold execCNeg
  exact alu2_keeps

theorem execCClz_keeps (d s : Fin 16) (st : State) : OutKeeps st (execCClz d s st) := by
  have hb := Keeps.refl st
  unfold execCClz
  exact alu2_keeps

theorem execCPopc_keeps (d s : Fin 16) (st : State) : OutKeeps st (execCPopc d s st) := by
  have hb := Keeps.refl st
  unfold execCPopc
  exact alu2_keeps

theorem execCSextb_keeps (d s : Fin 16) (st : State) : OutKeeps st (execCSextb d s st) := by
  have hb := Keeps.refl st
  unfold execCSextb
  exact alu2_keeps

theorem execCSexth_keeps (d s : Fin 16) (st : State) : OutKeeps st (execCSexth d s st) := by
  have hb := Keeps.refl st
  unfold execCSexth
  exact alu2_keeps

theorem execCZexth_keeps (d s : Fin 16) (st : State) : OutKeeps st (execCZexth d s st) := by
  have hb := Keeps.refl st
  unfold execCZexth
  exact alu2_keeps

theorem execCMovnz_keeps (d s t : Fin 16) (st : State) : OutKeeps st (execCMovnz d s t st) := by
  have hb := Keeps.refl st
  unfold execCMovnz
  exact cndStep_keeps hb (fun _ q => Keeps.ite (setD_keeps q) q)

theorem execCMovz_keeps (d s t : Fin 16) (st : State) : OutKeeps st (execCMovz d s t st) := by
  have hb := Keeps.refl st
  unfold execCMovz
  exact cndStep_keeps hb (fun _ q => Keeps.ite (setD_keeps q) q)

theorem execCAddi_keeps (d s : Fin 16) (imm : BitVec 16) (st : State) : OutKeeps st (execCAddi d s imm st) := by
  have hb := Keeps.refl st
  unfold execCAddi
  exact alu2_keeps

theorem execCAndi_keeps (d s : Fin 16) (imm : BitVec 16) (st : State) : OutKeeps st (execCAndi d s imm st) := by
  have hb := Keeps.refl st
  unfold execCAndi
  exact alu2_keeps

theorem execCOri_keeps (d s : Fin 16) (imm : BitVec 16) (st : State) : OutKeeps st (execCOri d s imm st) := by
  have hb := Keeps.refl st
  unfold execCOri
  exact alu2_keeps

theorem execCXori_keeps (d s : Fin 16) (imm : BitVec 16) (st : State) : OutKeeps st (execCXori d s imm st) := by
  have hb := Keeps.refl st
  unfold execCXori
  exact alu2_keeps

theorem execCSlti_keeps (d s : Fin 16) (imm : BitVec 16) (st : State) : OutKeeps st (execCSlti d s imm st) := by
  have hb := Keeps.refl st
  unfold execCSlti
  exact alu2_keeps

theorem execCSltiu_keeps (d s : Fin 16) (imm : BitVec 16) (st : State) : OutKeeps st (execCSltiu d s imm st) := by
  have hb := Keeps.refl st
  unfold execCSltiu
  exact alu2_keeps

theorem execCSeqi_keeps (d s : Fin 16) (imm : BitVec 16) (st : State) : OutKeeps st (execCSeqi d s imm st) := by
  have hb := Keeps.refl st
  unfold execCSeqi
  exact alu2_keeps

theorem execCSnei_keeps (d s : Fin 16) (imm : BitVec 16) (st : State) : OutKeeps st (execCSnei d s imm st) := by
  have hb := Keeps.refl st
  unfold execCSnei
  exact alu2_keeps

theorem execCMovhi_keeps (d : Fin 16) (imm : BitVec 16) (st : State) : OutKeeps st (execCMovhi d imm st) := by
  have hb := Keeps.refl st
  unfold execCMovhi
  exact cndStep_keeps hb (fun _ q => setD_keeps q)

theorem execCMovi_keeps (d : Fin 16) (w : Word) (st : State) : OutKeeps st (execCMovi d w st) := by
  have hb := Keeps.refl st
  unfold execCMovi
  exact cndStep_keeps hb (fun _ q => setD_keeps q)

theorem execCShi_keeps (d s : Fin 16) (kind : Fin 4) (n : Fin 32)
    (st : State) : OutKeeps st (execCShi d s kind n st) := by
  have hb := Keeps.refl st
  unfold execCShi
  exact alu2_keeps

theorem execCAdda_keeps (d s : Fin 8) (t : Fin 16) (st : State) : OutKeeps st (execCAdda d s t st) := by
  have hb := Keeps.refl st
  unfold execCAdda
  exact cndStep_keeps hb (fun _ q => setA_keeps q)

theorem execCSuba_keeps (d s : Fin 8) (t : Fin 16) (st : State) : OutKeeps st (execCSuba d s t st) := by
  have hb := Keeps.refl st
  unfold execCSuba
  exact cndStep_keeps hb (fun _ q => setA_keeps q)

theorem execCMova_keeps (d : Fin 8) (s : Fin 16) (st : State) : OutKeeps st (execCMova d s st) := by
  have hb := Keeps.refl st
  unfold execCMova
  exact cndStep_keeps hb (fun _ q => setA_keeps q)

theorem execCMovad_keeps (d : Fin 16) (s : Fin 8) (st : State) : OutKeeps st (execCMovad d s st) := by
  have hb := Keeps.refl st
  unfold execCMovad
  exact cndStep_keeps hb (fun _ q => setD_keeps q)

theorem execCMovaa_keeps (d s : Fin 8) (st : State) : OutKeeps st (execCMovaa d s st) := by
  have hb := Keeps.refl st
  unfold execCMovaa
  exact cndStep_keeps hb (fun _ q => setA_keeps q)

theorem execCLeax_keeps (d s : Fin 8) (t : Fin 16) (sc : Fin 4)
    (st : State) : OutKeeps st (execCLeax d s t sc st) := by
  have hb := Keeps.refl st
  unfold execCLeax
  exact cndStep_keeps hb (fun _ q => setA_keeps q)

theorem execCAddai_keeps (d s : Fin 8) (imm : BitVec 16) (st : State) : OutKeeps st (execCAddai d s imm st) := by
  have hb := Keeps.refl st
  unfold execCAddai
  exact cndStep_keeps hb (fun _ q => setA_keeps q)

theorem pairOp_keeps {d s t cc : Nat} {f : Word → Word → Nat} {st : State} : OutKeeps st (pairOp d s t cc f st) := by
  have hb := Keeps.refl st
  unfold pairOp
  exact cndStep_keeps hb (fun _ q => setDPair_keeps q)

theorem execCMulS_keeps (d s t : Fin 16) (st : State) : OutKeeps st (execCMulS d s t st) := by
  have hb := Keeps.refl st
  unfold execCMulS
  exact pairOp_keeps

theorem execCMulU_keeps (d s t : Fin 16) (st : State) : OutKeeps st (execCMulU d s t st) := by
  have hb := Keeps.refl st
  unfold execCMulU
  exact pairOp_keeps

theorem execCMullo_keeps (d s t : Fin 16) (st : State) : OutKeeps st (execCMullo d s t st) := by
  have hb := Keeps.refl st
  unfold execCMullo
  exact cndStep_keeps hb (fun _ q => setD_keeps q)

theorem divOp_keeps {signed : Bool} {d s t : Nat} {st : State} : OutKeeps st (divOp signed d s t st) := by
  have hb := Keeps.refl st
  unfold divOp
  refine cndStep_keeps hb ?_
  intro _ q
  extract_lets y
  have g_y : Keeps st y := setDPair_keeps q
  exact Keeps.ite (orCstat_keeps g_y) g_y

theorem execCDivS_keeps (d s t : Fin 16) (st : State) : OutKeeps st (execCDivS d s t st) := by
  have hb := Keeps.refl st
  unfold execCDivS
  exact divOp_keeps

theorem execCDivU_keeps (d s t : Fin 16) (st : State) : OutKeeps st (execCDivU d s t st) := by
  have hb := Keeps.refl st
  unfold execCDivU
  exact divOp_keeps

theorem macOp_keeps {signed sub : Bool} {k s t : Nat} {st : State} : OutKeeps st (macOp signed sub k s t st) := by
  have hb := Keeps.refl st
  unfold macOp
  refine cndStep_keeps hb ?_
  intro _ q
  extract_lets 
  exact setK_keeps q

theorem execCKmacS_keeps (k : Fin 4) (s t : Fin 16) (st : State) : OutKeeps st (execCKmacS k s t st) := by
  have hb := Keeps.refl st
  unfold execCKmacS
  exact macOp_keeps

theorem execCKmacU_keeps (k : Fin 4) (s t : Fin 16) (st : State) : OutKeeps st (execCKmacU k s t st) := by
  have hb := Keeps.refl st
  unfold execCKmacU
  exact macOp_keeps

theorem execCKmsbS_keeps (k : Fin 4) (s t : Fin 16) (st : State) : OutKeeps st (execCKmsbS k s t st) := by
  have hb := Keeps.refl st
  unfold execCKmsbS
  exact macOp_keeps

theorem execCKmsbU_keeps (k : Fin 4) (s t : Fin 16) (st : State) : OutKeeps st (execCKmsbU k s t st) := by
  have hb := Keeps.refl st
  unfold execCKmsbU
  exact macOp_keeps

theorem execCKclr_keeps (k : Fin 4) (st : State) : OutKeeps st (execCKclr k st) := by
  have hb := Keeps.refl st
  unfold execCKclr
  exact cndStep_keeps hb (fun _ q => setK_keeps q)

theorem execCKwr_keeps (k : Fin 4) (s : Fin 16) (part : Fin 3) (st : State) : OutKeeps st (execCKwr k s part st) := by
  have hb := Keeps.refl st
  unfold execCKwr
  refine cndStep_keeps hb ?_
  intro _ q
  extract_lets 
  exact setK_keeps q

theorem execCKrd_keeps (d : Fin 16) (k : Fin 4) (part : Fin 3) (st : State) : OutKeeps st (execCKrd d k part st) := by
  have hb := Keeps.refl st
  unfold execCKrd
  exact cndStep_keeps hb (fun _ q => setD_keeps q)

theorem satOp_keeps {rnd : Bool} {d k sh : Nat} {st : State} : OutKeeps st (satOp rnd d k sh st) := by
  have hb := Keeps.refl st
  unfold satOp
  refine cndStep_keeps hb ?_
  intro _ q
  extract_lets _ _ y
  have g_y : Keeps st y := setD_keeps q
  exact Keeps.ite g_y (orCstat_keeps g_y)

theorem execCKsat_keeps (d : Fin 16) (k : Fin 4) (sh : Fin 41) (st : State) : OutKeeps st (execCKsat d k sh st) := by
  have hb := Keeps.refl st
  unfold execCKsat
  exact satOp_keeps

theorem execCKsatr_keeps (d : Fin 16) (k : Fin 4) (sh : Fin 41)
    (st : State) : OutKeeps st (execCKsatr d k sh st) := by
  have hb := Keeps.refl st
  unfold execCKsatr
  exact satOp_keeps

theorem execCKmov_keeps (k j : Fin 4) (st : State) : OutKeeps st (execCKmov k j st) := by
  have hb := Keeps.refl st
  unfold execCKmov
  exact cndStep_keeps hb (fun _ q => setK_keeps q)

theorem stepBase_keeps {base : State} {s : State} {n : Nat} {m : AddrMode} {size : Nat}
    (hb : Keeps base s) : Keeps base (stepBase s n m size) := by
  unfold stepBase
  split
  · exact setA_keeps hb
  · exact setA_keeps hb
  · exact hb

theorem loadVal_keeps {base : State} {s : State} {ea : Word} {size : Nat}
    (hb : Keeps base s) : Keeps base (loadVal s ea size).1 := by
  unfold loadVal
  repeat' first
    | with_reducible assumption
    | with_reducible apply Keeps.ite
    | with_reducible apply latch_keeps
    | split
    | with_reducible refine Keeps.fst_of_eq (by assumption) ?_
    | dsimp only

theorem fwRegWrite_keeps {base : State} {s : State} {a : Nat} {v : Word}
    (hb : Keeps base s) : Keeps base (fwRegWrite s a v) := by
  unfold fwRegWrite
  exact Keeps.ite (wr_keeps (Keeps.ite hb (reservedField_keeps hb))) (Keeps.ite (modCnd_keeps hb rfl) (regWrite_keeps hb))

theorem storeVal_keeps {base : State} {s : State} {ea : Word} {size v : Nat}
    (hb : Keeps base s) : Keeps base (storeVal s ea size v) := by
  unfold storeVal
  exact Keeps.ite (fwRegWrite_keeps hb) (Keeps.ite (wrWord_keeps (wrWord_keeps hb)) (Keeps.ite (wrWord_keeps hb)
    (wrBytes_keeps hb)))

theorem loadOp_keeps {illegal : Bool} {n : Nat} {m : AddrMode} {size : Nat} {keys : List Nat} {put : State → Nat → State}
    {st : State} (hp : ∀ t v, Keeps st t → Keeps st (put t v)) : OutKeeps st (loadOp illegal n m size keys put st) :=
  cndStep_keeps (Keeps.refl st) (fun _ g => hp _ _ (stepBase_keeps (loadVal_keeps g)))

theorem storeOp_keeps {illegal : Bool} {n : Nat} {m : AddrMode} {size : Nat} {keys : List Nat} {val : State → Nat}
    {st : State} : OutKeeps st (storeOp illegal n m size keys val st) :=
  cndStep_keeps (Keeps.refl st) (fun _ g => stepBase_keeps (storeVal_keeps g))

theorem ldData_keeps {signed : Bool} {size d n : Nat} {m : AddrMode}
    {st : State} : OutKeeps st (ldData signed size d n m st) := by
  have hb := Keeps.refl st
  unfold ldData
  exact loadOp_keeps (fun _ _ q => setD_keeps q)

theorem stData_keeps {size d n : Nat} {m : AddrMode} {st : State} : OutKeeps st (stData size d n m st) := by
  have hb := Keeps.refl st
  unfold stData
  exact storeOp_keeps

theorem execCLdB_keeps (d : Fin 16) (n : Fin 8) (m : AddrMode) (st : State) : OutKeeps st (execCLdB d n m st) := by
  have hb := Keeps.refl st
  unfold execCLdB
  exact ldData_keeps

theorem execCLdBu_keeps (d : Fin 16) (n : Fin 8) (m : AddrMode) (st : State) : OutKeeps st (execCLdBu d n m st) := by
  have hb := Keeps.refl st
  unfold execCLdBu
  exact ldData_keeps

theorem execCLdH_keeps (d : Fin 16) (n : Fin 8) (m : AddrMode) (st : State) : OutKeeps st (execCLdH d n m st) := by
  have hb := Keeps.refl st
  unfold execCLdH
  exact ldData_keeps

theorem execCLdHu_keeps (d : Fin 16) (n : Fin 8) (m : AddrMode) (st : State) : OutKeeps st (execCLdHu d n m st) := by
  have hb := Keeps.refl st
  unfold execCLdHu
  exact ldData_keeps

theorem execCLdW_keeps (d : Fin 16) (n : Fin 8) (m : AddrMode) (st : State) : OutKeeps st (execCLdW d n m st) := by
  have hb := Keeps.refl st
  unfold execCLdW
  exact ldData_keeps

theorem execCLdD_keeps (d : Fin 16) (n : Fin 8) (m : AddrMode) (st : State) : OutKeeps st (execCLdD d n m st) := by
  have hb := Keeps.refl st
  unfold execCLdD
  exact loadOp_keeps (fun _ _ q => setDPair_keeps q)

theorem execCStB_keeps (d : Fin 16) (n : Fin 8) (m : AddrMode) (st : State) : OutKeeps st (execCStB d n m st) := by
  have hb := Keeps.refl st
  unfold execCStB
  exact stData_keeps

theorem execCStH_keeps (d : Fin 16) (n : Fin 8) (m : AddrMode) (st : State) : OutKeeps st (execCStH d n m st) := by
  have hb := Keeps.refl st
  unfold execCStH
  exact stData_keeps

theorem execCStW_keeps (d : Fin 16) (n : Fin 8) (m : AddrMode) (st : State) : OutKeeps st (execCStW d n m st) := by
  have hb := Keeps.refl st
  unfold execCStW
  exact stData_keeps

theorem execCStD_keeps (d : Fin 16) (n : Fin 8) (m : AddrMode) (st : State) : OutKeeps st (execCStD d n m st) := by
  have hb := Keeps.refl st
  unfold execCStD
  exact storeOp_keeps

theorem execCLda_keeps (d n : Fin 8) (m : AddrMode) (st : State) : OutKeeps st (execCLda d n m st) := by
  have hb := Keeps.refl st
  unfold execCLda
  exact loadOp_keeps (fun _ _ q => setA_keeps q)

theorem execCSta_keeps (d n : Fin 8) (m : AddrMode) (st : State) : OutKeeps st (execCSta d n m st) := by
  have hb := Keeps.refl st
  unfold execCSta
  exact storeOp_keeps

theorem execCFldS_keeps (d : Fin 16) (n : Fin 8) (m : AddrMode) (st : State) : OutKeeps st (execCFldS d n m st) := by
  have hb := Keeps.refl st
  unfold execCFldS
  exact loadOp_keeps (fun _ _ q => setF_keeps q)

theorem execCFldD_keeps (d : Fin 16) (n : Fin 8) (m : AddrMode) (st : State) : OutKeeps st (execCFldD d n m st) := by
  have hb := Keeps.refl st
  unfold execCFldD
  exact loadOp_keeps (fun _ _ q => setF_keeps q)

theorem execCFstS_keeps (d : Fin 16) (n : Fin 8) (m : AddrMode) (st : State) : OutKeeps st (execCFstS d n m st) := by
  have hb := Keeps.refl st
  unfold execCFstS
  exact storeOp_keeps

theorem execCFstD_keeps (d : Fin 16) (n : Fin 8) (m : AddrMode) (st : State) : OutKeeps st (execCFstD d n m st) := by
  have hb := Keeps.refl st
  unfold execCFstD
  exact storeOp_keeps

theorem stampFix_keeps {base : State} {s : State} {a : Nat} (hb : Keeps base s) : Keeps base (stampFix s a) := by
  unfold stampFix
  refine Keeps.ite hb ?_
  extract_lets 
  split
  · exact Keeps.ite (Keeps.upd hb ⟨rfl, rfl, rfl, rfl⟩ Sound.regs Sound.staged Sound.recs (fun w => twf_tset _ _ _
    w.stamps) Sound.cfg Sound.capRam Sound.planes Sound.pp Sound.mem Sound.flash Sound.buf Sound.mbxCmd Sound.mbxRpl
    Sound.ring Sound.queue) hb
  · exact hb

theorem planeFault_keeps {base : State} {s : State} {a : Nat} (hb : Keeps base s) : Keeps base (planeFault s a) := by
  unfold planeFault
  split
  · exact faultComp_keeps (leaveHandler_keeps (traceExit_keeps (sticky0_keeps hb)))
  · exact sticky0_keeps hb

theorem execCPld_keeps (d : Fin 16) (n : Fin 8) (m : AddrMode) (st : State) : OutKeeps st (execCPld d n m st) := by
  have hb := Keeps.refl st
  unfold execCPld
  refine OutKeeps.next ?_
  refine cndRun_keeps hb ?_
  intro _ q
  refine Keeps.ite ?_ ?_
  · extract_lets y
    have g_y : Keeps st y := planeFault_keeps q
    exact Keeps.ite g_y (goNext_keeps (setD_keeps g_y))
  · extract_lets y
    have g_y : Keeps st y := stampFix_keeps q
    exact goNext_keeps (setD_keeps g_y)

theorem pushWord_keeps {base : State} {s : State} {w : Word} (hb : Keeps base s) : Keeps base (pushWord s w) := by
  unfold pushWord
  exact Keeps.same hb

theorem execCPst_keeps (d : Fin 16) (n : Fin 8) (m : AddrMode) (st : State) : OutKeeps st (execCPst d n m st) := by
  have hb := Keeps.refl st
  unfold execCPst
  exact OutKeeps.next (cndRun_keeps hb (fun _ q => Keeps.ite (modCnd_keeps q rfl) (goNext_keeps (pushWord_keeps q))))

theorem execCQpushResume_keeps (st : State) : OutKeeps st (execCQpushResume st) := by
  have hb := Keeps.refl st
  unfold execCQpushResume
  refine OutKeeps.next ?_
  split
  · exact Keeps.ite (goNext_keeps (pushWord_keeps (modCnd_keeps hb rfl))) hb
  · exact hb

theorem setWin_keeps {base : State} {s : State} {w : Nat} {f : Nat → Word}
    (hb : Keeps base s) : Keeps base (setWin s w f) := by
  unfold setWin
  exact modCnd_keeps hb rfl

theorem spill_keeps {z t : State} {s : State} (h : Keeps z s) (e : spill s = some t) : Keeps z t := by
  unfold spill at e
  extract_lets l s1 at e
  have g : Keeps z s1 := foldl_keeps h (fun _ _ q => wrWord_keeps q)
  clear_value s1
  split at e
  · contradiction
  · cases e
    exact modCnd_keeps g rfl

theorem loadWin_keeps {base : State} {s : State} {w a : Nat} (hb : Keeps base s) : Keeps base (loadWin s w a) := by
  unfold loadWin
  extract_lets s1
  have g_s1 : Keeps base s1 := spanFix_keeps hb
  exact setWin_keeps g_s1

theorem refill_keeps {base : State} {s : State} (hb : Keeps base s) : Keeps base (refill s) := by
  unfold refill
  repeat' first
    | with_reducible assumption
    | with_reducible apply modCnd_keeps
    | with_reducible apply loadWin_keeps
    | with_reducible rfl
    | split
    | intro _ _ _ _ _
    | intro _ _ _ _
    | intro _ _ _
    | intro _ _
    | with_reducible refine Keeps.fst_of_eq (by assumption) ?_
    | with_reducible refine Keeps.same ?_ ⟨⟨rfl, rfl, rfl, rfl⟩, rfl, rfl, rfl, rfl, rfl, rfl, rfl, rfl, rfl, rfl,
      rfl, rfl, rfl⟩
    | dsimp only

theorem winOvf_keeps {base : State} {s : State} (hb : Keeps base s) : Keeps base (winOvf s) := by
  unfold winOvf
  split
  · exact trap_keeps hb
  · split
    · exact spend_keeps (spill_keeps hb (by assumption))
    · exact doubleFault_keeps (saveEntry_keeps hb)

theorem callTrap_keeps {base t : State} {s : State} (hb : Keeps base s)
    (e : (callTrap s) = some t) : Keeps base t := by
  unfold callTrap at e
  repeat' first
    | with_reducible assumption
    | with_reducible apply Keeps.ite
    | with_reducible apply winOvf_keeps
    | contradiction
    | split at e
    | cases e
    | split
    | with_reducible refine Keeps.fst_of_eq (by assumption) ?_
    | dsimp only

theorem handlerReturn_keeps {base : State} {s : State} {h : Handler}
    (hb : Keeps base s) : Keeps base (handlerReturn s h) := by
  unfold handlerReturn
  split
  · exact leaveHandler_keeps (traceExit_keeps hb)
  · extract_lets _ s1 s2
    have g_s1 : Keeps base s1 := modFrame_keeps hb
    have g_s2 : Keeps base s2 := leaveHandler_keeps (traceExit_keeps g_s1)
    exact compEnd_keeps (Keeps.same g_s2)

theorem winUnf_keeps {base : State} {s : State} (hb : Keeps base s) : Keeps base (winUnf s) := by
  unfold winUnf
  split
  · exact trap_keeps hb
  · exact Keeps.ite (Keeps.ite (handlerTrap_keeps hb) (spend_keeps (refill_keeps hb))) (handlerReturn_keeps
    (spend_keeps hb))

theorem setDepth_keeps {base : State} {s : State} {f : Nat → Nat}
    (hb : Keeps base s) : Keeps base (setDepth s f) := by
  unfold setDepth
  exact modCnd_keeps hb rfl

theorem retTrap_keeps {base t : State} {s : State} (hb : Keeps base s) (e : (retTrap s) = some t) : Keeps base t := by
  unfold retTrap at e
  repeat' first
    | with_reducible assumption
    | with_reducible apply Keeps.ite
    | with_reducible apply handlerTrap_keeps
    | with_reducible apply winUnf_keeps
    | contradiction
    | split at e
    | cases e
    | split
    | with_reducible refine Keeps.fst_of_eq (by assumption) ?_
    | dsimp only

theorem jump_keeps {base : State} {s : State} {a : Word} (hb : Keeps base s) : Keeps base (jump s a) := by
  unfold jump
  exact modCnd_keeps hb rfl

theorem traceInd_keeps {base : State} {s : State} {kind : Nat} {a : Word}
    (hb : Keeps base s) : Keeps base (traceInd s kind a) := by
  unfold traceInd
  split
  · exact traceCnd_keeps hb
  · exact hb

theorem targetTrap_keeps {base t : State} {s : State} {a : Word} (hb : Keeps base s)
    (e : (targetTrap s a) = some t) : Keeps base t := by
  unfold targetTrap at e
  repeat' first
    | with_reducible assumption
    | with_reducible apply Keeps.ite
    | with_reducible apply trap_keeps
    | contradiction
    | split at e
    | cases e
    | split
    | with_reducible refine Keeps.fst_of_eq (by assumption) ?_
    | dsimp only

theorem callTo_keeps {base : State} {s : State} {a : Word} (hb : Keeps base s) : Keeps base (callTo s a) := by
  unfold callTo
  extract_lets _ s1
  have g_s1 : Keeps base s1 := setA_keeps (wrWord_keeps hb)
  exact jump_keeps (setDepth_keeps (setWin_keeps (modCnd_keeps g_s1 rfl)))

theorem branchOp_keeps {t : Nat} {disp : BitVec 22} {taken : Word → Bool}
    {st : State} : OutKeeps st (branchOp t disp taken st) := by
  have hb := Keeps.refl st
  unfold branchOp
  refine OutKeeps.next ?_
  refine cndRun_keeps hb ?_
  intro _ q
  extract_lets y
  have g_y : Keeps st y := jump_keeps q
  split
  · exact traceBranch_keeps g_y
  · exact g_y

theorem execCBz_keeps (t : Fin 16) (disp : BitVec 22) (st : State) : OutKeeps st (execCBz t disp st) := by
  have hb := Keeps.refl st
  unfold execCBz
  exact branchOp_keeps

theorem execCBnz_keeps (t : Fin 16) (disp : BitVec 22) (st : State) : OutKeeps st (execCBnz t disp st) := by
  have hb := Keeps.refl st
  unfold execCBnz
  exact branchOp_keeps

theorem execCBra_keeps (disp : BitVec 22) (st : State) : OutKeeps st (execCBra disp st) := by
  have hb := Keeps.refl st
  unfold execCBra
  exact OutKeeps.next (cndRun_keeps hb (fun _ q => jump_keeps q))

theorem execCCall_keeps (disp : BitVec 26) (st : State) : OutKeeps st (execCCall disp st) := by
  have hb := Keeps.refl st
  unfold execCCall
  repeat' first
    | with_reducible assumption
    | with_reducible apply cndIssue_keeps
    | refine callTrap_keeps ?_ (by assumption)
    | with_reducible apply callTo_keeps
    | apply OutKeeps.next
    | contradiction
    | split
    | intro _ _ _ _ _
    | intro _ _ _ _
    | intro _ _ _
    | intro _ _
    | with_reducible refine Keeps.fst_of_eq (by assumption) ?_
    | with_reducible refine Keeps.same ?_ ⟨⟨rfl, rfl, rfl, rfl⟩, rfl, rfl, rfl, rfl, rfl, rfl, rfl, rfl, rfl, rfl,
      rfl, rfl, rfl⟩
    | dsimp only

theorem execCJmpr_keeps (n : Fin 8) (st : State) : OutKeeps st (execCJmpr n st) := by
  have hb := Keeps.refl st
  unfold execCJmpr
  repeat' first
    | with_reducible assumption
    | with_reducible apply cndIssue_keeps
    | refine targetTrap_keeps ?_ (by assumption)
    | with_reducible apply traceInd_keeps
    | with_reducible apply jump_keeps
    | apply OutKeeps.next
    | contradiction
    | split
    | intro _ _ _ _ _
    | intro _ _ _ _
    | intro _ _ _
    | intro _ _
    | with_reducible refine Keeps.fst_of_eq (by assumption) ?_
    | dsimp only

theorem execCCallr_keeps (n : Fin 8) (st : State) : OutKeeps st (execCCallr n st) := by
  refine OutKeeps.next (cndIssue_keeps (Keeps.refl st) (fun t u g e => ?_) (fun _ _ _ e => by cases e)
    (fun _ g => traceInd_keeps (callTo_keeps g)))
  rcases Option.or_eq_some_iff.mp e with e | ⟨_, e⟩
  · exact callTrap_keeps g e
  · exact targetTrap_keeps g e

theorem execCRet_keeps (st : State) : OutKeeps st (execCRet st) :=
  OutKeeps.next (cndIssue_keeps (Keeps.refl st) (fun _ _ g e => retTrap_keeps g e) (fun _ _ g e => targetTrap_keeps g e)
    (fun _ g => traceInd_keeps (jump_keeps (setDepth_keeps (modCnd_keeps (setA_keeps g) rfl)))))

theorem prefixOp_keeps (nested : Bool) (reads : List Nat) (n : State → Word) (st : State) :
    OutKeeps st (prefixOp nested reads n st) :=
  OutKeeps.next (cndRun_keeps (Keeps.refl st) (fun _ g => modCnd_keeps g rfl))

theorem execCRpti_keeps (src : Option (Fin 16)) (imm : BitVec 16)
    (st : State) : OutKeeps st (execCRpti src imm st) := by
  have hb := Keeps.refl st
  unfold execCRpti
  repeat' first
    | with_reducible assumption
    | apply prefixOp_keeps
    | apply OutKeeps.next
    | split
    | intro _ _ _ _ _
    | intro _ _ _ _
    | intro _ _ _
    | intro _ _
    | with_reducible refine Keeps.fst_of_eq (by assumption) ?_
    | dsimp only

theorem execCRptn_keeps (nm1 : Fin 64) (st : State) : OutKeeps st (execCRptn nm1 st) := by
  have hb := Keeps.refl st
  unfold execCRptn
  repeat' first
    | with_reducible assumption
    | apply prefixOp_keeps
    | apply OutKeeps.next
    | split
    | intro _ _ _ _ _
    | intro _ _ _ _
    | intro _ _ _
    | intro _ _
    | with_reducible refine Keeps.fst_of_eq (by assumption) ?_
    | dsimp only

theorem putF_keeps {base : State} {s : State} {d : Nat} {r : FRes} (hb : Keeps base s) : Keeps base (putF s d r) := by
  unfold putF
  exact orCstat_keeps (setF_keeps hb)

theorem fop2_keeps {d a b lat occ : Nat} {p : Bool} {f : Nat → Nat → Nat → FRes}
    {st : State} : OutKeeps st (fop2 d a b lat occ p f st) := by
  have hb := Keeps.refl st
  unfold fop2
  exact cndStep_keeps hb (fun _ q => putF_keeps q)

theorem execCFadd_keeps (p : Bool) (d a b : Fin 16) (st : State) : OutKeeps st (execCFadd p d a b st) := by
  have hb := Keeps.refl st
  unfold execCFadd
  exact fop2_keeps

theorem execCFsub_keeps (p : Bool) (d a b : Fin 16) (st : State) : OutKeeps st (execCFsub p d a b st) := by
  have hb := Keeps.refl st
  unfold execCFsub
  exact fop2_keeps

theorem execCFmul_keeps (p : Bool) (d a b : Fin 16) (st : State) : OutKeeps st (execCFmul p d a b st) := by
  have hb := Keeps.refl st
  unfold execCFmul
  exact fop2_keeps

theorem execCFdiv_keeps (p : Bool) (d a b : Fin 16) (st : State) : OutKeeps st (execCFdiv p d a b st) := by
  have hb := Keeps.refl st
  unfold execCFdiv
  exact fop2_keeps

theorem execCFsqrt_keeps (p : Bool) (d a : Fin 16) (st : State) : OutKeeps st (execCFsqrt p d a st) := by
  have hb := Keeps.refl st
  unfold execCFsqrt
  exact cndStep_keeps hb (fun _ q => putF_keeps q)

theorem fmove_keeps {p : Bool} {d a : Nat} {f : Nat → Nat} {st : State} : OutKeeps st (fmove p d a f st) := by
  have hb := Keeps.refl st
  unfold fmove
  exact cndStep_keeps hb (fun _ q => setF_keeps q)

theorem execCFneg_keeps (p : Bool) (d a : Fin 16) (st : State) : OutKeeps st (execCFneg p d a st) := by
  have hb := Keeps.refl st
  unfold execCFneg
  exact fmove_keeps

theorem execCFabs_keeps (p : Bool) (d a : Fin 16) (st : State) : OutKeeps st (execCFabs p d a st) := by
  have hb := Keeps.refl st
  unfold execCFabs
  exact fmove_keeps

theorem execCFmov_keeps (p : Bool) (d a : Fin 16) (st : State) : OutKeeps st (execCFmov p d a st) := by
  have hb := Keeps.refl st
  unfold execCFmov
  exact fmove_keeps

theorem fromInt_keeps {signed p : Bool} {d s : Nat} {st : State} : OutKeeps st (fromInt signed p d s st) := by
  have hb := Keeps.refl st
  unfold fromInt
  exact cndStep_keeps hb (fun _ q => putF_keeps q)

theorem execCFcvtF_keeps (p : Bool) (d a : Fin 16) (st : State) : OutKeeps st (execCFcvtF p d a st) := by
  have hb := Keeps.refl st
  unfold execCFcvtF
  exact fromInt_keeps

theorem execCFcvtFu_keeps (p : Bool) (d a : Fin 16) (st : State) : OutKeeps st (execCFcvtFu p d a st) := by
  have hb := Keeps.refl st
  unfold execCFcvtFu
  exact fromInt_keeps

theorem toInt32_keeps {signed p : Bool} {d a : Nat} {st : State} : OutKeeps st (toInt32 signed p d a st) := by
  have hb := Keeps.refl st
  unfold toInt32
  refine cndStep_keeps hb ?_
  intro _ q
  extract_lets 
  exact orCstat_keeps (setD_keeps q)

theorem execCFcvtI_keeps (p : Bool) (d a : Fin 16) (st : State) : OutKeeps st (execCFcvtI p d a st) := by
  have hb := Keeps.refl st
  unfold execCFcvtI
  exact toInt32_keeps

theorem execCFcvtIu_keeps (p : Bool) (d a : Fin 16) (st : State) : OutKeeps st (execCFcvtIu p d a st) := by
  have hb := Keeps.refl st
  unfold execCFcvtIu
  exact toInt32_keeps

theorem execCFcvtW_keeps (p : Bool) (d a : Fin 16) (st : State) : OutKeeps st (execCFcvtW p d a st) := by
  have hb := Keeps.refl st
  unfold execCFcvtW
  exact cndStep_keeps hb (fun _ q => putF_keeps q)

theorem execCFmvfd_keeps (p : Bool) (d a : Fin 16) (st : State) : OutKeeps st (execCFmvfd p d a st) := by
  have hb := Keeps.refl st
  unfold execCFmvfd
  exact cndStep_keeps hb (fun _ q => Keeps.ite (setDPair_keeps q) (setD_keeps q))

theorem execCFmvdf_keeps (p : Bool) (d a : Fin 16) (st : State) : OutKeeps st (execCFmvdf p d a st) := by
  have hb := Keeps.refl st
  unfold execCFmvdf
  exact cndStep_keeps hb (fun _ q => setF_keeps q)

theorem execCFma_keeps (p np nc : Bool) (d a b c : Fin 16)
    (st : State) : OutKeeps st (execCFma p np nc d a b c st) := by
  have hb := Keeps.refl st
  unfold execCFma
  exact cndStep_keeps hb (fun _ q => putF_keeps q)

theorem execCFcmp_keeps (p : Bool) (rel : Fin 4) (sig : Bool) (d a b : Fin 16)
    (st : State) : OutKeeps st (execCFcmp p rel sig d a b st) := by
  have hb := Keeps.refl st
  unfold execCFcmp
  refine cndStep_keeps hb ?_
  intro _ q
  extract_lets 
  exact orCstat_keeps (setD_keeps q)

theorem execCNop_keeps (st : State) : OutKeeps st (execCNop st) := by
  have hb := Keeps.refl st
  unfold execCNop
  exact OutKeeps.next (cndRun_keeps hb (fun _ q => goNext_keeps q))

theorem execCMfsr_keeps (d : Fin 16) (sr : Fin 5) (st : State) : OutKeeps st (execCMfsr d sr st) := by
  have hb := Keeps.refl st
  unfold execCMfsr
  exact OutKeeps.next (cndRun_keeps hb (fun _ q => goNext_keeps (setD_keeps q)))

theorem srWrite_keeps {base : State} {s : State} {sr : Nat} {v : Word}
    (hb : Keeps base s) : Keeps base (srWrite s sr v) := by
  unfold srWrite
  extract_lets s1
  have g_s1 : Keeps base s1 := Keeps.ite (reservedField_keeps hb) hb
  split
  · exact modCnd_keeps g_s1 rfl
  · exact modCnd_keeps g_s1 rfl
  · exact modCnd_keeps g_s1 rfl
  · exact setCstat_keeps g_s1
  · exact g_s1

theorem execCMtsr_keeps (sr : Fin 5) (s : Fin 16) (st : State) : OutKeeps st (execCMtsr sr s st) := by
  have hb := Keeps.refl st
  unfold execCMtsr
  exact OutKeeps.next (cndRun_keeps hb (fun _ q => goNext_keeps (srWrite_keeps q)))

theorem traceResume_keeps {base : State} {s : State} (hb : Keeps base s) : Keeps base (traceResume s) := by
  unfold traceResume
  split
  · exact traceCnd_keeps hb
  · exact hb

theorem rfe_keeps {base : State} {s : State} (hb : Keeps base s) : Keeps base (rfe s) := by
  unfold rfe
  exact traceResume_keeps (modCnd_keeps hb rfl)

theorem execCRfe_keeps (st : State) : OutKeeps st (execCRfe st) := by
  have hb := Keeps.refl st
  unfold execCRfe
  exact OutKeeps.next (cndRun_keeps hb (fun _ q => rfe_keeps (spend_keeps q)))

theorem execCWaiti_keeps (st : State) : OutKeeps st (execCWaiti st) := by
  have hb := Keeps.refl st
  unfold execCWaiti
  exact OutKeeps.next (cndRun_keeps hb (fun _ q => modCnd_keeps (goNext_keeps q) rfl))

theorem kupd_keeps {base : State} {s : State} {h : Handler} (hb : Keeps base s) : Keeps base (kupd s h) := by
  unfold kupd
  refine Keeps.ite (goNext_keeps (spend_keeps (setD_keeps (setFlag_keeps hb)))) ?_
  refine Keeps.ite (handlerTrap_keeps hb) ?_
  extract_lets s1
  have g_s1 : Keeps base s1 := spanFix_keeps hb
  exact goNext_keeps (spend_keeps (setD_keeps (Keeps.same g_s1)))

theorem evtpend_keeps {base : State} {s : State} {h : Handler} (hb : Keeps base s) : Keeps base (evtpend s h) := by
  unfold evtpend
  extract_lets 
  exact goNext_keeps (spend_keeps (setD_keeps (setD_keeps (clrReg_keeps (clrReg_keeps hb)))))

theorem svcAngle_keeps {base : State} {s : State} (hb : Keeps base s) : Keeps base (svcAngle s) := by
  unfold svcAngle
  extract_lets s1
  have g_s1 : Keeps base s1 := latch_keeps hb
  exact goNext_keeps (spend_keeps (setD_keeps (setD_keeps (setD_keeps g_s1))))

theorem tmark_keeps {base : State} {s : State} {h : Handler} (hb : Keeps base s) : Keeps base (tmark s h) := by
  unfold tmark
  extract_lets _ s1
  have g_s1 : Keeps base s1 := Keeps.ite (traceEvent_keeps hb) hb
  exact traceCnd_keeps (goNext_keeps (spend_keeps g_s1))

theorem restoreWins_keeps {base : State} {s : State} {u : Upcall}
    (hb : Keeps base s) : Keeps base (restoreWins s u) := by
  unfold restoreWins
  extract_lets 
  exact forEach_keeps hb (fun _ _ q => loadWin_keeps q)

theorem evtret_keeps {base : State} {s : State} {h : Handler} {u : Upcall}
    (hb : Keeps base s) : Keeps base (evtret s h u) := by
  unfold evtret
  extract_lets _ s1 s2
  have g_s1 : Keeps base s1 := traceCnd_keeps hb
  have g_s2 : Keeps base s2 := restoreWins_keeps g_s1
  exact Keeps.ite (handlerTrap_keeps hb) (traceResume_keeps (modCnd_keeps g_s2 rfl))

theorem service_keeps {base : State} {s : State} {h : Handler} {code : Nat}
    (hb : Keeps base s) : Keeps base (service s h code) := by
  unfold service
  split
  · exact kupd_keeps hb
  · exact evtpend_keeps hb
  · exact svcAngle_keeps hb
  · exact tmark_keeps hb
  · split
    · exact evtret_keeps hb
    · exact handlerTrap_keeps (goNext_keeps hb)
  · exact handlerTrap_keeps (goNext_keeps hb)

theorem svcOp_keeps {code : Nat} {st : State} : OutKeeps st (svcOp code st) := by
  refine OutKeeps.next (cndIssue_keeps (Keeps.refl st) (fun _ _ _ e => by cases e) (fun t u g e => ?_) (fun _ g => g))
  simp only [Option.some.injEq] at e
  subst e
  split
  · exact service_keeps g
  · exact trap_keeps (goNext_keeps (spend_keeps g))

theorem execCSvc_keeps (imm : Byte) (st : State) : OutKeeps st (execCSvc imm st) := by
  have hb := Keeps.refl st
  unfold execCSvc
  exact svcOp_keeps

theorem execCKupd_keeps (st : State) : OutKeeps st (execCKupd st) := by
  have hb := Keeps.refl st
  unfold execCKupd
  exact svcOp_keeps

theorem execCEvtpend_keeps (st : State) : OutKeeps st (execCEvtpend st) := by
  have hb := Keeps.refl st
  unfold execCEvtpend
  exact svcOp_keeps

theorem execCAngle_keeps (st : State) : OutKeeps st (execCAngle st) := by
  have hb := Keeps.refl st
  unfold execCAngle
  exact svcOp_keeps

theorem execCTmark_keeps (st : State) : OutKeeps st (execCTmark st) := by
  have hb := Keeps.refl st
  unfold execCTmark
  exact svcOp_keeps

theorem execCEvtret_keeps (st : State) : OutKeeps st (execCEvtret st) := by
  have hb := Keeps.refl st
  unfold execCEvtret
  exact svcOp_keeps

theorem execCBkpt_keeps (imm : Byte) (st : State) : OutKeeps st (execCBkpt imm st) := by
  refine OutKeeps.next (cndIssue_keeps (Keeps.refl st) (fun _ _ _ e => by cases e) (fun t u g e => ?_) (fun _ g => g))
  simp only [Option.some.injEq] at e
  subst e
  split
  · exact traceCnd_keeps (goNext_keeps (spend_keeps g))
  · exact trap_keeps (goNext_keeps (spend_keeps g))

theorem upcall_keeps {z : State} {s0 : State} {h : Handler} {e : Nat} {entry : Nat} (hz : Keeps z s0) :
    Keeps z (upcall s0 h e entry) := by
  unfold upcall
  extract_lets s s1 u full
  have g : Keeps z s := unwind_keeps (modCnd_keeps hz rfl)
  have g1 : Keeps z s1 := clrReg_keeps g
  clear_value s1
  split
  · exact doubleFault_keeps (saveEntry_keeps g1)
  · rename_i s2 e2
    have g2 : Keeps z s2 := by
      split at e2
      · exact spill_keeps g1 e2
      · cases e2
        exact g1
    extract_lets w v pc s3 s4
    exact traceCnd_keeps (modCnd_keeps (setWin_keeps (modCnd_keeps g2 rfl)) rfl)

theorem takeInt_keeps {base : State} {s : State} {i : Nat} (hb : Keeps base s) : Keeps base (takeInt s i) := by
  unfold takeInt
  extract_lets s1
  have g_s1 : Keeps base s1 := modCnd_keeps (unwind_keeps hb) rfl
  exact enterVec_keeps g_s1

theorem execInterruptEntry_keeps (v : Fin 10) (st : State) : OutKeeps st (execInterruptEntry v st) := by
  have hb := Keeps.refl st
  unfold execInterruptEntry
  refine OutKeeps.next ?_
  refine Keeps.ite ?_ (Keeps.ite (setFlag_keeps hb) hb)
  refine Keeps.ite ?_ (takeInt_keeps hb)
  split
  · split
    · exact upcall_keeps hb
    · exact hb
  · exact hb

theorem execHbudgetExpiry_keeps (st : State) : OutKeeps st (execHbudgetExpiry st) := by
  have hb := Keeps.refl st
  unfold execHbudgetExpiry
  exact OutKeeps.next (Keeps.ite (trap_keeps hb) hb)

theorem resetConductor_keeps {base : State} {s : State} (hb : Keeps base s) : Keeps base (resetConductor s) := by
  unfold resetConductor
  repeat' first
    | with_reducible assumption
    | split
    | intro _ _ _ _ _
    | intro _ _ _ _
    | intro _ _ _
    | intro _ _
    | with_reducible refine Keeps.fst_of_eq (by assumption) ?_
    | with_reducible refine Keeps.same ?_ ⟨⟨rfl, rfl, rfl, rfl⟩, rfl, rfl, rfl, rfl, rfl, rfl, rfl, rfl, rfl, rfl,
      rfl, rfl, rfl⟩
    | with_reducible refine Keeps.upd ?_ ⟨rfl, rfl, rfl, rfl⟩ ?_ ?_ ?_ ?_ ?_ ?_ ?_ ?_ ?_ ?_ ?_ ?_ ?_ ?_ ?_
    | with_reducible exact Sound.regs
    | with_reducible exact Sound.staged
    | with_reducible exact Sound.recs
    | with_reducible exact Sound.stamps
    | with_reducible exact Sound.cfg
    | with_reducible exact Sound.capRam
    | with_reducible exact Sound.planes
    | with_reducible exact Sound.pp
    | with_reducible exact Sound.mem
    | with_reducible exact Sound.flash
    | with_reducible exact Sound.buf
    | with_reducible exact Sound.mbxCmd
    | with_reducible exact Sound.mbxRpl
    | with_reducible exact Sound.ring
    | with_reducible exact Sound.queue
    | exact fun w => twf_filter _ _ (Sound.regs w)
    | exact fun w => twf_filter _ _ (Sound.mem w)
    | dsimp only

theorem startFirmware_keeps {base : State} {s : State} {hdr : List Byte}
    (hb : Keeps base s) : Keeps base (startFirmware s hdr) := by
  unfold startFirmware
  exact modCnd_keeps (wr_keeps hb) rfl

theorem execFirmwareRestartComplete_keeps (st : State) : OutKeeps st (execFirmwareRestartComplete st) := by
  have hb := Keeps.refl st
  unfold execFirmwareRestartComplete
  refine OutKeeps.next ?_
  split
  · refine Keeps.ite hb ?_
    extract_lets _ _ s1
    have g_s1 : Keeps st s1 := fillMem_keeps (resetConductor_keeps hb)
    exact Keeps.ite (resetEntry_keeps hb) (startFirmware_keeps (wr_keeps g_s1))
  · exact hb

theorem execWatchdogExpiry_keeps (st : State) : OutKeeps st (execWatchdogExpiry st) := by
  have hb := Keeps.refl st
  unfold execWatchdogExpiry
  exact OutKeeps.next (Keeps.ite (resetEntry_keeps hb) hb)

theorem execFirmwareTimerTick_keeps (st : State) : OutKeeps st (execFirmwareTimerTick st) := by
  have hb := Keeps.refl st
  unfold execFirmwareTimerTick
  exact OutKeeps.next (Keeps.ite (raiseInt_keeps hb) hb)

end Sys2Proof.Machine
end

