-- ==== Sys2Proof/Laws/KeepsPagen.lean ====
section
/-! SUPPORT. One lemma per operation of the log, boot and the Pagen commands: it keeps what Laws/Keeps.lean names. -/

namespace Sys2Proof.Machine

open Sys2Proof

-- one proof at a time: the whole package is checked as one text
set_option Elab.async false

theorem modFlt_keeps {s0 : State} {s : State} {f : Flt → Flt} (h : Keeps s0 s)
    (hf : Sound s → (f s.flt).ring.length ≤ 16) : Keeps s0 (modFlt s f) :=
  Keeps.upd h ⟨rfl, rfl, rfl, rfl⟩ Sound.regs Sound.staged Sound.recs Sound.stamps Sound.cfg Sound.capRam Sound.planes
    Sound.pp Sound.mem Sound.flash Sound.buf Sound.mbxCmd Sound.mbxRpl hf Sound.queue

theorem popRecord_ring (f : Flt) : (popRecord f).ring.length ≤ f.ring.length := by
  unfold popRecord
  split
  · simp
  · exact Nat.le_refl _

theorem enterBank_keeps {base : State} {s : State} {b : Nat} (hb : Keeps base s) : Keeps base (enterBank s b) := by
  unfold enterBank
  exact modFlt_keeps hb Sound.ring

theorem ownPut_keeps {base : State} {s : State} {code : Nat} {data : List Byte}
    (hb : Keeps base s) : Keeps base (ownPut s code data) := by
  unfold ownPut
  exact modFlt_keeps hb Sound.ring

theorem bankFail_keeps {zz : State} {s : State} {b : Nat} {j : Nat} {kind : Nat} (hz : Keeps zz s) :
    Keeps zz (bankFail s b j kind) := by
  unfold bankFail
  repeat' first
    | with_reducible assumption
    | with_reducible apply Keeps.ite
    | with_reducible apply noteFirst_keeps
    | with_reducible apply setFlag_keeps
    | with_reducible apply raiseInt_keeps
    | with_reducible apply ownPut_keeps
    | with_reducible apply enterBank_keeps
    | with_reducible apply sticky1_keeps
    | with_reducible apply modFlt_keeps
    | with_reducible exact Sound.ring
    | dsimp only
  intro _
  simp only [List.length_drop]
  omega

theorem sectorFail_keeps {base : State} {s : State} {b j kind : Nat}
    (hb : Keeps base s) : Keeps base (sectorFail s b j kind) := by
  unfold sectorFail
  extract_lets s1
  have g_s1 : Keeps base s1 := modFlt_keeps (ownPut_keeps hb) Sound.ring
  exact Keeps.ite (bankFail_keeps g_s1) (modFlt_keeps g_s1 Sound.ring)

theorem logAttempt_keeps {base : State} {s : State} {b i : Nat} {bytes : Nat → List Byte} {ok : Bool}
    (hb : Keeps base s) : Keeps base (logAttempt s b i bytes ok) := by
  unfold logAttempt
  extract_lets _ s1
  have g_s1 : Keeps base s1 := modFlt_keeps hb Sound.ring
  exact Keeps.ite (flashPut_keeps g_s1) (flashOpen_keeps g_s1)

theorem newSector_keeps {base : State} {s : State} {eraseOk sumOk : Bool}
    (hb : Keeps base s) : Keeps base (newSector s eraseOk sumOk) := by
  unfold newSector
  extract_lets _ _ s1 s2
  have g_s1 : Keeps base s1 := countErase_keeps hb
  have g_s2 : Keeps base s2 := logAttempt_keeps (clearSector_keeps g_s1)
  exact Keeps.ite (sectorFail_keeps (flashOpen_keeps g_s1)) (Keeps.ite (modFlt_keeps g_s2 Sound.ring)
    (sectorFail_keeps g_s2))

theorem logWrite_keeps {zz : State} {s : State} {eraseOk : Bool} {sumOk : Bool} {recOk : Bool} (hz : Keeps zz s) :
    Keeps zz (logWrite s eraseOk sumOk recOk) := by
  unfold logWrite
  repeat' first
    | with_reducible assumption
    | with_reducible apply Keeps.ite
    | with_reducible apply newSector_keeps
    | with_reducible apply logAttempt_keeps
    | with_reducible apply modFlt_keeps
    | with_reducible apply sectorFail_keeps
    | exact fun w => (popRecord_ring _).trans (Sound.ring w)
    | split
    | dsimp only

theorem execLogRecordWrite_keeps (eraseOk sumOk recOk : Bool)
    (s : State) : OutKeeps s (execLogRecordWrite eraseOk sumOk recOk s) := by
  have hb := Keeps.refl s
  unfold execLogRecordWrite
  exact OutKeeps.next (Keeps.ite (logWrite_keeps hb) hb)

theorem execLogRateSecond_keeps (code : Nat) (s : State) : OutKeeps s (execLogRateSecond code s) := by
  have hb := Keeps.refl s
  unfold execLogRateSecond
  refine OutKeeps.next ?_
  split
  · exact Keeps.ite (hourPut_keeps (modFlt_keeps hb Sound.ring)) hb
  · exact hb

theorem execLogHour_keeps (s : State) : OutKeeps s (execLogHour s) := by
  have hb := Keeps.refl s
  unfold execLogHour
  refine OutKeeps.next ?_
  refine Keeps.ite ?_ hb
  extract_lets s1
  have g_s1 : Keeps s s1 := modFlt_keeps hb Sound.ring
  exact Keeps.ite g_s1 (logPut_keeps g_s1)

theorem retestBank_keeps {base : State} {fails : BitVec 32} {s : State} {b : Nat}
    (hb : Keeps base s) : Keeps base (retestBank fails s b) := by
  unfold retestBank
  refine Keeps.ite hb ?_
  extract_lets _ s1
  have g_s1 : Keeps base s1 := by
    unfold s1
    refine forEach_keeps hb ?_
    intro _ _ q
    extract_lets t
    have g_t : Keeps base t := countErase_keeps q
    exact Keeps.ite (modFlt_keeps (ownPut_keeps (flashOpen_keeps g_t)) Sound.ring) (clearSector_keeps g_t)
  exact Keeps.ite (modFlt_keeps g_s1 Sound.ring) g_s1

theorem logRetest_keeps {base : State} {s : State} {fails : BitVec 32}
    (hb : Keeps base s) : Keeps base (logRetest s fails) := by
  unfold logRetest
  extract_lets s1 _ _ s2
  have g_s1 : Keeps base s1 := retestBank_keeps (retestBank_keeps hb)
  have g_s2 : Keeps base s2 := logAttempt_keeps g_s1
  exact Keeps.ite g_s1 (Keeps.ite (modFlt_keeps g_s1 Sound.ring) (modFlt_keeps g_s2 Sound.ring))

theorem faultClear_keeps {base : State} {s : State} {m0 m1 : Word}
    (hb : Keeps base s) : Keeps base (faultClear s m0 m1) := by
  unfold faultClear
  extract_lets _ _ s1 s2
  have g_s1 : Keeps base s1 := clrReg_keeps (clrReg_keeps hb)
  have g_s2 : Keeps base s2 := Keeps.ite (wr_keeps g_s1) g_s1
  exact Keeps.ite g_s2 (logPut_keeps g_s2)

theorem faultClearEnd_keeps {base : State} {s : State} {o : Order} {m0 m1 : Word}
    (hb : Keeps base s) : Keeps base (faultClearEnd s o m0 m1) := by
  unfold faultClearEnd
  extract_lets s1
  have g_s1 : Keeps base s1 := faultClear_keeps hb
  exact finish_keeps g_s1

theorem execPowerOnReset_keeps (s : State) : OutKeeps s (execPowerOnReset s) := by
  have hb := Keeps.refl s
  unfold execPowerOnReset
  exact OutKeeps.next (Keeps.same (wr_keeps (resetEntry_keeps hb)))

theorem execRstNAssert_keeps (s : State) : OutKeeps s (execRstNAssert s) := by
  have hb := Keeps.refl s
  unfold execRstNAssert
  exact OutKeeps.next (resetEntry_keeps hb)

theorem execSupplyMonitorReset_keeps (sup : BitVec 7) (s : State) : OutKeeps s (execSupplyMonitorReset sup s) := by
  have hb := Keeps.refl s
  unfold execSupplyMonitorReset
  exact OutKeeps.next (Keeps.ite (resetEntry_keeps (Keeps.same hb)) (Keeps.same hb))

theorem bootDegraded_keeps {base : State} {s : State} {old : State} (hb : Keeps base s)
    (hb1 : Keeps base old) : Keeps base (bootDegraded s old) := by
  unfold bootDegraded
  extract_lets s1
  have g_s1 : Keeps base s1 := forEach_keeps hb (fun _ _ q => Keeps.ite (sticky1_keeps q) q)
  exact Keeps.ite (sticky1_keeps g_s1) g_s1

theorem replayRec_ring (f : Flt) (x : LogAt) : (replayRec f x).ring = f.ring := by
  unfold replayRec
  dsimp only
  repeat' split
  all_goals rfl

theorem replay_ring (s : State) (f : Flt) : (replay s f).ring = f.ring := by
  have fold : ∀ (l : List LogAt) (g : Flt), (l.foldl replayRec g).ring = g.ring := by
    intro l
    induction l with
    | nil => exact fun _ => rfl
    | cons x l ih => exact fun g => (ih (replayRec g x)).trans (replayRec_ring g x)
  unfold replay
  dsimp only
  split
  · rfl
  · exact fold _ _

theorem bootLog_keeps {s0 : State} {s : State} (h : Keeps s0 s) : Keeps s0 (bootLog s) := by
  unfold bootLog
  apply bootDegraded_keeps
  · split
    · refine Keeps.ite (enterBank_keeps ?_) ?_
      all_goals exact Keeps.same h ⟨⟨rfl, rfl, rfl, rfl⟩, rfl, rfl, rfl, rfl, rfl, rfl, rfl, rfl, rfl, rfl, rfl, replay_ring s s.flt, rfl⟩
    · exact Keeps.same h ⟨⟨rfl, rfl, rfl, rfl⟩, rfl, rfl, rfl, rfl, rfl, rfl, rfl, rfl, rfl, rfl, rfl, replay_ring s s.flt, rfl⟩
  · exact h

theorem bootChoose_keeps {base : State} {s : State} {why : Nat} {k : Pick}
    (hb : Keeps base s) : Keeps base (bootChoose s why k) := by
  unfold bootChoose
  refine Keeps.ite ?_ ?_
  · split
    · exact sticky1_keeps (Keeps.same (wr_keeps (wr_keeps (wr_keeps hb))))
    · exact Keeps.same (wr_keeps (wr_keeps (wr_keeps hb)))
  · refine sticky1_keeps ?_
    split
    · exact sticky1_keeps (Keeps.same (wr_keeps (wr_keeps (wr_keeps hb))))
    · exact Keeps.same (wr_keeps (wr_keeps (wr_keeps hb)))

theorem bootCopy_keeps {base : State} {s : State} {slot : Nat}
    (hb : Keeps base s) : Keeps base (bootCopy s slot) := by
  unfold bootCopy
  extract_lets 
  exact fillMem_keeps (fillMem_keeps (wr_keeps hb))

theorem bootBist_keeps {base : State} {s : State} {bad : BitVec 132} {afail : Bool}
    (hb : Keeps base s) : Keeps base (bootBist s bad afail) := by
  unfold bootBist
  extract_lets _ _ _ _ s1 s2
  have g_s1 : Keeps base s1 := Keeps.same hb
  have g_s2 : Keeps base s2 := modFlt_keeps g_s1 Sound.ring
  exact Keeps.ite (sticky0_keeps g_s1) (forEach_keeps g_s2 (fun _ _ q => logPut_keeps q))

theorem bootFabric_keeps {base : State} {s : State} (hb : Keeps base s) : Keeps base (bootFabric s) := by
  unfold bootFabric
  repeat' first
    | with_reducible assumption
    | with_reducible apply hardLoad_keeps
    | with_reducible apply writeBank_keeps
    | with_reducible apply wr_keeps
    | with_reducible apply orReg_keeps
    | split
    | intro _ _ _ _ _
    | intro _ _ _ _
    | intro _ _ _
    | intro _ _
    | with_reducible refine Keeps.fst_of_eq (by assumption) ?_
    | with_reducible refine Keeps.same ?_ ⟨⟨rfl, rfl, rfl, rfl⟩, rfl, rfl, rfl, rfl, rfl, rfl, rfl, rfl, rfl, rfl,
      rfl, rfl, rfl⟩
    | dsimp only

theorem bootStart_keeps {base : State} {s : State} (hb : Keeps base s) : Keeps base (bootStart s) := by
  unfold bootStart
  split
  · exact startFirmware_keeps (bootFabric_keeps (bootCopy_keeps hb))
  · exact orReg_keeps (writeBank_keeps hb)

theorem bootRecords_keeps {base : State} {s : State} {uses : Nat}
    (hb : Keeps base s) : Keeps base (bootRecords s uses) := by
  unfold bootRecords
  extract_lets s1 _ s2
  have g_s1 : Keeps base s1 := Keeps.ite (sticky0_keeps hb) hb
  have g_s2 : Keeps base s2 := logPut_keeps g_s1
  exact Keeps.ite (logPut_keeps g_s2) g_s2

theorem bootFlush_keeps {base : State} {s : State} {logOk : Bool}
    (hb : Keeps base s) : Keeps base (bootFlush s logOk) := by
  unfold bootFlush
  exact forEach_keeps (Keeps.ite hb (logWrite_keeps hb)) (fun _ _ q => logWrite_keeps q)

theorem bootRun_keeps {base : State} {s0 : State} {straps : BitVec 4} {refOk : Bool} {ms : Nat} {logOk : Bool}
    {bad : BitVec 132} {afail : Bool}
    (hb : Keeps base s0) : Keeps base (bootRun s0 straps refOk ms logOk bad afail) := by
  unfold bootRun
  repeat' first
    | with_reducible assumption
    | with_reducible apply Keeps.ite
    | with_reducible apply bootLog_keeps
    | with_reducible apply wr_keeps
    | with_reducible apply bootStart_keeps
    | with_reducible apply bootBist_keeps
    | with_reducible apply bootChoose_keeps
    | with_reducible apply bootFlush_keeps
    | with_reducible apply bootRecords_keeps
    | split
    | with_reducible refine Keeps.fst_of_eq (by assumption) ?_
    | with_reducible refine Keeps.same ?_ ⟨⟨rfl, rfl, rfl, rfl⟩, rfl, rfl, rfl, rfl, rfl, rfl, rfl, rfl, rfl, rfl,
      rfl, rfl, rfl⟩
    | dsimp only

theorem execBoot_keeps (straps : BitVec 4) (refOk : Bool) (ms : Nat) (logOk : Bool) (bad : BitVec 132) (afail : Bool)
    (s : State) : OutKeeps s (execBoot straps refOk ms logOk bad afail s) := by
  have hb := Keeps.refl s
  unfold execBoot
  exact OutKeeps.next (Keeps.ite (bootRun_keeps hb) hb)

theorem execBootTriesClear_keeps (s : State) : OutKeeps s (execBootTriesClear s) := by
  have hb := Keeps.refl s
  unfold execBootTriesClear
  exact OutKeeps.next (Keeps.ite (Keeps.same hb) hb)

theorem takeSub_keeps {base : State} {s : State} {x : Sub} (hb : Keeps base s) : Keeps base (takeSub s x) := by
  unfold takeSub
  extract_lets _ _ s1
  have g_s1 : Keeps base s1 := Keeps.same hb
  exact Keeps.ite g_s1 (Keeps.same g_s1)

theorem refuse_keeps {base : State} {s : State} {c : Cmd} {status detail : Nat}
    (hb : Keeps base s) : Keeps base (refuse s c status detail) := by
  unfold refuse
  exact finish_keeps hb

theorem refuseField_keeps {base : State} {s : State} {c : Cmd} {b : Nat × Bool}
    (hb : Keeps base s) : Keeps base (refuseField s c b) := by
  unfold refuseField
  exact refuse_keeps (Keeps.ite hb (reservedField_keeps hb))

theorem runCard_keeps {zz : State} {k : Card} {s : State} {c : Cmd} (hz : Keeps zz s)
    (hk : ∀ t, Keeps zz t → Keeps zz (k.run t c)) : Keeps zz (runCard k s c) := by
  unfold runCard
  repeat' first
    | with_reducible exact hk _ hz
    | with_reducible assumption
    | with_reducible apply Keeps.ite
    | with_reducible apply refuse_keeps
    | with_reducible apply refuseField_keeps
    | with_reducible apply setFlag_keeps
    | split
    | dsimp only

theorem dispatch_keeps {zz : State} {k : Card} {s : State} (hz : Keeps zz s)
    (hk : ∀ t c, Keeps zz t → Keeps zz (k.run t c)) : Keeps zz (dispatch k s) := by
  unfold dispatch
  refine Keeps.ite ?_ hz
  split
  · exact hz
  · exact Keeps.ite (runCard_keeps (takeSub_keeps hz) (fun t g => hk t _ g))
      (Keeps.ite hz (refuse_keeps (takeSub_keeps hz)))

theorem openMsg_keeps {base : State} {s : State} {c : Cmd} {src : MsgSrc} {len p0 p1 : Nat} {w : Wait}
    (hb : Keeps base s) : Keeps base (openMsg s c src len p0 p1 w) := by
  unfold openMsg
  split
  · exact hb
  · extract_lets s1
    have g_s1 : Keeps base s1 := accept_keeps hb
    exact Keeps.same g_s1

theorem okNow_keeps {base : State} {s : State} {c : Cmd} {body : List Byte}
    (hb : Keeps base s) : Keeps base (okNow s c body) := by
  unfold okNow
  exact finish_keeps hb

theorem stageB_keeps {base : State} {s : State} {c : Cmd} {u : ResUnit} {k : ChangeKind}
    (hb : Keeps base s) : Keeps base (stageB s c u k) := by
  unfold stageB
  exact addChange_keeps (accept_keeps hb)

theorem stageWrites_keeps {base : State} {s : State} {c : Cmd} {u : ResUnit} {ws : List (Nat × Word)}
    (hb : Keeps base s) : Keeps base (stageWrites s c u ws) := by
  unfold stageWrites
  exact stageB_keeps (forEach_keeps hb (fun _ _ q => wrStaged_keeps q))

theorem cardAngleSource_keeps {base : State} {t : State} {c : Cmd}
    (hb : Keeps base t) : Keeps base (Card.run cardAngleSource t c) := by
  unfold cardAngleSource
  dsimp only
  exact stageWrites_keeps hb

theorem execCmdAngleSource_keeps (s : State) : OutKeeps s (execCmdAngleSource s) := by
  have hb := Keeps.refl s
  unfold execCmdAngleSource
  exact OutKeeps.next (dispatch_keeps hb (fun _ _ q => cardAngleSource_keeps q))

theorem cardAngleTrack_keeps {base : State} {t : State} {c : Cmd}
    (hb : Keeps base t) : Keeps base (Card.run cardAngleTrack t c) := by
  unfold cardAngleTrack
  dsimp only
  exact stageWrites_keeps hb

theorem execCmdAngleTrack_keeps (s : State) : OutKeeps s (execCmdAngleTrack s) := by
  have hb := Keeps.refl s
  unfold execCmdAngleTrack
  exact OutKeeps.next (dispatch_keeps hb (fun _ _ q => cardAngleTrack_keeps q))

theorem cardEventSet_keeps {base : State} {t : State} {c : Cmd}
    (hb : Keeps base t) : Keeps base (Card.run cardEventSet t c) := by
  unfold cardEventSet
  dsimp only
  exact stageWrites_keeps hb

theorem execCmdEventSet_keeps (s : State) : OutKeeps s (execCmdEventSet s) := by
  have hb := Keeps.refl s
  unfold execCmdEventSet
  exact OutKeeps.next (dispatch_keeps hb (fun _ _ q => cardEventSet_keeps q))

theorem cardPacerSet_keeps {base : State} {t : State} {c : Cmd}
    (hb : Keeps base t) : Keeps base (Card.run cardPacerSet t c) := by
  unfold cardPacerSet
  dsimp only
  exact stageWrites_keeps hb

theorem execCmdPacerSet_keeps (s : State) : OutKeeps s (execCmdPacerSet s) := by
  have hb := Keeps.refl s
  unfold execCmdPacerSet
  exact OutKeeps.next (dispatch_keeps hb (fun _ _ q => cardPacerSet_keeps q))

theorem cardFpLoad_keeps {base : State} {t : State} {c : Cmd}
    (hb : Keeps base t) : Keeps base (Card.run cardFpLoad t c) := by
  unfold cardFpLoad
  dsimp only
  exact openMsg_keeps hb

theorem execCmdFpLoad_keeps (s : State) : OutKeeps s (execCmdFpLoad s) := by
  have hb := Keeps.refl s
  unfold execCmdFpLoad
  exact OutKeeps.next (dispatch_keeps hb (fun _ _ q => cardFpLoad_keeps q))

theorem cardFpSet_keeps {base : State} {t : State} {c : Cmd}
    (hb : Keeps base t) : Keeps base (Card.run cardFpSet t c) := by
  unfold cardFpSet
  dsimp only
  exact stageB_keeps hb

theorem execCmdFpSet_keeps (s : State) : OutKeeps s (execCmdFpSet s) := by
  have hb := Keeps.refl s
  unfold execCmdFpSet
  exact OutKeeps.next (dispatch_keeps hb (fun _ _ q => cardFpSet_keeps q))

theorem closeAnswered_keeps {base : State} {s : State} (hb : Keeps base s) : Keeps base (closeAnswered s) := by
  unfold closeAnswered
  exact Keeps.ite hb (forEach_keeps hb (fun _ _ q => toPosting_keeps q))

theorem abortProg_keeps {base : State} {s : State} {fp : Nat} (hb : Keeps base s) : Keeps base (abortProg s fp) := by
  unfold abortProg
  extract_lets s1
  have g_s1 : Keeps base s1 := Keeps.ite (endComp_keeps hb) hb
  exact closeAnswered_keeps (forEach_keeps g_s1 (fun _ _ q => answerSlots_keeps q))

theorem cardFpAbort_keeps {base : State} {t : State} {c : Cmd}
    (hb : Keeps base t) : Keeps base (Card.run cardFpAbort t c) := by
  unfold cardFpAbort
  dsimp only
  exact addChange_keeps (abortProg_keeps (accept_keeps hb))

theorem execCmdFpAbort_keeps (s : State) : OutKeeps s (execCmdFpAbort s) := by
  have hb := Keeps.refl s
  unfold execCmdFpAbort
  exact OutKeeps.next (dispatch_keeps hb (fun _ _ q => cardFpAbort_keeps q))

theorem cardFpUnload_keeps {base : State} {t : State} {c : Cmd}
    (hb : Keeps base t) : Keeps base (Card.run cardFpUnload t c) := by
  unfold cardFpUnload
  dsimp only
  exact okNow_keeps (setProg_keeps hb)

theorem execCmdFpUnload_keeps (s : State) : OutKeeps s (execCmdFpUnload s) := by
  have hb := Keeps.refl s
  unfold execCmdFpUnload
  exact OutKeeps.next (dispatch_keeps hb (fun _ _ q => cardFpUnload_keeps q))

theorem cardIdentify_keeps {base : State} {t : State} {c : Cmd}
    (hb : Keeps base t) : Keeps base (Card.run cardIdentify t c) := by
  unfold cardIdentify
  dsimp only
  exact okNow_keeps hb

theorem execCmdIdentify_keeps (s : State) : OutKeeps s (execCmdIdentify s) := by
  have hb := Keeps.refl s
  unfold execCmdIdentify
  exact OutKeeps.next (dispatch_keeps hb (fun _ _ q => cardIdentify_keeps q))

theorem cardRegRead_keeps {base : State} {t : State} {c : Cmd}
    (hb : Keeps base t) : Keeps base (Card.run cardRegRead t c) := by
  unfold cardRegRead
  dsimp only
  exact okNow_keeps (regReads_keeps hb)

theorem execCmdRegRead_keeps (s : State) : OutKeeps s (execCmdRegRead s) := by
  have hb := Keeps.refl s
  unfold execCmdRegRead
  exact OutKeeps.next (dispatch_keeps hb (fun _ _ q => cardRegRead_keeps q))

theorem cardRegWrite_keeps {base : State} {t : State} {c : Cmd}
    (hb : Keeps base t) : Keeps base (Card.run cardRegWrite t c) := by
  unfold cardRegWrite
  dsimp only
  exact okNow_keeps (regWrite_keeps hb)

theorem execCmdRegWrite_keeps (s : State) : OutKeeps s (execCmdRegWrite s) := by
  have hb := Keeps.refl s
  unfold execCmdRegWrite
  exact OutKeeps.next (dispatch_keeps hb (fun _ _ q => cardRegWrite_keeps q))

theorem cardNop_keeps {base : State} {t : State} {c : Cmd}
    (hb : Keeps base t) : Keeps base (Card.run cardNop t c) := by
  unfold cardNop
  dsimp only
  exact okNow_keeps hb

theorem execCmdNop_keeps (s : State) : OutKeeps s (execCmdNop s) := by
  have hb := Keeps.refl s
  unfold execCmdNop
  exact OutKeeps.next (dispatch_keeps hb (fun _ _ q => cardNop_keeps q))

theorem cancelForm_keeps {base : State} {s : State} {o : Order}
    (hb : Keeps base s) : Keeps base (cancelForm s o) := by
  unfold cancelForm
  exact Keeps.ite (finish_keeps (Keeps.same hb)) (formRefused_keeps (Keeps.same hb))

theorem cancelOpen_keeps {base : State} {s : State} {w : Open} (hb : Keeps base s) : Keeps base (cancelOpen s w) := by
  unfold cancelOpen
  split
  · exact cancelForm_keeps hb
  · exact finish_keeps (Keeps.same hb)
  · exact finish_keeps (flashDrop_keeps hb)
  · exact finish_keeps hb

theorem cardCancel_keeps {base : State} {t : State} {c : Cmd}
    (hb : Keeps base t) : Keeps base (Card.run cardCancel t c) := by
  unfold cardCancel
  dsimp only
  split
  · exact okNow_keeps (cancelOpen_keeps hb)
  · exact okNow_keeps hb

theorem execCmdCancel_keeps (s : State) : OutKeeps s (execCmdCancel s) := by
  have hb := Keeps.refl s
  unfold execCmdCancel
  exact OutKeeps.next (dispatch_keeps hb (fun _ _ q => cardCancel_keeps q))

theorem cardDataRead_keeps {base : State} {t : State} {c : Cmd}
    (hb : Keeps base t) : Keeps base (Card.run cardDataRead t c) := by
  unfold cardDataRead
  dsimp only
  exact Keeps.ite (okNow_keeps hb) (openMsg_keeps hb)

theorem execCmdDataRead_keeps (s : State) : OutKeeps s (execCmdDataRead s) := by
  have hb := Keeps.refl s
  unfold execCmdDataRead
  exact OutKeeps.next (dispatch_keeps hb (fun _ _ q => cardDataRead_keeps q))

theorem cardDataWrite_keeps {base : State} {t : State} {c : Cmd}
    (hb : Keeps base t) : Keeps base (Card.run cardDataWrite t c) := by
  unfold cardDataWrite
  dsimp only
  exact Keeps.ite (openMsg_keeps hb) (Keeps.ite (stageB_keeps hb) (okNow_keeps (fillMem_keeps hb)))

theorem execCmdDataWrite_keeps (s : State) : OutKeeps s (execCmdDataWrite s) := by
  have hb := Keeps.refl s
  unfold execCmdDataWrite
  exact OutKeeps.next (dispatch_keeps hb (fun _ _ q => cardDataWrite_keeps q))

theorem cardFabricLoad_keeps {base : State} {t : State} {c : Cmd}
    (hb : Keeps base t) : Keeps base (Card.run cardFabricLoad t c) := by
  unfold cardFabricLoad
  dsimp only
  exact Keeps.ite (openMsg_keeps (Keeps.same hb)) (accept_keeps (Keeps.same hb))

theorem execCmdFabricLoad_keeps (s : State) : OutKeeps s (execCmdFabricLoad s) := by
  have hb := Keeps.refl s
  unfold execCmdFabricLoad
  exact OutKeeps.next (dispatch_keeps hb (fun _ _ q => cardFabricLoad_keeps q))

theorem cardCaptureArm_keeps {base : State} {t : State} {c : Cmd}
    (hb : Keeps base t) : Keeps base (Card.run cardCaptureArm t c) := by
  unfold cardCaptureArm
  dsimp only
  exact stageB_keeps hb

theorem execCmdCaptureArm_keeps (s : State) : OutKeeps s (execCmdCaptureArm s) := by
  have hb := Keeps.refl s
  unfold execCmdCaptureArm
  exact OutKeeps.next (dispatch_keeps hb (fun _ _ q => cardCaptureArm_keeps q))

theorem cardCaptureRead_keeps {base : State} {t : State} {c : Cmd}
    (hb : Keeps base t) : Keeps base (Card.run cardCaptureRead t c) := by
  unfold cardCaptureRead
  dsimp only
  exact openMsg_keeps hb

theorem execCmdCaptureRead_keeps (s : State) : OutKeeps s (execCmdCaptureRead s) := by
  have hb := Keeps.refl s
  unfold execCmdCaptureRead
  exact OutKeeps.next (dispatch_keeps hb (fun _ _ q => cardCaptureRead_keeps q))

theorem cardScrubDisable_keeps {base : State} {t : State} {c : Cmd}
    (hb : Keeps base t) : Keeps base (Card.run cardScrubDisable t c) := by
  unfold cardScrubDisable
  dsimp only
  exact stageB_keeps hb

theorem execCmdScrubDisable_keeps (s : State) : OutKeeps s (execCmdScrubDisable s) := by
  have hb := Keeps.refl s
  unfold execCmdScrubDisable
  exact OutKeeps.next (dispatch_keeps hb (fun _ _ q => cardScrubDisable_keeps q))

theorem cardTopiaryLoad_keeps {base : State} {t : State} {c : Cmd}
    (hb : Keeps base t) : Keeps base (Card.run cardTopiaryLoad t c) := by
  unfold cardTopiaryLoad
  dsimp only
  exact Keeps.ite (openMsg_keeps hb) (accept_keeps (Keeps.same hb))

theorem execCmdTopiaryLoad_keeps (s : State) : OutKeeps s (execCmdTopiaryLoad s) := by
  have hb := Keeps.refl s
  unfold execCmdTopiaryLoad
  exact OutKeeps.next (dispatch_keeps hb (fun _ _ q => cardTopiaryLoad_keeps q))

theorem cardTopiaryUnload_keeps {base : State} {t : State} {c : Cmd}
    (hb : Keeps base t) : Keeps base (Card.run cardTopiaryUnload t c) := by
  unfold cardTopiaryUnload
  dsimp only
  exact stageB_keeps hb

theorem execCmdTopiaryUnload_keeps (s : State) : OutKeeps s (execCmdTopiaryUnload s) := by
  have hb := Keeps.refl s
  unfold execCmdTopiaryUnload
  exact OutKeeps.next (dispatch_keeps hb (fun _ _ q => cardTopiaryUnload_keeps q))

theorem cardFlashErase_keeps {base : State} {t : State} {c : Cmd}
    (hb : Keeps base t) : Keeps base (Card.run cardFlashErase t c) := by
  unfold cardFlashErase
  dsimp only
  exact flashQueue_keeps (accept_keeps hb)

theorem execCmdFlashErase_keeps (s : State) : OutKeeps s (execCmdFlashErase s) := by
  have hb := Keeps.refl s
  unfold execCmdFlashErase
  exact OutKeeps.next (dispatch_keeps hb (fun _ _ q => cardFlashErase_keeps q))

theorem cardFlashWrite_keeps {base : State} {t : State} {c : Cmd}
    (hb : Keeps base t) : Keeps base (Card.run cardFlashWrite t c) := by
  unfold cardFlashWrite
  dsimp only
  exact flashQueue_keeps (openMsg_keeps hb)

theorem execCmdFlashWrite_keeps (s : State) : OutKeeps s (execCmdFlashWrite s) := by
  have hb := Keeps.refl s
  unfold execCmdFlashWrite
  exact OutKeeps.next (dispatch_keeps hb (fun _ _ q => cardFlashWrite_keeps q))

theorem cardFlashRead_keeps {base : State} {t : State} {c : Cmd}
    (hb : Keeps base t) : Keeps base (Card.run cardFlashRead t c) := by
  unfold cardFlashRead
  dsimp only
  exact Keeps.ite (okNow_keeps hb) (openMsg_keeps hb)

theorem execCmdFlashRead_keeps (s : State) : OutKeeps s (execCmdFlashRead s) := by
  have hb := Keeps.refl s
  unfold execCmdFlashRead
  exact OutKeeps.next (dispatch_keeps hb (fun _ _ q => cardFlashRead_keeps q))

theorem cardImageSelect_keeps {base : State} {t : State} {c : Cmd}
    (hb : Keeps base t) : Keeps base (Card.run cardImageSelect t c) := by
  unfold cardImageSelect
  dsimp only
  exact flashQueue_keeps (accept_keeps hb)

theorem execCmdImageSelect_keeps (s : State) : OutKeeps s (execCmdImageSelect s) := by
  have hb := Keeps.refl s
  unfold execCmdImageSelect
  exact OutKeeps.next (dispatch_keeps hb (fun _ _ q => cardImageSelect_keeps q))

theorem flashEnd_keeps {base : State} {s : State} {o : Order} {a : Option Nat}
    (hb : Keeps base s) : Keeps base (flashEnd s o a) := by
  unfold flashEnd
  split
  · exact finish_keeps hb
  · exact finish_keeps hb

theorem eraseEnd_keeps {base : State} {s : State} {first n : Nat} {o : Order} {bad : List Nat}
    (hb : Keeps base s) : Keeps base (eraseEnd s first n o bad) := by
  unfold eraseEnd
  extract_lets s1
  have g_s1 : Keeps base s1 := forEach_keeps hb (fun _ _ q => Keeps.ite (flashOpen_keeps q) (clearSector_keeps q))
  exact flashEnd_keeps g_s1

theorem programEnd_keeps {base : State} {s : State} {off len : Nat} {first : Option Nat} {o : Order} {bad : List Nat}
    (hb : Keeps base s) : Keeps base (programEnd s off len first o bad) := by
  unfold programEnd
  extract_lets _ s1
  have g_s1 : Keeps base s1 := forEach_keeps hb (fun _ _ q => flashOpen_keeps q)
  exact flashEnd_keeps g_s1

theorem selectEnd_keeps {base : State} {s : State} {slot : Nat} {o : Order} {bad : List Nat}
    (hb : Keeps base s) : Keeps base (selectEnd s slot o bad) := by
  unfold selectEnd
  split
  · exact finish_keeps hb
  · extract_lets _ _ s1
    have g_s1 : Keeps base s1 := Keeps.ite (flashErase_keeps hb) hb
    exact Keeps.ite (flashEnd_keeps (flashPut_keeps g_s1)) (flashEnd_keeps (flashOpen_keeps g_s1))

theorem runRetests_keeps {base : State} {s : State} {fails : BitVec 32}
    (hb : Keeps base s) : Keeps base (runRetests s fails) := by
  unfold runRetests
  refine forEach_keeps hb ?_
  intro _ _ q
  split
  · exact faultClearEnd_keeps (logRetest_keeps q)
  · exact q

theorem flashAfter_keeps {base : State} {s : State} {fails : BitVec 32}
    (hb : Keeps base s) : Keeps base (flashAfter s fails) := by
  unfold flashAfter
  exact flashNext_keeps (runRetests_keeps (raiseInt_keeps hb))

theorem execFlashOperationComplete_keeps (bad : List Nat) (fails : BitVec 32)
    (s : State) : OutKeeps s (execFlashOperationComplete bad fails s) := by
  have hb := Keeps.refl s
  unfold execFlashOperationComplete
  refine OutKeeps.next ?_
  split
  · exact flashAfter_keeps (eraseEnd_keeps (Keeps.same hb))
  · exact Keeps.ite (flashAfter_keeps (programEnd_keeps (Keeps.same hb))) hb
  · exact flashAfter_keeps (selectEnd_keeps (Keeps.same hb))
  · exact hb

theorem cardTraceConfig_keeps {base : State} {t : State} {c : Cmd}
    (hb : Keeps base t) : Keeps base (Card.run cardTraceConfig t c) := by
  unfold cardTraceConfig
  dsimp only
  exact okNow_keeps (forEach_keeps hb (fun _ _ q => regWrite_keeps q))

theorem execCmdTraceConfig_keeps (s : State) : OutKeeps s (execCmdTraceConfig s) := by
  have hb := Keeps.refl s
  unfold execCmdTraceConfig
  exact OutKeeps.next (dispatch_keeps hb (fun _ _ q => cardTraceConfig_keeps q))

theorem cardTraceRead_keeps {base : State} {t : State} {c : Cmd}
    (hb : Keeps base t) : Keeps base (Card.run cardTraceRead t c) := by
  unfold cardTraceRead
  dsimp only
  exact openMsg_keeps hb

theorem execCmdTraceRead_keeps (s : State) : OutKeeps s (execCmdTraceRead s) := by
  have hb := Keeps.refl s
  unfold execCmdTraceRead
  exact OutKeeps.next (dispatch_keeps hb (fun _ _ q => cardTraceRead_keeps q))

theorem cardStickyRead_keeps {base : State} {t : State} {c : Cmd}
    (hb : Keeps base t) : Keeps base (Card.run cardStickyRead t c) := by
  unfold cardStickyRead
  dsimp only
  exact okNow_keeps hb

theorem execCmdStickyRead_keeps (s : State) : OutKeeps s (execCmdStickyRead s) := by
  have hb := Keeps.refl s
  unfold execCmdStickyRead
  exact OutKeeps.next (dispatch_keeps hb (fun _ _ q => cardStickyRead_keeps q))

theorem cardFaultClear_keeps {base : State} {fails : BitVec 32} {t : State} {c : Cmd}
    (hb : Keeps base t) : Keeps base (Card.run (cardFaultClear fails) t c) := by
  unfold cardFaultClear
  dsimp only
  exact Keeps.ite (faultClearEnd_keeps hb) (Keeps.ite (Keeps.same hb) (faultClearEnd_keeps (logRetest_keeps hb)))

theorem execCmdFaultClear_keeps (fails : BitVec 32) (s : State) : OutKeeps s (execCmdFaultClear fails s) := by
  have hb := Keeps.refl s
  unfold execCmdFaultClear
  exact OutKeeps.next (dispatch_keeps hb (fun _ _ q => cardFaultClear_keeps q))

theorem cardLogRead_keeps {base : State} {t : State} {c : Cmd}
    (hb : Keeps base t) : Keeps base (Card.run cardLogRead t c) := by
  unfold cardLogRead
  dsimp only
  exact Keeps.ite (okNow_keeps hb) (openMsg_keeps hb)

theorem execCmdLogRead_keeps (s : State) : OutKeeps s (execCmdLogRead s) := by
  have hb := Keeps.refl s
  unfold execCmdLogRead
  exact OutKeeps.next (dispatch_keeps hb (fun _ _ q => cardLogRead_keeps q))

theorem cardReturnCapture_keeps {base : State} {t : State} {c : Cmd}
    (hb : Keeps base t) : Keeps base (Card.run cardReturnCapture t c) := by
  unfold cardReturnCapture
  dsimp only
  exact Keeps.same (forEach_keeps (accept_keeps hb) (fun _ _ q => stopChans_keeps q))

theorem execCmdReturnCapture_keeps (s : State) : OutKeeps s (execCmdReturnCapture s) := by
  have hb := Keeps.refl s
  unfold execCmdReturnCapture
  exact OutKeeps.next (dispatch_keeps hb (fun _ _ q => cardReturnCapture_keeps q))

theorem writeReturn_keeps {base : State} {s : State} {content : List Byte}
    (hb : Keeps base s) : Keeps base (writeReturn s content) := by
  unfold writeReturn
  exact flashPut_keeps (forEach_keeps hb (fun _ _ q => flashErase_keeps q))

theorem execReturnCaptureComplete_keeps (bad : Option Nat)
    (s : State) : OutKeeps s (execReturnCaptureComplete bad s) := by
  have hb := Keeps.refl s
  unfold execReturnCaptureComplete
  refine OutKeeps.next ?_
  split
  · exact hb
  · refine Keeps.ite hb ?_
    extract_lets _ s1 _ _ s2 s2X1
    have g_s1 : Keeps s s1 := Keeps.same hb
    have g_s2 : Keeps s s2 := wr_keeps (writeReturn_keeps g_s1)
    have g_s2X1 : Keeps s s2X1 := wr_keeps (flashOpen_keeps (forEach_keeps g_s1 (fun _ _ q => countErase_keeps q)))
    split
    · exact flashNext_keeps (finishWait_keeps (raiseInt_keeps (logPut_keeps g_s2)))
    · exact flashNext_keeps (finishWait_keeps (raiseInt_keeps g_s2X1))

theorem cardReturnRead_keeps {base : State} {t : State} {c : Cmd}
    (hb : Keeps base t) : Keeps base (Card.run cardReturnRead t c) := by
  unfold cardReturnRead
  dsimp only
  exact openMsg_keeps hb

theorem execCmdReturnRead_keeps (s : State) : OutKeeps s (execCmdReturnRead s) := by
  have hb := Keeps.refl s
  unfold execCmdReturnRead
  exact OutKeeps.next (dispatch_keeps hb (fun _ _ q => cardReturnRead_keeps q))

end Sys2Proof.Machine
end

