-- ==== Sys2Proof/Laws/KeepsLinks.lean ====
section
/-! SUPPORT. One lemma per operation of power, group links, JTAG and the host ports: it keeps what Laws/Keeps.lean names. -/

namespace Sys2Proof.Machine

open Sys2Proof

-- one proof at a time: the whole package is checked as one text
set_option Elab.async false

theorem enterPower_keeps {base : State} {s : State} {t : Nat} (hb : Keeps base s) : Keeps base (enterPower s t) := by
  unfold enterPower
  exact Keeps.same hb

theorem powerDone_keeps {base : State} {s : State} {t : Nat} (hb : Keeps base s) : Keeps base (powerDone s t) := by
  unfold powerDone
  exact finishWait_keeps hb

theorem orderPower_keeps {base : State} {s : State} {t : Nat} (hb : Keeps base s) : Keeps base (orderPower s t) := by
  unfold orderPower
  exact raiseInt_keeps (Keeps.same hb)

theorem powerNext_keeps {zz : State} {n : Nat} {s : State} (hz : Keeps zz s) : Keeps zz (powerNext n s) := by
  induction n generalizing s with
  | zero => exact hz
  | succ n ih =>
    unfold powerNext
    refine Keeps.ite hz ?_
    split
    · exact Keeps.ite (ih (finish_keeps hz)) (orderPower_keeps hz)
    · exact hz

theorem execDozeEntry_keeps (s : State) : OutKeeps s (execDozeEntry s) := by
  have hb := Keeps.refl s
  unfold execDozeEntry
  refine OutKeeps.next ?_
  refine Keeps.ite ?_ hb
  extract_lets s1
  have g_s1 : Keeps s s1 := enterPower_keeps hb
  exact powerNext_keeps (powerDone_keeps (Keeps.same g_s1))

theorem execDozeExitComplete_keeps (s : State) : OutKeeps s (execDozeExitComplete s) := by
  have hb := Keeps.refl s
  unfold execDozeExitComplete
  refine OutKeeps.next ?_
  refine Keeps.ite ?_ hb
  extract_lets s1
  have g_s1 : Keeps s s1 := enterPower_keeps hb
  exact powerNext_keeps (powerDone_keeps (Keeps.same g_s1))

theorem shedAll_keeps {base : State} {s : State} (hb : Keeps base s) : Keeps base (shedAll s) := by
  unfold shedAll
  extract_lets s1 s2 _ s3
  have g_s1 : Keeps base s1 := endComp_keeps hb
  have g_s2 : Keeps base s2 := Keeps.ite (abandonFrame_keeps g_s1) g_s1
  have g_s3 : Keeps base s3 := forEach_keeps g_s2 (fun _ _ q => toPosting_keeps (answerSlots_keeps q))
  split
  · exact endDrain_keeps (drainArray_keeps g_s3)
  · exact g_s3

theorem groupPorts_keeps {base : State} {s : State} {st : PortState}
    (hb : Keeps base s) : Keeps base (groupPorts s st) := by
  unfold groupPorts
  exact Keeps.ite (forEach_keeps hb (fun _ _ q => Keeps.ite (portState_keeps q) q)) hb

theorem execStandbyEntry_keeps (t : Nat) (pins : BitVec 40) (s : State) : OutKeeps s (execStandbyEntry t pins s) := by
  unfold execStandbyEntry
  apply OutKeeps.next
  refine Keeps.ite ?_ (Keeps.refl s)
  extract_lets w s1 s2 s3 _ s4 _ _ _ _ s5
  have g1 : Keeps s s1 := postReady_keeps (shedAll_keeps (Keeps.refl s))
  have g2 : Keeps s s2 := Keeps.ite (sendAll_keeps g1) g1
  have g3 : Keeps s s3 := powerDone_keeps (forEach_keeps (dropLanes_keeps g2) (fun _ _ q => stopChans_keeps q))
  have g4 : Keeps s s4 := groupPorts_keeps (Keeps.same g3 ⟨⟨rfl, rfl, rfl, rfl⟩, rfl, rfl, rfl, rfl, rfl, rfl, rfl, rfl, rfl, rfl, rfl, rfl, rfl⟩)
  exact enterPower_keeps (Keeps.same g4 ⟨⟨rfl, rfl, rfl, rfl⟩, rfl, rfl, rfl, rfl, rfl, rfl, rfl, rfl, rfl, rfl, rfl, rfl, rfl⟩)

theorem fullPass_keeps {base : State} {s : State} (hb : Keeps base s) : Keeps base (fullPass s) := by
  unfold fullPass
  refine Keeps.ite ?_ hb
  extract_lets s1
  have g_s1 : Keeps base s1 := forEach_keeps (refresh_keeps hb) (fun _ _ q => scrubFrame_keeps q)
  exact wr_keeps g_s1

theorem execStandbyExitComplete_keeps (s : State) : OutKeeps s (execStandbyExitComplete s) := by
  unfold execStandbyExitComplete
  apply OutKeeps.next
  refine Keeps.ite ?_ (Keeps.refl s)
  extract_lets t s1 d _ _ s2 s3 s4 _ s5
  have g1 : Keeps s s1 := fullPass_keeps (enterPower_keeps (Keeps.refl s))
  have gd : Keeps s d := drainArray_keeps g1
  have g2 : Keeps s s2 := Keeps.upd gd ⟨rfl, rfl, rfl, rfl⟩ Sound.regs Sound.staged (fun _ => rfl) (fun _ => rfl) Sound.cfg
    Sound.capRam Sound.planes Sound.pp Sound.mem Sound.flash Sound.buf Sound.mbxCmd Sound.mbxRpl Sound.ring Sound.queue
  have g3 : Keeps s s3 := Keeps.ite (acquire_keeps g2) g2
  have g4 : Keeps s s4 := groupPorts_keeps g3
  have g5 : Keeps s s5 := Keeps.ite (fullCkpts_keeps (Keeps.same g4 ⟨⟨rfl, rfl, rfl, rfl⟩, rfl, rfl, rfl, rfl, rfl, rfl, rfl, rfl, rfl, rfl, rfl, rfl, rfl⟩)) g4
  exact powerNext_keeps (powerDone_keeps g5)

theorem cardGroupForm_keeps {base : State} {t : State} {c : Cmd}
    (hb : Keeps base t) : Keeps base (Card.run cardGroupForm t c) := by
  unfold cardGroupForm
  dsimp only
  exact portState_keeps (portState_keeps (Keeps.same (accept_keeps hb)))

theorem execCmdGroupForm_keeps (s : State) : OutKeeps s (execCmdGroupForm s) := by
  have hb := Keeps.refl s
  unfold execCmdGroupForm
  exact OutKeeps.next (dispatch_keeps hb (fun _ _ q => cardGroupForm_keeps q))

theorem cardGroupLeave_keeps {base : State} {t : State} {c : Cmd}
    (hb : Keeps base t) : Keeps base (Card.run cardGroupLeave t c) := by
  unfold cardGroupLeave
  dsimp only
  exact stageB_keeps hb

theorem execCmdGroupLeave_keeps (s : State) : OutKeeps s (execCmdGroupLeave s) := by
  have hb := Keeps.refl s
  unfold execCmdGroupLeave
  exact OutKeeps.next (dispatch_keeps hb (fun _ _ q => cardGroupLeave_keeps q))

theorem beatPower_keeps {base : State} {s : State} {stamp : Nat}
    (hb : Keeps base s) : Keeps base (beatPower s stamp) := by
  unfold beatPower
  extract_lets _ _ _ _ _ s1
  have g_s1 : Keeps base s1 := Keeps.same hb
  exact Keeps.ite g_s1 (forEach_keeps (setFlag_keeps g_s1) (fun _ _ q => finish_keeps q))

theorem cardPowerState_keeps {base : State} {t : State} {c : Cmd}
    (hb : Keeps base t) : Keeps base (Card.run cardPowerState t c) := by
  unfold cardPowerState
  dsimp only
  exact Keeps.ite (okNow_keeps (Keeps.ite (beatPower_keeps hb) hb)) (Keeps.ite (orderPower_keeps (accept_keeps
    (Keeps.ite (beatPower_keeps hb) hb))) (accept_keeps (Keeps.ite (beatPower_keeps hb) hb)))

theorem execCmdPowerState_keeps (s : State) : OutKeeps s (execCmdPowerState s) := by
  have hb := Keeps.refl s
  unfold execCmdPowerState
  exact OutKeeps.next (dispatch_keeps hb (fun _ _ q => cardPowerState_keeps q))

theorem cardDeviceReset_keeps {base : State} {t : State} {c : Cmd}
    (hb : Keeps base t) : Keeps base (Card.run cardDeviceReset t c) := by
  unfold cardDeviceReset
  dsimp only
  exact resetEntry_keeps hb

theorem execCmdDeviceReset_keeps (s : State) : OutKeeps s (execCmdDeviceReset s) := by
  have hb := Keeps.refl s
  unfold execCmdDeviceReset
  exact OutKeeps.next (dispatch_keeps hb (fun _ _ q => cardDeviceReset_keeps q))

theorem execSupplyWaitTimeout_keeps (s : State) : OutKeeps s (execSupplyWaitTimeout s) := by
  have hb := Keeps.refl s
  unfold execSupplyWaitTimeout
  exact OutKeeps.next (Keeps.ite (resetEntry_keeps hb) hb)

theorem learn_keeps {base : State} {s : State} {infos : List ChipInfo}
    (hb : Keeps base s) : Keeps base (learn s infos) := by
  unfold learn
  exact forEach_keeps hb (fun _ _ q => Keeps.ite q (Keeps.same q))

theorem portUp_keeps {base : State} {s : State} {p : Nat} {infos : List ChipInfo}
    (hb : Keeps base s) : Keeps base (portUp s p infos) := by
  unfold portUp
  extract_lets 
  exact portState_keeps (setGport_keeps hb)

theorem execLinkTrainingComplete_keeps (p : Fin 2) (infos : List ChipInfo) (copy : Option LeaderCopy)
    (s : State) : OutKeeps s (execLinkTrainingComplete p infos copy s) := by
  have hb := Keeps.refl s
  unfold execLinkTrainingComplete
  refine OutKeeps.next ?_
  refine Keeps.ite ?_ hb
  extract_lets s1 s2
  have g_s1 : Keeps s s1 := Keeps.ite (portUp_keeps hb) hb
  have g_s2 : Keeps s s2 := learn_keeps g_s1
  exact Keeps.ite (tryForm_keeps (Keeps.same g_s2)) g_s1

theorem ckptAcked_keeps {base : State} {s : State} {n : Nat} (hb : Keeps base s) : Keeps base (ckptAcked s n) := by
  unfold ckptAcked
  refine Keeps.ite hb ?_
  extract_lets _ _ s1
  have g_s1 : Keeps base s1 := Keeps.same hb
  exact Keeps.ite (orderForm_keeps g_s1) g_s1

theorem ackTo_keeps {base : State} {s : State} {p : Nat} {seq : Nat}
    (hb : Keeps base s) : Keeps base (ackTo s p seq) := by
  unfold ackTo
  extract_lets _ _ s1
  have g_s1 : Keeps base s1 := setGport_keeps hb
  exact Keeps.ite (ckptAcked_keeps g_s1) hb

theorem exhaust_keeps {base : State} {s : State} {p : Nat} (hb : Keeps base s) : Keeps base (exhaust s p) := by
  unfold exhaust
  extract_lets _ _ s1
  have g_s1 : Keeps base s1 := traceGroup_keeps (wr_keeps hb)
  exact Keeps.ite (portLost_keeps g_s1) (portState_keeps (setGport_keeps g_s1))

theorem resendAll_keeps {base : State} {s : State} {p : Nat} (hb : Keeps base s) : Keeps base (resendAll s p) := by
  unfold resendAll
  extract_lets _ _ _ s1 s2 s3
  have g_s1 : Keeps base s1 := wr_keeps hb
  have g_s2 : Keeps base s2 := forEach_keeps g_s1 (fun _ _ q => traceGroup_keeps q)
  have g_s3 : Keeps base s3 := setGport_keeps g_s2
  exact Keeps.ite hb (Keeps.ite (exhaust_keeps g_s3) g_s3)

theorem execLinkAck_keeps (p : Fin 2) (seq : Byte) (s : State) : OutKeeps s (execLinkAck p seq s) := by
  have hb := Keeps.refl s
  unfold execLinkAck
  exact OutKeeps.next (Keeps.ite (ackTo_keeps hb) hb)

theorem execLinkNak_keeps (p : Fin 2) (seq : Byte) (s : State) : OutKeeps s (execLinkNak p seq s) := by
  have hb := Keeps.refl s
  unfold execLinkNak
  exact OutKeeps.next (Keeps.ite (resendAll_keeps (ackTo_keeps (traceGroup_keeps hb))) hb)

theorem execLinkAckTimeout_keeps (p : Fin 2) (s : State) : OutKeeps s (execLinkAckTimeout p s) := by
  have hb := Keeps.refl s
  unfold execLinkAckTimeout
  exact OutKeeps.next (Keeps.ite (resendAll_keeps hb) hb)

theorem execLinkRetrainTimeout_keeps (p : Fin 2) (s : State) : OutKeeps s (execLinkRetrainTimeout p s) := by
  have hb := Keeps.refl s
  unfold execLinkRetrainTimeout
  exact OutKeeps.next (Keeps.ite (portLost_keeps hb) hb)

theorem execLinkFrameError_keeps (p : Fin 2) (s : State) : OutKeeps s (execLinkFrameError p s) := by
  have hb := Keeps.refl s
  unfold execLinkFrameError
  exact OutKeeps.next (Keeps.ite (traceGroup_keeps (satReg_keeps hb)) hb)

theorem execStandbyRetrainTimeout_keeps (p : Fin 2) (s : State) : OutKeeps s (execStandbyRetrainTimeout p s) := by
  have hb := Keeps.refl s
  unfold execStandbyRetrainTimeout
  exact OutKeeps.next (Keeps.ite (portLost_keeps hb) hb)

theorem receive_keeps {zz : State} {s : State} {p : Nat} {seq : Byte} {k : State → State} (hz : Keeps zz s)
    (hk : ∀ t, Keeps zz t → Keeps zz (k t)) : Keeps zz (receive s p seq k) := by
  unfold receive
  exact Keeps.ite (hk _ (setGport_keeps hz)) hz

theorem arrayMsg_keeps {base : State} {s : State} {p : Nat} {m : ArrayMsg}
    (hb : Keeps base s) : Keeps base (arrayMsg s p m) := by
  unfold arrayMsg
  extract_lets 
  split
  · exact Keeps.ite hb (Keeps.ite (Keeps.same hb) (sendLink_keeps hb))
  · exact Keeps.ite (Keeps.same hb) hb
  · exact Keeps.ite (Keeps.same hb) hb

theorem execArrayFrame_keeps (p : Fin 2) (seq : Byte) (m : ArrayMsg)
    (s : State) : OutKeeps s (execArrayFrame p seq m s) := by
  have hb := Keeps.refl s
  unfold execArrayFrame
  exact OutKeeps.next (receive_keeps hb (fun _ q => arrayMsg_keeps q))

theorem memberStart_keeps {base : State} {s : State} {fp : Nat}
    (hb : Keeps base s) : Keeps base (memberStart s fp) := by
  unfold memberStart
  refine Keeps.ite hb ?_
  split
  · exact hb
  · extract_lets s1 _ s2 s3
    have g_s1 : Keeps base s1 := modFrame_keeps hb
    have g_s2 : Keeps base s2 := Keeps.same g_s1
    have g_s3 : Keeps base s3 := loadProgram_keeps (noteClock_keeps g_s2)
    exact Keeps.ite (faultComp_keeps g_s3) g_s3

theorem macroWords_keeps {base : State} {s : State} {fp : Nat} {words : List Word} {last : Bool}
    (hb : Keeps base s) : Keeps base (macroWords s fp words last) := by
  unfold macroWords
  extract_lets s1
  have g_s1 : Keeps base s1 := memberStart_keeps hb
  split
  · exact Keeps.ite (compEnd_keeps (Keeps.same g_s1)) g_s1
  · exact g_s1

theorem execMacroFrame_keeps (p : Fin 2) (seq : Byte) (fp : Fin 16) (words : List Word) (last : Bool)
    (s : State) : OutKeeps s (execMacroFrame p seq fp words last s) := by
  have hb := Keeps.refl s
  unfold execMacroFrame
  exact OutKeeps.next (receive_keeps hb (fun _ q => Keeps.ite (macroWords_keeps q) q))

theorem takeAngle_keeps {base : State} {s : State} {phase rateN rateD : Nat} {count : BitVec 48}
    (hb : Keeps base s) : Keeps base (takeAngle s phase rateN rateD count) := by
  unfold takeAngle
  extract_lets 
  exact Keeps.same hb

theorem execAngleFrame_keeps (p : Fin 2) (seq : Byte) (phase rateN rateD : Nat) (count : BitVec 48)
    (s : State) : OutKeeps s (execAngleFrame p seq phase rateN rateD count s) := by
  have hb := Keeps.refl s
  unfold execAngleFrame
  exact OutKeeps.next (receive_keeps hb (fun _ q => Keeps.ite (takeAngle_keeps q) q))

theorem execAngleFrameLoss_keeps (s : State) : OutKeeps s (execAngleFrameLoss s) := by
  have hb := Keeps.refl s
  unfold execAngleFrameLoss
  exact OutKeeps.next (Keeps.ite (setFlag_keeps (markCoasted_keeps (setAng_keeps hb))) hb)

theorem retireLeader_keeps {base : State} {s : State} (hb : Keeps base s) : Keeps base (retireLeader s) := by
  unfold retireLeader
  refine Keeps.ite hb ?_
  extract_lets _ s1
  have g_s1 : Keeps base s1 := endComp_keeps (Keeps.same hb)
  exact sticky1_keeps (setFlag_keeps g_s1)

theorem fireRest_keeps {zz : State} {n : Nat} {s : State} (hz : Keeps zz s) : Keeps zz (fireRest n s) := by
  induction n generalizing s with
  | zero => exact hz
  | succ n ih =>
    unfold fireRest
    split
    · exact ih (fireAt_keeps hz)
    · exact hz

theorem syncBoundary_keeps {zz : State} {s : State} (hz : Keeps zz s) : Keeps zz (syncBoundary s) := by
  unfold syncBoundary
  extract_lets a s1
  have g1 : Keeps zz s1 := Keeps.ite (fireRest_keeps (setAng_keeps hz)) hz
  clear_value s1
  exact boundary_keeps (Keeps.ite (setAng_keeps g1) g1)

theorem execSyncPulse_keeps (upd : Option LeaderCopy) (s : State) : OutKeeps s (execSyncPulse upd s) := by
  have hb := Keeps.refl s
  unfold execSyncPulse
  refine OutKeeps.next ?_
  refine Keeps.ite (retireLeader_keeps hb) ?_
  refine Keeps.ite ?_ hb
  extract_lets _ s1
  have g_s1 : Keeps s s1 := Keeps.same hb
  refine Keeps.ite ?_ (syncBoundary_keeps (Keeps.same g_s1))
  split
  · exact Keeps.ite g_s1 (orderPower_keeps g_s1)
  · exact g_s1

theorem execHeartbeatTimer_keeps (s : State) : OutKeeps s (execHeartbeatTimer s) := by
  have hb := Keeps.refl s
  unfold execHeartbeatTimer
  exact OutKeeps.next (Keeps.ite (sendHeartbeat_keeps hb) hb)

theorem heartbeatFrom_keeps {base : State} {s : State} {pos : Nat} {coasted : Bool}
    (hb : Keeps base s) : Keeps base (heartbeatFrom s pos coasted) := by
  unfold heartbeatFrom
  extract_lets _ s1
  have g_s1 : Keeps base s1 := Keeps.same hb
  exact Keeps.ite (Keeps.ite (markCoasted_keeps g_s1) g_s1) (Keeps.ite (sendLink_keeps (Keeps.same g_s1)) g_s1)

theorem execHeartbeat_keeps (p : Fin 2) (seq : Byte) (pos : Fin 4) (coasted : Bool)
    (s : State) : OutKeeps s (execHeartbeat p seq pos coasted s) := by
  have hb := Keeps.refl s
  unfold execHeartbeat
  exact OutKeeps.next (receive_keeps hb (fun _ q => heartbeatFrom_keeps q))

theorem setSlot_keeps {base : State} {s : State} {i : Nat} {x : Ckpt}
    (hb : Keeps base s) : Keeps base (setSlot s i x) := by
  unfold setSlot
  exact Keeps.same hb

theorem ckptItem_keeps {base : State} {s : State} {item : CkptItem}
    (hb : Keeps base s) : Keeps base (ckptItem s item) := by
  unfold ckptItem
  extract_lets 
  split
  · exact setSlot_keeps hb
  · exact setSlot_keeps hb
  · refine Keeps.ite ?_ (setFlag_keeps (setSlot_keeps hb))
    extract_lets s1
    have g_s1 : Keeps base s1 := setSlot_keeps hb
    exact traceGroup_keeps (Keeps.same g_s1)

theorem execCkptBlock_keeps (p : Fin 2) (seq : Byte) (item : CkptItem)
    (s : State) : OutKeeps s (execCkptBlock p seq item s) := by
  have hb := Keeps.refl s
  unfold execCkptBlock
  exact OutKeeps.next (receive_keeps hb (fun _ q => Keeps.ite (ckptItem_keeps q) q))

theorem memberFault_keeps {base : State} {s : State} {pos cause : Nat}
    (hb : Keeps base s) : Keeps base (memberFault s pos cause) := by
  unfold memberFault
  exact Keeps.ite hb (Keeps.ite (sticky1_keeps (setFlag_keeps (faultComp_keeps hb))) (Keeps.ite (endComp_keeps hb)
    hb))

theorem execMemberFaultFrame_keeps (p : Fin 2) (seq : Byte) (pos : Fin 4) (cause : Byte)
    (s : State) : OutKeeps s (execMemberFaultFrame p seq pos cause s) := by
  have hb := Keeps.refl s
  unfold execMemberFaultFrame
  exact OutKeeps.next (receive_keeps hb (fun _ q => memberFault_keeps q))

theorem takenOver_keeps {base : State} {s : State} {pos : Nat}
    (hb : Keeps base s) : Keeps base (takenOver s pos) := by
  unfold takenOver
  refine Keeps.ite (retireLeader_keeps hb) ?_
  refine Keeps.ite ?_ hb
  extract_lets _ _ s1
  have g_s1 : Keeps base s1 := Keeps.same hb
  exact Keeps.same g_s1

theorem execTakeoverFrame_keeps (p : Fin 2) (seq : Byte) (pos : Fin 4)
    (s : State) : OutKeeps s (execTakeoverFrame p seq pos s) := by
  have hb := Keeps.refl s
  unfold execTakeoverFrame
  exact OutKeeps.next (receive_keeps hb (fun _ q => takenOver_keeps q))

theorem execQuiesceFrame_keeps (p : Fin 2) (seq : Byte) (s : State) : OutKeeps s (execQuiesceFrame p seq s) := by
  have hb := Keeps.refl s
  unfold execQuiesceFrame
  exact OutKeeps.next (receive_keeps hb (fun _ q => Keeps.ite (orderPower_keeps (portState_keeps (portState_keeps
    (Keeps.same q)))) q))

theorem execJtagTckEdge_keeps (rise tms tdi : Bool) (pins : List Bool)
    (s : State) : OutKeeps s (execJtagTckEdge rise tms tdi pins s) := by
  have hb := Keeps.refl s
  unfold execJtagTckEdge
  refine OutKeeps.next ?_
  refine Keeps.ite hb ?_
  refine Keeps.ite ?_ (Keeps.same hb)
  extract_lets s1
  have g_s1 : Keeps s s1 := Keeps.same hb
  exact Keeps.ite (Keeps.same g_s1) g_s1

theorem execTrstNAssert_keeps (s : State) : OutKeeps s (execTrstNAssert s) := by
  have hb := Keeps.refl s
  unfold execTrstNAssert
  exact OutKeeps.next (Keeps.same hb)

theorem fpLoadEnd_keeps {base : State} {s : State} {o : Order} {fp : Nat} {im : List Byte}
    (hb : Keeps base s) : Keeps base (fpLoadEnd s o fp im) := by
  unfold fpLoadEnd
  refine Keeps.ite (finish_keeps hb) ?_
  split
  · exact finish_keeps (Keeps.ite (reservedField_keeps hb) hb)
  · extract_lets s1
    have g_s1 : Keeps base s1 := fillMem_keeps (setProg_keeps hb)
    exact finish_keeps g_s1

theorem msgEnd_keeps {base : State} {s : State} {m : Msg} {data : List Byte}
    (hb : Keeps base s) : Keeps base (msgEnd s m data) := by
  unfold msgEnd
  extract_lets 
  exact Keeps.ite (fpLoadEnd_keeps hb) (Keeps.ite (Keeps.ite (addChange_keeps hb) (finish_keeps hb)) (Keeps.ite
    (Keeps.same hb) (Keeps.ite (Keeps.same hb) hb)))

theorem msgBytes_keeps {base : State} {s : State} {m : Msg} {data : List Byte}
    (hb : Keeps base s) : Keeps base (msgBytes s m data) := by
  unfold msgBytes
  exact Keeps.ite (fillMem_keeps hb) (Keeps.ite (programData_keeps hb) hb)

theorem msgTake_keeps {base : State} {s : State} {i : Nat} {m : Msg} {data : List Byte}
    (hb : Keeps base s) : Keeps base (msgTake s i m data) := by
  unfold msgTake
  extract_lets _ _ _ _ s1
  have g_s1 : Keeps base s1 := msgBytes_keeps (Keeps.same hb)
  exact Keeps.ite (msgEnd_keeps g_s1) g_s1

theorem msgClose_keeps {base : State} {s : State} {m : Msg} (hb : Keeps base s) : Keeps base (msgClose s m) := by
  unfold msgClose
  exact finish_keeps (Keeps.ite (capDiscard_keeps hb) hb)

theorem linkEnd_keeps {base : State} {s : State} {typ : Nat} {h : LinkHdr} {q res errc : Nat} {resp : List Byte}
    (hb : Keeps base s) : Keeps base (linkEnd s typ h q res errc resp) := by
  unfold linkEnd
  extract_lets s1 _ s2 s3
  have g_s1 : Keeps base s1 := Keeps.ite (setFlag_keeps hb) (Keeps.ite (setFlag_keeps hb) (Keeps.ite (setFlag_keeps
    hb) (Keeps.ite (setFlag_keeps hb) hb)))
  have g_s2 : Keeps base s2 := Keeps.ite (wr_keeps g_s1) (Keeps.ite (wr_keeps g_s1) g_s1)
  have g_s3 : Keeps base s3 := traceLink_keeps g_s2
  exact Keeps.same g_s3

theorem consume_keeps {base : State} {s : State} (hb : Keeps base s) : Keeps base (consume s) := by
  unfold consume
  exact wr_keeps (Keeps.same hb)

theorem ringWriteDo_keeps {zz s t : State} {h : LinkHdr} {data : List Byte} {r : List Byte} (hz : Keeps zz s) (e : ringWriteDo s h data = .done t r) : Keeps zz t := by
  unfold ringWriteDo at e
  repeat' first
    | contradiction
    | split at e
    | dsimp only at e
  all_goals
    cases e
    first
      | exact fillMem_keeps hz

theorem ringReadDo_keeps {zz s t : State} {h : LinkHdr} {r : List Byte} (hz : Keeps zz s) (e : ringReadDo s h = .done t r) : Keeps zz t := by
  unfold ringReadDo at e
  repeat' first
    | contradiction
    | split at e
    | dsimp only at e
  all_goals
    cases e
    first
      | exact hz

theorem regWriteDo_keeps {zz s t : State} {h : LinkHdr} {data : List Byte} {r : List Byte} (hz : Keeps zz s) (e : regWriteDo s h data = .done t r) : Keeps zz t := by
  unfold regWriteDo at e
  repeat' first
    | contradiction
    | split at e
    | dsimp only at e
  all_goals
    cases e
    first
      | exact regWrite_keeps hz

theorem regReadDo_keeps {zz s t : State} {h : LinkHdr} {r : List Byte} (hz : Keeps zz s) (e : regReadDo s h = .done t r) : Keeps zz t := by
  unfold regReadDo at e
  repeat' first
    | contradiction
    | split at e
    | dsimp only at e
  all_goals
    cases e
    first
      | exact regReads_keeps hz

theorem msgWriteDo_keeps {zz s t : State} {h : LinkHdr} {data : List Byte} {r : List Byte} (hz : Keeps zz s) (e : msgWriteDo s h data = .done t r) : Keeps zz t := by
  unfold msgWriteDo at e
  repeat' first
    | contradiction
    | split at e
    | dsimp only at e
  all_goals
    cases e
    first
      | exact msgTake_keeps hz
      | exact msgClose_keeps hz

theorem msgReadDo_keeps {zz s t : State} {h : LinkHdr} {r : List Byte} (hz : Keeps zz s) (e : msgReadDo s h = .done t r) : Keeps zz t := by
  unfold msgReadDo at e
  repeat' first
    | contradiction
    | split at e
    | dsimp only at e
  all_goals
    cases e
    first
      | exact hz

theorem packetDo_keeps {zz s t : State} {typ : Nat} {h : LinkHdr} {data : List Byte} {r : List Byte} (hz : Keeps zz s)
    (e : packetDo s typ h data = .done t r) : Keeps zz t := by
  unfold packetDo at e
  repeat' first
    | contradiction
    | split at e
  all_goals
    first
      | exact ringWriteDo_keeps hz e
      | exact ringReadDo_keeps hz e
      | exact regWriteDo_keeps hz e
      | exact regReadDo_keeps hz e
      | exact msgWriteDo_keeps hz e
      | exact msgReadDo_keeps hz e

theorem acceptPacket_keeps {zz : State} {s : State} {typ : Nat} {h : LinkHdr} {q : Nat} {read : Bool} {data : List Byte}
    (hz : Keeps zz s) : Keeps zz (acceptPacket s typ h q read data) := by
  unfold acceptPacket
  refine Keeps.ite (linkEnd_keeps hz) ?_
  split
  · exact linkEnd_keeps hz
  · exact linkEnd_keeps (consume_keeps (Keeps.ite (reservedField_keeps hz) hz))
  · rename_i t resp e
    have g := consume_keeps (packetDo_keeps hz e)
    dsimp only
    generalize consume t = u at g
    exact linkEnd_keeps (Keeps.ite g (Keeps.same g ⟨⟨rfl, rfl, rfl, rfl⟩, rfl, rfl, rfl, rfl, rfl, rfl, rfl, rfl, rfl, rfl, rfl, rfl, rfl⟩))

theorem repeatPacket_keeps {zz : State} {s : State} {typ : Nat} {h : LinkHdr} {q : Nat} {read : Bool} (hz : Keeps zz s) :
    Keeps zz (repeatPacket s typ h q read) := by
  unfold repeatPacket
  refine Keeps.ite (linkEnd_keeps hz) ?_
  split
  · rename_i t resp e
    exact linkEnd_keeps (packetDo_keeps hz e)
  · exact linkEnd_keeps (useFree_keeps hz)

theorem linkPacket_keeps {base : State} {s : State} {typ : Nat} {h : LinkHdr} {read : Bool} {data : List Byte}
    {crc : Word} (hb : Keeps base s) : Keeps base (linkPacket s typ h read data crc) := by
  unfold linkPacket
  extract_lets 
  exact Keeps.ite hb (Keeps.ite (setFlag_keeps hb) (Keeps.ite (setFlag_keeps hb) (Keeps.ite (linkEnd_keeps hb)
    (Keeps.ite (linkEnd_keeps hb) (Keeps.ite (acceptPacket_keeps hb) (Keeps.ite (repeatPacket_keeps hb)
    (linkEnd_keeps hb)))))))

theorem execRingWrite_keeps (h : LinkHdr) (data : List Byte) (crc : Word)
    (s : State) : OutKeeps s (execRingWrite h data crc s) := by
  have hb := Keeps.refl s
  unfold execRingWrite
  exact OutKeeps.next (linkPacket_keeps hb)

theorem execRingRead_keeps (h : LinkHdr) (crc : Word) (s : State) : OutKeeps s (execRingRead h crc s) := by
  have hb := Keeps.refl s
  unfold execRingRead
  exact OutKeeps.next (linkPacket_keeps hb)

theorem execLinkRegWrite_keeps (h : LinkHdr) (data : List Byte) (crc : Word)
    (s : State) : OutKeeps s (execLinkRegWrite h data crc s) := by
  have hb := Keeps.refl s
  unfold execLinkRegWrite
  exact OutKeeps.next (linkPacket_keeps hb)

theorem execLinkRegRead_keeps (h : LinkHdr) (crc : Word) (s : State) : OutKeeps s (execLinkRegRead h crc s) := by
  have hb := Keeps.refl s
  unfold execLinkRegRead
  exact OutKeeps.next (linkPacket_keeps hb)

theorem execMsgWrite_keeps (h : LinkHdr) (data : List Byte) (crc : Word)
    (s : State) : OutKeeps s (execMsgWrite h data crc s) := by
  have hb := Keeps.refl s
  unfold execMsgWrite
  exact OutKeeps.next (linkPacket_keeps hb)

theorem execMsgRead_keeps (h : LinkHdr) (crc : Word) (s : State) : OutKeeps s (execMsgRead h crc s) := by
  have hb := Keeps.refl s
  unfold execMsgRead
  exact OutKeeps.next (linkPacket_keeps hb)

theorem execStatus_keeps (s : State) : OutKeeps s (execStatus s) := by
  have hb := Keeps.refl s
  unfold execStatus
  exact OutKeeps.next (Keeps.ite (linkEnd_keeps hb) hb)

theorem execLinkReset_keeps (s : State) : OutKeeps s (execLinkReset s) := by
  have hb := Keeps.refl s
  unfold execLinkReset
  refine OutKeeps.next ?_
  refine Keeps.ite ?_ hb
  extract_lets s1
  have g_s1 : Keeps s s1 := clrReg_keeps hb
  exact setFlag_keeps (Keeps.same g_s1)

theorem execBadTypeTransaction_keeps (s : State) : OutKeeps s (execBadTypeTransaction s) := by
  have hb := Keeps.refl s
  unfold execBadTypeTransaction
  exact OutKeeps.next (Keeps.ite (setFlag_keeps hb) hb)

theorem execTransactionTruncated_keeps (s : State) : OutKeeps s (execTransactionTruncated s) := by
  have hb := Keeps.refl s
  unfold execTransactionTruncated
  exact OutKeeps.next (Keeps.ite (setFlag_keeps hb) hb)

theorem execWriteCommitDone_keeps (s : State) : OutKeeps s (execWriteCommitDone s) := by
  have hb := Keeps.refl s
  unfold execWriteCommitDone
  exact OutKeeps.next (Keeps.same hb)

theorem execQuadModeSwitch_keeps (s : State) : OutKeeps s (execQuadModeSwitch s) := by
  have hb := Keeps.refl s
  unfold execQuadModeSwitch
  exact OutKeeps.next (Keeps.ite (Keeps.same hb) hb)

theorem i2cStart_keeps {base : State} {s : State} (hb : Keeps base s) : Keeps base (i2cStart s) := by
  unfold i2cStart
  exact Keeps.same hb

theorem mctrlWrite_keeps {base : State} {s : State} {v : Word} (hb : Keeps base s) : Keeps base (mctrlWrite s v) := by
  unfold mctrlWrite
  extract_lets s0 _ _ _ s1 _ s2
  have g_s0 : Keeps base s0 := Keeps.ite (reservedField_keeps hb) hb
  have g_s1 : Keeps base s1 := Keeps.ite (setFlag_keeps g_s0) g_s0
  have g_s2 : Keeps base s2 := Keeps.ite (Keeps.same g_s1) g_s1
  exact Keeps.ite (raiseInt_keeps (Keeps.same g_s2)) g_s2

theorem mcfgWrite_keeps {base : State} {s : State} {v : Word} (hb : Keeps base s) : Keeps base (mcfgWrite s v) := by
  unfold mcfgWrite
  extract_lets s1
  have g_s1 : Keeps base s1 := Keeps.ite (reservedField_keeps hb) hb
  exact Keeps.same g_s1

theorem i2cWrite_keeps {base : State} {s0 : State} {off : Nat} {data : List Byte} {pec : Byte}
    (hb : Keeps base s0) : Keeps base (i2cWrite s0 off data pec) := by
  unfold i2cWrite
  repeat' first
    | with_reducible assumption
    | with_reducible apply Keeps.ite
    | with_reducible apply i2cStart_keeps
    | with_reducible apply setFlag_keeps
    | with_reducible apply mctrlWrite_keeps
    | with_reducible apply mcfgWrite_keeps
    | split
    | with_reducible refine Keeps.fst_of_eq (by assumption) ?_
    | with_reducible refine Keeps.same ?_ ⟨⟨rfl, rfl, rfl, rfl⟩, rfl, rfl, rfl, rfl, rfl, rfl, rfl, rfl, rfl, rfl,
      rfl, rfl, rfl⟩
    | with_reducible refine Keeps.upd ?_ ⟨rfl, rfl, rfl, rfl⟩ ?_ ?_ ?_ ?_ ?_ ?_ ?_ ?_ ?_ ?_ ?_ ?_ ?_ ?_ ?_
    | with_reducible exact Sound.regs
    | with_reducible exact Sound.staged
    | with_reducible exact Sound.recs
    | with_reducible exact Sound.stamps
    | with_reducible exact Sound.cfg
    | with_reducible exact Sound.capRam
    | with_reducible exact Sound.planes
    | with_reducible exact Sound.pp
    | with_reducible exact Sound.mem
    | with_reducible exact Sound.flash
    | with_reducible exact Sound.buf
    | with_reducible exact Sound.mbxCmd
    | with_reducible exact Sound.mbxRpl
    | with_reducible exact Sound.ring
    | with_reducible exact Sound.queue
    | exact fun _ => twf_tsets _ _ _ rfl
    | exact fun w => twf_tsets _ _ _ (Sound.mbxCmd w)
    | dsimp only

theorem execMailboxCmdWrite_keeps (off : Fin 64) (data : List Byte) (pec : Byte)
    (s : State) : OutKeeps s (execMailboxCmdWrite off data pec s) := by
  have hb := Keeps.refl s
  unfold execMailboxCmdWrite
  exact OutKeeps.next (i2cWrite_keeps hb)

theorem execMailboxGo_keeps (data : List Byte) (pec : Byte) (s : State) : OutKeeps s (execMailboxGo data pec s) := by
  have hb := Keeps.refl s
  unfold execMailboxGo
  exact OutKeeps.next (i2cWrite_keeps hb)

theorem execMailboxRelease_keeps (data : List Byte) (pec : Byte)
    (s : State) : OutKeeps s (execMailboxRelease data pec s) := by
  have hb := Keeps.refl s
  unfold execMailboxRelease
  exact OutKeeps.next (i2cWrite_keeps hb)

theorem execMailboxPecSet_keeps (v pec : Byte) (s : State) : OutKeeps s (execMailboxPecSet v pec s) := by
  have hb := Keeps.refl s
  unfold execMailboxPecSet
  exact OutKeeps.next (i2cWrite_keeps hb)

theorem execI2cReadTransfer_keeps (ptr : Option (Byte × Byte)) (n : Nat)
    (s : State) : OutKeeps s (execI2cReadTransfer ptr n s) := by
  have hb := Keeps.refl s
  unfold execI2cReadTransfer
  refine OutKeeps.next ?_
  refine Keeps.ite hb ?_
  extract_lets s0 _ s1
  have g_s0 : Keeps s s0 := i2cStart_keeps hb
  have g_s1 : Keeps s s1 := by
    unfold s1
    split
    · exact Keeps.same g_s0
    · exact g_s0
  exact Keeps.ite (setFlag_keeps (Keeps.same g_s1)) (Keeps.same g_s1)

theorem execI2cSclTimeout_keeps (s : State) : OutKeeps s (execI2cSclTimeout s) := by
  have hb := Keeps.refl s
  unfold execI2cSclTimeout
  exact OutKeeps.next (Keeps.ite (setFlag_keeps hb) hb)

theorem restoreCkpt_keeps {base : State} {s : State} {x : Ckpt} {c : CkptCtl}
    (hb : Keeps base s) : Keeps base (restoreCkpt s x c) := by
  unfold restoreCkpt
  extract_lets s1
  have g_s1 : Keeps base s1 := forEach_keeps hb (fun _ _ q => wrBytes_keeps q)
  exact Keeps.same g_s1

theorem postLost_keeps {base : State} {s : State} {fs : List Frame}
    (hb : Keeps base s) : Keeps base (postLost s fs) := by
  unfold postLost
  exact forEach_keeps hb (fun _ _ q => forEach_keeps (post_keeps q) (fun _ _ q1 => post_keeps q1))

theorem abortOpens_keeps {base : State} {s : State} (hb : Keeps base s) : Keeps base (abortOpens s) := by
  unfold abortOpens
  exact forEach_keeps hb (fun _ _ q => finish_keeps q)

theorem shadowClock_keeps {base : State} {s : State} (hb : Keeps base s) : Keeps base (shadowClock s) := by
  unfold shadowClock
  extract_lets s1
  have g_s1 : Keeps base s1 := wrBoth_keeps hb
  exact Keeps.ite (takeAtWord_keeps (setAng_keeps g_s1)) (loseSource_keeps g_s1)

theorem takeover_keeps {base : State} {s : State} {x : Ckpt} {c : CkptCtl}
    (hb : Keeps base s) : Keeps base (takeover s x c) := by
  unfold takeover
  extract_lets _ _ _ s1 s2 _ _ s3 _ s4 s5 s6
  have g_s1 : Keeps base s1 := shadowClock_keeps (sendAll_keeps (endComp_keeps (traceGroup_keeps hb)))
  have g_s2 : Keeps base s2 := restoreCkpt_keeps g_s1
  have g_s3 : Keeps base s3 := Keeps.same g_s2
  have g_s4 : Keeps base s4 := sticky1_keeps (setFlag_keeps (wr_keeps g_s3))
  have g_s5 : Keeps base s5 := abortOpens_keeps (postLost_keeps g_s4)
  have g_s6 : Keeps base s6 := Keeps.ite (modFrame_keeps g_s5) g_s5
  exact Keeps.ite (becomeSolo_keeps g_s6) (fullCkpts_keeps (sendHeartbeat_keeps (Keeps.same g_s6)))

theorem execLeaderTimeout_keeps (s : State) : OutKeeps s (execLeaderTimeout s) := by
  have hb := Keeps.refl s
  unfold execLeaderTimeout
  refine OutKeeps.next ?_
  refine Keeps.ite hb ?_
  refine Keeps.ite ?_ (Keeps.ite (becomeSolo_keeps hb) hb)
  split
  · exact takeover_keeps hb
  · exact becomeSolo_keeps hb

theorem execMemberLossTimeout_keeps (pos : Fin 4) (s : State) : OutKeeps s (execMemberLossTimeout pos s) := by
  have hb := Keeps.refl s
  unfold execMemberLossTimeout
  exact OutKeeps.next (Keeps.ite (memberLeave_keeps (traceGroup_keeps hb)) hb)

theorem thermalShutdown_keeps {base : State} {s : State} {t : Int}
    (hb : Keeps base s) : Keeps base (thermalShutdown s t) := by
  unfold thermalShutdown
  extract_lets _ _ s1
  have g_s1 : Keeps base s1 := resetEntry_keeps (wr_keeps hb)
  exact Keeps.same g_s1

theorem execThermalSample_keeps (t : Int) (s : State) : OutKeeps s (execThermalSample t s) := by
  have hb := Keeps.refl s
  unfold execThermalSample
  refine OutKeeps.next ?_
  refine Keeps.ite hb ?_
  refine Keeps.ite (thermalShutdown_keeps hb) ?_
  extract_lets _ s1
  have g_s1 : Keeps s s1 := Keeps.same hb
  exact Keeps.ite (raiseInt_keeps (setFlag_keeps g_s1)) g_s1

theorem execThermalRelease_keeps (t : Int) (s : State) : OutKeeps s (execThermalRelease t s) := by
  have hb := Keeps.refl s
  unfold execThermalRelease
  exact OutKeeps.next (Keeps.ite (Keeps.same hb) hb)

theorem throttleDown_keeps {base : State} {s : State} (hb : Keeps base s) : Keeps base (throttleDown s) := by
  unfold throttleDown
  extract_lets 
  exact Keeps.ite (setFlag_keeps (Keeps.same hb)) (Keeps.ite (setFlag_keeps (Keeps.same hb)) hb)

theorem throttleUp_keeps {base : State} {s : State} (hb : Keeps base s) : Keeps base (throttleUp s) := by
  unfold throttleUp
  extract_lets 
  exact Keeps.ite (Keeps.ite hb (Keeps.same hb)) (Keeps.ite (Keeps.same hb) hb)

theorem throttleFloor_keeps {base : State} {s : State} (hb : Keeps base s) : Keeps base (throttleFloor s) := by
  unfold throttleFloor
  extract_lets _ _ s1
  have g_s1 : Keeps base s1 := Keeps.same hb
  exact Keeps.ite (setFlag_keeps (setFlag_keeps g_s1)) g_s1

theorem execThrottleStep_keeps (s : State) : OutKeeps s (execThrottleStep s) := by
  have hb := Keeps.refl s
  unfold execThrottleStep
  refine OutKeeps.next ?_
  refine Keeps.ite hb ?_
  extract_lets _ s1 s2
  have g_s1 : Keeps s s1 := Keeps.same hb
  have g_s2 : Keeps s s2 := Keeps.ite (throttleDown_keeps g_s1) (Keeps.ite (throttleUp_keeps g_s1) g_s1)
  exact noteClock_keeps (throttleFloor_keeps g_s2)

theorem execX32CrystalStart_keeps (s : State) : OutKeeps s (execX32CrystalStart s) := by
  have hb := Keeps.refl s
  unfold execX32CrystalStart
  exact OutKeeps.next (Keeps.same hb)

end Sys2Proof.Machine
end

