-- ==== Sys2Proof/Laws/State.lean ====
section
/-! SUPPORT. Each update of the state, field by field: the part that it changes, and every other part as it was. -/

namespace Sys2Proof.Machine

open Sys2Proof

-- one proof at a time: the whole package is checked as one text
set_option Elab.async false

-- `wr`
@[simp] theorem wr_now (s : State) (a : Nat) (v : Word) : (wr s a v).now = s.now := rfl
@[simp] theorem wr_free (s : State) (a : Nat) (v : Word) : (wr s a v).free = s.free := rfl
@[simp] theorem wr_regs (s : State) (a : Nat) (v : Word) : (wr s a v).regs = tset 0 s.regs a v := rfl
@[simp] theorem wr_staged (s : State) (a : Nat) (v : Word) : (wr s a v).staged = s.staged := rfl
@[simp] theorem wr_ang (s : State) (a : Nat) (v : Word) : (wr s a v).ang = s.ang := rfl
@[simp] theorem wr_frm (s : State) (a : Nat) (v : Word) : (wr s a v).frm = s.frm := rfl
@[simp] theorem wr_hdg (s : State) (a : Nat) (v : Word) : (wr s a v).hdg = s.hdg := rfl
@[simp] theorem wr_smp (s : State) (a : Nat) (v : Word) : (wr s a v).smp = s.smp := rfl
@[simp] theorem wr_scb (s : State) (a : Nat) (v : Word) : (wr s a v).scb = s.scb := rfl
@[simp] theorem wr_arr (s : State) (a : Nat) (v : Word) : (wr s a v).arr = s.arr := rfl
@[simp] theorem wr_cnd (s : State) (a : Nat) (v : Word) : (wr s a v).cnd = s.cnd := rfl
@[simp] theorem wr_prt (s : State) (a : Nat) (v : Word) : (wr s a v).prt = s.prt := rfl
@[simp] theorem wr_lnk (s : State) (a : Nat) (v : Word) : (wr s a v).lnk = s.lnk := rfl
@[simp] theorem wr_grp (s : State) (a : Nat) (v : Word) : (wr s a v).grp = s.grp := rfl
@[simp] theorem wr_trc (s : State) (a : Nat) (v : Word) : (wr s a v).trc = s.trc := rfl
@[simp] theorem wr_flt (s : State) (a : Nat) (v : Word) : (wr s a v).flt = s.flt := rfl
@[simp] theorem wr_boot (s : State) (a : Nat) (v : Word) : (wr s a v).boot = s.boot := rfl
@[simp] theorem wr_pwr (s : State) (a : Nat) (v : Word) : (wr s a v).pwr = s.pwr := rfl
@[simp] theorem wr_jtag (s : State) (a : Nat) (v : Word) : (wr s a v).jtag = s.jtag := rfl
@[simp] theorem wr_pending (s : State) (a : Nat) (v : Word) : (wr s a v).pending = s.pending := rfl

-- `wrStaged`
@[simp] theorem wrStaged_now (s : State) (a : Nat) (v : Word) : (wrStaged s a v).now = s.now := rfl
@[simp] theorem wrStaged_free (s : State) (a : Nat) (v : Word) : (wrStaged s a v).free = s.free := rfl
@[simp] theorem wrStaged_regs (s : State) (a : Nat) (v : Word) : (wrStaged s a v).regs = s.regs := rfl
@[simp] theorem wrStaged_staged (s : State) (a : Nat) (v : Word) : (wrStaged s a v).staged = tset 0 s.staged a v := rfl
@[simp] theorem wrStaged_ang (s : State) (a : Nat) (v : Word) : (wrStaged s a v).ang = s.ang := rfl
@[simp] theorem wrStaged_frm (s : State) (a : Nat) (v : Word) : (wrStaged s a v).frm = s.frm := rfl
@[simp] theorem wrStaged_hdg (s : State) (a : Nat) (v : Word) : (wrStaged s a v).hdg = s.hdg := rfl
@[simp] theorem wrStaged_smp (s : State) (a : Nat) (v : Word) : (wrStaged s a v).smp = s.smp := rfl
@[simp] theorem wrStaged_scb (s : State) (a : Nat) (v : Word) : (wrStaged s a v).scb = s.scb := rfl
@[simp] theorem wrStaged_arr (s : State) (a : Nat) (v : Word) : (wrStaged s a v).arr = s.arr := rfl
@[simp] theorem wrStaged_cnd (s : State) (a : Nat) (v : Word) : (wrStaged s a v).cnd = s.cnd := rfl
@[simp] theorem wrStaged_prt (s : State) (a : Nat) (v : Word) : (wrStaged s a v).prt = s.prt := rfl
@[simp] theorem wrStaged_lnk (s : State) (a : Nat) (v : Word) : (wrStaged s a v).lnk = s.lnk := rfl
@[simp] theorem wrStaged_grp (s : State) (a : Nat) (v : Word) : (wrStaged s a v).grp = s.grp := rfl
@[simp] theorem wrStaged_trc (s : State) (a : Nat) (v : Word) : (wrStaged s a v).trc = s.trc := rfl
@[simp] theorem wrStaged_flt (s : State) (a : Nat) (v : Word) : (wrStaged s a v).flt = s.flt := rfl
@[simp] theorem wrStaged_boot (s : State) (a : Nat) (v : Word) : (wrStaged s a v).boot = s.boot := rfl
@[simp] theorem wrStaged_pwr (s : State) (a : Nat) (v : Word) : (wrStaged s a v).pwr = s.pwr := rfl
@[simp] theorem wrStaged_jtag (s : State) (a : Nat) (v : Word) : (wrStaged s a v).jtag = s.jtag := rfl
@[simp] theorem wrStaged_pending (s : State) (a : Nat) (v : Word) : (wrStaged s a v).pending = s.pending := rfl

-- `raiseInt`
@[simp] theorem raiseInt_now (s : State) (v : Nat) : (raiseInt s v).now = s.now := rfl
@[simp] theorem raiseInt_free (s : State) (v : Nat) : (raiseInt s v).free = s.free := rfl
@[simp] theorem raiseInt_regs (s : State) (v : Nat) : (raiseInt s v).regs = s.regs := rfl
@[simp] theorem raiseInt_staged (s : State) (v : Nat) : (raiseInt s v).staged = s.staged := rfl
@[simp] theorem raiseInt_ang (s : State) (v : Nat) : (raiseInt s v).ang = s.ang := rfl
@[simp] theorem raiseInt_frm (s : State) (v : Nat) : (raiseInt s v).frm = s.frm := rfl
@[simp] theorem raiseInt_hdg (s : State) (v : Nat) : (raiseInt s v).hdg = s.hdg := rfl
@[simp] theorem raiseInt_smp (s : State) (v : Nat) : (raiseInt s v).smp = s.smp := rfl
@[simp] theorem raiseInt_scb (s : State) (v : Nat) : (raiseInt s v).scb = s.scb := rfl
@[simp] theorem raiseInt_arr (s : State) (v : Nat) : (raiseInt s v).arr = s.arr := rfl
@[simp] theorem raiseInt_cnd (s : State) (v : Nat) : (raiseInt s v).cnd = { s.cnd with ipend := s.cnd.ipend ||| BitVec.ofNat 10 (2 ^ (v - 16)) } := rfl
@[simp] theorem raiseInt_prt (s : State) (v : Nat) : (raiseInt s v).prt = s.prt := rfl
@[simp] theorem raiseInt_lnk (s : State) (v : Nat) : (raiseInt s v).lnk = s.lnk := rfl
@[simp] theorem raiseInt_grp (s : State) (v : Nat) : (raiseInt s v).grp = s.grp := rfl
@[simp] theorem raiseInt_trc (s : State) (v : Nat) : (raiseInt s v).trc = s.trc := rfl
@[simp] theorem raiseInt_flt (s : State) (v : Nat) : (raiseInt s v).flt = s.flt := rfl
@[simp] theorem raiseInt_boot (s : State) (v : Nat) : (raiseInt s v).boot = s.boot := rfl
@[simp] theorem raiseInt_pwr (s : State) (v : Nat) : (raiseInt s v).pwr = s.pwr := rfl
@[simp] theorem raiseInt_jtag (s : State) (v : Nat) : (raiseInt s v).jtag = s.jtag := rfl
@[simp] theorem raiseInt_pending (s : State) (v : Nat) : (raiseInt s v).pending = s.pending := rfl

-- `useFree`
@[simp] theorem useFree_now (s : State) : (useFree s).now = s.now := rfl
@[simp] theorem useFree_free (s : State) : (useFree s).free = s.free + 1 := rfl
@[simp] theorem useFree_regs (s : State) : (useFree s).regs = s.regs := rfl
@[simp] theorem useFree_staged (s : State) : (useFree s).staged = s.staged := rfl
@[simp] theorem useFree_ang (s : State) : (useFree s).ang = s.ang := rfl
@[simp] theorem useFree_frm (s : State) : (useFree s).frm = s.frm := rfl
@[simp] theorem useFree_hdg (s : State) : (useFree s).hdg = s.hdg := rfl
@[simp] theorem useFree_smp (s : State) : (useFree s).smp = s.smp := rfl
@[simp] theorem useFree_scb (s : State) : (useFree s).scb = s.scb := rfl
@[simp] theorem useFree_arr (s : State) : (useFree s).arr = s.arr := rfl
@[simp] theorem useFree_cnd (s : State) : (useFree s).cnd = s.cnd := rfl
@[simp] theorem useFree_prt (s : State) : (useFree s).prt = s.prt := rfl
@[simp] theorem useFree_lnk (s : State) : (useFree s).lnk = s.lnk := rfl
@[simp] theorem useFree_grp (s : State) : (useFree s).grp = s.grp := rfl
@[simp] theorem useFree_trc (s : State) : (useFree s).trc = s.trc := rfl
@[simp] theorem useFree_flt (s : State) : (useFree s).flt = s.flt := rfl
@[simp] theorem useFree_boot (s : State) : (useFree s).boot = s.boot := rfl
@[simp] theorem useFree_pwr (s : State) : (useFree s).pwr = s.pwr := rfl
@[simp] theorem useFree_jtag (s : State) : (useFree s).jtag = s.jtag := rfl
@[simp] theorem useFree_pending (s : State) : (useFree s).pending = s.pending := rfl

-- `modCnd`
@[simp] theorem modCnd_now (s : State) (f : Cnd → Cnd) : (modCnd s f).now = s.now := rfl
@[simp] theorem modCnd_free (s : State) (f : Cnd → Cnd) : (modCnd s f).free = s.free := rfl
@[simp] theorem modCnd_regs (s : State) (f : Cnd → Cnd) : (modCnd s f).regs = s.regs := rfl
@[simp] theorem modCnd_staged (s : State) (f : Cnd → Cnd) : (modCnd s f).staged = s.staged := rfl
@[simp] theorem modCnd_ang (s : State) (f : Cnd → Cnd) : (modCnd s f).ang = s.ang := rfl
@[simp] theorem modCnd_frm (s : State) (f : Cnd → Cnd) : (modCnd s f).frm = s.frm := rfl
@[simp] theorem modCnd_hdg (s : State) (f : Cnd → Cnd) : (modCnd s f).hdg = s.hdg := rfl
@[simp] theorem modCnd_smp (s : State) (f : Cnd → Cnd) : (modCnd s f).smp = s.smp := rfl
@[simp] theorem modCnd_scb (s : State) (f : Cnd → Cnd) : (modCnd s f).scb = s.scb := rfl
@[simp] theorem modCnd_arr (s : State) (f : Cnd → Cnd) : (modCnd s f).arr = s.arr := rfl
@[simp] theorem modCnd_cnd (s : State) (f : Cnd → Cnd) : (modCnd s f).cnd = f s.cnd := rfl
@[simp] theorem modCnd_prt (s : State) (f : Cnd → Cnd) : (modCnd s f).prt = s.prt := rfl
@[simp] theorem modCnd_lnk (s : State) (f : Cnd → Cnd) : (modCnd s f).lnk = s.lnk := rfl
@[simp] theorem modCnd_grp (s : State) (f : Cnd → Cnd) : (modCnd s f).grp = s.grp := rfl
@[simp] theorem modCnd_trc (s : State) (f : Cnd → Cnd) : (modCnd s f).trc = s.trc := rfl
@[simp] theorem modCnd_flt (s : State) (f : Cnd → Cnd) : (modCnd s f).flt = s.flt := rfl
@[simp] theorem modCnd_boot (s : State) (f : Cnd → Cnd) : (modCnd s f).boot = s.boot := rfl
@[simp] theorem modCnd_pwr (s : State) (f : Cnd → Cnd) : (modCnd s f).pwr = s.pwr := rfl
@[simp] theorem modCnd_jtag (s : State) (f : Cnd → Cnd) : (modCnd s f).jtag = s.jtag := rfl
@[simp] theorem modCnd_pending (s : State) (f : Cnd → Cnd) : (modCnd s f).pending = s.pending := rfl

-- `wrMem`
@[simp] theorem wrMem_now (s : State) (a : Nat) (b : Byte) : (wrMem s a b).now = s.now := rfl
@[simp] theorem wrMem_free (s : State) (a : Nat) (b : Byte) : (wrMem s a b).free = s.free := rfl
@[simp] theorem wrMem_regs (s : State) (a : Nat) (b : Byte) : (wrMem s a b).regs = s.regs := rfl
@[simp] theorem wrMem_staged (s : State) (a : Nat) (b : Byte) : (wrMem s a b).staged = s.staged := rfl
@[simp] theorem wrMem_ang (s : State) (a : Nat) (b : Byte) : (wrMem s a b).ang = s.ang := rfl
@[simp] theorem wrMem_frm (s : State) (a : Nat) (b : Byte) : (wrMem s a b).frm = s.frm := rfl
@[simp] theorem wrMem_hdg (s : State) (a : Nat) (b : Byte) : (wrMem s a b).hdg = s.hdg := rfl
@[simp] theorem wrMem_smp (s : State) (a : Nat) (b : Byte) : (wrMem s a b).smp = s.smp := rfl
@[simp] theorem wrMem_scb (s : State) (a : Nat) (b : Byte) : (wrMem s a b).scb = s.scb := rfl
@[simp] theorem wrMem_arr (s : State) (a : Nat) (b : Byte) : (wrMem s a b).arr = s.arr := rfl
@[simp] theorem wrMem_cnd (s : State) (a : Nat) (b : Byte) : (wrMem s a b).cnd = { s.cnd with mem := tset 0 s.cnd.mem a b } := rfl
@[simp] theorem wrMem_prt (s : State) (a : Nat) (b : Byte) : (wrMem s a b).prt = s.prt := rfl
@[simp] theorem wrMem_lnk (s : State) (a : Nat) (b : Byte) : (wrMem s a b).lnk = s.lnk := rfl
@[simp] theorem wrMem_grp (s : State) (a : Nat) (b : Byte) : (wrMem s a b).grp = s.grp := rfl
@[simp] theorem wrMem_trc (s : State) (a : Nat) (b : Byte) : (wrMem s a b).trc = s.trc := rfl
@[simp] theorem wrMem_flt (s : State) (a : Nat) (b : Byte) : (wrMem s a b).flt = s.flt := rfl
@[simp] theorem wrMem_boot (s : State) (a : Nat) (b : Byte) : (wrMem s a b).boot = s.boot := rfl
@[simp] theorem wrMem_pwr (s : State) (a : Nat) (b : Byte) : (wrMem s a b).pwr = s.pwr := rfl
@[simp] theorem wrMem_jtag (s : State) (a : Nat) (b : Byte) : (wrMem s a b).jtag = s.jtag := rfl
@[simp] theorem wrMem_pending (s : State) (a : Nat) (b : Byte) : (wrMem s a b).pending = s.pending := rfl

-- `wrBytes`
@[simp] theorem wrBytes_now (s : State) (a : Nat) (bs : List Byte) : (wrBytes s a bs).now = s.now := rfl
@[simp] theorem wrBytes_free (s : State) (a : Nat) (bs : List Byte) : (wrBytes s a bs).free = s.free := rfl
@[simp] theorem wrBytes_regs (s : State) (a : Nat) (bs : List Byte) : (wrBytes s a bs).regs = s.regs := rfl
@[simp] theorem wrBytes_staged (s : State) (a : Nat) (bs : List Byte) : (wrBytes s a bs).staged = s.staged := rfl
@[simp] theorem wrBytes_ang (s : State) (a : Nat) (bs : List Byte) : (wrBytes s a bs).ang = s.ang := rfl
@[simp] theorem wrBytes_frm (s : State) (a : Nat) (bs : List Byte) : (wrBytes s a bs).frm = s.frm := rfl
@[simp] theorem wrBytes_hdg (s : State) (a : Nat) (bs : List Byte) : (wrBytes s a bs).hdg = s.hdg := rfl
@[simp] theorem wrBytes_smp (s : State) (a : Nat) (bs : List Byte) : (wrBytes s a bs).smp = s.smp := rfl
@[simp] theorem wrBytes_scb (s : State) (a : Nat) (bs : List Byte) : (wrBytes s a bs).scb = s.scb := rfl
@[simp] theorem wrBytes_arr (s : State) (a : Nat) (bs : List Byte) : (wrBytes s a bs).arr = s.arr := rfl
@[simp] theorem wrBytes_cnd (s : State) (a : Nat) (bs : List Byte) : (wrBytes s a bs).cnd = { s.cnd with mem := tsets 0 s.cnd.mem a bs } := rfl
@[simp] theorem wrBytes_prt (s : State) (a : Nat) (bs : List Byte) : (wrBytes s a bs).prt = s.prt := rfl
@[simp] theorem wrBytes_lnk (s : State) (a : Nat) (bs : List Byte) : (wrBytes s a bs).lnk = s.lnk := rfl
@[simp] theorem wrBytes_grp (s : State) (a : Nat) (bs : List Byte) : (wrBytes s a bs).grp = s.grp := rfl
@[simp] theorem wrBytes_trc (s : State) (a : Nat) (bs : List Byte) : (wrBytes s a bs).trc = s.trc := rfl
@[simp] theorem wrBytes_flt (s : State) (a : Nat) (bs : List Byte) : (wrBytes s a bs).flt = s.flt := rfl
@[simp] theorem wrBytes_boot (s : State) (a : Nat) (bs : List Byte) : (wrBytes s a bs).boot = s.boot := rfl
@[simp] theorem wrBytes_pwr (s : State) (a : Nat) (bs : List Byte) : (wrBytes s a bs).pwr = s.pwr := rfl
@[simp] theorem wrBytes_jtag (s : State) (a : Nat) (bs : List Byte) : (wrBytes s a bs).jtag = s.jtag := rfl
@[simp] theorem wrBytes_pending (s : State) (a : Nat) (bs : List Byte) : (wrBytes s a bs).pending = s.pending := rfl

-- `setAng`
@[simp] theorem setAng_now (s : State) (a : Ang) : (setAng s a).now = s.now := rfl
@[simp] theorem setAng_free (s : State) (a : Ang) : (setAng s a).free = s.free := rfl
@[simp] theorem setAng_regs (s : State) (a : Ang) : (setAng s a).regs = s.regs := rfl
@[simp] theorem setAng_staged (s : State) (a : Ang) : (setAng s a).staged = s.staged := rfl
@[simp] theorem setAng_ang (s : State) (a : Ang) : (setAng s a).ang = a := rfl
@[simp] theorem setAng_frm (s : State) (a : Ang) : (setAng s a).frm = s.frm := rfl
@[simp] theorem setAng_hdg (s : State) (a : Ang) : (setAng s a).hdg = s.hdg := rfl
@[simp] theorem setAng_smp (s : State) (a : Ang) : (setAng s a).smp = s.smp := rfl
@[simp] theorem setAng_scb (s : State) (a : Ang) : (setAng s a).scb = s.scb := rfl
@[simp] theorem setAng_arr (s : State) (a : Ang) : (setAng s a).arr = s.arr := rfl
@[simp] theorem setAng_cnd (s : State) (a : Ang) : (setAng s a).cnd = s.cnd := rfl
@[simp] theorem setAng_prt (s : State) (a : Ang) : (setAng s a).prt = s.prt := rfl
@[simp] theorem setAng_lnk (s : State) (a : Ang) : (setAng s a).lnk = s.lnk := rfl
@[simp] theorem setAng_grp (s : State) (a : Ang) : (setAng s a).grp = s.grp := rfl
@[simp] theorem setAng_trc (s : State) (a : Ang) : (setAng s a).trc = s.trc := rfl
@[simp] theorem setAng_flt (s : State) (a : Ang) : (setAng s a).flt = s.flt := rfl
@[simp] theorem setAng_boot (s : State) (a : Ang) : (setAng s a).boot = s.boot := rfl
@[simp] theorem setAng_pwr (s : State) (a : Ang) : (setAng s a).pwr = s.pwr := rfl
@[simp] theorem setAng_jtag (s : State) (a : Ang) : (setAng s a).jtag = s.jtag := rfl
@[simp] theorem setAng_pending (s : State) (a : Ang) : (setAng s a).pending = s.pending := rfl

-- `setProg`
@[simp] theorem setProg_now (s : State) (k : Nat) (p : Prog) : (setProg s k p).now = s.now := rfl
@[simp] theorem setProg_free (s : State) (k : Nat) (p : Prog) : (setProg s k p).free = s.free := rfl
@[simp] theorem setProg_regs (s : State) (k : Nat) (p : Prog) : (setProg s k p).regs = s.regs := rfl
@[simp] theorem setProg_staged (s : State) (k : Nat) (p : Prog) : (setProg s k p).staged = s.staged := rfl
@[simp] theorem setProg_ang (s : State) (k : Nat) (p : Prog) : (setProg s k p).ang = s.ang := rfl
@[simp] theorem setProg_frm (s : State) (k : Nat) (p : Prog) : (setProg s k p).frm = { s.frm with progs := tput s.frm.progs k p } := rfl
@[simp] theorem setProg_hdg (s : State) (k : Nat) (p : Prog) : (setProg s k p).hdg = s.hdg := rfl
@[simp] theorem setProg_smp (s : State) (k : Nat) (p : Prog) : (setProg s k p).smp = s.smp := rfl
@[simp] theorem setProg_scb (s : State) (k : Nat) (p : Prog) : (setProg s k p).scb = s.scb := rfl
@[simp] theorem setProg_arr (s : State) (k : Nat) (p : Prog) : (setProg s k p).arr = s.arr := rfl
@[simp] theorem setProg_cnd (s : State) (k : Nat) (p : Prog) : (setProg s k p).cnd = s.cnd := rfl
@[simp] theorem setProg_prt (s : State) (k : Nat) (p : Prog) : (setProg s k p).prt = s.prt := rfl
@[simp] theorem setProg_lnk (s : State) (k : Nat) (p : Prog) : (setProg s k p).lnk = s.lnk := rfl
@[simp] theorem setProg_grp (s : State) (k : Nat) (p : Prog) : (setProg s k p).grp = s.grp := rfl
@[simp] theorem setProg_trc (s : State) (k : Nat) (p : Prog) : (setProg s k p).trc = s.trc := rfl
@[simp] theorem setProg_flt (s : State) (k : Nat) (p : Prog) : (setProg s k p).flt = s.flt := rfl
@[simp] theorem setProg_boot (s : State) (k : Nat) (p : Prog) : (setProg s k p).boot = s.boot := rfl
@[simp] theorem setProg_pwr (s : State) (k : Nat) (p : Prog) : (setProg s k p).pwr = s.pwr := rfl
@[simp] theorem setProg_jtag (s : State) (k : Nat) (p : Prog) : (setProg s k p).jtag = s.jtag := rfl
@[simp] theorem setProg_pending (s : State) (k : Nat) (p : Prog) : (setProg s k p).pending = s.pending := rfl

-- `setCell`
@[simp] theorem setCell_now (s : State) (c : Nat) (x : Cell) : (setCell s c x).now = s.now := rfl
@[simp] theorem setCell_free (s : State) (c : Nat) (x : Cell) : (setCell s c x).free = s.free := rfl
@[simp] theorem setCell_regs (s : State) (c : Nat) (x : Cell) : (setCell s c x).regs = s.regs := rfl
@[simp] theorem setCell_staged (s : State) (c : Nat) (x : Cell) : (setCell s c x).staged = s.staged := rfl
@[simp] theorem setCell_ang (s : State) (c : Nat) (x : Cell) : (setCell s c x).ang = s.ang := rfl
@[simp] theorem setCell_frm (s : State) (c : Nat) (x : Cell) : (setCell s c x).frm = s.frm := rfl
@[simp] theorem setCell_hdg (s : State) (c : Nat) (x : Cell) : (setCell s c x).hdg = { s.hdg with cells := tput s.hdg.cells c x } := rfl
@[simp] theorem setCell_smp (s : State) (c : Nat) (x : Cell) : (setCell s c x).smp = s.smp := rfl
@[simp] theorem setCell_scb (s : State) (c : Nat) (x : Cell) : (setCell s c x).scb = s.scb := rfl
@[simp] theorem setCell_arr (s : State) (c : Nat) (x : Cell) : (setCell s c x).arr = s.arr := rfl
@[simp] theorem setCell_cnd (s : State) (c : Nat) (x : Cell) : (setCell s c x).cnd = s.cnd := rfl
@[simp] theorem setCell_prt (s : State) (c : Nat) (x : Cell) : (setCell s c x).prt = s.prt := rfl
@[simp] theorem setCell_lnk (s : State) (c : Nat) (x : Cell) : (setCell s c x).lnk = s.lnk := rfl
@[simp] theorem setCell_grp (s : State) (c : Nat) (x : Cell) : (setCell s c x).grp = s.grp := rfl
@[simp] theorem setCell_trc (s : State) (c : Nat) (x : Cell) : (setCell s c x).trc = s.trc := rfl
@[simp] theorem setCell_flt (s : State) (c : Nat) (x : Cell) : (setCell s c x).flt = s.flt := rfl
@[simp] theorem setCell_boot (s : State) (c : Nat) (x : Cell) : (setCell s c x).boot = s.boot := rfl
@[simp] theorem setCell_pwr (s : State) (c : Nat) (x : Cell) : (setCell s c x).pwr = s.pwr := rfl
@[simp] theorem setCell_jtag (s : State) (c : Nat) (x : Cell) : (setCell s c x).jtag = s.jtag := rfl
@[simp] theorem setCell_pending (s : State) (c : Nat) (x : Cell) : (setCell s c x).pending = s.pending := rfl

-- `setPort`
@[simp] theorem setPort_now (s : State) (n : Nat) (x : Serial) : (setPort s n x).now = s.now := rfl
@[simp] theorem setPort_free (s : State) (n : Nat) (x : Serial) : (setPort s n x).free = s.free := rfl
@[simp] theorem setPort_regs (s : State) (n : Nat) (x : Serial) : (setPort s n x).regs = s.regs := rfl
@[simp] theorem setPort_staged (s : State) (n : Nat) (x : Serial) : (setPort s n x).staged = s.staged := rfl
@[simp] theorem setPort_ang (s : State) (n : Nat) (x : Serial) : (setPort s n x).ang = s.ang := rfl
@[simp] theorem setPort_frm (s : State) (n : Nat) (x : Serial) : (setPort s n x).frm = s.frm := rfl
@[simp] theorem setPort_hdg (s : State) (n : Nat) (x : Serial) : (setPort s n x).hdg = { s.hdg with ports := tput s.hdg.ports n x } := rfl
@[simp] theorem setPort_smp (s : State) (n : Nat) (x : Serial) : (setPort s n x).smp = s.smp := rfl
@[simp] theorem setPort_scb (s : State) (n : Nat) (x : Serial) : (setPort s n x).scb = s.scb := rfl
@[simp] theorem setPort_arr (s : State) (n : Nat) (x : Serial) : (setPort s n x).arr = s.arr := rfl
@[simp] theorem setPort_cnd (s : State) (n : Nat) (x : Serial) : (setPort s n x).cnd = s.cnd := rfl
@[simp] theorem setPort_prt (s : State) (n : Nat) (x : Serial) : (setPort s n x).prt = s.prt := rfl
@[simp] theorem setPort_lnk (s : State) (n : Nat) (x : Serial) : (setPort s n x).lnk = s.lnk := rfl
@[simp] theorem setPort_grp (s : State) (n : Nat) (x : Serial) : (setPort s n x).grp = s.grp := rfl
@[simp] theorem setPort_trc (s : State) (n : Nat) (x : Serial) : (setPort s n x).trc = s.trc := rfl
@[simp] theorem setPort_flt (s : State) (n : Nat) (x : Serial) : (setPort s n x).flt = s.flt := rfl
@[simp] theorem setPort_boot (s : State) (n : Nat) (x : Serial) : (setPort s n x).boot = s.boot := rfl
@[simp] theorem setPort_pwr (s : State) (n : Nat) (x : Serial) : (setPort s n x).pwr = s.pwr := rfl
@[simp] theorem setPort_jtag (s : State) (n : Nat) (x : Serial) : (setPort s n x).jtag = s.jtag := rfl
@[simp] theorem setPort_pending (s : State) (n : Nat) (x : Serial) : (setPort s n x).pending = s.pending := rfl

-- `setLane`
@[simp] theorem setLane_now (s : State) (n : Nat) (x : Lane) : (setLane s n x).now = s.now := rfl
@[simp] theorem setLane_free (s : State) (n : Nat) (x : Lane) : (setLane s n x).free = s.free := rfl
@[simp] theorem setLane_regs (s : State) (n : Nat) (x : Lane) : (setLane s n x).regs = s.regs := rfl
@[simp] theorem setLane_staged (s : State) (n : Nat) (x : Lane) : (setLane s n x).staged = s.staged := rfl
@[simp] theorem setLane_ang (s : State) (n : Nat) (x : Lane) : (setLane s n x).ang = s.ang := rfl
@[simp] theorem setLane_frm (s : State) (n : Nat) (x : Lane) : (setLane s n x).frm = s.frm := rfl
@[simp] theorem setLane_hdg (s : State) (n : Nat) (x : Lane) : (setLane s n x).hdg = s.hdg := rfl
@[simp] theorem setLane_smp (s : State) (n : Nat) (x : Lane) : (setLane s n x).smp = { s.smp with lanes := tput s.smp.lanes n x } := rfl
@[simp] theorem setLane_scb (s : State) (n : Nat) (x : Lane) : (setLane s n x).scb = s.scb := rfl
@[simp] theorem setLane_arr (s : State) (n : Nat) (x : Lane) : (setLane s n x).arr = s.arr := rfl
@[simp] theorem setLane_cnd (s : State) (n : Nat) (x : Lane) : (setLane s n x).cnd = s.cnd := rfl
@[simp] theorem setLane_prt (s : State) (n : Nat) (x : Lane) : (setLane s n x).prt = s.prt := rfl
@[simp] theorem setLane_lnk (s : State) (n : Nat) (x : Lane) : (setLane s n x).lnk = s.lnk := rfl
@[simp] theorem setLane_grp (s : State) (n : Nat) (x : Lane) : (setLane s n x).grp = s.grp := rfl
@[simp] theorem setLane_trc (s : State) (n : Nat) (x : Lane) : (setLane s n x).trc = s.trc := rfl
@[simp] theorem setLane_flt (s : State) (n : Nat) (x : Lane) : (setLane s n x).flt = s.flt := rfl
@[simp] theorem setLane_boot (s : State) (n : Nat) (x : Lane) : (setLane s n x).boot = s.boot := rfl
@[simp] theorem setLane_pwr (s : State) (n : Nat) (x : Lane) : (setLane s n x).pwr = s.pwr := rfl
@[simp] theorem setLane_jtag (s : State) (n : Nat) (x : Lane) : (setLane s n x).jtag = s.jtag := rfl
@[simp] theorem setLane_pending (s : State) (n : Nat) (x : Lane) : (setLane s n x).pending = s.pending := rfl

-- `setGport`
@[simp] theorem setGport_now (s : State) (p : Nat) (x : Port) : (setGport s p x).now = s.now := rfl
@[simp] theorem setGport_free (s : State) (p : Nat) (x : Port) : (setGport s p x).free = s.free := rfl
@[simp] theorem setGport_regs (s : State) (p : Nat) (x : Port) : (setGport s p x).regs = s.regs := rfl
@[simp] theorem setGport_staged (s : State) (p : Nat) (x : Port) : (setGport s p x).staged = s.staged := rfl
@[simp] theorem setGport_ang (s : State) (p : Nat) (x : Port) : (setGport s p x).ang = s.ang := rfl
@[simp] theorem setGport_frm (s : State) (p : Nat) (x : Port) : (setGport s p x).frm = s.frm := rfl
@[simp] theorem setGport_hdg (s : State) (p : Nat) (x : Port) : (setGport s p x).hdg = s.hdg := rfl
@[simp] theorem setGport_smp (s : State) (p : Nat) (x : Port) : (setGport s p x).smp = s.smp := rfl
@[simp] theorem setGport_scb (s : State) (p : Nat) (x : Port) : (setGport s p x).scb = s.scb := rfl
@[simp] theorem setGport_arr (s : State) (p : Nat) (x : Port) : (setGport s p x).arr = s.arr := rfl
@[simp] theorem setGport_cnd (s : State) (p : Nat) (x : Port) : (setGport s p x).cnd = s.cnd := rfl
@[simp] theorem setGport_prt (s : State) (p : Nat) (x : Port) : (setGport s p x).prt = s.prt := rfl
@[simp] theorem setGport_lnk (s : State) (p : Nat) (x : Port) : (setGport s p x).lnk = s.lnk := rfl
@[simp] theorem setGport_grp (s : State) (p : Nat) (x : Port) : (setGport s p x).grp = { s.grp with ports := tput s.grp.ports p x } := rfl
@[simp] theorem setGport_trc (s : State) (p : Nat) (x : Port) : (setGport s p x).trc = s.trc := rfl
@[simp] theorem setGport_flt (s : State) (p : Nat) (x : Port) : (setGport s p x).flt = s.flt := rfl
@[simp] theorem setGport_boot (s : State) (p : Nat) (x : Port) : (setGport s p x).boot = s.boot := rfl
@[simp] theorem setGport_pwr (s : State) (p : Nat) (x : Port) : (setGport s p x).pwr = s.pwr := rfl
@[simp] theorem setGport_jtag (s : State) (p : Nat) (x : Port) : (setGport s p x).jtag = s.jtag := rfl
@[simp] theorem setGport_pending (s : State) (p : Nat) (x : Port) : (setGport s p x).pending = s.pending := rfl

-- `setTrc`
@[simp] theorem setTrc_now (s : State) (p : Nat) (x : TrcP) : (setTrc s p x).now = s.now := rfl
@[simp] theorem setTrc_free (s : State) (p : Nat) (x : TrcP) : (setTrc s p x).free = s.free := rfl
@[simp] theorem setTrc_regs (s : State) (p : Nat) (x : TrcP) : (setTrc s p x).regs = s.regs := rfl
@[simp] theorem setTrc_staged (s : State) (p : Nat) (x : TrcP) : (setTrc s p x).staged = s.staged := rfl
@[simp] theorem setTrc_ang (s : State) (p : Nat) (x : TrcP) : (setTrc s p x).ang = s.ang := rfl
@[simp] theorem setTrc_frm (s : State) (p : Nat) (x : TrcP) : (setTrc s p x).frm = s.frm := rfl
@[simp] theorem setTrc_hdg (s : State) (p : Nat) (x : TrcP) : (setTrc s p x).hdg = s.hdg := rfl
@[simp] theorem setTrc_smp (s : State) (p : Nat) (x : TrcP) : (setTrc s p x).smp = s.smp := rfl
@[simp] theorem setTrc_scb (s : State) (p : Nat) (x : TrcP) : (setTrc s p x).scb = s.scb := rfl
@[simp] theorem setTrc_arr (s : State) (p : Nat) (x : TrcP) : (setTrc s p x).arr = s.arr := rfl
@[simp] theorem setTrc_cnd (s : State) (p : Nat) (x : TrcP) : (setTrc s p x).cnd = s.cnd := rfl
@[simp] theorem setTrc_prt (s : State) (p : Nat) (x : TrcP) : (setTrc s p x).prt = s.prt := rfl
@[simp] theorem setTrc_lnk (s : State) (p : Nat) (x : TrcP) : (setTrc s p x).lnk = s.lnk := rfl
@[simp] theorem setTrc_grp (s : State) (p : Nat) (x : TrcP) : (setTrc s p x).grp = s.grp := rfl
@[simp] theorem setTrc_trc (s : State) (p : Nat) (x : TrcP) : (setTrc s p x).trc = { s.trc with parts := tput s.trc.parts p x } := rfl
@[simp] theorem setTrc_flt (s : State) (p : Nat) (x : TrcP) : (setTrc s p x).flt = s.flt := rfl
@[simp] theorem setTrc_boot (s : State) (p : Nat) (x : TrcP) : (setTrc s p x).boot = s.boot := rfl
@[simp] theorem setTrc_pwr (s : State) (p : Nat) (x : TrcP) : (setTrc s p x).pwr = s.pwr := rfl
@[simp] theorem setTrc_jtag (s : State) (p : Nat) (x : TrcP) : (setTrc s p x).jtag = s.jtag := rfl
@[simp] theorem setTrc_pending (s : State) (p : Nat) (x : TrcP) : (setTrc s p x).pending = s.pending := rfl

end Sys2Proof.Machine
end

