-- ==== Sys2Proof/Laws/Ops.lean ====
section
/-! SUPPORT. What the shared operations can do: a read after a write, and for every operation the parts of the state that it leaves
alone. -/

namespace Sys2Proof.Machine

open Sys2Proof

-- one proof at a time: the whole package is checked as one text
set_option Elab.async false

/-! The register bank. -/

theorem rd_wr_self {s : State} {a : Nat} (v : Word) (w : twf 0 s.regs = true) : rd (wr s a v) a = v := tget_tset_self 0 v w

theorem rd_wr_ne (s : State) {a b : Nat} (v : Word) (h : a ≠ b) : rd (wr s a v) b = rd s b := tget_tset_ne 0 s.regs v h

theorem rd_orReg_ne (s : State) {a b : Nat} (v : Word) (h : a ≠ b) : rd (orReg s a v) b = rd s b := rd_wr_ne s _ h

theorem rd_clrReg_ne (s : State) {a b : Nat} (v : Word) (h : a ≠ b) : rd (clrReg s a v) b = rd s b := rd_wr_ne s _ h

theorem rd_setFlag_ne (s : State) {a b : Nat} (n : Nat) (h : a ≠ b) : rd (setFlag s a n) b = rd s b := rd_wr_ne s _ h

theorem rd_setFlag_self {s : State} {a : Nat} (n : Nat) (w : twf 0 s.regs = true) : rd (setFlag s a n) a = rd s a ||| place 1 n :=
  rd_wr_self _ w

theorem rd_satReg_ne (s : State) {a b : Nat} (n : Nat) (h : a ≠ b) : rd (satReg s a n) b = rd s b := rd_wr_ne s _ h

/-- An operation that changes registers in force, and nothing else. -/
def OnlyRegs (s t : State) : Prop := { t with regs := s.regs } = s

theorem wr_onlyRegs (s : State) (a : Nat) (v : Word) : OnlyRegs s (wr s a v) := rfl

theorem setFlag_onlyRegs (s : State) (a n : Nat) : OnlyRegs s (setFlag s a n) := rfl

theorem noteFirst_onlyRegs (s : State) (n : Nat) : OnlyRegs s (noteFirst s n) := by
  unfold noteFirst
  split <;> rfl

theorem rd_noteFirst_ne (s : State) (n : Nat) {b : Nat} (h : b ≠ 0x0E10) : rd (noteFirst s n) b = rd s b := by
  unfold noteFirst
  split
  · exact rd_wr_ne s _ h.symm
  · rfl

/-! The fault log's queue and the sticky faults: they change the log, LOG_SUPPR, LOG_DROP, the two sticky registers, FLT_FIRST and the
conductor's pending interrupts. -/

/-- An operation that changes the log's state and two of its registers, and nothing else. -/
structure OnlyLog (s t : State) : Prop where
  others : { t with flt := s.flt, regs := s.regs } = s
  regs r : r ≠ 0x0F0C → r ≠ 0x0F10 → rd t r = rd s r

theorem OnlyLog.ofFlt {s t : State} {x : Flt} (h : OnlyLog { s with flt := x } t) : OnlyLog s t :=
  ⟨congrArg (fun y : State => { y with flt := s.flt }) h.others, h.regs⟩

theorem ringPut_onlyLog (s : State) (r : LogRec) : OnlyLog s (ringPut s r) := by
  unfold ringPut
  split
  · exact ⟨rfl, fun _ _ _ => rfl⟩
  · split
    · exact ⟨rfl, fun _ _ _ => rfl⟩
    · exact ⟨rfl, fun _ _ h => rd_satReg_ne s 1 h.symm⟩

theorem hourPut_onlyLog (s : State) (r : LogRec) : OnlyLog s (hourPut s r) := by
  unfold hourPut
  split
  · exact (ringPut_onlyLog _ r).ofFlt
  · exact ⟨rfl, fun _ h _ => rd_satReg_ne _ 1 h.symm⟩

theorem logPut_onlyLog (s : State) (code : Nat) (data : List Byte) : OnlyLog s (logPut s code data) := by
  unfold logPut
  repeat' split
  · exact ringPut_onlyLog s _
  · exact ⟨rfl, fun _ _ _ => rfl⟩
  · exact (hourPut_onlyLog _ _).ofFlt
  · exact (hourPut_onlyLog _ _).ofFlt

/-- The registers that a sticky fault can change. -/
def faultRegs : List Nat := [0x0E00, 0x0E04, 0x0E10, 0x0F0C, 0x0F10]

/-- An operation that raises a fault: the log, the conductor's pending interrupts and these registers change. -/
structure OnlyFault (s t : State) : Prop where
  others : { t with flt := s.flt, regs := s.regs, cnd := s.cnd } = s
  cnd : { t.cnd with ipend := s.cnd.ipend } = s.cnd
  regs r : r ∉ faultRegs → rd t r = rd s r

theorem onlyFault_of {s u t : State} (hu : { u with regs := s.regs, cnd := s.cnd } = s) (hc : { u.cnd with ipend := s.cnd.ipend } = s.cnd)
    (hr : ∀ r, r ∉ faultRegs → rd u r = rd s r) (h : OnlyLog u t) : OnlyFault s t where
  others := (congrArg (fun y : State => { y with flt := s.flt, regs := s.regs, cnd := s.cnd }) h.others).trans
    (congrArg (fun y : State => { y with flt := s.flt }) hu)
  cnd := by
    have e : t.cnd = u.cnd := (congrArg State.cnd h.others : ({ t with flt := u.flt, regs := u.regs } : State).cnd = u.cnd)
    rw [e]
    exact hc
  regs r hr' := (h.regs r (fun e => hr' (by rw [e]; decide)) (fun e => hr' (by rw [e]; decide))).trans (hr r hr')

theorem sticky0_onlyFault (s : State) (n : Nat) (data : List Byte) : OnlyFault s (sticky0 s n data) := by
  refine onlyFault_of (u := raiseInt (setFlag (noteFirst s n) 0x0E00 n) 22) ?_ ?_ (fun r hr => ?_) (logPut_onlyLog _ _ _)
  · unfold noteFirst
    split <;> rfl
  · unfold noteFirst
    split <;> rfl
  · show rd (setFlag (noteFirst s n) 0x0E00 n) r = rd s r
    rw [rd_setFlag_ne _ _ (fun e => hr (by rw [← e]; decide)), rd_noteFirst_ne s n (fun e => hr (by rw [e]; decide))]

theorem sticky1_onlyFault (s : State) (n : Nat) (data : List Byte) : OnlyFault s (sticky1 s n data) := by
  refine onlyFault_of (u := raiseInt (setFlag (noteFirst s (32 + n)) 0x0E04 n) 22) ?_ ?_ (fun r hr => ?_) (logPut_onlyLog _ _ _)
  · unfold noteFirst
    split <;> rfl
  · unfold noteFirst
    split <;> rfl
  · show rd (setFlag (noteFirst s (32 + n)) 0x0E04 n) r = rd s r
    rw [rd_setFlag_ne _ _ (fun e => hr (by rw [← e]; decide)), rd_noteFirst_ne s _ (fun e => hr (by rw [e]; decide))]

theorem reservedField_onlyFault (s : State) (at_ kind : Nat) : OnlyFault s (reservedField s at_ kind) := sticky0_onlyFault s 0 _

/-! Conductor memory. -/

theorem rdMem_wrMem_self {s : State} {a : Nat} (b : Byte) (w : Memory.wf 0 s.cnd.mem = true) : rdMem (wrMem s a b) a = b :=
  tget_tset_self 0 b w

theorem rdMem_wrMem_ne (s : State) {a c : Nat} (b : Byte) (h : a ≠ c) : rdMem (wrMem s a b) c = rdMem s c :=
  tget_tset_ne 0 s.cnd.mem b h

theorem rdMem_wrBytes_out (s : State) {a c : Nat} (bs : List Byte) (h : c < a ∨ a + bs.length ≤ c) :
    rdMem (wrBytes s a bs) c = rdMem s c := tget_tsets_out 0 s.cnd.mem a bs h

theorem rdMem_fillMem_out (s : State) {a c : Nat} (bs : List Byte) (h : c < a ∨ a + bs.length ≤ c) :
    rdMem (fillMem s a bs) c = rdMem s c := tget_tsets_out 0 s.cnd.mem a bs h

theorem wrMem_wf {s : State} (a : Nat) (b : Byte) (w : Memory.wf 0 s.cnd.mem = true) : Memory.wf 0 (wrMem s a b).cnd.mem = true :=
  twf_tset 0 a b w

theorem wrBytes_wf {s : State} (a : Nat) (bs : List Byte) (w : Memory.wf 0 s.cnd.mem = true) :
    Memory.wf 0 (wrBytes s a bs).cnd.mem = true := twf_tsets 0 a bs w

theorem fillMem_wf {s : State} (a : Nat) (bs : List Byte) (w : Memory.wf 0 s.cnd.mem = true) :
    Memory.wf 0 (fillMem s a bs).cnd.mem = true := twf_tsets 0 a bs w

/-! The tables of units: a read after a replacement. -/

theorem prog_setProg (s : State) (k j : Nat) (p : Prog) : prog (setProg s k p) j = if k = j then p else prog s j :=
  tget_tput _ s.frm.progs k j p

theorem cell_setCell (s : State) (c j : Nat) (x : Cell) : cell (setCell s c x) j = if c = j then x else cell s j :=
  tget_tput _ s.hdg.cells c j x

theorem port_setPort (s : State) (n j : Nat) (x : Serial) : port (setPort s n x) j = if n = j then x else port s j :=
  tget_tput _ s.hdg.ports n j x

theorem lane_setLane (s : State) (n j : Nat) (x : Lane) : lane (setLane s n x) j = if n = j then x else lane s j :=
  tget_tput _ s.smp.lanes n j x

theorem gport_setGport (s : State) (p j : Nat) (x : Port) : gport (setGport s p x) j = if p = j then x else gport s j :=
  tget_tput _ s.grp.ports p j x

theorem trc_setTrc (s : State) (p j : Nat) (x : TrcP) : trc (setTrc s p x) j = if p = j then x else trc s j :=
  tget_tput _ s.trc.parts p j x

end Sys2Proof.Machine
end

