-- ==== Sys2Proof/WellFormed.lean ====
section
/-! DEFINITION. The commands that the outside world, or the device itself, can give: bounds on the operands that their types do
not hold. -/

namespace Sys2Proof

/-- Ones that the other members of a group add to a count at most: three arrays of 16,384 PEs (R211, R534). -/
def otherOnes : Nat := 49152

/-- Temperatures that the sensor covers, −40 to +125 °C, in units of 0.25 °C (R700). -/
def sensorRange (t : Int) : Bool := decide (-160 ≤ t) && decide (t ≤ 500)

/-- A checkpoint block has 128 bytes (R560). -/
def ckptWf : Machine.CkptItem → Bool
  | .block _ d => decide (d.length = 128)
  | .control _ => true
  | .commit _ _ _ _ => true

/-- The command is well formed: reduction counts within the array (R211), I2C writes within the mailbox window (R442), a read of
at least one byte (R444), a word of the return record (R627), boot within 120 ms (R638), the sensor's range (R700), training
information of a peer (R542), a link frame within its payload (R538), an angle within a frame (R9), a checkpoint block (R560), a
step of time, a log code (R610). -/
def Instr.wf (i : Instr) : Bool :=
  match i with
  | .macroTally others => decide (others ≤ otherOnes)
  | .macroSumw others => others.all (fun n => decide (n ≤ otherOnes))
  | .uwPeop _ _ tally => decide (tally ≤ otherOnes)
  | .mailboxCmdWrite off data _ => decide (data ≠ []) && decide (off.val + data.length ≤ 64)
  | .mailboxGo data _ => decide (data ≠ [])
  | .mailboxRelease data _ => decide (data ≠ [])
  | .i2cReadTransfer _ n => decide (1 ≤ n)
  | .returnCaptureComplete bad => bad.all (fun w => decide (w < 4096))
  | .boot _ _ ms _ _ _ => decide (ms ≤ 120)
  | .thermalSample t => sensorRange t
  | .thermalRelease t => sensorRange t
  | .logRateSecond code => decide (code < 65536)
  | .linkTrainingComplete _ infos _ => decide (infos ≠ [])
  | .macroFrame _ _ _ words _ => decide (words.length ≤ 33)
  | .angleFrame _ _ phase _ rateD _ => decide (phase ≤ 1048576) && decide (0 < rateD)
  | .ckptBlock _ _ item => ckptWf item
  | .angleWordAdvance dt => decide (0 < dt)
  | .qeiCount _ | .tachPulse | .lineCrossing _ | .lineCrossingTimeout | .zPulse | .timerLock | .edgeTimeout
  | .coastBudgetSpent | .stallTimeout | .frameBoundary | .idleBoundary | .angleEventFire | .pacerStrobe | .programStart
  | .drainEnd _ | .frameReplyPost _ | .heldReplyMove _ | .dozeEntry | .standbyEntry _ _ | .standbyExitComplete
  | .supplyWaitTimeout | .cellNop _ _ _ | .cellMov _ _ _ | .cellAdd _ _ _ | .cellAdc _ _ _ | .cellSub _ _ _ | .cellSbc _ _ _
  | .cellAnd _ _ _ | .cellOr _ _ _ | .cellXor _ _ _ | .cellShl _ _ _ | .cellShr _ _ _ | .cellSar _ _ _ | .cellMull _ _ _
  | .cellMulh _ _ _ | .cellCmplt _ _ _ | .cellCmpeq _ _ _ | .cellCmpltu _ _ _ | .cellSat _ _ _ | .cellOutl _ _ _
  | .cellSpx _ _ _ | .cellSpr _ _ _ | .cellFlr _ _ _ | .cellBtst _ _ _ | .serialTransferDone _ _ _ | .swapHoldEnd
  | .ingestRecordWrite _ | .bankSupplyFall _ | .bankSupplyRise _ | .bankOutputEnable _ | .fabricLoadComplete | .hdgCapArm _
  | .hdgCapDiscard _ | .captureRecord | .correctorUe _ _ _ | .scrubPassStart | .scrubIdleRefresh | .scrubFrameCheck
  | .scrubPassEnd | .flashRepairDone _ | .memorySweep | .macroNop | .macroSetp | .macroAddp | .macroSetrm | .macroClrf
  | .macroMall | .macroMld | .macroMand | .macroMor | .macroMnot | .macroMsto | .macroMft | .macroTld | .macroTsto
  | .macroMov | .macroLogic | .macroSel | .macroFill | .macroFillk | .macroBsh | .macroExt | .macroAdd | .macroSub
  | .macroAddk | .macroSubk | .macroNeg | .macroAddsat | .macroSubsat | .macroAbs | .macroCmp | .macroCmpk | .macroMinmax
  | .macroMulu | .macroMuls | .macroMulq | .macroDivu | .macroNshf _ | .macroAny _ | .macroExtr _ _ | .macroLdt | .macroStt
  | .macroLds | .macroSts | .macroFadd32 | .macroFmul32 | .macroFma32 | .macroFcmp32 | .macroFcvt32f | .macroFcvtf32
  | .macroFadd64 | .macroFmul64 | .macroFma64 | .macroFcmp64 | .macroFcvt64f | .macroFcvtf64 | .macroFcvt3264
  | .macroFcvt6432 | .userOpcode | .uwNop | .uwJmp | .uwBr | .uwLoop | .uwLend | .uwCall | .uwRet | .uwCommit | .uwEnd
  | .uwMovv | .uwVopAddi | .uwAddl | .uwSubl | .uwSeti | .uwLdpp | .uwWait | .uwWaitEnd | .uwWaitTimeout | .uwXfer _ _ _
  | .sequencerFault | .topiaryVerifyComplete | .cAdd _ _ _ | .cSub _ _ _ | .cAnd _ _ _ | .cOr _ _ _ | .cXor _ _ _
  | .cAndn _ _ _ | .cSll _ _ _ | .cSrl _ _ _ | .cSra _ _ _ | .cRor _ _ _ | .cSeq _ _ _ | .cSne _ _ _ | .cSlt _ _ _
  | .cSltu _ _ _ | .cSle _ _ _ | .cSleu _ _ _ | .cMin _ _ _ | .cMax _ _ _ | .cMinu _ _ _ | .cMaxu _ _ _ | .cMov _ _
  | .cNot _ _ | .cNeg _ _ | .cMovnz _ _ _ | .cMovz _ _ _ | .cClz _ _ | .cPopc _ _ | .cSextb _ _ | .cSexth _ _ | .cZexth _ _
  | .cAddi _ _ _ | .cAndi _ _ _ | .cOri _ _ _ | .cXori _ _ _ | .cSlti _ _ _ | .cSltiu _ _ _ | .cSeqi _ _ _ | .cSnei _ _ _
  | .cMovhi _ _ | .cMovi _ _ | .cShi _ _ _ _ | .cAdda _ _ _ | .cSuba _ _ _ | .cMova _ _ | .cMovad _ _ | .cMovaa _ _
  | .cLeax _ _ _ _ | .cAddai _ _ _ | .cMulS _ _ _ | .cMulU _ _ _ | .cMullo _ _ _ | .cDivS _ _ _ | .cDivU _ _ _
  | .cKmacS _ _ _ | .cKmacU _ _ _ | .cKmsbS _ _ _ | .cKmsbU _ _ _ | .cKclr _ | .cKwr _ _ _ | .cKrd _ _ _ | .cKsat _ _ _
  | .cKsatr _ _ _ | .cKmov _ _ | .cLdB _ _ _ | .cLdBu _ _ _ | .cLdH _ _ _ | .cLdHu _ _ _ | .cLdW _ _ _ | .cLdD _ _ _
  | .cStB _ _ _ | .cStH _ _ _ | .cStW _ _ _ | .cStD _ _ _ | .cLda _ _ _ | .cSta _ _ _ | .cFldS _ _ _ | .cFldD _ _ _
  | .cFstS _ _ _ | .cFstD _ _ _ | .cPld _ _ _ | .cPst _ _ _ | .cQpushResume | .cBz _ _ | .cBnz _ _ | .cBra _ | .cCall _
  | .cJmpr _ | .cCallr _ | .cRet | .cRpti _ _ | .cRptn _ | .cNop | .cSvc _ | .cKupd | .cEvtpend | .cAngle | .cTmark
  | .cEvtret | .cBkpt _ | .cMfsr _ _ | .cMtsr _ _ | .cRfe | .cWaiti | .cFadd _ _ _ _ | .cFsub _ _ _ _ | .cFmul _ _ _ _
  | .cFdiv _ _ _ _ | .cFsqrt _ _ _ | .cFneg _ _ _ | .cFabs _ _ _ | .cFmov _ _ _ | .cFcvtF _ _ _ | .cFcvtFu _ _ _
  | .cFcvtI _ _ _ | .cFcvtIu _ _ _ | .cFcvtW _ _ _ | .cFmvfd _ _ _ | .cFmvdf _ _ _ | .cFma _ _ _ _ _ _ _ | .cFcmp _ _ _ _ _ _
  | .interruptEntry _ | .hbudgetExpiry | .firmwareRestartComplete | .watchdogExpiry | .sqTailWrite _ _ | .rqHeadWrite _ _
  | .angWordRead | .frmCntLoRead | .scbSuspLoRead | .msqTrapinfoRead _ | .msqFaultinfoRead _ | .cndHtrapRead _
  | .grpCkfrmLoRead | .trcTimeLoRead | .eventEntryWrite _ _ _ | .ringWrite _ _ _ | .ringRead _ _ | .linkRegWrite _ _ _
  | .linkRegRead _ _ | .msgWrite _ _ _ | .msgRead _ _ | .status | .linkReset | .badTypeTransaction | .transactionTruncated
  | .writeCommitDone | .quadModeSwitch | .mailboxPecSet _ _ | .i2cSclTimeout | .cmdIdentify | .cmdRegRead | .cmdRegWrite
  | .cmdNop | .cmdCancel | .cmdAngleSource | .cmdAngleTrack | .cmdEventSet | .cmdPacerSet | .cmdFpLoad | .cmdFpSet
  | .cmdFpAbort | .cmdFpUnload | .cmdDataRead | .cmdDataWrite | .cmdFabricLoad | .cmdCaptureArm | .cmdCaptureRead
  | .cmdScrubDisable | .cmdTopiaryLoad | .cmdTopiaryUnload | .cmdTraceConfig | .cmdTraceRead | .cmdStickyRead
  | .cmdFaultClear _ | .cmdLogRead | .cmdReturnCapture | .cmdReturnRead | .cmdFlashErase | .cmdFlashWrite | .cmdFlashRead
  | .cmdImageSelect | .flashOperationComplete _ _ | .cmdGroupForm | .cmdGroupLeave | .cmdPowerState | .cmdDeviceReset
  | .powerOnReset | .rstNAssert | .supplyMonitorReset _ | .bootTriesClear | .throttleStep | .logRecordWrite _ _ _ | .logHour
  | .linkAck _ _ | .linkNak _ _ | .linkAckTimeout _ | .linkRetrainTimeout _ | .arrayFrame _ _ _ | .angleFrameLoss
  | .syncPulse _ | .heartbeatTimer | .heartbeat _ _ _ _ | .memberFaultFrame _ _ _ _ | .takeoverFrame _ _ _
  | .quiesceFrame _ _ | .leaderTimeout | .memberLossTimeout _ | .standbyRetrainTimeout _ | .traceQueueWrite
  | .traceSequencerStep _ | .tracePostTimeout _ | .traceRearm _ _ | .traceRunStop _ _ | .traceClear _ _ | .traceForce _ _
  | .traceAllocWrite _ _ | .bitstreamBitSample _ _ | .uartReceive _ _ _ | .upset _ | .linkFrameError _ | .jtagTckEdge _ _ _ _
  | .trstNAssert | .dozeExitComplete | .x32CrystalStart | .firmwareTimerTick => true

end Sys2Proof
end

