-- ==== Sys2Proof/Tests/Slice0.lean ====
section
/-! SUPPORT. Tests of the model: ill-formed commands are refused, single commands have the results that the manual gives, and the
hypotheses of every obligation are met by a concrete state and operands (the `witness_` theorems). -/

namespace Sys2Proof.Tests

open Sys2Proof Sys2Proof.Machine

set_option Elab.async false


/-- The state after a command that answers a next state. -/
def after (i : Instr) (s : State) : State :=
  match exec i s with
  | .next t => t
  | _ => s

/-- Firmware runs at 0x100. -/
def fw : State :=
  { State.reset with
    cnd := { Cnd.reset with
      running := true, pc := 0x100,
      a := (((Cnd.reset.a.set 1 0x10000010).set 2 0x40000610).set 3 0x1002).set 7 0x10000080,
      d := (Cnd.reset.d.set 1 0xFFFFFFFF).set 2 2 } }

/-- The handler of P0's program 0 runs at 0x8000, with a keeper area of 1 KiB and a code area of 1 KiB. -/
def hnd : State :=
  let s := [(0x0A20, 0x0100), (0x0A30, 0x0101), (0x0A50, 0x0120)].foldl (fun t e => wr t e.1 (BitVec.ofNat 32 e.2)) State.reset
  { s with cnd := { Cnd.reset with
      running := true, pc := 0x8000, cstat := 0x10000, a := Cnd.reset.a.set 0 0x10000400,
      d := (Cnd.reset.d.set 0 4).set 1 8,
      handler := some { part := 0, fp := 0, up := none, ups := 0, delivered := [], budget := 100, vleft := 0 } } }

theorem test_wf_boot : (Instr.boot 0 true 121 true 0 false).wf = false := by decide
theorem test_wf_tally : (Instr.macroTally 49153).wf = false := by decide
theorem test_wf_sumw : (Instr.macroSumw [0, 49153]).wf = false := by decide
theorem test_wf_peop : (Instr.uwPeop 0 0 49153).wf = false := by decide
theorem test_wf_mailbox_empty : (Instr.mailboxCmdWrite 0 [] 0).wf = false := by decide
theorem test_wf_mailbox_end : (Instr.mailboxCmdWrite 63 [1, 2] 0).wf = false := by decide
theorem test_wf_go : (Instr.mailboxGo [] 0).wf = false := by decide
theorem test_wf_release : (Instr.mailboxRelease [] 0).wf = false := by decide
theorem test_wf_read : (Instr.i2cReadTransfer none 0).wf = false := by decide
theorem test_wf_return : (Instr.returnCaptureComplete (some 4096)).wf = false := by decide
theorem test_wf_cold : (Instr.thermalSample (-161)).wf = false := by decide
theorem test_wf_hot : (Instr.thermalRelease 501).wf = false := by decide
theorem test_wf_log : (Instr.logRateSecond 65536).wf = false := by decide
theorem test_wf_training : (Instr.linkTrainingComplete 0 [] none).wf = false := by decide
theorem test_wf_macros : (Instr.macroFrame 0 0 0 (List.replicate 34 0) false).wf = false := by decide
theorem test_wf_phase : (Instr.angleFrame 0 0 1048577 1 1 0).wf = false := by decide
theorem test_wf_rate : (Instr.angleFrame 0 0 0 1 0 0).wf = false := by decide
theorem test_wf_block : (Instr.ckptBlock 0 0 (.block 0 [])).wf = false := by decide
theorem test_wf_advance : (Instr.angleWordAdvance 0).wf = false := by decide

-- The conductor.

theorem witness_ConductorIntegersAndBranches :
    runsClean (op1 [dKey fw 1, dKey fw 2]) fw = true ∧ runsClean (op1 [dKey fw 1]) fw = true ∧
    runsClean ({ op1 [] with size := 8 }).once fw = true ∧ (0xFFFFFFFF : Word).toNat < 2 ^ (32 - 0) ∧
    runsClean (opCtl [dKey fw 1] 1) fw = true ∧ runsClean (opCtl [aKey 0] 2) fw = true ∧ (aReg fw 0).toNat % 4 = 0 := by
  decide +kernel

theorem witness_ConductorAddressesProductsAndAccumulators :
    runsClean (op1 [aKey 1, dKey fw 1]) fw = true ∧ runsClean { op1 [dKey fw 1, dKey fw 2] with illegal := 4 % 2 == 1 } fw = true ∧
    dReg fw 2 ≠ 0 ∧ dReg fw 3 = 0 ∧ runsClean (op1 [kKey 0, dKey fw 1, dKey fw 2]) fw = true ∧
    runsClean (op1 [kKey 3]) fw = true := by decide +kernel

theorem witness_ConductorLoadsAndPlanePort :
    (runsClean { op1 (addrKeys fw 1 .ind) with acc := some (accOf fw 1 .ind 4 false) } fw = true ∧
      isMgmt (effAddr fw 1 .ind 4) = false ∧ fw.cnd.memErr = []) ∧
    (runsClean { op1 (addrKeys fw 1 .postInc) with acc := some (accOf fw 1 .postInc 8 false) } fw = true ∧
      isMgmt (effAddr fw 1 .postInc 8) = false) ∧
    (runsClean { op1 (addrKeys fw 2 .ind) with acc := some (accOf fw 2 .ind 4 false) } fw = true ∧
      isMgmt (effAddr fw 2 .ind 4) = true) := by decide +kernel

theorem witness_ConductorStores :
    Memory.wf 0 fw.cnd.mem = true ∧ twf 0 fw.regs = true ∧
    (runsClean { op1 (dKey fw 1 :: addrKeys fw 1 .preDec) with acc := some (accOf fw 1 .preDec 4 true) } fw = true ∧
      isMgmt (effAddr fw 1 .preDec 4) = false) ∧
    (isMgmt (effAddr fw 2 .ind 4) = true ∧ fwWritable ((effAddr fw 2 .ind 4).toNat % 65536) = true ∧
      runsClean { op1 (dKey fw 1 :: addrKeys fw 2 .ind) with acc := some (accOf fw 2 .ind 4 true) } fw = true) := by
  decide +kernel

/-- A repeat sequence of two iterations is in progress. -/
def repeating : State :=
  { fw with cnd := { fw.cnd with lc := 2, rep := some { pc := 0xFC, nested := false, lc0 := 0, rip0 := false } } }

theorem witness_ConductorCallsAndRepeats :
    wpNres fw < 7 ∧ runsClean { opCtl [aKey 7] 2 with acc := some (callAcc fw) } fw = true ∧
    runsClean { opCtl [aKey 0, aKey 7] 2 with acc := some (callAcc fw) } fw = true ∧ (aReg fw 0).toNat % 4 = 0 ∧
    (let s := { fw with cnd := { fw.cnd with wp := 0x201 } }
     runsClean { opCtl [aKey 7] 3 with acc := some { base := 7, ea := aReg s 7, size := 4, store := false, plane := false } } s = true ∧
       1 < wpNres s ∧ inRoutine s = none ∧ (rdWord s (aReg s 7).toNat).toNat % 4 = 0) ∧
    runsClean (opCtl [dKey fw 2] 1) fw = true ∧ rip fw = false ∧ repeating.cnd.rep.isSome = true ∧ repeating.cnd.lc ≠ 1 := by
  decide +kernel

theorem witness_ConductorSystemAndTraps :
    runsClean (opCtl [dKey fw 2] 1) fw = true ∧ hm fw = false ∧ dReg fw 2 &&& 3 ≠ 0 ∧ dReg fw 2 &&& 0xFFFCF800 = 0 ∧
    fld (dReg fw 2) 8 3 < 5 ∧ dReg fw 3 &&& 0xFFFFF888 = 0 ∧ dReg fw 3 &&& 3 = 0 ∧ fwIssues fw 4 = true ∧ twf 0 fw.regs = true ∧
    ((effAddr fw 3 .ind 4).toNat + 4 ≤ 0x10000 ∧ (effAddr fw 3 .ind 4).toNat % 4 ≠ 0) ∧ (aReg fw 3).toNat % 4 ≠ 0 ∧
    (let s := { fw with cnd := { fw.cnd with slim := 0x10000100 } }
     fwIssues s 4 = true ∧ (effAddr s 7 .ind 4).toNat < (s.cnd.slim &&& ~~~3).toNat) ∧
    (let s := { fw with cnd := { fw.cnd with wp := 0x700 } }; fwIssues s 4 = true ∧ wpNres s = 7) ∧ wpNres fw = 1 := by
  decide +kernel

theorem witness_ConductorFloatingPoint :
    runsClean (opF [fKey 1, fKey 2] 0 1 1) fw = true ∧ runsClean (opF [fKey 1, fKey 2, fKey 3] 0 1 1) fw = true ∧
    runsClean (opF [dKey fw 1] 0 1 1) fw = true ∧ runsClean { opF [fKey 1] 0 1 1 with illegal := true && 2 % 2 == 1 } fw = true ∧
    runsClean { opF [dKey fw 2, dKey fw 3] 0 1 1 with illegal := true && 2 % 2 == 1 } fw = true := by decide +kernel

/-- The handler with an event routine running. -/
def routine : State :=
  let u : Upcall := { pc := 0x8000, wp := 0x100, lc := 0, cstat := 0x10000, a := List.replicate 8 0, d := List.replicate 8 0,
                      slim := 0, depth := 0 }
  let h : Handler := { part := 0, fp := 0, up := some u, ups := 1, delivered := [3], budget := 100, vleft := 50 }
  { hnd with cnd := { hnd.cnd with wp := 0x201, handler := some h } }

theorem witness_HandlerServices :
    (inHandler hnd).isSome = true ∧ runsClean (opCtl [] 1) hnd = true ∧ hnd.cnd.memErr = [] ∧ twf 0 hnd.regs = true ∧
    kupdRefused hnd 0 = false ∧
    (let s := { hnd with cnd := { hnd.cnd with d := hnd.cnd.d.set 1 2052 } }
     (inHandler s).isSome = true ∧ runsClean (opCtl [] 1) s = true ∧ 2048 < (dReg s 1).toNat) ∧
    ((inHandler routine).isSome = true ∧ runsClean (opCtl [] 1) routine = true ∧ ∃ h, inHandler routine = some h ∧ h.up.isSome = true) := by
  refine ⟨by decide +kernel, by decide +kernel, rfl, by decide +kernel, by decide +kernel, by decide +kernel, by decide +kernel,
    by decide +kernel, _, rfl, rfl⟩

/-- The slot of program 0 in a frame, with no outcome yet. -/
def slot0 : Slot :=
  { fp := 0, prio := 0, started := true, outcome := none, posted := false, body := [], restarts := 0, throttled := false }

/-- Frame 1, of which program 0 computes. -/
def frame1 : Frame :=
  { count := 1, st := .computing, half := true, coasted := false, reversed := false, overspeed := false, overflow := false,
    suspect := false, owed := false, slots := [slot0] }

/-- The computation of frame 1 by program 0. -/
def comp0 : Comp := { fp := 0, count := 1, fault := none, fromClock := false, handlerDone := false }

/-- Firmware's registers as the handler's start saved them. -/
def saved : CndSave :=
  { a := Cnd.reset.a, d := Cnd.reset.d, win := Cnd.reset.win, k := Cnd.reset.k, f := Cnd.reset.f, pc := 0x100, lc := 0, wp := 0x100,
    slim := 0, cstat := 0 }

/-- The handler of program 0 computes frame 1. -/
def computing : State :=
  { hnd with
    frm := { Frm.reset with frames := [frame1], comp := some comp0, drained := false }
    cnd := { hnd.cnd with fw := some saved } }

theorem slots_computing : unanswered computing comp0 := by
  intro f hf _ x hx _
  rw [show computing.frm.frames = [frame1] from rfl, List.mem_singleton] at hf
  subst hf
  rw [show frame1.slots = [slot0] from rfl, List.mem_singleton] at hx
  subst hx
  exact ⟨rfl, rfl⟩

theorem witness_HandlerTrapsAndDoubleFaults :
    unanswered computing comp0 ∧
    (twf 0 computing.regs = true ∧ (inHandler computing).isSome = true ∧ computing.frm.comp = some comp0 ∧
      computing.cnd.fw.isSome = true ∧ computing.cnd.memErr = [] ∧ handlerIssues computing = true) ∧
    (let h : Handler := { part := 0, fp := 0, up := none, ups := 0, delivered := [], budget := 0, vleft := 0 }
     let s := { computing with cnd := { computing.cnd with handler := some h } }
     budgetOut s = true ∧ s.cnd.running = true ∧ s.cnd.rep.isNone = true ∧ cwp s ≠ 7) ∧
    (let s := { fw with cnd := { fw.cnd with wp := 0x107 } }
     cndReady s = true ∧ hm s = false ∧ cwp s = 7 ∧ fetchTrap s 4 = none ∧ twf 0 s.regs = true ∧ bit (rd s 0x0614) 16 = false ∧
       s.cnd.again = false) := ⟨slots_computing, by decide +kernel, by decide +kernel, by decide +kernel⟩

/-- Firmware with interrupt 24 pending and enabled. -/
def ticked : State :=
  let s := wr fw 0x0634 0x100
  { s with cnd := { s.cnd with cstat := 0x20000, ipend := 0x100 } }

theorem witness_InterruptsAndUpcalls :
    (twf 0 ticked.regs = true ∧ intPick ticked = some 8 ∧ ticked.cnd.rep = none) ∧
    (let p : Prog := { progNone with evmax := 1, eventry := some 64 }
     let s0 := setProg (wr (wr computing 0x0270 8) 0x0634 0x200) 0 p
     let s := { s0 with cnd := { s0.cnd with cstat := 0x30000 } }
     twf 0 s.regs = true ∧ intPick s = some 9 ∧ angEvent s = some 3 ∧ (prog s 0).eventry = some 64 ∧ wpNres s < 7 ∧
       s.cnd.rep = none) := ⟨by decide +kernel, by decide +kernel⟩

/-- The device is ready and runs the image of slot 0, whose flash is erased. -/
def ready : State :=
  { fw with boot := { fw.boot with ready := true, inReset := false, ports := true, running := some 0 } }

theorem witness_FirmwareRestartWatchdogAndTick :
    ready.boot.running = some 0 ∧ ready.boot.inReset = false ∧ ready.pwr.st ≠ 2 ∧ ready.cnd.running = true ∧
    (let zeros := fun (a : Nat) => (List.range 4).map (fun i => (a + i, (0 : Byte)))
     let image := zeros (fwOff 0 + 0x4C) ++ zeros (fwOff 0 + 0x58)
     let s0 := { ready with cnd := { ready.cnd with running := false } }
     let s := { s0 with boot := { s0.boot with flash := image } }
     s.cnd.running = false ∧ s.boot.running = some 0 ∧ entryNat (flashBytes s (fwOff 0) 96) 0x4C 4 = 0 ∧
       (crc32 (flashBytes s (fwOff 0 + 96) 0)).toNat = entryNat (flashBytes s (fwOff 0) 96) 0x58 4) := by decide +kernel

-- The array.

/-- The first macro of the queue issues, by a check that evaluates. -/
def macroOk (s : State) : Bool :=
  match s.frm.comp, s.arr.queue with
  | some k, w :: rest =>
    match issue s k w rest with
    | some (.ok (i, _)) => !k.handlerDone && s.arr.run.isNone && (macroPlanes s i).all (inRange s (fpPart k.fp)) &&
        (parityHit s (macroReads s i)).isNone && twf 0 s.arr.planes
    | _ => false
  | _, _ => false

theorem macroIssues_of_ok (s : State) (h : macroOk s = true) : ∃ k w x i, macroIssues s k w x i ∧ s.arr.queue.head? = some w := by
  unfold macroOk at h
  split at h
  · rename_i k w rest hc hq
    split at h
    · rename_i i x hi
      simp only [Bool.and_eq_true, Bool.not_eq_true', Option.isNone_iff_eq_none, List.all_eq_true] at h
      exact ⟨k, w, x, i, ⟨hc, h.1.1.1.1, h.1.1.1.2, ⟨rest, hq, hi⟩, h.1.1.2, h.1.2, h.2⟩, by rw [hq]; rfl⟩
    · cases h
  · cases h

/-- Program 0 computes with a macro at the head of the queue, all planes in P0's range. -/
def macroAt (w : Word) (rest : List Word) : State :=
  let s := wr (wr computing 0x0420 0x1000) 0x0A30 0x4040
  { s with arr := { s.arr with queue := w :: rest, allow := 100000,
                               pp := [(1, 64), (2, 128), (3, 256), (14, 1024), (15, 1600)] } }

theorem witness_MacroFieldsAndControl :
    (64 ≤ 2048 ∧ twf 0 (macroAt 0 []).arr.planes = true) ∧
    (∃ k w x i, macroIssues (macroAt 0x20120040 []) k w x i ∧ (macroAt 0x20120040 []).arr.queue.head? = some w) ∧
    (∃ k w x i, macroIssues (macroAt 0x02120000 []) k w x i ∧ (macroAt 0x02120000 []).arr.queue.head? = some w) ∧
    mOp 0x20120040 = 0x20 ∧ mOp 0x25120041 = 0x25 ∧ mPB 0x25120041 = 0 ∧ macroOk (macroAt 0x25120041 []) = true :=
  ⟨by decide +kernel, macroIssues_of_ok _ (by decide +kernel), macroIssues_of_ok _ (by decide +kernel), by decide, by decide,
    by decide, by decide +kernel⟩

theorem witness_MacroIntegers :
    (∃ k w x i, macroIssues (macroAt 0x301231C0 []) k w x i ∧ (macroAt 0x301231C0 []).arr.queue.head? = some w) ∧
    (∃ k w x i, macroIssues (macroAt 0x3B1231C0 []) k w x i ∧ (macroAt 0x3B1231C0 []).arr.queue.head? = some w) ∧
    mOp 0x301231C0 = 0x30 ∧ mOp 0x3B1231C0 = 0x3B :=
  ⟨macroIssues_of_ok _ (by decide +kernel), macroIssues_of_ok _ (by decide +kernel), by decide, by decide⟩

theorem witness_MacroFloatingPoint :
    (∃ k w x i, macroIssues (macroAt 0x70123000 []) k w x i ∧ (macroAt 0x70123000 []).arr.queue.head? = some w) ∧
    mOp 0x70123000 = 0x70 := ⟨macroIssues_of_ok _ (by decide +kernel), by decide⟩

theorem witness_MacroTransfers :
    (∃ k w x i, macroIssues (macroAt 0x601001C0 [0x70000000]) k w x i) ∧
    (∃ k w x i, macroIssues (macroAt 0x610101C0 [0x10010000]) k w x i) ∧
    (∃ k w x i, macroIssues (macroAt 0x630101C0 [0x10010000]) k w x i) ∧
    (macroAt 0x601001C0 [0x70000000]).cnd.memErr = [] ∧ (macroAt 0x601001C0 [0x70000000]).smp.recErr = [] ∧
    Memory.wf 0 (macroAt 0x601001C0 [0x70000000]).cnd.mem = true ∧ mOp 0x601001C0 = 0x60 ∧ mOp 0x610101C0 = 0x61 :=
  have h (s : State) (e : macroOk s = true) : ∃ k w x i, macroIssues s k w x i :=
    let ⟨k, w, x, i, m, _⟩ := macroIssues_of_ok s e
    ⟨k, w, x, i, m⟩
  ⟨h _ (by decide +kernel), h _ (by decide +kernel), h _ (by decide +kernel), rfl, rfl, by decide +kernel, by decide, by decide⟩

theorem witness_MacroReductions :
    (∃ k w x i, macroIssues (macroAt 0x50010000 []) k w x i ∧ (macroAt 0x50010000 []).arr.queue.head? = some w) ∧
    (∃ k w x i, macroIssues (macroAt 0x530101C0 []) k w x i ∧ (macroAt 0x530101C0 []).arr.queue.head? = some w) ∧
    (∃ k w x i, macroIssues (macroAt 0x40120040 []) k w x i ∧ (macroAt 0x40120040 []).arr.queue.head? = some w) ∧
    mOp 0x530101C0 = 0x53 ∧ mMod 0x530101C0 = 0 ∧ grouped (macroAt 0 []) = false :=
  ⟨macroIssues_of_ok _ (by decide +kernel), macroIssues_of_ok _ (by decide +kernel), macroIssues_of_ok _ (by decide +kernel),
    by decide, by decide, by decide +kernel⟩

theorem slots_macroAt (w : Word) (rest : List Word) : unanswered (macroAt w rest) comp0 := by
  intro f hf _ x hx _
  rw [show (macroAt w rest).frm.frames = [frame1] from rfl, List.mem_singleton] at hf
  subst hf
  rw [show frame1.slots = [slot0] from rfl, List.mem_singleton] at hx
  subst hx
  exact ⟨rfl, rfl⟩

/-- The macro word at the head of the queue would trap with this reason. -/
def trapReason (s : State) : Option Nat :=
  match s.arr.queue with
  | w :: rest =>
    match issue s comp0 w rest with
    | some (.error r) => some r
    | _ => none
  | [] => none

theorem witness_MacroTraps :
    unanswered (macroAt 0x20120FC0 []) comp0 ∧ trapReason (macroAt 0x20121000 []) = some 4 ∧
    (macroAt 0x20121000 []).frm.comp = some comp0 ∧ (macroAt 0x20121000 []).arr.run = none ∧ mOp 0x20121000 = 0x20 ∧
    twf 0 (macroAt 0x20121000 []).regs = true ∧
    (let s := wr (macroAt 0x20120040 []) 0x0420 0x40
     inRange s 0 64 = false ∧ trapReason s = none) := ⟨slots_macroAt _ _, by decide +kernel, rfl, rfl, by decide, by decide +kernel,
      by decide +kernel⟩

/-- The binding of a user macro of one microword. -/
def bind0 : Bind :=
  { entry := 1, len := 1, attr := 0, uses := 1, modDef := 0, wmin := 1, wmax := 64, alias_ := 0, nwork := 0, k0 := 1, k1 := 0, k2 := 0,
    kc0 := 0, kc1 := 0, ka0 := 0, ka1 := 0, kt0 := 0, kt1 := 0, cross := false }

/-- An image of one microword. -/
def image (w : BitVec 40) : TopImg := { crc := 0, words := [(1, w)], binds := [(0x80, bind0)], nrout := 1, nwords := 2 }

/-- A routine of a user macro at its first microword. -/
def run0 (committed : Bool) : Routine :=
  { word := 0x80100000, ext := 0, bind := bind0, upc := 1, v := [(0, 64)], l := [(0, 2)], stack := [5], wres := false,
    committed := committed, pps := [], rm := 0, scratch := [], shadow := [], crossed := false, held := false, wait := none }

/-- The routine runs the microword `w` of P0's image. -/
def routineAt (w : BitVec 40) (committed : Bool) : State :=
  let s := macroAt 0x80100000 []
  { s with arr := { s.arr with top := [(0, image w)], run := some (run0 committed) } }

theorem fetches_routineAt (w : BitVec 40) (c : Bool) : fetches (routineAt w c) comp0 (run0 c) w :=
  ⟨rfl, rfl, rfl, rfl, image w, rfl, rfl⟩

theorem witness_MicrocodeControl :
    fetches (routineAt 0 false) comp0 (run0 false) 0 ∧ mwClass 0 = 0 ∧ mwClass 0x4000000000 = 2 ∧
    (run0 false).stack = 5 :: [] ∧ grouped (routineAt 0 false) = false ∧ tget 0 (run0 false).l 0 ≤ 8192 :=
  ⟨fetches_routineAt _ _, by decide, by decide, rfl, by decide +kernel, by decide⟩

theorem witness_MicrocodePeop :
    (let w : BitVec 40 := 0x2000004000
     fetches (routineAt w true) comp0 (run0 true) w ∧ mwClass w = 1 ∧ grouped (routineAt w true) = false ∧ mwf w 14 2 ≠ 0 ∧
       (inRange (routineAt w true) 0 (vAddr (run0 true) (mwf w 34 3) (mwf w 32 2)) = true ∧
         parityHit (routineAt w true) [vAddr (run0 true) (mwf w 34 3) (mwf w 32 2)] = none) ∧
       inRange (routineAt w true) 0 (vAddr (run0 true) (mwf w 29 3) (mwf w 27 2)) = true ∧ (run0 true).committed = true) :=
  ⟨fetches_routineAt _ _, by decide, by decide +kernel, by decide, by decide +kernel, by decide +kernel, rfl⟩

/-- The routine waits since time 0 with the microword `w`. -/
def waitingAt (w : BitVec 40) : State :=
  let s := routineAt w false
  { s with now := 1000, arr := { s.arr with run := some { run0 false with wait := some (0, 0) } } }

theorem witness_UserMacrosAndWaits :
    (let s0 := macroAt 0x80100000 []
     let s := { s0 with arr := { s0.arr with top := [(0, image 0)] } }
     s.frm.comp = some comp0 ∧ s.arr.run = none ∧ trapReason s = none ∧ macroOk s = true ∧ 0x80 ≤ mOp 0x80100000 ∧
       frameImg s 0 1 = some (image 0) ∧ tfind (image 0).binds 0x80 = some bind0) ∧
    (mwClass 0x6000000000 = 3 ∧ fetches (routineAt 0x6000000000 false) comp0 (run0 false) 0x6000000000) ∧
    (let s := waitingAt 0x6000000000
     waitCond s 0x6000000000 = false ∧ waitLimit s 0x6000000000 0 = false ∧ twf 0 s.regs = true ∧
       200 * ((mwf 0x6000000000 0 5 + 1) * 2 ^ (2 * mwf 0x6000000000 5 3 + 4)) ≤ (s.now - 0) * s.pwr.arrClk) ∧
    (let s := { waitingAt 0x6000000000 with frm := { Frm.reset with boundaries := 1, comp := some comp0 } }
     waitLimit s 0x6000000000 0 = true) :=
  ⟨by decide +kernel, ⟨by decide, fetches_routineAt _ _⟩, by decide +kernel, by decide +kernel⟩

theorem slots_routineAt (w : BitVec 40) (c : Bool) : unanswered (routineAt w c) comp0 := slots_macroAt 0x80100000 []

theorem witness_SequencerAndMicrocodeFaults :
    (unanswered (routineAt 0 false) comp0 ∧ twf 0 (routineAt 0 false).regs = true ∧ (routineAt 0 false).arr.restarts < 2 ∧
      (run0 false).committed = false ∧ (run0 true).committed = true) ∧
    (let w : BitVec 40 := 0x2000004000
     let s := wr (routineAt w false) 0x0420 0x0041
     fetches s comp0 (run0 false) w ∧ inRange s 0 (vAddr (run0 false) (mwf w 29 3) (mwf w 27 2)) = false) ∧
    (let w : BitVec 40 := 0x2004004000
     readUsed w = false ∧ inRange (routineAt w false) 0 (vAddr (run0 false) (mwf w 29 3) (mwf w 27 2)) = true ∧
       vAddr (run0 false) (mwf w 29 3) (mwf w 27 2) ∉ (run0 false).scratch) ∧
    (let s0 := routineAt 0 false
     let s := { s0 with arr := { s0.arr with topErr := [(1, 3)] } }
     s.frm.comp = some comp0 ∧ s.arr.run = some (run0 false) ∧ tfind s.arr.top 0 = some (image 0) ∧
       onesNat (tget 0 s.arr.topErr (65536 * fpPart 0 + 1)) = 2) :=
  ⟨⟨slots_routineAt _ _, by decide +kernel, by decide +kernel, rfl, rfl⟩, ⟨⟨rfl, rfl, rfl, rfl, image _, rfl, rfl⟩, by decide +kernel⟩,
    by decide +kernel, by decide +kernel⟩

-- The angle clock and the frames.

/-- The clock follows a source: `ctrl` is ANG_CTRL, `st` its state; the last edge was at time 0, and it is now 1,000,000. -/
def clock (ctrl : Nat) (st : AngState) : State :=
  let s := [(0x0200, ctrl), (0x021C, 0), (0x0220, 100), (0x022C, 3), (0x0230, 20000), (0x0238, 0x404004), (0x023C, 2),
    (0x0240, 0x0101)].foldl (fun t e => wr t e.1 (BitVec.ofNat 32 e.2)) ready
  { s with
    now := 1000000
    ang := { s.ang with st := st, lastEdge := some 0, ivals := [1000000], frameOpen := true, rateN := 1, rateD := 4 } }

theorem blank_clock (c : Nat) (st : AngState) : ingestBlank (clock c st) := fun _ _ _ hg => (List.not_mem_nil hg).elim

theorem witness_QeiAndZPulse :
    (let s := clock 0 .locked
     twf 0 s.regs = true ∧ s.ang.st = .locked ∧ s.ang.frameOpen = true ∧ angSrc s = 0 ∧ s.pwr.st ≠ 2 ∧
       s.ang.high < s.ang.kcount + 1) ∧
    (let s0 := clock 0 .locked
     let s := { s0 with ang := { s0.ang with high := 300, kcount := 1 } }
     s.ang.kcount - 1 ≤ s.ang.high ∧ (fld (rd s 0x0244) 0 8 : Nat) < s.ang.high - (s.ang.kcount - 1)) ∧
    (let s0 := clock 0 .acquiring
     let s := { s0 with ang := { s0.ang with lockRun := 3 } }
     s.ang.st = .acquiring ∧ angSrc s = 0 ∧ s.ang.lockDir = true ∧ s.ang.lockRun = 3 ∧ s.ang.lastEdge = some 0) ∧
    ((clock 0 .coasting).ang.st = .coasting ∧ zAlign (clock 0 .coasting) = false) ∧
    ((clock 3 .locked).ang.st ≠ .off ∧ angSrc (clock 3 .locked) ≠ 0 ∧ (clock 3 .locked).grp.role ≠ 2) ∧
    (let s0 := clock 0x20 .locked
     let s := { s0 with ang := { s0.ang with kcount := 99, high := 99 } }
     zAlign s = true ∧ s.ang.st = .locked ∧ s.ang.frameOpen = true ∧ s.ang.zwait = false ∧
       -(perRev s : Nat) < 2 * (1 * (perRev s : Nat) - s.ang.kcount) ∧ 2 * (1 * (perRev s : Nat) - s.ang.kcount) < (perRev s : Nat)) :=
  ⟨by decide +kernel, by decide +kernel, by decide +kernel, by decide +kernel, by decide +kernel, by decide +kernel⟩

theorem witness_PulsesCrossingsAndLosses :
    (∀ st, ingestBlank (clock 1 st)) ∧
    (let s := clock 1 .acquiring
     twf 0 s.regs = true ∧ s.ang.lastEdge = some 0 ∧ s.pwr.st ≠ 2 ∧ angSrc s = 1 ∧ s.ang.ivals = [1000000] ∧
       s.ang.lockRun + 1 < fld (rd s 0x0238) 0 6) ∧
    (let s0 := clock 0x21 .acquiring
     let s := { s0 with ang := { s0.ang with lockRun := 3 } }
     zAlign s = true ∧ fld (rd s 0x0238) 0 6 ≤ s.ang.lockRun + 1) ∧
    (let s := clock 1 .locked
     let m := meanIvals s s.ang.ivals
     angSrc s = 1 ∧ s.ang.st = .locked ∧ s.ang.frameOpen = true ∧
       256 * ((1000000 * m.2 : Nat) - (m.1 : Int)).natAbs ≤ fld (rd s 0x0238) 16 8 * m.1) ∧
    (let s := { clock 1 .locked with now := 1500000 }
     let m := meanIvals s s.ang.ivals
     fld (rd s 0x0238) 16 8 * m.1 < 256 * ((1500000 * m.2 : Nat) - (m.1 : Int)).natAbs ∧ s.ang.rejects = 0) ∧
    (let s := clock 2 .locked
     angSrc s = 2 ∧ 9 * 2000000000 ≤ 1000000 * fld (rd s 0x0230) 0 16 ∧ 1000000 * fld (rd s 0x0230) 0 16 ≤ 11 * 2000000000) ∧
    (let s := { clock 2 .locked with now := 1250000 }
     (meanIvals s s.ang.ivals).2 ≠ 0 ∧
       5 * (meanIvals s s.ang.ivals).1 ≤ 4 * (meanIvals s s.ang.ivals).2 * 1250000 ∧ 11 * 2000000000 < 1250000 * fld (rd s 0x0230) 0 16) ∧
    (let s := clock 0 .locked
     fld (rd s 0x0240) 0 5 * 1000000 ≤ s.now - 0 ∧ s.ang.qerr < fld (rd s 0x0240) 8 8) ∧
    (let s := clock 0 .coasting
     s.ang.coastLeft = 0 ∧ boundaryDue s = false ∧ s.grp.role < 2) ∧
    4000000000 ≤ ({ clock 0 .locked with now := 4000000000 }).now - (clock 0 .locked).ang.openAt :=
  ⟨fun st => blank_clock 1 st, by decide +kernel, by decide +kernel, by decide +kernel, by decide +kernel, by decide +kernel,
    by decide +kernel, by decide +kernel, by decide +kernel, by decide⟩

/-- Entry 5 of the event table is due at phase 10, and pacer 1 strobes there. -/
def due : State :=
  let s := [(0x10028, 0x8000000A), (0x1002C, 0x00110001), (0x0290, 0x8000000A), (0x0294, 0x100), (0x0298, 1)].foldl
    (fun t e => wr t e.1 (BitVec.ofNat 32 e.2)) (clock 3 .locked)
  { s with ang := { s.ang with phase := 10 } }

theorem witness_AngleWordAndEvents :
    (let s := clock 3 .locked
     s.ang.phase ≤ 1048576 ∧ s.ang.wfrac < 4 * s.ang.rateD ∧ angSrc s = 3 ∧ s.ang.revHold = false ∧ s.pwr.st ≠ 2 ∧
       dueFiring s = none ∧ boundaryDue s = false ∧ nextFiring s (max s.ang.fired (s.ang.phase + 1)) = none ∧ 0 < s.ang.rateN ∧
       s.ang.phase * (4 * s.ang.rateD) + s.ang.wfrac + 4 * s.ang.rateN * 4 ≤ 1048576 * (4 * s.ang.rateD)) ∧
    (dueFiring due = some 10 ∧ twf 0 due.regs = true ∧ evtOn due due.ang.count48.toNat 5 = true ∧ fld (evtA due 5) 0 20 = 10 ∧
      pacerAt due 1 10 = true) := by decide +kernel

/-- A free-running clock of which frame 7 is open and due to close, with the slot of program 0. -/
def closing : State :=
  let f : Frame := { frame1 with count := 7, st := .ingesting, slots := [{ slot0 with started := false }] }
  let s := clock 0xB .locked
  { s with
    ang := { s.ang with phase := 1048576, meas := 1048576, count48 := 7, anyOpened := true, fired := 1048576 }
    frm := { s.frm with frames := [f] } }

theorem witness_FrameAndIdleBoundaries :
    (twf 0 closing.regs = true ∧ boundaryDue closing = true ∧ 3 ≤ angSrc closing ∧ closing.ang.st = .locked ∧
      closing.frm.frames.length = 1 ∧ closing.grp.role = 0 ∧ closing.prt.changes = [] ∧ closing.prt.opens = [] ∧
      closing.smp.lanes = [] ∧ closing.frm.comp = none ∧ closing.pwr.st = 0 ∧ angEn closing = true ∧ closing.scb.repaired = [] ∧
      closing.grp.retired = false ∧ ∀ g ∈ closing.frm.frames, g.st = .ingesting ∨ g.st = .posting ∨ g.st = .drained) ∧
    (let f1 : Frame := { frame1 with count := 6, st := .closed }
     (∀ x ∈ f1.slots, x.outcome = none ∧ x.posted = false) ∧ f1.count ≠ 7 ∧ f1.count ≠ nextCount closing) ∧
    (let s := { clock 0 .locked with now := 99999 }
     let u := { s with ang := { s.ang with phase := 1048576, kcount := 100, high := 100, meas := 1048576, expect := 1048577 } }
     boundaryDue u = true ∧ angSrc u ≤ 2 ∧ u.now - u.ang.openAt < 100000 ∧ u.grp.role < 2) ∧
    (let s0 := clock 3 .acquiring
     let s := { s0 with ang := { s0.ang with frameOpen := false } }
     ingesting s = none ∧ angSrc s = 3 ∧ s.ang.st = .acquiring ∧ 4 ≤ s.now - s.ang.lockAt) ∧
    (let s := { ready with prt := { ready.prt with
       changes := [{ unit := .angle, mbx := false, stamp := 0, kind := .writes [(0x0200, 0xB)], ord := none }] } }
     s.ang.st = .off ∧ angEn s = false ∧ bit 0xB 3 = true ∧ s.scb.repaired = [] ∧ sourceValid (wr s 0x0200 0xB) = true) :=
  ⟨by decide +kernel, by decide +kernel, by decide +kernel, by decide +kernel, by decide +kernel⟩

/-- Frame 1 is closed, with an unstarted slot of program 0. -/
def startable : State :=
  let f : Frame := { frame1 with st := .closed, slots := [{ slot0 with started := false }] }
  { ready with frm := { ready.frm with frames := [f] } }

/-- Frame 1 is computed and the slot of program 0 has this outcome; P0's reply ring has `depth` entries. -/
def answered (out : Nat × Nat) : State :=
  let f : Frame := { frame1 with st := .posting, slots := [{ slot0 with outcome := some out }] }
  { wr ready 0x0A60 0x44 with frm := { ready.frm with frames := [f] } }

theorem witness_ProgramRunsAndReplies :
    ((nextStart startable).isSome = true ∧ startable.frm.drained = true ∧ arrayBusy startable = false ∧ startable.pwr.st = 0 ∧
      startable.cnd.running = true ∧ startable.grp.retired = false ∧ startable.frm.drainChk = false) ∧
    (let s := { ready with frm := { ready.frm with drain := some (0, 1) } }
     s.frm.drain = some (0, 1) ∧ (prog s 0).sbands = 0 ∧ s.arr.map = [] ∧ s.flt.notes.length < 8) ∧
    (let s := answered (0, 0)
     (nextSlot s 0).isSome = true ∧ s.grp.retired = false ∧ holdQ s 0 = [] ∧ rqCount s 0 < rqDepth s 0 ∧ s.prt.opens = [] ∧
       s.grp.role = 0 ∧ tget [] s.frm.kdone (keeperKey 1 0) = [] ∧ Memory.wf 0 s.cnd.mem = true) ∧
    (let s := { answered (0, 0) with prt := { ready.prt with hold := [(0, [List.replicate 64 1])] } }
     holdQ s 0 = [List.replicate 64 1] ∧ rqCount s 0 < rqDepth s 0) :=
  ⟨by decide +kernel, by decide +kernel, by decide +kernel, by decide +kernel⟩

/-- An order for the power state `target` waits in the state `st`. -/
def ordered (st target : Nat) : State :=
  { ready with pwr := { ready.pwr with st := st, target := target, pend := true } }

theorem witness_PowerStates :
    (twf 0 (ordered 0 1).regs = true ∧ (ordered 0 1).frm.drained = true ∧ arrayBusy (ordered 0 1) = false ∧
      (ordered 0 1).frm.frames = [] ∧ (ordered 0 1).prt.opens = [] ∧ (ordered 0 1).frm.comp = none) ∧
    ((ordered 1 0).pwr.target = 0 ∧ (ordered 1 0).pwr.st = 1) ∧ ((ordered 0 2).pwr.target = 2 ∧ (ordered 0 2).pwr.st ≠ 2) ∧
    (let s0 := wr (ordered 2 0) 0x0200 0xB
     let s := { s0 with pwr := { s0.pwr with exiting := true }, boot := { s0.boot with running := none } }
     s.pwr.exiting = true ∧ passesRun { s with pwr := { s.pwr with st := s.pwr.target } } = false ∧
       s.pwr.supplies.getLsbD 2 = true ∧ s.pwr.target < 2 ∧ angEn s = true) ∧
    (let s := { ordered 2 0 with now := 2000000 }
     s.pwr.orderAt + 2000000 ≤ s.now) :=
  ⟨by decide +kernel, by decide +kernel, by decide +kernel, by decide +kernel, by decide +kernel⟩

-- The fabric.

/-- Cell 9 runs from global clock 0 with `e` as its first entry. -/
def cellWith (e : Nat) : State :=
  let s := wr ready 0x0710 0x0B
  { s with hdg := { s.hdg with pllOk := true, cfg := [(64 * 9 + 1, BitVec.ofNat 64 e), (64 * 9 + 5, 8)] } }

theorem witness_FabricCells :
    (twf 0 (cell (cellWith 0) 9).cur.ram = true ∧ (cellWith 0).hdg.capDue.contains 9 = false ∧ cellReady (cellWith 0) 9 0 0 0 = true ∧
      cellReady (cellWith 0) 9 0 0 1 = false) ∧
    cellReady (cellWith (22 * 2 ^ 27)) 9 0 0 22 = true ∧
    (let e := 2 * 2 ^ 27 + 3 * 2 ^ 16 + 22 * 2 ^ 8
     cellReady (cellWith e) 9 0 0 2 = false) := ⟨by decide +kernel, by decide +kernel, by decide +kernel⟩

theorem witness_LanesPortsAndRecords :
    (let s := wr (cellWith (18 * 2 ^ 27 + 3)) 0x094C 1
     cellReady s 9 0 0 18 = true ∧ s.pwr.st ≠ 2 ∧ laneWord s 3 = true ∧ (lane s 3).hold = none ∧ laneWord s 4 = false) ∧
    (let s := wr (cellWith (19 * 2 ^ 27 + 1)) 0x0738 2
     cellReady s 9 0 0 19 = true ∧ (port s 1).busy = false ∧ fld (rd s 0x0738) 0 2 ≠ 3) ∧
    cellReady (cellWith (20 * 2 ^ 27)) 9 0 0 20 = true ∧
    (let s := wr (cellWith (21 * 2 ^ 27)) 0x0724 0x80000000
     cellReady s 9 0 0 21 = true ∧ bit (rd s 0x0724) 31 = true ∧ s.boot.op = none) ∧
    (let s := { cellWith 0 with hdg := { (cellWith 0).hdg with
       ports := [(2, { busy := true, tx := 0, rx := 0, valid := false, ferr := false, orun := false })] } }
     (port s 2).busy = true) ∧
    (let s0 := wr closing 0x0940 1
     let g : LaneFill := { base := 0, size := 1, bits := false, fill := 0, ovl := 0 }
     let l : Lane := { hold := some 5, part := [], buf := [] }
     let s := { s0 with smp := { s0.smp with fills := [(16, g)], lanes := [(0, l)] } }
     twf 0 s.smp.recs = true ∧ twf 0 s.smp.stamps = true ∧ (lane s 0).hold = some 5 ∧ laneWord s 0 = true ∧
       (ingesting s).isSome = true ∧ (laneFill s true 0).fill < 64 * (laneFill s true 0).size) ∧
    (let s := wr closing 0x0940 3
     laneBits s 0 = true ∧ (lane s 0).part.length < 23 ∧ laneBits s 1 = false) :=
  ⟨by decide +kernel, by decide +kernel, by decide +kernel, by decide +kernel, by decide +kernel, by decide +kernel,
    by decide +kernel⟩

-- Images.

/-- An image: the header's fields up to the payload's digest, the `tail` after it, the header's CRC, and the payload. -/
def imageWith (magic : List Byte) (mid : List Byte) (tail pl : List Byte) : List Byte :=
  let head := magic ++ leBytes 2 1 ++ leBytes 2 96 ++ leBytes 4 0x30 ++ leBytes 4 0x10B00 ++ leBytes 4 0x101 ++ mid ++ sha256 pl ++ tail
  head ++ leBytes 4 (crc32 head).toNat ++ pl

/-- An image with nothing after the payload's digest. -/
def imageOf (magic : List Byte) (mid : List Byte) (pl : List Byte) : List Byte := imageWith magic mid (List.replicate 20 0) pl

/-- A fabric image of one frame, that of the hard blocks, of zero content. -/
def fabricImage : List Byte :=
  let frame := leBytes 8 66 ++ List.replicate 496 0
  let pl := frame ++ leBytes 4 (crc32 frame).toNat ++ leBytes 4 0
  imageOf fabricMagic (leBytes 4 0 ++ leBytes 4 512 ++ leBytes 2 1 ++ leBytes 2 0 ++ leBytes 4 (crc32 pl).toNat ++ leBytes 4 0) pl

/-- A Topiary image of one routine, which ends at once, bound to opcode 0x80. -/
def topiaryImage : List Byte :=
  let desc := leBytes 2 0 ++ leBytes 2 1 ++ [0x80, 0, 0, 0, 1, 1, 0, 0] ++ leBytes 4 0 ++ leBytes 4 1 ++ List.replicate 20 0
  let pl := desc ++ leBytes 8 (8 * 2 ^ 33)
  imageOf topMagic (leBytes 4 0 ++ leBytes 4 48 ++ leBytes 2 1 ++ leBytes 2 1 ++ leBytes 2 0 ++ leBytes 2 0 ++ leBytes 4 (crc32 pl).toNat) pl

/-- A command of P0 that has been accepted and waits. -/
def order0 : Order := { part := 0, mbx := false, opcode := 0x400, tag := 5, sseq := 1, stamp := 9 }

/-- A fabric load by message of the image `im`, or a Topiary load of it, waits for its verification. -/
def loading (im : List Byte) : State :=
  let s := wr (wr ready 0x0A60 0x44) 0x0520 0x40
  { s with
    hdg := { s.hdg with load := .loading, loadImg := im }
    arr := { s.arr with topVer := [(0, im)] }
    prt := { s.prt with opens := [⟨order0, .fabricMsg⟩, ⟨order0, .topVerify 0⟩] } }

set_option maxRecDepth 100000 in
theorem witness_ImageLoadsAreVerified :
    ((loading [1]).hdg.load = .loading ∧ (loading [1]).hdg.loadImg ≠ [] ∧ twf 0 (loading [1]).regs = true ∧
      twf 0 (loading [1]).hdg.cfg = true ∧ Memory.wf 0 (loading [1]).cnd.mem = true ∧ (fabricOrder (loading [1])).isSome = true ∧
      holdQ (loading [1]) 0 = [] ∧ rqCount (loading [1]) 0 < rqDepth (loading [1]) 0) ∧
    fabricFail (loading [1]) [1] none = some (0x32, 1) ∧ fabricFail ready fabricImage none = none ∧
    topLoads (loading [1]) = [(order0, 0)] ∧ topFail (loading [1]) 0 [1] = some (0x32, 1) ∧
    topFail (loading topiaryImage) 0 topiaryImage = none :=
  ⟨by decide +kernel, by decide +kernel, by decide +kernel, by decide +kernel, by decide +kernel, by decide +kernel⟩

theorem witness_CaptureAndBankSupplies :
    (twf 0 ready.regs = true ∧ twf 0 ready.hdg.capRam = true ∧ (0x8000FF3F : Word) &&& 0xFFFF00C0 ≠ 0 ∧ (0xFF3F : Word) &&& 0xFFFF00C0 = 0 ∧
      ready.hdg.capArmed = false ∧ ready.hdg.capFull = false) ∧
    (let s := { ready with hdg := { ready.hdg with capArmed := true, capTrig := true } }
     s.hdg.capArmed = true ∧ s.hdg.capTrig = true ∧ capDomain s 63 ≠ 2) ∧ bankOn ready 0 = true ∧
    (let s := { ready with hdg := { ready.hdg with bankOn := [(1, false)] } }
     bankOn s 1 = false) := ⟨by decide +kernel, by decide +kernel, by decide +kernel, by decide +kernel⟩

/-- The scrubber runs, its working copies agree with the stored copy, and a pass stands at configuration frame `f`. -/
def scrubbing (f : Nat) : State :=
  let g : ScbCtl := { ready.scb.golden with en := true }
  { ready with scb := { ready.scb with golden := g, copies := [g, g, g], pass := some { next := f, last := 192 } } }

theorem witness_ScrubberPassesAndControls :
    (passesRun (scrubbing 0) = true ∧ (scrubbing 0).scb.pass.isSome = true ∧ twf 0 (scrubbing 0).regs = true) ∧
    (let g := (scrubbing 0).scb.golden
     let s := { scrubbing 0 with scb := { (scrubbing 0).scb with pass := none, copies := [{ g with src := 1 }, g, g] } }
     s.scb.pass = none ∧ s.scb.goldenErr = 0 ∧ passesRun s = true ∧ ({ g with src := 1 } : ScbCtl) ≠ g) ∧
    (let g : ScbCtl := { ready.scb.golden with en := false }
     let s := { ready with scb := { ready.scb with golden := g, copies := [{ g with period := 1 }, { g with period := 2 }, { g with period := 3 }] } }
     passesRun s = false ∧ s.pwr.st ≠ 2 ∧ s.scb.goldenErr = 0) ∧
    (let s := { scrubbing 191 with hdg := { ready.hdg with cfgErr := [(cfgKey true 95 63, 1)] } }
     (191 : Nat) < 192 ∧ s.hdg.load ≠ .loading ∧ bankImage s true = false ∧ ones (tget 0 s.hdg.cfgErr (cfgKey true 95 63)) = 1 ∧
       tget false s.hdg.stuck (cfgKey true 95 63) = false ∧ twf 0 s.hdg.cfg = true ∧ twf 0 s.hdg.cfgErr = true) ∧
    ((scrubbing 192).scb.pass = some { next := 192, last := 192 } ∧ ready.cnd.memErr = []) ∧
    (let s := { ready with cnd := { ready.cnd with memErr := [(7, 2 ^ 31)] } }
     s.cnd.memErr = [(7, 2 ^ 31)] ∧ fld (rd s 0x0830) 0 16 < 65535) :=
  ⟨by decide +kernel, by decide +kernel, by decide +kernel, by decide +kernel, ⟨rfl, rfl⟩, ⟨rfl, by decide +kernel⟩⟩

theorem witness_UpsetsGateAndRepair :
    (let f : Frame := { frame1 with count := 7, st := .ingesting, slots := [{ slot0 with started := false }] }
     let s0 := { scrubbing 0 with hdg := { ready.hdg with cfgErr := [(cfgKey false 65 63, 3)] } }
     let s := { s0 with ang := { s0.ang with frameOpen := true, count48 := 7 }, frm := { s0.frm with frames := [f] } }
     twf 0 s.regs = true ∧ twf 0 s.hdg.cfgErr = true ∧ flipClass (tget 0 s.hdg.cfgErr (cfgKey s.hdg.bank 65 63)) = 2 ∧
       gated s 65 = false ∧ bit (rd s 0x0E00) 7 = false ∧ s.frm.comp = none ∧ repairWords s 65 = none ∧ passesRun s = true) ∧
    (tget 0 ready.hdg.cfgErr (cfgKey true 95 63) = 0 ∧ ones (1 : BitVec 72) = 1) ∧
    (ready.scb.repairing.contains 0 = false ∧ ready.boot.op = none) :=
  ⟨by decide +kernel, by decide +kernel, by decide +kernel⟩

/-- P0 is enabled, with a submission ring of 16 entries. -/
def submitting : State :=
  { wr (wr ready 0x0A10 1) 0x0A60 0 with prt := { ready.prt with sqTail := [(0, 65535)], sqHead := [(0, 65535)] } }

theorem witness_RegisterPairsAndRingPointers :
    (twf 0 submitting.regs = true ∧ twf 0 submitting.staged = true ∧ partOn submitting 0 = true ∧
      (let n := (15 % 65536 + 65536 - tget 0 submitting.prt.sqTail 0) % 65536
       n = 16 ∧ n + sqCount submitting 0 ≤ sqDepth submitting 0) ∧
      (let n := (16 % 65536 + 65536 - tget 0 submitting.prt.sqTail 0) % 65536
       sqDepth submitting 0 < n + sqCount submitting 0) ∧ partOn submitting 1 = false) ∧
    ((let m := (0 % 65536 + 65536 - tget 0 submitting.prt.rqHead 0) % 65536
      m ≤ rqCount submitting 0) ∧
     (let m := (1 % 65536 + 65536 - tget 0 submitting.prt.rqHead 0) % 65536
      rqCount submitting 0 < m) ∧ submitting.prt.changes = [] ∧
     (let v : Word := 0x9BF00000
      v &&& 0x60000000 = 0 ∧ fld v 26 3 < 7 ∧ fld v 20 6 < 2 ^ fld v 26 3) ∧
     (let v : Word := 0x9C000000
      v &&& 0x60000000 = 0 ∧ fld v 26 3 = 7)) ∧
    (bits (rd64 (wr64 ready 0x0508 (2 * 2 ^ 36)) 0x0508) 36 2 = 2) := ⟨by decide +kernel, by decide +kernel, by decide +kernel⟩

-- The ports.

/-- The header of the next packet, of `n` bytes at `a`. -/
def hdrAt (a n : Nat) : LinkHdr := { seq := 0, part := 0, r3 := 0, addr := BitVec.ofNat 32 a, len := BitVec.ofNat 16 n, r10 := 0 }

/-- The same with a reserved field that is not 0. -/
def badHdr (a n : Nat) : LinkHdr := { hdrAt a n with r10 := 1 }

/-- The packet type, the header and the data with their own CRC. -/
def crcOf (typ : Nat) (h : LinkHdr) (d : List Byte) : Word := crc32 (hdrBytes typ h ++ d)

/-- The port answers: submission ring and reply ring of P0 have 16 entries. -/
def linked : State := wr ready 0x0A60 0

theorem witness_LinkPacketsAreJudged :
    twf 0 ready.regs = true ∧ portOn ready = true ∧ ready.boot.ready = true ∧ portOn State.reset = false ∧
    (1, false, Instr.ringWrite (hdrAt 0x20000000 1) [7] 5) ∈ ([(1, false, .ringWrite (hdrAt 0x20000000 1) [7] 5)] : List (Nat × Bool × Instr)) ∧
    (5 : Word) ≠ crcOf 1 (hdrAt 0x20000000 1) [7] ∧ 4096 < (hdrAt 0 4097).len.toNat ∧
    ([] : List Byte).length < (hdrAt 0 4096).len.toNat ∧ (hdrAt 0 4096).len.toNat ≤ 4096 ∧
    (let s := { ready with boot := { ready.boot with ready := false } }
     portOn s = true ∧ s.boot.ready = false) ∧
    arrives ready 1 (hdrAt 0x20000000 1) false [7] (crcOf 1 (hdrAt 0x20000000 1) [7]) ∧
    (let s := { ready with lnk := { ready.lnk with used := 2 } }
     arrives s 1 (hdrAt 0x20000000 1) false [7] (crcOf 1 (hdrAt 0x20000000 1) [7]) ∧ (s.lnk.next - (hdrAt 0x20000000 1).seq).toNat = 0 ∧
       s.lnk.used = 2) ∧
    (let s := { ready with lnk := { ready.lnk with next := 8 } }
     arrives s 1 (hdrAt 0x20000000 1) false [7] (crcOf 1 (hdrAt 0x20000000 1) [7]) ∧ (s.lnk.next - (hdrAt 0x20000000 1).seq).toNat = 8) ∧
    (let s := { ready with lnk := { ready.lnk with next := 9 } }
     arrives s 1 (hdrAt 0x20000000 1) false [7] (crcOf 1 (hdrAt 0x20000000 1) [7]) ∧ 8 < (s.lnk.next - (hdrAt 0x20000000 1).seq).toNat) ∧
    (arrives ready 1 (badHdr 0x20000000 1) false [7] (crcOf 1 (badHdr 0x20000000 1) [7]) ∧ ready.lnk.used < 2 ∧
      (ready.lnk.next - (badHdr 0x20000000 1).seq).toNat = 0 ∧ ¬cleanHdr 1 (badHdr 0x20000000 1)) := by
  simp only [arrives, cleanHdr]; decide +kernel

/-- A message transfer of the opcode and kind given stands open in slot 0; `got` of its 8 bytes have arrived. -/
def transfer (op : Nat) (src : MsgSrc) (got p0 : Nat) : State :=
  let o : Order := { order0 with opcode := op }
  let m : Msg := { ord := o, src := src, len := 8, got := got, data := List.replicate got 0, p0 := p0, p1 := 0, done := false }
  { wr ready 0x0A60 0x44 with prt := { ready.prt with opens := [⟨o, .message⟩], msgs := [(0, m)] } }

/-- A message packet of P0 at the offset `n` of slot 0. -/
def atMsg (n len : Nat) : LinkHdr := hdrAt n len

set_option maxRecDepth 100000 in
theorem witness_AcceptedPacketsTakeEffect :
    (twf 0 linked.regs = true ∧ Memory.wf 0 linked.cnd.mem = true) ∧
    (let e : List Byte := List.replicate 64 1
     let h := hdrAt 0x20000000 64
     accepted linked 1 h false e (crcOf 1 h e) ∧ h.addr.toNat % 64 = 0 ∧ h.len.toNat % 64 = 0 ∧ h.len.toNat ≠ 0 ∧ 0 + 64 / 64 ≤ sqDepth linked 0 ∧
       sqCount linked 0 = 0) ∧
    (let h := hdrAt 0x20000001 1
     accepted linked 1 h false [7] (crcOf 1 h [7]) ∧ h.addr.toNat % 64 ≠ 0) ∧
    (let h := hdrAt 0x20003FFC 4
     accepted linked 2 h true [] (crcOf 2 h []) ∧ h.addr.toNat % 0x4000 + h.len.toNat ≤ 0x4000) ∧
    (let h := hdrAt 0x20003FFC 8
     accepted linked 2 h true [] (crcOf 2 h []) ∧ 0x4000 < h.addr.toNat % 0x4000 + h.len.toNat) ∧
    (let h := hdrAt 0x20003FFC 4
     let s := { linked with lnk := { linked.lnk with next := 1 } }
     arrives s 2 h true [] (crcOf 2 h []) ∧ cleanHdr 2 h ∧ 1 ≤ (s.lnk.next - h.seq).toNat ∧ (s.lnk.next - h.seq).toNat ≤ 8) ∧
    (let h := hdrAt 0x0B08 4
     let d : List Byte := [1, 0, 0, 0]
     accepted linked 3 h false d (crcOf 3 h d) ∧ BitVec.ofNat 32 (leNat d) &&& 0xFFFFFF80 = 0) ∧
    (let h := hdrAt 0x0A84 4
     accepted linked 3 h false [1, 0, 0, 0] (crcOf 3 h [1, 0, 0, 0]) ∧ h.addr.toNat = 0x0A84 + 16 * h.part.toNat) ∧
    (let h := hdrAt 0x0B0C 4
     accepted linked 3 h false [1, 0, 0, 0] (crcOf 3 h [1, 0, 0, 0]) ∧ h.addr.toNat ≠ 0x0A84 ∧ h.addr.toNat ≠ 0x0A88) ∧
    (let h := hdrAt 0xFF00 256
     accepted linked 4 h true [] (crcOf 4 h []) ∧ hasRight linked 0 4 = true ∧ h.addr.toNat + h.len.toNat ≤ 0x10000) ∧
    (let s := transfer 0x0400 .input 0 0
     let d : List Byte := [1, 2, 3, 4]
     accepted s 5 (atMsg 0 4) false d (crcOf 5 (atMsg 0 4) d) ∧ (msgOf s (atMsg 0 4).addr).isSome = true ∧
       fld (atMsg 0 4).addr 0 21 = 0 ∧ 0 + (atMsg 0 4).len.toNat < 8) ∧
    (let s := transfer 0x0300 (.area 0x10010000) 0 0
     accepted s 5 (atMsg 8 0) false [] (crcOf 5 (atMsg 8 0) []) ∧ (msgOf s (atMsg 8 0).addr).isSome = true ∧ canPost s order0 ∧
       accepted s 6 (atMsg 4 4) true [] (crcOf 6 (atMsg 4 4) []) ∧ fld (atMsg 4 4).addr 0 21 + (atMsg 4 4).len.toNat ≤ 8) ∧
    (accepted linked 6 (atMsg 0 4) true [] (crcOf 6 (atMsg 0 4) []) ∧ msgOf linked (atMsg 0 4).addr = none) := by
  refine ⟨?_, ?_, ?_, ?_, ?_, ?_, ?_, ?_, ?_, ?_, ?_, ?_, ?_⟩ <;> (try simp only [accepted, arrives, cleanHdr, canPost]) <;> decide +kernel

/-- The PEC of a write transfer of `d` at `off`, for strap 0. -/
def pecOf (off : Nat) (d : List Byte) : Byte := crc8 (0x70 :: BitVec.ofNat 8 off :: d)

theorem witness_MailboxTransfers :
    twf 0 ready.regs = true ∧ (ready.boot.ports && !ready.boot.inReset) = true ∧ (State.reset.boot.ports && !State.reset.boot.inReset) = false ∧
    ready.prt.mbx = .idle ∧ ready.boot.ready = true ∧ ready.lnk.pecWr = false ∧ ([1] : List Byte) ≠ [] ∧ 63 + ([1] : List Byte).length ≤ 64 ∧
    (let s := { ready with lnk := { ready.lnk with pecWr := true } }
     s.lnk.pecWr = true ∧ pecOf 63 [1] = crc8 (BitVec.ofNat 8 (2 * (0x38 + s.boot.straps.toNat % 4)) :: BitVec.ofNat 8 63 :: [1]) ∧
       pecOf 63 [1] + 1 ≠ crc8 (BitVec.ofNat 8 (2 * (0x38 + s.boot.straps.toNat % 4)) :: BitVec.ofNat 8 63 :: [1])) ∧
    leNat [1, 0, 0, 0] = 1 ∧ leNat [2, 0, 0, 0] = 2 ∧
    (let s := { ready with prt := { ready.prt with mbx := .ready } }
     s.prt.mbx = .ready ∧ s.prt.mbx ≠ .idle) ∧
    (1 : Byte).toNat < 2 ∧ 2 ≤ (2 : Byte).toNat ∧ (64 : Byte) ≠ 0 ∧ (64 : Byte).toNat < 65 ∧ 0x80 + (64 : Byte).toNat ≤ 0x80 + 64 ∧
    (0xC0 : Nat) < (0x81 : Byte).toNat + (64 : Byte).toNat := by decide +kernel

-- The commands of the rings and the mailbox.

/-- The 64 bytes of a submission with TAG 5 and SSEQ 1. -/
def entryOf (op plen mlen : Nat) (ps : List Byte) : List Byte :=
  (leBytes 2 op ++ [5, 0] ++ leBytes 2 plen ++ [0, 0] ++ leBytes 4 mlen ++ [1, 0, 0, 0] ++ ps ++ List.replicate 48 0).take 64

/-- The first order of P0's ring, or with `mbx` the mailbox's. -/
def subOf (mbx : Bool) : Sub := { part := 0, mbx := mbx, idx := 0, stamp := 7 }

/-- P0 has submitted a command, or with `mbx` the mailbox has. -/
def withCmd (mbx : Bool) (op plen mlen : Nat) (ps : List Byte) (s : State) : State :=
  let e := entryOf op plen mlen ps
  let t := { s with prt := { s.prt with subs := [subOf mbx] } }
  if mbx then { t with prt := { t.prt with mbx := .dispatched, mbxCmd := tsets 0 t.prt.mbxCmd 0 e } }
  else fillMem { t with prt := { t.prt with sqTail := [(0, 1)] } } 0x20000000 e

theorem witness_CommandsShareTheirChecks :
    (dispatches State.reset = false ∧ nextOrder ready = none) ∧
    isNext (withCmd false 0x0001 4 0 [0, 0, 1, 0] ready) (subOf false) ∧
    (let s := withCmd false 0x0F00 0 0 [] ready
     isNext s (subOf false) ∧ entryNat (subBytes s (subOf false)) 0 2 = 0x0F00) ∧
    (let s := withCmd false 0x0100 32 0 [] (wr ready 0x0008 4)
     isNext s (subOf false) ∧ safeMode s = true) ∧
    (let s := withCmd true 0x0100 32 0 [] { ready with pwr := { ready.pwr with st := 2 } }
     isNext s (subOf true) ∧ safeMode s = false ∧ s.pwr.st = 2) ∧
    (let s := withCmd false 0x0001 3 1 [0, 0, 1, 0] ready
     isNext s (subOf false) ∧ safeMode s = false ∧ s.pwr.st ≠ 2 ∧ entryNat (subBytes s (subOf false)) 6 1 < 2 ∧
       entryNat (subBytes s (subOf false)) 7 1 = 0 ∧ entryNat (subBytes s (subOf false)) 4 2 ≠ 4) ∧
    (let s := withCmd false 0x0A00 4 0 [1] ready
     let x := { subOf false with beaten := some 3 }
     isNext { s with prt := { s.prt with subs := [x] } } x ∧ x.beaten = some 3 ∧ entryNat (subBytes s x) 16 1 < 3) ∧
    (let s := withCmd false 0x0A01 0 0 [] { ready with grp := { ready.grp with role := 2 } }
     isNext s (subOf false) ∧ member s = true ∧ s.grp.retired = false) := by
  refine ⟨?_, ?_, ?_, ?_, ?_, ?_, ?_, ?_⟩ <;> (try simp only [isNext]) <;> decide +kernel

theorem witness_RegisterAndAngleCommands :
    ((∀ r ∈ ([(0x0000, 0, []), (0x0001, 4, [0, 0, 8, 0]), (0x0001, 4, [0xFC, 0xFF, 1, 0]), (0x0001, 4, [0xFC, 0xFF, 2, 0]), (0x0001, 4, [0, 0, 9, 0]),
        (0x0002, 8, [0x08, 0x0B, 0, 0, 1, 0, 0, 0]), (0x0003, 0, []), (0x0004, 4, [5, 0, 0, 0])] : List (Nat × Nat × List Byte)),
      Takes (withCmd false r.1 r.2.1 0 r.2.2 ready) (subOf false) r.1 r.2.1 0) ∧
    hasRight ready 0 4 = true ∧ writeDeny ready 0 0x0008 = none ∧ (writeDeny ready 1 0x0200).isSome = true ∧ regRow 0xFFFC = none ∧
    writeReserved ready 0x0280 1 = false ∧ (regRow 0x0280).isSome = true ∧
    (let w : Open := ⟨{ order0 with opcode := 0x0400 }, .message⟩
     let s := withCmd false 0x0004 4 0 [5, 0, 0, 0] (transfer 0x0400 .input 0 0)
     Takes s (subOf false) 0x0004 4 0 ∧ w ∈ s.prt.opens ∧ cancellable s w = true ∧ w.ord.tag = 5 ∧
       ∀ y ∈ s.prt.opens, y.ord.part = 0 → y.ord.tag = 5 → y = w)) ∧
    ((∀ r ∈ ([(0x0100, 32, []), (0x0100, 32, [0, 0, 0, 0xFF]), (0x0101, 20, []), (0x0101, 20, [0, 0, 0, 0xFF]), (0x0102, 12, [63]),
        (0x0102, 12, [64]), (0x0103, 16, [3]), (0x0103, 16, [4])] : List (Nat × Nat × List Byte)),
      Takes (withCmd false r.1 r.2.1 0 r.2.2 ready) (subOf false) r.1 r.2.1 0) ∧
    (writeReserved ready 0x0200 0xFF000000 = true ∧ writeReserved ready 0x0238 0xFF000000 = true ∧
      ∀ a ∈ ([0x0264, 0x0268, 0x0280 + 16 * 3, 0x0284 + 16 * 3, 0x0288 + 16 * 3] : List Nat), writeReserved ready a 0 = false)) := ⟨(by
  refine ⟨?_, ?_, ?_, ?_, ?_, ?_, ?_, ?_⟩ <;> (try simp only [Takes, header, isNext]) <;> decide +kernel), (by
  refine ⟨?_, ?_⟩ <;> (try simp only [Takes, header, isNext]) <;> decide +kernel)⟩

/-- A frame program's upload of 160 bytes, of which the last 4 are missing. -/
def uploading : State := transfer 0x0200 .input 4 0

/-- Program 0 is loaded. -/
def programmed : State := { ready with frm := { ready.frm with progs := [(0, { progNone with loaded := true })] } }

theorem witness_FrameProgramCommands :
    (Takes (withCmd false 0x0200 4 160 [0, 0, 0, 0] ready) (subOf false) 0x0200 4 160 ∧ freeSlot ready = some 0 ∧ fpBusy ready 0 = false) ∧
    (Takes (withCmd false 0x0201 4 0 [0, 1, 15, 0] programmed) (subOf false) 0x0201 4 0 ∧ (prog programmed 0).loaded = true ∧
      programmed.arr.bistFail = false) ∧
    (Takes (withCmd false 0x0201 4 0 [4, 1, 15, 0] programmed) (subOf false) 0x0201 4 0 ∧ (4 / 4 : Nat) ≠ (subOf false).part) ∧
    Takes (withCmd false 0x0203 4 0 [16, 0, 0, 0] programmed) (subOf false) 0x0203 4 0 ∧
    (Takes (withCmd false 0x0203 4 0 [0, 0, 0, 0] programmed) (subOf false) 0x0203 4 0 ∧ fpBusy programmed 0 = false) ∧
    (let s := withCmd false 0x0202 4 0 [1, 0, 0, 0] { ready with frm := computing.frm }
     Takes s (subOf false) 0x0202 4 0 ∧ s.frm.comp = some comp0 ∧ comp0.fp ≠ 1) ∧
    (let s := withCmd false 0x0202 4 0 [0, 0, 0, 0] { ready with frm := computing.frm }
     Takes s (subOf false) 0x0202 4 0 ∧ s.frm.comp = some comp0 ∧ comp0.fp = 0 ∧ fpBusy s 0 = true) ∧
    unanswered (withCmd false 0x0202 4 0 [0, 0, 0, 0] { ready with frm := computing.frm }) comp0 ∧
    (let h := atMsg 4 4
     let d : List Byte := [1, 2, 3, 4]
     accepted uploading 5 h false d (crcOf 5 h d) ∧ (msgOf uploading h.addr).isSome = true ∧ fld h.addr 0 21 = 4 ∧ 4 + h.len.toNat = 8 ∧
       canPost uploading order0 ∧ fpBusy uploading 0 = false ∧ Memory.wf 0 uploading.cnd.mem = true) := by
  refine ⟨?_, ?_, ?_, ?_, ?_, ?_, ?_, slots_computing, ?_⟩ <;> (try simp only [Takes, header, isNext, accepted, arrives, cleanHdr, canPost]) <;> decide +kernel

/-- P0 has an exchange area of 1 KiB and a keeper area of 1 KiB; each message slot is free. -/
def withAreas (s : State) : State :=
  [(0x0A20, 0x0100), (0x0A30, 0x0101)].foldl (fun t e => wr t e.1 (BitVec.ofNat 32 e.2)) s

theorem witness_DataCommands :
    (hasRight ready 0 2 = true ∧ 40 ≤ (keepArea (withAreas ready) 0).2 ∧ 40 ≤ (xchArea (withAreas ready) 0).2 ∧ freeSlot ready = some 0) ∧
    (∀ r ∈ ([(0x0300, 12, 0, [0, 0, 0, 0, 4, 0, 0, 0, 32, 0, 0, 0]), (0x0300, 12, 0, [1, 0, 0, 0, 0, 0, 0, 0, 40, 0, 0, 0]),
        (0x0300, 12, 0, [2]), (0x0300, 12, 0, [1, 0, 0, 0, 2]), (0x0300, 12, 0, [1, 0, 0, 0, 0, 0, 0, 0, 2]),
        (0x0301, 16, 0, [0, 0, 0, 0, 0, 0, 0, 0, 4, 0, 0, 0, 9]), (0x0301, 16, 0, [1, 0, 0, 0, 0, 0, 0, 0, 4, 0, 0, 0, 9]),
        (0x0301, 12, 40, [0, 0, 0, 0, 0, 0, 0, 0, 40, 0, 0, 0])] : List (Nat × Nat × Nat × List Byte)),
      Takes (withCmd false r.1 r.2.1 r.2.2.1 r.2.2.2 (withAreas ready)) (subOf false) r.1 r.2.1 r.2.2.1) ∧
    (let s := transfer 0x0301 .input 0 1
     let h := atMsg 0 4
     accepted s 5 h false [1, 2, 3, 4] (crcOf 5 h [1, 2, 3, 4]) ∧ (msgOf s h.addr).isSome = true ∧ 0 + h.len.toNat < 8 ∧ fld h.addr 0 21 = 0) ∧
    (let s := transfer 0x0301 .input 4 0
     let h := atMsg 4 4
     accepted s 5 h false [1, 2, 3, 4] (crcOf 5 h [1, 2, 3, 4]) ∧ (msgOf s h.addr).isSome = true ∧ 4 + h.len.toNat = 8 ∧ fld h.addr 0 21 = 4 ∧
       s.prt.changes = []) := by
  refine ⟨?_, ?_, ?_, ?_⟩ <;> (try simp only [Takes, header, isNext, accepted, arrives, cleanHdr]) <;> decide +kernel

theorem witness_LoadAndCaptureCommands :
    (tfind ready.arr.topArm 0 = none ∧ topHeld ready 0 = false ∧ ready.prt.opens = [] ∧ hasRight ready 0 1 = true ∧ freeSlot ready = some 0 ∧
      ready.hdg.load = .idle ∧ flashPending ready 2 = false ∧ ready.hdg.capArmed = false ∧ ready.hdg.capFull = false) ∧
    (∀ r ∈ ([(0x0400, 4, 608, []), (0x0400, 4, 34560, []), (0x0400, 4, 0, [2]), (0x0401, 4, 0, [0x3F, 0xFF]), (0x0402, 4, 0, [1]), (0x0403, 4, 0, [1]),
        (0x0500, 4, 144, []), (0x0500, 4, 37504, []), (0x0500, 4, 0, [1, 15]), (0x0501, 0, 0, [])] : List (Nat × Nat × Nat × List Byte)),
      Takes (withCmd false r.1 r.2.1 r.2.2.1 r.2.2.2 ready) (subOf false) r.1 r.2.1 r.2.2.1) ∧
    topImage ready 15 0 = none ∧
    (let s := { ready with boot := { ready.boot with flash := topMagic.zipIdx.map (fun e => (0xA0000 + e.2, e.1)) } }
     Takes (withCmd false 0x0500 4 0 [1, 0] s) (subOf false) 0x0500 4 0 ∧ topImage s 0 0 = some 0) ∧
    (let s := { ready with hdg := { ready.hdg with load := .armed, capArmed := true } }
     Takes (withCmd false 0x0400 4 0 [1] s) (subOf false) 0x0400 4 0 ∧ s.hdg.load ≠ .idle ∧ s.hdg.capArmed = true) ∧
    (let m : Msg := { ord := order0, src := .input, len := 8, got := 0, data := [], p0 := 0, p1 := 0, done := false }
     let s := { ready with prt := { ready.prt with msgs := [(0, m), (1, m), (2, m), (3, m)] } }
     Takes (withCmd false 0x0402 4 0 [1] s) (subOf false) 0x0402 4 0 ∧ freeSlot s = none) ∧
    (let s := { ready with scb := { ready.scb with nonce := 0xFFFFFFFE } }
     Takes (withCmd false 0x0403 4 0 [1] s) (subOf false) 0x0403 4 0 ∧ BitVec.ofNat 32 (param (withCmd false 0x0403 4 0 [1] s) (subOf false) 0 4) = ~~~s.scb.nonce) := by
  refine ⟨?_, ?_, ?_, ?_, ?_, ?_, ?_⟩ <;> (try simp only [Takes, header, isNext]) <;> decide +kernel

theorem witness_TraceAndFaultCommands :
    (trcReg 0 0 ≤ trcReg 0 0 ∧ trcReg 0 0 + 4 * 9 ≤ trcReg 0 0 + 0x24 ∧ hasRight ready 0 3 = true ∧ hasRight ready 0 5 = true ∧
      hasRight ready 0 6 = true ∧ freeSlot ready = some 0 ∧ (∀ i < 9, writeReserved ready (trcReg 0 0 + 4 * i) 0 = false)) ∧
    (∀ r ∈ ([(0x0600, 8, []), (0x0601, 4, [1, 0]), (0x0601, 4, [0, 16]), (0x0700, 0, []),
        (0x0701, 8, [0, 0x3F, 0, 0, 1, 0, 0, 0]), (0x0701, 8, [0, 0x40]), (0x0701, 8, [0, 0, 0, 0, 0, 2]), (0x0702, 4, [0, 0, 1, 0]),
        (0x0702, 4, [0, 0, 0, 8]), (0x0703, 0, []), (0x0704, 0, [])] : List (Nat × Nat × List Byte)),
      Takes (withCmd false r.1 r.2.1 0 r.2.2 ready) (subOf false) r.1 r.2.1 0) ∧
    Takes (withCmd false 0x0600 40 0 (leBytes 2 (trcReg 0 0) ++ [9, 0] ++ List.replicate 36 0) ready) (subOf false) 0x0600 40 0 ∧
    (let s := { wr ready 0x0E04 0x20 with flt := { ready.flt with bankF := [(0, true)], ret := [(0, 0xFFFF)] } }
     Takes (withCmd false 0x0701 8 0 [0, 0, 0, 0, 0x20] s) (subOf false) 0x0701 8 0 ∧ tget false s.flt.bankF 0 = true ∧ s.boot.op = none) ∧
    (let r : List Byte := List.replicate 16384 0
     r.length = 16384) ∧ twf 0xFF ready.boot.flash = true ∧ ready.boot.factory < 256 ∧ ready.boot.waiting = [] ∧ ready.boot.op = none ∧
    ready.flt.capturing = [] := by
  refine ⟨?_, ?_, ?_, ?_, List.length_replicate, ?_, ?_, ?_, ?_, ?_⟩ <;> (try simp only [Takes, header, isNext]) <;> decide +kernel

/-- A flash operation runs for `order0`, which waits for it; P0's reply ring is empty. -/
def flashing (op : FlashOp) : State :=
  { wr ready 0x0A60 0x44 with boot := { ready.boot with op := some op }, prt := { ready.prt with opens := [⟨order0, .flash⟩] } }

theorem witness_FlashCommands :
    (hasRight ready 0 7 = true ∧ regionBusy ready 1 = false ∧ regionBusy ready 0 = true ∧ regionBusy ready 6 = false ∧ ready.boot.op = none ∧
      ready.boot.waiting = [] ∧ ready.flt.capturing = [] ∧ freeSlot ready = some 0) ∧
    (∀ r ∈ ([(0x0800, 8, 0, [1, 0, 63, 0, 1, 0]), (0x0800, 8, 0, [6, 0, 0, 0, 4, 0]), (0x0800, 8, 0, [0, 0, 0, 0, 64, 0]), (0x0801, 8, 4, [1, 0, 0, 0, 0xFC, 0xFF, 3]),
        (0x0802, 12, 0, [8, 0, 0, 0, 0, 0, 0, 0, 32]), (0x0802, 12, 0, [0, 0, 0, 0, 0, 0, 0, 0, 36]), (0x0803, 4, 0, [1]), (0x0803, 4, 0, [2])] :
        List (Nat × Nat × Nat × List Byte)),
      Takes (withCmd false r.1 r.2.1 r.2.2.1 r.2.2.2 ready) (subOf false) r.1 r.2.1 r.2.2.1) ∧
    (let s := flashing (.erase 64 1 order0)
     Takes (withCmd false 0x0800 8 0 [1, 0, 63, 0, 1, 0] s) (subOf false) 0x0800 8 0 ∧ s.boot.op.isSome = true ∧ s.boot.waiting = [] ∧
       regionBusy s 1 = false) ∧
    (let s := flashing (.erase 64 1 order0)
     canPost s order0 ∧ twf 0xFF s.boot.flash = true ∧ Memory.wf 0 s.cnd.mem = true ∧ (∀ w ∈ s.prt.opens, w.wait = .flash) ∧
       (flashing (.select 0 order0)).boot.op = some (.select 0 order0)) ∧
    (let o : Order := { order0 with opcode := 0x0801 }
     let s := transfer 0x0801 .input 0 0
     let s := { s with boot := { s.boot with op := some (.program 0x40000 8 0 0 none false o) } }
     let h := atMsg 0 4
     accepted s 5 h false [1, 2, 3, 4] (crcOf 5 h [1, 2, 3, 4]) ∧ (msgOf s h.addr).isSome = true ∧ 0 + h.len.toNat ≤ 8 ∧
       ∀ k < 4, tget 0xFF s.boot.flash (0x40000 + 0 + k) = 0xFF) := by
  refine ⟨?_, ?_, ?_, ?_, ?_⟩ <;> (try simp only [Takes, header, isNext, accepted, arrives, cleanHdr, canPost]) <;> decide +kernel

-- Power, boot, temperature and the log.

theorem witness_PowerOrdersAndResets :
    twf 0 ready.regs = true ∧
    (∀ n ∈ ([0, 1, 2] : List (BitVec 8)), Takes (withCmd false 0x0A00 4 0 [n] ready) (subOf false) 0x0A00 4 0) ∧
    (let s := ordered 0 1
     Takes (withCmd false 0x0A00 4 0 [2] s) (subOf false) 0x0A00 4 0 ∧ s.pwr.pend = true ∧ 2 ≠ s.pwr.st) ∧
    (let w : Open := ⟨{ order0 with mbx := true, opcode := 0x0A00 }, .power 1⟩
     let s := { ready with prt := { ready.prt with opens := [w] } }
     Takes (withCmd false 0x0A00 4 0 [2] s) (subOf false) 0x0A00 4 0 ∧ w.ord.mbx = true ∧ w.ord.opcode = 0x0A00) ∧
    (let w : Open := ⟨{ order0 with opcode := 0x0A00 }, .power 1⟩
     let s := withCmd true 0x0A00 4 0 [2] { ordered 0 1 with prt := { ready.prt with opens := [w] } }
     isNext s (subOf true) ∧ header s (subOf true) 0x0A00 4 0 ∧ safeMode s = false ∧ canPost s w.ord ∧ (∀ y ∈ s.prt.subs, y.mbx = true) ∧
       w.ord.mbx = false ∧ 2 ≠ s.pwr.st) ∧
    (let s := withCmd true 0x0A01 0 0 [] ready
     isNext s (subOf true) ∧ header s (subOf true) 0x0A01 0 0 ∧ s.prt.changes = []) ∧
    ((0x7F : BitVec 7).getLsbD 0 = true ∧ (0x7F : BitVec 7).getLsbD 6 = true ∧ (0x7E : BitVec 7).getLsbD 0 = false ∧
      (gport ready 0).st = .down) ∧
    (let s := { ready with now := 200000000 }
     s.boot.ready = true ∧ 200000000 ≤ s.now - s.boot.readyAt ∧ ready.now - ready.boot.readyAt < 200000000) := by
  refine ⟨?_, ?_, ?_, ?_, ?_, ?_, ?_, ?_⟩ <;> (try simp only [Takes, header, isNext, canPost]) <;> decide +kernel

/-- A firmware image of version `v` with one word of code. -/
def fwImage (v : Nat) : List Byte :=
  let code : List Byte := [0, 0, 0, 0]
  imageWith fwMagic (leBytes 1 Config.pagenVersion ++ leBytes 1 Config.groupVersion ++ leBytes 2 0 ++ leBytes 4 4 ++ leBytes 4 0 ++ leBytes 4 (crc32 code).toNat ++ leBytes 4 v)
    (leBytes 4 0 ++ leBytes 4 4 ++ leBytes 4 0 ++ leBytes 4 0 ++ leBytes 4 (crc32 code).toNat) code

/-- The device in reset with these images in the slots A and B, erased where there is none. -/
def inSlots (a b : List Byte) : State :=
  { State.reset with boot := { State.reset.boot with
      flash := (a.zipIdx.map (fun (e : Byte × Nat) => (e.2, e.1)) ++ b.zipIdx.map (fun (e : Byte × Nat) => (0x40000 + e.2, e.1))).filter (fun (e : Nat × Byte) => e.2 ≠ 0xFF) } }

set_option maxRecDepth 100000 in
theorem witness_BootStartsAnImage :
    (State.reset.boot.inReset = true ∧ State.reset.pwr.shutdown = false ∧ twf 0 State.reset.regs = true ∧
      Memory.wf 0 State.reset.cnd.mem = true ∧ State.reset.boot.cause < 16 ∧ State.reset.boot.tries < 2 ∧ ready.boot.inReset = false) ∧
    (fwUsable State.reset 0 = false ∧ fwUsable State.reset 1 = false ∧ newestSel State.reset = none) ∧
    (let s := inSlots (fwImage 1) (fwImage 2)
     fwUsable s 0 = true ∧ fwUsable s 1 = true ∧ newestSel s = none ∧ fwCheck s 1 = none ∧
       entryNat (fwHeader s 0) 0x24 4 < entryNat (fwHeader s 1) 0x24 4) ∧
    (let s := inSlots (fwImage 1) ((fwImage 2).take 99 ++ [1])
     fwUsable s 0 = true ∧ fwUsable s 1 = true ∧ fwCheck s 1 ≠ none ∧ fwCheck s 0 = none) ∧
    (let s := { State.reset with boot := { State.reset.boot with cause := 6, tries := 4 } }
     s.boot.cause = 6 ∧ s.boot.tries = 4) := ⟨by decide +kernel, by decide +kernel, by decide +kernel, by decide +kernel, by decide +kernel⟩

theorem witness_TemperatureAndThrottle :
    twf 0 ready.regs = true ∧ ready.boot.inReset = false ∧ ready.pwr.arrClk < 256 ∧
    (4 * (fld (rd ready 0x0F84) 16 8 : Nat) : Int) ≤ 439 ∧ ready.pwr.temp < (4 * (fld (rd ready 0x0F84) 16 8 : Nat) : Int) ∧
    (let s := { ready with pwr := { ready.pwr with shutdown := true } }
     s.pwr.shutdown = true) ∧
    (let s := { wr ready 0x0300 100 with pwr := { ready.pwr with temp := 439 } }
     s.pwr.st = 0 ∧ s.frm.comp = none ∧ fld (rd s 0x0300) 0 8 < s.pwr.arrClk ∧ fld (rd s 0x0300) 0 8 ≤ s.pwr.cndClk ∧
       (4 * (fld (rd s 0x0F84) 0 8 : Nat) : Int) ≤ s.pwr.temp) ∧
    (let s := { wr ready 0x0300 100 with pwr := { ready.pwr with temp := 439, arrClk := 100 } }
     s.pwr.arrClk = fld (rd s 0x0300) 0 8 ∧ (4 * (fld (rd s 0x0F84) 0 8 : Nat) : Int) + 12 ≤ s.pwr.temp ∧ fld (rd s 0x0300) 0 8 < s.pwr.cndClk) ∧
    (let s := { wr ready 0x0300 100 with pwr := { ready.pwr with arrClk := 150, cndClk := 150, upCnd := 9, upArr := 9 } }
     s.pwr.temp < (4 * (fld (rd s 0x0F84) 0 8 : Nat) : Int) - 4 * (fld (rd s 0x0F84) 8 8 : Nat) ∧
       s.pwr.cndClk < max (fld (rd s 0x0104) 0 8) (fld (rd s 0x0300) 0 8) ∧ 9 ≤ s.pwr.upCnd) := by decide +kernel

/-- One record waits for the log. -/
def logging (slot : Nat) (lastFail : Bool) : State :=
  { ready with flt := { ready.flt with
      ring := [{ code := 0x123, frmcnt := 1, suppr := 0, uptime := 2, data := [1, 2, 3, 4, 5, 6, 7, 8] }], slot := slot,
      lastFail := lastFail } }

theorem witness_FaultLogIsWritten :
    (let s := logging 127 false
     s.boot.ready = true ∧ s.boot.op = none ∧ s.flt.capturing = [] ∧ s.pwr.st ≠ 2 ∧ s.flt.own = [] ∧ s.flt.ring.length = 1 ∧
       bothFailed s = false ∧ twf 0xFF s.boot.flash = true ∧ s.flt.seq + 1 < 2 ^ 32 - 1 ∧ twf 0 s.regs = true ∧ s.flt.slot < 128 ∧
       s.flt.active < 2 ∧ tget false s.flt.bankF 1 = false) ∧
    ((logging 127 true).flt.lastFail = true ∧ 128 ≤ (logging 128 false).flt.slot ∧ nextSector (logging 128 false) 0 0 < 16) ∧
    (bothFailed ready = false ∧ ready.flt.ring = []) ∧
    (let w : Rate := { at_ := 0, n := 3, data := [1, 2, 3, 4, 5, 6, 7, 8] }
     let s := { ready with now := 200000 * 1000, flt := { ready.flt with rates := [(0x123, w)] } }
     tfind s.flt.rates 0x123 = some w ∧ w.n ≠ 0 ∧ w.at_ + 1000 ≤ upMs s ∧ s.flt.hourN < 1024 ∧ s.flt.ring.length < 16 ∧
       w.data.length = 8 ∧ tfind s.flt.rates 0x124 = none) ∧
    (let s := { ready with now := 3600000 * 200000, flt := { ready.flt with hourSup := 1 } }
     s.boot.ready = true ∧ s.flt.hourAt + 3600000 * 200000 ≤ s.now ∧ s.flt.hourSup ≠ 0) := by decide +kernel

-- Groups.

/-- Position 0 of a formed pair with the role given; port 0 is UP, and these frames sent on it are not acknowledged. -/
def paired (role : Nat) (unacked : List (Nat × Nat)) : State :=
  let p : Port := { portZero with st := .up, peer := some 1, lanes := 0xF, unacked := unacked, sendSeq := 9 }
  { ready with grp := { ready.grp with
      role := role, members := 3, leadPos := (if role = 1 then 0 else 1), stbyPos := some (if role = 1 then 1 else 0), ports := [(0, p)] } }

/-- Two chips train, of which this one has position 0 and has been ordered to form the group. -/
def forming : State :=
  { ready with
    grp := { ready.grp with forming := true, need := 2, ports := [(0, { portZero with st := .training }), (1, { portZero with st := .training })] }
    prt := { ready.prt with opens := [⟨order0, .form⟩] } }

/-- The peer at position 1. -/
def peer1 : ChipInfo :=
  { strap := 4, pagen := BitVec.ofNat 8 Config.pagenVersion, group := BitVec.ofNat 8 Config.groupVersion, members := 2 }

/-- What the leader of an idle pair sends. -/
def copy0 : LeaderCopy := { admitted := none, count := 0, regs := [], progs := [], code := [], top := [], cfg := [], power := none }

theorem witness_GroupFormation :
    twf 0 ready.regs = true ∧
    (∀ n ∈ ([1, 2, 4, 5] : List Byte), Takes (withCmd false 0x0900 4 0 [n] ready) (subOf false) 0x0900 4 0) ∧
    (Takes (withCmd false 0x0900 4 0 [2] forming) (subOf false) 0x0900 4 0 ∧ forming.grp.forming = true ∧ ready.grp.forming = false) ∧
    Takes (withCmd false 0x0901 0 0 [] ready) (subOf false) 0x0901 0 0 ∧
    ((gport ready 0).st = .down ∧
      (let s := { forming with grp := { forming.grp with forming := false } }
       (gport s 0).st = .training ∧ s.grp.forming = false)) ∧
    ((gport forming 0).st = .training ∧ forming.grp.role = 0 ∧ forming.grp.known = [] ∧ peer1.strap ≠ forming.boot.straps ∧
      canPost forming order0 ∧ Memory.wf 0 forming.cnd.mem = true) ∧
    (linkedPos 0 1 = true ∧ linkedPos 0 3 = false ∧ peer1.members = forming.grp.need ∧ (0 ^^^ 1 : Nat) = 1 ∧
      forming.grp.ckLeft + forming.grp.ckSealed = 0 ∧
      (let u := { forming with grp := { forming.grp with members := 3, leadPos := 0, stbyPos := none, known := [peer1] } }
       admitFail (loadSet u true (fun _ q => q.enabled)) (gclk forming) (fmin forming) = none)) ∧
    (let s := { forming with boot := { forming.boot with straps := 4 } }
     s.boot.straps.toNat / 4 = 1 ∧ copy0.admitted = none ∧ s.prt.opens.length = 1 ∧ s.prt.changes = [] ∧ ({ peer1 with strap := 0 } : ChipInfo).strap.toNat / 4 < 1) := by
  refine ⟨?_, ?_, ?_, ?_, ?_, ?_, ?_, ?_⟩ <;> (try simp only [Takes, header, isNext, canPost]) <;> decide +kernel

theorem witness_GroupLinks :
    twf 0 (paired 1 []).regs = true ∧ (gport ready 0).st ≠ .up ∧
    (let s := paired 1 [(7, 4), (8, 5)]
     (gport s 0).st = .up ∧ (gport s 0).unacked = [(7, 4)] ++ (8, 5) :: [] ∧ s.grp.role ≠ 0 ∧ ∀ u ∈ (gport s 0).unacked, u.1 ≠ 6) ∧
    (let s0 := paired 1 [(8, 5)]
     let s := setGport s0 0 { gport s0 0 with resends := 7 }
     (gport s 0).resends + 1 ≤ fld (rd s 0x0C08) 0 4) ∧
    (let s0 := paired 0 [(8, 5)]
     let s := setGport s0 0 { gport s0 0 with resends := 8, exhausted := some 0 }
     fld (rd s 0x0C08) 0 4 < (gport s 0).resends + 1 ∧ s.now ≤ 200000000 ∧ s.grp.role = 0) ∧
    (let s0 := { paired 0 [(8, 5)] with now := 40000 }
     let s := setGport s0 0 { gport s0 0 with st := .training, exhausted := some 0 }
     (gport s 0).st = .training ∧ (gport s 0).exhausted ≠ none ∧ 40000 ≤ s.now - (gport s 0).trainAt ∧ s.grp.role = 0) ∧
    (let s0 := { paired 1 [] with now := 2000000 }
     let s := setGport s0 0 { gport s0 0 with st := .training }
     grouped s = true ∧ s.pwr.st ≠ 2 ∧ 2000000 ≤ s.now - (gport s 0).trainAt ∧ s.grp.role = 1 ∧ s.frm.comp = none ∧
       s.grp.members = BitVec.ofNat 4 (2 ^ ownPos s + 2 ^ peerPos s 0)) ∧
    ((gport (paired 1 []) 0).expSeq ≠ 1 ∧ 400 ≤ ({ paired 1 [] with now := 400 } : State).now - (gport (paired 1 []) 0).sentAt) := by
  decide +kernel

theorem witness_GroupFrames :
    (twf 0 (paired 2 []).regs = true ∧ (gport (paired 2 []) 0).st = .up ∧ (gport (paired 2 []) 0).expSeq = (0 : Byte).toNat ∧
      2 ≤ (paired 2 []).grp.role ∧ (paired 1 []).grp.role = 1 ∧ (gport (paired 1 []) 0).st = .up) ∧
    (let s := { paired 2 [] with frm := computing.frm }
     s.frm.comp = some comp0 ∧ comp0.handlerDone = false) ∧
    (let s := { paired 2 [] with frm := { startable.frm with frames := startable.frm.frames } }
     s.frm.comp = none ∧ s.frm.drained = true ∧ s.frm.drainChk = false ∧ s.frm.frames.length = 1 ∧ (∀ f ∈ s.frm.frames, f.st = .closed) ∧
       s.pwr.arrClk = 200) ∧
    (let s0 := clock 4 .acquiring
     let s := { s0 with grp := (paired 2 []).grp }
     angSrc s = 4 ∧ s.ang.st = .acquiring ∧ s.ang.frameOpen = true ∧ s.ang.phase < 5) ∧
    (1 = (paired 2 []).grp.leadPos ∧ 1 = ownPos (paired 2 []) ^^^ 1) ∧
    (let s0 := paired 2 []
     let c : CkptCtl := { prt := Prt.reset, progs := [], frames := [] }
     let s := { s0 with grp := { s0.grp with slots := [(0, { ckptZero with ctl := some c })] } }
     s.grp.role = 2 ∧ (ckptSlot s (ckptTarget s)).ctl.isSome = true) ∧
    unanswered { paired 1 [] with frm := computing.frm } comp0 ∧ unanswered { paired 2 [] with frm := computing.frm } comp0 ∧
    ((paired 1 []).grp.retired = false ∧ (paired 1 []).frm.comp = none) :=
  ⟨by decide +kernel, by decide +kernel, by decide +kernel, by decide +kernel, by decide +kernel, by decide +kernel, slots_computing,
    slots_computing, by decide +kernel⟩

/-- The standby of a pair follows its leader's clock; frame 7 is open; it has not heard the leader for 1 s. -/
def supervised : State :=
  let s := clock 0xC .locked
  { s with
    now := 200000000, grp := (paired 2 []).grp
    ang := { s.ang with count48 := 7, anyOpened := true }
    frm := { s.frm with frames := [{ frame1 with count := 7, st := .ingesting, slots := [] }] } }

theorem witness_GroupSupervision :
    (twf 0 supervised.regs = true ∧ ready.grp.role = 0 ∧ (paired 1 []).grp.role = 1 ∧ (paired 1 []).grp.retired = false) ∧
    (let s := { paired 2 [] with pwr := { ready.pwr with st := 2 } }
     2 ≤ s.grp.role ∧ s.pwr.st = 2) ∧
    (supervised.pwr.st = 0 ∧ supervised.ang.frameOpen = true ∧ supervised.ang.anyOpened = true ∧ supervised.ang.st = .locked ∧
      angSrc supervised = 4 ∧ angEn supervised = true ∧ supervised.prt.changes = [] ∧ supervised.prt.opens = [] ∧
      supervised.scb.repaired = [] ∧ supervised.smp.lanes = [] ∧ supervised.grp.forming = false ∧ supervised.pwr.pend = false ∧
      (∀ f ∈ supervised.frm.frames, f.st = .ingesting ∧ f.count = supervised.ang.count48)) ∧
    (20000 ≤ ({ paired 1 [] with now := 20000 } : State).now - (paired 1 []).grp.sentAt ∧ (paired 1 []).grp.quiesced = false) ∧
    (2048 ≤ supervised.now - supervised.grp.lastAng) ∧
    (let dueAt := max 200000 (8 * (rd supervised 0x024C).toNat)
     let silent := supervised.now - max (tget 0 supervised.grp.heard supervised.grp.leadPos) (tget 0 supervised.grp.heard 4)
     2 * dueAt ≤ silent ∧ bestSlot supervised = none ∧ supervised.grp.quiesced = false ∧ supervised.frm.comp = none ∧
       ({ supervised with ang := { supervised.ang with frameOpen := false } } : State).ang.frameOpen = false) ∧
    (let c : CkptCtl := { prt := Prt.reset, progs := [], frames := [] }
     let x : Ckpt := { ckptZero with sealed_ := true, count := 6, ctl := some c }
     let s := { supervised with grp := { supervised.grp with slots := [(0, x)], members := 7, shLock := true } }
     bestSlot s = some (x, c) ∧ 2 ≤ (memberList (s.grp.members &&& ~~~(BitVec.ofNat 4 (2 ^ s.grp.leadPos)))).length ∧ c.prt.opens = [] ∧
       x.count + 1 = s.ang.count48 ∧ tget [] c.prt.hold 0 = [] ∧ (0 : Nat) < rqDepth s 0 ∧ Memory.wf 0 s.cnd.mem = true) ∧
    (let s := { paired 1 [] with now := 200000000 }
     max 200000 (8 * (rd s 0x024C).toNat) ≤ s.now - tget 0 s.grp.heard 1 ∧ s.grp.members.getLsbD 1 = true ∧ (1 : Nat) ≠ ownPos s ∧
       (memberList (s.grp.members &&& ~~~(BitVec.ofNat 4 2))).length ≤ 1) ∧
    unanswered { paired 1 [] with now := 200000000, frm := computing.frm } comp0 :=
  ⟨by decide +kernel, by decide +kernel, by decide +kernel, by decide +kernel, by decide +kernel, by decide +kernel, by decide +kernel,
    by decide +kernel, slots_computing⟩

-- Trace, JTAG and the queue of commands.

/-- Partition 0 has the first 8 blocks of trace and records on every channel; `queue` waits. -/
def tracing (ctl : Nat) (queue : List (Nat × DWord)) : State :=
  let s := wr (wr ready 0x0D10 0x80) (trcReg 0 0) (BitVec.ofNat 32 ctl)
  let s1 := setTrc s 0 { trc s 0 with rec_ := 0xF }
  { s1 with trc := { s1.trc with queue := queue } }

theorem witness_TraceQueueAndStopSchemes :
    ((let s := tracing 0x1F [(0, 5), (0, 6)]
     twf 0 s.trc.buf = true ∧ s.trc.queue.length ≤ 16 ∧ s.trc.queue = (0, 5) :: [(0, 6)] ∧ 256 * trcBlocks s 0 ≠ 0 ∧
       ∀ q < 4, (trc s q).lost = 0) ∧
    (let s0 := tracing 0x1F [(0, 5)]
     let s := setTrc s0 0 { trc s0 0 with lost := 3, fresh := true }
     s.trc.queue = (0, 5) :: [] ∧ (trc s 0).lost ≠ 0 ∧ (trc s 0).triggered = false ∧ (∀ q < 4, q ≠ 0 → (trc s q).lost = 0) ∧
       (trc s 0).fresh = true) ∧
    ready.trc.queue = []) ∧
    (bit (rd (tracing 0 []) (trcReg 0 0)) 0 = false ∧
    (let s := tracing 0x41F []
     bit (rd s (trcReg 0 0)) 0 = true ∧ bit (rd s (trcReg 0 0)) 10 = true ∧ (trc s 0).seqSt < 3 ∧ fld (tget 0 (trc s 0).ctl 8) 0 5 = 0 ∧
       fld (tget 0 (trc s 0).ctl 0x10) 0 5 = 0) ∧
    (let s0 := tracing 0x41F []
     let s := setTrc s0 0 { trc s0 0 with ctl := [(0x10, 0x0000006F)] }
     fld (tget 0 (trc s 0).ctl 0x10) 0 5 = 15 ∧ fld (tget 0 (trc s 0).ctl 0x10) 5 2 = 3) ∧
    (let s0 := tracing 0x81F []
     let s := setTrc s0 0 { trc s0 0 with ctl := [(8, 15)] }
     bit (rd s (trcReg 0 0)) 0 = true ∧ bit (rd s (trcReg 0 0)) 10 = false ∧ fld (tget 0 (trc s 0).ctl 8) 0 5 = 15) ∧
    (let s0 := { tracing 0x81F [] with now := 200 }
     let s := setTrc s0 0 { trc s0 0 with ctl := [(0x0C, 0x10001)], triggered := true }
     (trc s 0).triggered = true ∧ (trc s 0).stopPost = false ∧ bit (tget 0 (trc s 0).ctl 0x0C) 16 = true ∧
       200 * fld (tget 0 (trc s 0).ctl 0x0C) 0 16 ≤ s.now - (trc s 0).trigAt)) := ⟨(by decide +kernel), (by decide +kernel)⟩

theorem witness_TraceControlWrites :
    twf 0 ready.regs = true ∧ twf 0 ready.trc.buf = true ∧ bit (0x2000 : Word) 13 = true ∧ bit (0x1FFF : Word) 13 = false ∧
    (16 : Nat) < fld (0x110 : Word) 4 5 ∧ fld (0x100 : Word) 4 5 ≤ 16 ∧
    (let s := wr ready 0x0D10 0x80
     bit (rd s (trcReg 0 0)) 0 = false ∧ rd s 0x0D10 ≠ 0x40 ∧ (∀ q < 4, fld (rd s (0x0D10 + 4 * q)) 0 4 + fld (rd s (0x0D10 + 4 * q)) 4 5 ≤ 16)) ∧
    (bit (rd (tracing 0x1F []) (trcReg 0 0)) 0 = true ∧ rd (tracing 0x1F []) 0x0D10 = 0x80 ∧ trcBlocks (tracing 0x1F []) 0 ≠ 0) := by
  decide +kernel

theorem witness_JtagPort :
    (let s := { ready with jtag := { Jtag.reset with tap := .capDr } }
     s.jtag.tck = false ∧ s.jtag.tap = .capDr ∧ s.jtag.ir = 0x02) ∧
    (let s := { ready with jtag := { Jtag.reset with tap := .updIr, tck := true } }
     s.jtag.tck = true ∧ s.jtag.tap = .updIr) := by decide +kernel

/-- NOP waits on a device that is ready. -/
def queued : State := { withCmd false 0x0003 0 0 [] ready with pending := [.cmdNop] }

theorem witness_EveryStepKeepsSound : Sound queued ∧ ∃ t, step queued = .next t :=
  ⟨⟨by decide +kernel, by decide +kernel, by decide +kernel, by decide +kernel, by decide +kernel, by decide +kernel, by decide +kernel,
    by decide +kernel, by decide +kernel, by decide +kernel, by decide +kernel, by decide +kernel, by decide +kernel, by decide +kernel,
    by decide +kernel⟩, _, rfl⟩

theorem witness_EveryStepTakesOneCommand : queued.pending = .cmdNop :: [] ∧ ready.pending = [] := ⟨rfl, rfl⟩

theorem witness_ResetIsSound : State.reset.trc.queue.length ≤ 16 ∧ State.reset.flt.ring.length ≤ 16 := by decide +kernel

-- Results of single commands, each worked out from the rule named.

theorem test_add_wraps : dReg (after (.cAdd 3 1 2) fw) 3 = 1 := by decide +kernel -- R351: 0xFFFFFFFF + 2

theorem test_sub_order : dReg (after (.cSub 3 2 1) fw) 3 = 3 := by decide +kernel -- R351: 2 - 0xFFFFFFFF

theorem test_slt_signed : dReg (after (.cSlt 3 1 2) fw) 3 = 1 ∧ dReg (after (.cSltu 3 1 2) fw) 3 = 0 := by decide +kernel -- R340

theorem test_sra_sign : dReg (after (.cSra 3 1 2) fw) 3 = 0xFFFFFFFF ∧ dReg (after (.cSrl 3 1 2) fw) 3 = 0x3FFFFFFF := by
  decide +kernel

theorem test_mul_signed : dReg (after (.cMulS 4 1 2) fw) 4 = 0xFFFFFFFE ∧ dReg (after (.cMulS 4 1 2) fw) 5 = 0xFFFFFFFF := by
  decide +kernel -- R307, R319: -1 * 2, low word first

theorem test_mul_unsigned : dReg (after (.cMulU 4 1 2) fw) 5 = 1 := by decide +kernel -- R307

theorem test_div_by_zero : dReg (after (.cDivU 4 2 0) fw) 4 = 0xFFFFFFFF ∧ dReg (after (.cDivU 4 2 0) fw) 5 = 2 := by
  decide +kernel -- R309

theorem test_kmac_sign : (after (.cKmacS 0 1 2) fw).cnd.k.toList.getD 0 0 = 0xFFFFFFFFFFFFFFFFFE := by decide +kernel -- R307

theorem test_ksat_clamps : (let s := { fw with cnd := { fw.cnd with k := fw.cnd.k.set 0 0x100000000 } }
    dReg (after (.cKsat 3 0 0) s) 3 = 0x7FFFFFFF) := by decide +kernel -- R342

theorem test_clz : dReg (after (.cClz 3 2) fw) 3 = 30 ∧ dReg (after (.cPopc 3 1) fw) 3 = 32 := by decide +kernel

theorem test_movhi : dReg (after (.cMovhi 3 0x8001) fw) 3 = 0x80010000 := by decide +kernel

theorem test_seqi_sign : dReg (after (.cSlti 3 1 0) fw) 3 = 1 := by decide +kernel -- R340: -1 < 0

theorem test_store_little_endian :
    rdMem (after (.cStH 2 1 (.disp 0)) fw) 0x10000010 = 2 ∧ rdMem (after (.cStH 2 1 (.disp 0)) fw) 0x10000011 = 0 := by
  decide +kernel

theorem test_load_sign : (let s := fillMem fw 0x10000010 [0x80]
    dReg (after (.cLdB 3 1 (.disp 0)) s) 3 = 0xFFFFFF80 ∧ dReg (after (.cLdBu 3 1 (.disp 0)) s) 3 = 0x80) := by decide +kernel

theorem test_branch : (after (.cBz 0 2) fw).cnd.pc = 0x10C ∧ (after (.cBz 1 2) fw).cnd.pc = 0x104 := by decide +kernel

theorem test_fabric_sub : (let t := after (.cellSub 9 0 0) (cellWith (4 * 2 ^ 27 + 7 * 2 ^ 21 + 1))
    (cell t 9).cur.acc = 0xFFFFFF ∧ (cell t 9).cur.cy = false) := by decide +kernel -- R125: 0 - 1 borrows

theorem test_fabric_xor : (let t := after (.cellXor 9 0 0) (cellWith (8 * 2 ^ 27 + 7 * 2 ^ 21 + 2 ^ 19 + 0xFF))
    (cell t 9).cur.opb = 0xFFFFFF ∧ (cell t 9).cur.acc = 0) := by decide +kernel -- R122, R123: DST OPB, IMM sign-extended

theorem test_macro_mnot : (after .macroMnot (macroAt 0x14000000 [])).arr.m = 0 := by decide +kernel -- R197: M was all ones

theorem test_macro_addp : tget 0 (after .macroAddp (macroAt 0x02110FFF [])).arr.pp 1 = 63 := by decide +kernel -- R231, R268: 64 - 1

theorem test_macro_fillk : (let t := after .macroFillk (macroAt 0x24100040 [2])
    tget 0 t.arr.planes 64 = 0 ∧ tget 0 t.arr.planes 65 = BitVec.allOnes 16384) := by decide +kernel -- R242: bits 1:0 of 2

theorem test_qei_counts : (after (.qeiCount .forward) (clock 0 .locked)).ang.pos = 1 ∧
    (after (.qeiCount .reverse) (clock 0 .locked)).ang.pos = 0xFFFFFFFF := by decide +kernel -- R46

theorem test_frame_numbers : (after .frameBoundary closing).ang.count48 = 8 ∧ (after .frameBoundary closing).ang.phase = 0 := by
  decide +kernel -- R42

theorem test_start_order : ((after .programStart startable).frm.comp.map (fun c => c.count)) = some 1 := by decide +kernel -- R93

theorem test_nop_replies_ok : rdBytes (after .cmdNop (withCmd false 0x0003 0 0 [] ready)) 0x20004000 6 = [0, 0, 0, 0, 5, 0] := by
  decide +kernel -- R451: KIND 0, OK, TAG 5

theorem test_reg_read_device :
    rdBytes (after .cmdRegRead (withCmd false 0x0001 4 0 [0, 0, 1, 0] ready)) 0x20004020 4 = [0x01, 0x4B, 0x16, 0x0C] := by
  decide +kernel -- R453, R690: the device identifier 0x0C164B01

theorem test_undefined_opcode : rdMem (after .cmdNop (withCmd false 0x0F00 0 0 [] ready)) 0x20004001 = 0x10 := by decide +kernel -- R458

theorem test_power_order : (after .cmdPowerState (withCmd false 0x0A00 4 0 [1] ready)).pwr.target = 1 := by decide +kernel -- R505

theorem test_status_result : fld (after .status ready).lnk.stat 8 3 = 5 := by decide +kernel -- R423

set_option maxRecDepth 100000 in
theorem test_next_advances : (let e : List Byte := List.replicate 64 0
    let h := hdrAt 0x20000000 64
    (after (.ringWrite h e (crcOf 1 h e)) linked).lnk.next = 1) := by decide +kernel -- R424

theorem test_mailbox_go : (after (.mailboxGo [1] 0) ready).prt.mbx = .dispatched := by decide +kernel -- R400

theorem test_reset_causes : (after .rstNAssert ready).boot.cause = 2 ∧ (after (.thermalSample 440) ready).boot.cause = 6 ∧
    (after (.supplyMonitorReset 0x7E) ready).boot.cause = 7 ∧ (after .watchdogExpiry ready).boot.cause = 8 := by decide +kernel -- R633

theorem test_ready_rises : (after (.boot 0 true 5 true 0 false) State.reset).boot.ready = true := by decide +kernel -- R638

theorem test_scrubber_counts_pass : (after .scrubPassEnd (scrubbing 192)).scb.pass = none := by decide +kernel -- R177

theorem test_log_slot : (after (.logRecordWrite true true true) (logging 127 false)).flt.slot = 128 := by decide +kernel -- R614

theorem test_group_heartbeat : (after (.heartbeat 0 0 1 false) (paired 1 [])).grp.heard = [(1, 0)] := by decide +kernel -- R565

theorem test_trace_drains : tget 0 (after .traceQueueWrite (tracing 0x1F [(0, 5)])).trc.buf 0 = 5 := by decide +kernel -- R592

theorem test_idcode : (after (.jtagTckEdge true false false []) { ready with jtag := { Jtag.reset with tap := .capDr } }).jtag.dr.take 9 =
    [true, false, false, false, false, false, false, false, true] := by decide +kernel -- R690: 0x..01, bit 8 of 0x4B01

theorem test_crc32 : crc32 [0x31, 0x32, 0x33, 0x34, 0x35, 0x36, 0x37, 0x38, 0x39] = 0xCBF43926 := by decide +kernel -- R145

theorem test_sha256 : (sha256 [0x61, 0x62, 0x63]).take 4 = [0xBA, 0x78, 0x16, 0xBF] := by decide +kernel -- FIPS 180-4, R148

theorem test_step_takes_front : (match step queued with | .next t => t.pending | _ => [.cmdNop]) = [] := by decide +kernel
end Sys2Proof.Tests
end

section
/-! SUPPORT. The sparse tables: a read after entries are dropped by key, and the write of what a key holds. -/

namespace Sys2Proof.Machine
open Sys2Proof

variable {α : Type}

/-- Keeping the entries whose key passes `f` leaves the values of those keys and the default elsewhere. -/
theorem tget_filter_key (d : α) (t : Tbl α) (f : Nat → Bool) (k : Nat) :
    tget d (t.filter (fun e => f e.1)) k = if f k then tget d t k else d := by
  induction t with
  | nil => simp [tget, tfind]
  | cons e t ih =>
    obtain ⟨j, v⟩ := e
    by_cases hf : f j = true
    · by_cases hj : j = k
      · subst hj
        simp [hf, tget, tfind]
      · simpa [hf, tget, tfind, hj] using ih
    · by_cases hj : j = k
      · subst hj
        simpa [hf] using ih
      · simpa [hf, tget, tfind, hj] using ih

variable [DecidableEq α]

theorem tput_of_tfind (d : α) {t : Tbl α} {lo k : Nat} {v : α} (w : twfFrom d lo t = true) (h : tfind t k = some v) :
    tput t k v = t := by
  induction t generalizing lo with
  | nil => simp [tfind] at h
  | cons e t ih =>
    obtain ⟨j, x⟩ := e
    simp only [twfFrom, Bool.and_eq_true, decide_eq_true_eq] at w
    obtain ⟨-, w⟩ := w
    by_cases hj : j = k
    · simp_all [tfind, tput]
    · simp only [tfind, hj, if_false] at h
      have hk : ¬ k < j := fun l => by simp [tfind_none_of_lt d w (by omega : k < j + 1)] at h
      simp [tput, hj, hk, ih w h]

omit [DecidableEq α] in
theorem tdel_of_tfind_none {t : Tbl α} {k : Nat} (h : tfind t k = none) : tdel t k = t := by
  induction t with
  | nil => rfl
  | cons e t ih =>
    obtain ⟨j, x⟩ := e
    by_cases hj : j = k
    · simp [tfind, hj] at h
    · simp only [tfind, hj, if_false] at h
      simp [tdel, hj, ih h]

theorem tfind_ne_default (d : α) {t : Tbl α} {lo k : Nat} (w : twfFrom d lo t = true) : tfind t k ≠ some d := by
  induction t generalizing lo with
  | nil => simp [tfind]
  | cons e t ih =>
    obtain ⟨j, x⟩ := e
    simp only [twfFrom, Bool.and_eq_true, decide_eq_true_eq] at w
    obtain ⟨⟨-, hx⟩, w⟩ := w
    simp only [tfind]
    split
    · simpa using hx
    · exact ih w

/-- Writing what a key holds already changes nothing. -/
theorem tset_tget (d : α) {t : Tbl α} (w : twf d t = true) (k : Nat) : tset d t k (tget d t k) = t := by
  cases h : tfind t k with
  | none => simp [tset, tget, h, tdel_of_tfind_none h]
  | some v =>
    have hv : v ≠ d := fun e => tfind_ne_default d w (e ▸ h)
    simp [tset, tget, h, hv, tput_of_tfind d w h]

end Sys2Proof.Machine
end

section
/-! SUPPORT. A reserved field: the registers that it can change, and that the register bank keeps its canonical form. -/

namespace Sys2Proof.Machine
open Sys2Proof

theorem wr_regs_wf {s : State} (a : Nat) (v : Word) (w : twf 0 s.regs = true) : twf 0 (wr s a v).regs = true :=
  twf_tset 0 a v w

theorem wr_rd_self {s : State} (w : twf 0 s.regs = true) (a : Nat) : wr s a (rd s a) = s := by
  rw [wr, rd, tset_tget 0 w]

theorem noteFirst_regs_wf {s : State} (n : Nat) (w : twf 0 s.regs = true) : twf 0 (noteFirst s n).regs = true := by
  unfold noteFirst
  split
  · exact wr_regs_wf _ _ w
  · exact w

theorem ringPut_regs_wf {s : State} (r : LogRec) (w : twf 0 s.regs = true) : twf 0 (ringPut s r).regs = true := by
  unfold ringPut
  split
  · exact w
  · split
    · exact w
    · exact wr_regs_wf _ _ w

theorem hourPut_regs_wf {s : State} (r : LogRec) (w : twf 0 s.regs = true) : twf 0 (hourPut s r).regs = true := by
  unfold hourPut
  split
  · exact ringPut_regs_wf _ (s := { s with flt := { s.flt with hourN := s.flt.hourN + 1 } }) w
  · exact wr_regs_wf _ _ w

theorem logPut_regs_wf {s : State} (code : Nat) (data : List Byte) (w : twf 0 s.regs = true) :
    twf 0 (logPut s code data).regs = true := by
  unfold logPut
  repeat' split
  · exact ringPut_regs_wf _ w
  · exact w
  · exact hourPut_regs_wf _ w
  · exact hourPut_regs_wf _ w

/-- A sticky bit of FLT_STICKY0 touches that register, FLT_FIRST and the two counts of the log. -/
theorem rd_sticky0_ne (s : State) (n : Nat) (data : List Byte) {r : Nat} (h : r ∉ [0x0E00, 0x0E10, 0x0F0C, 0x0F10]) :
    rd (sticky0 s n data) r = rd s r := by
  simp only [List.mem_cons, List.not_mem_nil, or_false, not_or] at h
  obtain ⟨h0, h1, h2, h3⟩ := h
  calc rd (sticky0 s n data) r = rd (setFlag (noteFirst s n) 0x0E00 n) r := (logPut_onlyLog _ _ _).regs r h2 h3
    _ = rd (noteFirst s n) r := rd_setFlag_ne _ _ (Ne.symm h0)
    _ = rd s r := rd_noteFirst_ne s n h1

theorem rd_sticky0_self {s : State} (n : Nat) (data : List Byte) (w : twf 0 s.regs = true) :
    rd (sticky0 s n data) 0x0E00 = rd s 0x0E00 ||| place 1 n :=
  calc rd (sticky0 s n data) 0x0E00 = rd (setFlag (noteFirst s n) 0x0E00 n) 0x0E00 :=
        (logPut_onlyLog _ _ _).regs _ (by decide) (by decide)
    _ = rd (noteFirst s n) 0x0E00 ||| place 1 n := rd_setFlag_self n (noteFirst_regs_wf n w)
    _ = rd s 0x0E00 ||| place 1 n := by rw [rd_noteFirst_ne s n (by decide)]

theorem sticky0_regs_wf {s : State} (n : Nat) (data : List Byte) (w : twf 0 s.regs = true) :
    twf 0 (sticky0 s n data).regs = true :=
  logPut_regs_wf _ _ (wr_regs_wf (s := noteFirst s n) _ _ (noteFirst_regs_wf n w))

theorem rd_reservedField_ne (s : State) (a k : Nat) {r : Nat} (h : r ∉ [0x0E00, 0x0E10, 0x0F0C, 0x0F10]) :
    rd (reservedField s a k) r = rd s r := rd_sticky0_ne s 0 _ h

theorem reservedField_regs_wf {s : State} (a k : Nat) (w : twf 0 s.regs = true) :
    twf 0 (reservedField s a k).regs = true := sticky0_regs_wf 0 _ w

theorem bit_reservedField {s : State} (a k : Nat) (w : twf 0 s.regs = true) :
    bit (rd (reservedField s a k) 0x0E00) 0 = true := by
  rw [reservedField, rd_sticky0_self 0 _ w]
  simp [bit, place]

theorem reservedField_trc (s : State) (a k : Nat) : (reservedField s a k).trc = s.trc :=
  (congrArg State.trc (reservedField_onlyFault s a k).others :)

end Sys2Proof.Machine
end

section
/-! SUPPORT. Recording in one partition's trace: what it leaves alone, and where the entry stands in the merge queue (R584 to R594). -/

namespace Sys2Proof.Machine
open Sys2Proof

/-- A change for partition p's trace alone: the merge queue gains entries of p at its end, the trace RAM and the other units stay. -/
structure Enqueues (p : Nat) (s t : State) : Prop where
  frame : OnlyTrace s t
  buf : t.trc.buf = s.trc.buf
  queue : ∃ es, t.trc.queue = s.trc.queue ++ es ∧ ∀ e ∈ es, e.1 = p
  others q : q ≠ p → trc t q = trc s q

theorem OnlyTrace.eq {s t : State} (h : OnlyTrace s t) : t = { s with trc := t.trc } :=
  (congrArg (fun y : State => { y with trc := t.trc }) h :)

theorem OnlyTrace.rd {s t : State} (h : OnlyTrace s t) (r : Nat) : rd t r = rd s r := by rw [h.eq]; rfl

theorem OnlyTrace.now {s t : State} (h : OnlyTrace s t) : t.now = s.now := by rw [h.eq]

theorem OnlyTrace.blocks {s t : State} (h : OnlyTrace s t) (p : Nat) : trcBlocks t p = trcBlocks s p := by
  rw [trcBlocks, trcBlocks, h.rd]

theorem Enqueues.refl (p : Nat) (s : State) : Enqueues p s s :=
  ⟨rfl, rfl, ⟨[], by simp, by simp⟩, fun _ _ => rfl⟩

theorem Enqueues.trans {p : Nat} {s t u : State} (h : Enqueues p s t) (g : Enqueues p t u) : Enqueues p s u := by
  obtain ⟨es, hq, he⟩ := h.queue
  obtain ⟨fs, gq, ge⟩ := g.queue
  refine ⟨h.frame.trans g.frame, g.buf.trans h.buf, ⟨es ++ fs, ?_, ?_⟩, fun q n => (g.others q n).trans (h.others q n)⟩
  · rw [gq, hq, List.append_assoc]
  · intro e m
    exact (List.mem_append.mp m).elim (he e) (ge e)

theorem trc_setTrc_self (s : State) (p : Nat) (x : TrcP) : trc (setTrc s p x) p = x := by simp [trc_setTrc]

theorem setTrc_enqueues (s : State) (p : Nat) (x : TrcP) : Enqueues p s (setTrc s p x) :=
  ⟨rfl, rfl, ⟨[], by simp, by simp⟩, fun q h => by simp [trc_setTrc, Ne.symm h]⟩

/-- The part of a trace unit that recording entries leaves alone. -/
def TrcP.control (x : TrcP) : TrcP :=
  { x with lastTime := 0, fresh := false, post := 0, lost := 0, lostCh := 0, lostSeen := false, cbr := [], since := 0 }

/-- Entries of p are recorded: its unit's schemes stay, and so does the post-trigger count unless it counts. -/
structure Recorded (p : Nat) (s t : State) : Prop extends Enqueues p s t where
  unit : (trc t p).control = (trc s p).control
  post : (trc s p).triggered = false ∨ (trc s p).stopPost = true → (trc t p).post = (trc s p).post

theorem Recorded.refl (p : Nat) (s : State) : Recorded p s s := ⟨.refl p s, rfl, fun _ => rfl⟩

theorem Recorded.triggered {p : Nat} {s t : State} (h : Recorded p s t) : (trc t p).triggered = (trc s p).triggered :=
  (congrArg TrcP.triggered h.unit :)

theorem Recorded.stopPost {p : Nat} {s t : State} (h : Recorded p s t) : (trc t p).stopPost = (trc s p).stopPost :=
  (congrArg TrcP.stopPost h.unit :)

theorem Recorded.trans {p : Nat} {s t u : State} (h : Recorded p s t) (g : Recorded p t u) : Recorded p s u :=
  ⟨h.toEnqueues.trans g.toEnqueues, g.unit.trans h.unit, fun c => (g.post (by rwa [h.triggered, h.stopPost])).trans (h.post c)⟩

theorem setTrc_recorded {s : State} {p : Nat} {x : TrcP} (hc : x.control = (trc s p).control) (hp : x.post = (trc s p).post) :
    Recorded p s (setTrc s p x) :=
  ⟨setTrc_enqueues s p x, by rw [trc_setTrc_self, hc], fun _ => by rw [trc_setTrc_self, hp]⟩

theorem countPost_recorded (s : State) (p : Nat) : Recorded p s (countPost s p) := by
  unfold countPost
  dsimp only
  split
  · next h =>
    simp only [Bool.and_eq_true, Bool.not_eq_true'] at h
    refine ⟨setTrc_enqueues s p _, by rw [trc_setTrc_self]; rfl, fun c => ?_⟩
    simp [h.1.1, h.1.2] at c
  · exact .refl p s

/-- The queue with an entry of p at its end, and the clock of p's entries at this instant. -/
def enqueue (s : State) (p : Nat) (e : DWord) : State :=
  setTrc { s with trc := { s.trc with queue := s.trc.queue ++ [(p, e)] } } p
    { trc s p with lastTime := refTime s, fresh := false }

theorem enqueue_recorded (s : State) (p : Nat) (e : DWord) : Recorded p s (enqueue s p e) := by
  refine ⟨⟨rfl, rfl, ⟨[(p, e)], rfl, by simp⟩, fun q h => ?_⟩, ?_, fun _ => ?_⟩
  · rw [enqueue, trc_setTrc, if_neg (Ne.symm h)]
    rfl
  · rw [enqueue, trc_setTrc_self]
    rfl
  · rw [enqueue, trc_setTrc_self]

theorem queuePut_eq_enqueue {s : State} (p c ty v : Nat) (h : s.trc.queue.length < 16) :
    queuePut s p c ty v = countPost (enqueue s p (entryWord ty p (if ty = 1 then 0 else refTime s - (trc s p).lastTime) v)) p :=
  if_pos h

theorem queuePut_recorded (s : State) (p c ty v : Nat) : Recorded p s (queuePut s p c ty v) := by
  by_cases h : s.trc.queue.length < 16
  · rw [queuePut_eq_enqueue p c ty v h]
    exact (enqueue_recorded s p _).trans (countPost_recorded _ p)
  · rw [queuePut, if_neg h]
    exact setTrc_recorded rfl rfl

theorem timePut_recorded (s : State) (p : Nat) : Recorded p s (timePut s p) := by
  unfold timePut
  dsimp only
  split
  · exact queuePut_recorded s p 4 1 _
  · exact .refl p s

theorem lostPut_recorded (s : State) (p : Nat) : Recorded p s (lostPut s p) := by
  unfold lostPut
  dsimp only
  split
  · exact .refl p s
  · refine (timePut_recorded s p).trans ?_
    split
    · refine Recorded.trans ?_ (queuePut_recorded _ p 4 0xF _)
      exact setTrc_recorded rfl rfl
    · exact .refl p _

theorem putEntry_recorded (s : State) (p c ty v : Nat) : Recorded p s (putEntry s p c ty v) := by
  unfold putEntry
  split
  · exact .refl p s
  · exact (lostPut_recorded s p).trans ((timePut_recorded _ p).trans (queuePut_recorded _ p c ty v))

theorem flushCbr_recorded (s : State) (p : Nat) : Recorded p s (flushCbr s p) := by
  unfold flushCbr
  dsimp only
  split
  · exact .refl p s
  · refine Recorded.trans ?_ (putEntry_recorded _ p 0 4 _)
    exact setTrc_recorded rfl rfl

/-! The room that an entry needs: LOST and TIME may precede it, but not once an entry has been written at this instant. -/

/-- No LOST and no TIME is due before the next entry of p. -/
structure UpToDate (p : Nat) (s : State) : Prop where
  lost : (trc s p).lost = 0
  fresh : (trc s p).fresh = false
  recent : refTime s - (trc s p).lastTime < 4096

/-- The queue has room for `k` entries of p and for what is due before them. -/
def Fits (p k : Nat) (s : State) : Prop :=
  UpToDate p s ∧ s.trc.queue.length + k ≤ 16 ∨ s.trc.queue.length + k + 2 ≤ 16

theorem UpToDate.of_unit {p : Nat} {s t : State} (h : UpToDate p s) (hn : t.now = s.now) (hl : (trc t p).lost = (trc s p).lost)
    (hf : (trc t p).fresh = (trc s p).fresh) (ht : (trc t p).lastTime = (trc s p).lastTime) : UpToDate p t :=
  ⟨hl.trans h.lost, hf.trans h.fresh, by rw [refTime, hn, ht]; exact h.recent⟩

theorem Fits.setTrc {p k : Nat} {s : State} (h : Fits p k s) (x : TrcP) (hl : x.lost = (trc s p).lost)
    (hf : x.fresh = (trc s p).fresh) (ht : x.lastTime = (trc s p).lastTime) : Fits p k (setTrc s p x) := by
  refine h.imp (fun ⟨u, l⟩ => ⟨u.of_unit rfl ?_ ?_ ?_, l⟩) id <;> rwa [trc_setTrc_self]

theorem Fits.mono {p k n : Nat} {s : State} (h : Fits p k s) (l : n ≤ k) : Fits p n s :=
  h.imp (fun ⟨u, m⟩ => ⟨u, by omega⟩) (fun m => by omega)

theorem countPost_unit (s : State) (p : Nat) : ∃ n, trc (countPost s p) p = { trc s p with post := n } := by
  unfold countPost
  dsimp only
  split
  · exact ⟨_, trc_setTrc_self s p _⟩
  · exact ⟨_, rfl⟩

theorem countPost_queue (s : State) (p : Nat) : (countPost s p).trc.queue = s.trc.queue := by
  unfold countPost
  dsimp only
  split <;> rfl

/-- With room in the queue an entry goes to its end; the unit's clock stands at this instant and its losses are as before. -/
theorem queuePut_of_room {s : State} (p c ty v : Nat) (h : s.trc.queue.length < 16) :
    let t := queuePut s p c ty v
    (∃ dt, t.trc.queue = s.trc.queue ++ [(p, entryWord ty p dt v)]) ∧ (trc t p).lost = (trc s p).lost ∧
      (trc t p).fresh = false ∧ refTime t - (trc t p).lastTime < 4096 := by
  have hn := (queuePut_recorded s p c ty v).frame.now
  rw [queuePut_eq_enqueue p c ty v h] at hn ⊢
  obtain ⟨n, e⟩ := countPost_unit (enqueue s p (entryWord ty p (if ty = 1 then 0 else refTime s - (trc s p).lastTime) v)) p
  rw [enqueue, trc_setTrc_self, ← enqueue] at e
  refine ⟨⟨_, countPost_queue _ p⟩, ?_, ?_, ?_⟩
  · rw [e]
  · rw [e]
  · rw [refTime, hn, e]
    simp [refTime]

theorem timePut_of_upToDate {p : Nat} {s : State} (h : UpToDate p s) : timePut s p = s := by
  simp [timePut, h.fresh, h.recent]

/-- TIME takes one place at most, and after it no TIME is due. -/
theorem timePut_of_room {s : State} (p : Nat) (h : s.trc.queue.length < 16) :
    let t := timePut s p
    t.trc.queue.length ≤ s.trc.queue.length + 1 ∧ (trc t p).lost = (trc s p).lost ∧ (trc t p).fresh = false ∧
      refTime t - (trc t p).lastTime < 4096 := by
  unfold timePut
  dsimp only
  split
  · obtain ⟨⟨dt, hq⟩, hu⟩ := queuePut_of_room p 4 1 (refTime s) h
    exact ⟨by simp [hq], hu⟩
  · next c =>
    simp only [h, decide_true, Bool.and_true, Bool.or_eq_true, decide_eq_true_eq, not_or, Bool.not_eq_true, not_le] at c
    exact ⟨by omega, rfl, c⟩

/-- What comes before an entry takes two places at most, and nothing is due after it. -/
theorem upToDate_timePut_lostPut {s : State} (p : Nat) (h : s.trc.queue.length + 2 < 16) :
    UpToDate p (timePut (lostPut s p) p) ∧ (timePut (lostPut s p) p).trc.queue.length ≤ s.trc.queue.length + 2 := by
  by_cases hz : (trc s p).lost = 0
  · have e : lostPut s p = s := by simp [lostPut, hz]
    obtain ⟨hq, hl, hf, hr⟩ := timePut_of_room p (s := s) (by omega)
    rw [e]
    exact ⟨⟨hl.trans hz, hf, hr⟩, by omega⟩
  · obtain ⟨hq, -⟩ := timePut_of_room p (s := s) (by omega)
    obtain ⟨⟨dt, gq⟩, gl, gf, gr⟩ := queuePut_of_room
      (s := setTrc (timePut s p) p { trc (timePut s p) p with lost := 0, lostCh := 0 }) p 4 0xF
      (4 + (trc (timePut s p) p).lost * 16 + (trc (timePut s p) p).lostCh * 2 ^ 20) (by simp; omega)
    have e : lostPut s p = _ := if_neg hz
    simp only [if_pos (show (timePut s p).trc.queue.length < 16 by omega)] at e
    rw [← e] at gq gl gf gr
    have u : UpToDate p (lostPut s p) := ⟨by rw [gl, trc_setTrc_self], gf, gr⟩
    rw [timePut_of_upToDate u]
    exact ⟨u, by simp [gq]; omega⟩

/-- An entry that fits stands at the end of the queue, and one less fits after it. -/
theorem putEntry_fits {p k : Nat} {s : State} (c ty v : Nat) (hb : trcBlocks s p ≠ 0) (h : Fits p (k + 1) s) :
    Fits p k (putEntry s p c ty v) ∧ ∃ dt, (putEntry s p c ty v).trc.queue.getLast? = some (p, entryWord ty p dt v) := by
  obtain ⟨u, l⟩ : UpToDate p (timePut (lostPut s p) p) ∧ (timePut (lostPut s p) p).trc.queue.length + (k + 1) ≤ 16 := by
    rcases h with ⟨u, l⟩ | l
    · have e : lostPut s p = s := by simp [lostPut, u.lost]
      rw [e, timePut_of_upToDate u]
      exact ⟨u, l⟩
    · obtain ⟨u, m⟩ := upToDate_timePut_lostPut p (s := s) (by omega)
      exact ⟨u, by omega⟩
  obtain ⟨⟨dt, hq⟩, hl, hf, hr⟩ := queuePut_of_room (s := timePut (lostPut s p) p) p c ty v (by omega)
  rw [putEntry, if_neg hb]
  exact ⟨.inl ⟨⟨hl.trans u.lost, hf, hr⟩, by simp [hq]; omega⟩, dt, by simp [hq]⟩

theorem flushCbr_fits {p k : Nat} {s : State} (hb : trcBlocks s p ≠ 0) (h : Fits p (k + 1) s) : Fits p k (flushCbr s p) := by
  unfold flushCbr
  dsimp only
  split
  · exact h.mono (by omega)
  · refine (putEntry_fits (p := p) 0 4 _ ?_ ?_).1
    · exact hb
    · exact h.setTrc _ rfl rfl rfl

end Sys2Proof.Machine
end

section
/-! SUPPORT. The stop of channels and the trigger of the post-trigger scheme (R586, R593, R594). -/

namespace Sys2Proof.Machine
open Sys2Proof

theorem Enqueues.traceOf {p : Nat} {s t : State} (h : Enqueues p s t) (hc : (trc t p).ctl = (trc s p).ctl)
    (hw : (trc t p).wptr = (trc s p).wptr) (hs : (trc t p).seen = (trc s p).seen) : TraceOf p s t :=
  ⟨h.frame.eq, h.buf, h.queue, h.others, hc, hw, hs⟩

theorem and_not_and_self (a m : BitVec 4) : a &&& ~~~(a &&& m) = a &&& ~~~m := by
  ext i hi
  simp only [BitVec.getElem_and, BitVec.getElem_not]
  cases a[i] <;> rfl

/-- The entries that stopping the channels `off` writes: pending branch outcomes where channel 0 stops, then CTRL STOP. -/
def stopEntry (s : State) (p : Nat) (off : BitVec 4) (reason : Nat) : State :=
  putEntry (if off.getLsbD 0 then flushCbr s p else s) p 4 0xF (3 + reason * 8 + off.toNat * 256)

theorem stopEntry_recorded (s : State) (p : Nat) (off : BitVec 4) (reason : Nat) : Recorded p s (stopEntry s p off reason) := by
  unfold stopEntry
  split
  · exact (flushCbr_recorded s p).trans (putEntry_recorded _ p 4 0xF _)
  · exact putEntry_recorded s p 4 0xF _

/-- CTRL STOP is the last entry, where it and the outcomes before it fit. -/
theorem stopEntry_last {s : State} {p : Nat} (off : BitVec 4) (reason : Nat) (hb : trcBlocks s p ≠ 0) (h : Fits p 2 s) :
    ∃ dt, (stopEntry s p off reason).trc.queue.getLast? = some (p, entryWord 0xF p dt (3 + 8 * reason + 256 * off.toNat)) := by
  rw [Nat.mul_comm 8, Nat.mul_comm 256]
  unfold stopEntry
  split
  · exact (putEntry_fits 4 0xF _ (by rwa [(flushCbr_recorded s p).frame.blocks]) (flushCbr_fits hb h)).2
  · exact (putEntry_fits 4 0xF _ hb h).2

theorem stopChans_of_idle {s : State} {p : Nat} {m : BitVec 4} (reason : Nat) (h : (trc s p).rec_ &&& m = 0) :
    stopChans s p m reason = s := if_pos h

theorem stopChans_of_recording {s : State} {p : Nat} {m : BitVec 4} (reason : Nat) (h : (trc s p).rec_ &&& m ≠ 0) :
    stopChans s p m reason = setTrc (stopEntry s p ((trc s p).rec_ &&& m) reason) p
      { trc (stopEntry s p ((trc s p).rec_ &&& m) reason) p with rec_ := (trc s p).rec_ &&& ~~~m } := by
  have e : (trc (stopEntry s p ((trc s p).rec_ &&& m) reason) p).rec_ = (trc s p).rec_ :=
    (congrArg TrcP.rec_ (stopEntry_recorded s p _ reason).unit :)
  have h' : stopChans s p m reason = setTrc (stopEntry s p ((trc s p).rec_ &&& m) reason) p
      { trc (stopEntry s p ((trc s p).rec_ &&& m) reason) p with
        rec_ := (trc (stopEntry s p ((trc s p).rec_ &&& m) reason) p).rec_ &&& ~~~((trc s p).rec_ &&& m) } := if_neg h
  rw [h', e, and_not_and_self]

theorem stopChans_enqueues (s : State) (p : Nat) (m : BitVec 4) (reason : Nat) : Enqueues p s (stopChans s p m reason) := by
  by_cases h : (trc s p).rec_ &&& m = 0
  · rw [stopChans_of_idle reason h]
    exact .refl p s
  · rw [stopChans_of_recording reason h]
    exact (stopEntry_recorded s p _ reason).toEnqueues.trans (setTrc_enqueues _ p _)

/-- The channels of the mask are off, and the schemes of the unit stay. -/
theorem stopChans_control (s : State) (p : Nat) (m : BitVec 4) (reason : Nat) :
    (trc (stopChans s p m reason) p).control = { (trc s p).control with rec_ := (trc s p).rec_ &&& ~~~m } := by
  by_cases h : (trc s p).rec_ &&& m = 0
  · have e : (trc s p).rec_ &&& ~~~m = (trc s p).rec_ := by
      rw [← and_not_and_self, h]
      exact BitVec.and_allOnes
    rw [stopChans_of_idle reason h, e]
    rfl
  · rw [stopChans_of_recording reason h, trc_setTrc_self, ← (stopEntry_recorded s p _ reason).unit]
    rfl

theorem stopChans_post {s : State} {p : Nat} (m : BitVec 4) (reason : Nat) (h : (trc s p).stopPost = true) :
    (trc (stopChans s p m reason) p).post = (trc s p).post := by
  by_cases g : (trc s p).rec_ &&& m = 0
  · rw [stopChans_of_idle reason g]
  · rw [stopChans_of_recording reason g, trc_setTrc_self]
    exact (stopEntry_recorded s p _ reason).post (.inr h)

theorem stopChans_rec (s : State) (p : Nat) (m : BitVec 4) (reason : Nat) :
    (trc (stopChans s p m reason) p).rec_ = (trc s p).rec_ &&& ~~~m :=
  (congrArg TrcP.rec_ (stopChans_control s p m reason) :)

theorem stopChans_last {s : State} {p : Nat} {m : BitVec 4} (reason : Nat) (hb : trcBlocks s p ≠ 0) (h : Fits p 2 s)
    (g : (trc s p).rec_ &&& m ≠ 0) : ∃ dt, (stopChans s p m reason).trc.queue.getLast? =
      some (p, entryWord 0xF p dt (3 + 8 * reason + 256 * ((trc s p).rec_ &&& m).toNat)) := by
  rw [stopChans_of_recording reason g]
  exact stopEntry_last _ reason hb h

/-- The entry that a trigger writes while a channel records. -/
def trigEntry (s : State) (p code src : Nat) : State :=
  if (trc s p).rec_ = 0 then s else putEntry s p 4 0xF (2 + code * 8 + src * 256)

theorem trigEntry_recorded (s : State) (p code src : Nat) : Recorded p s (trigEntry s p code src) := by
  unfold trigEntry
  split
  · exact .refl p s
  · exact putEntry_recorded s p 4 0xF _

theorem trigEntry_fits {s : State} {p : Nat} (code src : Nat) (hb : trcBlocks s p ≠ 0) (h : Fits p 3 s) :
    Fits p 2 (trigEntry s p code src) := by
  unfold trigEntry
  split
  · exact h.mono (by omega)
  · exact (putEntry_fits 4 0xF _ hb h).1

/-- The state in which the post-trigger scheme of p has just triggered. -/
def triggerSet (s : State) (p code src : Nat) : State :=
  setTrc (trigEntry s p code src) p { trc (trigEntry s p code src) p with
    triggered := true, trigAt := s.now, post := fld (tget 0 (trc s p).ctl 0x0C) 0 16 }

theorem triggerSet_enqueues (s : State) (p code src : Nat) : Enqueues p s (triggerSet s p code src) :=
  (trigEntry_recorded s p code src).toEnqueues.trans (setTrc_enqueues _ p _)

theorem triggerSet_control (s : State) (p code src : Nat) :
    (trc (triggerSet s p code src) p).control = { (trc s p).control with triggered := true, trigAt := s.now } := by
  rw [triggerSet, trc_setTrc_self, ← (trigEntry_recorded s p code src).unit]
  rfl

/-- The same with the scheme's stop noted. -/
def triggerStop (s : State) (p code src : Nat) : State :=
  setTrc (triggerSet s p code src) p { trc (triggerSet s p code src) p with stopPost := true }

theorem triggerStop_enqueues (s : State) (p code src : Nat) : Enqueues p s (triggerStop s p code src) :=
  (triggerSet_enqueues s p code src).trans (setTrc_enqueues _ p _)

theorem triggerStop_control (s : State) (p code src : Nat) :
    (trc (triggerStop s p code src) p).control =
      { (trc s p).control with triggered := true, trigAt := s.now, stopPost := true } := by
  have e := congrArg (fun x : TrcP => { x with stopPost := true }) (triggerSet_control s p code src)
  rw [triggerStop, trc_setTrc_self]
  exact e

theorem triggerStop_fits {s : State} {p : Nat} (code src : Nat) (hb : trcBlocks s p ≠ 0) (h : Fits p 3 s) :
    Fits p 2 (triggerStop s p code src) := by
  refine Fits.setTrc ?_ _ rfl rfl rfl
  exact (trigEntry_fits code src hb h).setTrc _ rfl rfl rfl

/-- A trigger that counts entries sets its scheme; one with a count of 0 stops the scheme's channels at once. -/
theorem trigger_of_armed {s : State} {p : Nat} (code src : Nat) (h : bit (rd s (trcReg p 0)) 11 = true)
    (g : (trc s p).triggered = false) :
    trigger s p code src =
      if fld (tget 0 (trc s p).ctl 0x0C) 0 16 = 0 then
        stopChans (triggerStop s p code src) p (~~~(seqMask s p)) (fld (tget 0 (trc s p).ctl 0x0C) 16 1)
      else triggerSet s p code src := by
  have e : (trc (trigEntry s p code src) p).ctl = (trc s p).ctl := (congrArg TrcP.ctl (trigEntry_recorded s p code src).unit :)
  have c : ¬((!bit (rd s (trcReg p 0)) 11 || (trc s p).triggered) = true) := by simp [h, g]
  simp only [triggerStop, triggerSet, ← e]
  exact if_neg c

/-- What a unit with the scheme of `s` triggered keeps of `s`. -/
theorem triggered_keeps {p : Nat} {s t : State} {b : Bool} {r : BitVec 4} (q : Enqueues p s t)
    (c : (trc t p).control = { (trc s p).control with triggered := true, trigAt := s.now, stopPost := b, rec_ := r }) :
    TraceOf p s t ∧ (trc t p).triggered = true ∧ (trc t p).trigAt = s.now ∧ (trc t p).seqSt = (trc s p).seqSt ∧
      (trc t p).c0 = (trc s p).c0 ∧ (trc t p).c1 = (trc s p).c1 ∧ (trc t p).events = (trc s p).events ∧
      (trc t p).stopSeq = (trc s p).stopSeq ∧ (trc t p).stopPost = b ∧ (trc t p).rec_ = r :=
  ⟨q.traceOf (congrArg TrcP.ctl c :) (congrArg TrcP.wptr c :) (congrArg TrcP.seen c :), (congrArg TrcP.triggered c :),
    (congrArg TrcP.trigAt c :), (congrArg TrcP.seqSt c :), (congrArg TrcP.c0 c :), (congrArg TrcP.c1 c :),
    (congrArg TrcP.events c :), (congrArg TrcP.stopSeq c :), (congrArg TrcP.stopPost c :), (congrArg TrcP.rec_ c :)⟩

theorem triggerSet_wrote {s : State} {p : Nat} (code src : Nat) (h : (trc s p).rec_ ≠ 0) :
    Wrote p 0xF (2 + 8 * code + 256 * src) s (triggerSet s p code src) := by
  intro hb hl
  rw [Nat.mul_comm 8, Nat.mul_comm 256, triggerSet, trigEntry, if_neg h]
  exact (putEntry_fits (k := 0) 4 0xF (2 + code * 8 + src * 256) hb (.inr (by omega))).2

theorem triggerStop_stops {s : State} (p code src : Nat) (m : BitVec 4) (reason : Nat) :
    Stops p m reason s (stopChans (triggerStop s p code src) p m reason) := by
  have e : (trc (triggerStop s p code src) p).rec_ = (trc s p).rec_ := (congrArg TrcP.rec_ (triggerStop_control s p code src) :)
  have b := (triggerStop_enqueues s p code src).frame.blocks p
  refine ⟨by rw [stopChans_rec, e], fun hoff hb hl => ?_⟩
  rw [← e] at hoff ⊢
  exact stopChans_last reason (by rwa [b]) (triggerStop_fits code src hb (.inr (by omega))) hoff

/-- A trigger does what `Triggered` says. -/
theorem trigger_triggered (s : State) (p code src : Nat) : Triggered p code src s (trigger s p code src) := by
  by_cases h : bit (rd s (trcReg p 0)) 11 = true ∧ (trc s p).triggered = false
  · refine (if_pos h).mpr ?_
    obtain ⟨he, ht⟩ := h
    rw [trigger_of_armed code src he ht]
    have up : (trc (triggerSet s p code src) p).post = fld (tget 0 (trc s p).ctl 0x0C) 0 16 := by
      rw [triggerSet, trc_setTrc_self]
    by_cases hz : fld (tget 0 (trc s p).ctl 0x0C) 0 16 = 0
    · rw [if_pos hz]
      have sp : (trc (triggerStop s p code src) p).stopPost = true := (congrArg TrcP.stopPost (triggerStop_control s p code src) :)
      have pp : (trc (triggerStop s p code src) p).post = fld (tget 0 (trc s p).ctl 0x0C) 0 16 := by
        rw [triggerStop, trc_setTrc_self]
        exact up
      have uc := stopChans_control (triggerStop s p code src) p (~~~(seqMask s p)) (fld (tget 0 (trc s p).ctl 0x0C) 16 1)
      rw [triggerStop_control] at uc
      obtain ⟨k1, k2, k3, k4, k5, k6, k7, k8, k9, -⟩ := triggered_keeps
        ((triggerStop_enqueues s p code src).trans (stopChans_enqueues _ p _ _)) uc
      exact ⟨k1, k2, k3, by rw [stopChans_post _ _ sp, pp], k4, k5, k6, k7, k8, fun hn => absurd hz hn,
        fun _ => ⟨k9, triggerStop_stops p code src _ _⟩⟩
    · rw [if_neg hz]
      obtain ⟨k1, k2, k3, k4, k5, k6, k7, k8, k9, k10⟩ := triggered_keeps (triggerSet_enqueues s p code src)
        (triggerSet_control s p code src)
      exact ⟨k1, k2, k3, up, k4, k5, k6, k7, k8, fun _ => ⟨k10, k9, triggerSet_wrote code src⟩, fun hn => absurd hn hz⟩
  · refine (if_neg h).mpr (if_pos ?_)
    revert h
    cases bit (rd s (trcReg p 0)) 11 <;> cases (trc s p).triggered <;> simp

end Sys2Proof.Machine
end

section
/-! SUPPORT. What a write of a management register is after its reserved bits (R17, R18), and the CLEAR of TRC_CTLp (R598). -/

namespace Sys2Proof.Machine
open Sys2Proof

theorem bit_and (v m : Word) (n : Nat) : bit (v &&& m) n = (bit v n && bit m n) := by simp [bit]

theorem fld_and_low (v : Word) {k lo w : Nat} (hk : k ≤ 32) (h : lo + w ≤ k) :
    fld (v &&& BitVec.ofNat 32 (2 ^ k - 1)) lo w = fld v lo w := by
  have e : (v &&& BitVec.ofNat 32 (2 ^ k - 1)).toNat = v.toNat % 2 ^ k := by
    have : 2 ^ k - 1 < 2 ^ 32 := by
      have := Nat.pow_le_pow_right (n := 2) (by omega) hk
      omega
    rw [BitVec.toNat_and, BitVec.toNat_ofNat, Nat.mod_eq_of_lt this, Nat.and_two_pow_sub_one_eq_mod]
  obtain ⟨d, rfl⟩ := Nat.exists_eq_add_of_le h
  rw [fld, fld, e, bits, bits, Nat.add_assoc, Nat.pow_add, Nat.mod_mul_right_div_self, Nat.pow_add,
    Nat.mod_mul_right_mod]

/-- A state that differs from `s` in nothing that a write of the trace registers looks at. -/
structure SameTrace (s u : State) : Prop where
  trc : u.trc = s.trc
  regs r : r ∉ [0x0E00, 0x0E10, 0x0F0C, 0x0F10] → rd u r = rd s r

/-- The state after the reserved bits of a written value. -/
def afterReserved (s : State) (a : Nat) (reserved : Word) : State := if reserved = 0 then s else reservedField s a 0

theorem afterReserved_sameTrace (s : State) (a : Nat) (b : Word) : SameTrace s (afterReserved s a b) := by
  unfold afterReserved
  split
  · exact ⟨rfl, fun _ _ => rfl⟩
  · exact ⟨reservedField_trc s a 0, fun r h => rd_reservedField_ne s a 0 h⟩

theorem afterReserved_regs_wf {s : State} (a : Nat) (b : Word) (w : twf 0 s.regs = true) :
    twf 0 (afterReserved s a b).regs = true := by
  unfold afterReserved
  split
  · exact w
  · exact reservedField_regs_wf a 0 w

/-- A write of an RW register without enumerated fields: reserved bits are reported, and the defined bits take effect. -/
theorem regWrite_rw {s : State} {a : Nat} {r : RegRow} (mbx : Bool) (stamp : Nat) (v : Word) (hr : regRow a = some r)
    (ha : r.acc = .rw) (hk : ∀ old w, keepFields a old w = []) :
    regWrite s mbx stamp a v =
      rwWrite (afterReserved s a (v &&& ~~~(BitVec.ofNat 32 (regMask r a)))) a (v &&& BitVec.ofNat 32 (regMask r a)) := by
  have hw : writeReserved s a v = (v &&& ~~~(BitVec.ofNat 32 (regMask r a)) != 0) := by
    simp [writeReserved, hr, hk, reservedBits]
  have hx : written a (regMask r a) (regVal s a) v = v &&& BitVec.ofNat 32 (regMask r a) := by simp [written, hk]
  rw [regWrite, hw, hr]
  simp only [ha, hx, afterReserved]
  by_cases hz : v &&& ~~~(BitVec.ofNat 32 (regMask r a)) = 0 <;> simp [hz]

/-- CLEAR of a value written at TRC_CTLp. -/
def clearStep (s : State) (p : Nat) (v : Word) : State := if bit v 12 && !trcRun s p then clearBuf s p else s

theorem clearStep_frame (s : State) (p : Nat) (v : Word) : OnlyTrace s (clearStep s p v) := by
  unfold clearStep
  split <;> rfl

theorem clearStep_queue (s : State) (p : Nat) (v : Word) : (clearStep s p v).trc.queue = s.trc.queue := by
  unfold clearStep
  split <;> rfl

theorem clearStep_others (s : State) (p : Nat) (v : Word) {q : Nat} (h : q ≠ p) : trc (clearStep s p v) q = trc s q := by
  unfold clearStep
  split
  · rw [clearBuf, trc_setTrc, if_neg (Ne.symm h)]
    rfl
  · rfl

theorem clearStep_unit (s : State) (p : Nat) (v : Word) : trc (clearStep s p v) p =
    { trc s p with wptr := if bit v 12 = true ∧ trcRun s p = false then 0 else (trc s p).wptr } := by
  unfold clearStep
  split
  · next h =>
    rw [clearBuf, trc_setTrc_self, if_pos (by simpa using h)]
  · next h =>
    rw [if_neg (by simpa using h)]

theorem clearStep_buf (s : State) (p : Nat) (v : Word) (a : Nat) : tget 0 (clearStep s p v).trc.buf a =
    if bit v 12 = true ∧ trcRun s p = false ∧ 256 * trcBase s p ≤ a ∧ a < 256 * trcBase s p + 256 * trcBlocks s p then 0
    else tget 0 s.trc.buf a := by
  unfold clearStep
  split
  · next h =>
    simp only [Bool.and_eq_true, Bool.not_eq_true'] at h
    have e := tget_filter_key 0 s.trc.buf
      (fun k => decide (k < 256 * trcBase s p) || decide (256 * trcBase s p + 256 * trcBlocks s p ≤ k)) a
    refine Eq.trans e ?_
    simp only [h, true_and, Bool.or_eq_true, decide_eq_true_eq]
    by_cases l : 256 * trcBase s p ≤ a ∧ a < 256 * trcBase s p + 256 * trcBlocks s p
    · rw [if_pos l, if_neg (by omega)]
    · rw [if_neg l, if_pos (by omega)]
  · next h =>
    rw [if_neg]
    simp only [Bool.and_eq_true, Bool.not_eq_true'] at h
    tauto

end Sys2Proof.Machine
end

section
/-! SUPPORT. The buffer after CLEAR (R598), and the rearm (R593). -/

namespace Sys2Proof.Machine
open Sys2Proof

/-- What the buffer and the write count of p are after CLEAR of the value `v`, `s` being the state before the write (R598). -/
def Cleared (p : Nat) (v : Word) (s t : State) : Prop :=
  (∀ a, 256 * trcBase s p ≤ a → a < 256 * trcBase s p + 256 * trcBlocks s p → bit v 12 = true → trcRun s p = false →
    tget 0 t.trc.buf a = 0) ∧
  (∀ a, a < 256 * trcBase s p ∨ 256 * trcBase s p + 256 * trcBlocks s p ≤ a ∨ bit v 12 = false ∨ trcRun s p = true →
    tget 0 t.trc.buf a = tget 0 s.trc.buf a) ∧
  (trc t p).wptr = if bit v 12 = true ∧ trcRun s p = false then 0 else (trc s p).wptr

theorem clearStep_cleared (s : State) (p : Nat) (v : Word) : Cleared p v s (clearStep s p v) := by
  refine ⟨fun a l h b r => ?_, fun a h => ?_, by rw [clearStep_unit]⟩
  · rw [clearStep_buf, if_pos ⟨b, r, l, h⟩]
  · rw [clearStep_buf, if_neg]
    rintro ⟨b, r, l, m⟩
    simp only [b, r, Bool.true_eq_false, Bool.false_eq_true, or_false] at h
    omega

/-- What follows CLEAR leaves the buffer and the write count. -/
theorem Cleared.of_same {p : Nat} {v : Word} {s c t : State} (h : Cleared p v s c) (hb : t.trc.buf = c.trc.buf)
    (hw : (trc t p).wptr = (trc c p).wptr) : Cleared p v s t := by
  unfold Cleared
  rw [hb, hw]
  exact h

/-- The registers of p's trace are those before the write. -/
structure SameRegs (p : Nat) (s u : State) : Prop where
  run : trcRun u p = trcRun s p
  base : trcBase u p = trcBase s p
  blocks : trcBlocks u p = trcBlocks s p

theorem SameTrace.sameRegs {s u : State} (h : SameTrace s u) {p : Nat} (hp : p < 4) : SameRegs p s u := by
  have a : rd u (0x0D10 + 4 * p) = rd s (0x0D10 + 4 * p) := h.regs _ (by simp; omega)
  have r : rd u (trcReg p 0) = rd s (trcReg p 0) := h.regs _ (by simp [trcReg]; omega)
  exact ⟨by rw [trcRun, trcRun, r], by rw [trcBase, trcBase, a], by rw [trcBlocks, trcBlocks, a]⟩

theorem Cleared.of_sameTrace {s u t : State} {p : Nat} {v : Word} (h : SameTrace s u) (hp : p < 4) (g : Cleared p v u t) :
    Cleared p v s t := by
  obtain ⟨r, b, n⟩ := h.sameRegs hp
  simp only [Cleared, r, b, n, trc, h.trc] at g
  exact g

/-- The control registers of p as a rearm latches them (R593). -/
def latchedCtl (s : State) (p : Nat) : Tbl Word :=
  (List.range 8).foldl (fun t i => tset 0 t (4 * i + 4) (rd s (trcReg p (4 * i + 4)))) []

theorem tget_latched (f : Nat → Word) {n i : Nat} (h : i < n) :
    tget 0 ((List.range n).foldl (fun t i => tset 0 t (4 * i + 4) (f i)) []) (4 * i + 4) = f i := by
  induction n with
  | zero => omega
  | succ n ih =>
    rw [List.range_succ, List.foldl_append]
    by_cases e : i = n
    · subst e
      exact tget_tset_self 0 _ (twf_foldl_tset 0 (fun i => 4 * i + 4) (fun _ i => f i) _ (twf_nil 0))
    · exact (tget_tset_ne 0 _ _ (by omega)).trans (ih (by omega))

/-- The state of a rearm before CTRL START is written. -/
def rearmSet (s : State) (p : Nat) (v : Word) : State :=
  setTrc (wr s (trcReg p 0) (v &&& 0x0FFF)) p { trc (wr s (trcReg p 0) (v &&& 0x0FFF)) p with
    ctl := latchedCtl (wr s (trcReg p 0) (v &&& 0x0FFF)) p, triggered := false, stopPost := false, stopSeq := false, seqSt := 0,
    c0 := fld (rd (wr s (trcReg p 0) (v &&& 0x0FFF)) (trcReg p 0x1C)) 0 16,
    c1 := fld (rd (wr s (trcReg p 0) (v &&& 0x0FFF)) (trcReg p 0x1C)) 16 16,
    events := [], cbr := [], since := 0, rec_ := BitVec.ofNat 4 (fld v 1 4) }

theorem rearm_eq (s : State) (p : Nat) (v : Word) : rearm s p v =
    setTrc (putEntry (rearmSet s p v) p 4 0xF 1) p { trc (putEntry (rearmSet s p v) p 4 0xF 1) p with fresh := true } := rfl

theorem rd_wr_trcReg (s : State) (p : Nat) (v : Word) {i : Nat} : rd (wr s (trcReg p 0) v) (trcReg p (4 * i + 4)) =
    rd s (trcReg p (4 * i + 4)) := rd_wr_ne s v (by simp [trcReg])

/-- What a rearm does (R593): RUN and the control register as written, the control registers latched, the schemes anew, CTRL START
the last entry, and the enabled channels record. -/
structure Rearms (p : Nat) (v : Word) (s t : State) : Prop where
  frame : { t with regs := s.regs, trc := s.trc } = s
  regs : t.regs = tset 0 s.regs (trcReg p 0) (v &&& 0x0FFF)
  buf : t.trc.buf = s.trc.buf
  queue : ∃ es, t.trc.queue = s.trc.queue ++ es ∧ ∀ e ∈ es, e.1 = p
  others q : q ≠ p → trc t q = trc s q
  ctl i : i < 8 → tget 0 (trc t p).ctl (4 * i + 4) = rd s (trcReg p (4 * i + 4))
  wptr : (trc t p).wptr = (trc s p).wptr
  schemes : (trc t p).triggered = false ∧ (trc t p).stopPost = false ∧ (trc t p).stopSeq = false ∧ (trc t p).seqSt = 0
  c0 : (trc t p).c0 = fld (rd s (trcReg p 0x1C)) 0 16
  c1 : (trc t p).c1 = fld (rd s (trcReg p 0x1C)) 16 16
  rec_ : (trc t p).rec_ = BitVec.ofNat 4 (fld v 1 4)
  fresh : (trc t p).fresh = true
  start : trcBlocks s p ≠ 0 → s.trc.queue.length ≤ 10 → ∃ dt, t.trc.queue.getLast? = some (p, entryWord 0xF p dt 1)

theorem rearm_rearms (s : State) (p : Nat) (v : Word) : Rearms p v s (rearm s p v) := by
  have q : Enqueues p (wr s (trcReg p 0) (v &&& 0x0FFF)) (rearm s p v) :=
    (setTrc_enqueues _ p _).trans ((putEntry_recorded (rearmSet s p v) p 4 0xF 1).toEnqueues.trans (setTrc_enqueues _ p _))
  have u : { trc (rearm s p v) p with fresh := false }.control = (trc (rearmSet s p v) p).control := by
    rw [rearm_eq, trc_setTrc_self]
    exact (putEntry_recorded (rearmSet s p v) p 4 0xF 1).unit
  rw [rearmSet, trc_setTrc_self] at u
  have c : (trc (rearm s p v) p).ctl = latchedCtl (wr s (trcReg p 0) (v &&& 0x0FFF)) p := (congrArg TrcP.ctl u :)
  have n : rd (wr s (trcReg p 0) (v &&& 0x0FFF)) (trcReg p 0x1C) = rd s (trcReg p 0x1C) := rd_wr_trcReg s p _ (i := 6)
  exact {
    frame := (congrArg (fun y : State => { y with regs := s.regs, trc := s.trc }) q.frame :)
    regs := by rw [q.frame.eq]; rfl
    buf := q.buf
    queue := q.queue
    others := q.others
    ctl i h := by rw [c, latchedCtl, tget_latched _ h, rd_wr_trcReg]
    wptr := (congrArg TrcP.wptr u :)
    schemes := ⟨(congrArg TrcP.triggered u :), (congrArg TrcP.stopPost u :), (congrArg TrcP.stopSeq u :),
      (congrArg TrcP.seqSt u :)⟩
    c0 := by rw [← n]; exact (congrArg TrcP.c0 u :)
    c1 := by rw [← n]; exact (congrArg TrcP.c1 u :)
    rec_ := (congrArg TrcP.rec_ u :)
    fresh := by rw [rearm_eq, trc_setTrc_self]
    start hb hl := by
      have b : trcBlocks (rearmSet s p v) p = trcBlocks s p := by
        rw [trcBlocks, trcBlocks]
        exact congrArg (fun x => fld x 4 5) (rd_wr_ne s _ (by simp only [trcReg]; omega))
      rw [← b] at hb
      exact (putEntry_fits (k := 0) (s := rearmSet s p v) 4 0xF 1 hb (.inr (by show s.trc.queue.length + 1 + 2 ≤ 16; omega))).2 }

end Sys2Proof.Machine
end

section
/-! SUPPORT. A write of TRC_CTLp as a whole (R17, R18, R593, R596, R598). -/

namespace Sys2Proof.Machine
open Sys2Proof

/-- A write of TRC_CTLp but for FORCE: CLEAR, then a rearm, a refusal or a stop. -/
def ctlSet (s : State) (p : Nat) (v : Word) : State :=
  if bit v 0 then
    (if trcBlocks (clearStep s p v) p = 0 then setFlag (clearStep s p v) 0x0D04 0 else rearm (clearStep s p v) p v)
  else wr (stopChans (clearStep s p v) p 0xF 3) (trcReg p 0) (v &&& 0x0FFF)

theorem trcCtlWrite_eq (s : State) (p : Nat) (v : Word) :
    trcCtlWrite s p v = if bit v 13 then traceEvent (ctlSet s p v) p 14 else ctlSet s p v := rfl

/-- An event of a partition whose trace runs joins the events of its sequencer, and triggers where TRC_TRIGp names it. -/
theorem traceEvent_cases (s : State) (p code : Nat) :
    if trcRun s p = false then traceEvent s p code = s
    else
      let s1 := setTrc s p { trc s p with events := (trc s p).events ++ [code] }
      if fld (tget 0 (trc s p).ctl 8) 0 5 = code then Triggered p code 0 s1 (traceEvent s p code)
      else traceEvent s p code = s1 := by
  unfold traceEvent trcCtl
  dsimp only
  split
  · next h => simp [h]
  · next h =>
    simp only [Bool.not_eq_false] at h
    simp only [h, Bool.not_true, Bool.false_eq_true, if_false]
    split
    · exact trigger_triggered _ p code 0
    · rfl

variable {s u : State} {p : Nat}

theorem rd_wr_self_of (w : twf 0 u.regs = true) {t : State} {a : Nat} {v : Word} (h : t.regs = tset 0 u.regs a v) : rd t a = v := by
  rw [rd, h]
  exact tget_tset_self 0 v w

theorem rd_wr_ne_of {t : State} {a b : Nat} {v : Word} (h : t.regs = tset 0 u.regs a v) (n : b ≠ a) : rd t b = rd u b := by
  rw [rd, h]
  exact tget_tset_ne 0 u.regs v (Ne.symm n)

theorem trcReg_not_fault (hp : p < 4) {o : Nat} (ho : o < 0x30) : trcReg p o ∉ [0x0E00, 0x0E10, 0x0F0C, 0x0F10] := by
  simp only [trcReg, List.mem_cons, List.not_mem_nil, or_false]
  omega

/-- RUN written at 1 where the partition has blocks. -/
theorem ctlSet_rearms (h : SameTrace s u) (w : twf 0 u.regs = true) (hp : p < 4) (v : Word) (hr : bit v 0 = true)
    (hb : trcBlocks s p ≠ 0) :
    let t := ctlSet u p v
    t = { u with regs := t.regs, trc := t.trc } ∧ rd t (trcReg p 0) = v &&& 0x0FFF ∧
      (∀ a, a ≠ trcReg p 0 → rd t a = rd u a) ∧ Cleared p v s t ∧
      (∀ i < 8, tget 0 (trc t p).ctl (4 * i + 4) = rd s (trcReg p (4 * i + 4))) ∧ (trc t p).triggered = false ∧
      (trc t p).stopPost = false ∧ (trc t p).stopSeq = false ∧ (trc t p).seqSt = 0 ∧
      (trc t p).c0 = fld (rd s (trcReg p 0x1C)) 0 16 ∧ (trc t p).c1 = fld (rd s (trcReg p 0x1C)) 16 16 ∧
      (trc t p).rec_ = BitVec.ofNat 4 (fld v 1 4) ∧ (trc t p).fresh = true ∧ Wrote p 0xF 1 s t ∧
      (∀ q, q ≠ p → trc t q = trc s q) ∧ ∃ es, t.trc.queue = s.trc.queue ++ es ∧ ∀ e ∈ es, e.1 = p := by
  have cf := clearStep_frame u p v
  have blk : trcBlocks (clearStep u p v) p = trcBlocks s p := (cf.blocks p).trans (h.sameRegs hp).blocks
  have e : ctlSet u p v = rearm (clearStep u p v) p v := by rw [ctlSet, if_pos hr, if_neg (by rwa [blk])]
  have reg {o : Nat} (ho : o < 0x30) : rd (clearStep u p v) (trcReg p o) = rd s (trcReg p o) :=
    (cf.rd _).trans (h.regs _ (trcReg_not_fault hp ho))
  have qe : (clearStep u p v).trc.queue = s.trc.queue := by rw [clearStep_queue, h.trc]
  have R := rearm_rearms (clearStep u p v) p v
  rw [← e] at R
  have re : (ctlSet u p v).regs = tset 0 u.regs (trcReg p 0) (v &&& 0x0FFF) := by rw [R.regs, cf.eq]
  obtain ⟨h1, h2, h3, h4⟩ := R.schemes
  refine ⟨?_, rd_wr_self_of w re, fun a n => rd_wr_ne_of re n,
    (((clearStep_cleared u p v).of_same R.buf R.wptr).of_sameTrace h hp), fun i hi => ?_, h1, h2, h3, h4, ?_, ?_, R.rec_, R.fresh,
    fun _ hl => ?_, fun q n => ?_, ?_⟩
  · have f := R.frame
    rw [cf.eq] at f
    exact (congrArg (fun y : State => { y with regs := (ctlSet u p v).regs, trc := (ctlSet u p v).trc }) f :)
  · rw [R.ctl i hi, reg (by omega)]
  · rw [R.c0, reg (by omega)]
  · rw [R.c1, reg (by omega)]
  · exact R.start (by rwa [blk]) (by rwa [qe])
  · rw [R.others q n, clearStep_others u p v n, trc, h.trc, trc]
  · rw [← qe]
    exact R.queue

/-- RUN written at 1 where the partition has no block: CLEAR has its effect, and CFGERR is set. -/
theorem ctlSet_refuses (h : SameTrace s u) (hp : p < 4) (v : Word) (hr : bit v 0 = true) (hb : trcBlocks s p = 0) :
    ∃ c, Cleared p v s c ∧ c = { u with trc := c.trc } ∧ ctlSet u p v = setFlag c 0x0D04 0 := by
  have cf := clearStep_frame u p v
  have blk : trcBlocks (clearStep u p v) p = 0 := (cf.blocks p).trans ((h.sameRegs hp).blocks.trans hb)
  exact ⟨clearStep u p v, (clearStep_cleared u p v).of_sameTrace h hp, cf.eq, by rw [ctlSet, if_pos hr, if_pos blk]⟩

/-- RUN written at 0. -/
theorem ctlSet_stops (h : SameTrace s u) (w : twf 0 u.regs = true) (hp : p < 4) (v : Word) (hr : bit v 0 = false) :
    let t := ctlSet u p v
    t = { u with regs := t.regs, trc := t.trc } ∧ rd t (trcReg p 0) = v &&& 0x0FFF ∧
      (∀ a, a ≠ trcReg p 0 → rd t a = rd u a) ∧ Cleared p v s t ∧ (trc t p).rec_ = 0 ∧
      ((trc s p).rec_ ≠ 0 → Wrote p 0xF (27 + 256 * (trc s p).rec_.toNat) s t) ∧ (∀ q, q ≠ p → trc t q = trc s q) ∧
      ∃ es, t.trc.queue = s.trc.queue ++ es ∧ ∀ e ∈ es, e.1 = p := by
  have cf := clearStep_frame u p v
  have qe : (clearStep u p v).trc.queue = s.trc.queue := by rw [clearStep_queue, h.trc]
  have ce : (trc (clearStep u p v) p).rec_ = (trc s p).rec_ := by rw [clearStep_unit, trc, h.trc, trc]
  have all : (trc (clearStep u p v) p).rec_ &&& 0xF = (trc s p).rec_ := BitVec.and_allOnes.trans ce
  have e : ctlSet u p v = wr (stopChans (clearStep u p v) p 0xF 3) (trcReg p 0) (v &&& 0x0FFF) := by
    rw [ctlSet, hr]
    rfl
  have S := stopChans_enqueues (clearStep u p v) p 0xF 3
  have sc := stopChans_control (clearStep u p v) p 0xF 3
  have f : OnlyTrace u (stopChans (clearStep u p v) p 0xF 3) := cf.trans S.frame
  have re : (ctlSet u p v).regs = tset 0 u.regs (trcReg p 0) (v &&& 0x0FFF) := by rw [e, wr, f.eq]
  refine ⟨?_, rd_wr_self_of w re, fun a n => rd_wr_ne_of re n,
    ((clearStep_cleared u p v).of_same ?_ ?_).of_sameTrace h hp, ?_, fun hn hb hl => ?_, fun q n => ?_, ?_⟩
  · rw [e, wr, f.eq]
  · rw [e]
    exact S.buf
  · rw [e]
    exact (congrArg TrcP.wptr sc :)
  · rw [e]
    exact (stopChans_rec _ p 0xF 3).trans (BitVec.and_zero (x := _))
  · rw [← all] at hn
    obtain ⟨dt, hq⟩ := stopChans_last 3 (by rwa [cf.blocks, (h.sameRegs hp).blocks]) (.inr (by rw [qe]; omega)) hn
    rw [all] at hq
    exact ⟨dt, by rw [e]; exact hq⟩
  · rw [e]
    exact (S.others q n).trans (by rw [clearStep_others u p v n, trc, h.trc, trc])
  · rw [e, ← qe]
    exact S.queue

theorem regRow_trcCtl (p : Fin 4) : regRow (trcReg p 0) = some ⟨0x0D40, 4, 48, .rw, 0x3FFF, .trace⟩ := by
  fin_cases p <;> rfl

theorem keepFields_trcCtl (p : Fin 4) (old w : Word) : keepFields (trcReg p 0) old w = [] := by
  fin_cases p <;> rfl

theorem rwWrite_trcCtl (s : State) (p : Fin 4) (v : Word) : rwWrite s (trcReg p 0) v = trcCtlWrite s p v := by
  fin_cases p <;> rfl

/-- A write of TRC_CTLp takes effect in its defined bits, after a report of the others (R17, R18, R593). -/
theorem regWrite_trcCtl (s : State) (p : Fin 4) (mbx : Bool) (stamp : Nat) (v : Word) :
    regWrite s mbx stamp (trcReg p 0) v =
      trcCtlWrite (afterReserved s (trcReg p 0) (v &&& ~~~0x3FFF)) p (v &&& 0x3FFF) := by
  rw [regWrite_rw mbx stamp v (regRow_trcCtl p) rfl (keepFields_trcCtl p), rwWrite_trcCtl]
  rfl

/-- A write of TRC_CTLp with FORCE at 0. -/
theorem regWrite_trcCtl_plain (s : State) (p : Fin 4) (mbx : Bool) (stamp : Nat) {v : Word} (h : bit v 13 = false) :
    regWrite s mbx stamp (trcReg p 0) v =
      ctlSet (afterReserved s (trcReg p 0) (v &&& ~~~0x3FFF)) p (v &&& 0x3FFF) := by
  rw [regWrite_trcCtl, trcCtlWrite_eq, if_neg (by simp [bit_and, h])]

/-- A write of TRC_CTLp with FORCE at 1. -/
theorem regWrite_trcCtl_force (s : State) (p : Fin 4) (mbx : Bool) (stamp : Nat) {v : Word} (h : bit v 13 = true) :
    regWrite s mbx stamp (trcReg p 0) v =
      traceEvent (ctlSet (afterReserved s (trcReg p 0) (v &&& ~~~0x3FFF)) p (v &&& 0x3FFF)) p 14 := by
  rw [regWrite_trcCtl, trcCtlWrite_eq, if_pos (by rw [bit_and, h]; decide)]

end Sys2Proof.Machine
end

section
/-! SUPPORT. Writes of TRC_ALLOCp (R582, R597). -/

namespace Sys2Proof.Machine
open Sys2Proof

/-- First block of an allocation word. -/
def allocBase (w : Word) : Nat := fld w 0 4

/-- One past the last block of an allocation word. -/
def allocTop (w : Word) : Nat := fld w 0 4 + fld w 4 5

/-- Four allocation words form a valid set: each ends within the 16 blocks, and no two share a block (R582). -/
def AllocValid (now : Nat → Word) : Prop :=
  (∀ q < 4, allocTop (now q) ≤ 16) ∧ ∀ q q', q < 4 → q' < 4 → q ≠ q' → allocBase (now q) < allocTop (now q) →
    allocBase (now q') < allocTop (now q') → allocTop (now q) ≤ allocBase (now q') ∨ allocTop (now q') ≤ allocBase (now q)

theorem AllocValid.congr {f g : Nat → Word} (h : ∀ q < 4, f q = g q) : AllocValid f ↔ AllocValid g := by
  have one {f g : Nat → Word} (h : ∀ q < 4, f q = g q) (v : AllocValid f) : AllocValid g := by
    obtain ⟨tops, apart⟩ := v
    refine ⟨fun q hq => ?_, fun q q' hq hq' => ?_⟩
    · rw [← h q hq]
      exact tops q hq
    · rw [← h q hq, ← h q' hq']
      exact apart q q' hq hq'
  exact ⟨one h, one fun q hq => (h q hq).symm⟩

/-- The model's own test of a set. -/
def allocOk (now : Nat → Word) : Bool :=
  (List.range 4).all (fun q => decide (fld (now q) 0 4 + fld (now q) 4 5 ≤ 16)) &&
    (List.range 16).all (fun b => decide (((List.range 4).filter (fun q => blockIn (now q) b)).length ≤ 1))

theorem blockIn_iff (w : Word) (b : Nat) : blockIn w b = true ↔ allocBase w ≤ b ∧ b < allocTop w := by
  simp [blockIn, allocBase, allocTop]

/-- An entry of the trace RAM lies in the allocation of p just when its block does. -/
theorem blockIn_div (s : State) (p k : Nat) : blockIn (rd s (0x0D10 + 4 * p)) (k / 256) =
    (decide (256 * trcBase s p ≤ k) && decide (k < 256 * trcBase s p + 256 * trcBlocks s p)) := by
  rw [Bool.eq_iff_iff, blockIn_iff, Bool.and_eq_true, decide_eq_true_eq, decide_eq_true_eq]
  simp only [allocBase, allocTop, trcBase, trcBlocks]
  omega

/-- A list without repetition has one element at most just when any two of its elements are the same. -/
theorem length_le_one_iff_of_nodup {l : List Nat} (h : l.Nodup) : l.length ≤ 1 ↔ ∀ x ∈ l, ∀ y ∈ l, x = y := by
  rw [← List.toFinset_card_of_nodup h, Finset.card_le_one]
  simp only [List.mem_toFinset]

/-- The test of a set finds it valid just when it is: two words overlap where they share a block. -/
theorem allocOk_iff (now : Nat → Word) : allocOk now = true ↔ AllocValid now := by
  have shared (b : Nat) : ((List.range 4).filter (fun q => blockIn (now q) b)).length ≤ 1 ↔
      ∀ q, q < 4 ∧ blockIn (now q) b = true → ∀ q', q' < 4 ∧ blockIn (now q') b = true → q = q' := by
    rw [length_le_one_iff_of_nodup (List.nodup_range.filter _)]
    simp only [List.mem_filter, List.mem_range]
  simp only [allocOk, Bool.and_eq_true, List.all_eq_true, List.mem_range, decide_eq_true_eq, shared, blockIn_iff]
  refine and_congr_right fun tops => ⟨fun h q q' hq hq' n hb hb' => ?_, fun h b _ q ⟨hq, hb⟩ q' ⟨hq', hb'⟩ => ?_⟩
  · have t := tops q hq
    by_contra c
    refine n (h (max (allocBase (now q)) (allocBase (now q'))) ?_ q ⟨hq, ?_⟩ q' ⟨hq', ?_⟩)
    · simp only [allocTop, allocBase] at *
      omega
    · omega
    · omega
  · by_contra n
    have := h q q' hq hq' n (by omega) (by omega)
    omega

/-- A write of TRC_ALLOCp in terms of that test. -/
theorem allocWrite_eq (s : State) (p : Nat) (v : Word) : allocWrite s p v =
    if 16 < fld (v &&& 0x1FF) 4 5 then reservedField s (0x0D10 + 4 * p) 0
    else if !allocOk (fun q => if q = p then v &&& 0x1FF else rd s (0x0D10 + 4 * q)) ||
        (trcRun s p && decide (rd s (0x0D10 + 4 * p) ≠ v &&& 0x1FF)) then setFlag s 0x0D04 0
    else if rd s (0x0D10 + 4 * p) = v &&& 0x1FF then wr s (0x0D10 + 4 * p) (v &&& 0x1FF)
    else
      let s1 := wr s (0x0D10 + 4 * p) (v &&& 0x1FF)
      let hit := (List.range 16).filter (fun b => blockIn (rd s (0x0D10 + 4 * p)) b != blockIn (v &&& 0x1FF) b)
      setTrc { s1 with trc := { s1.trc with buf := s1.trc.buf.filter (fun e => !hit.contains (e.1 / 256)) } } p
        { trc s1 p with wptr := 0 } := rfl

/-- The blocks that a new allocation takes or gives up. -/
def movedBlocks (old new : Word) : List Nat := (List.range 16).filter (fun b => blockIn old b != blockIn new b)

/-- The new allocation in force: its moved blocks emptied, the write count of p at 0 (R582). -/
def allocSet (s : State) (p : Nat) (w : Word) : State :=
  setTrc { wr s (0x0D10 + 4 * p) w with
    trc := { s.trc with buf := s.trc.buf.filter (fun e => !(movedBlocks (rd s (0x0D10 + 4 * p)) w).contains (e.1 / 256)) } } p
    { trc s p with wptr := 0 }

variable {s : State} {p : Nat} {v : Word}

theorem allocWrite_reserved (h : 16 < fld (v &&& 0x1FF) 4 5) : allocWrite s p v = reservedField s (0x0D10 + 4 * p) 0 := if_pos h

theorem allocWrite_refused (h : fld (v &&& 0x1FF) 4 5 ≤ 16)
    (g : ¬AllocValid (fun q => if q = p then v &&& 0x1FF else rd s (0x0D10 + 4 * q)) ∨
      trcRun s p = true ∧ rd s (0x0D10 + 4 * p) ≠ v &&& 0x1FF) : allocWrite s p v = setFlag s 0x0D04 0 := by
  rw [allocWrite_eq, if_neg (by omega), if_pos]
  rw [← allocOk_iff] at g
  simpa using g

theorem allocWrite_same (w : twf 0 s.regs = true) (h : fld (v &&& 0x1FF) 4 5 ≤ 16)
    (g : AllocValid (fun q => if q = p then v &&& 0x1FF else rd s (0x0D10 + 4 * q)))
    (e : rd s (0x0D10 + 4 * p) = v &&& 0x1FF) : allocWrite s p v = s := by
  rw [← allocOk_iff] at g
  rw [allocWrite_eq, if_neg (by omega), if_neg (by rw [g]; simp [e]), if_pos e, ← e, wr_rd_self w]

theorem allocWrite_moves (h : fld (v &&& 0x1FF) 4 5 ≤ 16)
    (g : AllocValid (fun q => if q = p then v &&& 0x1FF else rd s (0x0D10 + 4 * q)))
    (r : trcRun s p = false) (e : rd s (0x0D10 + 4 * p) ≠ v &&& 0x1FF) : allocWrite s p v = allocSet s p (v &&& 0x1FF) := by
  rw [← allocOk_iff] at g
  rw [allocWrite_eq, if_neg (by omega), if_neg (by rw [g, r]; simp), if_neg e]
  rfl

theorem allocSet_buf (s : State) (p : Nat) (w : Word) (k : Nat) : tget 0 (allocSet s p w).trc.buf k =
    if k / 256 < 16 ∧ blockIn (rd s (0x0D10 + 4 * p)) (k / 256) ≠ blockIn w (k / 256) then 0 else tget 0 s.trc.buf k := by
  have f := tget_filter_key 0 s.trc.buf (fun j => !(movedBlocks (rd s (0x0D10 + 4 * p)) w).contains (j / 256)) k
  refine f.trans ?_
  have m : (movedBlocks (rd s (0x0D10 + 4 * p)) w).contains (k / 256) = true ↔
      k / 256 < 16 ∧ blockIn (rd s (0x0D10 + 4 * p)) (k / 256) ≠ blockIn w (k / 256) := by
    simp [movedBlocks]
  by_cases c : k / 256 < 16 ∧ blockIn (rd s (0x0D10 + 4 * p)) (k / 256) ≠ blockIn w (k / 256)
  · rw [if_pos c, m.mpr c]
    rfl
  · rw [if_neg c, if_pos (by simpa using fun x => c (m.mp (by simpa using x)))]

theorem regRow_trcAlloc (p : Fin 4) : regRow (0x0D10 + 4 * p) = some ⟨0x0D10, 4, 4, .rw, 0x1FF, .p0⟩ := by
  fin_cases p <;> rfl

theorem keepFields_trcAlloc (p : Fin 4) (old w : Word) : keepFields (0x0D10 + 4 * p) old w = [] := by
  fin_cases p <;> rfl

theorem rwWrite_trcAlloc (s : State) (p : Fin 4) (v : Word) : rwWrite s (0x0D10 + 4 * p) v = allocWrite s p v := by
  fin_cases p <;> rfl

theorem regWrite_trcAlloc (s : State) (p : Fin 4) (mbx : Bool) (stamp : Nat) (v : Word) :
    regWrite s mbx stamp (0x0D10 + 4 * p) v =
      allocWrite (afterReserved s (0x0D10 + 4 * p) (v &&& ~~~0x1FF)) p (v &&& 0x1FF) := by
  rw [regWrite_rw mbx stamp v (regRow_trcAlloc p) rfl (keepFields_trcAlloc p), rwWrite_trcAlloc]
  rfl

end Sys2Proof.Machine
end

section
open Sys2Proof Sys2Proof.Machine

/-- Settles O55: a write of TRC_CTLp is CLEAR, then a rearm, a refusal or a stop, then FORCE; a write of TRC_ALLOCp is refused,
changes nothing or moves blocks. -/
theorem traceControlWrites : Obligations.TraceControlWrites := by
  unfold Obligations.TraceControlWrites
  intro s p v wf _ r x run lo hi u cleared rearmed refused stopped wrote forced does
  have wrote_ctlSet (v : Word) : wrote v (ctlSet (u v) p (v &&& 0x3FFF)) := by
    have hu : SameTrace s (u v) := afterReserved_sameTrace s r (v &&& ~~~0x3FFF)
    have wu : twf 0 (u v).regs = true := afterReserved_regs_wf r (v &&& ~~~0x3FFF) wf
    have b0 : bit (v &&& 0x3FFF) 0 = bit v 0 := (bit_and v _ 0).trans (Bool.and_true _)
    have b12 : bit (v &&& 0x3FFF) 12 = bit v 12 := (bit_and v _ 12).trans (Bool.and_true _)
    have ch : fld (v &&& 0x3FFF) 1 4 = fld v 1 4 := fld_and_low v (k := 14) (by omega) (by omega)
    have low : (v &&& 0x3FFF) &&& 0x0FFF = v &&& 0x0FFF := by rw [BitVec.and_assoc]; rfl
    cases h0 : bit v 0 with
    | true =>
      by_cases hb : trcBlocks s p = 0
      · have h := ctlSet_refuses hu p.isLt (v &&& 0x3FFF) (b0.trans h0) hb
        simp only [Cleared, b12] at h
        simp only [wrote, h0, hb, if_true]
        exact h
      · have h := ctlSet_rearms hu wu p.isLt (v &&& 0x3FFF) (b0.trans h0) hb
        simp only [Cleared, b12, ch, low] at h
        simp only [wrote, h0, hb, if_true, if_false]
        exact h
    | false =>
      have h := ctlSet_stops hu wu p.isLt (v &&& 0x3FFF) (b0.trans h0)
      simp only [Cleared, b12, low] at h
      simp only [wrote, h0, Bool.false_eq_true, if_false]
      exact h
  have forced_traceEvent (t0 : State) : forced t0 (traceEvent t0 p 14) := traceEvent_cases t0 p 14
  have does_write (i : Instr) (v : Word) (hi : exec i s = .next (regWrite s false s.prt.stamp r v)) : does i v := by
    refine ⟨fun h => ⟨ctlSet (u v) p (v &&& 0x3FFF), ?_, wrote_ctlSet v⟩, fun h => ⟨ctlSet (u v) p (v &&& 0x3FFF),
      traceEvent (ctlSet (u v) p (v &&& 0x3FFF)) p 14, ?_, wrote_ctlSet v, forced_traceEvent _⟩⟩
    · rw [hi, regWrite_trcCtl_plain s p false _ h]
      rfl
    · rw [hi, regWrite_trcCtl_force s p false _ h]
      rfl
  refine ⟨does_write _ _ rfl, does_write _ _ rfl, does_write _ _ rfl, does_write _ _ rfl, ?_⟩
  intro a w i s1 now base top valid
  have hs : SameTrace s s1 := afterReserved_sameTrace s a (v &&& ~~~0x1FF)
  have ws : twf 0 s1.regs = true := afterReserved_regs_wf a (v &&& ~~~0x1FF) wf
  have run_eq : trcRun s1 p = run := (hs.sameRegs p.isLt).run
  have old (q : Nat) (hq : q < 4) : rd s1 (0x0D10 + 4 * q) = rd s (0x0D10 + 4 * q) := hs.regs _ (by simp; omega)
  have exec_eq : exec i s = .next (allocWrite s1 p (v &&& 0x1FF)) := congrArg _ (regWrite_trcAlloc s p false s.prt.stamp v)
  have ww : (v &&& 0x1FF) &&& 0x1FF = w := by rw [BitVec.and_assoc]; rfl
  have size_eq : fld ((v &&& 0x1FF) &&& 0x1FF) 4 5 = fld w 4 5 := by rw [ww]
  have old_eq : rd s1 a = rd s a := old p p.isLt
  have valid_iff : AllocValid (fun q => if q = p.val then (v &&& 0x1FF) &&& 0x1FF else rd s1 (0x0D10 + 4 * q)) ↔ valid :=
    AllocValid.congr fun q hq => by rw [ww, old q hq]
  rw [exec_eq]
  refine ⟨fun h => ?_, fun h g => ?_, fun h g e => ?_, fun h g nr ne => ?_⟩
  · rw [allocWrite_reserved (by rwa [size_eq])]
  · rw [allocWrite_refused (by rwa [size_eq]) (by rwa [valid_iff, ww, run_eq, old_eq])]
  · rw [allocWrite_same ws (by rwa [size_eq]) (by rwa [valid_iff]) (by rwa [ww, old_eq])]
  · rw [allocWrite_moves (by rwa [size_eq]) (by rwa [valid_iff]) (by rwa [run_eq]) (by rwa [ww, old_eq]), ww]
    refine ⟨_, rfl, rfl, rd_wr_self_of ws rfl, fun q n => rd_wr_ne_of rfl n, ?_, fun q n => ?_, ?_, fun k => ?_⟩
    · rw [allocSet, trc_setTrc_self, trc, hs.trc]
      rfl
    · rw [allocSet, trc_setTrc, if_neg (Ne.symm n), trc, trc]
      exact (congrArg (fun t : Trc => tget trcZero t.parts q) hs.trc :)
    · exact (congrArg Trc.queue hs.trc :)
    · have now_p : now p.val = w := if_pos rfl
      rw [allocSet_buf, old_eq, blockIn_div, hs.trc]
      simp only [base, top, now_p]
      rfl

end

section
/-! SUPPORT. The stores of the conductor to memory: the bytes of a value, and what the issue of an instruction leaves alone
(R6, R329, R332, R333). -/

namespace Sys2Proof.Machine
open Sys2Proof

theorem leBytes_add (m n v : Nat) : leBytes (m + n) v = leBytes m v ++ leBytes n (v / 256 ^ m) := by
  induction m generalizing v with
  | zero => simp [leBytes]
  | succ m ih =>
    rw [Nat.succ_add]
    simp only [leBytes, List.cons_append, ih, Nat.div_div_eq_div_mul]
    rw [Nat.pow_succ']

theorem leBytes_mod (n v : Nat) : leBytes n (v % 256 ^ n) = leBytes n v := by
  induction n generalizing v with
  | zero => rfl
  | succ n ih =>
    have low : BitVec.ofNat 8 (v % 256 ^ (n + 1)) = BitVec.ofNat 8 v := by
      apply BitVec.eq_of_toNat_eq
      rw [BitVec.toNat_ofNat, BitVec.toNat_ofNat]
      exact Nat.mod_mod_of_dvd v (Dvd.intro_left (256 ^ n) rfl)
    have high : v % 256 ^ (n + 1) / 256 = v / 256 % 256 ^ n := by
      rw [Nat.pow_succ', Nat.mod_mul_right_div_self]
    rw [leBytes, leBytes, low, high, ih]

theorem length_leBytes (n v : Nat) : (leBytes n v).length = n := by
  induction n generalizing v with
  | zero => rfl
  | succ n ih => simp [leBytes, ih]

theorem getElem?_leBytes {n k : Nat} (v : Nat) (h : k < n) : (leBytes n v)[k]? = some (BitVec.ofNat 8 (v / 256 ^ k)) := by
  induction n generalizing v k with
  | zero => omega
  | succ n ih =>
    cases k with
    | zero => simp [leBytes]
    | succ k =>
      rw [leBytes, List.getElem?_cons_succ, ih _ (by omega), Nat.div_div_eq_div_mul, Nat.pow_succ']

theorem tsets_append {α : Type} [DecidableEq α] (d : α) (t : Tbl α) (a : Nat) (vs ws : List α) :
    tsets d t a (vs ++ ws) = tsets d (tsets d t a vs) (a + vs.length) ws := by
  induction vs generalizing t a with
  | nil => rfl
  | cons v vs ih =>
    rw [List.cons_append, tsets, ih, tsets, List.length_cons]
    congr 1
    omega

/-- Keys written in succession read what was written. -/
theorem tget_tsets_in {α : Type} [DecidableEq α] (d : α) {t : Tbl α} (a : Nat) {vs : List α} {k : Nat} {x : α} (w : twf d t = true)
    (h : vs[k]? = some x) : tget d (tsets d t a vs) (a + k) = x := by
  induction vs generalizing t a k with
  | nil => simp at h
  | cons v vs ih =>
    rw [tsets]
    cases k with
    | zero =>
      obtain rfl : v = x := by simpa using h
      rw [tget_tsets_out d _ _ _ (by omega), Nat.add_zero]
      exact tget_tset_self d v w
    | succ k =>
      rw [← Nat.add_assoc, Nat.add_right_comm]
      exact ih (a + 1) (twf_tset d a v w) (by simpa using h)

/-- The state with the `n` low bytes of `v` in conductor memory from `a`. -/
def putBytes (s : State) (a n v : Nat) : State := wrBytes s a (leBytes n v)

theorem putBytes_add (s : State) (a m n v : Nat) :
    putBytes (putBytes s a m v) (a + m) n (v / 256 ^ m) = putBytes s a (m + n) v := by
  have e : tsets 0 (tsets 0 s.cnd.mem a (leBytes m v)) (a + m) (leBytes n (v / 256 ^ m)) = tsets 0 s.cnd.mem a (leBytes (m + n) v) := by
    rw [leBytes_add, tsets_append, length_leBytes]
  exact (congrArg (fun M => { s with cnd := { s.cnd with mem := M } }) e :)

theorem wrWord_eq {s : State} (a v : Nat) (e : s.cnd.memErr = []) : wrWord s a (BitVec.ofNat 32 v) = putBytes s a 4 v := by
  have h : leBytes 4 (BitVec.ofNat 32 v).toNat = leBytes 4 v := by
    rw [BitVec.toNat_ofNat]
    exact leBytes_mod 4 v
  have d : tdel s.cnd.memErr (a / 4) = s.cnd.memErr := by
    rw [e]
    rfl
  rw [wrWord, h]
  simp only [wrBytes_cnd, d]
  rfl

/-- A store outside the management registers writes its bytes, lowest first. -/
theorem storeVal_mem {s : State} {ea : Word} {size : Nat} (v : Nat) (e : s.cnd.memErr = []) (hm : isMgmt ea = false)
    (hs : size ∈ [1, 2, 4, 8]) : storeVal s ea size v = putBytes s ea.toNat size v := by
  simp only [List.mem_cons, List.not_mem_nil, or_false] at hs
  rcases hs with rfl | rfl | rfl | rfl
  · simp [storeVal, hm, putBytes]
  · simp [storeVal, hm, putBytes]
  · simp only [storeVal, hm, Bool.false_eq_true, if_false]
    exact wrWord_eq _ v e
  · simp only [storeVal, hm, Bool.false_eq_true, if_false, if_true]
    rw [wrWord_eq _ v e, wrWord_eq _ _ (by exact e)]
    exact putBytes_add s ea.toNat 4 4 v

theorem goNext_mem (s : State) (n : Nat) : (goNext s n).cnd.mem = s.cnd.mem ∧ (goNext s n).cnd.memErr = s.cnd.memErr := by
  unfold goNext
  simp only [modCnd_cnd]
  split
  · exact ⟨rfl, rfl⟩
  · split <;> exact ⟨rfl, rfl⟩

theorem stepBase_mem (s : State) (n : Nat) (m : AddrMode) (k : Nat) :
    (stepBase s n m k).cnd.mem = s.cnd.mem ∧ (stepBase s n m k).cnd.memErr = s.cnd.memErr := by
  cases m <;> exact ⟨rfl, rfl⟩

theorem CndDone.setMem {u t : State} (h : CndDone u t) (M : Tbl Byte) :
    CndDone { u with cnd := { u.cnd with mem := M } } { t with cnd := { t.cnd with mem := M } } where
  cnd := h.cnd
  mem e := ⟨rfl, (h.mem e).2⟩
  regs := h.regs
  others := congrArg (fun x : State => { x with cnd := { u.cnd with mem := M } }) h.others

theorem CndDone.stepBase {u t : State} (h : CndDone u t) (n : Nat) (m : AddrMode) (k : Nat) :
    CndDone (stepBase u n m k) (stepBase t n m k) := by
  cases m with
  | postInc => rw [Machine.stepBase, Machine.stepBase, h.aReg]; exact h.setA n _
  | preDec => rw [Machine.stepBase, Machine.stepBase, h.aReg]; exact h.setA n _
  | ind => exact h
  | disp d => exact h
  | index i sc => exact h

theorem spend_regs_wf {s : State} (n : Nat) (w : twf 0 s.regs = true) : twf 0 (spend s n).regs = true := by
  unfold spend
  split
  · exact w
  · dsimp only
    split
    · exact w
    · exact wr_regs_wf (s := modCnd _ _) _ _ w

theorem sweepWord_regs_wf {s : State} (e : Nat × Nat) (w : twf 0 s.regs = true) : twf 0 (sweepWord s e).regs = true := by
  unfold sweepWord
  split
  · exact w
  · dsimp only
    split <;> exact twf_tset 0 _ _ w

theorem spanFix_regs_wf {s : State} (a n : Nat) (w : twf 0 s.regs = true) : twf 0 (spanFix s a n).regs = true := by
  unfold spanFix
  generalize errWords s a n = l
  induction l generalizing s with
  | nil => exact w
  | cons e l ih => exact ih (sweepWord_regs_wf e w)

theorem fetched_regs_wf {s : State} (o : COp) (w : twf 0 s.regs = true) : twf 0 (fetched o s).regs = true := by
  have hw : twf 0 (waited o s).regs = true := spend_regs_wf (s := modCnd s _) _ w
  unfold fetched
  refine spanFix_regs_wf _ _ ?_
  rw [(tracePc_only _).eq]
  exact hw

/-- The issue of an instruction keeps the register bank in canonical form. -/
theorem issueAt_regs_wf {s : State} (o : COp) (w : twf 0 s.regs = true) : twf 0 (issueAt o s).regs = true := by
  have hf := fetched_regs_wf o w
  unfold issueAt
  split
  · split
    · exact hf
    · exact spanFix_regs_wf _ _ hf
  · exact hf

variable {s : State} {n : Nat} {m : AddrMode} {bad : Bool} {size : Nat} {keys : List Nat} {val : State → Nat}

/-- A store that runs clean: what it does where it issues, and the next instruction. -/
theorem storeOp_clean
    (hc : runsClean { op1 (keys ++ addrKeys s n m) with illegal := bad, acc := some (accOf s n m size true) } s = true)
    (hv : ∀ x, CndDone s x → val x = val s) : ∃ y t, CndDone s y ∧ (twf 0 s.regs = true → twf 0 y.regs = true) ∧
      storeOp bad n m size keys val s = .next t ∧
      CndDone (goNext (Machine.stepBase (storeVal y (effAddr s n m size) size (val s)) n m size) 4) t := by
  obtain ⟨t, e, d⟩ := cndStep_clean (o := { op1 (keys ++ addrKeys s n m) with
      illegal := bad, cc := storeTime (effAddr s n m size) size, acc := some (accOf s n m size true) }) hc
    (fun x => Machine.stepBase (storeVal x (effAddr s n m size) size (val x)) n m size)
  have i := issueAt_done { op1 (keys ++ addrKeys s n m) with
      illegal := bad, cc := storeTime (effAddr s n m size) size, acc := some (accOf s n m size true) } s
  rw [hv _ i] at d
  exact ⟨_, t, i, issueAt_regs_wf _, e, d⟩

/-- A store to memory that runs clean (R329, R332, R333). -/
theorem storeOp_mem (wf : Memory.wf 0 s.cnd.mem = true) (me : s.cnd.memErr = [])
    (hc : runsClean { op1 (keys ++ addrKeys s n m) with illegal := bad, acc := some (accOf s n m size true) } s = true)
    (hm : isMgmt (effAddr s n m size) = false) (hs : size ∈ [1, 2, 4, 8]) (hv : ∀ x, CndDone s x → val x = val s) :
    ∃ t, storeOp bad n m size keys val s = .next t ∧
      (∀ k < size, tget 0 t.cnd.mem ((effAddr s n m size).toNat + k) = BitVec.ofNat 8 (val s / 256 ^ k)) ∧
      (∀ a, a < (effAddr s n m size).toNat ∨ (effAddr s n m size).toNat + size ≤ a →
        tget 0 t.cnd.mem a = tget 0 s.cnd.mem a) ∧
      CndDone (goNext (Machine.stepBase { s with cnd := { s.cnd with mem := t.cnd.mem } } n m size) 4) t := by
  obtain ⟨y, t, hy, -, e, d⟩ := storeOp_clean hc hv
  obtain ⟨ym, ye⟩ := hy.mem me
  rw [storeVal_mem _ ye hm hs] at d
  have tm : t.cnd.mem = tsets 0 s.cnd.mem (effAddr s n m size).toNat (leBytes size (val s)) := by
    rw [(d.mem ((goNext_mem _ 4).2.trans ((stepBase_mem _ n m size).2.trans ye))).1, (goNext_mem _ 4).1,
      (stepBase_mem _ n m size).1, ← ym]
    rfl
  refine ⟨t, e, fun k hk => ?_, fun a ha => ?_, ?_⟩
  · rw [tm]
    exact tget_tsets_in 0 _ wf (getElem?_leBytes _ hk)
  · rw [tm]
    exact tget_tsets_out 0 _ _ _ (by rwa [length_leBytes])
  · rw [tm, ← ym]
    exact (((hy.setMem _).stepBase n m size).goNext 4).trans d

end Sys2Proof.Machine
end

section
/-! SUPPORT. A store of the firmware to one of its registers (R17, R18, R332, R379). -/

namespace Sys2Proof.Machine
open Sys2Proof

theorem and_eq_self_of_and_not {v m : Word} (h : v &&& ~~~m = 0) : v &&& m = v := by
  ext i hi
  have b : (v &&& ~~~m)[i] = false := by rw [h]; exact BitVec.getElem_zero hi
  rw [BitVec.getElem_and, BitVec.getElem_not] at b
  rw [BitVec.getElem_and]
  cases hv : v[i] <;> simp_all

theorem goNext_regs (s : State) (n : Nat) : (goNext s n).regs = s.regs := rfl

theorem stepBase_regs (s : State) (n : Nat) (m : AddrMode) (k : Nat) : (stepBase s n m k).regs = s.regs := by
  cases m <;> rfl

theorem rd_goNext_stepBase (s : State) (n : Nat) (m : AddrMode) (k j r : Nat) : rd (goNext (stepBase s n m k) j) r = rd s r := by
  rw [rd, goNext_regs, stepBase_regs, rd]

theorem goNext_stepBase_withRegs (s : State) (n : Nat) (m : AddrMode) (k j : Nat) (R : Tbl Word) :
    goNext (stepBase { s with regs := R } n m k) j = { goNext (stepBase s n m k) j with regs := R } := by
  cases m <;> rfl

/-- What an instruction's end may touch can be said of registers as well: those of the end may stand for those of the start. -/
theorem CndDone.withRegs {u t : State} (h : CndDone u t) : CndDone { u with regs := t.regs } t where
  cnd := h.cnd
  mem := h.mem
  regs _ _ _ := rfl
  others := (congrArg (fun x : State => { x with regs := t.regs }) h.others :)

/-- A register written on both sides. -/
theorem CndDone.wr {u t : State} (h : CndDone u t) (a : Nat) (v : Word) : CndDone { u with regs := (wr t a v).regs } (wr t a v) where
  cnd := h.cnd
  mem := h.mem
  regs _ _ _ := rfl
  others := (congrArg (fun x : State => { x with regs := (Machine.wr t a v).regs }) h.others :)

theorem fwWritable_ne {a : Nat} (h : fwWritable a = true) :
    a ∉ [0x0648, 0x0830, 0x0E00, 0x0E10, 0x0F0C, 0x0F10] := by
  simp only [fwWritable, Bool.or_eq_true, Bool.and_eq_true, decide_eq_true_eq] at h
  simp only [List.mem_cons, List.not_mem_nil, or_false]
  omega

/-- A store of the firmware to a register that it writes: the reserved bits are reported, the defined bits take effect. -/
theorem storeVal_fw {s : State} {ea : Word} (v : Word) (hm : isMgmt ea = true) (hw : fwWritable (ea.toNat % 65536) = true) :
    storeVal s ea 4 v.toNat = wr (afterReserved s (ea.toNat % 65536) (v &&& ~~~fwMask (ea.toNat % 65536))) (ea.toNat % 65536)
      (v &&& fwMask (ea.toNat % 65536)) := by
  rw [storeVal, if_pos hm, BitVec.ofNat_toNat, BitVec.setWidth_eq, fwRegWrite, if_pos hw, afterReserved]

theorem reservedField_cnd (s : State) (a k : Nat) :
    (reservedField s a k).cnd.d = s.cnd.d ∧ (reservedField s a k).cnd.rep = s.cnd.rep ∧
      (reservedField s a k).cnd.pc = s.cnd.pc := by
  have h := (reservedField_onlyFault s a k).cnd
  exact ⟨(congrArg Cnd.d h :), (congrArg Cnd.rep h :), (congrArg Cnd.pc h :)⟩

theorem stepBase_cnd (s : State) (n : Nat) (m : AddrMode) (k : Nat) :
    (stepBase s n m k).cnd.d = s.cnd.d ∧ (stepBase s n m k).cnd.rep = s.cnd.rep ∧ (stepBase s n m k).cnd.pc = s.cnd.pc := by
  cases m <;> exact ⟨rfl, rfl, rfl⟩

theorem goNext_d (s : State) (n : Nat) : (goNext s n).cnd.d = s.cnd.d := by
  simp only [goNext, modCnd_cnd]
  split
  · rfl
  · split <;> rfl

theorem goNext_pc_of_plain {s : State} (n : Nat) (h : s.cnd.rep = none) : (goNext s n).cnd.pc = s.cnd.pc + BitVec.ofNat 32 n := by
  simp only [goNext, modCnd_cnd, h]

variable {s : State} {n : Nat} {m : AddrMode} {bad : Bool} {keys : List Nat} {val : State → Nat} {v : Word}

section
variable (wf : twf 0 s.regs = true) (hm : isMgmt (effAddr s n m 4) = true)
  (hw : fwWritable ((effAddr s n m 4).toNat % 65536) = true)
  (hc : runsClean { op1 (keys ++ addrKeys s n m) with illegal := bad, acc := some (accOf s n m 4 true) } s = true)
  (hv : ∀ x, CndDone s x → val x = v.toNat)
include wf hm hw hc hv

/-- The value has no reserved bit: the register takes it, and the instruction is done. -/
theorem storeOp_fw_defined (hd : v &&& ~~~fwMask ((effAddr s n m 4).toNat % 65536) = 0) :
    ∃ t, storeOp bad n m 4 keys val s = .next t ∧ rd t ((effAddr s n m 4).toNat % 65536) = v ∧
      (∀ r, r ≠ (effAddr s n m 4).toNat % 65536 → r ≠ 0x0648 → r ≠ 0x0830 → rd t r = rd s r) ∧
      CndDone (goNext (stepBase { s with regs := t.regs } n m 4) 4) t := by
  obtain ⟨y, t, hy, yw, e, d⟩ := storeOp_clean hc (fun x h => (hv x h).trans (hv s (.refl s)).symm)
  rw [hv s (.refl s), storeVal_fw v hm hw, afterReserved, if_pos hd] at d
  generalize hA : (effAddr s n m 4).toNat % 65536 = a at *
  rw [and_eq_self_of_and_not hd] at d
  have na := fwWritable_ne hw
  simp only [List.mem_cons, List.not_mem_nil, or_false, not_or] at na
  refine ⟨t, e, ?_, fun r n0 n1 n2 => ?_, ?_⟩
  · rw [d.regs a na.1 na.2.1, rd_goNext_stepBase, rd_wr_self v (yw wf)]
  · rw [d.regs r n1 n2, rd_goNext_stepBase, rd_wr_ne y v (Ne.symm n0), hy.regs r n1 n2]
  · rw [goNext_stepBase_withRegs]
    have := (((hy.wr a v).stepBase n m 4).goNext 4).trans d
    rw [goNext_stepBase_withRegs] at this
    exact this.withRegs

/-- The value has a reserved bit: the defined bits take effect, and RESERVED_FIELD is set. -/
theorem storeOp_fw_reserved (hd : v &&& ~~~fwMask ((effAddr s n m 4).toNat % 65536) ≠ 0) :
    ∃ t, storeOp bad n m 4 keys val s = .next t ∧
      rd t ((effAddr s n m 4).toNat % 65536) = v &&& fwMask ((effAddr s n m 4).toNat % 65536) ∧
      bit (rd t 0x0E00) 0 = true ∧
      (∀ r, r ∉ [(effAddr s n m 4).toNat % 65536, 0x0648, 0x0830, 0x0E00, 0x0E10, 0x0F0C, 0x0F10] → rd t r = rd s r) ∧
      t.cnd.d = s.cnd.d ∧ (s.cnd.rep = none → t.cnd.pc = s.cnd.pc + 4) := by
  obtain ⟨y, t, hy, yw, e, d⟩ := storeOp_clean hc (fun x h => (hv x h).trans (hv s (.refl s)).symm)
  rw [hv s (.refl s), storeVal_fw v hm hw, afterReserved, if_neg hd] at d
  generalize hA : (effAddr s n m 4).toNat % 65536 = a at *
  have na := fwWritable_ne hw
  simp only [List.mem_cons, List.not_mem_nil, or_false, not_or] at na
  obtain ⟨n1, n2, n3, -⟩ := na
  obtain ⟨rfd, rr, rp⟩ := reservedField_cnd y a 0
  obtain ⟨sd, sr, sp⟩ := stepBase_cnd (wr (reservedField y a 0) a (v &&& fwMask a)) n m 4
  refine ⟨t, e, ?_, ?_, fun r hr => ?_, ?_, fun hn => ?_⟩
  · rw [d.regs a n1 n2, rd_goNext_stepBase, rd_wr_self _ (reservedField_regs_wf a 0 (yw wf))]
  · rw [d.regs _ (by decide) (by decide), rd_goNext_stepBase, rd_wr_ne _ _ n3, bit_reservedField a 0 (yw wf)]
  · simp only [List.mem_cons, List.not_mem_nil, or_false, not_or] at hr
    obtain ⟨r0, r1, r2, r3⟩ := hr
    rw [d.regs r r1 r2, rd_goNext_stepBase, rd_wr_ne _ _ (Ne.symm r0), rd_reservedField_ne y a 0 (by simpa using r3),
      hy.regs r r1 r2]
  · rw [d.d, goNext_d, sd, wr_cnd, rfd, hy.d]
  · rw [d.pc, goNext_pc_of_plain 4 (by rw [sr, wr_cnd, rr, hy.rep, hn]), sp, wr_cnd, rp, hy.pc]
    rfl

end

/-- The bytes of a value below a store's size are those of its remainder. -/
theorem ofNat8_mod_div {v n k : Nat} (h : k < n) : BitVec.ofNat 8 (v % 256 ^ n / 256 ^ k) = BitVec.ofNat 8 (v / 256 ^ k) := by
  have a := getElem?_leBytes (v % 256 ^ n) h
  rw [leBytes_mod, getElem?_leBytes v h] at a
  exact (Option.some.inj a).symm

end Sys2Proof.Machine
end

section
open Sys2Proof Sys2Proof.Machine

/-- Settles O5: every store is one `storeOp`, which stores bytes in memory and writes a register of the firmware. -/
theorem conductorStores : Obligations.ConductorStores := by
  unfold Obligations.ConductorStores
  constructor
  · intro s d e n m wf me stores x f
    have dpair : dPair s d = x + 2 ^ 32 * (dReg s (d + 1)).toNat := by rw [dPair, Nat.mul_comm]
    refine ⟨fun hc hm => storeOp_mem wf me hc hm (by decide) (fun y h => by rw [h.dReg]),
      fun hc hm => storeOp_mem wf me hc hm (by decide) (fun y h => by rw [h.dReg]),
      fun hc hm => storeOp_mem wf me hc hm (by decide) (fun y h => by rw [h.dReg]),
      dpair ▸ fun hc hm => storeOp_mem wf me hc hm (by decide) (fun y h => by rw [dPair, dPair, h.dReg, h.dReg]),
      fun hc hm => storeOp_mem wf me hc hm (by decide) (fun y h => by rw [h.aReg]), fun hc hm => ?_,
      fun hc hm => storeOp_mem wf me hc hm (by decide) (fun y h => by rw [h.fReg])⟩
    -- FST.S stores the low word of its register
    obtain ⟨t, ht, hb, hf, hd⟩ := storeOp_mem (val := fun x => (fReg x d).toNat % 2 ^ 32) wf me hc hm (by decide)
      (fun y h => by rw [h.fReg])
    exact ⟨t, ht, fun k hk => (hb k hk).trans (ofNat8_mod_div hk), hf, hd⟩
  · intro s d e n m wf ea a hm hw writes
    exact ⟨fun hc => ⟨storeOp_fw_defined wf hm hw hc (fun y h => by rw [h.dReg]),
        storeOp_fw_reserved wf hm hw hc (fun y h => by rw [h.dReg])⟩,
      fun hc => ⟨storeOp_fw_defined wf hm hw hc (fun y h => by rw [h.aReg]),
        storeOp_fw_reserved wf hm hw hc (fun y h => by rw [h.aReg])⟩⟩

end

section
/-! SUPPORT. The registers' statement at a partition number that no device has. `Takes` leaves the order's partition open, and the ring
configuration of partition p is the register at 0x0A60 + 4 × p: that of p = 236 is FLT_FIRST, which a reserved field writes. -/

namespace Sys2Proof.Machine
open Sys2Proof

/-- A REG_READ of no register, in the ring of partition 236. -/
def strayOrder : Sub := { part := 236, mbx := false, idx := 0, stamp := 0 }

/-- A running device to which that order is submitted: the entry in conductor memory, READ at 1 in the partition's rights
(0x0DC0), a reply ring of 2,048 entries (0x0E10), of which 100 are in use. -/
def strayState : State :=
  { State.reset with
    regs := [(0x0DC0, 0x1000), (0x0E10, 0x70)]
    boot := { Boot.reset with ready := true }
    cnd := { Cnd.reset with running := true, mem := [(0x20760000, 1), (0x20760004, 4)] }
    prt := { Prt.reset with subs := [strayOrder], rqTail := [(236, 100)] } }

theorem strayState_takes : Takes strayState strayOrder 0x0001 4 0 := by
  unfold Takes isNext header
  decide

/-- RESERVED_FIELD is the first fault of the device, so FLT_FIRST takes its index: the ring shrinks to 16 entries, is full, and the
reply is held. -/
theorem strayState_holds_reply :
    exec .cmdRegRead strayState = .next (dispatch cardRegRead strayState) ∧
      tget 0 (dispatch cardRegRead strayState).prt.rqTail 236 = 100 := ⟨rfl, by decide⟩

/-- The statement has the reply in the ring, whose TAIL would have advanced. -/
theorem tail_of_performs {i : Instr} {s u t : State} {o : Order} {status detail : Nat} {body : List Byte}
    (h : performs i s u o status detail body) (hi : exec i s = .next t) (ho : o.mbx = false) :
    tget 0 t.prt.rqTail o.part = (tget 0 u.prt.rqTail o.part + 1) % 65536 := by
  obtain ⟨t', e, hp⟩ := h
  obtain rfl : t = t' := Host.Outcome.next.inj (hi.symm.trans e)
  exact (hp.replied.2.2 ho).1

end Sys2Proof.Machine
end

section
open Sys2Proof Sys2Proof.Machine

/-- Refutes O40: it lets the order's partition be any number, and at 236 the report of the reserved field shrinks the reply ring that
the reply should enter, so REG_READ of no register leaves its refusal held and TAIL at 100. -/
theorem not_registerAndAngleCommands : ¬ Obligations.RegisterAndAngleCommands := by
  unfold Obligations.RegisterAndAngleCommands
  intro h
  obtain ⟨-, hread, -⟩ := h.1 strayState strayOrder
  obtain ⟨-, -, hnone⟩ := hread strayState_takes (by decide)
  have refused := hnone (by decide) (.inl (by decide))
  obtain ⟨ran, tail⟩ := strayState_holds_reply
  have advanced := tail_of_performs refused ran rfl
  have posted : (tget 0 (reservedField (takeSub strayState strayOrder) 1 1).prt.rqTail 236 + 1) % 65536 = 101 := by decide
  exact absurd (tail.symm.trans (advanced.trans posted)) (by decide)

end

section
/-! SUPPORT. The list of frames as a boundary carries it on: the newest two stand, and none appears but from one that was there
(R85, R89, R111). -/

namespace Sys2Proof.Machine
open Sys2Proof

/-- Each frame of `l'` comes by `R` from one of `l`, and the newest two of `l'` from those of `l` in order. -/
structure Carried (R : Frame → Frame → Prop) (l l' : List Frame) : Prop where
  newest : List.Forall₂ R (l.take 2) (l'.take 2)
  origin : ∀ h ∈ l', ∃ f ∈ l, R f h

namespace Carried
variable {R S : Frame → Frame → Prop} {l l' l'' : List Frame}

theorem map {g : Frame → Frame} (l : List Frame) (h : ∀ f ∈ l, R f (g f)) : Carried R l (l.map g) := by
  refine ⟨?_, fun x m => ?_⟩
  · rw [← List.map_take, List.forall₂_map_right_iff, List.forall₂_same]
    exact fun f m => h f (List.mem_of_mem_take m)
  · obtain ⟨f, n, rfl⟩ := List.mem_map.mp m
    exact ⟨f, n, h f n⟩

theorem refl (h : ∀ f, R f f) (l : List Frame) : Carried R l l := by
  simpa using map (g := id) l fun f _ => h f

theorem forall₂_trans (t : ∀ {f g h}, R f g → R g h → R f h) (a : List.Forall₂ R l l') (b : List.Forall₂ R l' l'') :
    List.Forall₂ R l l'' := by
  induction a generalizing l'' with
  | nil => exact b
  | cons p _ ih =>
    cases b with
    | cons q b => exact .cons (t p q) (ih b)

theorem trans (t : ∀ {f g h}, R f g → R g h → R f h) (a : Carried R l l') (b : Carried R l' l'') : Carried R l l'' := by
  refine ⟨forall₂_trans t a.newest b.newest, fun x m => ?_⟩
  obtain ⟨g, m, q⟩ := b.origin x m
  obtain ⟨f, m, p⟩ := a.origin g m
  exact ⟨f, m, t p q⟩

theorem mono (i : ∀ {f h}, R f h → S f h) (a : Carried R l l') : Carried S l l' :=
  ⟨a.newest.imp fun _ _ => i, fun x m => (a.origin x m).imp fun _ ⟨n, r⟩ => ⟨n, i r⟩⟩

/-- The newest frame stands at the head. -/
theorem head {f : Frame} {rest : List Frame} (a : Carried R (f :: rest) l') : ∃ h rest', l' = h :: rest' ∧ R f h := by
  have n := a.newest
  cases l' with
  | nil => cases n
  | cons h rest' =>
    cases n with
    | cons r _ => exact ⟨h, rest', rfl, r⟩

/-- So does the frame before it stand second. -/
theorem head₂ {f g : Frame} {rest : List Frame} (a : Carried R (f :: g :: rest) l') :
    ∃ h k rest', l' = h :: k :: rest' ∧ R f h ∧ R g k := by
  have n := a.newest
  match l', n with
  | h :: k :: rest', .cons r (.cons q _) => exact ⟨h, k, rest', rfl, r, q⟩

end Carried

/-- A frame of which a reply may have been posted since: beside the marks of replies only its state has moved, to DRAINED, and an
overflow been noted. -/
structure Posted (f h : Frame) : Prop where
  same : { h with st := f.st, overflow := f.overflow, slots := f.slots } = f
  st : h.st = f.st ∨ f.st = .posting ∧ h.st = .drained
  slots : h.slots.map (fun x => { x with posted := false }) = f.slots.map (fun x => { x with posted := false })

/-- A frame that has settled since, with its slots as they were. -/
structure Settled (f h : Frame) : Prop where
  same : { h with st := f.st, overflow := f.overflow } = f
  st : h.st = f.st ∨ f.st = .posting ∧ h.st = .drained

theorem Settled.refl (f : Frame) : Settled f f := ⟨rfl, .inl rfl⟩

theorem Posted.refl (f : Frame) : Posted f f := ⟨rfl, .inl rfl, rfl⟩

theorem st_trans {a b c : FState} (h : b = a ∨ a = .posting ∧ b = .drained) (g : c = b ∨ b = .posting ∧ c = .drained) :
    c = a ∨ a = .posting ∧ c = .drained := by
  rcases h with rfl | ⟨rfl, rfl⟩
  · exact g
  · exact .inr ⟨rfl, by simpa using g⟩

theorem Settled.trans {f g h : Frame} (a : Settled f g) (b : Settled g h) : Settled f h :=
  ⟨(congrArg (fun x : Frame => { x with st := f.st, overflow := f.overflow }) b.same).trans a.same, st_trans a.st b.st⟩

theorem Posted.trans {f g h : Frame} (a : Posted f g) (b : Posted g h) : Posted f h :=
  ⟨(congrArg (fun x : Frame => { x with st := f.st, overflow := f.overflow, slots := f.slots }) b.same).trans a.same,
    st_trans a.st b.st, b.slots.trans a.slots⟩

theorem Settled.slots {f h : Frame} (a : Settled f h) : h.slots = f.slots := (congrArg Frame.slots a.same :)

theorem Settled.count {f h : Frame} (a : Settled f h) : h.count = f.count := (congrArg Frame.count a.same :)

theorem Settled.half {f h : Frame} (a : Settled f h) : h.half = f.half := (congrArg Frame.half a.same :)

theorem Settled.posted {f h : Frame} (a : Settled f h) : Posted f h :=
  ⟨(congrArg (fun x : Frame => { x with slots := f.slots }) a.same :), a.st, by rw [a.slots]⟩

theorem Posted.count {f h : Frame} (a : Posted f h) : h.count = f.count := (congrArg Frame.count a.same :)

theorem Posted.overspeed {f h : Frame} (a : Posted f h) : h.overspeed = f.overspeed := (congrArg Frame.overspeed a.same :)

/-- What a slot holds beside its mark is as it was. -/
theorem Posted.map_slots {α : Type} {f h : Frame} (a : Posted f h) (k : Slot → α)
    (e : ∀ x : Slot, k { x with posted := false } = k x) : h.slots.map k = f.slots.map k := by
  have forget : (k ∘ fun x : Slot => { x with posted := false }) = k := funext e
  have := congrArg (List.map k) a.slots
  rwa [List.map_map, List.map_map, forget] at this

/-- An outcome that every slot has stays. -/
theorem Posted.outcome {f h : Frame} (a : Posted f h) {o : Option (Nat × Nat)} (g : ∀ x ∈ f.slots, x.outcome = o) :
    ∀ x ∈ h.slots, x.outcome = o := by
  have e := a.map_slots (fun x => x.outcome) fun _ => rfl
  intro x m
  have : x.outcome ∈ f.slots.map (fun x => x.outcome) := e ▸ List.mem_map_of_mem m
  obtain ⟨y, n, q⟩ := List.mem_map.mp this
  exact q.symm.trans (g y n)

theorem Posted.fps {f h : Frame} (a : Posted f h) : h.slots.map (fun x => x.fp) = f.slots.map (fun x => x.fp) :=
  a.map_slots _ fun _ => rfl

theorem Posted.closed {f h : Frame} (a : Posted f h) (g : f.st = .closed) : h.st = .closed := by
  rcases a.st with e | ⟨e, -⟩
  · exact e.trans g
  · simp [g] at e

theorem Posted.past {f h : Frame} (a : Posted f h) (g : f.st = .posting ∨ f.st = .drained) : h.st = .posting ∨ h.st = .drained := by
  rcases a.st with e | ⟨-, e⟩
  · rwa [e]
  · exact .inr e

/-- Forgetting the old DRAINED frames leaves the newest two. -/
theorem take_settled (l : List Frame) (p : Frame → Bool) : (l.take 2 ++ (l.drop 2).filter p).take 2 = l.take 2 := by
  match l with
  | [] => rfl
  | [_] => rfl
  | _ :: _ :: _ => rfl

/-- What settles of a frame. -/
def settleOne (f : Frame) : Frame := if f.st = .posting ∧ f.allPosted ∧ !f.owed then { f with st := .drained } else f

theorem settleOne_settled (f : Frame) : Settled f (settleOne f) := by
  unfold settleOne
  split
  · next h => exact ⟨rfl, .inr ⟨h.1, rfl⟩⟩
  · exact .refl f

theorem settle_frames (s : State) : (settle s).frm.frames = (s.frm.frames.map settleOne).take 2 ++
    ((s.frm.frames.map settleOne).drop 2).filter (fun f => f.st ≠ .drained) := rfl

theorem settle_carried (s : State) : Carried Settled s.frm.frames (settle s).frm.frames := by
  have m := Carried.map s.frm.frames fun f _ => settleOne_settled f
  refine ⟨?_, fun h n => m.origin h ?_⟩
  · rw [settle_frames, take_settled]
    exact m.newest
  · rw [settle_frames, List.mem_append] at n
    exact n.elim List.mem_of_mem_take fun n => List.mem_of_mem_drop (List.mem_of_mem_filter n)

theorem modFrame_frames (s : State) (c : BitVec 48) (g : Frame → Frame) :
    (modFrame s c g).frm.frames = s.frm.frames.map (fun f => if f.count = c then g f else f) := rfl

/-- A change that leaves a frame related to itself, made to the frames of a number. -/
theorem modFrame_carried {R : Frame → Frame → Prop} (s : State) (c : BitVec 48) {g : Frame → Frame} (r : ∀ f, R f f)
    (h : ∀ f, R f (g f)) : Carried R s.frm.frames (modFrame s c g).frm.frames :=
  Carried.map _ fun f _ => by
    split
    · exact h f
    · exact r f

/-! Frames over: past their computation, with one outcome in every slot. -/

/-- The frames numbered `c` are past their computation and answered with `o`. -/
def OverWith (c : BitVec 48) (o : Nat × Nat) (s : State) : Prop :=
  ∀ h ∈ s.frm.frames, h.count = c → (h.st = .posting ∨ h.st = .drained) ∧ ∀ x ∈ h.slots, x.outcome = some o

theorem OverWith.carried {c : BitVec 48} {o : Nat × Nat} {s t : State} (h : OverWith c o s)
    (a : Carried Posted s.frm.frames t.frm.frames) : OverWith c o t := by
  intro g m e
  obtain ⟨f, n, p⟩ := a.origin g m
  obtain ⟨st, out⟩ := h f n (p.count.symm.trans e)
  exact ⟨p.past st, p.outcome out⟩

theorem OverWith.of_frames {c : BitVec 48} {o : Nat × Nat} {s t : State} (h : OverWith c o s)
    (e : t.frm.frames = s.frm.frames) : OverWith c o t := by
  unfold OverWith
  rwa [e]

/-- What is done to a frame of another number does not touch it. -/
theorem OverWith.modFrame {c d : BitVec 48} {o : Nat × Nat} {s : State} (h : OverWith c o s) {g : Frame → Frame}
    (n : c ≠ d) (k : ∀ f, (g f).count = f.count) : OverWith c o (modFrame s d g) := by
  intro x m e
  obtain ⟨f, m', rfl⟩ := List.mem_map.mp m
  by_cases q : f.count = d
  · rw [if_pos q] at e
    exact absurd (((k f).symm.trans e).symm.trans q) n
  · rw [if_neg q] at e ⊢
    exact h f m' e

/-- A blank slot: no outcome, no reply. -/
def Slot.blank (x : Slot) : Prop := x.outcome = none ∧ x.posted = false

theorem Slot.blank.answer {x : Slot} (h : x.blank) (a b : Nat) : x.answer a b = { x with outcome := some (a, b) } := by
  obtain ⟨ho, hp⟩ := h
  simp [Slot.answer, ho, hp]

theorem markOutcome_frm (s : State) (a n : Nat) : (markOutcome s a n).frm = s.frm := by
  unfold markOutcome
  repeat' split
  all_goals rfl

/-- The frames of a number, each answered slot by slot. -/
theorem answerSlots_frames (s : State) (c : BitVec 48) (p : Slot → Bool) (a b : Nat) : (answerSlots s c p a b).frm =
    (modFrame s c (fun f => { f with slots := f.slots.map (fun x => if p x then x.answer a b else x) })).frm := by
  unfold answerSlots
  split
  · next h =>
    have absent : ∀ f ∈ s.frm.frames, f.count ≠ c := by simpa [findFrame] using h
    have e : s.frm.frames.map (fun f => if f.count = c then
        { f with slots := f.slots.map (fun x => if p x then x.answer a b else x) } else f) = s.frm.frames.map id :=
      List.map_congr_left fun f m => if_neg (absent f m)
    rw [modFrame, e, List.map_id]
  · exact markOutcome_frm _ _ _

theorem toPosting_carried (s : State) (c : BitVec 48) : Carried Settled
    (s.frm.frames.map (fun f => if f.count = c then { f with st := .posting } else f)) (toPosting s c).frm.frames :=
  settle_carried (modFrame s c fun f => { f with st := .posting })

/-- Blank frames of a number are over once they are answered and moved to POSTING. -/
theorem overWith_toPosting_answerSlots {s : State} {c : BitVec 48} {p : Slot → Bool} {a b : Nat}
    (h : ∀ g ∈ s.frm.frames, g.count = c → ∀ x ∈ g.slots, x.blank ∧ p x = true) :
    OverWith c (a, b) (toPosting (answerSlots s c p a b) c) := by
  intro g m e
  obtain ⟨f1, m, q⟩ := (toPosting_carried _ c).origin g m
  rw [answerSlots_frames, modFrame_frames, List.map_map] at m
  obtain ⟨f, n, rfl⟩ := List.mem_map.mp m
  by_cases hc : f.count = c
  · simp only [Function.comp, hc, if_true] at q
    refine ⟨q.posted.past (.inl rfl), q.posted.outcome fun x k => ?_⟩
    obtain ⟨y, k', rfl⟩ := List.mem_map.mp k
    obtain ⟨hb, hp⟩ := h f n hc y k'
    rw [if_pos hp, hb.answer]
  · simp only [Function.comp, hc, if_false] at q
    exact absurd (q.count.symm.trans e) hc

end Sys2Proof.Machine
end

section
/-! SUPPORT. What the steps of a boundary leave alone until a frame opens: the shedding, closing and posting of frames on a solo
device with no command that awaits its completion (R86, R106, R111). -/

namespace Sys2Proof.Machine
open Sys2Proof

/-- What holds before a loop and is kept by its step holds after it. -/
theorem forEach_induction {α : Type} {P : State → Prop} {l : List α} {s : State} {f : State → α → State} (h : P s)
    (step : ∀ u, P u → ∀ a, P (f u a)) : P (forEach l s f) :=
  List.foldlRecOn (motive := P) l f h fun u hu a _ => step u hu a

theorem OnlyTrace.frm {s t : State} (h : OnlyTrace s t) : t.frm = s.frm := (congrArg State.frm h :)

theorem traceAny_only (s : State) (p ty v : Nat) : OnlyTrace s (traceAny s p ty v) := by
  unfold traceAny
  split
  · exact .refl s
  · exact (putEntry_only s p 4 ty v).trans (settlePost_only _ p)

theorem traceRing_only (s : State) (p kind counter info rk fp : Nat) : OnlyTrace s (traceRing s p kind counter info rk fp) :=
  OnlyTrace.ite (traceChan_only s p 3 0xE _) (.refl s)

theorem traceLane_only (s : State) (n kind ovln fill : Nat) : OnlyTrace s (traceLane s n kind ovln fill) := by
  unfold traceLane
  dsimp only
  split
  · exact .refl s
  · have seen := (setTrc_only (.refl s) 0 _).trans
      (traceEvent_only (setTrc s 0 { trc s 0 with seen := (16 * kind + n) :: (trc s 0).seen }) 0 11)
    exact OnlyTrace.ite (seen.trans (traceChan_only _ 0 3 0xB _)) seen

theorem traceFrame_only (s : State) (count stCode : Nat) (coast : Bool) (kind : Nat) :
    OnlyTrace s (traceFrame s count stCode coast kind) := by
  have step (u : State) (p ty v : Nat) : OnlyTrace u (if kind = 0 then
      traceEvent (setTrc (traceAny u p ty v) p { trc (traceAny u p ty v) p with seen := [] }) p 1 else traceAny u p ty v) :=
    OnlyTrace.ite ((setTrc_only (traceAny_only u p ty v) p _).trans (traceEvent_only _ p 1)) (traceAny_only u p ty v)
  unfold traceFrame
  exact List.foldlRecOn (motive := OnlyTrace s) (List.range 4) _ (.refl s) fun u h p _ => h.trans (step u p _ _)

/-- The flags that the steps of a boundary set, with the count of sheds. -/
def boundaryFlags : List Nat := [0x0208, 0x0308, 0x0314, 0x0904, 0x0A04]

/-- Beside frames, posted replies, repaired units, the sample store, the trace and registers, `t` is `s`. -/
structure Unmoved (s t : State) : Prop where
  others : { t with
    frm := s.frm, smp := s.smp, scb := s.scb, hdg := s.hdg, cnd := s.cnd, prt := s.prt, trc := s.trc, regs := s.regs } = s
  ipend : t.cnd.ipend = s.cnd.ipend
  progs : t.frm.progs = s.frm.progs
  opens : t.prt.opens = s.prt.opens
  changes : t.prt.changes = s.prt.changes

namespace Unmoved
variable {s t u : State}

theorem trans (h : Unmoved s t) (g : Unmoved t u) : Unmoved s u where
  others := (congrArg (fun y : State => { y with
    frm := s.frm, smp := s.smp, scb := s.scb, hdg := s.hdg, cnd := s.cnd, prt := s.prt, trc := s.trc, regs := s.regs })
    g.others :).trans h.others
  ipend := g.ipend.trans h.ipend
  progs := g.progs.trans h.progs
  opens := g.opens.trans h.opens
  changes := g.changes.trans h.changes

theorem now (h : Unmoved s t) : t.now = s.now := (congrArg State.now h.others :)

theorem ang (h : Unmoved s t) : t.ang = s.ang := (congrArg State.ang h.others :)

theorem pwr (h : Unmoved s t) : t.pwr = s.pwr := (congrArg State.pwr h.others :)

theorem grp (h : Unmoved s t) : t.grp = s.grp := (congrArg State.grp h.others :)

theorem member_eq (h : Unmoved s t) : member t = member s := by rw [member, member, h.grp]

theorem nextCount_eq (h : Unmoved s t) : nextCount t = nextCount s := by rw [nextCount, nextCount, h.ang]

theorem prog_eq (h : Unmoved s t) (k : Nat) : prog t k = prog s k := by rw [prog, prog, h.progs]

end Unmoved

/-- Beside those, the registers other than flags are as they were. -/
structure Undisturbed (s t : State) : Prop extends Unmoved s t where
  regs r : r ∉ boundaryFlags → rd t r = rd s r

namespace Undisturbed
variable {s t u : State}

theorem of_regs (h : Unmoved s t) (e : t.regs = s.regs) : Undisturbed s t := ⟨h, fun r _ => by rw [rd, rd, e]⟩

theorem refl (s : State) : Undisturbed s s := of_regs ⟨rfl, rfl, rfl, rfl, rfl⟩ rfl

theorem trans (h : Undisturbed s t) (g : Undisturbed t u) : Undisturbed s u :=
  ⟨h.toUnmoved.trans g.toUnmoved, fun r n => (g.regs r n).trans (h.regs r n)⟩

theorem ofTrace (h : OnlyTrace s t) : Undisturbed s t := by
  rw [h.eq]
  exact of_regs ⟨rfl, rfl, rfl, rfl, rfl⟩ rfl

theorem angEn_eq (h : Undisturbed s t) : angEn t = angEn s := by
  rw [angEn, angEn, angCtrl, angCtrl, h.regs 0x0200 (by decide)]

end Undisturbed

theorem setFlag_undisturbed (s : State) {a : Nat} (n : Nat) (h : a ∈ boundaryFlags) : Undisturbed s (setFlag s a n) :=
  ⟨⟨rfl, rfl, rfl, rfl, rfl⟩, fun _ hr => rd_setFlag_ne s n fun e => hr (e ▸ h)⟩

theorem satReg_undisturbed (s : State) {a : Nat} (n : Nat) (h : a ∈ boundaryFlags) : Undisturbed s (satReg s a n) :=
  ⟨⟨rfl, rfl, rfl, rfl, rfl⟩, fun _ hr => rd_satReg_ne s n fun e => hr (e ▸ h)⟩

theorem modFrame_undisturbed (s : State) (c : BitVec 48) (g : Frame → Frame) : Undisturbed s (modFrame s c g) :=
  .of_regs ⟨rfl, rfl, rfl, rfl, rfl⟩ rfl

theorem settle_undisturbed (s : State) : Undisturbed s (settle s) := .of_regs ⟨rfl, rfl, rfl, rfl, rfl⟩ rfl

theorem toPosting_undisturbed (s : State) (c : BitVec 48) : Undisturbed s (toPosting s c) :=
  (modFrame_undisturbed s c _).trans (settle_undisturbed _)

theorem markOutcome_undisturbed (s : State) (a n : Nat) : Undisturbed s (markOutcome s a n) := by
  unfold markOutcome
  split
  · exact .refl s
  split
  · exact (setFlag_undisturbed s 0 (by decide)).trans (satReg_undisturbed _ n (by decide))
  split
  · exact setFlag_undisturbed s 1 (by decide)
  split
  · exact setFlag_undisturbed s 5 (by decide)
  · exact .refl s

theorem answerSlots_undisturbed (s : State) (c : BitVec 48) (p : Slot → Bool) (a b : Nat) :
    Undisturbed s (answerSlots s c p a b) := by
  unfold answerSlots
  split
  · exact .refl s
  · exact (modFrame_undisturbed s c _).trans (markOutcome_undisturbed _ a _)

/-! The posting of replies. -/

/-- The ring with a reply entry at its TAIL, before the trace takes note. -/
def ringEntry (s : State) (p : Nat) (e : List Byte) : State :=
  { wrBytes s (rqAddr s p (tget 0 s.prt.rqTail p)) e with
    prt := { s.prt with rqTail := tput s.prt.rqTail p ((tget 0 s.prt.rqTail p + 1) % 65536) } }

/-- Its RING entry in the trace. -/
def ringTraced (s : State) (p : Nat) (e : List Byte) : State :=
  traceRing (ringEntry s p e) p 1 ((tget 0 s.prt.rqTail p + 1) % 65536) (entryNat e 1 1) (entryNat e 0 1) (entryNat e 3 1)

theorem ringPost_eq (s : State) (p : Nat) (e : List Byte) : ringPost s p e =
    if entryNat e 0 1 = 1 ∧ entryNat e 1 1 ≠ 0 then traceEvent (ringTraced s p e) p 9 else ringTraced s p e := rfl

theorem ringPost_only (s : State) (p : Nat) (e : List Byte) : OnlyTrace (ringEntry s p e) (ringPost s p e) := by
  have ring : OnlyTrace (ringEntry s p e) (ringTraced s p e) := traceRing_only _ p 1 _ _ _ _
  rw [ringPost_eq]
  exact OnlyTrace.ite (ring.trans (traceEvent_only _ p 9)) ring

theorem ringPost_undisturbed (s : State) (p : Nat) (e : List Byte) : Undisturbed s (ringPost s p e) :=
  Undisturbed.trans (t := ringEntry s p e) (.of_regs ⟨rfl, rfl, rfl, rfl, rfl⟩ rfl) (.ofTrace (ringPost_only s p e))

theorem ringPost_frm (s : State) (p : Nat) (e : List Byte) : (ringPost s p e).frm = s.frm := (ringPost_only s p e).frm

theorem post_undisturbed (s : State) (p : Nat) (e : List Byte) : Undisturbed s (post s p e) := by
  unfold post
  split
  · exact ringPost_undisturbed s p e
  · refine .trans ?_ (.ofTrace (traceRing_only _ p 2 _ _ _ _))
    exact .of_regs ⟨rfl, rfl, rfl, rfl, rfl⟩ rfl

theorem post_frm (s : State) (p : Nat) (e : List Byte) : (post s p e).frm = s.frm := by
  unfold post
  split
  · exact ringPost_frm s p e
  · exact (traceRing_only _ p 2 _ _ _ _).frm

theorem applyKeeper_eq (s : State) (p : Nat) (rs : List (Nat × List Byte)) :
    applyKeeper s p rs = { s with cnd := { s.cnd with mem := (applyKeeper s p rs).cnd.mem } } := by
  unfold applyKeeper
  exact forEach_induction (P := fun u : State => u = { s with cnd := { s.cnd with mem := u.cnd.mem } }) rfl
    fun u h r => (congrArg (fun x : State => wrBytes x ((keepArea u p).1 + r.1) r.2) h :)

/-- The keeper updates of a slot that is posted. -/
theorem settleKeeper_undisturbed (s : State) (key p : Nat) : Undisturbed s (settleKeeper s key p) := by
  unfold settleKeeper
  rw [applyKeeper_eq]
  exact .of_regs ⟨rfl, rfl, rfl, rfl, rfl⟩ rfl

theorem settleKeeper_frames (s : State) (key p : Nat) : (settleKeeper s key p).frm.frames = s.frm.frames := by
  unfold settleKeeper
  rw [applyKeeper_eq]

theorem abortDone_of_no_opens {s : State} (h : s.prt.opens = []) : abortDone s = s := by
  rw [abortDone, h]
  rfl

theorem formDone_of_not_member {s : State} (h : member s = false) : formDone s = s := by simp [formDone, h]

/-- Replies were posted, and nothing else happened. -/
structure Posts (s t : State) : Prop extends Undisturbed s t where
  frames : Carried Posted s.frm.frames t.frm.frames

theorem Posts.refl (s : State) : Posts s s := ⟨.refl s, .refl Posted.refl _⟩

theorem Posts.trans {s t u : State} (h : Posts s t) (g : Posts t u) : Posts s u :=
  ⟨h.toUndisturbed.trans g.toUndisturbed, .trans Posted.trans h.frames g.frames⟩

section
variable {s : State} (solo : member s = false) (opens : s.prt.opens = [])
include solo opens

theorem postSlot_posts (f : Frame) (x : Slot) (a b : Nat) : Posts s (postSlot s f x a b) := by
  unfold postSlot
  extract_lets p key _ s1 s2 s3
  have h1 : Undisturbed s s1 ∧ s1.frm.frames = s.frm.frames := by
    unfold s1
    split
    · exact ⟨settleKeeper_undisturbed s key p, settleKeeper_frames s key p⟩
    · exact ⟨.of_regs ⟨rfl, rfl, rfl, rfl, rfl⟩ rfl, rfl⟩
  have h2 : Undisturbed s s2 := h1.1.trans (post_undisturbed _ _ _)
  have e2 : s2.frm.frames = s.frm.frames := (congrArg Frm.frames (post_frm _ _ _)).trans h1.2
  have marks : Carried Posted s.frm.frames s3.frm.frames := by
    rw [← e2]
    refine modFrame_carried s2 _ Posted.refl fun g => ⟨rfl, .inl rfl, ?_⟩
    simp only [List.map_map]
    exact List.map_congr_left fun y _ => by
      dsimp only [Function.comp]
      split <;> rfl
  have done : Undisturbed s (settle s3) := h2.trans ((modFrame_undisturbed s2 _ _).trans (settle_undisturbed _))
  rw [abortDone_of_no_opens (done.opens.trans opens), formDone_of_not_member (done.member_eq.trans solo)]
  exact ⟨done, .trans Posted.trans marks (.mono Settled.posted (settle_carried s3))⟩

theorem postNext_posts (p : Nat) : Posts s ((postNext s p).getD s) := by
  unfold postNext
  split
  · split
    · split
      · exact .refl s
      · exact postSlot_posts solo opens _ _ _ _
    · exact .refl s
  · exact .refl s

theorem postReady_posts (n : Nat) : Posts s (postReady s n) := by
  induction n generalizing s with
  | zero => exact .refl s
  | succ n ih =>
    have round : Posts s (forEach (List.range 4) s fun s p => (postNext s p).getD s) :=
      forEach_induction (P := Posts s) (.refl s) fun u h p =>
        h.trans (postNext_posts (h.member_eq.trans solo) (h.opens.trans opens) p)
    exact round.trans (ih (round.member_eq.trans solo) (round.opens.trans opens))

end

/-! The fabric units that a boundary releases, and the changes of a boundary at which none is pending. -/

theorem releaseRepaired_eq (s : State) : releaseRepaired s =
    { s with scb := (releaseRepaired s).scb, hdg := (releaseRepaired s).hdg } := by
  have units (us : List Nat) : forEach us s (fun s u =>
      let s' := { s with scb := { s.scb with gated := tdel s.scb.gated u } }
      if u < 64 then setCell s' u (cellPreload s' s'.hdg.bank u) else s') = { s with
        scb := (forEach us s (fun s u =>
          let s' := { s with scb := { s.scb with gated := tdel s.scb.gated u } }
          if u < 64 then setCell s' u (cellPreload s' s'.hdg.bank u) else s')).scb
        hdg := (forEach us s (fun s u =>
          let s' := { s with scb := { s.scb with gated := tdel s.scb.gated u } }
          if u < 64 then setCell s' u (cellPreload s' s'.hdg.bank u) else s')).hdg } := by
    refine forEach_induction (P := fun t : State => t = { s with scb := t.scb, hdg := t.hdg }) rfl fun t h u => ?_
    dsimp only
    split
    · rw [h]
      rfl
    · rw [h]
  unfold releaseRepaired
  dsimp only
  rw [units]
  split <;> rfl

theorem releaseRepaired_undisturbed (s : State) : Undisturbed s (releaseRepaired s) := by
  rw [releaseRepaired_eq]
  exact .of_regs ⟨rfl, rfl, rfl, rfl, rfl⟩ rfl

theorem takeCopy_of_not_member {s : State} (h : member s = false) : takeCopy s = s := by
  unfold takeCopy
  split
  · simp [h]
  · rfl

/-- With nothing pending a boundary's changes are the release of repaired units, and the clock's stop if it is disabled. -/
theorem applyChanges_of_none {s : State} (closing : Option (BitVec 48)) (solo : member s = false) (opens : s.prt.opens = [])
    (none : s.prt.changes = []) : applyChanges s closing = settleClock s (releaseRepaired s) := by
  have h := releaseRepaired_undisturbed s
  have e : { s with prt := { s.prt with changes := [] } } = s := by rw [← none]
  rw [applyChanges, none, e]
  show settleClock s (abortDone (takeCopy (releaseRepaired s))) = _
  rw [takeCopy_of_not_member (h.member_eq.trans solo), abortDone_of_no_opens (h.opens.trans opens)]

/-- A clock whose source configuration stands is disturbed only where it is disabled. -/
theorem settleClock_of_same_regs {s t : State} (h : t.regs = s.regs) :
    settleClock s t = if angEn s = true ∨ t.ang.st = .off then t else clockOff t := by
  have en : angEn t = angEn s := by rw [angEn, angEn, angCtrl, angCtrl, rd, rd, h]
  have key : sourceKey s = sourceKey t := by
    unfold sourceKey angSrc angCtrl rd
    rw [h]
  rw [settleClock, en, key]
  cases angEn s <;> simp

end Sys2Proof.Machine
end

section
/-! SUPPORT. The slots of a frame that opens (R91, R92, R398). -/

namespace Sys2Proof.Machine
open Sys2Proof

/-- The order of R92. -/
def Slot.before (x y : Slot) : Prop := x.prio < y.prio ∨ x.prio = y.prio ∧ x.fp < y.fp

theorem Slot.before_trans {x y z : Slot} (h : x.before y) (g : y.before z) : x.before z := by
  unfold Slot.before at *
  omega

theorem Slot.before_of_not {x y : Slot} (h : ¬x.before y) (n : y.fp ≠ x.fp) : y.before x := by
  unfold Slot.before at *
  omega

theorem insSlot_cons (x y : Slot) (ys : List Slot) :
    x.before y ∧ insSlot x (y :: ys) = x :: y :: ys ∨ ¬x.before y ∧ insSlot x (y :: ys) = y :: insSlot x ys := by
  by_cases h : x.before y
  · exact .inl ⟨h, if_pos h⟩
  · exact .inr ⟨h, if_neg h⟩

theorem mem_insSlot (x y : Slot) (l : List Slot) : x ∈ insSlot y l ↔ x = y ∨ x ∈ l := by
  induction l with
  | nil => exact List.mem_cons
  | cons z l ih =>
    rcases insSlot_cons y z l with ⟨-, e⟩ | ⟨-, e⟩
    · rw [e, List.mem_cons]
    · rw [e, List.mem_cons, ih, List.mem_cons]
      exact or_left_comm

theorem insSlot_pairwise {x : Slot} {l : List Slot} (h : l.Pairwise Slot.before) (n : ∀ y ∈ l, y.fp ≠ x.fp) :
    (insSlot x l).Pairwise Slot.before := by
  induction l with
  | nil => exact List.pairwise_singleton _ x
  | cons z l ih =>
    obtain ⟨hz, hl⟩ := List.pairwise_cons.mp h
    rcases insSlot_cons x z l with ⟨b, e⟩ | ⟨b, e⟩
    · rw [e]
      refine List.pairwise_cons.mpr ⟨fun y m => ?_, h⟩
      rcases List.mem_cons.mp m with rfl | m
      · exact b
      · exact Slot.before_trans b (hz y m)
    · rw [e]
      refine List.pairwise_cons.mpr ⟨fun y m => ?_, ih hl fun y m => n y (List.mem_cons_of_mem z m)⟩
      rcases (mem_insSlot y x l).mp m with rfl | m
      · exact Slot.before_of_not b (n z List.mem_cons_self)
      · exact hz y m

/-- The slot of program `k` in a frame that opens in `s`. -/
def slotOf (s : State) (k : Nat) : Slot :=
  { fp := k, prio := (prog s k).prio, started := false, outcome := none, posted := false, body := [], restarts := 0,
    throttled := false }

/-- Program `k` receives a slot in a frame that opens in `s`. -/
def takesSlot (s : State) (k : Nat) : Bool := (prog s k).enabled && !(prog s k).susp && !onHold s (fpPart k)

/-- The slots of the programs `ks`, added to `l`. -/
def addSlots (s : State) (ks : List Nat) (l : List Slot) : List Slot :=
  ks.foldl (fun l k => if takesSlot s k then insSlot (slotOf s k) l else l) l

theorem newSlots_eq {s : State} (solo : member s = false) (here : s.grp.retired = false) : newSlots s = addSlots s fpNums [] := by
  rw [newSlots, solo, here]
  rfl

theorem addSlots_spec (s : State) {ks : List Nat} (nodup : ks.Nodup) {l : List Slot} (sorted : l.Pairwise Slot.before)
    (fresh : ∀ x ∈ l, x.fp ∉ ks) : (addSlots s ks l).Pairwise Slot.before ∧
      ∀ x, x ∈ addSlots s ks l ↔ x ∈ l ∨ ∃ k ∈ ks, takesSlot s k = true ∧ x = slotOf s k := by
  induction ks generalizing l with
  | nil => exact ⟨sorted, fun x => by simp [addSlots]⟩
  | cons k ks ih =>
    obtain ⟨hk, nodup⟩ := List.nodup_cons.mp nodup
    have new (x : Slot) (m : x ∈ l) : x.fp ≠ k ∧ x.fp ∉ ks := by simpa using fresh x m
    by_cases t : takesSlot s k = true
    · have step : addSlots s (k :: ks) l = addSlots s ks (insSlot (slotOf s k) l) := by simp [addSlots, t]
      rw [step]
      obtain ⟨hs, hm⟩ := ih nodup (insSlot_pairwise (x := slotOf s k) sorted fun y m => (new y m).1) fun x m => by
        rcases (mem_insSlot x _ l).mp m with rfl | m
        · exact hk
        · exact (new x m).2
      exact ⟨hs, fun x => by rw [hm, mem_insSlot]; simp [t, or_assoc, or_left_comm]⟩
    · have step : addSlots s (k :: ks) l = addSlots s ks l := by simp [addSlots, t]
      rw [step]
      obtain ⟨hs, hm⟩ := ih nodup sorted fun x m => (new x m).2
      exact ⟨hs, fun x => by rw [hm]; simp [t]⟩

theorem onHold_iff (s : State) (p : Nat) : onHold s p = false ↔ holdQ s p = [] := by simp [onHold]

/-- The slots of a frame that opens on a solo device: one for each program that is enabled and neither suspended nor held, in the
order of R92, and blank. -/
theorem newSlots_spec {s : State} (solo : member s = false) (here : s.grp.retired = false) :
    (∀ k, (∃ x ∈ newSlots s, x.fp = k) ↔
      k < 16 ∧ (prog s k).enabled = true ∧ (prog s k).susp = false ∧ holdQ s (fpPart k) = []) ∧
    (newSlots s).Pairwise Slot.before ∧
    ∀ x ∈ newSlots s, x.prio = (prog s x.fp).prio ∧ x.outcome = none ∧ x.posted = false ∧ x.started = false := by
  obtain ⟨sorted, mem⟩ := addSlots_spec s (ks := fpNums) List.nodup_range (l := []) .nil (by simp)
  rw [← newSlots_eq solo here] at sorted mem
  have takes (k : Nat) : takesSlot s k = true ↔
      (prog s k).enabled = true ∧ (prog s k).susp = false ∧ holdQ s (fpPart k) = [] := by
    rw [← onHold_iff]
    simp [takesSlot, and_assoc]
  refine ⟨fun k => ⟨?_, fun ⟨hk, t⟩ => ?_⟩, sorted, fun x m => ?_⟩
  · rintro ⟨x, m, rfl⟩
    obtain ⟨k, hk, t, rfl⟩ := ((mem x).mp m).resolve_left List.not_mem_nil
    exact ⟨List.mem_range.mp hk, (takes k).mp t⟩
  · exact ⟨slotOf s k, (mem _).mpr (.inr ⟨k, List.mem_range.mpr hk, (takes k).mpr t, rfl⟩), rfl⟩
  · obtain ⟨k, -, -, rfl⟩ := ((mem x).mp m).resolve_left List.not_mem_nil
    exact ⟨rfl, rfl, rfl, rfl⟩

end Sys2Proof.Machine
end

section
/-! SUPPORT. The opening of a frame: its half, its overlap records and its entry in the trace (R42, R84 to R91, R161, R163). -/

namespace Sys2Proof.Machine
open Sys2Proof

/-- Beside the sample store, the trace, flags and frames that settle, `t` is `s`. -/
structure Records (s t : State) : Prop where
  others : { t with frm := s.frm, smp := s.smp, trc := s.trc, regs := s.regs } = s
  progs : t.frm.progs = s.frm.progs
  frames : Carried Settled s.frm.frames t.frm.frames
  regs r : r ∉ boundaryFlags → rd t r = rd s r

namespace Records
variable {s t u : State}

theorem refl (s : State) : Records s s := ⟨rfl, rfl, .refl Settled.refl _, fun _ _ => rfl⟩

theorem trans (h : Records s t) (g : Records t u) : Records s u where
  others := (congrArg (fun y : State => { y with frm := s.frm, smp := s.smp, trc := s.trc, regs := s.regs }) g.others :).trans
    h.others
  progs := g.progs.trans h.progs
  frames := .trans Settled.trans h.frames g.frames
  regs r n := (g.regs r n).trans (h.regs r n)

theorem ofTrace (h : OnlyTrace s t) : Records s t := by
  rw [h.eq]
  exact ⟨rfl, rfl, .refl Settled.refl _, fun _ _ => rfl⟩

theorem ang (h : Records s t) : t.ang = s.ang := (congrArg State.ang h.others :)

theorem grp (h : Records s t) : t.grp = s.grp := (congrArg State.grp h.others :)

theorem cnd (h : Records s t) : t.cnd = s.cnd := (congrArg State.cnd h.others :)

theorem holdQ_eq (h : Records s t) (p : Nat) : holdQ t p = holdQ s p := (congrArg (fun y : State => holdQ y p) h.others :)

end Records

theorem setFlag_records (s : State) {a : Nat} (n : Nat) (h : a ∈ boundaryFlags) : Records s (setFlag s a n) :=
  ⟨rfl, rfl, .refl Settled.refl _, fun _ hr => rd_setFlag_ne s n fun e => hr (e ▸ h)⟩

theorem settle_records (s : State) : Records s (settle s) := ⟨rfl, rfl, settle_carried s, fun _ _ => rfl⟩

theorem assignHalf_records (s : State) (half : Bool) : Records s (assignHalf s half) :=
  ⟨rfl, rfl, .refl Settled.refl _, fun _ _ => rfl⟩

theorem putRec_records (s : State) (half : Bool) (c : BitVec 48) (n : Nat) (r : Word) : Records s (putRec s half c n r) := by
  unfold putRec
  dsimp only
  split
  · have mark : Records s (modFrame s c fun x => { x with overflow := true }) :=
      ⟨rfl, rfl, modFrame_carried s c Settled.refl fun _ => ⟨rfl, .inl rfl⟩, fun _ _ => rfl⟩
    have flags := mark.trans ((setFlag_records _ n (a := 0x0904) (by decide)).trans
      (setFlag_records _ 3 (a := 0x0308) (by decide)))
    exact flags.trans (.ofTrace (traceLane_only _ n 1 0 _))
  · exact ⟨rfl, rfl, .refl Settled.refl _, fun _ _ => rfl⟩

theorem overlapLane_records (s : State) (half : Bool) (c : BitVec 48) (n : Nat) : Records s (overlapLane s half c n) := by
  unfold overlapLane
  extract_lets old new k m s1
  have copied : Records s (forEach (lastRecs s (!half) old k) s1 fun s r => putRec s half c n (r ||| place 1 29)) :=
    forEach_induction (P := Records s) ⟨rfl, rfl, .refl Settled.refl _, fun _ _ => rfl⟩ fun u h r =>
      h.trans (putRec_records u half c n _)
  split
  · exact copied.trans (.ofTrace (traceLane_only _ n 5 k _))
  · exact .refl s

theorem overlapLanes_records (s : State) (half : Bool) (c : BitVec 48) : Records s (overlapLanes s half c) :=
  forEach_induction (P := Records s) (.refl s) fun u h n => h.trans (overlapLane_records u half c n)

/-! The marks of partitions whose replies are held. -/

/-- Beside the count of skipped frames and the marks of R398, `t` is `s`. -/
structure HoldsMarked (s t : State) : Prop where
  others : { t with prt := { t.prt with holdAct := s.prt.holdAct, skip := s.prt.skip }, regs := s.regs } = s
  regs r : r ≠ 0x0A04 → rd t r = rd s r

theorem HoldsMarked.refl (s : State) : HoldsMarked s s := ⟨rfl, fun _ _ => rfl⟩

theorem HoldsMarked.trans {s t u : State} (h : HoldsMarked s t) (g : HoldsMarked t u) : HoldsMarked s u where
  others := (congrArg (fun y : State => { y with
    prt := { y.prt with holdAct := s.prt.holdAct, skip := s.prt.skip }, regs := s.regs }) g.others :).trans h.others
  regs r n := (g.regs r n).trans (h.regs r n)

theorem HoldsMarked.frm {s t : State} (h : HoldsMarked s t) : t.frm = s.frm := (congrArg State.frm h.others :)

theorem HoldsMarked.ang {s t : State} (h : HoldsMarked s t) : t.ang = s.ang := (congrArg State.ang h.others :)

theorem HoldsMarked.grp {s t : State} (h : HoldsMarked s t) : t.grp = s.grp := (congrArg State.grp h.others :)

theorem HoldsMarked.changes {s t : State} (h : HoldsMarked s t) : t.prt.changes = s.prt.changes :=
  (congrArg (fun y : State => y.prt.changes) h.others :)

theorem boundaryHold_marks (s : State) (opens : Bool) (p : Nat) : HoldsMarked s (boundaryHold s opens p) := by
  unfold boundaryHold
  split
  · split
    · exact ⟨rfl, fun r n => rd_setFlag_ne _ 2 n.symm⟩
    · exact .refl s
  · exact ⟨rfl, fun _ _ => rfl⟩

theorem boundaryHolds_marks (s : State) (opens : Bool) : HoldsMarked s (boundaryHolds s opens) :=
  forEach_induction (P := HoldsMarked s) (.refl s) fun u h p => h.trans (boundaryHold_marks u opens p)

/-- A boundary at which no frame opens sets no flag for a hold. -/
theorem boundaryHolds_regs (s : State) : (boundaryHolds s false).regs = s.regs := by
  refine forEach_induction (P := fun u : State => u.regs = s.regs) rfl fun u h p => ?_
  rw [← h]
  unfold boundaryHold
  split <;> rfl

/-! The frame itself. -/

/-- The frame that opens in `s`, with these slots. -/
def frameOf (s : State) (slots : List Slot) : Frame :=
  { count := nextCount s, st := .ingesting, half := (nextCount s).getLsbD 0,
    coasted := decide (s.ang.st = .coasting) || s.ang.errLeft, reversed := false, overspeed := false, overflow := false,
    suspect := s.scb.suspect.isSome, owed := false, slots := slots }

/-- The clock at phase 0 of that frame. -/
def openedAng (s : State) (closed : Bool) : Ang :=
  { s.ang with
    count48 := nextCount s, anyOpened := true, frameOpen := true, openAt := s.now, phase := 0, wfrac := 0,
    meas := if closed then s.ang.meas - closeAngle else s.ang.meas,
    expect := if closed then s.ang.expect - closeAngle else s.ang.expect,
    kcount := if closed then s.ang.kcount - perFrame s else s.ang.kcount,
    high := if closed then s.ang.high - perFrame s else s.ang.high,
    qerr := 0, coasted := decide (s.ang.st = .coasting) || s.ang.errLeft, reversed := false, fired := 0, heldWord := none }

/-- The device with that frame as its newest. -/
def withFrame (s : State) (slots : List Slot) (closed : Bool) : State :=
  { setAng s (openedAng s closed) with frm := { s.frm with frames := frameOf s slots :: s.frm.frames } }

theorem withFrame_ang (s : State) (slots : List Slot) (closed : Bool) : (withFrame s slots closed).ang = openedAng s closed := rfl

theorem withFrame_cnd (s : State) (slots : List Slot) (closed : Bool) : (withFrame s slots closed).cnd = s.cnd := rfl

theorem withFrame_grp (s : State) (slots : List Slot) (closed : Bool) : (withFrame s slots closed).grp = s.grp := rfl

theorem rd_withFrame (s : State) (slots : List Slot) (closed : Bool) (r : Nat) : rd (withFrame s slots closed) r = rd s r := rfl

theorem holdQ_withFrame (s : State) (slots : List Slot) (closed : Bool) (p : Nat) :
    holdQ (withFrame s slots closed) p = holdQ s p := rfl

/-- Once its frame stands, what the opening does is record. -/
theorem openFrame_records (s : State) (closed : Bool) :
    Records (withFrame (boundaryHolds s true) (newSlots s) closed) (openFrame s closed) := by
  have half (u : State) (b : Bool) := (settle_records u).trans (assignHalf_records (settle u) b)
  unfold openFrame
  extract_lets slots u c b a n coast f s1 _ s2 s3
  have stored : Records (withFrame u slots closed) s3 := by
    unfold s3
    split
    · exact (half _ b).trans (overlapLanes_records _ b c)
    · exact half _ b
  exact stored.trans (.ofTrace (traceFrame_only s3 _ _ _ _))

theorem holdQ_boundaryHolds (s : State) (opens : Bool) (p : Nat) : holdQ (boundaryHolds s opens) p = holdQ s p :=
  (congrArg (fun y : State => holdQ y p) (boundaryHolds_marks s opens).others :)

theorem nextCount_boundaryHolds (s : State) (opens : Bool) : nextCount (boundaryHolds s opens) = nextCount s := by
  rw [nextCount, nextCount, (boundaryHolds_marks s opens).ang]

/-- The frame that opens, the frames before it, and the clock. -/
theorem openFrame_frames (s : State) (closed : Bool) :
    ∃ g tail, (openFrame s closed).frm.frames = g :: tail ∧ Settled (frameOf (boundaryHolds s true) (newSlots s)) g ∧
      ∀ h rest, s.frm.frames = h :: rest → ∃ k tail', tail = k :: tail' ∧ Settled h k := by
  have carried := (openFrame_records s closed).frames
  have e : (withFrame (boundaryHolds s true) (newSlots s) closed).frm.frames =
      frameOf (boundaryHolds s true) (newSlots s) :: s.frm.frames := by
    rw [← (boundaryHolds_marks s true).frm]
    rfl
  rw [e] at carried
  obtain ⟨g, tail, eg, hg⟩ := carried.head
  refine ⟨g, tail, eg, hg, fun h rest er => ?_⟩
  rw [er, eg] at carried
  obtain ⟨g', k, tail', et, -, hk⟩ := carried.head₂
  obtain ⟨-, rfl⟩ := List.cons.inj et
  exact ⟨k, tail', rfl, hk⟩

theorem openFrame_ang (s : State) (closed : Bool) : (openFrame s closed).ang = openedAng (boundaryHolds s true) closed := by
  rw [(openFrame_records s closed).ang, withFrame_ang]

theorem openFrame_grp (s : State) (closed : Bool) : (openFrame s closed).grp = s.grp := by
  rw [(openFrame_records s closed).grp, withFrame_grp, (boundaryHolds_marks s true).grp]

theorem openFrame_regs (s : State) (closed : Bool) {r : Nat} (h : r ∉ boundaryFlags) : rd (openFrame s closed) r = rd s r := by
  have hold : r ≠ 0x0A04 := fun e => h (e ▸ by decide)
  rw [(openFrame_records s closed).regs r h, rd_withFrame, (boundaryHolds_marks s true).regs r hold]

/-- A locked clock of a solo device opens its next frame. -/
theorem openFrame_opens {s : State} (solo : member s = false) (here : s.grp.retired = false) (locked : s.ang.st = .locked)
    (int : s.cnd.ipend.getLsbD 1 = true) (closed : Bool) {g : Frame}
    (hg : Settled (frameOf (boundaryHolds s true) (newSlots s)) g) : FrameOpens s (openFrame s closed) g := by
  have marks := boundaryHolds_marks s true
  have ang := openFrame_ang s closed
  have cnd : (openFrame s closed).cnd = s.cnd := by
    rw [(openFrame_records s closed).cnd, withFrame_cnd]
    exact (congrArg State.cnd marks.others :)
  obtain ⟨mem, sorted, blank⟩ := newSlots_spec solo here
  have next := nextCount_boundaryHolds s true
  have slots : g.slots = newSlots s := hg.slots
  exact {
    count := by rw [ang]; exact next
    phase := by rw [ang]; rfl
    frameOpen := by rw [ang]; rfl
    st := by rw [ang, openedAng, marks.ang]; exact locked
    openAt := by rw [ang]; exact (congrArg State.now marks.others :)
    own := hg.count.trans next
    ingests := by simpa [frameOf] using hg.st
    half := hg.half.trans (by rw [frameOf, next])
    slots k := by
      rw [slots, (openFrame_records s closed).holdQ_eq, holdQ_withFrame, holdQ_boundaryHolds]
      exact mem k
    order := slots ▸ sorted
    blank := slots ▸ blank
    interrupt := by rwa [cnd] }

theorem openFrame_overWith {s : State} {c : BitVec 48} {o : Nat × Nat} (closed : Bool) (h : OverWith c o s) (n : c ≠ nextCount s) :
    OverWith c o (openFrame s closed) := by
  have started : OverWith c o (withFrame (boundaryHolds s true) (newSlots s) closed) := by
    intro g m e
    rcases List.mem_cons.mp m with rfl | m
    · exact absurd (e.symm.trans (nextCount_boundaryHolds s true)) n
    · rw [(boundaryHolds_marks s true).frm] at m
      exact h g m e
  exact started.carried (.mono Settled.posted (openFrame_records s closed).frames)

end Sys2Proof.Machine
end

section
/-! SUPPORT. The closing of a frame: its period, its outcome and the release of its half (R70, R71, R85, R90, R112, R171). -/

namespace Sys2Proof.Machine
open Sys2Proof

/-- The device with the period and the illegal transitions of the frame that closes in its registers. -/
def noteTimes (s : State) : State :=
  wr (wr s 0x024C (BitVec.ofNat 32 (min (2 ^ 30 - 1) ((s.now - s.ang.openAt) / 4)))) 0x0250
    (BitVec.ofNat 32 (min 0xFFFF s.ang.qerr))

/-- The frame that closes is shorter than ANG_FMIN. -/
def tooShort (s : State) : Bool := decide (s.now - s.ang.openAt < 200 * fmin s)

theorem noteTimes_unmoved (s : State) : Unmoved s (noteTimes s) := ⟨rfl, rfl, rfl, rfl, rfl⟩

theorem rd_noteTimes_period {s : State} (w : twf 0 s.regs = true) :
    rd (noteTimes s) 0x024C = BitVec.ofNat 32 (min (2 ^ 30 - 1) ((s.now - s.ang.openAt) / 4)) := by
  rw [noteTimes, rd_wr_ne _ _ (by decide), rd_wr_self _ w]

theorem rd_noteTimes_qerr {s : State} (w : twf 0 s.regs = true) :
    rd (noteTimes s) 0x0250 = BitVec.ofNat 32 (min 0xFFFF s.ang.qerr) :=
  rd_wr_self _ (wr_regs_wf _ _ w)

theorem rd_noteTimes_ne (s : State) {r : Nat} (h : r ≠ 0x024C) (g : r ≠ 0x0250) : rd (noteTimes s) r = rd s r := by
  rw [noteTimes, rd_wr_ne _ _ g.symm, rd_wr_ne _ _ h.symm]

theorem measureFrame_eq (s : State) (f : Frame) : measureFrame s f = if tooShort s = true then
    modFrame (setFlag (noteTimes s) 0x0208 0) f.count (fun f => { f with overspeed := true }) else noteTimes s := by
  simp only [tooShort, decide_eq_true_eq]
  rfl

theorem measureFrame_undisturbed (s : State) (f : Frame) : Undisturbed (noteTimes s) (measureFrame s f) := by
  rw [measureFrame_eq]
  split
  · exact (setFlag_undisturbed _ 0 (by decide)).trans (modFrame_undisturbed _ _ _)
  · exact .refl _

variable {s : State} {f : Frame} {rest : List Frame} {c : BitVec 48}

theorem modFrame_head (h : s.frm.frames = f :: rest) (e : f.count = c) (g : Frame → Frame) :
    ∃ rest', (modFrame s c g).frm.frames = g f :: rest' :=
  ⟨_, by rw [modFrame_frames, h, List.map_cons, if_pos e]⟩

theorem findFrame_head (h : s.frm.frames = f :: rest) (e : f.count = c) : findFrame s c = some f := by simp [findFrame, h, e]

theorem measureFrame_head (h : s.frm.frames = f :: rest) :
    ∃ rest', (measureFrame s f).frm.frames = { f with overspeed := f.overspeed || tooShort s } :: rest' := by
  rw [measureFrame_eq]
  cases tooShort s with
  | true =>
    obtain ⟨rest', e⟩ := modFrame_head (s := setFlag (noteTimes s) 0x0208 0) h rfl fun f => { f with overspeed := true }
    exact ⟨rest', by simpa using e⟩
  | false => exact ⟨rest, by rw [Bool.or_false]; exact h⟩

theorem measureFrame_overWith {o : Nat × Nat} (h : OverWith c o s) (n : c ≠ f.count) : OverWith c o (measureFrame s f) := by
  rw [measureFrame_eq]
  split
  · exact OverWith.modFrame (s := setFlag (noteTimes s) 0x0208 0) h n fun _ => rfl
  · exact h

/-- The outcome with which a frame closes that is not to be computed. -/
def closeOutcome (s : State) (f : Frame) : Option (Nat × Nat) :=
  if f.overflow then some (0x21, 9) else if f.suspect then some (0x21, 11)
  else if f.reversed ∧ bit (rd s 0x0200) 4 = false then some (0x20, 2) else if s.pwr.st = 1 then some (0x20, 3) else none

theorem closeOutcome_eq {t : State} (r : rd t 0x0200 = rd s 0x0200) (p : t.pwr = s.pwr) : closeOutcome t f = closeOutcome s f := by
  rw [closeOutcome, closeOutcome, r, p]

/-- A slot of a frame that closes with that outcome. -/
def Slot.close (o : Option (Nat × Nat)) (x : Slot) : Slot :=
  match o with
  | some (a, b) => x.answer a b
  | none => x

theorem Slot.blank.close {x : Slot} (h : x.blank) (o : Option (Nat × Nat)) : x.close o = { x with outcome := o } := by
  cases o with
  | some o => exact h.answer o.1 o.2
  | none => exact (congrArg (fun o => { x with outcome := o }) h.1 :)

/-- The frames numbered `c`, answered with that outcome. -/
def closeAll (s : State) (c : BitVec 48) (o : Option (Nat × Nat)) : State :=
  match o with
  | some (a, b) => answerSlots s c (fun _ => true) a b
  | none => s

theorem closeAll_undisturbed (s : State) (c : BitVec 48) (o : Option (Nat × Nat)) : Undisturbed s (closeAll s c o) := by
  cases o with
  | some o => exact answerSlots_undisturbed s c _ o.1 o.2
  | none => exact .refl s

theorem closeAll_frames (s : State) (c : BitVec 48) (o : Option (Nat × Nat)) : (closeAll s c o).frm.frames =
    (modFrame s c (fun f => { f with slots := f.slots.map (fun x => x.close o) })).frm.frames := by
  cases o with
  | some o => exact congrArg Frm.frames (answerSlots_frames s c _ o.1 o.2)
  | none => simp [closeAll, modFrame, Slot.close]

/-- The half of a closed frame without slots, or with an outcome in every slot, is released. -/
def releaseHalf (s : State) (c : BitVec 48) : State :=
  match findFrame s c with
  | some g =>
    if g.slots.isEmpty then modFrame s c (fun f => { f with st := .drained })
    else if g.answered then toPosting s c
    else s
  | none => s

theorem releaseHalf_undisturbed (s : State) (c : BitVec 48) : Undisturbed s (releaseHalf s c) := by
  unfold releaseHalf
  split
  · split
    · exact modFrame_undisturbed s c _
    · split
      · exact toPosting_undisturbed s c
      · exact .refl s
  · exact .refl s

theorem closeFrame_eq (solo : member s = false) (f : Frame) : closeFrame s f =
    releaseHalf (closeAll (modFrame s f.count fun f => { f with st := .closed }) f.count (closeOutcome s f)) f.count := by
  have answered : closeAll (modFrame s f.count fun f => { f with st := .closed }) f.count (closeOutcome s f) =
      if f.overflow then answerSlots (modFrame s f.count fun f => { f with st := .closed }) f.count (fun _ => true) 0x21 9
      else if f.suspect then answerSlots (modFrame s f.count fun f => { f with st := .closed }) f.count (fun _ => true) 0x21 11
      else if f.reversed ∧ !bit (angCtrl s) 4 then
        answerSlots (modFrame s f.count fun f => { f with st := .closed }) f.count (fun _ => true) 0x20 2
      else if s.pwr.st = 1 then
        answerSlots (modFrame s f.count fun f => { f with st := .closed }) f.count (fun _ => true) 0x20 3
      else modFrame s f.count fun f => { f with st := .closed } := by
    simp only [closeOutcome, angCtrl, Bool.not_eq_true']
    split_ifs <;> rfl
  have still : member (closeAll (modFrame s f.count fun f => { f with st := .closed }) f.count (closeOutcome s f)) = false :=
    ((modFrame_undisturbed s f.count _).trans (closeAll_undisturbed _ _ _)).member_eq.trans solo
  unfold closeFrame
  dsimp only
  rw [← answered, still]
  rfl

theorem closeFrame_undisturbed (solo : member s = false) (f : Frame) : Undisturbed s (closeFrame s f) := by
  rw [closeFrame_eq solo]
  exact (modFrame_undisturbed s _ _).trans ((closeAll_undisturbed _ _ _).trans (releaseHalf_undisturbed _ _))

theorem releaseHalf_overWith {o : Nat × Nat} {d : BitVec 48} (h : OverWith c o s) (n : c ≠ d) : OverWith c o (releaseHalf s d) := by
  unfold releaseHalf
  split
  · split
    · exact h.modFrame n fun _ => rfl
    · split
      · refine OverWith.carried ?_ (.mono Settled.posted (settle_carried (modFrame s d fun f => { f with st := .posting })))
        exact h.modFrame n fun _ => rfl
      · exact h
  · exact h

theorem closeFrame_overWith {o : Nat × Nat} (solo : member s = false) (h : OverWith c o s) (n : c ≠ f.count) :
    OverWith c o (closeFrame s f) := by
  rw [closeFrame_eq solo]
  refine releaseHalf_overWith ?_ n
  have closed : OverWith c o (modFrame s f.count fun f => { f with st := .closed }) := h.modFrame n fun _ => rfl
  refine OverWith.of_frames ?_ (closeAll_frames _ f.count (closeOutcome s f))
  exact closed.modFrame n fun _ => rfl

/-- What becomes of a frame whose half may be released: one without slots is DRAINED, one with every outcome POSTING or DRAINED, and
another stays. -/
theorem releaseHalf_head (h : s.frm.frames = f :: rest) (e : f.count = c) : ∃ g rest', (releaseHalf s c).frm.frames = g :: rest' ∧
    g.count = f.count ∧ g.overspeed = f.overspeed ∧ g.slots = f.slots ∧
    (f.slots = [] ∨ f.answered = true → g.st = .posting ∨ g.st = .drained) ∧
    (f.slots ≠ [] → f.answered = false → g.st = f.st) := by
  rw [releaseHalf, findFrame_head h e]
  dsimp only
  by_cases empty : f.slots = []
  · obtain ⟨rest', er⟩ := modFrame_head h e fun f => { f with st := .drained }
    rw [if_pos (by simp [empty])]
    exact ⟨_, rest', er, rfl, rfl, rfl, fun _ => .inr rfl, fun n => absurd empty n⟩
  · rw [if_neg (by simpa using empty)]
    cases answered : f.answered with
    | true =>
      obtain ⟨rest', er⟩ := modFrame_head h e fun f => { f with st := .posting }
      obtain ⟨g, rest', eg, hg⟩ := (er ▸ settle_carried (modFrame s c fun f => { f with st := .posting })).head
      exact ⟨g, rest', eg, hg.count, hg.posted.overspeed, hg.slots, fun _ => hg.posted.past (.inl rfl), by simp⟩
    | false => exact ⟨f, rest, h, rfl, rfl, rfl, by simp [empty], fun _ _ => rfl⟩

/-- What the frame `f` that closes with the outcome `o` becomes: `short` says that it is shorter than ANG_FMIN. -/
structure FrameCloses (o : Option (Nat × Nat)) (short : Bool) (f h : Frame) : Prop where
  count : h.count = f.count
  outcome : ∀ x ∈ h.slots, x.outcome = o
  fps : h.slots.map (fun x => x.fp) = f.slots.map (fun x => x.fp)
  overspeed : h.overspeed = (f.overspeed || short)
  waits : o = none → f.slots ≠ [] → h.st = .closed
  past : o ≠ none ∨ f.slots = [] → h.st = .posting ∨ h.st = .drained

theorem FrameCloses.posted {o : Option (Nat × Nat)} {short : Bool} {f h k : Frame} (a : FrameCloses o short f h) (p : Posted h k) :
    FrameCloses o short f k where
  count := p.count.trans a.count
  outcome := p.outcome a.outcome
  fps := p.fps.trans a.fps
  overspeed := p.overspeed.trans a.overspeed
  waits ho hs := p.closed (a.waits ho hs)
  past ho := p.past (a.past ho)

/-- The newest frame closes. -/
theorem closeFrame_head {short : Bool} (solo : member s = false)
    (h : s.frm.frames = { f with overspeed := f.overspeed || short } :: rest) (blank : ∀ x ∈ f.slots, x.blank) :
    ∃ k rest', (closeFrame s f).frm.frames = k :: rest' ∧ FrameCloses (closeOutcome s f) short f k := by
  rw [closeFrame_eq solo]
  generalize closeOutcome s f = o
  obtain ⟨rest1, e1⟩ := modFrame_head h (c := f.count) rfl fun f => { f with st := .closed }
  obtain ⟨rest2, e2⟩ := modFrame_head e1 (c := f.count) rfl fun f => { f with slots := f.slots.map (fun x => x.close o) }
  rw [← closeAll_frames] at e2
  obtain ⟨k, rest', ek, count, overspeed, slots, past, waits⟩ := releaseHalf_head e2 rfl
  have closed : f.slots.map (fun x => x.close o) = f.slots.map (fun x => { x with outcome := o }) :=
    List.map_congr_left fun x m => (blank x m).close o
  rw [closed] at slots waits past
  refine ⟨k, rest', ek, count, fun x m => ?_, ?_, overspeed, fun ho hs => ?_, fun ho => past ?_⟩
  · obtain ⟨y, -, rfl⟩ := List.mem_map.mp (slots ▸ m)
    rfl
  · rw [slots, List.map_map]
    rfl
  · obtain ⟨x, xs, ex⟩ := List.exists_cons_of_ne_nil hs
    exact waits (by simpa using hs) (by simp [Frame.answered, ex, ho])
  · rcases ho with ho | ho
    · exact .inr (by simp [Frame.answered, Option.isSome_iff_ne_none, ho])
    · exact .inl (by simp [ho])

end Sys2Proof.Machine
end

section
/-! SUPPORT. A boundary as a whole (R24, R42, R86, R106): what comes before the opening of a frame, on a device with no record held
by a lane and with nothing pending. -/

namespace Sys2Proof.Machine
open Sys2Proof

/-- The boundary is counted, and the conductor told. -/
def atBoundary (s : State) : State := raiseInt { s with frm := { s.frm with boundaries := s.frm.boundaries + 1 } } 17

/-- The bitstream lanes' last records go to the frame that ingests. -/
def flushIngesting (s : State) : State :=
  match ingesting s with
  | some f => flushLanes s f.half f.count
  | none => s

/-- The frame that ingests closes. -/
def closeIngesting (s : State) : State :=
  match ingesting s with
  | some f => closeFrame (measureFrame s f) f
  | none => s

/-- The changes take effect, and the replies that are ready are posted. -/
def takeChanges (s : State) (closing : Option (BitVec 48)) : State := postReady (applyChanges s closing) 8

/-- The device at a boundary when the open frame has closed. -/
def afterClosing (s : State) : State := closeIngesting (shedOvertaken (flushIngesting (atBoundary s)))

/-- The device at a boundary when a frame may open. -/
def beforeOpening (s : State) : State :=
  takeChanges (afterClosing s) ((ingesting (atBoundary s)).map fun f => f.count)

theorem groupCheckpoint_of_solo {s : State} (h : s.grp.role = 0) : groupCheckpoint s = s := by simp [groupCheckpoint, h]

theorem boundaryGroup_of_solo {s : State} (h : s.grp.role = 0) : boundaryGroup s = s := by
  have beat : groupBeat s = s := by simp [groupBeat, h]
  rw [boundaryGroup, beat, groupCheckpoint_of_solo h]

theorem boundary_of_locked {s : State} (st : (beforeOpening s).ang.st = .locked) (run : (beforeOpening s).pwr.st ≠ 2)
    (solo : (beforeOpening s).grp.role = 0) : boundary s = openFrame (beforeOpening s) (ingesting s).isSome := by
  unfold boundary
  extract_lets _ _ closing _ _ _ u live spent
  have e : u = beforeOpening s := rfl
  have some : closing.isSome = (ingesting s).isSome := Option.isSome_map
  clear_value u closing
  simp only [live, spent, e, st, some]
  simp [run, boundaryGroup_of_solo, openFrame_grp, solo]

theorem boundary_of_off {s : State} (st : (beforeOpening s).ang.st = .off) (solo : (beforeOpening s).grp.role = 0) :
    boundary s = boundaryHolds (beforeOpening s) false := by
  unfold boundary
  extract_lets _ _ closing _ _ _ u live spent
  have e : u = beforeOpening s := rfl
  clear_value u closing
  simp only [live, spent, e, st]
  simp [boundaryGroup_of_solo, (boundaryHolds_marks (beforeOpening s) false).grp, solo]

theorem member_of_solo {s : State} (h : s.grp.role = 0) : member s = false := by simp [member, h]

/-! The parts that change nothing where nothing is held or overtaken. -/

/-- No lane holds a record. -/
def NoRecords (s : State) : Prop := ∀ n, lane s n = laneZero

theorem flushLane_of_noRecords {s : State} (h : NoRecords s) (half : Bool) (c : BitVec 48) (n : Nat) :
    flushLane s half c n = setLane s n laneZero := by
  rw [flushLane, h n]
  rfl

theorem flushLanes_of_noRecords {s : State} (h : NoRecords s) (half : Bool) (c : BitVec 48) :
    flushLanes s half c = { s with smp := (flushLanes s half c).smp } := by
  suffices P : flushLanes s half c = { s with smp := (flushLanes s half c).smp } ∧ NoRecords (flushLanes s half c) from P.1
  refine forEach_induction (P := fun u : State => u = { s with smp := u.smp } ∧ NoRecords u) ⟨rfl, h⟩ fun u ⟨e, hu⟩ n => ?_
  split
  · rw [flushLane_of_noRecords hu]
    refine ⟨(congrArg (fun x : State => setLane x n laneZero) e).trans rfl, fun j => ?_⟩
    rw [lane_setLane]
    split
    · rfl
    · exact hu j
  · exact ⟨e, hu⟩

theorem flushIngesting_eq {s : State} (h : s.smp.lanes = []) : flushIngesting s = { s with smp := (flushIngesting s).smp } := by
  have none : NoRecords s := fun n => by rw [lane, h]; rfl
  unfold flushIngesting
  split
  · exact flushLanes_of_noRecords none _ _
  · rfl

theorem flushIngesting_undisturbed {s : State} (h : s.smp.lanes = []) : Undisturbed s (flushIngesting s) := by
  rw [flushIngesting_eq h]
  exact .of_regs ⟨rfl, rfl, rfl, rfl, rfl⟩ rfl

theorem flushIngesting_frm {s : State} (h : s.smp.lanes = []) : (flushIngesting s).frm = s.frm := by rw [flushIngesting_eq h]

theorem shedOvertaken_of_none {s : State} (h : ∀ g ∈ s.frm.frames, g.st = .ingesting ∨ g.st = .posting ∨ g.st = .drained) :
    shedOvertaken s = s := by
  have none : s.frm.frames.find? (fun f => f.st = .closed ∨ f.st = .computing) = none := by
    rw [List.find?_eq_none]
    intro g m
    rcases h g m with e | e | e <;> simp [e]
  rw [shedOvertaken, none]

theorem clockOff_st (s : State) : (clockOff s).ang.st = .off := rfl

theorem clockOff_frm (s : State) : (clockOff s).frm = s.frm := rfl

theorem clockOff_prt (s : State) : (clockOff s).prt = s.prt := rfl

theorem clockOff_grp (s : State) : (clockOff s).grp = s.grp := rfl

section
variable {s : State} (solo : member s = false) (opens : s.prt.opens = [])
include solo opens

omit solo opens in
/-- The overtaken frame is shed. -/
theorem shedOvertaken_eq {f : Frame} (idle : s.frm.comp = none)
    (found : s.frm.frames.find? (fun f => f.st = .closed ∨ f.st = .computing) = some f) : shedOvertaken s =
      postReady (toPosting (answerSlots s f.count (fun x => x.outcome.isNone) 0x20 1) f.count) 8 := by
  rw [shedOvertaken, found, idle]

theorem shedOvertaken_sheds {f : Frame} (idle : s.frm.comp = none)
    (found : s.frm.frames.find? (fun f => f.st = .closed ∨ f.st = .computing) = some f)
    (blank : ∀ g ∈ s.frm.frames, g.count = f.count → ∀ x ∈ g.slots, x.blank) :
    Undisturbed s (shedOvertaken s) ∧ OverWith f.count (0x20, 1) (shedOvertaken s) := by
  rw [shedOvertaken_eq idle found]
  have shed := (answerSlots_undisturbed s f.count (fun x => x.outcome.isNone) 0x20 1).trans (toPosting_undisturbed _ f.count)
  have posts := postReady_posts (shed.member_eq.trans solo) (shed.opens.trans opens) 8
  refine ⟨shed.trans posts.toUndisturbed, OverWith.carried ?_ posts.frames⟩
  exact overWith_toPosting_answerSlots fun g m e x n => ⟨blank g m e x n, by simp [(blank g m e x n).1]⟩

/-- With an enabled clock and nothing pending, what comes after the closing of a frame is the posting of replies. -/
theorem takeChanges_posts (closing : Option (BitVec 48)) (none : s.prt.changes = []) (en : angEn s = true) :
    Posts s (takeChanges s closing) := by
  have regs : (releaseRepaired s).regs = s.regs := by rw [releaseRepaired_eq]
  have frames : (releaseRepaired s).frm.frames = s.frm.frames := by rw [releaseRepaired_eq]
  have released := releaseRepaired_undisturbed s
  rw [takeChanges, applyChanges_of_none closing solo opens none, settleClock_of_same_regs regs, if_pos (.inl en)]
  exact Posts.trans ⟨released, frames ▸ .refl Posted.refl _⟩
    (postReady_posts (released.member_eq.trans solo) (released.opens.trans opens) 8)

/-- The same on a clock that is disabled, which stops. -/
theorem takeChanges_of_disabled (closing : Option (BitVec 48)) (none : s.prt.changes = []) (en : angEn s = false)
    (on : s.ang.st ≠ .off) :
    (takeChanges s closing).ang.st = .off ∧ (takeChanges s closing).grp = s.grp ∧
      Carried Posted s.frm.frames (takeChanges s closing).frm.frames := by
  have regs : (releaseRepaired s).regs = s.regs := by rw [releaseRepaired_eq]
  have frames : (clockOff (releaseRepaired s)).frm.frames = s.frm.frames := by rw [clockOff_frm, releaseRepaired_eq]
  have released := releaseRepaired_undisturbed s
  have runs : ¬(angEn s = true ∨ (releaseRepaired s).ang.st = .off) := by simp [en, released.ang, on]
  rw [takeChanges, applyChanges_of_none closing solo opens none, settleClock_of_same_regs regs, if_neg runs]
  have off : member (clockOff (releaseRepaired s)) = false := released.member_eq.trans solo
  have posts := postReady_posts off (by rw [clockOff_prt]; exact released.opens.trans opens) 8
  exact ⟨by rw [posts.ang, clockOff_st], by rw [posts.grp, clockOff_grp, released.grp], by
    rw [← frames]
    exact posts.frames⟩

end

theorem closeIngesting_of_none {s : State} (h : ingesting s = none) : closeIngesting s = s := by rw [closeIngesting, h]

theorem closeIngesting_of_frame {s : State} {f : Frame} (h : ingesting s = some f) :
    closeIngesting s = closeFrame (measureFrame s f) f := by
  rw [closeIngesting, h]

/-- A frame that closes leaves the measure of its period. -/
theorem closeFrame_measureFrame_undisturbed {s : State} (solo : member s = false) (f : Frame) :
    Undisturbed (noteTimes s) (closeFrame (measureFrame s f) f) := by
  have measured := measureFrame_undisturbed s f
  exact measured.trans (closeFrame_undisturbed (measured.member_eq.trans solo) f)

theorem closeIngesting_unmoved {s : State} (solo : member s = false) : Unmoved s (closeIngesting s) := by
  unfold closeIngesting
  split
  · exact (noteTimes_unmoved s).trans (closeFrame_measureFrame_undisturbed solo _).toUnmoved
  · exact (Undisturbed.refl s).toUnmoved

/-! What is over when the open frame has closed. -/

theorem closeIngesting_overWith {s : State} {c : BitVec 48} {o : Nat × Nat} (solo : member s = false) (h : OverWith c o s) :
    OverWith c o (closeIngesting s) := by
  unfold closeIngesting
  split
  · next f hf =>
    have ingests : f.st = .ingesting := by simpa using List.find?_some hf
    have other : c ≠ f.count := by
      intro e
      obtain ⟨st | st, -⟩ := h f (List.mem_of_find?_eq_some hf) e.symm <;> simp [ingests] at st
    have solo' : member (measureFrame s f) = false := (measureFrame_undisturbed s f).member_eq.trans solo
    exact closeFrame_overWith solo' (measureFrame_overWith h other) other
  · exact h

/-- It is so after the boundary, whether the clock runs and opens a frame or is disabled and stops. -/
theorem boundary_overWith {s : State} {c : BitVec 48} {o : Nat × Nat} (role : s.grp.role = 0) (run : s.pwr.st ≠ 2)
    (locked : s.ang.st = .locked) (changes : s.prt.changes = []) (opens : s.prt.opens = []) (new : c ≠ nextCount s)
    (shut : Unmoved (atBoundary s) (afterClosing s)) (h : OverWith c o (afterClosing s)) : OverWith c o (boundary s) := by
  have solo := shut.member_eq.trans (member_of_solo role)
  have opens' := shut.opens.trans opens
  have none := shut.changes.trans changes
  have st : (afterClosing s).ang.st = .locked := (congrArg Ang.st shut.ang).trans locked
  have role' : (afterClosing s).grp.role = 0 := (congrArg Grp.role shut.grp).trans role
  cases en : angEn (afterClosing s) with
  | true =>
    have posts : Posts (afterClosing s) (beforeOpening s) := takeChanges_posts solo opens' _ none en
    have opening := shut.trans posts.toUnmoved
    have pwr : (beforeOpening s).pwr = s.pwr := opening.pwr
    rw [boundary_of_locked (by rw [posts.ang, st]) (by rwa [pwr]) (by rw [posts.grp, role'])]
    exact openFrame_overWith _ (h.carried posts.frames) (by rwa [opening.nextCount_eq])
  | false =>
    obtain ⟨off, grp, carried⟩ := takeChanges_of_disabled solo opens' ((ingesting (atBoundary s)).map fun f => f.count) none en
      (by rw [st]; decide)
    rw [← beforeOpening] at off grp carried
    rw [boundary_of_off off (by rw [grp, role'])]
    exact (h.carried carried).of_frames (congrArg Frm.frames (boundaryHolds_marks _ false).frm)

/-! A quiet boundary. -/

section
variable {s : State} (q : quietBoundary s)
include q

theorem shedOvertaken_of_quiet : shedOvertaken (flushIngesting (atBoundary s)) = flushIngesting (atBoundary s) := by
  obtain ⟨-, -, -, -, -, -, -, lanes, frames⟩ := q
  refine shedOvertaken_of_none fun g m => frames g ?_
  rwa [flushIngesting_frm (s := atBoundary s) lanes] at m

/-- Without a frame nothing happens before the opening but the posting of replies. -/
theorem beforeOpening_of_no_frame (none : ingesting s = none) : Undisturbed (atBoundary s) (beforeOpening s) := by
  have same := shedOvertaken_of_quiet q
  obtain ⟨role, -, -, en, changes, opens, -, lanes, -⟩ := q
  have flush := flushIngesting_undisturbed (s := atBoundary s) lanes
  have still : ingesting (flushIngesting (atBoundary s)) = Option.none := by
    rw [ingesting, flushIngesting_frm (s := atBoundary s) lanes]
    exact none
  rw [beforeOpening, afterClosing, same, closeIngesting_of_none still]
  exact flush.trans (takeChanges_posts (flush.member_eq.trans (member_of_solo role)) (flush.opens.trans opens) _
    (flush.changes.trans changes) (flush.angEn_eq.trans en)).toUndisturbed

/-- The frame that ingests closes, and replies are posted. -/
theorem beforeOpening_of_frame {f : Frame} {rest : List Frame} (hf : s.frm.frames = f :: rest) (st : f.st = .ingesting)
    (blank : ∀ x ∈ f.slots, x.blank) : Undisturbed (noteTimes (atBoundary s)) (beforeOpening s) ∧
      ∃ h rest', (beforeOpening s).frm.frames = h :: rest' ∧ FrameCloses (closeOutcome s f) (tooShort s) f h := by
  have same := shedOvertaken_of_quiet q
  obtain ⟨role, -, -, en, changes, opens, -, lanes, -⟩ := q
  have flush := flushIngesting_eq (s := atBoundary s) lanes
  have head : (flushIngesting (atBoundary s)).frm.frames = f :: rest := by rw [flush]; exact hf
  have found : ingesting (flushIngesting (atBoundary s)) = some f := by simp [ingesting, head, st]
  rw [beforeOpening, afterClosing, same, closeIngesting_of_frame found]
  generalize flushIngesting (atBoundary s) = v at flush head
  have solo : member v = false := by rw [flush]; exact member_of_solo role
  have measured : Undisturbed (noteTimes (atBoundary s)) (measureFrame v f) := by
    refine .trans ?_ (measureFrame_undisturbed v f)
    rw [flush]
    exact .of_regs ⟨rfl, rfl, rfl, rfl, rfl⟩ rfl
  have solo' : member (measureFrame v f) = false := measured.member_eq.trans (member_of_solo role)
  have shuts := measured.trans (closeFrame_undisturbed solo' f)
  have outcome : closeOutcome (measureFrame v f) f = closeOutcome s f :=
    closeOutcome_eq ((measured.regs _ (by decide)).trans (rd_noteTimes_ne _ (by decide) (by decide))) measured.pwr
  have short : tooShort v = tooShort s := by rw [flush]; rfl
  obtain ⟨rest1, e1⟩ := measureFrame_head head
  rw [short] at e1
  obtain ⟨k, rest2, e2, closes⟩ := closeFrame_head solo' e1 blank
  rw [outcome] at closes
  have en' : angEn (noteTimes (atBoundary s)) = true := by
    rw [angEn, angCtrl, rd_noteTimes_ne _ (by decide) (by decide)]
    exact en
  have posts := takeChanges_posts (shuts.member_eq.trans (member_of_solo role)) (shuts.opens.trans opens)
    ((ingesting (atBoundary s)).map fun f => f.count) (shuts.changes.trans changes) (shuts.angEn_eq.trans en')
  have carried := posts.frames
  rw [e2] at carried
  obtain ⟨h, rest', e, p⟩ := carried.head
  exact ⟨shuts.trans posts.toUndisturbed, h, rest', e, closes.posted p⟩

/-- A quiet boundary of a locked clock opens a frame. -/
theorem boundary_of_quiet (locked : s.ang.st = .locked) (u : Unmoved (atBoundary s) (beforeOpening s)) :
    boundary s = openFrame (beforeOpening s) (ingesting s).isSome := by
  obtain ⟨role, -, run, -⟩ := q
  have st : (beforeOpening s).ang.st = .locked := (congrArg Ang.st u.ang).trans locked
  have pwr : (beforeOpening s).pwr = s.pwr := u.pwr
  exact boundary_of_locked st (by rw [pwr]; omega) ((congrArg Grp.role u.grp).trans role)

end

/-- What opens a frame in the device before the opening opens it in the device at the boundary. -/
theorem FrameOpens.ofUnmoved {s u t : State} {g : Frame} (h : FrameOpens u t g) (m : Unmoved (atBoundary s) u) :
    FrameOpens s t g where
  count := h.count.trans m.nextCount_eq
  phase := h.phase
  frameOpen := h.frameOpen
  st := h.st
  openAt := h.openAt.trans m.now
  own := h.own.trans m.nextCount_eq
  ingests := h.ingests
  half := h.half.trans (congrArg (fun c : BitVec 48 => c.getLsbD 0) m.nextCount_eq)
  slots k := by rw [h.slots, m.prog_eq]; rfl
  order := h.order
  blank x n := by
    have e : prog s x.fp = prog u x.fp := (m.prog_eq x.fp).symm
    rw [e]
    exact h.blank x n
  interrupt := h.interrupt

/-- A locked clock opens its next frame. -/
theorem openFrame_opens_of_unmoved {s u : State} (q : quietBoundary s) (locked : s.ang.st = .locked) (m : Unmoved (atBoundary s) u)
    (b : Bool) {g : Frame} (hg : Settled (frameOf (boundaryHolds u true) (newSlots u)) g) : FrameOpens s (openFrame u b) g := by
  obtain ⟨role, here, -⟩ := q
  have told : (atBoundary s).cnd.ipend.getLsbD 1 = true := by simp [atBoundary]
  exact (openFrame_opens (m.member_eq.trans (member_of_solo role)) ((congrArg Grp.retired m.grp).trans here)
    ((congrArg Ang.st m.ang).trans locked) (m.ipend ▸ told) b hg).ofUnmoved m

end Sys2Proof.Machine
end

section
/-! SUPPORT. A loss of the source that abandons the open frame (R64, R85), and an idle boundary that starts the clock (R40,
R407). -/

namespace Sys2Proof.Machine
open Sys2Proof

/-- Beside the frames and the trace, `t` is `s`. -/
def OnlyFrames (s t : State) : Prop := { t with frm := s.frm, trc := s.trc } = s

theorem markOutcome_lost (s : State) (n : Nat) : markOutcome s 0x23 n = s := by simp [markOutcome]

/-- ANGLE_LOST counts as no shed and sets no flag. -/
theorem answerSlots_lost_only (s : State) (c : BitVec 48) (p : Slot → Bool) (d : Nat) :
    OnlyFrames s (answerSlots s c p 0x23 d) := by
  unfold answerSlots
  split
  · rfl
  · rw [markOutcome_lost]
    rfl

theorem abandonFrame_of_frame {s : State} {f : Frame} (h : ingesting s = some f) (a b : Nat) :
    OnlyTrace (toPosting (answerSlots s f.count (fun _ => true) a b) f.count) (abandonFrame s a b) := by
  rw [abandonFrame, h]
  exact traceFrame_only _ _ _ _ _

theorem abandonFrame_lost_only (s : State) (d : Nat) : OnlyFrames s (abandonFrame s 0x23 d) := by
  cases h : ingesting s with
  | none => rw [abandonFrame, h]; rfl
  | some f =>
    have traced := abandonFrame_of_frame h 0x23 d
    have answered := answerSlots_lost_only s f.count (fun _ => true) d
    exact (congrArg (fun y : State => { y with frm := s.frm, trc := s.trc }) traced :).trans answered

/-- The clock lost its source: the frame that ingests is over with ANGLE_LOST, and the clock acquires. -/
theorem enterLost_lostSource {u : State} (d : Nat) (w : twf 0 u.regs = true) (blank : ingestBlank u) :
    LostSource u (enterLost u d) d := by
  unfold enterLost
  extract_lets v
  have only : OnlyFrames u v := by
    unfold v
    split
    · exact abandonFrame_lost_only u d
    · rfl
  have ang : v.ang = u.ang := (congrArg State.ang only :)
  have regs : v.regs = u.regs := (congrArg State.regs only :)
  exact {
    st := rfl
    frameOpen := rfl
    count := by
      show v.ang.count48 = u.ang.count48
      rw [ang]
    pos := by
      show v.ang.pos = u.ang.pos
      rw [ang]
    flags := by
      show rd (setFlag v 0x0208 1) 0x0208 = _
      rw [rd_setFlag_self 1 (regs ▸ w), rd, rd, regs]
      rfl
    slots := fun isOpen f hf => by
      have abandoned : v = abandonFrame u 0x23 d := if_pos isOpen
      have ends : OverWith f.count (0x23, d) (toPosting (answerSlots u f.count (fun _ => true) 0x23 d) f.count) :=
        overWith_toPosting_answerSlots fun g m e x n => ⟨blank f hf g m e x n, rfl⟩
      rw [OverWith, ← (abandonFrame_of_frame hf 0x23 d).frm, ← abandoned] at ends
      exact ends
    regs := fun r n => by
      show rd (setFlag v 0x0208 1) r = rd u r
      rw [rd_setFlag_ne v 1 n.symm, rd, rd, regs]
    others := (congrArg (fun y : State => { y with ang := u.ang, regs := u.regs }) only :) }

/-! The idle boundary. -/

/-- A source configuration is valid by its registers. -/
theorem sourceValid_congr {s t : State} (h : t.regs = s.regs) : sourceValid t = sourceValid s := by
  unfold sourceValid evtA evtB angSrc angCtrl rd
  rw [h]

/-- A valid value of ANG_CTRL is taken. -/
theorem applyAngle_control {s : State} {v : Word} (h : sourceValid (wr s 0x0200 v) = true) :
    applyAngle s [(0x0200, v)] false = (wr s 0x0200 v, .ok) := by
  have all : wrAll s [(0x0200, v)] = wr s 0x0200 v := rfl
  have fmin : rd (wr s 0x0200 v) 0x0248 = rd s 0x0248 := rd_wr_ne s v (by decide)
  simp [applyAngle, all, h, fmin]

/-- The device with nothing pending, its repaired units released and this value in ANG_CTRL. -/
def controlTaken (s : State) (v : Word) : State := wr (releaseRepaired { s with prt := { s.prt with changes := [] } }) 0x0200 v

theorem controlTaken_parts (s : State) (v : Word) : (controlTaken s v).regs = tset 0 s.regs 0x0200 v ∧
    (controlTaken s v).ang = s.ang ∧ (controlTaken s v).frm = s.frm ∧ (controlTaken s v).grp = s.grp ∧
    (controlTaken s v).now = s.now ∧ (controlTaken s v).prt = { s.prt with changes := [] } := by
  rw [controlTaken, releaseRepaired_eq]
  exact ⟨rfl, rfl, rfl, rfl, rfl, rfl⟩

theorem settleClock_of_enabled {s t : State} (off : angEn s = false) (en : angEn t = true) :
    settleClock s t = acquire { t with ang := { t.ang with frameOpen := false } } := by simp [settleClock, off, en]

/-- The pending write of a value to ANG_CTRL. -/
def controlWrite (mbx : Bool) (stamp : Nat) (v : Word) : Change :=
  { unit := .angle, mbx := mbx, stamp := stamp, kind := .writes [(0x0200, v)], ord := none }

theorem applyChange_controlWrite {s : State} (mbx : Bool) (stamp : Nat) {v : Word} (h : sourceValid (wr s 0x0200 v) = true) :
    applyChange none s (controlWrite mbx stamp v) = wr s 0x0200 v := by
  have e : applyWrites s .angle [(0x0200, v)] false = (wr s 0x0200 v, .ok) := applyAngle_control h
  have c : applyChange none s (controlWrite mbx stamp v) = finishVerdict (applyWrites s .angle [(0x0200, v)] false).1 none
      (applyWrites s .angle [(0x0200, v)] false).2 := rfl
  rw [c, e]
  rfl

theorem applyChanges_of_one {s : State} {c : Change} (h : s.prt.changes = [c]) : applyChanges s none =
    settleClock s (abortDone (takeCopy (applyChange none (releaseRepaired { s with prt := { s.prt with changes := [] } }) c))) := by
  rw [applyChanges, h]
  rfl

/-- A pending write that enables a clock that is OFF starts its acquisition. -/
theorem applyChanges_enables {s : State} {mbx : Bool} {stamp : Nat} {v : Word} (w : twf 0 s.regs = true) (solo : member s = false)
    (off : angEn s = false) (en : bit v 3 = true) (opens : s.prt.opens = []) (valid : sourceValid (wr s 0x0200 v) = true)
    (pending : s.prt.changes = [controlWrite mbx stamp v]) :
    applyChanges s none = acquire { controlTaken s v with ang := { (controlTaken s v).ang with frameOpen := false } } := by
  obtain ⟨regs, ang, -, grp, -, prt⟩ := controlTaken_parts s v
  have solo' : member (controlTaken s v) = false := by rw [member, grp]; exact solo
  have opens' : (controlTaken s v).prt.opens = [] := by rw [prt]; exact opens
  have en' : angEn (controlTaken s v) = true := by rw [angEn, angCtrl, rd, regs, tget_tset_self 0 v w, en]
  have valid' : sourceValid (controlTaken s v) = true := (sourceValid_congr regs).trans valid
  rw [applyChanges_of_one pending, applyChange_controlWrite mbx stamp valid', ← controlTaken, takeCopy_of_not_member solo',
    abortDone_of_no_opens opens', settleClock_of_enabled off en']

end Sys2Proof.Machine
end

section
/-! SUPPORT. The first frame after lock (R24, R48, R52, R66): each source opens it with the edge, the pulse or the cycle that finds
the clock locked and no frame open. -/

namespace Sys2Proof.Machine
open Sys2Proof

/-- An edge of the source was taken: the clock's estimate and counts moved, and not the numbering of its frames. -/
structure TakesEdge (s t : State) : Prop where
  others : { t with ang := s.ang } = s
  count : t.ang.count48 = s.ang.count48
  anyOpened : t.ang.anyOpened = s.ang.anyOpened

theorem TakesEdge.trans {s t u : State} (h : TakesEdge s t) (g : TakesEdge t u) : TakesEdge s u where
  others := (congrArg (fun y : State => { y with ang := s.ang }) g.others :).trans h.others
  count := g.count.trans h.count
  anyOpened := g.anyOpened.trans h.anyOpened

theorem acceptEdge_takesEdge (s : State) : TakesEdge s (acceptEdge s) ∧ (acceptEdge s).ang.st = s.ang.st := by
  unfold acceptEdge
  cases sinceEdge s with
  | none => exact ⟨⟨rfl, rfl, rfl⟩, rfl⟩
  | some iv => exact ⟨⟨rfl, rfl, rfl⟩, rfl⟩

theorem qeiRun_takesEdge (s : State) (fwd : Bool) : TakesEdge s (qeiRun s fwd) ∧ (qeiRun s fwd).ang.st = s.ang.st := by
  unfold qeiRun
  extract_lets same _ s1
  have taken : TakesEdge s s1 ∧ s1.ang.st = s.ang.st := by
    unfold s1
    split
    · exact acceptEdge_takesEdge s
    · exact ⟨⟨rfl, rfl, rfl⟩, rfl⟩
  exact ⟨taken.1.trans ⟨rfl, rfl, rfl⟩, taken.2⟩

theorem TakesEdge.quiet {s t : State} (h : TakesEdge s t) (q : quietBoundary s) : quietBoundary t := by
  rw [← h.others] at q
  exact q

theorem TakesEdge.ingesting {s t : State} (h : TakesEdge s t) : ingesting t = ingesting s :=
  (congrArg (fun y : State => Machine.ingesting y) h.others :)

theorem TakesEdge.opens {s t u : State} {g : Frame} (h : TakesEdge s t) (o : FrameOpens t u g) : FrameOpens s u g := by
  have next : nextCount t = nextCount s := by rw [nextCount, nextCount, h.count, h.anyOpened]
  have prog (k : Nat) : prog t k = prog s k := (congrArg (fun y : State => Machine.prog y k) h.others :)
  exact {
    count := o.count.trans next
    phase := o.phase
    frameOpen := o.frameOpen
    st := o.st
    openAt := o.openAt.trans (congrArg State.now h.others :)
    own := o.own.trans next
    ingests := o.ingests
    half := o.half.trans (by rw [next])
    slots := fun k => by rw [o.slots, prog]
    order := o.order
    blank := fun x m => by
      rw [← prog]
      exact o.blank x m
    interrupt := o.interrupt }

/-- A frame opened in `t` at the boundary taken in `s`, as the newest. -/
def Opens (s t : State) : Prop := ∃ g tail, t.frm.frames = g :: tail ∧ FrameOpens s t g

theorem boundary_opens {s : State} (q : quietBoundary s) (none : ingesting s = none) (locked : s.ang.st = .locked) :
    Opens s (boundary s) := by
  have unmoved := (beforeOpening_of_no_frame q none).toUnmoved
  rw [boundary_of_quiet q locked unmoved]
  obtain ⟨g, tail, e, hg, -⟩ := openFrame_frames (beforeOpening s) (ingesting s).isSome
  exact ⟨g, tail, e, openFrame_opens_of_unmoved q locked unmoved _ hg⟩

/-- The first frame opens with an edge that finds, or leaves, the clock locked. -/
theorem firstFrame_opens {s t : State} (q : quietBoundary s) (none : ingesting s = none) (h : TakesEdge s t)
    (locked : t.ang.st = .locked) : Opens s (firstFrame t) := by
  unfold firstFrame
  extract_lets _ u
  have edge : TakesEdge s u := h.trans ⟨rfl, rfl, rfl⟩
  obtain ⟨g, tail, e, o⟩ := boundary_opens (edge.quiet q) (edge.ingesting.trans none) locked
  exact ⟨g, tail, e, edge.opens o⟩

/-! The edges themselves. -/

/-- TIMER locks, at its rate. -/
def timerStart (s : State) : State :=
  setAng (lock s) { (lock s).ang with rateN := closeAngle, rateD := max 1 (4 * (rd s 0x0234).toNat) }

/-- ANG_POS counts one up. -/
def countedUp (s : State) : State := setAng s { s.ang with pos := s.ang.pos + 1 }

theorem qeiEdge_first {s : State} (st : s.ang.st = .locked) (idle : s.ang.frameOpen = false) (z : zAlign s = false) :
    qeiEdge s true = firstFrame (qeiRun s true) := by simp [qeiEdge, st, idle, z]

theorem lineEdge_first {s : State} (st : s.ang.st = .locked) (idle : s.ang.frameOpen = false) :
    lineEdge s true = firstFrame (acceptEdge s) := by simp [lineEdge, st, idle]

/-- The time of the last edge, moved. -/
def shiftEdge (s : State) (f : Nat → Nat) : State := setAng s { s.ang with lastEdge := s.ang.lastEdge.map f }

theorem shiftEdge_zero (s : State) : shiftEdge s (fun x => x + 0) = s := by
  have e : s.ang.lastEdge.map (fun x => x + 0) = s.ang.lastEdge := Option.map_id'
  rw [shiftEdge, e]
  rfl

/-- The period that a crossing ends is in range. -/
def crossingOk (s : State) : Bool :=
  match sinceEdge s with
  | some iv => periodOk s iv
  | none => false

theorem crossingOk_of_edge {s : State} {t0 : Nat} (h : s.ang.lastEdge = some t0) : crossingOk s = periodOk s (s.now - t0) := by
  rw [crossingOk, sinceEdge, h]
  rfl

theorem execLineCrossing_eq (s : State) : execLineCrossing 0 s = .next (
    if s.ang.st = .off ∨ s.pwr.st = 2 then s
    else if angSrc s = 2 then
      shiftEdge (lineEdge (shiftEdge s fun x => x + 0) (crossingOk (shiftEdge s fun x => x + 0))) fun x => x - 0
    else if shadows s 2 then
      shiftEdge (shadowEdge (shiftEdge s fun x => x + 0) (crossingOk (shiftEdge s fun x => x + 0)) 16) fun x => x - 0
    else s) := rfl

theorem FrameOpens.shiftEdge {s t : State} {g : Frame} (o : FrameOpens s t g) (f : Nat → Nat) :
    FrameOpens s (shiftEdge t f) g :=
  ⟨o.count, o.phase, o.frameOpen, o.st, o.openAt, o.own, o.ingests, o.half, o.slots, o.order, o.blank, o.interrupt⟩

theorem Opens.shiftEdge {s t : State} (o : Opens s t) (f : Nat → Nat) : Opens s (shiftEdge t f) := by
  obtain ⟨g, tail, e, o⟩ := o
  exact ⟨g, tail, e, o.shiftEdge f⟩

section
variable {s : State} (q : quietBoundary s) (none : ingesting s = none)
include q none

omit none in
theorem running_of_quiet : s.pwr.st ≠ 2 := by
  obtain ⟨-, -, run, -⟩ := q
  omega

theorem timerLock_opens (src : angSrc s = 3) (st : s.ang.st = .acquiring) (due : 4 ≤ s.now - s.ang.lockAt) :
    ∃ t, exec .timerLock s = .next t ∧ Opens s t := by
  have first : execTimerLock s = .next (firstFrame (timerStart s)) :=
    congrArg Host.Outcome.next (if_pos ⟨src, st, due, running_of_quiet q⟩)
  exact ⟨_, first, firstFrame_opens q none ⟨rfl, rfl, rfl⟩ rfl⟩

variable (st : s.ang.st = .locked) (idle : s.ang.frameOpen = false)
include st idle

theorem zPulse_opens (z : zAlign s = true) : ∃ t, exec .zPulse s = .next t ∧ Opens s t := by
  have first : execZPulse s = .next (firstFrame s) := by simp [execZPulse, z, locked, st, running_of_quiet q, idle]
  exact ⟨_, first, firstFrame_opens q none ⟨rfl, rfl, rfl⟩ st⟩

theorem qeiCount_opens (z : zAlign s = false) (src : angSrc s = 0) :
    ∃ t, exec (.qeiCount .forward) s = .next t ∧ Opens s t := by
  have first : execQeiCount .forward s = .next (qeiEdge (countedUp s) true) := by
    simp [execQeiCount, countedUp, st, src, running_of_quiet q]
  rw [qeiEdge_first (s := countedUp s) st idle z] at first
  obtain ⟨edge, same⟩ := qeiRun_takesEdge (countedUp s) true
  have up : TakesEdge s (countedUp s) := ⟨rfl, rfl, rfl⟩
  exact ⟨_, first, firstFrame_opens q none (up.trans edge) (same.trans st)⟩

theorem lineCrossing_opens {t0 : Nat} (src : angSrc s = 2) (edge : s.ang.lastEdge = some t0)
    (low : 9 * 2000000000 ≤ (s.now - t0) * fld (rd s 0x0230) 0 16)
    (high : (s.now - t0) * fld (rd s 0x0230) 0 16 ≤ 11 * 2000000000) :
    ∃ t, exec (.lineCrossing 0) s = .next t ∧ Opens s t := by
  have ok : periodOk s (s.now - t0) = true := by simp [periodOk, low, high]
  have first : execLineCrossing 0 s = .next (shiftEdge (lineEdge s true) fun x => x - 0) := by
    rw [execLineCrossing_eq, shiftEdge_zero, if_neg (by simp [st, running_of_quiet q]), if_pos src, crossingOk_of_edge edge, ok]
  rw [lineEdge_first st idle] at first
  obtain ⟨accepted, same⟩ := acceptEdge_takesEdge s
  exact ⟨_, first, (firstFrame_opens q none accepted (same.trans st)).shiftEdge _⟩

end

end Sys2Proof.Machine
end

section
/-! SUPPORT. FRAME_BOUNDARY and IDLE_BOUNDARY, case by case (R56, R65, R71, R106, R407). -/

namespace Sys2Proof.Machine
open Sys2Proof

theorem execFrameBoundary_of_due {s : State} (due : boundaryDue s = true) (solo : member s = false) (slow : overrate s = false) :
    exec .frameBoundary s = .next (boundary s) := by
  have e : execFrameBoundary s = .next (boundary s) := by simp [execFrameBoundary, due, solo, slow]
  exact e

theorem execFrameBoundary_of_overrate {s : State} (due : boundaryDue s = true) (solo : member s = false)
    (fast : overrate s = true) :
    exec .frameBoundary s = .next (enterLost (setFlag s 0x0208 7) 3) := by
  have e : execFrameBoundary s = .next (enterLost (setFlag s 0x0208 7) 3) := by simp [execFrameBoundary, due, solo, fast]
  exact e

theorem execFrameBoundary_of_not_due {s : State} (due : boundaryDue s = false) : exec .frameBoundary s = .next s := by
  have e : execFrameBoundary s = .next s := by simp [execFrameBoundary, due]
  exact e

theorem overrate_eq_false {s : State} (h : 3 ≤ angSrc s ∨ 100000 ≤ s.now - s.ang.openAt) : overrate s = false := by
  rcases h with h | h
  · simp [overrate, show ¬angSrc s ≤ 2 by omega]
  · simp [overrate, minFrame, show ¬s.now - s.ang.openAt < 100000 by omega]

theorem overrate_eq_true {s : State} (h : angSrc s ≤ 2) (g : s.now - s.ang.openAt < 100000) : overrate s = true := by
  simp [overrate, minFrame, h, g]

/-- The registers that a boundary writes. -/
def boundaryRegs : List Nat := [0x0208, 0x024C, 0x0250, 0x0308, 0x0314, 0x0904, 0x0A04]

theorem boundaryRegs_spec {r : Nat} (h : r ∉ boundaryRegs) : r ∉ boundaryFlags ∧ r ≠ 0x024C ∧ r ≠ 0x0250 := by
  simp only [boundaryRegs, boundaryFlags, List.mem_cons, List.not_mem_nil, or_false, not_or] at *
  obtain ⟨h0, h1, h2, h3, h4, h5, h6⟩ := h
  exact ⟨⟨h0, h3, h4, h5, h6⟩, h1, h2⟩

/-- A quiet boundary at which the open frame `f` closes and the next opens. -/
structure Turns (f : Frame) (s t : State) : Prop where
  frames : ∃ g h tail, t.frm.frames = g :: h :: tail ∧ FrameOpens s t g ∧ FrameCloses (closeOutcome s f) (tooShort s) f h
  meas : t.ang.meas = s.ang.meas - 1048576
  expect : t.ang.expect = s.ang.expect - 1048576
  pos : t.ang.pos = s.ang.pos
  period : rd t 0x024C = BitVec.ofNat 32 (min (2 ^ 30 - 1) ((s.now - s.ang.openAt) / 4))
  qerr : rd t 0x0250 = BitVec.ofNat 32 (min 0xFFFF s.ang.qerr)
  regs r : r ∉ boundaryRegs → rd t r = rd s r

theorem boundary_turns {s : State} {f : Frame} {rest : List Frame} (w : twf 0 s.regs = true) (q : quietBoundary s)
    (locked : s.ang.st = .locked) (hf : s.frm.frames = f :: rest) (st : f.st = .ingesting) (blank : ∀ x ∈ f.slots, x.blank) :
    Turns f s (boundary s) := by
  obtain ⟨quiet, h0, rest', e0, closes⟩ := beforeOpening_of_frame q hf st blank
  have unmoved : Unmoved (atBoundary s) (beforeOpening s) := (noteTimes_unmoved _).trans quiet.toUnmoved
  have found : (ingesting s).isSome = true := by simp [ingesting, hf, st]
  rw [boundary_of_quiet q locked unmoved, found]
  generalize beforeOpening s = u at quiet e0 unmoved
  have ang : (openFrame u true).ang = openedAng (boundaryHolds u true) true := openFrame_ang u true
  have before : (boundaryHolds u true).ang = s.ang := by
    rw [(boundaryHolds_marks u true).ang, unmoved.ang]
    rfl
  have reg {r : Nat} (h : r ∉ boundaryFlags) : rd (openFrame u true) r = rd (noteTimes (atBoundary s)) r :=
    (openFrame_regs u true h).trans (quiet.regs r h)
  obtain ⟨g, tail, e, hg, older⟩ := openFrame_frames u true
  obtain ⟨h, tail', rfl, hh⟩ := older h0 rest' e0
  exact {
    frames := ⟨g, h, tail', e, openFrame_opens_of_unmoved q locked unmoved true hg, closes.posted hh.posted⟩
    meas := by rw [ang, openedAng, before]; rfl
    expect := by rw [ang, openedAng, before]; rfl
    pos := by rw [ang, openedAng, before]
    period := (reg (by decide)).trans (rd_noteTimes_period w)
    qerr := (reg (by decide)).trans (rd_noteTimes_qerr w)
    regs := fun r n => by
      obtain ⟨nf, np, nq⟩ := boundaryRegs_spec n
      exact (reg nf).trans (rd_noteTimes_ne _ np nq) }

/-- A frame that closed before and is still not computed is shed at the next boundary, whether or not a frame opens there (R106). -/
theorem boundary_sheds {s : State} {f f1 : Frame} (locked : s.ang.st = .locked) (role : s.grp.role = 0) (run : s.pwr.st = 0)
    (changes : s.prt.changes = []) (opens : s.prt.opens = []) (idle : s.frm.comp = none) (lanes : s.smp.lanes = [])
    (hf : s.frm.frames = [f, f1]) (st : f.st = .ingesting) (st1 : f1.st = .closed) (ne : f.count ≠ f1.count)
    (new : f1.count ≠ nextCount s) (blank : ∀ x ∈ f1.slots, x.blank) : OverWith f1.count (0x20, 1) (boundary s) := by
  have flush := flushIngesting_undisturbed (s := atBoundary s) lanes
  have frm := flushIngesting_frm (s := atBoundary s) lanes
  have frames : (flushIngesting (atBoundary s)).frm.frames = [f, f1] := by rw [frm]; exact hf
  have overtaken : (flushIngesting (atBoundary s)).frm.frames.find? (fun f => f.st = .closed ∨ f.st = .computing) = some f1 := by
    simp [frames, st, st1]
  have blank1 : ∀ g ∈ (flushIngesting (atBoundary s)).frm.frames, g.count = f1.count → ∀ x ∈ g.slots, x.blank := by
    intro g m e
    rw [frames, List.mem_pair] at m
    rcases m with rfl | rfl
    · exact absurd e ne
    · exact blank
  obtain ⟨shed, ends⟩ := shedOvertaken_sheds (flush.member_eq.trans (member_of_solo role)) (flush.opens.trans opens)
    (by rw [frm]; exact idle) overtaken blank1
  have start : Unmoved (atBoundary s) (shedOvertaken (flushIngesting (atBoundary s))) := flush.toUnmoved.trans shed.toUnmoved
  have solo := start.member_eq.trans (member_of_solo role)
  exact boundary_overWith role (by omega) locked changes opens new (start.trans (closeIngesting_unmoved solo))
    (closeIngesting_overWith solo ends)

/-! The idle boundary. -/

theorem execIdleBoundary_of_none {s : State} (h : s.prt.changes = []) : exec .idleBoundary s = .next s := by
  have e : execIdleBoundary s = .next s := by simp [execIdleBoundary, h]
  exact e

/-- The clock is OFF and every frame is over: pending changes take effect. -/
theorem execIdleBoundary_of_off {s : State} (off : s.ang.st = .off) (run : s.pwr.st ≠ 2) (pending : s.prt.changes ≠ [])
    (frames : ∀ g ∈ s.frm.frames, g.st = .posting ∨ g.st = .drained) :
    exec .idleBoundary s = .next (groupCheckpoint (boundaryHolds (applyChanges s none) false)) := by
  have quiet : s.frm.frames.any (fun f => f.st = .closed ∨ f.st = .computing ∨ f.st = .ingesting) = false := by
    rw [List.any_eq_false]
    intro g m
    rcases frames g m with e | e <;> simp [e]
  have e : execIdleBoundary s = .next (groupCheckpoint (boundaryHolds (applyChanges s none) false)) := by
    rw [execIdleBoundary, quiet]
    simp [off, pending, run]
  exact e

/-- What an idle boundary does that takes the value `v` of ANG_CTRL, which enables the clock. -/
structure StartsClock (v : Word) (s t : State) : Prop where
  control : rd t 0x0200 = v
  st : t.ang.st = .acquiring
  lockAt : t.ang.lockAt = s.now
  frameOpen : t.ang.frameOpen = false
  pos : t.ang.pos = s.ang.pos
  count : t.ang.count48 = s.ang.count48
  changes : t.prt.changes = []
  frames : t.frm.frames = s.frm.frames
  regs r : r ≠ 0x0200 → rd t r = rd s r

/-- The device that takes that value and acquires. -/
def clockStarted (s : State) (v : Word) : State :=
  acquire { controlTaken s v with ang := { (controlTaken s v).ang with frameOpen := false } }

theorem clockStarted_startsClock {s : State} (w : twf 0 s.regs = true) (v : Word) : StartsClock v s (clockStarted s v) := by
  obtain ⟨regs, ang, frm, -, now, prt⟩ := controlTaken_parts s v
  have regs' : (clockStarted s v).regs = tset 0 s.regs 0x0200 v := regs
  exact {
    control := rd_wr_self_of w regs'
    st := rfl
    lockAt := now
    frameOpen := rfl
    pos := (congrArg Ang.pos ang :)
    count := (congrArg Ang.count48 ang :)
    changes := congrArg Prt.changes prt
    frames := congrArg Frm.frames frm
    regs := fun r n => rd_wr_ne_of regs' n }

theorem StartsClock.held {v : Word} {s t : State} (h : StartsClock v s t) : StartsClock v s (boundaryHolds t false) := by
  have marks := boundaryHolds_marks t false
  have reg (r : Nat) : rd (boundaryHolds t false) r = rd t r := by rw [rd, rd, boundaryHolds_regs]
  exact {
    control := (reg _).trans h.control
    st := by rw [marks.ang, h.st]
    lockAt := by rw [marks.ang, h.lockAt]
    frameOpen := by rw [marks.ang, h.frameOpen]
    pos := by rw [marks.ang, h.pos]
    count := by rw [marks.ang, h.count]
    changes := marks.changes.trans h.changes
    frames := by rw [marks.frm, h.frames]
    regs := fun r n => (reg r).trans (h.regs r n) }

theorem idleBoundary_startsClock {s : State} {mbx : Bool} {stamp : Nat} {v : Word} (w : twf 0 s.regs = true) (off : s.ang.st = .off)
    (run : s.pwr.st ≠ 2) (role : s.grp.role = 0) (dis : angEn s = false) (en : bit v 3 = true) (opens : s.prt.opens = [])
    (frames : ∀ g ∈ s.frm.frames, g.st = .posting ∨ g.st = .drained) (valid : sourceValid (wr s 0x0200 v) = true)
    (pending : s.prt.changes = [controlWrite mbx stamp v]) :
    ∃ t, exec .idleBoundary s = .next t ∧ StartsClock v s t := by
  have take : applyChanges s none = clockStarted s v :=
    applyChanges_enables w (member_of_solo role) dis en opens valid pending
  have grp : (boundaryHolds (clockStarted s v) false).grp = s.grp := by
    obtain ⟨-, -, -, grp, -⟩ := controlTaken_parts s v
    exact (boundaryHolds_marks _ false).grp.trans grp
  refine ⟨_, execIdleBoundary_of_off off run (by simp [pending]) frames, ?_⟩
  rw [take, groupCheckpoint_of_solo (by rw [grp, role])]
  exact (clockStarted_startsClock w v).held

end Sys2Proof.Machine
end

section
open Sys2Proof Sys2Proof.Machine

/-- Settles O26: a due boundary closes and opens a frame, sheds the frame that it overtakes, or abandons one that is too short; each
source opens its first frame; an idle boundary starts the clock. -/
theorem frameAndIdleBoundaries : Obligations.FrameAndIdleBoundaries := by
  unfold Obligations.FrameAndIdleBoundaries
  refine ⟨fun s w => ⟨?turns, ?sheds, ?abandons, execFrameBoundary_of_not_due, ?opens, ?waits⟩, fun s mbx stamp v w =>
    ⟨?starts, execIdleBoundary_of_none⟩⟩
  case turns =>
    intro f rest due slow locked q _ hf st _ _ blank o period
    have solo : member s = false := member_of_solo q.1
    obtain ⟨⟨g, h, tail, frames, opens, closes⟩, meas, expect, pos, per, qerr, regs⟩ := boundary_turns w q locked hf st blank
    have short : h.overspeed = true ↔ f.overspeed = true ∨ period < 200 * fld (rd s 0x0248) 0 25 := by
      rw [closes.overspeed, Bool.or_eq_true, tooShort, decide_eq_true_eq]
      rfl
    exact ⟨_, g, h, tail, execFrameBoundary_of_due due solo (overrate_eq_false slow), frames, opens, meas, expect, pos,
      closes.count, closes.outcome, closes.fps, closes.waits, closes.past, short, per, qerr, regs⟩
  case sheds =>
    intro f f1 due slow locked role _ run changes opens idle lanes hf st st1 ne new blank
    refine ⟨_, execFrameBoundary_of_due due (member_of_solo role) (overrate_eq_false slow), fun h m e => ?_⟩
    exact (boundary_sheds locked role run changes opens idle lanes hf st st1 ne new blank h m e).2
  case abandons =>
    intro due src fast role blank
    have solo : member s = false := by simpa [member] using role
    exact ⟨_, execFrameBoundary_of_overrate due solo (overrate_eq_true src fast),
      enterLost_lostSource 3 (wr_regs_wf _ _ w) blank⟩
  case opens =>
    intro q none
    have opens {i : Instr} (h : ∃ t, exec i s = .next t ∧ Opens s t) :
        ∃ t g tail, exec i s = .next t ∧ t.frm.frames = g :: tail ∧ FrameOpens s t g := by
      obtain ⟨t, e, g, tail, frames, o⟩ := h
      exact ⟨t, g, tail, e, frames, o⟩
    refine ⟨fun src st due => opens (timerLock_opens q none src st due), fun st idle => ⟨?_, ?_, ?_⟩⟩
    · exact fun z => opens (zPulse_opens q none st idle z)
    · exact fun z src => opens (qeiCount_opens q none st idle z src)
    · exact fun t0 src edge ⟨low, high⟩ => opens (lineCrossing_opens q none st idle src edge low high)
  case waits =>
    intro h
    have e : execTimerLock s = .next s := congrArg Host.Outcome.next (if_neg (by omega))
    exact e
  case starts =>
    intro off run role dis en opens _ frames valid pending
    obtain ⟨t, e, h⟩ := idleBoundary_startsClock w off run role dis en opens frames valid pending
    exact ⟨t, e, h.control, h.st, h.lockAt, h.frameOpen, h.pos, h.count, h.changes, h.frames, h.regs⟩

end

section
/-! SUPPORT. An edge of the source as the estimate takes it, and what the flags of the clock leave alone (R49, R53, R54). -/

namespace Sys2Proof.Machine
open Sys2Proof

/-- The clock with another estimate of the rate, its last edge now: the intervals `l`, the rate `n / d`, the fractions `w` and `m`. -/
def estimated (s : State) (l : List Nat) (n d w m : Nat) : State :=
  setAng s { s.ang with lastEdge := some s.now, ivals := l, rateN := n, rateD := d, wfrac := w, mfrac := m }

theorem acceptEdge_of_edge {s : State} {t0 : Nat} (h : s.ang.lastEdge = some t0) :
    acceptEdge s = setAng (pushIval s (s.now - t0)) { (pushIval s (s.now - t0)).ang with lastEdge := some s.now } := by
  rw [acceptEdge, sinceEdge, h]
  rfl

/-- An accepted edge changes the estimate alone. -/
theorem acceptEdge_estimated (s : State) : ∃ l n d w m, acceptEdge s = estimated s l n d w m := by
  unfold acceptEdge
  cases sinceEdge s with
  | none => exact ⟨_, _, _, _, _, rfl⟩
  | some iv => exact ⟨_, _, _, _, _, rfl⟩

theorem acceptEdge_ivals {s : State} {t0 : Nat} (h : s.ang.lastEdge = some t0) :
    (acceptEdge s).ang.ivals = ((s.now - t0) :: s.ang.ivals).take 8 := by
  rw [acceptEdge_of_edge h]
  rfl

@[simp] theorem setAng_setAng (s : State) (a b : Ang) : setAng (setAng s a) b = setAng s b := rfl

end Sys2Proof.Machine
end

section
/-! SUPPORT. Quadrature counts (R46, R48, R66, R69, R70, R726). -/

namespace Sys2Proof.Machine
open Sys2Proof

/-- The edge of the locked source as the estimate takes it: an interval counts only between edges of one direction. -/
def directedEdge (s : State) (fwd : Bool) : State :=
  if fwd == s.ang.lockDir then acceptEdge s else setAng s { s.ang with lastEdge := some s.now }

theorem directedEdge_estimated (s : State) (fwd : Bool) : ∃ l n d w m, directedEdge s fwd = estimated s l n d w m := by
  unfold directedEdge
  split
  · exact acceptEdge_estimated s
  · exact ⟨_, _, _, _, _, rfl⟩

/-- The count after one edge. -/
def stepped (s : State) (fwd : Bool) : Int := s.ang.kcount + (if fwd then 1 else -1)

/-- The device that has taken that edge, its count moved. -/
def countMoved (s : State) (fwd : Bool) : State :=
  setAng (directedEdge s fwd) { (directedEdge s fwd).ang with kcount := stepped s fwd, lockDir := fwd }

/-- The fall below the high-water count at which the word holds, ANG_REVTH. -/
def revThreshold (s : State) : Int := (fld (rd s 0x0244) 0 8 : Nat)

theorem qeiCount_eq (s : State) (fwd : Bool) : qeiCount s fwd =
    (let k := stepped s fwd
     let u := countMoved s fwd
     if s.ang.high < k then
       angFlags (setAng u { u.ang with
         high := k, revHold := false, meas := markPhase s k + u.ang.koff, mfrac := 0, expect := markPhase s (k + 1) + u.ang.koff })
     else if s.ang.high = k then angFlags (setAng u { u.ang with revHold := false })
     else if revThreshold s < s.ang.high - k then markReversed (setAng u { u.ang with revHold := true })
     else u) := rfl

/-- A count of the open frame has been taken, of the high-water mark `s.ang.high`. -/
structure Counted (k : Int) (s t : State) : Prop where
  st : t.ang.st = s.ang.st
  pos : t.ang.pos = s.ang.pos
  kcount : t.ang.kcount = k
  phase : t.ang.phase = s.ang.phase
  count : t.ang.count48 = s.ang.count48
  rises : s.ang.high < k → t.ang.high = k ∧ t.ang.meas = markPhase s k + s.ang.koff ∧
    t.ang.expect = markPhase s (k + 1) + s.ang.koff ∧ t.ang.revHold = false
  stays : k ≤ s.ang.high → t.ang.high = s.ang.high ∧ t.ang.meas = s.ang.meas ∧ t.ang.expect = s.ang.expect
  level : k = s.ang.high → t.ang.revHold = false
  reverses : revThreshold s < s.ang.high - k → t.ang.revHold = true ∧ t.ang.reversed = true ∧
    rd t 0x0208 = rd s 0x0208 ||| 8 ∧ ∀ f ∈ t.frm.frames, f.count = s.ang.count48 → f.reversed = true
  within : s.ang.high - k ≤ revThreshold s → t.frm = s.frm ∧ t.regs = s.regs ∧ (k < s.ang.high → t.ang.revHold = s.ang.revHold)
  regs r : r ≠ 0x0208 → rd t r = rd s r
  others : { t with ang := s.ang, regs := s.regs, frm := s.frm } = s

theorem revThreshold_nonneg (s : State) : 0 ≤ revThreshold s := Int.natCast_nonneg _

theorem markReversed_frames (s : State) : ∀ f ∈ (markReversed s).frm.frames, f.count = s.ang.count48 → f.reversed = true := by
  intro f m e
  obtain ⟨g, -, rfl⟩ := List.mem_map.mp m
  by_cases h : g.count = s.ang.count48
  · exact congrArg Frame.reversed (if_pos h)
  · exact absurd ((congrArg Frame.count (if_neg h)).symm.trans e) h

theorem rd_markReversed_self {s u : State} (w : twf 0 s.regs = true) (e : u.regs = s.regs) :
    rd (markReversed u) 0x0208 = rd s 0x0208 ||| 8 := by
  have self : rd (markReversed u) 0x0208 = rd u 0x0208 ||| 8 :=
    rd_setFlag_self (s := modFrame (setAng u { u.ang with reversed := true }) u.ang.count48 fun f => { f with reversed := true }) 3
      (e ▸ w)
  rw [self, rd, rd, e]

theorem rd_markReversed_ne (s : State) {r : Nat} (h : r ≠ 0x0208) : rd (markReversed s) r = rd s r :=
  rd_setFlag_ne (modFrame (setAng s { s.ang with reversed := true }) s.ang.count48 fun f => { f with reversed := true }) 3 h.symm

theorem markReversed_only (s : State) : { markReversed s with ang := s.ang, regs := s.regs, frm := s.frm } = s := rfl

theorem qeiCount_counted {s : State} (fwd : Bool) (w : twf 0 s.regs = true) : Counted (stepped s fwd) s (qeiCount s fwd) := by
  have nonneg := revThreshold_nonneg s
  obtain ⟨l, n, d, x, y, e⟩ := directedEdge_estimated s fwd
  rw [qeiCount_eq]
  simp only [countMoved, e]
  generalize stepped s fwd = k
  split_ifs with above level fall
  · exact {
      st := rfl, pos := rfl, kcount := rfl, phase := rfl, count := rfl, regs := fun _ _ => rfl, others := rfl
      rises := fun _ => ⟨rfl, rfl, rfl, rfl⟩
      stays := fun h => by omega
      level := fun h => by omega
      reverses := fun h => by omega
      within := fun _ => ⟨rfl, rfl, fun h => by omega⟩ }
  · exact {
      st := rfl, pos := rfl, kcount := rfl, phase := rfl, count := rfl, regs := fun _ _ => rfl, others := rfl
      rises := fun h => by omega
      stays := fun _ => ⟨rfl, rfl, rfl⟩
      level := fun _ => rfl
      reverses := fun h => by omega
      within := fun _ => ⟨rfl, rfl, fun h => by omega⟩ }
  · exact {
      st := rfl, pos := rfl, kcount := rfl, phase := rfl, count := rfl
      others := (congrArg (fun t : State => { t with ang := s.ang }) (markReversed_only _) :)
      regs := fun _ h => rd_markReversed_ne _ h
      rises := fun h => by omega
      stays := fun _ => ⟨rfl, rfl, rfl⟩
      level := fun h => by omega
      reverses := fun _ => ⟨rfl, rfl, rd_markReversed_self w rfl, markReversed_frames _⟩
      within := fun h => by omega }
  · exact {
      st := rfl, pos := rfl, kcount := rfl, phase := rfl, count := rfl, regs := fun _ _ => rfl, others := rfl
      rises := fun h => by omega
      stays := fun _ => ⟨rfl, rfl, rfl⟩
      level := fun h => by omega
      reverses := fun h => by omega
      within := fun _ => ⟨rfl, rfl, fun _ => rfl⟩ }

/-- The commands that carry one legal edge. -/
def legalMove (fwd : Bool) : QeiMove := if fwd then .forward else .reverse

/-- ANG_POS counts one edge. -/
def posMoved (s : State) (fwd : Bool) : State :=
  setAng s { s.ang with pos := if fwd then s.ang.pos + 1 else s.ang.pos - 1 }

theorem execQeiCount_legal {s : State} (fwd : Bool) (on : s.ang.st ≠ .off) (src : angSrc s = 0) (run : s.pwr.st ≠ 2) :
    exec (.qeiCount (legalMove fwd)) s = .next (qeiEdge (posMoved s fwd) fwd) := by
  have e : execQeiCount (legalMove fwd) s = .next (qeiEdge (posMoved s fwd) fwd) := by
    cases fwd
    · simp [execQeiCount, legalMove, posMoved, on, src, run]
      rfl
    · simp [execQeiCount, legalMove, posMoved, on, src, run]
  exact e

theorem execQeiCount_unselected {s : State} (fwd : Bool) (on : s.ang.st ≠ .off) (h : angSrc s ≠ 0 ∨ s.pwr.st = 2)
    (role : s.grp.role ≠ 2) : exec (.qeiCount (legalMove fwd)) s = .next (posMoved s fwd) := by
  have still : ¬(angSrc s = 0 ∧ s.pwr.st ≠ 2) := by omega
  have e : execQeiCount (legalMove fwd) s = .next (posMoved s fwd) := by
    cases fwd <;> simp [execQeiCount, legalMove, posMoved, on, still, shadows, role]
  exact e

theorem execQeiCount_off {s : State} (off : s.ang.st = .off) (d : QeiMove) : exec (.qeiCount d) s = .next s := by
  have e : execQeiCount d s = .next s := by simp [execQeiCount, off]
  exact e

/-- The fourth edge of a run decides whether the clock locks. -/
theorem qeiEdge_fourth {s : State} {t0 : Nat} (st : s.ang.st = .acquiring) (run : s.ang.lockRun = 3)
    (edge : s.ang.lastEdge = some t0) :
    let m := meanIvals s (((s.now - t0) :: s.ang.ivals).take 8)
    let t := qeiEdge s s.ang.lockDir
    t.ang.pos = s.ang.pos ∧ t.ang.frameOpen = s.ang.frameOpen ∧
      t.ang.st = (if 100000 * m.2 ≤ perFrame s * m.1 then .locked else .acquiring) ∧ { t with ang := s.ang } = s := by
  intro m t
  have ran : qeiRun s s.ang.lockDir = setAng (acceptEdge s) { (acceptEdge s).ang with lockRun := 4, lockDir := s.ang.lockDir } := by
    simp [qeiRun, run]
  have met : qeiMet (qeiRun s s.ang.lockDir) = decide (100000 * m.2 ≤ perFrame s * m.1) := by
    have ivals := acceptEdge_ivals edge
    obtain ⟨l, n, d, x, y, e⟩ := acceptEdge_estimated s
    rw [e] at ivals
    have same : l = ((s.now - t0) :: s.ang.ivals).take 8 := ivals
    rw [ran, e, qeiMet, estimated, same]
    rfl
  have go : t = if qeiMet (qeiRun s s.ang.lockDir) then lock (qeiRun s s.ang.lockDir) else qeiRun s s.ang.lockDir := by
    simp [t, qeiEdge, st]
  obtain ⟨l, n, d, x, y, e⟩ := acceptEdge_estimated s
  rw [go, met, ran, e]
  by_cases h : 100000 * m.2 ≤ perFrame s * m.1
  · simp only [h, decide_true, if_true]
    exact ⟨rfl, rfl, rfl, rfl⟩
  · simp only [h, decide_false, if_false]
    exact ⟨rfl, rfl, st, rfl⟩

/-- Without ZALIGN a coasting clock is LOCKED again at the angle that it has reached. -/
theorem reacquireHere_eq {s : State} (z : zAlign s = false) : reacquireHere s = takeAtWord (relock s) := by
  simp [reacquireHere, z]

theorem qeiEdge_coasting {s : State} (fwd : Bool) (st : s.ang.st = .coasting) (z : zAlign s = false) :
    qeiEdge s fwd = takeAtWord (relock (setAng s { s.ang with lockDir := fwd })) := by
  rw [← reacquireHere_eq (s := setAng s { s.ang with lockDir := fwd }) z, qeiEdge, st]

end Sys2Proof.Machine
end

section
/-! SUPPORT. The pulse of ANG_Z in an open frame (R67, R68, R726). -/

namespace Sys2Proof.Machine
open Sys2Proof

/-- The multiple of the counts of a revolution that lies less than half a revolution off is the one expected. -/
theorem zExpected_of_near {s : State} {n : Int} (lo : -(perRev s : Int) < 2 * (n * perRev s - s.ang.kcount))
    (hi : 2 * (n * perRev s - s.ang.kcount) < perRev s) : zExpected s = n * perRev s := by
  have pos : (0 : Int) < 2 * perRev s := by omega
  have quot : (2 * s.ang.kcount + perRev s) / (2 * perRev s) = n := by
    rw [Int.ediv_eq_iff_of_pos pos]
    constructor <;> linarith
  rw [zExpected, quot]

/-- The value of ANG_ZERR that reports the difference `d`. -/
def zErrWord (d : Int) : Word := BitVec.ofNat 32 ((clampInt (-32767) 32767 d) % 65536).toNat

theorem zErrWord_eq {d : Int} (lo : -32767 ≤ d) (hi : d ≤ 32767) : zErrWord d = (BitVec.ofInt 16 d).setWidth 32 := by
  have clamp : clampInt (-32767) 32767 d = d := by
    unfold clampInt
    omega
  apply BitVec.eq_of_toNat_eq
  simp only [zErrWord, clamp, BitVec.toNat_ofNat, BitVec.toNat_setWidth, BitVec.toNat_ofInt]
  omega

/-- A difference in range is reported as it is, in two's complement in the low half. -/
theorem zErrWord_toInt {d : Int} (lo : -32767 ≤ d) (hi : d ≤ 32767) : ((zErrWord d).setWidth 16).toInt = d := by
  rw [zErrWord_eq lo hi, BitVec.setWidth_setWidth_of_le _ (by decide), BitVec.setWidth_eq, BitVec.toInt_ofInt]
  exact Int.bmod_eq_of_le (by omega) (by omega)

theorem zErrWord_high {d : Int} (lo : -32767 ≤ d) (hi : d ≤ 32767) : zErrWord d &&& 0xFFFF0000 = 0 := by
  rw [zErrWord_eq lo hi, show (0xFFFF0000 : Word) = BitVec.allOnes 32 <<< 16 by decide]
  ext i h
  simp only [BitVec.getElem_and, BitVec.getElem_setWidth, BitVec.getElem_shiftLeft]
  by_cases low : i < 16
  · simp [low]
  · simp [BitVec.getLsbD_of_ge (BitVec.ofInt 16 d) i (by omega)]

/-- ANG_ZERR and ZSLIP report the difference `d`. -/
def zReported (s : State) (d : Int) : State :=
  if d = 0 then wr s 0x0254 (zErrWord d) else setFlag (wr s 0x0254 (zErrWord d)) 0x0208 4

theorem zReported_regs (s : State) (d : Int) : OnlyRegs s (zReported s d) := by
  unfold zReported
  split <;> rfl

theorem rd_zReported_error {s : State} (d : Int) (w : twf 0 s.regs = true) : rd (zReported s d) 0x0254 = zErrWord d := by
  unfold zReported
  split
  · exact rd_wr_self _ w
  · rw [rd_setFlag_ne _ 4 (by decide), rd_wr_self _ w]

theorem rd_zReported_flags {s : State} (d : Int) (w : twf 0 s.regs = true) :
    rd (zReported s d) 0x0208 = if d = 0 then rd s 0x0208 else rd s 0x0208 ||| 0x10 := by
  unfold zReported
  split
  · exact rd_wr_ne s _ (by decide)
  · rw [rd_setFlag_self 4 (wr_regs_wf _ _ w), rd_wr_ne s _ (by decide)]
    rfl

theorem rd_zReported_ne (s : State) (d : Int) {r : Nat} (h : r ≠ 0x0254) (g : r ≠ 0x0208) : rd (zReported s d) r = rd s r := by
  unfold zReported
  split
  · exact rd_wr_ne s _ h.symm
  · rw [rd_setFlag_ne _ 4 g.symm, rd_wr_ne s _ h.symm]

/-- A Z pulse that no reacquisition awaits reports the difference and realigns the count. -/
theorem zCompare_eq {s : State} {k : Int} (idle : s.ang.zwait = false) (h : zExpected s = k) : zCompare s =
    angFlags (setAng (zReported s (k - s.ang.kcount)) { (zReported s (k - s.ang.kcount)).ang with
      kcount := k, high := s.ang.high + (k - s.ang.kcount), koff := 0, zwait := false,
      meas := markPhase s (s.ang.high + (k - s.ang.kcount)), mfrac := 0,
      expect := markPhase s (s.ang.high + (k - s.ang.kcount) + 1) }) := by
  simp only [zCompare, h, idle, Bool.false_and]
  rfl

theorem execZPulse_of_open {s : State} (z : zAlign s = true) (st : s.ang.st = .locked) (run : s.pwr.st ≠ 2)
    (isOpen : s.ang.frameOpen = true) : exec .zPulse s = .next (zCompare s) := by
  have e : execZPulse s = .next (zCompare s) := by simp [execZPulse, z, locked, st, run, isOpen]
  exact e

theorem execZPulse_of_unaligned {s : State} (z : zAlign s = false) : exec .zPulse s = .next s := by
  have e : execZPulse s = .next s := by simp [execZPulse, z]
  exact e

end Sys2Proof.Machine
end

section
open Sys2Proof Sys2Proof.Machine

/-- Settles O23: a count moves ANG_POS in every state but OFF and, in an open frame, the count and its high-water mark; a Z pulse
realigns the count to the nearest multiple of the counts of a revolution. -/
theorem qeiAndZPulse : Obligations.QeiAndZPulse := by
  unfold Obligations.QeiAndZPulse
  refine ⟨fun s fwd w => ⟨?counts, ?locks, ?reacquires, ?elsewhere, ?off⟩, fun s n w z st run => ⟨?aligns, ?unaligned⟩⟩
  case counts =>
    intro st isOpen src run
    have e : qeiEdge (posMoved s fwd) fwd = qeiCount (posMoved s fwd) fwd := by simp [qeiEdge, posMoved, st, isOpen]
    have c : Counted _ (posMoved s fwd) _ := qeiCount_counted fwd w
    rw [← e] at c
    refine ⟨_, execQeiCount_legal fwd (by simp [st]) src run, c.st.trans st, c.pos, c.kcount, c.phase, c.count, c.rises, c.stays, c.level,
      c.reverses, c.within, c.regs, ?_⟩
    exact (congrArg (fun t : State => { t with ang := s.ang }) c.others :)
  case locks =>
    intro t0 st src run dir three edge
    subst dir
    obtain ⟨pos, isOpen, st', others⟩ := qeiEdge_fourth (s := posMoved s s.ang.lockDir) st three edge
    refine ⟨_, execQeiCount_legal _ (by simp [st]) src run, pos, isOpen, st', ?_⟩
    exact (congrArg (fun t : State => { t with ang := s.ang }) others :)
  case reacquires =>
    intro st src run z
    have e := qeiEdge_coasting (s := posMoved s fwd) fwd st z
    exact ⟨_, (execQeiCount_legal fwd (by simp [st]) src run).trans (congrArg _ e), rfl, rfl, rfl, rfl, rfl⟩
  case elsewhere => exact execQeiCount_unselected fwd
  case off => exact fun off => ⟨execQeiCount_off off _, execQeiCount_off off _⟩
  case aligns =>
    intro isOpen idle lo hi small large
    have e := zCompare_eq idle (zExpected_of_near lo hi)
    generalize n * (perRev s : Int) - s.ang.kcount = d at e small large
    have only := zReported_regs s d
    have ang : (zReported s d).ang = s.ang := (congrArg State.ang only :)
    have error := rd_zReported_error d w
    rw [ang] at e
    refine ⟨_, (execZPulse_of_open z st run isOpen).trans (congrArg _ e), ?_, ?_, rd_zReported_flags d w, rfl, rfl, rfl, rfl, rfl, st,
      fun r hr hf => rd_zReported_ne s d hr hf, (congrArg (fun t : State => { t with ang := s.ang }) only :)⟩
    · exact (congrArg (fun v : Word => (v.setWidth 16).toInt) error).trans (zErrWord_toInt small large)
    · exact (congrArg (fun v : Word => v &&& 0xFFFF0000) error).trans (zErrWord_high small large)
  case unaligned => exact execZPulse_of_unaligned

end

section
/-! SUPPORT. Pulses and crossings that the clock follows (R49, R50, R66, R67, R726). -/

namespace Sys2Proof.Machine
open Sys2Proof

theorem sinceEdge_of_edge {s : State} {t0 : Nat} (h : s.ang.lastEdge = some t0) : sinceEdge s = some (s.now - t0) := by
  rw [sinceEdge, h]
  rfl

/-- LOCKTOL bounds the distance of an interval from the one before it. -/
theorem intervalOk_eq (s : State) (iv prev : Nat) :
    intervalOk s iv prev = decide (256 * ((iv : Int) - prev).natAbs ≤ fld (rd s 0x0238) 8 8 * prev) := by
  have dist : max iv prev - min iv prev = ((iv : Int) - prev).natAbs := by omega
  rw [intervalOk, dist, Nat.mul_comm]

/-- TRKTOL bounds the distance of an interval from the estimate. -/
theorem trackOk_eq (s : State) (iv : Nat) : trackOk s iv =
    (let m := meanIvals s s.ang.ivals
     decide (256 * (((iv * m.2 : Nat) : Int) - m.1).natAbs ≤ fld (rd s 0x0238) 16 8 * m.1)) := by
  have dist (a b : Nat) : max a b - min a b = ((a : Int) - b).natAbs := by omega
  simp only [trackOk, dist, Nat.mul_comm 256]

/-- The locked source has advanced by one position, which is the measured angle now. -/
structure Tracks (s t : State) : Prop where
  st : t.ang.st = s.ang.st
  kcount : t.ang.kcount = s.ang.kcount + 1
  meas : t.ang.meas = markPhase s (s.ang.kcount + 1) + s.ang.koff
  expect : t.ang.expect = markPhase s (s.ang.kcount + 1 + 1) + s.ang.koff
  phase : t.ang.phase = s.ang.phase
  others : { t with ang := s.ang } = s

/-- The nearest expected position, the later on a tie. -/
def nearCount (s : State) : Nat := (2 * s.ang.phase * perFrame s + closeAngle) / (2 * closeAngle)

/-- Its measured phase. -/
def nearMark (s : State) : Nat := nearCount s * closeAngle / perFrame s

theorem markPhase_nearCount (s : State) : markPhase s (nearCount s) = nearMark s := by
  rw [markPhase, nearMark]
  push_cast
  rfl

/-- The reacquisition error, in au. -/
def nearError (s : State) : Nat := ((nearMark s : Int) - s.ang.phase).natAbs

theorem reacquireNear_eq (s : State) : reacquireNear s =
    if nearError s ≤ 131072 then
      angFlags (setAng (relock s) { (relock s).ang with
        kcount := nearCount s, high := nearCount s, koff := 0, meas := markPhase s (nearCount s), mfrac := 0,
        expect := markPhase s (nearCount s + 1), errLeft := decide (markPhase s (nearCount s) - (s.ang.phase : Int) ≠ 0) })
    else enterLost s 4 := by
  rw [nearError, ← markPhase_nearCount]
  rfl

theorem reacquireNear_of_near {s : State} (h : nearError s ≤ 131072) :
    (reacquireNear s).ang.st = .locked ∧ (reacquireNear s).ang.meas = nearMark s ∧ (reacquireNear s).ang.phase = s.ang.phase ∧
      { reacquireNear s with ang := s.ang } = s := by
  rw [reacquireNear_eq, if_pos h]
  exact ⟨rfl, markPhase_nearCount s, rfl, rfl⟩

theorem reacquireNear_of_far {s : State} (h : 131072 < nearError s) : reacquireNear s = enterLost s 4 := by
  rw [reacquireNear_eq, if_neg (by omega)]

/-! TACH. -/

theorem execTachPulse_selected {s : State} (on : s.ang.st ≠ .off) (src : angSrc s = 1) (run : s.pwr.st ≠ 2) :
    exec .tachPulse s = .next (tachEdge s) := by
  have e : execTachPulse s = .next (tachEdge s) := by simp [execTachPulse, on, src, run]
  exact e

section
variable {s : State} {t0 : Nat} (edge : s.ang.lastEdge = some t0)
include edge

theorem tachRun_eq {prev : Nat} {rest : List Nat} (ivals : s.ang.ivals = prev :: rest) : tachRun s =
    setAng (acceptEdge s) { (acceptEdge s).ang with
      lockRun := if intervalOk s (s.now - t0) prev then s.ang.lockRun + 1 else 1 } := by
  simp [tachRun, sinceEdge_of_edge edge, ivals]

/-- A pulse toward lock that leaves the run too short. -/
theorem tachEdge_short {prev : Nat} {rest : List Nat} (st : s.ang.st = .acquiring) (ivals : s.ang.ivals = prev :: rest)
    (short : (if intervalOk s (s.now - t0) prev then s.ang.lockRun + 1 else 1) < fld (rd s 0x0238) 0 6) :
    tachEdge s = tachRun s := by
  have n : (tachRun s).ang.lockRun = if intervalOk s (s.now - t0) prev then s.ang.lockRun + 1 else 1 := by
    rw [tachRun_eq edge ivals]
    rfl
  simp only [tachEdge, st]
  rw [if_neg (by omega)]

/-- A pulse that completes the run locks; with ZALIGN the first frame waits for ANG_Z. -/
theorem tachEdge_lock {prev : Nat} {rest : List Nat} (st : s.ang.st = .acquiring) (ivals : s.ang.ivals = prev :: rest)
    (long : fld (rd s 0x0238) 0 6 ≤ if intervalOk s (s.now - t0) prev then s.ang.lockRun + 1 else 1) (z : zAlign s = true) :
    tachEdge s = lock (tachRun s) := by
  have n : (tachRun s).ang.lockRun = if intervalOk s (s.now - t0) prev then s.ang.lockRun + 1 else 1 := by
    rw [tachRun_eq edge ivals]
    rfl
  simp only [tachEdge, st, z]
  rw [if_pos (by omega), if_pos trivial]

omit edge in
/-- The device that has accepted a pulse. -/
def pulseAccepted (s : State) : State := setAng (acceptEdge s) { (acceptEdge s).ang with rejects := 0 }

theorem tachTrack_accepted (ok : trackOk s (s.now - t0) = true) (k : State → State) : tachTrack s k = k (pulseAccepted s) := by
  rw [tachTrack, sinceEdge_of_edge edge]
  exact if_pos ok

theorem tachEdge_accepted (st : s.ang.st = .locked) (isOpen : s.ang.frameOpen = true) (ok : trackOk s (s.now - t0) = true) :
    Tracks s (tachEdge s) := by
  obtain ⟨l, n, d, w, m, e⟩ := acceptEdge_estimated s
  have still : (pulseAccepted s).ang.frameOpen = true := by
    rw [pulseAccepted, e]
    exact isOpen
  have go : tachEdge s = angFlags (measureAt (pulseAccepted s) ((pulseAccepted s).ang.kcount + 1)) := by
    simp only [tachEdge, st]
    rw [tachTrack_accepted edge ok, if_pos still]
  rw [go, pulseAccepted, e]
  exact ⟨rfl, rfl, rfl, rfl, rfl, rfl⟩

theorem tachEdge_ignored (st : s.ang.st = .locked) (bad : trackOk s (s.now - t0) = false) (first : s.ang.rejects = 0) :
    tachEdge s = setAng s { s.ang with rejects := 1 } := by
  simp [tachEdge, st, tachTrack, sinceEdge_of_edge edge, bad, first]

theorem tachEdge_loses (st : s.ang.st = .locked) (bad : trackOk s (s.now - t0) = false) (second : 1 ≤ s.ang.rejects) :
    tachEdge s = loseSource s := by
  simp [tachEdge, st, tachTrack, sinceEdge_of_edge edge, bad, second]

omit edge in
theorem tachEdge_coasting (st : s.ang.st = .coasting) (z : zAlign s = false) : tachEdge s = reacquireNear s := by
  simp [tachEdge, st, z]

/-! LINE. -/

omit edge in
theorem shiftEdge_sub_zero (s : State) : shiftEdge s (fun x => x - 0) = s := shiftEdge_zero s

theorem execLineCrossing_selected (on : s.ang.st ≠ .off) (src : angSrc s = 2) (run : s.pwr.st ≠ 2) :
    exec (.lineCrossing 0) s = .next (lineEdge s (periodOk s (s.now - t0))) := by
  have e : execLineCrossing 0 s = .next (lineEdge s (periodOk s (s.now - t0))) := by
    rw [execLineCrossing_eq, shiftEdge_zero, shiftEdge_sub_zero, if_neg (by simp [on, run]), if_pos src, crossingOk_of_edge edge]
  exact e

omit edge in
/-- The device at a crossing whose period lengthens the run. -/
def runLengthened (s : State) : State := setAng (acceptEdge s) { (acceptEdge s).ang with lockRun := s.ang.lockRun + 1 }

omit edge in
theorem lineEdge_run (st : s.ang.st = .acquiring) : lineEdge s true =
    if 16 ≤ s.ang.lockRun + 1 then lock (runLengthened s) else runLengthened s := by
  simp only [lineEdge, st, if_true]
  rfl

omit edge in
/-- A period in range lengthens the run, of which the sixteenth locks. -/
theorem lineEdge_run_spec (st : s.ang.st = .acquiring) : (lineEdge s true).ang.frameOpen = s.ang.frameOpen ∧
    (lineEdge s true).ang.lockRun = s.ang.lockRun + 1 ∧ ((lineEdge s true).ang.st = .locked ↔ 15 ≤ s.ang.lockRun) ∧
    { lineEdge s true with ang := s.ang } = s := by
  obtain ⟨l, n, d, w, m, e⟩ := acceptEdge_estimated s
  rw [lineEdge_run st, runLengthened, e]
  split_ifs with long
  · exact ⟨rfl, rfl, iff_of_true rfl (by omega), rfl⟩
  · exact ⟨rfl, rfl, iff_of_false (by simp [estimated, st]) (by omega), rfl⟩

omit edge in
/-- A period out of range ends the run. -/
theorem lineEdge_restart (st : s.ang.st = .acquiring) : lineEdge s false =
    setAng s { s.ang with lastEdge := some s.now, ivals := [], lockRun := 0 } := by
  simp [lineEdge, st]

omit edge in
theorem lineEdge_tracks (st : s.ang.st = .locked) (isOpen : s.ang.frameOpen = true) : Tracks s (lineEdge s true) := by
  obtain ⟨l, n, d, w, m, e⟩ := acceptEdge_estimated s
  have go : lineEdge s true = angFlags (measureAt (acceptEdge s) ((acceptEdge s).ang.kcount + 1)) := by
    simp [lineEdge, st, isOpen]
  rw [go, e]
  exact ⟨rfl, rfl, rfl, rfl, rfl, rfl⟩

omit edge in
theorem lineEdge_loses (st : s.ang.st = .locked) : lineEdge s false = loseSource s := by simp [lineEdge, st]

omit edge in
theorem lineEdge_coasting (st : s.ang.st = .coasting) (ok : Bool) : lineEdge s ok = reacquireNear s := by simp [lineEdge, st]

end

theorem periodOk_eq (s : State) (iv : Nat) : periodOk s iv =
    decide (9 * 2000000000 ≤ iv * fld (rd s 0x0230) 0 16 ∧ iv * fld (rd s 0x0230) 0 16 ≤ 11 * 2000000000) :=
  (Bool.decide_and _ _).symm

end Sys2Proof.Machine
end

section
/-! SUPPORT. The losses of a source (R49, R50, R61 to R66). -/

namespace Sys2Proof.Machine
open Sys2Proof

/-- A loss detected in `u` left the clock coasting in `t`, or with ANG_COAST at 0 in LOST. -/
structure Loses (u t : State) : Prop where
  coasts : fld (rd u 0x023C) 0 4 ≠ 0 → Coasts u t
  lost : fld (rd u 0x023C) 0 4 = 0 → LostSource u t 5

/-- The clock as it starts to coast. -/
def coastFrom (s : State) : State :=
  setAng s { s.ang with
    st := .coasting, meas := s.ang.phase, mfrac := s.ang.wfrac, coastLeft := fld (rd s 0x023C) 0 4 * closeAngle,
    slewing := false, clamped := false, revHold := false }

theorem loseSource_of_budget {s : State} (isOpen : s.ang.frameOpen = true) (budget : fld (rd s 0x023C) 0 4 ≠ 0) :
    loseSource s = setFlag (modFrame (setAng (coastFrom s) { (coastFrom s).ang with coasted := true }) s.ang.count48
      fun f => { f with coasted := true }) 0x0208 2 := by
  have marked : markCoasted (coastFrom s) = modFrame (setAng (coastFrom s) { (coastFrom s).ang with coasted := true }) s.ang.count48
      fun f => { f with coasted := true } := if_pos isOpen
  have left : fld (rd s 0x023C) 0 4 * closeAngle ≠ 0 := by simp [budget, closeAngle]
  rw [← marked, loseSource, isOpen]
  simp only [left]
  rfl

theorem loseSource_without_budget {s : State} (isOpen : s.ang.frameOpen = true) (budget : fld (rd s 0x023C) 0 4 = 0) :
    loseSource s = enterLost s 5 := by
  simp [loseSource, isOpen, budget]

theorem loseSource_loses {s : State} (w : twf 0 s.regs = true) (blank : ingestBlank s) (isOpen : s.ang.frameOpen = true) :
    Loses s (loseSource s) where
  coasts budget := by
    rw [loseSource_of_budget isOpen budget]
    exact {
      st := rfl, left := rfl, phase := rfl, meas := rfl, rate := rfl, coasted := rfl, count := rfl, pos := rfl
      frames := rfl, others := rfl
      frameOpen := isOpen
      flags := rd_setFlag_self (s := modFrame (setAng (coastFrom s) { (coastFrom s).ang with coasted := true }) s.ang.count48
        fun f => { f with coasted := true }) 2 w
      regs := fun r h => rd_setFlag_ne _ 2 h.symm }
  lost budget := by
    rw [loseSource_without_budget isOpen budget]
    exact enterLost_lostSource 5 w blank

theorem execEdgeTimeout_late {s : State} {t0 l : Nat} {rest : List Nat} (edge : s.ang.lastEdge = some t0) (run : s.pwr.st ≠ 2)
    (st : s.ang.st = .locked) (src : angSrc s ≤ 1) (ivals : s.ang.ivals = l :: rest)
    (late : fld (rd s 0x0240) 0 5 * l ≤ s.now - t0) : exec .edgeTimeout s = .next (loseSource s) := by
  have e : execEdgeTimeout s = .next (loseSource s) := by
    simp [execEdgeTimeout, sinceEdge_of_edge edge, ivals, late, run, src, locked, st]
  exact e

theorem execLineCrossingTimeout_late {s : State} {t0 : Nat} (edge : s.ang.lastEdge = some t0) (run : s.pwr.st ≠ 2)
    (st : s.ang.st = .locked) (src : angSrc s = 2) (some : (meanIvals s s.ang.ivals).2 ≠ 0)
    (late : 5 * (meanIvals s s.ang.ivals).1 ≤ 4 * (meanIvals s s.ang.ivals).2 * (s.now - t0)) :
    exec .lineCrossingTimeout s = .next (loseSource s) := by
  have e : execLineCrossingTimeout s = .next (loseSource s) := by
    simp [execLineCrossingTimeout, sinceEdge_of_edge edge, late, some, run, src, locked, st]
  exact e

/-- One illegal transition of a locked QEI source in an open frame. -/
def illegalCounted (s : State) : State := { s with ang := { s.ang with qerr := s.ang.qerr + 1 } }

theorem execQeiCount_illegal {s : State} (run : s.pwr.st ≠ 2) (st : s.ang.st = .locked) (src : angSrc s = 0)
    (isOpen : s.ang.frameOpen = true) : exec (.qeiCount .illegal) s = .next (
      if fld (rd s 0x0240) 8 8 ≤ s.ang.qerr then loseSource (illegalCounted s) else illegalCounted s) := by
  have counted : setAng s { s.ang with
      qerr := if s.ang.frameOpen then s.ang.qerr + 1 else s.ang.qerr,
      lockRun := if s.ang.st = .acquiring then 0 else s.ang.lockRun } = illegalCounted s := by
    simp [st, isOpen, illegalCounted, setAng]
  have illegal : qeiIllegal s =
      if fld (rd s 0x0240) 8 8 ≤ s.ang.qerr then loseSource (illegalCounted s) else illegalCounted s := by
    have lk : locked (illegalCounted s) = true := decide_eq_true st
    simp only [qeiIllegal, counted, lk, Bool.true_and, decide_eq_true_eq]
    exact if_congr Nat.lt_succ_iff rfl rfl
  have e : execQeiCount .illegal s = .next (qeiIllegal s) := by simp [execQeiCount, st, src, run]
  rw [← illegal]
  exact e

theorem execCoastBudgetSpent_spent {s : State} (run : s.pwr.st ≠ 2) (st : s.ang.st = .coasting) (left : s.ang.coastLeft = 0)
    (due : boundaryDue s = false) (role : s.grp.role < 2) : exec .coastBudgetSpent s = .next (enterLost s 1) := by
  have solo : member s = false := by simpa [member] using role
  have e : execCoastBudgetSpent s = .next (enterLost s 1) := by simp [execCoastBudgetSpent, st, left, due, run, solo]
  exact e

theorem execStallTimeout_stalled {s : State} (run : s.pwr.st ≠ 2) (isOpen : s.ang.frameOpen = true) (src : angSrc s ≤ 2)
    (late : 4000000000 ≤ s.now - s.ang.openAt) : exec .stallTimeout s = .next (enterLost (setFlag s 0x0208 6) 2) := by
  have e : execStallTimeout s = .next (enterLost (setFlag s 0x0208 6) 2) := congrArg Host.Outcome.next (if_pos ⟨isOpen, src, late, run⟩)
  exact e

theorem execStallTimeout_running {s : State} (h : 3 ≤ angSrc s ∨ s.now - s.ang.openAt < 4000000000) :
    exec .stallTimeout s = .next s := by
  have e : execStallTimeout s = .next s := congrArg Host.Outcome.next (if_neg (by omega))
  exact e

end Sys2Proof.Machine
end

section
open Sys2Proof Sys2Proof.Machine

/-- Settles O24: a consistent pulse or crossing lengthens the run or advances the measured angle; a source that fails leaves the clock
coasting or, without a budget, in LOST. -/
theorem pulsesCrossingsAndLosses : Obligations.PulsesCrossingsAndLosses := by
  unfold Obligations.PulsesCrossingsAndLosses
  refine ⟨fun s t0 w edge run => ?follows, fun s w blank isOpen run => ?losses⟩
  case follows =>
    intro iv pll m pf k close tracks inTrk near reacquires nom inRange
    have tracked {i : Instr} {t : State} (st : s.ang.st = .locked) (e : exec i s = .next t) (h : Tracks s t) : tracks i :=
      ⟨t, e, h.st.trans st, h.kcount, h.meas, h.expect, h.phase, h.others⟩
    have reacquired {i : Instr} (e : exec i s = .next (reacquireNear s)) : reacquires i := by
      refine ⟨fun h => ⟨_, e, reacquireNear_of_near h⟩, fun h blank => ⟨_, e, ?_⟩⟩
      rw [reacquireNear_of_far h]
      exact enterLost_lostSource 4 w blank
    refine ⟨fun src => ⟨?pulsesToLock, ?pulses, ?pulseReacquires⟩, fun src => ⟨?crossingsToLock, ?crossings, ?crossingReacquires⟩⟩
    case pulsesToLock =>
      intro prev rest st ivals n
      have same : n = if intervalOk s (s.now - t0) prev then s.ang.lockRun + 1 else 1 := by simp [n, iv, pll, intervalOk_eq]
      have e := execTachPulse_selected (by simp [st]) src run
      obtain ⟨l, r, d, x, y, accepted⟩ := acceptEdge_estimated s
      have ran := tachRun_eq edge ivals
      rw [accepted, ← same] at ran
      refine ⟨fun short => ⟨_, e, ?_⟩, fun long z => ⟨_, e, ?_⟩⟩
      · rw [tachEdge_short edge st ivals (same ▸ short), ran]
        exact ⟨st, rfl, rfl, rfl⟩
      · rw [tachEdge_lock edge st ivals (same ▸ long) z, ran]
        exact ⟨rfl, rfl, rfl⟩
    case pulses =>
      intro st isOpen
      have e := execTachPulse_selected (by simp [st]) src run
      refine ⟨fun ok => tracked st e (tachEdge_accepted edge st isOpen ?_), fun bad first => ?_⟩
      · exact (trackOk_eq s _).trans (decide_eq_true ok)
      · rw [e, tachEdge_ignored edge st ((trackOk_eq s _).trans (decide_eq_false bad)) first]
        rfl
    case pulseReacquires =>
      intro st z
      exact reacquired ((execTachPulse_selected (by simp [st]) src run).trans (congrArg _ (tachEdge_coasting st z)))
    case crossingsToLock =>
      intro st
      have e := execLineCrossing_selected edge (by simp [st]) src run
      rw [periodOk_eq] at e
      by_cases ok : inRange
      · obtain ⟨isOpen, longer, locks, others⟩ := lineEdge_run_spec st
        rw [decide_eq_true ok] at e
        exact ⟨_, e, isOpen, fun _ => ⟨longer, locks⟩, fun h => absurd ok h, others⟩
      · rw [decide_eq_false ok, lineEdge_restart st] at e
        exact ⟨_, e, rfl, fun h => absurd h ok, fun _ => ⟨rfl, st⟩, rfl⟩
    case crossings =>
      intro st isOpen ok
      have e := execLineCrossing_selected edge (by simp [st]) src run
      rw [periodOk_eq, decide_eq_true ok] at e
      exact tracked st e (lineEdge_tracks st isOpen)
    case crossingReacquires =>
      intro st
      exact reacquired ((execLineCrossing_selected edge (by simp [st]) src run).trans (congrArg _ (lineEdge_coasting st _)))
  case losses =>
    intro coast loses m
    have lost {i : Instr} {u t : State} (same : rd u 0x023C = rd s 0x023C) (e : exec i s = .next t) (h : Loses u t) : loses i u :=
      ⟨fun n => ⟨t, e, h.coasts (same ▸ n)⟩, fun n => ⟨t, e, h.lost (same ▸ n)⟩⟩
    have loss := loseSource_loses w blank isOpen
    refine ⟨fun t0 edge st => ⟨?edges, ?crossings, ?periods, ?pulses⟩, fun st src => ⟨?few, ?many⟩, ?budget, ?stall,
      execStallTimeout_running⟩
    case edges => exact fun src l rest ivals late => lost rfl (execEdgeTimeout_late edge run st src ivals late) loss
    case crossings => exact fun src some late => lost rfl (execLineCrossingTimeout_late edge run st src some late) loss
    case periods =>
      intro src out
      dsimp only at out
      have e := execLineCrossing_selected edge (by simp [st]) src run
      rw [periodOk_eq, decide_eq_false (by omega), lineEdge_loses st] at e
      exact lost rfl e loss
    case pulses =>
      intro src second bad
      have rejected : trackOk s (s.now - t0) = false := (trackOk_eq s _).trans (decide_eq_false (Nat.not_le.mpr bad))
      exact lost rfl ((execTachPulse_selected (by simp [st]) src run).trans (congrArg _ (tachEdge_loses edge st rejected second))) loss
    case few => exact fun few => (execQeiCount_illegal run st src isOpen).trans (congrArg _ (if_neg (Nat.not_le.mpr few)))
    case many =>
      intro many
      exact lost rfl ((execQeiCount_illegal run st src isOpen).trans (congrArg _ (if_pos many)))
        (loseSource_loses (s := illegalCounted s) w blank isOpen)
    case budget =>
      exact fun st left due role => ⟨_, execCoastBudgetSpent_spent run st left due role, enterLost_lostSource 1 w blank⟩
    case stall =>
      exact fun src late => ⟨_, execStallTimeout_stalled run isOpen src late,
        enterLost_lostSource (u := setFlag s 0x0208 6) 2 (wr_regs_wf _ _ w) blank⟩

end

section
/-! SUPPORT. Where the angle word may go: the phases at which something fires, and the positions of the word (R52 to R55, R73, R79). -/

namespace Sys2Proof.Machine
open Sys2Proof

theorem le_cdiv_mul (a : Nat) {b : Nat} (h : 0 < b) : a ≤ cdiv a b * b := by
  have split := Nat.div_add_mod (a + b - 1) b
  have rest := Nat.mod_lt (a + b - 1) h
  rw [cdiv, Nat.mul_comm]
  omega

/-- Rounding up a quotient keeps every factor that fits. -/
theorem le_cdiv_of_mul_le {a b n : Nat} (h : 0 < b) (fits : b * n ≤ a) : n ≤ cdiv a b :=
  Nat.le_of_mul_le_mul_right (Nat.mul_comm b n ▸ fits.trans (le_cdiv_mul a h)) h

/-- Nothing that fires there lies below `x`. -/
def AtLeast (x : Nat) (r : Option Nat) : Prop := ∀ p, r = some p → x ≤ p

theorem AtLeast.minOpt {x : Nat} {a b : Option Nat} (h : AtLeast x a) (g : AtLeast x b) : AtLeast x (minOpt a b) := by
  intro p e
  cases a with
  | none => exact g p e
  | some a =>
    cases b with
    | none => exact h p e
    | some b =>
      cases e
      exact le_min (h a rfl) (g b rfl)

theorem pacerNext_atLeast (s : State) (k x : Nat) : AtLeast x (pacerNext s k x) := by
  intro p e
  unfold pacerNext at e
  extract_lets c sp off q at e
  split at e
  · next on =>
    simp only [Bool.and_eq_true, decide_eq_true_eq] at on
    have spaced : 0 < sp := by omega
    split at e
    · obtain rfl := Option.some.inj e
      have up := le_cdiv_mul (x - off) spaced
      unfold q
      split <;> omega
    · exact absurd e (by simp)
  · exact absurd e (by simp)

theorem nextFiring_atLeast (s : State) (x : Nat) : AtLeast x (nextFiring s x) := by
  unfold nextFiring
  extract_lets e
  have entries : AtLeast x e :=
    List.foldlRecOn (motive := AtLeast x) _ _ (fun _ h => absurd h (by simp)) fun r h n _ => by
      dsimp only
      split
      · next on =>
        refine h.minOpt fun p e => ?_
        cases e
        simp only [Bool.and_eq_true, decide_eq_true_eq] at on
        exact on.2
      · exact h
  exact List.foldlRecOn (motive := AtLeast x) _ _ entries fun r h k _ => h.minOpt (pacerNext_atLeast s k x)

theorem stopPhase_le (s : State) : stopPhase s ≤ closeAngle := by
  unfold stopPhase
  split
  · exact Nat.min_le_right _ _
  · exact le_rfl

theorem le_stopPhase {s : State} (h : s.ang.phase ≤ closeAngle) : s.ang.phase ≤ stopPhase s := by
  unfold stopPhase
  split
  · next p e =>
    have above := nextFiring_atLeast s _ p e
    exact le_min (by omega) h
  · exact h

/-! Positions of the word. -/

section
variable (a : Ang) {w : Int}

theorem le_setW_phase (unit : 0 < a.unit) {n : Nat} (h : (n * a.unit : Nat) ≤ w) : n ≤ (a.setW w).phase := by
  have quot : (n : Int) ≤ w / (a.unit : Nat) := (Int.le_ediv_iff_mul_le (by omega)).mpr (by push_cast at h; exact h)
  show n ≤ (w / (a.unit : Nat)).toNat
  omega

theorem setW_phase_le (unit : 0 < a.unit) {n : Int} (nonneg : 0 ≤ n) (h : w < (n + 1) * (a.unit : Nat)) :
    ((a.setW w).phase : Int) ≤ n := by
  have quot : w / (a.unit : Nat) < n + 1 := Int.ediv_lt_of_lt_mul (by omega) h
  show ((w / (a.unit : Nat)).toNat : Int) ≤ n
  omega

/-- A position is its phase and its fraction. -/
theorem wPos_setW (unit : 0 < a.unit) (h : 0 ≤ w) : ((a.setW w).phase * a.unit + (a.setW w).wfrac : Nat) = w := by
  have pos : (0 : Int) < (a.unit : Nat) := by omega
  have quot := Int.toNat_of_nonneg (Int.ediv_nonneg h pos.le)
  have rest := Int.toNat_of_nonneg (Int.emod_nonneg w pos.ne')
  have split := Int.mul_ediv_add_emod w (a.unit : Nat)
  show (((w / (a.unit : Nat)).toNat * a.unit + (w % (a.unit : Nat)).toNat : Nat) : Int) = w
  push_cast
  rw [quot, rest]
  linarith

variable {a}

theorem phase_mul_le_wPos : ((a.phase * a.unit : Nat) : Int) ≤ a.wPos := by
  rw [Ang.wPos]
  omega

theorem wPos_lt (h : a.wfrac < a.unit) : a.wPos < (a.phase + 1) * (a.unit : Nat) := by
  rw [Ang.wPos]
  push_cast
  linarith [(Nat.cast_lt (α := Int)).mpr h]

end

end Sys2Proof.Machine
end

section
/-! SUPPORT. The advance of the angle word (R52 to R55, R723). -/

namespace Sys2Proof.Machine
open Sys2Proof

/-- Time and the angle word have advanced, by at most `dt` cycles and within the limits of R53. -/
structure Advances (dt : Nat) (s t : State) : Prop where
  forward : s.ang.phase ≤ t.ang.phase
  close : t.ang.phase ≤ closeAngle
  later : s.now ≤ t.now
  soon : t.now ≤ s.now + dt
  count : t.ang.count48 = s.ang.count48
  st : t.ang.st = s.ang.st
  follows : 3 ≤ angSrc s ∨ s.ang.st = .coasting ∨ interpolates s = false ∨ (t.ang.phase : Int) ≤ max (s.ang.phase : Int) s.ang.expect
  others : { t with now := s.now, ang := s.ang } = s

section
variable {s : State} (dt : Nat) (below : s.ang.phase ≤ closeAngle)
include below

theorem addTime_advances {d : Nat} (h : d ≤ dt) : Advances dt s (addTime s d) where
  forward := le_rfl
  close := below
  later := Nat.le_add_right _ _
  soon := Nat.add_le_add_left h _
  count := rfl
  st := rfl
  follows := .inr (.inr (.inr (le_max_left _ _)))
  others := rfl

theorem advanceCount_advances (steps : interpolates s = false) : Advances dt s (advanceCount s dt) := by
  unfold advanceCount
  extract_lets a top p
  subst a
  have lo := le_stopPhase below
  have hi := stopPhase_le s
  split_ifs with reached still
  · exact addTime_advances dt below le_rfl
  · subst still
    exact addTime_advances 0 below le_rfl
  · exact {
      forward := by
        show s.ang.phase ≤ p
        unfold p
        omega
      close := (Nat.min_le_left _ _).trans hi
      later := Nat.le_add_right _ _
      soon := Nat.add_le_add_left (Nat.one_le_iff_ne_zero.mpr still) _
      count := rfl
      st := rfl
      follows := .inr (.inr (.inl steps))
      others := rfl }

variable (frac : s.ang.wfrac < s.ang.unit)
include frac

theorem advanceFree_advances (free : freeRuns s = true) : Advances dt s (advanceFree s dt) := by
  have unit : 0 < s.ang.unit := by omega
  unfold advanceFree
  extract_lets a stop p need d w b
  subst a
  have lo : s.ang.phase ≤ stop := by
    have := le_stopPhase below
    unfold stop
    split <;> omega
  have hi : stop ≤ closeAngle := by
    have := stopPhase_le s
    unfold stop
    split <;> omega
  have start : ((s.ang.phase * s.ang.unit : Nat) : Int) ≤ s.ang.wPos := phase_mul_le_wPos
  have ahead : ((s.ang.phase * s.ang.unit : Nat) : Int) ≤ p := Int.ofNat_le.mpr (Nat.mul_le_mul_right _ lo)
  have bound : w < ((stop : Int) + 1) * (s.ang.unit : Nat) := by
    have : w ≤ p := min_le_left _ _
    have : p = stop * (s.ang.unit : Nat) := by simp [p]
    linarith
  have top : (b.phase : Int) ≤ stop := setW_phase_le s.ang unit (by omega) bound
  exact {
    forward := le_setW_phase s.ang unit (n := s.ang.phase) (by omega)
    close := by
      show b.phase ≤ closeAngle
      omega
    later := Nat.le_add_right _ _
    soon := Nat.add_le_add_left (Nat.min_le_left _ _) _
    count := rfl
    st := rfl
    follows := by
      simp only [freeRuns, Bool.or_eq_true, beq_iff_eq, decide_eq_true_eq] at free
      exact free.elim (fun h => .inr (.inl h)) .inl
    others := rfl }

theorem advanceTrack_advances : Advances dt s (advanceTrack s dt) := by
  have unit : 0 < s.ang.unit := by omega
  unfold advanceTrack
  extract_lets a u stop ready p reach need d m w
  subst a
  have lo : s.ang.wPos ≤ w := le_max_left _ _
  have start : ((s.ang.phase * s.ang.unit : Nat) : Int) ≤ s.ang.wPos := phase_mul_le_wPos
  have word : s.ang.wPos < (s.ang.phase + 1) * (u : Nat) := wPos_lt frac
  have atStop : w ≤ max s.ang.wPos p := max_le_max le_rfl ((min_le_right _ _).trans (min_le_left _ _))
  have atLimit : w ≤ max s.ang.wPos (s.ang.limit * (u : Nat)) := max_le_max le_rfl ((min_le_right _ _).trans (min_le_right _ _))
  have below_of {n : Int} (h : (s.ang.phase : Int) ≤ n) {q : Int} (g : q ≤ n * (u : Nat)) (e : w ≤ max s.ang.wPos q) :
      ((s.ang.setW w).phase : Int) ≤ n := by
    refine setW_phase_le s.ang unit (by omega) (lt_of_le_of_lt e (max_lt (lt_of_lt_of_le word ?_) ?_))
    · exact Int.mul_le_mul_of_nonneg_right (by omega) (by omega)
    · have : (0 : Int) < (u : Nat) := by exact_mod_cast unit
      show q < (n + 1) * (u : Nat)
      linarith
  have close : ((s.ang.setW w).phase : Int) ≤ (closeAngle : Nat) := by
    refine below_of (by exact_mod_cast below) ?_ atStop
    exact Int.ofNat_le.mpr (Nat.mul_le_mul_right u (stopPhase_le s))
  have limit : ((s.ang.setW w).phase : Int) ≤ max (s.ang.phase : Int) s.ang.expect := by
    refine below_of (le_max_left _ _) (Int.mul_le_mul_of_nonneg_right ?_ (by omega)) atLimit
    exact (min_le_left _ _).trans (le_max_right _ _)
  exact {
    forward := le_setW_phase s.ang unit (n := s.ang.phase) (by omega)
    close := by exact_mod_cast close
    later := Nat.le_add_right _ _
    soon := by
      refine Nat.add_le_add_left ?_ _
      show d ≤ dt
      unfold d
      split
      · exact Nat.min_le_left _ _
      · exact le_rfl
    count := rfl
    st := rfl
    follows := .inr (.inr (.inr limit))
    others := rfl }

omit below frac in
theorem Advances.angFlags {t : State} (h : Advances dt s t) : Advances dt s (angFlags t) :=
  ⟨h.forward, h.close, h.later, h.soon, h.count, h.st, h.follows, h.others⟩

theorem advance_advances : Advances dt s (advance s dt) := by
  have still : Advances dt s s := addTime_advances dt below (Nat.zero_le dt)
  unfold advance
  split_ifs with held due spent free tracks
  · exact addTime_advances dt below le_rfl
  · exact still
  · exact still
  · exact advanceFree_advances dt below frac free
  · exact (advanceTrack_advances dt below frac).angFlags
  · exact (advanceCount_advances dt below (by simpa using tracks)).angFlags

end

/-- A clock that runs free and has nothing before it but the close angle moves its word at its rate. -/
theorem advance_free {s : State} (dt : Nat) (src : angSrc s = 3) (st : s.ang.st = .locked) (isOpen : s.ang.frameOpen = true)
    (moves : s.ang.revHold = false) (run : s.pwr.st ≠ 2) (none : dueFiring s = none) (due : boundaryDue s = false)
    (ahead : nextFiring s (max s.ang.fired (s.ang.phase + 1)) = Option.none) (rateN : 0 < s.ang.rateN) (rateD : 0 < s.ang.rateD)
    (room : s.ang.phase * s.ang.unit + s.ang.wfrac + 4 * s.ang.rateN * dt ≤ closeAngle * s.ang.unit) :
    (advance s dt).now = s.now + dt ∧ (advance s dt).ang.rateD = s.ang.rateD ∧
      (advance s dt).ang.phase * s.ang.unit + (advance s dt).ang.wfrac =
        s.ang.phase * s.ang.unit + s.ang.wfrac + 4 * s.ang.rateN * dt ∧
      { advance s dt with now := s.now, ang := s.ang } = s := by
  have free : freeRuns s = true := by simp [freeRuns, src]
  have go : advance s dt = advanceFree s dt := by simp [advance, isOpen, moves, run, none, due, st, free]
  have unit : 0 < s.ang.unit := by simp [Ang.unit, rateD]
  rw [go]
  unfold advanceFree
  extract_lets a stop p need d w b
  subst a
  have stopAt : stop = closeAngle := by simp [stop, st, stopPhase, ahead]
  have pAt : p = (closeAngle * s.ang.unit : Nat) := by rw [← stopAt]
  have enough : dt ≤ need := by
    refine le_cdiv_of_mul_le (by omega) ?_
    rw [Nat.max_eq_right (by omega : 1 ≤ 4 * s.ang.rateN), pAt, Ang.wPos]
    omega
  have all : d = dt := Nat.min_eq_left enough
  have wAt : w = (s.ang.phase * s.ang.unit + s.ang.wfrac + 4 * s.ang.rateN * dt : Nat) := by
    unfold w
    rw [all, pAt, Ang.wPos]
    omega
  have position := wPos_setW s.ang (w := w) unit (by omega)
  refine ⟨congrArg (s.now + ·) all, rfl, ?_, rfl⟩
  have : ((b.phase * s.ang.unit + b.wfrac : Nat) : Int) = (s.ang.phase * s.ang.unit + s.ang.wfrac + 4 * s.ang.rateN * dt : Nat) := by
    rw [← wAt]
    exact position
  exact_mod_cast this

end Sys2Proof.Machine
end

section
/-! SUPPORT. The firing of events and pacers (R55, R73 to R75, R79, R126): what each act sets, and what none of them undoes. -/

namespace Sys2Proof.Machine
open Sys2Proof

variable {α : Type}

theorem tget_tmod (d : α) (t : Tbl α) (k j : Nat) (f : α → α) :
    tget d (tmod d t k f) j = if k = j then f (tget d t j) else tget d t j := by
  rw [tmod, tget_tput]
  split
  · next h => rw [h]
  · rfl

/-- What a change of entries keeps of every value, it keeps of the values of a table. -/
theorem tget_foldl_tmod_keeps {P : α → Prop} {f : α → α} (d : α) (h : ∀ x, P x → P (f x)) (l : List Nat) {t : Tbl α} {k : Nat}
    (p : P (tget d t k)) : P (tget d (l.foldl (fun t c => tmod d t c f) t) k) :=
  List.foldlRecOn (motive := fun t => P (tget d t k)) l _ p fun t p c _ => by
    rw [tget_tmod]
    split
    · exact h _ p
    · exact p

/-- What a change makes of every value holds of the entries changed. -/
theorem tget_foldl_tmod_mem {P : α → Prop} {f : α → α} (d : α) (h : ∀ x, P (f x)) {l : List Nat} (t : Tbl α) {k : Nat} (m : k ∈ l) :
    P (tget d (l.foldl (fun t c => tmod d t c f) t) k) := by
  obtain ⟨a, b, rfl⟩ := List.append_of_mem m
  rw [List.foldl_append, List.foldl_cons]
  refine tget_foldl_tmod_keeps d (fun x _ => h x) b ?_
  rw [tget_tmod, if_pos rfl]
  exact h _

/-- The flags that a firing sets: AEVT_INT0, AEVT_INT1, HDG_FLAGS and HDG_OVR. -/
def fireFlags : List Nat := [0x0270, 0x0274, 0x0704, 0x0758]

/-- The fabric but for its cells and the trigger of a capture. -/
def Hdg.still (h : Hdg) : Hdg := { h with cells := [], capTrig := false }

/-- An act of a firing: flags, latches and the trace change, and no flag and no latch is lost. -/
structure Fires (s t : State) : Prop where
  others : { t with regs := s.regs, hdg := s.hdg, trc := s.trc } = s
  hdg : t.hdg.still = s.hdg.still
  regs r : r ∉ fireFlags → rd t r = rd s r
  wf : twf 0 s.regs = true → twf 0 t.regs = true
  flags r n : twf 0 s.regs = true → bit (rd s r) n = true → bit (rd t r) n = true
  strobed c : (cell s c).cur.slat = true → (cell t c).cur.slat = true
  triggered c k : (cell s c).cur.tl.getLsbD k = true → (cell t c).cur.tl.getLsbD k = true

namespace Fires
variable {s t u : State}

theorem refl (s : State) : Fires s s := ⟨rfl, rfl, fun _ _ => rfl, id, fun _ _ _ => id, fun _ => id, fun _ _ => id⟩

theorem trans (h : Fires s t) (g : Fires t u) : Fires s u where
  others := (congrArg (fun y : State => { y with regs := s.regs, hdg := s.hdg, trc := s.trc }) g.others :).trans h.others
  hdg := g.hdg.trans h.hdg
  regs r n := (g.regs r n).trans (h.regs r n)
  wf w := g.wf (h.wf w)
  flags r n w b := g.flags r n (h.wf w) (h.flags r n w b)
  strobed c b := g.strobed c (h.strobed c b)
  triggered c k b := g.triggered c k (h.triggered c k b)

theorem ofTrace (h : OnlyTrace s t) : Fires s t := by
  rw [h.eq]
  exact ⟨rfl, rfl, fun _ _ => rfl, id, fun _ _ _ => id, fun _ => id, fun _ _ => id⟩

/-- A change of cells that loses no latch, and of the trigger of a capture. -/
theorem ofCells (cells : Tbl Cell) (capTrig : Bool)
    (strobed : ∀ c, (cell s c).cur.slat = true → (tget cellZero cells c).cur.slat = true)
    (triggered : ∀ c k, (cell s c).cur.tl.getLsbD k = true → (tget cellZero cells c).cur.tl.getLsbD k = true) :
    Fires s { s with hdg := { s.hdg with cells := cells, capTrig := capTrig } } :=
  ⟨rfl, rfl, fun _ _ => rfl, id, fun _ _ _ => id, strobed, triggered⟩

theorem cw_eq (h : Fires s t) (c w : Nat) : cw t c w = cw s c w :=
  (congrArg (fun x : Hdg => cw { s with hdg := x } c w) h.hdg :)

theorem evtB_eq (h : Fires s t) (n : Nat) : evtB t n = evtB s n := by
  refine h.regs _ ?_
  simp only [fireFlags, evtKey, List.mem_cons, List.not_mem_nil, or_false]
  split <;> omega

end Fires

theorem bit_or (v w : Word) (n : Nat) : bit (v ||| w) n = (bit v n || bit w n) := by simp [bit]

theorem bit_place {n : Nat} (h : n < 32) : bit (place 1 n) n = true := by
  rw [bit, place, Nat.one_mul, BitVec.getLsbD_ofNat, Nat.testBit_two_pow_self, decide_eq_true h, Bool.and_self]

theorem bit_setFlag {s : State} (a : Nat) {n : Nat} (w : twf 0 s.regs = true) (h : n < 32) : bit (rd (setFlag s a n) a) n = true := by
  rw [rd_setFlag_self n w, bit_or, bit_place h, Bool.or_true]

theorem setFlag_fires (s : State) {a : Nat} (n : Nat) (h : a ∈ fireFlags) : Fires s (setFlag s a n) where
  others := rfl
  hdg := rfl
  regs r m := rd_setFlag_ne s n fun e => m (e ▸ h)
  wf w := wr_regs_wf _ _ w
  flags r k w b := by
    by_cases e : a = r
    · subst e
      rw [rd_setFlag_self n w, bit_or, b, Bool.true_or]
    · rwa [rd_setFlag_ne s n e]
  strobed _ := id
  triggered _ _ := id

theorem eventFlag_mem {n : Nat} (h : n < 64) : 0x0270 + 4 * (n / 32) ∈ fireFlags := by
  simp only [fireFlags, List.mem_cons, List.not_mem_nil, or_false]
  omega

/-- An entry that fires, once its interrupt bit is set: the event and the marker of its owner. -/
def entryTraced (s u : State) (n : Nat) : State :=
  let o := fld (evtB s n) 21 2
  let v := if fld (trcCtl u o 0x20) 0 6 = n then traceEvent u o 2 else u
  if bit (evtB s n) 23 then traceAevt v o n (angWord v) else v

theorem entryTraced_only (s u : State) (n : Nat) : OnlyTrace u (entryTraced s u n) := by
  unfold entryTraced
  extract_lets o v
  have event : OnlyTrace u v := OnlyTrace.ite (traceEvent_only u o 2) (.refl u)
  exact OnlyTrace.ite (event.trans (traceChan_only v o 2 0xA _)) event

theorem fireEntry_eq (s : State) (n : Nat) : fireEntry s n =
    entryTraced s (if bit (evtB s n) 20 then setFlag s (0x0270 + 4 * (n / 32)) (n % 32) else s) n := rfl

theorem fireEntry_fires (s : State) {n : Nat} (h : n < 64) : Fires s (fireEntry s n) := by
  rw [fireEntry_eq]
  refine Fires.trans ?_ (.ofTrace (entryTraced_only s _ n))
  split
  · exact setFlag_fires s _ (eventFlag_mem h)
  · exact .refl s

/-- An entry with INT set that fires sets its interrupt bit. -/
theorem bit_fireEntry {s : State} (n : Nat) (w : twf 0 s.regs = true) (int : bit (evtB s n) 20 = true) :
    bit (rd (fireEntry s n) (0x0270 + 4 * (n / 32))) (n % 32) = true := by
  rw [fireEntry_eq, if_pos int, (entryTraced_only s _ n).rd]
  exact bit_setFlag _ w (Nat.mod_lt n (by decide))

/-- Cell `c` selects lane n for its strobe. -/
def selects (s : State) (c n : Nat) : Bool := (cw s c 5).getLsbD 8 && decide (cbits (cw s c 5) 4 4 = n)

/-- A cell with its strobe latch set. -/
def Cell.strobe (x : Cell) : Cell := { x with cur := { x.cur with slat := true } }

/-- The cells, those that select lane n with their strobe latches set. -/
def strobedCells (s : State) (n : Nat) : Tbl Cell :=
  ((List.range 64).filter (fun c => selects s c n)).foldl (fun t c => tmod cellZero t c Cell.strobe) s.hdg.cells

theorem strobedCells_keeps {P : Cell → Prop} (h : ∀ x, P x → P x.strobe) (s : State) (n : Nat) {c : Nat} (p : P (cell s c)) :
    P (tget cellZero (strobedCells s n) c) := tget_foldl_tmod_keeps cellZero h _ p

theorem strobedCells_slat {s : State} {c n : Nat} (h : c < 64) (sel : selects s c n = true) :
    (tget cellZero (strobedCells s n) c).cur.slat = true :=
  tget_foldl_tmod_mem (P := fun x => x.cur.slat = true) cellZero (fun _ => rfl) s.hdg.cells
    (List.mem_filter.mpr ⟨List.mem_range.mpr h, sel⟩)

/-- The device with the strobe latches of the cells that select lane n. -/
def strobeLatched (s : State) (n : Nat) : State := { s with hdg := { s.hdg with cells := strobedCells s n } }

theorem strobeLatched_fires (s : State) (n : Nat) : Fires s (strobeLatched s n) :=
  .ofCells (strobedCells s n) s.hdg.capTrig (fun _ => strobedCells_keeps (P := fun x => x.cur.slat = true) (fun _ _ => rfl) s n)
    fun _ k => strobedCells_keeps (P := fun x => x.cur.tl.getLsbD k = true) (fun _ h => h) s n

theorem strobeLane_latched (s : State) (n : Nat) : Fires (strobeLatched s n) (strobeLane s n) := by
  have flags : Fires (strobeLatched s n) (traceLane (setFlag (setFlag (strobeLatched s n) 0x0758 n) 0x0704 0) n 4 0
      (fillOf (strobeLatched s n) n)) :=
    (setFlag_fires _ n (by decide)).trans ((setFlag_fires _ 0 (by decide)).trans (.ofTrace (traceLane_only _ n 4 0 _)))
  unfold strobeLane
  dsimp only
  split
  · exact flags
  · exact .refl _

theorem strobeLane_fires (s : State) (n : Nat) : Fires s (strobeLane s n) :=
  (strobeLatched_fires s n).trans (strobeLane_latched s n)

/-- A strobe sets the latch of every cell that selects its lane. -/
theorem slat_strobeLane {s : State} {c n : Nat} (h : c < 64) (sel : selects s c n = true) :
    (cell (strobeLane s n) c).cur.slat = true :=
  (strobeLane_latched s n).strobed c (strobedCells_slat h sel)

/-- A cell with its trigger latch k set. -/
def Cell.trigger (k : Nat) (x : Cell) : Cell := { x with cur := { x.cur with tl := x.cur.tl ||| BitVec.ofNat 8 (2 ^ k) } }

/-- The cells with their trigger latches k set. -/
def triggeredCells (s : State) (k : Nat) : Tbl Cell :=
  (List.range 64).foldl (fun t c => tmod cellZero t c (Cell.trigger k)) s.hdg.cells

theorem triggeredCells_keeps {k : Nat} {P : Cell → Prop} (h : ∀ x, P x → P (x.trigger k)) (s : State) {c : Nat}
    (p : P (cell s c)) : P (tget cellZero (triggeredCells s k) c) := tget_foldl_tmod_keeps cellZero h _ p

theorem triggeredCells_tl (s : State) {c k : Nat} (h : c < 64) (hk : k < 8) :
    (tget cellZero (triggeredCells s k) c).cur.tl.getLsbD k = true :=
  tget_foldl_tmod_mem (P := fun x => x.cur.tl.getLsbD k = true) cellZero
    (fun x => by rw [Cell.trigger, BitVec.getLsbD_or, BitVec.getLsbD_ofNat, Nat.testBit_two_pow_self, decide_eq_true hk]; simp)
    s.hdg.cells (List.mem_range.mpr h)

/-- The device with latch k of every cell, and the trigger of a capture that waits for it. -/
def triggerLatched (s : State) (k : Nat) : State :=
  { s with hdg := { s.hdg with
    cells := triggeredCells s k
    capTrig := s.hdg.capTrig || (s.hdg.capArmed && bit (rd s 0x0750) 0 && decide (fld (rd s 0x0750) 1 3 = k)) } }

theorem triggerLatched_fires (s : State) (k : Nat) : Fires s (triggerLatched s k) :=
  .ofCells (triggeredCells s k) _ (fun _ => triggeredCells_keeps (P := fun x => x.cur.slat = true) (fun _ h => h) s)
    fun _ j => triggeredCells_keeps (P := fun x => x.cur.tl.getLsbD j = true)
      (fun x h => by rw [Cell.trigger, BitVec.getLsbD_or, h, Bool.true_or]) s

theorem triggerLine_latched (s : State) (k : Nat) : Fires (triggerLatched s k) (triggerLine s k) := by
  have flags : Fires (triggerLatched s k) (setFlag (setFlag (triggerLatched s k) 0x0758 (16 + k)) 0x0704 1) :=
    (setFlag_fires _ (16 + k) (by decide)).trans (setFlag_fires _ 1 (by decide))
  unfold triggerLine
  dsimp only
  split
  · exact flags
  · exact .refl _

theorem triggerLine_fires (s : State) (k : Nat) : Fires s (triggerLine s k) :=
  (triggerLatched_fires s k).trans (triggerLine_latched s k)

theorem triggerLatched_cells (s : State) (k : Nat) : (triggerLatched s k).hdg.cells = triggeredCells s k := by
  simp only [triggerLatched]

/-- A pulse sets its latch in every cell. -/
theorem tl_triggerLine (s : State) {c k : Nat} (h : c < 64) (hk : k < 8) : (cell (triggerLine s k) c).cur.tl.getLsbD k = true := by
  refine (triggerLine_latched s k).triggered c k ?_
  rw [cell, triggerLatched_cells]
  exact triggeredCells_tl s h hk

/-! A firing as a whole. -/

/-- A loop of such acts is one. -/
theorem forEach_fires {l : List α} {s : State} {f : State → α → State} (step : ∀ u, ∀ a ∈ l, Fires u (f u a)) :
    Fires s (forEach l s f) :=
  List.foldlRecOn (motive := Fires s) l f (.refl s) fun u h a m => h.trans (step u a m)

/-- Each act of the loop takes place, and the others lose nothing of it. -/
theorem forEach_fires_mem {l : List α} {s : State} {f : State → α → State} (step : ∀ u, ∀ a ∈ l, Fires u (f u a)) {a : α}
    (m : a ∈ l) : ∃ u, Fires s u ∧ Fires (f u a) (forEach l s f) := by
  obtain ⟨x, y, rfl⟩ := List.append_of_mem m
  have e : forEach (x ++ a :: y) s f = forEach y (f (forEach x s f) a) f := by
    simp only [forEach, List.foldl_append, List.foldl_cons]
  refine ⟨forEach x s f, forEach_fires fun u b h => step u b (by simp [h]), ?_⟩
  rw [e]
  exact forEach_fires fun u b h => step u b (by simp [h])

/-- What acts at phase p: word B of its entries, and the control words of its pacers. -/
def actsAt (s : State) (p : Nat) : List Word :=
  (eventsAt s p).map (evtB s) ++ ((List.range 4).filter (fun k => pacerAt s k p)).map (fun k => rd s (0x0288 + 16 * k))

/-- The firings below p are done. -/
def firedTo (s : State) (p : Nat) : State := setAng s { s.ang with fired := p + 1 }

/-- The device with the entries of phase p fired. -/
def entriesFired (s : State) (p : Nat) : State := forEach (eventsAt s p) (firedTo s p) fireEntry

/-- A strobe of lane n where one of the words names it. -/
def strobeNamed (ws : List Word) (s : State) (n : Nat) : State := if ws.any (fun w => bit w n) then strobeLane s n else s

/-- A pulse on line l where one of the words names it. -/
def triggerNamed (ws : List Word) (s : State) (l : Nat) : State :=
  if ws.any (fun w => bit w 16 && decide (fld w 17 3 = l)) then triggerLine s l else s

/-- The device with the lanes strobed as well. -/
def lanesStrobed (s : State) (p : Nat) : State := forEach (List.range 16) (entriesFired s p) (strobeNamed (actsAt s p))

theorem fireAt_eq (s : State) (p : Nat) : fireAt s p = forEach (List.range 8) (lanesStrobed s p) (triggerNamed (actsAt s p)) := rfl

theorem strobeNamed_fires (ws : List Word) (s : State) (n : Nat) : Fires s (strobeNamed ws s n) := by
  unfold strobeNamed
  split
  · exact strobeLane_fires s n
  · exact .refl s

theorem triggerNamed_fires (ws : List Word) (s : State) (l : Nat) : Fires s (triggerNamed ws s l) := by
  unfold triggerNamed
  split
  · exact triggerLine_fires s l
  · exact .refl s

theorem mem_eventsAt {s : State} {p n : Nat} :
    n ∈ eventsAt s p ↔ n < 64 ∧ evtOn s s.ang.count48.toNat n = true ∧ fld (evtA s n) 0 20 = p := by
  simp [eventsAt]

theorem mem_actsAt {s : State} {p : Nat} {w : Word}
    (h : (∃ n < 64, evtOn s s.ang.count48.toNat n = true ∧ fld (evtA s n) 0 20 = p ∧ w = evtB s n) ∨
      ∃ k < 4, pacerAt s k p = true ∧ w = rd s (0x0288 + 16 * k)) : w ∈ actsAt s p := by
  rw [actsAt, List.mem_append]
  rcases h with ⟨n, hn, on, at_, rfl⟩ | ⟨k, hk, strobes, rfl⟩
  · exact .inl (List.mem_map_of_mem (mem_eventsAt.mpr ⟨hn, on, at_⟩))
  · exact .inr (List.mem_map.mpr ⟨k, by simp [hk, strobes], rfl⟩)

section
variable (s : State) (p : Nat)

theorem entriesFired_fires : Fires (firedTo s p) (entriesFired s p) :=
  forEach_fires fun u _ m => fireEntry_fires u (mem_eventsAt.mp m).1

theorem lanesStrobed_fires : Fires (entriesFired s p) (lanesStrobed s p) := forEach_fires fun u n _ => strobeNamed_fires _ u n

theorem linesTriggered_fires : Fires (lanesStrobed s p) (fireAt s p) := by
  rw [fireAt_eq]
  exact forEach_fires fun u l _ => triggerNamed_fires _ u l

theorem fireAt_fires : Fires (firedTo s p) (fireAt s p) :=
  (entriesFired_fires s p).trans ((lanesStrobed_fires s p).trans (linesTriggered_fires s p))

variable {s p}

/-- The interrupt bit of an entry with INT. -/
theorem bit_fireAt {n : Nat} (w : twf 0 s.regs = true) (m : n ∈ eventsAt s p) (int : bit (evtB s n) 20 = true) :
    bit (rd (fireAt s p) (0x0270 + 4 * (n / 32))) (n % 32) = true := by
  obtain ⟨u, before, after⟩ := forEach_fires_mem (s := firedTo s p)
    (fun u _ m => fireEntry_fires u (mem_eventsAt.mp m).1) m
  have wu : twf 0 u.regs = true := before.wf w
  have set : bit (rd (fireEntry u n) (0x0270 + 4 * (n / 32))) (n % 32) = true :=
    bit_fireEntry n wu (before.evtB_eq n ▸ int)
  have rest := after.trans ((lanesStrobed_fires s p).trans (linesTriggered_fires s p))
  exact rest.flags _ _ ((fireEntry_fires u (mem_eventsAt.mp m).1).wf wu) set

/-- The strobe latches of the cells that select a lane that an acting word names. -/
theorem slat_fireAt {x : Word} {c n : Nat} (m : x ∈ actsAt s p) (hn : n < 16) (named : bit x n = true) (hc : c < 64)
    (sel : selects s c n = true) : (cell (fireAt s p) c).cur.slat = true := by
  obtain ⟨u, before, after⟩ := forEach_fires_mem (s := entriesFired s p) (fun u n _ => strobeNamed_fires (actsAt s p) u n)
    (List.mem_range.mpr hn)
  have some : (actsAt s p).any (fun w => bit w n) = true := List.any_eq_true.mpr ⟨x, m, named⟩
  have same : selects u c n = true := by
    have e : cw u c 5 = cw s c 5 := ((entriesFired_fires s p).trans before).cw_eq c 5
    rw [selects, e]
    exact sel
  refine (after.trans (linesTriggered_fires s p)).strobed c ?_
  rw [strobeNamed, if_pos some]
  exact slat_strobeLane hc same

/-- The trigger latches of the line that an acting word triggers. -/
theorem tl_fireAt {x : Word} {c : Nat} (m : x ∈ actsAt s p) (named : bit x 16 = true) (hc : c < 64) :
    (cell (fireAt s p) c).cur.tl.getLsbD (fld x 17 3) = true := by
  have hk : fld x 17 3 < 8 := Nat.mod_lt _ (by decide)
  obtain ⟨u, -, after⟩ := forEach_fires_mem (s := lanesStrobed s p) (fun u l _ => triggerNamed_fires (actsAt s p) u l)
    (List.mem_range.mpr hk)
  have some : (actsAt s p).any (fun w => bit w 16 && decide (fld w 17 3 = fld x 17 3)) = true :=
    List.any_eq_true.mpr ⟨x, m, by simp [named]⟩
  refine after.triggered c _ ?_
  rw [triggerNamed, if_pos some]
  exact tl_triggerLine u hc hk

/-- A firing that is due lies between what is done and the word. -/
theorem dueFiring_bounds (h : dueFiring s = some p) : s.ang.fired ≤ p ∧ p ≤ s.ang.phase := by
  unfold dueFiring at h
  split at h
  · split at h
    · next q e =>
      split at h
      · next reached =>
        obtain rfl := Option.some.inj h
        exact ⟨nextFiring_atLeast s _ _ e, reached⟩
      · exact absurd h (by simp)
    · exact absurd h (by simp)
  · exact absurd h (by simp)

theorem execAngleEventFire_due (due : dueFiring s = some p)
    (some : ∃ n < 64, evtOn s s.ang.count48.toNat n = true ∧ fld (evtA s n) 0 20 = p) :
    exec .angleEventFire s = .next (fireAt s p) := by
  obtain ⟨n, hn, on, at_⟩ := some
  have entries : (eventsAt s p).isEmpty = false :=
    List.isEmpty_eq_false_iff.mpr (List.ne_nil_of_mem (mem_eventsAt.mpr ⟨hn, on, at_⟩))
  have e : execAngleEventFire s = .next (fireAt s p) := by simp [execAngleEventFire, due, entries]
  exact e

theorem execPacerStrobe_due (due : dueFiring s = some p) (some : ∃ k < 4, pacerAt s k p = true) :
    exec .pacerStrobe s = .next (fireAt s p) := by
  obtain ⟨k, hk, strobes⟩ := some
  have pacers : (List.range 4).any (fun k => pacerAt s k p) = true := List.any_eq_true.mpr ⟨k, List.mem_range.mpr hk, strobes⟩
  have e : execPacerStrobe s = .next (fireAt s p) := by simp [execPacerStrobe, due, pacers]
  exact e

theorem execAngleEventFire_of_none (h : dueFiring s = none) : exec .angleEventFire s = .next s := by
  have e : execAngleEventFire s = .next s := by simp [execAngleEventFire, h]
  exact e

theorem execPacerStrobe_of_none (h : dueFiring s = none) : exec .pacerStrobe s = .next s := by
  have e : execPacerStrobe s = .next s := by simp [execPacerStrobe, h]
  exact e

end

end Sys2Proof.Machine
end

section
open Sys2Proof Sys2Proof.Machine

/-- Settles O25: the word advances within its limits and at its rate; everything that is due at a phase acts at once, and once. -/
theorem angleWordAndEvents : Obligations.AngleWordAndEvents := by
  unfold Obligations.AngleWordAndEvents
  refine ⟨fun s dt => ⟨?limits, ?rate, ?closed⟩, fun s i w act => ⟨?fires, ?still⟩⟩
  case limits =>
    intro below frac
    have h := advance_advances dt below frac
    exact ⟨_, rfl, h.forward, h.close, h.later, h.soon, h.count, h.st, h.follows, h.others⟩
  case rate =>
    intro src st isOpen moves run none due ahead rateN rateD room
    obtain ⟨now, rate, position, others⟩ := advance_free dt src st isOpen moves run none due ahead rateN rateD room
    exact ⟨_, rfl, now, rate, position, others⟩
  case closed =>
    intro closed
    have e : advance s dt = addTime s dt := by simp [advance, closed]
    exact congrArg Host.Outcome.next e
  case fires =>
    intro p due event pacer acts
    have go : exec i s = .next (fireAt s p) := by
      rcases act with rfl | rfl
      · exact execAngleEventFire_due due (event rfl)
      · exact execPacerStrobe_due due (pacer rfl)
    have fires := fireAt_fires s p
    obtain ⟨done, reached⟩ := dueFiring_bounds due
    refine ⟨_, go, (congrArg State.ang fires.others :), done, reached, fun n hn on at_ int => ?_, fun x hx c hc => ⟨?_, ?_⟩,
      fun r n0 n1 n2 n3 => ?_, (congrArg (fun t : State => { t with ang := s.ang }) fires.others :)⟩
    · exact bit_fireAt w (mem_eventsAt.mpr ⟨hn, on, at_⟩) int
    · exact fun n hn named on sel => slat_fireAt (mem_actsAt hx) hn named hc (by simp [selects, on, sel])
    · exact fun named => tl_fireAt (mem_actsAt hx) named hc
    · exact fires.regs r (by simp [fireFlags, n0, n1, n2, n3])
  case still =>
    intro none
    rcases act with rfl | rfl
    · exact execAngleEventFire_of_none none
    · exact execPacerStrobe_of_none none

end

section
/-! SUPPORT. What a device does before it enters STANDBY: frames shed, the array drained, replies posted, lanes and traces emptied
(R113, R154, R600). -/

namespace Sys2Proof.Machine
open Sys2Proof

/-- Beside the frames, the array, the lanes, posted replies, the trace and registers, `t` is `s`. -/
structure WindsDown (s t : State) : Prop where
  others : { t with
    frm := s.frm, arr := s.arr, smp := s.smp, cnd := { t.cnd with mem := s.cnd.mem }, prt := s.prt, trc := s.trc, regs := s.regs } = s
  opens : t.prt.opens = s.prt.opens

namespace WindsDown
variable {s t u : State}

theorem refl (s : State) : WindsDown s s := ⟨rfl, rfl⟩

theorem trans (h : WindsDown s t) (g : WindsDown t u) : WindsDown s u where
  others := (congrArg (fun y : State => { y with
    frm := s.frm, arr := s.arr, smp := s.smp, cnd := { y.cnd with mem := s.cnd.mem }, prt := s.prt, trc := s.trc, regs := s.regs })
    g.others :).trans h.others
  opens := g.opens.trans h.opens

theorem ofTrace (h : OnlyTrace s t) : WindsDown s t := by
  rw [h.eq]
  exact ⟨rfl, rfl⟩

theorem ang (h : WindsDown s t) : t.ang = s.ang := (congrArg State.ang h.others :)

theorem grp (h : WindsDown s t) : t.grp = s.grp := (congrArg State.grp h.others :)

theorem hdg (h : WindsDown s t) : t.hdg = s.hdg := (congrArg State.hdg h.others :)

theorem boot (h : WindsDown s t) : t.boot = s.boot := (congrArg State.boot h.others :)

theorem member_eq (h : WindsDown s t) : member t = member s := by rw [member, member, h.grp]

/-- The registers of the conductor stand. -/
theorem cnd (h : WindsDown s t) : t.cnd.a = s.cnd.a ∧ t.cnd.d = s.cnd.d ∧ t.cnd.running = s.cnd.running :=
  ⟨(congrArg (fun y : State => y.cnd.a) h.others :), (congrArg (fun y : State => y.cnd.d) h.others :),
    (congrArg (fun y : State => y.cnd.running) h.others :)⟩

end WindsDown

theorem forEach_windsDown {α : Type} {l : List α} {s : State} {f : State → α → State} (step : ∀ u a, WindsDown u (f u a)) :
    WindsDown s (forEach l s f) := forEach_induction (P := WindsDown s) (.refl s) fun u h a => h.trans (step u a)

theorem markOutcome_windsDown (s : State) (a n : Nat) : WindsDown s (markOutcome s a n) := by
  unfold markOutcome
  repeat' split
  all_goals exact ⟨rfl, rfl⟩

theorem modFrame_windsDown (s : State) (c : BitVec 48) (g : Frame → Frame) : WindsDown s (modFrame s c g) := ⟨rfl, rfl⟩

theorem answerSlots_windsDown (s : State) (c : BitVec 48) (p : Slot → Bool) (a b : Nat) : WindsDown s (answerSlots s c p a b) := by
  unfold answerSlots
  split
  · exact .refl s
  · exact (modFrame_windsDown s c _).trans (markOutcome_windsDown _ a _)

theorem toPosting_windsDown (s : State) (c : BitVec 48) : WindsDown s (toPosting s c) := ⟨rfl, rfl⟩

theorem abandonFrame_windsDown (s : State) (a b : Nat) : WindsDown s (abandonFrame s a b) := by
  cases h : ingesting s with
  | none => rw [abandonFrame, h]; exact .refl s
  | some f =>
    exact (answerSlots_windsDown s f.count (fun _ => true) a b).trans
      ((toPosting_windsDown _ f.count).trans (.ofTrace (abandonFrame_of_frame h a b)))

/-! The posting of replies. -/

theorem post_windsDown (s : State) (p : Nat) (e : List Byte) : WindsDown s (post s p e) := by
  unfold post
  split
  · exact WindsDown.trans (t := ringEntry s p e) ⟨rfl, rfl⟩ (.ofTrace (ringPost_only s p e))
  · refine .trans ?_ (.ofTrace (traceRing_only _ p 2 _ _ _ _))
    exact ⟨rfl, rfl⟩

theorem settleKeeper_windsDown (s : State) (key p : Nat) : WindsDown s (settleKeeper s key p) := by
  unfold settleKeeper
  rw [applyKeeper_eq]
  exact ⟨rfl, rfl⟩

section
variable {s : State} (solo : member s = false) (opens : s.prt.opens = [])
include solo opens

theorem postSlot_windsDown (f : Frame) (x : Slot) (a b : Nat) : WindsDown s (postSlot s f x a b) := by
  unfold postSlot
  extract_lets p key _ s1 s2 s3
  have kept : WindsDown s s1 := by
    unfold s1
    split
    · exact settleKeeper_windsDown s key p
    · exact ⟨rfl, rfl⟩
  have done : WindsDown s (settle s3) := (kept.trans (post_windsDown s1 p _)).trans ⟨rfl, rfl⟩
  rwa [abortDone_of_no_opens (done.opens.trans opens), formDone_of_not_member (done.member_eq.trans solo)]

theorem postNext_windsDown (p : Nat) : WindsDown s ((postNext s p).getD s) := by
  unfold postNext
  repeat' split
  · exact .refl s
  · exact postSlot_windsDown solo opens _ _ _ _
  · exact .refl s
  · exact .refl s

theorem postReady_windsDown (n : Nat) : WindsDown s (postReady s n) := by
  induction n generalizing s with
  | zero => exact .refl s
  | succ n ih =>
    have round : WindsDown s (forEach (List.range 4) s fun s p => (postNext s p).getD s) :=
      forEach_induction (P := WindsDown s) (.refl s) fun u h p =>
        h.trans (postNext_windsDown (h.member_eq.trans solo) (h.opens.trans opens) p)
    exact round.trans (ih (round.member_eq.trans solo) (round.opens.trans opens))

end

/-! The shedding of frames. -/

/-- The slots of frame `d` without an outcome are shed, and it goes to POSTING. -/
def shedFrame (s : State) (d : BitVec 48) : State := toPosting (answerSlots s d (fun x => x.outcome.isNone) 0x20 4) d

/-- What becomes of a slot of that frame. -/
def Slot.shed (x : Slot) : Slot := if x.outcome.isNone then x.answer 0x20 4 else x

theorem shedFrame_windsDown (s : State) (d : BitVec 48) : WindsDown s (shedFrame s d) :=
  (answerSlots_windsDown s d _ 0x20 4).trans (toPosting_windsDown _ d)

theorem shedFrame_origin {s : State} {d : BitVec 48} {g : Frame} (m : g ∈ (shedFrame s d).frm.frames) :
    ∃ f ∈ s.frm.frames, g.count = f.count ∧ g.slots = if f.count = d then f.slots.map Slot.shed else f.slots := by
  obtain ⟨h, m, q⟩ := (toPosting_carried _ d).origin g m
  rw [answerSlots_frames, modFrame_frames, List.map_map] at m
  obtain ⟨f, n, rfl⟩ := List.mem_map.mp m
  refine ⟨f, n, q.count.trans ?_, q.slots.trans ?_⟩
  · dsimp only [Function.comp]
    split_ifs <;> rfl
  · dsimp only [Function.comp]
    split_ifs <;> rfl

/-- The slots of the frames numbered `c`. -/
def SlotsAre (c : BitVec 48) (P : Slot → Prop) (s : State) : Prop := ∀ g ∈ s.frm.frames, g.count = c → ∀ x ∈ g.slots, P x

theorem SlotsAre.shedFrame {c : BitVec 48} {P Q : Slot → Prop} {s : State} (h : SlotsAre c P s) (d : BitVec 48)
    (shed : c = d → ∀ x, P x → Q x.shed) (same : c ≠ d → ∀ x, P x → Q x) : SlotsAre c Q (shedFrame s d) := by
  intro g m e x n
  obtain ⟨f, origin, count, slots⟩ := shedFrame_origin m
  have number : f.count = c := count.symm.trans e
  have hf := h f origin number
  rw [slots, number] at n
  split_ifs at n with at_
  · obtain ⟨y, k, rfl⟩ := List.mem_map.mp n
    exact shed at_ y (hf y k)
  · exact same at_ x (hf x n)

/-- The slot is shed, or is still without an outcome. -/
def Slot.shedding (x : Slot) : Prop := x.blank ∨ x.outcome = some (0x20, 4)

theorem Slot.shedding.shed {x : Slot} (h : x.shedding) : x.shed.outcome = some (0x20, 4) := by
  rcases h with h | h
  · rw [Slot.shed, if_pos (by simp [h.1]), h.answer]
  · rw [Slot.shed, if_neg (by simp [h]), h]

/-- A frame among those that are shed has every slot shed in the end. -/
theorem forEach_shedFrame {s : State} {c : BitVec 48} {l : List (BitVec 48)} (m : c ∈ l) (h : SlotsAre c Slot.blank s) :
    SlotsAre c (fun x => x.outcome = some (0x20, 4)) (forEach l s shedFrame) := by
  obtain ⟨x, y, rfl⟩ := List.append_of_mem m
  have split : forEach (x ++ c :: y) s shedFrame = forEach y (shedFrame (forEach x s shedFrame) c) shedFrame := by
    simp only [forEach, List.foldl_append, List.foldl_cons]
  have before : SlotsAre c Slot.shedding (forEach x s shedFrame) :=
    forEach_induction (P := SlotsAre c Slot.shedding) (fun g m e x n => .inl (h g m e x n)) fun _ h d =>
      h.shedFrame d (fun _ _ p => .inr p.shed) fun _ _ p => p
  rw [split]
  exact forEach_induction (before.shedFrame c (fun _ _ p => p.shed) fun n => absurd rfl n) fun _ h d =>
    h.shedFrame d (fun _ _ p => Slot.shedding.shed (.inr p)) fun _ _ p => p

/-- A drain that runs ends at once. -/
def drainOut (s : State) : State :=
  match s.frm.drain with
  | some (_, c) => endDrain (drainArray s) c
  | none => s

theorem drainOut_windsDown (s : State) : WindsDown s (drainOut s) := by
  unfold drainOut
  split <;> exact ⟨rfl, rfl⟩

theorem SlotsAre.drainOut {c : BitVec 48} {P : Slot → Prop} {s : State} (h : SlotsAre c P s) : SlotsAre c P (drainOut s) := by
  unfold Machine.drainOut
  split
  · intro g m e
    obtain ⟨k, moved, q⟩ := (settle_carried _).origin g m
    obtain ⟨f, origin, rfl⟩ := List.mem_map.mp moved
    have number := q.count
    have slots := q.slots
    rw [slots]
    rw [number] at e
    split_ifs at e ⊢ <;> exact h f origin e
  · exact h

/-- The counts of the frames that wait for their computation. -/
def waitingFrames (s : State) : List (BitVec 48) :=
  (s.frm.frames.filter (fun f => f.st = .closed ∨ f.st = .computing)).map (fun f => f.count)

theorem shedAll_eq {s : State} (idle : s.frm.comp = none) : shedAll s =
    (let u := if (ingesting s).isSome then abandonFrame s 0x20 4 else s
     drainOut (forEach (waitingFrames u) u shedFrame)) := by
  have same : endComp s 0x20 4 [] = s := by rw [endComp, idle]
  rw [shedAll, same]
  rfl

theorem shedAll_windsDown {s : State} (idle : s.frm.comp = none) : WindsDown s (shedAll s) := by
  rw [shedAll_eq idle]
  refine WindsDown.trans ?_ ((forEach_windsDown shedFrame_windsDown).trans (drainOut_windsDown _))
  split
  · exact abandonFrame_windsDown s 0x20 4
  · exact .refl s

/-- A closed frame that had not been computed is shed. -/
theorem shedAll_sheds {s : State} {f : Frame} (idle : s.frm.comp = none) (none : ingesting s = Option.none) (m : f ∈ s.frm.frames)
    (st : f.st = .closed) (blank : SlotsAre f.count Slot.blank s) :
    SlotsAre f.count (fun x => x.outcome = some (0x20, 4)) (shedAll s) := by
  have waits : f.count ∈ waitingFrames s := List.mem_map_of_mem (List.mem_filter.mpr ⟨m, by simp [st]⟩)
  rw [shedAll_eq idle, none]
  exact (forEach_shedFrame waits blank).drainOut

end Sys2Proof.Machine
end

section
/-! SUPPORT. The power states (R80, R112, R113, R505, R691 to R693): entry and exit on a device with no command that awaits its
completion. -/

namespace Sys2Proof.Machine
open Sys2Proof

theorem powerDone_of_no_opens {s : State} (h : s.prt.opens = []) (t : Nat) : powerDone s t = s := by simp [powerDone, finishWait, h]

theorem powerNext_of_no_opens {s : State} (h : s.prt.opens = []) (n : Nat) : powerNext n s = s := by
  cases n with
  | zero => rfl
  | succ n => simp [powerNext, h]

theorem orderedTo_of_pend {s : State} {t : Nat} (pend : s.pwr.pend = true) (target : s.pwr.target = t) : orderedTo s t = true := by
  simp [orderedTo, pend, target]

/-- The device in state `st` of DOZE or RUN, with the conductor's clock at `clk` and the array's clock running or not. -/
def inPower (s : State) (st clk : Nat) (run : Bool) : State :=
  { s with pwr := { s.pwr with st := st, pend := false, exiting := false, cndClk := clk, arrRun := run } }

/-- No command waits for the entry, and none orders another state. -/
theorem inPower_settles {s : State} (opens : s.prt.opens = []) (st clk : Nat) (run : Bool) :
    powerNext 4 (powerDone (inPower s st clk run) st) = inPower s st clk run := by
  have none : (inPower s st clk run).prt.opens = [] := opens
  rw [powerDone_of_no_opens none, powerNext_of_no_opens none]

/-- A drained device in RUN enters DOZE at once. -/
theorem execDozeEntry_of_drained {s : State} (order : orderedTo s 1 = true) (run : s.pwr.st = 0) (drained : s.frm.drained = true)
    (idle : arrayBusy s = false) (none : ∀ f ∈ s.frm.frames, f.st ≠ .computing) (opens : s.prt.opens = []) :
    exec .dozeEntry s = .next (inPower s 1 25 false) := by
  have calm : noneComputing s = true := List.all_eq_true.mpr fun f m => decide_eq_true (none f m)
  have guard : (orderedTo s 1 && decide (s.pwr.st = 0) && s.frm.drained && !arrayBusy s && noneComputing s) = true := by
    simp [order, run, drained, idle, calm]
  have e : execDozeEntry s = .next (powerNext 4 (powerDone (inPower s 1 25 false) 1)) := congrArg Host.Outcome.next (if_pos guard)
  exact e.trans (congrArg Host.Outcome.next (inPower_settles opens 1 25 false))

theorem execDozeEntry_of_undrained {s : State} (drained : s.frm.drained = false) : exec .dozeEntry s = .next s := by
  have e : execDozeEntry s = .next s := by simp [execDozeEntry, drained]
  exact e

theorem execDozeExitComplete_of_doze {s : State} (order : orderedTo s 0 = true) (doze : s.pwr.st = 1) (opens : s.prt.opens = []) :
    exec .dozeExitComplete s = .next (inPower s 0 (targetClk s) true) := by
  have guard : (orderedTo s 0 && decide (s.pwr.st = 1)) = true := by simp [order, doze]
  have e : execDozeExitComplete s = .next (powerNext 4 (powerDone (inPower s 0 (targetClk s) true) 0)) :=
    congrArg Host.Outcome.next (if_pos guard)
  exact e.trans (congrArg Host.Outcome.next (inPower_settles opens 0 (targetClk s) true))

/-! STANDBY. -/

theorem groupPorts_of_solo {s : State} (role : s.grp.role = 0) (st : PortState) : groupPorts s st = s := by
  simp [groupPorts, grouped, role]

theorem dropLanes_windsDown (s : State) : WindsDown s (dropLanes s) := by
  unfold dropLanes
  dsimp only
  split <;> exact ⟨rfl, rfl⟩

theorem dropLanes_lanes (s : State) : (dropLanes s).smp.lanes = [] := by
  unfold dropLanes
  dsimp only
  split <;> rfl

theorem dropLanes_frm (s : State) : (dropLanes s).frm = s.frm := by
  unfold dropLanes
  dsimp only
  split <;> rfl

/-- The replies are posted, the lanes emptied and the traces stopped. -/
def quieted (s : State) : State := forEach (List.range 4) (dropLanes (postReady s 16)) fun s p => stopChans s p 0xF 4

/-- The device as STANDBY is entered from it, ready to lose its clocks. -/
def woundDown (s : State) : State := quieted (shedAll s)

theorem quieted_only (s : State) : OnlyTrace (dropLanes (postReady s 16)) (quieted s) := by
  unfold quieted
  exact forEach_induction (P := OnlyTrace (dropLanes (postReady s 16))) (.refl _) fun u h p => h.trans (stopChans_only u p 0xF 4)

theorem woundDown_lanes (s : State) : (woundDown s).smp.lanes = [] := by
  have kept := (congrArg (fun y : State => y.smp.lanes) (quieted_only (shedAll s)) :)
  exact kept.trans (dropLanes_lanes _)

theorem woundDown_frm (s : State) : (woundDown s).frm = (postReady (shedAll s) 16).frm := by
  rw [woundDown, (quieted_only _).frm, dropLanes_frm]

section
variable {s : State} (role : s.grp.role = 0) (opens : s.prt.opens = []) (idle : s.frm.comp = none)
include role opens idle

theorem woundDown_windsDown : WindsDown s (woundDown s) := by
  have shed := shedAll_windsDown idle
  have posts := postReady_windsDown (shed.member_eq.trans (member_of_solo role)) (shed.opens.trans opens) 16
  exact shed.trans (posts.trans ((dropLanes_windsDown _).trans (.ofTrace (quieted_only _))))

/-- A closed frame that had not been computed is answered SHED 4. -/
theorem woundDown_sheds {f : Frame} (none : ingesting s = Option.none) (m : f ∈ s.frm.frames) (st : f.st = .closed)
    (blank : SlotsAre f.count Slot.blank s) : SlotsAre f.count (fun x => x.outcome = some (0x20, 4)) (woundDown s) := by
  have shed := shedAll_windsDown idle
  have posts := postReady_posts (shed.member_eq.trans (member_of_solo role)) (shed.opens.trans opens) 16
  have done := shedAll_sheds idle none m st blank
  intro g m e
  rw [woundDown_frm] at m
  obtain ⟨h, origin, p⟩ := posts.frames.origin g m
  exact p.outcome (done h origin (p.count.symm.trans e))

end

/-- The device in STANDBY, entered from `u` with the angle word `w` shown and these pin levels held. -/
def inStandby (u : State) (w : Word) (pins : BitVec 40) : State :=
  { u with
    hdg := { u.hdg with fioHeld := pins, ports := [] },
    ang := { u.ang with frameOpen := false, heldWord := some w },
    scb := { u.scb with pass := none, late := false },
    pwr := { u.pwr with st := 2, pend := false, exiting := false, arrRun := false, cndClk := 0 } }

theorem execStandbyEntry_of_solo {s : State} (t : Nat) (pins : BitVec 40) (order : orderedTo s 2 = true) (on : s.pwr.st ≠ 2)
    (role : s.grp.role = 0) (opens : s.prt.opens = []) (idle : s.frm.comp = none) :
    ∃ held, exec (.standbyEntry t pins) s = .next (inStandby (woundDown s) (angWord s) held) := by
  have winds := woundDown_windsDown role opens idle
  have role' : (woundDown s).grp.role = 0 := by rw [winds.grp, role]
  have done := powerDone_of_no_opens (winds.opens.trans opens) 2
  have solo : grouped (woundDown s) = false := by simp [grouped, role']
  refine ⟨heldLevels (woundDown s) t pins, ?_⟩
  have e : execStandbyEntry t pins s = .next (inStandby (woundDown s) (angWord s) (heldLevels (woundDown s) t pins)) := by
    unfold execStandbyEntry
    extract_lets w s1 s2 s3 grp s4 ang hdg scb pwr s5
    have e2 : s2 = postReady (shedAll s) 16 := if_neg (by rw [role]; decide)
    have e3 : s3 = woundDown s := by
      unfold s3
      rw [e2, ← quieted]
      exact done
    have e4 : s4 = woundDown s := by
      unfold s4 grp
      rw [e3, solo, Bool.or_false]
      exact groupPorts_of_solo role' .down
    have e5 : enterPower s5 2 = inStandby (woundDown s) (angWord s) (heldLevels (woundDown s) t pins) := by
      unfold s5 ang hdg scb pwr
      rw [e4]
      rfl
    rw [if_pos (by simp [order, on]), e5]
  exact e

/-! Its end. -/

theorem fullPass_of_no_pass {s : State} (h : passesRun s = false) : fullPass s = s := by simp [fullPass, h]

theorem wakeSupplies_of_solo {s : State} (role : s.grp.role = 0) : wakeSupplies s = s.pwr.supplies.getLsbD 2 := by
  simp [wakeSupplies, grouped, role]

/-- The device that leaves STANDBY, its array and its sample store cleared. -/
def awake (s : State) : State :=
  { drainArray s with
    smp := Smp.reset, frm := { s.frm with drain := none, drained := true },
    pwr := { s.pwr with
      st := s.pwr.target, pend := false, exiting := false, arrRun := decide (s.pwr.target = 0),
      cndClk := if s.pwr.target = 0 then targetClk s else 25 } }

theorem execStandbyExitComplete_of_supplied {s : State} (standby : s.pwr.st = 2) (leaves : s.pwr.exiting = true)
    (role : s.grp.role = 0) (opens : s.prt.opens = []) (still : passesRun (enterPower s s.pwr.target) = false)
    (supplied : s.pwr.supplies.getLsbD 2 = true) (target : s.pwr.target < 2) (en : angEn s = true) :
    exec .standbyExitComplete s = .next (acquire (awake s)) := by
  have ready : s.pwr.st = 2 ∧ s.pwr.exiting = true ∧ wakeSupplies s = true ∧ s.pwr.target ≠ 2 :=
    ⟨standby, leaves, (wakeSupplies_of_solo role).trans supplied, by omega⟩
  have e : execStandbyExitComplete s = .next (acquire (awake s)) := by
    unfold execStandbyExitComplete
    rw [if_pos ready]
    extract_lets t s1 drained frm pwr s2 s3 s4 grp s5
    have e1 : s1 = enterPower s s.pwr.target := fullPass_of_no_pass still
    have e2 : s2 = awake s := by
      unfold s2 drained frm pwr
      rw [e1]
      rfl
    have e3 : s3 = acquire (awake s) := by
      unfold s3
      rw [e2]
      exact if_pos en
    have e4 : s4 = acquire (awake s) := by
      unfold s4
      rw [e3]
      exact groupPorts_of_solo (s := acquire (awake s)) role .training
    have e5 : s5 = acquire (awake s) := by
      unfold s5
      rw [e4, if_neg (by rw [show (acquire (awake s)).grp.role = 0 from role]; decide)]
    rw [e5, powerDone_of_no_opens (s := acquire (awake s)) opens, powerNext_of_no_opens (s := acquire (awake s)) opens]
  exact e

section
variable {s : State} (role : s.grp.role = 0) (low : s.pwr.supplies.getLsbD 2 = false)
include role low

theorem execStandbyExitComplete_of_unsupplied : exec .standbyExitComplete s = .next s := by
  have waits : wakeSupplies s = false := (wakeSupplies_of_solo role).trans low
  have e : execStandbyExitComplete s = .next s := by simp [execStandbyExitComplete, waits]
  exact e

theorem execSupplyWaitTimeout_late (standby : s.pwr.st = 2) (leaves : s.pwr.exiting = true)
    (late : s.pwr.orderAt + 2000000 ≤ s.now) : exec .supplyWaitTimeout s = .next (resetEntry s 7) := by
  have waits : wakeSupplies s = false := (wakeSupplies_of_solo role).trans low
  have e : execSupplyWaitTimeout s = .next (resetEntry s 7) :=
    congrArg Host.Outcome.next (if_pos ⟨standby, leaves, by simp [waits], late⟩)
  exact e

omit role low in
theorem execSupplyWaitTimeout_early (early : s.now < s.pwr.orderAt + 2000000) : exec .supplyWaitTimeout s = .next s := by
  have e : execSupplyWaitTimeout s = .next s :=
    congrArg Host.Outcome.next (if_neg fun h => absurd h.2.2.2 (Nat.not_le.mpr early))
  exact e

end

/-- A reset holds the device, with its cause, until it boots. -/
theorem resetEntry_boot (s : State) (cause : Nat) : (resetEntry s cause).boot.inReset = true ∧
    (resetEntry s cause).boot.cause = cause ∧ (resetEntry s cause).boot.ready = false := ⟨rfl, rfl, rfl⟩

end Sys2Proof.Machine
end

section
open Sys2Proof Sys2Proof.Machine

/-- Settles O28: DOZE and STANDBY are entered and left as R112, R113 and R691 to R693 say, and a return whose supplies stay out of range
resets the device. -/
theorem powerStates : Obligations.PowerStates := by
  unfold Obligations.PowerStates
  intro s w pend
  refine ⟨?doze, ?waits, ?leaves, ?standby, ?wakes⟩
  case doze => exact fun target run drained idle none opens =>
    execDozeEntry_of_drained (orderedTo_of_pend pend target) run drained idle none opens
  case waits => exact fun _ _ drained => execDozeEntry_of_undrained drained
  case leaves => exact fun target doze opens => execDozeExitComplete_of_doze (orderedTo_of_pend pend target) doze opens
  case standby =>
    intro t pins target on role opens idle
    obtain ⟨held, e⟩ := execStandbyEntry_of_solo t pins (orderedTo_of_pend pend target) on role opens idle
    have winds := woundDown_windsDown role opens idle
    obtain ⟨a, d, running⟩ := winds.cnd
    refine ⟨_, e, rfl, rfl, rfl, rfl, rfl, rfl, ?_, ?_, rfl, woundDown_lanes s, ?_, a, d, running, winds.boot, fun f m st none blank => ?_⟩
    · exact (congrArg Ang.pos winds.ang :)
    · exact (congrArg Ang.count48 winds.ang :)
    · exact (congrArg Hdg.cells winds.hdg :)
    · exact woundDown_sheds role opens idle none m st blank
  case wakes =>
    intro standby leaves role opens still
    refine ⟨fun supplied target en => ?_, fun low => ⟨?_, fun late => ?_, execSupplyWaitTimeout_early⟩⟩
    · exact ⟨_, execStandbyExitComplete_of_supplied standby leaves role opens still supplied target en, rfl, rfl, rfl, rfl, rfl, rfl, rfl,
        rfl, rfl, rfl, rfl⟩
    · exact execStandbyExitComplete_of_unsupplied role low
    · exact ⟨_, execSupplyWaitTimeout_late role low standby leaves late, resetEntry_boot s 7⟩

end

section
/-! SUPPORT. FP_SET at the partition number that no device has. `Takes` leaves the order's partition open: the ring of partition 236 is
configured by FLT_FIRST, which the report of a reserved field writes. -/

namespace Sys2Proof.Machine
open Sys2Proof

/-- A running device to which `strayOrder` is submitted as an FP_SET of FP16: the entry in conductor memory, the right to frame
programs at 1 for the partition (0x0DC0), a reply ring of 2,048 entries (0x0E10), of which 100 are in use. -/
def strayFpSet : State :=
  { strayState with
    regs := [(0x0DC0, 0x100), (0x0E10, 0x70)]
    cnd := { strayState.cnd with mem := [(0x20760000, 1), (0x20760001, 2), (0x20760004, 4), (0x20760010, 16)] } }

theorem strayFpSet_takes : Takes strayFpSet strayOrder 0x0201 4 0 := by
  unfold Takes isNext header
  decide

/-- FP16 is no frame program, and the partition has the right. -/
theorem strayFpSet_names_none : 16 ≤ param strayFpSet strayOrder 0 1 ∧ hasRight strayFpSet strayOrder.part 0 = true := by decide

/-- RESERVED_FIELD is the first fault of the device, so FLT_FIRST takes its index: the ring shrinks to 16 entries, is full, and the
reply is held. -/
theorem strayFpSet_holds_reply :
    exec .cmdFpSet strayFpSet = .next (dispatch cardFpSet strayFpSet) ∧
      tget 0 (dispatch cardFpSet strayFpSet).prt.rqTail 236 = 100 := ⟨rfl, by decide⟩

end Sys2Proof.Machine
end

section
open Sys2Proof Sys2Proof.Machine

/-- Refutes O41: it lets the order's partition be any number, and at 236 the report of the reserved field shrinks the reply ring that
the reply should enter, so FP_SET of FP16 leaves its refusal held and TAIL at 100. -/
theorem not_frameProgramCommands : ¬ Obligations.FrameProgramCommands := by
  unfold Obligations.FrameProgramCommands
  intro h
  obtain ⟨rows, -⟩ := h strayFpSet strayOrder
  obtain ⟨-, -, unnamed, -⟩ := rows (0x0201, .cmdFpSet) (by simp) 0 strayFpSet_takes rfl rfl
  obtain ⟨none, right⟩ := strayFpSet_names_none
  obtain ⟨ran, tail⟩ := strayFpSet_holds_reply
  have advanced := tail_of_performs (unnamed none right) ran rfl
  have posted : (tget 0 (reservedField (takeSub strayFpSet strayOrder) 0x0201 1).prt.rqTail 236 + 1) % 65536 = 101 := by decide
  exact absurd (tail.symm.trans (advanced.trans posted)) (by decide)

end

section
/-! SUPPORT. The start of a program (R92, R93, R226 to R231, R243, R369): the computation takes the array, and the handler starts. -/

namespace Sys2Proof.Machine
open Sys2Proof

/-- The handler of FPk for the frame `f`, started in `t` from `s` (R369): its registers, firmware's own saved, and the limit of its
stack. -/
structure HandlerStarts (s : State) (f : Frame) (fp : Nat) (t : State) : Prop where
  handler : ∃ h, t.cnd.handler = some h ∧ h.fp = fp ∧ h.part = fpPart fp ∧ h.budget = (prog s fp).h ∧ h.up = none
  pc : t.cnd.pc = BitVec.ofNat 32 (codeAddr s fp (prog s fp).hentry)
  keeper : aReg t 0 = BitVec.ofNat 32 (keepArea s (fpPart fp)).1
  exchange : aReg t 1 = BitVec.ofNat 32 (xchArea s (fpPart fp)).1
  records : aReg t 2 = BitVec.ofNat 32 (halfBase f.half)
  stack : aReg t 7 = BitVec.ofNat 32 ((stkArea s (fpPart fp)).1 + (stkArea s (fpPart fp)).2)
  aRest i : i ∈ [3, 4, 5, 6] → aReg t i = 0
  countLow : dReg t 0 = BitVec.ofNat 32 f.count.toNat
  countHigh : dReg t 1 = BitVec.ofNat 32 (f.count.toNat / 2 ^ 32)
  marks : dReg t 2 = startD2 f fp
  dRest i : 3 ≤ i → i < 16 → dReg t i = 0
  kRegs i : i < 4 → kReg t i = 0
  fRegs i : i < 16 → fReg t i = 0
  loop : t.cnd.lc = 0
  saved : t.cnd.fw = some (saveFw s.cnd)
  mem : t.cnd.mem = s.cnd.mem
  limit : twf 0 s.regs = true → rd t 0x0638 = BitVec.ofNat 32 (stkArea s (fpPart fp)).1
  regs r : r ≠ 0x0638 → rd t r = rd s r
  others : { t with cnd := s.cnd, regs := s.regs, trc := s.trc } = s

theorem ofNat_halfBase (half : Bool) : BitVec.ofNat 32 (halfBase half) = if half then 0x70040000 else 0x70000000 := by
  cases half <;> rfl

theorem startD2_eq (f : Frame) (fp : Nat) : startD2 f fp =
    BitVec.ofNat 32 (fp + 16 * fpPart fp) ||| flag f.coasted 8 ||| flag f.reversed 9 ||| flag f.overspeed 10 := by
  rw [startD2, Nat.mul_comm]

theorem getD_ofFn_low_zero (v : Vector Word 64) {j : Nat} (h : j < 56) :
    (Vector.ofFn (fun i : Fin 64 => if i.val < 56 then (0 : Word) else v[i])).toList.getD j 0 = 0 := by
  rw [List.getD_eq_getElem?_getD]
  simp [show j < 64 by omega, h]

/-- In window 0 the registers D8 to D15 of cleared windows are 0. -/
theorem dReg_window_zero {t : State} {v : Vector Word 64} (win : t.cnd.win = Vector.ofFn (fun i : Fin 64 => if i.val < 56 then 0 else v[i]))
    (wp : t.cnd.wp = 0x100) {i : Nat} (lo : 8 ≤ i) (hi : i < 16) : dReg t i = 0 := by
  have first : cwp t = 0 := by rw [cwp, wp]; decide
  rw [dReg, if_neg (by omega), winIx, first, win]
  exact getD_ofFn_low_zero v (by omega)

theorem startHandler_starts (s : State) (f : Frame) (fp : Nat) : HandlerStarts s f fp (startHandler s f fp) := by
  unfold startHandler
  extract_lets q c stk pc w a d s1
  have only := (traceProgEvent_only s1 fp 5).trans (traceCnd_only _ fp 3 (pc / 4 % 2 ^ 30 + fp * 2 ^ 32) pc)
  obtain ⟨T, e⟩ : ∃ T, traceCnd (traceProgEvent s1 fp 5) fp 3 (pc / 4 % 2 ^ 30 + fp * 2 ^ 32) pc = { s1 with trc := T } :=
    ⟨_, only.eq⟩
  rw [e]
  refine ⟨⟨_, rfl, rfl, rfl, rfl, rfl⟩, rfl, rfl, rfl, rfl, rfl, ?aRest, rfl, rfl, rfl, ?dRest, ?kRegs, ?fRegs, rfl, rfl, rfl,
    fun wf => ?limit, fun r h => ?regs, rfl⟩
  case aRest =>
    intro i h
    fin_cases h <;> rfl
  case dRest =>
    intro i lo hi
    by_cases h : i < 8
    · interval_cases i <;> rfl
    · exact dReg_window_zero (v := c.win) (by simp only [s1, wr_cnd, c]) rfl (by omega) hi
  case kRegs =>
    intro i h
    interval_cases i <;> rfl
  case fRegs =>
    intro i h
    interval_cases i <;> rfl
  case limit => exact rd_wr_self _ wf
  case regs => exact rd_wr_ne _ _ (Ne.symm h)

/-- The frames once the program FPk of frame `c` has started (R85, R92). -/
def markStarted (c : BitVec 48) (fp : Nat) (fs : List Frame) : List Frame :=
  fs.map fun g => if g.count = c then
    { g with st := .computing, owed := true, slots := g.slots.map fun y => if y.fp = fp then { y with started := true } else y } else g

theorem markStarted_spec {c : BitVec 48} {fp : Nat} {fs : List Frame} {g : Frame} (m : g ∈ markStarted c fp fs) (h : g.count = c) :
    g.st = .computing ∧ ∀ y ∈ g.slots, y.fp = fp → y.started = true := by
  obtain ⟨g0, -, rfl⟩ := List.mem_map.mp m
  by_cases h0 : g0.count = c
  · rw [if_pos h0]
    refine ⟨rfl, fun y my hy => ?_⟩
    obtain ⟨y0, -, rfl⟩ := List.mem_map.mp my
    by_cases hf : y0.fp = fp
    · rw [if_pos hf]
    · rw [if_neg hf] at hy
      exact absurd hy hf
  · rw [if_neg h0] at h
    exact absurd h h0

/-- The computation of FPk for frame `c` has the array of `t`, as the program finds it (R93, R226, R227, R231, R234, R243). -/
structure Begun (s : State) (c : BitVec 48) (fp : Nat) (t : State) : Prop where
  comp : ∃ k, t.frm.comp = some k ∧ k.fp = fp ∧ k.count = c ∧ k.handlerDone = false
  drained : t.frm.drained = false
  frames : t.frm.frames = markStarted c fp s.frm.frames
  progs : t.frm.progs = s.frm.progs
  fresh : t.arr.pp = [] ∧ t.arr.rm = 0 ∧ t.arr.queue = [] ∧ t.arr.qres = 0 ∧ t.arr.retired = 0
  allow : t.arr.allow = allowOf s (prog s fp)
  bandsOn : t.arr.bandsOn = BitVec.ofNat 8 (prog s fp).bands
  planes : t.arr.planes = s.arr.planes
  wf : twf 0 s.regs = true → twf 0 t.regs = true
  regs r : r ≠ 0x010C → rd t r = rd s r
  others : { t with frm := s.frm, arr := s.arr, regs := s.regs } = s

/-- The clock of a computation is noted: beside its mark only the flag of PWR_FLAGS may change (R698). -/
theorem noteClock_of_comp {s : State} {k : Comp} (h : s.frm.comp = some k) : ∃ b R,
    noteClock s = { s with frm := { s.frm with comp := some { k with fromClock := b } }, regs := R } ∧
      (twf 0 s.regs = true → twf 0 R = true) ∧ ∀ r, r ≠ 0x010C → tget 0 R r = rd s r := by
  unfold noteClock
  rw [h]
  by_cases slow : s.pwr.arrClk < 200
  · exact ⟨true, _, if_pos slow, wr_regs_wf _ _, fun r n => rd_setFlag_ne s 1 (Ne.symm n)⟩
  · refine ⟨k.fromClock, s.regs, ?_, id, fun _ _ => rfl⟩
    dsimp only
    rw [if_neg slow, ← h]

/-- The computation of FPk for frame `f` stands as the one that runs, before the clock is noted. -/
def claimed (s : State) (f : Frame) (fp : Nat) : State :=
  { s with frm := { s.frm with
    frames := markStarted f.count fp s.frm.frames
    comp := some { fp := fp, count := f.count, fault := none, fromClock := false, handlerDone := false }
    drained := false, drainChk := false, kstage := tdel s.frm.kstage (fpPart fp) } }

/-- The array is that computation's. -/
def programBegun (s : State) (f : Frame) (fp : Nat) : State := loadProgram (noteClock (claimed s f fp)) fp

theorem programBegun_begun (s : State) (f : Frame) (fp : Nat) : Begun s f.count fp (programBegun s f fp) := by
  obtain ⟨b, R, e, wf, regs⟩ := noteClock_of_comp (s := claimed s f fp) rfl
  rw [programBegun, e]
  exact ⟨⟨_, rfl, rfl, rfl, rfl⟩, rfl, rfl, rfl, ⟨rfl, rfl, rfl, rfl, rfl⟩, rfl, rfl, rfl, wf, regs, rfl⟩

theorem startProgram_of_checked {s : State} (f : Frame) (fp : Nat) (checked : s.frm.drainChk = false) :
    startProgram s f fp = startHandler (programBegun s f fp) f fp := if_neg (by rw [checked]; decide)

section
variable {s t : State} {c : BitVec 48} {fp : Nat} (h : Begun s c fp t)
include h

theorem Begun.prog_eq (k : Nat) : prog t k = prog s k := by rw [prog, prog, h.progs]

theorem Begun.cnd : t.cnd = s.cnd := (congrArg State.cnd h.others :)

theorem Begun.dataArea_eq {a : Nat} (q : Nat) (low : 0x010C < a) : dataArea t a q = dataArea s a q := by
  rw [dataArea, dataArea, h.regs _ (by omega)]

theorem Begun.codeAddr_eq (k off : Nat) : codeAddr t k off = codeAddr s k off := by
  rw [codeAddr, codeAddr, codeArea, codeArea, h.regs _ (by omega), h.prog_eq]

/-- The handler of a computation that has begun starts as it would from the state before. -/
theorem Begun.handlerStarts (f : Frame) :
    let u := startHandler t f fp
    (∃ g, u.cnd.handler = some g ∧ g.fp = fp ∧ g.part = fpPart fp ∧ g.budget = (prog s fp).h ∧ g.up = none) ∧
      u.cnd.pc = BitVec.ofNat 32 (codeAddr s fp (prog s fp).hentry) ∧
      aReg u 0 = BitVec.ofNat 32 (keepArea s (fpPart fp)).1 ∧ aReg u 1 = BitVec.ofNat 32 (xchArea s (fpPart fp)).1 ∧
      aReg u 7 = BitVec.ofNat 32 ((stkArea s (fpPart fp)).1 + (stkArea s (fpPart fp)).2) ∧
      (twf 0 s.regs = true → rd u 0x0638 = BitVec.ofNat 32 (stkArea s (fpPart fp)).1) ∧ u.cnd.fw = some (saveFw s.cnd) ∧
      u.cnd.mem = s.cnd.mem := by
  have H := startHandler_starts t f fp
  obtain ⟨g, hg, hfp, hpart, hbudget, hup⟩ := H.handler
  have stk : stkArea t (fpPart fp) = stkArea s (fpPart fp) := h.dataArea_eq _ (by decide)
  refine ⟨⟨g, hg, hfp, hpart, ?_, hup⟩, ?_, ?_, ?_, ?_, fun wf => ?_, ?_, ?_⟩
  · rw [hbudget, h.prog_eq]
  · rw [H.pc, h.codeAddr_eq, h.prog_eq]
  · rw [H.keeper, keepArea, h.dataArea_eq _ (by decide), ← keepArea]
  · rw [H.exchange, xchArea, h.dataArea_eq _ (by decide), ← xchArea]
  · rw [H.stack, stk]
  · rw [H.limit (h.wf wf), stk]
  · rw [H.saved, h.cnd]
  · rw [H.mem, h.cnd]

end

theorem execProgramStart_of_next {s : State} {f : Frame} {x : Slot} (next : nextStart s = some (f, x)) (drained : s.frm.drained = true)
    (idle : arrayBusy s = false) (run : s.pwr.st = 0) (firmware : s.cnd.running = true) (here : s.grp.retired = false)
    (checked : s.frm.drainChk = false) : exec .programStart s = .next (startHandler (programBegun s f x.fp) f x.fp) := by
  rw [← startProgram_of_checked f x.fp checked]
  show execProgramStart s = _
  simp [execProgramStart, drained, idle, run, firmware, here, next]

theorem execProgramStart_of_none {s : State} (h : nextStart s = none ∨ s.frm.drained = false ∨ s.pwr.st ≠ 0) :
    exec .programStart s = .next s := by
  show execProgramStart s = _
  rcases h with none | undrained | off
  · simp [execProgramStart, none]
  · simp [execProgramStart, undrained]
  · simp [execProgramStart, off]

end Sys2Proof.Machine
end

section
/-! SUPPORT. The drain (R94 to R97, R198, R212, R224): what it leaves, and the columns that its read-back finds. -/

namespace Sys2Proof.Machine
open Sys2Proof

theorem ringPut_notes (s : State) (r : LogRec) : (ringPut s r).flt.notes = s.flt.notes := by
  unfold ringPut
  repeat' split
  all_goals rfl

theorem hourPut_notes (s : State) (r : LogRec) : (hourPut s r).flt.notes = s.flt.notes := by
  unfold hourPut
  split
  · exact ringPut_notes _ r
  · rfl

theorem logPut_notes (s : State) (code : Nat) (data : List Byte) : (logPut s code data).flt.notes = s.flt.notes := by
  unfold logPut
  repeat' split
  · exact ringPut_notes _ _
  · rfl
  · exact hourPut_notes _ _
  · exact hourPut_notes _ _

/-- Columns entered the note list: beside the list, the log and its counts, only flags of ARR_FLAGS may change (R224). -/
structure Notes (s t : State) : Prop where
  others : { t with flt := s.flt, regs := s.regs } = s
  regs r : r ∉ [0x0404, 0x0F0C, 0x0F10] → rd t r = rd s r
  keeps c : c ∈ s.flt.notes → c ∈ t.flt.notes

theorem Notes.refl (s : State) : Notes s s := ⟨rfl, fun _ _ => rfl, fun _ => id⟩

theorem Notes.trans {s t u : State} (h : Notes s t) (g : Notes t u) : Notes s u where
  others := (congrArg (fun y : State => { y with flt := s.flt, regs := s.regs }) g.others :).trans h.others
  regs r n := (g.regs r n).trans (h.regs r n)
  keeps c m := g.keeps c (h.keeps c m)

theorem setFlag_notes (s : State) (n : Nat) : Notes s (setFlag s 0x0404 n) where
  others := rfl
  regs r h := rd_setFlag_ne s n fun e => h (e ▸ by decide)
  keeps _ := id

/-- A column at the end of the note list, with its NOTE record (R611). -/
def columnNoted (s : State) (phys log grp kind : Nat) : State :=
  logPut { s with flt := { s.flt with notes := s.flt.notes ++ [phys] } } 3
    (leBytes 1 phys ++ leBytes 1 log ++ leBytes 1 grp ++ leBytes 1 kind)

theorem columnNoted_list (s : State) (phys log grp kind : Nat) :
    (columnNoted s phys log grp kind).flt.notes = s.flt.notes ++ [phys] := logPut_notes _ _ _

theorem columnNoted_notes (s : State) (phys log grp kind : Nat) : Notes s (columnNoted s phys log grp kind) where
  others := (logPut_onlyLog _ _ _).ofFlt.others
  regs r n := by
    simp only [List.mem_cons, List.not_mem_nil, or_false, not_or] at n
    obtain ⟨-, suppr, drop⟩ := n
    exact (logPut_onlyLog _ _ _).regs r suppr drop
  keeps c m := by
    rw [columnNoted_list]
    exact List.mem_append_left _ m

theorem noteCol_eq (s : State) (phys log grp kind : Nat) : noteCol s phys log grp kind =
    if s.flt.notes.contains phys then s
    else if 8 ≤ s.flt.notes.length then setFlag s 0x0404 3
    else if bothFailed (columnNoted s phys log grp kind) then setFlag (columnNoted s phys log grp kind) 0x0404 4
    else columnNoted s phys log grp kind := rfl

/-- A column is noted: it is on the list already, the list is full, or it stands at its end. -/
theorem noteCol_notes (s : State) (phys log grp kind : Nat) : Notes s (noteCol s phys log grp kind) ∧
    (s.flt.notes.length < 8 → phys ∈ (noteCol s phys log grp kind).flt.notes) := by
  have last : phys ∈ (columnNoted s phys log grp kind).flt.notes := by simp [columnNoted_list]
  rw [noteCol_eq]
  split
  · next h => exact ⟨.refl s, fun _ => List.contains_iff_mem.mp h⟩
  split
  · next full => exact ⟨setFlag_notes s 3, fun room => absurd room (by omega)⟩
  split
  · exact ⟨(columnNoted_notes s phys log grp kind).trans (setFlag_notes _ 4), fun _ => last⟩
  · exact ⟨columnNoted_notes s phys log grp kind, fun _ => last⟩

theorem forEach_notes {l : List Nat} {s : State} {f : State → Nat → State} (step : ∀ u a, Notes u (f u a)) :
    Notes s (forEach l s f) := forEach_induction (P := Notes s) (.refl s) fun u h a => h.trans (step u a)

/-- The physical columns that a read-back reports, mapped-out ones left out (R97). -/
def foundCols (s : State) (found : BitVec 132) : List Nat :=
  (List.range 132).filter fun c => found.getLsbD c && !s.arr.map.contains c

theorem foundCols_of_zero (s : State) : foundCols s 0 = [] := by simp [foundCols]

theorem foundCols_of_lowest {s : State} {found : BitVec 132} {col : Nat} (h : col < 132) (one : found.getLsbD col = true)
    (lowest : ∀ j < col, found.getLsbD j = false) (map : s.arr.map = []) : ∃ rest, foundCols s found = col :: rest := by
  have below : ((List.range col).filter fun c => found.getLsbD c && !s.arr.map.contains c) = [] := by
    rw [List.filter_eq_nil_iff]
    intro j m
    simp [lowest j (List.mem_range.mp m)]
  have range : List.range 132 = List.range col ++ col :: (List.range (131 - col)).map (fun j => col + (j + 1)) := by
    rw [show List.range 132 = List.range (col + (131 - col + 1)) by congr 1; omega, List.range_add, List.range_succ_eq_map,
      List.map_cons, List.map_map, Nat.add_zero]
    rfl
  rw [foundCols, range, List.filter_append, below, List.nil_append, List.filter_cons_of_pos (by simp [one, map])]
  exact ⟨_, rfl⟩

/-- The read-back is recorded: the check has failed, and the lowest column stands in ARR_DRAIN (R97). -/
def drainFailed (s : State) (c : Nat) : State :=
  wr (setFlag { s with frm := { s.frm with drainChk := true } } 0x0308 4) 0x0438 (place c 0)

theorem rd_drainFailed_column {s : State} (w : twf 0 s.regs = true) (c : Nat) : rd (drainFailed s c) 0x0438 = BitVec.ofNat 32 c :=
  (rd_wr_self _ (wr_regs_wf 0x0308 _ w)).trans (by rw [place, Nat.pow_zero, Nat.mul_one])

theorem bit_drainFailed_flag {s : State} (w : twf 0 s.regs = true) (c : Nat) : bit (rd (drainFailed s c) 0x0308) 4 = true := by
  rw [drainFailed, rd_wr_ne _ _ (by decide)]
  exact bit_setFlag 0x0308 w (by decide)

theorem drainCheck_of_none {s : State} {found : BitVec 132} (h : foundCols s found = []) : drainCheck s found = s := by
  unfold drainCheck
  rw [← foundCols, h]

theorem drainCheck_of_found {s : State} {found : BitVec 132} {c : Nat} {rest : List Nat} (h : foundCols s found = c :: rest) :
    drainCheck s found = forEach (c :: rest) (drainFailed s c) (fun s c => noteCol s c (logCol s c) 0xFF 1) := by
  unfold drainCheck
  rw [← foundCols, h]
  rfl

/-- A failed check notes its lowest column first. -/
theorem drainCheck_notes {s : State} {found : BitVec 132} {c : Nat} {rest : List Nat} (h : foundCols s found = c :: rest) :
    Notes (drainFailed s c) (drainCheck s found) ∧ (s.flt.notes.length < 8 → c ∈ (drainCheck s found).flt.notes) := by
  rw [drainCheck_of_found h]
  obtain ⟨noted, listed⟩ := noteCol_notes (drainFailed s c) c (logCol (drainFailed s c) c) 0xFF 1
  have more : Notes _ (forEach (c :: rest) (drainFailed s c) fun s c => noteCol s c (logCol s c) 0xFF 1) :=
    forEach_notes (l := rest) fun u a => (noteCol_notes u a (logCol u a) 0xFF 1).1
  exact ⟨noted.trans more, fun room => more.keeps c (listed room)⟩

/-- The array drained, its columns read back where the program has scratch bands. -/
def drainedArray (s : State) (fp : Nat) (found : BitVec 132) : State :=
  if (prog s fp).sbands = 0 then drainArray s else drainCheck (drainArray s) found

theorem execDrainEnd_of_drain {s : State} {fp : Nat} {c : BitVec 48} (found : BitVec 132) (h : s.frm.drain = some (fp, c)) :
    exec (.drainEnd found) s = .next (endDrain (drainedArray s fp found) c) := by
  show execDrainEnd found s = _
  rw [execDrainEnd, h]
  rfl

theorem execDrainEnd_of_none {s : State} (found : BitVec 132) (h : s.frm.drain = none) :
    exec (.drainEnd found) s = .next s := by
  show execDrainEnd found s = _
  rw [execDrainEnd, h]

theorem drainCheck_arr (s : State) (found : BitVec 132) : (drainCheck s found).arr = s.arr := by
  cases h : foundCols s found with
  | nil => rw [drainCheck_of_none h]
  | cons c rest => exact (congrArg State.arr (drainCheck_notes h).1.others :)

theorem drainedArray_arr (s : State) (fp : Nat) (found : BitVec 132) : (drainedArray s fp found).arr = (drainArray s).arr := by
  unfold drainedArray
  split
  · rfl
  · exact drainCheck_arr _ found

theorem drainedArray_of_clean {s : State} {fp : Nat} {found : BitVec 132} (h : (prog s fp).sbands = 0 ∨ found = 0) :
    drainedArray s fp found = drainArray s := by
  unfold drainedArray
  split
  · rfl
  · next bands =>
    obtain rfl := h.resolve_left bands
    exact drainCheck_of_none (foundCols_of_zero _)

/-- A column that reads back a one is recorded, and noted while the list has room (R97, R224). -/
theorem drainedArray_of_found {s : State} {fp : Nat} {found : BitVec 132} {col : Nat} (w : twf 0 s.regs = true) (h : col < 132)
    (bands : (prog s fp).sbands ≠ 0) (one : found.getLsbD col = true) (lowest : ∀ j < col, found.getLsbD j = false)
    (map : s.arr.map = []) :
    let t := drainedArray s fp found
    t.frm.drainChk = true ∧ rd t 0x0438 = BitVec.ofNat 32 col ∧ bit (rd t 0x0308) 4 = true ∧
      (s.flt.notes.length < 8 → col ∈ t.flt.notes) := by
  obtain ⟨rest, cols⟩ := foundCols_of_lowest (s := drainArray s) h one lowest map
  obtain ⟨noted, listed⟩ := drainCheck_notes cols
  rw [drainedArray, if_neg bands]
  refine ⟨?_, ?_, ?_, listed⟩
  · exact (congrArg (fun y : State => y.frm.drainChk) noted.others :)
  · rw [noted.regs 0x0438 (by decide), rd_drainFailed_column (by exact w)]
  · rw [noted.regs 0x0308 (by decide), bit_drainFailed_flag (by exact w)]

end Sys2Proof.Machine
end

section
/-! SUPPORT. The bytes of a reply entry, as they stand in its ring (R22, R390, R453 to R455). -/

namespace Sys2Proof.Machine
open Sys2Proof

/-- Keys read in succession give the part of what was written there. -/
theorem tgets_tsets {α : Type} [DecidableEq α] (d : α) {t : Tbl α} (a : Nat) {vs : List α} (w : twf d t = true) {k n : Nat}
    (h : k + n ≤ vs.length) : tgets d (tsets d t a vs) (a + k) n = (vs.drop k).take n := by
  induction n generalizing k with
  | zero => rfl
  | succ n ih =>
    have here : k < vs.length := by omega
    rw [tgets, tget_tsets_in d a w (List.getElem?_eq_getElem here), Nat.add_assoc, ih (by omega), List.drop_eq_getElem_cons here,
      List.take_succ_cons]

theorem leNat_leBytes {n v : Nat} (h : v < 256 ^ n) : leNat (leBytes n v) = v := by
  induction n generalizing v with
  | zero =>
    obtain rfl : v = 0 := by simpa using h
    rfl
  | succ n ih =>
    have high : v / 256 < 256 ^ n := Nat.div_lt_of_lt_mul (by rwa [Nat.pow_succ, Nat.mul_comm] at h)
    rw [leBytes, leNat, ih high, BitVec.toNat_ofNat]
    omega

theorem length_replyBytes (kind status flags fp tag opcode stamp sseq frmcnt detail : Nat) (body : List Byte) :
    (replyBytes kind status flags fp tag opcode stamp sseq frmcnt detail body).length = 64 := by
  simp [replyBytes, length_leBytes]

/-- The flags of every reply leave bits 0, 3 and 4 to the frame's own. -/
theorem postFlags_spread (s : State) : ∃ a b, postFlags s = 2 * a + 32 * b ∧ a ≤ 2 ∧ b ≤ 7 := by
  refine ⟨(if bit (rd s 0x0E04) 6 then 1 else 0) + (if bit (rd s 0x0E04) 5 && !bit (rd s 0x0E04) 6 then 2 else 0),
    (if s.arr.map.any (fun c => decide (c < 128)) then 1 else 0) + (if bit (rd s 0x0E04) 3 then 2 else 0) +
      (if rd s 0x0E00 = 0 ∧ rd s 0x0E04 = 0 then 0 else 4), ?_, ?_, ?_⟩
  · unfold postFlags
    dsimp only
    split_ifs <;> rfl
  · cases bit (rd s 0x0E04) 6 <;> split_ifs <;> simp_all
  · split_ifs <;> decide

theorem testBit_spread {a b : Nat} (ha : a ≤ 2) (c t r : Bool) :
    (2 * a + 32 * b + c.toNat + 8 * t.toNat + 16 * r.toNat).testBit 0 = c ∧
      (2 * a + 32 * b + c.toNat + 8 * t.toNat + 16 * r.toNat).testBit 4 = r := by
  have hc := c.toNat_le
  have ht := t.toNat_le
  rw [Nat.testBit_eq_decide_div_mod_eq, Nat.testBit_eq_decide_div_mod_eq]
  constructor
  · cases c <;> simp only [Bool.toNat_true, Bool.toNat_false, decide_eq_true_eq, decide_eq_false_iff_not] <;> omega
  · cases r <;> simp only [Bool.toNat_true, Bool.toNat_false, decide_eq_true_eq, decide_eq_false_iff_not] <;> omega

theorem getLsbD_frameFlags (s : State) (f : Frame) (x : Slot) :
    (BitVec.ofNat 8 (frameFlags s f x)).getLsbD 0 = f.coasted ∧ (BitVec.ofNat 8 (frameFlags s f x)).getLsbD 4 = f.reversed := by
  obtain ⟨a, b, e, ha, hb⟩ := postFlags_spread s
  have flags : frameFlags s f x = 2 * a + 32 * b + f.coasted.toNat + 8 * x.throttled.toNat + 16 * f.reversed.toNat := by
    rw [frameFlags, e]
    cases f.coasted <;> cases x.throttled <;> cases f.reversed <;> rfl
  rw [BitVec.getLsbD_ofNat, BitVec.getLsbD_ofNat, flags]
  exact testBit_spread ha _ _ _

/-! Rings. -/

theorem rqAddr_congr {s t : State} (h : t.regs = s.regs) (p v : Nat) : rqAddr t p v = rqAddr s p v := by
  rw [rqAddr, rqAddr, rqDepth, rqDepth, rd, rd, h]

section
variable {s : State} {p a : Nat} {e : List Byte} (at_ : rqAddr s p (tget 0 s.prt.rqTail p) = a)
include at_

theorem rdBytes_ringEntry {k n : Nat} (w : Memory.wf 0 s.cnd.mem = true) (h : k + n ≤ e.length) :
    rdBytes (ringEntry s p e) (a + k) n = (e.drop k).take n := by
  subst at_
  exact tgets_tsets 0 _ w h

theorem rdMem_ringEntry {k : Nat} {b : Byte} (w : Memory.wf 0 s.cnd.mem = true) (h : e[k]? = some b) :
    rdMem (ringEntry s p e) (a + k) = b := by
  subst at_
  exact tget_tsets_in 0 _ w h

theorem rdMem_ringEntry_out {m : Nat} (length : e.length = 64) (h : m < a ∨ a + 64 ≤ m) :
    rdMem (ringEntry s p e) m = rdMem s m := by
  subst at_
  exact rdMem_wrBytes_out s e (by rwa [length])

end

theorem rqTail_ringEntry (s : State) (p : Nat) (e : List Byte) :
    tget 0 (ringEntry s p e).prt.rqTail p = (tget 0 s.prt.rqTail p + 1) % 65536 := by
  rw [ringEntry, tget_tput, if_pos rfl]

/-- The state with another trace. -/
def withTrace (s : State) (T : Trc) : State := { s with trc := T }

@[simp] theorem rdMem_withTrace (s : State) (T : Trc) (m : Nat) : rdMem (withTrace s T) m = rdMem s m := rfl

/-- A post into a ring with room writes the entry; beside it only the trace takes note. -/
theorem ringPost_traced (s : State) (p : Nat) (e : List Byte) : ∃ T, ringPost s p e = withTrace (ringEntry s p e) T :=
  ⟨_, (ringPost_only s p e).eq⟩

theorem post_of_room {s : State} {p : Nat} (none : holdQ s p = []) (room : rqCount s p < rqDepth s p) (e : List Byte) :
    post s p e = ringPost s p e := by simp [post, none, room]

end Sys2Proof.Machine
end

section
/-! SUPPORT. The posting of a frame reply and the move of a held one (R100, R111, R397). -/

namespace Sys2Proof.Machine
open Sys2Proof

theorem nextSlot_part {s : State} {p : Nat} {f : Frame} {x : Slot} (h : nextSlot s p = some (f, x)) : fpPart x.fp = p := by
  obtain ⟨g, -, found⟩ := List.exists_of_findSome?_eq_some h
  obtain ⟨y, hy, e⟩ := Option.map_eq_some_iff.mp found
  obtain ⟨-, rfl⟩ := Prod.mk.inj e
  have sel := List.find?_some hy
  simp only [Bool.and_eq_true, beq_iff_eq] at sel
  exact sel.1

/-- No keeper update waits for the slot's posting any more. -/
def keepersDone (s : State) (key : Nat) : State := { s with frm := { s.frm with kdone := tdel s.frm.kdone key } }

theorem settleKeeper_of_none {s : State} {key : Nat} (p : Nat) (h : tget [] s.frm.kdone key = []) :
    settleKeeper s key p = keepersDone s key := by
  rw [settleKeeper, h]
  rfl

/-- The frames once a slot of FPk in frame `c` is posted. -/
def markPosted (s : State) (c : BitVec 48) (fp : Nat) : State :=
  modFrame s c fun f => { f with slots := f.slots.map fun y => if y.fp = fp then { y with posted := true } else y }

/-- The entry of the slot's reply. -/
def slotEntry (s : State) (f : Frame) (x : Slot) (st d : Nat) : List Byte :=
  frameEntry (keepersDone s (keeperKey f.count x.fp)) f x st d

/-- The slot's reply stands in its ring, the trace has taken note, and the slot is posted. -/
def slotPosted (s : State) (f : Frame) (x : Slot) (st d : Nat) (T : Trc) : State :=
  settle (markPosted (withTrace (ringEntry (keepersDone s (keeperKey f.count x.fp)) (fpPart x.fp) (slotEntry s f x st d)) T)
    f.count x.fp)

theorem slotPosted_others (s : State) (f : Frame) (x : Slot) (st d : Nat) (T : Trc) :
    { slotPosted s f x st d T with frm := s.frm, prt := s.prt, cnd := s.cnd, trc := s.trc } = s := by
  dsimp only [slotPosted, settle, markPosted, modFrame, withTrace, ringEntry, keepersDone, wrBytes]

theorem slotPosted_opens (s : State) (f : Frame) (x : Slot) (st d : Nat) (T : Trc) :
    (slotPosted s f x st d T).prt.opens = s.prt.opens := by
  dsimp only [slotPosted, settle, markPosted, modFrame, withTrace, ringEntry, keepersDone, wrBytes]

theorem slotPosted_member (s : State) (f : Frame) (x : Slot) (st d : Nat) (T : Trc) : member (slotPosted s f x st d T) = member s :=
  (congrArg member (slotPosted_others s f x st d T) :)

/-- A reply that finds room in its ring, on a solo device where no command waits and the slot has no keeper update. -/
theorem postSlot_of_room {s : State} {f : Frame} {x : Slot} (solo : member s = false) (opens : s.prt.opens = [])
    (none : holdQ s (fpPart x.fp) = []) (room : rqCount s (fpPart x.fp) < rqDepth s (fpPart x.fp))
    (keepers : tget [] s.frm.kdone (keeperKey f.count x.fp) = []) (st d : Nat) :
    ∃ T, postSlot s f x st d = slotPosted s f x st d T := by
  have kept : (if st = 0x00 ∨ st = 0x25 then settleKeeper s (keeperKey f.count x.fp) (fpPart x.fp)
      else keepersDone s (keeperKey f.count x.fp)) = keepersDone s (keeperKey f.count x.fp) := by
    rw [settleKeeper_of_none _ keepers, ite_self]
  obtain ⟨T, posted⟩ := ringPost_traced (keepersDone s (keeperKey f.count x.fp)) (fpPart x.fp) (slotEntry s f x st d)
  have quiet : formDone (abortDone (slotPosted s f x st d T)) = slotPosted s f x st d T := by
    rw [abortDone_of_no_opens ((slotPosted_opens s f x st d T).trans opens),
      formDone_of_not_member ((slotPosted_member s f x st d T).trans solo)]
  refine ⟨T, ?_⟩
  unfold postSlot
  extract_lets p key _ s1 s2 s3
  have e1 : s1 = keepersDone s (keeperKey f.count x.fp) := kept
  have e2 : s2 = withTrace (ringEntry (keepersDone s (keeperKey f.count x.fp)) (fpPart x.fp) (slotEntry s f x st d)) T := by
    rw [← posted, slotEntry, ← e1]
    exact post_of_room (by rw [e1]; exact none) (by rw [e1]; exact room) _
  have e3 : settle s3 = slotPosted s f x st d T := by
    rw [slotPosted, ← e2]
    rfl
  rw [e3, quiet]

theorem markPosted_spec {s : State} {c : BitVec 48} {fp : Nat} {g : Frame} (m : g ∈ (settle (markPosted s c fp)).frm.frames)
    (h : g.count = c) : ∀ y ∈ g.slots, y.fp = fp → y.posted = true := by
  obtain ⟨f1, m1, settled⟩ := (settle_carried _).origin g m
  obtain ⟨f0, -, rfl⟩ := List.mem_map.mp m1
  rw [settled.slots]
  have c0 : f0.count = c := by
    by_contra n
    rw [if_neg n] at settled
    exact n (settled.count.symm.trans h)
  rw [if_pos c0]
  intro y my hy
  obtain ⟨y0, -, rfl⟩ := List.mem_map.mp my
  by_cases hf : y0.fp = fp
  · rw [if_pos hf]
  · rw [if_neg hf] at hy
    exact absurd hy hf

/-- The reply of the slot `x` of frame `f` stands in the ring of its partition, and the slot is posted (R453 to R455). -/
structure SlotPosted (s : State) (f : Frame) (x : Slot) (st d : Nat) (t : State) : Prop where
  tail : tget 0 t.prt.rqTail (fpPart x.fp) = (tget 0 s.prt.rqTail (fpPart x.fp) + 1) % 65536
  bytes k n : k + n ≤ 64 → rdBytes t (rqAddr s (fpPart x.fp) (tget 0 s.prt.rqTail (fpPart x.fp)) + k) n =
    ((slotEntry s f x st d).drop k).take n
  byte k b : (slotEntry s f x st d)[k]? = some b → rdMem t (rqAddr s (fpPart x.fp) (tget 0 s.prt.rqTail (fpPart x.fp)) + k) = b
  mem m : m < rqAddr s (fpPart x.fp) (tget 0 s.prt.rqTail (fpPart x.fp)) ∨
    rqAddr s (fpPart x.fp) (tget 0 s.prt.rqTail (fpPart x.fp)) + 64 ≤ m → rdMem t m = rdMem s m
  posted g : g ∈ t.frm.frames → g.count = f.count → ∀ y ∈ g.slots, y.fp = x.fp → y.posted = true
  regs : t.regs = s.regs
  others : { t with frm := s.frm, prt := s.prt, cnd := s.cnd, trc := s.trc } = s

theorem length_slotEntry (s : State) (f : Frame) (x : Slot) (st d : Nat) : (slotEntry s f x st d).length = 64 :=
  length_replyBytes 1 st _ x.fp 0 0 0 0 f.count.toNat _ _

theorem slotPosted_spec {s : State} (w : Memory.wf 0 s.cnd.mem = true) (f : Frame) (x : Slot) (st d : Nat) (T : Trc) :
    SlotPosted s f x st d (slotPosted s f x st d T) := by
  have length := length_slotEntry s f x st d
  have at_ : rqAddr (keepersDone s (keeperKey f.count x.fp)) (fpPart x.fp) (tget 0 s.prt.rqTail (fpPart x.fp)) =
      rqAddr s (fpPart x.fp) (tget 0 s.prt.rqTail (fpPart x.fp)) := rqAddr_congr rfl _ _
  have mem : (slotPosted s f x st d T).cnd.mem =
      (ringEntry (keepersDone s (keeperKey f.count x.fp)) (fpPart x.fp) (slotEntry s f x st d)).cnd.mem := rfl
  refine ⟨rqTail_ringEntry (keepersDone s (keeperKey f.count x.fp)) _ (slotEntry s f x st d), fun k n h => ?_, fun k b h => ?_,
    fun m h => ?_, fun g m h => markPosted_spec m h, ?_, slotPosted_others s f x st d T⟩
  · rw [rdBytes, mem]
    exact rdBytes_ringEntry at_ w (by rwa [length])
  · rw [rdMem, mem]
    exact rdMem_ringEntry at_ w h
  · rw [rdMem, mem]
    exact rdMem_ringEntry_out at_ length h
  · exact (congrArg State.regs (slotPosted_others s f x st d T) :)

theorem execFrameReplyPost_of_final {s : State} {p : Fin 4} {f : Frame} {x : Slot} {st d : Nat} (next : nextSlot s p = some (f, x))
    (outcome : x.outcome = some (st, d)) (opened : f.st ≠ .opening) (closed : f.st ≠ .ingesting) (here : s.grp.retired = false) :
    exec (.frameReplyPost p) s = .next (postSlot s f x st d) := by
  show Host.Outcome.next ((postNext s p).getD s) = _
  simp [postNext, next, outcome, opened, closed, here]

theorem execFrameReplyPost_of_pending {s : State} {p : Fin 4}
    (h : ∀ f x, nextSlot s p = some (f, x) → x.outcome = none ∨ f.st = .ingesting) :
    exec (.frameReplyPost p) s = .next s := by
  show Host.Outcome.next ((postNext s p).getD s) = _
  cases next : nextSlot s p with
  | none => simp [postNext, next]
  | some v =>
    obtain ⟨f, x⟩ := v
    rcases h f x next with pending | ingests
    · simp [postNext, next, pending]
    · cases out : x.outcome <;> simp [postNext, next, out, ingests]

/-- The posting of a final reply (R111). -/
theorem execFrameReplyPost_posts {s : State} {p : Fin 4} {f : Frame} {x : Slot} {st d : Nat} (next : nextSlot s p = some (f, x))
    (outcome : x.outcome = some (st, d)) (opened : f.st ≠ .opening) (closed : f.st ≠ .ingesting) (here : s.grp.retired = false)
    (none : holdQ s p = []) (room : rqCount s p < rqDepth s p) (opens : s.prt.opens = []) (role : s.grp.role = 0)
    (keepers : tget [] s.frm.kdone (keeperKey f.count x.fp) = []) (w : Memory.wf 0 s.cnd.mem = true) :
    ∃ t, exec (.frameReplyPost p) s = .next t ∧ SlotPosted s f x st d t := by
  have part := nextSlot_part next
  rw [← part] at none room
  obtain ⟨T, e⟩ := postSlot_of_room (member_of_solo role) opens none room keepers st d
  exact ⟨_, execFrameReplyPost_of_final next outcome opened closed here, e ▸ slotPosted_spec w f x st d T⟩

/-- What the host finds in the entry (R453 to R455). -/
theorem SlotPosted.reads {s : State} {f : Frame} {x : Slot} {st d : Nat} {t : State} (h : SlotPosted s f x st d t) (hd : d < 2 ^ 32) :
    let a := rqAddr s (fpPart x.fp) (tget 0 s.prt.rqTail (fpPart x.fp))
    rdMem t a = 1 ∧ rdMem t (a + 1) = BitVec.ofNat 8 st ∧ rdMem t (a + 3) = BitVec.ofNat 8 x.fp ∧
      (rdMem t (a + 2)).getLsbD 0 = f.coasted ∧ (rdMem t (a + 2)).getLsbD 4 = f.reversed ∧
      leNat (rdBytes t (a + 16) 8) = f.count.toNat ∧ leNat (rdBytes t (a + 24) 4) = if st = 0 then min 3 x.restarts else d := by
  have flags := h.byte 2 _ rfl
  obtain ⟨coasted, reversed⟩ := getLsbD_frameFlags (keepersDone s (keeperKey f.count x.fp)) f x
  have count : rdBytes t _ 8 = leBytes 8 f.count.toNat := h.bytes 16 8 (by decide)
  have detail : rdBytes t _ 4 = leBytes 4 (if st = 0 then min 3 x.restarts else d) := h.bytes 24 4 (by decide)
  refine ⟨h.byte 0 _ rfl, h.byte 1 _ rfl, h.byte 3 _ rfl, ?_, ?_, ?_, ?_⟩
  · rw [flags, coasted]
  · rw [flags, reversed]
  · rw [count, leNat_leBytes (f.count.isLt.trans (by decide))]
  · rw [detail, leNat_leBytes]
    split
    · exact (Nat.min_le_left 3 x.restarts).trans_lt (by decide)
    · exact hd

/-! Held replies. -/

/-- A held reply leaves the hold queue. -/
def unheld (s : State) (p : Nat) (rest : List (List Byte)) : State := { s with prt := { s.prt with hold := tput s.prt.hold p rest } }

theorem execHeldReplyMove_eq (s : State) (p : Fin 4) : exec (.heldReplyMove p) s = .next (moveHeld s p) := rfl

theorem moveHeld_of_room {s : State} {p : Nat} {e : List Byte} {rest : List (List Byte)} (held : holdQ s p = e :: rest)
    (room : rqCount s p < rqDepth s p) : moveHeld s p = ringPost (unheld s p rest) p e := by
  simp only [moveHeld, held, if_pos room]
  rfl

theorem moveHeld_of_full {s : State} {p : Nat} (full : ¬rqCount s p < rqDepth s p) : moveHeld s p = s := by
  unfold moveHeld
  split
  · exact if_neg full
  · rfl

theorem moveHeld_of_none {s : State} {p : Nat} (none : holdQ s p = []) : moveHeld s p = s := by simp [moveHeld, none]

/-- The oldest held reply of p has moved into its ring (R397). -/
theorem moveHeld_moves {s : State} {p : Nat} {e : List Byte} {rest : List (List Byte)} (held : holdQ s p = e :: rest)
    (room : rqCount s p < rqDepth s p) (length : e.length = 64) (w : Memory.wf 0 s.cnd.mem = true) :
    let a := rqAddr s p (tget 0 s.prt.rqTail p)
    let t := moveHeld s p
    holdQ t p = rest ∧ tget 0 t.prt.rqTail p = (tget 0 s.prt.rqTail p + 1) % 65536 ∧ rdBytes t a 64 = e ∧
      (∀ m, m < a ∨ a + 64 ≤ m → rdMem t m = rdMem s m) ∧ t.regs = s.regs ∧ t.frm = s.frm ∧
      { t with prt := s.prt, cnd := s.cnd, trc := s.trc } = s := by
  obtain ⟨T, e1⟩ := ringPost_traced (unheld s p rest) p e
  have at_ : rqAddr (unheld s p rest) p (tget 0 s.prt.rqTail p) = rqAddr s p (tget 0 s.prt.rqTail p) := rqAddr_congr rfl _ _
  have others : { withTrace (ringEntry (unheld s p rest) p e) T with prt := s.prt, cnd := s.cnd, trc := s.trc } = s := by
    dsimp only [withTrace, ringEntry, unheld, wrBytes]
  rw [moveHeld_of_room held room, e1]
  refine ⟨?_, rqTail_ringEntry (unheld s p rest) p e, ?_, fun m h => ?_, (congrArg State.regs others :),
    (congrArg State.frm others :), others⟩
  · exact (tget_tput [] s.prt.hold p p rest).trans (if_pos rfl)
  · have whole := rdBytes_ringEntry (e := e) (k := 0) (n := 64) at_ w (by omega)
    rwa [List.drop_zero, List.take_of_length_le (by omega)] at whole
  · rw [rdMem_withTrace]
    exact rdMem_ringEntry_out at_ length h

end Sys2Proof.Machine
end

section
open Sys2Proof Sys2Proof.Machine

/-- Settles O27: a program starts on a drained array with its handler's registers, the drain clears the array and checks its columns, and
replies leave their slots and the hold queue for the ring. -/
theorem programRunsAndReplies : Obligations.ProgramRunsAndReplies := by
  unfold Obligations.ProgramRunsAndReplies
  refine ⟨fun s w => ⟨?starts, ?waits, ?drains, ?idle⟩, fun s p => ⟨?posts, ?pends, ?moves, ?empty⟩⟩
  case starts =>
    intro f x next drained idle run firmware here checked q v stk
    have B := programBegun_begun s f x.fp
    have H := startHandler_starts (programBegun s f x.fp) f x.fp
    obtain ⟨⟨h, hh, hfp, hpart, hbudget, hup⟩, pc, keeper, exchange, stack, limit, saved, mem⟩ := B.handlerStarts f
    obtain ⟨k, comp, kfp, kcount, kdone⟩ := B.comp
    obtain ⟨pp, rm, queue, qres, retired⟩ := B.fresh
    have frm : (startHandler (programBegun s f x.fp) f x.fp).frm = (programBegun s f x.fp).frm := (congrArg State.frm H.others :)
    have arr : (startHandler (programBegun s f x.fp) f x.fp).arr = (programBegun s f x.fp).arr := (congrArg State.arr H.others :)
    refine ⟨_, k, h, execProgramStart_of_next next drained idle run firmware here checked, ?_⟩
    rw [frm, arr]
    refine ⟨comp, kfp, kcount, kdone, B.drained, hh, hfp, hpart, hbudget, hup, pc, keeper, exchange,
      H.records.trans (ofNat_halfBase _), stack, H.aRest, H.countLow, H.countHigh, H.marks.trans (startD2_eq f x.fp), H.dRest,
      H.kRegs, H.fRegs, H.loop, saved, limit w, ?_, pp, rm, queue, qres, retired, B.allow, B.bandsOn, B.planes, mem, fun r n m => ?_, ?_⟩
    · rw [B.frames]
      exact fun g m => markStarted_spec m
    · rw [H.regs r n, B.regs r m]
    · exact (congrArg (fun y : State => { y with frm := s.frm, cnd := s.cnd, arr := s.arr, regs := s.regs, trc := s.trc })
        H.others :).trans (congrArg (fun y : State => { y with cnd := s.cnd, trc := s.trc }) B.others :)
  case waits => exact execProgramStart_of_none
  case drains =>
    intro fp c found drain
    have arr := drainedArray_arr s fp found
    refine ⟨_, execDrainEnd_of_drain found drain, rfl, rfl, ?_⟩
    have arr' : (endDrain (drainedArray s fp found) c).arr = (drainArray s).arr := arr
    rw [arr']
    refine ⟨rfl, rfl, rfl, rfl, rfl, rfl, rfl, rfl, rfl, rfl, rfl, rfl, fun clean => ?_, fun col h bands one lowest map => ?_⟩
    · rw [drainedArray_of_clean clean]
      exact ⟨rfl, rfl⟩
    · exact drainedArray_of_found w h bands one lowest map
  case idle => exact fun none found => execDrainEnd_of_none found none
  case posts =>
    intro f x st d next outcome opened closed here none room opens role keepers wf _ small _
    obtain ⟨t, e, P⟩ := execFrameReplyPost_posts next outcome opened closed here none (of_decide_eq_true room) opens role keepers wf
    obtain ⟨kind, status, fp, coasted, reversed, count, detail⟩ := P.reads small
    have part : fpPart x.fp = p := nextSlot_part next
    have tail' := P.tail
    have mem := P.mem
    rw [part] at kind status fp coasted reversed count detail tail' mem
    exact ⟨t, e, tail', kind, status, fp, coasted, reversed, count, detail, mem, P.posted, P.regs, P.others⟩
  case pends => exact execFrameReplyPost_of_pending
  case moves =>
    intro e rest held
    refine ⟨fun room length wf => ⟨_, execHeldReplyMove_eq s p, ?_⟩, fun full => ?_⟩
    · exact moveHeld_moves held (of_decide_eq_true room) length wf
    · rw [execHeldReplyMove_eq, moveHeld_of_full (of_decide_eq_false full)]
  case empty =>
    intro none
    rw [execHeldReplyMove_eq, moveHeld_of_none none]

end

section
/-! SUPPORT. The devices of the fabric's cells: lanes, serial ports and the flash window (R121, R138, R139, R156, R158). -/

namespace Sys2Proof.Machine
open Sys2Proof

/-- A cell that executes its entry has the entry's effect alone, unless the capture still waits for it (R121, R150). -/
theorem onEdge_of_ready {s k : State} {c t op : Nat} {pins : BitVec 40} (ready : cellReady s c t pins op = true)
    (due : k.hdg.capDue.contains c = false) : onEdge s c t pins op k = k := by
  rw [cellReady, Bool.and_eq_true] at ready
  obtain ⟨edge, done⟩ := ready
  rw [onEdge, if_pos edge, if_pos done, capEdge, due]
  rfl

theorem cell_cellStep (s : State) (c t : Nat) (x : CellCore) : (cell (cellStep s c t x) c).cur = x := by
  rw [cellStep, cell_setCell, if_pos rfl]

@[simp] theorem cellStep_regs (s : State) (c t : Nat) (x : CellCore) : (cellStep s c t x).regs = s.regs := rfl

@[simp] theorem cellStep_smp (s : State) (c t : Nat) (x : CellCore) : (cellStep s c t x).smp = s.smp := rfl

@[simp] theorem cellStep_capDue (s : State) (c t : Nat) (x : CellCore) : (cellStep s c t x).hdg.capDue = s.hdg.capDue := rfl

@[simp] theorem cellStep_ports (s : State) (c t : Nat) (x : CellCore) : (cellStep s c t x).hdg.ports = s.hdg.ports := rfl

@[simp] theorem port_cellStep (s : State) (c t : Nat) (x : CellCore) (n : Nat) : port (cellStep s c t x) n = port s n := rfl

@[simp] theorem rd_cellStep (s : State) (c t : Nat) (x : CellCore) (r : Nat) : rd (cellStep s c t x) r = rd s r := rfl

theorem OnlyTrace.smp {s t : State} (h : OnlyTrace s t) : t.smp = s.smp := (congrArg State.smp h :)

theorem OnlyTrace.lane_eq {s t : State} (h : OnlyTrace s t) (n : Nat) : lane t n = lane s n := by rw [lane, lane, h.smp]

/-- A record that a lane does not take: the flag is set, and the trace takes note (R158). -/
theorem outDrop_only (s : State) (n : Nat) : OnlyTrace (setFlag s 0x0704 5) (outDrop s n) := traceLane_only _ n 3 0 _

theorem rd_outDrop {s : State} (w : twf 0 s.regs = true) (n : Nat) : rd (outDrop s n) 0x0704 = rd s 0x0704 ||| 0x20 := by
  rw [(outDrop_only s n).rd, rd_setFlag_self 5 w]
  rfl

theorem rd_outDrop_ne (s : State) (n : Nat) {r : Nat} (h : r ≠ 0x0704) : rd (outDrop s n) r = rd s r := by
  rw [(outDrop_only s n).rd, rd_setFlag_ne s 5 (Ne.symm h)]

theorem outDrop_smp (s : State) (n : Nat) : (outDrop s n).smp = s.smp := (outDrop_only s n).smp

theorem outDrop_hdg (s : State) (n : Nat) : (outDrop s n).hdg = s.hdg := (congrArg State.hdg (outDrop_only s n) :)

section
variable {s : State} {c : Fin 64} {t : Nat} {pins : BitVec 40} (due : s.hdg.capDue.contains c.val = false)
include due

section outl
variable (ready : cellReady s c t pins 18 = true) (run : s.pwr.st ≠ 2)
include ready run

/-- OUTL offers its word to a lane whose holding register is free (R156). -/
theorem execCellOutl_of_free (on : laneWord s (fld (entryAt s c t) 0 4) = true)
    (free : (lane s (fld (entryAt s c t) 0 4)).hold = none) :
    let x := (cell s c).cur
    let e := entryAt s c t
    let n := fld e 0 4
    exec (.cellOutl c t pins) s =
      .next (cellStep (setLane s n { lane s n with hold := some (wordRec (srcA s c t e x) n (fld e 4 3)) }) c t (nextIx e x)) := by
  show execCellOutl c t pins s = _
  simp only [execCellOutl, if_neg run, on, free, Option.isSome_none, Bool.not_true, Bool.false_eq_true, if_false]
  exact congrArg Host.Outcome.next (onEdge_of_ready ready (by exact due))

/-- OUTL holds its cell while the lane's holding register is full (R156). -/
theorem execCellOutl_of_full (on : laneWord s (fld (entryAt s c t) 0 4) = true)
    (full : (lane s (fld (entryAt s c t) 0 4)).hold.isSome = true) :
    exec (.cellOutl c t pins) s = .next (holdCell s c) := by
  show execCellOutl c t pins s = _
  simp only [execCellOutl, if_neg run, on, full, Bool.not_true, Bool.false_eq_true, if_false, if_true]
  exact congrArg Host.Outcome.next (onEdge_of_ready ready (by exact due))

/-- OUTL to a lane that is not in word mode (R158). -/
theorem execCellOutl_of_off (off : laneWord s (fld (entryAt s c t) 0 4) = false) :
    exec (.cellOutl c t pins) s =
      .next (cellStep (outDrop s (fld (entryAt s c t) 0 4)) c t (nextIx (entryAt s c t) (cell s c).cur)) := by
  show execCellOutl c t pins s = _
  simp only [execCellOutl, if_neg run, off, Bool.not_false, if_true]
  rw [onEdge_of_ready ready (by rw [cellStep_capDue, outDrop_hdg, due])]

end outl

section spx
variable (ready : cellReady s c t pins 19 = true)
include ready

theorem execCellSpx_of_busy (busy : (port s (fld (entryAt s c t) 0 2)).busy = true) :
    exec (.cellSpx c t pins) s = .next (holdCell s c) := by
  show execCellSpx c t pins s = _
  simp only [execCellSpx, busy, if_true]
  exact congrArg Host.Outcome.next (onEdge_of_ready ready (by exact due))

/-- SPX at an idle port: the cell steps, and the port takes the word as its mode says (R139). -/
theorem execCellSpx_of_idle (idle : (port s (fld (entryAt s c t) 0 2)).busy = false) :
    let x := (cell s c).cur
    let e := entryAt s c t
    let n := fld e 0 2
    let a := srcA s c t e x
    let u := cellStep s c t (nextIx e (stepPtr e x (usesRam e 1 false)))
    exec (.cellSpx c t pins) s = .next (if portMode s n = 0 then u
      else if portMode s n = 3 ∧ a.getLsbD 23 = true ∧ a.getLsbD 22 = true then setFlag u 0x0704 4
      else setPort u n { port s n with busy := true, tx := a }) := by
  intro x e n a u
  show execCellSpx c t pins s = _
  simp only [execCellSpx, idle, Bool.false_eq_true, if_false]
  rw [onEdge_of_ready ready]
  · rfl
  · split_ifs <;> exact due

end spx

/-- SPR reads the last word, and takes VALID and OVERRUN from a UART (R139). -/
theorem execCellSpr_of_ready (ready : cellReady s c t pins 20 = true) :
    let x := (cell s c).cur
    let e := entryAt s c t
    let n := fld e 0 2
    let u := cellStep s c t (nextIx e (stepPtr e (putDst e x (sprWord s n)) (usesRam e 0 true)))
    exec (.cellSpr c t pins) s =
      .next (if portMode s n = 1 then setPort u n { port s n with valid := false, orun := false } else u) := by
  intro x e n u
  show execCellSpr c t pins s = _
  rw [execCellSpr, onEdge_of_ready ready]
  · rfl
  · dsimp only
    split_ifs <;> exact due

/-- FLR reads the flash window, and sets FWERR where the read fails (R138). -/
theorem execCellFlr_of_ready (ready : cellReady s c t pins 21 = true) :
    let x := (cell s c).cur
    let e := entryAt s c t
    let r := flashWin s ((srcA s c t e x).toNat % 16384)
    let u := cellStep s c t (nextIx e (stepPtr e (putDst e x r.1) (usesRam e 1 true)))
    exec (.cellFlr c t pins) s = .next (if r.2 then setFlag u 0x0704 6 else u) := by
  intro x e r u
  show execCellFlr c t pins s = _
  rw [execCellFlr, onEdge_of_ready ready]
  dsimp only
  split_ifs <;> exact due

end

theorem sprWord_of_uart {s : State} {n : Nat} (h : portMode s n = 1) : sprWord s n =
    BitVec.ofNat 24 ((port s n).rx.toNat % 256 + (port s n).valid.toNat * 256 + (port s n).ferr.toNat * 512 +
      (port s n).orun.toNat * 1024) := by
  rw [sprWord, if_pos h]
  cases (port s n).valid <;> cases (port s n).ferr <;> cases (port s n).orun <;> rfl

theorem sprWord_of_other {s : State} {n : Nat} (h : portMode s n ≠ 1) : sprWord s n = (port s n).rx := if_neg h

theorem flashWin_inside {s : State} {i : Nat} (on : bit (rd s 0x0724) 31 = true) (size : 4 * i < 4096 * (fld (rd s 0x0724) 8 4 + 1))
    (idle : s.boot.op = none) :
    flashWin s i = (BitVec.ofNat 24 (leNat (flashBytes s (4096 * fld (rd s 0x0724) 0 8 + 4 * i) 4)), false) := by
  simp [flashWin, flashBusyAt, on, idle, size]

theorem flashWin_outside {s : State} {i : Nat} (h : bit (rd s 0x0724) 31 = false ∨ 4096 * (fld (rd s 0x0724) 8 4 + 1) ≤ 4 * i) :
    flashWin s i = (0, true) := by
  rcases h with off | beyond
  · simp [flashWin, off]
  · simp [flashWin, beyond]

/-! A port's own events. -/

/-- The word that a transfer leaves in its port (R139). -/
def transferWord (s : State) (n : Nat) (rx : BitVec 24) (ack : Bool) : BitVec 24 :=
  if portMode s n = 2 then BitVec.ofNat 24 (rx.toNat % 2 ^ (portLen s n + 1))
  else if portMode s n = 3 then BitVec.ofNat 24 (rx.toNat % 256 + (if ack then 256 else 0))
  else (port s n).rx

theorem toNat_transferWord_spi {s : State} {n : Nat} (h : portMode s n = 2) (rx : BitVec 24) (ack : Bool) :
    (transferWord s n rx ack).toNat = rx.toNat % 2 ^ (portLen s n + 1) := by
  rw [transferWord, if_pos h, BitVec.toNat_ofNat, Nat.mod_eq_of_lt ((Nat.mod_le _ _).trans_lt rx.isLt)]

theorem toNat_transferWord_i2c {s : State} {n : Nat} (h : portMode s n = 3) (rx : BitVec 24) (ack : Bool) :
    (transferWord s n rx ack).toNat = rx.toNat % 256 + 256 * ack.toNat := by
  rw [transferWord, if_neg (by omega), if_pos h, BitVec.toNat_ofNat]
  cases ack <;> simp only [Bool.toNat_true, Bool.toNat_false, Bool.false_eq_true, if_true, if_false] <;> omega

theorem execSerialTransferDone_of_busy {s : State} {n : Fin 4} (rx : BitVec 24) (ack : Bool) (h : (port s n).busy = true) :
    exec (.serialTransferDone n rx ack) s =
      .next (setPort s n { port s n with busy := false, rx := transferWord s n rx ack }) := by
  show execSerialTransferDone n rx ack s = _
  rw [execSerialTransferDone, if_pos h]
  rfl

theorem execSerialTransferDone_of_idle {s : State} {n : Fin 4} (rx : BitVec 24) (ack : Bool) (h : (port s n).busy = false) :
    exec (.serialTransferDone n rx ack) s = .next s := by
  show execSerialTransferDone n rx ack s = _
  simp [execSerialTransferDone, h]

theorem execUartReceive_of_uart {s : State} {n : Fin 4} (b : Byte) (bad : Bool) (h : portMode s n = 1) (run : s.pwr.st ≠ 2) :
    exec (.uartReceive n b bad) s = .next (setPort s n { port s n with
      rx := BitVec.ofNat 24 (b.toNat % 2 ^ (portLen s n + 1)), valid := true, ferr := bad,
      orun := (port s n).orun || (port s n).valid }) := by
  show execUartReceive n b bad s = _
  rw [execUartReceive, if_pos ⟨h, run⟩]

theorem execUartReceive_of_other {s : State} {n : Fin 4} (b : Byte) (bad : Bool) (h : portMode s n ≠ 1) :
    exec (.uartReceive n b bad) s = .next s := by
  show execUartReceive n b bad s = _
  rw [execUartReceive, if_neg fun g => h g.1]

theorem port_setPort_self (s : State) (n : Nat) (x : Serial) : port (setPort s n x) n = x := by rw [port_setPort, if_pos rfl]

theorem port_setPort_ne (s : State) {n m : Nat} (x : Serial) (h : m ≠ n) : port (setPort s n x) m = port s m := by
  rw [port_setPort, if_neg (Ne.symm h)]

end Sys2Proof.Machine
end

section
/-! SUPPORT. Records of the lanes (R90, R153 to R163): the stamp of a block, the record of 24 bits, and the ingest port. -/

namespace Sys2Proof.Machine
open Sys2Proof

/-- The parts of a stamp's number, which do not overlap. -/
theorem stamp_parts {a c x y o : Nat} (ha : a < 2 ^ 32) (hc : c < 2 ^ 16) (hx : x ≤ 1) (hy : y ≤ 1) (ho : o < 64) :
    let v := a + c * 2 ^ 32 + x * 2 ^ 48 + y * 2 ^ 49 + o * 2 ^ 50 + 2 ^ 63
    v < 2 ^ 64 ∧ v % 2 ^ 32 = a ∧ v / 2 ^ 32 % 2 ^ 16 = c ∧ v / 2 ^ 48 % 2 = x ∧ v / 2 ^ 49 % 2 = y ∧ v / 2 ^ 63 % 2 = 1 := by
  intro v
  omega

/-- The fields of a block's stamp (R163). -/
structure StampOf (s : State) (st : DWord) : Prop where
  valid : st.getLsbD 63 = true
  word : st.setWidth 32 = angWord s
  count : bits st.toNat 32 16 = s.ang.count48.toNat % 65536
  coasting : st.getLsbD 48 = decide (s.ang.st = .coasting)
  held : st.getLsbD 49 = s.ang.revHold

theorem blockStamp_fields (s : State) (n : Nat) : StampOf s (blockStamp s n) := by
  have coast : (if s.ang.st = .coasting then 2 ^ 48 else 0) = (decide (s.ang.st = .coasting)).toNat * 2 ^ 48 := by
    by_cases h : s.ang.st = .coasting <;> simp [h]
  have hold : (if s.ang.revHold then 2 ^ 49 else 0) = s.ang.revHold.toNat * 2 ^ 49 := by cases s.ang.revHold <;> rfl
  obtain ⟨lt, word, count, coasting, held, valid⟩ := stamp_parts (angWord s).isLt
    (Nat.mod_lt s.ang.count48.toNat (by decide : 0 < 65536)) (decide (s.ang.st = .coasting)).toNat_le s.ang.revHold.toNat_le
    (Nat.mod_lt n (by decide : 0 < 64))
  rw [blockStamp, coast, hold]
  generalize (angWord s).toNat + s.ang.count48.toNat % 65536 * 2 ^ 32 + (decide (s.ang.st = .coasting)).toNat * 2 ^ 48 +
    s.ang.revHold.toNat * 2 ^ 49 + n % 64 * 2 ^ 50 + 2 ^ 63 = v at *
  have bitAt (k : Nat) (h : k < 64) : (BitVec.ofNat 64 v).getLsbD k = decide (v / 2 ^ k % 2 = 1) := by
    rw [BitVec.getLsbD_ofNat, decide_eq_true h, Bool.true_and, Nat.testBit_eq_decide_div_mod_eq]
  refine ⟨?_, ?_, ?_, ?_, ?_⟩
  · rw [bitAt 63 (by decide), valid]
    rfl
  · rw [← BitVec.toNat_inj, BitVec.toNat_setWidth, BitVec.toNat_ofNat, Nat.mod_eq_of_lt lt, word]
  · rw [bits, BitVec.toNat_ofNat, Nat.mod_eq_of_lt lt, count]
    rfl
  · rw [bitAt 48 (by decide), coasting]
    cases decide (s.ang.st = .coasting) <;> rfl
  · rw [bitAt 49 (by decide), held]
    cases s.ang.revHold <;> rfl

/-! Bitstream records. -/

/-- The number that sampled bits spell, the first in bit 0. -/
theorem sum_zipIdx_bits (bs : List Bool) (k : Nat) :
    ((bs.zipIdx k).map (fun b => if b.1 then 2 ^ b.2 else 0)).sum = 2 ^ k * (BitVec.ofBoolListLE bs).toNat := by
  induction bs generalizing k with
  | nil => rfl
  | cons b bs ih =>
    rw [List.zipIdx_cons, List.map_cons, List.sum_cons, ih, BitVec.ofBoolListLE, BitVec.toNat_concat, Nat.pow_succ]
    cases b <;> simp <;> ring

/-- A record of 24 bits: the bits from bit 0, the length and the tag above them (R162). -/
theorem bitRec_fields {p : List Bool} (h : p.length = 24) :
    (∀ j < 24, (bitRec p).getLsbD j = p.getD j false) ∧ bits (bitRec p).toNat 24 8 = 23 + 128 := by
  have lt : (BitVec.ofBoolListLE p).toNat < 2 ^ 24 := by
    have len : 2 ^ p.length = 2 ^ 24 := by rw [h]
    exact len ▸ (BitVec.ofBoolListLE p).isLt
  have value : bitRec p = BitVec.ofNat 32 (2 ^ 24 * 151 + (BitVec.ofBoolListLE p).toNat) := by
    rw [bitRec, sum_zipIdx_bits]
    congr 1
    omega
  refine ⟨fun j hj => ?_, ?_⟩
  · rw [value, BitVec.getLsbD_ofNat, decide_eq_true (by omega), Bool.true_and, Nat.testBit_two_pow_mul_add _ lt, if_pos hj]
    exact BitVec.getLsbD_ofBoolListLE
  · rw [value, bits, BitVec.toNat_ofNat]
    omega

theorem lane_setLane_self (s : State) (n : Nat) (x : Lane) : lane (setLane s n x) n = x := by rw [lane_setLane, if_pos rfl]

theorem lane_setLane_ne (s : State) {n m : Nat} (x : Lane) (h : m ≠ n) : lane (setLane s n x) m = lane s m := by
  rw [lane_setLane, if_neg (Ne.symm h)]

/-- The lane with one more bit sampled (R159). -/
def Lane.sample (l : Lane) (b : Bool) : Lane :=
  if (l.part ++ [b]).length < 24 then { l with part := l.part ++ [b] }
  else { l with part := [], buf := l.buf ++ [bitRec (l.part ++ [b])] }

theorem Lane.sample_of_partial {l : Lane} (h : l.part.length < 23) (b : Bool) : l.sample b = { l with part := l.part ++ [b] } := by
  rw [Lane.sample, if_pos (by simp; omega)]

/-- The bit that completes a record (R159, R162). -/
theorem Lane.sample_of_last {l : Lane} (h : l.part.length = 23) (b : Bool) :
    (l.sample b).part = [] ∧ ∃ w, (l.sample b).buf = l.buf ++ [w] ∧ w.getLsbD 23 = b ∧
      (∀ j < 23, w.getLsbD j = l.part.getD j false) ∧ bits w.toNat 24 8 = 23 + 128 := by
  have length : (l.part ++ [b]).length = 24 := by simp [h]
  obtain ⟨bit, tag⟩ := bitRec_fields length
  rw [Lane.sample, if_neg (by omega)]
  refine ⟨rfl, _, rfl, ?_, fun j hj => ?_, tag⟩
  · rw [bit 23 (by decide), ← h, List.getD_append_right _ _ _ _ (le_refl _), Nat.sub_self]
    rfl
  · rw [bit j (by omega), List.getD_append _ _ _ _ (by omega)]

theorem execBitstreamBitSample_of_bits {s : State} {n : Fin 16} (on : laneBits s n = true) (run : s.pwr.st ≠ 2) (b : Bool) :
    exec (.bitstreamBitSample n b) s = .next (setLane s n ((lane s n).sample b)) := by
  show execBitstreamBitSample n b s = _
  simp [execBitstreamBitSample, on, run, Lane.sample]

theorem execBitstreamBitSample_of_other {s : State} {n : Fin 16} (off : laneBits s n = false) (b : Bool) :
    exec (.bitstreamBitSample n b) s = .next s := by
  show execBitstreamBitSample n b s = _
  simp [execBitstreamBitSample, off]

/-! The ingest port. -/

/-- Where the next record of lane n goes in a half (R153). -/
def recordKey (s : State) (half : Bool) (n : Nat) : Nat :=
  (if half then 65536 else 0) + 64 * (laneFill s half n).base + (laneFill s half n).fill

/-- Where the stamp of its block goes (R163). -/
def blockKey (s : State) (half : Bool) (n : Nat) : Nat :=
  (if half then 1024 else 0) + (laneFill s half n).base + (laneFill s half n).fill / 64

/-- A record of lane n stands in its region of a half, behind those before it (R153, R155, R163). -/
structure RecordPut (s : State) (half : Bool) (n : Nat) (r : Word) (t : State) : Prop where
  written : tget 0 t.smp.recs (recordKey s half n) = r
  recs j : j ≠ recordKey s half n → tget 0 t.smp.recs j = tget 0 s.smp.recs j
  fill : (laneFill t half n).fill = (laneFill s half n).fill + 1
  fills m : m ≠ n → laneFill t half m = laneFill s half m
  lanes : t.smp.lanes = s.smp.lanes
  stamp : (laneFill s half n).fill % 64 = 0 → StampOf s (tget 0 t.smp.stamps (blockKey s half n))
  stamps j : j ≠ blockKey s half n ∨ (laneFill s half n).fill % 64 ≠ 0 → tget 0 t.smp.stamps j = tget 0 s.smp.stamps j
  others : { t with smp := s.smp } = s

theorem putRec_of_room {s : State} {half : Bool} {n : Nat} (room : (laneFill s half n).fill < 64 * (laneFill s half n).size)
    (recsWf : twf 0 s.smp.recs = true) (stampsWf : twf 0 s.smp.stamps = true) (c : BitVec 48) (r : Word) :
    RecordPut s half n r (putRec s half c n r) := by
  unfold putRec
  extract_lets f i b m st
  have key : recKey half i = recordKey s half n := (Nat.add_assoc _ _ _).symm
  have block : stampKey half b = blockKey s half n := (Nat.add_assoc _ _ _).symm
  have opens (h : f.fill % 64 = 0) :
      st = tset 0 s.smp.stamps (blockKey s half n) (blockStamp s (if f.fill = 0 then f.ovl else 0)) := block ▸ if_pos h
  have stays (h : f.fill % 64 ≠ 0) : st = s.smp.stamps := if_neg h
  rw [if_neg (Nat.not_le.mpr room), key]
  refine ⟨tget_tset_self 0 r recsWf, fun j h => tget_tset_ne 0 _ r (Ne.symm h), ?fill, fun k h => ?fills, rfl, fun first => ?stamp,
    fun j h => ?stamps, rfl⟩
  case fill => exact congrArg LaneFill.fill ((tget_tput _ s.smp.fills _ _ _).trans (if_pos rfl))
  case fills => exact (tget_tput _ s.smp.fills _ _ _).trans (if_neg (by omega))
  case stamp =>
    rw [opens first, tget_tset_self 0 _ stampsWf]
    exact blockStamp_fields s _
  case stamps =>
    by_cases first : f.fill % 64 = 0
    · rw [opens first, tget_tset_ne 0 _ _ (Ne.symm (h.resolve_right (not_not_intro first)))]
    · rw [stays first]

/-- A record that finds its region full, before the trace takes note (R90, R155). -/
def overflowed (s : State) (c : BitVec 48) (n : Nat) : State :=
  setFlag (setFlag (modFrame s c (fun x => { x with overflow := true })) 0x0904 n) 0x0308 3

theorem putRec_of_full {s : State} {half : Bool} {n : Nat} (full : 64 * (laneFill s half n).size ≤ (laneFill s half n).fill)
    (c : BitVec 48) (r : Word) : OnlyTrace (overflowed s c n) (putRec s half c n r) := by
  unfold putRec
  extract_lets f i b m st
  rw [if_pos full]
  exact traceLane_only _ n 1 0 _

theorem overflowed_marks {s : State} (w : twf 0 s.regs = true) (c : BitVec 48) {n : Nat} (h : n < 32) :
    bit (rd (overflowed s c n) 0x0904) n = true ∧ bit (rd (overflowed s c n) 0x0308) 3 = true ∧
      ∀ g ∈ (overflowed s c n).frm.frames, g.count = c → g.overflow = true := by
  refine ⟨?_, bit_setFlag 0x0308 (wr_regs_wf _ _ w) (by decide), fun g m hg => ?_⟩
  · rw [overflowed, rd_setFlag_ne _ _ (by decide)]
    exact bit_setFlag 0x0904 w h
  · obtain ⟨f, -, rfl⟩ := List.mem_map.mp m
    by_cases hf : f.count = c
    · rw [if_pos hf]
    · rw [if_neg hf] at hg
      exact absurd hg hf

/-- The record `r` waits in lane n for the ingest port (R157). -/
def recordWaits (s : State) (n : Nat) (r : Word) : Prop :=
  ((lane s n).hold = some r ∧ laneWord s n = true) ∨
    ((lane s n).hold = none ∧ laneBits s n = true ∧ ∃ rest, (lane s n).buf = r :: rest)

/-- The port takes a waiting record from its lane, and the record is written under the frame rule (R153, R154). -/
theorem execIngestRecordWrite_of_waiting {s : State} {n : Fin 16} {r : Word} (waits : recordWaits s n r) :
    ∃ l, l.hold = none ∧ exec (.ingestRecordWrite n) s = .next (ingest (setLane s n l) n r) := by
  show ∃ l : Lane, l.hold = none ∧ execIngestRecordWrite n s = .next (ingest (setLane s n l) n r)
  rcases waits with ⟨hold, word⟩ | ⟨none, on, rest, buf⟩
  · exact ⟨{ lane s n with hold := none }, rfl, by simp [execIngestRecordWrite, hold, word]⟩
  · exact ⟨{ lane s n with buf := rest }, none, by simp [execIngestRecordWrite, none, buf, on]⟩

/-- A word that waits in a lane that is not in word mode is discarded (R158). -/
theorem execIngestRecordWrite_of_off {s : State} {n : Fin 16} {r : Word} (hold : (lane s n).hold = some r)
    (off : laneWord s n = false) :
    exec (.ingestRecordWrite n) s = .next (outDrop (setLane s n { lane s n with hold := none }) n) := by
  show execIngestRecordWrite n s = _
  simp [execIngestRecordWrite, hold, off]

theorem execIngestRecordWrite_of_none {s : State} {n : Fin 16} (none : (lane s n).hold = none) (empty : (lane s n).buf = []) :
    exec (.ingestRecordWrite n) s = .next s := by
  show execIngestRecordWrite n s = _
  simp [execIngestRecordWrite, none, empty]

theorem ingest_of_frame {s : State} {f : Frame} (h : ingesting s = some f) (n : Nat) (r : Word) :
    ingest s n r = putRec s f.half f.count n r := by rw [ingest, h]

theorem ingest_of_none {s : State} (h : ingesting s = none) (n : Nat) (r : Word) :
    OnlyTrace (setFlag s 0x0900 1) (ingest s n r) := by
  rw [ingest, h]
  exact traceLane_only _ n 2 0 0

/-- The port writes a waiting record to the region of its lane (R153, R155, R163). -/
theorem execIngestRecordWrite_records {s : State} {n : Fin 16} {f : Frame} {r : Word} (waits : recordWaits s n r)
    (frame : ingesting s = some f) (room : (laneFill s f.half n).fill < 64 * (laneFill s f.half n).size)
    (recsWf : twf 0 s.smp.recs = true) (stampsWf : twf 0 s.smp.stamps = true) :
    ∃ l t, l.hold = none ∧ exec (.ingestRecordWrite n) s = .next t ∧ RecordPut (setLane s n l) f.half n r t := by
  obtain ⟨l, free, e⟩ := execIngestRecordWrite_of_waiting waits
  rw [ingest_of_frame (s := setLane s n l) frame] at e
  exact ⟨l, _, free, e, putRec_of_room (s := setLane s n l) room recsWf stampsWf f.count r⟩

/-- The region is full: the record is discarded and the frame is marked (R90, R155). -/
theorem execIngestRecordWrite_overflows {s : State} {n : Fin 16} {f : Frame} {r : Word} (waits : recordWaits s n r)
    (frame : ingesting s = some f) (full : 64 * (laneFill s f.half n).size ≤ (laneFill s f.half n).fill) :
    ∃ l t, l.hold = none ∧ exec (.ingestRecordWrite n) s = .next t ∧ OnlyTrace (overflowed (setLane s n l) f.count n) t := by
  obtain ⟨l, free, e⟩ := execIngestRecordWrite_of_waiting waits
  rw [ingest_of_frame (s := setLane s n l) frame] at e
  exact ⟨l, _, free, e, putRec_of_full (s := setLane s n l) full f.count r⟩

/-- No frame ingests: the record is discarded, with IDLEDROP (R154). -/
theorem execIngestRecordWrite_drops {s : State} {n : Fin 16} {r : Word} (waits : recordWaits s n r) (none : ingesting s = none) :
    ∃ l t, l.hold = Option.none ∧ exec (.ingestRecordWrite n) s = .next t ∧ OnlyTrace (setFlag (setLane s n l) 0x0900 1) t := by
  obtain ⟨l, free, e⟩ := execIngestRecordWrite_of_waiting waits
  exact ⟨l, _, free, e, ingest_of_none (s := setLane s n l) none n r⟩

end Sys2Proof.Machine
end

section
/-! SUPPORT. What each device of the cells leaves behind, as the statement lists it. -/

namespace Sys2Proof.Machine
open Sys2Proof

variable {s : State} {c : Fin 64} {t : Nat} {pins : BitVec 40} (due : s.hdg.capDue.contains c.val = false)
include due

/-- OUTL (R156, R158). -/
theorem execCellOutl_spec (w : twf 0 s.regs = true) (ready : cellReady s c t pins 18 = true) (run : s.pwr.st ≠ 2) :
    let x := (cell s c).cur
    let e := entryAt s c t
    let n := fld e 0 4
    (laneWord s n = true → (lane s n).hold = none → ∃ u, exec (.cellOutl c t pins) s = .next u ∧
      (lane u n).hold = some (wordRec (srcA s c t e x) n (fld e 4 3)) ∧ (∀ m, m ≠ n → lane u m = lane s m) ∧
      (cell u c).cur = nextIx e x ∧ u.regs = s.regs ∧
      { u with hdg := { u.hdg with cells := s.hdg.cells }, smp := { u.smp with lanes := s.smp.lanes } } = s) ∧
    (laneWord s n = true → (lane s n).hold.isSome = true → exec (.cellOutl c t pins) s = .next (holdCell s c)) ∧
    (laneWord s n = false → ∃ u, exec (.cellOutl c t pins) s = .next u ∧ rd u 0x0704 = rd s 0x0704 ||| 0x20 ∧
      (cell u c).cur = nextIx e x ∧ u.smp = s.smp ∧ ∀ r, r ≠ 0x0704 → rd u r = rd s r) := by
  intro x e n
  refine ⟨fun on free => ⟨_, execCellOutl_of_free due ready run on free, ?_, fun m h => ?_, cell_cellStep _ c t _, rfl, ?_⟩,
    execCellOutl_of_full due ready run, fun off => ⟨_, execCellOutl_of_off due ready run off, ?_, cell_cellStep _ c t _, ?_,
      fun r h => ?_⟩⟩
  · exact congrArg Lane.hold (lane_setLane_self s n _)
  · exact lane_setLane_ne s _ h
  · dsimp only [cellStep, setCell, setLane]
  · rw [rd_cellStep, rd_outDrop w]
  · rw [cellStep_smp, outDrop_smp]
  · rw [rd_cellStep, rd_outDrop_ne s n h]

/-- SPX at an idle port (R139). -/
theorem execCellSpx_spec (w : twf 0 s.regs = true) (ready : cellReady s c t pins 19 = true)
    (idle : (port s (fld (entryAt s c t) 0 2)).busy = false) :
    let x := (cell s c).cur
    let e := entryAt s c t
    let n := fld e 0 2
    let a := srcA s c t e x
    ∃ u, exec (.cellSpx c t pins) s = .next u ∧ (cell u c).cur = nextIx e (stepPtr e x (usesRam e 1 false)) ∧
      (portMode s n = 0 → u.hdg.ports = s.hdg.ports ∧ u.regs = s.regs) ∧
      (portMode s n = 3 → a.getLsbD 23 = true → a.getLsbD 22 = true →
        u.hdg.ports = s.hdg.ports ∧ rd u 0x0704 = rd s 0x0704 ||| 0x10) ∧
      (portMode s n ≠ 0 → portMode s n ≠ 3 ∨ a.getLsbD 23 = false ∨ a.getLsbD 22 = false →
        port u n = { port s n with busy := true, tx := a } ∧ (∀ m, m ≠ n → port u m = port s m) ∧ u.regs = s.regs) := by
  intro x e n a
  refine ⟨_, execCellSpx_of_idle due ready idle, ?_⟩
  have steps := cell_cellStep s c t (nextIx e (stepPtr e x (usesRam e 1 false)))
  by_cases off : portMode s n = 0
  · rw [if_pos off]
    exact ⟨steps, fun _ => ⟨rfl, rfl⟩, fun i2c => absurd (off.symm.trans i2c) (by decide), fun on => absurd off on⟩
  rw [if_neg off]
  by_cases bad : portMode s n = 3 ∧ a.getLsbD 23 = true ∧ a.getLsbD 22 = true
  · obtain ⟨i2c, start, stop⟩ := bad
    rw [if_pos ⟨i2c, start, stop⟩]
    refine ⟨steps, fun h => absurd h off, fun _ _ _ => ⟨rfl, ?_⟩, fun _ good => ?_⟩
    · rw [rd_setFlag_self 4 (by exact w), rd_cellStep]
      rfl
    · rw [start, stop] at good
      simp [i2c] at good
  · rw [if_neg bad]
    refine ⟨steps, fun h => absurd h off, fun i2c start stop => absurd ⟨i2c, start, stop⟩ bad,
      fun _ _ => ⟨port_setPort_self _ n _, fun m h => ?_, rfl⟩⟩
    rw [port_setPort_ne _ _ h, port_cellStep]

/-- SPR (R139). -/
theorem execCellSpr_spec (ready : cellReady s c t pins 20 = true) :
    let x := (cell s c).cur
    let e := entryAt s c t
    let n := fld e 0 2
    ∃ u, exec (.cellSpr c t pins) s = .next u ∧
      (cell u c).cur = nextIx e (stepPtr e (putDst e x (sprWord s n)) (usesRam e 0 true)) ∧
      port u n = (if portMode s n = 1 then { port s n with valid := false, orun := false } else port s n) ∧ u.regs = s.regs := by
  intro x e n
  refine ⟨_, execCellSpr_of_ready due ready, ?_⟩
  have steps := cell_cellStep s c t (nextIx e (stepPtr e (putDst e x (sprWord s n)) (usesRam e 0 true)))
  by_cases uart : portMode s n = 1
  · rw [if_pos uart, if_pos uart]
    exact ⟨steps, port_setPort_self _ n _, rfl⟩
  · rw [if_neg uart, if_neg uart]
    exact ⟨steps, rfl, rfl⟩

/-- FLR (R138). -/
theorem execCellFlr_spec (w : twf 0 s.regs = true) (ready : cellReady s c t pins 21 = true) :
    let x := (cell s c).cur
    let e := entryAt s c t
    let r := flashWin s ((srcA s c t e x).toNat % 16384)
    ∃ u, exec (.cellFlr c t pins) s = .next u ∧ (cell u c).cur = nextIx e (stepPtr e (putDst e x r.1) (usesRam e 1 true)) ∧
      (r.2 = false → u.regs = s.regs) ∧ (r.2 = true → rd u 0x0704 = rd s 0x0704 ||| 0x40) := by
  intro x e r
  refine ⟨_, execCellFlr_of_ready due ready, ?_⟩
  have steps := cell_cellStep s c t (nextIx e (stepPtr e (putDst e x r.1) (usesRam e 1 true)))
  by_cases fails : r.2 = true
  · rw [if_pos fails]
    refine ⟨steps, fun h => absurd (fails.symm.trans h) (by decide), fun _ => ?_⟩
    rw [rd_setFlag_self 6 (by exact w), rd_cellStep]
    rfl
  · rw [if_neg fails]
    exact ⟨steps, fun _ => rfl, fun h => absurd h fails⟩

end Sys2Proof.Machine
end

section
open Sys2Proof Sys2Proof.Machine

/-- Settles O30: a cell that is ready acts on its lane, port or flash window once; the ingest port writes a record behind those before it,
or discards it; a bitstream lane packs its bits. -/
theorem lanesPortsAndRecords : Obligations.LanesPortsAndRecords := by
  unfold Obligations.LanesPortsAndRecords
  refine ⟨fun s c t pins w due => ⟨?outl, ?spx, ?spr, ?flr, fun m rx ack => ⟨?done, ?idle, fun b bad => ⟨?uart, ?other⟩⟩⟩,
    fun s n f r b w recsWf stampsWf => ⟨?records, ?full, ?drops, ?off, ?empty, ?bits, ?quiet⟩⟩
  case outl => exact execCellOutl_spec due w
  case spx => exact fun ready => ⟨execCellSpx_of_busy due ready, execCellSpx_spec due w ready⟩
  case spr =>
    intro ready
    obtain ⟨u, e, steps, io, regs⟩ := execCellSpr_spec due ready
    refine ⟨u, e, fun v other uart => ?_, io, regs⟩
    rw [steps]
    by_cases mode : portMode s (fld (entryAt s c t) 0 2) = 1
    · rw [sprWord_of_uart mode, uart mode]
    · rw [sprWord_of_other mode, other mode]
  case flr =>
    intro ready
    obtain ⟨u, e, steps, reads, fails⟩ := execCellFlr_spec due w ready
    refine ⟨u, e, fun ⟨on, size, idle⟩ => ?_, fun outside => ?_⟩
    · have win := flashWin_inside on size idle
      rw [win] at steps reads
      exact ⟨steps, reads rfl⟩
    · have win := flashWin_outside outside
      rw [win] at steps fails
      exact ⟨steps, fails rfl⟩
  case done =>
    intro busy
    refine ⟨_, execSerialTransferDone_of_busy rx ack busy, ?_, fun spi => ?_, fun i2c => ?_, fun j h => port_setPort_ne s _ h, ?_⟩
    · rw [port_setPort_self]
    · rw [port_setPort_self]
      exact toNat_transferWord_spi spi rx ack
    · rw [port_setPort_self]
      exact toNat_transferWord_i2c i2c rx ack
    · dsimp only [setPort]
  case idle => exact execSerialTransferDone_of_idle rx ack
  case uart =>
    intro mode run
    refine ⟨_, execUartReceive_of_uart b bad mode run, ?_⟩
    rw [port_setPort_self]
    refine ⟨?_, rfl, rfl, rfl, rfl, fun j h => port_setPort_ne s _ h, ?_⟩
    · exact Nat.mod_eq_of_lt ((Nat.mod_le _ _).trans_lt (b.isLt.trans (by decide)))
    · dsimp only [setPort]
  case other => exact execUartReceive_of_other b bad
  case records =>
    intro waits frame room
    obtain ⟨l, t, free, e, R⟩ := execIngestRecordWrite_records waits frame room recsWf stampsWf
    have lanes (m : Nat) : lane t m = lane (setLane s n l) m := by rw [lane, R.lanes, lane]
    refine ⟨t, e, R.written, R.recs, R.fill, ?_, fun m h => ⟨?_, fun _ => R.fills m h⟩, fun first => ?_, R.stamps, ?_⟩
    · rw [lanes, lane_setLane_self, free]
    · rw [lanes, lane_setLane_ne s l h]
    · obtain ⟨valid, word, count, coasting, held⟩ := R.stamp first
      exact ⟨valid, word, count, coasting, held⟩
    · exact (congrArg (fun y : State => { y with smp := s.smp }) R.others :)
  case full =>
    intro waits frame full
    obtain ⟨l, t, free, e, only⟩ := execIngestRecordWrite_overflows waits frame full
    obtain ⟨lost, flag, marks⟩ := overflowed_marks (s := setLane s n l) w f.count (show n.val < 32 by omega)
    refine ⟨t, e, ?_, ?_, ?_, ?_, ?_⟩
    · exact (congrArg Smp.recs only.smp :)
    · rwa [only.rd]
    · rwa [only.rd]
    · rwa [only.frm]
    · rw [only.lane_eq]
      exact (congrArg Lane.hold (lane_setLane_self s n l)).trans free
  case drops =>
    intro waits none
    obtain ⟨l, t, free, e, only⟩ := execIngestRecordWrite_drops waits none
    refine ⟨t, e, ?_, ?_, ?_, only.frm⟩
    · exact (congrArg Smp.recs only.smp :)
    · rw [only.rd, rd_setFlag_self 1 (by exact w)]
      rfl
    · rw [only.lane_eq]
      exact (congrArg Lane.hold (lane_setLane_self s n l)).trans free
  case off =>
    intro hold off
    refine ⟨_, execIngestRecordWrite_of_off hold off, ?_, rd_outDrop (by exact w) n, ?_⟩
    · rw [outDrop_smp]
      rfl
    · rw [lane, outDrop_smp]
      exact congrArg Lane.hold (lane_setLane_self s n _)
  case empty => exact execIngestRecordWrite_of_none
  case bits =>
    intro on run
    refine ⟨_, execBitstreamBitSample_of_bits on run b, fun short => ?_, fun last => ?_, fun m h => lane_setLane_ne s _ h, ?_⟩
    · rw [lane_setLane_self, Lane.sample_of_partial short]
    · rw [lane_setLane_self]
      exact Lane.sample_of_last last b
    · dsimp only [setLane]
  case quiet => exact fun off => execBitstreamBitSample_of_other off b

end

section
/-! SUPPORT. The operations of the fabric's cells (R121 to R126, R129): what an entry writes, steps and clears, and the results
of the operations in the words of R125. -/

namespace Sys2Proof.Machine
open Sys2Proof

/-! The end of an entry: IX, PTR and the latches. -/

/-- The step to the next entry changes IX and the latches alone (R126). -/
theorem nextIx_frame (e : Word) (x : CellCore) : { nextIx e x with ix := x.ix, slat := x.slat, tl := x.tl } = x := by
  unfold nextIx
  split
  · rfl
  · rfl
  · dsimp only
    split_ifs <;> rfl
  · rfl

@[simp] theorem nextIx_acc (e : Word) (x : CellCore) : (nextIx e x).acc = x.acc := (congrArg CellCore.acc (nextIx_frame e x) :)
@[simp] theorem nextIx_opb (e : Word) (x : CellCore) : (nextIx e x).opb = x.opb := (congrArg CellCore.opb (nextIx_frame e x) :)
@[simp] theorem nextIx_out (e : Word) (x : CellCore) : (nextIx e x).out = x.out := (congrArg CellCore.out (nextIx_frame e x) :)
@[simp] theorem nextIx_cy (e : Word) (x : CellCore) : (nextIx e x).cy = x.cy := (congrArg CellCore.cy (nextIx_frame e x) :)
@[simp] theorem nextIx_q (e : Word) (x : CellCore) : (nextIx e x).q = x.q := (congrArg CellCore.q (nextIx_frame e x) :)
@[simp] theorem nextIx_ptr (e : Word) (x : CellCore) : (nextIx e x).ptr = x.ptr := (congrArg CellCore.ptr (nextIx_frame e x) :)
@[simp] theorem nextIx_ram (e : Word) (x : CellCore) : (nextIx e x).ram = x.ram := (congrArg CellCore.ram (nextIx_frame e x) :)

theorem nextIx_ix (e : Word) (x : CellCore) : (nextIx e x).ix =
    if fld e 16 2 = 1 ∨ fld e 16 2 = 2 ∧ x.q = true then BitVec.ofNat 3 (fld e 13 3) else x.ix + 1 := by
  unfold nextIx
  split
  · next h => simp [h]
  · next h => simp [h]
  · next h =>
    dsimp only
    split_ifs <;> simp_all
  · next h1 h2 _ =>
    have n1 : fld e 16 2 ≠ 1 := h1
    have n2 : fld e 16 2 ≠ 2 := h2
    simp [n1, n2]

/-- The strobe latch is cleared when a WAIT on it completes (R126). -/
theorem nextIx_slat (e : Word) (x : CellCore) :
    (nextIx e x).slat = (x.slat && !(decide (fld e 16 2 = 3) && decide (fld e 8 5 = 22))) := by
  unfold nextIx
  split
  · next h => simp [h]
  · next h => simp [h]
  · next h =>
    by_cases low : 14 ≤ fld e 8 5 ∧ fld e 8 5 ≤ 21
    · have other : fld e 8 5 ≠ 22 := by omega
      simp [h, low, other]
    · by_cases k : fld e 8 5 = 22 <;> simp [h, low, k]
  · next h =>
    have n3 : fld e 16 2 ≠ 3 := h
    simp [n3]

/-- A trigger latch is cleared when a WAIT on it completes (R126). -/
theorem getLsbD_nextIx_tl (e : Word) (x : CellCore) {j : Nat} (hj : j < 8) :
    (nextIx e x).tl.getLsbD j = (x.tl.getLsbD j && !(decide (fld e 16 2 = 3) && decide (fld e 8 5 = 14 + j))) := by
  unfold nextIx
  split
  · next h => simp [h]
  · next h => simp [h]
  · next h =>
    dsimp only
    by_cases low : 14 ≤ fld e 8 5 ∧ fld e 8 5 ≤ 21
    · have here : (fld e 8 5 - 14 = j) = (fld e 8 5 = 14 + j) := propext (by omega)
      rw [if_pos low, BitVec.getLsbD_and, BitVec.getLsbD_not, BitVec.getLsbD_ofNat, Nat.testBit_two_pow]
      simp [h, hj, here]
    · have other : fld e 8 5 ≠ 14 + j := by omega
      rw [if_neg low]
      split_ifs <;> simp [other]
  · next h =>
    have n3 : fld e 16 2 ≠ 3 := h
    simp [n3]

/-- What an entry does to PTR, IX and the latches, `ram` saying that it accesses RAM (R123, R126). -/
def CellGoes (e : Word) (x y : CellCore) (ram : Prop) : Prop :=
  y.ix = (if fld e 16 2 = 1 ∨ fld e 16 2 = 2 ∧ y.q = true then BitVec.ofNat 3 (fld e 13 3) else x.ix + 1) ∧
    (ram → y.ptr = if bit e 6 then x.ptr + 1 else x.ptr) ∧ (¬ram → y.ptr = x.ptr) ∧
    y.slat = (x.slat && !(decide (fld e 16 2 = 3) && decide (fld e 8 5 = 22))) ∧
    ∀ j < 8, y.tl.getLsbD j = (x.tl.getLsbD j && !(decide (fld e 16 2 = 3) && decide (fld e 8 5 = 14 + j)))

/-- PTR steps in an entry that accesses RAM with bit 6 of IMM at 1, and nothing else does (R123). -/
theorem stepPtr_eq (e : Word) (x : CellCore) (used : Bool) :
    stepPtr e x used = { x with ptr := if used && bit e 6 then x.ptr + 1 else x.ptr } := by
  unfold stepPtr
  split <;> rfl

/-- An entry ends with its steps of PTR and IX, whatever it wrote to the result registers. -/
theorem cellGoes_of_end {e : Word} {x z : CellCore} {used : Bool} {ram : Prop} (h : used = true ↔ ram)
    (ix : z.ix = x.ix) (ptr : z.ptr = x.ptr) (slat : z.slat = x.slat) (tl : z.tl = x.tl) :
    CellGoes e x (nextIx e (stepPtr e z used)) ram := by
  rw [stepPtr_eq]
  refine ⟨?_, fun r => ?_, fun r => ?_, ?_, fun j hj => ?_⟩
  · rw [nextIx_ix, nextIx_q, ix]
  · rw [nextIx_ptr, h.mpr r, ptr, Bool.true_and]
  · rw [nextIx_ptr, Bool.eq_false_iff.mpr (mt h.mp r), ptr]
    rfl
  · rw [nextIx_slat, slat]
  · rw [getLsbD_nextIx_tl _ _ hj, tl]

/-! The destination of a result. -/

/-- A result stands in DST, and the other result registers are as they were (R122). -/
def CellLands (e : Word) (x y : CellCore) (v : BitVec 24) : Prop :=
  y.acc = (if fld e 19 2 = 0 then v else x.acc) ∧ y.opb = (if fld e 19 2 = 1 then v else x.opb) ∧
    y.out = (if fld e 19 2 = 2 then v else x.out) ∧
    ∀ r, tget 0 y.ram r = if fld e 19 2 = 3 ∧ r = ramAddr e x then v else tget 0 x.ram r

theorem putDst_lands {e : Word} {x : CellCore} (v : BitVec 24) (w : twf 0 x.ram = true) : CellLands e x (putDst e x v) v := by
  have lt : fld e 19 2 < 4 := Nat.mod_lt _ (by decide)
  unfold putDst CellLands
  split
  · next h => simp [h]
  · next h => simp [h]
  · next h => simp [h]
  · next h0 h1 h2 =>
    have h3 : fld e 19 2 = 3 := by
      have n0 : fld e 19 2 ≠ 0 := h0
      have n1 : fld e 19 2 ≠ 1 := h1
      have n2 : fld e 19 2 ≠ 2 := h2
      omega
    refine ⟨by simp [h3], by simp [h3], by simp [h3], fun r => ?_⟩
    by_cases hr : r = ramAddr e x
    · rw [if_pos ⟨h3, hr⟩, hr]
      exact tget_tset_self 0 v w
    · rw [if_neg (fun h => hr h.2)]
      exact tget_tset_ne 0 _ v (Ne.symm hr)

/-- A result leaves CY, Q, PTR, IX and the latches. -/
theorem putDst_frame (e : Word) (x : CellCore) (v : BitVec 24) :
    { putDst e x v with acc := x.acc, opb := x.opb, out := x.out, ram := x.ram } = x := by
  unfold putDst
  split <;> rfl

/-! The effect of an entry on the device. -/

/-- The entry of cell `c`, of operation `op`, executes with the outcome `p`, or waits and nothing happens (R121). -/
def CellDoes (s : State) (c : Fin 64) (t : Nat) (pins : BitVec 40) (op : Nat) (i : Instr) (p : CellCore → Prop) : Prop :=
  (cellReady s c t pins op = true → ∃ u, exec i s = .next u ∧ p (cell u c).cur ∧ (cell u c).prev = (cell s c).cur ∧
    (cell u c).edge = t + 1 ∧ (∀ d, d ≠ c.val → cell u d = cell s d) ∧
    { u with hdg := { u.hdg with cells := s.hdg.cells } } = s) ∧
  (cellReady s c t pins op = false → exec i s = .next s)

theorem onEdge_of_not_ready {s : State} {c t op : Nat} {pins : BitVec 40} (k : State) (wait : cellReady s c t pins op = false)
    (due : s.hdg.capDue.contains c = false) : onEdge s c t pins op k = s := by
  rw [onEdge]
  split
  · next edge =>
    rw [cellReady, edge, Bool.true_and] at wait
    rw [wait, if_neg (by decide), capEdge, due]
    rfl
  · rfl

section
variable {s : State} {c : Fin 64} {t : Nat} {pins : BitVec 40} {op : Nat} {i : Instr} (due : s.hdg.capDue.contains c.val = false)
include due

/-- A command whose effect at a clock edge is the cell `y`. -/
theorem cellDoes_of_onEdge {y : CellCore} {p : CellCore → Prop} (run : exec i s = .next (onEdge s c t pins op (cellStep s c t y)))
    (hp : p y) : CellDoes s c t pins op i p := by
  constructor
  · intro ready
    rw [onEdge_of_ready ready (by exact due)] at run
    refine ⟨_, run, ?_, ?_, ?_, fun d h => ?_, rfl⟩
    · rwa [cell_cellStep]
    · rw [cellStep, cell_setCell, if_pos rfl]
    · rw [cellStep, cell_setCell, if_pos rfl]
    · rw [cellStep, cell_setCell, if_neg (Ne.symm h)]
  · intro wait
    rw [run, onEdge_of_not_ready _ wait due]

variable {nsrc : Nat} {ram : Prop}

/-- An operation that gives the result `v` (R125). -/
theorem cellDoes_of_result {f : Word → CellCore → BitVec 24 → BitVec 24 → BitVec 24} {v : BitVec 24}
    (w : twf 0 (cell s c).cur.ram = true) (run : exec i s = .next (cellResult s c t pins op nsrc f))
    (used : usesRam (entryAt s c t) nsrc true = true ↔ ram)
    (val : f (entryAt s c t) (cell s c).cur (srcA s c t (entryAt s c t) (cell s c).cur) (srcB s c t (entryAt s c t) (cell s c).cur) = v) :
    CellDoes s c t pins op i (fun y => CellLands (entryAt s c t) (cell s c).cur y v ∧ y.q = (cell s c).cur.q ∧
      y.cy = (cell s c).cur.cy ∧ CellGoes (entryAt s c t) (cell s c).cur y ram) := by
  refine cellDoes_of_onEdge due run ?_
  rw [val]
  generalize entryAt s c t = e at *
  generalize (cell s c).cur = x at *
  have rest := putDst_frame e x v
  refine ⟨?_, ?_, ?_, cellGoes_of_end used (congrArg CellCore.ix rest :) (congrArg CellCore.ptr rest :)
    (congrArg CellCore.slat rest :) (congrArg CellCore.tl rest :)⟩
  · simpa [CellLands, stepPtr_eq] using putDst_lands (e := e) v w
  · rw [nextIx_q, stepPtr_eq]
    exact (congrArg CellCore.q rest :)
  · rw [nextIx_cy, stepPtr_eq]
    exact (congrArg CellCore.cy rest :)

/-- A sum: its low 24 bits land in DST, and its carry in CY (R125, R129). -/
theorem cellDoes_of_arith {r : Nat} (w : twf 0 (cell s c).cur.ram = true) (run : exec i s = .next (cellArith s c t pins op))
    (used : usesRam (entryAt s c t) 2 true = true ↔ ram)
    (val : add24 (srcA s c t (entryAt s c t) (cell s c).cur)
      (if op ≤ 3 then srcB s c t (entryAt s c t) (cell s c).cur else ~~~(srcB s c t (entryAt s c t) (cell s c).cur))
      (cellCin s c t pins op (entryAt s c t) (cell s c).cur) = (BitVec.ofNat 24 r, decide (2 ^ 24 ≤ r))) :
    CellDoes s c t pins op i (fun y => CellLands (entryAt s c t) (cell s c).cur y (BitVec.ofNat 24 r) ∧ y.q = (cell s c).cur.q ∧
      y.cy = decide (2 ^ 24 ≤ r) ∧ CellGoes (entryAt s c t) (cell s c).cur y ram) := by
  refine cellDoes_of_onEdge due run ?_
  rw [val]
  generalize entryAt s c t = e at *
  generalize (cell s c).cur = x at *
  have rest := putDst_frame e x (BitVec.ofNat 24 r)
  refine ⟨?_, ?_, ?_, cellGoes_of_end used (congrArg CellCore.ix rest :) (congrArg CellCore.ptr rest :)
    (congrArg CellCore.slat rest :) (congrArg CellCore.tl rest :)⟩
  · simpa [CellLands, stepPtr_eq] using putDst_lands (e := e) (BitVec.ofNat 24 r) w
  · rw [nextIx_q, stepPtr_eq]
    exact (congrArg CellCore.q rest :)
  · rw [nextIx_cy, stepPtr_eq]

/-- An operation that gives Q and no result (R125). -/
theorem cellDoes_of_test {f : Word → BitVec 24 → BitVec 24 → Bool} {q : Bool}
    (run : exec i s = .next (cellTest s c t pins op nsrc f)) (used : usesRam (entryAt s c t) nsrc false = true ↔ ram)
    (val : f (entryAt s c t) (srcA s c t (entryAt s c t) (cell s c).cur) (srcB s c t (entryAt s c t) (cell s c).cur) = q) :
    CellDoes s c t pins op i (fun y => (y.acc = (cell s c).cur.acc ∧ y.opb = (cell s c).cur.opb ∧ y.out = (cell s c).cur.out ∧
      y.ram = (cell s c).cur.ram) ∧ y.q = q ∧ y.cy = (cell s c).cur.cy ∧ CellGoes (entryAt s c t) (cell s c).cur y ram) := by
  refine cellDoes_of_onEdge due run ?_
  rw [val]
  refine ⟨?_, ?_, ?_, cellGoes_of_end used rfl rfl rfl rfl⟩
  · simp [stepPtr_eq]
  · rw [nextIx_q, stepPtr_eq]
  · rw [nextIx_cy, stepPtr_eq]

/-- NOP steps IX alone. -/
theorem cellDoes_nop : CellDoes s c t pins 0 (.cellNop c t pins) (fun y => (y.acc = (cell s c).cur.acc ∧
    y.opb = (cell s c).cur.opb ∧ y.out = (cell s c).cur.out ∧ y.ram = (cell s c).cur.ram) ∧ y.q = (cell s c).cur.q ∧
    y.cy = (cell s c).cur.cy ∧ CellGoes (entryAt s c t) (cell s c).cur y False) := by
  refine cellDoes_of_onEdge due rfl ⟨by simp, nextIx_q _ _, nextIx_cy _ _, ?_⟩
  exact cellGoes_of_end (z := (cell s c).cur) (used := false) (by decide) rfl rfl rfl rfl

end

/-! The operations' results in the words of R125. -/

theorem immSrc_eq (e : Word) : immSrc e = (e.setWidth 8).signExtend 24 := by
  have low : BitVec.ofNat 8 (fld e 0 8) = e.setWidth 8 := by
    apply BitVec.eq_of_toNat_eq
    simp [fld, bits]
  rw [immSrc, low]

/-- Bits 23:0 of a signed product. -/
theorem mull_eq (a b : BitVec 24) : BitVec.ofInt 24 (a.toInt * b.toInt) = (a.signExtend 48 * b.signExtend 48).setWidth 24 := by
  have low (x : BitVec 24) : (x.signExtend 48).setWidth 24 = x := by
    ext i hi
    rw [BitVec.getElem_setWidth, BitVec.getLsbD_signExtend, if_pos hi, decide_eq_true (by omega), Bool.true_and]
    exact BitVec.getLsbD_eq_getElem hi
  rw [BitVec.setWidth_mul _ _ (by decide), low, low, BitVec.ofInt_mul, BitVec.ofInt_toInt, BitVec.ofInt_toInt]

/-- The product of two sign-extended words is exact in 48 bits. -/
theorem toInt_mul_signExtend (a b : BitVec 24) : (a.signExtend 48 * b.signExtend 48).toInt = a.toInt * b.toInt := by
  have ha := BitVec.two_mul_toInt_lt (x := a)
  have ha' := BitVec.le_two_mul_toInt (x := a)
  have hb := BitVec.two_mul_toInt_lt (x := b)
  have hb' := BitVec.le_two_mul_toInt (x := b)
  rw [BitVec.toInt_mul, BitVec.toInt_signExtend_of_le (by decide), BitVec.toInt_signExtend_of_le (by decide)]
  apply Int.bmod_eq_of_le
  · norm_num at *
    nlinarith
  · norm_num at *
    nlinarith

/-- Bits 47:24 of a signed product. -/
theorem mulh_eq (a b : BitVec 24) :
    BitVec.ofInt 24 (a.toInt * b.toInt / 2 ^ 24) = ((a.signExtend 48 * b.signExtend 48) >>> 24).setWidth 24 := by
  rw [← toInt_mul_signExtend]
  generalize a.signExtend 48 * b.signExtend 48 = m
  have high : (m >>> 24).setWidth 24 = (m.sshiftRight 24).signExtend 24 := by
    rw [BitVec.signExtend_eq_setWidth_of_le _ (by decide)]
    ext i hi
    simp [BitVec.getLsbD_sshiftRight, show ¬48 ≤ i by omega, show 24 + i < 48 by omega]
  rw [high, BitVec.signExtend, BitVec.toInt_sshiftRight, Int.shiftRight_eq_div_pow]
  rfl

theorem shl_eq (a : BitVec 24) (n : Nat) : a <<< n = if 23 < n then 0 else a <<< n := by
  split
  · next h => exact BitVec.shiftLeft_eq_zero h
  · rfl

theorem shr_eq (a : BitVec 24) (n : Nat) : a >>> n = if 23 < n then 0 else a >>> n := by
  split
  · next h => exact BitVec.ushiftRight_eq_zero h
  · rfl

/-- A shift beyond bit 23 leaves the sign in every bit. -/
theorem sar_eq (a : BitVec 24) (n : Nat) :
    a.sshiftRight n = if 23 < n then (if a.msb then BitVec.allOnes 24 else 0) else a.sshiftRight n := by
  split
  · next h =>
    ext i hi
    rw [BitVec.getElem_sshiftRight, dif_neg (by omega)]
    cases a.msb
    · exact (BitVec.getElem_zero hi).symm
    · exact (BitVec.getElem_allOnes i hi).symm
  · rfl

/-- The clamp to n + 1 bits, as three ranges of the value. -/
theorem sat24_eq (a : BitVec 24) (n : Nat) : sat24 a n = if 23 ≤ n then a
    else if a.toInt < -(2 ^ n : Nat) then BitVec.ofInt 24 (-(2 ^ n : Nat))
    else if (2 ^ n : Nat) ≤ a.toInt then BitVec.ofInt 24 ((2 ^ n : Nat) - 1) else a := by
  have pos : 0 < 2 ^ n := Nat.two_pow_pos n
  rw [sat24, clampInt]
  generalize 2 ^ n = m at *
  split_ifs
  · rfl
  · rw [max_eq_left (by omega)]
  · rw [min_eq_left (by omega), max_eq_right (by omega)]
  · rw [min_eq_right (by omega), max_eq_right (by omega), BitVec.ofInt_toInt]

theorem btst_eq (a : BitVec 24) (n : Nat) : a.getLsbD n = (decide (n ≤ 23) && a.getLsbD n) := by
  by_cases h : n ≤ 23
  · simp [h]
  · simp [h, BitVec.getLsbD_of_ge a n (by omega)]

theorem usesRam_one (e : Word) : usesRam e 1 true = true ↔ fld e 24 3 = 6 ∨ fld e 19 2 = 3 := by simp [usesRam]

theorem usesRam_two (e : Word) : usesRam e 2 true = true ↔ fld e 24 3 = 6 ∨ fld e 21 3 = 6 ∨ fld e 19 2 = 3 := by
  simp [usesRam, or_assoc]

theorem usesRam_one_test (e : Word) : usesRam e 1 false = true ↔ fld e 24 3 = 6 := by simp [usesRam]

theorem usesRam_two_test (e : Word) : usesRam e 2 false = true ↔ fld e 24 3 = 6 ∨ fld e 21 3 = 6 := by simp [usesRam]

end Sys2Proof.Machine
end

section
open Sys2Proof Sys2Proof.Machine

/-- Settles O29: every command is one of four shapes of entry, each of which steps IX and PTR in the same way. -/
theorem fabricCells : Obligations.FabricCells := by
  unfold Obligations.FabricCells
  intro s c t pins due wf x e dst sq k n addr src a b west lands keeps goes does r1 r2 gives sums tests
  have cellSrc_eq (j : Nat) : cellSrc s c t e x j = src j := by
    simp only [cellSrc, immSrc_eq]
    rfl
  have hA : srcA s c t e x = a := cellSrc_eq _
  have hB : srcB s c t e x = b := cellSrc_eq _
  have one := usesRam_one e
  have two := usesRam_two e
  have testOne := usesRam_one_test e
  have testTwo := usesRam_two_test e
  refine ⟨cellDoes_nop due, cellDoes_of_result due wf rfl one hA, ?add, ?adc, ?sub, ?sbc,
    cellDoes_of_result due wf rfl two (by rw [hA, hB]), cellDoes_of_result due wf rfl two (by rw [hA, hB]),
    cellDoes_of_result due wf rfl two (by rw [hA, hB]), cellDoes_of_result due wf rfl one (by rw [hA]; exact shl_eq a n),
    cellDoes_of_result due wf rfl one (by rw [hA]; exact shr_eq a n), cellDoes_of_result due wf rfl one (by rw [hA]; exact sar_eq a n),
    cellDoes_of_result due wf rfl two (by rw [hA, hB]; exact mull_eq a b),
    cellDoes_of_result due wf rfl two (by rw [hA, hB]; exact mulh_eq a b),
    cellDoes_of_result due wf rfl one (by rw [hA]; exact sat24_eq a n),
    cellDoes_of_test due rfl testTwo (by rw [hA, hB]; rfl), cellDoes_of_test due rfl testTwo (by rw [hA, hB]; rfl),
    cellDoes_of_test due rfl testTwo (by rw [hA, hB]; rfl), cellDoes_of_test due rfl testOne (by rw [hA]; exact btst_eq a n)⟩
  case add => exact cellDoes_of_arith due wf rfl two (by rw [hA, hB]; rfl)
  case adc => exact cellDoes_of_arith due wf rfl two (by rw [hA, hB]; rfl)
  case sub => exact cellDoes_of_arith due wf rfl two (by rw [hA, hB]; rfl)
  case sbc => exact cellDoes_of_arith due wf rfl two (by rw [hA, hB]; rfl)

end

section
/-! SUPPORT. Writes of HDG_CAP_CTRL that arm or discard a capture (R151). -/

namespace Sys2Proof.Machine
open Sys2Proof

theorem or_and_word (a b m : Word) : (a ||| b) &&& m = a &&& m ||| b &&& m := by
  ext i hi
  simp [Bool.and_or_distrib_right]

/-- What a mask leaves at 0, every part of the mask leaves at 0. -/
theorem and_eq_zero_of_part {v m p : Word} (h : v &&& m = 0) (part : m &&& p = p) : v &&& p = 0 := by
  rw [← part, ← BitVec.and_assoc, h]
  exact BitVec.zero_and

theorem bit_eq_false_of_and {v m : Word} {n : Nat} (h : v &&& m = 0) (hm : bit m n = true) : bit v n = false := by
  have b := bit_and v m n
  rw [h, hm, Bool.and_true] at b
  exact b.symm.trans BitVec.getLsbD_zero

theorem keepFields_capCtrl (old w : Word) : keepFields 0x0750 old w = [] := rfl

theorem exists_regRow_capCtrl : ∃ r, regRow 0x0750 = some r ∧ r.acc = .rw ∧ regMask r 0x0750 = 0xC000FF3F := ⟨_, rfl, rfl, rfl⟩

/-- HDG_CAP_CTRL takes a value without reserved bits as a whole. -/
theorem regWrite_capCtrl (s : State) (mbx : Bool) (stamp : Nat) {v : Word} (h : v &&& 0x3FFF00C0 = 0) :
    regWrite s mbx stamp 0x0750 v = capWrite s v := by
  obtain ⟨r, row, acc, mask⟩ := exists_regRow_capCtrl
  have kept : v &&& BitVec.ofNat 32 0xC000FF3F = v := and_eq_self_of_and_not (m := BitVec.ofNat 32 0xC000FF3F) h
  rw [regWrite_rw mbx stamp v row acc keepFields_capCtrl, mask, kept, afterReserved, if_pos (by exact h)]
  rfl

/-- A value whose bits are all settings: TRIG, LINE, DOMAIN and the mask of lines. -/
theorem settings_arm {v : Word} (h : v &&& 0xFFFF00C0 = 0) : let w := v ||| place 1 31
    w &&& 0x3FFF00C0 = 0 ∧ w &&& 0xFF3F = v ∧ bit w 31 = true ∧ bit w 30 = false := by
  refine ⟨?_, ?_, ?_, ?_⟩
  · rw [or_and_word, and_eq_zero_of_part h (by decide)]
    decide
  · rw [or_and_word, and_eq_self_of_and_not (m := 0xFF3F) h]
    exact BitVec.or_zero
  · rw [bit_or, bit_place (by decide), Bool.or_true]
  · rw [bit_or, bit_eq_false_of_and h (by decide)]
    decide

theorem settings_discard {v : Word} (h : v &&& 0xFFFF00C0 = 0) : let w := (v ||| place 1 30) &&& ~~~(place 1 31)
    w &&& 0x3FFF00C0 = 0 ∧ w &&& 0xFF3F = v ∧ bit w 31 = false ∧ bit w 30 = true := by
  refine ⟨?_, ?_, ?_, ?_⟩
  · rw [BitVec.and_assoc, or_and_word, and_eq_zero_of_part h (by decide)]
    decide
  · rw [BitVec.and_assoc, or_and_word, show ~~~(place 1 31) &&& (0xFF3F : Word) = 0xFF3F by decide,
      and_eq_self_of_and_not (m := 0xFF3F) h]
    exact BitVec.or_zero
  · rw [bit_and, show bit (~~~(place 1 31)) 31 = false by decide, Bool.and_false]
  · rw [bit_and, bit_or, bit_place (by decide), Bool.or_true]
    decide

section
variable {s : State} {v : Word} (h : v &&& 0xFFFF00C0 = 0)
include h

/-- An arm takes the settings where no capture is armed or full (R151). -/
theorem execHdgCapArm_of_free (armed : s.hdg.capArmed = false) (full : s.hdg.capFull = false) :
    exec (.hdgCapArm v) s = .next (capArm (wr s 0x0750 v)) := by
  obtain ⟨legal, kept, arm, keep⟩ := settings_arm h
  show execHdgCapArm v s = _
  rw [execHdgCapArm, regWrite_capCtrl s _ _ legal, capWrite, kept, arm, keep]
  simp only [Bool.false_eq_true, if_false, armed, full, Bool.or_false, Bool.and_false, if_true]

theorem execHdgCapArm_of_taken (taken : s.hdg.capArmed = true ∨ s.hdg.capFull = true) : exec (.hdgCapArm v) s = .next s := by
  obtain ⟨legal, kept, arm, keep⟩ := settings_arm h
  show execHdgCapArm v s = _
  rw [execHdgCapArm, regWrite_capCtrl s _ _ legal, capWrite, keep, arm]
  simp only [Bool.false_eq_true, if_false]
  rw [if_pos (by simpa using taken)]

theorem execHdgCapDiscard_eq : exec (.hdgCapDiscard v) s = .next (wr (capDiscard s) 0x0750 v) := by
  obtain ⟨legal, kept, arm, keep⟩ := settings_discard h
  show execHdgCapDiscard v s = _
  rw [execHdgCapDiscard, regWrite_capCtrl s _ _ legal, capWrite, kept, arm, keep]
  rfl

end

end Sys2Proof.Machine
end

section
/-! SUPPORT. The record of a capture in the capture RAM (R149, R150, R152). -/

namespace Sys2Proof.Machine
open Sys2Proof

/-- Records of equal length, one after the other from `base`: each reads what was written for it. -/
theorem tget_foldl_tsets {α : Type} [DecidableEq α] (d : α) {t : Tbl α} (base len : Nat) (rec_ : Nat → List α)
    (hlen : ∀ c, (rec_ c).length = len) (w : twf d t = true) (n : Nat) :
    let u := (List.range n).foldl (fun t c => tsets d t (base + len * c) (rec_ c)) t
    twf d u = true ∧ (∀ k < base, tget d u k = tget d t k) ∧
      ∀ c < n, ∀ j x, (rec_ c)[j]? = some x → tget d u (base + len * c + j) = x := by
  induction n with
  | zero => exact ⟨w, fun _ _ => rfl, fun _ h => absurd h (Nat.not_lt_zero _)⟩
  | succ n ih =>
    obtain ⟨wf, low, recs⟩ := ih
    simp only [List.range_succ, List.foldl_append, List.foldl_cons, List.foldl_nil]
    refine ⟨twf_tsets d _ _ wf, fun k hk => ?_, fun c hc j x hx => ?_⟩
    · rw [tget_tsets_out d _ _ _ (.inl (by omega))]
      exact low k hk
    · by_cases hn : c = n
      · rw [hn] at hx ⊢
        exact tget_tsets_in d _ wf hx
      · have hj : j < len := hlen c ▸ (List.getElem?_eq_some_iff.mp hx).1
        have room : len * (c + 1) ≤ len * n := Nat.mul_le_mul_left _ (by omega)
        rw [tget_tsets_out d _ _ _ (.inl (by rw [Nat.mul_succ] at room; omega))]
        exact recs c (by omega) j x hx

/-- The capture RAM with the records of the cells of `l`, `cap` the view of each and `dom` its DOMAIN (R152). -/
def capRecords (s : State) (cap : Nat → CellCore) (dom : Nat → Nat) (l : List Nat) (ram : Tbl Word) : Tbl Word :=
  l.foldl (fun r c => tsets 0 r (4 + 36 * c) (capWords (cell s c) (cap c) (dom c))) ram

/-- The recording of cells changes the capture RAM alone. -/
theorem forEach_capCell (l : List Nat) (s : State) (cap : Nat → CellCore) (dom : Nat → Nat) :
    forEach l s (fun t c => capCell t c (cap c) (dom c)) =
      { s with hdg := { s.hdg with capRam := capRecords s cap dom l s.hdg.capRam } } := by
  induction l generalizing s with
  | nil => rfl
  | cons c l ih => exact ih (capCell s c (cap c) (dom c))

theorem length_capWords (x : Cell) (cap : CellCore) (d : Nat) : (capWords x cap d).length = 36 := by simp [capWords]

/-- The word of a record that holds the cell's flags (R152). -/
def capFlags (x : Cell) (cap : CellCore) (d : Nat) : Word :=
  BitVec.ofNat 32 (cap.ix.toNat + 8 * cap.cy.toNat + 16 * cap.q.toNat + cap.ptr.toNat * 32 + 1024 * cap.slat.toNat +
    cap.tl.toNat * 2048 + d * 2 ^ 19 + 2 ^ 21 * x.holding.toNat)

theorem getElem?_capWords (x : Cell) (cap : CellCore) (d : Nat) :
    (capWords x cap d)[0]? = some (cap.acc.setWidth 32) ∧ (capWords x cap d)[1]? = some (cap.opb.setWidth 32) ∧
      (capWords x cap d)[2]? = some (cap.out.setWidth 32) ∧ (capWords x cap d)[3]? = some (capFlags x cap d) ∧
      ∀ i < 32, (capWords x cap d)[4 + i]? = some ((tget 0 cap.ram i).setWidth 32) := by
  refine ⟨rfl, rfl, rfl, ?_, fun i h => ?_⟩
  · have weight (b : Bool) (n : Nat) : (if b then n else 0) = n * b.toNat := by cases b <;> simp
    simp only [capWords, weight]
    rfl
  · rw [capWords, List.getElem?_append_right (by simp)]
    simp [h]

/-- The parts of the flags' number, which do not overlap. -/
theorem capFlags_parts {ix cy q ptr slat tl d h : Nat} (h1 : ix < 8) (h2 : cy ≤ 1) (h3 : q ≤ 1) (h4 : ptr < 32) (h5 : slat ≤ 1)
    (h6 : tl < 256) (h7 : d < 4) (h8 : h ≤ 1) :
    let v := ix + 8 * cy + 16 * q + ptr * 32 + 1024 * slat + tl * 2048 + d * 2 ^ 19 + 2 ^ 21 * h
    v < 2 ^ 32 ∧ v % 8 = ix ∧ v / 8 % 2 = cy ∧ v / 16 % 2 = q ∧ v / 32 % 32 = ptr ∧ v / 1024 % 2 = slat ∧ v / 2048 % 256 = tl ∧
      v / 2 ^ 19 % 4 = d ∧ v / 2 ^ 21 % 2 = h := by
  intro v
  omega

theorem fld_ofNat {v : Nat} (lt : v < 2 ^ 32) (lo w : Nat) : fld (BitVec.ofNat 32 v) lo w = v / 2 ^ lo % 2 ^ w := by
  rw [fld, bits, BitVec.toNat_ofNat, Nat.mod_eq_of_lt lt]

theorem bit_ofNat {v n : Nat} {b : Bool} (hn : n < 32) (h : v / 2 ^ n % 2 = b.toNat) : bit (BitVec.ofNat 32 v) n = b := by
  rw [bit, BitVec.getLsbD_ofNat, decide_eq_true hn, Bool.true_and, Nat.testBit_eq_decide_div_mod_eq, h]
  cases b <;> rfl

theorem capFlags_fields (x : Cell) (cap : CellCore) {d : Nat} (hd : d < 4) :
    let w := capFlags x cap d
    fld w 0 3 = cap.ix.toNat ∧ bit w 3 = cap.cy ∧ bit w 4 = cap.q ∧ fld w 5 5 = cap.ptr.toNat ∧ bit w 10 = cap.slat ∧
      fld w 11 8 = cap.tl.toNat ∧ fld w 19 2 = d ∧ bit w 21 = x.holding := by
  obtain ⟨lt, ix, cy, q, ptr, slat, tl, dom, hold⟩ := capFlags_parts cap.ix.isLt cap.cy.toNat_le cap.q.toNat_le cap.ptr.isLt
    cap.slat.toNat_le cap.tl.isLt hd x.holding.toNat_le
  rw [capFlags]
  refine ⟨?_, bit_ofNat (by decide) cy, bit_ofNat (by decide) q, ?_, bit_ofNat (by decide) slat, ?_, ?_, bit_ofNat (by decide) hold⟩
  · rw [fld_ofNat lt, pow_zero, Nat.div_one]
    exact ix
  · rw [fld_ofNat lt]
    exact ptr
  · rw [fld_ofNat lt]
    exact tl
  · rw [fld_ofNat lt]
    exact dom

theorem capDomain_lt (s : State) (c : Nat) : capDomain s c < 4 := by
  simp only [capDomain]
  split_ifs <;> decide

/-- A field as a shift and a mask. -/
theorem ofNat_fld (v : Word) (lo : Nat) {w : Nat} (hw : w ≤ 32) :
    BitVec.ofNat 32 (fld v lo w) = v >>> lo &&& BitVec.ofNat 32 (2 ^ w - 1) := by
  have small : 2 ^ w - 1 < 2 ^ 32 := by
    have := Nat.pow_le_pow_right (n := 2) (by decide) hw
    omega
  apply BitVec.eq_of_toNat_eq
  rw [BitVec.toNat_and, BitVec.toNat_ushiftRight, BitVec.toNat_ofNat, BitVec.toNat_ofNat, Nat.mod_eq_of_lt small,
    Nat.and_two_pow_sub_one_eq_mod, Nat.shiftRight_eq_div_pow, fld, bits]
  exact Nat.mod_eq_of_lt ((Nat.mod_le _ _).trans_lt ((Nat.div_le_self _ _).trans_lt v.isLt))

/-- Values under masks without a common bit. -/
theorem and_eq_zero_of_masks (a b : Word) {m n : Word} (h : m &&& n = 0) : (a &&& m) &&& (b &&& n) = 0 := by
  calc (a &&& m) &&& (b &&& n) = (a &&& b) &&& (m &&& n) := by ac_rfl
    _ = 0 := by rw [h]; exact BitVec.and_zero

/-- The settings in word 2 of the header: DOMAIN, the mask and TRIG of HDG_CAP_CTRL (R152). -/
theorem capHeader_settings (v : Word) : BitVec.ofNat 32 (fld v 4 2 + fld v 8 8 * 256 + fld v 0 1 * 65536) =
    v >>> 4 &&& 3 ||| v &&& 0xFF00 ||| (v &&& 1) <<< 16 := by
  let x : Word := v >>> 4 &&& (3 : Word)
  let y : Word := v &&& (0xFF00 : Word)
  let z : Word := v <<< 16 &&& (0x10000 : Word)
  have domain : BitVec.ofNat 32 (fld v 4 2) = x := ofNat_fld v 4 (by decide)
  have mask : BitVec.ofNat 32 (fld v 8 8 * 256) = y := by
    rw [BitVec.ofNat_mul, ofNat_fld v 8 (by decide), show BitVec.ofNat 32 256 = BitVec.twoPow 32 8 by decide,
      BitVec.mul_twoPow_eq_shiftLeft, BitVec.shiftLeft_and_distrib]
    ext i hi
    by_cases h : i < 8
    · interval_cases i <;> simp [y]
    · simp [y, h, show 8 + (i - 8) = i by omega, BitVec.getLsbD_eq_getElem hi]
  have trig : BitVec.ofNat 32 (fld v 0 1 * 65536) = z := by
    rw [BitVec.ofNat_mul, ofNat_fld v 0 (by decide), show BitVec.ofNat 32 65536 = BitVec.twoPow 32 16 by decide,
      BitVec.mul_twoPow_eq_shiftLeft, BitVec.shiftLeft_and_distrib]
    rfl
  have low : x &&& y = 0 := and_eq_zero_of_masks _ _ (by decide)
  have high : (x ||| y) &&& z = 0 := by
    have xz : x &&& z = 0 := and_eq_zero_of_masks _ _ (by decide)
    have yz : y &&& z = 0 := and_eq_zero_of_masks _ _ (by decide)
    rw [or_and_word, xz, yz]
    rfl
  calc BitVec.ofNat 32 (fld v 4 2 + fld v 8 8 * 256 + fld v 0 1 * 65536) = x + y + z := by
        rw [BitVec.ofNat_add, BitVec.ofNat_add, domain, mask, trig]
    _ = x ||| y ||| z := by rw [BitVec.add_eq_or_of_and_eq_zero _ _ low, BitVec.add_eq_or_of_and_eq_zero _ _ high]
    _ = v >>> 4 &&& 3 ||| v &&& 0xFF00 ||| (v &&& 1) <<< 16 := by rw [BitVec.shiftLeft_and_distrib]; rfl

/-- The header of a capture (R152). -/
def capHeader (s : State) : List Word :=
  let v := rd s 0x0750
  [angWord s, BitVec.ofNat 32 s.ang.count48.toNat, BitVec.ofNat 32 (fld v 4 2 + fld v 8 8 * 256 + fld v 0 1 * 65536), 0]

/-- The capture RAM after a capture: the header, and a record of every cell (R152). -/
def capturedRam (s : State) : Tbl Word :=
  capRecords s (capView s) (capDomain s) (List.range 64) (tsets 0 s.hdg.capRam 0 (capHeader s))

theorem execCaptureRecord_of_triggered {s : State} (armed : s.hdg.capArmed = true) (trig : s.hdg.capTrig = true) :
    exec .captureRecord s = .next (useFree { s with hdg := { s.hdg with
      capRam := capturedRam s, capArmed := false, capTrig := false, capFull := true,
      capDue := (List.range 64).filter (fun c => capDomain s c = 1) } }) := by
  show execCaptureRecord s = _
  rw [execCaptureRecord, armed, trig]
  dsimp only
  rw [forEach_capCell]
  rfl

theorem execCaptureRecord_of_idle {s : State} (idle : s.hdg.capArmed = false ∨ s.hdg.capTrig = false) :
    exec .captureRecord s = .next s := by
  show execCaptureRecord s = _
  rw [execCaptureRecord, if_neg]
  rcases idle with h | h <;> simp [h]

section
variable {s : State} (w : twf 0 s.hdg.capRam = true)
include w

theorem tget_capturedRam_header {k : Nat} {x : Word} (h : (capHeader s)[k]? = some x) : tget 0 (capturedRam s) k = x := by
  have len : k < 4 := (List.getElem?_eq_some_iff.mp h).1
  obtain ⟨-, low, -⟩ := tget_foldl_tsets 0 4 36 (fun c => capWords (cell s c) (capView s c) (capDomain s c))
    (fun _ => length_capWords _ _ _) (twf_tsets 0 0 (capHeader s) w) 64
  have here := tget_tsets_in 0 0 w h
  rw [Nat.zero_add] at here
  exact (low k len).trans here

/-- A cell whose clock is a global clock is recorded as it stands (R150). -/
theorem tget_capturedRam_record {c j : Nat} {x : Word} (hc : c < 64) (clocked : capDomain s c ≠ 2)
    (h : (capWords (cell s c) (cell s c).cur (capDomain s c))[j]? = some x) : tget 0 (capturedRam s) (4 + 36 * c + j) = x := by
  obtain ⟨-, -, recs⟩ := tget_foldl_tsets 0 4 36 (fun c => capWords (cell s c) (capView s c) (capDomain s c))
    (fun _ => length_capWords _ _ _) (twf_tsets 0 0 (capHeader s) w) 64
  refine recs c hc j x ?_
  rwa [capView, if_neg clocked]

/-- The layout of a cell's record (R152). -/
theorem capturedRam_cell {c : Nat} (hc : c < 64) (clocked : capDomain s c ≠ 2) :
    let x := (cell s c).cur
    let at_ := 4 + 36 * c
    let w := tget 0 (capturedRam s) (at_ + 3)
    tget 0 (capturedRam s) at_ = x.acc.setWidth 32 ∧ tget 0 (capturedRam s) (at_ + 1) = x.opb.setWidth 32 ∧
      tget 0 (capturedRam s) (at_ + 2) = x.out.setWidth 32 ∧ fld w 0 3 = x.ix.toNat ∧ bit w 3 = x.cy ∧ bit w 4 = x.q ∧
      fld w 5 5 = x.ptr.toNat ∧ bit w 10 = x.slat ∧ fld w 11 8 = x.tl.toNat ∧ fld w 19 2 = capDomain s c ∧
      bit w 21 = (cell s c).holding ∧ ∀ i < 32, tget 0 (capturedRam s) (at_ + 4 + i) = (tget 0 x.ram i).setWidth 32 := by
  intro x at_ word
  obtain ⟨acc, opb, out, flags, ram⟩ := getElem?_capWords (cell s c) x (capDomain s c)
  have read {j : Nat} {v : Word} := tget_capturedRam_record w (j := j) (x := v) hc clocked
  have fields := capFlags_fields (cell s c) x (capDomain_lt s c)
  rw [← read flags] at fields
  obtain ⟨ix, cy, q, ptr, slat, tl, dom, hold⟩ := fields
  refine ⟨read acc, read opb, read out, ix, cy, q, ptr, slat, tl, dom, hold, fun i hi => ?_⟩
  rw [Nat.add_assoc]
  exact read (ram i hi)

end

end Sys2Proof.Machine
end

section
/-! SUPPORT. The supplies of the FIO banks (R135, R136). -/

namespace Sys2Proof.Machine
open Sys2Proof

/-- Pins 0 to 19 are bank 0's, pins 20 to 39 bank 1's. -/
theorem bankOf_pin {p b : Nat} (hp : p < 40) (h : p / 20 = b) : (if p < 20 then 0 else 1) = b := by
  split_ifs <;> omega

/-- The outputs of a bank that is not enabled are at high impedance (R136). -/
theorem fioOut_of_disabled {s : State} {p b : Nat} (e : Nat) (pins : BitVec 40) (hp : p < 40) (h : p / 20 = b)
    (off : tget false s.hdg.bankEn b = false) : fioOut s e pins p = .hiZ := by
  simp only [fioOut, bankOf_pin hp h, off, Bool.not_false, Bool.true_or, if_true]

/-- The inputs of a bank without its supply read 0 (R135). -/
theorem fioIn_of_off {s : State} {p b : Nat} (pins : BitVec 40) (hp : p < 40) (h : p / 20 = b) (off : bankOn s b = false) :
    fioIn s pins p = false := by
  simp only [fioIn, bankOf_pin hp h, off, Bool.and_false, Bool.false_and]

theorem pins_of_fallen {s : State} {b : Nat} (off : bankOn s b = false) (disabled : tget false s.hdg.bankEn b = false)
    (e : Nat) (pins : BitVec 40) (p : Nat) (hp : p < 40) (h : p / 20 = b) : fioOut s e pins p = .hiZ ∧ fioIn s pins p = false :=
  ⟨fioOut_of_disabled e pins hp h disabled, fioIn_of_off pins hp h off⟩

theorem getLsbD_supply_cleared (x : BitVec 7) (b : Fin 2) :
    (x &&& ~~~(BitVec.ofNat 7 (2 ^ (4 + b.val)))).getLsbD (4 + b.val) = false := by
  fin_cases b <;> simp

theorem getLsbD_supply_set (x : BitVec 7) (b : Fin 2) : (x ||| BitVec.ofNat 7 (2 ^ (4 + b.val))).getLsbD (4 + b.val) = true := by
  fin_cases b <;> simp

/-- The bank `b` with its supply at the level `on`, its outputs not enabled. -/
def bankSupply (s : State) (b : Nat) (on : Bool) (x : BitVec 7) : State :=
  { s with
    hdg := { s.hdg with bankOn := tput s.hdg.bankOn b on, bankEn := tput s.hdg.bankEn b false }
    pwr := { s.pwr with supplies := x } }

theorem bankOn_bankSupply (s : State) (b : Nat) (on : Bool) (x : BitVec 7) : bankOn (bankSupply s b on x) b = on :=
  (tget_tput true s.hdg.bankOn b b on).trans (if_pos rfl)

theorem bankEn_bankSupply (s : State) (b : Nat) (on : Bool) (x : BitVec 7) :
    tget false (bankSupply s b on x).hdg.bankEn b = false :=
  (tget_tput false s.hdg.bankEn b b false).trans (if_pos rfl)

end Sys2Proof.Machine
end

section
open Sys2Proof Sys2Proof.Machine

/-- Settles O32: a write of HDG_CAP_CTRL, the records of a capture read back word by word, and the four commands of a bank's supply. -/
theorem captureAndBankSupplies : Obligations.CaptureAndBankSupplies := by
  unfold Obligations.CaptureAndBankSupplies
  intro s w ramWf
  refine ⟨fun v h => ⟨fun armed full => ?arm, fun taken => execHdgCapArm_of_taken h taken, ?discard⟩, fun armed trig => ?record,
    execCaptureRecord_of_idle, fun b => ⟨?fall, ?rise, ?enable, ?disabled⟩, rfl, rfl⟩
  case arm =>
    refine ⟨_, execHdgCapArm_of_free h armed full, rfl, rd_wr_self v w, ?_, fun r hr => rd_wr_ne s v (Ne.symm hr), rfl⟩
    exact congrArg (fun x => !bit x 0) (rd_wr_self v w)
  case discard =>
    exact ⟨_, execHdgCapDiscard_eq h, rfl, rfl, rd_wr_self v w, fun r hr => rd_wr_ne s v (Ne.symm hr), rfl⟩
  case record =>
    refine ⟨_, execCaptureRecord_of_triggered armed trig, rfl, rfl, tget_capturedRam_header ramWf rfl,
      tget_capturedRam_header ramWf rfl, ?_, tget_capturedRam_header ramWf rfl, fun c hc clocked => ?_, rfl, rfl⟩
    · exact (tget_capturedRam_header ramWf rfl).trans (capHeader_settings _)
    · exact capturedRam_cell ramWf hc clocked
  case fall =>
    have off := bankOn_bankSupply s b false (s.pwr.supplies &&& ~~~(BitVec.ofNat 7 (2 ^ (4 + b.val))))
    have disabled := bankEn_bankSupply s b false (s.pwr.supplies &&& ~~~(BitVec.ofNat 7 (2 ^ (4 + b.val))))
    refine ⟨_, rfl, ?_⟩
    by_cases st : s.pwr.st = 2
    · rw [if_pos st]
      exact ⟨off, getLsbD_supply_cleared _ b, pins_of_fallen off disabled, fun _ => rfl, fun n => absurd st n, fun _ _ => rfl, rfl⟩
    · rw [if_neg st]
      refine ⟨off, getLsbD_supply_cleared _ b, pins_of_fallen off disabled, fun h => absurd h st, fun _ => ?_,
        fun r hr => rd_setFlag_ne _ _ (Ne.symm hr), rfl⟩
      exact (rd_setFlag_self _ w).trans (by rw [place, Nat.one_mul])
  case rise =>
    exact ⟨_, rfl, bankOn_bankSupply s b true _, getLsbD_supply_set _ b,
      fun e pins p hp hb => fioOut_of_disabled e pins hp hb (bankEn_bankSupply s b true _), rfl⟩
  case enable =>
    intro on
    refine ⟨_, (congrArg Host.Outcome.next (if_pos on) :), ?_, rfl⟩
    exact (tget_tput false s.hdg.bankEn b b true).trans (if_pos rfl)
  case disabled =>
    intro off
    show execBankOutputEnable b s = _
    rw [execBankOutputEnable, off]
    rfl

end

section
/-! SUPPORT. The verification of a load at a partition number that no device has. The statement leaves the partition of the load's
command open: the ring of partition 236 is configured by FLT_FIRST, which the report of a reserved field of the image writes. -/

namespace Sys2Proof.Machine
open Sys2Proof

/-- The refusal of partition q's Topiary load for a reserved field: its image is gone, the field is reported, and the command is
answered (R283, R284). -/
def topRefused (s : State) (o : Order) (q d : Nat) : State :=
  finish (reservedField { s with arr := { s.arr with topVer := tdel s.arr.topVer q } }
    ((d % 65536 + d / 2 ^ 18 % 16 * 65536) % 65536) 2) o 0x11 d []

theorem execTopiaryVerifyComplete_of_reserved {s : State} {o : Order} {q d : Nat} {im : List Byte} {rest : List (Order × Nat)}
    (loads : topLoads s = (o, q) :: rest) (image : tget [] s.arr.topVer q = im) (fails : topFail s q im = some (0x11, d)) :
    exec .topiaryVerifyComplete s = .next (topRefused s o q d) := by
  show execTopiaryVerifyComplete s = _
  rw [execTopiaryVerifyComplete, loads]
  dsimp only
  rw [image, fails]
  rfl

/-- An image that passes every check before that of its header's reserved bytes at 0x16 (R283). -/
theorem topFail_of_reserved {s : State} {q plen : Nat} {im : List Byte} (len : entryNat im 0x18 4 = plen)
    (header : headerOk im topMagic = true) (tuple : tupleFail s .topiary im = 0)
    (sizes : (1 ≤ topNrout im ∧ topNrout im ≤ 112) ∧ (1 ≤ topNwords im ∧ topNwords im ≤ 4096) ∧
      plen = 40 * topNrout im + 8 * topNwords im ∧ im.length = imageLen (decide (entryNat im 0x20 2 % 2 = 1)) plen)
    (pcrc : pcrcOk im 0x24 plen = true) (digest : digestOk im plen = true) (fuse : s.boot.authFuse = false)
    (room : topNwords im ≤ 64 * fld (rd s (0x0520 + 4 * q)) 6 7) (reserved : entryNat im 0x16 2 ≠ 0) :
    topFail s q im = some (0x11, imgDetail 0x16 false) := by
  obtain ⟨⟨n1, n2⟩, ⟨w1, w2⟩, total, whole⟩ := sizes
  simp only [topFail, len, header, tuple, decide_eq_true n1, decide_eq_true n2, decide_eq_true w1, decide_eq_true w2,
    decide_eq_true total, decide_eq_true whole, pcrc, digest, authOk, fuse, Nat.not_lt.mpr room]
  exact if_pos reserved

/-- The digest of a payload of 48 zero bytes. -/
def strayDigest : List Byte :=
  [0x17, 0xB0, 0x76, 0x1F, 0x87, 0xB0, 0x81, 0xD5, 0xCF, 0x10, 0x75, 0x7C, 0xCC, 0x89, 0xF1, 0x2B,
   0xE3, 0x55, 0xC7, 0x0E, 0x2E, 0x29, 0xDF, 0x28, 0x8B, 0x65, 0xB3, 0x07, 0x10, 0xDC, 0xBC, 0xD1]

theorem sha256_strayPayload : sha256 (List.replicate 48 0) = strayDigest := by decide +kernel

/-- The fields before the digest of a Topiary image of one routine of one microword, with a reserved byte (offset 0x16) at 1. -/
def strayFields : List Byte :=
  topMagic ++ [1, 0, 96, 0] ++ leBytes 4 0x30 ++ leBytes 4 0x10B00 ++ leBytes 4 0x101 ++ [0, 0, 1, 0] ++ [48, 0, 0, 0] ++ [1, 0, 1, 0] ++
    [0, 0, 0, 0] ++ leBytes 4 0xF288B395

/-- The header of the image without its CRC. -/
def strayHeader : List Byte := strayFields ++ (strayDigest ++ List.replicate 20 0)

/-- The image, all its payload zero. -/
def strayImage : List Byte := strayHeader ++ leBytes 4 0xBC5C7C ++ List.replicate 48 0

theorem crc32_strayHeader : crc32 strayHeader = 0xBC5C7C := by
  have fields : strayFields.foldl crcStep 0xFFFFFFFF = 0x6D372D1B := by decide +kernel
  rw [crc32, strayHeader, List.foldl_append, fields]
  decide +kernel

theorem strayImage_header : headerOk strayImage topMagic = true := by
  have header : strayImage.take 0x5C = strayHeader := by decide +kernel
  have crc : entryNat strayImage 0x5C 4 = 0xBC5C7C := by decide +kernel
  rw [headerOk, header, crc, crc32_strayHeader]
  decide +kernel

theorem strayImage_digest : digestOk strayImage 48 = true := by
  have payload : (strayImage.drop 96).take 48 = List.replicate 48 0 := by decide +kernel
  have held : (strayImage.drop 0x28).take 32 = strayDigest := by decide +kernel
  rw [digestOk, payload, held, sha256_strayPayload]
  exact decide_eq_true rfl

/-- A TOPIARY_LOAD in the ring of partition 236. -/
def strayLoad : Order := { part := 236, mbx := false, opcode := 0x0500, tag := 0, sseq := 0, stamp := 0 }

/-- A device in which that command has loaded the image to the rows of P0: 64 microwords for them (0x0520), and a reply ring of 2,048
entries (0x0E10), of which 100 are in use. -/
def strayVerify : State :=
  { State.reset with
    regs := [(0x0520, 0x40), (0x0E10, 0x70)]
    arr := { Arr.reset with topVer := [(0, strayImage)] }
    prt := { Prt.reset with opens := [⟨strayLoad, .topVerify 0⟩], rqTail := [(236, 100)] } }

theorem strayVerify_loads : topLoads strayVerify = [(strayLoad, 0)] := by decide

theorem strayVerify_image : tget [] strayVerify.arr.topVer 0 = strayImage := rfl

/-- The first check that the image fails is that of the reserved bytes at 0x16. -/
theorem strayVerify_fails : topFail strayVerify 0 strayImage = some (0x11, imgDetail 0x16 false) :=
  topFail_of_reserved (plen := 48) (by decide +kernel) strayImage_header (by decide +kernel) (by decide +kernel) (by decide +kernel)
    strayImage_digest rfl (by decide +kernel) (by decide +kernel)

/-- Its reply can be posted. -/
theorem strayVerify_canPost : canPost strayVerify strayLoad := .inr ⟨rfl, by decide⟩

/-- RESERVED_FIELD is the first fault of the device, so FLT_FIRST takes its index: the ring shrinks to 16 entries, is full, and the
reply is held. -/
theorem strayVerify_holds_reply :
    exec .topiaryVerifyComplete strayVerify = .next (topRefused strayVerify strayLoad 0 (imgDetail 0x16 false)) ∧
    tget 0 (topRefused strayVerify strayLoad 0 (imgDetail 0x16 false)).prt.rqTail 236 = 100 :=
  ⟨execTopiaryVerifyComplete_of_reserved strayVerify_loads strayVerify_image strayVerify_fails, by decide⟩

end Sys2Proof.Machine
end

section
open Sys2Proof Sys2Proof.Machine

/-- Refutes O31: it lets the partition of the load's command be any number, and at 236 the report of the reserved field shrinks the
reply ring that the reply should enter, so a Topiary image with a reserved byte leaves its refusal held and TAIL at 100. -/
theorem not_imageLoadsAreVerified : ¬ Obligations.ImageLoadsAreVerified := by
  unfold Obligations.ImageLoadsAreVerified
  intro h
  obtain ⟨-, -, topiary, -⟩ := h strayVerify (by decide) (by decide) (by decide)
  obtain ⟨refused, -⟩ := topiary strayLoad 0 [] strayVerify_loads
  obtain ⟨t, ran, -, -, -, -, -, replied⟩ := refused _ _ strayVerify_fails
  obtain ⟨held, tail⟩ := strayVerify_holds_reply
  obtain rfl : topRefused strayVerify strayLoad 0 (imgDetail 0x16 false) = t := Host.Outcome.next.inj (held.symm.trans ran)
  obtain ⟨-, -, ring⟩ := replied strayVerify_canPost
  obtain ⟨advanced, -⟩ := ring rfl
  have posted : (tget 0 strayVerify.prt.rqTail 236 + 1) % 65536 = 101 := by decide
  exact absurd (tail.symm.trans (advanced.trans posted)) (by decide)

end

section
/-! SUPPORT. The loads of the conductor (R320, R329, R332, R333): the value that the bytes spell, extended, and what a load does
where it issues. -/

namespace Sys2Proof.Machine
open Sys2Proof

/-- The low 32 bits of a value of `w` bits taken as signed are its extension by the sign (R329). -/
theorem ofNat_lowBits_sInt {w v : Nat} (hw : 0 < w) (h : v < 2 ^ w) :
    BitVec.ofNat 32 (lowBits 32 (sInt w v)) = (BitVec.ofNat w v).signExtend 32 := by
  have signed : sInt w v = (BitVec.ofNat w v).toInt := by
    rw [BitVec.toInt_eq_msb_cond, BitVec.msb_eq_getLsbD_last, BitVec.getLsbD_ofNat, decide_eq_true (by omega), Bool.true_and,
      BitVec.toNat_ofNat, Nat.mod_eq_of_lt h, sInt]
  rw [signed, BitVec.signExtend, lowBits]
  apply BitVec.eq_of_toNat_eq
  rw [BitVec.toNat_ofNat, BitVec.toNat_ofInt]
  omega

theorem length_tgets {α : Type} (d : α) (t : Tbl α) (a n : Nat) : (tgets d t a n).length = n := by
  induction n generalizing a with
  | zero => rfl
  | succ n ih => rw [tgets, List.length_cons, ih]

theorem leNat_lt (bs : List Byte) : leNat bs < 256 ^ bs.length := by
  induction bs with
  | nil => exact Nat.one_pos
  | cons b bs ih =>
    have := b.isLt
    rw [leNat, List.length_cons, Nat.pow_succ]
    omega

theorem leNat_rdBytes_lt (s : State) (a n : Nat) : leNat (rdBytes s a n) < 256 ^ n := by
  have h := leNat_lt (rdBytes s a n)
  rwa [rdBytes, length_tgets] at h

/-- Bytes of memory that no error marks are the same where the instruction issues. -/
theorem CndDone.rdBytes {u t : State} (h : CndDone u t) (e : u.cnd.memErr = []) (a n : Nat) : rdBytes t a n = rdBytes u a n := by
  rw [Machine.rdBytes, Machine.rdBytes, (h.mem e).1]

section
variable {s : State} {n : Nat} {m : AddrMode} {bad : Bool} {size : Nat} {keys : List Nat} {put : State → Nat → State}
  (hc : runsClean { op1 (addrKeys s n m) with illegal := bad, acc := some (accOf s n m size false) } s = true)
include hc

/-- A load that runs clean, as it stands where it issues. -/
theorem loadOp_clean : ∃ t, loadOp bad n m size keys put s = .next t ∧
    let w := issueAt { op1 (addrKeys s n m) with illegal := bad, acc := some (accOf s n m size false) } s
    CndDone (goNext (put (stepBase (loadVal w (effAddr s n m size) size).1 n m size) (loadVal w (effAddr s n m size) size).2) 4) t :=
  cndStep_clean (o := { op1 (addrKeys s n m) with
      illegal := bad, cc := (loadTime (effAddr s n m size) size).1,
      dlv := keys.map (fun k => (k, (loadTime (effAddr s n m size) size).2)), acc := some (accOf s n m size false) }) hc
    (fun x => put (stepBase (loadVal x (effAddr s n m size) size).1 n m size) (loadVal x (effAddr s n m size) size).2)

/-- A word load of a management register reads it, with the effect that the read has (R16, R332). -/
theorem loadOp_mgmt (hm : isMgmt (effAddr s n m size) = true) : ∃ t, loadOp bad n m size keys put s = .next t ∧
    let w := issueAt { op1 (addrKeys s n m) with illegal := bad, acc := some (accOf s n m size false) } s
    let a := (effAddr s n m size).toNat % 65536
    CndDone (goNext (put (stepBase (latch w a) n m size) (regVal w a).toNat) 4) t := by
  obtain ⟨t, e, d⟩ := loadOp_clean (keys := keys) (put := put) hc
  simp only [loadVal, hm, if_true] at d
  exact ⟨t, e, d⟩

/-- A load of memory that runs clean puts the number that its bytes spell (R329, R333). -/
theorem loadOp_mem (hm : isMgmt (effAddr s n m size) = false) (me : s.cnd.memErr = [])
    (hp : ∀ u t v, CndDone u t → CndDone (put u v) (put t v)) : ∃ t, loadOp bad n m size keys put s = .next t ∧
      CndDone (goNext (put (stepBase s n m size) (leNat (rdBytes s (effAddr s n m size).toNat size))) 4) t := by
  obtain ⟨t, e, d⟩ := loadOp_clean (keys := keys) (put := put) hc
  refine ⟨t, e, ?_⟩
  have i := issueAt_done { op1 (addrKeys s n m) with illegal := bad, acc := some (accOf s n m size false) } s
  simp only [loadVal, hm, Bool.false_eq_true, if_false, i.rdBytes me] at d
  exact ((hp _ _ _ (i.stepBase n m size)).goNext 4).trans d

end

section
variable {s : State} {d : Fin 16} {n : Fin 8} {m : AddrMode} {size : Nat}
  (hc : runsClean { op1 (addrKeys s n m) with illegal := false, acc := some (accOf s n m size false) } s = true)
  (hm : isMgmt (effAddr s n m size) = false) (me : s.cnd.memErr = [])
include hc hm me

/-- A load of a data register extended by its sign. -/
theorem ldData_signed (h : 0 < size) : ∃ t, ldData true size d n m s = .next t ∧
    CndDone (goNext (setD (stepBase s n m size) d
      ((BitVec.ofNat (8 * size) (leNat (rdBytes s (effAddr s n m size).toNat size))).signExtend 32)) 4) t := by
  have lt := leNat_rdBytes_lt s (effAddr s n m size).toNat size
  rw [show (256 : Nat) = 2 ^ 8 from rfl, ← Nat.pow_mul] at lt
  rw [← ofNat_lowBits_sInt (by omega) lt]
  exact loadOp_mem hc hm me (fun _ _ _ h => h.setD d _)

/-- A load of a data register extended by zeros. -/
theorem ldData_unsigned : ∃ t, ldData false size d n m s = .next t ∧
    CndDone (goNext (setD (stepBase s n m size) d (BitVec.ofNat 32 (leNat (rdBytes s (effAddr s n m size).toNat size)))) 4) t :=
  loadOp_mem hc hm me (fun _ _ _ h => h.setD d _)

end

/-- LD.W of a management register. -/
theorem execCLdW_of_mgmt {s : State} {d : Fin 16} {n : Fin 8} {m : AddrMode}
    (hc : runsClean { op1 (addrKeys s n m) with illegal := false, acc := some (accOf s n m 4 false) } s = true)
    (hm : isMgmt (effAddr s n m 4) = true) :
    let w := issueAt { op1 (addrKeys s n m) with illegal := false, acc := some (accOf s n m 4 false) } s
    let a := (effAddr s n m 4).toNat % 65536
    finishes (.cLdW d n m) s (goNext (setD (stepBase (latch w a) n m 4) d (regVal w a)) 4) := by
  intro w a
  obtain ⟨t, ran, done⟩ := loadOp_mgmt (keys := [dKey s d]) (put := fun x v => setD x d (BitVec.ofNat 32 v)) hc hm
  refine ⟨t, ran, ?_⟩
  simp only [BitVec.ofNat_toNat, BitVec.setWidth_eq] at done
  exact done

end Sys2Proof.Machine
end

section
/-! SUPPORT. The plane-port channel (R165, R192, R233, R335). -/

namespace Sys2Proof.Machine
open Sys2Proof

section
variable {u t : State} (h : CndDone u t)
include h

theorem CndDone.arr : t.arr = u.arr := (congrArg State.arr h.others :)
theorem CndDone.smp : t.smp = u.smp := (congrArg State.smp h.others :)
theorem CndDone.frm : t.frm = u.frm := (congrArg State.frm h.others :)

theorem CndDone.readHalf : readHalf t = readHalf u := by rw [Machine.readHalf, Machine.readHalf, h.frm]

theorem CndDone.laneFill (half : Bool) (n : Nat) : laneFill t half n = laneFill u half n := by
  rw [Machine.laneFill, Machine.laneFill, h.smp]

theorem CndDone.recHeld (a : Nat) : recHeld t a = recHeld u a := by
  simp only [Machine.recHeld, h.readHalf, h.laneFill]

/-- A sample record reads the same where the instruction issues. -/
theorem CndDone.xferBad {a : Nat} (ha : 0x70000000 ≤ a) : xferBad t a = xferBad u a := by
  rw [Machine.xferBad, Machine.xferBad, if_pos ha, if_pos ha, h.recHeld, h.smp]

theorem CndDone.xferWord {a : Nat} (ha : 0x70000000 ≤ a) : xferWord t a = xferWord u a := by
  simp only [Machine.xferWord, if_pos ha, h.readHalf, storeRec, h.laneFill, h.smp]

theorem CndDone.pushWord (w : Word) : CndDone (pushWord u w) (pushWord t w) where
  cnd := h.cnd
  mem := h.mem
  regs := h.regs
  others := by
    have e := congrArg (fun x : State => { x with arr := { u.arr with queue := u.arr.queue ++ [w] } }) h.others
    rw [Machine.pushWord, Machine.pushWord, h.arr]
    exact e

end

/-- What QSTAT reads: the free entries, and the retired count from bit 16 (R233). -/
theorem qstat_eq {f r : Nat} (h : f < 65536) : place f 0 ||| place r 16 = BitVec.ofNat 32 (f + 65536 * r) := by
  rw [place, place, ← BitVec.ofNat_or]
  congr 1
  have := Nat.two_pow_add_eq_or_of_lt (i := 16) (b := f) (by simpa using h) r
  rw [Nat.or_comm, pow_zero, Nat.mul_one, Nat.mul_comm r, ← this]
  omega

theorem secded_zero (k : Nat) : secded k 0 = some 0 := by
  have none_ : onesNat 0 ≤ 1 := by decide
  simp only [secded, if_pos none_]

section
variable {s : State} (clean : s.smp.stampErr = [])
include clean

/-- No stamp is in error beyond correction where none is in error. -/
theorem planeBad_stamp {a : Nat} (ha : 0x70080000 ≤ a) : planeBad s a = false := by
  simp only [planeBad, if_neg (show ¬a < 0x70000000 by omega), if_neg (Nat.not_lt.mpr ha), clean]
  rw [show tget 0 ([] : Tbl Nat) _ = 0 from rfl, secded_zero]
  exact Bool.and_false _

/-- A stamp without an error is left as it is. -/
theorem stampFix_of_clean (a : Nat) (w : twf 0 s.smp.stamps = true) : stampFix s a = s := by
  unfold stampFix
  split
  · rfl
  · have read (k : Nat) : tget 0 s.smp.stampErr k = 0 := by rw [clean]; rfl
    have kept (k : Nat) : tset 0 s.smp.stamps k (tget 0 s.smp.stamps k ^^^ BitVec.ofNat 64 0) = s.smp.stamps := by
      rw [BitVec.xor_zero, tset_tget 0 w]
    have gone (k : Nat) : tdel s.smp.stampErr k = s.smp.stampErr := by rw [clean]; rfl
    simp only [read, secded_zero, kept, gone]
    split <;> rfl

end

section
variable {s : State} {d : Fin 16} {n : Fin 8} {m : AddrMode}

/-- PLD reads the word that the plane port has at the address, when that word is not in error and no correction is due. -/
theorem execCPld_reads {v : Word}
    (hc : runsClean { (op1 (addrKeys s n m)).once with
      illegal := !m.plane, acc := some { accOf s n m 4 false with plane := true } } s = true)
    (sound : ∀ x, CndDone s x → planeBad x (effAddr s n m 4).toNat = false ∧ stampFix x (effAddr s n m 4).toNat = x ∧
      planeWord x (effAddr s n m 4).toNat = v) :
    finishes (.cPld d n m) s (goNext (setD s d v) 4) := by
  refine ⟨_, rfl, ?_⟩
  have i := issueAt_done { (op1 (addrKeys s n m)).once with
      illegal := !m.plane, dlv := [(dKey s d, 3)], acc := some { accOf s n m 4 false with plane := true } } s
  obtain ⟨good, whole, word⟩ := sound _ i
  refine CndDone.trans ?_ (cndRun_clean (o := { (op1 (addrKeys s n m)).once with
      illegal := !m.plane, dlv := [(dKey s d, 3)], acc := some { accOf s n m 4 false with plane := true } }) hc _)
  simp only [good, Bool.false_eq_true, if_false, whole, word]
  exact (i.setD d v).goNext 4

variable (hc : runsClean { (op1 (dKey s d :: addrKeys s n m)).once with
  illegal := !m.plane, acc := some { accOf s n m 4 true with plane := true } } s = true)
include hc

/-- PST appends its word to the queue while an entry is free (R233). -/
theorem execCPst_of_room (room : s.arr.queue.length < 256) :
    finishes (.cPst d n m) s (goNext (pushWord s (dReg s d)) 4) := by
  refine ⟨_, rfl, ?_⟩
  have i := issueAt_done { (op1 (dKey s d :: addrKeys s n m)).once with
    illegal := !m.plane, acc := some { accOf s n m 4 true with plane := true } } s
  refine CndDone.trans ?_ (cndRun_clean hc _)
  rw [if_neg (by rw [i.arr]; omega), i.dReg]
  exact (i.pushWord _).goNext 4

/-- PST holds the conductor while the queue is full (R233). -/
theorem execCPst_of_full (full : 256 ≤ s.arr.queue.length) :
    finishes (.cPst d n m) s { s with cnd := { s.cnd with held := some (dReg s d) } } := by
  refine ⟨_, rfl, ?_⟩
  have i := issueAt_done { (op1 (dKey s d :: addrKeys s n m)).once with
    illegal := !m.plane, acc := some { accOf s n m 4 true with plane := true } } s
  refine CndDone.trans ?_ (cndRun_clean hc _)
  rw [if_pos (by rw [i.arr]; omega), i.dReg]
  exact i.modCnd (f := fun c => { c with held := some (dReg s d) })
    (fun c k e => (congrArg (fun x : Cnd => { x with held := some (dReg s d) }) e).symm) (fun _ => ⟨rfl, rfl, rfl, rfl⟩)

end

/-- The store that holds the conductor completes once an entry has freed (R233). -/
theorem execCQpushResume_of_room {s : State} {w : Word} (held : s.cnd.held = some w) (room : s.arr.queue.length < 256) :
    exec .cQpushResume s = .next (goNext (pushWord (modCnd s (fun c => { c with held := none })) w) 4) := by
  show execCQpushResume s = _
  rw [execCQpushResume, held]
  exact congrArg Host.Outcome.next (if_pos room)

/-! What the plane port has at each address. -/

section
variable {s : State} {a : Nat}

/-- Below the stamps nothing is corrected, and below the records nothing is in error. -/
theorem plane_of_control (h : a < 0x70000000) : planeBad s a = false ∧ stampFix s a = s :=
  ⟨if_pos h, if_pos (by omega)⟩

theorem planeWord_qstat (s : State) : planeWord s 0x60000004 = BitVec.ofNat 32 (256 - s.arr.queue.length + 65536 * s.arr.retired) := by
  rw [← qstat_eq (by omega)]
  rfl

theorem plane_of_record (lo : 0x70000000 ≤ a) (hi : a < 0x70080000) :
    planeBad s a = xferBad s a ∧ stampFix s a = s ∧ planeWord s a = xferWord s a := by
  refine ⟨?_, if_pos hi, ?_⟩
  · rw [planeBad, if_neg (by omega), if_pos hi]
  · rw [planeWord, if_neg (by omega), if_neg (by omega), if_neg (by omega), if_pos hi]

/-- The word of a stamp, of the half that is read (R163, R165). -/
def stampRead (s : State) (a : Nat) : Word :=
  let half := decide (0x70082000 ≤ a)
  if readHalf s = some half then stampWord s half (a % 0x2000 / 8) (decide (a % 8 = 4)) else 0

theorem planeWord_stamp (lo : 0x70080000 ≤ a) : planeWord s a = stampRead s a := by
  rw [planeWord, if_neg (by omega), if_neg (by omega), if_neg (by omega), if_neg (by omega)]
  rfl

theorem CndDone.stampRead {u t : State} (h : CndDone u t) (a : Nat) : stampRead t a = stampRead u a := by
  simp only [Machine.stampRead, h.readHalf, stampWord, h.smp]

end

end Sys2Proof.Machine
end

section
open Sys2Proof Sys2Proof.Machine

/-- Settles O4: every load is one `loadOp`, PLD reads what the plane port has at each of its addresses, and PST appends or holds. -/
theorem conductorLoadsAndPlanePort : Obligations.ConductorLoadsAndPlanePort := by
  unfold Obligations.ConductorLoadsAndPlanePort
  constructor
  · intro s d e n m op clean val puts putsF
    refine ⟨fun ⟨hc, hm, me⟩ => ⟨ldData_signed hc hm me (by decide), ldData_unsigned hc hm me⟩,
      fun ⟨hc, hm, me⟩ => ⟨ldData_signed hc hm me (by decide), ldData_unsigned hc hm me⟩,
      fun ⟨hc, hm, me⟩ => ⟨ldData_unsigned hc hm me, loadOp_mem hc hm me (fun _ _ v h => h.setF d (BitVec.ofNat 64 v))⟩,
      fun ⟨hc, hm, me⟩ => loadOp_mem (put := fun x v => setDPair x d v) hc hm me (fun _ _ v h => h.setDPair d v),
      fun ⟨hc, hm, me⟩ => loadOp_mem hc hm me (fun _ _ v h => h.setF d (BitVec.ofNat 64 v)),
      fun ⟨hc, hm, me⟩ => loadOp_mem hc hm me (fun _ _ v h => h.setA e (BitVec.ofNat 32 v)), execCLdW_of_mgmt⟩
  · intro s d n m wf acc ea
    refine ⟨fun hc => ?pld, fun hc => ⟨execCPst_of_room hc, execCPst_of_full hc⟩,
      fun w held room => execCQpushResume_of_room held room⟩
    intro reads
    refine ⟨fun h => ?_, fun h => ?_, fun h => ?_, fun lo hi good => ?_, fun lo clean => ?_⟩
    · refine execCPld_reads hc fun x i => ?_
      obtain ⟨good, whole⟩ := plane_of_control (s := x) (show ea < 0x70000000 by omega)
      exact ⟨good, whole, by rw [show (effAddr s n m 4).toNat = 0x60000000 from h]; rfl⟩
    · refine execCPld_reads hc fun x i => ?_
      obtain ⟨good, whole⟩ := plane_of_control (s := x) (show ea < 0x70000000 by omega)
      refine ⟨good, whole, ?_⟩
      rw [show (effAddr s n m 4).toNat = 0x60000004 from h, planeWord_qstat, i.arr]
    · refine execCPld_reads hc fun x i => ?_
      obtain ⟨good, whole⟩ := plane_of_control (s := x) (show ea < 0x70000000 by omega)
      refine ⟨good, whole, ?_⟩
      rw [show (effAddr s n m 4).toNat = 0x60000008 from h, ← i.arr]
      rfl
    · refine execCPld_reads hc fun x i => ?_
      obtain ⟨bad, whole, word⟩ := plane_of_record (s := x) lo hi
      exact ⟨bad.trans ((i.xferBad lo).trans good), whole, word.trans (i.xferWord lo)⟩
    · refine execCPld_reads hc fun x i => ?_
      have err : x.smp.stampErr = [] := by rw [i.smp, clean]
      exact ⟨planeBad_stamp err lo, stampFix_of_clean err _ (by rw [i.smp, wf]), (planeWord_stamp lo).trans (i.stampRead ea)⟩

end

section
/-! SUPPORT. One reply to a command, at dispatch or with ACCEPTED: the fields of its entry, where it stands, and what it leaves alone
(R390, R395, R396, R400, R451, R453). -/

namespace Sys2Proof.Machine
open Sys2Proof

theorem entryNat_leBytes_append (n v : Nat) (r : List Byte) : entryNat (leBytes n v ++ r) 0 n = v % 256 ^ n := by
  rw [entryNat, List.drop_zero, List.take_left' (length_leBytes n v), ← leBytes_mod,
    leNat_leBytes (Nat.mod_lt _ (Nat.pow_pos (by decide)))]

theorem entryNat_append_of_le {l r : List Byte} {off n : Nat} (h : l.length ≤ off) :
    entryNat (l ++ r) off n = entryNat r (off - l.length) n := by
  rw [entryNat, List.drop_append, List.drop_of_length_le h, List.nil_append, entryNat]

theorem entryIs_cmdEntry (s : State) (o : Order) {status : Nat} (detail : Nat) (body : List Byte) (h : status < 256) :
    entryIs (cmdEntry s o status detail body) o status detail body := by
  have sseq : o.sseq.toNat % 4294967296 = o.sseq.toNat := Nat.mod_eq_of_lt o.sseq.isLt
  have low := Nat.mod_eq_of_lt h
  refine ⟨length_replyBytes .., ?_, ?_, ?_, ?_, ?_, ?_, ?_, List.drop_left' (by simp [length_leBytes])⟩
  all_goals simp [cmdEntry, replyBytes, entryNat_append_of_le, length_leBytes, entryNat_leBytes_append, sseq, low]

/-- The final reply of a mailbox command stands in the RPL region. -/
theorem performed_mbxReply {s : State} {o : Order} {status detail : Nat} {body e : List Byte} (mbx : o.mbx = true)
    (final : status ≠ 1) (he : entryIs e o status detail body) : Performed s (mbxReply s e) o status detail body where
  replied := by
    have read : tgets 0 (mbxReply s e).prt.mbxRpl 0 64 = e := by
      have read := tgets_tsets (0 : Byte) (t := []) 0 (vs := e) (twf_nil 0) (k := 0) (n := 64) (by rw [he.1])
      rwa [List.drop_zero, List.take_of_length_le (by rw [he.1])] at read
    exact ⟨fun _ h => absurd h final, fun _ _ => ⟨rfl, by rwa [read]⟩, fun ring => by simp [mbx] at ring⟩
  prt := rfl
  mem _ _ := rfl
  cnd := rfl
  others := rfl

/-- A reply through a ring with room stands at its TAIL. -/
theorem performed_post {s : State} {o : Order} {status detail : Nat} {body e : List Byte} (ring : o.mbx = false)
    (room : canPost s o) (w : Memory.wf 0 s.cnd.mem = true) (he : entryIs e o status detail body) :
    Performed s (post s o.part e) o status detail body := by
  obtain ⟨held, free⟩ := room.resolve_left (by simp [ring])
  rw [post_of_room held free]
  obtain ⟨T, traced⟩ := ringPost_traced s o.part e
  rw [traced]
  have read := rdBytes_ringEntry (s := s) (p := o.part) (e := e) rfl (k := 0) (n := 64) w (by rw [he.1])
  rw [List.drop_zero, List.take_of_length_le (by rw [he.1])] at read
  exact {
    replied := ⟨fun h => by simp [ring] at h, fun h => by simp [ring] at h, fun _ => ⟨rqTail_ringEntry s o.part e, by
      rw [show rdBytes (withTrace (ringEntry s o.part e) T) (rqAddr s o.part (tget 0 s.prt.rqTail o.part)) 64 = e from read]
      exact he⟩⟩
    prt := rfl
    mem := fun _ h => rdMem_ringEntry_out rfl he.1 (h.resolve_left (by simp [ring]))
    cnd := rfl
    others := rfl }

theorem closeOrder_of_unused {s : State} {o : Order} (opens : ∀ w ∈ s.prt.opens, w.ord.stamp ≠ o.stamp)
    (msgs : ∀ m ∈ s.prt.msgs, m.2.ord.stamp ≠ o.stamp) : closeOrder s o = s := by
  unfold closeOrder
  rw [List.filter_eq_self.mpr fun w h => bne_iff_ne.mpr (opens w h), List.filter_eq_self.mpr fun m h => bne_iff_ne.mpr (msgs m h)]

section
variable {s : State} {o : Order} (room : canPost s o) (w : Memory.wf 0 s.cnd.mem = true)
include room w

/-- A final reply at dispatch: its order had nothing open. -/
theorem performed_finish (opens : ∀ w ∈ s.prt.opens, w.ord.stamp ≠ o.stamp) (msgs : ∀ m ∈ s.prt.msgs, m.2.ord.stamp ≠ o.stamp)
    {status : Nat} (detail : Nat) (body : List Byte) (byte : status < 256) (final : status ≠ 1) :
    Performed s (finish s o status detail body) o status detail body := by
  have he := entryIs_cmdEntry s o detail body byte
  unfold finish
  rw [closeOrder_of_unused opens msgs]
  dsimp only
  split
  · next mbx => exact performed_mbxReply mbx final he
  · next ring => exact performed_post (Bool.not_eq_true _ ▸ ring) room w he

/-- `s` with the order open until `t` completes it. -/
def withOpen (s : State) (o : Order) (t : Wait) : State := { s with prt := { s.prt with opens := s.prt.opens ++ [⟨o, t⟩] } }

theorem performed_accept (t : Wait) (body : List Byte) : Performed (withOpen s o t) (accept s o t body) o 1 0 body := by
  unfold accept
  dsimp only
  split
  · next mbx =>
    exact {
      replied := ⟨fun _ _ => rfl, fun _ h => absurd rfl h, fun ring => by simp [mbx] at ring⟩
      prt := rfl
      mem := fun _ _ => rfl
      cnd := rfl
      others := rfl }
  · next ring =>
    have ring : o.mbx = false := by simpa using ring
    exact performed_post (s := withOpen s o t) ring room w (entryIs_cmdEntry _ o 0 body (by decide))

theorem performed_stageB (c : Cmd) (mine : c.ord = o) (unit : ResUnit) (k : ChangeKind) (none : s.prt.changes = []) :
    Performed (withOpen (withChange s o unit k) o .boundary) (stageB s c unit k) o 1 0 [] := by
  subst mine
  have h := performed_accept room w .boundary []
  have same : (accept s c.ord .boundary []).prt.changes = [] := (congrArg Prt.changes h.prt :).trans none
  unfold stageB addChange
  rw [same]
  exact {
    replied := h.replied
    prt := (congrArg (fun y : Prt => (withChange { s with prt := y } c.ord unit k).prt) h.prt :)
    mem := h.mem
    cnd := h.cnd
    others := (congrArg (fun y : State => withChange y c.ord unit k) h.others :) }

theorem performed_openMsg (c : Cmd) (mine : c.ord = o) (src : MsgSrc) (len p0 p1 : Nat) (t : Wait) {slot : Nat}
    (free : freeSlot s = some slot) :
    Performed (withOpen (withMsg s o slot src len p0 p1) o t) (openMsg s c src len p0 p1 t) o 1 0 (leBytes 4 slot ++ leBytes 4 len) := by
  subst mine
  have h := performed_accept room w t (leBytes 4 slot ++ leBytes 4 len)
  unfold openMsg
  rw [free]
  exact {
    replied := h.replied
    prt := (congrArg (fun y : Prt => (withMsg { s with prt := y } c.ord slot src len p0 p1).prt) h.prt :)
    mem := h.mem
    cnd := h.cnd
    others := (congrArg (fun y : State => withMsg y c.ord slot src len p0 p1) h.others :) }

end

end Sys2Proof.Machine
end

section
/-! SUPPORT. The dispatch of an order that `Takes` describes, as far as its card's own checks (R395, R449, R450, R458). -/

namespace Sys2Proof.Machine
open Sys2Proof

theorem takeSub_eq (s : State) (x : Sub) :
    takeSub s x = { s with prt := (takeSub s x).prt, cnd := { s.cnd with again := false } } := by
  unfold takeSub
  dsimp only
  split <;> rfl

/-- Beside the submissions, HEAD and the journal, taking an order leaves the ports as they are. -/
theorem takeSub_prt (s : State) (x : Sub) :
    { (takeSub s x).prt with subs := s.prt.subs, sqHead := s.prt.sqHead, last := s.prt.last } = s.prt := by
  unfold takeSub
  dsimp only
  split <;> rfl

section
variable (s : State) (x : Sub)

theorem takeSub_opens : (takeSub s x).prt.opens = s.prt.opens := (congrArg Prt.opens (takeSub_prt s x) :)
theorem takeSub_msgs : (takeSub s x).prt.msgs = s.prt.msgs := (congrArg Prt.msgs (takeSub_prt s x) :)
theorem takeSub_changes : (takeSub s x).prt.changes = s.prt.changes := (congrArg Prt.changes (takeSub_prt s x) :)
theorem takeSub_rqHead : (takeSub s x).prt.rqHead = s.prt.rqHead := (congrArg Prt.rqHead (takeSub_prt s x) :)
theorem takeSub_rqTail : (takeSub s x).prt.rqTail = s.prt.rqTail := (congrArg Prt.rqTail (takeSub_prt s x) :)
theorem takeSub_hold : (takeSub s x).prt.hold = s.prt.hold := (congrArg Prt.hold (takeSub_prt s x) :)
theorem takeSub_regs : (takeSub s x).regs = s.regs := by rw [takeSub_eq]
theorem takeSub_pwr : (takeSub s x).pwr = s.pwr := by rw [takeSub_eq]
theorem takeSub_grp : (takeSub s x).grp = s.grp := by rw [takeSub_eq]
theorem takeSub_hdg : (takeSub s x).hdg = s.hdg := by rw [takeSub_eq]
theorem takeSub_arr : (takeSub s x).arr = s.arr := by rw [takeSub_eq]
theorem takeSub_frm : (takeSub s x).frm = s.frm := by rw [takeSub_eq]
theorem takeSub_scb : (takeSub s x).scb = s.scb := by rw [takeSub_eq]
theorem takeSub_boot : (takeSub s x).boot = s.boot := by rw [takeSub_eq]
theorem takeSub_mem : (takeSub s x).cnd.mem = s.cnd.mem := by rw [takeSub_eq]

theorem freeSlot_takeSub : freeSlot (takeSub s x) = freeSlot s := by rw [freeSlot, freeSlot, takeSub_msgs]

theorem hasRight_takeSub (p b : Nat) : hasRight (takeSub s x) p b = hasRight s p b := by
  rw [hasRight, hasRight, rd, rd, takeSub_regs]

end

/-- The order dispatched next is dispatchable. -/
theorem dispatchable_of_nextOrder {s : State} {x : Sub} (h : nextOrder s = some x) : dispatchable s x = true := by
  unfold nextOrder at h
  split at h
  · next found =>
    cases h
    have := List.find?_some found
    simp only [Bool.and_eq_true] at this
    exact this.2
  · have := List.find?_some h
    simp only [Bool.and_eq_true] at this
    exact this.2

theorem canPost_of_dispatchable {s : State} {x : Sub} (h : dispatchable s x = true) : canPost (takeSub s x) (orderAt s x) := by
  simp only [dispatchable, Bool.and_eq_true, Bool.or_eq_true, List.isEmpty_iff, decide_eq_true_eq] at h
  refine h.2.imp id fun ⟨⟨held, free⟩, _⟩ => ?_
  show holdQ _ x.part = [] ∧ rqCount _ x.part < rqDepth _ x.part
  rw [holdQ, takeSub_hold, rqCount, takeSub_rqTail, takeSub_rqHead, rqDepth, rd, takeSub_regs]
  exact ⟨held, (Nat.lt_add_of_pos_right (by decide)).trans_le free⟩

/-- A card of a plain order, whose lengths are right and whose rights the partition of `x` holds, at the dispatch of `x`. -/
structure Reaches (k : Card) (s : State) (x : Sub) (mlen : Nat) : Prop where
  takes : Takes s x k.op (k.plen (cmdOf s x)) mlen
  words : k.plen (cmdOf s x) % 4 = 0
  message : mlenOk (k.msg (cmdOf s x)) mlen = true
  noMbx : x.mbx = false ∨ k.msg (cmdOf s x) = .none
  plain : k.ring = false ∧ k.fp = false ∧ k.op ≠ 0x0A00
  right : noRight (takeSub s x) k (cmdOf s x) = none

namespace Reaches
variable {k : Card} {s : State} {x : Sub} {mlen : Nat} (h : Reaches k s x mlen)
include h

theorem room : canPost (takeSub s x) (orderAt s x) := by
  obtain ⟨⟨-, next, -⟩, -⟩ := h.takes
  exact canPost_of_dispatchable (dispatchable_of_nextOrder next)

theorem wf : Memory.wf 0 (takeSub s x).cnd.mem = true := by
  obtain ⟨⟨-, -, -, -, wf, -⟩, -⟩ := h.takes
  rwa [takeSub_mem]

theorem no_changes : (takeSub s x).prt.changes = [] := by
  obtain ⟨-, -, -, -, -, -, none, -⟩ := h.takes
  rw [takeSub_changes, none]

theorem dispatch_eq : dispatch k s = runCard k (takeSub s x) (cmdOf s x) := by
  obtain ⟨⟨ready, next, -⟩, ⟨op, -⟩, -⟩ := h.takes
  simp only [dispatch, ready, next, if_true]
  exact if_pos op

theorem badHeader_eq : badHeader (cmdOf s x) = [] := by
  obtain ⟨-, ⟨-, -, low, zero, -⟩, -⟩ := h.takes
  change entryNat (cmdOf s x).e 6 1 < 2 at low
  change entryNat (cmdOf s x).e 7 1 = 0 at zero
  rw [badHeader, if_neg (Nat.not_le.mpr low), if_neg (not_not.mpr zero), List.append_nil]

theorem badLength_eq : badLength k (cmdOf s x) = none := by
  obtain ⟨-, ⟨-, plen, -, -, mlen⟩, -⟩ := h.takes
  have direct : ((cmdOf s x).ord.mbx && k.msg (cmdOf s x) != .none) = false := by
    rcases h.noMbx with mbx | none
    · rw [show (cmdOf s x).ord.mbx = x.mbx from rfl, mbx, Bool.false_and]
    · rw [none, bne_self_eq_false, Bool.and_false]
  unfold badLength
  rw [direct, show (cmdOf s x).mlen = _ from mlen, show (cmdOf s x).plen = _ from plen, h.message]
  exact if_pos ⟨rfl, h.words, rfl, rfl⟩

theorem notLeader_eq : notLeader (takeSub s x) k (cmdOf s x) = false := by
  obtain ⟨-, -, -, -, role, retired, -⟩ := h.takes
  rw [notLeader, takeSub_grp, retired, member_of_solo (by rw [takeSub_grp, role])]
  rfl

theorem conflictWith_eq : conflictWith (takeSub s x) k (cmdOf s x) = none := by
  obtain ⟨-, ⟨op, -⟩, -, -, -, -, -, beaten⟩ := h.takes
  have other : (cmdOf s x).ord.opcode ≠ 0x0A00 := fun e => h.plain.2.2 (op.symm.trans e)
  have free : (cmdOf s x).beaten = none := beaten
  simp [conflictWith, free, h.no_changes, other]

/-- Past the checks that all cards share. -/
theorem runCard_eq : runCard k (takeSub s x) (cmdOf s x) = match k.bad (takeSub s x) (cmdOf s x) with
    | b :: _ => refuseField (takeSub s x) (cmdOf s x) b
    | [] => match busyCause (takeSub s x) k (cmdOf s x), k.other (takeSub s x) (cmdOf s x) with
      | some d, _ => refuse (takeSub s x) (cmdOf s x) 0x16 d
      | none, some (st, d) => refuse (takeSub s x) (cmdOf s x) st d
      | none, none => k.run (takeSub s x) (cmdOf s x) := by
  obtain ⟨-, -, safe, awake, -⟩ := h.takes
  obtain ⟨ring, fp, -⟩ := h.plain
  have safe' : safeMode (takeSub s x) = false := by rw [safeMode, rd, takeSub_regs, ← safe, safeMode, rd]
  have awake' : (takeSub s x).pwr.st ≠ 2 := by rwa [takeSub_pwr]
  unfold runCard
  rw [h.badHeader_eq, h.badLength_eq, h.right, h.notLeader_eq, h.conflictWith_eq]
  simp only [safe', awake', ring, fp, Bool.false_eq_true, false_and, and_false, if_false]
  cases k.bad (takeSub s x) (cmdOf s x) with
  | cons b l => rfl
  | nil =>
    cases busyCause (takeSub s x) k (cmdOf s x) with
    | some d => rfl
    | none => cases k.other (takeSub s x) (cmdOf s x) <;> rfl

section
variable (fields : k.bad (takeSub s x) (cmdOf s x) = [])
include fields

theorem dispatch_runs (free : busyCause (takeSub s x) k (cmdOf s x) = none) (passes : k.other (takeSub s x) (cmdOf s x) = none) :
    dispatch k s = k.run (takeSub s x) (cmdOf s x) := by rw [h.dispatch_eq, h.runCard_eq, fields, free, passes]

theorem dispatch_of_busy {d : Nat} (busy : busyCause (takeSub s x) k (cmdOf s x) = some d) :
    dispatch k s = refuse (takeSub s x) (cmdOf s x) 0x16 d := by rw [h.dispatch_eq, h.runCard_eq, fields, busy]

theorem dispatch_of_other {st d : Nat} (free : busyCause (takeSub s x) k (cmdOf s x) = none)
    (fails : k.other (takeSub s x) (cmdOf s x) = some (st, d)) :
    dispatch k s = refuse (takeSub s x) (cmdOf s x) st d := by rw [h.dispatch_eq, h.runCard_eq, fields, free, fails]

end

theorem dispatch_of_invalid {off : Nat} {l : List (Nat × Bool)} (fields : k.bad (takeSub s x) (cmdOf s x) = (off, true) :: l) :
    dispatch k s = refuse (takeSub s x) (cmdOf s x) 0x11 (off + 65536) := by
  rw [h.dispatch_eq, h.runCard_eq, fields]
  rfl

/-- A refusal of the order is its one reply. -/
theorem performs_refusal {i : Instr} (ran : exec i s = .next (dispatch k s)) {st d : Nat} (byte : st < 256) (final : st ≠ 1)
    (e : dispatch k s = refuse (takeSub s x) (cmdOf s x) st d) : performs i s (takeSub s x) (orderAt s x) st d [] := by
  obtain ⟨⟨-, -, opens, msgs, -⟩, -⟩ := h.takes
  refine ⟨_, ran.trans (congrArg _ e), performed_finish h.room h.wf ?_ ?_ d [] byte final⟩
  · rwa [takeSub_opens]
  · rwa [takeSub_msgs]

/-- A card whose run accepts the order. -/
theorem accepts_of_run {i : Instr} (ran : exec i s = .next (dispatch k s)) (fields : k.bad (takeSub s x) (cmdOf s x) = [])
    (free : busyCause (takeSub s x) k (cmdOf s x) = none) (passes : k.other (takeSub s x) (cmdOf s x) = none) {u : State} {w : Wait}
    {body : List Byte}
    (done : Performed (withOpen u (orderAt s x) w) (k.run (takeSub s x) (cmdOf s x)) (orderAt s x) 1 0 body) :
    accepts i s u (orderAt s x) w body :=
  ⟨_, ran.trans (congrArg _ (h.dispatch_runs fields free passes)), done⟩

end Reaches

end Sys2Proof.Machine
end

section
/-! SUPPORT. The cards of the fabric's loads and capture, of the scrubber's key and of the Topiary loads (R485 to R490). -/

namespace Sys2Proof.Machine
open Sys2Proof

theorem tgets_eq_map {α : Type} (d : α) (t : Tbl α) (a n : Nat) : tgets d t a n = (List.range n).map fun i => tget d t (a + i) := by
  induction n generalizing a with
  | zero => rfl
  | succ n ih =>
    rw [tgets, ih, List.range_succ_eq_map, List.map_cons, List.map_map]
    exact congrArg (_ :: ·) (List.map_congr_left fun i _ => by rw [Function.comp, Nat.add_assoc, Nat.add_comm 1])

/-- The lowest byte of a field, and the rest. -/
theorem entryNat_succ (e : List Byte) (a n : Nat) : entryNat e a (n + 1) = entryNat e a 1 + 256 * entryNat e (a + 1) n := by
  unfold entryNat
  rw [← List.drop_drop]
  cases e.drop a with
  | nil => simp [leNat]
  | cons b l => simp [leNat]

theorem entryNat_byte_of_zero {e : List Byte} {a n i : Nat} (zero : entryNat e a n = 0) (h : i < n) : entryNat e (a + i) 1 = 0 := by
  induction n generalizing a i with
  | zero => omega
  | succ n ih =>
    rw [entryNat_succ] at zero
    cases i with
    | zero => rw [Nat.add_zero]; omega
    | succ i => rw [← Nat.add_assoc, Nat.add_right_comm]; exact ih (by omega) (by omega)

theorem resv_of_zero {c : Cmd} {off n : Nat} (zero : entryNat c.e (16 + off) n = 0) : resv c off n = [] := by
  have none : (List.range n).filter (fun i => c.u8 (off + i) ≠ 0) = [] := List.filter_eq_nil_iff.mpr fun i h => by
    have byte : c.u8 (off + i) = 0 := by
      rw [Cmd.u8, ← Nat.add_assoc]
      exact entryNat_byte_of_zero zero (List.mem_range.mp h)
    simp [byte]
  rw [resv, none, List.map_nil]

theorem mlenOk_input {lo hi m : Nat} (words : m % 4 = 0) (least : lo ≤ m) (most : m ≤ hi) : mlenOk (.input lo hi) m = true := by
  simp [mlenOk, words, least, most]

theorem noRight_of_p0 {k : Card} {s : State} {c : Cmd} (part : c.ord.part = 0) (right : k.right = none) (deny : k.deny s c = none) :
    noRight s k c = none := by simp [noRight, part, right, deny]

theorem noRight_of_hasRight {k : Card} {s : State} {c : Cmd} {b : Nat} (p0 : k.p0 = false) (right : k.right = some b)
    (has : hasRight s c.ord.part b = true) (deny : k.deny s c = none) : noRight s k c = none := by
  simp [noRight, p0, right, has, deny]

theorem busyCause_of_busy {k : Card} {s : State} {c : Cmd} {d : Nat} (h : k.busy s c = some d) : busyCause s k c = some d := by
  rw [busyCause, h]

theorem busyCause_of_no_message {k : Card} {s : State} {c : Cmd} (msg : k.msg c = .none) (h : k.busy s c = none) :
    busyCause s k c = none := by simp [busyCause, h, msg]

theorem busyCause_of_free {k : Card} {s : State} {c : Cmd} {slot : Nat} (free : freeSlot s = some slot) (h : k.busy s c = none) :
    busyCause s k c = none := by simp [busyCause, h, free]

section
variable {s : State} {x : Sub}

/-! FABRIC_LOAD. -/

/-- A load of the source and image given has begun (R141). -/
def loadingFrom (u : State) (src : Nat) (im : List Byte) : State :=
  { u with hdg := { u.hdg with load := .loading, loadSrc := src, loadImg := im } }

theorem loadingFrom_takeSub (src : Nat) (im : List Byte) : loadingFrom (takeSub s x) src im =
    { takeSub s x with hdg := { s.hdg with load := .loading, loadSrc := src, loadImg := im } } := by
  rw [loadingFrom, takeSub_hdg]

theorem fabricLoad_fields (u : State) (zero : param s x 1 3 = 0) (src : param s x 0 1 < 3) :
    cardFabricLoad.bad u (cmdOf s x) = [] := by
  have clean : resv (cmdOf s x) 1 3 = [] := resv_of_zero zero
  have valid : (cmdOf s x).u8 0 < 3 := src
  simp [cardFabricLoad, badIf, clean, valid]

theorem fabricLoad_reaches {mlen : Nat} (h : Takes s x 0x0400 4 mlen) (part : x.part = 0)
    (message : mlenOk (cardFabricLoad.msg (cmdOf s x)) mlen = true) (noMbx : x.mbx = false ∨ cardFabricLoad.msg (cmdOf s x) = .none) :
    Reaches cardFabricLoad s x mlen where
  takes := h
  words := Nat.mod_self 4
  message := message
  noMbx := noMbx
  plain := ⟨rfl, rfl, by decide⟩
  right := noRight_of_p0 part rfl rfl

theorem fabricLoad_msg_of_host (host : param s x 0 1 = 0) : cardFabricLoad.msg (cmdOf s x) = .input 608 34560 := if_pos host

theorem fabricLoad_msg_of_flash (flash : param s x 0 1 ≠ 0) : cardFabricLoad.msg (cmdOf s x) = .none := if_neg flash

theorem fabricLoad_busy_of_load (h : s.hdg.load ≠ .idle) : cardFabricLoad.busy (takeSub s x) (cmdOf s x) = some 1 := by
  rw [← takeSub_hdg s x] at h
  exact if_pos h

theorem fabricLoad_busy_of_idle (h : s.hdg.load = .idle) : cardFabricLoad.busy (takeSub s x) (cmdOf s x) =
    if param s x 0 1 ≠ 0 ∧ flashPending s (param s x 0 1 + 1) = true then some 6 else none := by
  rw [← takeSub_hdg s x] at h
  refine (if_neg (not_not.mpr h)).trans ?_
  rw [takeSub_eq]
  rfl

theorem fabricLoad_from_host {mlen slot : Nat} (h : Takes s x 0x0400 4 mlen) (part : x.part = 0) (host : param s x 0 1 = 0)
    (zero : param s x 1 3 = 0) (words : mlen % 4 = 0) (least : 608 ≤ mlen) (most : mlen ≤ 34560) (ring : x.mbx = false)
    (idle : s.hdg.load = .idle) (free : freeSlot s = some slot) :
    accepts .cmdFabricLoad s (withMsg (loadingFrom (takeSub s x) 0 []) (orderAt s x) slot .input mlen 0 0) (orderAt s x) .fabricMsg
      (leBytes 4 slot ++ leBytes 4 mlen) := by
  have reaches := fabricLoad_reaches h part (by rw [fabricLoad_msg_of_host host]; exact mlenOk_input words least most) (.inl ring)
  have free' := (freeSlot_takeSub s x).trans free
  refine reaches.accepts_of_run rfl (fabricLoad_fields _ zero (by omega)) (busyCause_of_free free' ?_) rfl ?_
  · rw [fabricLoad_busy_of_idle idle, if_neg (by simp [host])]
  · obtain ⟨-, ⟨-, -, -, -, length⟩, -⟩ := h
    have ran : cardFabricLoad.run (takeSub s x) (cmdOf s x) =
        openMsg (loadingFrom (takeSub s x) 0 []) (cmdOf s x) .input mlen 0 0 .fabricMsg := by
      have host : (cmdOf s x).u8 0 = 0 := host
      have length : (cmdOf s x).mlen = mlen := length
      simp only [cardFabricLoad, host, length, if_true, loadingFrom]
    rw [ran]
    exact performed_openMsg (s := loadingFrom (takeSub s x) 0 []) reaches.room reaches.wf _ rfl .input mlen 0 0 .fabricMsg free'

theorem fabricLoad_from_flash (h : Takes s x 0x0400 4 0) (part : x.part = 0) (src : param s x 0 1 = 1 ∨ param s x 0 1 = 2)
    (zero : param s x 1 3 = 0) (idle : s.hdg.load = .idle) (still : flashPending s (param s x 0 1 + 1) = false) :
    accepts .cmdFabricLoad s
      (loadingFrom (takeSub s x) (param s x 0 1) (flashBytes s (0x70000 + 0x10000 * param s x 0 1) 0x10000)) (orderAt s x)
      .fabric [] := by
  have flash : param s x 0 1 ≠ 0 := by omega
  have msg := fabricLoad_msg_of_flash flash
  have reaches := fabricLoad_reaches h part (by rw [msg]; rfl) (.inr msg)
  refine reaches.accepts_of_run rfl (fabricLoad_fields _ zero (by omega)) (busyCause_of_no_message msg ?_) rfl ?_
  · rw [fabricLoad_busy_of_idle idle, if_neg (by simp [still])]
  · have image : flashBytes (takeSub s x) (region (param s x 0 1 + 1)).1 (region (param s x 0 1 + 1)).2 =
        flashBytes s (0x70000 + 0x10000 * param s x 0 1) 0x10000 := by
      rw [flashBytes, flashBytes, takeSub_boot]
      rcases src with one | two
      · rw [one]; rfl
      · rw [two]; rfl
    rw [← image]
    have ran : cardFabricLoad.run (takeSub s x) (cmdOf s x) = accept (loadingFrom (takeSub s x) (param s x 0 1)
        (flashBytes (takeSub s x) (region (param s x 0 1 + 1)).1 (region (param s x 0 1 + 1)).2)) (orderAt s x) .fabric [] := by
      have same : (cmdOf s x).u8 0 = param s x 0 1 := rfl
      simp only [cardFabricLoad, same, flash, if_false, loadingFrom]
      rfl
    rw [ran]
    exact performed_accept (s := loadingFrom (takeSub s x) _ _) reaches.room reaches.wf .fabric []

theorem fabricLoad_refused (h : Takes s x 0x0400 4 0) (part : x.part = 0) (src : param s x 0 1 = 1 ∨ param s x 0 1 = 2)
    (zero : param s x 1 3 = 0) {d : Nat} (busy : cardFabricLoad.busy (takeSub s x) (cmdOf s x) = some d) :
    performs .cmdFabricLoad s (takeSub s x) (orderAt s x) 0x16 d [] := by
  have msg : cardFabricLoad.msg (cmdOf s x) = .none := fabricLoad_msg_of_flash (by omega)
  have reaches := fabricLoad_reaches h part (by rw [msg]; rfl) (.inr msg)
  exact reaches.performs_refusal rfl (by decide) (by decide)
    (reaches.dispatch_of_busy (fabricLoad_fields _ zero (by omega)) (busyCause_of_busy busy))

/-! CAPTURE_ARM, CAPTURE_READ and SCRUB_DISABLE. -/

theorem captureArm_reaches (h : Takes s x 0x0401 4 0) (part : x.part = 0) : Reaches cardCaptureArm s x 0 where
  takes := h
  words := Nat.mod_self 4
  message := rfl
  noMbx := .inr rfl
  plain := ⟨rfl, rfl, by decide⟩
  right := noRight_of_p0 part rfl rfl

theorem captureArm_fields (u : State) (zero : BitVec.ofNat 32 (param s x 0 4) &&& 0xFFFF00C0 = 0) :
    cardCaptureArm.bad u (cmdOf s x) = [] := by
  have clean : ((cmdOf s x).word 0 &&& ~~~(0xFF3F : Word) != 0) = false := bne_eq_false_iff_eq.mpr zero
  simp only [cardCaptureArm, badIf, clean, Bool.false_eq_true, if_false]

theorem captureArm_busy (u : State) (c : Cmd) :
    cardCaptureArm.busy u c = if (u.hdg.capArmed || u.hdg.capFull) = true then some 4 else none := rfl

theorem captureArm_accepted (h : Takes s x 0x0401 4 0) (part : x.part = 0)
    (zero : BitVec.ofNat 32 (param s x 0 4) &&& 0xFFFF00C0 = 0) (armed : s.hdg.capArmed = false) (full : s.hdg.capFull = false) :
    accepts .cmdCaptureArm s (withChange (takeSub s x) (orderAt s x) .capture (.capArm (BitVec.ofNat 32 (param s x 0 4))))
      (orderAt s x) .boundary [] := by
  have reaches := captureArm_reaches h part
  refine reaches.accepts_of_run rfl (captureArm_fields _ zero) (busyCause_of_no_message rfl ?_) rfl
    (performed_stageB reaches.room reaches.wf _ rfl .capture _ reaches.no_changes)
  rw [captureArm_busy, takeSub_hdg, armed, full]
  rfl

theorem captureArm_refused (h : Takes s x 0x0401 4 0) (part : x.part = 0)
    (zero : BitVec.ofNat 32 (param s x 0 4) &&& 0xFFFF00C0 = 0) (used : s.hdg.capArmed = true ∨ s.hdg.capFull = true) :
    performs .cmdCaptureArm s (takeSub s x) (orderAt s x) 0x16 4 [] := by
  have reaches := captureArm_reaches h part
  refine reaches.performs_refusal rfl (by decide) (by decide)
    (reaches.dispatch_of_busy (captureArm_fields _ zero) (busyCause_of_busy ?_))
  rw [captureArm_busy, takeSub_hdg, if_pos (Bool.or_eq_true_iff.mpr used)]

theorem captureRead_reaches (h : Takes s x 0x0402 4 0) (part : x.part = 0) (ring : x.mbx = false) :
    Reaches cardCaptureRead s x 0 where
  takes := h
  words := Nat.mod_self 4
  message := rfl
  noMbx := .inl ring
  plain := ⟨rfl, rfl, by decide⟩
  right := noRight_of_p0 part rfl rfl

theorem captureRead_fields (u : State) (two : param s x 0 4 < 2) : cardCaptureRead.bad u (cmdOf s x) = [] := by
  have valid : (cmdOf s x).u32 0 < 2 := two
  simp [cardCaptureRead, badIf, valid]

theorem captureRead_accepted {slot : Nat} (h : Takes s x 0x0402 4 0) (part : x.part = 0) (two : param s x 0 4 < 2)
    (ring : x.mbx = false) (free : freeSlot s = some slot) :
    accepts .cmdCaptureRead s (withMsg (takeSub s x) (orderAt s x) slot .capRam 9232 (param s x 0 4) 0) (orderAt s x) .message
      (leBytes 4 slot ++ leBytes 4 9232) := by
  have reaches := captureRead_reaches h part ring
  have free' := (freeSlot_takeSub s x).trans free
  have low : param s x 0 4 = (cmdOf s x).u8 0 := by
    have split : param s x 0 4 = (cmdOf s x).u8 0 + 256 * entryNat (subBytes s x) 17 3 := entryNat_succ _ _ _
    omega
  rw [low]
  exact reaches.accepts_of_run rfl (captureRead_fields _ two) (busyCause_of_free free' rfl) rfl
    (performed_openMsg reaches.room reaches.wf _ rfl .capRam 9232 _ 0 .message free')

theorem captureRead_refused (h : Takes s x 0x0402 4 0) (part : x.part = 0) (two : param s x 0 4 < 2) (ring : x.mbx = false)
    (none : freeSlot s = none) : performs .cmdCaptureRead s (takeSub s x) (orderAt s x) 0x16 3 [] := by
  have reaches := captureRead_reaches h part ring
  refine reaches.performs_refusal rfl (by decide) (by decide) (reaches.dispatch_of_busy (captureRead_fields _ two) ?_)
  rw [busyCause, freeSlot_takeSub, none]
  rfl

theorem scrubDisable_reaches (h : Takes s x 0x0403 4 0) (part : x.part = 0) : Reaches cardScrubDisable s x 0 where
  takes := h
  words := Nat.mod_self 4
  message := rfl
  noMbx := .inr rfl
  plain := ⟨rfl, rfl, by decide⟩
  right := noRight_of_p0 part rfl rfl

theorem scrubDisable_other : cardScrubDisable.other (takeSub s x) (cmdOf s x) =
    if BitVec.ofNat 32 (param s x 0 4) = ~~~s.scb.nonce then none else some (0x14, 0xFE) := by
  rw [← takeSub_scb s x]
  rfl

theorem scrubDisable_accepted (h : Takes s x 0x0403 4 0) (part : x.part = 0) (key : BitVec.ofNat 32 (param s x 0 4) = ~~~s.scb.nonce) :
    accepts .cmdScrubDisable s (withChange (takeSub s x) (orderAt s x) .scrubber .scrubOff) (orderAt s x) .boundary [] := by
  have reaches := scrubDisable_reaches h part
  exact reaches.accepts_of_run rfl rfl (busyCause_of_no_message rfl rfl) (by rw [scrubDisable_other, if_pos key])
    (performed_stageB reaches.room reaches.wf _ rfl .scrubber .scrubOff reaches.no_changes)

theorem scrubDisable_refused (h : Takes s x 0x0403 4 0) (part : x.part = 0) (wrong : BitVec.ofNat 32 (param s x 0 4) ≠ ~~~s.scb.nonce) :
    performs .cmdScrubDisable s (takeSub s x) (orderAt s x) 0x14 0xFE [] := by
  have reaches := scrubDisable_reaches h part
  exact reaches.performs_refusal rfl (by decide) (by decide)
    (reaches.dispatch_of_other rfl (busyCause_of_no_message rfl rfl) (by rw [scrubDisable_other, if_neg wrong]))

/-! TOPIARY_LOAD and TOPIARY_UNLOAD. -/

/-- Partition q has no load in progress or armed, and no frame that still uses its previous image (R281). -/
def topIdle (s : State) (q : Nat) : Prop :=
  tfind s.arr.topArm q = none ∧ topHeld s q = false ∧ ∀ w ∈ s.prt.opens, w.wait ≠ .topVerify q

theorem topCause_of_idle (h : topIdle s x.part) : topCause (takeSub s x) (cmdOf s x) = none := by
  obtain ⟨arm, held, opens⟩ := h
  have held' : topHeld (takeSub s x) x.part = false := by rw [← held, topHeld, topHeld, takeSub_arr, takeSub_frm]
  refine if_neg ?_
  show ¬((tfind (takeSub s x).arr.topArm x.part).isSome || topHeld (takeSub s x) x.part ||
    (takeSub s x).prt.opens.any (fun w => w.wait == .topVerify x.part)) = true
  rw [takeSub_arr, takeSub_opens, arm, held']
  simpa using opens

theorem topCause_of_not_idle (h : ¬topIdle s x.part) : topCause (takeSub s x) (cmdOf s x) = some 1 := by
  have held : topHeld (takeSub s x) x.part = topHeld s x.part := by rw [topHeld, topHeld, takeSub_arr, takeSub_frm]
  refine if_pos ?_
  show ((tfind (takeSub s x).arr.topArm x.part).isSome || topHeld (takeSub s x) x.part ||
    (takeSub s x).prt.opens.any (fun w => w.wait == .topVerify x.part)) = true
  rw [takeSub_arr, takeSub_opens, held]
  by_contra idle
  simp only [Bool.or_eq_true, not_or, Bool.not_eq_true, Option.isSome_eq_false_iff, Option.isNone_iff_eq_none, List.any_eq_false, beq_iff_eq] at idle
  obtain ⟨⟨arm, held⟩, opens⟩ := idle
  exact h ⟨arm, held, opens⟩

theorem topImage_congr {t : State} (h : t.boot = s.boot) (n o : Nat) : topImage t n o = topImage s n o := by
  induction n generalizing o with
  | zero => rw [topImage, topImage, flashBytes, flashBytes, h]
  | succ n ih =>
    have bytes : flashBytes t = flashBytes s := by
      funext b m
      rw [flashBytes, flashBytes, h]
    rw [topImage, topImage, topLenAt, topLenAt, bytes, ih]

/-- Partition q's image stands to be verified (R282). -/
def verifying (u : State) (q : Nat) (im : List Byte) : State := { u with arr := { u.arr with topVer := tput u.arr.topVer q im } }

theorem verifying_takeSub (q : Nat) (im : List Byte) : verifying (takeSub s x) q im =
    { takeSub s x with arr := { s.arr with topVer := tput s.arr.topVer q im } } := by
  rw [verifying, takeSub_arr]

theorem topiaryLoad_reaches {mlen : Nat} (right : hasRight s x.part 1 = true) (h : Takes s x 0x0500 4 mlen)
    (message : mlenOk (cardTopiaryLoad.msg (cmdOf s x)) mlen = true)
    (noMbx : x.mbx = false ∨ cardTopiaryLoad.msg (cmdOf s x) = .none) : Reaches cardTopiaryLoad s x mlen where
  takes := h
  words := Nat.mod_self 4
  message := message
  noMbx := noMbx
  plain := ⟨rfl, rfl, by decide⟩
  right := noRight_of_hasRight rfl rfl ((hasRight_takeSub s x x.part 1).trans right) rfl

theorem topiaryLoad_msg_of_host (host : param s x 0 1 = 0) : cardTopiaryLoad.msg (cmdOf s x) = .input 144 37504 := if_pos host

theorem topiaryLoad_msg_of_flash (flash : param s x 0 1 = 1) : cardTopiaryLoad.msg (cmdOf s x) = .none :=
  if_neg (show ¬param s x 0 1 = 0 by omega)

theorem topiaryLoad_from_host {mlen slot : Nat} (right : hasRight s x.part 1 = true) (h : Takes s x 0x0500 4 mlen)
    (host : param s x 0 1 = 0) (zero : param s x 2 2 = 0) (words : mlen % 4 = 0) (least : 144 ≤ mlen) (most : mlen ≤ 37504)
    (ring : x.mbx = false) (idle : topIdle s x.part) (free : freeSlot s = some slot) :
    accepts .cmdTopiaryLoad s (withMsg (takeSub s x) (orderAt s x) slot .input mlen x.part 0) (orderAt s x) (.topVerify x.part)
      (leBytes 4 slot ++ leBytes 4 mlen) := by
  have reaches := topiaryLoad_reaches right h (by rw [topiaryLoad_msg_of_host host]; exact mlenOk_input words least most) (.inl ring)
  have free' := (freeSlot_takeSub s x).trans free
  have host' : (cmdOf s x).u8 0 = 0 := host
  have fields : cardTopiaryLoad.bad (takeSub s x) (cmdOf s x) = [] := by
    simp [cardTopiaryLoad, badIf, host', resv_of_zero (c := cmdOf s x) (off := 2) (n := 2) zero]
  refine reaches.accepts_of_run rfl fields (busyCause_of_free free' (topCause_of_idle idle)) rfl ?_
  obtain ⟨-, ⟨-, -, -, -, length⟩, -⟩ := h
  have ran : cardTopiaryLoad.run (takeSub s x) (cmdOf s x) =
      openMsg (takeSub s x) (cmdOf s x) .input mlen x.part 0 (.topVerify x.part) := by
    have length : (cmdOf s x).mlen = mlen := length
    simp only [cardTopiaryLoad, host', length, if_true]
    rfl
  rw [ran]
  exact performed_openMsg reaches.room reaches.wf _ rfl .input mlen x.part 0 _ free'

section
variable (right : hasRight s x.part 1 = true) (h : Takes s x 0x0500 4 0) (flash : param s x 0 1 = 1)
include right h flash

theorem topiaryLoad_flash_reaches : Reaches cardTopiaryLoad s x 0 :=
  have msg := topiaryLoad_msg_of_flash flash
  topiaryLoad_reaches right h (by rw [msg]; rfl) (.inr msg)

theorem topiaryLoad_from_flash (zero : param s x 2 2 = 0) (image : param s x 1 1 < 16) {a : Nat}
    (found : topImage s (param s x 1 1) 0 = some a) (idle : topIdle s x.part) :
    ∃ n, accepts .cmdTopiaryLoad s (verifying (takeSub s x) x.part (flashBytes s (0xA0000 + a) n)) (orderAt s x)
      (.topVerify x.part) [] := by
  have reaches := topiaryLoad_flash_reaches right h flash
  have flash' : (cmdOf s x).u8 0 = 1 := flash
  have image' : (cmdOf s x).u8 1 < 16 := image
  have found' : topImage (takeSub s x) ((cmdOf s x).u8 1) 0 = some a := (topImage_congr (takeSub_boot s x) _ _).trans found
  have fields : cardTopiaryLoad.bad (takeSub s x) (cmdOf s x) = [] := by
    simp [cardTopiaryLoad, badIf, flash', image', found', resv_of_zero (c := cmdOf s x) (off := 2) (n := 2) zero]
  refine ⟨min (0x10000 - a) (topLenAt (takeSub s x) (0xA0000 + a)), reaches.accepts_of_run rfl fields
    (busyCause_of_no_message (topiaryLoad_msg_of_flash flash) (topCause_of_idle idle)) rfl ?_⟩
  have same : flashBytes (takeSub s x) = flashBytes s := by
    funext b n
    rw [flashBytes, flashBytes, takeSub_boot]
  rw [← same]
  have ran : cardTopiaryLoad.run (takeSub s x) (cmdOf s x) = accept (verifying (takeSub s x) x.part (flashBytes (takeSub s x)
      (0xA0000 + a) (min (0x10000 - a) (topLenAt (takeSub s x) (0xA0000 + a))))) (orderAt s x) (.topVerify x.part) [] := by
    simp only [cardTopiaryLoad, flash', found', Option.getD_some, one_ne_zero, if_false, verifying]
    rfl
  rw [ran]
  exact performed_accept (s := verifying (takeSub s x) x.part _) reaches.room reaches.wf _ []

theorem topiaryLoad_not_found (found : topImage s (param s x 1 1) 0 = none) :
    performs .cmdTopiaryLoad s (takeSub s x) (orderAt s x) 0x11 (17 + 65536) [] := by
  have reaches := topiaryLoad_flash_reaches right h flash
  have flash' : (cmdOf s x).u8 0 = 1 := flash
  have found' : topImage (takeSub s x) ((cmdOf s x).u8 1) 0 = none := (topImage_congr (takeSub_boot s x) _ _).trans found
  refine reaches.performs_refusal rfl (by decide) (by decide) (reaches.dispatch_of_invalid (l := resv (cmdOf s x) 2 2) ?_)
  simp [cardTopiaryLoad, badIf, flash', found']

end

section
variable (right : hasRight s x.part 1 = true) (h : Takes s x 0x0501 0 0)
include right h

theorem topiaryUnload_reaches : Reaches cardTopiaryUnload s x 0 where
  takes := h
  words := rfl
  message := rfl
  noMbx := .inr rfl
  plain := ⟨rfl, rfl, by decide⟩
  right := noRight_of_hasRight rfl rfl ((hasRight_takeSub s x x.part 1).trans right) rfl

theorem topiaryUnload_accepted (idle : topIdle s x.part) :
    accepts .cmdTopiaryUnload s (withChange (takeSub s x) (orderAt s x) .free (.topUnload x.part)) (orderAt s x) .boundary [] :=
  have reaches := topiaryUnload_reaches right h
  reaches.accepts_of_run rfl rfl (busyCause_of_no_message rfl (topCause_of_idle idle)) rfl
    (performed_stageB reaches.room reaches.wf _ rfl .free _ reaches.no_changes)

theorem topiaryUnload_refused (used : ¬topIdle s x.part) :
    performs .cmdTopiaryUnload s (takeSub s x) (orderAt s x) 0x16 1 [] :=
  have reaches := topiaryUnload_reaches right h
  reaches.performs_refusal rfl (by decide) (by decide) (reaches.dispatch_of_busy rfl (busyCause_of_busy (topCause_of_not_idle used)))

end

end

end Sys2Proof.Machine
end

section
open Sys2Proof Sys2Proof.Machine

/-- Settles O43: every clause is the run of its card, or the check of the card that fails first, on the state with the order taken. -/
theorem loadAndCaptureCommands : Obligations.LoadAndCaptureCommands := by
  intro s x o s0 p q v src flashPart topFree
  have flash : ∀ a n, flashBytes s a n = flashPart a n := fun a n => tgets_eq_map 0xFF s.boot.flash a n
  refine ⟨fun mlen slot h part host zero words least most ring idle free => by
      rw [← loadingFrom_takeSub]
      exact fabricLoad_from_host h part host zero words least most ring idle free,
    fun h part source zero => ⟨fun idle still => ?_, fun idle pending => ?_, fun used => ?_⟩,
    fun h part zero => ⟨captureArm_accepted h part zero, captureArm_refused h part zero⟩,
    fun slot h part two ring free => captureRead_accepted h part two ring free,
    fun h part two ring none => captureRead_refused h part two ring none,
    fun h part => ⟨scrubDisable_accepted h part, scrubDisable_refused h part⟩,
    fun right => ⟨fun mlen slot h host zero words least most ring idle free =>
        topiaryLoad_from_host right h host zero words least most ring idle free,
      fun h one zero image => ⟨fun a found idle => ?_, topiaryLoad_not_found right h one⟩,
      fun h => ⟨topiaryUnload_accepted right h, topiaryUnload_refused right h⟩⟩⟩
  · rw [← flash, ← loadingFrom_takeSub]
    exact fabricLoad_from_flash h part source zero idle still
  · have read : param s x 0 1 ≠ 0 := by
      have source : param s x 0 1 = 1 ∨ param s x 0 1 = 2 := source
      omega
    refine fabricLoad_refused h part source zero ?_
    rw [fabricLoad_busy_of_idle idle, if_pos ⟨read, pending⟩]
  · exact fabricLoad_refused h part source zero (fabricLoad_busy_of_load used)
  · obtain ⟨n, done⟩ := topiaryLoad_from_flash right h one zero image found idle
    exact ⟨n, by rwa [← flash, ← verifying_takeSub]⟩

end

section
/-! SUPPORT. The refresh of the scrubber's controls (R181 to R183): what three working copies vote for, and what the refresh leaves. -/

namespace Sys2Proof.Machine
open Sys2Proof

section
variable {α : Type} [DecidableEq α] (f : ScbCtl → α) {x y z : ScbCtl}

/-- Two copies that agree outvote the first. -/
theorem vote_of_last_two (h : f y = f z) : vote f [x, y, z] = some (f z) := by
  by_cases hx : f x = f y
  · simp [vote, hx, h]
  · simp [vote, h, h ▸ hx]

theorem vote_of_all (h : f x = f y) : vote f [x, y, z] = some (f x) := by simp [vote, h]

theorem vote_of_all_different (xy : f x ≠ f y) (xz : f x ≠ f z) (yz : f y ≠ f z) : vote f [x, y, z] = none := by
  simp [vote, xy, xz, yz]

end

/-- The mask of the working copies that differ from the vote (R182). -/
def differingCopies (l : List ScbCtl) : Nat := l.zipIdx.foldl (fun n c => if differs l c.1 then n + 2 ^ c.2 else n) 0

/-- The mask of the fields without a majority, in their place in SCB_VOTE (R183). -/
def undecidedFields (l : List ScbCtl) : Nat :=
  (if (vote (fun c => c.en) l).isNone then 8 else 0) + (if (vote (fun c => c.region) l).isNone then 16 else 0)
    + (if (vote (fun c => c.period) l).isNone then 32 else 0) + (if (vote (fun c => c.src) l).isNone then 64 else 0)

theorem differingCopies_three (x y z : ScbCtl) : differingCopies [x, y, z] = (if differs [x, y, z] x then 1 else 0)
    + (if differs [x, y, z] y then 2 else 0) + (if differs [x, y, z] z then 4 else 0) := by
  simp only [differingCopies, List.zipIdx_cons, List.zipIdx_nil, List.foldl_cons, List.foldl_nil]
  split_ifs <;> rfl

/-- Against two copies that agree, a copy differs as soon as it is not theirs. -/
theorem differs_of_last_two (x g c : ScbCtl) : differs [x, g, g] c = decide (c ≠ g) := by
  simp only [differs, vote_of_last_two _ rfl]
  obtain ⟨a, b, p, q⟩ := g
  obtain ⟨a', b', p', q'⟩ := c
  rw [Bool.eq_iff_iff]
  simp only [ne_eq, Option.some.injEq, Bool.or_eq_true, decide_eq_true_eq, ScbCtl.mk.injEq]
  grind

theorem differingCopies_of_last_two (x g : ScbCtl) : differingCopies [x, g, g] = if x = g then 0 else 1 := by
  rw [differingCopies_three]
  simp only [differs_of_last_two]
  by_cases h : x = g <;> simp [h]

theorem undecidedFields_of_last_two (x g : ScbCtl) : undecidedFields [x, g, g] = 0 := by
  simp [undecidedFields, vote_of_last_two]

/-! The refresh in its steps: the copies are rewritten, SCB_VOTE takes note, and each of the two sticky faults is raised. -/

/-- The golden copy is uncorrectable (R183). -/
def goldenLost (s : State) : Bool := (secded 0x10000000 s.scb.goldenErr).isNone

theorem goldenLost_of_no_error {s : State} (h : s.scb.goldenErr = 0) : goldenLost s = false := by
  rw [goldenLost, h, secded_zero]
  rfl

/-- The controls after a refresh. -/
def rewritten (s : State) : State :=
  { s with scb := { s.scb with golden := refreshed s, goldenErr := 0, copies := [refreshed s, refreshed s, refreshed s],
                               safe := s.scb.safe || decide (undecidedFields s.scb.copies ≠ 0) || goldenLost s } }

/-- What SCB_VOTE reads after a disagreement. -/
def voteWord (s : State) : Word :=
  BitVec.ofNat 32 (differingCopies s.scb.copies + undecidedFields s.scb.copies + if goldenLost s then 128 else 0)

/-- The refresh with SCB_VOTE. -/
def voteNoted (s : State) : State :=
  if differingCopies s.scb.copies ≠ 0 ∨ goldenLost s then wr (rewritten s) 0x082C (voteWord s) else rewritten s

/-- The refresh with SCB_VOTE and SCRUB_VOTE. -/
def voteReported (s : State) : State :=
  if differingCopies s.scb.copies ≠ 0 then sticky0 (voteNoted s) 8 (leBytes 4 (rd (voteNoted s) 0x082C).toNat) else voteNoted s

theorem refresh_eq (s : State) : refresh s = if undecidedFields s.scb.copies ≠ 0 ∨ goldenLost s then
    sticky0 (voteReported s) 9 (leBytes 4 (rd (voteReported s) 0x082C).toNat) else voteReported s := rfl

theorem sticky0_scb (s : State) (n : Nat) (data : List Byte) : (sticky0 s n data).scb = s.scb :=
  (congrArg State.scb (sticky0_onlyFault s n data).others :)

theorem voteNoted_scb (s : State) : (voteNoted s).scb = (rewritten s).scb := by
  unfold voteNoted
  split <;> rfl

theorem voteReported_scb (s : State) : (voteReported s).scb = (rewritten s).scb := by
  unfold voteReported
  split
  · rw [sticky0_scb, voteNoted_scb]
  · exact voteNoted_scb s

theorem refresh_scb (s : State) : (refresh s).scb = (rewritten s).scb := by
  rw [refresh_eq]
  split
  · rw [sticky0_scb, voteReported_scb]
  · exact voteReported_scb s

section
variable {s : State}

theorem refreshed_of_decided (none : undecidedFields s.scb.copies = 0) (whole : goldenLost s = false) : refreshed s = s.scb.golden := by
  have parts : (vote (fun c => c.en) s.scb.copies).isNone = false ∧ (vote (fun c => c.region) s.scb.copies).isNone = false ∧
      (vote (fun c => c.period) s.scb.copies).isNone = false ∧ (vote (fun c => c.src) s.scb.copies).isNone = false := by
    simpa [undecidedFields, and_assoc, Option.isSome_iff_ne_none] using none
  obtain ⟨en, region, period, src⟩ := parts
  rw [goldenLost] at whole
  simp [refreshed, whole, en, region, period, src]

/-- Copies that agree with the golden copy are refreshed without effect. -/
theorem refresh_of_agreement (copies : s.scb.copies = [s.scb.golden, s.scb.golden, s.scb.golden]) (clean : s.scb.goldenErr = 0) :
    refresh s = s := by
  have whole := goldenLost_of_no_error clean
  have same : differingCopies s.scb.copies = 0 := by rw [copies, differingCopies_of_last_two, if_pos rfl]
  have decided : undecidedFields s.scb.copies = 0 := by rw [copies, undecidedFields_of_last_two]
  have kept : rewritten s = s := by
    rw [rewritten, refreshed_of_decided decided whole, decided, whole, ← copies, ← clean]
    simp
  simp [refresh_eq, voteReported, voteNoted, same, decided, whole, kept]

theorem voteNoted_of_disagreement (h : differingCopies s.scb.copies ≠ 0) : voteNoted s = wr (rewritten s) 0x082C (voteWord s) :=
  if_pos (.inl h)

theorem voteReported_regs_wf (w : twf 0 s.regs = true) : twf 0 (voteReported s).regs = true := by
  have noted : twf 0 (voteNoted s).regs = true := by
    unfold voteNoted
    split
    · exact wr_regs_wf (s := rewritten s) _ _ w
    · exact w
  unfold voteReported
  split
  · exact sticky0_regs_wf _ _ noted
  · exact noted

theorem rd_refresh_of_voteReported {r : Nat} (h : r ∉ [0x0E00, 0x0E10, 0x0F0C, 0x0F10]) : rd (refresh s) r = rd (voteReported s) r := by
  rw [refresh_eq]
  split
  · exact rd_sticky0_ne _ _ _ h
  · rfl

theorem rd_refresh_vote (w : twf 0 s.regs = true) (h : differingCopies s.scb.copies ≠ 0) : rd (refresh s) 0x082C = voteWord s := by
  rw [rd_refresh_of_voteReported (by decide), voteReported, if_pos h, rd_sticky0_ne _ _ _ (by decide), voteNoted_of_disagreement h]
  exact rd_wr_self (s := rewritten s) _ w

theorem bit_sticky0 {u : State} {n : Nat} (data : List Byte) (w : twf 0 u.regs = true) (h : n < 32) :
    bit (rd (sticky0 u n data) 0x0E00) n = true := by rw [rd_sticky0_self n data w, bit_or, bit_place h, Bool.or_true]

theorem bit_sticky0_mono {u : State} {n m : Nat} (data : List Byte) (w : twf 0 u.regs = true) (h : bit (rd u 0x0E00) m = true) :
    bit (rd (sticky0 u n data) 0x0E00) m = true := by rw [rd_sticky0_self n data w, bit_or, h, Bool.true_or]

theorem bit_refresh_scrubVote (w : twf 0 s.regs = true) (h : differingCopies s.scb.copies ≠ 0) :
    bit (rd (refresh s) 0x0E00) 8 = true := by
  have reported : bit (rd (voteReported s) 0x0E00) 8 = true := by
    rw [voteReported, if_pos h, voteNoted_of_disagreement h]
    exact bit_sticky0 _ (wr_regs_wf (s := rewritten s) _ _ w) (by decide)
  rw [refresh_eq]
  split
  · exact bit_sticky0_mono _ (voteReported_regs_wf w) reported
  · exact reported

theorem bit_refresh_scrubSafe (w : twf 0 s.regs = true) (h : undecidedFields s.scb.copies ≠ 0) :
    bit (rd (refresh s) 0x0E00) 9 = true := by
  rw [refresh_eq, if_pos (.inl h)]
  exact bit_sticky0 _ (voteReported_regs_wf w) (by decide)

/-- One working copy that disagrees is out-voted, rewritten and recorded (R182). -/
theorem refresh_of_outvoted {x : ScbCtl} (w : twf 0 s.regs = true) (odd : x ≠ s.scb.golden)
    (copies : s.scb.copies = [x, s.scb.golden, s.scb.golden]) (clean : s.scb.goldenErr = 0) :
    (refresh s).scb = { s.scb with copies := [s.scb.golden, s.scb.golden, s.scb.golden] } ∧ rd (refresh s) 0x082C = 1 ∧
      bit (rd (refresh s) 0x0E00) 8 = true := by
  have whole := goldenLost_of_no_error clean
  have one : differingCopies s.scb.copies = 1 := by rw [copies, differingCopies_of_last_two, if_neg odd]
  have decided : undecidedFields s.scb.copies = 0 := by rw [copies, undecidedFields_of_last_two]
  refine ⟨?_, ?_, bit_refresh_scrubVote w (by simp [one])⟩
  · rw [refresh_scb, rewritten, refreshed_of_decided decided whole, decided, whole, ← clean]
    simp
  · rw [rd_refresh_vote w (by simp [one]), voteWord, one, decided, whole]
    rfl

/-- A PERIOD without a majority is forced to its safe value, with SCRUB_SAFE (R183). -/
theorem refresh_of_undecided_period {x y z : ScbCtl} (w : twf 0 s.regs = true) (copies : s.scb.copies = [x, y, z])
    (en : x.en = y.en) (region : x.region = y.region) (src : x.src = y.src) (xy : x.period ≠ y.period) (xz : x.period ≠ z.period)
    (yz : y.period ≠ z.period) (clean : s.scb.goldenErr = 0) :
    let g := { s.scb.golden with period := 8 }
    (refresh s).scb.golden = g ∧ (refresh s).scb.copies = [g, g, g] ∧ (refresh s).scb.safe = true ∧
      bit (rd (refresh s) 0x0E00) 9 = true ∧ bit (rd (refresh s) 0x082C) 5 = true := by
  intro g
  have whole := goldenLost_of_no_error clean
  have vEn : vote (fun c => c.en) s.scb.copies = some x.en := copies ▸ vote_of_all (fun c => c.en) en
  have vRegion : vote (fun c => c.region) s.scb.copies = some x.region := copies ▸ vote_of_all (fun c => c.region) region
  have vSrc : vote (fun c => c.src) s.scb.copies = some x.src := copies ▸ vote_of_all (fun c => c.src) src
  have vPeriod : vote (fun c => c.period) s.scb.copies = none := copies ▸ vote_of_all_different (fun c => c.period) xy xz yz
  have period : undecidedFields s.scb.copies = 32 := by simp [undecidedFields, vEn, vRegion, vPeriod, vSrc]
  have all : differingCopies s.scb.copies = 7 := by
    have odd (c : ScbCtl) : differs s.scb.copies c = true := by simp [differs, vPeriod]
    rw [copies] at odd ⊢
    simp [differingCopies_three, odd]
  have forced : refreshed s = g := by
    rw [goldenLost] at whole
    simp [refreshed, whole, vEn, vRegion, vPeriod, vSrc, g]
  refine ⟨?_, ?_, ?_, bit_refresh_scrubSafe w (by simp [period]), ?_⟩
  · rw [refresh_scb]
    exact forced
  · rw [refresh_scb, rewritten, forced]
  · rw [refresh_scb, rewritten, period]
    simp
  · rw [rd_refresh_vote w (by simp [all]), voteWord, all, period, whole]
    rfl

end

end Sys2Proof.Machine
end

section
/-! SUPPORT. One configuration frame checked by a pass (R175, R177). -/

namespace Sys2Proof.Machine
open Sys2Proof

/-- A loop in which no element acts. -/
theorem forEach_of_none {α : Type} {l : List α} {s : State} {f : State → α → State} (h : ∀ b ∈ l, f s b = s) : forEach l s f = s := by
  induction l with
  | nil => rfl
  | cons b l ih =>
    rw [forEach, List.foldl_cons, h b List.mem_cons_self]
    exact ih fun c n => h c (List.mem_cons_of_mem _ n)

/-- A loop in which one element alone acts. -/
theorem forEach_of_one {α : Type} {l : List α} {s : State} {f : State → α → State} {a : α} (m : a ∈ l) (once : l.Nodup)
    (before : ∀ b ∈ l, b ≠ a → f s b = s) (after : ∀ b ∈ l, b ≠ a → f (f s a) b = f s a) : forEach l s f = f s a := by
  obtain ⟨x, y, rfl⟩ := List.append_of_mem m
  have parts := List.nodup_append.mp once
  have nx : ∀ b ∈ x, b ≠ a := fun b n => parts.2.2 b n a List.mem_cons_self
  have ny : ∀ b ∈ y, b ≠ a := fun b n e => (List.nodup_cons.mp parts.2.1).1 (e ▸ n)
  calc forEach (x ++ a :: y) s f = forEach y (f (forEach x s f) a) f := by
        simp only [forEach, List.foldl_append, List.foldl_cons]
    _ = forEach y (f s a) f := by
        rw [forEach_of_none (s := s) (l := x) fun b n => before b (List.mem_append_left _ n) (nx b n)]
    _ = f s a :=
        forEach_of_none fun b n => after b (List.mem_append_right _ (List.mem_cons_of_mem _ n)) (ny b n)

theorem ones_zero {w : Nat} : ones (0 : BitVec w) = 0 := by simp [ones]

theorem flipClass_of_few {flips : BitVec 72} (h : ones flips ≤ 2) : flipClass flips = ones flips := if_pos h

theorem cfgWord_of_few {s : State} {bank : Bool} {f w : Nat} (h : ones (tget 0 s.hdg.cfgErr (cfgKey bank f w)) ≤ 2) :
    cfgWord s bank f w = tget 0 s.hdg.cfg (cfgKey bank f w) := if_pos h

theorem cfgWord_of_same {s t : State} {bank : Bool} {f w : Nat}
    (cfg : tget 0 t.hdg.cfg (cfgKey bank f w) = tget 0 s.hdg.cfg (cfgKey bank f w))
    (err : tget 0 t.hdg.cfgErr (cfgKey bank f w) = tget 0 s.hdg.cfgErr (cfgKey bank f w)) : cfgWord t bank f w = cfgWord s bank f w := by
  rw [cfgWord, cfgWord, cfg, err]

theorem frameGood_congr {s t : State} {bank : Bool} {f : Nat} (h : ∀ w, cfgWord t bank f w = cfgWord s bank f w) :
    frameGood t bank f = frameGood s bank f := by simp only [frameGood, h]

section
variable {s : State} {bank : Bool} {f : Nat}

theorem scrubWord_of_clean {w : Nat} (h : tget 0 s.hdg.cfgErr (cfgKey bank f w) = 0) : scrubWord s bank f w = s := if_pos h

/-- The single-bit error of key `k` is gone and counted (R175). -/
def corrected (s : State) (k : Nat) : State :=
  { satReg (setFlag s 0x0808 0) 0x0810 1 with hdg := { s.hdg with cfgErr := tdel s.hdg.cfgErr k } }

theorem scrubWord_of_single {w : Nat} (one : ones (tget 0 s.hdg.cfgErr (cfgKey bank f w)) = 1)
    (soft : tget false s.hdg.stuck (cfgKey bank f w) = false) (wf : twf 0 s.hdg.cfg = true) :
    scrubWord s bank f w = corrected s (cfgKey bank f w) := by
  have found : tget 0 s.hdg.cfgErr (cfgKey bank f w) ≠ 0 := fun e => by rw [e, ones_zero] at one; simp at one
  have corrects : flipClass (tget 0 s.hdg.cfgErr (cfgKey bank f w)) ≠ 2 := by rw [flipClass_of_few (by omega), one]; decide
  have stored : tset 0 s.hdg.cfg (cfgKey bank f w) (cfgWord s bank f w) = s.hdg.cfg := by
    rw [cfgWord_of_few (by omega), tset_tget 0 wf]
  unfold scrubWord
  extract_lets k fl s1
  have hdg : s1.hdg = s.hdg := rfl
  rw [if_neg found, if_neg corrects, if_neg (by simp [k, soft]), hdg, stored]
  rfl

/-- A frame that reads clean once its words have been read is noted as such (R170, R177). -/
theorem scrubFrame_of_clean {u : State} (read : bank = s.hdg.bank ∨ s.hdg.load ≠ .loading)
    (words : forEach (List.range 64) s (fun s w => scrubWord s bank f w) = u)
    (clean : ∀ w < 64, tget 0 u.hdg.cfgErr (cfgKey bank f w) = 0) (good : bankImage u bank = true → frameGood u bank f = true) :
    scrubFrame s bank f =
      { u with scb := { u.scb with clean := tput u.scb.clean ((if bank then 96 else 0) + f) (curCount u) } } := by
  have sound : frameUe u bank f = false := by
    rw [frameUe, List.any_eq_false]
    intro w m
    rw [clean w (List.mem_range.mp m), flipClass_of_few (by rw [ones_zero]; decide), ones_zero]
    decide
  have passes : (bankImage u bank && !frameGood u bank f) = false := by
    cases h : bankImage u bank with
    | false => rfl
    | true => rw [good h]; rfl
  unfold scrubFrame
  rw [if_neg fun h => read.elim h.1 fun n => n h.2, words]
  dsimp only
  rw [sound, passes]
  rfl

/-- A frame without errors in its words. -/
theorem scrubFrame_of_no_error (read : bank = s.hdg.bank ∨ s.hdg.load ≠ .loading)
    (clean : ∀ w < 64, tget 0 s.hdg.cfgErr (cfgKey bank f w) = 0) (good : bankImage s bank = true → frameGood s bank f = true) :
    scrubFrame s bank f =
      { s with scb := { s.scb with clean := tput s.scb.clean ((if bank then 96 else 0) + f) (curCount s) } } := by
  refine scrubFrame_of_clean read (forEach_of_none fun w m => ?_) clean good
  exact scrubWord_of_clean (clean w (List.mem_range.mp m))

/-- A frame with one single-bit error. -/
theorem scrubFrame_of_single {w0 : Nat} (read : bank = s.hdg.bank ∨ s.hdg.load ≠ .loading) (lt : w0 < 64)
    (one : ones (tget 0 s.hdg.cfgErr (cfgKey bank f w0)) = 1) (soft : tget false s.hdg.stuck (cfgKey bank f w0) = false)
    (others : ∀ w < 64, w ≠ w0 → tget 0 s.hdg.cfgErr (cfgKey bank f w) = 0) (wf : twf 0 s.hdg.cfg = true)
    (wfErr : twf 0 s.hdg.cfgErr = true) (good : bankImage s bank = true → frameGood s bank f = true) :
    let u := corrected s (cfgKey bank f w0)
    scrubFrame s bank f =
      { u with scb := { u.scb with clean := tput u.scb.clean ((if bank then 96 else 0) + f) (curCount u) } } := by
  intro u
  have corrects : scrubWord s bank f w0 = u := scrubWord_of_single one soft wf
  have gone : tget 0 u.hdg.cfgErr (cfgKey bank f w0) = 0 := tget_tdel_self 0 wfErr
  have kept {w : Nat} (h : w ≠ w0) : tget 0 u.hdg.cfgErr (cfgKey bank f w) = tget 0 s.hdg.cfgErr (cfgKey bank f w) :=
    tget_tdel_ne 0 _ (by unfold cfgKey; omega)
  have clean (w : Nat) (hw : w < 64) : tget 0 u.hdg.cfgErr (cfgKey bank f w) = 0 := by
    by_cases h : w = w0
    · rw [h, gone]
    · rw [kept h, others w hw h]
  have delivers (w : Nat) : cfgWord u bank f w = cfgWord s bank f w := by
    by_cases h : w = w0
    · rw [h, cfgWord_of_few (by rw [gone, ones_zero]; decide), cfgWord_of_few (by omega)]
      rfl
    · exact cfgWord_of_same rfl (kept h)
  refine scrubFrame_of_clean read ?_ clean fun image => (frameGood_congr delivers).trans (good image)
  rw [forEach_of_one (List.mem_range.mpr lt) List.nodup_range (fun w m n => scrubWord_of_clean (others w (List.mem_range.mp m) n))
    fun w m _ => ?_]
  · exact corrects
  · rw [corrects, scrubWord_of_clean (clean w (List.mem_range.mp m))]

end

/-! The sweep of conductor SRAM (R193). -/

theorem onesNat_two_pow_le (n : Nat) : onesNat (2 ^ n) ≤ 1 := by
  refine (length_le_one_iff_of_nodup (List.nodup_range.filter _)).mpr fun x hx y hy => ?_
  simp only [List.mem_filter, Nat.testBit_two_pow, decide_eq_true_eq] at hx hy
  exact hx.2.symm.trans hy.2

theorem secded_two_pow (k n : Nat) : secded k (2 ^ n) = some 0 := by
  simp only [secded, if_pos (onesNat_two_pow_le n)]

/-- The single-bit error of conductor word `k` is gone. -/
def memCorrected (s : State) (k : Nat) : State := { s with cnd := { s.cnd with memErr := tdel s.cnd.memErr k } }

theorem sweepWord_of_single (s : State) (k n : Nat) : sweepWord s (k, 2 ^ n) =
    wr (memCorrected s k) 0x0830 (setFld (rd s 0x0830) 0 16 (satAdd 0xFFFF (fld (rd s 0x0830) 0 16) 1)) := by
  simp only [sweepWord, secded_two_pow]
  rfl

/-- The low half of a word counts up while it is not at its limit. -/
theorem setFld_count {v : Word} (h : fld v 0 16 < 65535) : setFld v 0 16 (satAdd 0xFFFF (fld v 0 16) 1) = v + 1 := by
  have low : bits v.toNat 0 16 = v.toNat % 65536 := by simp [bits]
  rw [fld, low] at h
  rw [setFld, fld, low, satAdd]
  apply BitVec.eq_of_toNat_eq
  rw [BitVec.toNat_ofNat, BitVec.toNat_add]
  have one : (1 : Word).toNat = 1 := rfl
  have := v.isLt
  omega

end Sys2Proof.Machine
end


section
/-! SUPPORT. The scrubber's commands, each in the case that its state selects (R177, R178, R182, R193). -/

namespace Sys2Proof.Machine
open Sys2Proof

section
variable {s : State}

theorem scrubPassStart_idle (off : passesRun s = false) : exec .scrubPassStart s = .next s := by
  show execScrubPassStart s = _
  rw [execScrubPassStart, off]
  rfl

theorem scrubPassStart_late (runs : passesRun s = true) (p : s.scb.pass.isSome = true) :
    exec .scrubPassStart s = .next (setFlag { s with scb := { s.scb with late := true } } 0x0808 6) := by
  show execScrubPassStart s = _
  rw [execScrubPassStart, runs, p]
  rfl

theorem scrubPassStart_starts (runs : passesRun s = true) (none : s.scb.pass = none) : exec .scrubPassStart s =
    .next { refresh s with scb := { (refresh s).scb with pass := some (passRange (refresh s)), late := false } } := by
  show execScrubPassStart s = _
  rw [execScrubPassStart, runs, none]
  rfl

theorem scrubIdleRefresh_refreshes (off : passesRun s = false) (on : s.pwr.st ≠ 2) : exec .scrubIdleRefresh s = .next (refresh s) := by
  show execScrubIdleRefresh s = _
  rw [execScrubIdleRefresh, if_neg (by simp [off, on])]

theorem scrubFrameCheck_none (none : s.scb.pass = none) : exec .scrubFrameCheck s = .next s := by
  show execScrubFrameCheck s = _
  rw [execScrubFrameCheck, none]

theorem scrubPassEnd_none (none : s.scb.pass = none) : exec .scrubPassEnd s = .next s := by
  show execScrubPassEnd s = _
  rw [execScrubPassEnd, none]

/-- The pass `p` has moved on by one frame. -/
def passAdvanced (s : State) (p : Pass) : State := { s with scb := { s.scb with pass := some { p with next := p.next + 1 } } }

variable {p : Pass}

theorem scrubFrameCheck_checks (h : s.scb.pass = some p) (left : p.next < p.last) (on : s.pwr.st ≠ 2) : exec .scrubFrameCheck s =
    .next (scrubFrame (passAdvanced s p) (decide (96 ≤ p.next)) (p.next % 96)) := by
  show execScrubFrameCheck s = _
  rw [execScrubFrameCheck, h]
  exact congrArg _ (if_pos ⟨left, on⟩)

theorem scrubPassEnd_counts (h : s.scb.pass = some p) (done : p.last ≤ p.next) : exec .scrubPassEnd s =
    .next (wr { s with scb := { s.scb with pass := none } } 0x080C (rd s 0x080C + 1)) := by
  show execScrubPassEnd s = _
  rw [execScrubPassEnd, h]
  exact congrArg _ (if_pos done)

theorem memorySweep_eq : exec .memorySweep s =
    .next (wr (forEach s.cnd.memErr s sweepWord) 0x0834 (rd (forEach s.cnd.memErr s sweepWord) 0x0834 + 1)) := rfl

end

/-- A saturating count steps by one, and stays at its limit. -/
theorem rd_satReg_self {s : State} {a : Nat} (w : twf 0 s.regs = true) :
    rd (satReg s a 1) a = if rd s a = 0xFFFFFFFF then 0xFFFFFFFF else rd s a + 1 := by
  rw [satReg, rd_wr_self _ w]
  apply BitVec.eq_of_toNat_eq
  have := (rd s a).isLt
  split
  · next h => rw [h]; rfl
  · next h =>
    have below : (rd s a).toNat ≠ 0xFFFFFFFF := fun e => h (BitVec.eq_of_toNat_eq e)
    rw [satAdd, BitVec.toNat_ofNat, BitVec.toNat_add]
    have one : (1 : Word).toNat = 1 := rfl
    omega

theorem rd_corrected {s : State} (k : Nat) (w : twf 0 s.regs = true) : rd (corrected s k) 0x0808 = rd s 0x0808 ||| 1 ∧
    rd (corrected s k) 0x0810 = (if rd s 0x0810 = 0xFFFFFFFF then 0xFFFFFFFF else rd s 0x0810 + 1) ∧
    ∀ r, r ≠ 0x0808 → r ≠ 0x0810 → rd (corrected s k) r = rd s r := by
  have flagged (r : Nat) (h : r ≠ 0x0808) : rd (setFlag s 0x0808 0) r = rd s r := rd_setFlag_ne s 0 h.symm
  refine ⟨?_, ?_, fun r hf hc => ?_⟩
  · exact (rd_satReg_ne (setFlag s 0x0808 0) 1 (by decide)).trans (rd_setFlag_self 0 w)
  · refine (rd_satReg_self (s := setFlag s 0x0808 0) (wr_regs_wf _ _ w)).trans ?_
    rw [flagged 0x0810 (by decide)]
  · exact (rd_satReg_ne _ 1 hc.symm).trans (flagged r hf)

end Sys2Proof.Machine
end

section
open Sys2Proof Sys2Proof.Machine

/-- Settles O33: a pass starts with a refresh, whose effect follows from the votes of the working copies; a checked frame is read word
by word, and at most one of its words acts; the counters count. -/
theorem scrubberPassesAndControls : Obligations.ScrubberPassesAndControls := by
  intro s wf g bump
  refine ⟨fun runs => ⟨fun running => ⟨_, scrubPassStart_late runs running, rfl, ?_, ?_, rfl⟩,
      fun none clean => ⟨fun agree => ?_, fun x odd copies => ?_⟩⟩,
    fun off => ⟨scrubPassStart_idle off, fun on agree clean => ?_, fun on x y z copies en _ region _ src _ xy xz yz clean => ?_⟩,
    fun p w0 h left on lt read good others wfErr => ⟨fun clean => ?_, fun one soft wfCfg => ?_⟩,
    fun p h done => ⟨_, scrubPassEnd_counts h done, rfl, ⟨?_, ?_⟩, rfl⟩,
    fun none => ⟨scrubPassEnd_none none, scrubFrameCheck_none none⟩,
    fun none => ?_, fun k n _ one room => ?_⟩
  · exact rd_setFlag_self (s := { s with scb := { s.scb with late := true } }) 6 wf
  · exact fun r h => rd_setFlag_ne _ 6 h.symm
  · refine ⟨passRange s, ?_, fun h => if_neg h, fun h => if_pos h⟩
    rw [scrubPassStart_starts runs none, refresh_of_agreement agree clean]
  · obtain ⟨scb, vote, sticky⟩ := refresh_of_outvoted wf odd copies clean
    refine ⟨_, scrubPassStart_starts runs none, ?_, ?_, ?_, rfl, vote, sticky⟩
    · exact (congrArg Scb.copies scb :)
    · exact (congrArg Scb.golden scb :)
    · exact (congrArg Scb.safe scb :)
  · rw [scrubIdleRefresh_refreshes off on, refresh_of_agreement agree clean]
  · exact ⟨_, scrubIdleRefresh_refreshes off on, refresh_of_undecided_period wf copies en region src xy xz yz clean⟩
  · have all (w : Nat) (hw : w < 64) : tget 0 s.hdg.cfgErr (cfgKey (decide (96 ≤ p.next)) (p.next % 96) w) = 0 := by
      by_cases e : w = w0.val
      · rw [e]; exact clean
      · exact others w hw e
    have run := scrubFrameCheck_checks h left on
    rw [scrubFrame_of_no_error (s := passAdvanced s p) read all good] at run
    exact ⟨_, run, rfl, rfl⟩
  · have run := scrubFrameCheck_checks h left on
    rw [scrubFrame_of_single (s := passAdvanced s p) read w0.isLt one soft others wfCfg wfErr good] at run
    obtain ⟨flags, count, rest⟩ := rd_corrected (s := passAdvanced s p) (cfgKey (decide (96 ≤ p.next)) (p.next % 96) w0) wf
    exact ⟨_, run, tget_tdel_self 0 wfErr, fun _ => rfl, flags, count, rfl, rest⟩
  · exact rd_wr_self (s := { s with scb := { s.scb with pass := none } }) _ wf
  · exact fun r h => rd_wr_ne _ _ h.symm
  · rw [memorySweep_eq, none]
    exact ⟨_, rfl, ⟨rd_wr_self _ wf, fun r h => rd_wr_ne _ _ h.symm⟩, rfl⟩
  · have swept : forEach s.cnd.memErr s sweepWord = sweepWord s (k, 2 ^ n) := by rw [one]; rfl
    have run := memorySweep_eq (s := s)
    rw [swept, sweepWord_of_single] at run
    have wfSwept : twf 0 (memCorrected s k).regs = true := wf
    refine ⟨_, run, ?_, rfl, ?_, ?_⟩
    · simp [memCorrected, one, tdel]
    · rw [rd_wr_self _ (wr_regs_wf _ _ wfSwept), rd_wr_ne _ _ (by decide)]
      rfl
    · rw [rd_wr_ne _ _ (by decide), rd_wr_self _ wfSwept, setFld_count room]

end

section
/-! SUPPORT. A unit of the active bank gated: the open frame becomes suspect, and a repair is ordered (R169 to R174). -/

namespace Sys2Proof.Machine
open Sys2Proof

/-- What the marking of suspect frames can change: the frames, the fault log with its registers, and FRM_FLAGS. -/
structure Faulting (s t : State) : Prop where
  others : { t with frm := s.frm, regs := s.regs, flt := s.flt, cnd := s.cnd } = s
  regs r : r ∉ [0x0308, 0x0E00, 0x0E10, 0x0F0C, 0x0F10] → rd t r = rd s r
  wf : twf 0 s.regs = true → twf 0 t.regs = true

namespace Faulting
variable {s t u : State}

theorem trans (h : Faulting s t) (g : Faulting t u) : Faulting s u where
  others := (congrArg (fun y : State => { y with frm := s.frm, regs := s.regs, flt := s.flt, cnd := s.cnd }) g.others :).trans h.others
  regs r m := (g.regs r m).trans (h.regs r m)
  wf := g.wf ∘ h.wf

theorem scb (h : Faulting s t) : t.scb = s.scb := (congrArg State.scb h.others :)

theorem boot (h : Faulting s t) : t.boot = s.boot := (congrArg State.boot h.others :)

theorem pwr (h : Faulting s t) : t.pwr = s.pwr := (congrArg State.pwr h.others :)

end Faulting

theorem markOutcome_faulting (s : State) (n : Nat) : Faulting s (markOutcome s 0x21 n) := by
  by_cases h : n = 0
  · rw [markOutcome, if_pos h]
    exact ⟨rfl, fun _ _ => rfl, id⟩
  · have flagged : markOutcome s 0x21 n = setFlag s 0x0308 1 := if_neg h
    rw [flagged]
    exact ⟨rfl, fun r m => rd_setFlag_ne s 1 fun e => m (by simp [← e]), wr_regs_wf _ _⟩

theorem modFrame_faulting (s : State) (c : BitVec 48) (g : Frame → Frame) : Faulting s (modFrame s c g) := ⟨rfl, fun _ _ => rfl, id⟩

theorem answerSlots_faulting (s : State) (c : BitVec 48) (p : Slot → Bool) (d : Nat) : Faulting s (answerSlots s c p 0x21 d) := by
  unfold answerSlots
  split
  · exact ⟨rfl, fun _ _ => rfl, id⟩
  · exact (modFrame_faulting s c _).trans (markOutcome_faulting _ _)

theorem sticky0_faulting (s : State) (n : Nat) (data : List Byte) : Faulting s (sticky0 s n data) where
  others := (congrArg (fun y : State => { y with frm := s.frm }) (sticky0_onlyFault s n data).others :)
  regs _ m := rd_sticky0_ne s n data fun h => m (List.mem_cons_of_mem _ h)
  wf := sticky0_regs_wf n data

theorem sticky0_frm (s : State) (n : Nat) (data : List Byte) : (sticky0 s n data).frm = s.frm :=
  (congrArg State.frm (sticky0_onlyFault s n data).others :)

section
variable {s : State} {fr : Frame} {rest : List Frame}

/-- The frames numbered `c` are suspect, with FRAME_FAULT 11 in every slot. -/
def SuspectIn (c : BitVec 48) (s : State) : Prop :=
  ∀ g ∈ s.frm.frames, g.count = c → g.suspect = true ∧ ∀ y ∈ g.slots, y.outcome = some (0x21, 11)

theorem answerSlots_head {c : BitVec 48} (h : s.frm.frames = fr :: rest) (e : fr.count = c) (p : Slot → Bool) (a b : Nat) :
    ∃ rest', (answerSlots s c p a b).frm.frames =
      { fr with slots := fr.slots.map (fun x => if p x then x.answer a b else x) } :: rest' := by
  rw [answerSlots_frames]
  exact modFrame_head h e _

/-- A frame that ingests is marked and answered, and stays where it is (R171). -/
theorem suspectFrame_of_ingesting (idle : s.frm.comp = none) (frames : s.frm.frames = fr :: rest) (ing : fr.st = .ingesting) :
    suspectFrame s fr.count =
      answerSlots (modFrame s fr.count fun f => { f with suspect := true }) fr.count (fun _ => true) 0x21 11 := by
  unfold suspectFrame
  extract_lets s1 s2 s3
  have still : s2 = s1 := by
    have none : s1.frm.comp = Option.none := idle
    simp only [s2, none]
  have found : ∃ g, findFrame s3 fr.count = some g ∧ g.st = .ingesting := by
    obtain ⟨rest1, head1⟩ := modFrame_head frames rfl fun f => { f with suspect := true }
    have head2 : s2.frm.frames = _ := (congrArg (fun u : State => u.frm.frames) still).trans head1
    obtain ⟨rest3, head3⟩ := answerSlots_head head2 rfl (fun _ => true) 0x21 11
    exact ⟨_, findFrame_head head3 rfl, ing⟩
  obtain ⟨g, found, st⟩ := found
  rw [found]
  dsimp only
  rw [if_neg (by simp [st])]
  exact congrArg (fun u => answerSlots u fr.count (fun _ => true) 0x21 11) still

/-- A frame of the number that is changed comes from one of that number. -/
theorem mem_modFrame {c : BitVec 48} {F : Frame → Frame} {g : Frame}
    (m : g ∈ (modFrame s c F).frm.frames) (e : g.count = c) : ∃ f ∈ s.frm.frames, f.count = c ∧ g = F f := by
  obtain ⟨f, n, rfl⟩ := List.mem_map.mp m
  by_cases hc : f.count = c
  · exact ⟨f, n, hc, if_pos hc⟩
  · rw [if_neg hc] at e
    exact absurd e hc

theorem suspectIn_suspectFrame (idle : s.frm.comp = none) (frames : s.frm.frames = fr :: rest) (ing : fr.st = .ingesting)
    (blank : ∀ g ∈ s.frm.frames, g.count = fr.count → ∀ y ∈ g.slots, y.blank) : SuspectIn fr.count (suspectFrame s fr.count) := by
  rw [suspectFrame_of_ingesting idle frames ing]
  intro g m e
  rw [answerSlots_frames] at m
  obtain ⟨h, marked, hc, rfl⟩ := mem_modFrame m e
  obtain ⟨f, origin, fc, rfl⟩ := mem_modFrame marked hc
  refine ⟨rfl, fun y k => ?_⟩
  obtain ⟨x, before, rfl⟩ := List.mem_map.mp k
  rw [if_pos rfl, (blank f origin fc x before).answer]

/-- The suspect interval starts with frame `c` (R170, R195). -/
def intervalFrom (s : State) (c : BitVec 48) : State :=
  { s with scb := { s.scb with
    suspect := some (match s.scb.suspect with
      | some d => if d.toNat ≤ c.toNat then d else c
      | none => c),
    suspAt := if bit (rd s 0x0E00) 7 then s.scb.suspAt else c } }

/-- Every frame from `c` on, in the interval that starts there. -/
def suspectsFrom (s : State) (c : BitVec 48) : State :=
  forEach ((s.frm.frames.filter (fun f => c.toNat ≤ f.count.toNat)).map (fun f => f.count)) (intervalFrom s c) suspectFrame

theorem markSuspect_eq (s : State) (c : BitVec 48) : markSuspect s c = sticky0 (suspectsFrom s c) 7
    (leBytes 4 (rd (suspectsFrom s c) 0x0814).toNat ++ leBytes 4 (suspectsFrom s c).scb.suspAt.toNat) := rfl

/-- From the newest frame's number on there is that frame alone. -/
theorem suspectsFrom_newest (frames : s.frm.frames = fr :: rest) (older : ∀ g ∈ rest, g.count.toNat < fr.count.toNat) :
    suspectsFrom s fr.count = suspectFrame (intervalFrom s fr.count) fr.count := by
  have alone : s.frm.frames.filter (fun f => fr.count.toNat ≤ f.count.toNat) = [fr] := by
    rw [frames, List.filter_cons_of_pos (by simp), List.filter_eq_nil_iff.mpr fun g m => by simpa using older g m]
  rw [suspectsFrom, alone]
  rfl

/-- The open frame becomes suspect, its slots are answered, and CFG_UE is set (R171). -/
theorem markSuspect_open (w : twf 0 s.regs = true) (idle : s.frm.comp = none) (frames : s.frm.frames = fr :: rest)
    (ing : fr.st = .ingesting) (older : ∀ g ∈ rest, g.count.toNat < fr.count.toNat) (blank : ∀ y ∈ fr.slots, y.blank) :
    Faulting (intervalFrom s fr.count) (markSuspect s fr.count) ∧ SuspectIn fr.count (markSuspect s fr.count) ∧
      bit (rd (markSuspect s fr.count) 0x0E00) 7 = true := by
  have faulting : Faulting (intervalFrom s fr.count) (suspectFrame (intervalFrom s fr.count) fr.count) := by
    rw [suspectFrame_of_ingesting (s := intervalFrom s fr.count) idle frames ing]
    exact (modFrame_faulting _ _ _).trans (answerSlots_faulting _ _ _ _)
  have all : ∀ g ∈ s.frm.frames, g.count = fr.count → ∀ y ∈ g.slots, y.blank := by
    intro g m c
    rw [frames] at m
    rcases List.mem_cons.mp m with rfl | m
    · exact blank
    · exact absurd (congrArg BitVec.toNat c) (Nat.ne_of_lt (older g m))
  have suspect := suspectIn_suspectFrame (s := intervalFrom s fr.count) idle frames ing all
  rw [markSuspect_eq, suspectsFrom_newest frames older]
  refine ⟨faulting.trans (sticky0_faulting _ 7 _), ?_, bit_sticky0 _ (faulting.wf w) (by decide)⟩
  rwa [SuspectIn, sticky0_frm]

end

/-! The order of a repair. -/

section
variable {s t : State} {f : Nat}

theorem passesRun_congr (copies : t.scb.copies = s.scb.copies) (golden : t.scb.golden = s.scb.golden) (boot : t.boot = s.boot)
    (pwr : t.pwr = s.pwr) : passesRun t = passesRun s := by
  rw [passesRun, passesRun, opEn, opEn, copies, golden, boot, pwr]

theorem repairWords_congr (copies : t.scb.copies = s.scb.copies) (boot : t.boot = s.boot) (crc : rd t 0x0708 = rd s 0x0708) :
    repairWords t f = repairWords s f := by
  have src : opSrc t = opSrc s := by rw [opSrc, opSrc, copies]
  have image (n : Nat) : slotImage t n = slotImage s n := by rw [slotImage, slotImage, flashBytes, flashBytes, boot]
  simp only [repairWords, src, image, crc]

/-- What the order of a repair can change: SCB_FLAGS, where bits are set, and the frames under repair. -/
structure Orders (s t : State) : Prop where
  others : { t with regs := s.regs, scb := { t.scb with repairing := s.scb.repairing } } = s
  regs r : r ≠ 0x0808 → rd t r = rd s r
  flags n : bit (rd s 0x0808) n = true → bit (rd t 0x0808) n = true

theorem orderRepair_orders (w : twf 0 s.regs = true) : Orders s (orderRepair s f) := by
  unfold orderRepair
  split
  · exact ⟨rfl, fun _ _ => rfl, fun _ => id⟩
  · split
    · exact ⟨rfl, fun _ _ => rfl, fun _ => id⟩
    · exact ⟨rfl, fun r h => rd_setFlag_ne s 3 h.symm, fun n h => by rw [rd_setFlag_self 3 w, bit_or, h, Bool.true_or]⟩

theorem bit_orderRepair_impossible (w : twf 0 s.regs = true) (runs : passesRun s = true) (none : repairWords s f = none) :
    bit (rd (orderRepair s f) 0x0808) 3 = true := by
  have e : orderRepair s f = setFlag s 0x0808 3 := by simp [orderRepair, runs, none]
  rw [e]
  exact bit_setFlag _ w (by decide)

theorem mem_repairing_orderRepair (runs : passesRun s = true) (some_ : (repairWords s f).isSome = true) :
    f ∈ (orderRepair s f).scb.repairing := by
  rw [orderRepair, runs, some_]
  by_cases h : f ∈ s.scb.repairing <;> simp [h]

end

end Sys2Proof.Machine
end

section
/-! SUPPORT. An uncorrectable word of the active bank that a corrector reports (R169 to R174, R194). -/

namespace Sys2Proof.Machine
open Sys2Proof

/-- The error is recorded in SCB_FLAGS and SCB_ERRADDR. -/
def ueRecorded (s : State) (f : Fin 96) (w : Fin 64) : State := errAddr (setFlag s 0x0808 1) s.hdg.bank f w 0

/-- Unit `f` is gated, and a repair of it that awaits its boundary is void (R169). -/
def unitGated (s : State) (f : Nat) : State :=
  { s with scb := { s.scb with gated := tput s.scb.gated f true, repaired := tdel s.scb.repaired f } }

/-- The frames from `c` on are suspect, after the error was recorded and its unit gated. -/
def ueMarked (s : State) (f : Fin 96) (w : Fin 64) (c : BitVec 48) : State := markSuspect (unitGated (ueRecorded s f w) f.val) c

section
variable {s : State} {f : Fin 96} {w : Fin 64}

theorem rd_ueRecorded_ne {r : Nat} (flags : r ≠ 0x0808) (addr : r ≠ 0x0814) : rd (ueRecorded s f w) r = rd s r :=
  (rd_wr_ne _ _ addr.symm).trans (rd_setFlag_ne s 1 flags.symm)

theorem ueRecorded_regs_wf (wf : twf 0 s.regs = true) : twf 0 (ueRecorded s f w).regs = true := wr_regs_wf _ _ (wr_regs_wf _ _ wf)

theorem rd_ueRecorded_addr (wf : twf 0 s.regs = true) :
    rd (ueRecorded s f w) 0x0814 = BitVec.ofNat 32 (w.val + 64 * f.val + if s.hdg.bank then 8192 else 0) := by
  rw [ueRecorded, errAddr, rd_wr_self (s := setFlag s 0x0808 1) _ (wr_regs_wf _ _ wf), Nat.mod_eq_of_lt w.isLt, Nat.mul_comm f.val]
  rfl

theorem bit_ueRecorded (wf : twf 0 s.regs = true) : bit (rd (ueRecorded s f w) 0x0808) 1 = true := by
  rw [ueRecorded, errAddr, rd_wr_ne _ _ (by decide)]
  exact bit_setFlag _ wf (by decide)

theorem correctorUe_idle {bank : Bool} (h : flipClass (tget 0 s.hdg.cfgErr (cfgKey bank f.val w.val)) ≠ 2) :
    exec (.correctorUe bank f w) s = .next s := congrArg _ (if_neg fun both => h both.1)

theorem correctorUe_gates (ue : flipClass (tget 0 s.hdg.cfgErr (cfgKey s.hdg.bank f.val w.val)) = 2) (unit : f.val ≤ 65)
    (free : gated s f.val = false) (isOpen : s.ang.frameOpen = true) : exec (.correctorUe s.hdg.bank f w) s =
      .next (orderRepair (ueMarked s f w s.ang.count48) f.val) := by
  have reported : exec (.correctorUe s.hdg.bank f w) s =
      .next (configError (ueRecorded s f w) s.hdg.bank f.val (curCount (ueRecorded s f w))) := congrArg _ (if_pos ⟨ue, .inr unit⟩)
  have active : s.hdg.bank = (ueRecorded s f w).hdg.bank := rfl
  have now : curCount (ueRecorded s f w) = s.ang.count48 := if_pos (by simp [ueRecorded, errAddr, setFlag, orReg, isOpen])
  have ungated : gated (ueRecorded s f w) f.val = false := free
  rw [reported, configError, if_pos active, now, gateUnit, if_pos ⟨unit, by rw [ungated]; rfl⟩]
  rfl

end

/-- The state before the repair is ordered, with the open frame `fr` suspect: what it records, and that a repair is possible in it just
when it was before. -/
structure Marked (s : State) (f : Fin 96) (w : Fin 64) (fr : Frame) (t : State) : Prop where
  wf : twf 0 t.regs = true
  unit : gated t f.val = true
  flag : bit (rd t 0x0808) 1 = true
  addr : rd t 0x0814 = BitVec.ofNat 32 (w.val + 64 * f.val + if s.hdg.bank then 8192 else 0)
  suspAt : t.scb.suspAt = fr.count
  suspect : t.scb.suspect.isSome = true
  sticky : bit (rd t 0x0E00) 7 = true
  frames : SuspectIn fr.count t
  runs : passesRun t = passesRun s
  words : repairWords t f.val = repairWords s f.val

theorem ueMarked_marked {s : State} {f : Fin 96} {w : Fin 64} {fr : Frame} {rest : List Frame} (wf : twf 0 s.regs = true)
    (clear : bit (rd s 0x0E00) 7 = false) (idle : s.frm.comp = none) (frames : s.frm.frames = fr :: rest) (ing : fr.st = .ingesting)
    (older : ∀ g ∈ rest, g.count.toNat < fr.count.toNat) (blank : ∀ y ∈ fr.slots, y.blank) :
    Marked s f w fr (ueMarked s f w fr.count) := by
  let v := unitGated (ueRecorded s f w) f.val
  have wfV : twf 0 v.regs = true := ueRecorded_regs_wf wf
  obtain ⟨kept, suspect, sticky⟩ := markSuspect_open (s := v) wfV idle frames ing older blank
  have hold : bit (rd v 0x0E00) 7 = false := by
    rw [show rd v 0x0E00 = rd s 0x0E00 from rd_ueRecorded_ne (by decide) (by decide), clear]
  have scb : (ueMarked s f w fr.count).scb = (intervalFrom v fr.count).scb := kept.scb
  exact {
    wf := kept.wf wfV
    unit := by rw [gated, scb]; simp [intervalFrom, v, unitGated, tget_tput]
    flag := (congrArg (bit · 1) (kept.regs 0x0808 (by decide))).trans (bit_ueRecorded wf)
    addr := (kept.regs _ (by decide)).trans (rd_ueRecorded_addr wf)
    suspAt := by rw [scb, intervalFrom, hold]; rfl
    suspect := by rw [scb, intervalFrom]; rfl
    sticky := sticky
    frames := suspect
    runs := passesRun_congr (congrArg Scb.copies scb :) (congrArg Scb.golden scb :) kept.boot kept.pwr
    words := repairWords_congr (congrArg Scb.copies scb :) kept.boot
      ((kept.regs _ (by decide)).trans (rd_ueRecorded_ne (by decide) (by decide))) }

/-! A repair from flash (R172, R173). -/

theorem foldl_zip_range' {t : Tbl DWord} (a : Nat) {vs : List DWord} {n : Nat} (all : vs.length = n) :
    (List.zip (List.range' a n) vs).foldl (fun t kv => tset 0 t kv.1 kv.2) t = tsets 0 t a vs := by
  induction vs generalizing t a n with
  | nil => rw [List.zip_nil_right]; rfl
  | cons v vs ih =>
    rw [← all, List.length_cons, List.range'_succ, List.zip_cons_cons, List.foldl_cons, ih _ rfl]
    rfl

theorem tget_foldl_tdel {α : Type} [DecidableEq α] (d : α) {t : Tbl α} {ks : List Nat} {k : Nat} (w : twf d t = true)
    (h : k ∈ ks ∨ tget d t k = d) : tget d (ks.foldl tdel t) k = d := by
  induction ks generalizing t with
  | nil => exact h.resolve_left List.not_mem_nil
  | cons j ks ih =>
    refine ih (twf_tdel d j w) ?_
    by_cases e : j = k
    · exact .inr (e ▸ tget_tdel_self d w)
    · rw [tget_tdel_ne d t e]
      exact h.imp_left fun m => (List.mem_cons.mp m).resolve_left (Ne.symm e)

/-- The keys of a frame's words. -/
def frameKeys (bank : Bool) (f : Nat) : List Nat := (List.range 64).map (fun w => cfgKey bank f w)

theorem frameKeys_eq (bank : Bool) (f : Nat) : frameKeys bank f = List.range' (cfgKey bank f 0) 64 := by
  rw [List.range'_eq_map_range]
  rfl

/-- Frame `f` of the active bank is rewritten, and its unit is released at the next boundary. -/
def frameRepaired (s : State) (f : Nat) (ws : List DWord) : State :=
  { s with
    hdg := { s.hdg with cfg := (List.zip (frameKeys s.hdg.bank f) ws).foldl (fun t kv => tset 0 t kv.1 kv.2) s.hdg.cfg,
                        cfgErr := (frameKeys s.hdg.bank f).foldl tdel s.hdg.cfgErr },
    scb := { s.scb with repairing := s.scb.repairing.filter (fun g => g ≠ f),
                        repaired := if f ≤ 65 then tput s.scb.repaired f true else s.scb.repaired } }

section
variable {s : State} {f : Fin 96} {ws : List DWord}

theorem flashRepairDone_repairs (ordered : s.scb.repairing.contains f.val = true) (idle : s.boot.op = none)
    (words : repairWords s f.val = some ws) : exec (.flashRepairDone f) s = .next (setFlag (frameRepaired s f.val ws) 0x0808 7) := by
  show execFlashRepairDone f s = _
  rw [execFlashRepairDone, if_pos ⟨ordered, by rw [idle]; rfl⟩, words]
  rfl

theorem flashRepairDone_idle (none : s.scb.repairing.contains f.val = false) : exec (.flashRepairDone f) s = .next s :=
  congrArg _ (if_neg fun both => Bool.false_ne_true (none.symm.trans both.1))

theorem frameRepaired_cfg (all : ws.length = 64) :
    (frameRepaired s f.val ws).hdg.cfg = tsets 0 s.hdg.cfg (cfgKey s.hdg.bank f.val 0) ws := by
  rw [← foldl_zip_range' _ all, ← frameKeys_eq]
  rfl

theorem frameRepaired_cfgErr : (frameRepaired s f.val ws).hdg.cfgErr = (frameKeys s.hdg.bank f.val).foldl tdel s.hdg.cfgErr := by
  rw [frameRepaired]

theorem frameRepaired_words (wf : twf 0 s.hdg.cfg = true) (wfErr : twf 0 s.hdg.cfgErr = true) (all : ws.length = 64) {i : Nat}
    (h : i < 64) : tget 0 (frameRepaired s f.val ws).hdg.cfg (cfgKey s.hdg.bank f.val i) = ws.getD i 0 ∧
      tget 0 (frameRepaired s f.val ws).hdg.cfgErr (cfgKey s.hdg.bank f.val i) = 0 := by
  have key : cfgKey s.hdg.bank f.val i = cfgKey s.hdg.bank f.val 0 + i := rfl
  have listed : i < ws.length := all ▸ h
  rw [frameRepaired_cfg all, frameRepaired_cfgErr]
  constructor
  · rw [key]
    refine tget_tsets_in 0 _ wf ?_
    rw [List.getElem?_eq_getElem listed, List.getD_eq_getElem _ _ listed]
  · refine tget_foldl_tdel 0 wfErr (.inl ?_)
    exact List.mem_map.mpr ⟨i, List.mem_range.mpr h, rfl⟩

end

end Sys2Proof.Machine
end

section
open Sys2Proof Sys2Proof.Machine

/-- Settles O34: an upset writes only what it strikes, and a corrector delivers a word with one flipped bit as it was; a gated unit's
error is followed through the marking of the open frame and the order of the repair; a repair writes a run of 64 words. -/
theorem upsetsGateAndRepair : Obligations.UpsetsGateAndRepair := by
  intro s wf wfErr
  refine ⟨fun u => ⟨_, rfl, by cases u <;> rfl⟩, fun bank f w flips hard => ⟨_, rfl, ?_, rfl, fun clean one => ?_⟩,
    fun f w fr rest ue unit free clear isOpen idle frames ing count older blank => ?_, fun bank f w h => correctorUe_idle h,
    fun f ws ordered idle words all wfCfg => ⟨_, flashRepairDone_repairs ordered idle words, ?_, ?_, ?_, ?_, rfl, ?_⟩,
    fun f none => flashRepairDone_idle none⟩
  · exact tget_tset_self 0 _ wfErr
  · have struck : tget 0 (upset s (.config bank f w flips hard)).hdg.cfgErr (cfgKey bank f.val w.val) = flips := by
      refine (tget_tset_self 0 _ wfErr).trans ?_
      rw [clean]
      exact BitVec.zero_xor
    refine (cfgWord_of_few ?_).trans (cfgWord_of_few (s := s) ?_).symm
    · rw [struck, one]; decide
    · rw [clean, ones_zero]; decide
  · have run := correctorUe_gates ue unit free isOpen
    rw [← count] at run
    have marked := ueMarked_marked (f := f) (w := w) wf clear idle frames ing older blank
    have orders := orderRepair_orders (f := f.val) marked.wf
    have scb := congrArg State.scb orders.others
    have frm : (orderRepair (ueMarked s f w fr.count) f.val).frm = _ := (congrArg State.frm orders.others :)
    refine ⟨_, run, ?_, orders.flags 1 marked.flag, (orders.regs _ (by decide)).trans marked.addr, ?_, ?_, ?_, ?_, ?_, ?_⟩
    · exact (congrArg (fun x : Scb => tget false x.gated f.val) scb :).trans marked.unit
    · exact ((congrArg Scb.suspAt scb :).trans marked.suspAt).trans count
    · exact (congrArg (fun x : Scb => x.suspect.isSome) scb :).trans marked.suspect
    · rw [orders.regs _ (by decide), marked.sticky]
    · rw [frm]
      exact marked.frames
    · exact fun none runs => bit_orderRepair_impossible marked.wf (marked.runs.trans runs) (marked.words.trans none)
    · exact fun possible runs => mem_repairing_orderRepair (marked.runs.trans runs) (marked.words ▸ possible)
  · exact rd_setFlag_self (s := frameRepaired s f.val ws) 7 wf
  · exact fun i h => frameRepaired_words wfCfg wfErr all h
  · simp [setFlag, orReg, frameRepaired]
  · exact fun h => by simp [setFlag, orReg, frameRepaired, h, tget_tput]
  · exact fun r h => rd_setFlag_ne _ 7 h.symm

end

section
/-! SUPPORT. Planes and fields of the PE array: the bits of a plane, a masked write, and planes written one after another (R197, R231). -/

namespace Sys2Proof.Machine
open Sys2Proof

theorem plane_ext {a b : Plane} (h : ∀ pe < 16384, a.getLsbD pe = b.getLsbD pe) : a = b := BitVec.eq_of_getLsbD_eq h

theorem getLsbD_mkPlane (f : Nat → Bool) {pe : Nat} (h : pe < 16384) : (mkPlane f).getLsbD pe = f pe := by
  rw [mkPlane, BitVec.getLsbD_setWidth, BitVec.getLsbD_ofBoolListLE, List.getD_eq_getElem?_getD, List.getElem?_map,
    List.getElem?_range h]
  simp only [h, decide_true, Bool.true_and, Option.map_some, Option.getD_some]

theorem mkPlane_const (b : Bool) : mkPlane (fun _ => b) = if b then BitVec.allOnes 16384 else 0 := by
  refine plane_ext fun pe h => ?_
  rw [getLsbD_mkPlane _ h]
  cases b
  · exact BitVec.getLsbD_zero.symm
  · exact (BitVec.getLsbD_allOnes.trans (decide_eq_true h)).symm

theorem getLsbD_maskIn (mask old new : Plane) {pe : Nat} (h : pe < 16384) :
    (maskIn mask old new).getLsbD pe = if mask.getLsbD pe then new.getLsbD pe else old.getLsbD pe := by
  rw [maskIn, BitVec.getLsbD_or, BitVec.getLsbD_and, BitVec.getLsbD_and, BitVec.getLsbD_not]
  cases mask.getLsbD pe <;> simp [h]

theorem maskIn_zero (mask old : Plane) : maskIn mask old 0 = old &&& ~~~mask := by simp [maskIn]

/-! Planes written from plane `p` on. -/

/-- Planes p, p + 1 and so on take the values given in the PEs of `mask`. -/
def setPlanes (s : State) (p n : Nat) (mask : Plane) (v : Nat → Plane) : State :=
  forEach (List.range n) s (fun t j => setPlane t (p + j) mask (v j))

theorem setField_eq (s : State) (p n : Nat) (mask : Plane) (f : Nat → Nat) :
    setField s p n mask f = setPlanes s p n mask (fun i => mkPlane (fun pe => (f pe).testBit i)) := rfl

theorem setPlanes_zero (s : State) (p : Nat) (mask : Plane) (v : Nat → Plane) : setPlanes s p 0 mask v = s := rfl

theorem setPlanes_succ (s : State) (p n : Nat) (mask : Plane) (v : Nat → Plane) :
    setPlanes s p (n + 1) mask v = setPlane (setPlanes s p n mask v) (p + n) mask (v n) := by
  simp [setPlanes, forEach, List.range_succ]

/-- A change of the array's planes and their parity, which leaves the planes canonical. -/
structure OnlyPlanes (s t : State) : Prop where
  array : { t.arr with planes := s.arr.planes, perr := s.arr.perr } = s.arr
  others : { t with arr := s.arr } = s
  wf : twf 0 s.arr.planes = true → twf 0 t.arr.planes = true

theorem OnlyPlanes.refl (s : State) : OnlyPlanes s s := ⟨rfl, rfl, id⟩

theorem OnlyPlanes.trans {s t u : State} (h : OnlyPlanes s t) (g : OnlyPlanes t u) : OnlyPlanes s u where
  array := (congrArg (fun a : Arr => { a with planes := s.arr.planes, perr := s.arr.perr }) g.array :).trans h.array
  others := (congrArg (fun y : State => { y with arr := s.arr }) g.others :).trans h.others
  wf := g.wf ∘ h.wf

theorem OnlyPlanes.eq {s t : State} (h : OnlyPlanes s t) :
    t = { s with arr := { s.arr with planes := t.arr.planes, perr := t.arr.perr } } :=
  (congrArg (fun y : State => { y with arr := t.arr }) h.others).trans
    (congrArg (fun a : Arr => { s with arr := { a with planes := t.arr.planes, perr := t.arr.perr } }) h.array)

theorem setPlane_onlyPlanes (s : State) (p : Nat) (mask v : Plane) : OnlyPlanes s (setPlane s p mask v) :=
  ⟨rfl, rfl, twf_tset 0 _ _⟩

theorem setPlanes_onlyPlanes (s : State) (p n : Nat) (mask : Plane) (v : Nat → Plane) :
    OnlyPlanes s (setPlanes s p n mask v) := by
  induction n with
  | zero => exact .refl s
  | succ n ih =>
    rw [setPlanes_succ]
    exact ih.trans (setPlane_onlyPlanes _ _ _ _)

section
variable {s : State} (w : twf 0 s.arr.planes = true)
include w

theorem plane_setPlane (p q : Nat) (mask v : Plane) : plane (setPlane s p mask v) q =
    if p % 2048 = q % 2048 then maskIn mask (plane s q) v else plane s q := by
  by_cases h : p % 2048 = q % 2048
  · rw [if_pos h, plane, plane, ← h]
    exact tget_tset_self 0 _ w
  · rw [if_neg h]
    exact tget_tset_ne 0 _ _ h

theorem plane_setPlanes_out {p n q : Nat} (mask : Plane) (v : Nat → Plane) (h : ∀ j < n, (p + j) % 2048 ≠ q % 2048) :
    plane (setPlanes s p n mask v) q = plane s q := by
  induction n with
  | zero => rfl
  | succ n ih =>
    rw [setPlanes_succ, plane_setPlane ((setPlanes_onlyPlanes s p n mask v).wf w), if_neg (h n (Nat.lt_succ_self n))]
    exact ih fun j hj => h j (Nat.lt_succ_of_lt hj)

/-- Planes that do not wrap onto each other each hold what was written to them. -/
theorem plane_setPlanes {p n j : Nat} (mask : Plane) (v : Nat → Plane) (hn : n ≤ 2048) (hj : j < n) :
    plane (setPlanes s p n mask v) (p + j) = maskIn mask (plane s (p + j)) (v j) := by
  induction n with
  | zero => exact absurd hj (Nat.not_lt_zero j)
  | succ n ih =>
    rw [setPlanes_succ, plane_setPlane ((setPlanes_onlyPlanes s p n mask v).wf w)]
    by_cases e : j = n
    · rw [e, if_pos rfl, plane_setPlanes_out w mask v fun i hi => by omega]
    · rw [if_neg (by omega)]
      exact ih (by omega) (by omega)

/-- Planes cleared in the PEs of `mask`, which may wrap onto each other. -/
theorem plane_setPlanes_clear {p n q : Nat} (mask : Plane) (h : ∃ j < n, (p + j) % 2048 = q % 2048) :
    plane (setPlanes s p n mask (fun _ => 0)) q = plane s q &&& ~~~mask := by
  induction n with
  | zero => simp at h
  | succ n ih =>
    rw [setPlanes_succ, plane_setPlane ((setPlanes_onlyPlanes s p n mask _).wf w), maskIn_zero]
    by_cases earlier : ∃ j < n, (p + j) % 2048 = q % 2048
    · rw [ih earlier, BitVec.and_assoc, BitVec.and_self, ite_self]
    · push Not at earlier
      obtain ⟨j, hj, e⟩ := h
      have last : j = n := by
        by_contra ne
        exact earlier j (by omega) e
      rw [if_pos (last ▸ e), plane_setPlanes_out w mask _ earlier]
end

/-! A field as a number: its bits lie in the planes from its first plane on. -/

/-- The number whose bits below `n` are given. -/
def bitSum (n : Nat) (b : Nat → Bool) : Nat := ((List.range n).map (fun i => if b i then 2 ^ i else 0)).sum

theorem bitSum_succ (n : Nat) (b : Nat → Bool) : bitSum (n + 1) b = 2 ^ n * (b n).toNat + bitSum n b := by
  have last : (if b n then 2 ^ n else 0) = 2 ^ n * (b n).toNat := by cases b n <;> simp
  simp [bitSum, List.range_succ, ← last, Nat.add_comm]

theorem bitSum_lt (n : Nat) (b : Nat → Bool) : bitSum n b < 2 ^ n := by
  induction n with
  | zero => exact Nat.one_pos
  | succ n ih =>
    rw [bitSum_succ, Nat.pow_succ]
    cases b n <;> simp <;> omega

theorem testBit_bitSum (n : Nat) (b : Nat → Bool) (j : Nat) : (bitSum n b).testBit j = (decide (j < n) && b j) := by
  induction n with
  | zero => simp [bitSum]
  | succ n ih =>
    rw [bitSum_succ, Nat.testBit_two_pow_mul_add _ (bitSum_lt n b), ih]
    by_cases low : j < n
    · simp [low, Nat.lt_succ_of_lt low]
    · by_cases e : j = n
      · subst e
        cases b j <;> simp
      · have high : ¬j < n + 1 := by omega
        have zero : (b n).toNat.testBit (j - n) = false :=
          Nat.testBit_lt_two_pow ((Bool.toNat_lt _).trans_le (Nat.pow_le_pow_right (n := 2) Nat.two_pos (by omega : 1 ≤ j - n)))
        simp [low, high, zero]

theorem bitSum_congr {n : Nat} {b c : Nat → Bool} (h : ∀ j < n, b j = c j) : bitSum n b = bitSum n c :=
  congrArg List.sum (List.map_congr_left fun j hj => by rw [h j (List.mem_range.mp hj)])

theorem bitSum_testBit (n v : Nat) : bitSum n v.testBit = v % 2 ^ n := by
  refine Nat.eq_of_testBit_eq fun j => ?_
  rw [testBit_bitSum, Nat.testBit_mod_two_pow]

theorem peField_eq (s : State) (p n pe : Nat) : peField s p n pe = bitSum n (fun i => (plane s (p + i)).getLsbD pe) := rfl

theorem peField_lt (s : State) (p n pe : Nat) : peField s p n pe < 2 ^ n := bitSum_lt n _

theorem testBit_peField (s : State) (p n pe : Nat) {j : Nat} (h : j < n) :
    (peField s p n pe).testBit j = (plane s (p + j)).getLsbD pe := by
  rw [peField_eq, testBit_bitSum, decide_eq_true h, Bool.true_and]

/-- A field written is read back where it was written, and stays elsewhere. -/
theorem peField_setField {s : State} (w : twf 0 s.arr.planes = true) (p : Nat) {n : Nat} (mask : Plane) (f : Nat → Nat) (hn : n ≤ 2048)
    {pe : Nat} (h : pe < 16384) :
    peField (setField s p n mask f) p n pe = if mask.getLsbD pe then f pe % 2 ^ n else peField s p n pe := by
  have bits : ∀ j < n, (plane (setField s p n mask f) (p + j)).getLsbD pe =
      if mask.getLsbD pe then (f pe).testBit j else (plane s (p + j)).getLsbD pe := fun j hj => by
    rw [setField_eq, plane_setPlanes w mask _ hn hj, getLsbD_maskIn _ _ _ h, getLsbD_mkPlane _ h]
  rw [peField_eq, bitSum_congr bits]
  split
  · exact bitSum_testBit n (f pe)
  · rfl

end Sys2Proof.Machine
end

section
/-! SUPPORT. The run of a vendor macro from issue to END: its own effect, and around it the allowance, the work planes, X and Y and the
retirement (R234, R242, R243, R728). -/

namespace Sys2Proof.Machine
open Sys2Proof

theorem traceArr_only (s : State) (fp ty v : Nat) : OnlyTrace s (traceArr s fp ty v) := by
  unfold traceArr
  split
  · exact traceChan_only s _ _ _ _
  · exact .refl s

theorem traceMacro_only (s : State) (fp : Nat) (w : Word) : OnlyTrace s (traceMacro s fp w) := by
  unfold traceMacro
  exact ((traceEvent_only s _ _).ite (.refl s)).trans (traceArr_only _ _ _ _)

theorem retire_of_running {s : State} {k : Comp} (n : Nat) (comp : s.frm.comp = some k) (live : k.handlerDone = false) :
    retire s n = { s with arr := { s.arr with
      queue := s.arr.queue.drop n, retired := (s.arr.retired + 1) % 65536, run := none } } := by
  simp [retire, compEnd, comp, live]

/-- The state in which a macro acts: its issue has been traced, and its count is taken from the allowance. -/
def issued (s : State) (tr : Trc) (left : Nat) : State := { s with trc := tr, arr := { s.arr with allow := left } }

/-- The effect `u` of a macro's own work on `s` leaves the frames and the sequencer's queue, and the planes canonical. -/
structure MacroWork (s u : State) : Prop where
  frm : u.frm = s.frm
  queue : u.arr.queue = s.arr.queue
  retired : u.arr.retired = s.arr.retired
  run : u.arr.run = s.arr.run
  planes : twf 0 s.arr.planes = true → twf 0 u.arr.planes = true

theorem OnlyPlanes.work {s u : State} (h : OnlyPlanes s u) : MacroWork s u where
  frm := (congrArg State.frm h.others :)
  queue := (congrArg Arr.queue h.array :)
  retired := (congrArg Arr.retired h.array :)
  run := (congrArg Arr.run h.array :)
  planes := h.wf

/-- What follows the macro's own work `u`: work planes and X and Y are cleared, and the macro retires. -/
def wrapUp (u : State) (p : Nat) (i : MacroInfo) : State :=
  let z := setPlanes u p i.work (active u) (fun _ => 0)
  let c := if i.cyc = 1 then z else clearXY z (active z)
  { c with arr := { c.arr with
    queue := c.arr.queue.drop (if i.ext then 2 else 1), retired := (c.arr.retired + 1) % 65536, run := none } }

theorem vendorMacro_eq {s u : State} {k : Comp} {w x : Word} {i : MacroInfo} {op : Nat} {body : State → Nat → Word → Word → State}
    (h : macroIssues s k w x i) (is : mOp w = op) (work : MacroWork s u)
    (acts : ∀ tr left, body (issued s tr left) k.fp w x = issued u tr left) :
    ∃ tr, vendorMacro op s body = wrapUp (issued u tr (s.arr.allow - i.cyc)) (pp s 14) i := by
  obtain ⟨comp, live, idle, ⟨rest, queue, issues⟩, range, clean, -⟩ := h
  unfold vendorMacro
  split
  next k' w' rest' comp' _ queue' =>
    obtain rfl : k = k' := Option.some.inj (comp.symm.trans comp')
    obtain ⟨rfl, rfl⟩ : w = w' ∧ rest = rest' := List.cons.inj (queue.symm.trans queue')
    rw [if_neg (not_not_intro is), issues]
    dsimp -zeta only
    extract_lets arr s1 s2 s3 s4
    have traced : s1 = issued s s1.trc (s.arr.allow - i.cyc) := (traceMacro_only _ k.fp w).eq
    have reach : ¬(macroPlanes s i).any (fun p => !inRange s (fpPart k.fp) p) = true := by simpa using range
    have whole : parityHit s1 (macroReads s i) = none := by rw [traced]; exact clean
    rw [if_neg reach, whole]
    dsimp -zeta only
    have acted : s2 = issued u s1.trc (s.arr.allow - i.cyc) := (congrArg (fun t => body t k.fp w x) traced).trans (acts _ _)
    have cleared : s3 = setPlanes s2 (pp s 14) i.work (active s2) (fun _ => 0) := rfl
    have comp3 : s3.frm.comp = some k := by
      rw [cleared, ((setPlanes_onlyPlanes _ _ _ _ _).work).frm, acted]
      exact (congrArg Frm.comp work.frm).trans comp
    have comp4 : s4.frm.comp = some k := by
      simp only [s4]
      split <;> exact comp3
    rw [comp4]
    refine ⟨s1.trc, ?_⟩
    rw [if_neg (by simp), retire_of_running _ comp4 live]
    simp only [s4, cleared, acted]
    rfl
  next none => exact absurd queue (none k w rest comp idle)

/-- The state after a macro's own work `u` and its retirement, whose planes are `P` with the parity `Q`. -/
def wrapped (u : State) (i : MacroInfo) (P Q : Tbl Plane) : State :=
  { u with arr := { u.arr with
    planes := P, perr := Q, x := if i.cyc = 1 then u.arr.x else u.arr.x &&& ~~~active u,
    y := if i.cyc = 1 then u.arr.y else u.arr.y &&& ~~~active u,
    queue := u.arr.queue.drop (if i.ext then 2 else 1), retired := (u.arr.retired + 1) % 65536, run := none } }

theorem wrapUp_eq (u : State) (p : Nat) (i : MacroInfo) : wrapUp u p i =
    wrapped u i (setPlanes u p i.work (active u) (fun _ => 0)).arr.planes (setPlanes u p i.work (active u) (fun _ => 0)).arr.perr := by
  unfold wrapUp wrapped
  rw [(setPlanes_onlyPlanes u p i.work (active u) (fun _ => 0)).eq]
  by_cases h : i.cyc = 1
  · simp only [if_pos h]
  · simp only [if_neg h]
    rfl

theorem wrapUp_done {s u : State} {i : MacroInfo} (tr : Trc) (work : MacroWork s u) (wf : twf 0 s.arr.planes = true)
    (idle : s.arr.run = none) :
    MacroDone s u (wrapUp (issued u tr (s.arr.allow - i.cyc)) (pp s 14) i) i := by
  have wfv : twf 0 (issued u tr (s.arr.allow - i.cyc)).arr.planes = true := work.planes wf
  rw [wrapUp_eq]
  refine ⟨?_, ?_, rfl, rfl, rfl, fun j hj => ?_, fun p h => ?_, ?_, rfl⟩
  · exact congrArg (List.drop (if i.ext then 2 else 1)) work.queue
  · exact congrArg (fun n => (n + 1) % 65536) work.retired
  · exact plane_setPlanes_clear wfv (active u) ⟨j, hj, rfl⟩
  · exact plane_setPlanes_out wfv (active u) _ h
  · have none : u.arr.run = none := work.run.trans idle
    simp only [wrapped, issued, ← none]

/-- A vendor macro that issues has its own work as its effect, and retires. -/
theorem vendorMacro_done {s u : State} {k : Comp} {w x : Word} {i : MacroInfo} {op : Nat} {body : State → Nat → Word → Word → State}
    (h : macroIssues s k w x i) (is : mOp w = op) (work : MacroWork s u)
    (acts : ∀ tr left, body (issued s tr left) k.fp w x = issued u tr left) : MacroDone s u (vendorMacro op s body) i := by
  obtain ⟨tr, eq⟩ := vendorMacro_eq h is work acts
  obtain ⟨-, -, idle, -, -, -, wf⟩ := h
  rw [eq]
  exact wrapUp_done tr work wf idle

/-- The command of a vendor opcode runs to its retirement with its own work as its effect. -/
theorem macroRuns_of_work {s u : State} {k : Comp} {w x : Word} {i : MacroInfo} {op : Nat} {c : Instr}
    {body : State → Nat → Word → Word → State} (h : macroIssues s k w x i) (run : exec c s = .next (vendorMacro op s body))
    (work : MacroWork s u) (acts : ∀ tr left, body (issued s tr left) k.fp w x = issued u tr left) : macroRuns s w i op c u :=
  fun is => ⟨_, run, vendorMacro_done h is work acts⟩


end Sys2Proof.Machine
end

section
/-! SUPPORT. The control, mask and field macros: what each one's work is (R231, R242). -/

namespace Sys2Proof.Machine
open Sys2Proof

theorem setPlanes_issued (s : State) (tr : Trc) (left p n : Nat) (mask : Plane) (v : Nat → Plane) :
    setPlanes (issued s tr left) p n mask v = issued (setPlanes s p n mask v) tr left := by
  induction n with
  | zero => rfl
  | succ n ih =>
    rw [setPlanes_succ, setPlanes_succ, ih]
    rfl

section
variable {s : State} {k : Comp} {w x : Word} {i : MacroInfo} {op : Nat} {c : Instr} {body : State → Nat → Word → Word → State}

/-- A macro that writes a destination field in the active PEs. -/
theorem macroRuns_of_field {p n : Nat} {f : Nat → Nat} (h : macroIssues s k w x i) (run : exec c s = .next (vendorMacro op s body))
    (writes : ∀ tr left, body (issued s tr left) k.fp w x = setField (issued s tr left) p n (active s) f) :
    macroRuns s w i op c (setField s p n (active s) f) :=
  macroRuns_of_work h run (setPlanes_onlyPlanes s p n _ _).work
    (fun tr left => (writes tr left).trans (setPlanes_issued s tr left p n _ _))

/-- A macro that writes registers of the array, no plane. -/
theorem macroRuns_of_registers {u : State} (h : macroIssues s k w x i) (run : exec c s = .next (vendorMacro op s body))
    (acts : ∀ tr left, body (issued s tr left) k.fp w x = issued u tr left) (frm : u.frm = s.frm)
    (array : (u.arr.queue, u.arr.retired, u.arr.run, u.arr.planes) = (s.arr.queue, s.arr.retired, s.arr.run, s.arr.planes)) :
    macroRuns s w i op c u := by
  simp only [Prod.mk.injEq] at array
  obtain ⟨queue, retired, idle, planes⟩ := array
  exact macroRuns_of_work h run ⟨frm, queue, retired, idle, fun wf => planes.symm ▸ wf⟩ acts
end

theorem setC_false (s : State) : setC s (fun _ => false) = { s with arr := { s.arr with c := s.arr.c &&& ~~~active s } } := by
  rw [setC, mkPlane_const, if_neg Bool.false_ne_true, maskIn_zero]

theorem setT_false (s : State) : setT s (fun _ => false) = { s with arr := { s.arr with t := s.arr.t &&& ~~~active s } } := by
  rw [setT, mkPlane_const, if_neg Bool.false_ne_true, maskIn_zero]

theorem lowBits_eleven_add_sInt (a b : Nat) : lowBits 11 ((a : Int) + sInt 12 b) = (a + b) % 2048 := by
  unfold lowBits sInt
  split <;> omega

theorem aluLogic_eq (n tt a b : Nat) : aluLogic n tt a b = bitSum n (fun j =>
    tt.testBit ((if a.testBit j then 2 else 0) + if b.testBit j then 1 else 0)) := by
  refine congrArg List.sum (List.map_congr_left fun j _ => ?_)
  cases e : a.testBit j <;> simp only [e] <;> rfl

end Sys2Proof.Machine
end

section
open Sys2Proof Sys2Proof.Machine

/-- Settles O13: a field is written bit by bit and read back; each macro's work is the write of its registers or of its field. -/
theorem macroFieldsAndControl : Obligations.MacroFieldsAndControl := by
  refine ⟨fun s p n mask f hn wf => ?_, fun s k w x i h => ?_, fun s k w x i h => ?_⟩
  · have only := setPlanes_onlyPlanes s p n mask (fun i => mkPlane (fun pe => (f pe).testBit i))
    exact ⟨fun pe hpe => peField_setField wf p mask f hn hpe, fun q out => plane_setPlanes_out wf mask _ out, only.wf wf,
      only.array, only.others⟩
  · have registers {op : Nat} {c : Instr} {body : State → Nat → Word → Word → State} {a : Arr}
        (run : exec c s = .next (vendorMacro op s body))
        (acts : ∀ tr left, body (issued s tr left) k.fp w x = issued { s with arr := a } tr left)
        (array : (a.queue, a.retired, a.run, a.planes) = (s.arr.queue, s.arr.retired, s.arr.run, s.arr.planes)) :=
      macroRuns_of_registers h run acts rfl array
    refine ⟨registers rfl (fun _ _ => rfl) rfl, registers rfl (fun _ _ => rfl) rfl, registers rfl (fun tr left => ?_) rfl,
      registers rfl (fun _ _ => rfl) rfl, registers rfl (fun tr left => ?_) rfl, registers rfl (fun _ _ => rfl) rfl,
      registers rfl (fun _ _ => rfl) rfl, registers rfl (fun _ _ => rfl) rfl, registers rfl (fun _ _ => rfl) rfl,
      registers rfl (fun _ _ => rfl) rfl, macroRuns_of_work h rfl (setPlane_onlyPlanes _ _ _ _).work (fun _ _ => rfl),
      registers rfl (fun _ _ => rfl) rfl, registers rfl (fun _ _ => rfl) rfl,
      macroRuns_of_work h rfl (setPlane_onlyPlanes _ _ _ _).work (fun _ _ => rfl)⟩
    · dsimp only
      rw [lowBits_eleven_add_sInt]
      rfl
    · dsimp only
      rw [setC_false, setT_false]
      rfl
  · have writes {op n : Nat} {c : Instr} {body : State → Nat → Word → Word → State} {f : Nat → Nat}
        (run : exec c s = .next (vendorMacro op s body))
        (acts : ∀ tr left, body (issued s tr left) k.fp w x = setField (issued s tr left) (pp s (mPD w)) n (active s) f) :=
      macroRuns_of_field h run acts
    refine ⟨writes rfl (fun _ _ => rfl), writes rfl (fun tr left => ?_), writes rfl (fun _ _ => rfl), writes rfl (fun _ _ => rfl),
      writes rfl (fun _ _ => rfl), fun b => writes rfl (fun _ _ => by simp only [b]; rfl),
      fun b => writes rfl (fun _ _ => by simp only [b]; rfl), fun b => writes rfl (fun _ _ => by simp only [b]; rfl),
      fun b => writes rfl (fun _ _ => by simp only [b]; rfl), fun b => writes rfl (fun _ _ => by simp only [b]; rfl)⟩
    simp only [aluLogic_eq]
    rfl

end

section
/-! SUPPORT. The transfer macros: planes loaded from words and words stored from planes (R213 to R217). -/

namespace Sys2Proof.Machine
open Sys2Proof

/-- Words from byte address `a` on take the values given. -/
def setWords (s : State) (a n : Nat) (v : Nat → Word) : State := forEach (List.range n) s (fun t j => wrWord t (a + 4 * j) (v j))

theorem setWords_succ (s : State) (a n : Nat) (v : Nat → Word) :
    setWords s a (n + 1) v = wrWord (setWords s a n v) (a + 4 * n) (v n) := by
  simp [setWords, forEach, List.range_succ]

theorem setWords_issued (s : State) (tr : Trc) (left a n : Nat) (v : Nat → Word) :
    setWords (issued s tr left) a n v = issued (setWords s a n v) tr left := by
  induction n with
  | zero => rfl
  | succ n ih =>
    rw [setWords_succ, setWords_succ, ih]
    rfl

/-- Words written to a memory without stored errors change the memory's bytes and nothing else. -/
structure OnlyMemory (s t : State) : Prop where
  others : { t with cnd := { t.cnd with mem := s.cnd.mem } } = s
  wf : Memory.wf 0 s.cnd.mem = true → Memory.wf 0 t.cnd.mem = true

theorem OnlyMemory.eq {s t : State} (h : OnlyMemory s t) : t = { s with cnd := { s.cnd with mem := t.cnd.mem } } :=
  (congrArg (fun y : State => { y with cnd := { y.cnd with mem := t.cnd.mem } }) h.others :)

section
variable {s : State} (clean : s.cnd.memErr = [])
include clean

theorem wrWord_of_clean (a : Nat) (v : Word) :
    wrWord s a v = { s with cnd := { s.cnd with mem := tsets 0 s.cnd.mem a (leBytes 4 v.toNat) } } := by
  have none : tdel s.cnd.memErr (a / 4) = s.cnd.memErr := by
    rw [clean]
    rfl
  simp only [wrWord, wrBytes_cnd, none]
  rfl

theorem setWords_onlyMemory (a n : Nat) (v : Nat → Word) : OnlyMemory s (setWords s a n v) := by
  induction n with
  | zero => exact ⟨rfl, id⟩
  | succ n ih =>
    have still : (setWords s a n v).cnd.memErr = [] := by
      rw [ih.eq]
      exact clean
    rw [setWords_succ, wrWord_of_clean still]
    exact ⟨ih.others, fun wf => twf_tsets 0 _ _ (ih.wf wf)⟩

theorem setWords_succ_mem (a n : Nat) (v : Nat → Word) : (setWords s a (n + 1) v).cnd.mem =
    tsets 0 (setWords s a n v).cnd.mem (a + 4 * n) (leBytes 4 (v n).toNat) := by
  have still : (setWords s a n v).cnd.memErr = [] := by
    rw [(setWords_onlyMemory clean a n v).eq]
    exact clean
  rw [setWords_succ, wrWord_of_clean still]

theorem tget_setWords_out {a n b : Nat} (v : Nat → Word) (h : b < a ∨ a + 4 * n ≤ b) :
    tget 0 (setWords s a n v).cnd.mem b = tget 0 s.cnd.mem b := by
  induction n with
  | zero => rfl
  | succ n ih =>
    rw [setWords_succ_mem clean, tget_tsets_out 0 _ _ _ (by rw [length_leBytes]; omega)]
    exact ih (by omega)

theorem rdWord_setWords (wf : Memory.wf 0 s.cnd.mem = true) {a n j : Nat} (v : Nat → Word) (h : j < n) :
    rdWord (setWords s a n v) (a + 4 * j) = v j := by
  induction n with
  | zero => exact absurd h (Nat.not_lt_zero j)
  | succ n ih =>
    rw [rdWord, rdBytes, setWords_succ_mem clean]
    by_cases e : j = n
    · subst e
      have still := (setWords_onlyMemory clean a j v).wf wf
      have written : tgets 0 (tsets 0 (setWords s a j v).cnd.mem (a + 4 * j) (leBytes 4 (v j).toNat)) (a + 4 * j) 4 =
          leBytes 4 (v j).toNat := by
        refine (tgets_tsets 0 (a + 4 * j) still (k := 0) (by rw [length_leBytes])).trans ?_
        rw [List.drop_zero, List.take_of_length_le (by rw [length_leBytes])]
      rw [written, leNat_leBytes (v j).isLt, BitVec.ofNat_toNat, BitVec.setWidth_eq]
    · rw [tgets_eq_map, List.map_congr_left (g := fun i => tget 0 (setWords s a n v).cnd.mem (a + 4 * j + i)), ← tgets_eq_map]
      · exact ih (by omega)
      · intro i hi
        have := List.mem_range.mp hi
        exact tget_tsets_out 0 _ _ _ (by omega)
end

/-! Loads. -/

/-- The staging register holds column 0 of a plane when a load into it ends. -/
def stagedFrom (s : State) (p : Nat) : State := { s with arr := { s.arr with staging := colOf (plane s p) 0 } }

theorem MacroWork.staging {s t : State} (h : MacroWork s t) (v : BitVec 128) :
    MacroWork s { t with arr := { t.arr with staging := v } } :=
  ⟨h.frm, h.queue, h.retired, h.run, h.planes⟩

theorem stagedFrom_issued (s : State) (tr : Trc) (left p : Nat) :
    stagedFrom (issued s tr left) p = issued (stagedFrom s p) tr left := rfl

section
variable {s : State} {k : Comp} {w x : Word} {i : MacroInfo} (h : macroIssues s k w x i) (mem : s.cnd.memErr = [])
  (recs : s.smp.recErr = [])

section
include mem recs

theorem xferBad_of_clean (a : Nat) : xferBad s a = false := by
  unfold xferBad
  split
  · rw [recs]
    exact Bool.and_false _
  · rw [mem]
    exact congrArg Option.isNone (secded_zero _)

theorem loadPlanes_of_clean (fp p n a words per : Nat) (src : Nat → Nat → Nat → Nat × Nat) : loadPlanes s fp p n a words per src =
    stagedFrom (setPlanes s p n (powered s) fun j => mkPlane fun pe =>
      (xferWord s (a + 4 * (src j (pe / 128) (pe % 128)).1)).getLsbD (src j (pe / 128) (pe % 128)).2) (p + n - 1) := by
  have whole : (fetchOrder words per).find? (fun i => xferBad s (a + 4 * i)) = none :=
    List.find?_eq_none.mpr fun i _ => by simp [xferBad_of_clean mem recs]
  rw [loadPlanes, whole]
  rfl
end

include h mem recs in
/-- A load takes each plane from the words that its macro names. -/
theorem macroRuns_of_load {op words per : Nat} {c : Instr} {body : State → Nat → Word → Word → State}
    (run : exec c s = .next (vendorMacro op s body)) (src : Nat → Nat → Nat → Nat × Nat)
    (loads : ∀ u, body u k.fp w x = loadPlanes u k.fp (pp u (mPD w)) (mW w) x.toNat words per src) :
    macroRuns s w i op c (stagedFrom (setPlanes s (pp s (mPD w)) (mW w) (powered s) fun j => mkPlane fun pe =>
      (xferWord s (x.toNat + 4 * (src j (pe / 128) (pe % 128)).1)).getLsbD (src j (pe / 128) (pe % 128)).2) (pp s (mPD w) + mW w - 1)) := by
  have work := (setPlanes_onlyPlanes s (pp s (mPD w)) (mW w) (powered s) fun j => mkPlane fun pe =>
    (xferWord s (x.toNat + 4 * (src j (pe / 128) (pe % 128)).1)).getLsbD (src j (pe / 128) (pe % 128)).2).work
  refine macroRuns_of_work h run (work.staging _) fun tr left => ?_
  rw [loads, loadPlanes_of_clean (s := issued s tr left) mem recs, ← stagedFrom_issued, ← setPlanes_issued]
  rfl

include h mem in
/-- A store writes the words that its macro gives, and no other byte of memory. -/
theorem stores_of_words {op words : Nat} {c : Instr} {body : State → Nat → Word → Word → State} {v : Nat → Word}
    (wf : Memory.wf 0 s.cnd.mem = true) (run : exec c s = .next (vendorMacro op s body)) (is : mOp w = op)
    (acts : ∀ tr left, body (issued s tr left) k.fp w x = setWords (issued s tr left) x.toNat words v) :
    ∃ t, exec c s = .next t ∧ (∀ j < words, rdWord t (x.toNat + 4 * j) = v j) ∧
      (∀ a, a < x.toNat ∨ x.toNat + 4 * words ≤ a → tget 0 t.cnd.mem a = tget 0 s.cnd.mem a) ∧
      MacroDone s { s with cnd := { s.cnd with mem := t.cnd.mem } } t i := by
  have only := setWords_onlyMemory mem x.toNat words v
  have array : (setWords s x.toNat words v).arr = s.arr := (congrArg State.arr only.others :)
  have done := vendorMacro_done h is (u := setWords s x.toNat words v)
    ⟨(congrArg State.frm only.others :), by rw [array], by rw [array], by rw [array], by rw [array]; exact id⟩
    (fun tr left => (acts tr left).trans (setWords_issued s tr left _ _ _))
  have cnd : (vendorMacro op s body).cnd = (setWords s x.toNat words v).cnd := (congrArg State.cnd done.others :)
  refine ⟨_, run, fun j hj => ?_, fun a ha => ?_, ?_⟩
  · rw [rdWord, rdBytes, cnd]
    exact rdWord_setWords mem wf v hj
  · rw [cnd]
    exact tget_setWords_out mem v ha
  · rw [cnd, ← only.eq]
    exact done
end

/-- The field that a turn store reads in a PE. -/
def storeField (s : State) (w : Word) (pe : Nat) : Nat := bitSum (mW w) fun j => storeBit s (pp s (mPA w) + j) pe

/-- The words of a turn store. -/
def sttWord (s : State) (w : Word) (j : Nat) : Word :=
  let v := storeField s w (128 * (j % 128) + j / 128)
  BitVec.ofNat 32 (if (mMod w).testBit 0 then lowBits 32 (sInt (mW w) v) else v)

/-- The words of a plane store. -/
def stsWord (s : State) (w : Word) (j : Nat) : Word :=
  BitVec.ofNat 32 (bitSum 32 fun r => storeBit s (pp s (mPA w) + j / 512) (128 * (32 * (j % 4) + r) + j % 512 / 4))

theorem execMacroLdt_eq (s : State) : exec .macroLdt s = .next (vendorMacro 0x60 s fun s fp w x =>
    loadPlanes s fp (pp s (mPD w)) (mW w) x.toNat 16384 128 fun j r c => (128 * c + r, mMod w % 32 + j)) := rfl

theorem execMacroLds_eq (s : State) : exec .macroLds s = .next (vendorMacro 0x62 s fun s fp w x =>
    loadPlanes s fp (pp s (mPD w)) (mW w) x.toNat (512 * mW w) 4 fun j r c => (512 * j + 4 * c + r / 32, r % 32)) := rfl

theorem execMacroStt_eq (s : State) :
    exec .macroStt s = .next (vendorMacro 0x61 s fun s _ w x => setWords s x.toNat 16384 (sttWord s w)) := rfl

theorem execMacroSts_eq (s : State) :
    exec .macroSts s = .next (vendorMacro 0x63 s fun s _ w x => setWords s x.toNat (512 * mW w) (stsWord s w)) := rfl

/-! The staging register. -/

section
variable {s : State} {w : Word} {rest : List Word} (comp : s.frm.comp.isSome = true) (idle : s.arr.run = none)
  (queue : s.arr.queue = w :: rest)
include comp idle queue

theorem execUwXfer_out (p : Fin 2048) (data : BitVec 128) (is : mOp w = 0x61 ∨ mOp w = 0x63) :
    exec (.uwXfer true p data) s = .next { s with arr := { s.arr with staging := colOf (plane s p &&& powered s) 0 } } := by
  show execUwXfer true p data s = _
  obtain is | is := is <;> simp [execUwXfer, comp, idle, queue, is]

theorem execUwXfer_in (p : Fin 2048) (data : BitVec 128) (is : mOp w = 0x60 ∨ mOp w = 0x62) :
    exec (.uwXfer false p data) s = .next (setPlane { s with arr := { s.arr with staging := data } } p (powered s)
      (((plane s p <<< 1) &&& ~~~colZero) ||| colPlane data 0)) := by
  show execUwXfer false p data s = _
  obtain is | is := is <;> simp [execUwXfer, comp, idle, queue, is]
end


end Sys2Proof.Machine
end

section
open Sys2Proof Sys2Proof.Machine

/-- Settles O16: a load is planes written from words, a store words written from planes; XFER moves one column. -/
theorem macroTransfers : Obligations.MacroTransfers := by
  refine ⟨fun s k w x i h mem recs wf => ?_, fun s p data w rest comp idle queue => ?_⟩
  · intro n base word staged loads bitAt stores field
    have stages : staged = fun u => stagedFrom u (pp s (mPD w) + n - 1) := rfl
    refine ⟨?_, ?_, fun is => stores_of_words h mem wf (execMacroStt_eq s) is fun _ _ => rfl,
      fun is => stores_of_words h mem wf (execMacroSts_eq s) is fun _ _ => rfl⟩
    · simp only [loads, stages]
      exact macroRuns_of_load h mem recs (execMacroLdt_eq s) (fun j r c => (128 * c + r, mMod w % 32 + j)) fun _ => rfl
    · simp only [loads, stages]
      exact macroRuns_of_load h mem recs (execMacroLds_eq s) (fun j r c => (512 * j + 4 * c + r / 32, r % 32)) fun _ => rfl
  · refine ⟨execUwXfer_out comp idle queue p data, fun is => ⟨_, execUwXfer_in comp idle queue p data is, rfl, ?_, rfl, rfl⟩⟩
    have small : p.val % 2048 = p.val := Nat.mod_eq_of_lt p.isLt
    simp only [setPlane, plane, small]

end

section
/-! SUPPORT. Microwords that execute, and the PEOP (R252, R255). -/

namespace Sys2Proof.Machine
open Sys2Proof

/-- A microword that is fetched without error and is of the class asked for executes on the state as it stands. -/
theorem microStep_of_fetches {s : State} {k : Comp} {r : Routine} {w : BitVec 40} {want : BitVec 40 → Bool}
    {body : State → Comp → Routine → BitVec 40 → State} (h : fetches s k r w) (wanted : want w = true) :
    microStep s want body = body s k r w := by
  obtain ⟨comp, run, free, clean, t, img, rfl⟩ := h
  have plain : tget 0 s.arr.topErr (topKey (usesPrev s (fpPart k.fp) k.count) (fpPart k.fp) r.upc) = 0 := by
    rw [clean]
    rfl
  simp [microStep, comp, run, img, plain, secded_zero, free]
  exact fun unwanted => absurd (wanted.symm.trans unwanted) (by decide)

/-- On a chip that is in no group no burst arrives. -/
theorem burstRx_alone {s : State} (alone : grouped s = false) (d edge : Nat) (bursts : List (BitVec 128)) :
    burstRx s d edge bursts = s := by
  simp [burstRx, takesBurst, axisLinked, alone]

/-- The plane that a PEOP's reduction reads. -/
def peSource (s : State) (w : BitVec 40) (rbit : Plane) : Plane :=
  match mwf w 1 2 with
  | 0 => s.arr.x
  | 1 => s.arr.c
  | 2 => s.arr.t
  | _ => rbit

section
variable {s : State} (alone : grouped s = false)
include alone

/-- On a chip that is in no group ARR_ANY takes the chip's own OR. -/
theorem recAny_alone (fp : Nat) (v grp chip : Bool) :
    recAny s fp v grp chip = { s with arr := { s.arr with any := v, redPart := some (fpPart fp) } } := by
  simp only [recAny, alone, Bool.and_false, Bool.false_eq_true, if_false]

theorem anyOf_alone (x : Plane) (grp others : Bool) : anyOf s x grp others = decide (x &&& active s ≠ 0) := by
  simp only [anyOf, alone, Bool.and_false, Bool.false_and, Bool.or_false]

theorem tallyOf_alone (x : Plane) (grp : Bool) (others : Nat) : tallyOf s x grp others = planeOnes (x &&& active s) := by
  simp only [tallyOf, alone, Bool.and_false, Bool.false_eq_true, if_false, Nat.add_zero]

/-- What a PEOP's reduction leaves in the latches on a chip that is in no group. -/
theorem peReduce_alone {t : State} (lone : grouped t = false) (fp : Nat) (w : BitVec 40) (rbit : Plane) (any : Bool) (tally : Nat) :
    ∃ part, peReduce s t fp w rbit any tally = { t with arr := { t.arr with
      any := if mwf w 3 2 = 1 then decide (peSource s w rbit &&& active s ≠ 0) else t.arr.any,
      tally := if mwf w 3 2 = 2 then planeOnes (peSource s w rbit &&& active s) else t.arr.tally, redPart := part } } := by
  have byCode : peReduce s t fp w rbit any tally = match mwf w 3 2 with
      | 1 => recAny t fp (anyOf s (peSource s w rbit) (decide (mwf w 0 1 = 1)) any) (decide (mwf w 0 1 = 1))
        (decide (peSource s w rbit &&& active s ≠ 0))
      | 2 => recTally t fp (tallyOf s (peSource s w rbit) (decide (mwf w 0 1 = 1)) tally)
      | _ => t := rfl
  rw [byCode]
  split
  next is => exact ⟨some (fpPart fp), by rw [recAny_alone lone, anyOf_alone alone, is, if_pos rfl, if_neg (by decide)]⟩
  next is => exact ⟨some (fpPart fp), by rw [recTally, tallyOf_alone alone, is, if_neg (by decide), if_pos rfl]⟩
  next not1 not2 => exact ⟨t.arr.redPart, by rw [if_neg not1, if_neg not2]⟩
end

/-- The plane write of a PEOP (R201, R255). -/
def peWrite (s : State) (mem wa : Nat) (v : PeIn) : State :=
  if mem = 0 then s else setPlane s wa (active s) (if mem = 1 then v.sum else if mem = 2 then v.carry else v.logic)

theorem peWrite_eq (s : State) (mem wa : Nat) (v : PeIn) : ∃ perr, peWrite s mem wa v = { s with arr := { s.arr with
    planes := if mem = 0 then s.arr.planes else tset 0 s.arr.planes (wa % 2048)
      (maskIn (active s) (plane s wa) (if mem = 1 then v.sum else if mem = 2 then v.carry else v.logic)),
    perr := perr } } := by
  unfold peWrite
  split
  · exact ⟨s.arr.perr, rfl⟩
  · exact ⟨_, rfl⟩

/-- A PEOP that meets no fault is its plane write, its flags and its reduction, and the routine goes on. -/
theorem peStep_of_good {s : State} {k : Comp} {r : Routine} {w : BitVec 40} (alone : grouped s = false)
    (reads : readUsed w = true → inRange s (fpPart k.fp) (vAddr r (mwf w 34 3) (mwf w 32 2)) = true ∧
      parityHit s [vAddr r (mwf w 34 3) (mwf w 32 2)] = none)
    (writes : mwf w 14 2 ≠ 0 → inRange s (fpPart k.fp) (vAddr r (mwf w 29 3) (mwf w 27 2)) = true ∧
      (r.committed = true ∨ vAddr r (mwf w 29 3) (mwf w 27 2) ∈ r.scratch)) (burst : BitVec 128) (any : Bool) (tally : Nat) :
    let rbit : Plane := if readUsed w then plane s (vAddr r (mwf w 34 3) (mwf w 32 2)) &&& powered s else 0
    let v := peIn s w rbit
    let y := if mwf w 18 3 ≠ 0 then nbrX s s.arr.x (mwf w 18 3) (mwf w 16 2) burst else if mwf w 5 1 = 1 then v.a else s.arr.y
    ∃ r', peStep burst any tally s k r w = goTo (peReduce s (peFlags
      (peWrite s (mwf w 14 2) (vAddr r (mwf w 29 3) (mwf w 27 2)) v) w v y) k.fp w rbit any tally) r' (r.upc + 1) := by
  unfold peStep
  generalize vAddr r (mwf w 34 3) (mwf w 32 2) = ra at *
  generalize vAddr r (mwf w 29 3) (mwf w 27 2) = wa at *
  generalize mwf w 14 2 = mem at *
  have inside : ((readUsed w && !inRange s (fpPart k.fp) ra) || (decide (mem ≠ 0) && !inRange s (fpPart k.fp) wa)) = false := by
    rw [Bool.or_eq_false_iff, Bool.and_eq_false_imp, Bool.and_eq_false_imp]
    exact ⟨fun u => by rw [(reads u).1]; rfl, fun m => by rw [(writes (of_decide_eq_true m)).1]; rfl⟩
  have parity : (if readUsed w && !false then parityHit s [ra] else none) = none := by
    split
    next u => exact (reads (by simpa using u)).2
    · rfl
  have allowed : (decide (mem ≠ 0) && !false && !r.committed && !r.scratch.contains wa) = false := by
    by_cases m : mem = 0
    · simp [m]
    · obtain c | c := (writes m).2
      · simp [c]
      · simp [c]
  have used : (if (readUsed w && !false) = true then plane s ra &&& powered s else 0) =
      if readUsed w = true then plane s ra &&& powered s else 0 := by rw [Bool.not_false, Bool.and_true]
  have writing : ∀ v : PeIn, (if mem ≠ 0 ∧ (!false) = true ∧ (!false) = true then
      setPlane s wa (active s) (if mem = 1 then v.sum else if mem = 2 then v.carry else v.logic) else s) = peWrite s mem wa v := by
    intro v
    by_cases m : mem = 0 <;> simp [peWrite, m]
  have still : ∀ v, grouped (peWrite s mem wa v) = false := by
    intro v
    obtain ⟨perr, eq⟩ := peWrite_eq s mem wa v
    rw [eq]
    exact alone
  simp only [inside, parity, allowed, used, writing, burstRx_alone (still _), ite_self, Bool.false_eq_true, if_false]
  exact ⟨_, rfl⟩

end Sys2Proof.Machine
end

section
open Sys2Proof Sys2Proof.Machine

/-- Settles O20: a PEOP that neither faults nor crosses chips is its plane write, its flags and its reduction. -/
theorem microcodePeop : Obligations.MicrocodePeop := by
  intro s k r w burst any tally fetched peop alone ra wa used mem reads writes on rbit a b c sum carry entry logic pick red
  have step : exec (.uwPeop burst any tally) s = .next (peStep burst any tally s k r w) :=
    congrArg Host.Outcome.next (microStep_of_fetches fetched (by simp [peop]))
  obtain ⟨r', acts⟩ := peStep_of_good alone reads writes burst any tally
  obtain ⟨perr, wrote⟩ := peWrite_eq s mem wa (peIn s w rbit)
  rw [wrote] at acts
  obtain ⟨part, reduced⟩ := peReduce_alone alone (t := peFlags { s with arr := { s.arr with
    planes := if mem = 0 then s.arr.planes else tset 0 s.arr.planes (wa % 2048)
      (maskIn on (plane s wa) (if mem = 1 then sum else if mem = 2 then carry else logic)),
    perr := perr } } w (peIn s w rbit) (if mwf w 18 3 ≠ 0 then nbrX s s.arr.x (mwf w 18 3) (mwf w 16 2) burst
        else if mwf w 5 1 = 1 then a else s.arr.y)) alone k.fp w rbit any tally
  exact ⟨_, { r' with upc := (r.upc + 1) % 4096 },
    step.trans (congrArg Host.Outcome.next (acts.trans (congrArg (fun t => goTo t r' (r.upc + 1)) reduced))),
    rfl, rfl, rfl, rfl, rfl, rfl, rfl, rfl, rfl, rfl, rfl, rfl, rfl, rfl, rfl, rfl⟩
end

section
/-! SUPPORT. The reductions, the neighbour shift and the elimination of EXTR (R207, R211, R212). -/

namespace Sys2Proof.Machine
open Sys2Proof

/-! The row under which a vendor macro issues. -/

theorem issue_vendorInfo {s : State} {k : Comp} {w x : Word} {rest : List Word} {i : MacroInfo}
    (issues : issue s k w rest = some (.ok (i, x))) (vendor : mOp w < 0x80) : vendorInfo (grouped s) w = some i := by
  have below : ¬0xF0 ≤ mOp w := by omega
  unfold issue wordInfo at issues
  rw [if_neg below, if_pos vendor] at issues
  cases info : vendorInfo (grouped s) w with
  | none => simp [info] at issues
  | some row =>
    rw [info] at issues
    have is : row = i := by
      dsimp only at issues
      split_ifs at issues
      all_goals cases issues
      all_goals rfl
    rw [is]

/-- NSHF and EXTR have no work planes. -/
theorem workless {s : State} {k : Comp} {w x : Word} {i : MacroInfo} (h : macroIssues s k w x i)
    (is : mOp w = 0x40 ∨ mOp w = 0x53) : i.work = 0 := by
  obtain ⟨-, -, -, ⟨rest, -, issues⟩, -⟩ := h
  have row := issue_vendorInfo issues (by omega)
  obtain is | is := is <;>
  · simp [vendorInfo, infoField, infoRed, is, miPlain] at row
    rw [← row]

/-- A macro without work planes writes no plane beyond its own work. -/
theorem vendorMacro_workless {s u : State} {k : Comp} {w x : Word} {i : MacroInfo} {op : Nat}
    {body : State → Nat → Word → Word → State} (h : macroIssues s k w x i) (is : mOp w = op) (work : MacroWork s u)
    (acts : ∀ tr left, body (issued s tr left) k.fp w x = issued u tr left) (none : i.work = 0) :
    (vendorMacro op s body).arr.planes = u.arr.planes := by
  obtain ⟨tr, eq⟩ := vendorMacro_eq h is work acts
  rw [eq, wrapUp_eq, none, setPlanes_zero]
  rfl

/-! The neighbour shift on a chip that is in no group. -/

theorem shiftFrom_eq (dir : Nat) : shiftFrom dir = if dir = 0 then 3 else if dir = 1 then 4 else if dir = 2 then 1 else 2 := by
  unfold shiftFrom
  split
  · rfl
  · rfl
  · rfl
  next not0 not1 not2 => rw [if_neg not0, if_neg not1, if_neg not2]

section
variable {s : State} (alone : grouped s = false)
include alone

theorem edgeIn_alone (d edge : Nat) (opp burst : BitVec 128) : edgeIn s d edge opp burst = edgeIn s d edge opp 0 := by
  simp [edgeIn, axisLinked, alone]

theorem nbrX_alone (x : Plane) (d edge : Nat) (burst : BitVec 128) : nbrX s x d edge burst = nbrX s x d edge 0 := by
  simp only [nbrX, edgeIn_alone alone _ edge _ burst]

theorem shiftPlane_alone (dir edge : Nat) (bursts : List (BitVec 128)) (n : Nat) : ∀ (k : Nat) (x : Plane),
    shiftPlane s dir edge bursts k n x = Nat.iterate (fun v => nbrX s v (shiftFrom dir) edge 0) n x := by
  induction n with
  | zero => exact fun _ _ => rfl
  | succ n ih =>
    intro k x
    rw [shiftPlane, ih, nbrX_alone alone]
    rfl
end

/-! The elimination. -/

theorem plane_ne_zero {v : Plane} : v ≠ 0 ↔ ∃ pe < 16384, v.getLsbD pe = true := by
  constructor
  · intro ne
    by_contra none
    push Not at none
    exact ne (plane_ext fun pe h => by simpa using none pe h)
  · rintro ⟨pe, -, one⟩ rfl
    simp at one

/-- The elimination of EXTR has come down to plane `j`: of the fields `f` of the PEs of `on`, cut below bit `j`, `q` is the
largest, and the candidates `cand` are the PEs that hold it. -/
structure Eliminated (f : Nat → Nat) (on : Plane) (j q : Nat) (cand : Plane) : Prop where
  some : ∃ pe < 16384, cand.getLsbD pe = true
  holds : ∀ pe < 16384, cand.getLsbD pe = (on.getLsbD pe && decide (f pe / 2 ^ j = q))
  bound : ∀ pe < 16384, on.getLsbD pe = true → f pe / 2 ^ j ≤ q

theorem div_two_pow_bit (v j : Nat) : v / 2 ^ j = 2 * (v / 2 ^ (j + 1)) + (v.testBit j).toNat := by
  rw [Nat.pow_succ, ← Nat.div_div_eq_div_mul, Nat.testBit_eq_decide_div_mod_eq]
  by_cases odd : v / 2 ^ j % 2 = 1 <;> simp [odd] <;> omega

theorem Eliminated.hit {f : Nat → Nat} {on cand key : Plane} {j q : Nat} (h : Eliminated f on (j + 1) q cand)
    (bit : ∀ pe < 16384, key.getLsbD pe = (f pe).testBit j) (hit : cand &&& key ≠ 0) :
    Eliminated f on j (2 * q + 1) (cand &&& key) where
  some := plane_ne_zero.mp hit
  holds pe lt := by
    rw [BitVec.getLsbD_and, h.holds pe lt, bit pe lt, div_two_pow_bit (f pe) j]
    cases on.getLsbD pe
    · rfl
    · cases (f pe).testBit j
      · simp
        omega
      · simp
  bound pe lt active := by
    have := h.bound pe lt active
    have := Bool.toNat_le ((f pe).testBit j)
    rw [div_two_pow_bit]
    omega

theorem Eliminated.miss {f : Nat → Nat} {on cand key : Plane} {j q : Nat} (h : Eliminated f on (j + 1) q cand)
    (bit : ∀ pe < 16384, key.getLsbD pe = (f pe).testBit j) (miss : cand &&& key = 0) :
    Eliminated f on j (2 * q) (cand &&& ~~~key) := by
  have low : ∀ pe < 16384, cand.getLsbD pe = true → (f pe).testBit j = false := fun pe lt one => by
    have none := congrArg (fun v : Plane => v.getLsbD pe) miss
    simpa [one, bit pe lt] using none
  have same : cand &&& ~~~key = cand := plane_ext fun pe lt => by
    rw [BitVec.getLsbD_and, BitVec.getLsbD_not, bit pe lt, decide_eq_true lt]
    cases one : cand.getLsbD pe
    · rfl
    · simp [low pe lt one]
  rw [same]
  have cut := h.holds
  refine ⟨h.some, fun pe lt => ?_, fun pe lt active => ?_⟩
  · rw [cut pe lt]
    cases active : on.getLsbD pe
    · rfl
    · by_cases eq : f pe / 2 ^ (j + 1) = q
      · have zero := low pe lt (by rw [cut pe lt, active, decide_eq_true eq]; rfl)
        simp [div_two_pow_bit (f pe) j, zero, eq]
      · have := Bool.toNat_le ((f pe).testBit j)
        simp [div_two_pow_bit (f pe) j, eq]
        omega
  · have le := h.bound pe lt active
    have := Bool.toNat_le ((f pe).testBit j)
    rw [div_two_pow_bit]
    by_cases eq : f pe / 2 ^ (j + 1) = q
    · have zero := low pe lt (by rw [cut pe lt, active, decide_eq_true eq]; rfl)
      simp [zero, eq]
    · omega

/-- One step of an unsigned search for the largest field at chip scope: the candidates with a one in the plane stay, if any. -/
theorem extrStep_largest {s : State} {w : Word} (plain : mMod w = 0) (others : List Bool) (r : Plane × Nat × Bool × Bool) (j : Nat) :
    extrStep s w false others r j = if r.1 &&& plane s (pp s (mPA w) + j) = 0
      then (r.1 &&& ~~~plane s (pp s (mPA w) + j), r.2.1, false, false)
      else (r.1 &&& plane s (pp s (mPA w) + j), r.2.1 + 2 ^ j, true, true) := by
  simp only [extrStep, plain, Nat.zero_testBit, Bool.not_false, Bool.false_and, Bool.or_false, bne_iff_ne, ne_eq,
    Bool.true_eq_false, not_false_eq_true, if_true, decide_eq_true_eq]
  by_cases miss : r.1 &&& plane s (pp s (mPA w) + j) = 0
  · simp only [miss, not_true_eq_false, if_false, if_true, Nat.add_zero, decide_false]
  · simp only [miss, not_false_eq_true, if_true, if_false, decide_true]

/-- An unsigned search for the largest field at chip scope steps from plane `j + 1` down to plane `j`. -/
theorem extrStep_eliminated {s : State} {w : Word} {others : List Bool} (plain : mMod w = 0) {j q : Nat} {r : Plane × Nat × Bool × Bool}
    (inside : j < mW w) (value : r.2.1 = 2 ^ (j + 1) * q)
    (h : Eliminated (peField s (pp s (mPA w)) (mW w)) (active s) (j + 1) q r.1) :
    ∃ q', (extrStep s w false others r j).2.1 = 2 ^ j * q' ∧
      Eliminated (peField s (pp s (mPA w)) (mW w)) (active s) j q' (extrStep s w false others r j).1 := by
  have bit : ∀ pe < 16384, (plane s (pp s (mPA w) + j)).getLsbD pe = (peField s (pp s (mPA w)) (mW w) pe).testBit j :=
    fun pe _ => (testBit_peField s _ _ pe inside).symm
  rw [extrStep_largest plain]
  split
  next miss => exact ⟨2 * q, by rw [value]; ring, h.miss bit miss⟩
  next hit => exact ⟨2 * q + 1, by rw [value]; ring, h.hit bit hit⟩

/-- The elimination over planes `n - 1` to 0 ends with the largest field and the PEs that hold it. -/
theorem extr_eliminated {s : State} {w : Word} {others : List Bool} (plain : mMod w = 0) {n : Nat} : ∀ {q : Nat}
    {r : Plane × Nat × Bool × Bool}, n ≤ mW w → r.2.1 = 2 ^ n * q →
    Eliminated (peField s (pp s (mPA w)) (mW w)) (active s) n q r.1 →
    Eliminated (peField s (pp s (mPA w)) (mW w)) (active s) 0 ((List.range n).reverse.foldl (extrStep s w false others) r).2.1
      ((List.range n).reverse.foldl (extrStep s w false others) r).1 := by
  induction n with
  | zero =>
    intro q r _ value h
    have is : r.2.1 = q := by simpa using value
    exact is ▸ h
  | succ n ih =>
    intro q r inside value h
    obtain ⟨q', value', h'⟩ := extrStep_eliminated (others := others) plain inside value h
    rw [List.range_succ, List.reverse_concat, List.foldl_cons]
    exact ih (Nat.le_of_succ_le inside) value' h'

/-- Before the first plane every active PE is a candidate. -/
theorem eliminated_start {s : State} {f : Nat → Nat} {n : Nat} (some : active s ≠ 0) (small : ∀ pe, f pe < 2 ^ n) :
    Eliminated f (active s) n 0 (active s) where
  some := plane_ne_zero.mp some
  holds pe _ := by rw [Nat.div_eq_of_lt (small pe), decide_eq_true rfl, Bool.and_true]
  bound pe _ _ := (Nat.div_eq_of_lt (small pe)).le

/-! The two macros as a whole. -/

/-- NSHF writes shifted planes and clears X and Y in every powered PE. -/
def shifted (s : State) (w : Word) : State :=
  let z := setPlanes s (pp s (mPD w)) (mW w) (active s) fun j =>
    Nat.iterate (fun v => nbrX s v (shiftFrom (fld w 0 2)) (fld w 2 2) 0) (mPB w + 1) (plane s (pp s (mPA w) + j))
  clearXY z (powered z)

theorem execMacroNshf_eq {s : State} (alone : grouped s = false) (bursts : List (BitVec 128)) :
    exec (.macroNshf bursts) s = .next (nshf bursts s) := by
  show Host.Outcome.next _ = _
  congr 1
  split
  · rw [if_neg (by simp [alone])]
  · rfl

/-- On a chip that is in no group NSHF is a vendor macro with the shift as its work. -/
theorem nshf_acts {s : State} (alone : grouped s = false) (bursts : List (BitVec 128)) :
    ∃ body, exec (.macroNshf bursts) s = .next (vendorMacro 0x40 s body) ∧
      ∀ tr left fp w x, body (issued s tr left) fp w x = issued (shifted s w) tr left := by
  refine ⟨_, execMacroNshf_eq alone bursts, fun tr left fp w x => ?_⟩
  have lone : grouped (issued s tr left) = false := alone
  have moved : setPlanes (issued s tr left) (pp s (mPD w)) (mW w) (active s) (fun i =>
        shiftPlane (issued s tr left) (fld w 0 2) (fld w 2 2) bursts (i * (mPB w + 1)) (mPB w + 1) (plane s (pp s (mPA w) + i))) =
      issued (setPlanes s (pp s (mPD w)) (mW w) (active s) fun j =>
      Nat.iterate (fun v => nbrX s v (shiftFrom (fld w 0 2)) (fld w 2 2) 0) (mPB w + 1) (plane s (pp s (mPA w) + j))) tr left := by
    rw [← setPlanes_issued]
    simp only [shiftPlane_alone lone]
    rfl
  refine (congrArg (fun z => clearXY (burstRx z _ _ (bursts.take (mW w * (mPB w + 1)))) (powered z)) moved).trans ?_
  rw [burstRx_alone]
  · rfl
  · exact (congrArg grouped (setPlanes_onlyPlanes s _ _ _ _).others :).trans alone

theorem shifted_work (s : State) (w : Word) : MacroWork s (shifted s w) := by
  have work := (setPlanes_onlyPlanes s (pp s (mPD w)) (mW w) (active s) fun j =>
    Nat.iterate (fun v => nbrX s v (shiftFrom (fld w 0 2)) (fld w 2 2) 0) (mPB w + 1) (plane s (pp s (mPA w) + j))).work
  exact ⟨work.frm, work.queue, work.retired, work.run, work.planes⟩

/-- The search's own effect: QRES and, when a PE is active, T. -/
def searched (s : State) (k : Comp) (w : Word) (others : List Bool) : State :=
  let r := (List.range (mW w)).reverse.foldl (extrStep s w false others) (active s, 0, false, false)
  if active s = 0 then setQres (recAny s k.fp false false false) 0
  else setQres (setT (recAny s k.fp r.2.2.1 false r.2.2.2) (fun pe => decide (peField s (pp s (mPA w)) (mW w) pe = r.2.1))) r.2.1

theorem extr_acts (s : State) (part : Bool) (others : List Bool) :
    ∃ body, exec (.macroExtr part others) s = .next (vendorMacro 0x53 s body) ∧ ∀ tr left (k : Comp) w x, mMod w = 0 →
      body (issued s tr left) k.fp w x = issued (searched s k w others) tr left := by
  refine ⟨_, rfl, fun tr left k w x plain => ?_⟩
  dsimp only [searched]
  simp only [plain, Nat.zero_testBit, Bool.false_and, Bool.not_false, and_true, Bool.false_eq_true, if_false]
  by_cases idle : active s = 0
  · rw [if_pos idle, if_pos (show active (issued s tr left) = 0 from idle)]
    rfl
  · rw [if_neg idle, if_neg (show ¬active (issued s tr left) = 0 from idle)]
    rfl

theorem searched_work (s : State) (k : Comp) (w : Word) (others : List Bool) : MacroWork s (searched s k w others) := by
  unfold searched
  split <;> exact ⟨rfl, rfl, rfl, rfl, id⟩

theorem clear_powered_active (s : State) (v : Plane) : v &&& ~~~powered s &&& ~~~active s = v &&& ~~~powered s := by
  refine plane_ext fun pe h => ?_
  rw [active, BitVec.getLsbD_and, BitVec.getLsbD_not, BitVec.getLsbD_and, BitVec.getLsbD_and, BitVec.getLsbD_not]
  cases (powered s).getLsbD pe <;> simp [h]

/-- What NSHF leaves behind. -/
theorem nshf_done {s t : State} {w : Word} {i : MacroInfo} (done : MacroDone s (shifted s w) t i) :
    t.arr.x = s.arr.x &&& ~~~powered s ∧ t.arr.y = s.arr.y &&& ~~~powered s ∧ t.arr.m = s.arr.m ∧ t.arr.c = s.arr.c ∧
      t.arr.t = s.arr.t ∧ t.cnd = s.cnd ∧ t.frm = s.frm ∧ t.regs = s.regs := by
  have only := setPlanes_onlyPlanes s (pp s (mPD w)) (mW w) (active s) fun j =>
    Nat.iterate (fun v => nbrX s v (shiftFrom (fld w 0 2)) (fld w 2 2) 0) (mPB w + 1) (plane s (pp s (mPA w) + j))
  have array : (shifted s w).arr = { s.arr with
      planes := (shifted s w).arr.planes, perr := (shifted s w).arr.perr,
      x := s.arr.x &&& ~~~powered s, y := s.arr.y &&& ~~~powered s } := by
    rw [shifted, only.eq]
    rfl
  have on : active (shifted s w) = active s := by
    rw [active, powered, array]
    rfl
  have x := done.x
  have y := done.y
  have m := congrArg Arr.m done.array
  have c := congrArg Arr.c done.array
  have t' := congrArg Arr.t done.array
  rw [on, array, clear_powered_active, ite_self] at x y
  rw [array] at m c t'
  exact ⟨x, y, m, c, t', (congrArg State.cnd done.others :).trans (congrArg State.cnd only.others :),
    (congrArg State.frm done.others :).trans (congrArg State.frm only.others :),
    (congrArg State.regs done.others :).trans (congrArg State.regs only.others :)⟩

theorem searched_keeps (s : State) (k : Comp) (w : Word) (others : List Bool) :
    let u := searched s k w others
    u.arr.planes = s.arr.planes ∧ u.arr.m = s.arr.m ∧ u.arr.c = s.arr.c ∧ u.cnd = s.cnd ∧ u.frm = s.frm ∧ u.regs = s.regs := by
  unfold searched
  split <;> exact ⟨rfl, rfl, rfl, rfl, rfl, rfl⟩

theorem searched_idle {s : State} (idle : active s = 0) (k : Comp) (w : Word) (others : List Bool) :
    (searched s k w others).arr.qres = 0 ∧ (searched s k w others).arr.t = s.arr.t := by
  simp only [searched, if_pos idle]
  exact ⟨rfl, rfl⟩

/-- The search with an active PE delivers the largest field `v` and marks the PEs that hold it. -/
theorem searched_largest {s : State} {k : Comp} {w : Word} {others : List Bool} (plain : mMod w = 0) {v : Nat}
    (held : ∃ pe < 16384, (active s).getLsbD pe = true ∧ peField s (pp s (mPA w)) (mW w) pe = v)
    (largest : ∀ pe < 16384, (active s).getLsbD pe = true → peField s (pp s (mPA w)) (mW w) pe ≤ v) :
    (searched s k w others).arr.qres = BitVec.ofNat 32 v ∧
      (searched s k w others).arr.t = maskIn (active s) s.arr.t (mkPlane fun pe => decide (peField s (pp s (mPA w)) (mW w) pe = v)) := by
  obtain ⟨top, lt, on, rfl⟩ := held
  have some : active s ≠ 0 := plane_ne_zero.mpr ⟨top, lt, on⟩
  obtain ⟨⟨pe, inside, one⟩, holds, bound⟩ := extr_eliminated (others := others) (r := (active s, 0, false, false)) plain le_rfl rfl
    (eliminated_start some (peField_lt s (pp s (mPA w)) (mW w)))
  unfold searched
  generalize (List.range (mW w)).reverse.foldl (extrStep s w false others) (active s, 0, false, false) = r at *
  simp only [pow_zero, Nat.div_one] at holds bound
  have cand := holds pe inside
  rw [one, eq_comm, Bool.and_eq_true, decide_eq_true_eq] at cand
  have is : r.2.1 = peField s (pp s (mPA w)) (mW w) top :=
    Nat.le_antisymm (cand.2 ▸ largest pe inside cand.1) (bound top lt on)
  simp only [if_neg some, is]
  exact ⟨rfl, rfl⟩

end Sys2Proof.Machine
end

section
open Sys2Proof Sys2Proof.Machine

/-- Settles O17: each reduction is its registers; NSHF is planes written from iterated neighbour steps; EXTR is the elimination. -/
theorem macroReductions : Obligations.MacroReductions := by
  refine ⟨fun s k w x i h => ?_, fun s k w x i p others h is plain => ?_⟩
  · intro pl ones grp part arr qres
    have scope : grp = ((mMod w).testBit 0 && grouped s) := Bool.and_comm _ _
    rw [scope]
    refine ⟨fun others => ?_, fun others => macroRuns_of_registers h rfl (fun tr left => rfl) rfl rfl,
      fun others => macroRuns_of_registers h rfl (fun tr left => rfl) rfl rfl, fun bursts alone is => ?_⟩
    · intro chip r
      have number : (if r then 1 else 0 : Word) = BitVec.ofNat 32 (if r then 1 else 0) := by split <;> rfl
      rw [number, ← mkPlane_const]
      exact macroRuns_of_registers h rfl (fun tr left => rfl) rfl rfl
    · obtain ⟨body, run, acts⟩ := nshf_acts alone bursts
      have done := vendorMacro_done h is (shifted_work s w) fun tr left => acts tr left _ _ _
      have planes := vendorMacro_workless h is (shifted_work s w) (fun tr left => acts tr left _ _ _) (workless h (.inl is))
      have narrow : mW w ≤ 2048 := by
        have : fld w 6 6 < 2 ^ 6 := Nat.mod_lt _ (by decide)
        unfold mW
        omega
      obtain ⟨-, -, -, -, -, -, wf⟩ := h
      have moved : ∀ q, plane (vendorMacro 0x40 s body) q = plane (shifted s w) q := fun q => congrArg (tget 0 · (q % 2048)) planes
      refine ⟨_, run, done.retired, fun j hj => ?_, fun q out => ?_, nshf_done done⟩
      · rw [moved, ← shiftFrom_eq]
        exact plane_setPlanes wf _ _ narrow hj
      · rw [moved]
        exact plane_setPlanes_out wf _ _ out
  · obtain ⟨body, run, acts⟩ := extr_acts s p others
    have done := vendorMacro_done h is (searched_work s k w others) fun tr left => acts tr left k w x plain
    have planes := vendorMacro_workless h is (searched_work s k w others) (fun tr left => acts tr left k w x plain) (workless h (.inr is))
    obtain ⟨kept, m, c, cnd, frm, regs⟩ := searched_keeps s k w others
    have qres : (vendorMacro 0x53 s body).arr.qres = (searched s k w others).arr.qres := (congrArg Arr.qres done.array :)
    have t : (vendorMacro 0x53 s body).arr.t = (searched s k w others).arr.t := (congrArg Arr.t done.array :)
    refine ⟨_, run, done.retired, planes.trans kept, (congrArg Arr.m done.array :).trans m, (congrArg Arr.c done.array :).trans c,
      (congrArg State.cnd done.others :).trans cnd, (congrArg State.frm done.others :).trans frm,
      (congrArg State.regs done.others :).trans regs, fun idle => ?_, fun v held largest => ?_⟩
    · rw [qres, t]
      exact searched_idle idle k w others
    · obtain ⟨value, marks⟩ := searched_largest (k := k) (others := others) plain held largest
      rw [qres, t, value, marks]
      refine ⟨rfl, fun pe lt => ?_⟩
      rw [getLsbD_maskIn _ _ _ lt, getLsbD_mkPlane _ lt]
end

section
/-! SUPPORT. A fault of the computing program: its slot is answered, its handler leaves, its macros go (R93, R94, R109). -/

namespace Sys2Proof.Machine
open Sys2Proof

theorem sendLink_grp (s : State) (p typ : Nat) : ∃ g, sendLink s p typ = { s with grp := g } := by
  simp only [sendLink]
  split
  · exact ⟨_, rfl⟩
  · exact ⟨s.grp, rfl⟩

theorem sendAll_grp (s : State) (typ : Nat) : ∃ g, sendAll s typ = { s with grp := g } := by
  obtain ⟨g, first⟩ := sendLink_grp s 0 typ
  obtain ⟨g', second⟩ := sendLink_grp { s with grp := g } 1 typ
  exact ⟨g', by rw [sendAll, first, second]⟩

theorem stopHandler_eq (s : State) : ∃ tr c, stopHandler s = { s with trc := tr, cnd := c } ∧ c.handler = none := by
  unfold stopHandler
  split
  next h _ =>
    have only : OnlyTrace s (traceExit s h.fp 3 0) := (traceCnd_only s _ _ _ _).trans (traceProgEvent_only _ _ _)
    exact ⟨_, _, by rw [leaveHandler, only.eq], rfl⟩
  next idle => exact ⟨s.trc, s.cnd, rfl, idle⟩

/-- A slot of the computation's frame, with what the computation leaves in its own. -/
def leftSlot (s : State) (k : Comp) (x : Slot) : Slot :=
  if x.fp = k.fp then { x with body := [], restarts := s.arr.restarts, throttled := k.fromClock } else x

theorem leftSlot_keeps (s : State) (k : Comp) (x : Slot) : (leftSlot s k x).fp = x.fp ∧
    (leftSlot s k x).outcome = x.outcome ∧ (leftSlot s k x).posted = x.posted := by
  unfold leftSlot
  split <;> exact ⟨rfl, rfl, rfl⟩

/-- The frame of the computation as its end leaves it, before its slot is answered. -/
def slotsLeft (s : State) (k : Comp) : State :=
  modFrame (raiseInt s 17) k.count (fun f => { f with slots := f.slots.map (leftSlot s k) })

/-- A blank slot of the program takes the outcome. -/
theorem outcome_of_answered {fp a b : Nat} {x : Slot} (blank : x.fp = fp → x.blank)
    (is : (if decide (x.fp = fp) = true then x.answer a b else x).fp = fp) :
    (if decide (x.fp = fp) = true then x.answer a b else x).outcome = some (a, b) := by
  by_cases e : x.fp = fp
  · rw [if_pos (decide_eq_true e), (blank e).answer]
  · rw [if_neg (by simp [e])] at is
    exact absurd is e

/-- The state in which a computation's end leaves all but its frame's posting. -/
def closed (s : State) (k : Comp) (detail : Nat) : State :=
  let v := stopHandler (answerSlots (slotsLeft s k) k.count (fun x => x.fp = k.fp) 0x21 detail)
  { v with
    frm := { v.frm with comp := none, drain := some (k.fp, k.count), drained := false, kstage := tdel v.frm.kstage (fpPart k.fp) },
    arr := { v.arr with run := none, queue := [] } }

/-- A fault ends the computation `k` of `s` with FRAME_FAULT: beyond what its end means, no register but flags of the frame
engine changes, and of the array only the sequencer. -/
structure CompFaulted (s : State) (k : Comp) (detail : Nat) (t : State) : Prop extends CompEnded k 0x21 detail t where
  regs r : r ∉ boundaryFlags → rd t r = rd s r
  array : { t.arr with run := s.arr.run, queue := s.arr.queue } = s.arr

theorem closed_faulted {s : State} {k : Comp} (blank : unanswered s k) (detail : Nat) : CompFaulted s k detail (closed s k detail) := by
  have quiet := answerSlots_undisturbed (slotsLeft s k) k.count (fun x => x.fp = k.fp) 0x21 detail
  have keeps := answerSlots_faulting (slotsLeft s k) k.count (fun x => x.fp = k.fp) detail
  have frames := answerSlots_frames (slotsLeft s k) k.count (fun x => x.fp = k.fp) 0x21 detail
  unfold closed
  generalize answerSlots (slotsLeft s k) k.count (fun x => x.fp = k.fp) 0x21 detail = u at *
  obtain ⟨tr, c, stopped, handler⟩ := stopHandler_eq u
  have array : u.arr = s.arr := (congrArg State.arr keeps.others :)
  rw [stopped]
  refine ⟨⟨fun f inside e x member is => ?_, rfl, rfl, rfl, handler, rfl, rfl⟩, fun r n => quiet.regs r n, ?_⟩
  · have among : f ∈ u.frm.frames := inside
    rw [frames] at among
    obtain ⟨g, earlier, ge, rfl⟩ := mem_modFrame among e
    obtain ⟨f0, first, fe, rfl⟩ := mem_modFrame (s := raiseInt s 17) earlier ge
    obtain ⟨y, before, rfl⟩ := List.mem_map.mp member
    obtain ⟨z, origin, rfl⟩ := List.mem_map.mp before
    obtain ⟨fp, outcome, posted⟩ := leftSlot_keeps s k z
    refine outcome_of_answered (fun e => ?_) is
    rw [fp] at e
    rw [Slot.blank, outcome, posted]
    exact blank f0 first fe z origin e
  · show { ({ u.arr with run := none, queue := [] } : Arr) with run := s.arr.run, queue := s.arr.queue } = s.arr
    rw [array]

theorem CompFaulted.toPosting {s t : State} {k : Comp} {detail : Nat} (h : CompFaulted s k detail t) (c : BitVec 48) :
    CompFaulted s k detail (toPosting t c) := by
  refine ⟨⟨fun f inside e x member is => ?_, h.comp, h.drain, h.drained, h.handler, h.queue, h.run⟩, h.regs, h.array⟩
  obtain ⟨g, among, settled⟩ := (toPosting_carried t c).origin f inside
  obtain ⟨f0, origin, rfl⟩ := List.mem_map.mp among
  have count : f0.count = k.count := by
    rw [← e, settled.count]
    split <;> rfl
  have slots : f.slots = f0.slots := by
    rw [settled.slots]
    split <;> rfl
  exact h.slot f0 origin count x (slots ▸ member) is

/-- A fault of a program whose slot has no outcome ends its computation. -/
theorem faultComp_faulted {s : State} {k : Comp} (comp : s.frm.comp = some k) (blank : unanswered s k) (detail : Nat) :
    CompFaulted s k detail (faultComp s detail) := by
  have ends : ∀ u : State, u.frm = s.frm → rd u = rd s → u.arr = s.arr → CompFaulted s k detail (endComp u 0x21 detail []) := by
    intro u frm regs arr
    have faulted : CompFaulted s k detail (closed u k detail) := by
      have blanks : unanswered u k := by
        rw [unanswered, frm]
        exact blank
      have this := closed_faulted blanks detail
      exact ⟨this.toCompEnded, fun r n => (this.regs r n).trans (congrFun regs r), arr ▸ this.array⟩
    have split_ : endComp u 0x21 detail [] = match findFrame (closed u k detail) k.count with
        | some f => if f.answered && !member (closed u k detail) then toPosting (closed u k detail) k.count else closed u k detail
        | none => closed u k detail := by
      unfold endComp
      rw [frm, comp]
      rfl
    rw [split_]
    split
    · split
      · exact faulted.toPosting _
      · exact faulted
    · exact faulted
  unfold faultComp
  split
  · obtain ⟨g, eq⟩ := sendAll_grp s 6
    rw [eq]
    exact ends _ rfl rfl rfl
  · exact ends s rfl rfl rfl

end Sys2Proof.Machine
end

section
/-! SUPPORT. Vendor macros that are not executed: a trap at issue, a plane out of range, a parity error (R204, R237, R238, R728). -/

namespace Sys2Proof.Machine
open Sys2Proof

/-! 64-bit registers. -/

theorem wr64_regs_wf {s : State} (a v : Nat) (w : twf 0 s.regs = true) : twf 0 (wr64 s a v).regs = true :=
  wr_regs_wf _ _ (wr_regs_wf _ _ w)

theorem rd_wr64_ne (s : State) {a r : Nat} (v : Nat) (low : a ≠ r) (high : hiKey a ≠ r) : rd (wr64 s a v) r = rd s r := by
  rw [wr64, rd_wr_ne _ _ high, rd_wr_ne _ _ low]

theorem rd64_wr64 {s : State} (a v : Nat) (w : twf 0 s.regs = true) : rd64 (wr64 s a v) a = v % 2 ^ 64 := by
  have apart : hiKey a ≠ a := by
    unfold hiKey
    omega
  rw [rd64, wr64, rd_wr_self _ (wr_regs_wf _ _ w), rd_wr_ne _ _ apart, rd_wr_self _ w, BitVec.toNat_ofNat, BitVec.toNat_ofNat]
  omega

theorem rd64_congr {s t : State} {a : Nat} (low : rd t a = rd s a) (high : rd t (hiKey a) = rd s (hiKey a)) : rd64 t a = rd64 s a := by
  rw [rd64, rd64, low, high]

/-- A flag that is set stays when another flag is. -/
theorem bit_setFlag_mono {s : State} {a : Nat} (b n : Nat) {m : Nat} (w : twf 0 s.regs = true) (h : bit (rd s a) m = true) :
    bit (rd (setFlag s b n) a) m = true := by
  by_cases e : b = a
  · rw [e, rd_setFlag_self n w, bit_or, h, Bool.true_or]
  · rwa [rd_setFlag_ne s n e]

/-- The register steps before a fault: neither the frames nor the array move. -/
structure BeforeFault (s u : State) : Prop where
  frm : u.frm = s.frm
  arr : u.arr = s.arr
  wf : twf 0 s.regs = true → twf 0 u.regs = true

namespace BeforeFault
variable {s u v : State}

theorem trans (h : BeforeFault s u) (g : BeforeFault u v) : BeforeFault s v := ⟨g.frm.trans h.frm, g.arr.trans h.arr, g.wf ∘ h.wf⟩

theorem setFlag (s : State) (a n : Nat) : BeforeFault s (setFlag s a n) := ⟨rfl, rfl, wr_regs_wf _ _⟩

theorem wr64 (s : State) (a v : Nat) : BeforeFault s (wr64 s a v) := ⟨rfl, rfl, wr64_regs_wf _ _⟩

theorem sticky0 (s : State) (n : Nat) (data : List Byte) : BeforeFault s (sticky0 s n data) :=
  ⟨sticky0_frm s n data, (congrArg State.arr (sticky0_faulting s n data).others :), sticky0_regs_wf n data⟩

theorem ofTrace (h : OnlyTrace s u) : BeforeFault s u := by
  rw [h.eq]
  exact ⟨rfl, rfl, id⟩

/-- A fault after such steps is a fault of the program that computes. -/
theorem faulted {k : Comp} (h : BeforeFault s u) (comp : s.frm.comp = some k) (blank : unanswered s k) (detail : Nat) :
    CompFaulted u k detail (faultComp u detail) := by
  refine faultComp_faulted ((congrArg Frm.comp h.frm).trans comp) ?_ detail
  rw [unanswered, h.frm]
  exact blank

end BeforeFault

theorem CompFaulted.planes {s t : State} {k : Comp} {detail : Nat} (h : CompFaulted s k detail t) : t.arr.planes = s.arr.planes :=
  (congrArg Arr.planes h.array :)

/-! What the issue of a vendor macro can come to beside its execution. -/

section
variable {s : State} {k : Comp} {w : Word} {rest : List Word} {op : Nat} (body : State → Nat → Word → Word → State)
  (comp : s.frm.comp = some k) (idle : s.arr.run = none) (queue : s.arr.queue = w :: rest) (is : mOp w = op)
include comp idle queue is

theorem vendorMacro_of_queue : vendorMacro op s body =
    match issue s k w rest with
    | none => s
    | some (.error r) => macroTrap s k.fp w r
    | some (.ok (i, x)) =>
      let s1 := traceMacro { s with arr := { s.arr with allow := s.arr.allow - i.cyc } } k.fp w
      if (macroPlanes s i).any (fun p => !inRange s (fpPart k.fp) p) then rangeFault s1
      else
        match parityHit s1 (macroReads s i) with
        | some p => parityFault s1 k.fp p
        | none =>
          let s2 := body s1 k.fp w x
          let s3 := setPlanes s2 (pp s 14) i.work (active s2) (fun _ => 0)
          let s4 := if i.cyc = 1 then s3 else clearXY s3 (active s3)
          if s4.frm.comp.isNone then s4 else retire s4 (if i.ext then 2 else 1) := by
  unfold vendorMacro
  split
  next k' w' rest' comp' _ queue' =>
    obtain rfl : k = k' := Option.some.inj (comp.symm.trans comp')
    obtain ⟨rfl, rfl⟩ : w = w' ∧ rest = rest' := List.cons.inj (queue.symm.trans queue')
    rw [if_neg (not_not_intro is)]
    rfl
  next none => exact absurd queue (none k w rest comp idle)

theorem vendorMacro_of_trap {r : Nat} (trap : issue s k w rest = some (.error r)) : vendorMacro op s body = macroTrap s k.fp w r := by
  rw [vendorMacro_of_queue body comp idle queue is, trap]

theorem vendorMacro_of_range {i : MacroInfo} {x : Word} {p : Nat} (issues : issue s k w rest = some (.ok (i, x)))
    (reached : p ∈ macroPlanes s i) (out : inRange s (fpPart k.fp) p = false) :
    ∃ tr left, vendorMacro op s body = rangeFault (issued s tr left) := by
  have beyond : (macroPlanes s i).any (fun p => !inRange s (fpPart k.fp) p) = true := List.any_eq_true.mpr ⟨p, reached, by simp [out]⟩
  rw [vendorMacro_of_queue body comp idle queue is, issues]
  dsimp -zeta only
  extract_lets arr s1 s2 s3 s4
  have traced : s1 = issued s s1.trc (s.arr.allow - i.cyc) := (traceMacro_only _ k.fp w).eq
  rw [if_pos beyond, traced]
  exact ⟨_, _, rfl⟩

theorem vendorMacro_of_parity {i : MacroInfo} {x : Word} {p : Nat} (issues : issue s k w rest = some (.ok (i, x)))
    (inside : ∀ p ∈ macroPlanes s i, inRange s (fpPart k.fp) p = true) (hit : parityHit s (macroReads s i) = some p) :
    ∃ tr left, vendorMacro op s body = parityFault (issued s tr left) k.fp p := by
  have within : ¬(macroPlanes s i).any (fun p => !inRange s (fpPart k.fp) p) = true := by simpa using inside
  rw [vendorMacro_of_queue body comp idle queue is, issues]
  dsimp -zeta only
  extract_lets arr s1 s2 s3 s4
  have traced : s1 = issued s s1.trc (s.arr.allow - i.cyc) := (traceMacro_only _ k.fp w).eq
  have still : parityHit s1 (macroReads s i) = some p := by
    rw [traced]
    exact hit
  rw [if_neg within, still, traced]
  exact ⟨_, _, rfl⟩
end

theorem columnNoted_log (s : State) (phys log grp kind : Nat) :
    OnlyLog { s with flt := { s.flt with notes := s.flt.notes ++ [phys] } } (columnNoted s phys log grp kind) := logPut_onlyLog _ _ _

theorem noteCol_regs_wf {s : State} (phys log grp kind : Nat) (wf : twf 0 s.regs = true) :
    twf 0 (noteCol s phys log grp kind).regs = true := by
  have entered : twf 0 (columnNoted s phys log grp kind).regs = true := logPut_regs_wf _ _ wf
  rw [noteCol_eq]
  split
  · exact wf
  split
  · exact wr_regs_wf _ _ wf
  split
  · exact wr_regs_wf _ _ entered
  · exact entered

/-- Entering a column in the note list leaves a flag of ARR_FLAGS that is set. -/
theorem bit_noteCol {s : State} (wf : twf 0 s.regs = true) (phys log grp kind : Nat) {m : Nat} (h : bit (rd s 0x0404) m = true) :
    bit (rd (noteCol s phys log grp kind) 0x0404) m = true := by
  have entered : bit (rd (columnNoted s phys log grp kind) 0x0404) m = true := by
    rwa [(columnNoted_log s phys log grp kind).regs 0x0404 (by decide) (by decide)]
  rw [noteCol_eq]
  split
  · exact h
  split
  · exact bit_setFlag_mono _ _ wf h
  split
  · exact bit_setFlag_mono _ _ (logPut_regs_wf _ _ wf) entered
  · exact entered

section
variable {s : State} {k : Comp} (comp : s.frm.comp = some k) (blank : unanswered s k) (wf : twf 0 s.regs = true)
include comp blank wf

/-- A program that ends with DETAIL 1 after its trap record `v` (R238). -/
theorem trapRecord_faulted (v : Nat) (data : List Byte) {u : State}
    (traced : OnlyTrace (sticky0 (setFlag (wr64 s 0x0508 v) 0x0504 6) 1 data) u) :
    CompEnded k 0x21 1 (faultComp u 1) ∧ bit (rd (faultComp u 1) 0x0504) 6 = true ∧ bit (rd (faultComp u 1) 0x0E00) 1 = true ∧
      rd64 (faultComp u 1) 0x0508 = v % 2 ^ 64 ∧ (faultComp u 1).arr.planes = s.arr.planes := by
  have info := BeforeFault.wr64 s 0x0508 v
  have first := info.trans (.setFlag (wr64 s 0x0508 v) 0x0504 6)
  have before := (first.trans (.sticky0 _ 1 data)).trans (.ofTrace traced)
  have faulted := before.faulted comp blank 1
  have regs : ∀ r ∉ boundaryFlags, rd (faultComp u 1) r = rd (sticky0 (setFlag (wr64 s 0x0508 v) 0x0504 6) 1 data) r := fun r n =>
    (faulted.regs r n).trans (OnlyTrace.rd traced r)
  have kept : ∀ r ∉ boundaryFlags ++ [0x0E00, 0x0E10, 0x0F0C, 0x0F10],
      rd (faultComp u 1) r = rd (setFlag (wr64 s 0x0508 v) 0x0504 6) r := fun r n => by
    rw [List.mem_append, not_or] at n
    exact (regs r n.1).trans (rd_sticky0_ne _ 1 data n.2)
  refine ⟨faulted.toCompEnded, ?_, ?_, ?_, faulted.planes.trans (congrArg Arr.planes before.arr)⟩
  · rw [kept 0x0504 (by decide)]
    exact bit_setFlag 0x0504 (info.wf wf) (by decide)
  · rw [regs 0x0E00 (by decide)]
    exact bit_sticky0 data (first.wf wf) (by decide)
  · rw [rd64_congr ((kept 0x0508 (by decide)).trans (rd_setFlag_ne _ _ (by decide)))
      ((kept (hiKey 0x0508) (by decide)).trans (rd_setFlag_ne _ _ (by decide)))]
    exact rd64_wr64 0x0508 v wf

/-- A trap at issue ends the program with its word and reason in MSQ_TRAPINFO (R238). -/
theorem macroTrap_faulted (w : Word) (r : Nat) :
    CompEnded k 0x21 1 (macroTrap s k.fp w r) ∧ bit (rd (macroTrap s k.fp w r) 0x0504) 6 = true ∧
      bit (rd (macroTrap s k.fp w r) 0x0E00) 1 = true ∧ rd64 (macroTrap s k.fp w r) 0x0508 =
        (w.toNat + r * 2 ^ 32 + k.fp / 4 * 2 ^ 36 + k.fp * 2 ^ 38 + s.arr.retired % 65536 * 2 ^ 42) % 2 ^ 64 ∧
      (macroTrap s k.fp w r).arr.planes = s.arr.planes := by
  unfold macroTrap
  rw [fpPart]
  exact trapRecord_faulted comp blank wf _ _ ((traceArr_only _ k.fp 8 _).trans (traceEvent_only _ _ _))

/-- A plane out of the partition's range ends the program with DETAIL 2 (R201, R728). -/
theorem rangeFault_faulted : CompEnded k 0x21 2 (rangeFault s) ∧ bit (rd (rangeFault s) 0x0404) 1 = true ∧
    (rangeFault s).arr.planes = s.arr.planes := by
  have faulted := (BeforeFault.setFlag s 0x0404 1).faulted comp blank 2
  refine ⟨faulted.toCompEnded, ?_, faulted.planes⟩
  rw [rangeFault, faulted.regs _ (by decide)]
  exact bit_setFlag 0x0404 wf (by decide)

/-- A parity error ends the program with DETAIL 4, with its record and its column noted (R204 to R206, R224). -/
theorem parityFault_faulted (p : Nat) : CompEnded k 0x21 4 (parityFault s k.fp p) ∧
    bit (rd (parityFault s k.fp p) 0x0404) 0 = true ∧ bit (rd (parityFault s k.fp p) 0x0E00) 4 = true := by
  unfold parityFault
  extract_lets g l c v s1 s2
  have flagged : BeforeFault s (setFlag (wr s 0x040C v) 0x0404 0) := ⟨rfl, rfl, fun w => wr_regs_wf _ _ (wr_regs_wf _ _ w)⟩
  have first : BeforeFault s s1 := flagged.trans ⟨rfl, rfl, wr_regs_wf _ _⟩
  have second : BeforeFault s s2 := first.trans (.sticky0 s1 4 _)
  obtain ⟨notes, -⟩ := noteCol_notes s2 c l g 0
  have noted : BeforeFault s2 (noteCol s2 c l g 0) := ⟨(congrArg State.frm notes.others :), (congrArg State.arr notes.others :), noteCol_regs_wf _ _ _ _⟩
  have faulted := (second.trans noted).faulted comp blank 4
  have error : bit (rd s2 0x0404) 0 = true := by
    rw [rd_sticky0_ne _ _ _ (by decide), rd_satReg_ne _ _ (by decide)]
    exact bit_setFlag 0x0404 (wr_regs_wf _ _ wf) (by decide)
  refine ⟨faulted.toCompEnded, ?_, ?_⟩
  · rw [faulted.regs _ (by decide)]
    exact bit_noteCol (second.wf wf) c l g 0 error
  · rw [faulted.regs _ (by decide), notes.regs _ (by decide)]
    exact bit_sticky0 _ (first.wf wf) (by decide)
end

end Sys2Proof.Machine
end

section
open Sys2Proof Sys2Proof.Machine

/-- Settles O18: each of the three ends of an issue is a fault of the program that computes. -/
theorem macroTraps : Obligations.MacroTraps := by
  intro s k w rest op c family is comp blank idle queue wf
  obtain ⟨body, run⟩ : ∃ body, exec c s = .next (vendorMacro op s body) := by
    simp only [List.mem_cons, Prod.mk.injEq, List.not_mem_nil, or_false] at family
    obtain ⟨rfl, rfl⟩ | ⟨rfl, rfl⟩ | ⟨rfl, rfl⟩ | ⟨rfl, rfl⟩ := family
    · exact ⟨_, rfl⟩
    · exact ⟨_, rfl⟩
    · exact ⟨_, rfl⟩
    · exact ⟨_, rfl⟩
  refine ⟨fun r trap => ⟨_, run, ?_⟩, fun i x p issues reached out => ⟨_, run, ?_⟩, fun i x p issues inside hit => ⟨_, run, ?_⟩⟩
  · rw [vendorMacro_of_trap body comp idle queue is trap]
    exact macroTrap_faulted comp blank wf w r
  · obtain ⟨tr, left, eq⟩ := vendorMacro_of_range body comp idle queue is issues reached out
    rw [eq]
    exact rangeFault_faulted (s := issued s tr left) comp blank wf
  · obtain ⟨tr, left, eq⟩ := vendorMacro_of_parity body comp idle queue is issues inside hit
    rw [eq]
    exact parityFault_faulted (s := issued s tr left) comp blank wf p
end

section
/-! SUPPORT. Sequencer faults and microwords that end the program (R201, R265, R269 to R272, R285). -/

namespace Sys2Proof.Machine
open Sys2Proof

theorem BeforeFault.faultInfo (s : State) (kind fp pl ua : Nat) : BeforeFault s (faultInfo s kind fp pl ua) := .wr64 s 0x0510 _

theorem rd_faultInfo_ne (s : State) (kind fp pl ua : Nat) {r : Nat} (low : 0x0510 ≠ r) (high : 0x20510 ≠ r) :
    rd (faultInfo s kind fp pl ua) r = rd s r := rd_wr64_ne s _ low high

/-- A fault of the sequencer as it is recorded: flag, MSQ_FAULT and the sticky fault with its data (R272). -/
def recorded (s : State) (flag kind fp pl ua n : Nat) (data : State → List Byte) : State :=
  let u := faultInfo (setFlag s 0x0504 flag) kind fp pl ua
  sticky0 u n (data u)

section
variable (s : State) (flag kind fp pl ua n : Nat) (data : State → List Byte)

theorem recorded_before : BeforeFault s (recorded s flag kind fp pl ua n data) :=
  ((BeforeFault.setFlag s 0x0504 flag).trans (.faultInfo _ kind fp pl ua)).trans (.sticky0 _ n _)

theorem recorded_flag (wf : twf 0 s.regs = true) (lt : flag < 32) : bit (rd (recorded s flag kind fp pl ua n data) 0x0504) flag = true := by
  rw [recorded, rd_sticky0_ne _ _ _ (by decide), rd_faultInfo_ne _ _ _ _ _ (by decide) (by decide)]
  exact bit_setFlag 0x0504 wf lt

theorem recorded_sticky (wf : twf 0 s.regs = true) (lt : n < 32) : bit (rd (recorded s flag kind fp pl ua n data) 0x0E00) n = true :=
  bit_sticky0 _ (((BeforeFault.setFlag s 0x0504 flag).trans (.faultInfo _ kind fp pl ua)).wf wf) lt
end

section
variable {s : State} {k : Comp} (comp : s.frm.comp = some k) (blank : unanswered s k) (wf : twf 0 s.regs = true)
include comp blank wf

/-- A recorded fault that ends the program leaves its records. -/
theorem recorded_faulted (flag kind fp pl ua n : Nat) (data : State → List Byte) (detail : Nat) (flagLt : flag < 32) (nLt : n < 32) :
    let t := faultComp (recorded s flag kind fp pl ua n data) detail
    CompEnded k 0x21 detail t ∧ bit (rd t 0x0504) flag = true ∧ bit (rd t 0x0E00) n = true ∧
      t.arr.planes = s.arr.planes ∧ t.arr.top = s.arr.top := by
  have before := recorded_before s flag kind fp pl ua n data
  have faulted := before.faulted comp blank detail
  refine ⟨faulted.toCompEnded, ?_, ?_, faulted.planes.trans (congrArg Arr.planes before.arr),
    (congrArg Arr.top faulted.array :).trans (congrArg Arr.top before.arr)⟩
  · rw [faulted.regs _ (by decide)]
    exact recorded_flag s flag kind fp pl ua n data wf flagLt
  · rw [faulted.regs _ (by decide)]
    exact recorded_sticky s flag kind fp pl ua n data wf nLt
end

theorem restartEvent_of_third {s : State} (third : 2 ≤ s.arr.restarts) (fp cause ua : Nat) :
    restartEvent s fp cause ua = faultComp (setFlag (faultInfo s 4 fp 0 ua) 0x0504 2) 6 := if_pos third

/-- What a sequencer fault records (R272). -/
def seqRecorded (s : State) (kind fp ua : Nat) : State := recorded s 1 kind fp 0 ua 3 fun u => leBytes 8 (rd64 u 0x0510)

theorem seqFault_eq (s : State) (fp ua : Nat) (committed : Bool) : seqFault s fp ua committed =
    if committed then faultComp (seqRecorded s (if committed then 3 else if 2 ≤ s.arr.restarts then 4 else 2) fp ua) 5
    else restartEvent (seqRecorded s (if committed then 3 else if 2 ≤ s.arr.restarts then 4 else 2) fp ua) fp 2 ua := rfl

theorem seqFault_committed (s : State) (fp ua : Nat) : seqFault s fp ua true = faultComp (seqRecorded s 3 fp ua) 5 := by
  rw [seqFault_eq, if_pos rfl, if_pos rfl]

theorem seqFault_pending (s : State) (fp ua : Nat) : seqFault s fp ua false =
    restartEvent (seqRecorded s (if 2 ≤ s.arr.restarts then 4 else 2) fp ua) fp 2 ua := by
  rw [seqFault_eq, if_neg Bool.false_ne_true, if_neg Bool.false_ne_true]

section
variable {s : State} {k : Comp} (comp : s.frm.comp = some k) (blank : unanswered s k) (wf : twf 0 s.regs = true)
include comp blank wf

/-- The third event of a routine ends the program (R270). -/
theorem seqFault_third (ua : Nat) (third : 2 ≤ s.arr.restarts) :
    CompEnded k 0x21 6 (seqFault s k.fp ua false) ∧ bit (rd (seqFault s k.fp ua false) 0x0504) 2 = true ∧
      bit (rd (seqFault s k.fp ua false) 0x0E00) 3 = true := by
  have before : BeforeFault s (seqRecorded s 4 k.fp ua) := recorded_before ..
  have sticky : bit (rd (seqRecorded s 4 k.fp ua) 0x0E00) 3 = true := recorded_sticky s 1 4 k.fp 0 ua 3 _ wf (by decide)
  rw [seqFault_pending, if_pos third]
  generalize seqRecorded s 4 k.fp ua = v at before sticky
  have again := before.trans (BeforeFault.faultInfo v 4 k.fp 0 ua)
  have faulted := (again.trans (.setFlag _ 0x0504 2)).faulted comp blank 6
  rw [restartEvent_of_third (before.arr.symm ▸ third)]
  refine ⟨faulted.toCompEnded, ?_, ?_⟩
  · rw [faulted.regs _ (by decide)]
    exact bit_setFlag 0x0504 (again.wf wf) (by decide)
  · rwa [faulted.regs _ (by decide), rd_setFlag_ne _ _ (by decide), rd_faultInfo_ne _ _ _ _ _ (by decide) (by decide)]
end

/-- The routine starts again on the state at its issue, its event counted in the slot's MACRO_RESTARTS and MSQ_RESTARTS (R269). -/
def restarted (s : State) (r : Routine) (count : Word) : State :=
  let u := unshadow { wr s 0x0518 count with arr := { s.arr with restarts := s.arr.restarts + 1, run := some r.reload } } r.shadow
  { u with grp := { u.grp with rx := [] } }

theorem restarted_regs (s : State) (r : Routine) (count : Word) : (restarted s r count).regs = (wr s 0x0518 count).regs := rfl

theorem restarted_arr (s : State) (r : Routine) (count : Word) : (restarted s r count).arr = { s.arr with
    c := tget 0 r.shadow 0, t := tget 0 r.shadow 1, m := tget 0 r.shadow 2, x := tget 0 r.shadow 3, y := tget 0 r.shadow 4,
    restarts := s.arr.restarts + 1, run := some r.reload } := rfl

theorem restarted_frm (s : State) (r : Routine) (count : Word) : (restarted s r count).frm = s.frm := rfl

theorem restartEvent_only {s : State} {r : Routine} (run : s.arr.run = some r) (early : s.arr.restarts < 2) (fp cause ua : Nat) :
    ∃ count, OnlyTrace (restarted s r count) (restartEvent s fp cause ua) := by
  refine ⟨BitVec.ofNat 32 (satAdd 0xFFFF (fld (rd s 0x0518) 0 16) 1), ?_⟩
  rw [restartEvent, if_neg (by omega)]
  extract_lets n s1 arr s2 s3 grp
  have counted : s2 = { s1 with arr := { s1.arr with restarts := n, run := some r.reload } } := by
    have same : s1.arr.run = some r := run
    simp only [s2, same, Option.map_some]
    rfl
  have shadowed : s3 = unshadow s2 r.shadow := by simp only [s3, run]
  have cleared : { s3 with grp := { grp with rx := [] } } = restarted s r (BitVec.ofNat 32 (satAdd 0xFFFF (fld (rd s 0x0518) 0 16) 1)) := by
    simp only [grp]
    rw [shadowed, counted]
    rfl
  rw [cleared]
  exact traceArr_only _ _ _ _

/-- A sequencer fault before COMMIT, the first or second event of the routine, restarts it (R269). -/
theorem seqFault_restarts {s : State} {r : Routine} (run : s.arr.run = some r) (early : s.arr.restarts < 2)
    (wf : twf 0 s.regs = true) (fp ua : Nat) :
    let t := seqFault s fp ua false
    t.arr = { s.arr with
      c := tget 0 r.shadow 0, t := tget 0 r.shadow 1, m := tget 0 r.shadow 2, x := tget 0 r.shadow 3, y := tget 0 r.shadow 4,
      restarts := s.arr.restarts + 1, run := some r.reload } ∧
      bit (rd t 0x0504) 1 = true ∧ bit (rd t 0x0E00) 3 = true ∧ t.frm = s.frm := by
  have before : BeforeFault s (seqRecorded s 2 fp ua) := recorded_before ..
  have flag : bit (rd (seqRecorded s 2 fp ua) 0x0504) 1 = true := recorded_flag s 1 2 fp 0 ua 3 _ wf (by decide)
  have sticky : bit (rd (seqRecorded s 2 fp ua) 0x0E00) 3 = true := recorded_sticky s 1 2 fp 0 ua 3 _ wf (by decide)
  rw [seqFault_pending, if_neg (show ¬2 ≤ s.arr.restarts by omega)]
  generalize seqRecorded s 2 fp ua = v at before flag sticky
  obtain ⟨count, traced⟩ := restartEvent_only (before.arr.symm ▸ run) (before.arr.symm ▸ early) fp 2 ua
  generalize restartEvent v fp 2 ua = t at traced
  have regs : ∀ a, 0x0518 ≠ a → rd t a = rd v a := fun a n => by
    rw [OnlyTrace.rd traced a, rd, restarted_regs]
    exact rd_wr_ne v count n
  refine ⟨?_, ?_, ?_, ?_⟩
  · rw [← before.arr, ← restarted_arr v r count]
    exact (congrArg State.arr traced.eq :)
  · rwa [regs _ (by decide)]
  · rwa [regs _ (by decide)]
  · rw [traced.frm, restarted_frm]
    exact before.frm

/-! Microwords that end the program. -/

/-- The steps of a PEOP before its faults leave registers, frames and planes. -/
structure PeopQuiet (s u : State) : Prop where
  regs : u.regs = s.regs
  frm : u.frm = s.frm
  planes : u.arr.planes = s.arr.planes

theorem peReduce_quiet {s t : State} (h : PeopQuiet s t) (fp : Nat) (w : BitVec 40) (rbit : Plane) (any : Bool) (tally : Nat) :
    PeopQuiet s (peReduce s t fp w rbit any tally) := by
  unfold peReduce
  extract_lets src g
  split
  · exact ⟨h.regs, h.frm, h.planes⟩
  · exact ⟨h.regs, h.frm, h.planes⟩
  · exact h

theorem burstRx_quiet (s : State) (d edge : Nat) (bursts : List (BitVec 128)) : PeopQuiet s (burstRx s d edge bursts) := by
  unfold burstRx
  split <;> exact ⟨rfl, rfl, rfl⟩

theorem peopFlags_quiet (s : State) (w : BitVec 40) (nbr : Nat) (burst : BitVec 128) (v : PeIn) (y : Plane) :
    PeopQuiet s (peFlags (if nbr ≠ 0 then burstRx s nbr (mwf w 16 2) [burst] else s) w v y) := by
  split
  · have received := burstRx_quiet s nbr (mwf w 16 2) [burst]
    exact ⟨received.regs, received.frm, received.planes⟩
  · exact ⟨rfl, rfl, rfl⟩

section
variable {s : State} {k : Comp} {r : Routine} {w : BitVec 40} (burst : BitVec 128) (any : Bool) (tally : Nat)
  (writes : mwf w 14 2 ≠ 0)
include writes

/-- A PEOP that writes outside the partition's range is a range fault. -/
theorem peStep_of_range (out : inRange s (fpPart k.fp) (vAddr r (mwf w 29 3) (mwf w 27 2)) = false) :
    ∃ u, PeopQuiet s u ∧ peStep burst any tally s k r w = rangeFault u := by
  unfold peStep
  extract_lets q ua used ra wa mem bad rbit v nbr y scr s1 s2 r1 s3 s4 arr s5
  have isBad : bad = true := by simp [bad, q, wa, mem, out, writes]
  have noScratch : scr = false := by simp [scr, isBad]
  have unwritten : s1 = s := if_neg (by simp [isBad])
  have moved : PeopQuiet s s3 := by
    have flags : PeopQuiet s (peFlags (if nbr ≠ 0 then burstRx s1 nbr (mwf w 16 2) [burst] else s1) w v y) := by
      rw [unwritten]
      exact peopFlags_quiet s w nbr burst v y
    have reduced := peReduce_quiet flags k.fp w rbit any tally
    exact ⟨reduced.regs, reduced.frm, reduced.planes⟩
  refine ⟨s3, moved, ?_⟩
  simp [s5, s4, isBad, noScratch]

/-- A PEOP that writes outside the scratch set before COMMIT, and reads nothing, is a scratch violation (R265). -/
theorem peStep_of_scratch (blind : readUsed w = false) (inside : inRange s (fpPart k.fp) (vAddr r (mwf w 29 3) (mwf w 27 2)) = true)
    (open_ : r.committed = false) (foreign : vAddr r (mwf w 29 3) (mwf w 27 2) ∉ r.scratch) :
    ∃ u ua, PeopQuiet s u ∧ peStep burst any tally s k r w = scratchViolation u k.fp (vAddr r (mwf w 29 3) (mwf w 27 2)) ua := by
  unfold peStep
  extract_lets q ua used ra wa mem bad rbit v nbr y scr s1 s2 r1 s3 s4 arr s5
  have isGood : bad = false := by simp [bad, used, q, wa, blind, inside]
  have violates : scr = true := by simp [scr, isGood, mem, wa, writes, open_, foreign]
  have unwritten : s1 = s := if_neg (by simp [violates])
  have moved : PeopQuiet s s3 := by
    have flags : PeopQuiet s (peFlags (if nbr ≠ 0 then burstRx s1 nbr (mwf w 16 2) [burst] else s1) w v y) := by
      rw [unwritten]
      exact peopFlags_quiet s w nbr burst v y
    have reduced := peReduce_quiet flags k.fp w rbit any tally
    exact ⟨reduced.regs, reduced.frm, reduced.planes⟩
  refine ⟨s3, ua, moved, ?_⟩
  simp [s5, s4, isGood, used, blind, violates, wa]
end

theorem scratchViolation_eq (s : State) (fp p ua : Nat) : scratchViolation s fp p ua =
    faultComp (recorded s 0 1 fp p ua 2 fun u => leBytes 8 (rd64 u 0x0510)) 3 := rfl

/-- A word of the image beyond correction ends the routine (R285). -/
theorem execUwNop_of_beyond {s : State} {k : Comp} {r : Routine} {img : TopImg} (comp : s.frm.comp = some k) (run : s.arr.run = some r)
    (free : r.wait = none) (latest : s.arr.topFrame = []) (held : tfind s.arr.top (fpPart k.fp) = some img)
    (beyond : onesNat (tget 0 s.arr.topErr (65536 * fpPart k.fp + r.upc)) = 2) : exec .uwNop s = .next (topUe s k r) := by
  have now_ : usesPrev s (fpPart k.fp) k.count = false := by
    rw [usesPrev, latest]
    rfl
  have frame : frameImg s (fpPart k.fp) k.count = some img := by
    rw [frameImg, latest]
    exact held
  have key : topKey false (fpPart k.fp) r.upc = 65536 * fpPart k.fp + r.upc := by simp [topKey]
  have lost : ∀ key, secded key (tget 0 s.arr.topErr (65536 * fpPart k.fp + r.upc)) = none := fun key => by simp [secded, beyond]
  show Host.Outcome.next (ctlStep 0 s _) = _
  simp [ctlStep, microStep, comp, run, now_, frame, key, lost, free]

/-- The image without the binding of the routine's opcode. -/
def unbound (s : State) (k : Comp) (r : Routine) (img : TopImg) : State :=
  { s with arr := { s.arr with top := tput s.arr.top (fpPart k.fp) { img with binds := tdel img.binds (mOp r.word) } } }

theorem topUe_eq {s : State} {k : Comp} {img : TopImg} (latest : s.arr.topFrame = [])
    (held : tfind s.arr.top (fpPart k.fp) = some img) (r : Routine) :
    ∃ ua, topUe s k r = faultComp (recorded (unbound s k r img) 3 5 k.fp 0 ua 6 fun _ => leBytes 4 ua ++ [2]) 12 := by
  have now_ : usesPrev s (fpPart k.fp) k.count = false := by
    rw [usesPrev, latest]
    rfl
  have dropped : modImg s (usesPrev s (fpPart k.fp) k.count) (fpPart k.fp)
      (fun t => { t with binds := tdel t.binds (mOp r.word) }) = unbound s k r img := by
    rw [now_, modImg, if_neg Bool.false_ne_true, held]
    rfl
  rw [topUe, dropped]
  exact ⟨_, rfl⟩

end Sys2Proof.Machine
end

section
open Sys2Proof Sys2Proof.Machine

/-- Settles O22: a sequencer fault restarts the routine or ends the program; what a microword may not do is a fault of the program. -/
theorem sequencerAndMicrocodeFaults : Obligations.SequencerAndMicrocodeFaults := by
  refine ⟨fun s k r comp run blank wf => ?_, fun s k r w burst any tally blank wf => ?_⟩
  · have seq : ∀ c, r.committed = c →
        exec .sequencerFault s = .next (seqFault s k.fp (topAddr s (fpPart k.fp) r.upc) c) := by
      rintro c rfl
      show Host.Outcome.next _ = _
      rw [comp, run]
    refine ⟨fun before early => ?_, fun before third => ?_, fun after => ?_⟩
    · obtain ⟨array, flag, sticky, frm⟩ := seqFault_restarts run early wf k.fp (topAddr s (fpPart k.fp) r.upc)
      refine ⟨_, r.reload, seq false before, ?_⟩
      rw [array]
      exact ⟨rfl, rfl, rfl, rfl, rfl, rfl, rfl, rfl, rfl, rfl, rfl, rfl, rfl, rfl, flag, sticky, frm⟩
    · exact ⟨_, seq false before, seqFault_third comp blank wf _ third⟩
    · obtain ⟨ended, flag, -⟩ := recorded_faulted comp blank wf 1 3 k.fp 0 (topAddr s (fpPart k.fp) r.upc) 3
        (fun u => leBytes 8 (rd64 u 0x0510)) 5 (by decide) (by decide)
      exact ⟨_, (seq true after).trans (congrArg _ (seqFault_committed s _ _)), ended, flag⟩
  · have step : fetches s k r w → mwClass w = 1 → exec (.uwPeop burst any tally) s = .next (peStep burst any tally s k r w) :=
      fun fetched peop => congrArg Host.Outcome.next (microStep_of_fetches fetched (by simp [peop]))
    refine ⟨fun fetched peop writes out => ?_, fun fetched peop blind writes inside before foreign => ?_,
      fun img comp run free latest held beyond => ?_⟩
    · obtain ⟨u, quiet, is⟩ := peStep_of_range burst any tally writes out
      obtain ⟨ended, flag, planes⟩ := rangeFault_faulted ((congrArg Frm.comp quiet.frm).trans fetched.1)
        (by rw [unanswered, quiet.frm]; exact blank) (quiet.regs ▸ wf)
      exact ⟨_, (step fetched peop).trans (congrArg _ is), ended, flag, planes.trans quiet.planes⟩
    · obtain ⟨u, ua, quiet, is⟩ := peStep_of_scratch burst any tally writes blind inside before foreign
      obtain ⟨ended, flag, sticky, planes, -⟩ := recorded_faulted ((congrArg Frm.comp quiet.frm).trans fetched.1)
        (by rw [unanswered, quiet.frm]; exact blank) (quiet.regs ▸ wf) 0 1 k.fp _ ua 2 (fun u => leBytes 8 (rd64 u 0x0510)) 3
        (by decide) (by decide)
      exact ⟨_, (step fetched peop).trans (congrArg _ (is.trans (scratchViolation_eq ..))), ended, flag, sticky, planes.trans quiet.planes⟩
    · obtain ⟨ua, is⟩ := topUe_eq latest held r
      obtain ⟨ended, flag, sticky, -, top⟩ := recorded_faulted (s := unbound s k r img) comp blank wf 3 5 k.fp 0 ua 6
        (fun _ => leBytes 4 ua ++ [2]) 12 (by decide) (by decide)
      refine ⟨_, { img with binds := tdel img.binds (mOp r.word) },
        (execUwNop_of_beyond comp run free latest held beyond).trans (congrArg _ is), ended, flag, sticky, ?_, rfl⟩
      rw [top]
      exact (tfind_tput _ _ _ _).trans (if_pos rfl)
end

section
/-! SUPPORT. The records of boot: what the fault log and its writer leave as they were (R603, R614 to R620, R623). -/

namespace Sys2Proof.Machine
open Sys2Proof

/-- The fault log's records: beside the log, the flash with its erase counts and pending interrupts, only the registers of the
log change, and in them no sticky bit falls. -/
structure Logged (s t : State) : Prop where
  others : { t with free := s.free, regs := s.regs, cnd := s.cnd, flt := s.flt, boot := s.boot } = s
  boot : { t.boot with flash := s.boot.flash, ecnt := s.boot.ecnt } = s.boot
  cnd : { t.cnd with ipend := s.cnd.ipend } = s.cnd
  regs r : r ∉ faultRegs → rd t r = rd s r
  wf : twf 0 s.regs = true → twf 0 t.regs = true
  sticky a n : a ∈ [0x0E00, 0x0E04] → twf 0 s.regs = true → bit (rd s a) n = true → bit (rd t a) n = true

namespace Logged
variable {s t u : State}

/-- A change of the log, the flash and its erase counts alone. -/
theorem of_regs (others : { t with free := s.free, cnd := s.cnd, flt := s.flt, boot := s.boot } = s)
    (boot : { t.boot with flash := s.boot.flash, ecnt := s.boot.ecnt } = s.boot) (cnd : t.cnd = s.cnd) : Logged s t := by
  have regs : t.regs = s.regs := (congrArg State.regs others :)
  have same : ∀ r, rd t r = rd s r := fun r => by rw [rd, rd, regs]
  refine ⟨(congrArg (fun y : State => { y with regs := s.regs }) others :), boot, by rw [cnd], fun r _ => same r,
    fun w => by rwa [regs], fun a n _ _ h => by rwa [same]⟩

theorem refl (s : State) : Logged s s := of_regs rfl rfl rfl

theorem trans (h : Logged s t) (g : Logged t u) : Logged s u where
  others := (congrArg (fun y : State => { y with free := s.free, regs := s.regs, cnd := s.cnd, flt := s.flt, boot := s.boot })
    g.others :).trans h.others
  boot := (congrArg (fun b : Boot => { b with flash := s.boot.flash, ecnt := s.boot.ecnt }) g.boot :).trans h.boot
  cnd := (congrArg (fun c : Cnd => { c with ipend := s.cnd.ipend }) g.cnd :).trans h.cnd
  regs r n := (g.regs r n).trans (h.regs r n)
  wf := g.wf ∘ h.wf
  sticky a n m w b := g.sticky a n m (h.wf w) (h.sticky a n m w b)

theorem ite {c : Prop} [Decidable c] (h : Logged s t) (g : Logged s u) : Logged s (if c then t else u) := by split <;> assumption

theorem flt (s : State) (f : Flt) : Logged s { s with flt := f } := of_regs rfl rfl rfl

theorem flash (s : State) (b : Tbl Byte) : Logged s { s with boot := { s.boot with flash := b } } := of_regs rfl rfl rfl

end Logged

/-! The steps of which a record is made. -/

theorem noteFirst_logged (s : State) (n : Nat) : Logged s (noteFirst s n) := by
  unfold noteFirst
  split
  · exact ⟨rfl, rfl, rfl, fun r h => rd_wr_ne _ _ fun e => h (e ▸ by decide), wr_regs_wf _ _, fun a m h _ b => by
      rwa [rd_wr_ne _ _ fun e => absurd (e ▸ h) (by decide)]⟩
  · exact .refl s

theorem setFlag_logged (s : State) {a : Nat} (n : Nat) (h : a ∈ [0x0E00, 0x0E04]) : Logged s (setFlag s a n) where
  others := rfl
  boot := rfl
  cnd := rfl
  regs r out := rd_setFlag_ne s n fun e => out (e ▸ (show [0x0E00, 0x0E04] ⊆ faultRegs by decide) h)
  wf := wr_regs_wf _ _
  sticky _ _ _ w b := bit_setFlag_mono a n w b

theorem raiseInt_logged (s : State) (v : Nat) : Logged s (raiseInt s v) := ⟨rfl, rfl, rfl, fun _ _ => rfl, id, fun _ _ _ _ => id⟩

theorem logPut_logged (s : State) (code : Nat) (data : List Byte) : Logged s (logPut s code data) := by
  have only := logPut_onlyLog s code data
  have boot : (logPut s code data).boot = s.boot := (congrArg State.boot only.others :)
  have cnd : (logPut s code data).cnd = s.cnd := (congrArg State.cnd only.others :)
  refine ⟨(congrArg (fun y : State => { y with free := s.free, cnd := s.cnd, boot := s.boot }) only.others :), by rw [boot],
    by rw [cnd], fun r n => only.regs r (fun e => n (e ▸ by decide)) fun e => n (e ▸ by decide), logPut_regs_wf code data,
    fun a n h _ b => ?_⟩
  rwa [only.regs a (fun e => absurd (e ▸ h) (by decide)) fun e => absurd (e ▸ h) (by decide)]

theorem sticky0_logged (s : State) (n : Nat) (data : List Byte) : Logged s (sticky0 s n data) :=
  (((noteFirst_logged s n).trans (setFlag_logged _ n (by decide))).trans (raiseInt_logged _ 22)).trans (logPut_logged _ _ data)

theorem sticky1_logged (s : State) (n : Nat) (data : List Byte) : Logged s (sticky1 s n data) :=
  (((noteFirst_logged s (32 + n)).trans (setFlag_logged _ n (by decide))).trans (raiseInt_logged _ 22)).trans (logPut_logged _ _ data)

/-- A sticky fault of the second register sets its bit. -/
theorem bit_sticky1 {s : State} {n : Nat} (data : List Byte) (w : twf 0 s.regs = true) (h : n < 32) :
    bit (rd (sticky1 s n data) 0x0E04) n = true :=
  ((raiseInt_logged _ 22).trans (logPut_logged _ _ data)).sticky 0x0E04 n (by decide) (wr_regs_wf _ _ (noteFirst_regs_wf _ w))
    (bit_setFlag 0x0E04 (noteFirst_regs_wf _ w) h)

theorem sticky0_boot (s : State) (n : Nat) (data : List Byte) : (sticky0 s n data).boot = s.boot :=
  (congrArg State.boot (sticky0_onlyFault s n data).others :)

theorem sticky1_boot (s : State) (n : Nat) (data : List Byte) : (sticky1 s n data).boot = s.boot :=
  (congrArg State.boot (sticky1_onlyFault s n data).others :)

theorem logPut_boot (s : State) (code : Nat) (data : List Byte) : (logPut s code data).boot = s.boot :=
  (congrArg State.boot (logPut_onlyLog s code data).others :)

/-! The writer. -/

theorem modFlt_logged (s : State) (f : Flt → Flt) : Logged s (modFlt s f) := .flt s _

theorem ownPut_logged (s : State) (code : Nat) (data : List Byte) : Logged s (ownPut s code data) := .flt s _

theorem flashOpen_logged (s : State) (a n : Nat) : Logged s (flashOpen s a n) := .of_regs rfl rfl rfl

theorem bankFail_logged (s : State) (b j kind : Nat) : Logged s (bankFail s b j kind) := by
  unfold bankFail
  extract_lets s1 s2 all n
  have marked : Logged s s1 :=
    (((noteFirst_logged s 37).trans (setFlag_logged _ 5 (by decide))).trans (raiseInt_logged _ 22)).trans (ownPut_logged _ _ _)
  have failed : Logged s s2 := marked.trans (modFlt_logged _ _)
  exact .ite (failed.trans ((modFlt_logged _ _).trans (sticky1_logged _ _ _))) (failed.trans (modFlt_logged _ _))

theorem sectorFail_logged (s : State) (b j kind : Nat) : Logged s (sectorFail s b j kind) := by
  unfold sectorFail
  extract_lets s1
  have retired : Logged s s1 := (ownPut_logged s _ _).trans (modFlt_logged _ _)
  exact .ite (retired.trans (bankFail_logged _ _ _ _)) (retired.trans (modFlt_logged _ _))

theorem logAttempt_logged (s : State) (b i : Nat) (bytes : Nat → List Byte) (ok : Bool) : Logged s (logAttempt s b i bytes ok) := by
  unfold logAttempt
  extract_lets n s1
  have numbered : Logged s s1 := modFlt_logged s _
  exact .ite (numbered.trans (.flash _ _)) (numbered.trans (flashOpen_logged _ _ _))

theorem newSector_logged (s : State) (eraseOk sumOk : Bool) : Logged s (newSector s eraseOk sumOk) := by
  unfold newSector
  extract_lets b j s1 s2
  have counted : Logged s s1 := .of_regs rfl rfl rfl
  have attempted : Logged s s2 := (counted.trans (.flash _ _)).trans (logAttempt_logged _ _ _ _ _)
  exact .ite ((counted.trans (flashOpen_logged _ _ _)).trans (sectorFail_logged _ _ _ _))
    (.ite (attempted.trans (modFlt_logged _ _)) (attempted.trans (sectorFail_logged _ _ _ _)))

theorem logWrite_logged (s : State) (eraseOk sumOk recOk : Bool) : Logged s (logWrite s eraseOk sumOk recOk) := by
  unfold logWrite
  split
  · exact .refl s
  · extract_lets s1 b i s2
    have entered : Logged s s1 := .ite (newSector_logged s eraseOk sumOk) (.refl s)
    have attempted : Logged s s2 := entered.trans (logAttempt_logged _ _ _ _ _)
    exact .ite (.refl s) (.ite entered (.ite (attempted.trans (modFlt_logged _ _)) (attempted.trans (sectorFail_logged _ _ _ _))))

theorem forEach_logged {α : Type} {l : List α} {s : State} {f : State → α → State} (step : ∀ u a, Logged u (f u a)) :
    Logged s (forEach l s f) := forEach_induction (P := Logged s) (.refl s) fun u h a => h.trans (step u a)

theorem bootFlush_logged (s : State) (logOk : Bool) : Logged s (bootFlush s logOk) := by
  refine .trans (t := if logOk then s else logWrite s true true false) ?_ (forEach_logged fun u _ => logWrite_logged u true true true)
  exact .ite (.refl s) (logWrite_logged s true true false)

end Sys2Proof.Machine
end

section
/-! SUPPORT. The stages of boot: what each writes and what it leaves (R638). -/

namespace Sys2Proof.Machine
open Sys2Proof

/-- Records that wait in the log's queue: the flash stands. -/
structure Queued (s t : State) : Prop extends Logged s t where
  same : t.boot = s.boot

namespace Queued
variable {s t u : State}

theorem refl (s : State) : Queued s s := ⟨.refl s, rfl⟩

theorem trans (h : Queued s t) (g : Queued t u) : Queued s u := ⟨h.toLogged.trans g.toLogged, g.same.trans h.same⟩

theorem ite {c : Prop} [Decidable c] (h : Queued s t) (g : Queued s u) : Queued s (if c then t else u) := by
  split <;> assumption

theorem flt (s : State) (f : Flt) : Queued s { s with flt := f } := ⟨.flt s f, rfl⟩

theorem sticky0 (s : State) (n : Nat) (data : List Byte) : Queued s (sticky0 s n data) := ⟨sticky0_logged s n data, sticky0_boot s n data⟩

theorem sticky1 (s : State) (n : Nat) (data : List Byte) : Queued s (sticky1 s n data) := ⟨sticky1_logged s n data, sticky1_boot s n data⟩

theorem logPut (s : State) (code : Nat) (data : List Byte) : Queued s (logPut s code data) :=
  ⟨logPut_logged s code data, logPut_boot s code data⟩

theorem forEach {α : Type} {l : List α} {s : State} {f : State → α → State} (step : ∀ u a, Queued u (f u a)) :
    Queued s (forEach l s f) := forEach_induction (P := Queued s) (.refl s) fun u h a => h.trans (step u a)

theorem now (h : Queued s t) : t.now = s.now := (congrArg State.now h.others :)

theorem hdg (h : Queued s t) : t.hdg = s.hdg := (congrArg State.hdg h.others :)

theorem arr (h : Queued s t) : t.arr = s.arr := (congrArg State.arr h.others :)

end Queued

/-! Step 4. -/

theorem bootDegraded_queued (s old : State) : Queued s (bootDegraded s old) := by
  have flagged : Queued s (forEach [0, 1] s fun s b => if tget false s.flt.bankF b then sticky1 s 5 (degradedData old b) else s) :=
    .forEach fun u b => .ite (.sticky1 u 5 _) (.refl u)
  exact .ite (flagged.trans (.sticky1 _ 6 [])) flagged

theorem bootLog_queued (s : State) : Queued s (bootLog s) := by
  unfold bootLog
  extract_lets f s1
  refine .trans (t := s1) ?_ (bootDegraded_queued s1 s)
  simp only [s1]
  split
  · split
    · exact .flt s _
    · exact .flt s _
  · exact .flt s _

/-! Steps 5 to 8. -/

/-- The registers and the running image that steps 5 to 7 set, before their records. -/
def chosen (s : State) (why : Nat) (k : Pick) : State :=
  let run := if why = 0 then k.run else none
  let fall := if why = 0 then k.fall else none
  let st := place (run.getD 3) 0 ||| flag (decide (why ≠ 0)) 2 ||| place why 3 ||| flag fall.isSome 6
  let s1 := wr (wr (wr s 0x0008 st) 0x0020 (bootSelect s)) 0x002C (BitVec.ofNat 32 (leNat (chkBytes k 0 ++ chkBytes k 1)))
  { s1 with boot := { s1.boot with running := run } }

/-- With the record of the fall-back. -/
def fellBack (s : State) (why : Nat) (k : Pick) : State :=
  match if why = 0 then k.fall else none with
  | some d => sticky1 (chosen s why k) 7 d
  | none => chosen s why k

theorem bootChoose_eq (s : State) (why : Nat) (k : Pick) : bootChoose s why k =
    if why = 0 then fellBack s why k else sticky1 (fellBack s why k) 8 (leBytes 1 why ++ chkBytes k 0 ++ chkBytes k 1) := rfl

theorem fellBack_queued (s : State) (why : Nat) (k : Pick) : Queued (chosen s why k) (fellBack s why k) := by
  unfold fellBack
  generalize (if why = 0 then k.fall else none) = fall
  cases fall with
  | some d => exact .sticky1 _ 7 d
  | none => exact .refl _

theorem bootChoose_queued (s : State) (why : Nat) (k : Pick) : Queued (chosen s why k) (bootChoose s why k) := by
  rw [bootChoose_eq]
  exact .ite (fellBack_queued s why k) ((fellBack_queued s why k).trans (.sticky1 _ 8 _))

theorem chosen_wf {s : State} (why : Nat) (k : Pick) (w : twf 0 s.regs = true) : twf 0 (chosen s why k).regs = true :=
  wr_regs_wf _ _ (wr_regs_wf _ _ (wr_regs_wf _ _ w))

/-- A fall-back is recorded. -/
theorem bootChoose_fall {s : State} {k : Pick} (w : twf 0 s.regs = true) (fell : k.fall.isSome = true) :
    bit (rd (bootChoose s 0 k) 0x0E04) 7 = true := by
  obtain ⟨d, fall⟩ := Option.isSome_iff_exists.mp fell
  rw [bootChoose_eq, if_pos rfl, fellBack, if_pos rfl, fall]
  exact bit_sticky1 d (chosen_wf 0 k w) (by decide)

/-- SAFE mode is recorded. -/
theorem bootChoose_safe {s : State} {why : Nat} {k : Pick} (w : twf 0 s.regs = true) (safe : why ≠ 0) :
    bit (rd (bootChoose s why k) 0x0E04) 8 = true := by
  rw [bootChoose_eq, if_neg safe]
  exact bit_sticky1 _ ((fellBack_queued s why k).wf (chosen_wf why k w)) (by decide)

/-! Step 9. -/

/-- The array after BIST. -/
def tested (s : State) (bad : BitVec 132) (afail : Bool) : State :=
  let fails := (List.range 132).filter (fun c => bad.getLsbD c)
  let af := afail || decide (4 < fails.length)
  { s with arr := { s.arr with map := columnMap fails s.flt.notes af, bistDone := true, bistFail := af } }

theorem bootBist_queued (s : State) (bad : BitVec 132) (afail : Bool) : Queued (tested s bad afail) (bootBist s bad afail) := by
  unfold bootBist
  extract_lets fails af m arr s1 s2
  refine .ite (.sticky0 s1 12 _) (.trans (t := s2) (.flt _ _) (.forEach fun u c => .logPut u 4 _))

/-- An array failure is recorded. -/
theorem bootBist_fail {s : State} {bad : BitVec 132} {afail : Bool} (w : twf 0 s.regs = true)
    (failed : (tested s bad afail).arr.bistFail = true) : bit (rd (bootBist s bad afail) 0x0E00) 12 = true := by
  have is : ∃ data, bootBist s bad afail = sticky0 (tested s bad afail) 12 data := ⟨_, if_pos failed⟩
  obtain ⟨data, is⟩ := is
  rw [is]
  exact bit_sticky0 data w (by decide)

/-- The columns mapped out: at most four, the failed ones first. -/
theorem columnMap_failed (fails notes : List Nat) {af : Bool} (room : af = false → fails.length ≤ 4) :
    (columnMap fails notes af).length ≤ 4 ∧ (columnMap fails notes af).take fails.length = fails.take 4 := by
  unfold columnMap
  cases af
  · have few := room rfl
    refine ⟨List.length_take_le _ _, ?_⟩
    rw [if_neg Bool.false_ne_true, List.take_take, Nat.min_eq_left few, List.take_left, List.take_of_length_le few]
  · refine ⟨List.length_take_le _ _, ?_⟩
    rw [if_pos rfl, List.take_take, Nat.min_comm, ← List.take_take, List.take_length]

/-! Step 13. -/

theorem bootRecords_queued (s : State) (uses : Nat) : Queued s (bootRecords s uses) := by
  unfold bootRecords
  extract_lets s1 img s2
  have thermal : Queued s s1 := .ite (.sticky0 s 13 _) (.refl s)
  have booted : Queued s s2 := thermal.trans (.logPut s1 1 _)
  exact .ite (booted.trans (.logPut s2 8 _)) booted

/-- A thermal shutdown is recorded. -/
theorem bootRecords_thermal {s : State} (w : twf 0 s.regs = true) (cause : s.boot.cause = 6) (uses : Nat) :
    bit (rd (bootRecords s uses) 0x0E00) 13 = true := by
  unfold bootRecords
  extract_lets s1 img s2
  have thermal : bit (rd s1 0x0E00) 13 = true := by
    simp only [s1, if_pos cause]
    exact bit_sticky0 _ w (by decide)
  have wf : twf 0 s1.regs = true := by
    simp only [s1, if_pos cause]
    exact sticky0_regs_wf _ _ w
  have booted : Queued s1 s2 := .logPut s1 1 _
  have rest : Queued s1 (if uses < s.boot.factory then logPut s2 8 (leBytes 1 s.boot.factory) else s2) :=
    .ite (booted.trans (.logPut s2 8 _)) booted
  exact rest.sticky 0x0E00 13 (by decide) wf thermal

end Sys2Proof.Machine
end

section
/-! SUPPORT. The choice of an image: its selection record, its header and its checks rest on the flash and the fuses (R655, R656). -/

namespace Sys2Proof.Machine
open Sys2Proof

/-- The same flash and fuses, and the same BOOT_TRIES. -/
structure SameRom (s t : State) : Prop where
  flash : t.boot.flash = s.boot.flash
  stepB1 : t.boot.stepB1 = s.boot.stepB1
  authFuse : t.boot.authFuse = s.boot.authFuse
  keys : t.boot.keys = s.boot.keys
  tries : t.boot.tries = s.boot.tries

section
variable {s t : State} (h : SameRom s t)
include h

theorem SameRom.flashBytes : flashBytes t = flashBytes s := by
  funext a n
  rw [Machine.flashBytes, Machine.flashBytes, h.flash]

theorem SameRom.fwHeader : fwHeader t = fwHeader s := by
  funext slot
  rw [Machine.fwHeader, Machine.fwHeader, h.flashBytes]

theorem SameRom.fwUsable : fwUsable t = fwUsable s := by
  funext slot
  rw [Machine.fwUsable, Machine.fwUsable, h.fwHeader]

theorem SameRom.fwCheck : fwCheck t = fwCheck s := by
  funext slot
  have tuple : ∀ im, tupleFail t .firmware im = tupleFail s .firmware im := fun im => by
    rw [tupleFail, tupleFail, stepBit, stepBit, h.stepB1]
  have auth : ∀ im signed plen, authOk t im signed plen = authOk s im signed plen := fun im signed plen => by
    rw [authOk, authOk, signatureOk, signatureOk, h.authFuse, h.keys]
  rw [Machine.fwCheck, Machine.fwCheck, h.fwHeader, h.flashBytes]
  simp only [tuple, auth]

theorem SameRom.newestSel : newestSel t = newestSel s := by
  have used : usedSel t = usedSel s := by rw [usedSel, usedSel, h.flash]
  have record : selRec t = selRec s := by
    funext i
    rw [selRec, selRec, h.flashBytes]
  rw [Machine.newestSel, Machine.newestSel, used, record]

theorem SameRom.firstChoice : firstChoice t = firstChoice s := by
  have plain : fwPcrc t = fwPcrc s := by
    funext slot
    rw [fwPcrc, fwPcrc, h.fwHeader]
  have record : selChoice t = selChoice s := by rw [selChoice, selChoice, h.newestSel, h.fwUsable, plain]
  rw [Machine.firstChoice, Machine.firstChoice, record, h.fwUsable, fwVer, fwVer, fwVer, fwVer, h.fwHeader]
end

/-- The newest selection record is a valid one. -/
theorem newestSel_valid {s : State} {i : Nat} {b : List Byte} (h : newestSel s = some (i, b)) : selValid b = true := by
  have valid : ∀ m, newestSel s = some m → selValid m.2 = true := by
    unfold newestSel
    generalize (usedSel s).map (fun i => (i, selRec s i)) = l
    refine List.foldlRecOn (motive := fun m : Option (Nat × List Byte) => ∀ x, m = some x → selValid x.2 = true) l _
      (fun _ none => by cases none) fun m ih x _ y is => ?_
    by_cases ok : selValid x.2 = true
    · have chosen : y = x ∨ m = some y := by
        cases m with
        | none =>
          simp only [ok, Bool.not_true, Bool.false_eq_true, if_false] at is
          exact .inl (Option.some.inj is).symm
        | some z =>
          simp only [ok, Bool.not_true, Bool.false_eq_true, if_false] at is
          split at is
          · exact .inl (Option.some.inj is).symm
          · exact .inr is
      obtain rfl | old := chosen
      · exact ok
      · exact ih y old
    · simp only [ok, Bool.not_false, if_true] at is
      exact ih y is
  exact valid _ h

theorem selValid_slot {b : List Byte} (h : selValid b = true) : entryNat b 8 1 < 2 := by
  simp only [selValid, Bool.and_eq_true, decide_eq_true_eq] at h
  obtain ⟨⟨⟨⟨-, slot⟩, -⟩, -⟩, -⟩ := h
  exact slot

theorem skipped_none {s : State} (few : s.boot.tries < 2) : skipped s = none := if_neg (by omega)

/-- The first choice passes its checks (R655). -/
theorem bootPick_passes {s : State} {a : Nat} (first : firstChoice s = some a) (few : s.boot.tries < 2) (passes : fwCheck s a = none) :
    (bootPick s).run = some a ∧ (bootPick s).fall = none := by
  simp [bootPick, first, skipped_none few, passes]

/-- The first choice fails, and the second is checked (R656). -/
theorem bootPick_fails {s : State} {a : Nat} (first : firstChoice s = some a) (few : s.boot.tries < 2) (fails : fwCheck s a ≠ none) :
    (fwUsable s (1 - a) = true → fwCheck s (1 - a) = none → (bootPick s).run = some (1 - a) ∧ (bootPick s).fall.isSome = true) ∧
      (fwUsable s (1 - a) = false ∨ fwCheck s (1 - a) ≠ none → (bootPick s).run = none) := by
  obtain ⟨⟨st, d⟩, failed⟩ := Option.ne_none_iff_exists'.mp fails
  have second : bootPick s = pickSecond s a st d 0 := by
    rw [bootPick, first]
    simp only [skipped_none few, reduceCtorEq, if_false, failed]
  rw [second, pickSecond]
  constructor
  · intro usable passes
    simp [usable, passes, skipped_none few]
  · rintro (unusable | failsToo)
    · simp [unusable]
    · obtain ⟨e, failed'⟩ := Option.ne_none_iff_exists'.mp failsToo
      rw [failed']
      split <;> rfl

/-- The slot that the newest selection record names, when it applies, is slot 0 or 1 and usable. -/
theorem selChoice_usable {s : State} {a : Nat} (h : selChoice s = some a) : a < 2 ∧ fwUsable s a = true := by
  unfold selChoice at h
  split at h
  next i b newest =>
    dsimp only at h
    split at h
    next applies =>
      obtain rfl := Option.some.inj h
      exact ⟨selValid_slot (newestSel_valid newest), (Bool.and_eq_true _ _ ▸ applies : _ ∧ _).1⟩
    · cases h
  · cases h

theorem firstChoice_of_sel {s : State} {a : Nat} (h : selChoice s = some a) : firstChoice s = some a := by rw [firstChoice, h]

theorem firstChoice_of_versions {s : State} (none : selChoice s = none) (a : fwUsable s 0 = true) (b : fwUsable s 1 = true) :
    firstChoice s = some (if fwVer s 0 < fwVer s 1 then 1 else 0) := by rw [firstChoice, none, a, b]

theorem firstChoice_none {s : State} (a : fwUsable s 0 = false) (b : fwUsable s 1 = false) : firstChoice s = none := by
  have none : selChoice s = none := by
    refine Option.eq_none_iff_forall_ne_some.mpr fun slot is => ?_
    obtain ⟨lt, usable⟩ := selChoice_usable is
    obtain rfl | rfl : slot = 0 ∨ slot = 1 := by omega
    · exact absurd (a.symm.trans usable) (by decide)
    · exact absurd (b.symm.trans usable) (by decide)
  rw [firstChoice, none, a, b]

/-- The length fields of a usable image (R645). -/
theorem fwUsable_code {s : State} {slot : Nat} (h : fwUsable s slot = true) : entryNat (fwHeader s slot) 0x4C 4 ≤ 32768 := by
  by_contra long
  simp [fwUsable, fwFieldsOk, long] at h

end Sys2Proof.Machine
end

section
/-! SUPPORT. The start of an image: the fabric's configuration, the copy into SRAM and the first instruction (R639, R645, R661). -/

namespace Sys2Proof.Machine
open Sys2Proof

/-! The configuration. -/

/-- A change of the hedge's configuration and scrubbing, and of the registers that a configuration sets. -/
structure Configured (s t : State) : Prop where
  others : { t with hdg := s.hdg, regs := s.regs, staged := s.staged, scb := s.scb } = s
  pll : t.hdg.pllOk = s.hdg.pllOk
  regs r : r ∉ 0x0008 :: 0x0708 :: hardRegs → rd t r = rd s r
  wf : twf 0 s.regs = true → twf 0 t.regs = true

namespace Configured
variable {s t u : State}

theorem refl (s : State) : Configured s s := ⟨rfl, rfl, fun _ _ => rfl, id⟩

theorem trans (h : Configured s t) (g : Configured t u) : Configured s u where
  others := (congrArg (fun y : State => { y with hdg := s.hdg, regs := s.regs, staged := s.staged, scb := s.scb }) g.others :).trans h.others
  pll := g.pll.trans h.pll
  regs r n := (g.regs r n).trans (h.regs r n)
  wf := g.wf ∘ h.wf

theorem boot (h : Configured s t) : t.boot = s.boot := (congrArg State.boot h.others :)

theorem cnd (h : Configured s t) : t.cnd = s.cnd := (congrArg State.cnd h.others :)

end Configured

theorem writeBank_hdg (s : State) (bank : Bool) (pl : List Byte) (n : Nat) :
    ∃ h, writeBank s bank pl n = { s with hdg := h } ∧ h.pllOk = s.hdg.pllOk := by
  unfold writeBank
  extract_lets ks
  exact ⟨_, rfl, rfl⟩

theorem writeBank_configured (s : State) (bank : Bool) (pl : List Byte) (n : Nat) :
    Configured s (writeBank s bank pl n) ∧ (writeBank s bank pl n).regs = s.regs := by
  obtain ⟨h, eq, pll⟩ := writeBank_hdg s bank pl n
  rw [eq]
  exact ⟨⟨rfl, pll, fun _ _ => rfl, id⟩, rfl⟩

theorem hardReg_mem {i : Nat} (h : i < 14) : nth 0 hardRegs i ∈ hardRegs := by
  rw [nth, List.getD_eq_getElem _ _ (show i < hardRegs.length from h)]
  exact List.getElem_mem _

/-- The hardware registers of a configuration leave the others, BOOT_STATUS among them. -/
theorem hardLoad_configured (s : State) (bank : Bool) :
    Configured s (hardLoad s bank) ∧ rd (hardLoad s bank) 0x0008 = rd s 0x0008 := by
  unfold hardLoad
  have each : ∀ l : List Nat, (∀ i ∈ l, i < 14) → ∀ t, Configured s t ∧ rd t 0x0008 = rd s 0x0008 →
      Configured s (forEach l t fun u i => wrBoth u (nth 0 hardRegs i)
        (BitVec.ofNat 32 (cbits (cfgWord u bank 66 (1 + i / 2)) (if i % 2 = 0 then 0 else 32) 32))) ∧
      rd (forEach l t fun u i => wrBoth u (nth 0 hardRegs i)
        (BitVec.ofNat 32 (cbits (cfgWord u bank 66 (1 + i / 2)) (if i % 2 = 0 then 0 else 32) 32))) 0x0008 = rd s 0x0008 := by
    intro l
    induction l with
    | nil => exact fun _ t h => h
    | cons i l ih =>
      intro small t ⟨configured, status⟩
      have mem := hardReg_mem (small i List.mem_cons_self)
      refine ih (fun j m => small j (List.mem_cons_of_mem i m)) _ ⟨configured.trans ?_, ?_⟩
      · exact ⟨rfl, rfl, fun r n => rd_wr_ne _ _ fun e => n (by simp [← e, mem]), wr_regs_wf _ _⟩
      · refine Eq.trans ?_ status
        exact rd_wr_ne _ _ fun e => absurd (e ▸ mem) (by decide)
  exact each _ (fun i m => List.mem_range.mp m) s ⟨.refl s, rfl⟩

/-- An erased header is no fabric image. -/
theorem fabricFail_of_magic {s : State} {im : List Byte} (l : Option Nat) (h : im.take 4 ≠ fabricMagic) : fabricFail s im l ≠ none := by
  have bad : headerOk im fabricMagic = false := by simp [headerOk, h]
  simp [fabricFail, bad]

theorem take_tgets {α : Type} (d : α) (t : Tbl α) (a : Nat) {m n : Nat} (h : m ≤ n) : (tgets d t a n).take m = tgets d t a m := by
  rw [tgets_eq_map, tgets_eq_map, ← List.map_take, List.take_range, Nat.min_eq_left h]

/-- The cells take their preloads, and the register of the image's PCRC its value. -/
def cellsLoaded (s : State) (v : Word) : State :=
  wr { s with hdg := { s.hdg with cells := preloadCells s false } } 0x0708 v

/-- The fabric's configuration from the image `im` (R639). -/
def fabricLoaded (s : State) (im : List Byte) : State :=
  match fabricFail s im (some 65536) with
  | none => cellsLoaded (hardLoad (writeBank s false ((im.drop 96).take (entryNat im 0x18 4)) (entryNat im 0x1C 2)) false)
      (BitVec.ofNat 32 (entryNat im 0x20 4))
  | some _ => orReg (writeBank s false [] 0) 0x0008 (place 1 7)

/-- The first pass of the scrubber starts (R191). -/
def scrubStarted (s : State) : State :=
  { s with scb := { s.scb with
    golden := { s.scb.golden with src := 1 }, copies := s.scb.copies.map (fun c => { c with src := 1 }),
    pass := some (passRange s) } }

theorem cellsLoaded_configured (s : State) (v : Word) :
    Configured s (cellsLoaded s v) ∧ rd (cellsLoaded s v) 0x0008 = rd s 0x0008 := by
  unfold cellsLoaded
  generalize preloadCells s false = cells
  exact ⟨⟨rfl, rfl, fun r n => rd_wr_ne _ _ fun e => n (by simp [← e]), wr_regs_wf _ _⟩, rd_wr_ne _ _ (by decide)⟩

theorem bootFabric_eq (s : State) : bootFabric s = scrubStarted (fabricLoaded s (flashBytes s 0x80000 65536)) := rfl

theorem scrubStarted_configured (s : State) : Configured s (scrubStarted s) ∧ (scrubStarted s).regs = s.regs := by
  unfold scrubStarted
  exact ⟨⟨rfl, rfl, fun _ _ => rfl, id⟩, rfl⟩

theorem orReg_configured (s : State) (v : Word) : Configured s (orReg s 0x0008 v) :=
  ⟨rfl, rfl, fun r n => rd_orReg_ne s v fun e => n (by simp [← e]), wr_regs_wf _ _⟩

theorem rd_orReg_self {s : State} (a : Nat) (v : Word) (w : twf 0 s.regs = true) : rd (orReg s a v) a = rd s a ||| v := rd_wr_self _ w

/-- All zeros instead of an image, with BOOT_STATUS bit 7 (R639, R661). -/
theorem zeroConfig_configured {s : State} (w : twf 0 s.regs = true) :
    Configured s (orReg (writeBank s false [] 0) 0x0008 (place 1 7)) ∧
      rd (orReg (writeBank s false [] 0) 0x0008 (place 1 7)) 0x0008 = rd s 0x0008 ||| flag true 7 := by
  obtain ⟨configured, regs⟩ := writeBank_configured s false [] 0
  generalize writeBank s false [] 0 = u at configured regs
  refine ⟨configured.trans (orReg_configured u (place 1 7)), ?_⟩
  have kept : rd u 0x0008 = rd s 0x0008 := congrArg (tget 0 · 0x0008) regs
  rw [rd_orReg_self 0x0008 _ (regs ▸ w), kept]
  rfl

theorem fabricFail_of_erased {s : State} {n : Nat} (l : Option Nat) (room : 4 ≤ n)
    (blank : flashBytes s 0x80000 4 = [0xFF, 0xFF, 0xFF, 0xFF]) : fabricFail s (flashBytes s 0x80000 n) l ≠ none := by
  refine fabricFail_of_magic _ ?_
  rw [flashBytes, take_tgets _ _ _ room, ← flashBytes, blank]
  decide

/-- An image is loaded, or zeros and BOOT_STATUS bit 7. -/
theorem fabricLoaded_configured {s : State} (w : twf 0 s.regs = true) (im : List Byte) :
    Configured s (fabricLoaded s im) ∧ ∃ e : Bool, rd (fabricLoaded s im) 0x0008 = rd s 0x0008 ||| flag e 7 ∧
      (fabricFail s im (some 65536) ≠ none → e = true) := by
  unfold fabricLoaded
  generalize fabricFail s im (some 65536) = fail
  cases fail with
  | none =>
    obtain ⟨written, regs⟩ := writeBank_configured s false ((im.drop 96).take (entryNat im 0x18 4)) (entryNat im 0x1C 2)
    obtain ⟨hard, hardStatus⟩ := hardLoad_configured
      (writeBank s false ((im.drop 96).take (entryNat im 0x18 4)) (entryNat im 0x1C 2)) false
    obtain ⟨cells, cellStatus⟩ := cellsLoaded_configured
      (hardLoad (writeBank s false ((im.drop 96).take (entryNat im 0x18 4)) (entryNat im 0x1C 2)) false)
      (BitVec.ofNat 32 (entryNat im 0x20 4))
    refine ⟨(written.trans hard).trans cells, false, ?_, fun blank => absurd rfl blank⟩
    rw [cellStatus, hardStatus, rd, regs]
    exact (BitVec.or_zero).symm
  | some e =>
    obtain ⟨configured, status⟩ := zeroConfig_configured w
    exact ⟨configured, true, status, fun _ => rfl⟩

/-- The fabric is configured from slot 0, or with zeros and BOOT_STATUS bit 7 (R639). -/
theorem bootFabric_configured {s : State} (w : twf 0 s.regs = true) : Configured s (bootFabric s) ∧
    ∃ e : Bool, rd (bootFabric s) 0x0008 = rd s 0x0008 ||| flag e 7 ∧ (flashBytes s 0x80000 4 = [0xFF, 0xFF, 0xFF, 0xFF] → e = true) := by
  have erased := fabricFail_of_erased (s := s) (n := 65536) (some 65536) (by decide)
  rw [bootFabric_eq]
  generalize flashBytes s 0x80000 65536 = im at erased
  obtain ⟨configured, e, status, blank⟩ := fabricLoaded_configured w im
  generalize fabricLoaded s im = u at configured status
  obtain ⟨started, regs⟩ := scrubStarted_configured u
  refine ⟨configured.trans started, e, ?_, fun is => blank (erased is)⟩
  rw [rd, regs]
  exact status

end Sys2Proof.Machine
end

section
/-! SUPPORT. Steps 8 to 12 of boot as a whole, and what comes after them (R638, R645). -/

namespace Sys2Proof.Machine
open Sys2Proof

/-- The registers that the start of an image or of SAFE mode sets. -/
def startRegs : List Nat := 0x0010 :: 0x060C :: 0x0008 :: 0x0708 :: hardRegs

/-- What the start of an image and that of SAFE mode leave as it was, with `e` said by BOOT_STATUS bit 7. -/
structure Starts (s t : State) (e : Bool) : Prop where
  boot : t.boot = s.boot
  now : t.now = s.now
  arr : t.arr = s.arr
  pll : t.hdg.pllOk = s.hdg.pllOk
  regs r : r ∉ startRegs → rd t r = rd s r
  wf : twf 0 t.regs = true
  status : rd t 0x0008 = rd s 0x0008 ||| flag e 7

theorem Configured.starts {s t : State} (h : Configured s t) (w : twf 0 s.regs = true) {e : Bool}
    (status : rd t 0x0008 = rd s 0x0008 ||| flag e 7) : Starts s t e where
  boot := h.boot
  now := (congrArg State.now h.others :)
  arr := (congrArg State.arr h.others :)
  pll := h.pll
  regs r n := h.regs r fun m => n (List.mem_cons_of_mem _ (List.mem_cons_of_mem _ m))
  wf := h.wf w
  status := status

/-- SAFE mode starts no image: memory and the conductor stand. -/
theorem bootStart_safe {s : State} (w : twf 0 s.regs = true) (none : s.boot.running = none) :
    Starts s (bootStart s) true ∧ (bootStart s).cnd = s.cnd := by
  have is : bootStart s = orReg (writeBank s false [] 0) 0x0008 (place 1 7) := by rw [bootStart, none]
  obtain ⟨configured, status⟩ := zeroConfig_configured w
  rw [is]
  exact ⟨configured.starts w status, configured.cnd⟩

/-! The copy of an image. -/

/-- Memory with the code at 0 and the data at the start of data SRAM. -/
def imageMem (m : Tbl Byte) (code data : List Byte) : Tbl Byte := tsets 0 (tsets 0 m 0 code) 0x10000000 data

theorem tgets_tsets_self {α : Type} [DecidableEq α] (d : α) {t : Tbl α} (a : Nat) (vs : List α) (w : twf d t = true) :
    tgets d (tsets d t a vs) a vs.length = vs := by
  have all := tgets_tsets d a (vs := vs) w (k := 0) (n := vs.length) (by rw [Nat.zero_add])
  rwa [List.drop_zero, List.take_length, Nat.add_zero] at all

theorem imageMem_code {m : Tbl Byte} (w : twf 0 m = true) {code : List Byte} (data : List Byte) (short : code.length ≤ 0x10000000) :
    tgets 0 (imageMem m code data) 0 code.length = code := by
  have outside : tgets 0 (imageMem m code data) 0 code.length = tgets 0 (tsets 0 m 0 code) 0 code.length := by
    rw [tgets_eq_map, tgets_eq_map]
    refine List.map_congr_left fun i inside => tget_tsets_out 0 _ _ _ ?_
    have := List.mem_range.mp inside
    omega
  rw [outside, tgets_tsets_self 0 0 code w]

theorem imageMem_data {m : Tbl Byte} (w : twf 0 m = true) (code data : List Byte) :
    tgets 0 (imageMem m code data) 0x10000000 data.length = data := tgets_tsets_self 0 _ data (twf_tsets 0 _ _ w)

/-- Code of the image in a slot. -/
def slotCode (s : State) (slot : Nat) : List Byte := flashBytes s ((region slot).1 + 96) (entryNat (fwHeader s slot) 0x4C 4)

/-- Data of the image in a slot. -/
def slotData (s : State) (slot : Nat) : List Byte :=
  flashBytes s ((region slot).1 + 96 + entryNat (fwHeader s slot) 0x4C 4) (entryNat (fwHeader s slot) 0x50 4)

theorem length_flashBytes (s : State) (a n : Nat) : (flashBytes s a n).length = n := length_tgets _ _ _ _

theorem fillMem_eq (s : State) (a : Nat) (bs : List Byte) :
    ∃ err, fillMem s a bs = { s with cnd := { s.cnd with mem := tsets 0 s.cnd.mem a bs, memErr := err } } :=
  ⟨(fillMem s a bs).cnd.memErr, rfl⟩

/-- Memory filled twice, and the errors noted there. -/
theorem fillMem_twice (s : State) (code data : List Byte) : ∃ err, fillMem (fillMem s 0 code) 0x10000000 data =
    { s with cnd := { s.cnd with mem := imageMem s.cnd.mem code data, memErr := err } } := by
  obtain ⟨_, first⟩ := fillMem_eq s 0 code
  obtain ⟨err, second⟩ := fillMem_eq (fillMem s 0 code) 0x10000000 data
  exact ⟨err, by rw [second, first]; rfl⟩

theorem bootCopy_eq (s : State) (slot : Nat) : ∃ err, bootCopy s slot = { wr s 0x0010 (BitVec.ofNat 32 (fwVer s slot)) with
    cnd := { s.cnd with mem := imageMem s.cnd.mem (slotCode s slot) (slotData s slot), memErr := err } } :=
  fillMem_twice (wr s 0x0010 (BitVec.ofNat 32 (fwVer s slot))) (slotCode s slot) (slotData s slot)

theorem startFirmware_eq (s : State) (h : List Byte) : startFirmware s h = { wr s 0x060C (BitVec.ofNat 32 (entryNat h 0x54 4)) with
    cnd := { s.cnd with pc := BitVec.ofNat 32 (entryNat h 0x48 4), wp := 0x100, running := true } } := rfl

/-- The image of `slot` starts in `t` (R638, R645). -/
structure ImageStarted (s : State) (slot : Nat) (t : State) : Prop where
  running : t.cnd.running = true
  pc : t.cnd.pc = BitVec.ofNat 32 (entryNat (fwHeader s slot) 0x48 4)
  vector : rd t 0x060C = BitVec.ofNat 32 (entryNat (fwHeader s slot) 0x54 4)
  version : rd t 0x0010 = BitVec.ofNat 32 (fwVer s slot)
  mem : t.cnd.mem = imageMem s.cnd.mem (slotCode s slot) (slotData s slot)

theorem startFirmware_image {s v : State} {slot : Nat} (w : twf 0 v.regs = true)
    (mem : v.cnd.mem = imageMem s.cnd.mem (slotCode s slot) (slotData s slot))
    (version : rd v 0x0010 = BitVec.ofNat 32 (fwVer s slot)) : ImageStarted s slot (startFirmware v (fwHeader s slot)) := by
  rw [startFirmware_eq]
  exact ⟨rfl, rfl, rd_wr_self _ w, (rd_wr_ne v _ (by decide)).trans version, mem⟩

/-- A configuration and a start, on a state that differs in memory and BOOT_FWVER. -/
theorem startFirmware_starts {s u v : State} {e : Bool} (boot : u.boot = s.boot) (now : u.now = s.now) (arr : u.arr = s.arr)
    (hdg : u.hdg = s.hdg) (regs : ∀ r, 0x0010 ≠ r → rd u r = rd s r) (w : twf 0 u.regs = true) (configured : Configured u v)
    (status : rd v 0x0008 = rd u 0x0008 ||| flag e 7) (h : List Byte) : Starts s (startFirmware v h) e := by
  have starts := configured.starts w status
  rw [startFirmware_eq]
  refine ⟨starts.boot.trans boot, starts.now.trans now, starts.arr.trans arr, starts.pll.trans (congrArg Hdg.pllOk hdg),
    fun r n => ?_, wr_regs_wf _ _ starts.wf, ?_⟩
  · refine (rd_wr_ne v _ fun is => n (by simp [startRegs, ← is])).trans ((starts.regs r n).trans (regs r fun is => n ?_))
    simp [startRegs, ← is]
  · refine (rd_wr_ne v _ (by decide)).trans ?_
    rw [starts.status, regs 0x0008 (by decide)]

theorem bootStart_image {s : State} {slot : Nat} (w : twf 0 s.regs = true) (run : s.boot.running = some slot) :
    ∃ e, Starts s (bootStart s) e ∧ (flashBytes s 0x80000 4 = [0xFF, 0xFF, 0xFF, 0xFF] → e = true) ∧
      ImageStarted s slot (bootStart s) := by
  have is : bootStart s = startFirmware (bootFabric (bootCopy s slot)) (fwHeader s slot) := by rw [bootStart, run]
  obtain ⟨err, copied⟩ := bootCopy_eq s slot
  have wf : twf 0 (bootCopy s slot).regs = true := by
    rw [copied]
    exact wr_regs_wf _ _ w
  have boot : (bootCopy s slot).boot = s.boot := (congrArg State.boot copied :)
  have mem : (bootCopy s slot).cnd.mem = imageMem s.cnd.mem (slotCode s slot) (slotData s slot) :=
    (congrArg (fun y : State => y.cnd.mem) copied :)
  have regs : ∀ r, rd (bootCopy s slot) r = rd (wr s 0x0010 (BitVec.ofNat 32 (fwVer s slot))) r :=
    fun r => (congrArg (fun y : State => tget 0 y.regs r) copied :)
  obtain ⟨configured, e, status, blank⟩ := bootFabric_configured wf
  refine ⟨e, ?_, fun erased => blank ?_, ?_⟩
  · rw [is]
    exact startFirmware_starts boot (congrArg State.now copied :) (congrArg State.arr copied :) (congrArg State.hdg copied :)
      (fun r n => (regs r).trans (rd_wr_ne s _ n)) wf configured status _
  · rw [flashBytes, boot]
    exact erased
  · rw [is]
    refine startFirmware_image (configured.wf wf) ((congrArg Cnd.mem configured.cnd).trans mem) ?_
    rw [configured.regs _ (by decide), regs]
    exact rd_wr_self _ w

end Sys2Proof.Machine
end

section
/-! SUPPORT. The boot sequence as a whole: the state before the image starts, and READY (R638). -/

namespace Sys2Proof.Machine
open Sys2Proof

/-- The device out of reset at `now`, its straps sampled (R636, R638). -/
def leftReset (s : State) (straps : BitVec 4) (refOk : Bool) (now : Nat) : State :=
  { s with
    now := now,
    boot := { s.boot with inReset := false, ports := true, bootAt := s.now,
                          straps := if s.boot.cause = 1 ∨ s.boot.cause = 2 then straps else s.boot.straps },
    hdg := { s.hdg with pllOk := refOk, bankEn := [(0, bankOn s 0), (1, bankOn s 1)] } }

/-- BOOT_CAUSE set (R633, R658). -/
def outOfReset (s : State) (straps : BitVec 4) (refOk : Bool) (now : Nat) : State :=
  wr (leftReset s straps refOk now) 0x000C (place s.boot.cause 0 ||| place s.boot.tries 4)

section
variable (s : State) (straps : BitVec 4) (refOk : Bool) (now : Nat)

theorem outOfReset_now : (outOfReset s straps refOk now).now = now := rfl

theorem outOfReset_pllOk : (outOfReset s straps refOk now).hdg.pllOk = refOk := rfl

theorem outOfReset_cnd : (outOfReset s straps refOk now).cnd = s.cnd := rfl

theorem outOfReset_boot : (outOfReset s straps refOk now).boot =
    { s.boot with
      inReset := false, ports := true, bootAt := s.now,
      straps := if s.boot.cause = 1 ∨ s.boot.cause = 2 then straps else s.boot.straps } := rfl

theorem leftReset_regs : (leftReset s straps refOk now).regs = s.regs := rfl

theorem outOfReset_wf (w : twf 0 s.regs = true) : twf 0 (outOfReset s straps refOk now).regs = true := by
  refine wr_regs_wf _ _ ?_
  rwa [leftReset_regs]

theorem outOfReset_cause (w : twf 0 s.regs = true) :
    rd (outOfReset s straps refOk now) 0x000C = place s.boot.cause 0 ||| place s.boot.tries 4 := by
  refine rd_wr_self _ ?_
  rwa [leftReset_regs]
end

/-- BOOT_STATUS as the choice of an image sets it (R660). -/
def bootStatus (why : Nat) (k : Pick) : Word :=
  place ((if why = 0 then k.run else none).getD 3) 0 ||| flag (decide (why ≠ 0)) 2 ||| place why 3 |||
    flag (if why = 0 then k.fall else none).isSome 6

/-- The choice, with the reason `why` for SAFE mode, and the array's test. -/
def prepared (b : State) (why : Nat) (k : Pick) (bad : BitVec 132) (afail : Bool) : State := bootBist (bootChoose b why k) bad afail

/-- The columns that BIST finds failing. -/
def failCols (bad : BitVec 132) : List Nat := (List.range 132).filter (fun c => bad.getLsbD c)

/-- The state before the start of an image, after the log has been read in `b`. -/
structure Prepared (b : State) (why : Nat) (k : Pick) (bad : BitVec 132) (afail : Bool) (t : State) : Prop where
  boot : t.boot = { b.boot with running := if why = 0 then k.run else none }
  now : t.now = b.now
  hdg : t.hdg = b.hdg
  cnd : { t.cnd with ipend := b.cnd.ipend } = b.cnd
  wf : twf 0 t.regs = true
  regs r : r ∉ 0x0008 :: 0x0020 :: 0x002C :: faultRegs → rd t r = rd b r
  status : rd t 0x0008 = bootStatus why k
  done : t.arr.bistDone = true
  fail : t.arr.bistFail = (afail || decide (4 < (failCols bad).length))
  room : t.arr.map.length ≤ 4
  map : t.arr.map.take (failCols bad).length = (failCols bad).take 4
  failed : t.arr.bistFail = true → bit (rd t 0x0E00) 12 = true
  fell : why = 0 → k.fall.isSome = true → bit (rd t 0x0E04) 7 = true
  safe : why ≠ 0 → bit (rd t 0x0E04) 8 = true

theorem chosen_status {b : State} (w : twf 0 b.regs = true) (why : Nat) (k : Pick) :
    rd (chosen b why k) 0x0008 = bootStatus why k :=
  ((rd_wr_ne _ _ (by decide)).trans (rd_wr_ne _ _ (by decide))).trans (rd_wr_self (s := b) _ w)

theorem chosen_cnd (b : State) (why : Nat) (k : Pick) : (chosen b why k).cnd = b.cnd := rfl

theorem chosen_now (b : State) (why : Nat) (k : Pick) : (chosen b why k).now = b.now := rfl

theorem chosen_hdg (b : State) (why : Nat) (k : Pick) : (chosen b why k).hdg = b.hdg := rfl

theorem chosen_boot (b : State) (why : Nat) (k : Pick) :
    (chosen b why k).boot = { b.boot with running := if why = 0 then k.run else none } := rfl

theorem chosen_regs (b : State) (why : Nat) (k : Pick) {r : Nat} (n : r ∉ [0x0008, 0x0020, 0x002C]) :
    rd (chosen b why k) r = rd b r := by
  simp only [List.mem_cons, List.not_mem_nil, or_false, not_or] at n
  obtain ⟨status, select, checks⟩ := n
  exact ((rd_wr_ne _ _ (Ne.symm checks)).trans (rd_wr_ne _ _ (Ne.symm select))).trans (rd_wr_ne b _ (Ne.symm status))

/-- BIST delivers the array's map and flags, and leaves the rest of the state to the log. -/
theorem tested_spec (s : State) (bad : BitVec 132) (afail : Bool) :
    let t := tested s bad afail
    t.arr.bistDone = true ∧ t.arr.bistFail = (afail || decide (4 < (failCols bad).length)) ∧ t.arr.map.length ≤ 4 ∧
      t.arr.map.take (failCols bad).length = (failCols bad).take 4 ∧ { t with arr := s.arr } = s := by
  have map := columnMap_failed (failCols bad) s.flt.notes (af := afail || decide (4 < (failCols bad).length)) (by
    rw [Bool.or_eq_false_iff, decide_eq_false_iff_not]
    omega)
  exact ⟨rfl, rfl, map.1, map.2, rfl⟩

theorem prepared_spec {b : State} (w : twf 0 b.regs = true) (why : Nat) (k : Pick) (bad : BitVec 132) (afail : Bool) :
    Prepared b why k bad afail (prepared b why k bad afail) := by
  have choice := bootChoose_queued b why k
  have wc := chosen_wf why k w
  have wd : twf 0 (bootChoose b why k).regs = true := choice.wf wc
  have test := bootBist_queued (bootChoose b why k) bad afail
  have failed := bootBist_fail (bad := bad) (afail := afail) wd
  obtain ⟨done, fail, room, map, others⟩ := tested_spec (bootChoose b why k) bad afail
  have regs : ∀ r, rd (tested (bootChoose b why k) bad afail) r = rd (bootChoose b why k) r :=
    fun r => (congrArg (fun y : State => rd y r) others :)
  have sticky : ∀ n, bit (rd (bootChoose b why k) 0x0E04) n = true → bit (rd (prepared b why k bad afail) 0x0E04) n = true :=
    fun n h => test.sticky 0x0E04 n (by decide) ((congrArg (fun y : State => twf 0 y.regs) others :).trans wd) (by rwa [regs])
  have kept : ∀ r, r ∉ faultRegs → rd (prepared b why k bad afail) r = rd (chosen b why k) r :=
    fun r n => ((test.regs r n).trans (regs r)).trans (choice.regs r n)
  have cnd : (tested (bootChoose b why k) bad afail).cnd = (bootChoose b why k).cnd := (congrArg State.cnd others :)
  have arr : (prepared b why k bad afail).arr = (tested (bootChoose b why k) bad afail).arr := test.arr
  refine ⟨(test.same.trans (congrArg State.boot others :)).trans (choice.same.trans (chosen_boot b why k)),
    (test.now.trans (congrArg State.now others :)).trans (choice.now.trans (chosen_now b why k)),
    (test.hdg.trans (congrArg State.hdg others :)).trans (choice.hdg.trans (chosen_hdg b why k)), ?_,
    test.wf ((congrArg (fun y : State => twf 0 y.regs) others :).trans wd), fun r n => ?_, ?_, ?_, ?_, ?_, ?_, ?_, ?_, ?_⟩
  · have raised : { (prepared b why k bad afail).cnd with ipend := b.cnd.ipend } = { (bootChoose b why k).cnd with ipend := b.cnd.ipend } := by
      rw [← cnd]
      exact (congrArg (fun c : Cnd => { c with ipend := b.cnd.ipend }) test.cnd :)
    have choiceCnd := choice.cnd
    rw [chosen_cnd] at choiceCnd
    exact raised.trans choiceCnd
  · rw [kept r fun m => n (List.mem_append_right [0x0008, 0x0020, 0x002C] m),
      chosen_regs b why k fun m => n (List.mem_append_left faultRegs m)]
  · rw [kept _ (by decide), chosen_status w]
  · rw [arr, done]
  · rw [arr, fail]
  · rw [arr]
    exact room
  · rw [arr]
    exact map
  · rw [arr]
    exact failed
  · rintro rfl fell
    exact sticky 7 (bootChoose_fall w fell)
  · exact fun safe => sticky 8 (bootChoose_safe w safe)

end Sys2Proof.Machine
end

section
/-! SUPPORT. READY, and the boot sequence from reset to it (R638). -/

namespace Sys2Proof.Machine
open Sys2Proof

/-- READY rises. -/
def risen (s : State) : State :=
  { s with boot := { s.boot with ready := true, readyAt := s.now }, flt := { s.flt with hourAt := s.now } }

/-- The records of boot and READY. -/
def readied (s : State) (ms uses : Nat) (factory : Word) (logOk : Bool) : State :=
  risen (bootFlush (bootRecords (wr (wr s 0x0018 (BitVec.ofNat 32 (min 0xFFFF ms))) 0x0E14 factory) uses) logOk)

/-- What READY leaves of the state in which the image has started. -/
structure Readied (s : State) (ms : Nat) (t : State) : Prop where
  ready : t.boot.ready = true
  readyAt : t.boot.readyAt = t.now
  boot : { t.boot with ready := s.boot.ready, readyAt := s.boot.readyAt, flash := s.boot.flash, ecnt := s.boot.ecnt } = s.boot
  now : t.now = s.now
  hdg : t.hdg = s.hdg
  arr : t.arr = s.arr
  cnd : { t.cnd with ipend := s.cnd.ipend } = s.cnd
  time : rd t 0x0018 = BitVec.ofNat 32 (min 0xFFFF ms)
  regs r : r ∉ 0x0018 :: 0x0E14 :: faultRegs → rd t r = rd s r
  sticky a n : a ∈ [0x0E00, 0x0E04] → bit (rd s a) n = true → bit (rd t a) n = true
  thermal : s.boot.cause = 6 → bit (rd t 0x0E00) 13 = true

theorem readied_spec {s : State} (w : twf 0 s.regs = true) (ms uses : Nat) (factory : Word) (logOk : Bool) :
    Readied s ms (readied s ms uses factory logOk) := by
  have wf : twf 0 (wr (wr s 0x0018 (BitVec.ofNat 32 (min 0xFFFF ms))) 0x0E14 factory).regs = true := wr_regs_wf _ _ (wr_regs_wf _ _ w)
  have time : rd (wr (wr s 0x0018 (BitVec.ofNat 32 (min 0xFFFF ms))) 0x0E14 factory) 0x0018 = BitVec.ofNat 32 (min 0xFFFF ms) :=
    (rd_wr_ne _ _ (by decide)).trans (rd_wr_self _ w)
  have regs : ∀ r, r ≠ 0x0018 → r ≠ 0x0E14 → rd (wr (wr s 0x0018 (BitVec.ofNat 32 (min 0xFFFF ms))) 0x0E14 factory) r = rd s r :=
    fun r a b => (rd_wr_ne _ _ (Ne.symm b)).trans (rd_wr_ne _ _ (Ne.symm a))
  have records := (bootRecords_queued (wr (wr s 0x0018 (BitVec.ofNat 32 (min 0xFFFF ms))) 0x0E14 factory) uses).toLogged
  have thermal := fun h => bootRecords_thermal wf h uses
  have flushed := bootFlush_logged (bootRecords (wr (wr s 0x0018 (BitVec.ofNat 32 (min 0xFFFF ms))) 0x0E14 factory) uses) logOk
  have logged := records.trans flushed
  unfold readied risen
  generalize bootFlush (bootRecords (wr (wr s 0x0018 (BitVec.ofNat 32 (min 0xFFFF ms))) 0x0E14 factory) uses) logOk = t at flushed logged
  have kept : ∀ r, r ∉ faultRegs → rd t r = _ := logged.regs
  refine ⟨rfl, rfl, ?_, ?_, ?_, ?_, logged.cnd, (kept 0x0018 (by decide)).trans time, fun r n => ?_, fun a n m h => ?_, fun cause => ?_⟩
  · exact (congrArg (fun b : Boot => { b with ready := s.boot.ready, readyAt := s.boot.readyAt }) logged.boot :)
  · exact (congrArg State.now logged.others :)
  · exact (congrArg State.hdg logged.others :)
  · exact (congrArg State.arr logged.others :)
  · simp only [List.mem_cons, not_or] at n
    obtain ⟨a, b, c⟩ := n
    exact (kept r c).trans (regs r a b)
  · refine logged.sticky a n m wf ?_
    rwa [regs a (fun e => absurd (e ▸ m) (by decide)) (fun e => absurd (e ▸ m) (by decide))]
  · exact flushed.sticky 0x0E00 13 (by decide) (records.wf wf) (thermal cause)

theorem bootRun_eq (s : State) (straps : BitVec 4) (refOk : Bool) (ms : Nat) (logOk : Bool) (bad : BitVec 132) (afail : Bool) :
    let b := bootLog (outOfReset s straps refOk (s.now + ms * msTicks))
    ∃ uses factory, bootRun s straps refOk ms logOk bad afail =
      readied (bootStart (prepared b (safeWhy b refOk (bootPick b)) (bootPick b) bad afail)) ms uses factory logOk := by
  intro b
  refine ⟨lastUses (leftReset s straps refOk (s.now + ms * msTicks)),
    factoryWord (bootStart (prepared b (safeWhy b refOk (bootPick b)) (bootPick b) bad afail)), ?_⟩
  unfold bootRun readied prepared
  extract_lets c hdg boot s1 s2 k s3 s4 s5 flt boot'
  have left : s1 = leftReset s straps refOk (s.now + ms * msTicks) := rfl
  have read : s2 = b := congrArg (fun u => bootLog (wr u 0x000C (place s.boot.cause 0 ||| place s.boot.tries 4))) left
  have started : s3 = bootStart (bootBist (bootChoose s2 (safeWhy s2 refOk (bootPick s2)) (bootPick s2)) bad afail) := rfl
  have recorded : s5 = bootFlush (bootRecords (wr (wr s3 0x0018 (BitVec.ofNat 32 (min 0xFFFF ms))) 0x0E14 (factoryWord s3)) (lastUses s1))
    logOk := rfl
  clear_value s5 s4 s3 k s2 b
  rw [← left, ← read, ← started, ← recorded]
  rfl

end Sys2Proof.Machine
end

section
/-! SUPPORT. The outcome of boot: an image that runs, or SAFE mode (R638, R655 to R661). -/

namespace Sys2Proof.Machine
open Sys2Proof

/-- The boot of `s` with the choice `k` and the reason `why` ends in `t`: the log is read in `b`, the image or SAFE mode starts from `d`
in `u`. -/
structure Boots (s : State) (straps : BitVec 4) (refOk : Bool) (ms : Nat) (bad : BitVec 132) (afail : Bool) (why : Nat) (k : Pick)
    (e : Bool) (b d u t : State) : Prop where
  wf : twf 0 s.regs = true
  read : Queued (outOfReset s straps refOk (s.now + ms * msTicks)) b
  prep : Prepared b why k bad afail d
  start : Starts d u e
  ready : Readied u ms t

/-- BOOT_CAUSE as a number (R633, R658). -/
theorem bootCause_eq {c n : Nat} (hc : c < 16) (hn : n ≤ 4) : place c 0 ||| place n 4 = BitVec.ofNat 32 (c + 16 * n) :=
  (by decide : ∀ c < 16, ∀ n < 5, place c 0 ||| place n 4 = BitVec.ofNat 32 (c + 16 * n)) c hc n (by omega)

section
variable {s : State} {straps : BitVec 4} {refOk : Bool} {ms : Nat} {bad : BitVec 132} {afail : Bool} {why : Nat} {k : Pick} {e : Bool}
  {b d u t : State} (h : Boots s straps refOk ms bad afail why k e b d u t)
include h

/-- Of the boot unit only the fields that boot names change. -/
theorem Boots.boot : { t.boot with ready := s.boot.ready, readyAt := s.boot.readyAt, flash := s.boot.flash, ecnt := s.boot.ecnt } =
    { s.boot with
      inReset := false, ports := true, bootAt := s.now, running := if why = 0 then k.run else none,
      straps := if s.boot.cause = 1 ∨ s.boot.cause = 2 then straps else s.boot.straps } := by
  have chain := h.ready.boot
  rw [h.start.boot, h.prep.boot, h.read.same, outOfReset_boot] at chain
  exact chain

theorem Boots.now : t.now = s.now + 200000 * ms := by
  rw [h.ready.now, h.start.now, h.prep.now, h.read.now, outOfReset_now, Nat.mul_comm]
  rfl

theorem Boots.running : t.boot.running = if why = 0 then k.run else none := (congrArg Boot.running h.boot :)

theorem Boots.tries : t.boot.tries = s.boot.tries := (congrArg Boot.tries h.boot :)

theorem Boots.sampled : t.boot.straps = if s.boot.cause = 1 ∨ s.boot.cause = 2 then straps else s.boot.straps :=
  (congrArg Boot.straps h.boot :)

theorem Boots.leaves : t.boot.inReset = false ∧ t.boot.ports = true :=
  ⟨(congrArg Boot.inReset h.boot :), (congrArg Boot.ports h.boot :)⟩

theorem Boots.fuses : fuses t = fuses s :=
  (congrArg (fun y : Boot => (y.stepB1, y.authFuse, y.keys, y.factory)) h.boot :)

theorem Boots.pllOk : t.hdg.pllOk = refOk := by
  rw [h.ready.hdg, h.start.pll, h.prep.hdg, h.read.hdg, outOfReset_pllOk]

/-- A register that neither the choice, the start nor READY sets is as after the reset. -/
theorem Boots.reg {r : Nat} (log : r ∉ faultRegs) (choice : r ∉ [0x0008, 0x0020, 0x002C]) (start : r ∉ startRegs)
    (ready : r ∉ [0x0018, 0x0E14]) : rd t r = rd (outOfReset s straps refOk (s.now + ms * msTicks)) r := by
  have rising : rd t r = rd u r := h.ready.regs r fun m => by
    rcases List.mem_append.mp (show r ∈ [0x0018, 0x0E14] ++ faultRegs from m) with m | m
    · exact ready m
    · exact log m
  have preparing : rd d r = rd b r := h.prep.regs r fun m => by
    rcases List.mem_append.mp (show r ∈ [0x0008, 0x0020, 0x002C] ++ faultRegs from m) with m | m
    · exact choice m
    · exact log m
  rw [rising, h.start.regs r start, preparing, h.read.regs r log]

theorem Boots.cause (hc : s.boot.cause < 16) (hn : s.boot.tries ≤ 4) :
    rd t 0x000C = BitVec.ofNat 32 (s.boot.cause + 16 * s.boot.tries) := by
  rw [h.reg (by decide) (by decide) (by decide) (by decide), outOfReset_cause _ _ _ _ h.wf, bootCause_eq hc hn]

theorem Boots.status : rd t 0x0008 = bootStatus why k ||| flag e 7 := by
  rw [h.ready.regs _ (by decide), h.start.status, h.prep.status]

/-- A sticky bit that is set before the start stays. -/
theorem Boots.sticky {a n : Nat} (m : a ∈ [0x0E00, 0x0E04]) (bitD : bit (rd d a) n = true) : bit (rd t a) n = true := by
  have apart : a ∉ startRegs := (by decide : ∀ a ∈ [0x0E00, 0x0E04], a ∉ startRegs) a m
  refine h.ready.sticky a n m ?_
  rwa [h.start.regs a apart]

theorem Boots.thermal (cause : s.boot.cause = 6) : bit (rd t 0x0E00) 13 = true := by
  refine h.ready.thermal ?_
  rw [h.start.boot, h.prep.boot, h.read.same, outOfReset_boot, cause]

/-- The array's flags and column map, and the record of a failed array. -/
theorem Boots.arr : t.arr.bistDone = true ∧ (t.arr.bistFail = true ↔ afail = true ∨ 4 < (failCols bad).length) ∧
    t.arr.map.length ≤ 4 ∧ t.arr.map.take (failCols bad).length = (failCols bad).take 4 ∧
    (t.arr.bistFail = true → bit (rd t 0x0E00) 12 = true) := by
  rw [h.ready.arr, h.start.arr]
  refine ⟨h.prep.done, ?_, h.prep.room, h.prep.map, fun failed => h.sticky (by decide) (h.prep.failed failed)⟩
  rw [h.prep.fail, Bool.or_eq_true, decide_eq_true_eq]

/-- The conductor as the start leaves it, and as it was before. -/
theorem Boots.cnd : { t.cnd with ipend := u.cnd.ipend } = u.cnd ∧ { d.cnd with ipend := s.cnd.ipend } = s.cnd := by
  refine ⟨h.ready.cnd, ?_⟩
  have prep := h.prep.cnd
  have read := h.read.cnd
  rw [outOfReset_cnd] at read
  exact (congrArg (fun c : Cnd => { c with ipend := s.cnd.ipend }) prep :).trans read
end

end Sys2Proof.Machine
end

section
/-! SUPPORT. BOOT_STATUS, and what the start of an image and SAFE mode deliver (R638, R645, R660). -/

namespace Sys2Proof.Machine
open Sys2Proof

/-- BOOT_STATUS of SAFE mode. -/
theorem bootStatus_safe {why : Nat} (k : Pick) (e : Bool) (safe : why ≠ 0) (few : why < 4) :
    fld (bootStatus why k ||| flag e 7) 0 5 = 7 + 8 * why := by
  have all : ∀ w < 4, w ≠ 0 → ∀ e, fld (place 3 0 ||| flag true 2 ||| place w 3 ||| flag false 6 ||| flag e 7) 0 5 = 7 + 8 * w := by decide
  have word : bootStatus why k = place 3 0 ||| flag true 2 ||| place why 3 ||| flag false 6 := by simp [bootStatus, safe]
  rw [word]
  exact all why few safe e

/-- BOOT_STATUS of an image that starts. -/
theorem bootStatus_runs {k : Pick} {slot : Nat} (e : Bool) (run : k.run = some slot) (lt : slot < 2) :
    let v := bootStatus 0 k ||| flag e 7
    fld v 0 5 = slot ∧ bit v 6 = k.fall.isSome ∧ bit v 7 = e := by
  have all : ∀ slot < 2, ∀ f e, let v := place slot 0 ||| flag false 2 ||| place 0 3 ||| flag f 6 ||| flag e 7
      fld v 0 5 = slot ∧ bit v 6 = f ∧ bit v 7 = e := by decide
  have word : bootStatus 0 k = place slot 0 ||| flag false 2 ||| place 0 3 ||| flag k.fall.isSome 6 := by simp [bootStatus, run]
  rw [word]
  exact all slot lt k.fall.isSome e

/-- SAFE mode for the reason `why`: no image runs, and the memory and the conductor stand. -/
def SafeMode (s t : State) (why : Nat) : Prop :=
  t.boot.running = none ∧ fld (rd t 0x0008) 0 5 = 7 + 8 * why ∧ bit (rd t 0x0E04) 8 = true ∧
    t.cnd.mem = s.cnd.mem ∧ t.cnd.running = s.cnd.running

/-- The image of `slot` runs, its code at 0 and its data at the start of data SRAM. -/
def Runs (s t : State) (slot : Nat) : Prop :=
  let h := flashBytes s (0x40000 * slot) 96
  t.boot.running = some slot ∧ fld (rd t 0x0008) 0 5 = slot ∧ t.cnd.running = true ∧
    t.cnd.pc = BitVec.ofNat 32 (entryNat h 0x48 4) ∧ rd t 0x060C = BitVec.ofNat 32 (entryNat h 0x54 4) ∧
    rd t 0x0010 = BitVec.ofNat 32 (entryNat h 0x24 4) ∧
    rdBytes t 0 (entryNat h 0x4C 4) = flashBytes s (0x40000 * slot + 96) (entryNat h 0x4C 4) ∧
    rdBytes t 0x10000000 (entryNat h 0x50 4) = flashBytes s (0x40000 * slot + 96 + entryNat h 0x4C 4) (entryNat h 0x50 4) ∧
    (flashBytes s 0x80000 4 = [0xFF, 0xFF, 0xFF, 0xFF] → bit (rd t 0x0008) 7 = true)

theorem region_slot {slot : Nat} (lt : slot < 2) : (region slot).1 = 0x40000 * slot :=
  (by decide : ∀ slot < 2, (region slot).1 = 0x40000 * slot) slot lt

section
variable {s : State} {straps : BitVec 4} {refOk : Bool} {ms : Nat} {bad : BitVec 132} {afail : Bool} {why : Nat} {k : Pick} {e : Bool}
  {b d u t : State}

theorem Boots.safeMode (h : Boots s straps refOk ms bad afail why k e b d u t) (safe : why ≠ 0) (few : why < 4)
    (cnd : u.cnd = d.cnd) : SafeMode s t why := by
  obtain ⟨after, before⟩ := h.cnd
  rw [cnd] at after
  refine ⟨?_, ?_, h.sticky (by decide) (h.prep.safe safe), (congrArg Cnd.mem after :).trans (congrArg Cnd.mem before :),
    (congrArg Cnd.running after :).trans (congrArg Cnd.running before :)⟩
  · rw [h.running, if_neg safe]
  · rw [h.status, bootStatus_safe k e safe few]

/-- The flash before the start is that before boot. -/
theorem Boots.flash (h : Boots s straps refOk ms bad afail why k e b d u t) : flashBytes d = flashBytes s := by
  funext a n
  rw [flashBytes, flashBytes, h.prep.boot, h.read.same, outOfReset_boot]

theorem Boots.runs (h : Boots s straps refOk ms bad afail 0 k e b d u t) {slot : Nat} (run : k.run = some slot) (lt : slot < 2)
    (usable : fwUsable s slot = true) (mem : twf 0 s.cnd.mem = true) (image : ImageStarted d slot u)
    (blank : flashBytes d 0x80000 4 = [0xFF, 0xFF, 0xFF, 0xFF] → e = true) : Runs s t slot := by
  obtain ⟨after, before⟩ := h.cnd
  obtain ⟨number, -, erased⟩ := bootStatus_runs e run lt
  have header : fwHeader d slot = flashBytes s (0x40000 * slot) 96 := by rw [fwHeader, h.flash, region_slot lt]
  have short : entryNat (flashBytes s (0x40000 * slot) 96) 0x4C 4 ≤ 32768 := by
    have := fwUsable_code usable
    rwa [fwHeader, region_slot lt] at this
  have code : slotCode d slot = flashBytes s (0x40000 * slot + 96) (entryNat (flashBytes s (0x40000 * slot) 96) 0x4C 4) := by
    rw [slotCode, header, h.flash, region_slot lt]
  have data : slotData d slot = flashBytes s (0x40000 * slot + 96 + entryNat (flashBytes s (0x40000 * slot) 96) 0x4C 4)
      (entryNat (flashBytes s (0x40000 * slot) 96) 0x50 4) := by
    rw [slotData, header, h.flash, region_slot lt]
  have copied : t.cnd.mem = imageMem s.cnd.mem (slotCode d slot) (slotData d slot) := by
    rw [← (congrArg Cnd.mem before :), ← image.mem]
    exact (congrArg Cnd.mem after :)
  refine ⟨?_, ?_, (congrArg Cnd.running after :).trans image.running, ?_, ?_, ?_, ?_, ?_, fun is => ?_⟩
  · rw [h.running, if_pos rfl, run]
  · rw [h.status, number]
  · rw [← header]
    exact (congrArg Cnd.pc after :).trans image.pc
  · rw [h.ready.regs _ (by decide), image.vector, header]
  · rw [h.ready.regs _ (by decide), image.version, fwVer, header]
  · have all := imageMem_code mem (code := slotCode d slot) (slotData d slot) (by
      rw [code, length_flashBytes]
      omega)
    rw [code, length_flashBytes, ← code, ← copied] at all
    rw [rdBytes, all, code]
  · have all := imageMem_data mem (slotCode d slot) (slotData d slot)
    rw [data, length_flashBytes, ← data, ← copied] at all
    rw [rdBytes, all, data]
  · rw [h.status, erased]
    exact blank (by rwa [h.flash])

/-- A fall-back, as BOOT_STATUS and the sticky faults say it (R656, R660). -/
theorem Boots.fell (h : Boots s straps refOk ms bad afail 0 k e b d u t) {slot : Nat} (run : k.run = some slot) (lt : slot < 2) :
    bit (rd t 0x0008) 6 = k.fall.isSome ∧ (k.fall.isSome = true → bit (rd t 0x0E04) 7 = true) := by
  refine ⟨?_, fun fell => h.sticky (by decide) (h.prep.fell rfl fell)⟩
  obtain ⟨-, fall, -⟩ := bootStatus_runs e run lt
  rw [h.status, fall]
end

end Sys2Proof.Machine
end

section
/-! SUPPORT. Boot from the choice of an image to its start or SAFE mode (R655, R656, R661). -/

namespace Sys2Proof.Machine
open Sys2Proof

/-- What every boot leaves, whether an image starts or not. -/
def BootDone (s t : State) (straps : BitVec 4) (refOk : Bool) (ms : Nat) (bad : BitVec 132) (afail : Bool) : Prop :=
  t.boot.ready = true ∧ t.boot.inReset = false ∧ t.boot.ports = true ∧ t.now = s.now + 200000 * ms ∧ t.boot.readyAt = t.now ∧
    t.boot.straps = (if s.boot.cause = 1 ∨ s.boot.cause = 2 then straps else s.boot.straps) ∧
    t.boot.tries = s.boot.tries ∧ fuses t = fuses s ∧ rd t 0x000C = BitVec.ofNat 32 (s.boot.cause + 16 * s.boot.tries) ∧
    rd t 0x0018 = BitVec.ofNat 32 (min 0xFFFF ms) ∧ (s.boot.cause = 6 → bit (rd t 0x0E00) 13 = true) ∧ t.hdg.pllOk = refOk ∧
    (t.arr.bistDone = true ∧ (t.arr.bistFail = true ↔ afail = true ∨ 4 < (failCols bad).length) ∧ t.arr.map.length ≤ 4 ∧
      t.arr.map.take (failCols bad).length = (failCols bad).take 4 ∧ (t.arr.bistFail = true → bit (rd t 0x0E00) 12 = true))

/-- The image that runs, or the reason for SAFE mode, as the choice `k` and the reference clock give it. -/
structure BootOutcome (s t : State) (refOk : Bool) (k : Pick) : Prop where
  noClock : refOk = false → SafeMode s t 2
  fourTries : refOk = true → s.boot.tries = 4 → SafeMode s t 3
  neither : refOk = true → s.boot.tries ≠ 4 → k.run = none → SafeMode s t 1
  runs slot : refOk = true → s.boot.tries ≠ 4 → k.run = some slot → slot < 2 → fwUsable s slot = true →
    Runs s t slot ∧ bit (rd t 0x0008) 6 = k.fall.isSome ∧ (k.fall.isSome = true → bit (rd t 0x0E04) 7 = true)

theorem Boots.done {s : State} {straps : BitVec 4} {refOk : Bool} {ms : Nat} {bad : BitVec 132} {afail : Bool} {why : Nat} {k : Pick}
    {e : Bool} {b d u t : State} (h : Boots s straps refOk ms bad afail why k e b d u t) (hc : s.boot.cause < 16)
    (hn : s.boot.tries ≤ 4) : BootDone s t straps refOk ms bad afail := by
  obtain ⟨inReset, ports⟩ := h.leaves
  exact ⟨h.ready.ready, inReset, ports, h.now, h.ready.readyAt, h.sampled, h.tries, h.fuses, h.cause hc hn, h.ready.time, h.thermal,
    h.pllOk, h.arr⟩

theorem safeWhy_cases (b : State) (refOk : Bool) (k : Pick) :
    refOk = false ∧ safeWhy b refOk k = 2 ∨ refOk = true ∧ b.boot.tries = 4 ∧ safeWhy b refOk k = 3 ∨
      refOk = true ∧ b.boot.tries ≠ 4 ∧ k.run = none ∧ safeWhy b refOk k = 1 ∨
      refOk = true ∧ b.boot.tries ≠ 4 ∧ k.run.isSome = true ∧ safeWhy b refOk k = 0 := by
  unfold safeWhy
  cases refOk <;> by_cases tries : b.boot.tries = 4 <;> cases k.run <;> simp [tries]

/-- The log read after reset leaves the flash, the fuses and BOOT_TRIES. -/
theorem Queued.sameRom {s : State} {straps : BitVec 4} {refOk : Bool} {now : Nat} {b : State}
    (read : Queued (outOfReset s straps refOk now) b) : SameRom s b := by
  have same := read.same
  rw [outOfReset_boot] at same
  constructor <;> rw [same]

theorem bootRun_boots {s : State} (w : twf 0 s.regs = true) (straps : BitVec 4) (refOk : Bool) (ms : Nat) (logOk : Bool)
    (bad : BitVec 132) (afail : Bool) : ∃ b why e d u, Queued (outOfReset s straps refOk (s.now + ms * msTicks)) b ∧
      why = safeWhy b refOk (bootPick b) ∧
      Boots s straps refOk ms bad afail why (bootPick b) e b d u (bootRun s straps refOk ms logOk bad afail) ∧
      (why ≠ 0 → u.cnd = d.cnd) ∧
      ∀ slot, why = 0 → (bootPick b).run = some slot →
        ImageStarted d slot u ∧ (flashBytes d 0x80000 4 = [0xFF, 0xFF, 0xFF, 0xFF] → e = true) := by
  have read := bootLog_queued (outOfReset s straps refOk (s.now + ms * msTicks))
  obtain ⟨uses, factory, is⟩ := bootRun_eq s straps refOk ms logOk bad afail
  rw [is]
  clear is
  generalize bootLog (outOfReset s straps refOk (s.now + ms * msTicks)) = b at read
  obtain ⟨why, reason⟩ : ∃ why, why = safeWhy b refOk (bootPick b) := ⟨_, rfl⟩
  rw [← reason]
  have prep := prepared_spec (read.wf (outOfReset_wf s straps refOk _ w)) why (bootPick b) bad afail
  generalize prepared b why (bootPick b) bad afail = d at prep
  have running : d.boot.running = if why = 0 then (bootPick b).run else none := by rw [prep.boot]
  cases run : (if why = 0 then (bootPick b).run else none) with
  | none =>
    obtain ⟨start, cnd⟩ := bootStart_safe prep.wf (running.trans run)
    refine ⟨b, why, true, d, _, read, reason, ⟨w, read, prep, start, readied_spec start.wf ms uses factory logOk⟩, fun _ => cnd,
      fun slot zero some => ?_⟩
    rw [if_pos zero, some] at run
    cases run
  | some slot =>
    obtain ⟨e, start, blank, image⟩ := bootStart_image prep.wf (running.trans run)
    have zero : why = 0 := by
      by_contra safe
      rw [if_neg safe] at run
      cases run
    refine ⟨b, why, e, d, _, read, reason, ⟨w, read, prep, start, readied_spec start.wf ms uses factory logOk⟩,
      fun safe => absurd zero safe, fun slot' _ some => ?_⟩
    rw [if_pos zero, some] at run
    obtain rfl := Option.some.inj run
    exact ⟨image, blank⟩

/-- Boot, with the image chosen on the flash and the fuses of the state before it. -/
theorem bootRun_spec {s : State} (w : twf 0 s.regs = true) (mem : twf 0 s.cnd.mem = true) (hc : s.boot.cause < 16)
    (hn : s.boot.tries ≤ 4) (straps : BitVec 4) (refOk : Bool) (ms : Nat) (logOk : Bool) (bad : BitVec 132) (afail : Bool) :
    ∃ b, SameRom s b ∧ BootDone s (bootRun s straps refOk ms logOk bad afail) straps refOk ms bad afail ∧
      BootOutcome s (bootRun s straps refOk ms logOk bad afail) refOk (bootPick b) := by
  obtain ⟨b, why, e, d, u, read, reason, boots, safe, image⟩ := bootRun_boots w straps refOk ms logOk bad afail
  generalize bootRun s straps refOk ms logOk bad afail = t at boots
  have rom := read.sameRom
  have safeMode : ∀ y, y = why → y ≠ 0 → y < 4 → SafeMode s t y := by
    rintro y rfl ne lt
    exact boots.safeMode ne lt (safe ne)
  have reasons := safeWhy_cases b refOk (bootPick b)
  rw [← reason, rom.tries] at reasons
  refine ⟨b, rom, boots.done hc hn, fun clock => ?_, fun clock tries => ?_, fun clock tries run => ?_,
    fun slot clock tries run lt usable => ?_⟩
  · exact safeMode 2 (by simp_all) (by decide) (by decide)
  · exact safeMode 3 (by simp_all) (by decide) (by decide)
  · exact safeMode 1 (by simp_all) (by decide) (by decide)
  · obtain rfl : why = 0 := by simp_all
    obtain ⟨started, blank⟩ := image slot rfl run
    exact ⟨boots.runs run lt usable mem started blank, boots.fell run lt⟩

end Sys2Proof.Machine
end

section
/-! SUPPORT. The first choice of an image, as the selection record and the versions give it (R655, R656). -/

namespace Sys2Proof.Machine
open Sys2Proof

section
variable {s b t : State} (rom : SameRom s b)
include rom

/-- The first choice starts, or when it fails the other slot, or when that fails too SAFE mode does. -/
theorem BootOutcome.first (out : BootOutcome s t true (bootPick b)) (few : s.boot.tries < 2) {a : Nat}
    (first : firstChoice s = some a) (lt : a < 2) (usable : fwUsable s a = true) :
    (fwCheck s a = none → Runs s t a ∧ bit (rd t 0x0008) 6 = false) ∧
      (fwCheck s a ≠ none → fwUsable s (1 - a) = true → fwCheck s (1 - a) = none →
        Runs s t (1 - a) ∧ bit (rd t 0x0008) 6 = true ∧ bit (rd t 0x0E04) 7 = true) ∧
      (fwCheck s a ≠ none → fwUsable s (1 - a) = false ∨ fwCheck s (1 - a) ≠ none → SafeMode s t 1) := by
  have firstB : firstChoice b = some a := by rw [rom.firstChoice, first]
  have fewB : b.boot.tries < 2 := by rwa [rom.tries]
  have notFour : s.boot.tries ≠ 4 := by omega
  refine ⟨fun passes => ?_, fun fails usable' passes => ?_, fun fails second => ?_⟩
  · obtain ⟨run, fall⟩ := bootPick_passes firstB fewB (by rwa [rom.fwCheck])
    obtain ⟨runs, bit6, -⟩ := out.runs a rfl notFour run lt usable
    exact ⟨runs, by rw [bit6, fall]; rfl⟩
  · obtain ⟨starts, -⟩ := bootPick_fails firstB fewB (by rwa [rom.fwCheck])
    obtain ⟨run, fall⟩ := starts (by rwa [rom.fwUsable]) (by rwa [rom.fwCheck])
    obtain ⟨runs, bit6, fell⟩ := out.runs (1 - a) rfl notFour run (by omega) usable'
    exact ⟨runs, bit6.trans fall, fell fall⟩
  · obtain ⟨-, neither⟩ := bootPick_fails firstB fewB (by rwa [rom.fwCheck])
    exact out.neither rfl notFour (neither (by rwa [rom.fwUsable, rom.fwCheck]))

/-- Neither slot is usable: SAFE mode. -/
theorem BootOutcome.unusable (out : BootOutcome s t true (bootPick b)) (few : s.boot.tries < 2) (zero : fwUsable s 0 = false)
    (one : fwUsable s 1 = false) : SafeMode s t 1 := by
  refine out.neither rfl (by omega) ?_
  rw [bootPick, rom.firstChoice, firstChoice_none zero one]
end

/-- The first choice, when the selection record applies or both slots are usable. -/
theorem firstChoice_spec {s : State} {a : Nat} (h : selChoice s = some a ∨
    selChoice s = none ∧ fwUsable s 0 = true ∧ fwUsable s 1 = true ∧ a = if fwVer s 0 < fwVer s 1 then 1 else 0) :
    firstChoice s = some a ∧ a < 2 ∧ fwUsable s a = true := by
  obtain record | ⟨none, zero, one, rfl⟩ := h
  · exact ⟨firstChoice_of_sel record, selChoice_usable record⟩
  · refine ⟨firstChoice_of_versions none zero one, ?_⟩
    split
    · exact ⟨by decide, one⟩
    · exact ⟨by decide, zero⟩

theorem execBoot_stays {s : State} (straps : BitVec 4) (refOk : Bool) (ms : Nat) (logOk : Bool) (bad : BitVec 132) (afail : Bool)
    (h : s.boot.inReset = false ∨ s.pwr.shutdown = true) : exec (.boot straps refOk ms logOk bad afail) s = .next s := by
  have holds : (s.boot.inReset && !s.pwr.shutdown) = false := by
    obtain h | h := h
    · rw [h, Bool.false_and]
    · rw [h, Bool.not_true, Bool.and_false]
  exact congrArg Host.Outcome.next (if_neg (holds.trans_ne Bool.false_ne_true))

theorem execBoot_boots {s : State} (straps : BitVec 4) (refOk : Bool) (ms : Nat) (logOk : Bool) (bad : BitVec 132) (afail : Bool)
    (reset : s.boot.inReset = true) (up : s.pwr.shutdown = false) :
    exec (.boot straps refOk ms logOk bad afail) s = .next (bootRun s straps refOk ms logOk bad afail) := by
  have leaves : (s.boot.inReset && !s.pwr.shutdown) = true := by rw [reset, up, Bool.not_false, Bool.and_true]
  exact congrArg Host.Outcome.next (if_pos leaves)

end Sys2Proof.Machine
end

section
open Sys2Proof Sys2Proof.Machine

/-- Settles O47: boot is the log's reading, the choice, the array's test, the start and READY, each of which leaves what the others
deliver; the choice rests on the flash, the fuses and BOOT_TRIES, which no stage before it changes. -/
theorem bootStartsAnImage : Obligations.BootStartsAnImage := by
  unfold Obligations.BootStartsAnImage
  intro s straps refOk ms logOk bad afail
  refine ⟨execBoot_stays straps refOk ms logOk bad afail, fun reset up w mem hc hn => ?_⟩
  obtain ⟨b, rom, done, out⟩ := bootRun_spec w mem hc hn straps refOk ms logOk bad afail
  refine ⟨_, execBoot_boots straps refOk ms logOk bad afail reset up, ?_⟩
  generalize bootRun s straps refOk ms logOk bad afail = t at done out
  obtain ⟨ready, inReset, ports, now, readyAt, sampled, tries, fuses, cause, time, thermal, pllOk, arr⟩ := done
  refine ⟨ready, inReset, ports, now, readyAt, sampled, tries, fuses, cause, time, thermal, pllOk, arr, ?_⟩
  intro safe starts first newer
  refine ⟨out.noClock, out.fourTries, ?_⟩
  rintro rfl few
  have record : first = selChoice s := by
    simp only [first]
    unfold selChoice
    cases newestSel s with
    | none => rfl
    | some x => simp only [Bool.and_eq_true, decide_eq_true_eq]; rfl
  refine ⟨fun a chosen => ?_, out.unusable rom few⟩
  rw [record] at chosen
  obtain ⟨choice, lt, usable⟩ := firstChoice_spec chosen
  exact out.first rom few choice lt usable

end
